-- ==== Sys2Proof/Word.lean ====
section
/-! DEFINITION. Word types and the sparse map type that the state is built from (spec/00_scope.md R4, R9).

A sparse map is a list of (key, value) pairs.
Its canonical form (`mwf`, in `Sys2Proof.Machine.SMap`) has strictly rising keys and lists no default value. -/

namespace Sys2Proof

/-- A register word, 32 bits wide (R9). -/
abbrev Word := BitVec 32
/-- A 64-bit quantity (R9, R10). -/
abbrev Dword := BitVec 64
/-- A byte of memory, the smallest addressable unit (R5). -/
abbrev Byte := BitVec 8

/-- A sparse map from numbers to values, in one canonical form (`mwf`). -/
abbrev SMap (α : Type) := List (Nat × α)

end Sys2Proof
end

