-- ==== Sys2Proof/Machine/Numeric.lean ====
section
/-! DEFINITION. Number formats, rounding, block quantisation and the counter-based generator
(spec/02_number_formats.md R55 to R100). Everything here is a pure function on numbers. -/

namespace Sys2Proof.Machine

/-- Format codes of R55. -/
inductive Fmt where
  | kf32 | kf16 | kf8 | kg8 | k4 | k2
deriving DecidableEq, Repr

/-- The format that a 4-bit code names; 0x6 to 0xF are reserved (R55). -/
def Fmt.ofCode : Nat → Option Fmt
  | 0 => some .kf32 | 1 => some .kf16 | 2 => some .kf8 | 3 => some .kg8 | 4 => some .k4 | 5 => some .k2
  | _ => none

/-- Element size in bits (R55). -/
def Fmt.bits : Fmt → Nat
  | .kf32 => 32 | .kf16 => 16 | .kf8 => 8 | .kg8 => 8 | .k4 => 4 | .k2 => 2

/-- K4 and K2 are held in blocks of 32 elements (R68). -/
def Fmt.isBlock : Fmt → Bool
  | .k4 => true | .k2 => true | _ => false

/-- Rounding modes of R56. -/
inductive Rnd where
  | rne | sr | rtz
deriving DecidableEq, Repr

/-- The rounding mode that a 2-bit code names; 0b11 is reserved (R56). -/
def Rnd.ofCode : Nat → Option Rnd
  | 0 => some .rne | 1 => some .sr | 2 => some .rtz | _ => none

/-- A decoded value: NaN, infinity, or plus or minus `m × 2^e` exactly. A zero keeps its sign. -/
inductive Num where
  | nan (neg : Bool)
  | inf (neg : Bool)
  | fin (neg : Bool) (m : Nat) (e : Int)
deriving DecidableEq, Repr

/-- Plus zero. -/
def Num.zero : Num := .fin false 0 0

def Num.isFinite : Num → Bool
  | .fin _ _ _ => true | _ => false

def Num.neg : Num → Bool
  | .nan s => s | .inf s => s | .fin s _ _ => s

def Num.isNan : Num → Bool
  | .nan _ => true | _ => false

def Num.isZero : Num → Bool
  | .fin _ m _ => m = 0 | _ => false

def Num.withSign (neg : Bool) : Num → Num
  | .nan _ => .nan neg | .inf _ => .inf neg | .fin _ m e => .fin neg m e

/-- floor(m × 2^k). -/
def shiftNat (m : Nat) (k : Int) : Nat :=
  if 0 ≤ k then m * 2 ^ k.toNat else m / 2 ^ (-k).toNat

/-- m × 2^k is a whole number. -/
def shiftExact (m : Nat) (k : Int) : Bool :=
  decide (0 ≤ k) || decide (m % 2 ^ (-k).toNat = 0)

/-- m × 2^e ≤ n × 2^f, compared at a common exponent. -/
def leDyadic (m : Nat) (e : Int) (n : Nat) (f : Int) : Bool :=
  let g := min e f
  decide (m * 2 ^ (e - g).toNat ≤ n * 2 ^ (f - g).toNat)

/-- Square root rounded down, one bit per step of `fuel`. -/
def isqrtFrom : Nat → Nat → Nat → Nat
  | 0, _, r => r
  | fuel + 1, n, r =>
    let t := r + 2 ^ fuel
    isqrtFrom fuel n (if t * t ≤ n then t else r)

/-- Square root rounded down. -/
def isqrt (n : Nat) : Nat := isqrtFrom (Nat.log2 n / 2 + 1) n 0

/-- A positive real magnitude, known through its leading exponent and through floor(x × 2^k), with a flag
telling whether x × 2^k is a whole number. -/
structure Mag where
  lead  : Int
  floor : Int → Nat
  exact : Int → Bool

/-- The magnitude m × 2^e, m > 0. -/
def Mag.dyadic (m : Nat) (e : Int) : Mag where
  lead := Nat.log2 m + e
  floor k := shiftNat m (e + k)
  exact k := shiftExact m (e + k)

/-- The magnitude (p / q) × 2^e, p and q > 0. -/
def Mag.ratio (p q : Nat) (e : Int) : Mag where
  lead :=
    let d : Int := (Nat.log2 p : Int) - Nat.log2 q
    if leDyadic q d p 0 then d + e else d - 1 + e
  floor k := if 0 ≤ e + k then p * 2 ^ (e + k).toNat / q else p / (q * 2 ^ (-(e + k)).toNat)
  exact k := if 0 ≤ e + k then decide (p * 2 ^ (e + k).toNat % q = 0)
    else decide (p % (q * 2 ^ (-(e + k)).toNat) = 0)

/-- The square root of m × 2^e, m > 0. -/
def Mag.sqrt (m : Nat) (e : Int) : Mag where
  lead := (Nat.log2 m + e) / 2
  floor k := isqrt (shiftNat m (e + 2 * k))
  exact k :=
    let n := shiftNat m (e + 2 * k)
    shiftExact m (e + 2 * k) && decide (isqrt n * isqrt n = n)

/-- One over the square root of m × 2^e, m > 0. -/
def Mag.rsqrt (m : Nat) (e : Int) : Mag where
  lead :=
    -- floor of log2 (x^(-1/2)): -log2 x / 2 when x is a power of four, else one below the ceiling
    let l : Int := Nat.log2 m + e
    if decide (2 ^ Nat.log2 m = m) && decide (l % 2 = 0) then -(l / 2) else -(l / 2) - 1
  floor k := isqrt ((Mag.ratio 1 m (-e)).floor (2 * k))
  exact k :=
    let r := Mag.ratio 1 m (-e)
    let n := r.floor (2 * k)
    r.exact (2 * k) && decide (isqrt n * isqrt n = n)

/-- Parameters of a floating-point grid: mantissa bits, exponent of the smallest normal, the code of infinity
(formats with infinities) or the largest code, and the sign's place. -/
structure Grid where
  mant  : Nat
  emin  : Int
  hasInf : Bool
  top   : Nat     -- code of infinity, or largest code of a saturating format
  width : Nat
deriving DecidableEq, Repr

/-- The grid of each element format (R60 to R63, R66, R67). -/
def Fmt.grid : Fmt → Grid
  | .kf32 => ⟨23, -126, true, 0x7F800000, 32⟩
  | .kf16 => ⟨7, -126, true, 0x7F80, 16⟩
  | .kf8  => ⟨3, -6, false, 0x7E, 8⟩
  | .kg8  => ⟨1, -30, false, 0x7E, 8⟩
  | .k4   => ⟨1, 0, false, 7, 4⟩
  | .k2   => ⟨0, 0, false, 1, 2⟩

/-- Rounding of a positive magnitude onto a grid (R75 to R78): the magnitude code and whether it saturated.
`u` is the 16-bit draw of SR (R76). -/
def roundMag (g : Grid) (mode : Rnd) (u : Nat) (x : Mag) : Nat × Bool :=
  let s : Int := (if x.lead < g.emin then g.emin else x.lead) - g.mant
  let n := x.floor (-s)
  let up : Bool :=
    if x.exact (-s) then false
    else match mode with
      | .rtz => false
      | .rne =>
        let h := x.floor (1 - s)
        if h % 2 = 0 then false
        else if x.exact (1 - s) then decide (n % 2 = 1) else true
      | .sr => decide (u < x.floor (16 - s) - 65536 * n)
  let base : Int := (s + g.mant - g.emin) * 2 ^ g.mant
  let lo := (base + n).toNat
  let code := if up then lo + 1 else lo
  if g.hasInf then
    if code < g.top then (code, false)
    else match mode with
      | .rtz => (g.top - 1, false)
      | _ => (g.top, false)
  else
    (if code ≤ g.top then code else g.top,
      decide (g.top < lo) || (decide (lo = g.top) && !x.exact (-s)))

/-- The code of NaN in each element format, without its sign (R60 to R63). -/
def Fmt.nanCode : Fmt → Nat
  | .kf32 => 0x7FC00000 | .kf16 => 0x7FC0 | .kf8 => 0x7F | .kg8 => 0x7F | .k4 => 0 | .k2 => 0

/-- `code` with the sign bit of the format set when `neg`. -/
def signCode (g : Grid) (neg : Bool) (code : Nat) : Nat :=
  if neg then code + 2 ^ (g.width - 1) else code

/-- The rounding mode a conversion into `f` uses: KG8 always rounds stochastically (R64). -/
def Fmt.mode (f : Fmt) (r : Rnd) : Rnd := if f = .kg8 then .sr else r

/-- Encoding of a value into KF32, KF16, KF8 or KG8 (R60 to R64, R78, R80): code and saturation. -/
def encodeNum (f : Fmt) (r : Rnd) (u : Nat) : Num → Nat × Bool
  | .nan s => (signCode f.grid s f.nanCode, false)
  | .inf s => (signCode f.grid s f.grid.top, !f.grid.hasInf)
  | .fin s m e =>
    if m = 0 then (signCode f.grid s 0, false)
    else
      let (c, sat) := roundMag f.grid (f.mode r) u (Mag.dyadic m e)
      (signCode f.grid s c, sat)

/-- Encoding of a signed real magnitude that is not zero. -/
def encodeMag (f : Fmt) (r : Rnd) (u : Nat) (neg : Bool) (x : Mag) : Nat × Bool :=
  let (c, sat) := roundMag f.grid (f.mode r) u x
  (signCode f.grid neg c, sat)

/-- Decoding of an element of KF32, KF16, KF8 or KG8 (R60 to R63). -/
def decodeNum (f : Fmt) (code : Nat) : Num :=
  let g := f.grid
  let neg := decide (code / 2 ^ (g.width - 1) % 2 = 1)
  let c := code % 2 ^ (g.width - 1)
  if g.hasInf then
    if c = g.top then .inf neg
    else if g.top < c then .nan neg
    else
      let ex := c / 2 ^ g.mant
      let fr := c % 2 ^ g.mant
      if ex = 0 then .fin neg fr (g.emin - g.mant)
      else .fin neg (2 ^ g.mant + fr) (g.emin - g.mant + (ex - 1 : Nat))
  else if g.top < c then .nan neg
  else
    let ex := c / 2 ^ g.mant
    let fr := c % 2 ^ g.mant
    if ex = 0 then .fin neg fr (g.emin - g.mant)
    else .fin neg (2 ^ g.mant + fr) (g.emin - g.mant + (ex - 1 : Nat))

/-- Code value of a K4 element in halves (R66): the value is half of it. -/
def k4Halves : Nat → Nat
  | 0 => 0 | 1 => 1 | 2 => 2 | 3 => 3 | 4 => 4 | 5 => 6 | 6 => 8 | _ => 12

/-- An escape entry of a block (R71). -/
structure Escapes where
  count : Nat := 0
  pos0  : Nat := 0
  val0  : Nat := 0
  pos1  : Nat := 0
  val1  : Nat := 0
deriving DecidableEq, Repr

/-- The fields of a 64-bit escape entry (R71). -/
def Escapes.ofBits (w : Nat) : Escapes :=
  { val0 := w % 2 ^ 16, val1 := w / 2 ^ 16 % 2 ^ 16, pos0 := w / 2 ^ 32 % 32, pos1 := w / 2 ^ 37 % 32,
    count := w / 2 ^ 42 % 4 }

/-- The 64-bit escape entry, reserved bits 0 (R71). -/
def Escapes.toBits (x : Escapes) : Nat :=
  x.val0 % 2 ^ 16 + 2 ^ 16 * (x.val1 % 2 ^ 16) + 2 ^ 32 * (x.pos0 % 32) + 2 ^ 37 * (x.pos1 % 32)
    + 2 ^ 42 * (x.count % 4)

/-- The block reads as a NaN block (R65, R73). -/
def nanBlock (scale : Nat) (x : Escapes) : Bool :=
  decide (scale = 0xFF) || decide (x.count = 3) || (decide (x.count = 2) && decide (x.pos0 = x.pos1))

/-- Decoding of element `i` of a K4 or K2 block (R65 to R74). The NaN of a NaN block, and of an escape marker without
an entry, is positive: the spec gives it no sign (DESIGN CHOICE, assumption log entry 148). -/
def decodeBlockElem (f : Fmt) (scale : Nat) (x : Escapes) (i code : Nat) : Num :=
  if nanBlock scale x then .nan false
  else if decide (1 ≤ x.count) && decide (x.pos0 = i) then decodeNum .kf16 x.val0
  else if decide (2 ≤ x.count) && decide (x.pos1 = i) then decodeNum .kf16 x.val1
  else if f = .k2 then
    match code % 4 with
    | 0 => .fin false 0 0
    | 1 => .fin false 1 ((scale : Int) - 127)
    | 3 => .fin true 1 ((scale : Int) - 127)
    | _ => .nan false
  else .fin (decide (8 ≤ code % 16)) (k4Halves (code % 8)) ((scale : Int) - 128)

/-! ### Exact arithmetic on values -/

/-- The signed mantissa of a finite value. -/
def signedMant (neg : Bool) (m : Nat) : Int := if neg then -(m : Int) else m

/-- Exact sum of finite values as a signed mantissa and exponent. -/
def addSigned (a : Int) (e : Int) (b : Int) (f : Int) : Int × Int :=
  let g := min e f
  (a * 2 ^ (e - g).toNat + b * 2 ^ (f - g).toNat, g)

/-- The value of a signed mantissa; an exact zero is +0. -/
def Num.ofInt (a : Int) (e : Int) : Num := .fin (decide (a < 0)) a.natAbs e

/-- Exact sum. NaN wins, opposite infinities give NaN, an exact zero of operands that are not both
negative zeros is +0 (IEEE 754-2019 in the nearest and stochastic modes, R60). -/
def Num.add : Num → Num → Num
  | .nan _, _ => .nan false
  | _, .nan _ => .nan false
  | .inf s, .inf t => if s = t then .inf s else .nan false
  | .inf s, _ => .inf s
  | _, .inf t => .inf t
  | .fin s m e, .fin t n f =>
    if m = 0 ∧ n = 0 then .fin (s && t) 0 0
    else
      let r := addSigned (signedMant s m) e (signedMant t n) f
      Num.ofInt r.1 r.2

/-- The negated value. -/
def Num.negate (x : Num) : Num := x.withSign (!x.neg)

/-- Exact product (R96, R99): infinity × 0 is NaN. -/
def Num.mul : Num → Num → Num
  | .nan _, _ => .nan false
  | _, .nan _ => .nan false
  | .inf s, .inf t => .inf (s != t)
  | .inf s, .fin t n _ => if n = 0 then .nan false else .inf (s != t)
  | .fin s m _, .inf t => if m = 0 then .nan false else .inf (s != t)
  | .fin s m e, .fin t n f => .fin (s != t) (m * n) (e + f)

/-- |x| ≤ |y| in the ranking of R84: NaN above infinity above finite. -/
def Num.magLe : Num → Num → Bool
  | _, .nan _ => true
  | .nan _, _ => false
  | _, .inf _ => true
  | .inf _, _ => false
  | .fin _ m e, .fin _ n f => leDyadic m e n f

/-- x < y for values that are not NaN; zeros compare equal. -/
def Num.lt : Num → Num → Bool
  | .nan _, _ => false
  | _, .nan _ => false
  | .inf s, .inf t => s && !t
  | .inf s, .fin _ _ _ => s
  | .fin _ _ _, .inf t => !t
  | .fin s m e, .fin t n f =>
    let g := min e f
    decide (signedMant s m * 2 ^ (e - g).toNat < signedMant t n * 2 ^ (f - g).toNat)

/-! ### Block quantisation (R83 to R86) -/

/-- A quantised block: KE8 scale, codes in position order, escape entry, and two flags of R158. -/
structure QBlock where
  scale : Nat
  codes : List Nat
  esc   : Escapes
  isNan : Bool := false
  sat   : Bool := false
deriving DecidableEq, Repr

/-- Positions with their values, in position order. -/
def positions (vs : List Num) : List (Nat × Num) := (List.range vs.length).zip vs

/-- Insert a position into a list ranked by magnitude, largest first, ties by lower position (R84). -/
def rankInsert (p : Nat × Num) : List (Nat × Num) → List (Nat × Num)
  | [] => [p]
  | q :: qs => if Num.magLe p.2 q.2 then q :: rankInsert p qs else p :: q :: qs

/-- Positions ranked by magnitude, largest first; equal magnitudes keep rising positions (R84). -/
def rankAll (vs : List Num) : List (Nat × Num) :=
  (positions vs).foldl (fun acc p => rankInsert p acc) []

/-- The value may escape against the third-largest magnitude `m3` and ratio 2^(code+1) (R83, R84). -/
def escapes? (code : Nat) (m3 v : Num) : Bool :=
  match v with
  | .fin _ m e =>
    match m3 with
    | .fin _ n f => !leDyadic m e n (f + code + 1)
    | _ => false
  | _ => true

/-- The escaped positions in rank order, at most two (R84). -/
def escapedPositions (code : Nat) (vs : List Num) : List (Nat × Num) :=
  if code = 0 then []
  else
    match rankAll vs with
    | a :: b :: c :: _ =>
      if escapes? code c.2 a.2 then (if escapes? code c.2 b.2 then [a, b] else [a]) else []
    | a :: b :: [] => if escapes? code .zero a.2 then (if escapes? code .zero b.2 then [a, b] else [a]) else []
    | [a] => if escapes? code .zero a.2 then [a] else []
    | [] => []

/-- The smallest e in 0 to 254 with n × 2^f ≤ c × 2^(e − 127), or 254 (R84, R85). -/
def scaleFor (c n : Nat) (f : Int) : Nat :=
  ((List.range 255).find? (fun (e : Nat) => leDyadic n f c ((e : Int) - 127))).getD 254

/-- The largest magnitude among finite values, as mantissa and exponent. -/
def maxMag (vs : List Num) : Nat × Int :=
  vs.foldl (fun a v => match v with
    | .fin _ m e => if leDyadic m e a.1 a.2 then a else (m, e)
    | _ => a) (0, 0)

/-- The exact sum of the magnitudes of finite values. -/
def sumMag (vs : List Num) : Nat × Int :=
  vs.foldl (fun a v => match v with
    | .fin _ m e =>
      let g := min a.2 e
      (a.1 * 2 ^ (a.2 - g).toNat + m * 2 ^ (e - g).toNat, g)
    | _ => a) (0, 0)

/-- Escape entry of the escaped positions, their values rounded into KF16 (R71, R84). -/
def escapeEntry (mode : Rnd) (u : Nat → Nat) (xs : List (Nat × Num)) : Escapes :=
  match xs with
  | [] => {}
  | [a] => { count := 1, pos0 := a.1, val0 := (encodeNum .kf16 mode (u a.1) a.2).1 }
  | a :: b :: _ =>
    { count := 2, pos0 := a.1, val0 := (encodeNum .kf16 mode (u a.1) a.2).1,
      pos1 := b.1, val1 := (encodeNum .kf16 mode (u b.1) b.2).1 }

/-- The K4 code of a value divided by 2^(e − 127), and whether it saturated (R84, R78). A zero is 0x0. -/
def k4Code (mode : Rnd) (u : Nat) (e : Nat) : Num → Nat × Bool
  | .fin s m f =>
    if m = 0 then (0, false)
    else
      let r := roundMag Fmt.k4.grid mode u (Mag.dyadic m (f - ((e : Int) - 127)))
      (if r.1 = 0 then 0 else signCode Fmt.k4.grid s r.1, r.2)
  | _ => (0, false)

/-- The K2 code of a value divided by 2^(e − 127), and whether it went beyond ±1 with no scale left (R85). -/
def k2Code (mode : Rnd) (u : Nat) (e : Nat) : Num → Nat × Bool
  | .fin s m f =>
    if m = 0 then (0, false)
    else
      let r := roundMag Fmt.k2.grid mode u (Mag.dyadic m (f - ((e : Int) - 127)))
      (if r.1 = 0 then 0 else if s then 3 else 1, r.2)
  | _ => (0, false)

/-- Block quantisation into K4 (R84) or K2 (R85); `u i` is the SR draw of position i. -/
def quantise (f : Fmt) (escCode : Nat) (mode : Rnd) (u : Nat → Nat) (vs : List Num) : QBlock :=
  let escs := escapedPositions escCode vs
  let isEsc := fun i => escs.any (fun p => p.1 = i)
  let rest := (positions vs).filter (fun p => !isEsc p.1)
  if rest.any (fun p => !p.2.isFinite) then
    { scale := 0xFF, codes := vs.map (fun _ => 0), esc := {}, isNan := true }
  else
    let vals := rest.map (·.2)
    if f = .k2 then
      let a := sumMag vals
      let e := scaleFor rest.length a.1 a.2
      let short := !leDyadic a.1 a.2 rest.length 127   -- the mean exceeds 2^127 (R78)
      let cs := (positions vs).map (fun p => if isEsc p.1 then (2, false) else k2Code mode (u p.1) e p.2)
      { scale := e, codes := cs.map (·.1), esc := escapeEntry mode u escs,
        sat := short && cs.any (·.2) }
    else
      let m := maxMag vals
      let e := scaleFor 6 m.1 m.2
      let cs := (positions vs).map (fun p => if isEsc p.1 then (0, false) else k4Code mode (u p.1) e p.2)
      { scale := e, codes := cs.map (·.1), esc := escapeEntry mode u escs, sat := cs.any (·.2) }

/-! ### The counter-based generator (R87 to R94) -/

/-- Word `i` of the key schedule of R87. -/
def genKey (key : Dword) (i : Nat) : Word :=
  let a : Word := key.setWidth 32
  let b : Word := (key >>> 32).setWidth 32
  match i % 3 with
  | 0 => a | 1 => b | _ => a ^^^ b ^^^ 0x6b2e59a3#32

/-- Rotation amounts of a round (R87). -/
def genRot : Nat → Nat × Nat
  | 0 => (8, 20) | 1 => (12, 24) | 2 => (16, 4) | _ => (28, 12)

/-- The four words of the generator. -/
structure GenState where
  x0 : Word
  x1 : Word
  x2 : Word
  x3 : Word
deriving DecidableEq, Repr

/-- One round of R87. -/
def genRound (key : Dword) (rnd : Nat) (g : GenState) : GenState :=
  let x0 := g.x0 + genKey key rnd + g.x1
  let x2 := g.x2 + genKey key (rnd + 1) + BitVec.ofNat 32 rnd + g.x3
  let x1 := g.x1.rotateLeft (genRot rnd).1 ^^^ x0
  let x3 := g.x3.rotateLeft (genRot rnd).2 ^^^ x2
  { x0, x1 := x3, x2, x3 := x1 }

/-- The 128-bit output of the generator (R87). -/
def generate (counter : BitVec 128) (key : Dword) : BitVec 128 :=
  let g : GenState :=
    { x0 := counter.setWidth 32, x1 := (counter >>> 32).setWidth 32,
      x2 := (counter >>> 64).setWidth 32, x3 := (counter >>> 96).setWidth 32 }
  let g := genRound key 3 (genRound key 2 (genRound key 1 (genRound key 0 g)))
  let x0 := g.x0 + genKey key 1
  let x2 := g.x2 + genKey key 2 + 4#32
  g.x3 ++ x2 ++ g.x1 ++ x0

/-- The counter of R89 from its fields. -/
def genCounter (domain tensor index row col : Nat) : BitVec 128 :=
  BitVec.ofNat 128 (domain % 2 ^ 8 * 2 ^ 120 + tensor % 2 ^ 24 * 2 ^ 96 + index % 2 ^ 32 * 2 ^ 64
    + row % 2 ^ 32 * 2 ^ 32 + col % 2 ^ 35 / 8)

/-- The 16-bit lane of a position (R90, R92). -/
def genLane (domain tensor index row col : Nat) (key : Dword) : Nat :=
  (generate (genCounter domain tensor index row col) key).toNat / 2 ^ (16 * (col % 8)) % 2 ^ 16

/-- The lane of the vector element with linear position N (R91, R92). -/
def genLinear (domain tensor index n : Nat) (key : Dword) : Nat :=
  let n := n % 2 ^ 64
  genLane domain tensor index (n / 2 ^ 35) (n % 2 ^ 35) key

/-! ### The pass sum (R96 to R99) and accumulation (R100) -/

/-- The exponent of the leading bit of the largest finite nonzero product (R97). -/
def passLead (ps : List Num) : Option Int :=
  ps.foldl (fun a p => match p with
    | .fin _ m e =>
      if m = 0 then a
      else
        let l : Int := Nat.log2 m + e
        match a with
        | none => some l
        | some k => some (max k l)
    | _ => a) none

/-- A product's magnitude in units of 2^(E − 86), truncated toward zero (R97). -/
def passTerm (lead : Int) : Num → Int
  | .fin s m e => signedMant s (shiftNat m (e - (lead - 86)))
  | _ => 0

/-- The pass sum of the products of one result (R97, R99). -/
def passSum (ps : List Num) : Num :=
  if ps.any Num.isNan then .nan false
  else
    let pinf := ps.any (fun p => p = .inf false)
    let ninf := ps.any (fun p => p = .inf true)
    if pinf && ninf then .nan false
    else if pinf then .inf false
    else if ninf then .inf true
    else match passLead ps with
      | none => .zero
      | some lead =>
        let total := (ps.map (passTerm lead)).foldl (· + ·) 0
        if total = 0 then .zero else Num.ofInt total (lead - 86)

/-- Adding a pass sum to a KF32 accumulator value, one rounding (R100). -/
def accumulate (acc : Nat) (sum : Num) (mode : Rnd) (u : Nat) : Nat :=
  (encodeNum .kf32 mode u ((decodeNum .kf32 acc).add sum)).1

end Sys2Proof.Machine
end

