-- ==== Sys2Proof/Types/Base.lean ====
section
/-! DEFINITION. Paths of access, replies, event records and the rings of the noticeboard
(spec/00_scope.md R8 to R13, spec/13 R495, spec/14 R511 to R536). -/

namespace Sys2Proof

/-- A path on which an access reaches a register (R495, R442, R645). -/
inductive Path where
  /-- BAR0 (or BAR4) of the PF of host port `h`: management master host A or host B. -/
  | pf (h : Fin 2)
  /-- BAR0 (or BAR4) of VF `p + 1` of a host port: the path of the owner of party `p`. -/
  | vf (port : Fin 2) (p : Fin 16)
  /-- A register-access message of management master `m` (R459). -/
  | msg (m : Fin 4)
deriving DecidableEq, Repr

/-- The management master of a path; a VF is never one (R495). -/
def Path.master : Path → Option (Fin 4)
  | .pf h => some ⟨h.val, Nat.lt_of_lt_of_le h.isLt (by decide)⟩
  | .vf _ _ => none
  | .msg m => some m

/-- A number of its own for every path, for the latches of R646. -/
def Path.id : Path → Nat
  | .pf h => h.val
  | .msg m => 2 + m.val
  | .vf port p => 6 + 16 * port.val + p.val

/-- One access to a register: the path, the window (BAR4 or BAR0) and the offset in it. -/
structure Access where
  path : Path
  bar4 : Bool := false
  off  : Nat
deriving DecidableEq, Repr

/-- A PCIe function: the PF (`vf = 0`) or VF 1 to 16 of a host port (R442). -/
structure Fn where
  port : Fin 2
  vf   : Fin 17
deriving DecidableEq, Repr

/-- A number of its own for every function. -/
def Fn.id (f : Fn) : Nat := 17 * f.port.val + f.vf.val

/-- How an access or request completed. -/
inductive Status where
  | none          -- nothing has completed yet
  | ok            -- normal completion
  | unsupported   -- PCIe Unsupported Request (R9, R595)
  | abort         -- PCIe Completer Abort (R447)
  | retry         -- Configuration Request Retry Status (R441)
  | noAck         -- the I3C address is not acknowledged (R626)
  | code (n : Nat) -- completion code of a register-access message (R459)
deriving DecidableEq, Repr

/-- The latest completion that the block returned to a sender. -/
structure Reply where
  status : Status := .none
  words  : List Word := []
  bytes  : List Byte := []
  ep     : Bool := false
deriving DecidableEq, Repr

/-- An event as its source commits it (R512): class, SOURCE, PARTY and PAYLOAD. -/
structure Event where
  cls     : Nat
  source  : Nat
  party   : Nat := 0xFF
  payload : Nat := 0
deriving DecidableEq, Repr

/-- A record of a ring (R511); SEQUENCE is taken on entering the posting buffer. -/
structure Record where
  seq     : Word
  stamp   : Dword
  source  : BitVec 16
  cls     : BitVec 8
  party   : BitVec 8
  payload : BitVec 96
deriving DecidableEq, Repr

/-- State of one level source of a ring (R521): ARMED, POSTED with its record still to enter the
buffer, or POSTED with its record entered. -/
inductive LevelState where
  | armed | waiting | posted
deriving DecidableEq, Repr

/-- A ring of the noticeboard (R514 to R533). -/
structure Ring where
  base      : Nat := 0          -- NB_BASE, bits [11:0] zero
  sizeLog2  : Nat := 6
  modUs     : Nat := 0
  port      : Nat := 0          -- FUNC of the device ring, PORT of a party ring
  enable    : Bool := false
  bypass    : Bool := false
  timer     : Option Nat := none -- when the moderation timer expires
  held      : Bool := false
  taken     : Word := 0
  producer  : Word := 0
  consumer  : Word := 0
  lost      : Word := 0         -- NB_LOST
  masked    : Word := 0         -- NB_MASKED
  masks     : BitVec 256 := 0
  maskTime  : SMap (Option Nat) := []  -- class ↦ instant its mask last changed (R525)
  resample  : SMap (Option Nat) := []  -- class ↦ instant of an unmask not yet in force everywhere
  buffer    : List Record := [] -- posting buffer, oldest first (R517)
  lostNow   : Nat := 0          -- records discarded since the last NB_LOST record
  lostStamp : Dword := 0        -- stamp of the first of them
  levels    : SMap LevelState := []  -- CLASS × 2^16 + SOURCE ↦ state (R521)
deriving DecidableEq, Repr

/-- The condition of a level class at one source: what its record would carry now (R521). -/
structure LevelCond where
  party   : Nat
  payload : Nat
deriving DecidableEq, Repr

/-- The noticeboard engine: rings 0 (device) and p + 1 (party p), level conditions, the recent window
of R535 and the global hold of R526. -/
structure Noticeboard where
  rings  : SMap Ring := []
  conds  : SMap (Option LevelCond) := []
  recent : SMap (Option Record) := []
  hold   : Bool := false
deriving DecidableEq, Repr

/-- PCIe state of one function: the enables of its configuration space and MSI-X capability (R515,
R518), and the IDE stream of R595. -/
structure FnState where
  busMaster  : Bool := false
  msixEnable : Bool := false
  fnMask     : Bool := false
  vecMask    : Bool := true      -- MSI-X vector control, masked at reset
  vecPending : Bool := false
  msgAddr    : Dword := 0
  msgData    : Word := 0
  memEnable  : Bool := false
  vfEnable   : Bool := false
  bar        : SMap Word := []  -- base address registers as written
  ide        : Bool := false     -- IDE stream in Secure (R595)
deriving DecidableEq, Repr

end Sys2Proof
end

