-- ==== Sys2Proof/Types/Tile.lean ====
section
/-! DEFINITION. State of the tiles: memories, queues, tallies, engines, banks, taster, movers
(spec/03, spec/04, spec/05, spec/06, spec/07). -/

namespace Sys2Proof

/-- A 64-byte memory line or command (R179, R258). -/
abbrev Line := BitVec 512

/-- Error codes of an abort record (R279). -/
inductive Err where
  | encoding | shape | align | address | stationary | memory | remote | link | task | fence | guide | request
deriving DecidableEq, Repr

/-- The code of R279. -/
def Err.code : Err → Nat
  | .encoding => 1 | .shape => 2 | .align => 3 | .address => 4 | .stationary => 5 | .memory => 6
  | .remote => 7 | .link => 8 | .task => 9 | .fence => 0xA | .guide => 0xB | .request => 0xC

/-- An error with the descriptor that raised it: slot, TAG and position among the slot fields (R281). -/
structure CmdError where
  err   : Err
  slot  : Nat := 0xFFFFFF
  tag   : Nat := 0
  field : Nat := 0xF
deriving DecidableEq, Repr

/-! ### Memory -/

/-- What ECC finds in a line when it is next read (R214 to R216): nothing, errors that it corrects in so many words
(one in a hamper line, which is corrected whole), or an error that it cannot correct. -/
inductive EccFinding where
  | clean
  | correctable (words : Nat)
  | uncorrectable
deriving DecidableEq, Repr

/-- Read hints of R186. -/
inductive Hint where
  | normal | stream | keep | discard
deriving DecidableEq, Repr

/-- A granule in the hamper cache (R184 to R188). -/
structure CacheWay where
  granule  : Nat
  keep     : Bool := false
  prefetch : Option (Nat × Word) := none   -- queue and command index of the prefetch, until the first use
  discard  : Bool := false
deriving DecidableEq, Repr

/-- What a hamper channel request does (R192, R195). -/
inductive ReqKind where
  | read (hint : Hint)
  | write (data : List Line)
  | accumulate (kf16 : Bool) (data : List Line)
deriving DecidableEq, Repr

/-- Where a request of a hamper channel comes from (R195): a unit that waits for it, the collective engine, fetch-ahead,
a mover, a host, or a packet, which may belong to a collective. -/
inductive ReqSource where
  | unit | collective | fetchAhead | move | host
  | packet (ofCollective : Bool)
deriving DecidableEq, Repr

/-- A request waiting at a hamper channel: its source, the command that made it (queue and index), the offset of its
first line, its lines, and whether it is aged. -/
structure HamperReq where
  source : ReqSource
  owner  : Option (Nat × Word) := none
  offset : Nat
  lines  : Nat
  kind   : ReqKind
  aged   : Bool := false
deriving DecidableEq, Repr

/-- A hamper channel: its waiting requests in arrival order, last direction, and the aged burst already
served ahead of the waiting class 0 request (R196, R197). -/
structure Channel where
  waiting   : List HamperReq := []
  lastWrite : Bool := false
  agedServed : Bool := false
  scrub     : Nat := 0          -- next granule to scrub, channel-local
deriving DecidableEq, Repr

/-- A zeroing of a tile (R211): when it began, its paces of 64 ns so far, the granules that every hamper
channel has zeroed, and the lines of every basket bank, from `basketFrom` up to `basketTo`. -/
structure Zeroing where
  active     : Bool := false
  began      : Nat := 0
  paces      : Nat := 0
  hamper     : Nat := 147456
  basket     : Nat := 12288
  basketFrom : Nat := 0
  basketTo   : Nat := 12288
deriving DecidableEq, Repr

/-! ### Queues -/

/-- An open task: its identifier, the index of its TASK_BEGIN, and its abort signal (R277, R278). -/
structure Task where
  id         : Nat := 0
  key        : Word := 0
  abortEn    : Bool := false
  abortTally : Nat := 0
  abortInc   : Nat := 0
deriving DecidableEq, Repr

/-- A command issued and not complete. -/
structure Inflight where
  idx   : Word
  line  : Line
  task  : Task
  ready : Bool := false    -- its unit has finished and everything it writes is performed (R273)
  dead  : Bool := false    -- its task has aborted
  seed  : Dword := 0       -- the seed slot value read at issue (R298)
deriving DecidableEq, Repr

/-- An abort whose record waits for the task to fall quiet (R280). -/
structure PendingAbort where
  task    : Task
  payload : BitVec 96
  index   : Word
deriving DecidableEq, Repr

/-- A command line that fetch-ahead has read, with its descriptor copies (R283, R235). -/
structure Fetched where
  line  : Line
  descs : SMap (Option Line) := []
  asked : Nat := 0                         -- lines asked of a remote source for the first chunk (R283)
  staged : SMap (Option Line) := []        -- those that have arrived
  todo   : List (Nat × Hint) := []         -- granules still to be prefetched (R284)
deriving DecidableEq, Repr

/-- Reasons of a stall (R300). -/
inductive StallReason where
  | wait | prior | unit | fence
deriving DecidableEq, Repr

/-- A queue (R258 to R265, R262). -/
structure Queue where
  base      : Nat := 0
  sizeLog2  : Nat := 4
  enable    : Bool := false
  faDepth   : Nat := 8
  priority  : Nat := 0
  stallMs   : Nat := 1000
  tail      : Word := 0
  cmd       : Word := 0
  open?     : Option Task := none
  skip      : Option Nat := none         -- passing over the aborted task of this identifier
  inflight  : List Inflight := []
  aborts    : List PendingAbort := []
  fetched   : SMap (Option Fetched) := []
  fence     : Bool := false              -- an arrived fence of the queue has not completed
  stall     : Bool := false
  stallFrom : Option Nat := none         -- when the current stall began, timetable
  lastAbort : BitVec 128 := 0
  stallInfo : BitVec 64 := 0
deriving DecidableEq, Repr

/-- A fence of a tile that has arrived and not completed (R288, R375). -/
structure OpenFence where
  queue   : Nat
  idx     : Word
  next    : Nat
  scope   : Nat
  map     : Bool
  vote    : Bool
  seq     : Word
  arrival : Dword
  contribution : Bool := false           -- NONFINITE contributed (R290)
  sent    : Bool := false                -- its arrival is with the combiner (R380)
  result  : Option (Option (Nat × Bool)) := none  -- largest stamp and vote, or the fence failed
  instant : Option Nat := none           -- fence instant once the tile has the result
  failed  : Bool := false                -- the combined vote failed
deriving DecidableEq, Repr

/-- A request to a guide core: from a queue, or from the mailbox (R304, R306). -/
structure GuideReq where
  queue   : Option (Nat × Word)          -- queue and index, or none for the mailbox
  core    : Nat
  service : Nat
  args    : List Word
  since   : Nat
deriving DecidableEq, Repr

/-! ### Engines and banks -/

/-- A stationary operand as the cells hold it, with the record of R121 and the SREF slot of R165. -/
structure Stationary where
  tag   : Nat
  fmt   : Nat
  rows  : Nat
  cols  : Nat
  sref  : Option Nat := none
  elems : List (List Machine.Num) := []
deriving DecidableEq, Repr

/-- A pass issued to an engine and not complete (R118). -/
structure Pass where
  queue    : Nat
  idx      : Word
  task     : Task
  line     : Line
  descs    : SMap (Option Line) := []   -- descriptor copies used throughout (R235)
  seed     : Dword := 0
  retain   : Bool := false    -- its drain retains sampled rows (R164)
  stray    : Bool := false    -- its bank was lost to another task's abort after admitting it (R150)
  rate     : Nat := 6         -- taster settings active at issue (R172)
  phase    : Nat := 0
  holds    : Bool := true     -- it holds its place in the engine (R118)
  loaded   : Bool := false    -- its stationary operand is in the shadow, or KEEP is 1
  stat     : Option Stationary := none   -- the operand it runs on, from its first broadcast
  begun    : Bool := false    -- it has broadcast its first vector
  admitted : Bool := false    -- its bank has admitted it (R146)
  rows     : List (List Machine.Num) := []   -- input rows that have arrived (R123)
  primed   : Nat := 0         -- rows primed into the hold before the first vector (R124)
  part     : Nat := 0         -- broadcast cycles of a KF16 vector under way, 0 to 3 (R111)
  sent     : Nat := 0         -- vectors broadcast
  done     : Nat := 0         -- vectors whose pass sums have reached the accumulator
  drained  : Bool := false    -- its drain has completed
  samples  : Nat := 0         -- samples it reserved that are not yet released (R168)
  sampled  : Bool := false    -- the taster takes samples of it (R162, R166)
deriving DecidableEq, Repr

/-- Ramp states of R126. -/
inductive Ramp where
  | run | hold | fall | cold | rise
deriving DecidableEq, Repr

/-- A vector of the replay buffer, in the format and orientation in which it was broadcast (R125). -/
structure Replayed where
  vector : List Machine.Num
  fmt    : Nat
  trans  : Bool
deriving DecidableEq, Repr

/-- A matrix engine (R102, R118, R121, R126). -/
structure Engine where
  passes  : List Pass := []                  -- issue order
  shadow  : Option Stationary := none
  active  : Option Stationary := none
  latest  : Option Stationary := none        -- record of the latest loading pass; its elements are unused
  bus     : Nat := 0                         -- row pairs that the load under way has still to write (R115)
  frontIn : Nat := 0                         -- cycles until the latest front has freed rows 0 and 1 (R117)
  orient  : Bool := false                    -- orientation of the last broadcast cycle (R137)
  wired   : Bool := false                    -- orientation of the last valid vector (R120)
  since   : Nat := 4                         -- cycles since the last valid lane, up to 4 (R119)
  ramp    : Ramp := .cold
  limit   : Nat := 0                         -- D
  cap     : Nat := 64                        -- density cap in force, which a throttle moves (R622)
  history : BitVec 64 := 0                   -- activity of the last 64 broadcast cycles
  idleRun : Nat := 0
  rampRun : Nat := 0                         -- cycles since D's last step, or since FALL or RISE was entered (R126)
  capRun  : Nat := 0                         -- cycles since the cap's last step (R622)
  replay  : List Replayed := []              -- the last 64 valid vectors, oldest first (R125)
  turn    : Nat := 0                         -- place of the next vector to replay
  users   : List (Nat × Word) := []          -- open tasks, by queue and key, that had a pass issued to it (R122)
deriving DecidableEq, Repr

/-- Broadcast cycles by what they carried: the counters of R138. -/
structure Cycles where
  valid   : Nat := 0
  dry     : Nat := 0
  drain   : Nat := 0
  load    : Nat := 0
  gap     : Nat := 0
  ramp    : Nat := 0
  none    : Nat := 0
  thermos : Nat := 0
deriving DecidableEq, Repr

/-- Bank states of R146. -/
inductive BankState where
  | idle | fill | drainWait | drain | zero
deriving DecidableEq, Repr

/-- The extent of a bank (R141). -/
structure Extent where
  lo    : Nat
  hi    : Nat
  width : Nat
deriving DecidableEq, Repr

/-- An accumulator bank (R139 to R150). -/
structure Bank where
  words   : SMap Word := []
  trans   : Bool := false                -- ARR
  extent  : Option Extent := none
  state   : BankState := .zero
  admitted : List (Nat × Word) := []     -- queue and index of passes admitted and not complete
  latestDrain : Bool := false            -- its latest admitted pass has DRAIN 1
  samples : Nat := 0                     -- sample-buffer entries reserved (R168)
deriving DecidableEq, Repr

/-- A drain request: engine bank, and the pass that asked for it (R148). -/
structure DrainReq where
  bank  : Nat
  queue : Nat
  idx   : Word
  empty : Bool := false                  -- its bank was lost to an abort: it is served on the EMPTY extent (R150)
deriving DecidableEq, Repr

/-- An engine's drain unit: requests in the order they were made, the drain being read, and the drains whose last row
is read and that complete 10 cycles after it, oldest first, with the health flags they then set (R148, R158). -/
structure DrainUnit where
  requests : List DrainReq := []
  current  : Option DrainReq := none
  ending   : List (DrainReq × Nat) := []
deriving DecidableEq, Repr

/-- A captured sample of the taster (R167). -/
structure Sample where
  engine : Nat
  bank   : Nat
  queue  : Nat
  idx    : Word
  order  : Nat                -- which sampled vector of the pass it is, from 0
  vector : Nat
  watch  : Nat
  sums   : List Machine.Num       -- q_c, as KF32 values
  stat   : Option Stationary  -- the decoded operand, where no SREF is recorded
deriving DecidableEq, Repr

/-- A recomputed sample waiting to be recorded (R169). -/
structure TasterResult where
  engine  : Nat
  bank    : Nat
  queue   : Nat
  idx     : Word
  watch   : Nat
  sums    : List Machine.Num
  refs    : List Machine.Num
  decoded : Bool              -- taken against the decoded stationary operand (R165)
deriving DecidableEq, Repr

/-! ### Movers -/

/-- A move issued to a mover and not complete (R240 to R249). A side is remote when it names the module it lies
in; the lines of the current chunk's source arrive in `read`, by their place in the chunk. -/
structure MoveJob where
  queue   : Nat
  idx     : Word
  line    : Line
  srcFar  : Option Nat := none         -- module of a remote source
  dstFar  : Option Nat := none
  src     : Line := 0                  -- descriptor copies used throughout (R235)
  dst     : Line := 0
  next    : Nat := 0                   -- next chunk, or block of a transpose
  asked   : Nat := 0                   -- lines of the chunk asked of a remote source
  read    : SMap (Option Line) := []
  inside  : Bool := false              -- the block is inside the exchange network
deriving DecidableEq, Repr

/-! ### The vector unit -/

/-- A vector command that the vector unit holds (R297): its descriptor copies, its seed, the next chunk of its result,
the running sum of a SCAN, and how far its retention has come (R164, R295, R296). -/
structure VecJob where
  queue   : Nat
  idx     : Word
  line    : Line
  descs   : SMap (Option Line) := []
  seed    : Dword := 0
  next    : Nat := 0
  carry   : Machine.Num := .zero
  retain  : Bool := false                  -- rows are retained
  rate    : Nat := 6                       -- taster settings active at issue (R172)
  phase   : Nat := 0
  rows    : Nat := 0                       -- rows of the destination that are complete
  part    : List Machine.Num := []         -- values of the row that is not
deriving DecidableEq, Repr

/-- What a tile holds beside the sparse tables of its queues, tallies, engines and banks. -/
structure Tile where
  trained    : Bool := false                -- its hamper and site are trained; the TIL window answers
  trainedAt  : Nat := 0                     -- timetable stamp of the end of its last training (R644)
  zero       : Zeroing := {}
  gateFail   : Bool := false                -- the vote gate (R290)
  phase      : Nat := 0
  fenceSeq   : Word := 0
  fence      : Option OpenFence := none
  seeds      : SMap Dword := []             -- the tile's copy of the party's seed table (R93, R298)
  guide      : List GuideReq := []          -- calls in arrival order
  samples    : List Sample := []            -- captured, oldest first
  results    : List TasterResult := []
  vecRamp    : Engine := {}                 -- ramp of the vector unit (R617): only its ramp fields are used
  lastMover  : Nat := 3                     -- mover the exchange network served last (R248)
  basketScrub : SMap Nat := []              -- bank ↦ next line to scrub
  vec        : List VecJob := []            -- commands of the vector unit in issue order: one runs, one waits (R297)
  lastQueue  : Nat := 255                   -- local queue that issued last (R266)
deriving DecidableEq, Repr

end Sys2Proof
end

