-- ==== Sys2Proof/Types/Fabric.lean ====
section
/-! DEFINITION. Packets, routers, connections and links between modules (spec/08_packet_fabric.md). -/

namespace Sys2Proof

/-- A packet of R309. Every header field is held as its number, reserved codes included. -/
structure Packet where
  ty        : Nat
  vc        : Nat := 0
  fpc       : Nat := 0
  ce        : Bool := false
  ece       : Bool := false
  coll      : Bool := false
  hint      : Nat := 0
  mcast     : Nat := 0
  accKf16   : Bool := false
  esc       : Bool := false
  epoch     : Nat := 0
  dstModule : Nat := 0
  dstTile   : Nat := 0
  srcTile   : Nat := 0
  party     : Nat := 0
  srcKind   : Nat := 0
  srcModule : Nat := 0
  dstKind   : Nat := 0
  birth     : Nat := 0
  addr      : Nat := 0
  seq       : Nat := 0
  tag       : Nat := 0
  aux       : Nat := 0
  mask      : BitVec 64 := 0
  payload   : List Line := []
  flits     : Nat := 0
deriving DecidableEq, Repr

/-- An endpoint of the fabric in this module. -/
inductive Endpoint where
  | tile (t : Fin 64)
  | bridge (h : Fin 2)
  | guest (n : Fin 4)
deriving DecidableEq, Repr

/-- SRC_KIND and DST_KIND of R309. -/
def Endpoint.kind : Endpoint → Nat
  | .tile _ => 0 | .bridge _ => 1 | .guest _ => 2

/-- A number of its own for every endpoint of the module. -/
def Endpoint.id : Endpoint → Nat
  | .tile t => t.val | .bridge h => 64 + h.val | .guest n => 66 + n.val

/-- What a copy of a packet still has to do in this module: be routed afresh, reach the link of a torus direction,
reach the entry tile of its host bridge, or reach the tiles of its mask (R315, R339, R340). -/
inductive Goal where
  | fresh | toward (dir : Nat) | entry (tile : Nat) | tiles
deriving DecidableEq, Repr

/-- An output that has still to take its copy of a packet: 0 to 3 north, east, south, west; 7 delivery in the
tile; 8 the attached bridge or guest; 16 to 21 the torus directions. A branch escapes by itself (R339). -/
structure Branch where
  out  : Nat
  mask : BitVec 64 := 0
  goal : Goal := .fresh
  esc  : Bool := false
deriving DecidableEq, Repr

/-- A link between modules: a slot position of a bundle, or a copper link (R318, R463). -/
inductive ModLink where
  | bundle (n : Fin 8) (m : Fin 32) (pos : Fin 4)
  | copper (k : Fin 13)
deriving DecidableEq, Repr

/-- A number of its own for every link between modules. -/
def ModLink.id : ModLink → Nat
  | .bundle n m p => 128 * n.val + 4 * m.val + p.val
  | .copper k => 1024 + k.val

/-- A packet on its way between two routers, with the VC it had before escape, which R330 keeps a record of. -/
structure Transit where
  pkt : Packet
  vc0 : Nat
deriving DecidableEq, Repr

/-- A packet held in an input buffer of a router (R320): the router's tile, the input port (0 to 3 north,
east, south, west; 4 to 6 attachments of R39; 7 the tile itself), the buffer of that port (a VC, or 4 + the footpath
class), the VC before escape, since when it stands at the head of its buffer, the link between modules that it came by,
and the outputs that have still to take their copy. -/
structure Held where
  pkt      : Packet
  tile     : Nat
  port     : Nat
  buf      : Nat := 0
  vc0      : Nat
  since    : Nat
  via      : Option ModLink := none
  branches : List Branch
deriving DecidableEq, Repr

/-- A packet in a strand frame: what it still has to do beyond the strand, and the link between modules that it goes to
when the strand's far die is a lantern or a host bridge. -/
structure Parcel where
  item : Transit
  goal : Goal
  link : Option ModLink := none
deriving DecidableEq, Repr

/-- A strand frame as its transmitter formed it (R30): its sequence, the acknowledgement of received frames (every frame
of the other direction before it), and the packets in its fifteen payload transfers. -/
structure StrandFrame where
  seq   : Nat
  ack   : Nat
  items : List Parcel := []
deriving DecidableEq, Repr

/-- One direction of a strand: the frame that its transmitter forms next, the frame that its receiver expects, the
failures in a row of that frame, and the frames that the transmitter still holds for replay, oldest first, at most 64
(R30, R31). -/
structure StrandRx where
  sent   : Nat := 0
  next   : Nat := 0
  fails  : Nat := 0
  buffer : List StrandFrame := []
deriving DecidableEq, Repr

/-- What waits for a mirror copy to be acknowledged (R562): a command, or the ACK of a packet. -/
inductive MirrorOwner where
  | nobody
  | command (g : Nat) (idx : Word)
  | reply (p : Packet)
deriving DecidableEq, Repr

/-- What a source does when a packet of it is answered (R325 to R327). -/
inductive Purpose where
  /-- a line write or read of a command in flight -/
  | command (g : Nat) (idx : Word)
  /-- lines that the rucksack returns for a command in flight (R543, R550, R560) -/
  | restore (g : Nat) (idx : Word)
  /-- the signal of a command that stays complete (R273): queue, tally, module and increment -/
  | signal (g : Nat) (tally mod inc : Nat)
  /-- a mirror copy or fill of window `w`; `fill` marks the fill's packets (R561, R564) -/
  | mirror (tile w : Nat) (fill : Bool) (owner : MirrorOwner)
  /-- lines of a host function (R444) -/
  | hostWrite (fn : Fn) (line : Nat)
  /-- one request of a host read (R447) -/
  | hostRead (fn : Fn) (id : Nat)
  | other
deriving DecidableEq, Repr

/-- A packet sent and not answered (R325): its source, tag and sequence, its connection, when it was sent,
the acknowledgements or lines still to come, and what its answer does. -/
structure Outstanding where
  src     : Endpoint
  tag     : Nat
  conn    : Nat          -- connection key
  seq     : Nat
  sent    : Nat
  remain  : Nat
  purpose : Purpose
  pkt     : Packet
deriving DecidableEq, Repr

/-- A connection table entry (R335 to R338). The token bucket is held in units of 1/4000 byte, so that every fill is a
whole number of them. -/
structure Conn where
  src     : Endpoint
  key     : Nat          -- destination module, group or mask, with the VC
  next    : Nat := 0
  rate    : Nat := 256
  lastDec : Option Nat := none
  lastEce : Nat := 0     -- when the last ECE arrived, or the last increase was made
  used    : Nat := 0
  tokens  : Nat := 16384000 -- tokens of the bucket, 4,096 bytes when full
  filled  : Nat := 0     -- when they were counted last
deriving DecidableEq, Repr

/-- A frame in a retry buffer: its sequence, the credits it returns and its packets (R320, R344). -/
structure SentFrame where
  seq     : Nat
  credits : List (Nat × Nat) := []
  items   : List Transit := []
deriving DecidableEq, Repr

/-- Link-level state of a link between modules (R320, R343 to R345, R407). -/
structure LinkState where
  up      : Bool := false              -- the link belongs to its direction's set
  expect  : Nat := 0                   -- frame sequence expected, modulo 2^20
  fails   : Nat := 0                   -- failures of that frame in a row
  next    : Nat := 0                   -- frame sequence of the next frame sent
  queue   : List Transit := []         -- packets given to the link and not yet launched
  retry   : List SentFrame := []       -- frames sent and not acknowledged, oldest first
  launched : Option Nat := none        -- launch instant of the last frame
  lent    : SMap Nat := []             -- buffer of the peer ↦ flits sent into it and not returned
  owed    : SMap Nat := []             -- buffer of this end ↦ flits that have left it since the last frame
  draining : Bool := false
  peerMark : Bool := false             -- the peer's drain mark has arrived
  markAcked : Bool := false            -- the acknowledgement of that mark has been launched
  drained  : Bool := false             -- draining has ended (R407)
  dark     : Bool := false             -- in the set, its light not yet locked since its move (R407)
  waited   : Nat := 0                  -- time unlocked in earlier slots of its own (R409, R426)
  failed   : Bool := false             -- declared down within the phase (R345, R426)
  share    : Nat := 0                  -- place in the 16 frames that two kinds of packets share (R563)
deriving DecidableEq, Repr

/-- A frame as it arrives (R343, R344, R593): its sequence, what the receiver finds, its trailer, and the packets it
ends. A frame of idle flits only has no place in the sequence. -/
structure Frame where
  seq       : Nat
  idle      : Bool := false
  crcOk     : Bool
  tagOk     : Bool
  stamp     : Nat
  corrected : Nat := 0                 -- symbols corrected
  uncorrectable : Nat := 0             -- codewords that could not be corrected
  ack       : Nat := 0                 -- every sequence before it is acknowledged
  replay    : Bool := false            -- the sender's receiver requests a replay
  drainMark : Bool := false
  credits   : List (Nat × Nat) := []   -- buffers of the sender with flits that have left them
  packets   : List Transit := []
deriving DecidableEq, Repr

/-- A frame as it is launched (R343, R593): no sequence for one of idle flits only; IV and tag of link encryption. -/
structure Launched where
  seq       : Option Nat
  ack       : Nat
  replay    : Bool
  drainMark : Bool
  credits   : List (Nat × Nat)
  iv        : BitVec 96
  tag       : BitVec 128
  crc       : Word
  packets   : List Transit
deriving DecidableEq, Repr

/-- A packet that its source cannot yet send: no connection entry, no room in the window, or no tokens (R335, R336,
R338); since when it has waited for an entry or the window, if it does. -/
structure Unsent where
  src     : Endpoint
  pkt     : Packet
  purpose : Purpose
  need    : Nat
  since   : Option Nat
deriving DecidableEq, Repr

/-- A packet that has been sent and waits for credits of the input buffer at which its endpoint joins the mesh (R320). -/
structure Waiting where
  tile : Nat
  port : Nat
  pkt  : Packet
deriving DecidableEq, Repr

/-- The fabric of the module. -/
structure Fabric where
  held    : List Held := []            -- in arrival order
  stalled : List (Nat × Packet) := []  -- packets at a tile whose lines wait for the zeroing front
  sent    : List Outstanding := []     -- in sending order
  conns   : List Conn := []
  unsent  : List Unsent := []
  outbox  : List Waiting := []         -- in sending order
  links   : SMap LinkState := []
  tag     : Nat := 0                   -- next REQ_TAG
  round   : SMap Nat := []             -- output port ↦ VC served last (R320)
deriving DecidableEq, Repr

end Sys2Proof
end

