-- ==== Sys2Proof/Types/Collective.lean ====
section
/-! DEFINITION. The collective engines, the roll-call and the timetable servo
(spec/09_collectives.md R354 to R386). -/

namespace Sys2Proof

/-- An exchange of a chunk: step `step` of the stage over the panel ranks (axis 0) or over the ranks of X, Y or Z (1 to
3), in which halves are reduced or, with `gather`, results are passed on (R364). -/
structure Exchange where
  axis   : Nat
  step   : Nat
  gather : Bool
deriving DecidableEq, Repr

/-- A chunk of a collective (R364): the values that its lines have here, and the lines that peers have sent for the
exchanges to come. -/
structure Chunk where
  index   : Nat
  entered : Bool := false                  -- it is in a staging slot
  round   : Nat := 0                       -- exchanges that are over
  sent    : Bool := false                  -- the tile has sent its lines of the current exchange
  vals    : SMap (Option Line) := []       -- line of the chunk ↦ its value here
  got     : SMap (Option Line) := []       -- key of an exchange, an item and a line ↦ the line
deriving DecidableEq, Repr

/-- Where a collective stands. -/
inductive CollPhase where
  | held        -- behind the running collective
  | open        -- its open round, or the combining of a roll-call collective
  | data        -- chunked data phase
  | direct      -- ALL_TO_ALL and ALL_TO_ALL_V
deriving DecidableEq, Repr

/-- A collective issued to a tile's engine (R356 to R370). -/
structure Coll where
  queue    : Nat
  idx      : Word
  line     : Line
  task     : Task
  seed     : Dword := 0
  src      : Line := 0
  dst      : Line := 0
  stage    : Line := 0
  counts   : Line := 0
  rcounts  : Line := 0
  seq      : Nat
  phase    : CollPhase := .held
  opened   : Bool := false             -- it has contributed to its open round
  progress : Nat := 0                  -- timetable of its last progress (R369)
  chunks   : List Chunk := []
  nextChunk : Nat := 0                 -- next chunk, or next peer of a direct operation
  done     : Nat := 0                  -- chunks finished
  largest  : Nat := 0                  -- G of R368
  digest   : Nat := 0                  -- DIGEST of R359
  rows     : List Nat := []            -- COUNTS words of ALL_TO_ALL_V, by team rank
  words    : List Dword := []          -- source words of a roll-call collective
  blockSent : Nat := 0                 -- lines of the next peer's block already sent (R365)
  received : Nat := 0                  -- lines of peers' blocks that have been performed here
  entries  : SMap Nat := []            -- team rank ↦ lines of its entry of the receive record performed (R367)
deriving DecidableEq, Repr

/-- The collective engine of a tile. -/
structure CollEngine where
  running : Option Coll := none
  next    : Option Coll := none
  holdoff : SMap (Option Nat) := []    -- team ↦ when the 18 ms of R370 end
  seqs    : SMap Nat := []             -- team ↦ next sequence number
deriving DecidableEq, Repr

/-- What a roll-call operation combines (R371). -/
inductive RcPayload where
  | round (dmin dmax : Nat) (count : Nat)
  | fence (stamp : Nat) (dmin dmax : Nat) (vote : Bool)
  | words (ws : List Dword)
  | none
  | stamp (t1 : Int)                   -- of TIME_REQ (R378), in quarters of a nanosecond
  | stamps (t2 t3 : Int)               -- of TIME_RESP
deriving DecidableEq, Repr

/-- A roll-call message: the fields of its header, its payload words and its CRC (R372). -/
structure RcMessage where
  kind   : Nat
  op     : Nat
  fmt    : Nat := 0
  party  : Nat
  epoch  : Nat
  stage  : Nat
  seq    : Nat
  team   : Nat
  rank   : Nat
  words  : List Dword
  crc    : Nat := 0
deriving DecidableEq, Repr

/-- An operation in the module's combiner (R371, R374, R375). -/
structure RcOp where
  id       : Nat := 0
  party    : Nat
  op       : Nat                       -- OP of R372
  fmt      : Nat := 0
  rnd      : Nat := 0                  -- rounding, tensor and key of a roll-call reduction
  tensor   : Nat := 0
  key      : Dword := 0
  team     : Nat                       -- 63 for a fence
  seq      : Nat
  job      : Bool := false             -- a fence of SCOPE JOB
  members  : List Nat := []            -- tiles of this module, ascending
  given    : SMap RcPayload := []      -- tile ↦ its contribution
  partials : SMap RcPayload := []      -- 128 × axis + rank ↦ a module's partial
  axis     : Nat := 0                  -- 0 panel, 1 X, 2 Y, 3 Z, 4 result known
  result   : Option RcPayload := none
  failed   : Bool := false             -- a peer could not be reached (R373)
  told     : List Nat := []            -- members that have taken the result
deriving DecidableEq, Repr

/-- A roll-call message sent to another module and not acknowledged (R372). -/
structure RcUnacked where
  msg     : RcMessage
  dest    : Nat
  due     : Nat
  repeats : Nat := 0
deriving DecidableEq, Repr

/-- States of the timetable servo (R379). -/
inductive ServoState where
  | unlocked | locked | holdover
deriving DecidableEq, Repr

/-- The timetable servo (R378, R379). Offsets are in fortieths of a nanosecond, in which the stamps, their halves and
the asymmetry correction are whole. -/
structure Servo where
  state    : ServoState := .unlocked
  offsets  : List Int := []            -- latest offsets in a row, newest first
  last     : Nat := 0                  -- when the last valid exchange ended, or waiting began
  choice   : Nat := 0                  -- 0 the upstream of R378, 1 to 3 the candidates
  told     : List Nat := []            -- silent candidates reported since the last fold
  rate     : Int := 0                  -- steering, in parts per million
  part     : Int := 0                  -- fraction of a nanosecond, in millionths
  offset   : Int := 0                  -- last offset, in quarters of a nanosecond
  silent   : Nat := 0                  -- upstreams tried without an answer since the last valid exchange
  reqSent  : Option Int := none        -- t1 of the exchange under way, in quarters of a nanosecond
deriving DecidableEq, Repr

/-- Roll-call and time of the module. -/
structure RollCall where
  ops     : List RcOp := []
  nextId  : Nat := 0
  last    : SMap Nat := []             -- party ↦ 1 + SEQ of its last combined fence
  unacked : List RcUnacked := []
  servo   : Servo := {}
  late    : List (Nat × Nat) := []     -- party and FENCE_SEQ of fences already counted late (R376)
  votes   : List (Nat × Nat) := []     -- fences whose failed vote has been counted and posted
  mapFence : List (Nat × Nat) := []    -- fences whose map the stiles have taken
deriving DecidableEq, Repr

end Sys2Proof
end

