-- ==== Sys2Proof/Types/Control.lean ====
section
/-! DEFINITION. The itinerary, its store and its fold, leadership, and parties
(spec/13_itinerary_and_control.md R473 to R510). -/

namespace Sys2Proof

/-- States of an itinerary store slot (R474). -/
inductive SlotState where
  | empty | verifying | valid | badSignature | badFormat | wrongBase
deriving DecidableEq, Repr

/-- A slot of the itinerary store: its state and the SECTIONS of a VALID image (R508). -/
structure Slot where
  state    : SlotState := .empty
  sections : Nat := 0
deriving DecidableEq, Repr

/-- A section of an itinerary image: TYPE, INSTANCE and the words of its body (R475). -/
structure Section where
  ty   : Nat
  inst : Nat
  body : List Word
deriving DecidableEq, Repr

/-- An entry of the fold report (R494), one word each. -/
structure FoldEntry where
  w0 : Word
  w1 : Word
  w2 : Word
  w3 : Word
deriving DecidableEq, Repr

/-- A fold between `DEV_FOLD.GO` and its instant T (R487). -/
structure FoldPlan where
  sections : List Section
  job      : Dword
  sel      : Word
  instant  : Nat      -- T, a timetable value
  boot     : Bool := false
deriving DecidableEq, Repr

/-- A write held while a fold is BUSY (R490). -/
structure HeldWrite where
  acc  : Access
  data : Word
deriving DecidableEq, Repr

/-- Itinerary, store and fold (R473 to R494, R508). -/
structure Itinerary where
  store      : SMap Word := []          -- DEV offset of a word ↦ the word
  slots      : SMap Slot := []
  sel        : Word := 0                -- DEV_FOLD_SEL
  slotSel    : Nat := 0                 -- DEV_ITIN_CTRL.SLOT
  saving     : Option (SMap Word × List Nat × Word) := none  -- a save in progress: store, VALID slots, selection
  bootStore  : Option (SMap Word × List Nat × Word) := none  -- boot itinerary: store, VALID slots, selection
  plan       : Option FoldPlan := none  -- DEV_FOLD_STATUS.BUSY while present
  heldWrites : List HeldWrite := []     -- oldest first
  result     : Nat := 0                 -- DEV_FOLD_STATUS.RESULT
  reason     : Nat := 0
  count      : BitVec 16 := 0
  active     : Word := 0                -- DEV_FOLD_ACTIVE
  foldTime   : Dword := 0
  job        : Dword := 0
  report     : List FoldEntry := []
  overflow   : Nat := 0
  force      : List Section := []       -- the effective itinerary in force
  applied    : List Section := []       -- the one whose maps the stiles and link sets hold (R489)
  folded     : Bool := false            -- the first fold has completed
  bootFolded : Bool := false            -- the first fold since power-up was the boot fold
deriving DecidableEq, Repr

/-- Leadership (R497, R507). -/
structure Leadership where
  leader   : Option (Fin 4) := none     -- none: VACANT
  last     : Fin 4 := 0                 -- DEV_LEADER.LEADER
  target   : Fin 4 := 0                 -- DEV_LEADER.TARGET
  pending  : Bool := false
  deadline : Nat := 0                   -- end of the 1 s handover timer
  lease    : Nat := 0                   -- end of the lease
  keepPath : Path := .msg 3             -- the path that holds the lease (R498)
  term     : BitVec 16 := 0
deriving DecidableEq, Repr

/-- States of a party (R502). -/
inductive PartyPhase where
  | none | zeroing | ready | resetWait | resetting
deriving DecidableEq, Repr

/-- A party (R502, R509). -/
structure Party where
  phase     : PartyPhase := .none
  epoch     : BitVec 8 := 0
  resets    : Word := 0
  lastReset : Option Nat := none        -- when its last reset completed
  cleared   : Bool := false             -- RESETTING, and R505 has acted on its tiles
deriving DecidableEq, Repr

/-- Parties: their states, and the party that each logical tile and guest belongs to. -/
structure Parties where
  party      : SMap Party := []
  tileOwner  : SMap Nat := []           -- logical tile ↦ party (0 by default, from the first fold)
  guestOwner : SMap Nat := []
deriving DecidableEq, Repr

end Sys2Proof
end

