-- ==== Sys2Proof/Types/Host.lean ====
section
/-! DEFINITION. Host attachment: line buffers, host reads and the management endpoint
(spec/11_copper_and_host.md R444 to R459). -/

namespace Sys2Proof

/-- A line buffer of a function (R444): data-window line, mask of bytes written, data, and the times of its
opening and last write. -/
structure LineBuf where
  line  : Nat
  mask  : BitVec 64 := 0
  data  : Line := 0
  born  : Nat
  last  : Nat
deriving DecidableEq, Repr

/-- A doorbell or tally write that waits for its function's lines (R446). -/
structure HeldTally where
  path  : Path
  page  : Nat                          -- offset in the doorbell page
  data  : Word
  after : List Nat                     -- lines of its function that must still be answered
deriving DecidableEq, Repr

/-- A data-window read under way (R447). -/
structure HostRead where
  id     : Nat
  offset : Nat
  length : Nat
  lines  : SMap (Option Line) := []
  poison : Bool := false
  failed : Bool := false
  left   : Nat                         -- lines still to come
deriving DecidableEq, Repr

/-- The host side of one PCIe function. -/
structure HostFn where
  buffers : List LineBuf := []         -- oldest first
  serial  : Nat := 0                   -- number of the next full line or read
  unacked : List Nat := []             -- full lines sent and not answered, by number
  waiting : List HeldTally := []
  reads   : List HostRead := []
deriving DecidableEq, Repr

/-- A register-access request that answers on the management endpoint: its completion and data. -/
structure Endpoints where
  eid     : Nat := 0
  dynamic : Option Nat := none         -- I3C dynamic address
  maxRead : Nat := 69
  aa      : Nat := 0                   -- level of ADDR1 and ADDR0 sampled at PWRGD (R658)
  up      : Bool := false              -- the management endpoint answers
deriving DecidableEq, Repr

end Sys2Proof
end

