-- ==== Sys2Proof/Types/Optical.lean ====
section
/-! DEFINITION. Lanterns, ports, bundles and copper links (spec/10_optical_io.md, spec/11 R450 to R456,
link keys of spec/16 R591, R592). -/

namespace Sys2Proof

/-- States of a port or copper link (R424, R455); `probe` stands for PROBE of a port and TRAIN of a link. -/
inductive PortPhase where
  | off | probe | identify | active | absent | failed
deriving DecidableEq, Repr

/-- The code of R433 and R463. -/
def PortPhase.code : PortPhase → Nat
  | .off => 0 | .probe => 1 | .identify => 2 | .active => 3 | .absent => 4 | .failed => 5

/-- An identity message of R425 or R456: the sender, its ACK and VERSION, the peer it expects, its MAP_DIGEST, and its
CRC. -/
structure Identity where
  sender  : Nat        -- in the layout of the PEER field
  ack     : Bool
  version : Nat := 1
  peer    : Nat
  digest  : Word := 0
  crc     : Word
deriving DecidableEq, Repr

/-- A KEY_OFFER (R591). -/
structure KeyOffer where
  endpoint : Nat
  keyId    : Word
  nonce    : BitVec 256
  crc      : Word
deriving DecidableEq, Repr

/-- Keying of a connection (R591, R592). -/
structure Keying where
  nonce   : BitVec 256 := 0            -- this end's nonce
  offered : Option KeyOffer := none    -- the peer's offer
  keys    : List (BitVec 288) := []    -- link keys with their salts, held in the engine; the confirm key last
  keyed   : Bool := false
  stamps  : SMap (Option Nat) := []    -- band ↦ last launch stamp accepted under its key (R594)
deriving DecidableEq, Repr

/-- A port of a lantern, or a copper link. -/
structure Port where
  phase    : PortPhase := .off
  attempt  : Nat := 1
  cause    : Nat := 0
  begun    : Nat := 0                  -- when the attempt began
  peer     : Option Nat := none        -- identity received
  accepted : Bool := false             -- the received identity is accepted: ACK is sent as 1
  mismatch : Bool := false             -- MAP_MISMATCH
  keying   : Keying := {}
  start    : Option Nat := none        -- copper: when its first training is due (R439)
  entry    : Nat := 0                  -- copper: the entry of R452 in use
  newEntry : Option (Nat × Nat) := none -- copper: the entry that follows, and the fence instant (R453)
deriving DecidableEq, Repr

/-- A move of R400 of a bundle: the new entry and the timetable instant at which the move may start. -/
structure StileMove where
  entry   : BitVec 64
  phase   : Nat
  instant : Nat                        -- T_f − 48 ns
deriving DecidableEq, Repr

/-- A bundle of a lantern (R402 to R426, R434). -/
structure Bundle where
  entry    : BitVec 64 := 0            -- the phase-map entry in use, PARK at start
  phase    : Nat := 0                  -- the phase of that entry
  slot     : Nat := 0                  -- slots since the fence instant of a rotation
  origin   : Nat := 0                  -- s_0 of a rotation, a timetable value (R409)
  renew    : Option Nat := none        -- s_0 of the fence at which an unchanged rotation restarts its slots
  away     : Bool := false             -- the slot's position may not be lit: parked for the slot (R405)
  movedAt  : Option Nat := none        -- when the last move started, until its link is lit or given up
  locked   : Bool := false
  move     : Option StileMove := none
  parked   : Option Nat := some 0      -- since when it is parked
  pending  : Option Nat := none        -- since when a calibration is pending, a timetable value
  urgent   : Bool := false
  unmatched : Bool := false
  drift    : Nat := 0
  lastCal  : Nat := 0
  calibrating : Option Nat := none     -- when the running calibration began
  saved    : List Nat := []            -- heater codes from before it
  settle   : Nat := 0                  -- heaters settle until then
deriving DecidableEq, Repr

/-- A lantern. -/
structure Lantern where
  started  : Bool := false
  lasers   : Bool := false
  trim     : Nat := 0xF                -- planes in TRIM
  trimming : SMap (Option Nat) := []   -- plane ↦ when its 2 ms trim began
  faulty   : Nat := 0                  -- planes that failed a retrim: TRIM until the next start-up
  phase    : Nat := 0
  calDone  : Bool := false
  calBegun : Option Nat := none        -- start-up calibration
  table    : Bool := false             -- the tuning table is loaded
  origin   : Nat := 0
  ports    : SMap Port := []
  bundles  : SMap Bundle := []
  heaters  : SMap Nat := []            -- ring ↦ heater code
deriving DecidableEq, Repr

end Sys2Proof
end

