-- ==== Sys2Proof/Types/Panel.lean ====
section
/-! DEFINITION. The panel: fused maps, straps, strands and guests (spec/01_panel.md R14 to R54). -/

namespace Sys2Proof

/-- A link of the panel that trains under R33: a mesh link from a tile to its east or south neighbour,
a lantern strand or a strand to a host bridge, by its place in the table of R14. -/
inductive Strand where
  | mesh (t : Fin 64) (east : Bool)
  | lantern (n : Fin 8) (i : Fin 4)
  | bridge (h : Fin 2) (i : Fin 3)
deriving DecidableEq, Repr

/-- A number of its own for every link of the panel. -/
def Strand.id : Strand → Nat
  | .mesh t e => 2 * t.val + (if e then 1 else 0)
  | .lantern n i => 128 + 4 * n.val + i.val
  | .bridge h i => 160 + 3 * h.val + i.val

/-- A wire of a link: the direction it carries (away from the first end or toward it), its group, and its
place in the group; place 64 is the spare (R29). -/
structure Wire where
  away  : Bool
  group : Fin 32
  index : Fin 65
deriving DecidableEq, Repr

/-- States of R33 in which a link can rest; REPAIR and POSITION pass within the step that ends WIRE_TEST. -/
inductive LinkPhase where
  | off | clockLock | deskew | wireTest | active | failed
deriving DecidableEq, Repr

/-- Why a link is FAILED: its partner never answered, its partner's straps name another position, too few groups were
left in service, or it was reported down while it ran (R33, R34). -/
inductive StrandFault where
  | none | silent | strapMismatch | linkWidth | down
deriving DecidableEq, Repr

/-- State of a link of the panel (R29 to R36). -/
structure StrandState where
  phase   : LinkPhase := .off
  attempt : Nat := 1
  begun   : Nat := 0
  dead    : List Nat := []             -- groups out of service
  eyes    : List (Wire × Nat) := []    -- eye widths recorded by DESKEW, in 1/100 UI
  steered : List Wire := []            -- wires that a spare replaces
  width   : Nat := 0                   -- groups in service when training ended (R32)
  fault   : StrandFault := .none       -- what training or the running link reported
  near    : StrandRx := {}             -- receiver at the first end
  far     : StrandRx := {}
deriving DecidableEq, Repr

/-- A copy of the row skip map as fused (R19). -/
structure MapCopy where
  skip  : List Nat
  kind  : List Nat
  field : List Nat
  crc   : Nat
deriving DecidableEq, Repr

/-- Guest statuses of R642. -/
inductive GuestStatus where
  | unfitted | idle | bringup | staged | inService | absent | down
deriving DecidableEq, Repr

/-- The code of R642. -/
def GuestStatus.code : GuestStatus → Nat
  | .unfitted => 0 | .idle => 1 | .bringup => 2 | .staged => 3 | .inService => 4 | .absent => 5 | .down => 6

/-- A guest site (R46 to R54, R608). -/
structure Guest where
  status   : GuestStatus := .unfitted
  attempt  : Nat := 0              -- attempts made since bring-up was started anew
  step     : Nat := 0              -- step of R48 in progress
  since    : Nat := 0              -- when it started
  modules  : Nat := 0              -- mask of modules trained, then of modules in service
  rate     : Nat := 0              -- rate code offered, then agreed
  payload  : Nat := 0              -- payload code agreed
  answer   : List Dword := []
  window   : Nat := 0              -- window size in 64 KiB units
  maxPower : Nat := 0              -- declared maximum, in 0.25 W
  excess   : Nat := 0              -- consecutive measurements above it (R608)
  mainband : Bool := false         -- the mainband carries packets (R48); electrical idle otherwise (R568)
deriving DecidableEq, Repr

/-- A field retirement in progress (R567). -/
structure Retirement where
  row  : Nat := 0
  col  : Nat := 0
  copy : Option Nat := none        -- copy being blown; DEV_RETIRE.BUSY while present
deriving DecidableEq, Repr

/-- The panel's dies, map and guests. -/
structure Panel where
  hb0      : MapCopy
  hb1      : MapCopy
  fitted   : Nat                         -- GUEST_FITTED fuses (R47)
  mapRead  : Bool := false
  mapTried : Bool := false               -- both copies have been read since the last power-up or restart (R28)
  skip     : List Nat := []              -- effective skipped column of each row, once read
  pads     : SMap (Option Nat) := []     -- die ↦ strap pads where they differ from R16 and R17
  straps   : SMap (Option Nat) := []     -- die ↦ straps sampled at its last reset (R18)
  strands  : SMap StrandState := []
  guests   : SMap Guest := []
  retire   : Retirement := {}
  pending  : Nat := 0                    -- rows with an entry blown since the last start-up (R28)
  hamperTry : SMap Nat := []             -- site ↦ hamper training attempts that failed (R221)
deriving DecidableEq, Repr

end Sys2Proof
end

