-- ==== Sys2Proof/Types/Power.lean ====
section
/-! DEFINITION. Power, clocks, sensors and start-up (spec/17_power_clocks_startup.md R605 to R636). -/

namespace Sys2Proof

/-- Flags of a conversion or sample (R619, R620). -/
inductive SensorFlag where
  | openCircuit | short | range | reference
deriving DecidableEq, Repr

/-- The code of SENSOR_FAULT (R631). -/
def SensorFlag.code : SensorFlag → Nat
  | .openCircuit => 0 | .short => 1 | .range => 2 | .reference => 3

/-- A sensor: its last three conversions (newest first), whether it is lost, its clean conversions in a row
and its last valid reading in 1/16 °C. -/
structure Sensor where
  recent  : List (Option SensorFlag) := []
  lost    : Bool := false
  clean   : Nat := 0
  reading : Option Int := none
  kind    : Nat := 0                  -- last flag kind
deriving DecidableEq, Repr

/-- A throttle cause: its level (0 none to 3 for 25 %), when that level was last changed, and since when its reading
has stayed below the threshold less its margin (R621). -/
structure ThrottleCause where
  level  : Nat := 0
  since  : Nat := 0
  calm   : Nat := 0
deriving DecidableEq, Repr

/-- Where a tile stands in a change of operating point (R610). -/
inductive PointPhase where
  | steady | draining
deriving DecidableEq, Repr

/-- Power of one tile: its averages of 250 ns, newest first (R614), its energy in units of 15.625 nJ, the slew
posting (R615), and the change of operating point. -/
structure TilePower where
  samples  : List Nat := []
  posted   : Option Nat := none
  unposted : Nat := 0
  energy   : Nat := 0
  point    : PointPhase := .steady
deriving DecidableEq, Repr

/-- Power, sensors and start-up of the module. -/
structure Power where
  on        : SMap Bool := []                -- domain ↦ its rail is switched on
  good      : SMap Bool := []                -- domain ↦ it has reported power good
  switched  : SMap (Option Nat) := []        -- domain ↦ when it was switched on, until it reports
  toggled   : Option Nat := none             -- time of the last switch-on or switch-off (R607)
  wanted    : List Nat := []                 -- domains to switch on, ascending
  unwanted  : List Nat := []                 -- domains to switch off, descending
  pwrgd     : Bool := false                  -- power is good (R659)
  stage     : Nat := 0                       -- row of R625 in progress; 15 after F
  firstFold : Option Nat := none             -- F
  bases     : Nat := 0                       -- time of the power good or restart that start-up counts from
  sensors   : SMap Sensor := []
  causes    : SMap ThrottleCause := []
  volts     : Nat := 0                       -- input over 1 ms, in 10 mV and 0.1 A
  amps      : Nat := 0
  energy    : Nat := 0                       -- in units of 0.1 µJ
  shutdown  : Nat := 0                       -- STATE of R628
  shutdownAt : Nat := 0
  dark      : Nat := 8                       -- lanterns whose lasers the shutdown has still to turn off
  tiles     : SMap TilePower := []
  poweredOff : Bool := false
  guestPower : Bool := false
deriving DecidableEq, Repr

end Sys2Proof
end

