-- ==== Sys2Proof/Types/Recovery.lean ====
section
/-! DEFINITION. Recovery: weather, the rucksack, mirrors and the safe state
(spec/15_resilience.md R537 to R578). -/

namespace Sys2Proof

/-- A line of a stored piece or record, in walk order (R548). -/
inductive StoredLine where
  | stored (l : Line)
  | omitted
  | lost
deriving DecidableEq, Repr

/-- A piece of a generation (R546, R548): its tile, KEY, descriptor line and lines in walk order. -/
structure Piece where
  tile  : Nat
  key   : Word
  desc  : Line
  lines : List StoredLine
deriving DecidableEq, Repr

/-- A generation of a party (R547 to R555). -/
structure Gen where
  party    : Nat
  gen      : Word
  pieces   : List Piece := []
  sealed   : Bool := false
  self     : Bool := false
  torn     : Bool := false
  imported : Bool := false
  halves   : Nat := 3                  -- halves held: bit h
deriving DecidableEq, Repr

/-- A logbook record (R559, R560). -/
structure LogRecord where
  party : Nat
  tile  : Nat
  step  : Word
  micro : Nat
  stage : Nat
  lines : List StoredLine
deriving DecidableEq, Repr

/-- What a command has the rucksack program. -/
inductive RkWork where
  | piece (party : Nat) (gen : Word) (x : Piece)
  | record (x : LogRecord)
deriving DecidableEq, Repr

/-- Programming that a command waits for (R548, R560). -/
structure Programming where
  queue : Nat
  idx   : Word
  work  : RkWork
deriving DecidableEq, Repr

/-- A seal whose directory and record are being programmed (R549). -/
structure Sealing where
  party : Nat
  gen   : Word
deriving DecidableEq, Repr

/-- Self-checkpoint of a party (R553 to R555). -/
structure SelfCheck where
  armed   : Option Nat := none         -- when it was armed, until it starts
  fenced  : Bool := false              -- a voting fence has passed since, or the wait for one
  torn    : Bool := false
  causes  : Nat := 0                   -- categories that armed it
  running : Option Word := none        -- generation it writes
  failed  : Bool := false              -- refused for space
  blocked : List Nat := []             -- instances whose warnings stood at the last arming, until they clear
deriving DecidableEq, Repr

/-- A transfer block at work (R556, R576). -/
structure Transfer where
  busy   : Bool := false
  op     : Nat := 0
  party  : Nat := 0
  gen    : Word := 0
  addr   : Nat := 0
  len    : Nat := 0
deriving DecidableEq, Repr

/-- The rucksack (R542 to R560). -/
structure Rucksack where
  ready    : Nat := 0                  -- halves serving: bit h
  gens     : List Gen := []            -- in the order in which they were opened or imported
  log      : List LogRecord := []      -- oldest first
  programming : List Programming := []
  sealing  : List Sealing := []
  selves   : SMap SelfCheck := []
  xfers    : SMap Transfer := []
  wrote    : SMap Nat := []            -- half ↦ bytes programmed
  faults   : SMap Nat := []            -- half ↦ faults of the RUCKSACK category (R540, R545)
deriving DecidableEq, Repr

/-- A mirror window's state (R561 to R566, R577). -/
structure Mirror where
  state : Nat := 0                     -- 0 OFF, 1 SYNCING, 2 VALID, 3 INVALID, 4 FILLING
  cause : Nat := 0
  front : Nat := 0                     -- lines filled
  idle  : Nat := 0                     -- time of the last write into a receive window
deriving DecidableEq, Repr

/-- Weather of one counting instance (R540, R541): its counters at the end of the last window, and the
categories standing with the increase of each. -/
structure Weather where
  counts   : List Nat := []
  standing : Nat := 0
  rise     : List Nat := []
deriving DecidableEq, Repr

/-- Safe state (R568 to R571). -/
structure Safe where
  active  : Bool := false
  entered : Nat := 0                   -- when it was entered
  stage   : Nat := 0                   -- stages of R568 done
deriving DecidableEq, Repr

end Sys2Proof
end

