-- ==== Sys2Proof/Types/Security.lean ====
section
/-! DEFINITION. Security state (spec/16_security.md R579 to R604). -/

namespace Sys2Proof

/-- Owner services of R590 with their operands. A public key is held by its SHA-384 digest. -/
inductive SpdmKind where
  /-- KEY_EXCHANGE and FINISH: opens a session, mutually authenticated against the owner anchor or with
  responder authentication only -/
  | startSession (mutualAuth : Bool)
  | endSession (session : Nat)
  | heartbeat (session : Nat)
  | measurements (index : Nat)
  | certificate
  | challenge
  | ideProgram (fn : Fn)
  | unsupported
deriving DecidableEq, Repr

/-- An SPDM session of the active module (R588). -/
structure Session where
  id     : Nat
  path   : Path
  mutualAuth : Bool
deriving DecidableEq, Repr

/-- A security module (R579, R580, R585). -/
structure SecModule where
  tested  : Option Bool := none        -- self-tests passed or failed
  smOk    : Option Bool := none        -- security-module firmware verified
  hbOk    : Option Bool := none        -- boot firmware verified
  svnSm   : Nat := 0
  svnHb   : Nat := 0
deriving DecidableEq, Repr

/-- Security of the panel. -/
structure Security where
  anchor    : Option (BitVec 384) := none     -- fused
  keySlots  : SMap (Option (BitVec 384)) := [] -- fused itinerary keys
  revoked   : Nat := 0                        -- fused
  ideRequired : Bool := true                  -- fused (R595)
  minSm     : Nat := 0                        -- fused minimum SVNs (R585)
  minHb     : Nat := 0
  minGc     : Nat := 0
  modules   : SMap SecModule := []
  svnGc     : Nat := 0                        -- SVN of the guide-core firmware
  active    : Nat := 0                        -- 0 HB0, 1 HB1, 2 none
  jk        : Option (BitVec 256) := none     -- current job key
  jkPending : Option (BitVec 256) := none
  jkStored  : Option (BitVec 256) := none     -- wrapped under SWK, in the SYSTEM area (R583)
  debugOpen : Bool := false
  nonce     : BitVec 256 := 0
  sessions  : List Session := []
  ports     : SMap Bool := []                 -- sessions taken by IDE_KM, by function
  handover  : Option (Nat × Nat) := none      -- causing code and when it began (R602)
  guideOk   : Bool := false                   -- guide-core firmware verified
  measured  : SMap (BitVec 384) := []         -- measurements 0x06 to 0x09 of the last fold (R589)
deriving DecidableEq, Repr

end Sys2Proof
end

