-- ==== Sys2Proof/Types/Operands.lean ====
section
/-! DEFINITION. Operand types of the commands: what the outside world tells the block when it sends one. -/

namespace Sys2Proof

/-- A lane of a hamper channel (R190): groups 0 to 31 are data groups, 32 to 35 control groups; the last lane of
a group, 32 in a data group and 10 in a control group, is its spare. -/
structure HamperLane where
  channel : Fin 32
  group   : Fin 36
  lane    : Fin 33
deriving DecidableEq, Repr

/-- What a scrub works on (R218). -/
inductive ScrubPlace where
  | hamper (channel : Fin 32)
  | basket (bank : Fin 128)
deriving DecidableEq, Repr

/-- A connection that keys (R591): a port of a lantern, or a copper link. -/
inductive LinkPort where
  | optical (n : Fin 8) (p : Fin 16)
  | copper (k : Fin 13)
deriving DecidableEq, Repr

/-- The registers of a function's configuration space that the panel gives a meaning (R441, R442, R515, R639). -/
inductive ConfigReg where
  | ids | classRev | subsystem | vfDevice
  | command          -- bit 1 memory enable, bit 2 bus master enable
  | msixControl      -- bit 14 function mask, bit 15 MSI-X enable; Table Size reads 0
  | sriovControl     -- bit 0 VF enable; TotalVFs 16, First VF Offset 1, VF Stride 1
  | bar (i : Fin 6)
deriving DecidableEq, Repr

/-- Events of R449. -/
inductive HostEvent where
  | perst (h : Fin 2) | hotReset (h : Fin 2) | linkDown (h : Fin 2) | flr (f : Fn)
deriving DecidableEq, Repr

/-- The binding on which an MCTP message arrives (R457). -/
inductive Binding where
  | i3c | pcie (h : Fin 2)
deriving DecidableEq, Repr

/-- An MCTP message (R457): its binding, source EID, type and, for the message types that the endpoint serves,
its content; `pecOk` is what the packet error code check finds (R500). -/
inductive MctpBody where
  | control (setEid : Option Nat)
  | pldmSensor (id : Nat)
  | pldmFru
  | regRead (offset : Nat)
  | regWrite (offset : Nat) (data : Word)
  | regBlock (offset count : Nat)
  | regReserved (command : Nat)
  | spdm (k : SpdmKind)
  | other (type : Nat)
deriving DecidableEq, Repr

/-- An MCTP message. -/
structure Mctp where
  binding : Binding
  source  : Nat
  pecOk   : Bool := true
  body    : MctpBody
deriving DecidableEq, Repr

/-- I3C common command codes of R458. -/
inductive Ccc where
  | setdasa (static dynamic : Nat)
  | entdaa (dynamic : Nat)
  | rstdaa
  | setmrl (length : Nat)
  | getmrl
  | other (code : Nat)
deriving DecidableEq, Repr

/-- A counting instance of R540. -/
inductive WxInstance where
  | tile (t : Fin 64)
  | bundle (n : Fin 8) (m : Fin 32)
  | copper (k : Fin 13)
  | port (n : Fin 8) (p : Fin 16)
  | half (h : Fin 2)
deriving DecidableEq, Repr

/-- A number of its own for every counting instance. -/
def WxInstance.id : WxInstance → Nat
  | .tile t => t.val | .bundle n m => 64 + 32 * n.val + m.val | .copper k => 320 + k.val
  | .port n p => 333 + 16 * n.val + p.val | .half h => 461 + h.val

/-- What BOOT_VERIFY verifies (R585). -/
inductive BootImage where
  | securityModule (h : Fin 2)
  | bootFirmware (h : Fin 2)
  | guideCores
  | tuningTable (n : Fin 8)
deriving DecidableEq, Repr

/-- A signed debug token (R600). -/
structure DebugToken where
  dieId     : Word
  nonce     : BitVec 256
  signature : BitVec 768
deriving DecidableEq, Repr

/-- A die sensor (R618). -/
inductive DieSensor where
  | pair (d : Fin 158) (b : Bool)        -- sensor A or B of a compute die, hamper die or host bridge
  | lantern (n : Fin 8) (i : Fin 16)
deriving DecidableEq, Repr

/-- Averaging intervals of the input's measurements (R621, R623). -/
inductive SupplyWindow where
  | us100 | ms1 | ms10
deriving DecidableEq, Repr

/-- A checkpoint image in host memory (R558): its 256 header bytes and what follows them. -/
structure Image where
  header : List Byte
  body   : List Byte
deriving DecidableEq, Repr

/-- The issue of a VECTOR command: its queue, and how many chunks the vector unit then does at once (R296; DESIGN CHOICE,
assumption log entry 150). -/
structure VectorIssue where
  queue  : Fin 16384
  chunks : Nat
deriving DecidableEq, Repr

/-- The issue of a command that reads from the rucksack: its queue, and the codewords of what it reads that fail after read
retry (R545). -/
structure ReadIssue where
  queue : Fin 16384
  bad   : List Nat
deriving DecidableEq, Repr

/-- The end of a transfer: the image that an import has read from the host's memory, and the codewords of an export that
fail (R545, R556). -/
structure TransferEnd where
  image : Option Image
  bad   : List Nat
deriving DecidableEq, Repr

/-- The way of a roll-call message: the port or copper link it comes in by, its source and its destination (R373). -/
structure RcArrival where
  via  : LinkPort
  src  : Nat
  dest : Nat
deriving DecidableEq, Repr

/-- A die of the JTAG chain of R665. -/
inductive JtagDie where
  | bridge (h : Fin 2)
  | lantern (n : Fin 8)
  | site (s : Fin 72)
deriving DecidableEq, Repr

/-- A number of its own for every die with straps or a TAP. -/
def JtagDie.id : JtagDie → Nat
  | .site s => s.val | .lantern n => 72 + n.val | .bridge h => 80 + h.val

/-- Instructions of a die's TAP (R599, R665); every other code decodes as BYPASS. -/
inductive TapInstruction where
  | bypass | idcode | samplePreload | extest | strapRead
deriving DecidableEq, Repr

/-- Registers of a die's TAP (R599, R665). -/
structure Tap where
  instruction : TapInstruction := .idcode
  boundary    : Nat := 0
  driven      : Bool := false            -- EXTEST drives the boundary register onto the pins
deriving DecidableEq, Repr

end Sys2Proof
end

