-- ==== Sys2Proof/Syntax.lean ====
section
/-! DEFINITION. The commands of the block: one constructor for each row of the opcode table.
A constructor's operands are what the sender or the surroundings put into the command: a register path and value,
a unit's number, a measurement, a packet, what a check found. -/

namespace Sys2Proof

/-- A command (spec/opcode_table.json). -/
inductive Instr where
  /-- REGISTER_WRITE (R11). A write to a register field with no row of its own takes effect by its access type, subject to ownership, staging and reserved-range rules. -/
  | registerWrite (acc : Access) (size : Nat) (data : Dword)
  /-- LOW_WORD_READ (R10). A 4-byte read of the low word of a 64-bit quantity returns it and latches the high half for the reading path. -/
  | lowWordRead (acc : Access) (size : Nat)
  /-- POWER_GOOD (R625). Module power good starts the host bridges, self-tests, PLL lock and the timed start-up sequence. -/
  | powerGood (aa : Fin 4)
  /-- STARTUP_STEP (R625). The start-up sequence advances to its next timed step once the previous one completes. -/
  | startupStep
  /-- ROW_MAP_READ (R22). At start-up the panel reads both row skip map copies and uses, repairs or refuses the map. -/
  | rowMapRead
  /-- DOMAIN_SWITCH_ON (R607). The panel switches on the next power domain, one every 25 us in ascending order. -/
  | domainSwitchOn
  /-- DOMAIN_SWITCH_OFF (R607). The panel switches off the next domain in descending order, one every 25 us. -/
  | domainSwitchOff
  /-- DOMAIN_POWER_GOOD_TIMEOUT (R607). A domain that has not reported power good 1 ms after switch-on fails its guest attempt or puts the panel in the safe state. -/
  | domainPowerGoodTimeout (d : Fin 158)
  /-- STRAND_TRAIN_START (R33). Both ends of a link out of reset with valid straps start their forwarded clocks. -/
  | strandTrainStart (l : Strand)
  /-- STRAND_CLOCK_LOCK_TIMEOUT (R33). At 20 us of clock lock every group not locked is marked out of service and deskew begins. -/
  | strandClockLockTimeout (l : Strand) (locked : BitVec 32)
  /-- STRAND_DESKEW_DONE (R33). Sample points are centred on every wire and eye widths recorded. -/
  | strandDeskewDone (l : Strand) (eyes : List (Wire × Nat))
  /-- STRAND_WIRE_TEST_DONE (R33). After 2^20 PRBS-15 bits per wire, wires are judged, spares steered, and the position check enables, retries or fails the link. -/
  | strandWireTestDone (l : Strand) (errors : List Wire)
  /-- STRAND_FRAME_RECEIVE (R30). A receiver takes a 16-transfer strand frame, checks its CRC and accepts it or requests a replay. -/
  | strandFrameReceive (l : Strand) (far : Bool) (seq : Nat) (crcOk : Bool)
  /-- STRAND_LINK_DOWN (R33). Loss of a forwarded clock or eight failed replays of one frame take the link to FAILED. -/
  | strandLinkDown (l : Strand)
  /-- HAMPER_TRAINING (R220). Each hamper trains its channels' data and control lanes and repairs them with spares. -/
  | hamperTraining (site : Fin 72) (failed : List HamperLane)
  /-- GUEST_BRINGUP_START (R48). The panel switches on a guest's domain and holds its reset to start bring-up. -/
  | guestBringupStart (n : Fin 4)
  /-- GUEST_RESET_RELEASE (R48). 1 ms after the guest domain reports good, the guest's reset is released and training begins. -/
  | guestResetRelease (n : Fin 4)
  /-- GUEST_TRAINING_DONE (R48). UCIe module training completes and the panel sends the profile offer. -/
  | guestTrainingDone (n : Fin 4) (modules : BitVec 4)
  /-- GUEST_PROFILE_ANSWER (R50). The guest's profile answer is checked and the panel sends the confirm or fails the attempt. -/
  | guestProfileAnswer (n : Fin 4) (words : List Dword)
  /-- GUEST_CONFIRM_ACK (R48). The guest acknowledges the confirm and is staged to open its mainband at the next fold. -/
  | guestConfirmAck (n : Fin 4)
  /-- GUEST_STEP_TIMEOUT (R48). A bring-up step that times out resets the guest and retries, declaring it absent after the fourth attempt. -/
  | guestStepTimeout (n : Fin 4)
  /-- GUEST_EARLY_PACKET (R51). A packet driven on the mainband before step 7 is discarded and fails the attempt. -/
  | guestEarlyPacket (n : Fin 4)
  /-- GUEST_LINK_DOWN (R54). A guest UCIe link that goes down after step 7 declares the guest down and drops its packets. -/
  | guestLinkDown (n : Fin 4)
  /-- GUEST_POWER_SAMPLE (R608). Each 1 ms guest power measurement; ten consecutive excesses declare the guest down. -/
  | guestPowerSample (n : Fin 4) (power : Nat)
  /-- RENEGOTIATE (R641). Restarts the bring-up of an absent or down guest from step 1. -/
  | renegotiate (p : Path) (guests : BitVec 4)
  /-- TAKE_DOWN (R641). Declares a guest down and switches its domain off. -/
  | takeDown (p : Path) (guests : BitVec 4)
  /-- NOP (R269). Issue of a NOP, which only waits and signals. -/
  | nop (g : Fin 16384)
  /-- TALLY_SET (R276). Issue of TALLY_SET, which sets or adds to a local tally. -/
  | tallySet (g : Fin 16384)
  /-- SET_SEED (R298). Issue of SET_SEED, which writes one seed slot or all 16 from a table. -/
  | setSeed (g : Fin 16384)
  /-- REG_COPY (R299). Issue of REG_COPY, which copies TIL window words into memory and optionally clears watches. -/
  | regCopy (g : Fin 16384)
  /-- GUIDE_CALL (R304). Issue of GUIDE_CALL, which passes a service request to a guide core. -/
  | guideCall (g : Fin 16384)
  /-- TASK_BEGIN (R278). Issue of TASK_BEGIN, which opens a task. -/
  | taskBegin (g : Fin 16384)
  /-- TASK_END (R278). Issue of TASK_END, which closes a task and completes when every other command of it completes. -/
  | taskEnd (g : Fin 16384)
  /-- PHASE_FENCE (R288). A phase fence arrives, logs the end of the phase and contributes to its combining. -/
  | phaseFence (g : Fin 16384)
  /-- VECTOR (R293). Issue of a vector command, whose operation is computed and rounded into its destination. -/
  | vector (v : VectorIssue)
  /-- MATRIX_PASS (R133). Issue of a matrix pass to an engine after its checks. -/
  | matrixPass (g : Fin 16384)
  /-- MOVE (R242). Issue of MOVE, which copies source elements to destination elements. -/
  | move (g : Fin 16384)
  /-- TRANSPOSE (R247). Issue of TRANSPOSE, which moves data through the exchange network. -/
  | transpose (g : Fin 16384)
  /-- COLLECTIVE (R357). Issue of a collective command to the tile's collective engine. -/
  | collective (g : Fin 16384)
  /-- CHECKPOINT (R547). Issue of CHECKPOINT, which writes a piece into or seals a generation. -/
  | checkpoint (g : Fin 16384)
  /-- RESTORE (R550). Issue of RESTORE, which writes a stored piece back to tile memory. -/
  | restore (r : ReadIssue)
  /-- LOGBOOK (R560). Issue of LOGBOOK, which writes or reads a logbook record. -/
  | logbook (r : ReadIssue)
  /-- RESERVED_OPCODE (R269). A command with a reserved opcode is rejected with an encoding error. -/
  | reservedOpcode (g : Fin 16384)
  /-- COMMAND_COMPLETE (R267). A command completes, signals its tally and HEAD advances past completed commands. -/
  | commandComplete (g : Fin 16384) (idx : Word)
  /-- FETCH_AHEAD (R283). Fetch-ahead reads command lines, descriptors and prefetch granules ahead of the issue point. -/
  | fetchAhead (g : Fin 16384)
  /-- TASK_ABORT (R280). A command error aborts its task: no further signals, issued commands stop and unissued ones are skipped. -/
  | taskAbort (g : Fin 16384) (idx : Word) (e : CmdError)
  /-- ABORT_QUIESCED (R280). Once every issued command of an aborted task has stopped, the abort record is posted and ABORT_TALLY signalled. -/
  | abortQuiesced (g : Fin 16384)
  /-- DOORBELL_WRITE (R260). A write to a queue DOORBELL moves TAIL when in range or posts a doorbell-range event. -/
  | doorbellWrite (p : Path) (g : Fin 16384) (v : Word)
  /-- QUEUE_RING_WRITE (R263). A write to PTY_Qg_RING sets the ring and zeroes its indices only while the queue is disabled and idle. -/
  | queueRingWrite (p : Path) (g : Fin 16384) (v : Word)
  /-- QUEUE_CTRL_WRITE (R264). A write to PTY_Qg_CTRL enables or disables a queue and sets its watchdog limit. -/
  | queueCtrlWrite (p : Path) (g : Fin 16384) (v : Word)
  /-- QUEUE_ABORT (R282). Writing PTY_Qg_ABORT.GO aborts the open task or the command at the issue point with code REQUEST. -/
  | queueAbort (p : Path) (g : Fin 16384)
  /-- TALLY_VALUE_WRITE (R275). A write to PTY_TALLYk_VALUE sets the tally. -/
  | tallyValueWrite (p : Path) (k : Fin 131072) (v : Word)
  /-- TALLY_ADD_WRITE (R275). A write to PTY_TALLYk_ADD adds to the tally as a signal does. -/
  | tallyAddWrite (p : Path) (k : Fin 131072) (v : Word)
  /-- STALL_TIMEOUT (R300). A queue stalled for STALL_MS sets STALL and posts one stall event. -/
  | stallTimeout (g : Fin 16384)
  /-- GUIDE_ANSWER (R304). A guide core answers a call with a STATUS word and results, completing or failing it. -/
  | guideAnswer (t : Fin 64) (core : Fin 2) (status : Word) (results : List Word)
  /-- GUIDE_CALL_TIMEOUT (R304). A guide call not answered within 1 ms fails with a guide error. -/
  | guideCallTimeout (t : Fin 64) (core : Fin 2)
  /-- GUIDE_MAILBOX_GO (R306). Writing TIL_GUIDE_CTRL.GO submits a mailbox request to a guide core. -/
  | guideMailboxGo (p : Path) (t : Fin 64)
  /-- PASS_FIRST_BROADCAST (R119). A pass broadcasts its first vector once its start conditions are all met. -/
  | passFirstBroadcast (t : Fin 64) (e : Fin 4) (cycles : Nat)
  /-- STATIONARY_LOAD_START (R117). A pass's stationary load starts once it is issued and rows 0 and 1 are free. -/
  | stationaryLoadStart (t : Fin 64) (e : Fin 4)
  /-- MOVING_DATA_ARRIVAL (R114). Moving-operand data arrives for a pass that was waiting with DRY cycles. -/
  | movingDataArrival (t : Fin 64) (e : Fin 4) (rows : Nat)
  /-- PASS_SUM_ARRIVAL (R144). Pass sums reach the accumulator input and are added into their bank words. -/
  | passSumArrival (t : Fin 64) (e : Fin 4) (vectors : Nat) (cycles : Nat)
  /-- PASS_COMPLETE (R112). A pass completes when its last valid lane is written or its drain completes, and signals its tally. -/
  | passComplete (t : Fin 64) (e : Fin 4)
  /-- ENGINE_WINDOW_EXPIRED (R126). An idle run reaching WINDOW cycles moves the engine from HOLD or RISE to FALL. -/
  | engineWindowExpired (t : Fin 64) (u : Fin 5)
  /-- ENGINE_RAMP_STEP (R126). Every RAMP cycles in FALL or RISE the density limit D moves by one. -/
  | engineRampStep (t : Fin 64) (u : Fin 5)
  /-- ME_FOLD (R136). Writing TIL_ME_FOLD.GO folds the staged power fields of all four engines. -/
  | meFold (p : Path) (t : Fin 64)
  /-- BANK_FILL_DONE (R146). The last lane of every admitted pass is written and the bank goes IDLE or requests a drain. -/
  | bankFillDone (t : Fin 64) (b : Fin 8)
  /-- DRAIN_START (R148). The drain unit becomes free for the oldest request and starts reading its bank. -/
  | drainStart (t : Fin 64) (e : Fin 4)
  /-- DRAIN_LAST_READ (R148). The drain reads the last row of the extent and the extent becomes EMPTY. -/
  | drainLastRead (t : Fin 64) (e : Fin 4)
  /-- DRAIN_COMPLETE (R148). A drain completes 10 cycles after its last read. -/
  | drainComplete (t : Fin 64) (e : Fin 4)
  /-- BANK_ZERO_EXPIRED (R146). 256 cycles after entering ZERO a bank goes IDLE or DRAIN_WAIT. -/
  | bankZeroExpired (t : Fin 64) (b : Fin 8)
  /-- TASTER_RECOMPUTE (R167). The vector unit recomputes a sampled vector from KF16 references between commands. -/
  | tasterRecompute (t : Fin 64)
  /-- TASTER_SAMPLE_RECORD (R169). A recomputed sample's error ratio is binned into its watch. -/
  | tasterSampleRecord (t : Fin 64)
  /-- WATCH_CLEAR (R175). Writing TIL_WATCHw_STATUS.CLEAR zeroes the watch's statistics and clears TRIPPED. -/
  | watchClear (p : Path) (t : Fin 64) (w : Fin 256)
  /-- TASTE_FOLD (R172). Writing TIL_TASTE_FOLD.GO folds TIL_TASTE_CTRL. -/
  | tasteFold (p : Path) (t : Fin 64)
  /-- HAMPER_BURST (R196). At a burst boundary a hamper channel chooses and performs the next burst by class and age. -/
  | hamperBurst (t : Fin 64) (c : Fin 32) (arrivals : List HamperReq) (errors : List (Nat × EccFinding))
    (retries : List Nat)
  /-- AGED_REQUEST (R197). A class 1 or 2 request that has waited 2,048 hamper cycles becomes aged. -/
  | agedRequest (t : Fin 64) (c : Fin 32)
  /-- SCRUB_UNIT (R218). Scrub reads, checks and corrects its next unit in a free or forced slot. -/
  | scrubUnit (t : Fin 64) (place : ScrubPlace) (errors : List (Nat × EccFinding))
  /-- ZEROING_STEP (R211). A channel or bank zeroes its next granule or line on its pace. -/
  | zeroingStep (t : Fin 64) (paces : Nat)
  /-- ZEROING_FRONT_PASS (R212). The zeroing front passes a line and a stalled access to it proceeds. -/
  | zeroingFrontPass (t : Fin 64)
  /-- MEM_FOLD (R223). Writing TIL_MEM_FOLD.GO folds cache size and stash region together. -/
  | memFold (p : Path) (t : Fin 64)
  /-- STASH_HWM_CLEAR (R224). Writing TIL_STASH_HWM.CLEAR sets the high-water mark to 0. -/
  | stashHwmClear (p : Path) (t : Fin 64)
  /-- MEM_ERR_ADDR_CLEAR (R227). Writing TIL_MEM_ERR_ADDR_HI.CLEAR clears VALID and the offset fields. -/
  | memErrAddrClear (p : Path) (t : Fin 64)
  /-- MOVE_CHUNK (R242). A mover writes a 64-line destination chunk once all its source lines have been read. -/
  | moveChunk (t : Fin 64) (m : Fin 4)
  /-- EXCHANGE_BLOCK (R248). The exchange network accepts a 64-line block and releases it transposed 8 cycles later. -/
  | exchangeBlock (t : Fin 64)
  /-- ROUTER_PACKET_RECEIVE (R312). A router takes a packet, discards malformed ones and forwards it by dimension order when credits allow. -/
  | routerPacketReceive (t : Fin 64) (port : Fin 8) (arriving : Option Packet)
  /-- PACKET_ESCAPE (R321). A packet that waited ESCAPE cycles for credits moves to the footpath. -/
  | packetEscape (t : Fin 64) (port : Fin 8) (vc : Fin 4)
  /-- WRITE_PACKET (R324). A destination checks a WRITE packet, performs its lines and returns an ACK. -/
  | writePacket (ep : Endpoint)
  /-- WRITE_ACC_PACKET (R324). A destination checks a WRITE_ACC packet, accumulates its lines and returns an ACK. -/
  | writeAccPacket (ep : Endpoint)
  /-- READ_REQ (R324). A destination checks a READ_REQ and returns READ_RESPs of the lines read. -/
  | readReq (ep : Endpoint)
  /-- READ_RESP (R325). The requester writes the lines of a READ_RESP, or aborts on POISON. -/
  | readResp (ep : Endpoint)
  /-- SIGNAL (R324). A destination applies a SIGNAL packet's tally increment and returns an ACK. -/
  | signal (ep : Endpoint)
  /-- ACK (R325). A source matches an ACK to its packet and counts the packet complete. -/
  | ack (ep : Endpoint)
  /-- NACK (R326). A source receives a NACK and aborts the sending command's task or reports a lost signal. -/
  | nack (ep : Endpoint)
  /-- ACK_TIMEOUT (R327). A packet unanswered after ACK_MS is treated as lost and its task aborts with LINK. -/
  | ackTimeout (ep : Endpoint)
  /-- PACKET_AGE_CHECK (R328). A router discards packets older than LIFETIME and returns NACK AGED. -/
  | packetAgeCheck (t : Fin 64)
  /-- CC_RATE_INCREASE (R338). INC_US without ECE raises a connection's rate R. -/
  | ccRateIncrease (ep : Endpoint) (key : Nat)
  /-- FAB_FOLD (R350). Writing TIL_FAB_FOLD.GO folds the fabric configuration registers. -/
  | fabFold (p : Path) (t : Fin 64)
  /-- LINK_FRAME_RECEIVE (R344). An inter-module link receiver takes a frame, corrects and verifies it, or requests a replay. -/
  | linkFrameReceive (l : ModLink) (f : Frame)
  /-- INTER_MODULE_LINK_DOWN (R345). An inter-module link is declared down, its held packets dropped with NACK LINK. -/
  | interModuleLinkDown (l : ModLink)
  /-- OPEN_ROUND_RESULT (R359). The open round result reaches a member, which aborts on digest mismatch or starts its data phase. -/
  | openRoundResult (t : Fin 64)
  /-- COLLECTIVE_CHUNK_STEP (R364). A collective chunk advances through its panel-in, axis and panel-out exchange
  steps; `step` counts the exchanges that it has behind it. -/
  | collectiveChunkStep (t : Fin 64) (chunk step : Nat)
  /-- COLLECTIVE_TIMEOUT (R369). A collective without progress for COLL_MS aborts with LINK and sends a roll-call ABORT. -/
  | collectiveTimeout (t : Fin 64)
  /-- ROLLCALL_MESSAGE (R372). A roll-call message is checked, combined, acknowledged or discarded. -/
  | rollcallMessage (way : RcArrival) (msg : RcMessage)
  /-- ROLLCALL_ABORT (R369). A roll-call ABORT message aborts the receiving member's collective with REMOTE. -/
  | rollcallAbort (via : Option (LinkPort × Nat)) (msg : RcMessage)
  /-- ROLLCALL_REPEAT (R372). An unacknowledged roll-call message is repeated after 2 us, up to three times. -/
  | rollcallRepeat
  /-- FENCE_RESULT (R375). The fence combining result reaches a tile and fixes the fence instant or fails the fence. -/
  | fenceResult (t : Fin 64)
  /-- FENCE_INSTANT (R375). At the fence instant the fence completes, the phase starts and the vote gate is set. -/
  | fenceInstant (t : Fin 64)
  /-- TIME_REQ (R378). Every 1 ms a module sends TIME_REQ to its upstream; the upstream stamps and answers with TIME_RESP. -/
  | timeReq (request : Option (LinkPort × Nat × Int))
  /-- TIME_RESP (R379). A TIME_RESP yields an offset that locks or steers the timetable servo. -/
  | timeResp (via : LinkPort) (src : Nat) (t2 : Int) (t3 : Int) (t4 : Int)
  /-- TIME_EXCHANGE_TIMEOUT (R379). 3 ms without a valid exchange moves to the next upstream candidate or into HOLDOVER. -/
  | timeExchangeTimeout
  /-- TIME_SET (R384). Writing DEV_TIME_SET_HI on ROOT before its first fold loads the counter. -/
  | timeSet (p : Path) (hi : Word)
  /-- LANTERN_START (R427). At its start slot a lantern turns its lasers on into park, trims every stage and starts port probing. -/
  | lanternStart (n : Fin 8)
  /-- STILE_TRIM_DONE (R399). A 2 ms trim of a plane completes and it enters calibration or FAST. -/
  | stileTrimDone (n : Fin 8) (plane : Fin 4) (good : Bool)
  /-- STILE_RETRIM (R401). Writing LAN_STILE_CTRL.RETRIM trims and tests a plane in TRIM. -/
  | stileRetrim (p : Path) (n : Fin 8) (planes : BitVec 4)
  /-- STILE_MOVE_START (R400). At its start instant a bundle's electrodes change state and its path moves. -/
  | stileMoveStart (n : Fin 8) (m : Fin 32)
  /-- STILE_MOVE_CHECK (R401). After a move the tap monitors check the path and a stage fault parks the plane. -/
  | stileMoveCheck (n : Fin 8) (m : Fin 32) (good : Bool)
  /-- LINK_LIT (R407). A moved bundle's new link joins its direction's set 48 ns after the move starts. -/
  | linkLit (n : Fin 8) (m : Fin 32)
  /-- LINK_DRAINED (R407). An old link is drained once its frames and the drain marks are acknowledged. -/
  | linkDrained (l : ModLink)
  /-- ROTATION_SLOT (R409). A new rotation slot starts and ROTATE bundles move to the next slot position. -/
  | rotationSlot (n : Fin 8)
  /-- BUNDLE_LOCK_TIMEOUT (R426). A new link not locked 1 ms after its move is declared down and its bundle marked UNMATCHED. -/
  | bundleLockTimeout (n : Fin 8) (m : Fin 32)
  /-- RING_HEATER_UPDATE (R411). After each 1 us sensor sample the lantern sets each ring's heater code from the table. -/
  | ringHeaterUpdate (n : Fin 8) (readings : List Int)
  /-- DRIFT_UPDATE (R414). Every 1 ms the lantern updates a lit bundle's DRIFT. -/
  | driftUpdate (n : Fin 8) (m : Fin 32) (distances : List Nat)
  /-- CALIBRATION_START (R415). A pending calibration starts once its bundle has been parked for 50 us. -/
  | calibrationStart (n : Fin 8) (m : Fin 32)
  /-- CALIBRATION_STOP (R415). A calibration stops when its bundle will be lit and heater codes are restored. -/
  | calibrationStop (n : Fin 8) (m : Fin 32)
  /-- CALIBRATION_DONE (R416). A calibration completes and sets the ring offsets. -/
  | calibrationDone (n : Fin 8) (m : Fin 32) (targets : List Nat)
  /-- CAL_URGENT (R415). A calibration pending over 60 s, or drift above URGENT_PM, sets CAL_URGENT and posts an event. -/
  | calUrgent (n : Fin 8) (m : Fin 32)
  /-- LAN_FOLD (R430). Writing LAN_FOLD.GO folds LAN_CAL_CFG. -/
  | lanFold (p : Path) (n : Fin 8)
  /-- PROBE_BURST (R423). A port in PROBE sends one 2 us service burst every 1 ms. -/
  | probeBurst (n : Fin 8) (port : Fin 16)
  /-- PORT_LIGHT_RECEIVED (R424). A probing port receives its peer's light, sends continuous service light and starts identity messages. -/
  | portLightReceived (n : Fin 8) (port : Fin 16) (power : Int)
  /-- IDENTITY_SEND (R424). A port in IDENTIFY sends its identity message every 10 us. -/
  | identitySend (n : Fin 8) (port : Fin 16)
  /-- PORT_IDENTITY (R425). A received identity message makes the port ACTIVE or FAILED. -/
  | portIdentity (n : Fin 8) (port : Fin 16) (identity : Identity)
  /-- PORT_ATTEMPT_TIMEOUT (R424). 50 ms after a port attempt began it retries or becomes ABSENT. -/
  | portAttemptTimeout (n : Fin 8) (port : Fin 16)
  /-- PORT_LOSS_OF_LIGHT (R422). 100 us without service light triggers automatic power reduction and returns the port to PROBE. -/
  | portLossOfLight (n : Fin 8) (port : Fin 16)
  /-- PORT_RETRAIN (R431). Writing LAN_RETRAIN starts probing on an ABSENT or FAILED port. -/
  | portRetrain (p : Path) (n : Fin 8) (ports : BitVec 16)
  /-- KEY_OFFER (R591). A KEY_OFFER received at ACTIVE derives the connection's link keys. -/
  | keyOffer (c : LinkPort) (offer : KeyOffer)
  /-- KEY_CONFIRM (R592). A KEY_CONFIRM completes keying, or a mismatch fails the port or link. -/
  | keyConfirm (c : LinkPort) (tag : BitVec 128)
  /-- CONFIG_REQUEST (R441). A PCIe configuration request is answered with CRS until boot firmware is verified, then normally. -/
  | configRequest (f : Fn) (reg : ConfigReg) (write : Option Word)
  /-- HOST_WRITE_TLP (R444). A host write TLP fills line buffers, and full lines are sent to their tiles. -/
  | hostWriteTlp (f : Fn) (offset : Nat) (bytes : List Byte)
  /-- LINE_BUFFER_TIMEOUT (R445). A partial line buffer idle for 1 us is discarded with a partial-write event. -/
  | lineBufferTimeout (f : Fn) (line : Nat)
  /-- HOST_READ_TLP (R447). A host read is served by READ_REQ packets and completed with the bytes asked for. -/
  | hostReadTlp (f : Fn) (offset : Nat) (length : Nat)
  /-- HOST_PORT_RESET (R449). PERST#, hot reset, link down or FLR discards partial buffers and resets the function's PCIe state. -/
  | hostPortReset (event : HostEvent)
  /-- COPPER_TRAIN_START (R455). A rack or buddy link starts training with the peer at its rate. -/
  | copperTrainStart (k : Fin 13)
  /-- COPPER_LANES_LOCKED (R455). All lanes lock and equalise and the link sends its identity. -/
  | copperLanesLocked (k : Fin 13)
  /-- COPPER_IDENTITY (R456). A received copper identity makes the link ACTIVE or FAILED. -/
  | copperIdentity (k : Fin 13) (identity : Identity)
  /-- COPPER_ATTEMPT_TIMEOUT (R455). 50 ms after a copper attempt began it retries or becomes ABSENT. -/
  | copperAttemptTimeout (k : Fin 13)
  /-- COPPER_RETRAIN (R464). Writing HBG_RETRAIN restarts training of an ABSENT or FAILED copper link. -/
  | copperRetrain (p : Path) (links : BitVec 13)
  /-- MCTP_MESSAGE (R457). An MCTP message is taken by the management endpoint and dispatched or discarded. -/
  | mctpMessage (msg : Mctp)
  /-- I3C_CCC (R458). An I3C common command code (SETDASA, ENTDAA, RSTDAA, SETMRL, GETMRL) is served. -/
  | i3cCcc (ccc : Ccc)
  /-- READ32 (R459). Register-access READ32 returns one word. -/
  | read32 (m : Fin 4) (offset : Nat)
  /-- WRITE32 (R459). Register-access WRITE32 writes one word under ownership rules. -/
  | write32 (m : Fin 4) (offset : Nat) (data : Word)
  /-- READ_BLOCK (R459). Register-access READ_BLOCK returns up to 16 consecutive words. -/
  | readBlock (m : Fin 4) (offset : Nat) (count : Nat)
  /-- REG_ACCESS_RESERVED (R459). A reserved register-access command completes with code 0x01. -/
  | regAccessReserved (m : Fin 4) (command : Nat)
  /-- ITIN_STORE_WRITE (R473). A write to an itinerary store slot sets it EMPTY, and a slot 0 write makes VALID detours WRONG_BASE. -/
  | itinStoreWrite (p : Path) (offset : Nat) (data : Word)
  /-- VERIFY (R474). Writing DEV_ITIN_CTRL.VERIFY starts verifying the named slot. -/
  | verify (p : Path) (slot : Fin 64)
  /-- ITIN_VERIFY_DONE (R476). A slot verify ends in VALID, BAD_SIGNATURE, BAD_FORMAT or WRONG_BASE. -/
  | itinVerifyDone
  /-- SAVE (R491). Writing DEV_ITIN_CTRL.SAVE copies the VALID slots and selection into the boot itinerary. -/
  | save (p : Path)
  /-- ITIN_SAVE_DONE (R491). The boot itinerary save completes and SAVE_BUSY clears. -/
  | itinSaveDone
  /-- FOLD_GO (R487). Writing DEV_FOLD.GO builds the effective itinerary, checks and clamps it, and stages or refuses it. -/
  | foldGo (p : Path)
  /-- FOLD_INSTANT (R488). At fold instant T every block makes its staged values active and structural changes start. -/
  | foldInstant
  /-- BOOT_FOLD (R491). At power-up HB0 firmware loads, verifies and folds the boot itinerary. -/
  | bootFold
  /-- CLAIM (R497). CLAIM in VACANT makes the master trip leader and starts its lease. -/
  | claim (p : Path)
  /-- KEEP (R497). KEEP from the leader restarts its lease. -/
  | keep (p : Path)
  /-- RELEASE (R497). RELEASE from the leader makes leadership VACANT. -/
  | release (p : Path)
  /-- HANDOVER (R497). HANDOVER from the leader sets a pending handover to a target. -/
  | handover (p : Path) (target : Fin 4)
  /-- ACCEPT (R497). ACCEPT from the target completes a pending handover. -/
  | accept (p : Path)
  /-- DEPOSE (R497). DEPOSE from the service port removes the leader. -/
  | depose (p : Path)
  /-- LEASE_EXPIRY (R498). The leader's lease expires and leadership becomes VACANT. -/
  | leaseExpiry
  /-- HANDOVER_TIMEOUT (R497). 1 s without ACCEPT fails the handover. -/
  | handoverTimeout
  /-- PARTY_RESET_REQUEST (R504). Writing DEV_PARTY_CTRL.RESET resets a READY party or holds the request. -/
  | partyResetRequest (p : Path) (party : Fin 16)
  /-- PARTY_RESET_WAIT_EXPIRY (R502). 20 ms after the last reset a held reset request starts. -/
  | partyResetWaitExpiry (party : Fin 16)
  /-- PARTY_RESET (R505). A party reset stops its commands, clears its state and advances its epoch. -/
  | partyReset (party : Fin 16)
  /-- PARTY_RESET_DONE (R502). Every issued command of a resetting party has stopped and PARTY_RESET is posted. -/
  | partyResetDone (party : Fin 16)
  /-- PARTY_ZEROING_DONE (R502). Zeroing of every tile of a party ends and PARTY_READY is posted. -/
  | partyZeroingDone (party : Fin 16)
  /-- EVENT_COMMIT (R512). A source commits an event record, which enters its posting buffer or is discarded. -/
  | eventCommit (e : Event)
  /-- RECORD_WRITE (R517). The posting buffer writes its oldest record to host memory when the ring is enabled and has space. -/
  | recordWrite (ring : Fin 17)
  /-- MODERATION_TIMEOUT (R522). The moderation timer expires and sends or drops a held interrupt. -/
  | moderationTimeout (ring : Fin 17)
  /-- RING_ENABLE (R518). Writing NB_CTRL.ENABLE enables a ring and sets CONSUMER to PRODUCER. -/
  | ringEnable (p : Path) (ring : Fin 17)
  /-- CONSUMER_WRITE (R518). A write to NB_CONSUMER moves the consumer index when in range. -/
  | consumerWrite (p : Path) (ring : Fin 17) (v : Word)
  /-- IDLE (R523). Writing NB_CTRL.IDLE sets BYPASS. -/
  | idle (p : Path) (ring : Fin 17)
  /-- PRODUCER_READ (R523). A read of NB_PRODUCER equal to CONSUMER sets BYPASS. -/
  | producerRead (p : Path) (ring : Fin 17)
  /-- NB_COMPLETE (R521). Writing NB_COMPLETE re-samples a posted level class and posts again if still true. -/
  | nbComplete (p : Path) (ring : Fin 17) (v : Word)
  /-- MASK_WRITE (R525). A write to NB_MASKk masks or unmasks event classes within 40 ns. -/
  | maskWrite (p : Path) (ring : Fin 17) (k : Fin 8) (v : Word)
  /-- UNMASK_RESAMPLE (R521). At 40 ns after an unmask, level classes are re-sampled. -/
  | unmaskResample (ring : Fin 17) (cls : Fin 256)
  /-- GLOBAL_HOLD (R526). Writing DEV_NB_CTRL.HOLD stops or resumes every ring's record writes and messages. -/
  | globalHold (p : Path) (hold : Bool)
  /-- WEATHER_WINDOW (R540). At the end of each window counter increases are compared with thresholds and warnings stand or clear. -/
  | weatherWindow (place : WxInstance)
  /-- SELF_CHECKPOINT_START (R554). An armed self-checkpoint starts at a voting fence instant with no open generation. -/
  | selfCheckpointStart (party : Fin 16)
  /-- SELF_WAIT_TIMEOUT (R554). SELF_WAIT_MS after arming without a fence starts a TORN self-checkpoint. -/
  | selfWaitTimeout (party : Fin 16)
  /-- SELF_CHECKPOINT_DONE (R555). A self-checkpoint ends, sealed or failed, and posts SELF_CHECKPOINT. -/
  | selfCheckpointDone (party : Fin 16)
  /-- SEAL_ACCEPT (R549). Once every tile of the party stands at its SEAL the rucksack path accepts them all. -/
  | sealAccept (party : Fin 16)
  /-- SEAL_PROGRAMMED (R549). Both halves program the directory and seal record, completing the SEALs and posting CHECKPOINT_DONE. -/
  | sealProgrammed (party : Fin 16)
  /-- RUCKSACK_PROGRAM_DONE (R548). Rucksack programming of a piece or record completes and its command may complete. -/
  | rucksackProgramDone (g : Fin 16384) (idx : Word) (retired : Nat)
  /-- RUCKSACK_MOUNT (R549). At start-up the rucksack mounts and discards generations without a seal record. -/
  | rucksackMount (h : Fin 2)
  /-- EXPORT (R556). HBG_RK_XFERh GO with OP EXPORT writes a generation image to host memory. -/
  | exportImage (p : Path) (h : Fin 2)
  /-- IMPORT (R556). HBG_RK_XFERh GO with OP IMPORT reads and stores a generation image. -/
  | importImage (p : Path) (h : Fin 2)
  /-- RK_TRANSFER_DONE (R556). An export or import finishes with RESULT done or failed. -/
  | rkTransferDone (h : Fin 2) (x : TransferEnd)
  /-- MIRROR_ENABLE (R564). Setting TIL_MIRw_CTRL.ENABLE starts a source fill or a receive window, or turns it OFF. -/
  | mirrorEnable (p : Path) (t : Fin 64) (w : Fin 4) (v : Word)
  /-- MIRROR_FILL_LINE (R564). A syncing source window reads and sends the line at FRONT and advances it. -/
  | mirrorFillLine (t : Fin 64) (w : Fin 4)
  /-- MIRROR_FILL_DONE (R564). The last fill line is acknowledged and the source window becomes VALID. -/
  | mirrorFillDone (t : Fin 64) (w : Fin 4)
  /-- RESYNC (R564). Writing RESYNC restarts the fill of an INVALID source window. -/
  | resync (p : Path) (t : Fin 64) (w : Fin 4)
  /-- COMMIT (R565). Writing COMMIT makes a FILLING receive window VALID. -/
  | commit (p : Path) (t : Fin 64) (w : Fin 4)
  /-- MIRROR_FILL_IDLE_TIMEOUT (R565). FILL_IDLE_MS without writes makes a receive window INVALID. -/
  | mirrorFillIdleTimeout (t : Fin 64) (w : Fin 4)
  /-- RETIRE_GO (R567). Writing DEV_RETIRE.GO refuses a retirement or starts blowing the field entry. -/
  | retireGo (p : Path) (row : Fin 8) (col : Fin 16)
  /-- RETIRE_BLOW_DONE (R567). A blow and read-back of a map copy completes and the next copy is blown or the result reported. -/
  | retireBlowDone (taken : BitVec 5)
  /-- SAFE_STATE_ENTRY (R568). The panel enters the safe state, stops issue and records its cause. -/
  | safeStateEntry (cause : Nat) (block0 : BitVec 16) (block1 : BitVec 16) (extra : BitVec 8)
  /-- SAFE_STATE_STAGE (R568). A timed stage of safe-state entry stops routers, darkens lasers or idles copper. -/
  | safeStateStage
  /-- ENTER (R574). Writing DEV_SAFE_CTRL.ENTER enters the safe state with cause REQUEST. -/
  | enter (p : Path)
  /-- RESTART (R571). Writing DEV_SAFE_CTRL.RESTART in the safe state reruns start-up from the row map read. -/
  | restart (p : Path)
  /-- SECURITY_SELFTEST (R580). A security module runs its firmware and known-answer self-tests. -/
  | securitySelftest (h : Fin 2) (good : Bool)
  /-- ENTROPY_HEALTH_FAIL (R601). A failed entropy health test raises an ENTROPY security fault. -/
  | entropyHealthFail (h : Fin 2)
  /-- BOOT_VERIFY (R585). Boot ROM verifies security-module and boot firmware against anchor and SVN. -/
  | bootVerify (image : BootImage) (signed : Bool) (svn : Nat)
  /-- SPDM_REQUEST (R588). The SPDM responder serves a request over MCTP or DOE. -/
  | spdmRequest (p : Path) (kind : SpdmKind)
  /-- PROVISION_ANCHOR (R590). Fuses the owner anchor while none is fused. -/
  | provisionAnchor (session : Nat) (anchor : BitVec 384)
  /-- LOAD_ITIN_KEY (R590). Fuses an itinerary public key into an empty slot. -/
  | loadItinKey (session : Nat) (slot : Fin 4) (key : BitVec 384)
  /-- REVOKE_ITIN_KEY (R590). Blows a slot's revoke fuse permanently. -/
  | revokeItinKey (session : Nat) (slot : Fin 4)
  /-- LOAD_JOB_KEY (R583). Loads a pending job key that becomes current at the next fold. -/
  | loadJobKey (session : Nat) (key : BitVec 256)
  /-- ADVANCE_SVN (R586). Raises the fused minimum SVNs to the running image's SVN. -/
  | advanceSvn (session : Nat)
  /-- ZEROIZE (R590). In the safe state zeroizes job, link and image keys. -/
  | zeroize (session : Nat)
  /-- DEBUG_UNLOCK (R600). A verified debug token zeroizes, restarts and opens debug until power cycle. -/
  | debugUnlock (session : Nat) (token : DebugToken)
  /-- SECURITY_HANDOVER (R602). Management endpoint and noticeboard move to HB1's security module within 50 ms. -/
  | securityHandover
  /-- IDE_STATE_CHANGE (R595). An IDE stream enters or leaves Secure, opening or closing its function's BAR traffic. -/
  | ideStateChange (f : Fn) (secure : Bool)
  /-- PWR_FOLD (R610). Writing PWR_FOLD.GO folds PWR_CFG, starting an operating point change. -/
  | pwrFold (p : Path)
  /-- OPERATING_POINT_TILE_CHANGE (R610). A tile, once idle and ramped down, changes supply and clock and resumes issue. -/
  | operatingPointTileChange (t : Fin 64)
  /-- TIL_PWR_FOLD (R633). Writing TIL_PWR_FOLD.GO folds TIL_SLEW and TIL_VEC_POWER. -/
  | tilPwrFold (p : Path) (t : Fin 64)
  /-- SLEW_SAMPLE (R615). Each 250 ns power average is compared with the one 1 us earlier and an excursion forces ramps. -/
  | slewSample (t : Fin 64) (compute : Nat) (hamper : Nat)
  /-- THERMISTOR_CONVERSION (R619). A 1 ms thermistor conversion reads, flags and may lose a coolant thermistor. -/
  | thermistorConversion (sensor : Fin 2) (microamps : Nat) (reading : Int)
  /-- DIE_SENSOR_SAMPLE (R620). A die or lantern sensor sample is checked, flagged and applied to thermal limits. -/
  | dieSensorSample (sensor : DieSensor) (reading : Int) (referenceOk : Bool)
  /-- THROTTLE_STEP (R621). A throttle cause lowers or raises the throttle level by one step. -/
  | throttleStep (cause : Fin 4) (reading : Nat)
  /-- SUPPLY_SAMPLE (R623). Input voltage and current are checked for warning and safe-state limits. -/
  | supplySample (window : SupplyWindow) (volts : Nat) (amps : Nat)
  /-- CLOCK_FAULT (R613). Loss of reference or PLL lock enters the safe state with cause CLOCK. -/
  | clockFault (d : Fin 158)
  /-- SHUTDOWN_GO (R628). Writing PWR_SHUTDOWN.GO starts the orderly shutdown. -/
  | shutdownGo (p : Path)
  /-- SHUTDOWN_STAGE (R628). The orderly shutdown advances to its next STATE. -/
  | shutdownStage
  /-- MOD_RST_N_LOW (R660). MOD_RST_N low acts as a loss of input and drops PWRGD. -/
  | modRstNLow
  /-- INPUT_LOSS (R651). Input below 40 V stops the module as on loss of input. -/
  | inputLoss
  /-- IDCODE (R665). JTAG IDCODE selects the die's identification register. -/
  | idcode (die : JtagDie)
  /-- STRAP_READ (R665). JTAG STRAP_READ selects the die's sampled strap pads. -/
  | strapRead (die : JtagDie)
  /-- BYPASS (R599). JTAG BYPASS, and every unlisted code, selects the bypass register. -/
  | bypass (die : JtagDie)
  /-- SAMPLE_PRELOAD (R599). JTAG SAMPLE/PRELOAD samples or preloads the boundary register. -/
  | samplePreload (die : JtagDie) (pins : Nat) (preload : Nat)
  /-- EXTEST (R599). JTAG EXTEST drives and captures the boundary pins. -/
  | extest (die : JtagDie) (pins : Nat)
  /-- DOMAIN_POWER_GOOD (R607). A switched-on power domain finishes its soft start and reports power good, setting its PWR_DOMAIN bit and letting the training or guest reset hold that waits on it begin. -/
  | domainPowerGood (d : Fin 158)
  /-- HOST_LINK_UP (R441). A host port's PCIe link completes training, sets LINK_UP, SPEED and WIDTH, and brings the management master's path up again. -/
  | hostLinkUp (h : Fin 2) (speed : Nat) (width : Nat)
  /-- OPEN_ROUND_HOLDOFF_EXPIRY (R370). 18 ms after a collective of a team entry aborted, the tile's collective engine may start the held open round of the next collective on that entry. -/
  | openRoundHoldoffExpiry (t : Fin 64) (team : Fin 64)
deriving DecidableEq, Repr

end Sys2Proof
end

