-- ==== Sys2Proof/Decode.lean ====
section
/-! DEFINITION. Decoding of the opcode table's words. The table gives no row any bits: its rows are events and
register accesses, not instruction words, so no word spells a command. -/

namespace Sys2Proof

/-- The command that a word of the opcode table spells: none, for no row of the table has bits. -/
def decodeTableWord (_nbits _w : Nat) : Option Instr := none

end Sys2Proof
end

