-- ==== Sys2Proof/Config.lean ====
section
/-! DEFINITION. What the spec leaves to the module or leaves open: opaque constants without a body, so that no
proof can see a value of them (assumption log entries 1 to 9). -/

namespace Sys2Proof

/-! ### Values of the module at hand (R42, R639, R638, R306) -/

/-- `DEV_SERIAL` (R638): per module. -/
opaque Config.serial : BitVec 64
/-- `DEV_REV.MODULE_REV` (R638): per module. -/
opaque Config.moduleRev : BitVec 8
/-- DIE_ID of a die (R42, R640) by power domain number (R606). -/
opaque Config.dieId : Nat → BitVec 32
/-- `TIL_GUIDE_FW` (R306): per firmware. -/
opaque Config.guideFw : BitVec 32
/-- Bits [31:0] of the guide image's digest, the third result of FW_INFO (R305). -/
opaque Config.guideDigest : BitVec 32
/-- The tuning table that final test measured (R412): lantern, row and ring. -/
opaque Config.tuning : Nat → Nat → Nat → BitVec 16
/-- The digest of Gweord's debug key, under which debug tokens verify (R600). -/
opaque Config.debugKey : BitVec 384
/-- A measurement of R589 whose bytes the spec does not lay out: its index, and what it covers. -/
opaque Config.measure : Nat → List Nat → BitVec 384

/-! ### Free values: results that the spec does not fix

Each is applied to `State.draws`, which advances with every use, so no two uses need agree. -/

/-- A number that the spec leaves open. -/
opaque Config.freeNat : Nat → Nat
/-- A choice between two outcomes that the spec allows (R525). -/
opaque Config.freeBool : Nat → Bool
/-- A result word that the spec leaves open. -/
opaque Config.freeBits : Nat → BitVec 64

/-! ### Cryptographic functions by their standards (R579)

The spec names the standards and does not restate them; the model assumes nothing about these functions. -/

/-- ECDSA P-384 verification (FIPS 186-5): digest of the public key, digest of the message, signature. -/
opaque Config.verifySignature : BitVec 384 → BitVec 384 → List (BitVec 8) → Bool
/-- Output of the DRBG (SP 800-90A) at a draw. -/
opaque Config.drbg : Nat → BitVec 256
/-- KDF in counter mode (SP 800-108): key, label and context; the first 256 bits of its output. -/
opaque Config.kdf : BitVec 256 → List (BitVec 8) → List (BitVec 8) → BitVec 256
/-- The 256 bits of its output that follow them (R598). -/
opaque Config.kdfNext : BitVec 256 → List (BitVec 8) → List (BitVec 8) → BitVec 256
/-- 288 bits of its output from a bit on: a key and the salt that follows it (R591). -/
opaque Config.kdfSpan : BitVec 256 → List (BitVec 8) → List (BitVec 8) → Nat → BitVec 288
/-- The tag of AES-256-GCM: key, IV, and the payload flits' bytes (R593). -/
opaque Config.frameTag : BitVec 256 → BitVec 96 → List (BitVec 8) → BitVec 128
/-- The 32-bit CRC over a frame; R343 does not name its polynomial. -/
opaque Config.frameCrc : List (BitVec 8) → BitVec 32
/-- The key-confirm tag over both nonces under the derived keys (R591). -/
opaque Config.confirmTag : BitVec 256 → BitVec 256 → BitVec 256 → BitVec 128
/-- AES-256-CTR over bytes whose first counter block is `start` (R598). -/
opaque Config.aesCtr : BitVec 256 → Nat → List (BitVec 8) → List (BitVec 8)
/-- AES-256 of three 16-byte blocks (R598). -/
opaque Config.aesBlocks : BitVec 256 → BitVec 384 → BitVec 384
/-- Whether the stored job key unwraps under SWK at a boot fold (R601, UNWRAP). -/
opaque Config.unwraps : BitVec 256 → Bool

end Sys2Proof
end

