-- ==== Sys2Proof/Machine/Exp.lean ====
section
/-! DEFINITION. The exponential function as a magnitude with exact lower and upper bounds (spec/07 R293, spec/04 R155).

Everything is in fixed point with `expBits` fraction bits; a power series between bounds is squared back up. -/

namespace Sys2Proof.Machine

open Sys2Proof

/-- Fraction bits of the fixed-point bounds. -/
def expBits : Nat := 512

/-- Sum of the series of e^z for 0 ≤ z < 1, its terms rounded down: `n` terms from term `i`, whose value is `t`. -/
def expSeries (z : Nat) : Nat → Nat → Nat → Nat
  | 0, _, _ => 0
  | n + 1, i, t => t + expSeries z n (i + 1) (t * z / 2 ^ expBits / (i + 1))

/-- Square a pair of bounds `n` times. -/
def squareBounds : Nat → Nat × Nat → Nat × Nat
  | 0, b => b
  | n + 1, b => squareBounds n (b.1 * b.1 / 2 ^ expBits, b.2 * b.2 / 2 ^ expBits + 1)

/-- Bounds of e^(m × 2^e) below 2^7, in units of 2^−512: the argument is halved seven times, 160 terms are summed,
and what rounding and the rest of the series add stays below 2^12 units. -/
def expBounds (m : Nat) (e : Int) : Nat × Nat :=
  let z := shiftNat m (e + expBits - 7)
  let lo := expSeries z 160 0 (2 ^ expBits)
  squareBounds 7 (lo, lo + 4096)

/-- Bounds of 1 / e^x from those of e^x, in units of 2^−1024. -/
def inverseBounds (b : Nat × Nat) : Nat × Nat := (2 ^ (3 * expBits) / b.2, 2 ^ (3 * expBits) / b.1 + 1)

/-- A magnitude between bounds that are scaled by 2^−p. Where both bounds round down to the same number that is
the result; where they do not, it is free (assumption log entry 33). -/
def boundedMag (b : Nat × Nat) (p : Nat) : Mag where
  lead := (Nat.log2 b.1 : Int) - p
  floor k :=
    let lo := shiftNat b.1 (k - p)
    let hi := shiftNat b.2 (k - p)
    if lo = hi then lo else lo + Config.freeNat b.1 % (hi - lo + 1)
  exact _ := false

/-- e^x for a finite x that is not zero: never exact. Beyond ±128 every format overflows or rounds as it does for a
number below its smallest. -/
def expMag (neg : Bool) (m : Nat) (e : Int) : Mag :=
  if leDyadic 128 0 m e then { Mag.dyadic 1 (if neg then -2000 else 2000) with exact := fun _ => false }
  else if neg then boundedMag (inverseBounds (expBounds m e)) (2 * expBits)
  else boundedMag (expBounds m e) expBits

/-- A result before its one rounding: a decoded value, or a signed magnitude that is not zero. -/
inductive Exact where
  | num (x : Num)
  | mag (neg : Bool) (m : Mag)

/-- One rounding into a format (R293). -/
def Exact.encode (f : Fmt) (r : Rnd) (u : Nat) : Exact → Nat × Bool
  | .num x => encodeNum f r u x
  | .mag s m => encodeMag f r u s m

/-- EXP (R293). -/
def expOf : Num → Exact
  | .nan _ => .num (.nan false)
  | .inf s => .num (if s then .zero else .inf false)
  | .fin s m e => if m = 0 then .num (.fin false 1 0) else .mag false (expMag s m e)

/-- RECIP (R293). -/
def recipOf : Num → Exact
  | .nan _ => .num (.nan false)
  | .inf s => .num (.fin s 0 0)
  | .fin s m e => if m = 0 then .num (.inf s) else .mag s (Mag.ratio 1 m (-e))

/-- SQRT (R293). -/
def sqrtOf : Num → Exact
  | .nan _ => .num (.nan false)
  | .inf s => .num (if s then .nan false else .inf false)
  | .fin s m e =>
    if m = 0 then .num (.fin s 0 0)
    else if s then .num (.nan false)
    else .mag false (Mag.sqrt m e)

/-- RSQRT (R293); of −0 it is −infinity, as RECIP of SQRT (DEDUCED, assumption log entry 34). -/
def rsqrtOf : Num → Exact
  | .nan _ => .num (.nan false)
  | .inf s => .num (if s then .nan false else .zero)
  | .fin s m e =>
    if m = 0 then .num (.inf s)
    else if s then .num (.nan false)
    else .mag false (Mag.rsqrt m e)

/-- The KF32 exponential of R155. -/
def expKf32 (x : Num) : Num := decodeNum .kf32 ((expOf x).encode .kf32 .rne 0).1

end Sys2Proof.Machine
end

