-- ==== Sys2Proof/Machine/Hash.lean ====
section
/-! DEFINITION. Check sums and digests: the CRC-16 of the row skip map (R19), the CRC-32 with the IEEE 802.3
polynomial (R359, R511, R425), SHA-384 and HMAC-SHA-384 (R579, by FIPS 180-4 and FIPS 198-1).

PRESUMED: the spec names the CRC-32 polynomial only; bit reflection, the initial value 0xFFFF_FFFF and the final
inversion are those of IEEE 802.3 (assumption log entry 10). -/

namespace Sys2Proof.Machine

/-- One bit of a CRC-16 with polynomial 0x1021, most significant bit first. -/
def crc16Bit (crc b : Nat) : Nat :=
  let next := (crc * 2) % 65536
  if (crc / 32768 + b) % 2 = 1 then next ^^^ 0x1021 else next

/-- The message bits of a row of the map: BASE_SKIP, most significant bit first, then BASE_KIND (R19). -/
def rowBits (skip kind : Nat) : List Nat :=
  [skip / 8 % 2, skip / 4 % 2, skip / 2 % 2, skip % 2, kind % 2]

/-- The CRC of a map copy (R19). -/
def rowmapCrc (skips kinds : List Nat) : Nat :=
  ((skips.zip kinds).flatMap (fun p => rowBits p.1 p.2)).foldl crc16Bit 0xFFFF

/-- Eight steps of a reflected CRC-32. -/
def crc32Steps : Nat → Nat → Nat
  | 0, c => c
  | n + 1, c => crc32Steps n (if c % 2 = 1 then (c / 2) ^^^ 0xEDB88320 else c / 2)

/-- CRC-32 of a list of bytes (IEEE 802.3). -/
def crc32 (bs : List Nat) : Nat :=
  (bs.foldl (fun c b => crc32Steps 8 (c ^^^ (b % 256))) 0xFFFFFFFF) ^^^ 0xFFFFFFFF

/-- `n` bytes of `v`, least significant first (R4). -/
def leBytes : Nat → Nat → List Nat
  | 0, _ => []
  | n + 1, v => v % 256 :: leBytes n (v / 256)

/-- The number that a list of bytes spells, least significant first. -/
def leNat : List Nat → Nat
  | [] => 0
  | b :: bs => b % 256 + 256 * leNat bs

/-! ### SHA-384 -/

/-- The primes whose roots give the constants of FIPS 180-4. -/
def shaPrimes : List Nat :=
  [2, 3, 5, 7, 11, 13, 17, 19, 23, 29, 31, 37, 41, 43, 47, 53, 59, 61, 67, 71, 73, 79, 83, 89, 97, 101, 103, 107,
   109, 113, 127, 131, 137, 139, 149, 151, 157, 163, 167, 173, 179, 181, 191, 193, 197, 199, 211, 223, 227, 229] ++
  [233, 239, 241, 251, 257, 263, 269, 271, 277, 281, 283, 293, 307, 311, 313, 317, 331, 337, 347, 349, 353, 359,
   367, 373, 379, 383, 389, 397, 401, 409]

/-- Integer cube root, bit by bit from bit `k`. -/
def icbrtFrom (n : Nat) : Nat → Nat → Nat
  | 0, r => r
  | k + 1, r => let c := r + 2 ^ k; icbrtFrom n k (if c * c * c ≤ n then c else r)

/-- The first 64 bits of the fraction of the cube root of `p`. -/
def shaK (p : Nat) : Nat := icbrtFrom (p * 2 ^ 192) 68 0 % 2 ^ 64
/-- The first 64 bits of the fraction of the square root of `p`. -/
def shaH (p : Nat) : Nat := isqrt (p * 2 ^ 128) % 2 ^ 64

/-- Rotate a 64-bit word right. -/
def ror64 (x k : Nat) : Nat := x / 2 ^ k + (x % 2 ^ k) * 2 ^ (64 - k)

/-- Message schedule: `n` further words from the last sixteen, newest first. -/
def shaSchedule : Nat → List Nat → List Nat
  | 0, w => w
  | n + 1, w =>
    let a := w.getD 1 0
    let b := w.getD 14 0
    let s0 := ror64 b 1 ^^^ ror64 b 8 ^^^ (b / 128)
    let s1 := ror64 a 19 ^^^ ror64 a 61 ^^^ (a / 64)
    shaSchedule n ((w.getD 15 0 + s0 + w.getD 6 0 + s1) % 2 ^ 64 :: w)

/-- The working variables of a round. -/
def shaRound (v : List Nat) (kw : Nat) : List Nat :=
  match v with
  | [a, b, c, d, e, f, g, h] =>
    let s1 := ror64 e 14 ^^^ ror64 e 18 ^^^ ror64 e 41
    let ch := (e &&& f) ^^^ ((2 ^ 64 - 1 - e) &&& g)
    let t1 := h + s1 + ch + kw
    let s0 := ror64 a 28 ^^^ ror64 a 34 ^^^ ror64 a 39
    let maj := (a &&& b) ^^^ (a &&& c) ^^^ (b &&& c)
    [(t1 + s0 + maj) % 2 ^ 64, a, b, c, (d + t1) % 2 ^ 64, e, f, g]
  | _ => v

/-- The number that a list of bytes spells, most significant first. -/
def beNat (bs : List Nat) : Nat := bs.foldl (fun n b => 256 * n + b % 256) 0

/-- `n` bytes of `v`, most significant first. -/
def beBytes (n v : Nat) : List Nat := (leBytes n v).reverse

/-- The words of a block of 128 bytes. -/
def shaWords : Nat → List Nat → List Nat
  | 0, _ => []
  | n + 1, bs => beNat (bs.take 8) :: shaWords n (bs.drop 8)

/-- One block. -/
def shaBlock (h : List Nat) (bs : List Nat) : List Nat :=
  let w := (shaSchedule 64 (shaWords 16 bs).reverse).reverse
  let kw := List.zipWith (fun k x => (k + x) % 2 ^ 64) (shaPrimes.map shaK) w
  List.zipWith (fun a b => (a + b) % 2 ^ 64) h (kw.foldl shaRound h)

/-- `n` blocks. -/
def shaBlocks : Nat → List Nat → List Nat → List Nat
  | 0, h, _ => h
  | n + 1, h, bs => shaBlocks n (shaBlock h (bs.take 128)) (bs.drop 128)

/-- The message with the padding of FIPS 180-4. -/
def shaPad (bs : List Nat) : List Nat :=
  let n := bs.length
  bs ++ [0x80] ++ List.replicate ((239 - n % 128) % 128) 0 ++ beBytes 16 (8 * n)

/-- SHA-384 of a list of bytes. -/
def sha384 (bs : List Nat) : BitVec 384 :=
  let m := shaPad bs
  let h := shaBlocks (m.length / 128) (((shaPrimes.drop 8).take 8).map shaH) m
  BitVec.ofNat 384 (beNat ((h.take 6).flatMap (beBytes 8)))

/-- HMAC-SHA-384 of a message under a key of at most 128 bytes (FIPS 198-1). -/
def hmac384 (key msg : List Nat) : BitVec 384 :=
  let k := key ++ List.replicate (128 - key.length) 0
  let inner := sha384 (k.map (· ^^^ 0x36) ++ msg)
  sha384 (k.map (· ^^^ 0x5C) ++ beBytes 48 inner.toNat)

/-- KEY_ID of a job key (R583): bits [383:352] of HMAC-SHA-384(JK, "KLOLYN KEY ID"). The key's bytes are taken
most significant first (assumption log entry 11). -/
def keyIdOf (jk : BitVec 256) : Word :=
  BitVec.ofNat 32 ((hmac384 (beBytes 32 jk.toNat) ("KLOLYN KEY ID".toList.map Char.toNat)).toNat / 2 ^ 352)

end Sys2Proof.Machine
end

