-- ==== Sys2Proof/Machine/RegMap.lean ====
section
/-! DEFINITION. The register map: every register of the management window by block, with its fields,
their access types, reset values and the limits a write is held to
(spec/18_register_map.md R637 to R643 and the register rules of each chapter).
The rings, the party pages, the itinerary store, the fold report, the recent window and the phase log are
not rows of these tables: `Sys2Proof.Machine.Registers` gives them their own decoding. -/

namespace Sys2Proof.Machine

/-- Access types of R11. -/
inductive AccessType where
  | rw | ro | wo | w1c | rwc
deriving DecidableEq, Repr

/-- A field of a register: place, access type, reset value, and the range that a write is held to. -/
structure Field where
  lo    : Nat
  width : Nat
  acc   : AccessType
  reset : Nat := 0
  min   : Nat := 0
  max   : Nat := 2 ^ 32 - 1
deriving DecidableEq, Repr

/-- A register, or a run of `count` registers `stride` bytes apart. A `wide` register is a 64-bit
quantity of R9 with its low word at `off`; fields below bit 32 describe both of its words, fields from bit 32 on the
high word only. -/
structure RegRow where
  off    : Nat
  count  : Nat := 1
  stride : Nat := 4
  wide   : Bool := false
  fields : List Field
deriving DecidableEq, Repr

/-- Shorthands for fields of each access type. -/
def fRo (lo width : Nat) (reset : Nat := 0) : Field := { lo, width, acc := .ro, reset }
def fRw (lo width : Nat) (reset : Nat := 0) (min : Nat := 0) (max : Nat := 2 ^ 32 - 1) : Field :=
  { lo, width, acc := .rw, reset, min, max }
def fRwc (lo width : Nat) (reset : Nat := 0) (min : Nat := 0) (max : Nat := 2 ^ 32 - 1) : Field :=
  { lo, width, acc := .rwc, reset, min, max }
def fWo (lo width : Nat) : Field := { lo, width, acc := .wo }
def fW1c (lo width : Nat) : Field := { lo, width, acc := .w1c }

/-- A read-only 32-bit counter or status word. -/
def rowRo (off : Nat) (reset : Nat := 0) (count : Nat := 1) (stride : Nat := 4) : RegRow :=
  { off, count, stride, fields := [fRo 0 32 reset] }
/-- A read-only 64-bit counter or quantity (R9). -/
def rowRo64 (off : Nat) (count : Nat := 1) (stride : Nat := 8) : RegRow :=
  { off, count, stride, wide := true, fields := [fRo 0 32] }
/-- A write-only command bit GO in bit 0 of a register. -/
def rowGo (off : Nat) : RegRow := { off, fields := [fWo 0 1] }

/-- `DEV_WX_THRc` with its default threshold (R540, R573). -/
def wxThr (c thresh : Nat) : RegRow := { off := 0x10040 + 4 * c, fields := [fRw 0 16 thresh, fRw 16 1] }

/-- DEV block (R637): identity, map, guests, torus, teams, roll-call and time, leadership, fold, parties,
noticeboard hold, weather, safe state, retirement. -/
def devRows : List RegRow :=
  [ rowRo 0x0000 0x64721F1B, rowRo 0x0004 0x010000B1, rowRo64 0x0008, rowRo 0x0010 0x00402840,
    rowRo 0x0014 0x02400060,                                                    -- R638
    { off := 0x1000, count := 8, fields := [fRo 0 4, fRo 4 2, fRo 6 4, fRo 10 1] },  -- R27
    { off := 0x1020, fields := [fRo 0 1, fRo 1 1, fRo 2 1, fRo 3 1, fRo 4 4 0xF, fRo 8 8] }, -- R28
    rowRo64 0x1040 4,                                                           -- R42
    { off := 0x1060, fields := [fWo 0 4, fWo 4 4] }, rowRo 0x1064,              -- R641, R642
    rowRo 0x2000, rowRo 0x2004,                                                 -- R352
    rowRo64 0x3000 1024 0x10, rowRo 0x3008 0 1024 0x10, rowRo 0x300C 0 1024 0x10,  -- R383
    { off := 0x7000, fields := [fRwc 0 16 0xC8] },                              -- R384
    { off := 0x7004, fields := [fRwc 0 20 0x4E20, fRwc 20 11 0x64] },
    rowRo64 0x7010,
    { off := 0x7018, fields := [fRwc 0 14] },
    { off := 0x7020, stride := 8, wide := true, fields := [fWo 0 32] },
    rowRo 0x7028, rowRo64 0x7040, rowRo64 0x7048, rowRo 0x7050, rowRo 0x7054, rowRo 0x7058, rowRo 0x705C,
    rowRo 0x8000 0x4,                                                           -- R507
    { off := 0x8004, fields := [fWo 0 3, fWo 4 2] },
    { off := 0x8008, fields := [fRw 0 6 0x0A 1 60] },
    { off := 0x800C, fields := [fRo 0 4, fRw 8 8 0xFE] },
    rowRo 0x8010, rowRo 0x8014,
    rowGo 0x8020,                                                               -- R508
    { off := 0x8024, fields := [fRw 0 32] },
    rowRo 0x8028, rowRo 0x802C, rowRo64 0x8030, rowRo64 0x8038, rowRo 0x8040,
    { off := 0x8080, fields := [fRw 0 6, fWo 8 1, fWo 9 1, fRo 10 1, fRo 11 1, fRo 12 1] },
    rowRo 0x8100 0 33,
    rowRo 0x8200 0 16 0x10, rowRo64 0x8204 16 0x10, rowRo 0x820C 0 16 0x10,     -- R509
    { off := 0x8300, fields := [fWo 0 4, fWo 4 1] },
    { off := 0xD000, fields := [fRw 0 1] },                                     -- R532
    { off := 0x10000, fields := [fRw 0 14 0x3E8 10 10000, fRw 14 1, fRw 16 16] }, -- R573
    { off := 0x10004, fields := [fRw 0 16 0x2710 100 60000] },
    rowRo 0x10008,
    wxThr 0 64, wxThr 1 64, wxThr 2 16, wxThr 3 1, wxThr 4 256, wxThr 5 128, wxThr 6 128, wxThr 7 2,
    wxThr 8 16, wxThr 9 1, rowRo 0x10068 0 6,
    { off := 0x10100, fields := [fRo 0 1, fRo 1 1, fRo 8 8, fRo 16 16] },       -- R574
    rowRo 0x10104, rowRo64 0x10108,
    { off := 0x10110, fields := [fWo 0 1, fWo 1 1] },
    { off := 0x10200, fields := [fRw 0 3, fRw 3 4, fWo 8 1, fRo 9 1, fRo 10 2, fRo 12 1] } ]

/-- PWR block at 0x0100_0000 (R633 to R635). -/
def pwrRows : List RegRow :=
  [ { off := 0x0, fields := [fRwc 0 2, fRwc 8 8] }, rowGo 0x4, rowRo 0x8,
    { off := 0xC, fields := [fWo 0 1, fRo 1 3] },
    rowRo 0x10, rowRo 0x14, rowRo64 0x18, rowRo 0x20 0x80008000, rowRo 0x24, rowRo 0x28 0x8000,
    rowRo 0x40 0 4, rowRo 0x50 0x03000000, rowRo64 0x60, rowRo 0x68, rowRo 0x6C,
    rowRo 0x100 0x80008000 158 ]

/-- SEC block at 0x0200_0000 (R603, R604). -/
def secRows : List RegRow :=
  [ rowRo 0x0, rowRo 0x4, rowRo 0x8, rowRo 0xC, rowRo 0x10, rowRo 0x14, rowRo64 0x18, rowRo 0x40 0 8 ]

/-- LAN block of one lantern (R428 to R435, R412). -/
def lanRows : List RegRow :=
  [ { off := 0x0, stride := 8, wide := true, fields := [fRo 0 32 0x000F0211] }, rowRo 0x10 0xF0, rowRo 0x14,
    { off := 0x20, fields := [fRwc 0 6 0x0F 1 60, fRwc 6 8 0x28 10 200, fRwc 14 8 0x50] },
    rowGo 0x24,
    { off := 0x28, fields := [fWo 0 4] }, { off := 0x2C, fields := [fWo 0 16] },
    rowRo64 0x40, rowRo 0x48, rowRo 0x4C, rowRo 0x50, rowRo 0x54, rowRo 0x58,
    rowRo 0x100 0 16,
    rowRo 0x1000 0 16 0x40, rowRo 0x1004 0 16 0x40, rowRo 0x1008 0x8000 16 0x40,
    rowRo64 0x1010 16 0x40, rowRo 0x1018 0 16 0x40, rowRo 0x101C 0 16 0x40,
    rowRo 0x2000 0 32 0x40, rowRo64 0x2008 32 0x40, rowRo64 0x2010 32 0x40,
    rowRo 0x2018 0 32 0x40, rowRo 0x201C 0 32 0x40, rowRo 0x2020 0 32 0x40,
    rowRo64 0x8000 2048,
    rowRo 0x100000 0 40960, rowRo 0x130000 0 256 ]

/-- HBG block at 0x0800_0000 (R42, R460 to R464, R575, R576). -/
def hbgRows : List RegRow :=
  [ { off := 0x0, count := 2, stride := 8, wide := true, fields := [fRo 0 32 0x00070302] },
    rowRo 0x100 0x5 2, { off := 0x110, fields := [fRwc 0 2] }, { off := 0x120, fields := [fWo 0 13] },
    rowRo 0x200 0 2 0x40, rowRo64 0x208 2 0x40, rowRo64 0x210 2 0x40,
    rowRo 0x218 0 2 0x40, rowRo 0x21C 0 2 0x40, rowRo 0x220 0 2 0x40,
    rowRo 0x1000 0 13 0x40, rowRo 0x1004 0 13 0x40, rowRo64 0x1008 13 0x40,
    rowRo 0x1010 0 13 0x40, rowRo 0x1014 0 13 0x40, rowRo 0x1018 0 13 0x40,
    rowRo 0x10000, { off := 0x10004, fields := [fRw 0 12 0x64 0 4000] },
    { off := 0x10008, fields := [fRw 0 5 0x8 0 16] },
    rowRo64 0x10010, rowRo 0x10018, rowRo 0x1001C, rowRo 0x10020,
    rowRo 0x10100 0 64,
    { off := 0x10200, count := 2, stride := 0x40,
      fields := [fRw 0 2, fRw 2 4, fWo 8 1, fRo 9 1, fRo 10 2] },
    { off := 0x10204, count := 2, stride := 0x40, fields := [fRw 0 32] },
    { off := 0x10208, count := 2, stride := 0x40, wide := true, fields := [fRw 0 32] },
    { off := 0x10210, count := 2, stride := 0x40, wide := true, fields := [fRw 0 32] },
    rowRo64 0x10218 2 0x40 ]

/-- TIL block of one tile, offsets up to 0x0000_3FFF: identity, links, engines, banks, taster, memory. -/
def tilRowsLow : List RegRow :=
  [ rowRo 0x0 0x000012B1, rowRo 0x4, rowRo 0x8,                                 -- R640
    rowRo 0x100, rowRo 0x110 0 7, rowRo 0x130 0 7, rowRo 0x200 0x7F7F7F7F 56,   -- R39 to R41, R643
    { off := 0x2000, count := 4, stride := 0x100,
      fields := [fRwc 0 13 0x100 16 4096, fRwc 16 14 0x3FFF 1 0x3FFF] },        -- R135
    rowRo 0x2004 0x30 4 0x100,                                                  -- R137
    rowRo64 0x2010 4 0x100, rowRo64 0x2018 4 0x100, rowRo64 0x2020 4 0x100,     -- R138
    rowRo64 0x2028 4 0x100, rowRo64 0x2030 4 0x100, rowRo64 0x2038 4 0x100,
    rowRo64 0x2040 4 0x100, rowRo64 0x2048 4 0x100, rowRo64 0x2050 4 0x100,
    rowGo 0x2400,                                                               -- R136
    rowRo 0x2800 0x2004 8 0x10, rowRo 0x2804 0 8 0x10,                          -- R173
    { off := 0x2C00, fields := [fRwc 0 4 0x6 4 10, fRwc 4 10] }, rowGo 0x2C04,  -- R172
    { off := 0x3000, fields := [fRwc 0 4 0 0 8] }, rowGo 0x3004,                -- R223
    { off := 0x3008, fields := [fRwc 0 18 0 0 147455] },                        -- R224
    { off := 0x300C, fields := [fRwc 0 18 0 0 147456] },
    { off := 0x3010, fields := [fRo 0 18, fWo 31 1] },
    rowRo 0x3020 0x3,                                                           -- R225
    rowRo 0x3040 0 6,                                                           -- R226
    { off := 0x3058, stride := 8, wide := true, fields := [fRo 0 32, fWo 63 1] },            -- R227
    rowRo 0x3060 0 2,
    { off := 0x3070, fields := [fW1c 0 3] },                                    -- R228
    rowRo64 0x3080 6,
    rowRo 0x3400 0x7F7F7F7F 32 0x40, rowRo 0x3404 0x7F7F7F7F 32 0x40, rowRo 0x3408 0x7F7F7F7F 32 0x40,  -- R222
    rowRo 0x340C 0x7F7F7F7F 32 0x40, rowRo 0x3410 0x7F7F7F7F 32 0x40, rowRo 0x3414 0x7F7F7F7F 32 0x40,
    rowRo 0x3418 0x7F7F7F7F 32 0x40, rowRo 0x341C 0x7F7F7F7F 32 0x40, rowRo 0x3420 0x7F7F7F7F 32 0x40,
    rowRo 0x3424 0 32 0x40, rowRo 0x3428 0 32 0x40, rowRo 0x342C 0 32 0x40, rowRo 0x3430 0 32 0x40,
    rowRo 0x3434 0 32 0x40, rowRo 0x3438 0 32 0x40, rowRo 0x343C 0 32 0x40 ]

/-- TIL block of one tile, offsets from 0x0000_4000: movers, command processor, fabric, collectives, mirrors,
power, watches, health. -/
def tilRowsHigh : List RegRow :=
  [ { off := 0x4000, fields := [fRwc 0 4 0x8, fRwc 4 4 0x4, fRo 8 4 0x4] },     -- R254
    rowRo 0x4010 0 4, rowRo64 0x4040 9,                                         -- R255, R256
    rowRo 0x5000, rowRo 0x5004, rowRo 0x5008, rowRo64 0x5010, rowRo64 0x5018,   -- R307
    rowRo 0x5020, rowRo 0x5024, rowRo64 0x5028, rowRo64 0x5030,
    { off := 0x5100, fields := [fRw 0 9] },                                     -- R306
    { off := 0x5104, count := 11, fields := [fRw 0 32] },
    { off := 0x5130, fields := [fWo 0 1, fRo 1 1, fW1c 2 1] },
    rowRo 0x5140 0 4, rowRo 0x5150,
    { off := 0x6000, fields := [fRwc 0 12 0x100 64 4095, fRwc 12 14 0x1000 64 16383] },  -- R347
    { off := 0x6004, fields := [fRwc 0 10 0x64 40 1000] },                      -- R348
    { off := 0x6008, fields := [fRwc 0 6 0x18 8 40, fRwc 6 2 0x2, fRwc 8 6 0x4 1 63, fRwc 14 6 0xA 1 63,
        fRwc 20 4 0x2 1 15, fRwc 24 6 0x4 1 63, fRwc 30 1 0x1] },               -- R349
    rowGo 0x600C, rowRo 0x6010,
    rowRo64 0x6040 6, rowRo 0x6070 0 8,                                         -- R351
    rowRo 0x7000, rowRo64 0x7040 3, rowRo 0x7058, rowRo 0x705C,                 -- R385
    rowRo 0x7100, { off := 0x7104, fields := [fRw 0 32] }, rowRo 0x7108,
    { off := 0x8000, count := 4, stride := 0x20,
      fields := [fRw 0 1, fRw 1 1, fWo 2 1, fWo 3 1, fRo 4 3, fRo 7 3, fRw 16 16 0x64 10 10000] },  -- R577
    { off := 0x8004, count := 4, stride := 0x20, fields := [fRw 0 18] },
    { off := 0x8008, count := 4, stride := 0x20, fields := [fRw 0 18] },
    { off := 0x800C, count := 4, stride := 0x20, fields := [fRw 0 14] },
    { off := 0x8010, count := 4, stride := 0x20, fields := [fRw 0 18] },
    rowRo 0x8014 0 4 0x20,
    { off := 0x9000, fields := [fRwc 0 8 0x10, fRo 8 8] },                      -- R633
    { off := 0x9004, fields := [fRwc 0 13 0x100 16 4096, fRwc 16 14 0x3FFF 1 0x3FFF] },
    rowGo 0x9008, rowRo 0x900C 0x40, rowRo 0x9010, rowRo 0x9018, rowRo64 0x9020,
    { off := 0x10000, count := 256, stride := 0x80,
      fields := [fRw 0 1, fRw 4 4 0x2, fRw 16 16 0x1] },                        -- R175
    { off := 0x10004, count := 256, stride := 0x80, fields := [fRo 0 1, fWo 31 1] },
    rowRo 0x10008 0 256 0x80, rowRo 0x1000C 0 256 0x80, rowRo 0x10010 0 256 0x80,
    rowRo 0x10014 0 256 0x80, rowRo 0x10018 0 256 0x80, rowRo 0x1001C 0 256 0x80,
    rowRo 0x10020 0 256 0x80, rowRo 0x10024 0 256 0x80, rowRo 0x10028 0 256 0x80, rowRo 0x1002C 0 256 0x80,
    rowRo 0x10030 0 256 0x80, rowRo 0x10034 0 256 0x80, rowRo 0x10038 0 256 0x80, rowRo 0x1003C 0 256 0x80,
    rowRo 0x10040 0 256 0x80, rowRo 0x10044 0 256 0x80, rowRo 0x10048 0 256 0x80, rowRo 0x1004C 0 256 0x80,
    rowRo 0x10050 0 256 0x80, rowRo 0x10054 0 256 0x80, rowRo 0x10058 0 256 0x80, rowRo 0x1005C 0 256 0x80,
    { off := 0x18000, count := 256, fields := [fW1c 0 5] },                     -- R176
    { off := 0x18400, count := 8, fields := [fRw 0 32 0xFFFFFFFF] },
    rowRo 0x18420 ]

/-- Where a row covers the block offset `o`: the word of the quantity (0 low, 1 high). -/
def RegRow.at? (r : RegRow) (o : Nat) : Option Nat :=
  if r.off ≤ o ∧ (o - r.off) / r.stride < r.count then
    let k := (o - r.off) % r.stride
    if k = 0 then some 0 else if r.wide ∧ k = 4 then some 1 else none
  else none

/-- The row of a block that covers offset `o`, with the word of its quantity. -/
def findRow : List RegRow → Nat → Option (RegRow × Nat)
  | [], _ => none
  | r :: rs, o => match r.at? o with
    | some k => some (r, k)
    | none => findRow rs o

/-- The row of the BAR0 address `a`, by the block layout of R7. -/
def regRow (a : Nat) : Option (RegRow × Nat) :=
  if a < 0x01000000 then findRow devRows a
  else if a < 0x02000000 then findRow pwrRows (a - 0x01000000)
  else if a < 0x03000000 then findRow secRows (a - 0x02000000)
  else if a < 0x04000000 then none
  else if a < 0x08000000 then findRow lanRows ((a - 0x04000000) % 0x00800000)
  else if a < 0x09000000 then findRow hbgRows (a - 0x08000000)
  else if a < 0x10000000 then none
  else if a < 0x20000000 then
    let o := (a - 0x10000000) % 0x00400000
    if o < 0x4000 then findRow tilRowsLow o else findRow tilRowsHigh o
  else none

/-- `n` bits of `w` from bit `lo`. -/
def bits (w lo n : Nat) : Nat := (w >>> lo) % 2 ^ n

/-- `w` with `n` bits from bit `lo` replaced by `v`. -/
def putBits (w lo n v : Nat) : Nat := w - 2 ^ lo * bits w lo n + 2 ^ lo * (v % 2 ^ n)

/-- The reset word of a list of fields. -/
def resetWord : List Field → Nat
  | [] => 0
  | f :: fs => (f.reset % 2 ^ f.width) * 2 ^ f.lo + resetWord fs

/-- The reset value of the register at `a` (the high word of a 64-bit quantity resets to 0). -/
def regReset (a : Nat) : Word :=
  match regRow a with
  | some (r, 0) => BitVec.ofNat 32 (resetWord r.fields)
  | _ => 0

/-- `v` held to the range from `min` to `max` (R135, R172, R347 and the like). -/
def clampTo (min max v : Nat) : Nat := if v < min then min else if max < v then max else v

/-- The word that a write of `w` leaves in the fields of access type `t`, over the word `old`;
every other bit keeps its value. -/
def writeFields (t : AccessType) (w : Nat) : List Field → Nat → Nat
  | [], old => old
  | f :: fs, old =>
    let rest := writeFields t w fs old
    if f.acc = t then putBits rest f.lo f.width (clampTo f.min f.max (bits w f.lo f.width)) else rest

/-- The word that a write of `w` leaves in W1C fields: each 1 clears its bit (R11). -/
def clearFields (w : Nat) : List Field → Nat → Nat
  | [], old => old
  | f :: fs, old =>
    let rest := clearFields w fs old
    if f.acc = .w1c then
      putBits rest f.lo f.width (bits rest f.lo f.width - (bits rest f.lo f.width &&& bits w f.lo f.width))
    else rest

/-- The register has a field of access type `t`. -/
def hasType (t : AccessType) (fs : List Field) : Bool := fs.any (fun f => f.acc = t)

/-- The register is an owner register: it has a field that a write can act on (R496). -/
def writable (fs : List Field) : Bool := fs.any (fun f => f.acc ≠ .ro)

/-- A write can act on word `k` of the row (R496). -/
def RegRow.acts (r : RegRow) (k : Nat) : Bool := r.fields.any (fun f => f.acc ≠ .ro && (f.lo < 32 || k = 1))

/-- The bits that a list of fields covers with type `t`, as a mask. -/
def typeMask (t : AccessType) : List Field → Nat
  | [] => 0
  | f :: fs => (if f.acc = t then (2 ^ f.width - 1) * 2 ^ f.lo else 0) + typeMask t fs

end Sys2Proof.Machine
end

