-- ==== Sys2Proof/Machine/SMap.lean ====
section
/-! DEFINITION. Sparse maps with a default value: read, write, and the canonical form.
Every memory, register file and table of the model is one of these. -/

namespace Sys2Proof

/-- The value at `k`; an unlisted key reads as the default `d`. -/
def mget {α : Type} (d : α) : SMap α → Nat → α
  | [], _ => d
  | (k', v) :: m, k => if k' = k then v else mget d m k

/-- List `v` at `k`, keeping keys in rising order. -/
def minsert {α : Type} (k : Nat) (v : α) : SMap α → SMap α
  | [] => [(k, v)]
  | (k', v') :: m =>
    if k < k' then (k, v) :: (k', v') :: m
    else if k' = k then (k, v) :: m
    else (k', v') :: minsert k v m

/-- Drop every entry at `k`. -/
def merase {α : Type} (k : Nat) : SMap α → SMap α
  | [] => []
  | (k', v') :: m => if k' = k then merase k m else (k', v') :: merase k m

/-- Write `v` at `k`; writing the default removes the entry, so equal maps are equal lists. -/
def mset {α : Type} [DecidableEq α] (d : α) (m : SMap α) (k : Nat) (v : α) : SMap α :=
  if v = d then merase k m else minsert k v m

/-- Update the value at `k` by a function of the value it holds. -/
def mmod {α : Type} [DecidableEq α] (d : α) (m : SMap α) (k : Nat) (f : α → α) : SMap α :=
  mset d m k (f (mget d m k))

/-- Every key of the list lies above `k`. -/
def mabove {α : Type} (k : Nat) : SMap α → Bool
  | [] => true
  | (k', _) :: m => decide (k < k') && mabove k m

/-- The canonical form: strictly rising keys, and no entry equal to the default. -/
def mwf {α : Type} [DecidableEq α] (d : α) : SMap α → Bool
  | [] => true
  | (k, v) :: m => !decide (v = d) && mabove k m && mwf d m

/-- Drop every entry whose key satisfies `p` (it then reads as the default). -/
def mdrop {α : Type} (p : Nat → Bool) : SMap α → SMap α
  | [] => []
  | (k, v) :: m => if p k then mdrop p m else (k, v) :: mdrop p m

end Sys2Proof
end

