-- ==== Sys2Proof/Machine/State.lean ====
section
/-! DEFINITION. The state of the block, the reasons a step can stop, and the state after reset.

Registers that hold a plain value live in `regs` under their BAR0 address; registers that show a unit's state are
views of the typed fields (`Sys2Proof.Machine.Registers`). -/

namespace Sys2Proof.Machine

open Sys2Proof

/-- What leaves the block: messages, packets, host accesses and pin levels, in the order in which they leave. -/
inductive Out where
  /-- an MSI-X message of a function -/
  | msix (f : Fn) (addr : Dword) (data : Word)
  /-- a posted write to host memory through a function -/
  | hostWrite (f : Fn) (addr : Nat) (bytes : List Nat)
  /-- a frame launched on a link between modules -/
  | frame (l : ModLink) (f : Launched)
  /-- a packet given to a guest -/
  | guestPacket (n : Fin 4) (p : Packet)
  /-- four 64-bit sideband messages to a guest (R48, R49) -/
  | sideband (n : Fin 4) (words : List Dword)
  /-- a roll-call message or time message that leaves for the next module: the port or copper link, where it comes
  from, where it goes to -/
  | roll (via : LinkPort) (src dest : Nat) (m : RcMessage)
  /-- an ABORT message to the members of this module -/
  | rollPanel (m : RcMessage)
  /-- continuous service light or a probe burst of a port -/
  | light (n : Fin 8) (p : Fin 16) (burst : Bool)
  /-- the identity message of a port or copper link -/
  | identity (c : LinkPort) (i : Identity)
  /-- a KEY_OFFER -/
  | offer (c : LinkPort) (o : KeyOffer)
  /-- a KEY_CONFIRM -/
  | confirm (c : LinkPort) (tag : BitVec 128)
  /-- a replay requested on a link of the panel: the frames that the transmitter then sends again -/
  | strandReplay (l : Nat) (far : Bool) (frames : List Nat)
  /-- completion of a host read: function, status, bytes, EP -/
  | completion (f : Fn) (status : Status) (bytes : List Nat) (ep : Bool)
  /-- answer of the management endpoint -/
  | mctp (b : Binding) (dest : Nat) (status : Status) (words : List Word)
  /-- in-band interrupt of a pending MCTP response (R458) -/
  | ibi
  /-- levels of PWRGD and SAFE_N (R659, R661) -/
  | pwrgd (high : Bool)
  | safeN (low : Bool)
  /-- register that a JTAG instruction selected, as it captures -/
  | jtag (die : JtagDie) (width : Nat) (value : Nat)
deriving DecidableEq, Repr

/-- Reasons for a fault: none. No command of this block stops the machine: the spec answers a bad access with a
completion, an error code or an event. -/
inductive Fault
deriving DecidableEq, Repr

/-- Reasons for a refusal. -/
inductive Refusal where
  /-- Raised by the dispatcher for a command without a meaning, by its mnemonic; safe: the run ends where the
  hardware goes on. -/
  | notModelled (mnemonic : String)
deriving DecidableEq, Repr

/-- A register word, and of a counter with a shadow copy what that copy shows until its next refresh after the word's
last change (R647). -/
structure RegCell where
  word   : Word
  before : Word := 0
  due    : Nat := 0
deriving DecidableEq, Repr

/-- The state of the block. -/
structure State where
  /-- commands that wait, first in, first out -/
  pending : List Instr
  /-- nanoseconds since the module's first power good: the model's own clock -/
  now     : Nat
  /-- timetable counter of R377 -/
  time    : Nat
  /-- number of free values used (the model's own field) -/
  draws   : Nat
  /-- latest completion returned to a sender -/
  reply   : Reply
  /-- what has left the block, oldest first -/
  out     : List Out
  /-- register words by BAR0 address that differ from their reset value, and every counter word that has changed -/
  regs    : SMap (Option RegCell)
  /-- staged words of RWC registers (R12) -/
  staged  : SMap (Option Word)
  /-- read and write latches of R10 and R646, by path and address -/
  rlatch  : SMap (Option Word)
  wlatch  : SMap (Option Word)
  nb      : Noticeboard
  fns     : SMap FnState
  itin    : Itinerary
  lead    : Leadership
  parties : Parties
  queues  : SMap Queue
  /-- tally values by global tally number -/
  tallies : SMap Nat
  /-- bytes of basket and hamper by tile-local address with the tile in bits [39:34]; unlisted bytes are 0 -/
  mem     : SMap Byte
  /-- poisoned hamper lines and uncorrectable basket lines, by line number (address / 64) -/
  poison  : SMap Bool
  badLine : SMap EccFinding
  /-- cache sets: 65,536 × tile + set ↦ ways, most recently used first -/
  cache   : SMap (List CacheWay)
  /-- hamper channels: 32 × tile + channel -/
  channels : SMap Channel
  tiles   : SMap Tile
  /-- engines: 4 × tile + engine; banks: 8 × tile + 2 × engine + bank; drain units as engines -/
  engines : SMap Engine
  banks   : SMap Bank
  drains  : SMap DrainUnit
  /-- movers: 4 × tile + mover -/
  movers  : SMap (Option MoveJob)
  panel   : Panel
  fabric  : Fabric
  colls   : SMap CollEngine
  rc      : RollCall
  lanterns : SMap Lantern
  copper  : SMap Port
  hosts   : SMap HostFn
  mgmt    : Endpoints
  rk      : Rucksack
  /-- staging SRAM of the bridges: 2^26 × bridge + offset (R542) -/
  staging : SMap Byte
  /-- mirror windows: 4 × tile + window -/
  mirrors : SMap Mirror
  weather : SMap Weather
  safe    : Safe
  sec     : Security
  power   : Power
  taps    : SMap Tap
deriving DecidableEq, Repr

/-- A map copy as final test fuses it in this model: column 8 held as standby in every row
(DESIGN CHOICE, assumption log entry 12; the spec leaves the columns to final test). -/
def factoryMap : MapCopy :=
  { skip := [8, 8, 8, 8, 8, 8, 8, 8], kind := [0, 0, 0, 0, 0, 0, 0, 0], field := [0, 0, 0, 0, 0, 0, 0, 0],
    crc := 11038 }

/-- The block before the module's power good: every register at its reset value, nothing powered but what R634
shows, the fuses as shipped (assumption log entries 12 and 13). -/
def State.reset : State :=
  { pending := [], now := 0, time := 0, draws := 0, reply := {}, out := [],
    regs := [], staged := [], rlatch := [], wlatch := [],
    nb := {}, fns := [], itin := {}, lead := {}, parties := {},
    queues := [], tallies := [], mem := [], poison := [], badLine := [], cache := [], channels := [],
    tiles := [], engines := [], banks := [], drains := [], movers := [],
    panel := { hb0 := factoryMap, hb1 := factoryMap, fitted := 0xF },
    fabric := {}, colls := [], rc := {}, lanterns := [], copper := [], hosts := [], mgmt := {},
    rk := {}, staging := [], mirrors := [], weather := [], safe := {}, sec := {}, power := {}, taps := [] }

end Sys2Proof.Machine
end

