-- ==== Sys2Proof/Machine/Ops.lean ====
section
/-! DEFINITION. Shared operations over the state: time, free values, register words, counters, tables and memory. -/

namespace Sys2Proof.Machine

open Sys2Proof

/-! ### Time -/

/-- Put a message, packet or pin level on its way out of the block. -/
def State.emit (s : State) (o : Out) : State := { s with out := s.out ++ [o] }

/-- Let the model's clock reach `t`; the timetable counter follows at the rate the servo steers (R377, R379), which
keeps the fraction of a nanosecond that it has not yet counted. A time already reached changes nothing. -/
def State.passTo (s : State) (t : Nat) : State :=
  let total : Int := s.rc.servo.part + (1000000 + s.rc.servo.rate) * ((t - s.now : Nat) : Int)
  { s with now := max s.now t, time := s.time + (total / 1000000).toNat,
           rc := { s.rc with servo := { s.rc.servo with part := total % 1000000 } } }

/-- Nanoseconds until the timetable reaches an instant, at the rate at which the servo runs it (R379, R380). -/
def dueIn (s : State) (t : Nat) : Nat :=
  let pace : Int := 1000000 + s.rc.servo.rate
  ((1000000 * ((t - s.time : Nat) : Int) - s.rc.servo.part + pace - 1) / pace).toNat

/-- Let the timetable reach an instant. -/
def passToTime (s : State) (t : Nat) : State := s.passTo (s.now + dueIn s t)

/-- A free number: one that the spec leaves open. -/
def State.free (s : State) : Nat := Config.freeNat s.draws
/-- Count a free value as used. -/
def State.used (s : State) : State := { s with draws := s.draws + 1 }

/-! ### Register words (R11) -/

/-- BAR0 addresses of the blocks (R7). -/
def pwrA (o : Nat) : Nat := 0x01000000 + o
def secA (o : Nat) : Nat := 0x02000000 + o
def lanA (n o : Nat) : Nat := 0x04000000 + 0x00800000 * n + o
def hbgA (o : Nat) : Nat := 0x08000000 + o
def tilA (t o : Nat) : Nat := 0x10000000 + 0x00400000 * t + o

/-- The active word of the register at `a`. -/
def State.reg (s : State) (a : Nat) : Word := match mget none s.regs a with
  | some x => x.word
  | none => regReset a

/-- A field of the register at `a`. -/
def State.field (s : State) (a lo n : Nat) : Nat := bits (s.reg a).toNat lo n

/-- The core clock in MHz at the active point; POINT 3 in the safe state (R609, R624). -/
def corePoint (s : State) : Nat := if s.safe.active then 3 else s.field (pwrA 0) 0 2
def coreMHz (s : State) : Nat := [1600, 1400, 1200, 800].getD (corePoint s) 1600

/-! ### Shadow copies of counters (R41, R223, R254, R347, R383, R428, R460, R632, R647) -/

/-- When the shadow copy of the word at `a` is refreshed for the first time after the present: every 1,024 core cycles, every
1,024 hamper cycles of 1 ns, every 1 µs or every 1 ms, by the block that the word lies in, counted from the first power
good (DESIGN CHOICE, assumption log entry 163). None for a word without a shadow copy. -/
def nextRefresh (s : State) (a : Nat) : Option Nat :=
  let core := (1024000 * (s.now * coreMHz s / 1024000 + 1) + coreMHz s - 1) / coreMHz s
  let every := fun (ns : Nat) => ns * (s.now / ns + 1)
  let among := fun (o : Nat) (rs : List (Nat × Nat)) => rs.any (fun r => r.1 ≤ o && o < r.2)
  if a < 0x01000000 then (if among a [(0x7040, 0x7060)] then some core else none)
  else if a < 0x02000000 then
    (if among (a - 0x01000000) [(0x18, 0x20), (0x60, 0x70)] then some (every 1000000) else none)
  else if a < 0x04000000 then none
  else if a < 0x08000000 then
    let o := (a - 0x04000000) % 0x00800000
    if among o [(0x40, 0x5C)] || (among o [(0x1000, 0x1400)] && among (o % 0x40) [(0x10, 0x20)]) ||
        (among o [(0x2000, 0x2800)] && among (o % 0x40) [(0x10, 0x24)])
    then some (every 1000) else none
  else if a < 0x10000000 then
    let o := a - 0x08000000
    if (among o [(0x200, 0x280)] && among (o % 0x40) [(8, 0x24)]) ||
        (among o [(0x1000, 0x1340)] && among (o % 0x40) [(8, 0x1C)])
    then some (every 1000) else none
  else
    let o := (a - 0x10000000) % 0x00400000
    if among o [(0x130, 0x14C), (0x4040, 0x4088), (0x6040, 0x6090), (0x7040, 0x7060)] then some core
    else if among o [(0x3040, 0x3058), (0x3060, 0x3068), (0x3080, 0x30B0)] then some (every 1024)
    else if among o [(0x9018, 0x901C), (0x9020, 0x9028)] then some (every 1000000)
    else none

/-- The word at `a` as a read sees it: a counter's at its shadow copy's last refresh (R647). -/
def State.shown (s : State) (a : Nat) : Word := match mget none s.regs a with
  | some x => if x.due ≤ s.now then x.word else x.before
  | none => regReset a

/-- Give the register at `a` an active word. -/
def State.setReg (s : State) (a : Nat) (w : Word) : State :=
  let x : Option RegCell := match nextRefresh s a with
    | some due => some { word := w, before := s.shown a, due }
    | none => if w = regReset a then none else some { word := w }
  { s with regs := mset none s.regs a x }

/-! ### Fields and counters (R9, R11) -/


/-- Set a field of the register at `a`. -/
def State.setField (s : State) (a lo n v : Nat) : State :=
  s.setReg a (BitVec.ofNat 32 (putBits (s.reg a).toNat lo n v))

/-- Add to a 32-bit counter, which saturates (R531). -/
def State.count32 (s : State) (a n : Nat) : State :=
  s.setReg a (BitVec.ofNat 32 (min ((s.reg a).toNat + n) (2 ^ 32 - 1)))

/-- A 64-bit quantity: low word at `a`, high word at `a + 4` (R9). -/
def State.reg64 (s : State) (a : Nat) : Nat := (s.reg a).toNat + 2 ^ 32 * (s.reg (a + 4)).toNat

/-- Store a 64-bit quantity. -/
def State.setReg64 (s : State) (a v : Nat) : State :=
  (s.setReg a (BitVec.ofNat 32 v)).setReg (a + 4) (BitVec.ofNat 32 (v / 2 ^ 32))

/-- Add to a 64-bit counter, which wraps (R531). -/
def State.count64 (s : State) (a n : Nat) : State := s.setReg64 a (s.reg64 a + n)

/-- A 32-bit value counted up to its saturation. -/
def satAdd (w : Word) (n : Nat) : Word := BitVec.ofNat 32 (min (w.toNat + n) (2 ^ 32 - 1))

/-- The staged word of a register, if one is pending (R12). -/
def State.stagedAt (s : State) (a : Nat) : Option Word := mget none s.staged a

/-- Fold the register at `a`: its staged word, if any, becomes active; the result is whether one was (R12). -/
def State.foldReg (s : State) (a : Nat) : State :=
  match s.stagedAt a with
  | some w => { s.setReg a w with staged := mset none s.staged a none }
  | none => s

/-! ### Tables -/

/-- Read and update of the tables of units. -/
def State.tile (s : State) (t : Nat) : Tile := mget {} s.tiles t
def State.setTile (s : State) (t : Nat) (x : Tile) : State := { s with tiles := mset {} s.tiles t x }
def State.modTile (s : State) (t : Nat) (f : Tile → Tile) : State := s.setTile t (f (s.tile t))

def State.queue (s : State) (g : Nat) : Queue := mget {} s.queues g
def State.setQueue (s : State) (g : Nat) (q : Queue) : State := { s with queues := mset {} s.queues g q }
def State.modQueue (s : State) (g : Nat) (f : Queue → Queue) : State := s.setQueue g (f (s.queue g))

/-- HEAD: the oldest command that is neither complete nor skipped. -/
def queueHead (q : Queue) : Word :=
  match q.inflight with
  | x :: _ => x.idx
  | [] => q.cmd

def State.tally (s : State) (k : Nat) : Nat := mget 0 s.tallies k
def State.setTally (s : State) (k v : Nat) : State := { s with tallies := mset 0 s.tallies k (v % 2 ^ 31) }

def State.engine (s : State) (i : Nat) : Engine := mget {} s.engines i
def State.setEngine (s : State) (i : Nat) (e : Engine) : State := { s with engines := mset {} s.engines i e }
def State.bank (s : State) (i : Nat) : Bank := mget {} s.banks i
def State.setBank (s : State) (i : Nat) (b : Bank) : State := { s with banks := mset {} s.banks i b }
def State.drain (s : State) (i : Nat) : DrainUnit := mget {} s.drains i
def State.setDrain (s : State) (i : Nat) (d : DrainUnit) : State := { s with drains := mset {} s.drains i d }
def State.mover (s : State) (i : Nat) : Option MoveJob := mget none s.movers i
def State.setMover (s : State) (i : Nat) (j : Option MoveJob) : State :=
  { s with movers := mset none s.movers i j }
def State.channel (s : State) (i : Nat) : Channel := mget {} s.channels i
def State.setChannel (s : State) (i : Nat) (c : Channel) : State :=
  { s with channels := mset {} s.channels i c }

def State.ring (s : State) (r : Nat) : Ring := mget {} s.nb.rings r
def State.setRing (s : State) (r : Nat) (x : Ring) : State :=
  { s with nb := { s.nb with rings := mset {} s.nb.rings r x } }
def State.fn (s : State) (f : Fn) : FnState := mget {} s.fns f.id
def State.setFn (s : State) (f : Fn) (x : FnState) : State := { s with fns := mset {} s.fns f.id x }
def State.host (s : State) (f : Fn) : HostFn := mget {} s.hosts f.id
def State.setHost (s : State) (f : Fn) (x : HostFn) : State := { s with hosts := mset {} s.hosts f.id x }

def State.party (s : State) (p : Nat) : Party := mget {} s.parties.party p
def State.setParty (s : State) (p : Nat) (x : Party) : State :=
  { s with parties := { s.parties with party := mset {} s.parties.party p x } }

def State.guest (s : State) (n : Nat) : Guest := mget {} s.panel.guests n
def State.setGuest (s : State) (n : Nat) (g : Guest) : State :=
  { s with panel := { s.panel with guests := mset {} s.panel.guests n g } }
def State.strand (s : State) (l : Strand) : StrandState := mget {} s.panel.strands l.id
def State.setStrand (s : State) (l : Strand) (x : StrandState) : State :=
  { s with panel := { s.panel with strands := mset {} s.panel.strands l.id x } }

def State.link (s : State) (l : ModLink) : LinkState := mget {} s.fabric.links l.id
def State.setLink (s : State) (l : ModLink) (x : LinkState) : State :=
  { s with fabric := { s.fabric with links := mset {} s.fabric.links l.id x } }

def State.lantern (s : State) (n : Nat) : Lantern := mget {} s.lanterns n
def State.setLantern (s : State) (n : Nat) (x : Lantern) : State :=
  { s with lanterns := mset {} s.lanterns n x }
def State.port (s : State) (n p : Nat) : Port := mget {} (s.lantern n).ports p
def State.setPort (s : State) (n p : Nat) (x : Port) : State :=
  s.setLantern n { s.lantern n with ports := mset {} (s.lantern n).ports p x }
def State.bundle (s : State) (n m : Nat) : Bundle := mget {} (s.lantern n).bundles m
def State.setBundle (s : State) (n m : Nat) (x : Bundle) : State :=
  s.setLantern n { s.lantern n with bundles := mset {} (s.lantern n).bundles m x }
def State.copperPort (s : State) (k : Nat) : Port := mget {} s.copper k
def State.setCopper (s : State) (k : Nat) (x : Port) : State := { s with copper := mset {} s.copper k x }

def State.coll (s : State) (t : Nat) : CollEngine := mget {} s.colls t
def State.setColl (s : State) (t : Nat) (x : CollEngine) : State := { s with colls := mset {} s.colls t x }
def State.mirror (s : State) (i : Nat) : Mirror := mget {} s.mirrors i
def State.setMirror (s : State) (i : Nat) (x : Mirror) : State := { s with mirrors := mset {} s.mirrors i x }

/-- Do `f` for every number of a list, in its order. -/
def State.each (s : State) (ks : List Nat) (f : Nat → State → State) : State := ks.foldl (fun s k => f k s) s

/-! ### Memory (R5, R177, R179) -/

/-- A byte of basket or hamper. -/
def State.byte (s : State) (a : Nat) : Byte := mget 0 s.mem a
/-- Write a byte. -/
def State.setByte (s : State) (a : Nat) (b : Byte) : State := { s with mem := mset 0 s.mem a b }

/-- `n` bytes of the map `m` from `a`, as a number, least significant byte first. -/
def readNat (m : SMap Byte) : Nat → Nat → Nat
  | 0, _ => 0
  | n + 1, a => (mget 0 m a).toNat + 256 * readNat m n (a + 1)

/-- Write `n` bytes of `v` from `a`, least significant first. -/
def writeNat (m : SMap Byte) : Nat → Nat → Nat → SMap Byte
  | 0, _, _ => m
  | n + 1, a, v => writeNat (mset 0 m a (BitVec.ofNat 8 v)) n (a + 1) (v / 256)

/-- The line at a tile-local address (its low six bits 0). -/
def State.line (s : State) (a : Nat) : Line := BitVec.ofNat 512 (readNat s.mem 64 a)
/-- The bytes of a line, put into memory. -/
def State.setLine (s : State) (a : Nat) (l : Line) : State := { s with mem := writeNat s.mem 64 a l.toNat }

/-- A word of a line, by byte offset. -/
def lineWord (l : Line) (o : Nat) : Nat := bits l.toNat (8 * o) 32
/-- A field of a line: byte offset of its word, lowest bit and width (R268 and the command tables). -/
def lineField (l : Line) (o lo n : Nat) : Nat := bits l.toNat (8 * o + lo) n

/-- The tile-local address of an offset in tile `t` (R5). -/
def tileAddr (t off : Nat) : Nat := 2 ^ 34 * t + off

end Sys2Proof.Machine
end

