-- ==== Sys2Proof/Machine/Events.lean ====
section
/-! DEFINITION. Events: the class table, posting into rings, level conditions and interrupts
(spec/14_noticeboard.md R511 to R529). -/

namespace Sys2Proof.Machine

open Sys2Proof

/-! ### Classes (R529) -/

/-- Classes posted on the device ring only. -/
def deviceClasses : List Nat :=
  [0x02, 0x03, 0x04, 0x05, 0x06, 0x07, 0x08, 0x09, 0x10, 0x11, 0x12, 0x13, 0x14, 0x40, 0x41, 0x44, 0x45, 0x46,
   0x50, 0x51, 0x52, 0x53, 0x54, 0x55, 0x56, 0x60, 0x63, 0x70, 0x74, 0x75, 0x80, 0x81, 0x90, 0x91, 0x92, 0x93]
/-- Classes posted on the ring of the party concerned only. -/
def partyClasses : List Nat := [0x20, 0x21, 0x22, 0x23, 0x24, 0x26, 0x42, 0x43, 0x61, 0x62, 0x72]
/-- Classes posted on both. -/
def bothClasses : List Nat := [0x0A, 0x0B, 0x25, 0x71, 0x73]
/-- Level classes (R521). -/
def levelClasses : List Nat := [0x46, 0x70, 0x73, 0x90, 0x91, 0x92]

/-- The class is posted by the panel; NB_LOST (0x01) is posted by the rings themselves. -/
def knownClass (c : Nat) : Bool :=
  c = 1 || deviceClasses.contains c || partyClasses.contains c || bothClasses.contains c

/-- The class cannot be masked (R524). -/
def unmaskable (c : Nat) : Bool := c = 0x01 || c = 0x0B || c = 0x74

/-- The rings that take a record of class `c` about party `p`: ring 0 is the device ring, ring p + 1 that of
party p. -/
def ringsOf (c p : Nat) : List Nat :=
  if deviceClasses.contains c then [0]
  else if partyClasses.contains c then [p % 16 + 1]
  else if bothClasses.contains c then [0, p % 16 + 1]
  else []

/-! ### SOURCE encodings (R513, R631) -/

def srcDevice (fn : Nat) : Nat := fn
def srcTile (t unit : Nat) : Nat := 0x3000 + 64 * t + unit
def srcLantern (n unit : Nat) : Nat := 0x4000 + 64 * n + unit
def srcBridge (h unit : Nat) : Nat := 0x5000 + 64 * h + unit
def srcGuest (n : Nat) : Nat := 0x6000 + 64 * n
def srcSite (site : Nat) : Nat := 0x7000 + 32 * site
def srcSecurity (h : Nat) : Nat := 0x2000 + 64 * h
def srcPower (sub index : Nat) : Nat := 0x1000 + 256 * sub + index

/-! ### Functions and readiness (R514, R515, R518, R595) -/

/-- The function that serves a ring. -/
def ringFn (s : State) (r : Nat) : Fn :=
  let port : Fin 2 := if (s.ring r).port = 1 then 1 else 0
  { port := port, vf := if h : r < 17 then ⟨r, h⟩ else 0 }

/-- A function's host traffic is closed until its IDE stream is Secure (R595). -/
def ideClosed (s : State) (f : Fn) : Bool := s.sec.ideRequired && !(s.fn f).ide

/-- The panel masters requests through the function. -/
def fnReady (s : State) (f : Fn) : Bool :=
  (s.fn f).busMaster && (s.fn f).msixEnable && !ideClosed s f

/-- The ring may write records and send messages now (R518, R526). -/
def ringOpen (s : State) (r : Nat) : Bool := (s.ring r).enable && !s.nb.hold && fnReady s (ringFn s r)

/-! ### Interrupts (R522) -/

/-- Send a ring's message, or hold it while the ring may not send. -/
def sendInterrupt (s : State) (r : Nat) : State :=
  let x := s.ring r
  if ringOpen s r then
    let f := ringFn s r
    let fs := s.fn f
    let s := s.setRing r { x with bypass := false, held := false,
                                  timer := if x.modUs = 0 then none else some (s.now + 1000 * x.modUs) }
    if fs.fnMask || fs.vecMask then s.setFn f { fs with vecPending := true }
    else s.emit (.msix f fs.msgAddr fs.msgData)
  else s.setRing r { x with held := true }

/-- An interrupt falls due (R522). -/
def interruptDue (s : State) (r : Nat) : State :=
  let x := s.ring r
  if x.timer = none || x.bypass then sendInterrupt s r else s.setRing r { x with held := true }

/-- Set BYPASS (R523); a held interrupt is then sent at once (R522). -/
def setBypass (s : State) (r : Nat) : State :=
  let x := s.ring r
  let s := s.setRing r { x with bypass := true }
  if x.held then sendInterrupt s r else s

/-- Send the interrupt that a ring holds only because it was not open (R526, R518). -/
def releaseHeld (s : State) (r : Nat) : State :=
  let x := s.ring r
  if x.held && (x.timer = none || x.bypass) && ringOpen s r then sendInterrupt s r else s

/-- After an enable, unmask or end of hold: every ring sends what it may send (R522, R526, R595). -/
def releaseAll (s : State) : State := s.each (List.range 17) (fun r s => releaseHeld s r)

/-- A PCIe mask of the function cleared: a pending message is sent (R515). -/
def flushPending (s : State) (f : Fn) : State :=
  let x := s.fn f
  if x.vecPending && !x.vecMask && !x.fnMask && fnReady s f then
    (s.setFn f { x with vecPending := false }).emit (.msix f x.msgAddr x.msgData)
  else s

/-! ### Posting buffers (R516, R517) -/

/-- Records that a posting buffer holds (R517). -/
def bufferCap (r : Nat) : Nat := if r = 0 then 1024 else 256

/-- A record enters the buffer of ring `r` and takes the sequence TAKEN; the device ring's recent window
takes it too (R535). -/
def enterRecord (s : State) (r cls src party payload : Nat) : State :=
  let x := s.ring r
  let record : Record :=
    { seq := x.taken, stamp := BitVec.ofNat 64 s.time, source := BitVec.ofNat 16 src, cls := BitVec.ofNat 8 cls,
      party := BitVec.ofNat 8 party, payload := BitVec.ofNat 96 payload }
  let s := s.setRing r { x with taken := x.taken + 1, buffer := x.buffer ++ [record] }
  if r = 0 then
    { s with nb := { s.nb with recent := mset none s.nb.recent (record.seq.toNat % 64) (some record) } }
  else s

/-- The buffer of ring `r` has room. -/
def hasRoom (s : State) (r : Nat) : Bool := (s.ring r).buffer.length < bufferCap r

/-- Key of a level source: class and SOURCE. -/
def levelKey (cls src : Nat) : Nat := 65536 * cls + src

/-- Build a posted level record: it enters with the payload of this moment, or is withdrawn when its condition is
false (R521); without room it waits. -/
def buildLevel (s : State) (r key : Nat) : State :=
  let x := s.ring r
  match mget none s.nb.conds key with
  | none => s.setRing r { x with levels := mset .armed x.levels key .armed }
  | some c =>
    if hasRoom s r && x.lostNow = 0 then
      enterRecord (s.setRing r { x with levels := mset .armed x.levels key .posted })
        r (key / 65536) (key % 65536) c.party c.payload
    else s.setRing r { x with levels := mset .armed x.levels key .waiting }

/-- Room has come: the NB_LOST record goes first, then the waiting level records (R517, R521). -/
def refill (s : State) (r : Nat) : State :=
  let x := s.ring r
  let s := if x.lostNow ≠ 0 && hasRoom s r then
      enterRecord (s.setRing r { x with lostNow := 0 }) r 0x01 (srcDevice 1) (if r = 0 then 0xFF else r - 1)
        (min x.lostNow (2 ^ 32 - 1) + 2 ^ 32 * x.lostStamp.toNat)
    else s
  ((s.ring r).levels.filter (fun p => p.2 = .waiting)).foldl (fun s p => buildLevel s r p.1) s

/-- Class `c` is masked in ring `r` for a record committed now; within 40 ns of a change of its mask the outcome
is free (R524, R525). -/
def maskedNow (s : State) (r c : Nat) : Bool × State :=
  let x := s.ring r
  let m := x.masks.getLsbD (c % 256)
  match mget none x.maskTime c with
  | some t => if s.now < t + 40 then (Config.freeBool s.draws, s.used) else (m, s)
  | none => (m, s)

/-- An edge record reaches ring `r` (R517, R524). -/
def postEdge (s : State) (r : Nat) (e : Event) : State :=
  let (masked, s) := maskedNow s r e.cls
  let x := s.ring r
  if masked then s.setRing r { x with masked := satAdd x.masked 1 }
  else if hasRoom s r && x.lostNow = 0 then enterRecord s r e.cls e.source e.party e.payload
  else s.setRing r { x with lost := satAdd x.lost 1, lostNow := x.lostNow + 1,
                            lostStamp := if x.lostNow = 0 then BitVec.ofNat 64 s.time else x.lostStamp }

/-- A source commits an edge record (R512, R529): PARTY is 0xFF for a device class. -/
def post (s : State) (cls src : Nat) (payload : Nat := 0) (party : Nat := 0xFF) : State :=
  if knownClass cls && !levelClasses.contains cls then
    s.each (ringsOf cls party) (fun r s => postEdge s r
      { cls := cls, source := src, payload := payload,
        party := (if deviceClasses.contains cls then 0xFF else party) })
  else s

/-- Bits that a class defines in its PAYLOAD: the places and widths of its fields (R529, R281, R301, R541, R549, R555,
R566, R567, R570, R602, R631). -/
def payloadFields (c : Nat) : List (Nat × Nat) :=
  match c with
  | 0x02 => [(0, 43), (44, 4)] | 0x03 => [(0, 33)] | 0x04 => [(0, 91)] | 0x05 => [(0, 96)] | 0x06 => [(0, 10)]
  | 0x07 => [(0, 3), (16, 16)] | 0x08 => [(0, 5)] | 0x09 => [(0, 4)]
  | 0x0A => [(0, 4), (8, 8), (16, 7)] | 0x0B => [(0, 4), (8, 8), (32, 32)]
  | 0x10 => [(0, 3)] | 0x11 => [(0, 1)] | 0x12 => [(0, 3), (4, 7)] | 0x13 => [(0, 4)] | 0x14 => [(0, 32)]
  | 0x20 => [(0, 96)] | 0x21 => [(0, 95)] | 0x22 => [(0, 14), (32, 32)] | 0x23 => [(0, 6), (8, 8), (32, 64)]
  | 0x24 => [(0, 38)] | 0x25 => [(0, 35)] | 0x26 => [(0, 96)]
  | 0x40 => [(0, 35)] | 0x41 => [(0, 3), (8, 6)] | 0x42 => [(0, 55)] | 0x43 => [(0, 75)] | 0x44 => [(0, 15)]
  | 0x45 => [(0, 14)] | 0x46 => [(0, 32)]
  | 0x50 => [(0, 8)] | 0x51 => [(0, 9)] | 0x52 => [(0, 32)] | 0x53 => [] | 0x54 => [(0, 21), (32, 21)]
  | 0x55 => [(0, 64)] | 0x56 => [(0, 5), (8, 6)]
  | 0x60 => [] | 0x61 => [(0, 96)] | 0x62 => [(0, 44)] | 0x63 => [(0, 7)]
  | 0x70 => [(0, 64)] | 0x71 => [(0, 34), (48, 48)] | 0x72 => [(0, 83)] | 0x73 => [(0, 28), (48, 14)]
  | 0x74 => [(0, 9), (16, 40)] | 0x75 => [(0, 9)]
  | 0x80 => [(0, 24), (32, 32)] | 0x81 => [(0, 1), (8, 8)]
  | 0x90 => [(0, 2), (4, 36)] | 0x91 => [(0, 4), (16, 16)] | 0x92 => [(0, 34)] | 0x93 => [(0, 25), (32, 32)]
  | _ => []

/-- A payload of a class: bits that the class does not define are 0 (R512). -/
def payloadOf (c v : Nat) : Nat := (payloadFields c).foldl (fun a f => a + bits v f.1 f.2 * 2 ^ f.1) 0

/-- The condition of a level class at a source becomes or stays true with this payload, or false (R521). -/
def setLevel (s : State) (cls src : Nat) (cond : Option LevelCond) : State :=
  let key := levelKey cls src
  let was := mget none s.nb.conds key
  let s := { s with nb := { s.nb with conds := mset none s.nb.conds key cond } }
  match was, cond with
  | none, some c =>
    s.each (ringsOf cls c.party) (fun r s =>
      if mget .armed (s.ring r).levels key = .armed then
        let (masked, s) := maskedNow s r cls
        if masked then s else buildLevel s r key
      else s)
  | _, _ => s

/-- Re-sample a level source of ring `r` (R521): its condition true, a new record is posted; a masked class posts none
and the source is ARMED (R525; DEDUCED, assumption log entry 55). -/
def resample (s : State) (r key : Nat) : State :=
  let (masked, s) := maskedNow s r (key / 65536)
  if masked then s.setRing r { s.ring r with levels := mset .armed (s.ring r).levels key .armed }
  else buildLevel s r key

/-! ### Common events -/

/-- Path fields of ACCESS_ERROR: path, VF and host port (R529). -/
def pathBits : Path → Nat
  | .pf h => h.val
  | .msg m => m.val
  | .vf port p => 4 + 8 * (p.val + 1) + 256 * port.val

/-- ACCESS_ERROR for an access: reason 1 reserved or absent, 2 refused in this state, 3 discarded while busy,
4 reserved command (R8, R529). -/
def accessError (s : State) (a : Access) (reason : Nat) : State :=
  let window := match a.path with
    | .msg _ => 2
    | _ => if a.bar4 then 1 else 0
  post s 0x02 (srcDevice 0) (a.off % 2 ^ 32 + 2 ^ 32 * window + 2 ^ 34 * pathBits a.path + 2 ^ 44 * reason)

/-- ACCESS_ERROR of the panel's own accord: offset in BAR0, with the leader's path (R263, a fold's effect).
DEDUCED: the event names the path of the leader (assumption log entry 23). -/
def ownAccessError (s : State) (off reason : Nat) : State :=
  accessError s { path := .msg (s.lead.leader.getD s.lead.last), off } reason

/-- The party that holds a tile, and the party of a guest (R3, R483). -/
def tileParty (s : State) (t : Nat) : Nat := mget 0 s.parties.tileOwner t
def guestParty (s : State) (n : Nat) : Nat := mget 0 s.parties.guestOwner n

/-- A party exists (R502). -/
def partyExists (s : State) (p : Nat) : Bool := (s.party p).phase ≠ .none

/-- Tiles of a party in this module, ascending. -/
def partyTiles (s : State) (p : Nat) : List Nat :=
  if partyExists s p then (List.range 64).filter (fun t => tileParty s t = p) else []

/-- Guests of a party. -/
def partyGuests (s : State) (p : Nat) : List Nat :=
  if partyExists s p then (List.range 4).filter (fun n => guestParty s n = p) else []

end Sys2Proof.Machine
end

