-- ==== Sys2Proof/Machine/Geometry.lean ====
section
/-! DEFINITION. Where things are: sites and attachments, the torus, decoding of the itinerary in force, and the
links of a direction (spec/01 R14, R23, R24; spec/08 R314 to R318; spec/10 R402, R403; spec/11 R452). -/

namespace Sys2Proof.Machine

open Sys2Proof

/-! ### Sites (R1, R14, R23) -/

/-- Effective skipped column of a row, from the map in force (R20, R27); 8 before it is read. -/
def skipCol (s : State) (r : Nat) : Nat := s.panel.skip.getD r 8

/-- Physical column of a logical tile, and its site (R23). -/
def physCol (s : State) (t : Nat) : Nat := let c := t % 8; if c < skipCol s (t / 8) then c else c + 1
def siteOf (s : State) (t : Nat) : Nat := t / 8 * 9 + physCol s t

/-- The logical tile at a site of the map in force. -/
def tileAt? (s : State) (site : Nat) : Option Nat :=
  let r := site / 9
  let c := site % 9
  if site < 72 ∧ s.panel.mapRead ∧ c ≠ skipCol s r then some (8 * r + (if c < skipCol s r then c else c - 1))
  else none

/-- Sites of the lanterns, host bridges and guests (R14). -/
def lanternSites : List (List Nat) :=
  [[0, 1, 2, 3], [5, 6, 7, 8], [8, 17, 26, 35], [44, 53, 62, 71], [68, 69, 70, 71], [63, 64, 65, 66],
   [36, 45, 54, 63], [0, 9, 18, 27]]
def bridgeSites : List (List Nat) := [[0, 1, 9], [62, 70, 71]]
def guestSites : List Nat := [8, 17, 63, 54]
/-- The sites that border a lantern die (R14). -/
def lanternAdjacent : List Nat := [1, 2, 6, 7, 17, 26, 53, 62, 69, 70, 64, 65, 45, 54, 9, 18]

/-- What is attached to a site. -/
inductive Attach where
  | lantern (n i : Nat) | bridge (h i : Nat) | guest (n : Nat)
deriving DecidableEq, Repr

/-- Attachments of a site, in the order of the table of R14 (ports 4 to 6 of R39). -/
def attachments (site : Nat) : List Attach :=
  ((List.range 8).filterMap (fun n => ((lanternSites.getD n []).idxOf? site).map (Attach.lantern n))) ++
  ((List.range 2).filterMap (fun h => ((bridgeSites.getD h []).idxOf? site).map (Attach.bridge h))) ++
  ((List.range 4).filterMap (fun n => if guestSites.getD n 72 = site then some (Attach.guest n) else none))

/-- The anchor tile of a guest, when its site is in the map (R46, R47). -/
def anchorTile (s : State) (n : Nat) : Option Nat := tileAt? s (guestSites.getD n 72)

/-- Slew limit of a site in units of 0.25 W/µs (R419). -/
def siteLimit (site : Nat) : Nat := if lanternAdjacent.contains site then 16 else 48

/-- A link of the panel with its indices brought into range. -/
def mkMesh (t : Nat) (east : Bool) : Strand := .mesh (Fin.ofNat 64 t) east
def mkLanternStrand (n i : Nat) : Strand := .lantern (Fin.ofNat 8 n) (Fin.ofNat 4 i)
def mkBridgeStrand (h i : Nat) : Strand := .bridge (Fin.ofNat 2 h) (Fin.ofNat 3 i)

/-- The strand of a tile's mesh port (0 north, 1 east, 2 south, 3 west), and whether the tile is its first end. -/
def meshStrand (t port : Nat) : Option (Strand × Bool) :=
  match port with
  | 0 => if 8 ≤ t then some (mkMesh (t - 8) false, false) else none
  | 1 => if t % 8 < 7 then some (mkMesh t true, true) else none
  | 2 => if t < 56 then some (mkMesh t false, true) else none
  | 3 => if 0 < t % 8 then some (mkMesh (t - 1) true, false) else none
  | _ => none

/-- The neighbour at a mesh port. -/
def neighbour (t port : Nat) : Nat :=
  match port with
  | 0 => t - 8 | 1 => t + 1 | 2 => t + 8 | _ => t - 1

/-- The mesh port at the neighbour's end. -/
def oppositePort (port : Nat) : Nat := (port + 2) % 4

/-- The first end of a link and its other end, as tiles or attached dies. -/
def strandTile (s : State) : Strand → Option Nat
  | .mesh t _ => some t.val
  | .lantern n i => tileAt? s ((lanternSites.getD n.val []).getD i.val 72)
  | .bridge h i => tileAt? s ((bridgeSites.getD h.val []).getD i.val 72)

/-- The strand from a tile to a lantern or bridge, if its site has one. -/
def lanternStrandOf (s : State) (t n : Nat) : Option Strand :=
  ((lanternSites.getD n []).idxOf? (siteOf s t)).map (mkLanternStrand n)
def bridgeStrandOf (s : State) (t h : Nat) : Option Strand :=
  ((bridgeSites.getD h []).idxOf? (siteOf s t)).map (mkBridgeStrand h)

/-- A strand is in service. -/
def strandUp (s : State) (l : Strand) : Bool := (s.strand l).phase = .active

/-- Entry tile of a host bridge (R315): lowest for HB0, highest for HB1, among tiles with a strand in service. -/
def bridgeEntry (s : State) (h : Nat) : Option Nat :=
  let ts := (List.range 3).filterMap (fun i =>
    if strandUp s (mkBridgeStrand h i) then strandTile s (mkBridgeStrand h i) else none)
  if h = 0 then ts.foldl (fun m t => match m with | none => some t | some x => some (min x t)) none
  else ts.foldl (fun m t => match m with | none => some t | some x => some (max x t)) none

/-! ### Torus (R316, R317) -/

/-- Axis sizes and coordinates of this module, from `DEV_TORUS` and `DEV_MODULE` (R352). -/
def axisSize (s : State) (axis : Nat) : Nat := s.field 0x2000 (8 * axis) 7 + 1
def myModule (s : State) : Nat := s.field 0x2004 0 14

/-- Coordinate of a module on an axis (R316). -/
def coordOf (s : State) (m axis : Nat) : Nat :=
  match axis with
  | 0 => m % axisSize s 0
  | 1 => m / axisSize s 0 % axisSize s 1
  | _ => m / (axisSize s 0 * axisSize s 1)

/-- The module at given coordinates (R316). -/
def moduleAt (s : State) (x y z : Nat) : Nat := x + axisSize s 0 * (y + axisSize s 1 * z)

/-- Number of modules of the torus. -/
def torusCount (s : State) : Nat := axisSize s 0 * axisSize s 1 * axisSize s 2

/-- The module one hop away in a direction (0 +X, 1 −X, 2 +Y, 3 −Y, 4 +Z, 5 −Z). -/
def hopModule (s : State) (m dir : Nat) : Nat :=
  let n := axisSize s (dir / 2)
  let c := coordOf s m (dir / 2)
  let c' := if dir % 2 = 0 then (c + 1) % n else (c + n - 1) % n
  moduleAt s (if dir / 2 = 0 then c' else coordOf s m 0) (if dir / 2 = 1 then c' else coordOf s m 1)
    (if dir / 2 = 2 then c' else coordOf s m 2)

/-- Direction of the next hop from module `m` to module `d` (R317), if they differ. -/
def routeDir (s : State) (m d : Nat) : Option Nat :=
  (List.range 3).findSome? (fun axis =>
    let n := axisSize s axis
    let a := coordOf s m axis
    let b := coordOf s d axis
    let dist := (b + n - a) % n
    if dist = 0 then none else some (if 2 * dist ≤ n then 2 * axis else 2 * axis + 1))

/-! ### The itinerary in force (R477 to R482) -/

/-- Section TYPE and INSTANCE of an itinerary. -/
def sectionOf (ss : List Section) (ty inst : Nat) : Option Section :=
  ss.find? (fun x => x.ty = ty ∧ x.inst = inst)
/-- The word at byte offset `o` of a body. -/
def bodyWord (x : Section) (o : Nat) : Nat := (x.body.getD (o / 4) 0).toNat
/-- A field of a body. -/
def bodyField (x : Section) (o lo n : Nat) : Nat := bits (bodyWord x o) lo n

/-- The phase-map entry of a bundle (R402), or 0 (PARK) when the phase is undefined. -/
def mapEntry (ss : List Section) (phase n m : Nat) : BitVec 64 :=
  match sectionOf ss 6 phase with
  | some x => BitVec.ofNat 64 (bodyWord x (8 * (32 * n + m)) + 2 ^ 32 * bodyWord x (8 * (32 * n + m) + 4))
  | none => 0

/-- The copper entry of a link in a phase (R452, R481): 13 half-words from byte 2,048. -/
def copperEntry (ss : List Section) (phase k : Nat) : Nat :=
  match sectionOf ss 6 phase with
  | some x => bodyField x (2048 + 4 * (k / 2)) (16 * (k % 2)) 16
  | none => 0

/-- Phase `f` is defined. -/
def phaseDefined (ss : List Section) (f : Nat) : Bool := (sectionOf ss 6 f).isSome

/-- Fields of a bundle entry (R402). -/
def entryMode (e : BitVec 64) : Nat := bits e.toNat 0 2
def entryCount (e : BitVec 64) : Nat :=
  match entryMode e with
  | 1 => 1
  | 2 => bits e.toNat 2 2 + 1
  | _ => 0
def entryPort (e : BitVec 64) (i : Nat) : Nat := bits e.toNat (4 + 4 * i) 4
def entryDir (e : BitVec 64) (i : Nat) : Nat := bits e.toNat (20 + 3 * i) 3
def entrySlot (e : BitVec 64) : Nat := bits e.toNat 32 8
def entryTile (e : BitVec 64) : Nat := bits e.toNat 40 6

/-- Port table entry of a port (R481): peer identity when VALID. -/
def portPeer (ss : List Section) (n p : Nat) : Option Nat :=
  match sectionOf ss 4 n with
  | some x => if bodyField x (4 * p) 31 1 = 1 then some (bodyField x (4 * p) 0 21) else none
  | none => none

/-- COPPER section fields (R481): PCIE_EN per bridge, buddy enable, buddy bridge and module. -/
def pcieEnabled (ss : List Section) (h : Nat) : Bool :=
  match sectionOf ss 5 0 with
  | some x => bodyField x 0 h 1 = 1
  | none => true
def buddyEnabled (ss : List Section) : Bool :=
  match sectionOf ss 5 0 with
  | some x => bodyField x 0 2 1 = 1
  | none => false
def buddyBridge (ss : List Section) : Nat :=
  match sectionOf ss 5 0 with
  | some x => bodyField x 0 3 1
  | none => 0
def buddyModule (ss : List Section) : Nat :=
  match sectionOf ss 5 0 with
  | some x => bodyField x 4 0 14
  | none => 0

/-- The word of rack link `k` of the COPPER section (R481). -/
def rackWord (ss : List Section) (k : Nat) : Nat :=
  match sectionOf ss 5 0 with
  | some x => bodyWord x (8 + 8 * k)
  | none => 0

/-- A copper link as the itinerary gives it: bridge, first group, rate code and the peer's identity in the layout
of R456. The buddy's far end is link 12 of the same-numbered bridge field of the peer's own itinerary; the
section names only its module (DEDUCED, assumption log entry 24). -/
def copperLink? (ss : List Section) (k : Nat) : Option (Nat × Nat × Nat × Nat) :=
  if k < 12 then
    let w := rackWord ss k
    if bits w 0 1 = 1 then
      some (bits w 1 1, bits w 2 4, bits w 6 2, bits w 8 14 + 2 ^ 14 * bits w 22 1 + 2 ^ 15 * bits w 23 4)
    else none
  else if k = 12 ∧ buddyEnabled ss then some (buddyBridge ss, 7, 0, buddyModule ss + 2 ^ 15 * 12)
  else none

/-! ### Links of a direction (R318, R403, R405, R452) -/

/-- The strand from the ENTRY tile of a copper entry to its link's bridge is in service (R453). -/
def copperStrandUp (s : State) (k e : Nat) : Bool :=
  match copperLink? s.itin.force k with
  | some (h, _, _, _) =>
    (match bridgeStrandOf s (bits e 4 6) h with
      | some l => strandUp s l
      | none => false)
  | none => false

def bundleLink (n m i : Nat) : ModLink := .bundle (Fin.ofNat 8 n) (Fin.ofNat 32 m) (Fin.ofNat 4 i)

/-- Plane of a bundle: its band (R388). -/
def planeOf (m : Nat) : Nat := m / 8
def inTrim (s : State) (n pl : Nat) : Bool := bits (s.lantern n).trim pl 1 = 1

/-- The strand that carries a bundle's traffic at its ENTRY tile is in service. -/
def entryStrandUp (s : State) (n : Nat) (e : BitVec 64) : Bool :=
  match lanternStrandOf s (entryTile e) n with
  | some l => strandUp s l
  | none => false

/-- Position `i` of an entry may be lit (R405, R591). -/
def mayLight (s : State) (n m : Nat) (e : BitVec 64) (i : Nat) : Bool :=
  let p := s.port n (entryPort e i)
  p.phase = .active && p.keying.keyed && entryStrandUp s n e && !inTrim s n (planeOf m)

/-- Positions of an entry that may be lit. -/
def litPositions (s : State) (n m : Nat) (e : BitVec 64) : List Nat :=
  (List.range (entryCount e)).filter (mayLight s n m e)

/-- The links of a bundle that routing counts: once a move is planned, those of its new entry, for the routers send on
the new set only; else those in service (R331, R405, R407). -/
def bundleSet (s : State) (n m : Nat) : List (ModLink × Nat × Nat) :=
  let b := s.bundle n m
  match b.move with
  | some mv => (litPositions s n m mv.entry).map (fun i => (bundleLink n m i, entryDir mv.entry i, entryTile mv.entry))
  | none => ((List.range (entryCount b.entry)).filter (fun i => (s.link (bundleLink n m i)).up)).map
      (fun i => (bundleLink n m i, entryDir b.entry i, entryTile b.entry))

/-- The entry of a copper link that routing counts (R452, R453). -/
def copperSet (s : State) (k : Nat) : Nat :=
  match (s.copperPort k).newEntry with
  | some (e, _) => e
  | none => (s.copperPort k).entry

/-- Links with their entry tiles: a bundle's positions, then copper, in the numbering of R403 and R452. -/
def dirLinks (s : State) (dir : Nat) : List (ModLink × Nat) :=
  ((List.range 8).flatMap (fun n => (List.range 32).flatMap (fun m =>
    ((bundleSet s n m).filter (fun x => x.2.1 = dir)).map (fun x => (x.1, x.2.2))))) ++
  ((List.range 13).filterMap (fun k =>
    let e := copperSet s k
    let l := ModLink.copper (Fin.ofNat 13 k)
    if bits e 0 1 = 1 && bits e 1 3 = dir && (s.link l).up && copperStrandUp s k e then some (l, bits e 4 6) else none))

/-- The links of a direction that change at a fence have still to drain: packets bound for the direction wait
(R331, R407). -/
def dirChanging (s : State) (dir : Nat) : Bool :=
  (List.range 8).any (fun n => (List.range 32).any (fun m =>
    let b := s.bundle n m
    b.move.isSome && (List.range (entryCount b.entry)).any (fun i =>
      let x := s.link (bundleLink n m i)
      entryDir b.entry i = dir && x.up && x.draining && !x.drained))) ||
  (List.range 13).any (fun k =>
    let p := s.copperPort k
    p.newEntry.isSome && bits p.entry 0 1 = 1 && bits p.entry 1 3 = dir &&
      (s.link (.copper (Fin.ofNat 13 k))).draining)

/-- The copper link to the buddy module, over which mirror packets travel (R561). -/
def buddyLink : ModLink := .copper 12

end Sys2Proof.Machine
end

