-- ==== Sys2Proof/Machine/Packets.lean ====
section
/-! DEFINITION. Packets and their paths: the header of R309, checks of R312, routing in the mesh and between modules,
sending, answering and dropping (spec/08_packet_fabric.md R309 to R341). -/

namespace Sys2Proof.Machine

open Sys2Proof

/-! ### The header (R309) -/

/-- Fields of the header, in ascending bit position: value, lowest bit and width. -/
def packetFields (p : Packet) : List (Nat × Nat × Nat) :=
  [(p.ty, 0, 5), (p.vc, 5, 3), (p.fpc, 8, 3), (p.ce.toNat, 11, 1), (p.ece.toNat, 12, 1), (p.coll.toNat, 13, 1),
   (p.hint, 14, 2), (p.mcast, 16, 2), (p.flits, 18, 3), (p.accKf16.toNat, 21, 1), (p.esc.toNat, 22, 1),
   (p.epoch, 24, 8), (p.dstModule, 32, 14), (p.dstTile, 46, 6), (p.srcTile, 52, 6), (p.party, 58, 4),
   (p.srcKind, 62, 2), (p.srcModule, 64, 14), (p.dstKind, 78, 2), (p.birth, 80, 16), (p.addr, 96, 40),
   (p.seq, 136, 24), (p.tag, 160, 16), (p.aux, 176, 16), (p.mask.toNat, 192, 64)]

/-- The 256-bit header that the fields spell. -/
def packetHeader (p : Packet) : BitVec 256 :=
  BitVec.ofNat 256 (((packetFields p).map (fun f => f.1 % 2 ^ f.2.2 * 2 ^ f.2.1)).foldl (· + ·) 0)

/-- The packet that a header and a payload spell. -/
def packetOfHeader (h : BitVec 256) (payload : List Line) : Packet :=
  let f := bits h.toNat
  { ty := f 0 5, vc := f 5 3, fpc := f 8 3, ce := f 11 1 = 1, ece := f 12 1 = 1, coll := f 13 1 = 1,
    hint := f 14 2, mcast := f 16 2, flits := f 18 3, accKf16 := f 21 1 = 1, esc := f 22 1 = 1, epoch := f 24 8,
    dstModule := f 32 14, dstTile := f 46 6, srcTile := f 52 6, party := f 58 4, srcKind := f 62 2,
    srcModule := f 64 14, dstKind := f 78 2, birth := f 80 16, addr := f 96 40, seq := f 136 24, tag := f 160 16,
    aux := f 176 16, mask := BitVec.ofNat 64 (f 192 64), payload }

/-! ### Types (R310) -/

def tyWrite : Nat := 1
def tyWriteAcc : Nat := 2
def tyReadReq : Nat := 3
def tyReadResp : Nat := 4
def tySignal : Nat := 5
def tyAck : Nat := 6
def tyNack : Nat := 7

/-- The type allows the number of payload flits. -/
def flitsAllowed (ty n : Nat) : Bool :=
  match ty with
  | 1 => 1 ≤ n && n ≤ 4
  | 2 => 1 ≤ n && n ≤ 4
  | 3 => n = 1
  | 4 => 1 ≤ n && n ≤ 4
  | 5 => n = 0
  | 6 => n = 0
  | 7 => n = 0
  | _ => false

/-- A router discards the packet (R312). A SIGNAL's address is a tally number and has no alignment to keep (DEDUCED,
assumption log entry 27). -/
def malformed (p : Packet) : Bool :=
  !flitsAllowed p.ty p.flits || 4 < p.vc || p.mcast = 3 || p.srcKind = 3 || p.dstKind = 3 ||
  (p.ty ≠ tySignal && p.addr % 64 ≠ 0) || p.payload.length ≠ p.flits

/-- The source fields name an endpoint that can be answered (R312). -/
def sourceValid (s : State) (p : Packet) : Bool := p.srcKind < 3 && p.srcModule < max 1 (torusCount s)

/-- Requests, which take part in connections and in the order of R329. -/
def isRequest (ty : Nat) : Bool := ty = 1 || ty = 2 || ty = 3 || ty = 5

/-! ### Parties and epochs (R334) -/

def epochOf (s : State) (p : Nat) : Nat := (s.party p).epoch.toNat

/-- BIRTH of a packet sent now (R309). -/
def birthNow (s : State) : Nat := bits s.time 10 16

/-- Age of a packet in units of 1.024 µs (R328). -/
def packetAge (s : State) (p : Packet) : Nat := (birthNow s + 65536 - p.birth % 65536) % 65536

/-! ### Footpath classes (R322) -/

/-- The packet has crossed the dateline of an axis on its way from its source to this module. -/
def crossed (s : State) (p : Packet) (dir : Nat) : Bool :=
  let a := coordOf s p.srcModule (dir / 2)
  let c := coordOf s (myModule s) (dir / 2)
  if dir % 2 = 0 then c < a else a < c

/-- Class of a packet in this module, bound in a direction, or for delivery. -/
def classOf (s : State) (p : Packet) : Option Nat → Nat
  | some dir => 2 * (dir / 2) + (if crossed s p dir then 1 else 0)
  | none => 6

/-- The link of this module in a direction is its axis's dateline: it lies between coordinates S − 1 and 0. -/
def atDateline (s : State) (dir : Nat) : Bool :=
  let c := coordOf s (myModule s) (dir / 2)
  if dir % 2 = 0 then c + 1 = axisSize s (dir / 2) else c = 0

/-- Class of a packet on the link of a direction (R322). -/
def linkClass (s : State) (p : Packet) (dir : Nat) : Nat :=
  2 * (dir / 2) + (if crossed s p dir || atDateline s dir then 1 else 0)

/-! ### Routing (R314 to R318, R339, R340) -/

/-- Mesh port toward tile `d` in dimension order: columns first (R314). -/
def meshToward (t d : Nat) : Option Nat :=
  if t % 8 < d % 8 then some 1
  else if d % 8 < t % 8 then some 3
  else if t < d then some 2
  else if d < t then some 0
  else none

/-- The hash of R318. -/
def linkHash (p : Packet) : Nat :=
  let dt := if p.mcast = 2 then 0 else p.dstTile
  let dm := if p.mcast = 2 then p.dstModule % 4096 else p.dstModule
  (p.srcTile * 64 + dt) ^^^ ((p.srcModule ^^^ dm) % 4096)

/-- The packet is a mirror packet of this module to its buddy (R561). -/
def isBuddyMirror (s : State) (p : Packet) : Bool :=
  p.srcModule = myModule s && buddyEnabled s.itin.force && p.dstModule = buddyModule s.itin.force &&
  s.fabric.sent.any (fun o => o.tag = p.tag && o.src.id = p.srcTile && p.srcKind = 0 &&
    match o.purpose with
    | .mirror _ _ _ _ => true
    | _ => false)

/-- The link on which a packet leaves in a direction and the link's entry tile. Mirror packets to the buddy travel
on the buddy link only; its entry tile is that of its bridge (DEDUCED, assumption log entry 25). -/
def linkFor (s : State) (dir : Nat) (p : Packet) : Option (ModLink × Nat) :=
  if isBuddyMirror s p then
    if (s.copperPort 12).phase = .active then
      (bridgeEntry s (buddyBridge s.itin.force)).map (fun t => (buddyLink, t))
    else none
  else
    let ls := dirLinks s dir
    ls[linkHash p % ls.length]?

/-- The group table entry of group `g` (R340, R481), when VALID: root, forward bits, LOCAL, MEMBERS. -/
def groupEntry (s : State) (g : Nat) : Option (Nat × Nat × Bool × Nat) :=
  match sectionOf s.itin.force 7 (g / 256) with
  | some x =>
    let w := bodyWord x (8 * (g % 256)) + 2 ^ 32 * bodyWord x (8 * (g % 256) + 4)
    if bits w 0 1 = 1 then some (bits w 1 14, bits w 15 6, bits w 21 1 = 1, bits w 22 15) else none
  | none => none

/-- Tiles of a mask that satisfy a test, as a mask. -/
def maskWhere (m : BitVec 64) (f : Nat → Bool) : BitVec 64 :=
  BitVec.ofNat 64 (((List.range 64).filter (fun t => m.getLsbD t && f t)).foldl (fun a t => a + 2 ^ t) 0)

/-- Copies of a tile-mask multicast at tile `t` (R339). -/
def maskBranches (t : Nat) (m : BitVec 64) : List Branch :=
  ([(1, maskWhere m (fun x => t % 8 < x % 8)), (3, maskWhere m (fun x => x % 8 < t % 8)),
    (0, maskWhere m (fun x => x % 8 = t % 8 && x < t)), (2, maskWhere m (fun x => x % 8 = t % 8 && t < x)),
    (7, maskWhere m (fun x => x = t))].filter (fun b => b.2 ≠ 0)).map
    (fun b => { out := b.1, mask := b.2, goal := .tiles })

/-- What a router does with a packet: its copies, and the torus directions in which it has no link (R319). -/
structure Route where
  branches : List Branch := []
  lost     : List Nat := []
  noEntry  : Bool := false       -- a bridge without a strand in service (R315), or a guest out of service (R54)
  badGroup : Bool := false       -- GROUP of R326
  dropped  : List Nat := []      -- directions refused by R340
deriving DecidableEq, Repr

/-- Toward the link of a torus direction. -/
def routeOut (s : State) (t dir : Nat) (p : Packet) (goal : Goal) : Route :=
  match linkFor s dir p with
  | none => { lost := [dir] }
  | some (_, entry) =>
    { branches := [{ out := (meshToward t entry).getD (16 + dir), mask := p.mask, goal }] }

/-- Two routes together. -/
def Route.and (a b : Route) : Route :=
  { branches := a.branches ++ b.branches, lost := a.lost ++ b.lost, noEntry := a.noEntry || b.noEntry,
    badGroup := a.badGroup || b.badGroup, dropped := a.dropped ++ b.dropped }

/-- A group packet may still go in direction `dir` after travelling in `inn` (R340). -/
def groupMayForward (inn : Option Nat) (dir : Nat) : Bool :=
  match inn with
  | none => true
  | some d => d / 2 < dir / 2 || d = dir

/-- Toward the entry tile of a host bridge that the packet was sent to (R315). -/
def routeEntry (s : State) (t d : Nat) (p : Packet) : Route :=
  match bridgeStrandOf s d (p.dstTile % 2) with
  | some l =>
    if strandUp s l then { branches := [{ out := (meshToward t d).getD 8, goal := .entry d }] } else { noEntry := true }
  | none => { noEntry := true }

/-- A tile anchors a guest in service; without one, a packet to the guest is dropped as for a bridge without a strand
(R54). -/
def guestServes (s : State) (t : Nat) : Bool :=
  (List.range 4).any (fun n => anchorTile s n = some t && (s.guest n).status = .inService)

/-- Delivery of a unicast packet in its destination module (R314, R315). -/
def routeLocal (s : State) (t : Nat) (p : Packet) : Route :=
  match p.dstKind with
  | 1 =>
    match bridgeEntry s (p.dstTile % 2) with
    | none => { noEntry := true }
    | some d => routeEntry s t d p
  | 2 => if guestServes s p.dstTile then { branches := [{ out := (meshToward t p.dstTile).getD 8 }] } else { noEntry := true }
  | _ => { branches := [{ out := (meshToward t p.dstTile).getD 7 }] }

/-- Routing of a packet at tile `t`; `inn` is the direction in which it entered the module there (R314 to R318,
R339, R340). -/
def routeAt (s : State) (t : Nat) (inn : Option Nat) (goal : Goal) (p : Packet) : Route :=
  match goal with
  | .tiles => { branches := maskBranches t p.mask }
  | .toward dir => routeOut s t dir p (.toward dir)
  | .entry d => routeEntry s t d p
  | .fresh =>
    if p.mcast = 2 then
      match groupEntry s (p.dstModule % 4096) with
      | none => { badGroup := true }
      | some (root, fwd, here, _) =>
        if p.srcModule ≠ root then { badGroup := true }
        else
          let dirs := (List.range 6).filter (fun d => bits fwd d 1 = 1)
          let out : Route := (dirs.filter (groupMayForward inn)).foldl
            (fun (r : Route) d => r.and (routeOut s t d p (.toward d))) {}
          let r : Route := out.and { dropped := dirs.filter (fun d => !groupMayForward inn d) }
          if here then r.and { branches := maskBranches t p.mask } else r
    else
      match routeDir s (myModule s) p.dstModule with
      | some dir => routeOut s t dir p .fresh
      | none => if p.mcast = 1 then { branches := maskBranches t p.mask } else routeLocal s t p

/-- The direction that a route leaves in first, for its footpath class. -/
def branchDir (s : State) (p : Packet) (b : Branch) : Option Nat :=
  match b.goal with
  | .toward d => some d
  | .tiles => none
  | .entry _ => none
  | .fresh => routeDir s (myModule s) p.dstModule

/-! ### Buffers (R320) -/

/-- Buffer capacity in flits of a VC, or of a footpath class. -/
def bufferFlits (vc : Nat) : Nat := if vc < 4 then 40 else 10

/-- Flits of a packet on a link (R313). -/
def packetFlits (p : Packet) : Nat := 1 + p.flits

/-- Two held packets share a buffer. -/
def sameBuffer (a b : Held) : Bool := a.tile = b.tile && a.port = b.port && a.buf = b.buf

/-- The input buffer of a port that a packet takes: that of its VC, or of its footpath class. -/
def bufferOf (p : Packet) : Nat := if p.vc < 4 then p.vc else 4 + p.fpc

/-- Flits of packets together. -/
def flitSum (ps : List Packet) : Nat := (ps.map packetFlits).foldl (· + ·) 0

/-- Flits in an input buffer of a port. -/
def bufferUse (s : State) (t port buf : Nat) : Nat :=
  flitSum ((s.fabric.held.filter (fun x => x.tile = t && x.port = port && x.buf = buf)).map (·.pkt))

/-- Flits in the buffer of a held packet. -/
def occupancy (s : State) (h : Held) : Nat := bufferUse s h.tile h.port h.buf

/-- The packet is at the head of its buffer. -/
def atHead (s : State) (h : Held) : Bool :=
  match s.fabric.held.find? (sameBuffer h) with
  | some x => x = h
  | none => false

/-- Two packets belong to one stream of R329: the fields by which R330 tells them. -/
def sameStream (a b : Held) : Bool :=
  a.pkt.srcModule = b.pkt.srcModule && a.pkt.srcTile = b.pkt.srcTile && a.pkt.srcKind = b.pkt.srcKind &&
  a.pkt.dstModule = b.pkt.dstModule && a.pkt.mcast = b.pkt.mcast && a.pkt.mask = b.pkt.mask && a.vc0 = b.vc0

/-- An earlier packet of the same stream still has to leave the router by the same output (R329, R330). -/
def heldBack (s : State) (h : Held) (out : Nat) : Bool :=
  (s.fabric.held.takeWhile (fun x => x ≠ h)).any (fun x =>
    x.tile = h.tile && sameStream x h && x.branches.any (fun b => b.out = out))

/-- A copy that waits at a router. -/
structure Copy where
  held   : Held
  branch : Branch
deriving DecidableEq, Repr

/-- The copy goes on the footpath (R321). -/
def Copy.foot (c : Copy) : Bool := c.held.pkt.vc = 4 || c.branch.esc

/-- The packet that a copy becomes in this module: escaped where its branch is, with the class of its own way (R321,
R322, R339). -/
def Copy.pkt (s : State) (c : Copy) : Packet :=
  let p := c.held.pkt
  let p := if p.mcast = 0 then p else { p with mask := c.branch.mask }
  if c.foot then { p with vc := 4, esc := true, fpc := classOf s p (branchDir s p c.branch) } else p

/-- Copies that can leave tile `t` by output `out` now, in arrival order (R329, R330). -/
def ready (s : State) (t out : Nat) : List Copy :=
  (s.fabric.held.filter (fun h => h.tile = t && atHead s h && !heldBack s h out)).filterMap (fun h =>
    (h.branches.find? (fun b => b.out = out)).map (fun b => ⟨h, b⟩))

/-- The packet behind a head that leaves becomes the head now (R321). -/
def nextHead (s : State) (h : Held) (held : List Held) : List Held :=
  match held.find? (sameBuffer h) with
  | some x => if atHead s h then held.map (fun y => if y = x then { x with since := s.now } else y) else held
  | none => held

/-- A packet leaves its input buffer for good: the one behind it moves up, and the link that it came by gets its credits
back (R320). -/
def unhold (s : State) (h : Held) : State :=
  let s' := { s with fabric := { s.fabric with held := nextHead s h (s.fabric.held.erase h) } }
  match h.via with
  | some l =>
    let x := s.link l
    s'.setLink l { x with owed := mset 0 x.owed h.buf (mget 0 x.owed h.buf + packetFlits h.pkt) }
  | none => s'

/-- A held packet gives a copy away. -/
def takeCopy (s : State) (c : Copy) : State :=
  let rest := c.held.branches.erase c.branch
  if rest = [] then unhold s c.held
  else
    let held := s.fabric.held.map (fun x => if x = c.held then { c.held with branches := rest } else x)
    { s with fabric := { s.fabric with held := held } }

/-- Marking of a packet as it leaves its buffer (R337). -/
def marked (s : State) (h : Held) : Bool := s.field (tilA h.tile 0x6008) 0 6 ≤ occupancy s h

/-- The packet that leaves, marked, and the counts of the router: those it marks, and those that it moves to the
footpath here are counted when they escape. -/
def leave (s : State) (c : Copy) : Packet × State :=
  let m := marked s c.held
  let p := { c.pkt s with ce := c.held.pkt.ce || m }
  let s := takeCopy s c
  (p, if m && !c.held.pkt.ce then s.count64 (tilA c.held.tile 0x6058) 1 else s)

/-- Which of the copies that can leave by an output port goes first: the footpath, then the VCs in turn (R320). -/
def choose (s : State) (t port : Nat) (cs : List Copy) : Option Copy :=
  match cs.find? Copy.foot with
  | some c => some c
  | none =>
    let last := mget 0 s.fabric.round (32 * t + port)
    (List.range 4).findSome? (fun i => cs.find? (fun c => c.held.pkt.vc = (last + 1 + i) % 4))

/-- Remember the VC served last. -/
def served (s : State) (t port vc : Nat) : State :=
  if vc < 4 then { s with fabric := { s.fabric with round := mset 0 s.fabric.round (32 * t + port) vc } } else s

/-! ### Answers and entry -/

/-- The tile at which an endpoint joins the mesh, and the input port there. -/
def joins (s : State) : Endpoint → Option (Nat × Nat)
  | .tile t => some (t.val, 7)
  | .bridge h => (bridgeEntry s h.val).map (fun t =>
      (t, 4 + ((attachments (siteOf s t)).findIdx (fun a => match a with
        | .bridge h' _ => h' = h.val
        | _ => false))))
  | .guest n => (anchorTile s n.val).map (fun t =>
      (t, 4 + ((attachments (siteOf s t)).findIdx (fun a => a = .guest n.val))))

/-- The endpoint's number in SRC_TILE (R309). -/
def endpointNumber (s : State) : Endpoint → Nat
  | .tile t => t.val
  | .bridge h => h.val
  | .guest n => (anchorTile s n.val).getD 0

/-- The class of a packet in an input buffer: that of the first axis that one of its copies still has to travel
(R322). -/
def bufferClass (s : State) (p : Packet) (bs : List Branch) : Nat :=
  (bs.map (fun b => classOf s p (branchDir s p b))).foldl min 6

/-- Put a packet into an input buffer with its copies. -/
def hold (s : State) (t port : Nat) (via : Option ModLink) (c : Transit) (bs : List Branch) : State :=
  let p := { c.pkt with fpc := if c.pkt.vc = 4 then bufferClass s c.pkt bs else 0 }
  let h : Held := { pkt := p, tile := t, port := port, buf := bufferOf p, vc0 := c.vc0, since := s.now, via, branches := bs }
  { s with fabric := { s.fabric with held := s.fabric.held ++ [h] } }

/-- The answer to a packet: types 4, 6 and 7 carry its tag, party and epoch (R309, R310, R334). An answer takes the VC
that the packet was sent on (DESIGN CHOICE, assumption log entry 26). -/
def answerTo (s : State) (ep : Endpoint) (vc0 : Nat) (p : Packet) (ty aux : Nat) : Packet :=
  { ty, vc := vc0, coll := p.coll, epoch := p.epoch, party := p.party,
    dstModule := p.srcModule, dstTile := p.srcTile, dstKind := p.srcKind,
    srcModule := myModule s, srcTile := endpointNumber s ep, srcKind := ep.kind,
    birth := birthNow s, tag := p.tag, aux, ece := (ty = tyAck && p.ce) }

/-- AUX of an ACK and of a NACK (R310). -/
def ackAux (p : Packet) : Nat := p.seq % 65536
def nackAux (p : Packet) (reason : Nat) : Nat := reason + 256 * (p.seq % 256)

/-- Reasons of R326. -/
def nackAddress : Nat := 1
def nackIsolation : Nat := 2
def nackEncoding : Nat := 3
def nackMemory : Nat := 4
def nackLink : Nat := 5
def nackGroup : Nat := 6
def nackAged : Nat := 7

/-- Packets in strand frames that are on their way into a router's input port: formed and not accepted (R30). -/
def flight (s : State) (t port : Nat) : List Parcel :=
  match meshStrand t port with
  | none => []
  | some (l, first) =>
    let r := if first then (s.strand l).near else (s.strand l).far
    (r.buffer.filter (fun f => r.next ≤ f.seq)).flatMap (·.items)

/-- The input buffer of a port has credits for a packet (R320). -/
def bufferRoom (s : State) (t port : Nat) (p : Packet) : Bool :=
  bufferUse s t port (bufferOf p) + packetFlits p +
    flitSum (((flight s t port).filter (fun x => bufferOf x.item.pkt = bufferOf p)).map (·.item.pkt)) ≤ bufferFlits p.vc

/-- A packet that an endpoint has sent enters the input buffer at which the endpoint joins the mesh, or waits for its
credits behind what waits already (R320). -/
def inject (s : State) (t port : Nat) (p : Packet) (bs : List Branch) : State :=
  if s.fabric.outbox.any (fun w => w.tile = t && w.port = port && w.pkt.vc = p.vc) || !bufferRoom s t port p then
    { s with fabric := { s.fabric with outbox := s.fabric.outbox ++ [{ tile := t, port, pkt := p }] } }
  else hold s t port none ⟨p, p.vc⟩ bs

/-- Put an answer into the mesh, if it has a way out; whether it has. -/
def putAnswer (s : State) (ep : Endpoint) (p : Packet) : Route × State :=
  match joins s ep with
  | none => ({}, s)
  | some (t, port) =>
    let s := match ep with
      | .tile t => s.count64 (tilA t.val 0x6040) 1
      | _ => s
    let r := routeAt s t none .fresh p
    (r, if r.branches = [] then s else inject s t port p r.branches)

/-- The NACK of a router for a packet that it drops (R312, R315, R319, R326, R328, R333). -/
def dropPacket (s : State) (t : Nat) (vc0 : Nat) (p : Packet) (reason : Nat) : State :=
  if !sourceValid s p then s
  else
    let s := s.count32 (tilA t 0x6070) 1
    (putAnswer s (.tile (Fin.ofNat 64 t)) (answerTo s (.tile (Fin.ofNat 64 t)) vc0 p tyNack (nackAux p reason))).2

/-- Payload of REJECTION (R326, R529). -/
def rejection (p : Packet) (reason : Nat) : Nat :=
  p.srcModule + 2 ^ 14 * p.srcTile + 2 ^ 20 * p.srcKind + 2 ^ 22 * (reason % 256) + 2 ^ 30 * p.ty + 2 ^ 35 * p.addr

/-- The NACK of a router for a group that does not stand, with its REJECTION (R326, R340). -/
def dropGroup (s : State) (t vc0 : Nat) (p : Packet) : State :=
  post (dropPacket s t vc0 p nackGroup) 0x43 (srcTile t 8) (rejection p nackGroup) p.party

/-- What follows from the parts of a route that lead nowhere: a direction without links (R319), a bridge without a
strand in service (R315), and what the group table does not allow (R340). -/
def routeLosses (s : State) (t vc0 : Nat) (p : Packet) (r : Route) : State :=
  let s := (r.lost.foldl (fun s _ => dropPacket (s.count32 (tilA t 0x608C) 1) t vc0 p nackLink) s)
  let s := if r.noEntry then dropPacket s t vc0 p nackLink else s
  let s := if r.badGroup then dropGroup s t vc0 p else s
  r.dropped.foldl (fun s d =>
    post (s.count32 (tilA t 0x6088) 1) 0x44 (srcTile t 8) (p.dstModule % 4096 + 4096 * d)) s

/-- An endpoint answers a packet; an answer without a way out is dropped like every packet (R319). -/
def sendAnswer (s : State) (ep : Endpoint) (p : Packet) : State :=
  let (r, s) := putAnswer s ep p
  match joins s ep with
  | some (t, _) => routeLosses s t p.vc p r
  | none => s

/-- A packet enters the input buffer of a router: malformed ones are discarded (R312), the others are routed. -/
def arrive (s : State) (t port : Nat) (inn : Option Nat) (via : Option ModLink) (goal : Goal) (c : Transit) : State :=
  if malformed c.pkt then dropPacket (s.count32 (tilA t 0x6080) 1) t (c.vc0 % 4) c.pkt nackEncoding
  else
    let r := routeAt s t inn goal c.pkt
    let s := routeLosses s t (c.vc0 % 4) c.pkt r
    if r.branches = [] then s else hold s t port via c r.branches

/-- What waits for credits of an input buffer enters it, in order (R320). -/
def flushOutbox (s : State) : State :=
  s.fabric.outbox.foldl (fun s w =>
    let first := s.fabric.outbox.find? (fun v => v.tile = w.tile && v.port = w.port && v.pkt.vc = w.pkt.vc)
    if first = some w && bufferRoom s w.tile w.port w.pkt then
      arrive { s with fabric := { s.fabric with outbox := s.fabric.outbox.erase w } } w.tile w.port none none .fresh
        ⟨w.pkt, w.pkt.vc⟩
    else s) s

/-! ### Connections and sending (R335 to R338) -/

/-- Key of the connection of a packet: destination module, group or mask, with the VC (R335). -/
def connKey (p : Packet) : Nat :=
  p.vc + 8 * (match p.mcast with
    | 1 => 2 ^ 20 + p.mask.toNat
    | 2 => 2 ^ 16 + p.dstModule % 4096
    | _ => p.dstModule)

/-- The connection entry of a source, if it has one. -/
def conn? (s : State) (src : Endpoint) (key : Nat) : Option Conn :=
  s.fabric.conns.find? (fun c => c.src = src && c.key = key)

/-- A connection has an unacknowledged packet. -/
def connBusy (s : State) (c : Conn) : Bool := s.fabric.sent.any (fun o => o.src = c.src && o.conn = c.key)

/-- Give a connection to a source: a free entry, or the least recently used without unacknowledged packets. The
list holds a source's entries in order of use. -/
def openConn (s : State) (src : Endpoint) (key : Nat) : Option State :=
  match conn? s src key with
  | some _ => some s
  | none =>
    let add := fun (cs : List Conn) => { s with fabric := { s.fabric with conns := cs ++
      [{ src, key, lastEce := s.now, used := s.now }] } }
    if (s.fabric.conns.filter (fun c => c.src = src)).length < 1024 then some (add s.fabric.conns)
    else
      match s.fabric.conns.find? (fun c => c.src = src && !connBusy s c) with
      | some c => some (add (s.fabric.conns.erase c))
      | none => none

/-- Unacknowledged packets of a connection (R336). -/
def unacked (s : State) (c : Conn) : Nat :=
  (s.fabric.sent.filter (fun o => o.src = c.src && o.conn = c.key)).length

/-- The tile whose registers stand for an endpoint: itself, or the tile at which it joins the mesh. -/
def countTile (s : State) : Endpoint → Nat
  | .tile t => t.val
  | ep => ((joins s ep).map (·.1)).getD 0

/-- Bytes that the rate limiter meters for a packet: its payload, or the bytes that a READ_REQ asks for (R338). -/
def meteredBytes (p : Packet) : Nat := if p.ty = tyReadReq then 64 * (p.aux % 128) else 64 * p.payload.length

/-- Slots of the tile's share for the stream that a packet's bytes use (R251, R338). A bridge takes those of the tile at
which it joins the mesh (DESIGN CHOICE, assumption log entry 40). -/
def shareOf (s : State) (src : Endpoint) (p : Packet) : Nat :=
  s.field (tilA (countTile s src) 0x4000) (if p.ty = tyReadReq then 0 else 4) 4

/-- Tokens that flow into a bucket in a nanosecond, in units of 1/4000 byte: R / 256 of the share's 64-byte slots in each
core cycle (R338). -/
def tokenRate (s : State) (c : Conn) (p : Packet) : Nat := coreMHz s * shareOf s c.src p * c.rate

/-- The bucket of a connection now, as the packet that waits for its tokens sees it (R338; one bucket for both streams,
filled at the rate of the packet's: DESIGN CHOICE, assumption log entry 155). -/
def tokensNow (s : State) (c : Conn) (p : Packet) : Nat :=
  min 16384000 (c.tokens + (s.now - c.filled) * tokenRate s c p)

/-- When the bucket holds the tokens of a packet (R338). -/
def tokensAt (s : State) (c : Conn) (p : Packet) : Nat :=
  s.now + (4000 * meteredBytes p - tokensNow s c p + tokenRate s c p - 1) / max 1 (tokenRate s c p)

/-- Why a packet cannot be sent yet: its connection has no entry or no room in the window, or the bucket lacks tokens. -/
inductive Blocked where
  | entry | tokens
deriving DecidableEq, Repr

/-- What keeps a source from sending a packet now (R335, R336, R338). -/
def blocked (s : State) (src : Endpoint) (p : Packet) : Option Blocked :=
  match openConn s src (connKey p) with
  | none => some .entry
  | some s =>
    match conn? s src (connKey p) with
    | none => some .entry
    | some c =>
      if 4096 ≤ unacked s c then some .entry
      else if tokensNow s c p < 4000 * meteredBytes p then some .tokens
      else none

/-- A packet of a source with its sequence, tag and birth enters the mesh where the source joins it. -/
def enterMesh (s : State) (src : Endpoint) (p : Packet) : State :=
  match joins s src with
  | none => s
  | some (t, port) =>
    let s := match src with
      | .tile t => s.count64 (tilA t.val 0x6040) 1
      | _ => s
    let r := routeAt s t none .fresh p
    let s := routeLosses s t p.vc p r
    if r.branches = [] then s else inject s t port p r.branches

/-- Send a packet on its connection: it takes the next sequence, a tag and tokens, stands in the table of unanswered packets
and goes into the mesh (R325, R335, R336, R338). A multicast to nobody is complete at once (R341). -/
def sendOn (s : State) (c : Conn) (src : Endpoint) (purpose : Purpose) (need : Nat) (p : Packet) : State :=
  let p' := { p with seq := c.next % 2 ^ 24, tag := s.fabric.tag % 2 ^ 16, birth := birthNow s, flits := p.payload.length }
  let o : Outstanding :=
    { src, tag := p'.tag, conn := c.key, seq := p'.seq, sent := s.now, remain := need, purpose, pkt := p' }
  let c' := { c with next := c.next + 1, used := s.now, filled := s.now, tokens := tokensNow s c p - 4000 * meteredBytes p }
  let s := { s with fabric := { s.fabric with
    tag := (s.fabric.tag + 1) % 2 ^ 16, sent := if need = 0 then s.fabric.sent else s.fabric.sent ++ [o],
    conns := s.fabric.conns.erase c ++ [c'] } }
  enterMesh s src p'

/-- Try to send a packet: nothing keeps it back. -/
def trySend (s : State) (src : Endpoint) (purpose : Purpose) (need : Nat) (p : Packet) : Option State :=
  if (blocked s src p).isSome then none
  else
    match openConn s src (connKey p) with
    | none => none
    | some s =>
      match conn? s src (connKey p) with
      | none => none
      | some c => some (sendOn s c src purpose need p)

/-- Unanswered packets that a request needs: one per tile of a mask, in every member of a group (R341). -/
def needed (s : State) (p : Packet) : Nat :=
  let tiles := ((List.range 64).filter (fun t => p.mask.getLsbD t)).length
  match p.mcast with
  | 1 => tiles
  | 2 => match groupEntry s (p.dstModule % 4096) with
    | some (_, _, _, m) => m * tiles
    | none => 1
  | _ => if p.ty = tyReadReq then p.aux % 128 else 1

/-- A packet of a source waits to be sent. -/
def keepUnsent (s : State) (src : Endpoint) (purpose : Purpose) (p : Packet) (since : Option Nat) : State :=
  { s with fabric := { s.fabric with unsent := s.fabric.unsent ++ [{ src, pkt := p, purpose, need := needed s p, since }] } }

/-- A source sends a request (R324, R325, R335): a packet that cannot yet be sent waits its turn in its connection. -/
def sendPacket (s : State) (src : Endpoint) (purpose : Purpose) (p : Packet) : State :=
  let p := { p with srcModule := myModule s, srcTile := endpointNumber s src, srcKind := src.kind,
                    epoch := epochOf s p.party }
  match s.fabric.unsent.find? (fun u => u.src = src && connKey u.pkt = connKey p) with
  | some u => keepUnsent s src purpose p (u.since.map (fun _ => s.now))
  | none =>
    match trySend s src purpose (needed s p) p with
    | some s => s
    | none => keepUnsent s src purpose p (if blocked s src p = some .entry then some s.now else none)

/-- A packet has waited for a connection entry or the window since some time: the wait is counted in core cycles
(R335, R351). -/
def countWait (s : State) (u : Unsent) : State :=
  match u.src, u.since with
  | .tile t, some since => s.count64 (tilA t.val 0x6068) ((s.now - since) * coreMHz s / 1000)
  | _, _ => s

/-- Send what waits and can go now, in order (R335, R336, R338). -/
def flushUnsent (s : State) : State :=
  s.fabric.unsent.foldl (fun s u =>
    let first := s.fabric.unsent.find? (fun v => v.src = u.src && connKey v.pkt = connKey u.pkt)
    if first ≠ some u then s
    else
      match trySend s u.src u.purpose u.need { u.pkt with epoch := epochOf s u.pkt.party } with
      | some s => countWait { s with fabric := { s.fabric with unsent := s.fabric.unsent.erase u } } u
      | none =>
        if blocked s u.src u.pkt = some .tokens then
          let unsent := s.fabric.unsent.map (fun v => if v = u then { u with since := none } else v)
          countWait { s with fabric := { s.fabric with unsent := unsent } } u
        else s) s

/-- Lines cut into packets of at most four, with the address of each. -/
def cutLines : Nat → Nat → List Line → List (Nat × List Line)
  | 0, _, _ => []
  | n + 1, a, ls => if ls = [] then [] else (a, ls.take 4) :: cutLines n (a + 256) (ls.drop 4)

/-- A SIGNAL to a tally of a tile in any module (R270, R273, R310). -/
def signalPacket (party mod tile tally inc vc : Nat) : Packet :=
  { ty := tySignal, vc, dstModule := mod, dstTile := tile, party, addr := tally, aux := inc }

end Sys2Proof.Machine
end

