-- ==== Sys2Proof/Machine/Owner.lean ====
section
/-! DEFINITION. What every register write passes before it acts: the gates of R595, R626, R569, R490 and R496;
the entry into the safe state; the fold report (spec/13 R490 to R496, spec/15 R568 to R570). -/

namespace Sys2Proof.Machine

open Sys2Proof

/-! ### The safe state -/

/-- The panel has been running: start-up had completed before (R570, RUNNING). -/
def running (s : State) : Bool := 15 ≤ s.power.stage

/-- Enter the safe state (R568, R570): the first cause only is recorded, and SAFE_STATE is posted. -/
def enterSafe (s : State) (cause : Nat) (block0 block1 extra : Nat := 0) : State :=
  if s.safe.active then s
  else
    let run := (running s).toNat
    let s := s.setReg 0x10100 (BitVec.ofNat 32 (1 + 2 * run + 256 * (cause % 256) + 65536 * (block0 % 65536)))
    let s := s.setReg 0x10104 (BitVec.ofNat 32 (block1 % 65536 + 65536 * (extra % 256)))
    let s := s.setReg64 0x10108 s.time
    let s := { s with safe := { active := true, entered := s.now, stage := 0 } }
    let s := s.emit (.safeN true)
    post s 0x74 (srcDevice 0) (cause % 256 + 256 * run + 65536 * (block0 % 65536) + 2 ^ 32 * (block1 % 65536)
      + 2 ^ 48 * (extra % 256))

/-- The panel runs: power is good, it is not in the safe state, and no shutdown has turned it dark (R568, R628). -/
def panelRuns (s : State) : Bool := s.power.pwrgd && !s.safe.active && s.power.shutdown < 3

/-- Units act: the panel runs, and a shutdown has not stopped what was issued (R568, R628). -/
def active (s : State) : Bool := panelRuns s && s.power.shutdown < 2

/-- Links still carry traffic: the routers have not stopped (R568, 10 µs), and no shutdown has turned them dark. -/
def linksAlive (s : State) : Bool :=
  s.power.pwrgd && (!s.safe.active || s.safe.stage = 0) && s.power.shutdown < 3

/-! ### Fold report (R493, R494) -/

/-- Append an entry to the fold report; without room it counts in OVERFLOW. -/
def reportEntry (s : State) (e : FoldEntry) : State :=
  if s.itin.report.length < 1024 then
    { s with itin := { s.itin with report := s.itin.report ++ [e] } }
  else { s with itin := { s.itin with overflow := s.itin.overflow + 1 } }

/-- A clamp: section (0 for a block fold), instance, field offset and bit, and both values; the event is
FOLD_CLAMP for a block fold (R493, R494, R529). -/
def reportClamp (s : State) (sect inst off bit written applied : Nat) : State :=
  let block := sect = 0
  let s := reportEntry s
    { w0 := BitVec.ofNat 32 (sect + 65536 * inst),
      w1 := BitVec.ofNat 32 (off % 65536 + 65536 * bit + 2 ^ 24 * (if block then 1 else 0)),
      w2 := BitVec.ofNat 32 written, w3 := BitVec.ofNat 32 applied }
  if block then
    post s 0x05 (srcDevice 2) (off % 65536 + 65536 * (inst % 65536) + 2 ^ 32 * (written % 2 ^ 32)
      + 2 ^ 64 * (applied % 2 ^ 32))
  else s

/-! ### Accesses -/

/-- Return a completion to the sender. -/
def answer (s : State) (st : Status) (ws : List Word := []) : State := { s with reply := { status := st, words := ws } }

/-- Memory requests of the path complete with Unsupported Request: no stream of its function is Secure (R595). -/
def pathClosed (s : State) : Path → Bool
  | .pf h => ideClosed s { port := h, vf := 0 }
  | .vf port p => ideClosed s { port, vf := ⟨p.val + 1, Nat.succ_lt_succ p.isLt⟩ }
  | .msg _ => false

/-- Key of a path's latch for the 64-bit quantity at `a` (R646). -/
def latchKey (p : Path) (a : Nat) : Nat := 2 ^ 32 * p.id + a

/-- The path wrote the low word of the 64-bit quantity at `a`, which waits for its high word (R10, R646). -/
def putLow (s : State) (p : Path) (a : Nat) (v : Word) : State :=
  { s with wlatch := mset none s.wlatch (latchKey p a) (some v) }

/-- No low word of the quantity at `a` waits for the path. -/
def dropLow (s : State) (p : Path) (a : Nat) : State := { s with wlatch := mset none s.wlatch (latchKey p a) none }

/-- The low word that a write of the high word combines with: the one the path wrote since its last high-word write,
or the current one (R646); it is used up. -/
def takeLow (s : State) (p : Path) (a : Nat) (current : State → Word × State) : Word × State :=
  match mget none s.wlatch (latchKey p a) with
  | some w => (w, dropLow s p a)
  | none => current s

/-- The path does not answer: no power, no VF before SR-IOV enables it, or I3C before 40 ms (R442, R626). -/
def pathSilent (s : State) : Path → Bool
  | .msg _ => !s.mgmt.up
  | .pf _ => !s.power.pwrgd
  | .vf port _ => !s.power.pwrgd || !(s.fn { port, vf := 0 }).vfEnable

/-- Block FOLD registers (R490). -/
def isFoldReg (a : Nat) : Bool :=
  a = 0x01000004 || ((0x04000000 ≤ a && a < 0x08000000) && (a - 0x04000000) % 0x00800000 = 0x24) ||
  ((0x10000000 ≤ a && a < 0x20000000) &&
    [0x2400, 0x2C04, 0x3004, 0x600C, 0x9008].contains ((a - 0x10000000) % 0x00400000))

/-- A write to the register holds an RWC field (R11). -/
def holdsRwc (a : Nat) : Bool :=
  match regRow a with
  | some (r, _) => hasType .rwc r.fields
  | none => false

/-- Registers that keep taking writes in the safe state (R569); `PWR_SHUTDOWN` too, since R628 shuts down from
every state (DEDUCED, assumption log entry 28). -/
def safeWritable (a : Nat) : Bool :=
  a = 0x8004 || a = 0xD000 || (0xD100 ≤ a && a < 0xD160) || a = 0x10110 || a = 0x10200 || a = 0x0100000C ||
  (0x08010200 ≤ a && a < 0x08010280)

/-- An owner write by a master that is not the trip leader is counted and posted, and over a register-access message
it completes with code 2 (R459, R496, R508; assumption log entry 54). -/
def ownershipError (s : State) (acc : Access) (m : Nat) : State :=
  let last := acc.off % 2 ^ 32 / 4 * 4 + m % 4
  let s := (s.count32 0x8010 1).setReg 0x8014 (BitVec.ofNat 32 last)
  match acc.path with
  | .msg _ => answer (post s 0x03 (srcDevice 3) (last + 2 ^ 32)) (.code 2)
  | _ => answer (post s 0x03 (srcDevice 3) last) .ok

/-- Completion of an access that is discarded with ACCESS_ERROR (R8). -/
def refused (s : State) (acc : Access) (reason : Nat) : State := answer (accessError s acc reason) .ok

/-- The address lies in the TIL window of a tile that is not yet trained (R626). -/
def untrained (s : State) (a : Nat) : Bool :=
  0x10000000 ≤ a && a < 0x20000000 && !(s.tile ((a - 0x10000000) / 0x00400000)).trained

/-- A write of `data` to the register at `off` through a path, up to its effect (R9, R490, R496, R569, R595, R626). -/
def ownerWrite (s : State) (p : Path) (off : Nat) (data : Word) (effect : State → State) : State :=
  let acc : Access := { path := p, off }
  if pathSilent s p then s
  else if pathClosed s p then answer s .unsupported
  else
    match p.master with
    | none => refused s acc 1
    | some m =>
      if untrained s off then refused s acc 1
      else if s.safe.active && !safeWritable off then refused s acc 2
      else if s.lead.leader ≠ some m then ownershipError s acc m.val
      else if s.itin.plan.isSome && (isFoldReg off || holdsRwc off) then
        answer { s with itin := { s.itin with heldWrites := s.itin.heldWrites ++ [{ acc, data }] } } .ok
      else answer (effect s) .ok

/-- BAR0 address of an offset in the doorbell page of a party (R7). -/
def ptyA (party o : Nat) : Nat := 0x20000000 + 0x00400000 * party + o

/-- A write to the doorbell page of a party, by its owner's VF or by the trip leader (R8, R442, R496, R569). -/
def partyWrite (s : State) (p : Path) (party o : Nat) (data : Word) (effect : State → State) : State :=
  match p with
  | .vf _ q =>
    let acc : Access := { path := p, off := o }
    if q.val ≠ party || pathSilent s p then s
    else if pathClosed s p then answer s .unsupported
    else if !partyExists s party then refused s acc 1
    else if s.safe.active then refused s acc 2
    else answer (effect s) .ok
  | _ =>
    if pathSilent s p then s
    else if pathClosed s p then answer s .unsupported
    else if !partyExists s party then refused s { path := p, off := ptyA party o } 1
    else ownerWrite s p (ptyA party o) data effect

end Sys2Proof.Machine
end

