-- ==== Sys2Proof/Machine/Memory.lean ====
section
/-! DEFINITION. Basket, hamper and cache: reads, writes, accumulate-on-write, poison, mirroring, zeroing fronts, and
the commands of spec/05_tile_memory.md (R177 to R229). -/

namespace Sys2Proof.Machine

open Sys2Proof

/-! ### The map of a tile (R177, R182) -/

/-- Cache size in units of 8 MiB, and the size of scratch. -/
def cacheUnits (s : State) (t : Nat) : Nat := s.field (tilA t 0x3000) 0 4
def scratchSize (s : State) (t : Nat) : Nat := 2 ^ 20 * (96 - 8 * cacheUnits s t)

/-- The offset is in basket scratch, in the hamper, or in either. -/
def inScratch (s : State) (t off : Nat) : Bool := off < scratchSize s t
def inHamper (off : Nat) : Bool := 0x100000000 ≤ off && off < 0x124000000
def mapped (s : State) (t off : Nat) : Bool := inScratch s t off || inHamper off

/-- Every line from `off` for `n` lines is mapped. -/
def mappedRun (s : State) (t off n : Nat) : Bool := (List.range n).all (fun i => mapped s t (off + 64 * i))

/-- Number of a line, for the poison marks. -/
def lineNo (t off : Nat) : Nat := tileAddr t off / 64

/-- Hamper byte address and granule of an offset (R184). -/
def granuleOf (off : Nat) : Nat := (off - 0x100000000) / 128
/-- Hamper channel and channel-local granule (R191). -/
def channelOf (off : Nat) : Nat := bits (off - 0x100000000) 12 5
def channelGranule (off : Nat) : Nat :=
  let h := off - 0x100000000
  (4096 * bits h 17 13 + h % 4096) / 128
/-- The offset of a granule of a channel (R191). -/
def granuleOffset (c g : Nat) : Nat := 0x100000000 + 2 ^ 17 * (g / 32) + 4096 * c + 128 * (g % 32)
/-- Basket bank and line within it (R180), and the offset of a line of a bank. -/
def bankOf (off : Nat) : Nat := bits off 6 7
def bankLine (off : Nat) : Nat := bits off 13 14
def bankOffset (b l : Nat) : Nat := 2 ^ 13 * l + 64 * b

/-! ### The zeroing front (R211, R212) -/

/-- The zeroing front has passed the line. -/
def frontPassed (s : State) (t off : Nat) : Bool :=
  let z := (s.tile t).zero
  if !z.active then true
  else if inHamper off then channelGranule off < z.hamper
  else bankLine off < z.basketFrom || z.basketTo ≤ bankLine off || bankLine off < z.basket

/-- A request touches the line. -/
def reqTouches (off : Nat) (r : HamperReq) : Bool := r.offset ≤ off && off < r.offset + 64 * r.lines

/-- An access to the line can proceed: the zeroing front has passed it (R212), and no request that reached its channel
before touches it (R198). -/
def lineReady (s : State) (t off : Nat) : Bool :=
  frontPassed s t off && !(inHamper off && (s.channel (32 * t + channelOf off)).waiting.any (reqTouches off))

/-- All lines of a list can be accessed. -/
def linesReady (s : State) (t : Nat) (offs : List Nat) : Bool := offs.all (lineReady s t)

/-! ### Errors (R216, R217, R226, R227) -/

/-- Record an uncorrectable error at a line: counter, `TIL_MEM_ERR_ADDR` and MEMORY_ERROR. -/
def recordUe (s : State) (t off : Nat) : State :=
  let hamper := inHamper off
  let s := s.count32 (tilA t (if hamper then 0x304C else 0x3044)) 1
  let s := s.setReg (tilA t 0x3058) (BitVec.ofNat 32 (off % 2 ^ 32 / 64 * 64))
  let s := s.setReg (tilA t 0x305C) (BitVec.ofNat 32 (bits off 32 2 + 4 * hamper.toNat + 8))
  post s 0x25 (srcTile t 7) (off % 2 ^ 34 + 2 ^ 34 * hamper.toNat) (tileParty s t)

/-- The line is poisoned (R214), and the error that stands in a line that is not. -/
def poisoned (s : State) (t off : Nat) : Bool := mget false s.poison (lineNo t off)
def standingError (s : State) (t off : Nat) : EccFinding := mget .clean s.badLine (lineNo t off)

/-- Errors arise in lines of a tile's memory; the next check of each line finds them. A poisoned line stays poisoned,
and an error that ECC cannot correct stays one. -/
def arise (s : State) (t : Nat) (errors : List (Nat × EccFinding)) : State :=
  errors.foldl (fun s e =>
    if e.2 = .clean || !mapped s t e.1 || poisoned s t e.1 || standingError s t e.1 = .uncorrectable then s
    else { s with badLine := mset .clean s.badLine (lineNo t e.1) e.2 }) s

/-- The check of a line as it is read (R216): whether its data is good, after the correction. A hamper line found
uncorrectable is written back poisoned; a basket line stays uncorrectable, a new finding each time. -/
def checkLine (s : State) (t off : Nat) : Bool × State :=
  if inHamper off && poisoned s t off then (false, s)
  else
    let k := lineNo t off
    match standingError s t off with
    | .clean => (true, s)
    | .correctable n =>
      let s := if inHamper off then s.count32 (tilA t 0x3048) 1 else s.count32 (tilA t 0x3040) n
      (true, { s with badLine := mset .clean s.badLine k .clean })
    | .uncorrectable =>
      if inHamper off then
        (false, recordUe { s with poison := mset false s.poison k true, badLine := mset .clean s.badLine k .clean } t off)
      else (false, recordUe s t off)

/-- A read of the line returns data. -/
def lineGood (s : State) (t off : Nat) : Bool := mapped s t off && (checkLine s t off).1

/-- The error of an access to lines of which one failed: an unmapped line is the address error of R178 and R189, any
other the memory error of R217. -/
def lineError (s : State) (t : Nat) (offs : List Nat) : Err := if offs.all (mapped s t) then .memory else .address

/-! ### The cache (R184 to R188) -/

/-- Set of a granule, in the state's table of sets. -/
def cacheSet (s : State) (t g : Nat) : Nat := 65536 * t + g % (4096 * max 1 (cacheUnits s t))

/-- Keep lines of a set. -/
def keepCount (ws : List CacheWay) : Nat := (ws.filter (·.keep)).length

/-- Drop the last element that satisfies a test. -/
def dropLast? (f : CacheWay → Bool) (ws : List CacheWay) : Option (List CacheWay) :=
  match ws.reverse.find? f with
  | some w => some ((ws.reverse.erase w).reverse)
  | none => none

/-- Make room for an allocation (R187); the list is most recently used first. Among the lines marked discard the
oldest is the least recently used one (DESIGN CHOICE, assumption log entry 149). -/
def evict (keep : Bool) (ws : List CacheWay) : List CacheWay :=
  if keep && 12 ≤ keepCount ws then
    ((dropLast? (fun w => w.keep && w.discard) ws).or (dropLast? (·.keep) ws)).getD ws
  else
    match dropLast? (·.discard) ws with
    | some ws' => ws'
    | none => if ws.length < 16 then ws else (dropLast? (fun w => !w.keep) ws).getD ws

/-- Effect of a read with a hint on the set of its granule, and whether it hit (R186, R187). A read by fetch-ahead
gives the mark for the line it allocates. A KEEP hit makes its line the most recently used one as well (DESIGN CHOICE,
assumption log entry 149). -/
def cacheRead (ws : List CacheWay) (g : Nat) (hint : Hint) (mark : Option (Nat × Word)) :
    Bool × List CacheWay :=
  match ws.find? (fun w => w.granule = g) with
  | some w =>
    let rest := ws.erase w
    let used := if mark.isSome then w else { w with prefetch := none }
    (true, match hint with
      | .normal => used :: rest
      | .stream => ws.map (fun x => if x = w then used else x)
      | .keep => { used with keep := w.keep || keepCount rest < 12 } :: rest
      | .discard => rest)
  | none =>
    (false, match hint with
      | .normal => { granule := g, prefetch := mark } :: evict false ws
      | .keep => { granule := g, keep := true, prefetch := mark } :: evict true ws
      | _ => ws)

/-- The channel of a granule moves data in a direction: a change of direction counts (R192, R226). -/
def turn (s : State) (t g : Nat) (write : Bool) : State :=
  let k := 32 * t + channelOf (0x100000000 + 128 * g)
  let c := s.channel k
  if c.lastWrite = write then s
  else (s.setChannel k { c with lastWrite := write }).count64 (tilA t 0x3098) 1

/-- A granule moves between the hamper and a requester; `count` is the counter of its kind (R226). -/
def moveGranule (s : State) (t count g : Nat) (write : Bool) : State := (turn s t g write).count64 (tilA t count) 1

/-- A hamper granule is read through the cache controller: the set changes and the counters rise (R185, R226). -/
def touchGranule (s : State) (t g : Nat) (hint : Hint) (mark : Option (Nat × Word) := none) : State :=
  if cacheUnits s t = 0 then moveGranule s t 0x3080 g false
  else
    let k := cacheSet s t g
    let (hit, ws) := cacheRead (mget [] s.cache k) g hint mark
    let s := { s with cache := mset [] s.cache k ws }
    if hit then s.count64 (tilA t 0x30A0) 1
    else moveGranule (s.count64 (tilA t 0x30A8) 1) t 0x3080 g false

/-- The hint of a code (R186). -/
def Hint.ofCode : Nat → Hint
  | 0 => .normal | 1 => .stream | 2 => .keep | _ => .discard

/-- Invalidate the cached copy of a granule (R185). -/
def dropGranule (s : State) (t g : Nat) : State :=
  if cacheUnits s t = 0 then s
  else
    let k := cacheSet s t g
    { s with cache := mset [] s.cache k ((mget [] s.cache k).filter (fun w => w.granule ≠ g)) }

/-- Invalidate a tile's whole cache. -/
def dropCache (s : State) (t : Nat) : State := { s with cache := mdrop (fun k => k / 65536 = t) s.cache }

/-- Mark the lines prefetched for the commands of a queue that a test takes as discard (R188). -/
def discardPrefetch (s : State) (t q : Nat) (ofTask : Word → Bool) : State :=
  { s with cache := s.cache.map (fun p =>
      if p.1 / 65536 = t then
        (p.1, p.2.map (fun w =>
          if w.prefetch.any (fun m => m.1 = q && ofTask m.2) then { w with discard := true, prefetch := none } else w))
      else p) }

/-! ### Reading lines (R179, R217) -/

/-- Read one line: its data, or nothing when it is unmapped (R178, R189) or the read is refused (R217). A refused line
gives no data even where the cache holds a clean copy of it (DESIGN CHOICE, assumption log entry 149). -/
def readLine (s : State) (t off : Nat) : Option Line × State :=
  if !mapped s t off then (none, s)
  else
    let (good, s) := checkLine s t off
    if good then (some (s.line (tileAddr t off)), s) else (none, s.count32 (tilA t 0x3054) 1)

/-- The granules of hamper lines in a list, each once for every time the list reaches it (R192, R239): the second line
of a granule right after the first comes with it. -/
def granuleRuns : Option Nat → List Nat → List Nat
  | _, [] => []
  | last, off :: offs =>
    if !inHamper off then granuleRuns none offs
    else if last.any (fun x => x + 64 = off && granuleOf x = granuleOf off) then granuleRuns (some off) offs
    else granuleOf off :: granuleRuns (some off) offs

/-- Read lines in order with a hint: the data of each, and the state afterwards. -/
def readLines (s : State) (t : Nat) (offs : List Nat) (hint : Hint) : List (Option Line) × State :=
  let s := (granuleRuns none offs).foldl (fun s g => touchGranule s t g hint) s
  offs.foldl (fun (acc : List (Option Line) × State) off =>
    let (l, s) := readLine acc.2 t off
    (acc.1 ++ [l], s)) ([], s)

/-! ### Mirror windows (R561 to R566, R577) -/

def mirA (t w o : Nat) : Nat := tilA t (0x8000 + 0x20 * w + o)
/-- Key of a mirror window in the state. -/
def mirKey (t w : Nat) : Nat := 4 * t + w
/-- First offset and number of lines of a window, and its role. -/
def mirBase (s : State) (t w : Nat) : Nat := 0x100000000 + 4096 * s.field (mirA t w 4) 0 18
def mirLines (s : State) (t w : Nat) : Nat := 64 * s.field (mirA t w 8) 0 18
def mirReceive (s : State) (t w : Nat) : Bool := s.field (mirA t w 0) 1 1 = 1
def mirPeer (s : State) (t w : Nat) : Nat := s.field (mirA t w 0xC) 0 14

/-- The offset lies in a window. -/
def inWindow (s : State) (t w off : Nat) : Bool :=
  mirBase s t w ≤ off && off < mirBase s t w + 64 * mirLines s t w

/-- The stash region of a tile (R207). -/
def inStash (s : State) (t off : Nat) : Bool :=
  let b := s.field (tilA t 0x3008) 0 18
  let n := s.field (tilA t 0x300C) 0 18
  let k := (off - 0x100000000) / 4096
  inHamper off && b ≤ k && k < b + n

/-- Windows of the module that are INVALID, by key. -/
def invalidWindows (s : State) : List Nat :=
  (s.mirrors.filter (fun p => p.2.state = 3)).map (·.1)

/-- MIRROR_LOST follows the windows that are INVALID (R566). -/
def mirrorLevel (s : State) : State :=
  match invalidWindows s with
  | [] => setLevel s 0x73 (srcBridge 0 1) none
  | k :: ks =>
    let t := k / 4
    let w := k % 4
    setLevel s 0x73 (srcBridge 0 1) (some
      { party := tileParty s t,
        payload := (ks.length + 1) % 65536 + 2 ^ 16 * t + 2 ^ 22 * w + 2 ^ 24 * (mirReceive s t w).toNat
          + 2 ^ 25 * (s.mirror k).cause + 2 ^ 48 * mirPeer s t w })

/-- A window that forwards, or that a fill is coming into, becomes INVALID; any other keeps its state (R564, R565). -/
def mirrorInvalid (s : State) (t w cause : Nat) : State :=
  let m := s.mirror (mirKey t w)
  if m.state = 1 || m.state = 4 || (m.state = 2 && !mirReceive s t w) then
    mirrorLevel (s.setMirror (mirKey t w) { m with state := 3, cause })
  else s

/-- The mirror packet of a line (R561). -/
def mirrorPacket (s : State) (t w off : Nat) (l : Line) : Packet :=
  { ty := tyWrite, vc := 3, dstModule := mirPeer s t w, dstTile := t, party := tileParty s t,
    addr := tileAddr t (0x100000000 + 4096 * s.field (mirA t w 0x10) 0 18 + (off - mirBase s t w)), payload := [l] }

/-- A write has been performed at a line: a source window forwards it, a receive window notes it (R561, R564,
R565). -/
def mirrorWrite (s : State) (t off : Nat) (who : MirrorOwner) : State :=
  if !inHamper off then s
  else
    s.each (List.range 4) (fun w s =>
      let m := s.mirror (mirKey t w)
      if m.state = 0 || m.state = 3 || !inWindow s t w off then s
      else if m.state = 4 then s.setMirror (mirKey t w) { m with idle := s.now }
      else if mirReceive s t w || inStash s t off then s
      else if m.state = 1 && m.front ≤ (off - mirBase s t w) / 64 then s
      else sendPacket (s.count64 (tilA t 0x4048) 1) (.tile (Fin.ofNat 64 t)) (.mirror t w false who)
        (mirrorPacket s t w off (s.line (tileAddr t off))))

/-- A mirror copy of this owner is not yet acknowledged (R562). -/
def mirrorPending (s : State) (who : MirrorOwner) : Bool :=
  s.fabric.sent.any (fun o => match o.purpose with
    | .mirror _ _ _ w => w = who
    | _ => false) ||
  s.fabric.unsent.any (fun u => match u.purpose with
    | .mirror _ _ _ w => w = who
    | _ => false)

/-! ### Writing lines (R179, R185, R208, R217) -/

/-- Raise the stash high-water mark (R208). -/
def stashMark (s : State) (t off : Nat) : State :=
  if inStash s t off then
    let k := (off - 0x100000000) / 4096 - s.field (tilA t 0x3008) 0 18 + 1
    if s.field (tilA t 0x3010) 0 18 < k then s.setReg (tilA t 0x3010) (BitVec.ofNat 32 k) else s
  else s

/-- Write one line: its data replaces what was there, poison included (R217). An unmapped line takes nothing (R178,
R189). -/
def writeLine (s : State) (t off : Nat) (l : Line) (who : MirrorOwner := .nobody) : State :=
  if !mapped s t off then s
  else
    let s := s.setLine (tileAddr t off) l
    let s := { s with poison := mset false s.poison (lineNo t off) false,
                      badLine := mset .clean s.badLine (lineNo t off) .clean }
    mirrorWrite (stashMark s t off) t off who

/-- Granules of the hamper that a list of lines touches are written: `count` is their counter (R226). -/
def moveOut (s : State) (t count : Nat) (offs : List Nat) : State :=
  (granuleRuns none offs).foldl (fun s g => moveGranule s t count g true) s

/-- Write lines, and count the granules written. -/
def writeLines (s : State) (t : Nat) (ls : List (Nat × Line)) (who : MirrorOwner := .nobody) : State :=
  ls.foldl (fun s p => writeLine s t p.1 p.2 who) (moveOut s t 0x3088 (ls.map (·.1)))

/-- Element sums of an accumulate-on-write, in KF32 or KF16, rounded by RNE (R202). -/
def accElem (kf16 : Bool) (old new : Nat) : Num × Nat :=
  let f := if kf16 then Fmt.kf16 else Fmt.kf32
  let r := (decodeNum f old).add (decodeNum f new)
  let c := (encodeNum f .rne 0 r).1
  (decodeNum f c, c)

/-- The sums of the elements of two lines, with the sticky flags they set (R202, R205). -/
def accSums (kf16 : Bool) : Nat → Nat → Nat → Nat × Nat
  | 0, _, _ => (0, 0)
  | n + 1, old, new =>
    let w := if kf16 then 2 ^ 16 else 2 ^ 32
    let (v, c) := accElem kf16 (old % w) (new % w)
    let (rest, flags) := accSums kf16 n (old / w) (new / w)
    let flag := match v with
      | .nan _ => 1
      | .inf false => 2
      | .inf true => 4
      | _ => 0
    (c + w * rest, flags ||| flag)

/-- Accumulate a line: its stored value is read, checked, added to and written in one step (R201 to R205); refused on
a poisoned or uncorrectable line (R217), and outside the hamper (R201). -/
def accLine (s : State) (t off : Nat) (kf16 : Bool) (l : Line) (who : MirrorOwner := .nobody) : Bool × State :=
  if !inHamper off then (false, s)
  else
    match readLine s t off with
    | (none, s) => (false, s)
    | (some old, s) =>
      let (v, flags) := accSums kf16 (if kf16 then 32 else 16) old.toNat l.toNat
      let s := s.setReg (tilA t 0x3070) (s.reg (tilA t 0x3070) ||| BitVec.ofNat 32 flags)
      let s := dropGranule (s.setLine (tileAddr t off) (BitVec.ofNat 512 v)) t (granuleOf off)
      (true, mirrorWrite (stashMark s t off) t off who)

/-- Accumulate lines in order, and count the granules accumulated; the result is whether every line was taken. -/
def accLines (s : State) (t : Nat) (kf16 : Bool) (ls : List (Nat × Line)) (who : MirrorOwner := .nobody) :
    Bool × State :=
  let s := moveOut s t 0x3090 ((ls.map (·.1)).filter (lineGood s t))
  ls.foldl (fun (acc : Bool × State) p =>
    let (ok, s) := accLine acc.2 t p.1 kf16 p.2 who
    (acc.1 && ok, s)) (true, s)

/-! ### Scrub (R218, R219) -/

/-- A zeroing is under way in the hamper channels of a tile, or in its basket banks (R212). -/
def hamperZeroes (z : Zeroing) : Bool := z.active && decide (z.hamper < 147456)
def basketZeroes (z : Zeroing) : Bool := z.active && decide (z.basket < z.basketTo)

/-- SCRUB_UNIT (R218): the next granule of a hamper channel, or the next line of a basket bank, is read, checked
and corrected; a pass over all of a tile's channels or banks is counted when the last unit of the last is done. A
channel or bank that zeroes does not scrub (R212). `errors` are errors that have arisen in lines of the tile. -/
def execScrubUnit (t : Fin 64) (place : ScrubPlace) (errors : List (Nat × EccFinding)) (s : State) :
    Host.Outcome State Fault Refusal :=
  let z := (s.tile t.val).zero
  if !active s then .next s
  else
    match place with
    | .hamper c =>
      if hamperZeroes z then .next s
      else
        let k := 32 * t.val + c.val
        let g := (s.channel k).scrub
        let off := granuleOffset c.val g
        let s := (checkLine (checkLine (arise s t.val errors) t.val off).2 t.val (off + 64)).2
        let s := s.setChannel k { s.channel k with scrub := (g + 1) % 147456 }
        .next (if g = 147455 then s.count32 (tilA t.val 0x3060) 1 else s)
    | .basket b =>
      if basketZeroes z then .next s
      else
        let l := mget 0 (s.tile t.val).basketScrub b.val
        let s := (checkLine (arise s t.val errors) t.val (bankOffset b.val l)).2
        let s := s.modTile t.val (fun x => { x with basketScrub := mset 0 x.basketScrub b.val ((l + 1) % 12288) })
        .next (if l = 12287 then s.count32 (tilA t.val 0x3064) 1 else s)

/-! ### Zeroing (R210 to R213) -/

/-- `TIL_ZERO_STATUS` of a zeroing under way (R225). -/
def zeroStatus (z : Zeroing) : Nat :=
  if z.active then
    1 + 2 * (if z.basket < z.basketTo then 1 else 0) + 256 * (min z.hamper 147456 / 32)
  else 256 * 4608

/-- Store the status of a tile's zeroing. -/
def showZero (s : State) (t : Nat) : State :=
  s.setReg (tilA t 0x3020) (BitVec.ofNat 32 (zeroStatus (s.tile t).zero))

/-- Start a zeroing of a tile's basket and hamper (R210). -/
def startZero (s : State) (t : Nat) : State :=
  showZero (s.modTile t (fun x => { x with zero :=
    { active := true, began := s.now, paces := 0, hamper := 0, basket := 0, basketFrom := 0, basketTo := 12288 } })) t

/-- Start a zeroing of basket lines from `lo` up to `hi` of every bank (R189, R210). -/
def startZeroBasket (s : State) (t lo hi : Nat) : State :=
  let z := (s.tile t).zero
  if z.active then
    showZero (s.modTile t (fun x => { x with zero :=
      { z with basketFrom := min lo z.basketFrom, basketTo := max hi z.basketTo,
               basket := min lo z.basket } })) t
  else
    showZero (s.modTile t (fun x => { x with zero :=
      { active := true, began := s.now, paces := 0, hamper := 147456, basket := lo, basketFrom := lo,
        basketTo := hi } })) t

/-- The tile and offset of a byte of memory. -/
def byteTile (a : Nat) : Nat := a / 2 ^ 34
def byteOff (a : Nat) : Nat := a % 2 ^ 34

/-- A hamper offset lies in the granules from `lo` up to `hi` of its channel; a basket offset in the lines from
`lo` up to `hi` of its bank. -/
def hamperBetween (lo hi off : Nat) : Bool := inHamper off && lo ≤ channelGranule off && channelGranule off < hi
def basketBetween (lo hi off : Nat) : Bool := off < 0x6000000 && lo ≤ bankLine off && bankLine off < hi

/-- Clear the contents and marks of a tile's memory where a test of the offset holds. -/
def clearWhere (s : State) (t : Nat) (f : Nat → Bool) : State :=
  { s with mem := mdrop (fun a => byteTile a = t && f (byteOff a)) s.mem,
           poison := mdrop (fun k => k / 2 ^ 28 = t && f (k % 2 ^ 28 * 64)) s.poison,
           badLine := mdrop (fun k => k / 2 ^ 28 = t && f (k % 2 ^ 28 * 64)) s.badLine }

/-- ZEROING_STEP (R211): `paces` granules more of every channel and lines of every bank; a pace takes 64 hamper
cycles, 64 ns, and 64 core cycles in the basket. -/
def execZeroingStep (t : Fin 64) (paces : Nat) (s : State) : Host.Outcome State Fault Refusal :=
  let z := (s.tile t.val).zero
  if !z.active || !s.power.pwrgd then .next s
  else
    let n := z.paces + paces
    let s := s.passTo (z.began + 64 * n)
    let h := min 147456 (z.hamper + paces)
    let b := min z.basketTo (max z.basket (z.basketFrom + n * coreMHz s / 1000))
    let s := clearWhere s t.val (hamperBetween z.hamper h)
    let s := clearWhere s t.val (basketBetween z.basket b)
    let s := s.modTile t.val (fun x => { x with zero :=
      { z with paces := n, hamper := h, basket := b,
               active := decide (h < 147456) || decide (b < z.basketTo) } })
    .next (showZero s t.val)

/-! ### Registers of the memory (R223, R224, R227) -/

/-- Fold the memory registers of a tile: the stash length is clamped against its base, and a new cache size
invalidates the cache (R189, R207, R223). -/
def foldMem (s : State) (t : Nat) : State :=
  let old := cacheUnits s t
  let s := ((s.foldReg (tilA t 0x3000)).foldReg (tilA t 0x3008)).foldReg (tilA t 0x300C)
  let b := s.field (tilA t 0x3008) 0 18
  let n := s.field (tilA t 0x300C) 0 18
  let s := if 147456 < b + n then
      reportClamp (s.setField (tilA t 0x300C) 0 18 (147456 - b)) 0 t 0x300C 0 n (147456 - b)
    else s
  let new := cacheUnits s t
  if new = old then s
  else
    let s := dropCache s t
    if new < old then startZeroBasket s t ((96 - 8 * old) * 128) ((96 - 8 * new) * 128)
    else clearWhere s t (basketBetween ((96 - 8 * new) * 128) ((96 - 8 * old) * 128))

/-- STASH_HWM_CLEAR (R224). -/
def execStashHwmClear (p : Path) (t : Fin 64) (s : State) : Host.Outcome State Fault Refusal :=
  .next (ownerWrite s p (tilA t.val 0x3010) 0x80000000 (fun s => s.setReg (tilA t.val 0x3010) 0))

/-- Clear VALID and the offset fields; MEM keeps its value (R227). -/
def clearErrAddr (s : State) (t : Nat) : State :=
  (s.setReg (tilA t 0x3058) 0).setReg (tilA t 0x305C) (s.reg (tilA t 0x305C) &&& 4)

/-- MEM_ERR_ADDR_CLEAR (R227). -/
def execMemErrAddrClear (p : Path) (t : Fin 64) (s : State) : Host.Outcome State Fault Refusal :=
  .next (ownerWrite s p (tilA t.val 0x305C) 0x80000000 (fun s => clearErrAddr s t.val))

end Sys2Proof.Machine
end

