-- ==== Sys2Proof/Machine/Operands.lean ====
section
/-! DEFINITION. Operand forms: descriptors, their checks, the walk of their elements, and block-scaled operands
(spec/06_data_movement.md R230 to R237, spec/02 R68 to R74). -/

namespace Sys2Proof.Machine

open Sys2Proof

/-! ### Descriptors (R230, R231) -/

/-- A descriptor as read from its slot. -/
structure Desc where
  slot : Nat
  base : Nat
  elem : Nat
  hint : Nat
  acc  : Bool
  d0   : Nat
  d1   : Nat
  d2   : Nat
  d3   : Nat
  s1   : Nat
  s2   : Nat
  s3   : Nat
  tag  : Nat
deriving DecidableEq, Repr

/-- The fields of a descriptor line (R230). -/
def descOf (slot : Nat) (l : Line) : Desc :=
  let f := lineField l
  { slot, base := f 0 0 40, elem := f 4 8 4, hint := f 4 12 2, acc := f 4 14 1 = 1,
    d0 := f 8 0 24, d1 := f 0xC 0 24, d2 := f 0x10 0 24, d3 := f 0x14 0 24,
    s1 := f 0x18 0 32, s2 := f 0x1C 0 32, s3 := f 0x20 0 32, tag := f 0x24 0 16 }

/-- Element kinds of R231 beyond the formats of R55. -/
def kindScale : Nat := 6
def kindEscape : Nat := 7
def kindByte : Nat := 8

/-- Element size in bits; 0 for a reserved code (R231). -/
def elemBits (k : Nat) : Nat := [32, 16, 8, 8, 4, 2, 8, 64, 8].getD k 0

/-- Tile and offset of the base (R5). -/
def descTile (d : Desc) : Nat := d.base / 2 ^ 34
def descOff (d : Desc) : Nat := d.base % 2 ^ 34

/-- Number of elements, of runs, bytes of a run, lines of a run, and elements in a line (R232, R233). -/
def descCount (d : Desc) : Nat := d.d0 * d.d1 * d.d2 * d.d3
def descRuns (d : Desc) : Nat := d.d1 * d.d2 * d.d3
def runBytes (d : Desc) : Nat := (d.d0 * elemBits d.elem + 7) / 8
def runLines (d : Desc) : Nat := (runBytes d + 63) / 64
def lineElemsOf (d : Desc) : Nat := 512 / max 1 (elemBits d.elem)

/-- A stride counts only for a dimension larger than 1 (R234). -/
def strideUse (size stride : Nat) : Nat := if 1 < size then stride else 0

/-- Offset of run `r` in its tile (R232). -/
def runStart (d : Desc) (r : Nat) : Nat :=
  descOff d + r % d.d1 * strideUse d.d1 d.s1 + r / d.d1 % d.d2 * strideUse d.d2 d.s2
    + r / (d.d1 * d.d2) * strideUse d.d3 d.s3

/-- Lines of the walk, and the offset of line `k` of it. -/
def descLines (d : Desc) : Nat := descRuns d * runLines d
def lineAt (d : Desc) (k : Nat) : Nat := runStart d (k / runLines d) + 64 * (k % runLines d)

/-- Line of the walk that holds element `n`, and the element's place in it. -/
def elemLine (d : Desc) (n : Nat) : Nat := n / d.d0 * runLines d + n % d.d0 / lineElemsOf d
def elemPlace (d : Desc) (n : Nat) : Nat := n % d.d0 % lineElemsOf d

/-- First element of line `k` of the walk, and how many elements it holds. -/
def lineFirst (d : Desc) (k : Nat) : Nat := k / runLines d * d.d0 + k % runLines d * lineElemsOf d
def lineHolds (d : Desc) (k : Nat) : Nat := min (lineElemsOf d) (d.d0 - k % runLines d * lineElemsOf d)

/-- All line offsets of the walk. -/
def walkLines (d : Desc) : List Nat := (List.range (descLines d)).map (lineAt d)

/-! ### Checks (R236, R237) -/

/-- What a command asks of a descriptor: it is written, the kinds it may have, the tile it must name, the count it
must hold, and whether it lies in another tile or module (R241). -/
structure Need where
  write  : Bool := false
  kinds  : List Nat := [0, 1, 2, 3, 4, 5, 6, 7, 8]
  tile   : Option Nat := none
  count  : Option Nat := none
  remote : Bool := false

/-- The mapped region that holds an offset (R177): its first byte and the byte after its last. -/
def regionOf (s : State) (t : Nat) (remote : Bool) (off : Nat) : Option (Nat × Nat) :=
  if inScratch s t off then some (0, scratchSize s t)
  else if inHamper off then some (0x100000000, 0x124000000)
  else if remote && 0x200000000 ≤ off then some (0x200000000, 2 ^ 34)
  else none

/-- The first error of R236 that applies to a descriptor of a command of tile `t`. -/
def descError (s : State) (t : Nat) (w : Need) (d : Desc) : Option Err :=
  let last := descOff d + (d.d1 - 1) * strideUse d.d1 d.s1 + (d.d2 - 1) * strideUse d.d2 d.s2
    + (d.d3 - 1) * strideUse d.d3 d.s3 + runBytes d
  if 8 < d.elem || (w.write && d.acc && 1 < d.elem) || !w.kinds.contains d.elem then some .encoding
  else if d.d0 = 0 || d.d1 = 0 || d.d2 = 0 || d.d3 = 0 then some .shape
  else if (d.elem = 4 || d.elem = 5) && d.d0 % 32 ≠ 0 then some .shape
  else if d.base % 64 ≠ 0 || strideUse d.d1 d.s1 % 64 ≠ 0 || strideUse d.d2 d.s2 % 64 ≠ 0 ||
      strideUse d.d3 d.s3 % 64 ≠ 0 then some .align
  else if w.write && ((1 < d.d1 && d.s1 = 0) || (1 < d.d2 && d.s2 = 0) || (1 < d.d3 && d.s3 = 0)) then some .shape
  else if w.tile.any (fun x => descTile d ≠ x) then some .address
  else
    match regionOf s t w.remote (descOff d) with
    | none => some .address
    | some (_, top) =>
      if top < last || (w.write && d.acc && descOff d < 0x100000000) then some .address
      else
        match w.count with
        | some n => if descCount d = n then none else some .shape
        | none => none

/-- Read the descriptor in a slot: the copy that fetch-ahead made, or its line now (R235). A slot outside scratch is
an address error (R183), a poisoned one a memory error (R217). -/
def readDesc (s : State) (t : Nat) (copies : SMap (Option Line)) (field slot : Nat) :
    Except CmdError Desc × State :=
  if !inScratch s t (64 * slot) then (.error { err := .address, slot, field }, s)
  else
    match mget none copies slot with
    | some l => (.ok (descOf slot l), s)
    | none =>
      match readLine s t (64 * slot) with
      | (some l, s) => (.ok (descOf slot l), s)
      | (none, s) => (.error { err := .memory, slot, field }, s)

/-- An error that a descriptor raises, with its position among the command's slot fields (R281). -/
def descFault (d : Desc) (field : Nat) (err : Err) : CmdError := { err, slot := d.slot, tag := d.tag, field }

/-- The line of a descriptor slot as the command uses it: fetch-ahead's copy, or the slot now (R235). -/
def slotLine (s : State) (t : Nat) (copies : SMap (Option Line)) (slot : Nat) : Line :=
  (mget none copies slot).getD (s.line (tileAddr t (64 * slot)))

/-- Read and check a descriptor. -/
def useDesc (s : State) (t : Nat) (copies : SMap (Option Line)) (field slot : Nat) (w : Need) :
    Except CmdError Desc × State :=
  match readDesc s t copies field slot with
  | (.error e, s) => (.error e, s)
  | (.ok d, s) =>
    match descError s t w d with
    | some e => (.error { err := e, slot, tag := d.tag, field }, s)
    | none => (.ok d, s)

/-! ### Elements (R69, R232, R233) -/

/-- Element `i` of a line that holds elements of `eb` bits. -/
def lineElem (eb : Nat) (l : Line) (i : Nat) : Nat := bits l.toNat (eb * i) eb

/-- A line that holds the elements of a list, pad as zero. -/
def packLine (eb : Nat) : List Nat → Nat
  | [] => 0
  | x :: xs => x % 2 ^ eb + 2 ^ eb * packLine eb xs

/-- The lines of the walk that hold `n` elements from element `first` on. -/
def elemOffsets (d : Desc) (first n : Nat) : List Nat :=
  let k0 := elemLine d first
  (List.range (elemLine d (first + n - 1) + 1 - k0)).map (fun i => lineAt d (k0 + i))

/-- Load `n` elements from element `first` of a descriptor under a hint, or the error of a line that cannot be read
(R189, R217). -/
def loadHinted (s : State) (t : Nat) (d : Desc) (first n : Nat) (hint : Hint) : Except Err (List Nat) × State :=
  if n = 0 then (.ok [], s)
  else
    let offs := elemOffsets d first n
    let (ls, s) := readLines s t offs hint
    if ls.all (·.isSome) then
      (.ok ((List.range n).map (fun i =>
        lineElem (elemBits d.elem) ((ls.getD (elemLine d (first + i) - elemLine d first) none).getD 0)
          (elemPlace d (first + i)))), s)
    else (.error (lineError s t offs), s)

/-- Load elements under the descriptor's own hint (R186). -/
def loadElems (s : State) (t : Nat) (d : Desc) (first n : Nat) : Except Err (List Nat) × State :=
  loadHinted s t d first n (Hint.ofCode d.hint)

/-- Lines `k` to `k + n − 1` of a destination, filled from element codes by their numbers. -/
def fillLines (d : Desc) (k n : Nat) (code : Nat → Nat) : List (Nat × Line) :=
  (List.range n).map (fun i =>
    (lineAt d (k + i), BitVec.ofNat 512 (packLine (elemBits d.elem)
      ((List.range (lineHolds d (k + i))).map (fun j => code (lineFirst d (k + i) + j))))))

/-- Write lines through a descriptor: plain, or accumulated when ACC is set (R233); the result is the error of a line
that the memory did not take (R189, R217). -/
def storeLines (s : State) (t : Nat) (d : Desc) (ls : List (Nat × Line)) (who : MirrorOwner) : Option Err × State :=
  let offs := ls.map (·.1)
  if d.acc then
    let (ok, s) := accLines s t (d.elem = 1) ls who
    (if ok then none else some (lineError s t offs), s)
  else (if offs.all (mapped s t) then none else some .address, writeLines s t ls who)

/-- The lines of a descriptor can all be accessed past the zeroing front (R212). -/
def descReady (s : State) (t : Nat) (d : Desc) : Bool := linesReady s t (walkLines d)

/-! ### Elements written in place -/

/-- The code that leaves a destination element as it is: −0 to be accumulated (R201), nothing otherwise. -/
def keepCode (d : Desc) : Nat := if d.acc then 2 ^ (elemBits d.elem - 1) else 0

/-- Lines of the walk that hold `n` elements from element `first`: the first line and how many. -/
def spanLines (d : Desc) (first n : Nat) : Nat × Nat :=
  if n = 0 then (0, 0)
  else (elemLine d first, elemLine d (first + n - 1) + 1 - elemLine d first)

/-- The code for element `k` of a destination that takes `codes` from element `first`. -/
def placedCode (d : Desc) (first : Nat) (codes : List Nat) (k : Nat) : Nat :=
  if first ≤ k && k < first + codes.length then codes.getD (k - first) 0 else keepCode d

/-- The lines that carry `codes` to elements from `first` on, `codes` filling whole lines of their own. -/
def placedLines (d : Desc) (first : Nat) (codes : List Nat) : List (Nat × Line) :=
  let sp := spanLines d first codes.length
  fillLines d sp.1 sp.2 (placedCode d first codes)

/-- The lines of elements `first` to `first + n − 1`, in which every other element keeps what memory holds; an
accumulated line holds −0 there already. -/
def keepOthers (s : State) (t : Nat) (d : Desc) (first n : Nat) (ls : List (Nat × Line)) : List (Nat × Line) :=
  let sp := spanLines d first n
  let eb := elemBits d.elem
  ls.map (fun x =>
    match (List.range sp.2).find? (fun i => lineAt d (sp.1 + i) = x.1) with
    | none => x
    | some i =>
      if d.acc then x
      else
        let old := s.line (tileAddr t x.1)
        let base := lineFirst d (sp.1 + i)
        (x.1, BitVec.ofNat 512 (packLine eb ((List.range (lineHolds d (sp.1 + i))).map (fun j =>
          if first ≤ base + j && base + j < first + n then lineElem eb x.2 j else lineElem eb old j)))))

/-- Write codes to elements from `first` on in the tile itself. -/
def storeCodes (s : State) (t : Nat) (d : Desc) (first : Nat) (codes : List Nat) (who : MirrorOwner) : Option Err × State :=
  storeLines s t d (keepOthers s t d first codes.length (placedLines d first codes)) who

/-- The lines of a range of elements can be accessed. -/
def rangeReady (s : State) (t : Nat) (d : Desc) (first n : Nat) : Bool :=
  let sp := spanLines d first n
  linesReady s t ((List.range sp.2).map (fun i => lineAt d (sp.1 + i)))

/-! ### Operands of a compute command (R68, R131, R236) -/

/-- An operand as checked: one descriptor, or codes, scales and escapes of a block-scaled tensor. -/
structure Operand where
  fmt   : Fmt
  codes : Desc
  scale : Option Desc := none
  esc   : Option Desc := none
deriving DecidableEq, Repr

/-- The element kind of a format (R231). -/
def Fmt.kind : Fmt → Nat
  | .kf32 => 0 | .kf16 => 1 | .kf8 => 2 | .kg8 => 3 | .k4 => 4 | .k2 => 5

/-- Check the slots of an operand of format `f` and `count` elements, in slot order; `noEsc` names no escape
table. The position among the slot fields stays that of the first slot. -/
def useOperand (s : State) (t : Nat) (copies : SMap (Option Line)) (field slot : Nat) (f : Fmt) (write noEsc : Bool)
    (count : Option Nat) : Except CmdError Operand × State :=
  match useDesc s t copies field slot { write, kinds := [f.kind], tile := some t, count } with
  | (.error e, s) => (.error e, s)
  | (.ok d, s) =>
    if f.isBlock then
      let blocks := some (descCount d / 32)
      match useDesc s t copies field (slot + 1) { write, kinds := [kindScale], tile := some t, count := blocks } with
      | (.error e, s) => (.error e, s)
      | (.ok sc, s) =>
        if noEsc then (.ok { fmt := f, codes := d, scale := some sc }, s)
        else
          match useDesc s t copies field (slot + 2)
              { write, kinds := [kindEscape], tile := some t, count := blocks } with
          | (.error e, s) => (.error e, s)
          | (.ok es, s) => (.ok { fmt := f, codes := d, scale := some sc, esc := some es }, s)
    else (.ok { fmt := f, codes := d }, s)

/-- A descriptor, and an operand of format `f`, as the copies hold them that a command took at its issue; they were
checked then (R235). -/
def heldDesc (copies : SMap (Option Line)) (slot : Nat) : Option Desc := (mget none copies slot).map (descOf slot)
def heldOperand (copies : SMap (Option Line)) (slot : Nat) (f : Fmt) (noEsc : Bool) : Option Operand :=
  (heldDesc copies slot).map (fun d =>
    if f.isBlock then
      { fmt := f, codes := d, scale := heldDesc copies (slot + 1),
        esc := if noEsc then none else heldDesc copies (slot + 2) }
    else { fmt := f, codes := d })

/-- The error of an operand whose data cannot be moved. -/
def operandError (err : Err) (o : Operand) (field : Nat) : CmdError := descFault o.codes field err

/-- The decoded values of `n` elements of an operand from element `first` (R55 to R74). -/
def loadValues (s : State) (t : Nat) (o : Operand) (first n : Nat) : Except Err (List Num) × State :=
  match loadElems s t o.codes first n with
  | (.error e, s) => (.error e, s)
  | (.ok cs, s) =>
    match o.scale with
    | none => (.ok (cs.map (decodeNum o.fmt)), s)
    | some sc =>
      let b0 := first / 32
      let nb := (first + n + 31) / 32 - b0
      match loadElems s t sc b0 nb with
      | (.error e, s) => (.error e, s)
      | (.ok ss, s) =>
        let (es, s) : Except Err (List Nat) × State := match o.esc with
          | none => (.ok [], s)
          | some e => loadElems s t e b0 nb
        match es with
        | .error e => (.error e, s)
        | .ok es =>
          (.ok ((List.range n).map (fun i =>
            let b := (first + i) / 32 - b0
            decodeBlockElem o.fmt (ss.getD b 0) (Escapes.ofBits (es.getD b 0)) ((first + i) % 32) (cs.getD i 0))), s)

/-- Every line of an operand can be accessed. -/
def operandReady (s : State) (t : Nat) (o : Operand) : Bool :=
  descReady s t o.codes &&
  (match o.scale with
    | some d => descReady s t d
    | none => true) &&
  (match o.esc with
    | some d => descReady s t d
    | none => true)

end Sys2Proof.Machine
end

