-- ==== Sys2Proof/Machine/Passes.lean ====
section
/-! DEFINITION. Matrix passes: their fields, their vectors, the extents of their banks, and admission into a bank
(spec/03_matrix_engine.md R103 to R131, spec/04 R140 to R147). -/

namespace Sys2Proof.Machine

open Sys2Proof

/-- Number of a bank in the state: bank `b` of engine `i` (4 × tile + engine). -/
def bankNo (i b : Nat) : Nat := 2 * i + b

/-! ### Fields (R130) -/

def mpEngine (l : Line) : Nat := lineField l 0x10 0 2
def mpTrans (l : Line) : Bool := lineField l 0x10 2 1 = 1
def mpKeep (l : Line) : Bool := lineField l 0x10 3 1 = 1
def mpInit (l : Line) : Nat := lineField l 0x10 5 2
def mpAccRnd (l : Line) : Nat := lineField l 0x10 7 2
def mpSFmt (l : Line) : Nat := lineField l 0x10 9 4
def mpMFmt (l : Line) : Nat := lineField l 0x10 13 4
def mpTaps (l : Line) : Nat := lineField l 0x10 17 2
def mpSNoEsc (l : Line) : Bool := lineField l 0x10 19 1 = 1
def mpMNoEsc (l : Line) : Bool := lineField l 0x10 20 1 = 1
def mpTaste (l : Line) : Bool := lineField l 0x10 21 1 = 1
def mpVectors (l : Line) : Nat := lineField l 0x14 0 10
def mpRows (l : Line) : Nat := lineField l 0x14 10 9
def mpCols (l : Line) : Nat := lineField l 0x14 19 8
def mpAccRow (l : Line) : Nat := lineField l 0x18 0 10
def mpIndex (l : Line) : Nat := lineField l 0x18 16 16
def mpTag (l : Line) : Nat := lineField l 0x1C 0 16
def mpSeed (l : Line) : Nat := lineField l 0x1C 16 4
def mpWatch (l : Line) : Nat := lineField l 0x1C 24 8
def mpSSlot (l : Line) : Nat := lineField l 0x20 0 24
def mpMSlot (l : Line) : Nat := lineField l 0x24 0 24
def mpTensor (l : Line) : Nat := lineField l 0x28 0 24
def mpOriginRow (l : Line) : Nat := lineField l 0x2C 0 32
def mpOriginCol (l : Line) : Nat := lineField l 0x30 0 32
def mpDrain (l : Line) : Bool := lineField l 0x34 0 1 = 1
def mpDrainFmt (l : Line) : Nat := lineField l 0x34 1 4
def mpDrainRnd (l : Line) : Nat := lineField l 0x34 5 2
def mpDrainEsc (l : Line) : Nat := lineField l 0x34 7 3
def mpFuseNorm (l : Line) : Bool := lineField l 0x34 10 1 = 1
def mpFuseSum (l : Line) : Bool := lineField l 0x34 11 1 = 1
def mpOutSlot (l : Line) : Nat := lineField l 0x38 0 24
def mpStatSlot (l : Line) : Nat := lineField l 0x3C 0 24

/-- A pass that only drains (R133). -/
def drainOnly (l : Line) : Bool := mpVectors l = 0 && mpDrain l

/-- L: length of the reduction (R105, R106). -/
def mpLen (l : Line) : Nat := if mpTrans l then mpCols l else mpRows l
/-- N: results of a vector, the width of R141. -/
def mpWidth (l : Line) : Nat := if mpTrans l then mpRows l else mpCols l
/-- C: elements of an input row (R123). -/
def mpSegment (l : Line) : Nat := mpLen l / max 1 (mpTaps l)
/-- Input rows that the pass reads (R123). -/
def mpInputs (l : Line) : Nat := mpVectors l + mpTaps l - 1

/-- Operand pairs and their lanes per broadcast cycle (R103); KF16 takes four cycles a vector. -/
def pairLanes (l : Line) : Option Nat :=
  match mpSFmt l, mpMFmt l with
  | 2, 2 => some 1
  | 4, 4 => some 2
  | 5, 4 => some 4
  | 1, 1 => some 1
  | _, _ => none

/-- The taster acts on the pass (R162). -/
def tasted (l : Line) : Bool := !drainOnly l && mpTaste l && mpMFmt l = 4

/-- The bank that a pass names. -/
def passBank (i : Nat) (p : Pass) : Nat := bankNo i (lineField p.line 0x10 4 1)

/-- VECTORS and DRAIN of a pass (R130). -/
def passVectors (p : Pass) : Nat := lineField p.line 0x14 0 10
def passDrains (p : Pass) : Bool := lineField p.line 0x34 0 1 = 1

/-! ### Sampled rows (R163) -/

/-- A row is sampled (R163). -/
def sampledRow (rate phase g : Nat) : Bool := g % 2 ^ rate = phase % 2 ^ rate

/-- Vectors that a pass samples under the settings of the tile (R163). -/
def sampledVectors (rate phase : Nat) (l : Line) : List Nat :=
  (List.range (mpVectors l)).filter (fun v => sampledRow rate phase (mpOriginRow l + mpAccRow l + v))

/-! ### Banks: extents (R140, R141, R153) -/

/-- Merge a pass into an extent. -/
def mergeExtent (x : Option Extent) (l : Line) : Extent :=
  let lo := mpAccRow l
  let hi := mpAccRow l + mpVectors l - 1
  match x with
  | none => { lo, hi, width := mpWidth l }
  | some e => { lo := min e.lo lo, hi := max e.hi hi, width := max e.width (mpWidth l) }

/-- The drain width of an extent through an arrangement (R141). -/
def drainWidth (trans : Bool) (e : Extent) : Nat := if trans then e.width else min e.width 128

/-- The extent and arrangement that the pass's drain will read (R153). -/
def drainExtent (x : Engine) (k : Bank) (l : Line) : Option Extent × Bool :=
  let earlier := (x.passes.filter (fun p => lineField p.line 0x10 4 1 = lineField l 0x10 4 1)).getLast?
  let base := match earlier with
    | some p => if passDrains p then none else k.extent
    | none => k.extent
  if mpVectors l = 0 then (base, k.trans) else (some (mergeExtent base l), mpTrans l)

/-- Rows and drain width of an extent. -/
def extentShape (e : Option Extent × Bool) : Nat × Nat :=
  match e.1 with
  | none => (0, 0)
  | some x => (x.hi - x.lo + 1, drainWidth e.2 x)

/-! ### Admission (R146, R147) -/

/-- The bank of a pass of engine `i` is free for it. -/
def bankFree (s : State) (i : Nat) (p : Pass) : Bool :=
  let k := s.bank (passBank i p)
  (k.state = .idle || (k.state = .fill && !k.latestDrain)) && (!tasted p.line || k.samples = 0)

/-- Change the pass of an engine that has the queue and index of `p`. -/
def withPass (x : Engine) (p : Pass) (f : Pass → Pass) : Engine :=
  { x with passes := x.passes.map (fun y => if y.queue = p.queue && y.idx = p.idx then f y else y) }

/-- The same in the state. -/
def modPass (s : State) (i : Nat) (p : Pass) (f : Pass → Pass) : State := s.setEngine i (withPass (s.engine i) p f)

/-- Ask for a drain of a pass's bank; one whose bank was lost is served on the EMPTY extent (R150). -/
def requestDrain (s : State) (i : Nat) (p : Pass) : State :=
  let d := s.drain i
  s.setDrain i { d with requests := d.requests ++
    [{ bank := passBank i p, queue := p.queue, idx := p.idx, empty := p.stray }] }

/-- A bank admits a pass (R140, R141, R146, R168). -/
def admitPass (s : State) (i : Nat) (p : Pass) : State :=
  let b := passBank i p
  let k := s.bank b
  let k := { k with admitted := k.admitted ++ [(p.queue, p.idx)], latestDrain := passDrains p }
  if passVectors p = 0 then
    let s := modPass s i p (fun y => { y with admitted := true, holds := false })
    if k.state = .idle then requestDrain (s.setBank b { k with state := .drainWait }) i p else s.setBank b k
  else
    let n := if p.sampled then (sampledVectors p.rate p.phase p.line).length else 0
    let s := modPass s i p (fun y => { y with admitted := true, samples := n })
    s.setBank b { k with state := .fill, trans := mpTrans p.line, extent := some (mergeExtent k.extent p.line),
                         samples := k.samples + n }

/-- Admit the passes of an engine that can be admitted, in issue order (R118). -/
def admitLoop (i : Nat) : Nat → State → State
  | 0, s => s
  | n + 1, s =>
    match (s.engine i).passes.find? (fun p => !p.admitted) with
    | some p => if bankFree s i p then admitLoop i n (admitPass s i p) else s
    | none => s

def admitReady (s : State) (i : Nat) : State := admitLoop i (s.engine i).passes.length s

end Sys2Proof.Machine
end

