-- ==== Sys2Proof/Machine/Reduce.lean ====
section
/-! DEFINITION. Reductions: the tree of R361 and the nodes of R362, MAX and MIN, and the sums of R154
(spec/09_collectives.md, spec/04 R154). -/

namespace Sys2Proof.Machine

/-- Levels of a tree over `w` terms: ceil(log2 w). -/
def treeDepth (w : Nat) : Nat := if w ≤ 1 then 0 else Nat.log2 (w - 1) + 1

/-- One level of the tree: neighbours combine, a last single child passes through (R361). -/
def treeLevel {α : Type} (f : α → α → α) : List α → List α
  | a :: b :: xs => f a b :: treeLevel f xs
  | xs => xs

/-- `n` levels of the tree, the first numbered `l`. -/
def treeLevels {α : Type} (f : Nat → α → α → α) : Nat → Nat → List α → List α
  | 0, _, xs => xs
  | n + 1, l, xs => treeLevels f n (l + 1) (treeLevel (f l) xs)

/-- The value of the tree over the terms, its levels numbered from `l` (R361). -/
def treeFold {α : Type} (f : Nat → α → α → α) (l : Nat) (xs : List α) : Option α :=
  (treeLevels f (treeDepth xs.length) l xs).head?

/-- x is below y, with −0 below +0 (R293, R362). -/
def numBelow (x y : Num) : Bool :=
  Num.lt x y || (x.isZero && y.isZero && x.neg && !y.neg)

/-- MAX and MIN: a NaN operand gives NaN (R293, R362). -/
def numMax (x y : Num) : Num := if x.isNan || y.isNan then .nan false else if numBelow x y then y else x
def numMin (x y : Num) : Num := if x.isNan || y.isNan then .nan false else if numBelow y x then y else x

/-- A KF32 sum rounded by RNE, as a value. -/
def addKf32 (x y : Num) : Num := decodeNum .kf32 (encodeNum .kf32 .rne 0 (x.add y)).1

/-- Terms extended with +0 to the next power of two (R154). -/
def padTerms (xs : List Num) : List Num := xs ++ List.replicate (2 ^ treeDepth xs.length - xs.length) .zero

/-- The fixed pairwise sum of R154. -/
def treeSum (xs : List Num) : Num :=
  (treeFold (fun _ => addKf32) 0 (padTerms xs)).getD .zero

/-- A node of a reduction (R362): RED 0 SUM, 1 MAX, 2 MIN; `u` is the draw of the node's level. -/
def redNode (red : Nat) (f : Fmt) (mode : Rnd) (u : Nat) (x y : Num) : Num :=
  match red with
  | 0 => decodeNum f (encodeNum f (if f = .kf32 then .rne else mode) u (x.add y)).1
  | 1 => numMax x y
  | _ => numMin x y

/-- A stage of a reduction for element `n`: terms in rank order, levels from `l` (R362). -/
def redTree (red : Nat) (f : Fmt) (mode : Rnd) (tensor : Nat) (key : Dword) (n l : Nat) (xs : List Num) : Num :=
  (treeFold (fun lvl => redNode red f mode (genLinear 0x04 tensor lvl n key)) l xs).getD .zero

/-- The elements of 64-bit words in a format, in order. -/
def wordElems (f : Fmt) (ws : List Dword) : List Nat :=
  ws.flatMap (fun w => (List.range (64 / f.bits)).map (fun i => w.toNat / 2 ^ (f.bits * i) % 2 ^ f.bits))

/-- 64-bit words from element codes. -/
def elemWords (f : Fmt) (n : Nat) (cs : List Nat) : List Dword :=
  let per := 64 / f.bits
  (List.range n).map (fun k =>
    BitVec.ofNat 64 ((List.range per).foldl (fun a i => a + cs.getD (k * per + i) 0 % 2 ^ f.bits * 2 ^ (f.bits * i)) 0))

end Sys2Proof.Machine
end

