-- ==== Sys2Proof/Machine/RollCallOps.lean ====
section
/-! DEFINITION. Teams and ranks, and the roll-call network: combining, its messages and their repeats
(spec/09_collectives.md R354, R355, R361, R371 to R375). -/

namespace Sys2Proof.Machine

open Sys2Proof

/-! ### Teams (R354, R355, R383) -/

def teamA (p team o : Nat) : Nat := 0x3000 + 0x400 * (p % 16) + 0x10 * (team % 64) + o
def teamValid (s : State) (p team : Nat) : Bool := s.field (teamA p team 8) 31 1 = 1
def teamMask (s : State) (p team : Nat) : Nat := s.reg64 (teamA p team 0)
/-- Length of a team on an axis. -/
def teamLen (s : State) (p team axis : Nat) : Nat := s.field (teamA p team 8) (8 * axis) 7 + 1

/-- Tiles of a mask, ascending. -/
def maskTiles (m : Nat) : List Nat := (List.range 64).filter (fun t => bits m t 1 = 1)

/-- Members in a module, in panel rank order. -/
def teamTiles (s : State) (p team : Nat) : List Nat := maskTiles (teamMask s p team)

/-- Coordinates of the modules of this module's team instance on an axis, in rank order. -/
def teamCoords (s : State) (p team axis : Nat) : List Nat :=
  let l := teamLen s p team axis
  let lo := coordOf s (myModule s) axis / l * l
  (List.range l).map (fun i => lo + i)

/-- Modules of the instance, in module rank order (R355). -/
def teamModules (s : State) (p team : Nat) : List Nat :=
  (teamCoords s p team 2).flatMap (fun z => (teamCoords s p team 1).flatMap (fun y =>
    (teamCoords s p team 0).map (fun x => moduleAt s x y z)))

/-- P, M and N of R355. -/
def teamP (s : State) (p team : Nat) : Nat := (teamTiles s p team).length
def teamM (s : State) (p team : Nat) : Nat := teamLen s p team 0 * teamLen s p team 1 * teamLen s p team 2
def teamN (s : State) (p team : Nat) : Nat := teamP s p team * teamM s p team

/-- Panel rank of a tile and module rank of this module. -/
def panelRank (s : State) (p team t : Nat) : Nat := (teamTiles s p team).findIdx (fun x => x = t)
def moduleRank (s : State) (p team : Nat) : Nat := (teamModules s p team).findIdx (fun x => x = myModule s)
/-- Team rank of a tile of this module. -/
def teamRank (s : State) (p team t : Nat) : Nat := panelRank s p team t * teamM s p team + moduleRank s p team

/-- Tile and module of a team rank. -/
def rankTile (s : State) (p team r : Nat) : Nat := (teamTiles s p team).getD (r / max 1 (teamM s p team)) 0
def rankModule (s : State) (p team r : Nat) : Nat := (teamModules s p team).getD (r % max 1 (teamM s p team)) 0

/-! ### Messages (R372) -/

/-- A number within `n` bits at bit `k` of a header word. -/
def fieldAt (v k n : Nat) : Nat := v % 2 ^ n * 2 ^ k

/-- The header of a message as 64 bits, word 0 in the lower half (R372). -/
def rcHeader (m : RcMessage) : Nat :=
  fieldAt m.kind 0 4 + fieldAt m.op 4 4 + fieldAt m.fmt 8 4 + fieldAt (m.words.length - 1) 12 3 + fieldAt m.party 16 4 +
  fieldAt m.epoch 20 8 + fieldAt m.stage 28 2 + fieldAt m.seq 32 16 + fieldAt m.team 48 6 + fieldAt m.rank 54 7

/-- The bytes under a message's CRC: header and payload (R372). -/
def rcBytes (m : RcMessage) : List Nat := leBytes 8 (rcHeader m) ++ m.words.flatMap (fun w => leBytes 8 w.toNat)

/-- A message with its CRC, as it is sent. -/
def sealRoll (m : RcMessage) : RcMessage := { m with crc := crc32 (rcBytes m) }

/-- The payload words of a message; their layout within the payload is the model's (DESIGN CHOICE, assumption log
entry 164). -/
def rcWords : RcPayload → List Dword
  | .round dmin dmax count => [BitVec.ofNat 64 (dmin + 2 ^ 32 * dmax), BitVec.ofNat 64 count]
  | .fence stamp dmin dmax vote =>
    [BitVec.ofNat 64 stamp, BitVec.ofNat 64 (dmin + 2 ^ 32 * dmax), BitVec.ofNat 64 vote.toNat]
  | .words ws => ws
  | .none => [0]
  | .stamp t1 => [BitVec.ofInt 64 t1]
  | .stamps t2 t3 => [BitVec.ofInt 64 t2, BitVec.ofInt 64 t3]

/-- What the payload words of a combining message say. -/
def rcPayload (m : RcMessage) : RcPayload :=
  let w := fun i => (m.words.getD i 0).toNat
  match m.op with
  | 0 => .round (bits (w 0) 0 32) (bits (w 0) 32 32) (bits (w 1) 0 32)
  | 1 => .fence (w 0) (bits (w 1) 0 32) (bits (w 1) 32 32) (w 2 % 2 = 1)
  | _ => .words m.words

/-! ### The way of a message (R373, R424, R451) -/

/-- A port of the port table names the module at its far end (R373, R481). -/
def fibreTo (s : State) (dest : Nat) (c : Nat × Nat) : Bool :=
  (portPeer s.itin.force c.1 c.2).any (fun x => x % 2 ^ 14 = dest)

/-- The ports of the panel, lantern by lantern. -/
def allPorts : List (Nat × Nat) := (List.range 8).flatMap (fun n => (List.range 16).map (fun p => (n, p)))

/-- The next module on the way: a line peer that a fibre joins is reached directly, any other along the torus (R317,
R373). -/
def nextModule (s : State) (dest : Nat) : Nat :=
  if allPorts.any (fibreTo s dest) then dest
  else
    match routeDir s (myModule s) dest with
    | some dir => hopModule s (myModule s) dir
    | none => dest

/-- The service wavelength of a port, or the control frames of a copper link, carry messages (R424, R451). -/
def wayOpen (s : State) : LinkPort → Bool
  | .optical n p => (s.port n.val p.val).phase = .active
  | .copper k => (s.copperPort k.val).phase = .active

/-- The way of the hop to a module: an ACTIVE port, else a copper link in service; among several the lowest number
(R373, R451; the order DESIGN CHOICE, assumption log entry 165). -/
def wayTo (s : State) (next : Nat) : Option LinkPort :=
  let ports := (allPorts.filter (fibreTo s next)).map (fun c => LinkPort.optical (Fin.ofNat 8 c.1) (Fin.ofNat 16 c.2))
  let links := ((List.range 13).filter (fun k => (copperLink? s.itin.force k).any (fun x => x.2.2.2 % 2 ^ 14 = next))).map
    (fun k => LinkPort.copper (Fin.ofNat 13 k))
  (ports ++ links).find? (wayOpen s)

/-- A message takes its next hop, if there is a way; every transmission counts (R373, R384). -/
def hopRoll (s : State) (src dest : Nat) (m : RcMessage) : State :=
  match wayTo s (nextModule s dest) with
  | some via => (s.emit (.roll via src dest m)).count64 0x7040 1
  | none => s

/-- Send a roll-call message to another module; all but an ACK are repeated until acknowledged (R372). -/
def sendRoll (s : State) (dest : Nat) (m : RcMessage) : State :=
  let m := sealRoll m
  let s := hopRoll s (myModule s) dest m
  if m.kind = 3 then s
  else { s with rc := { s.rc with unacked := s.rc.unacked ++ [{ msg := m, dest, due := s.now + 2000 }] } }

/-- A receiver discards the message: its CRC, a reserved code, or its epoch (R55, R372). -/
def badMessage (s : State) (m : RcMessage) : Bool :=
  m.crc ≠ crc32 (rcBytes m) || 5 < m.kind || 5 < m.op || (2 ≤ m.op && m.op < 5 && 5 < m.fmt) ||
  m.epoch ≠ epochOf s m.party

/-- An accepted message counts and, unless it is an ACK, is acknowledged; the ACK repeats its header (R372, R384). -/
def acceptRoll (s : State) (src : Nat) (m : RcMessage) : State :=
  let s := s.count64 0x7048 1
  if m.kind = 3 then s else sendRoll s src { m with kind := 3, words := [BitVec.ofNat 64 (rcHeader m)] }

/-! ### Combining (R371) -/

/-- What an operation spans on an axis 1 to 3: its length, this module's rank and the modules in rank order. -/
structure Span where
  len   : Nat
  rank  : Nat
  peers : List Nat

/-- The span of an operation on an axis: a team's length, the whole axis for a fence of SCOPE JOB, or nothing. -/
def opSpan (s : State) (o : RcOp) (axis : Nat) : Span :=
  let a := axis - 1
  let coords :=
    if o.op = 1 then (if o.job then List.range (axisSize s a) else [coordOf s (myModule s) a])
    else teamCoords s o.party o.team a
  let c := fun b => coordOf s (myModule s) b
  { len := coords.length, rank := coords.findIdx (fun x => x = c a),
    peers := coords.map (fun x => moduleAt s (if a = 0 then x else c 0) (if a = 1 then x else c 1)
      (if a = 2 then x else c 2)) }

/-- Number of the first tree level of a stage (R362). -/
def stageLevel (s : State) (o : RcOp) (axis : Nat) : Nat :=
  treeDepth o.members.length +
    ((List.range (axis - 1)).map (fun i => treeDepth (opSpan s o (i + 1)).len)).foldl (· + ·) 0

/-- Two payloads of minimum and maximum kind together. -/
def mergePayload : RcPayload → RcPayload → RcPayload
  | .round a b c, .round d e f => .round (min a d) (max b e) (max c f)
  | .fence t a b v, .fence u c d w => .fence (max t u) (min a c) (max b d) (v || w)
  | x, _ => x

/-- The words of a payload. -/
def payloadWords : RcPayload → List Dword
  | .words ws => ws
  | _ => []

/-- Payloads in rank order combined by an operation, the levels of its tree numbered from `l`; a single term passes
unchanged (R361, R371). -/
def combine (o : RcOp) (l : Nat) (xs : List RcPayload) : RcPayload :=
  match o.op with
  | 0 => (treeFold (fun _ => mergePayload) 0 xs).getD .none
  | 1 => (treeFold (fun _ => mergePayload) 0 xs).getD .none
  | 5 =>
    let n := (xs.map (fun x => (payloadWords x).length)).foldl max 0
    .words ((List.range n).map (fun i => xs.foldl (fun a x => a ||| (payloadWords x).getD i 0) 0))
  | _ =>
    if xs.length = 1 then xs.headD .none
    else
    let f := (Fmt.ofCode o.fmt).getD .kf32
    let mode := if f = .kg8 then Rnd.sr else (Rnd.ofCode o.rnd).getD .rne
    let n := (xs.map (fun x => (payloadWords x).length)).foldl max 0
    let terms := xs.map (fun x => (wordElems f (payloadWords x)).map (decodeNum f))
    let count := n * (64 / f.bits)
    .words (elemWords f n ((List.range count).map (fun i =>
      (encodeNum f .rne 0 (redTree (o.op - 2) f mode o.tensor o.key i l (terms.map (fun v => v.getD i .zero)))).1)))

/-- Message kind PARTIAL of an operation to a line peer (R372). -/
def partialMessage (s : State) (o : RcOp) (axis rank : Nat) (v : RcPayload) : RcMessage :=
  { kind := 0, op := o.op, fmt := o.fmt, party := o.party, epoch := epochOf s o.party, stage := axis,
    seq := o.seq, team := o.team, rank, words := rcWords v }

/-- An operation reaches an axis with this module's value: it is the result after the last axis; otherwise it is
this module's partial, sent to the line peers. -/
def enterAxis (s : State) (o : RcOp) (axis : Nat) (v : RcPayload) : State × RcOp :=
  if 4 ≤ axis then (s, { o with axis := 4, result := some v })
  else
    let sp := opSpan s o axis
    let o := { o with axis, partials := mset .none o.partials (128 * axis + sp.rank) v }
    ((sp.peers.filter (fun m => m ≠ myModule s)).foldl
      (fun s m => sendRoll s m (partialMessage s o axis sp.rank v)) s, o)

/-- Take an operation as far as what it holds allows: the panel tree, then the axes in order. -/
def advanceOp : Nat → State → RcOp → State × RcOp
  | 0, s, o => (s, o)
  | n + 1, s, o =>
    if o.result.isSome || o.failed then (s, o)
    else if o.axis = 0 then
      if !o.members.isEmpty && o.members.all (fun t => mget .none o.given t ≠ .none) then
        let v := combine o 0 (o.members.map (fun t => mget .none o.given t))
        let (s, o) := enterAxis s o 1 v
        advanceOp n s o
      else (s, o)
    else
      let sp := opSpan s o o.axis
      let vs := (List.range sp.len).map (fun r => mget .none o.partials (128 * o.axis + r))
      if vs.all (· ≠ .none) then
        let (s, o) := enterAxis s o (o.axis + 1) (combine o (stageLevel s o o.axis) vs)
        advanceOp n s o
      else (s, o)

/-- The same collective operation: party, OP, team and sequence. -/
def sameOp (a b : RcOp) : Bool := a.party = b.party && a.op = b.op && a.team = b.team && a.seq = b.seq

/-- Add an operation; the result is its number. -/
def addOp (s : State) (o : RcOp) : Nat × State :=
  let id := s.rc.nextId
  (id, { s with rc := { s.rc with ops := s.rc.ops ++ [{ o with id }], nextId := id + 1 } })

/-- Replace an operation. -/
def putOp (s : State) (o : RcOp) : State :=
  let ops := s.rc.ops.map (fun x => if x.id = o.id then o else x)
  { s with rc := { s.rc with ops := ops } }

/-- A fence whose combining has ended: each member tile that has contributed takes the result, and the operation is
finished with (R289, R375). -/
def fenceEnds (s : State) (o : RcOp) : State :=
  let result : Option (Nat × Bool) := match o.failed, o.result with
    | false, some (.fence stamp dmin dmax vote) => if dmin = dmax then some (stamp, vote) else none
    | _, _ => none
  let s := s.each (o.members.filter (fun t => mget .none o.given t ≠ .none)) (fun t s =>
    s.modTile t (fun x => { x with fence := x.fence.map (fun f => { f with result := some result }) }))
  let ops := s.rc.ops.filter (fun x => x.id ≠ o.id)
  let others := fun (xs : List (Nat × Nat)) => xs.filter (fun x => x.1 ≠ o.party)
  { s with rc := { s.rc with ops := ops, last := mset 0 s.rc.last o.party (o.seq + 1), late := others s.rc.late,
                             votes := others s.rc.votes, mapFence := others s.rc.mapFence } }

/-- Advance an operation while it is among the 64 in flight (R374). -/
def advance (s : State) (id : Nat) : State :=
  match (s.rc.ops.take 64).find? (fun o => o.id = id) with
  | none => s
  | some o =>
    let (s, o) := advanceOp 5 s o
    if o.op = 1 && (o.result.isSome || o.failed) then fenceEnds s o else putOp s o

/-- Operations have left: those that come to the first 64 places may advance, in order (R374). -/
def refillOps (s : State) : State := s.each (s.rc.ops.map (·.id)) (fun id s => advance s id)

/-- Change an operation, and advance it. -/
def modOp (s : State) (id : Nat) (f : RcOp → RcOp) : State :=
  match s.rc.ops.find? (fun o => o.id = id) with
  | none => s
  | some o =>
    let s := advance (putOp s (f o)) id
    if s.rc.ops.any (fun x => x.id = id) then s else refillOps s

/-- Remove a collective operation that is finished with. -/
def dropOp (s : State) (o : RcOp) : State :=
  if s.rc.ops.any (sameOp o) then
    refillOps { s with rc := { s.rc with ops := s.rc.ops.filter (fun x => !sameOp o x) } }
  else s

/-- The number of a collective operation, which is added when it is new. -/
def collOpId (s : State) (new : RcOp) : Nat × State :=
  match s.rc.ops.find? (sameOp new) with
  | some o => (o.id, s)
  | none => addOp s new

/-- A member's contribution to a collective operation. -/
def contribute (s : State) (new : RcOp) (t : Nat) (v : RcPayload) : State :=
  let (id, s) := collOpId s new
  modOp s id (fun o => { o with given := mset .none o.given t v, rnd := new.rnd, tensor := new.tensor, key := new.key })

/-- A member has taken the result of an operation, or its failure; the last one finishes it. -/
def tellMember (s : State) (o : RcOp) (t : Nat) : State :=
  let o' := { o with told := o.told ++ [t] }
  if o.members.all (fun u => o'.told.contains u) then dropOp s o else putOp s o'

/-- A member's collective is gone: an operation that has a result, or has failed, stays for the others (R359, R373). -/
def leaveOp (s : State) (o : RcOp) (t : Nat) : State :=
  match s.rc.ops.find? (sameOp o) with
  | some x =>
    if x.told.contains t then s
    else if x.result.isSome || x.failed then tellMember s x t else dropOp s x
  | none => s

/-- ABORT of a team instance and sequence, to every module of it and to this module's own members (R369). -/
def sendAbort (s : State) (party team seq t : Nat) : State :=
  let m : RcMessage :=
    { kind := 2, op := 0, party, epoch := epochOf s party, stage := 0, seq, team, rank := t, words := rcWords .none }
  (teamModules s party team).foldl
    (fun s k => if k = myModule s then s.emit (.rollPanel (sealRoll m)) else sendRoll s k m) s

/-! ### Collectives on the roll-call (R359, R370) -/

/-- Fields of a COLLECTIVE command (R356). -/
def collOp (l : Line) : Nat := lineField l 0x10 0 4
def collRed (l : Line) : Nat := lineField l 0x10 4 2
def collFmt (l : Line) : Nat := lineField l 0x10 6 4
def collRnd (l : Line) : Nat := lineField l 0x10 10 2
def collPath (l : Line) : Nat := lineField l 0x10 12 1
def collTeam (l : Line) : Nat := lineField l 0x10 16 6
def collSlots (l : Line) : Nat := lineField l 0x10 26 3 + 1

/-- The roll-call operation of a collective: its open round, or its combining on the roll-call path. -/
def collRcOp (s : State) (t : Nat) (c : Coll) : RcOp :=
  let p := tileParty s t
  let team := collTeam c.line
  let op := if collPath c.line = 1 && collOp c.line = 0 then
      (match collRed c.line with
        | 0 => 2
        | 1 => 3
        | 2 => 4
        | _ => 5)
    else 0
  { party := p, op, fmt := (if op = 0 || op = 5 then 0 else collFmt c.line), rnd := collRnd c.line,
    tensor := lineField c.line 0x2C 0 24, key := c.seed, team, seq := c.seq, members := teamTiles s p team }

/-- What a member contributes. -/
def collPayload (c : Coll) : RcPayload :=
  if collPath c.line = 1 && collOp c.line = 0 then .words c.words
  else .round c.digest c.digest (c.rows.foldl max 0)

/-- The 18 ms of R370 have passed for a team entry of the tile. -/
def heldOff (s : State) (t team : Nat) : Bool :=
  match mget none (s.coll t).holdoff team with
  | some d => s.now < d
  | none => false

/-- Start the first collective of a tile's engine that is not started: it contributes to its roll-call operation,
unless its entry is held off (R358, R359, R370). -/
def startColl (s : State) (t : Nat) : State :=
  let e := s.coll t
  let e := match e.running, e.next with
    | none, some c => { e with running := some c, next := none }
    | _, _ => e
  let s := s.setColl t e
  match e.running with
  | some c =>
    if c.phase = .held && !heldOff s t (collTeam c.line) then
      let c := { c with phase := .open, opened := true, progress := s.time }
      contribute (s.setColl t { e with running := some c }) (collRcOp s t c) t (collPayload c)
    else s
  | none => s

end Sys2Proof.Machine
end

