-- ==== Sys2Proof/Machine/Stops.lean ====
section
/-! DEFINITION. How the units of a tile stop the issued commands of an aborted task or of a party that resets
(spec/03 R122, R134, spec/04 R150, spec/06 R245, spec/09 R369, R370, spec/07 R280). -/

namespace Sys2Proof.Machine

open Sys2Proof

/-- Which commands stop, by queue and index, and which tasks they belong to, by queue and key. -/
structure Stops where
  dead : Nat → Word → Bool
  task : Nat → Word → Bool

/-! ### Banks and engines -/

/-- A bank enters ZERO and loses its contents (R142, R146, R150). -/
def zeroBank (s : State) (b : Nat) : State :=
  s.setBank b { s.bank b with words := [], extent := none, state := .zero }

/-- A stopped pass leaves its bank: an admitted one sends it to ZERO, and its sample entries are released (R150). -/
def stopPass (i : Nat) (s : State) (p : Pass) : State :=
  if p.admitted then
    let b := passBank i p
    let s := zeroBank s b
    let k := s.bank b
    s.setBank b { k with admitted := k.admitted.filter (fun a => a ≠ (p.queue, p.idx)),
                         samples := k.samples - p.samples }
  else s

/-- A drain of a stopped command ends, and its bank goes to ZERO (R146). -/
def stopDrains (s : State) (i : Nat) (st : Stops) : State :=
  let d := s.drain i
  let gone := (d.requests ++ d.current.toList ++ d.ending.map (·.1)).filter (fun r => st.dead r.queue r.idx)
  let s := gone.foldl (fun s r => zeroBank s r.bank) s
  s.setDrain i { d with requests := d.requests.filter (fun r => !st.dead r.queue r.idx),
                        current := d.current.filter (fun r => !st.dead r.queue r.idx),
                        ending := d.ending.filter (fun r => !st.dead r.1.queue r.1.idx) }

/-- A surviving pass whose bank went to ZERO: once its vectors are done it asks for its drain (R150). -/
def strayPass (i : Nat) (s : State) (p : Pass) : State :=
  let d := s.drain i
  let asked := (d.requests ++ d.current.toList ++ d.ending.map (·.1)).any (fun r => r.queue = p.queue && r.idx = p.idx)
  if passDrains p && p.done = passVectors p && !p.drained && !asked then requestDrain s i { p with stray := true } else s

/-- What other tasks keep of the banks that went to ZERO: requests for them are served on the EMPTY extent, a drain that
was being read among them from its place at the front, and passes that the bank had admitted go on as strays (R150). -/
def strays (s : State) (i : Nat) : State :=
  let lost := fun b => decide ((s.bank b).state = .zero)
  let d := s.drain i
  let back := d.current.filter (fun r => lost r.bank)
  let asked := (back.toList ++ d.requests).map (fun r => if lost r.bank then { r with empty := true } else r)
  let s := s.setDrain i { d with current := d.current.filter (fun r => !lost r.bank), requests := asked }
  let x := s.engine i
  let mark := fun (p : Pass) => if p.admitted && lost (passBank i p) then { p with stray := true } else p
  let s := s.setEngine i { x with passes := x.passes.map mark }
  (x.passes.filter (fun p => p.admitted && lost (passBank i p))).foldl (strayPass i) s

/-- An engine stops the passes of dead commands and forgets its latest stationary operand when one of the tasks had
a pass issued to it; a pass that waited behind a stopped one may be admitted (R118, R122, R134, R146). -/
def stopEngine (s : State) (i : Nat) (st : Stops) : State :=
  let x := s.engine i
  let gone := x.passes.filter (fun p => st.dead p.queue p.idx)
  let s := stopDrains (gone.foldl (stopPass i) s) i st
  let loads := x.passes.filter (fun p => p.loaded && !mpKeep p.line)
  let loadStops := loads.any (fun p => !p.begun && st.dead p.queue p.idx)
  let busStops := loads.getLast?.any (fun p => st.dead p.queue p.idx)
  let s := s.setEngine i
    { x with passes := x.passes.filter (fun p => !st.dead p.queue p.idx),
             shadow := (if loadStops then none else x.shadow), bus := (if busStops then 0 else x.bus),
             latest := (if x.users.any (fun u => st.task u.1 u.2) then none else x.latest),
             users := x.users.filter (fun u => !st.task u.1 u.2) }
  if gone = [] then s else admitReady (strays s i) i

/-! ### Collectives -/

/-- A tile's collective aborts: it is counted, its team entry is held off for 18 ms and, when it aborts on its own
account, the team is told (R369, R370). -/
def dropColl (s : State) (t : Nat) (c : Coll) (tell : Bool) : State :=
  let team := collTeam c.line
  let s := s.count32 (tilA t 0x7058) 1
  let e := s.coll t
  let s := s.setColl t { e with running := e.running.filter (fun x => x ≠ c),
                                next := e.next.filter (fun x => x ≠ c),
                                holdoff := mset none e.holdoff team (some (s.now + 18000000)) }
  let s := leaveOp s (collRcOp s t c) t
  if tell then sendAbort s (tileParty s t) team c.seq t else s

/-- The collective engine of a tile stops dead collectives, and the one behind starts. -/
def stopColls (s : State) (t : Nat) (st : Stops) (tell : Bool) : State :=
  let e := s.coll t
  let gone := (e.running.toList ++ e.next.toList).filter (fun c => st.dead c.queue c.idx)
  if gone = [] then s else startColl (gone.foldl (fun s c => dropColl s t c tell) s) t

/-! ### All units of a tile -/

/-- The purpose of a packet is a dead command. -/
def deadPurpose (st : Stops) : Purpose → Bool
  | .command g idx => st.dead g idx
  | _ => false

/-- Every unit of a tile stops the dead commands (R280). -/
def stopUnits (s : State) (t : Nat) (st : Stops) (tell : Bool) : State :=
  let s := s.each (List.range 4) (fun m s =>
    match s.mover (4 * t + m) with
    | some j => if st.dead j.queue j.idx then s.setMover (4 * t + m) none else s
    | none => s)
  let s := { s with fabric := { s.fabric with
    unsent := s.fabric.unsent.filter (fun u => !deadPurpose st u.purpose) } }
  let s := s.each (List.range 4) (fun e s => stopEngine s (4 * t + e) st)
  let s := s.modTile t (fun x =>
    { x with samples := x.samples.filter (fun k => !st.dead k.queue k.idx),
             results := x.results.filter (fun k => !st.dead k.queue k.idx),
             vec := x.vec.filter (fun j => !st.dead j.queue j.idx),
             guide := x.guide.filter (fun r => !(r.queue.any (fun k => st.dead k.1 k.2))) })
  let s := { s with rk := { s.rk with
    programming := s.rk.programming.filter (fun x => !st.dead x.queue x.idx) } }
  stopColls s t st tell

end Sys2Proof.Machine
end

