-- ==== Sys2Proof/Machine/Queues.lean ====
section
/-! DEFINITION. Queues: rings, waits, issue, completion, tallies, tasks and their aborts, and the commands of the
control path (spec/07_command_streams.md R258 to R302). -/

namespace Sys2Proof.Machine

open Sys2Proof

/-! ### Rings (R258, R259, R265) -/

/-- Offset of the line of ring position `i`. -/
def ringOff (q : Queue) (i : Word) : Nat := 64 * (q.base + i.toNat % 2 ^ q.sizeLog2)

/-- The whole ring lies in scratch (R183, R258). -/
def ringInScratch (s : State) (t : Nat) (q : Queue) : Bool := 64 * (q.base + 2 ^ q.sizeLog2) ≤ scratchSize s t

/-- A command stands at the issue point (R262, R300). -/
def standing (q : Queue) : Bool := q.enable && q.skip.isNone && q.cmd ≠ q.tail

/-- Follow the start and end of a stall (R300): `fresh` when another command now stands at the issue point. -/
def restand (s : State) (q : Queue) (fresh : Bool := false) : Queue :=
  if standing q then
    if fresh || q.stallFrom.isNone then { q with stallFrom := some s.time, stall := false } else q
  else { q with stallFrom := none, stall := false }

/-- A queue as R265 sets it. -/
def clearedQueue (q : Queue) : Queue :=
  { base := q.base, sizeLog2 := q.sizeLog2, faDepth := q.faDepth, priority := q.priority, stallMs := q.stallMs }

/-! ### Header fields (R268) -/

def hdrOpcode (l : Line) : Nat := lineField l 0 0 8
def hdrHold (l : Line) : Bool := lineField l 0 8 1 = 1
def hdrWaitEn (l : Line) : Bool := lineField l 0 9 1 = 1
def hdrSigEn (l : Line) : Bool := lineField l 0 10 1 = 1
def hdrSigFar (l : Line) : Bool := lineField l 0 11 1 = 1
def hdrSerial (l : Line) : Bool := lineField l 0 12 1 = 1
def hdrGate (l : Line) : Bool := lineField l 0 13 1 = 1
def hdrTask (l : Line) : Nat := lineField l 0 16 16
def hdrWaitTally (l : Line) : Nat := lineField l 4 0 11
def hdrSigInc (l : Line) : Nat := lineField l 4 16 16
def hdrWaitTarget (l : Line) : Nat := lineField l 8 0 31
def hdrSigTally (l : Line) : Nat := lineField l 0xC 0 17
def hdrSigModule (l : Line) : Nat := lineField l 0xC 17 14

/-! ### Tallies (R270 to R273) -/

/-- A wait for `target` is satisfied by the value `v` (R272). -/
def waitSatisfied (v target : Nat) : Bool := (v + 2 ^ 31 - target % 2 ^ 31) % 2 ^ 31 < 2 ^ 30

/-- Raise tally `k` of module `m` by `inc` on behalf of queue `g`: at once in the queue's own tile, otherwise by a
SIGNAL packet on VC 0 (R273; DESIGN CHOICE of the VC, assumption log entry 29). -/
def raiseTally (s : State) (g m k inc : Nat) : State :=
  let t := g / 256
  if m = myModule s && k / 2048 = t then s.setTally k (s.tally k + inc)
  else sendPacket s (.tile (Fin.ofNat 64 t)) (.signal g k m inc) (signalPacket (tileParty s t) m (k / 2048) (k % 2048) inc 0)

/-- A completed command signals (R267, R273). -/
def signalFor (s : State) (g : Nat) (l : Line) : State :=
  if hdrSigEn l then
    raiseTally s g (if hdrSigFar l then hdrSigModule l else myModule s) (hdrSigTally l) (hdrSigInc l)
  else s

/-! ### Completion (R267, R273) -/

/-- Nothing that the command sent or wrote is outstanding, and no open fence is its own (R273, R289, R562). -/
def quietCommand (s : State) (g : Nat) (idx : Word) : Bool :=
  let mine := fun p => p = Purpose.command g idx || p = Purpose.restore g idx
  !s.fabric.sent.any (fun o => mine o.purpose) && !s.fabric.unsent.any (fun u => mine u.purpose) &&
  !mirrorPending s (.command g idx) &&
  !(match (s.tile (g / 256)).fence with
    | some f => f.queue = g && f.idx = idx
    | none => false)

/-- The command in flight with this index. -/
def inflight? (q : Queue) (idx : Word) : Option Inflight := q.inflight.find? (fun x => x.idx = idx)

/-- The unit of a command has finished: what is left is that its writes are performed (R273). -/
def markReady (s : State) (g : Nat) (idx : Word) : State :=
  s.modQueue g (fun q => { q with inflight := q.inflight.map (fun x =>
    if x.idx = idx then { x with ready := true } else x) })

/-- A mover or the collective engine is free again once its command is complete (R255, R358). -/
def freeUnit (s : State) (g : Nat) (idx : Word) : State :=
  let t := g / 256
  let s := s.each (List.range 4) (fun m s =>
    match s.mover (4 * t + m) with
    | some j => if j.queue = g && j.idx = idx then s.setMover (4 * t + m) none else s
    | none => s)
  let e := s.coll t
  match e.running with
  | some c =>
    if c.queue = g && c.idx = idx then
      startColl ((s.setColl t { e with running := none }).count64 (tilA t 0x7040) 1) t
    else s
  | none => s

/-- A command leaves its queue as complete, and signals. -/
def completeCommand (s : State) (g : Nat) (x : Inflight) : State :=
  let s := s.modQueue g (fun q => { q with inflight := q.inflight.filter (fun y => y.idx ≠ x.idx) })
  signalFor (freeUnit s g x.idx) g x.line

/-- A TASK_END waits for every other command of its task (R269). -/
def othersDone (q : Queue) (x : Inflight) : Bool :=
  hdrOpcode x.line ≠ 0x09 || !q.inflight.any (fun y => y.idx ≠ x.idx && y.task = x.task)

/-- The command can complete now. -/
def canComplete (s : State) (g : Nat) (x : Inflight) : Bool :=
  x.ready && !x.dead && quietCommand s g x.idx && othersDone (s.queue g) x

/-- The unit of a command has finished: it completes at once when nothing is outstanding. -/
def finishCommand (s : State) (g : Nat) (idx : Word) : State :=
  let s := markReady s g idx
  match inflight? (s.queue g) idx with
  | some x => if canComplete s g x then completeCommand s g x else s
  | none => s

/-! ### Passing over commands (R280) -/

/-- Pass over the command at the issue point. -/
def skipOne (s : State) (g : Nat) : State :=
  let t := g / 256
  let q := s.queue g
  let s := discardPrefetch s t g (fun i => i = q.cmd)
  let q := { q with fetched := mset none q.fetched q.cmd.toNat none, cmd := q.cmd + 1 }
  (s.setQueue g (restand s q true)).count64 (tilA t 0x5018) 1

/-- The line of the command at the issue point: the copy that fetch-ahead read, or the ring's line now, which must lie
in scratch (R183); the outer result is absent while the line cannot be accessed yet. -/
def commandLine (s : State) (g : Nat) : Option (Except Err Fetched × State) :=
  let t := g / 256
  let q := s.queue g
  match mget none q.fetched q.cmd.toNat with
  | some f => some (.ok f, s)
  | none =>
    let off := ringOff q q.cmd
    if !inScratch s t off then some (.error .address, s)
    else if !lineReady s t off then none
    else
      match readLine s t off with
      | (some l, s) => some (.ok { line := l }, s)
      | (none, s) => some (.error .memory, s)

/-- Pass over commands up to and including the TASK_END of the aborted task (R280), as far as they have arrived. -/
def skipLoop (g : Nat) : Nat → State → State
  | 0, s => s
  | n + 1, s =>
    let q := s.queue g
    match q.skip with
    | none => s
    | some id =>
      if !q.enable || q.cmd = q.tail then s
      else
        match commandLine s g with
        | none => s
        | some (f, s) =>
          let last := match f with
            | .ok f => hdrOpcode f.line = 0x09 && hdrTask f.line = id
            | .error _ => false
          let s := skipOne s g
          if last then s.modQueue g (fun q => restand s { q with skip := none } true) else skipLoop g n s

/-- Pass over what has arrived. -/
def skipOn (s : State) (g : Nat) : State :=
  skipLoop g ((s.queue g).tail - (s.queue g).cmd).toNat s

/-! ### Aborts (R279 to R282) -/

/-- The abort record's payload (R281). -/
def abortPayload (g : Nat) (task : Nat) (idx : Word) (e : CmdError) : BitVec 96 :=
  BitVec.ofNat 96 (g % 2 ^ 14 + 2 ^ 14 * e.err.code + 2 ^ 20 * (task % 2 ^ 16) + 2 ^ 36 * (idx.toNat % 2 ^ 16)
    + 2 ^ 52 * (e.slot % 2 ^ 24) + 2 ^ 76 * (e.tag % 2 ^ 16) + 2 ^ 92 * (e.field % 16))

/-- The command that ends a task which is open is the first TASK_END of its identifier that fetch-ahead has read. -/
def fetchedEnd (q : Queue) (id : Nat) : Nat → Word → Word
  | 0, i => i
  | n + 1, i =>
    match mget none q.fetched i.toNat with
    | some f => if hdrOpcode f.line = 0x09 && hdrTask f.line = id then i + 1 else fetchedEnd q id n (i + 1)
    | none => fetchedEnd q id n (i + 1)

/-- Where a task's commands end, as far as they have been read: after its TASK_END, or after its one command. -/
def taskLimit (q : Queue) (task : Task) : Word :=
  if q.open? = some task then fetchedEnd q task.id (q.tail - q.cmd).toNat q.cmd
  else if task.id = 0 then task.key + 1
  else
    match (q.inflight.filter (fun x => x.task = task)).getLast? with
    | some x => x.idx + 1
    | none => task.key

/-- The command is of the task (R188): a task's commands follow one another in the ring. -/
def commandOfTask (q : Queue) (task : Task) (idx : Word) : Bool :=
  (idx - task.key).toNat < (taskLimit q task - task.key).toNat

/-- A task aborts (R280): its issued commands stop, and its commands to come are passed over. A task whose abort
record is not yet posted does not abort again. -/
def abortTask (s : State) (g : Nat) (task : Task) (idx : Word) (e : CmdError) (tell : Bool := true) : State :=
  let t := g / 256
  let q := s.queue g
  if q.aborts.any (fun a => a.task = task) then s
  else
    let gone := q.inflight.filter (fun x => x.task = task)
    let atPoint := q.open? = some task || (task.id = 0 && task.key = q.cmd && gone = [])
    let s := s.setQueue g { q with
      inflight := q.inflight.map (fun x => if x.task = task then { x with dead := true } else x),
      aborts := q.aborts ++ [{ task, payload := abortPayload g task.id idx e, index := idx }],
      skip := (if q.open? = some task then some task.id else q.skip),
      open? := (if q.open? = some task then none else q.open?) }
    let s := s.count32 (tilA t 0x5020) 1
    let s := discardPrefetch s t g (commandOfTask q task)
    let s := stopUnits s t
      { dead := fun g' i => g' = g && gone.any (fun x => x.idx = i),
        task := fun g' k => g' = g && k = task.key } tell
    if !atPoint then s
    else if (s.queue g).skip.isSome then skipOn (s.modQueue g (fun q => restand s q)) g
    else skipOne s g

/-- The task of a command in flight aborts. -/
def abortCommand (s : State) (g : Nat) (idx : Word) (e : CmdError) (tell : Bool := true) : State :=
  match inflight? (s.queue g) idx with
  | some x => if x.dead then s else abortTask s g x.task idx e tell
  | none => s

/-- A command at the issue point forms a task by itself (R277). -/
def soloTask (idx : Word) : Task := { key := idx }

/-- The command at the issue point fails: its open task aborts, or it alone. -/
def failAtIssue (s : State) (g : Nat) (e : CmdError) : State :=
  let q := s.queue g
  abortTask s g (q.open?.getD (soloTask q.cmd)) q.cmd e

/-! ### Self-checkpoints that are about to start (R554) -/

/-- The generation of a party that is open in the module (R547). -/
def openGen (s : State) (p : Nat) : Option Gen := s.rk.gens.find? (fun g => g.party = p && !g.sealed)

/-- Self-checkpoint state of a party. -/
def selfCheck (s : State) (p : Nat) : SelfCheck := mget {} s.rk.selves p
def setSelfCheck (s : State) (p : Nat) (x : SelfCheck) : State :=
  { s with rk := { s.rk with selves := mset {} s.rk.selves p x } }

/-- Gated commands of the party wait: its self-checkpoint begins (R554). -/
def selfHolds (s : State) (p : Nat) : Bool :=
  let x := selfCheck s p
  x.armed.isSome && x.fenced && (openGen s p).isNone

/-- A voting fence of the party has reached its instant (R554). -/
def selfFence (s : State) (p : Nat) : State :=
  let x := selfCheck s p
  if x.armed.isSome then setSelfCheck s p { x with fenced := true } else s

/-! ### Issue (R266) -/

/-- A command that issues: its queue, tile, index, line, descriptor copies and task. -/
structure Cmd where
  g      : Nat
  t      : Nat
  idx    : Word
  line   : Line
  copies : SMap (Option Line)
  task   : Task

/-- What comes of a command that has passed steps 1 to 5 of R266. -/
inductive Issued where
  /-- its unit does not accept it, or a line it needs is not yet zeroed: it waits -/
  | wait
  /-- a check failed: it does not issue, and its task aborts -/
  | fail (e : CmdError) (s : State)
  /-- it is in flight -/
  | run (s : State)
  /-- it is in flight and its unit has finished -/
  | ready (s : State)
  /-- it completed at issue -/
  | done (s : State)
  /-- it issued, and met an error while it ran -/
  | broke (e : CmdError) (s : State)

/-- The task error of R277, if the command breaks its rules. -/
def taskError (q : Queue) (l : Line) : Bool :=
  let op := hdrOpcode l
  match q.open? with
  | none =>
    if op = 0x08 then hdrTask l ≠ lineField l 0x10 0 16
    else if op = 0x09 then true
    else hdrTask l ≠ 0
  | some t => op = 0x08 || hdrTask l ≠ t.id

/-- The task a command belongs to. -/
def taskOf (q : Queue) (l : Line) : Task :=
  match q.open? with
  | some t => t
  | none =>
    if hdrOpcode l = 0x08 then
      { id := lineField l 0x10 0 16, key := q.cmd, abortEn := lineField l 0x10 16 1 = 1,
        abortTally := lineField l 0x14 0 17, abortInc := lineField l 0x18 0 16 }
    else soloTask q.cmd

/-- The generator key of a seed slot as the tile holds it now (R93, R298). -/
def seedKey (s : State) (t slot : Nat) : Dword := mget 0 (s.tile t).seeds slot

/-- The issue point moves past a command that issued. -/
def passIssue (s : State) (c : Cmd) (new : List Inflight) : State :=
  let q := s.queue c.g
  let q := { q with inflight := q.inflight ++ new, fetched := mset none q.fetched c.idx.toNat none,
                    cmd := c.idx + 1 }
  let s := s.modTile c.t (fun x => { x with lastQueue := c.g % 256 })
  (s.setQueue c.g (restand s q true)).count64 (tilA c.t 0x5010) 1

/-- What an outcome of step 7 makes of the state. -/
def afterIssue (s : State) (c : Cmd) (r : Issued) : State :=
  let x : Inflight := { idx := c.idx, line := c.line, task := c.task }
  match r with
  | .wait => s
  | .fail e s => failAtIssue s c.g e
  | .run s => passIssue s c [x]
  | .ready s => passIssue s c [{ x with ready := true }]
  | .done s => signalFor (passIssue s c []) c.g c.line
  | .broke e s => abortCommand (passIssue s c [x]) c.g c.idx e

/-- Tile `t` issues: its units act, no shutdown holds it, and it is not changing its operating point (R610, R628). -/
def issuing (s : State) (t : Nat) : Bool :=
  active s && s.power.shutdown = 0 && (mget {} s.power.tiles t).point = .steady

/-- Mover of a MOVE or TRANSPOSE (R240). -/
def mvMover (l : Line) : Nat := lineField l 0x10 0 2

/-- The unit of a command (R266): an engine, a mover, the vector unit, the collective engine, the guide cores, the
rucksack path, or the control path. -/
def unitOf (l : Line) : Nat :=
  match hdrOpcode l with
  | 0x20 => mpEngine l
  | 0x30 => 4 + mvMover l
  | 0x31 => 4 + mvMover l
  | 0x10 => 8
  | 0x40 => 9
  | 0x06 => 10
  | 0x50 => 11
  | 0x51 => 11
  | 0x52 => 11
  | _ => 12

/-- A command of the control path that needs nothing of its own: its unit always accepts it. -/
def alwaysAccepted (l : Line) : Bool := [0x00, 0x02, 0x08, 0x09].contains (hdrOpcode l)

/-- What steps 2 to 4 of R266, and the gate, ask of the command `l` at the issue point of a queue. -/
def mayIssue (s : State) (g : Nat) (l : Line) : Bool :=
  let q := s.queue g
  let t := g / 256
  !(hdrWaitEn l && !waitSatisfied (s.tally (2048 * t + hdrWaitTally l)) (hdrWaitTarget l)) &&
  !((hdrSerial l || hdrOpcode l = 0x0C) && !q.inflight.isEmpty) && !q.fence &&
  !(hdrGate l && selfHolds s (tileParty s t))

/-- The command of a fetched line as it stands at the issue point. -/
def pointCmd (s : State) (g : Nat) (f : Fetched) : Cmd :=
  let q := s.queue g
  { g, t := g / 256, idx := q.cmd, line := f.line, copies := f.descs, task := taskOf q f.line }

/-- The unit refuses the command for now. -/
def Issued.waits : Issued → Bool
  | .wait => true
  | _ => false

/-- Queue `g'` has a command for the unit that could issue now (R266): one that its unit takes, of the opcodes that
`ok` accepts, or one that its unit always takes. -/
def contends (s : State) (ok : Nat → Bool) (effect : Cmd → State → Issued) (unit g' : Nat) : Bool :=
  standing (s.queue g') &&
  match commandLine s g' with
  | some (.ok f, s') =>
    unitOf f.line = unit && mayIssue s g' f.line && !taskError (s.queue g') f.line &&
    (if ok (hdrOpcode f.line) then !(effect (pointCmd s g' f) s').waits else alwaysAccepted f.line)
  | _ => false

/-- Queue `g'` goes before queue `g` of its tile (R266): by priority, then in turn after the queue that issued last. -/
def goesBefore (s : State) (g' g : Nat) : Bool :=
  let turn := fun (x : Nat) => (x + 511 - (s.tile (g / 256)).lastQueue) % 256
  let a := (s.queue g').priority
  let b := (s.queue g).priority
  b < a || (a = b && turn g' < turn g)

/-- Another queue of the tile goes first to the unit of the command (R266). -/
def outranked (s : State) (g : Nat) (ok : Nat → Bool) (effect : Cmd → State → Issued) (l : Line) : Bool :=
  s.queues.any (fun p => p.1 / 256 = g / 256 && p.1 ≠ g && goesBefore s p.1 g && contends s ok effect (unitOf l) p.1)

/-- The command at the issue point of queue `g`, of an opcode that `ok` accepts, issues when R266 lets it; `effect`
holds its unit's acceptance, its checks and what it does. -/
def issue (s : State) (g : Nat) (ok : Nat → Bool) (effect : Cmd → State → Issued) : State :=
  let q := s.queue g
  let t := g / 256
  if !issuing s t || !standing q then s
  else
    match commandLine s g with
    | none => s
    | some (.error e, s) => failAtIssue s g { err := e }
    | some (.ok f, s') =>
      let l := f.line
      if !ok (hdrOpcode l) || !mayIssue s g l then s
      else if taskError q l then failAtIssue s' g { err := .task }
      else if hdrGate l && (s.tile t).gateFail then signalFor (skipOne s' g) g l
      else if outranked s g ok effect l then s
      else afterIssue s (pointCmd s g f) (effect (pointCmd s g f) s')

/-! ### Commands of the control path -/

/-- NOP (R269): it waits and signals. -/
def execNop (g : Fin 16384) (s : State) : Host.Outcome State Fault Refusal :=
  .next (issue s g.val (· = 0x00) (fun _ s => .done s))

/-- TALLY_SET (R276). -/
def execTallySet (g : Fin 16384) (s : State) : Host.Outcome State Fault Refusal :=
  .next (issue s g.val (· = 0x02) (fun c s =>
    let k := 2048 * c.t + lineField c.line 0x10 0 11
    let v := lineField c.line 0x14 0 31
    .done (s.setTally k (if lineField c.line 0x10 11 1 = 1 then s.tally k + v else v))))

/-- The seeds of both table lines: slot k at byte 8k (R298). -/
def tableSeeds (a b : Line) : SMap Dword :=
  (List.range 16).foldl (fun m k =>
    mset 0 m k (BitVec.ofNat 64 (bits (if k < 8 then a else b).toNat (64 * (k % 8)) 64))) []

/-- SET_SEED (R298). -/
def execSetSeed (g : Fin 16384) (s : State) : Host.Outcome State Fault Refusal :=
  .next (issue s g.val (· = 0x04) (fun c s =>
    if lineField c.line 0x10 4 1 = 0 then
      let v : Dword := BitVec.ofNat 64 (lineField c.line 0x18 0 64)
      .done (s.modTile c.t (fun x => { x with seeds := mset 0 x.seeds (lineField c.line 0x10 0 4) v }))
    else
      let slot := lineField c.line 0x14 0 24
      if !(inScratch s c.t (64 * slot) && inScratch s c.t (64 * slot + 64)) then
        .fail { err := .address, slot, field := 0 } s
      else if !linesReady s c.t [64 * slot, 64 * slot + 64] then .wait
      else
        match readLines s c.t [64 * slot, 64 * slot + 64] .normal with
        | ([some a, some b], s) => .done (s.modTile c.t (fun x => { x with seeds := tableSeeds a b }))
        | (_, s) => .fail { err := lineError s c.t [64 * slot, 64 * slot + 64], slot, field := 0 } s))

/-- TASK_BEGIN (R278). -/
def execTaskBegin (g : Fin 16384) (s : State) : Host.Outcome State Fault Refusal :=
  .next (issue s g.val (· = 0x08) (fun c s =>
    if c.task.id = 0 then .fail { err := .encoding } s
    else .done (s.modQueue c.g (fun q => { q with open? := some c.task }))))

/-- TASK_END (R278): it closes the task, and completes once every other command of it has. -/
def execTaskEnd (g : Fin 16384) (s : State) : Host.Outcome State Fault Refusal :=
  .next (issue s g.val (· = 0x09) (fun c s => .ready (s.modQueue c.g (fun q => { q with open? := none }))))

/-- Opcodes of the table of R269. -/
def opcodes : List Nat :=
  [0x00, 0x02, 0x04, 0x05, 0x06, 0x08, 0x09, 0x0C, 0x10, 0x20, 0x30, 0x31, 0x40, 0x50, 0x51, 0x52]

/-- A command with a reserved opcode (R269). -/
def execReservedOpcode (g : Fin 16384) (s : State) : Host.Outcome State Fault Refusal :=
  .next (issue s g.val (fun op => !opcodes.contains op) (fun _ s => .fail { err := .encoding } s))

/-- TASK_ABORT (R279, R280): a command in flight, or the one at the issue point, meets an error. -/
def execTaskAbort (g : Fin 16384) (idx : Word) (e : CmdError) (s : State) : Host.Outcome State Fault Refusal :=
  if !active s then .next s
  else
    match inflight? (s.queue g.val) idx with
    | some _ => .next (abortCommand s g.val idx e)
    | none =>
      if standing (s.queue g.val) && (s.queue g.val).cmd = idx then .next (failAtIssue s g.val e) else .next s

/-- The first aborted task of a queue whose issued commands have all stopped (R280). -/
def quietAbort? (s : State) (g : Nat) : Option PendingAbort :=
  (s.queue g).aborts.find? (fun a =>
    (s.queue g).inflight.all (fun x => x.task ≠ a.task || quietCommand s g x.idx))

/-- ABORT_QUIESCED (R280): the abort record is posted and ABORT_TALLY is signalled. -/
def execAbortQuiesced (g : Fin 16384) (s : State) : Host.Outcome State Fault Refusal :=
  match quietAbort? s g.val with
  | none => .next s
  | some a =>
    if !active s then .next s
    else
      let t := g.val / 256
      let s := s.modQueue g.val (fun q =>
        { q with inflight := q.inflight.filter (fun x => x.task ≠ a.task), aborts := q.aborts.erase a,
                 lastAbort := BitVec.ofNat 128 (a.payload.toNat + 2 ^ 96 * a.index.toNat) })
      let s := post s 0x20 (srcTile t 0) a.payload.toNat (tileParty s t)
      .next (if a.task.abortEn then raiseTally s g.val (myModule s) a.task.abortTally a.task.abortInc else s)

/-! ### Registers of a queue and of tallies (R260 to R264, R275, R282, R300, R301) -/

/-- Effect of a doorbell (R260). -/
def ringDoorbell (s : State) (g : Nat) (v : Word) : State :=
  let q := s.queue g
  let h := queueHead q
  if (v - h).toNat ≤ 2 ^ q.sizeLog2 && (v - q.tail).toNat ≤ (v - h).toNat then
    skipOn (s.setQueue g (restand s { q with tail := v })) g
  else post s 0x22 (srcTile (g / 256) 0) (g + 2 ^ 32 * v.toNat) (tileParty s (g / 256))

/-- Effect of a write to `PTY_TALLYk_VALUE` and to `PTY_TALLYk_ADD` (R275). -/
def tallyWrite (s : State) (k : Nat) (v : Word) : State := s.setTally k (bits v.toNat 0 31)
def tallyAdd (s : State) (k : Nat) (v : Word) : State := s.setTally k (s.tally k + bits v.toNat 0 16)

/-- A write to a register of queue `g` at offset `o` of its block, through the page of the path's party or, for a
master, of the tile's (R262). -/
def queueWrite (s : State) (p : Path) (g o : Nat) (data : Word) (effect : State → State) : State :=
  let t := g / 256
  let off := 0x80 * g + o
  match p with
  | .vf _ q =>
    partyWrite s p q.val off data (fun s =>
      if tileParty s t = q.val then effect s else accessError s { path := p, off } 1)
  | _ => partyWrite s p (tileParty s t) off data effect

/-- The access that a write to a queue register makes, as ACCESS_ERROR names it. -/
def queueAccess (s : State) (p : Path) (g o : Nat) : Access :=
  match p with
  | .vf _ _ => { path := p, off := 0x80 * g + o }
  | _ => { path := p, off := ptyA (tileParty s (g / 256)) (0x80 * g + o) }

/-- The tasks of a queue whose indices start again no longer count as users of its tile's engines (R122). -/
def forgetUsers (s : State) (g : Nat) : State :=
  s.each (List.range 4) (fun e s =>
    let x := s.engine (4 * (g / 256) + e)
    s.setEngine (4 * (g / 256) + e)
      { x with users := x.users.filter (fun u => u.1 ≠ g || (s.queue g).open?.any (fun k => k.key = u.2)) })

/-- Effect of a write to `PTY_Qg_RING` (R263): commands from HEAD up to TAIL are incomplete. The copies that fetch-ahead
held go with the old ring. -/
def ringWrite (s : State) (p : Path) (g : Nat) (v : Word) : State :=
  let q := s.queue g
  if q.enable || queueHead q ≠ q.tail then accessError s (queueAccess s p g 0x10) 2
  else
    let q := { q with base := bits v.toNat 0 24, sizeLog2 := clampTo 4 16 (bits v.toNat 24 5), tail := 0, cmd := 0,
                      fetched := [] }
    (forgetUsers s g).setQueue g (restand s q)

/-- QUEUE_RING_WRITE (R263). -/
def execQueueRingWrite (p : Path) (g : Fin 16384) (v : Word) (s : State) : Host.Outcome State Fault Refusal :=
  .next (queueWrite s p g.val 0x10 v (fun s => ringWrite s p g.val v))

/-- Effect of a write to `PTY_Qg_CTRL` (R262 to R264, R300). -/
def ctrlWrite (s : State) (p : Path) (g : Nat) (v : Word) : State :=
  let q := s.queue g
  let want := bits v.toNat 0 1 = 1
  let ok := ringInScratch s (g / 256) q
  let s := if want && !q.enable && !ok then accessError s (queueAccess s p g 0x14) 2 else s
  let q := { q with enable := want && (q.enable || ok), faDepth := bits v.toNat 1 5, priority := bits v.toNat 6 2,
                    stallMs := min 60000 (bits v.toNat 16 16) }
  skipOn (s.setQueue g (restand s q)) g

/-- QUEUE_CTRL_WRITE (R262 to R264). -/
def execQueueCtrlWrite (p : Path) (g : Fin 16384) (v : Word) (s : State) : Host.Outcome State Fault Refusal :=
  .next (queueWrite s p g.val 0x14 v (fun s => ctrlWrite s p g.val v))

/-- A fold of `TIL_MEM_CFG` disables every enabled queue whose ring it leaves partly outside scratch, and posts the
event (R263). -/
def strandRings (s : State) (t : Nat) : State :=
  s.each ((s.queues.filter (fun p => p.1 / 256 = t)).map (·.1)) (fun g s =>
    let q := s.queue g
    if q.enable && !ringInScratch s t q then
      let q := { q with enable := false }
      ownAccessError (s.setQueue g (restand s q)) (ptyA (tileParty s t) (0x80 * g + 0x14)) 2
    else s)

/-- The memory registers of a tile fold (R189, R207, R223, R263). -/
def foldMemory (s : State) (t : Nat) : State := strandRings (foldMem s t) t

/-- MEM_FOLD (R223). -/
def execMemFold (p : Path) (t : Fin 64) (s : State) : Host.Outcome State Fault Refusal :=
  .next (ownerWrite s p (tilA t.val 0x3004) 1 (fun s => foldMemory s t.val))

/-- Effect of writing 1 to `PTY_Qg_ABORT.GO` (R282). -/
def requestAbort (s : State) (g : Nat) : State :=
  let q := s.queue g
  if q.open?.isSome || (q.skip.isNone && q.cmd ≠ q.tail) then failAtIssue s g { err := .request } else s

/-- QUEUE_ABORT (R282). -/
def execQueueAbort (p : Path) (g : Fin 16384) (s : State) : Host.Outcome State Fault Refusal :=
  .next (queueWrite s p g.val 0x1C 1 (fun s => requestAbort s g.val))

/-- Why the command at the issue point waits (R300): the reason, the waited tally's number and the target. -/
def stallReason (s : State) (g : Nat) : Nat × Nat × Nat :=
  let q := s.queue g
  let t := g / 256
  match commandLine s g with
  | some (.ok f, _) =>
    let l := f.line
    let k := 2048 * t + hdrWaitTally l
    if q.fence then (3, 0, 0)
    else if hdrWaitEn l && !waitSatisfied (s.tally k) (hdrWaitTarget l) then (0, k, hdrWaitTarget l)
    else if (hdrSerial l || hdrOpcode l = 0x0C) && !q.inflight.isEmpty then (1, 0, 0)
    else (2, 0, 0)
  | _ => (2, 0, 0)

/-- STALL_TIMEOUT (R300, R301): the stall has lasted STALL_MS. -/
def execStallTimeout (g : Fin 16384) (s : State) : Host.Outcome State Fault Refusal :=
  let q := s.queue g.val
  let t := g.val / 256
  match q.stallFrom with
  | none => .next s
  | some from_ =>
    if q.stall || q.stallMs = 0 || !standing q || !active s then .next s
    else
      let s := passToTime s (from_ + 1000000 * q.stallMs)
      let (reason, tally, target) := stallReason s g.val
      let low := g.val + 2 ^ 14 * reason + 2 ^ 16 * tally + 2 ^ 33 * target
      let payload := low + 2 ^ 64 * (if reason = 0 then s.tally tally else 0)
      let s := s.modQueue g.val (fun q => { q with stall := true, stallInfo := BitVec.ofNat 64 low })
      .next (post (s.count32 (tilA t 0x5024) 1) 0x21 (srcTile t 0) payload (tileParty s t))

end Sys2Proof.Machine
end

