-- ==== Sys2Proof/Machine/Ramp.lean ====
section
/-! DEFINITION. The broadcast cycles of a matrix engine: what a cycle carries and why an idle one is idle
(spec/03 R111, R114 to R120, R123 to R125), and the ramp of an engine or vector unit (R126, R127, spec/17 R617, R622). -/

namespace Sys2Proof.Machine

open Sys2Proof

/-- The code of R137. -/
def Ramp.code : Ramp → Nat
  | .run => 0 | .hold => 1 | .fall => 2 | .cold => 3 | .rise => 4

/-- Bits of a number that are 1, among its lowest `n`. -/
def countOnes : Nat → Nat → Nat
  | 0, _ => 0
  | n + 1, w => w % 2 + countOnes n (w / 2)

/-- A: active cycles among the last 64 (R126). -/
def activeCount (e : Engine) : Nat := countOnes 64 e.history.toNat

/-! ### The ramp (R126) -/

/-- WINDOW and RAMP of a unit, and the density cap that the throttle asks for (R126, R135, R622). -/
structure Pace where
  window : Nat
  step   : Nat
  target : Nat

/-- What a broadcast cycle is offered: no valid vector, a valid vector, or a later part of a vector under way, which
nothing holds back (R111). -/
inductive Offer where
  | nothing | vector | onward
deriving DecidableEq, Repr

/-- What a cycle carries. -/
inductive Carried where
  | valid | held | thermos | idle
deriving DecidableEq, Repr

/-- The ramp and the density cap let a valid vector go now (R126, R622). -/
def mayBroadcast (e : Engine) : Bool :=
  match e.ramp with
  | .run => e.cap = 64 || activeCount e < e.cap
  | .hold => e.cap = 64 || activeCount e < e.cap
  | .rise => activeCount e < min e.limit e.cap
  | _ => false

/-- An idle cycle carries a thermos operation: A is below D, which the cap limits, and a vector can be replayed
(R125, R126, R622). The cycle in which the idle run of HOLD reaches WINDOW carries none (assumption log entry 145). -/
def thermosNow (pace : Pace) (e : Engine) : Bool :=
  !e.replay.isEmpty && activeCount e < min e.limit e.cap &&
  (match e.ramp with
    | .hold => e.idleRun + 1 < pace.window
    | .fall => true
    | .rise => true
    | _ => false)

/-- What the cycle carries. -/
def carried (pace : Pace) (o : Offer) (e : Engine) : Carried :=
  match o with
  | .onward => .valid
  | .vector => if mayBroadcast e then .valid else .held
  | .nothing => if thermosNow pace e then .thermos else .idle

/-- D after the cycle, with the count of RAMP cycles (R126): FALL lowers it, and RISE raises it. D on entering HOLD is A
before the idle cycle is counted (assumption log entry 145). -/
def nextLimit (pace : Pace) (o : Offer) (e : Engine) : Nat × Nat :=
  let due := decide (pace.step ≤ e.rampRun + 1)
  match e.ramp with
  | .run => (if o = .nothing then activeCount e else e.limit, 0)
  | .hold => (e.limit, 0)
  | .cold => (e.limit, 0)
  | .fall => if due then (e.limit - 1, 0) else (e.limit, e.rampRun + 1)
  | .rise => if due then (min 64 (e.limit + 1), 0) else (e.limit, e.rampRun + 1)

/-- The ramp state after a cycle that was offered `o` and carried `k`, with D `limit` at its end (R126). -/
def nextRamp (pace : Pace) (o : Offer) (k : Carried) (e : Engine) (limit : Nat) (stepped : Bool) : Ramp :=
  let ended := o = .nothing && decide (pace.window ≤ e.idleRun + 1)
  match e.ramp with
  | .run => if o = .nothing then .hold else .run
  | .hold => if ended then .fall else if k = .valid then .run else .hold
  | .fall => if o = .vector then .rise else if stepped && limit = 0 then .cold else .fall
  | .cold => if o = .vector then .rise else .cold
  | .rise => if ended then .fall else if limit = 64 then .run else .rise

/-- The density cap after the cycle: every RAMP cycles one step toward what the throttle asks for (R622). -/
def nextCap (pace : Pace) (e : Engine) : Nat × Nat :=
  if e.cap = pace.target then (e.cap, 0)
  else if pace.step ≤ e.capRun + 1 then (if e.cap < pace.target then e.cap + 1 else e.cap - 1, 0)
  else (e.cap, e.capRun + 1)

/-- One broadcast cycle of a unit's ramp, and what it carried (R125, R126). A thermos operation replays the vectors of
the buffer in rotation, and its orientation is then the last one broadcast. -/
def rampCycle (pace : Pace) (o : Offer) (e : Engine) : Carried × Engine :=
  let k := carried pace o e
  let lim := nextLimit pace o e
  let stepped := (e.ramp = .fall || e.ramp = .rise) && lim.2 = 0
  let ramp := nextRamp pace o k e lim.1 stepped
  let cap := nextCap pace e
  let hot := decide (k = .thermos)
  let active := hot || decide (k = .valid)
  let replayed := e.replay[e.turn % e.replay.length]?
  (k, { e with ramp, limit := if ramp = .run then 64 else lim.1, rampRun := if ramp = e.ramp then lim.2 else 0,
               cap := cap.1, capRun := cap.2,
               history := (e.history <<< 1) ||| (if active then 1 else 0),
               idleRun := if o = .nothing then e.idleRun + 1 else 0,
               turn := if hot then (e.turn + 1) % e.replay.length else e.turn,
               orient := if hot then (replayed.map (·.trans)).getD e.orient else e.orient })

/-! ### What the engine is offered (R114, R117, R119, R120, R124) -/

/-- What stands at the engine's broadcast port: a later part of a KF16 vector, a vector of the running pass, the first
vector of the next pass, or the class of the idle cycle (R114). -/
inductive BroadcastSlot where
  | onward (p : Pass)
  | vector (p : Pass)
  | first (p : Pass)
  | gap | load | drain | dry | none
deriving DecidableEq, Repr

/-- Vectors of a pass whose input rows have arrived. -/
def readyVectors (p : Pass) : Nat := min (mpVectors p.line) (p.rows.length + 1 - mpTaps p.line)

/-- The lanes of the pass's next broadcast cycle are all there (R103, R113). -/
def lanesReady (p : Pass) : Bool :=
  decide (min (mpVectors p.line) (p.sent + (pairLanes p.line).getD 1) ≤ readyVectors p)

/-- The pass that broadcasts: it has begun, and vectors of it are left. -/
def runningPass (x : Engine) : Option Pass := x.passes.find? (fun p => p.begun && p.sent < mpVectors p.line)
/-- The pass that has still to broadcast its first vector. -/
def nextPass (x : Engine) : Option Pass := x.passes.find? (fun p => !p.begun)

/-- Row pairs of a load of `rows` rows that must be written before row group `g` switches (R115, R119). -/
def pairsFor (rows g : Nat) : Nat := (min rows (64 * (g + 1)) + 1) / 2

/-- The load conditions of R119 hold for a first broadcast in this cycle: the rows of each group are written by the
cycle in which the vector reaches it, in transposed orientation all rows now. -/
def loadMet (x : Engine) (p : Pass) : Bool :=
  mpKeep p.line || (p.loaded &&
    (let rows := mpRows p.line
     let written := (rows + 1) / 2 - x.bus + 1
     if mpTrans p.line then decide ((rows + 1) / 2 ≤ written)
     else (List.range 4).all (fun g => rows ≤ 64 * g || pairsFor rows g ≤ written + g)))

/-- The cycle lies in an orientation change or in the priming of the next pass's row hold (R114, R120, R124). -/
def inGap (x : Engine) (p : Pass) : Bool :=
  (x.wired != mpTrans p.line && x.since < 4) || (p.primed + 1 < mpTaps p.line && p.primed < p.rows.length)

/-- What the broadcast port is offered in this cycle, the first class of R114 that applies. A drain-only pass that waits
for its bank counts as DRAIN, and passes that have only to complete as NONE (assumption log entry 146). -/
def slotOf (x : Engine) : BroadcastSlot :=
  match runningPass x with
  | some p => if p.part ≠ 0 then .onward p else if lanesReady p then .vector p else .dry
  | none =>
    match nextPass x with
    | some p =>
      if inGap x p then .gap
      else if !loadMet x p then .load
      else if !p.admitted then .drain
      else if p.primed + 1 < mpTaps p.line || !lanesReady p then .dry
      else .first p
    | none => if x.passes.any (fun p => drainOnly p.line && !p.admitted) then .drain else .none

/-- Offer of a slot to the ramp. -/
def BroadcastSlot.offer : BroadcastSlot → Offer
  | .onward _ => .onward
  | .vector _ => .vector
  | .first _ => .vector
  | _ => .nothing

/-! ### Cycles of an engine -/

/-- Moving vector v of a pass: TAPS input rows together (R123). -/
def movingVector (p : Pass) (v : Nat) : List Num :=
  (List.range (mpTaps p.line)).flatMap (fun j => p.rows.getD (v + j) [])

/-- The lanes of pass `p` are broadcast: a KF16 vector in four cycles, any other lanes in one; the vectors enter the
replay buffer (R103, R111, R125). -/
def carryLanes (x : Engine) (p : Pass) : Engine :=
  let wide := mpMFmt p.line = 1
  let n := if p.part ≠ 0 then 0 else min (mpVectors p.line - p.sent) ((pairLanes p.line).getD 1)
  let fresh := (List.range n).map (fun k =>
    ({ vector := movingVector p (p.sent + k), fmt := mpMFmt p.line, trans := mpTrans p.line } : Replayed))
  let buffer := x.replay ++ fresh
  let last := wide && p.part = 3
  { withPass x p (fun y =>
      if wide then { y with part := (p.part + 1) % 4, sent := p.sent + last.toNat, holds := y.holds }
      else { y with sent := p.sent + n }) with
    replay := buffer.drop (buffer.length - 64), orient := mpTrans p.line, wired := mpTrans p.line }

/-- The pass's first broadcast: it runs on the shadow, or on the operand in force with KEEP, and the weight front
follows it; the pass before it gives up its place (R116 to R118, R121). -/
def beginPass (x : Engine) (p : Pass) : Engine :=
  let keep := mpKeep p.line
  let now := if keep then x.active else x.shadow
  { x with active := now, shadow := if keep then x.shadow else none,
           frontIn := if keep then x.frontIn else if mpTrans p.line then 4 else 1,
           passes := x.passes.map (fun y =>
             if y.queue = p.queue && y.idx = p.idx then { y with begun := true, stat := now }
             else if y.begun && !drainOnly y.line then { y with holds := false } else y) }

/-- What goes on in every cycle beside the broadcast: the load bus writes a row pair, a front moves, and the row hold of
the next pass primes (R115, R116, R124). -/
def elapse (valid : Bool) (slot : BroadcastSlot) (x : Engine) : Engine :=
  let x := { x with bus := x.bus - 1, frontIn := x.frontIn - 1, since := if valid then 0 else min 4 (x.since + 1) }
  match slot, nextPass x with
  | .gap, some p => withPass x p (fun y =>
      if y.primed + 1 < mpTaps y.line && y.primed < y.rows.length then { y with primed := y.primed + 1 } else y)
  | _, _ => x

/-- Count a cycle in its class (R114, R138). -/
def addCycle (c : Cycles) (slot : BroadcastSlot) (k : Carried) : Cycles :=
  let c := if k = .thermos then { c with thermos := c.thermos + 1 } else c
  match k, slot with
  | .valid, _ => { c with valid := c.valid + 1 }
  | .held, _ => { c with ramp := c.ramp + 1 }
  | _, .gap => { c with gap := c.gap + 1 }
  | _, .load => { c with load := c.load + 1 }
  | _, .drain => { c with drain := c.drain + 1 }
  | _, .dry => { c with dry := c.dry + 1 }
  | _, _ => { c with none := c.none + 1 }

/-- One broadcast cycle of an engine (R110 to R126). -/
def engineCycle (pace : Pace) (c : Cycles) (x : Engine) : Cycles × Engine :=
  let slot := slotOf x
  let (k, y) := rampCycle pace slot.offer x
  let y := match k, slot with
    | .valid, .onward p => carryLanes y p
    | .valid, .vector p => carryLanes y p
    | .valid, .first p => carryLanes (beginPass y p) p
    | _, _ => y
  (addCycle c slot k, elapse (k = .valid) slot y)

/-- A first vector stands ready and nothing holds it back: PASS_FIRST_BROADCAST broadcasts it. -/
def firstReady (x : Engine) : Bool :=
  match slotOf x with
  | .first _ => mayBroadcast x
  | _ => false

/-- Up to `n` broadcast cycles of an engine; they end before a pass's first broadcast, which is a command of its own. -/
def engineCycles (pace : Pace) : Nat → Cycles → Engine → Cycles × Engine
  | 0, c, x => (c, x)
  | n + 1, c, x =>
    if firstReady x then (c, x)
    else
      let (c, x) := engineCycle pace c x
      engineCycles pace n c x

/-! ### Cycles of a unit of the state -/

def meA (t e o : Nat) : Nat := tilA t (0x2000 + 0x100 * e + o)

/-- The throttle level in force: 0 none to 3 for 25 % (R621). -/
def throttleLevel (s : State) : Nat := s.power.causes.foldl (fun m p => max m p.2.level) 0

/-- The density cap of a level (R622). -/
def levelCap (level : Nat) : Nat := 64 - 16 * level

/-- The pace of the unit whose WINDOW and RAMP stand in the word at `a` (R135, R633). -/
def paceAt (s : State) (a : Nat) : Pace :=
  { window := s.field a 0 13, step := s.field a 16 14, target := levelCap (throttleLevel s) }

def enginePace (s : State) (t e : Nat) : Pace := paceAt s (meA t e 0)
def vectorPace (s : State) (t : Nat) : Pace := paceAt s (tilA t 0x9004)

/-- Cycles join the engine's counters (R138). -/
def countCycles (s : State) (t e : Nat) (c : Cycles) : State :=
  let s := s.count64 (meA t e 0x10) c.valid
  let s := s.count64 (meA t e 0x18) c.dry
  let s := s.count64 (meA t e 0x20) c.drain
  let s := s.count64 (meA t e 0x28) c.load
  let s := s.count64 (meA t e 0x30) c.gap
  let s := s.count64 (meA t e 0x38) c.ramp
  let s := s.count64 (meA t e 0x40) c.none
  s.count64 (meA t e 0x48) c.thermos

/-- Up to `n` broadcast cycles of engine `e` of tile `t` pass and are counted. -/
def passCycles (s : State) (t e n : Nat) : State :=
  let y := engineCycles (enginePace s t e) n {} (s.engine (4 * t + e))
  countCycles (s.setEngine (4 * t + e) y.2) t e y.1

/-- `n` cycles of a unit's ramp in which no valid vector is ready. -/
def idleCycles (pace : Pace) : Nat → Engine → Engine
  | 0, e => e
  | n + 1, e => idleCycles pace n (rampCycle pace .nothing e).2

/-- Cycles until the idle run reaches WINDOW in HOLD or RISE (R126). -/
def untilWindow (pace : Pace) (e : Engine) : Nat :=
  if e.ramp = .hold || e.ramp = .rise then pace.window - e.idleRun else 0

/-- Cycles until D's next step in FALL or RISE, else until the cap's (R126, R622). -/
def untilStep (pace : Pace) (e : Engine) : Nat :=
  if e.ramp = .fall || e.ramp = .rise then pace.step - e.rampRun
  else if e.cap ≠ pace.target then pace.step - e.capRun else 0

/-- Let a unit's cycles pass, as many as `f` says: engines 0 to 3, and 4 the vector unit, idle (R617). -/
def unitCycles (s : State) (t u : Nat) (f : Pace → Engine → Nat) : State :=
  if u < 4 then passCycles s t u (f (enginePace s t u) (s.engine (4 * t + u)))
  else s.modTile t (fun x => { x with vecRamp := idleCycles (vectorPace s t) (f (vectorPace s t) x.vecRamp) x.vecRamp })

/-- ENGINE_WINDOW_EXPIRED (R126): the cycles pass that bring the idle run to WINDOW. -/
def execEngineWindowExpired (t : Fin 64) (u : Fin 5) (s : State) : Host.Outcome State Fault Refusal :=
  .next (if panelRuns s then unitCycles s t.val u.val untilWindow else s)

/-- ENGINE_RAMP_STEP (R126, R622): the cycles pass that bring D, or the cap, to its next step. -/
def execEngineRampStep (t : Fin 64) (u : Fin 5) (s : State) : Host.Outcome State Fault Refusal :=
  .next (if panelRuns s then unitCycles s t.val u.val untilStep else s)

/-! ### The vector unit's ramp (R617) -/

/-- The vector unit works for `n` cycles: it leaves HOLD, FALL and COLD, and D takes the steps of RISE that fall due. Its
held cycles are timing that the model leaves out: it does not wait for D (DESIGN CHOICE, assumption log entry 35). -/
def workCycles (pace : Pace) (n : Nat) (e : Engine) : Engine :=
  let woken := e.ramp = .fall || e.ramp = .cold
  let e := if woken then { e with ramp := .rise, rampRun := 0 } else if e.ramp = .hold then { e with ramp := .run, limit := 64 } else e
  let due := e.rampRun + n
  let e := if e.ramp = .rise then { e with limit := min 64 (e.limit + due / max 1 pace.step), rampRun := due % max 1 pace.step } else e
  { e with ramp := if e.ramp = .rise && 64 ≤ e.limit then .run else e.ramp, idleRun := 0,
           history := (List.range (min n 64)).foldl (fun h _ => (h <<< 1) ||| 1) e.history,
           replay := [{ vector := [], fmt := 0, trans := false }] }

/-- A vector command or a recomputation works for `n` cycles. -/
def vecWork (s : State) (t n : Nat) : State :=
  s.modTile t (fun x => { x with vecRamp := workCycles (vectorPace s t) n x.vecRamp })

end Sys2Proof.Machine
end

