-- ==== Sys2Proof/Machine/Flags.lean ====
section
/-! DEFINITION. Every flag computation: the health flags of matrix passes, drains and vector commands, and the tile's
health summary (spec/04 R158 to R160, R176). -/

namespace Sys2Proof.Machine

open Sys2Proof

/-- NAN, PINF and NINF of a value in its format (R158). -/
def numFlags : Num → Nat
  | .nan _ => 1
  | .inf false => 2
  | .inf true => 4
  | .fin _ _ _ => 0

/-- NAN, PINF and NINF of an element code. -/
def codeFlags (f : Fmt) (c : Nat) : Nat := numFlags (decodeNum f c)

/-- The flags of a list of values. -/
def flagsOf (vs : List Num) : Nat := vs.foldl (fun a v => a ||| numFlags v) 0

/-- SAT for results that clamp, in KF8 and KG8 (R158). -/
def satFlag (f : Fmt) (v : Num) (sat : Bool) : Nat :=
  if sat && v.isFinite && (f = .kf8 || f = .kg8) then 8 else 0

/-- Flags of a quantised block: SAT, NANBLK with the NaN that every element of such a block reads as, and the
non-finite escape values that it writes. -/
def blockFlags (q : QBlock) : Nat :=
  (if q.sat then 8 else 0) ||| (if q.isNan then 17 else 0) |||
  (if 1 ≤ q.esc.count then codeFlags .kf16 q.esc.val0 else 0) |||
  (if 2 ≤ q.esc.count then codeFlags .kf16 q.esc.val1 else 0)

/-- A health slot's register (R176). -/
def healthA (t n : Nat) : Nat := tilA t (0x18000 + 4 * (n % 256))

/-- Set flags of a health slot; they are sticky (R159). -/
def setHealth (s : State) (t n flags : Nat) : State :=
  if flags = 0 then s else s.setReg (healthA t n) (s.reg (healthA t n) ||| BitVec.ofNat 32 flags)

/-- A slot takes part in the health summary (R160, R176). -/
def votes (s : State) (t n : Nat) : Bool := s.field (tilA t (0x18400 + 4 * (n / 32))) (n % 32) 1 = 1

/-- `TIL_HEALTH_SUM.NONFINITE` (R160). -/
def nonfinite (s : State) (t : Nat) : Bool :=
  (List.range 256).any (fun n => votes s t n && s.field (healthA t n) 0 3 ≠ 0)

/-- `TIL_HEALTH_SUM` (R176). -/
def healthSum (s : State) (t : Nat) : Nat :=
  (nonfinite s t).toNat +
  2 * ((List.range 256).any (fun n => s.field (healthA t n) 3 1 = 1)).toNat +
  4 * ((List.range 256).any (fun n => s.field (healthA t n) 4 1 = 1)).toNat

end Sys2Proof.Machine
end

