-- ==== Sys2Proof/Machine/Watch.lean ====
section
/-! DEFINITION. Watches and retained rows, shared by drains and vector commands (spec/04 R162 to R164, R174). -/

namespace Sys2Proof.Machine

open Sys2Proof

/-- A register of watch `w` (R174). -/
def watchA (t w o : Nat) : Nat := tilA t (0x10000 + 0x80 * w + o)

/-- RETAIN of a watch (R175). -/
def retains (s : State) (t w : Nat) : Bool := s.field (watchA t w 0) 0 1 = 1

/-- Active taster settings of a tile (R172). -/
def tasteRate (s : State) (t : Nat) : Nat := s.field (tilA t 0x2C00) 0 4
def tastePhase (s : State) (t : Nat) : Nat := s.field (tilA t 0x2C00) 4 10

/-- Write the sampled rows of a K4 or K2 result in KF16 (R164, R295): rows by global row, with their values. The
result is the error of a line that the memory did not take. -/
def retainRows (s : State) (t w rate phase : Nat) (d : Desc) (rows : List (Nat × List Num)) (who : MirrorOwner) :
    Option Err × State :=
  let sel := rows.filter (fun r => sampledRow rate phase r.1)
  let codes := sel.flatMap (fun r => r.2.map (fun v => (encodeNum .kf16 .rne 0 v).1))
  if descCount d = codes.length then
    storeLines s t d (fillLines d 0 (descLines d) (fun n => codes.getD n 0)) who
  else (none, s.count32 (watchA t w 0x14) sel.length)

end Sys2Proof.Machine
end

