-- ==== Sys2Proof/Machine/Engine.lean ====
section
/-! DEFINITION. MATRIX_PASS: its fields and checks, the engine's places, loads, broadcasts and pass sums
(spec/03_matrix_engine.md R102 to R138, spec/04 R139 to R147). -/

namespace Sys2Proof.Machine

open Sys2Proof

/-! ### Checks (R133) -/

/-- The conditions on the command's own fields, in table order. -/
def passFieldError (l : Line) : Option Err :=
  let only := drainOnly l
  let n := mpVectors l
  let top := if mpTrans l then 256 else 512
  let bad16 := lineField l 0x34 12 1 = 1
  if bad16 || (!only && ((pairLanes l).isNone || 2 ≤ mpInit l || 2 ≤ mpAccRnd l || mpTaps l = 0)) then some .encoding
  else if mpDrain l && (4 < mpDrainFmt l || (mpDrainRnd l = 3 && mpDrainFmt l ≠ 0 && mpDrainFmt l ≠ 3)) then
    some .encoding
  else if n = 0 && !mpDrain l then some .encoding
  else if only then none
  else if mpRows l = 0 || 256 < mpRows l || mpCols l = 0 || 128 < mpCols l then some .shape
  else if top < n || top < mpAccRow l + n then some .shape
  else if 2 ≤ mpTaps l && mpLen l % (32 * mpTaps l) ≠ 0 then some .shape
  else none

/-- Slots of an operand that starts at `slot`: one, or the two or three of a block-scaled one (R131). -/
def blockSlots (fmt slot : Nat) (noEsc : Bool) : List Nat :=
  if fmt = 4 || fmt = 5 then (if noEsc then [slot, slot + 1] else [slot, slot + 1, slot + 2]) else [slot]

/-- The slots of MREF and SREF (R165). -/
def mrefSlot (l : Line) : Nat := mpMSlot l + (if mpMNoEsc l then 2 else 3)
def srefSlot (l : Line) : Nat := mpSSlot l + (if mpSNoEsc l then 2 else 3)

/-- The slots that a pass reads as operands and results, in the order of its fields; `ext` says whether its drain
has an extent, `keepRows` whether it retains rows. -/
def passSlots (l : Line) (ext keepRows : Bool) : List Nat :=
  (if drainOnly l || mpKeep l then [] else blockSlots (mpSFmt l) (mpSSlot l) (mpSNoEsc l)) ++
  (if drainOnly l then [] else blockSlots (mpMFmt l) (mpMSlot l) (mpMNoEsc l)) ++
  (if mpDrain l && ext then
    blockSlots (mpDrainFmt l) (mpOutSlot l) false ++ (if keepRows then [mpOutSlot l + 3] else []) ++
    (if mpFuseNorm l || mpFuseSum l then [mpStatSlot l] else [])
  else [])

/-- The pass retains rows: a K4 drain under a watch with RETAIN, read as the pass issues (R164; DESIGN CHOICE,
assumption log entry 147). -/
def passRetains (s : State) (t : Nat) (l : Line) : Bool := mpDrain l && mpDrainFmt l = 4 && retains s t (mpWatch l)

/-- Check one operand and drop what it found. -/
def checkOperand (c : Cmd) (field slot fmt : Nat) (write noEsc : Bool) (count : Nat) (s : State) :
    Except CmdError Unit × State :=
  match useOperand s c.t c.copies field slot ((Fmt.ofCode fmt).getD .kf32) write noEsc (some count) with
  | (.error e, s) => (.error e, s)
  | (.ok _, s) => (.ok (), s)

/-- Check one descriptor and drop what it found. -/
def checkDesc (c : Cmd) (field slot : Nat) (w : Need) (s : State) : Except CmdError Unit × State :=
  match useDesc s c.t c.copies field slot w with
  | (.error e, s) => (.error e, s)
  | (.ok _, s) => (.ok (), s)

/-- Checks in order; the first error stands. -/
def checkAll : List (State → Except CmdError Unit × State) → State → Except CmdError Unit × State
  | [], s => (.ok (), s)
  | f :: fs, s =>
    match f s with
    | (.error e, s) => (.error e, s)
    | (.ok _, s) => checkAll fs s

/-- The descriptor checks of a pass, in the order of its slot fields (R133, R149, R153, R157). -/
def passDescChecks (c : Cmd) (ext : Option Extent × Bool) (keepRows : Bool) :
    List (State → Except CmdError Unit × State) :=
  let l := c.line
  let (rows, w) := extentShape ext
  (if drainOnly l || mpKeep l then []
    else [checkOperand c 0 (mpSSlot l) (mpSFmt l) false (mpSNoEsc l) (mpRows l * mpCols l)]) ++
  (if drainOnly l then []
    else [checkOperand c 1 (mpMSlot l) (mpMFmt l) false (mpMNoEsc l) (mpInputs l * mpSegment l)]) ++
  (if !mpDrain l || ext.1.isNone then []
    else
      [checkOperand c 2 (mpOutSlot l) (mpDrainFmt l) true false
        (if mpDrainFmt l = 4 then rows * (32 * ((w + 31) / 32)) else rows * w)] ++
      (if keepRows then
        [checkDesc c 2 (mpOutSlot l + 3) { write := true, kinds := [1], tile := some c.t }] else []) ++
      (if mpFuseNorm l || mpFuseSum l then
        [checkDesc c 3 (mpStatSlot l) { write := true, kinds := [0], tile := some c.t, count := some (rows * 4) }]
      else []))

/-- The KEEP check of R121. -/
def keepError (x : Engine) (l : Line) : Bool :=
  !drainOnly l && mpKeep l &&
  (match x.latest with
    | none => true
    | some r => r.tag ≠ mpTag l || r.fmt ≠ mpSFmt l || r.rows ≠ mpRows l || r.cols ≠ mpCols l)

/-- All checks of a pass. -/
def passCheck (c : Cmd) (x : Engine) (ext : Option Extent × Bool) (keepRows : Bool) (s : State) :
    Except CmdError Unit × State :=
  match passFieldError c.line with
  | some e => (.error { err := e }, s)
  | none =>
    match checkAll (passDescChecks c ext keepRows) s with
    | (.error e, s) => (.error e, s)
    | (.ok _, s) => if keepError x c.line then (.error { err := .stationary }, s) else (.ok (), s)

/-- Whether a reference slot passes the checks of R166. -/
def refGood (s : State) (t : Nat) (copies : SMap (Option Line)) (slot count : Nat) : Bool × State :=
  match useDesc s t copies 0 slot { kinds := [1], tile := some t, count := some count } with
  | (.ok _, s) => (true, s)
  | (.error _, s) => (false, s)

/-- Whether both references of a tasted pass can be used: the moving one, and the stationary one if one is recorded
(R165, R166). -/
def refsGood (s : State) (c : Cmd) (vectors : Nat) (sref : Option Nat) : Bool × State :=
  let l := c.line
  if !tasted l || mpTaps l ≠ 1 then (false, s)
  else
    let (m, s) := refGood s c.t c.copies (mrefSlot l) (vectors * mpLen l)
    match sref with
    | none => (m, s)
    | some r =>
      let (k, s) := refGood s c.t c.copies r (mpRows l * mpCols l)
      (m && k, s)

/-! ### Issue (R118, R121, R122) -/

/-- The engine has a place for another pass (R118). -/
def engineAccepts (x : Engine) : Bool :=
  match x.passes.filter (·.holds) with
  | [] => true
  | [p] => p.begun
  | _ => false

/-- Issue of a matrix pass to its engine. -/
def issuePass (c : Cmd) (s : State) : Issued :=
  let l := c.line
  let i := 4 * c.t + mpEngine l
  let x := s.engine i
  let k := s.bank (bankNo i (lineField l 0x10 4 1))
  let ext := drainExtent x k l
  let keepRows := passRetains s c.t l && ext.1.isSome
  let slots := passSlots l ext.1.isSome keepRows
  if !engineAccepts x then .wait
  else if !linesReady s c.t ((slots.map (64 * ·)).filter (inScratch s c.t)) then .wait
  else
    match passCheck c x ext keepRows s with
    | (.error e, s) => .fail e s
    | (.ok _, s) =>
      let rate := tasteRate s c.t
      let phase := tastePhase s c.t
      let n := (sampledVectors rate phase l).length
      let sref := if mpKeep l then x.latest.bind (·.sref) else some (srefSlot l)
      let (good, s) := refsGood s c n sref
      let refs := if tasted l then mrefSlot l :: sref.toList else []
      let descs := (slots ++ refs).foldl (fun m k => mset none m k (some (slotLine s c.t c.copies k))) []
      let s := if tasted l && !good then s.count32 (watchA c.t (mpWatch l) 0x14) n else s
      let p : Pass :=
        { queue := c.g, idx := c.idx, task := c.task, line := l, descs, seed := seedKey s c.t (mpSeed l),
          retain := keepRows, rate, phase, loaded := mpKeep l, begun := drainOnly l, sampled := good }
      let record : Stationary :=
        { tag := mpTag l, fmt := mpSFmt l, rows := mpRows l, cols := mpCols l,
          sref := if tasted l then some (srefSlot l) else none }
      let user := (c.g, c.task.key)
      let s := s.setEngine i { x with
        passes := x.passes ++ [p],
        latest := (if drainOnly l || mpKeep l then x.latest else some record),
        users := (if x.users.contains user then x.users else x.users ++ [user]) }
      .run (admitReady s i)

/-- MATRIX_PASS (R118, R130 to R133). -/
def execMatrixPass (g : Fin 16384) (s : State) : Host.Outcome State Fault Refusal :=
  .next (issue s g.val (· = 0x20) issuePass)

/-! ### Loads and moving data (R115 to R117, R123) -/

/-- An operand of a pass, in a format code, from its descriptor copies. -/
def passOperand (p : Pass) (slot fmt : Nat) (noEsc : Bool) : Option Operand :=
  heldOperand p.descs slot ((Fmt.ofCode fmt).getD .kf32) noEsc

/-- A list cut into rows of `c` values. -/
def intoRows (c : Nat) : Nat → List Num → List (List Num)
  | 0, _ => []
  | n + 1, xs => xs.take c :: intoRows c n (xs.drop c)

/-- STATIONARY_LOAD_START (R115, R117): the next loading pass starts to fill the shadow, once the front of the
load before it has freed rows 0 and 1 and the bus is free; the bus then writes two rows in each cycle. -/
def execStationaryLoadStart (t : Fin 64) (e : Fin 4) (s : State) : Host.Outcome State Fault Refusal :=
  let i := 4 * t.val + e.val
  let x := s.engine i
  match x.passes.find? (fun p => !p.loaded && !p.begun) with
  | none => .next s
  | some p =>
    let l := p.line
    match passOperand p (mpSSlot l) (mpSFmt l) (mpSNoEsc l) with
    | none => .next s
    | some o =>
      if x.shadow.isSome || x.bus ≠ 0 || x.frontIn ≠ 0 || !active s || !operandReady s t.val o then .next s
      else
        match loadValues s t.val o 0 (mpRows l * mpCols l) with
        | (.error e, s) => .next (abortCommand s p.queue p.idx (operandError e o 0))
        | (.ok vs, s) =>
          let st : Stationary :=
            { tag := mpTag l, fmt := mpSFmt l, rows := mpRows l, cols := mpCols l,
              sref := if tasted l then some (srefSlot l) else none, elems := intoRows (mpCols l) (mpRows l) vs }
          let s := s.setEngine i { s.engine i with shadow := some st, bus := (mpRows l + 1) / 2 }
          .next (modPass s i p (fun y => { y with loaded := true }))

/-- MOVING_DATA_ARRIVAL (R123): input rows of the next pass that still lacks some reach the row hold. -/
def execMovingDataArrival (t : Fin 64) (e : Fin 4) (rows : Nat) (s : State) : Host.Outcome State Fault Refusal :=
  let i := 4 * t.val + e.val
  match (s.engine i).passes.find? (fun p => !drainOnly p.line && p.rows.length < mpInputs p.line) with
  | none => .next s
  | some p =>
    let l := p.line
    let c := mpSegment l
    let n := min rows (mpInputs l - p.rows.length)
    match passOperand p (mpMSlot l) (mpMFmt l) (mpMNoEsc l) with
    | none => .next s
    | some o =>
      if !active s || !operandReady s t.val o then .next s
      else
        match loadValues s t.val o (p.rows.length * c) (n * c) with
        | (.error e, s) => .next (abortCommand s p.queue p.idx (operandError e o 1))
        | (.ok vs, s) => .next (modPass s i p (fun y => { y with rows := y.rows ++ intoRows c n vs }))

/-! ### Broadcasts (R111 to R119, R126) -/

/-- PASS_FIRST_BROADCAST (R111, R114, R116, R119, R126): up to `cycles` broadcast cycles pass, and then the next pass
broadcasts its first vector if it meets the conditions of R119; when only the limiter holds it back, the cycle is a
RAMP cycle. -/
def execPassFirstBroadcast (t : Fin 64) (e : Fin 4) (cycles : Nat) (s : State) : Host.Outcome State Fault Refusal :=
  if !active s then .next s
  else
    let s := passCycles s t.val e.val cycles
    let x := s.engine (4 * t.val + e.val)
    match slotOf x with
    | .first _ =>
      let y := engineCycle (enginePace s t.val e.val) {} x
      .next (countCycles (s.setEngine (4 * t.val + e.val) y.2) t.val e.val y.1)
    | _ => .next s

/-- Element of a stationary operand. -/
def statElem (st : Stationary) (r c : Nat) : Num := (st.elems.getD r []).getD c .zero

/-- Products of result `n` of a moving vector (R105, R106). -/
def products (st : Stationary) (l : Line) (x : List Num) (n : Nat) : List Num :=
  (List.range (mpLen l)).map (fun k =>
    (x.getD k .zero).mul (if mpTrans l then statElem st n k else statElem st k n))

/-- Pass sums of a vector. A pass whose operand was lost to another task's abort has free sums (R122;
assumption log entry 37). -/
def vectorSums (s : State) (p : Pass) (v : Nat) : List Num × State :=
  match p.stat with
  | some st =>
    let x := movingVector p v
    ((List.range (mpWidth p.line)).map (fun n => passSum (products st p.line x n)), s)
  | none =>
    ((List.range (mpWidth p.line)).map (fun n => decodeNum .kf32 (Config.freeNat (s.draws + n) % 2 ^ 32)),
      { s with draws := s.draws + mpWidth p.line })

/-- The word of a bank row and column (R140). -/
def bankWord (trans : Bool) (a c : Nat) : Nat := if trans then a * 256 + c else a * 128 + c

/-- Add the pass sums of vector `v` into the bank's words (R100, R143): the new words and the flags they set. -/
def addSums (p : Pass) (v : Nat) (ws : SMap Word) (sums : List Num) : SMap Word × Nat :=
  let l := p.line
  let a := mpAccRow l + v
  let mode := (Rnd.ofCode (mpAccRnd l)).getD .rne
  ((List.range sums.length).zip sums).foldl (fun (acc : SMap Word × Nat) q =>
    let k := bankWord (mpTrans l) a q.1
    let old := if mpInit l = 1 then 0 else (mget 0 acc.1 k).toNat
    let u := genLane 0x00 (mpTensor l) (mpIndex l) (mpOriginRow l + a) (mpOriginCol l + q.1) p.seed
    let new := accumulate old q.2 mode u
    (mset 0 acc.1 k (BitVec.ofNat 32 new), acc.2 ||| codeFlags .kf32 new)) (ws, 0)

/-- One valid lane reaches the accumulator input: the bank takes it unless it is in ZERO, and the taster captures a
sampled vector (R143, R144, R150, R158, R167). -/
def takeVector (t e : Nat) (p : Pass) (s : State) (v : Nat) : State :=
  let i := 4 * t + e
  let b := passBank i p
  let (sums, s) := vectorSums s p v
  let k := s.bank b
  let s := if k.state = .zero then s
    else
      let (ws, flags) := addSums p v k.words sums
      setHealth (s.setBank b { k with words := ws }) t (mpWatch p.line) flags
  let picked := sampledVectors p.rate p.phase p.line
  if p.sampled && picked.contains v then
    s.modTile t (fun x => { x with samples := x.samples ++
      [{ engine := e, bank := lineField p.line 0x10 4 1, queue := p.queue, idx := p.idx,
         order := picked.findIdx (fun x => x = v), vector := v, watch := mpWatch p.line,
         sums := sums.map (fun q => decodeNum .kf32 (encodeNum .kf32 .rne 0 q).1),
         stat := match p.stat with
           | some st => if st.sref.isSome then none else some st
           | none => none }] })
  else s

/-- A pass whose bank was lost asks for its drain when its last lane has reached the bank; the request is served on the
EMPTY extent, whatever the bank holds by then (R150). -/
def strayDone (s : State) (i : Nat) (p : Pass) : State :=
  if p.stray && passDrains p then requestDrain s i p else s

/-- The oldest pass of which broadcast vectors have still to reach the accumulator. -/
def arrivingPass (x : Engine) : Option Pass := x.passes.find? (fun p => p.done < p.sent)

/-- PASS_SUM_ARRIVAL (R111, R114, R143 to R145): up to `cycles` broadcast cycles pass, in which the running pass
broadcasts what is ready, and then up to `vectors` vectors of the oldest pass that has some on their way reach the
accumulator. -/
def execPassSumArrival (t : Fin 64) (e : Fin 4) (vectors cycles : Nat) (s : State) : Host.Outcome State Fault Refusal :=
  let i := 4 * t.val + e.val
  if !active s then .next s
  else
    let s := passCycles s t.val e.val cycles
    match arrivingPass (s.engine i) with
    | none => .next s
    | some p =>
      let n := min vectors (p.sent - p.done)
      let s := ((List.range n).map (fun k => p.done + k)).foldl (takeVector t.val e.val p) s
      let last := p.done + n = mpVectors p.line
      let s := modPass s i p (fun y => { y with done := p.done + n, holds := y.holds && !last })
      .next (if last then strayDone s i p else s)

/-- A pass has met the conditions of R112 and R168. -/
def passOver (p : Pass) : Bool :=
  p.admitted && p.done = mpVectors p.line && (!mpDrain p.line || p.drained) && p.samples = 0

/-- PASS_COMPLETE (R112, R168): a pass completes and signals. -/
def execPassComplete (t : Fin 64) (e : Fin 4) (s : State) : Host.Outcome State Fault Refusal :=
  let i := 4 * t.val + e.val
  match (s.engine i).passes.find? passOver with
  | none => .next s
  | some p =>
    if !active s then .next s
    else
      let x := s.engine i
      let s := s.setEngine i { x with passes := x.passes.filter (fun y => !(y.queue = p.queue && y.idx = p.idx)) }
      let b := passBank i p
      let k := s.bank b
      let s := s.setBank b { k with admitted := k.admitted.filter (fun a => a ≠ (p.queue, p.idx)) }
      let s := s.count64 (meA t.val e.val 0x50) 1
      .next (finishCommand (admitReady s i) p.queue p.idx)

/-- The staged fields of a tile's four engines become active (R136). -/
def foldMe (s : State) (t : Nat) : State := s.each (List.range 4) (fun e s => s.foldReg (meA t e 0))

/-- ME_FOLD (R136). -/
def execMeFold (p : Path) (t : Fin 64) (s : State) : Host.Outcome State Fault Refusal :=
  .next (ownerWrite s p (tilA t.val 0x2400) 1 (fun s => foldMe s t.val))

end Sys2Proof.Machine
end

