-- ==== Sys2Proof/Machine/Accumulator.lean ====
section
/-! DEFINITION. Bank states, drains and what they write (spec/04_accumulation_and_guards.md R146 to R160). -/

namespace Sys2Proof.Machine

open Sys2Proof

/-- Engine of a bank (8 per tile): the number of the engine in the state. -/
def bankEngine (b : Nat) : Nat := b / 2

/-- The pass that a request or an admission names. -/
def passOf (s : State) (i queue : Nat) (idx : Word) : Option Pass :=
  (s.engine i).passes.find? (fun p => p.queue = queue && p.idx = idx)

/-- Every admitted pass of a bank has had its last lane written. -/
def fillOver (s : State) (b : Nat) : Bool :=
  (s.bank b).admitted.all (fun a =>
    match passOf s (bankEngine b) a.1 a.2 with
    | some p => p.done = mpVectors p.line
    | none => true)

/-- A drain request of a bank is waiting. -/
def drainAsked (s : State) (b : Nat) : Bool := (s.drain (bankEngine b)).requests.any (fun r => r.bank = b)

/-- BANK_FILL_DONE (R146): every lane is written; the bank is IDLE, or asks for its drain. -/
def execBankFillDone (t : Fin 64) (b : Fin 8) (s : State) : Host.Outcome State Fault Refusal :=
  let n := 8 * t.val + b.val
  let i := bankEngine n
  let k := s.bank n
  if k.state ≠ .fill || !active s || !fillOver s n then .next s
  else if k.latestDrain then
    match k.admitted.getLast?.bind (fun a => passOf s i a.1 a.2) with
    | some p => .next (requestDrain (s.setBank n { k with state := .drainWait }) i p)
    | none => .next s
  else .next (admitReady (s.setBank n { k with state := .idle }) i)

/-- BANK_ZERO_EXPIRED (R146): 256 core cycles have passed since the bank entered ZERO. -/
def execBankZeroExpired (t : Fin 64) (b : Fin 8) (s : State) : Host.Outcome State Fault Refusal :=
  let n := 8 * t.val + b.val
  let k := s.bank n
  if k.state ≠ .zero || !active s then .next s
  else
    let next := if drainAsked s n then .drainWait else .idle
    .next (admitReady (s.setBank n { k with words := [], state := next }) (bankEngine n))

/-- A drain has completed: its pass knows. -/
def drainedPass (s : State) (i : Nat) (r : DrainReq) : State :=
  match passOf s i r.queue r.idx with
  | some p => modPass s i p (fun y => { y with drained := true })
  | none => s

/-- The state of a bank whose drain request is served on an EMPTY extent: one that waited only for it is IDLE. -/
def servedEmpty (k : Bank) (b : Nat) (rest : List DrainReq) : BankState :=
  if k.state = .drainWait && !(rest.any (fun r => r.bank = b)) then .idle else k.state

/-- DRAIN_START (R146, R148 to R150): the oldest request starts once the drain before it has read its last row; a drain
of an EMPTY extent completes at once. -/
def execDrainStart (t : Fin 64) (e : Fin 4) (s : State) : Host.Outcome State Fault Refusal :=
  let i := 4 * t.val + e.val
  let d := s.drain i
  match d.current, d.requests with
  | none, r :: rs =>
    let k := s.bank r.bank
    if k.state = .zero || (k.state ≠ .drainWait && !r.empty) || !active s then .next s
    else if r.empty || k.extent.isNone then
      let s := (s.setDrain i { d with requests := rs }).setBank r.bank { k with state := servedEmpty k r.bank rs }
      .next (admitReady (drainedPass s i r) i)
    else .next ((s.setDrain i { d with requests := rs, current := some r }).setBank r.bank { k with state := .drain })
  | _, _ => .next s

/-! ### What a drain writes (R151 to R157) -/

/-- KF32 codes of bank row `a`, `w` columns, through an arrangement; a position that names no word reads +0 (R140). -/
def bankRow (ws : SMap Word) (trans : Bool) (a w : Nat) : List Nat :=
  (List.range w).map (fun c =>
    let k := bankWord trans a c
    if 65536 ≤ k then 0 else (mget 0 ws k).toNat)

/-- The draw of a drained position (R152). -/
def drainDraw (p : Pass) (a c : Nat) : Nat :=
  genLane 0x01 (mpTensor p.line) 0 (mpOriginRow p.line + a) (mpOriginCol p.line + c) p.seed

/-- Conversion of one row into a plain format (R152): codes and flags. -/
def drainRow (p : Pass) (f : Fmt) (a : Nat) (row : List Nat) : List Nat × Nat :=
  let mode := (Rnd.ofCode (mpDrainRnd p.line)).getD .rne
  ((List.range row.length).zip row).foldl (fun (acc : List Nat × Nat) q =>
    let v := decodeNum .kf32 q.2
    let (code, sat) := if f = .kf32 then (q.2, false) else encodeNum f mode (drainDraw p a q.1) v
    (acc.1 ++ [code], acc.2 ||| codeFlags f code ||| satFlag f v sat)) ([], 0)

/-- Conversion of one row into K4 blocks (R151, R152); positions beyond the row are +0. -/
def drainBlocks (p : Pass) (a : Nat) (row : List Nat) : List QBlock :=
  let mode := (Rnd.ofCode (mpDrainRnd p.line)).getD .rne
  (List.range ((row.length + 31) / 32)).map (fun b =>
    quantise .k4 (mpDrainEsc p.line) mode (fun i => drainDraw p a (32 * b + i))
      ((List.range 32).map (fun i => decodeNum .kf32 (row.getD (32 * b + i) 0))))

/-- Statistics of a row (R154 to R157): m, s, row sum and the count of non-finite values, as KF32 codes and a
number. -/
def rowStats (norm sum : Bool) (row : List Nat) : List Nat :=
  let xs := row.map (decodeNum .kf32)
  let code := fun (x : Num) => (encodeNum .kf32 .rne 0 x).1
  let m := match xs with
    | [] => Num.zero
    | x :: rest => rest.foldl numMax x
  let m := if m.isNan then .nan false else m
  let s := if xs.all (fun x => x = .inf true) then Num.zero
    else treeSum (xs.map (fun x => expKf32 (addKf32 x m.negate)))
  [if norm then code m else 0, if norm then code s else 0, if sum then code (treeSum xs) else 0,
    (xs.filter (fun x => !x.isFinite)).length]

/-- Write elements to the leading places of a descriptor, as many as it describes (R153). -/
def storeLeading (s : State) (t : Nat) (d : Desc) (xs : List Nat) (who : MirrorOwner) : Option Err × State :=
  let n := min xs.length (descCount d)
  if n = 0 then (none, s)
  else storeLines s t d (fillLines d 0 (elemLine d (n - 1) + 1) (fun k => xs.getD k 0)) who

/-- Rows of the extent as KF32 codes, with their bank rows. -/
def extentRows (k : Bank) (e : Extent) : List (Nat × List Nat) :=
  let w := drainWidth k.trans e
  (List.range (e.hi + 1 - e.lo)).map (fun r => (e.lo + r, bankRow k.words k.trans (e.lo + r) w))

/-- Output operand and statistics descriptor of a draining pass. -/
def drainOut (p : Pass) : Option Operand := passOperand p (mpOutSlot p.line) (mpDrainFmt p.line) false
def passDesc (p : Pass) (slot : Nat) : Option Desc := heldDesc p.descs slot

/-- Every line that a drain writes can be accessed. -/
def drainReady (s : State) (t : Nat) (p : Pass) : Bool :=
  let l := p.line
  (match drainOut p with
    | some o => operandReady s t o
    | none => true) &&
  (!(mpFuseNorm l || mpFuseSum l) ||
    match passDesc p (mpStatSlot l) with
    | some d => descReady s t d
    | none => true) &&
  (!p.retain ||
    match passDesc p (mpOutSlot l + 3) with
    | some d => descReady s t d
    | none => true)

/-- The results of a drain: outputs, statistics and retained rows go to memory; the result names the descriptor of a
write that the memory refused (R151 to R157, R164). -/
def drainWrites (s : State) (t : Nat) (p : Pass) (rows : List (Nat × List Nat)) : Option CmdError × Nat × State :=
  let l := p.line
  let who : MirrorOwner := .command p.queue p.idx
  let f : Fmt := (Fmt.ofCode (mpDrainFmt l)).getD .kf32
  let outs := rows.map (fun r => drainRow p f r.1 r.2)
  let blocks : List QBlock := if f = Fmt.k4 then rows.flatMap (fun r => drainBlocks p r.1 r.2) else []
  let flags : Nat := if f = Fmt.k4 then blocks.foldl (fun a q => a ||| blockFlags q) 0
    else outs.foldl (fun a r => a ||| r.2) 0
  let (err, s) := match drainOut p with
    | none => (none, s)
    | some o =>
      let codes := if f = Fmt.k4 then blocks.flatMap (fun q : QBlock => q.codes) else outs.flatMap (fun r : List Nat × Nat => r.1)
      let (e1, s) := storeLeading s t o.codes codes who
      let (e2, s) := match o.scale with
        | some d => storeLeading s t d (blocks.map (fun q : QBlock => q.scale)) who
        | none => (none, s)
      let (e3, s) := match o.esc with
        | some d => storeLeading s t d (blocks.map (fun q : QBlock => q.esc.toBits)) who
        | none => (none, s)
      (((e1.or e2).or e3).map (operandError · o 2), s)
  let (err, s) := if !(mpFuseNorm l || mpFuseSum l) then (err, s)
    else
      match passDesc p (mpStatSlot l) with
      | none => (err, s)
      | some d =>
        let (e, s) := storeLeading s t d (rows.flatMap (fun r : Nat × List Nat => rowStats (mpFuseNorm l) (mpFuseSum l) r.2)) who
        (err.or (e.map (descFault d 3)), s)
  let (err, s) := if !p.retain then (err, s)
    else
      match passDesc p (mpOutSlot l + 3) with
      | none => (err, s)
      | some d =>
        let (e, s) := retainRows s t (mpWatch l) p.rate p.phase d
          (rows.map (fun r : Nat × List Nat => (mpOriginRow l + r.1, r.2.map (decodeNum .kf32)))) who
        (err.or (e.map (descFault d 2)), s)
  (err, flags, s)

/-- DRAIN_LAST_READ (R146, R148): the extent's rows have been read, set to +0 and written out, and the unit is free for
the next drain. -/
def execDrainLastRead (t : Fin 64) (e : Fin 4) (s : State) : Host.Outcome State Fault Refusal :=
  let i := 4 * t.val + e.val
  match (s.drain i).current with
  | none => .next s
  | some r =>
    let k := s.bank r.bank
    match passOf s i r.queue r.idx, k.extent with
    | some p, some x =>
      if !active s || !drainReady s t.val p then .next s
      else
        let rows := extentRows k x
        let w := drainWidth k.trans x
        let words := rows.foldl (fun ws r =>
          (List.range w).foldl (fun ws c => mset 0 ws (bankWord k.trans r.1 c) 0) ws) k.words
        let s := s.setBank r.bank { k with words := words, extent := none, state := .idle }
        let (err, flags, s) := drainWrites s t.val p rows
        let s := s.setDrain i { s.drain i with current := none, ending := (s.drain i).ending ++ [(r, flags)] }
        match err with
        | some c => .next (abortCommand s r.queue r.idx c)
        | none => .next (admitReady s i)
    | _, _ => .next s

/-- DRAIN_COMPLETE (R148, R158, R159): the oldest drain whose last row is read completes, 10 cycles after it, with the
flags of its results set. -/
def execDrainComplete (t : Fin 64) (e : Fin 4) (s : State) : Host.Outcome State Fault Refusal :=
  let i := 4 * t.val + e.val
  let d := s.drain i
  match d.ending with
  | [] => .next s
  | (r, flags) :: rest =>
    if !active s then .next s
    else
      let s := match passOf s i r.queue r.idx with
        | some p => setHealth s t.val (mpWatch p.line) flags
        | none => s
      .next (drainedPass (s.setDrain i { d with ending := rest }) i r)

end Sys2Proof.Machine
end

