-- ==== Sys2Proof/Machine/Moves.lean ====
section
/-! DEFINITION. MOVE and TRANSPOSE: checks, chunks and blocks, the exchange network (spec/06 R240 to R249). -/

namespace Sys2Proof.Machine

open Sys2Proof

/-! ### Fields (R240) -/

def mvUnit (l : Line) : Nat := lineField l 0x10 2 3
def mvVc (l : Line) : Nat := lineField l 0x10 5 3
def mvSrcSlot (l : Line) : Nat := lineField l 0x1C 0 24
def mvDstSlot (l : Line) : Nat := lineField l 0x20 0 24
def mvXchg (l : Line) : Bool := hdrOpcode l = 0x31

/-- Module that a side lies in: the word at `o` holds the module and its FAR bit (R240). -/
def mvModule (s : State) (l : Line) (o : Nat) : Nat :=
  if lineField l o 14 1 = 1 then lineField l o 0 14 else myModule s

/-- A side is remote: its module, unless it lies in the issuing tile (R240). -/
def remoteSide (s : State) (t : Nat) (l : Line) (o : Nat) (d : Desc) : Option Nat :=
  if mvModule s l o = myModule s && descTile d = t then none else some (mvModule s l o)

/-! ### Chunks (R242, R247) -/

/-- A destination line of a chunk: its place in the destination's walk and the source element of each of its
elements. -/
structure ChunkLine where
  line  : Nat
  elems : List Nat

/-- A chunk: places of its source lines in the source's walk, and its destination lines. -/
structure ChunkPlan where
  needs  : List Nat
  writes : List ChunkLine

/-- Elements per transposed unit, and units of a source row (R247). -/
def unitElems (l : Line) (d : Desc) : Nat := 2 ^ mvUnit l * 8 / max 1 (elemBits d.elem)
def rowUnits (l : Line) (d : Desc) : Nat := d.d0 / max 1 (unitElems l d)

/-- Rows of a block (R245). -/
def blockRows (l : Line) : Nat := 64 / 2 ^ mvUnit l

/-- Number of chunks or blocks of a move. A block covers 64 units of the rows it takes: u squares side by side
(DEDUCED from its 64 lanes, assumption log entry 30). -/
def chunkCount (l : Line) (src dst : Desc) : Nat :=
  if mvXchg l then src.d2 * src.d3 * ((rowUnits l src + 63) / 64) * (src.d1 / max 1 (blockRows l))
  else (descLines dst + 63) / 64

/-- Chunk `k` of a MOVE (R242). -/
def moveChunk (src dst : Desc) (k : Nat) : ChunkPlan :=
  let n := min 64 (descLines dst - 64 * k)
  let writes := (List.range n).map (fun i =>
    { line := 64 * k + i, elems := (List.range (lineHolds dst (64 * k + i))).map (fun j =>
        lineFirst dst (64 * k + i) + j) : ChunkLine })
  let a := elemLine src (lineFirst dst (64 * k))
  let b := elemLine src (lineFirst dst (64 * k + (n - 1)) + lineHolds dst (64 * k + (n - 1)) - 1)
  { needs := (List.range (b + 1 - a)).map (fun i => a + i), writes }

/-- Block `k` of a TRANSPOSE (R247): destination rows outermost, so that destination lines ascend. -/
def moveBlock (l : Line) (src dst : Desc) (k : Nat) : ChunkPlan :=
  let u := 2 ^ mvUnit l
  let q := unitElems l src
  let rows := blockRows l
  let nI := src.d1 / max 1 rows
  let nJ := (rowUnits l src + 63) / 64
  let o := k / max 1 (nJ * nI)
  let j0 := 64 * (k / max 1 nI % max 1 nJ)
  let i0 := rows * (k % max 1 nI)
  let js := (List.range (min 64 (rowUnits l src - j0))).map (fun j => j0 + j)
  let row := fun i => o * src.d1 + i
  { needs := (List.range rows).flatMap (fun i =>
      ((js.map (fun j => j * u / 64)).eraseDups).map (fun x => row (i0 + i) * runLines src + x)),
    writes := js.map (fun j =>
      { line := (o * dst.d1 + j) * runLines dst + i0 * u / 64,
        elems := (List.range rows).flatMap (fun i => (List.range q).map (fun e =>
          row (i0 + i) * src.d0 + j * q + e)) : ChunkLine }) }

/-- The chunk or block that a job stands at. -/
def jobPlan (j : MoveJob) : ChunkPlan :=
  let src := descOf (mvSrcSlot j.line) j.src
  let dst := descOf (mvDstSlot j.line) j.dst
  if mvXchg j.line then moveBlock j.line src dst j.next else moveChunk src dst j.next

/-- Destination lines of a chunk from its source lines, by their place in the walk (R242). -/
def chunkData (src dst : Desc) (p : ChunkPlan) (got : List (Option Line)) : List (Nat × Line) :=
  let eb := elemBits src.elem
  p.writes.map (fun w =>
    (lineAt dst w.line, BitVec.ofNat 512 (packLine eb (w.elems.map (fun n =>
      lineElem eb ((got.getD (p.needs.findIdx (fun x => x = elemLine src n)) none).getD 0) (elemPlace src n))))))

/-! ### Packets of a remote side (R244) -/

/-- Runs of consecutive line offsets, at most `most` lines each, each with the place of its first line. -/
def lineRuns (most : Nat) : Nat → List Nat → List (Nat × List Nat)
  | _, [] => []
  | k, x :: xs =>
    match lineRuns most (k + 1) xs with
    | (k', ys) :: rest =>
      if ys.head? = some (x + 64) && ys.length < most then (k, x :: ys) :: rest else (k, [x]) :: (k', ys) :: rest
    | [] => [(k, [x])]

/-- Read requests for the lines at `offs` of tile `tile` of module `m`; line i of the list returns to place
`first + i` of the mover's staging buffer, which the return address names (DESIGN CHOICE, assumption log entry 31). -/
def askLines (s : State) (t g : Nat) (idx : Word) (vc m : Nat) (d : Desc) (first : Nat) (offs : List Nat) : State :=
  (lineRuns 64 0 offs).foldl (fun s r =>
    sendPacket s (.tile (Fin.ofNat 64 t)) (.command g idx)
      { ty := tyReadReq, vc, hint := d.hint, dstModule := m, dstTile := descTile d, party := tileParty s t,
        addr := tileAddr (descTile d) (r.2.headD 0), aux := r.2.length,
        payload := [BitVec.ofNat 512 (tileAddr t (64 * (first + r.1)))] }) s

/-- Write packets of a move's lines, at most four consecutive lines each. -/
def sendLines (s : State) (t g : Nat) (idx : Word) (vc m : Nat) (d : Desc) (ls : List (Nat × Line)) : State :=
  let s := s.count64 (tilA t 0x4048) ls.length
  (lineRuns 4 0 (ls.map (·.1))).foldl (fun s r =>
    sendPacket s (.tile (Fin.ofNat 64 t)) (.command g idx)
      { ty := (if d.acc then tyWriteAcc else tyWrite), vc, accKf16 := d.acc && d.elem = 1, dstModule := m,
        dstTile := descTile d, party := tileParty s t, addr := tileAddr (descTile d) (r.2.headD 0),
        payload := ((ls.drop r.1).take r.2.length).map (·.2) }) s


/-! ### Issue (R241, R246, R247) -/

/-- The shape rule of a TRANSPOSE (R247). -/
def transposeShape (l : Line) (src dst : Desc) : Bool :=
  src.d0 * elemBits src.elem / 8 % 64 = 0 && src.d1 % blockRows l = 0 && dst.d0 = src.d1 * unitElems l src &&
  dst.d1 = rowUnits l src && dst.d2 = src.d2 && dst.d3 = src.d3

/-- The checks of R241 on both descriptors, from step 3 on. Errors of the pair name the destination descriptor
(DEDUCED, assumption log entry 32). -/
def moveError (s : State) (t : Nat) (l : Line) (src dst : Desc) : Option CmdError :=
  let rs := remoteSide s t l 0x14 src
  let rd := remoteSide s t l 0x18 dst
  if rs.isSome && rd.isSome then some { err := .encoding }
  else
    match descError s t { remote := rs.isSome } src with
    | some e => some (descFault src 0 e)
    | none =>
      match descError s t { write := true, remote := rd.isSome } dst with
      | some e => some (descFault dst 1 e)
      | none =>
        if src.elem ≠ dst.elem then some (descFault dst 1 .encoding)
        else if descCount src ≠ descCount dst then some (descFault dst 1 .shape)
        else if !mvXchg l then none
        else if src.elem = 4 || src.elem = 5 || unitElems l src = 0 then some (descFault dst 1 .encoding)
        else if !transposeShape l src dst then some (descFault dst 1 .shape)
        else none

/-- What fetch-ahead staged of a command's remote source (R283, R286). -/
def stagedOf (s : State) (c : Cmd) : Nat × SMap (Option Line) :=
  match mget none (s.queue c.g).fetched c.idx.toNat with
  | some f => (f.asked, f.staged)
  | none => (0, [])

/-- Issue of a move command to its mover (R240, R241). -/
def issueMove (c : Cmd) (s : State) : Issued :=
  let l := c.line
  let m := 4 * c.t + mvMover l
  if (s.mover m).isSome then .wait
  else if 4 ≤ mvVc l || (mvXchg l && 6 ≤ mvUnit l) then .fail { err := .encoding } s
  else if !inScratch s c.t (64 * mvSrcSlot l) then .fail { err := .address, slot := mvSrcSlot l, field := 0 } s
  else if !inScratch s c.t (64 * mvDstSlot l) then .fail { err := .address, slot := mvDstSlot l, field := 1 } s
  else if !linesReady s c.t [64 * mvSrcSlot l, 64 * mvDstSlot l] then .wait
  else
    match readDesc s c.t c.copies 0 (mvSrcSlot l) with
    | (.error e, s) => .fail e s
    | (.ok src, s) =>
      match readDesc s c.t c.copies 1 (mvDstSlot l) with
      | (.error e, s) => .fail e s
      | (.ok dst, s) =>
        match moveError s c.t l src dst with
        | some e => .fail e s
        | none =>
          let staged := stagedOf s c
          .run (s.setMover m (some
            { queue := c.g, idx := c.idx, line := l, srcFar := remoteSide s c.t l 0x14 src,
              dstFar := remoteSide s c.t l 0x18 dst, src := slotLine s c.t c.copies (mvSrcSlot l),
              dst := slotLine s c.t c.copies (mvDstSlot l), asked := staged.1, read := staged.2 }))

/-- MOVE (R240 to R242). -/
def execMove (g : Fin 16384) (s : State) : Host.Outcome State Fault Refusal :=
  .next (issue s g.val (· = 0x30) issueMove)

/-- TRANSPOSE (R246, R247). -/
def execTranspose (g : Fin 16384) (s : State) : Host.Outcome State Fault Refusal :=
  .next (issue s g.val (· = 0x31) issueMove)

/-! ### Running a move (R242, R245, R248) -/

/-- The lines of a job's chunk that are in hand: from memory for a local source, from the staging buffer for a remote
one; nothing yet when lines have still to arrive or to be zeroed. -/
def chunkLines (s : State) (t : Nat) (j : MoveJob) (p : ChunkPlan) : Option (List (Option Line) × State) :=
  let src := descOf (mvSrcSlot j.line) j.src
  let offs := p.needs.map (lineAt src)
  if j.inside || j.srcFar.isSome then
    let got := (List.range p.needs.length).map (fun k => mget none j.read k)
    if got.all (·.isSome) then some (got, s) else none
  else if linesReady s t offs then some (readLines s t offs (Hint.ofCode src.hint))
  else none

/-- The error of a chunk whose source lines could not all be read (R189, R217). -/
def sourceFault (s : State) (t : Nat) (j : MoveJob) : CmdError :=
  let src := descOf (mvSrcSlot j.line) j.src
  descFault src 0 (if j.srcFar.isSome then .memory else lineError s t ((jobPlan j).needs.map (lineAt src)))

/-- Ask a remote source for the lines of the chunk not asked for yet. -/
def askChunk (s : State) (t m : Nat) (j : MoveJob) (p : ChunkPlan) : State :=
  match j.srcFar with
  | none => s
  | some far =>
    let src := descOf (mvSrcSlot j.line) j.src
    let offs := (p.needs.drop j.asked).map (lineAt src)
    if offs = [] then s
    else askLines (s.setMover m (some { j with asked := p.needs.length })) t j.queue j.idx (mvVc j.line) far src
      j.asked offs

/-- Write a chunk and go on to the next; after the last the command finishes. -/
def writeChunk (s : State) (t m : Nat) (j : MoveJob) (p : ChunkPlan) (got : List (Option Line)) : State :=
  let src := descOf (mvSrcSlot j.line) j.src
  let dst := descOf (mvDstSlot j.line) j.dst
  let ls := chunkData src dst p got
  let s := s.count64 (tilA t 0x4070) ls.length
  let j' : MoveJob := { j with next := j.next + 1, asked := 0, read := [], inside := false }
  let (err, s) := match j.dstFar with
    | some far => (none, sendLines s t j.queue j.idx (mvVc j.line) far dst ls)
    | none => storeLines s t dst ls (.command j.queue j.idx)
  match err with
  | some e => abortCommand s j.queue j.idx (descFault dst 1 e)
  | none =>
    let s := s.setMover m (some j')
    if j'.next < chunkCount j.line src dst then s else finishCommand s j.queue j.idx

/-- The lines a chunk writes can be accessed. -/
def chunkWritable (s : State) (t : Nat) (j : MoveJob) (p : ChunkPlan) : Bool :=
  let dst := descOf (mvDstSlot j.line) j.dst
  j.dstFar.isSome || linesReady s t (p.writes.map (fun w => lineAt dst w.line))

/-- The job has chunks left. -/
def jobOpen (j : MoveJob) : Bool :=
  j.next < chunkCount j.line (descOf (mvSrcSlot j.line) j.src) (descOf (mvDstSlot j.line) j.dst)

/-- MOVE_CHUNK (R242): a mover writes its next chunk once all its source lines have been read; a remote source is
asked for them first. A block of a TRANSPOSE is written when it has left the exchange network. -/
def execMoveChunk (t : Fin 64) (m : Fin 4) (s : State) : Host.Outcome State Fault Refusal :=
  let k := 4 * t.val + m.val
  match s.mover k with
  | none => .next s
  | some j =>
    if !active s || !jobOpen j then .next s
    else
      let p := jobPlan j
      if mvXchg j.line && !j.inside then .next (askChunk s t.val k j p)
      else if !chunkWritable s t.val j p then .next s
      else
        match chunkLines s t.val j p with
        | none => .next (askChunk s t.val k j p)
        | some (got, s) =>
          if got.all (·.isSome) then .next (writeChunk s t.val k j p got)
          else .next (abortCommand s j.queue j.idx (sourceFault s t.val j))

/-- A mover has a block ready for the exchange network. -/
def blockReady (s : State) (t m : Nat) : Bool :=
  match s.mover (4 * t + m) with
  | none => false
  | some j => mvXchg j.line && !j.inside && jobOpen j && (chunkLines s t j (jobPlan j)).isSome

/-- EXCHANGE_BLOCK (R245, R248): the network takes a block of the mover whose turn it is, in ascending mover number
after the one it served last. -/
def execExchangeBlock (t : Fin 64) (s : State) : Host.Outcome State Fault Refusal :=
  if !active s then .next s
  else
    let last := (s.tile t.val).lastMover
    match ((List.range 4).map (fun i => (last + 1 + i) % 4)).find? (blockReady s t.val) with
    | none => .next s
    | some m =>
      match s.mover (4 * t.val + m) with
      | none => .next s
      | some j =>
        match chunkLines s t.val j (jobPlan j) with
        | none => .next s
        | some (got, s) =>
          let s := s.modTile t.val (fun x => { x with lastMover := m })
          if got.all (·.isSome) then
            let read := ((List.range got.length).zip got).foldl (fun r p => mset none r p.1 p.2) []
            .next ((s.setMover (4 * t.val + m) (some { j with inside := true, read })).count64 (tilA t.val 0x4078) 1)
          else .next (abortCommand s j.queue j.idx (sourceFault s t.val j))

/-- Lines of a read response reach the command that asked for them, at a place of its staging buffer (R244, R283);
lines that nothing asks for any more are dropped (R245, R285). A poisoned response writes nothing and aborts the
command with MEMORY (R326). -/
def deliverLines (s : State) (g : Nat) (idx : Word) (place : Nat) (ls : List Line) (poison : Bool) : State :=
  let t := g / 256
  let put := fun (m : SMap (Option Line)) =>
    ((List.range ls.length).zip ls).foldl (fun r p => mset none r (place + p.1) (some p.2)) m
  match (List.range 4).findSome? (fun m => (s.mover (4 * t + m)).bind (fun j =>
      if j.queue = g && j.idx = idx then some (m, j) else none)) with
  | some (m, j) =>
    if poison then abortCommand s g idx (descFault (descOf (mvSrcSlot j.line) j.src) 0 .memory)
    else s.setMover (4 * t + m) (some { j with read := put j.read })
  | none =>
    match mget none (s.queue g).fetched idx.toNat with
    | some f =>
      let f' := if poison then { f with asked := 0, staged := [] } else { f with staged := put f.staged }
      s.modQueue g (fun q => { q with fetched := mset none q.fetched idx.toNat (some f') })
    | none => s

end Sys2Proof.Machine
end

