-- ==== Sys2Proof/Machine/Exchanges.lean ====
section
/-! DEFINITION. The exchanges of a collective's chunks: the order of the steps, who sends which part to whom, and where it
lies in staging (spec/09 R355, R360 to R365). The spec names the partner of a rank; which lines an exchange carries, and
who takes the part of an absent partner, is the model's choice (DESIGN CHOICE, assumption log entry 41). -/

namespace Sys2Proof.Machine

open Sys2Proof

/-! ### Ranks of a team (R355) -/

/-- Ranks of a team on each stage: panel, X, Y and Z. -/
structure TeamShape where
  p : Nat
  x : Nat
  y : Nat
  z : Nat
deriving DecidableEq, Repr

def TeamShape.m (w : TeamShape) : Nat := w.x * w.y * w.z
def TeamShape.n (w : TeamShape) : Nat := w.p * w.m

def TeamShape.len (w : TeamShape) (axis : Nat) : Nat :=
  match axis with
  | 0 => w.p
  | 1 => w.x
  | 2 => w.y
  | _ => w.z

/-- How far neighbours on a stage lie apart in team rank. -/
def TeamShape.pitch (w : TeamShape) (axis : Nat) : Nat :=
  match axis with
  | 0 => w.m
  | 1 => 1
  | 2 => w.x
  | _ => w.x * w.y

/-- Stage index of a team rank, and the rank with another one. -/
def TeamShape.index (w : TeamShape) (axis r : Nat) : Nat := r / max 1 (w.pitch axis) % max 1 (w.len axis)
def TeamShape.moved (w : TeamShape) (axis r i : Nat) : Nat :=
  r - w.index axis r * w.pitch axis + i * w.pitch axis

/-- The shape of a collective's team. -/
def teamShape (s : State) (p team : Nat) : TeamShape :=
  { p := teamP s p team, x := teamLen s p team 0, y := teamLen s p team 1, z := teamLen s p team 2 }

/-! ### The steps of each operation (R364, R365) -/

/-- The steps of halving or of doubling over the ranks of a stage. -/
def stageSteps (w : TeamShape) (gather : Bool) (axis : Nat) : List Exchange :=
  (List.range (treeDepth (w.len axis))).map (fun k => { axis, step := k, gather })

/-- The exchanges of a chunk in their order. A BROADCAST brings the chunk to the root's module's entry tile, along a tree
over the modules and along a tree in each panel. -/
def exchangesOf (op : Nat) (w : TeamShape) : List Exchange :=
  match op with
  | 0 => ([0, 1, 2, 3].flatMap (stageSteps w false)) ++ ([1, 2, 3, 0].flatMap (stageSteps w true))
  | 1 => [0, 1, 2, 3].flatMap (stageSteps w false)
  | 2 => [1, 2, 3, 0].flatMap (stageSteps w true)
  | _ => { axis := 0, step := 0, gather := false } ::
      ((List.range (treeDepth w.m)).map (fun k => { axis := 1, step := k, gather := true }) ++
        (List.range (treeDepth w.p)).map (fun k => { axis := 0, step := k, gather := true }))

/-! ### Halving and doubling (R361, R364) -/

/-- Who of group `g` of step `k` over `w` ranks holds what belongs to index `target` in the end: at each step the half that
bit `k` of the target names, and both where the other half's group is absent. -/
def keeper (w : Nat) : Nat → Nat → Nat → Nat
  | 0, g, _ => g
  | k + 1, g, target =>
    if w ≤ (2 * g + 1) * 2 ^ k || target / 2 ^ k % 2 = 0 then keeper w k (2 * g) target
    else keeper w k (2 * g + 1) target

/-- The rank agrees with another on the given stages. -/
def agrees (w : TeamShape) (axes : List Nat) (a b : Nat) : Bool := axes.all (fun d => w.index d a = w.index d b)

/-- A halving step for what belongs to rank `target`: the tile that has it for the one half, the one that has it for the
other, and the one of them that keeps it; none where one half is absent. -/
def halvingOf (w : TeamShape) (e : Exchange) (i target : Nat) : Option (Nat × Nat × Nat) :=
  let n := w.len e.axis
  let g := i / 2 ^ (e.step + 1)
  if n ≤ (2 * g + 1) * 2 ^ e.step then none
  else some (keeper n e.step (2 * g) target, keeper n e.step (2 * g + 1) target, keeper n (e.step + 1) g target)

/-- Ranks to which `me` sends in a halving step what belongs to `target`. -/
def halvingDests (w : TeamShape) (e : Exchange) (me target : Nat) : List Nat :=
  let i := w.index e.axis me
  match halvingOf w e i (w.index e.axis target) with
  | some (a, b, keep) =>
    if agrees w (List.range e.axis) me target && (i = a || i = b) && i ≠ keep then [w.moved e.axis me keep] else []
  | none => []

/-- The rank from which `me` takes in a halving step what belongs to `target`. -/
def halvingSource (w : TeamShape) (e : Exchange) (me target : Nat) : Option Nat :=
  let i := w.index e.axis me
  match halvingOf w e i (w.index e.axis target) with
  | some (a, b, keep) =>
    if agrees w (List.range e.axis) me target && i = keep then some (w.moved e.axis me (if i = a then b else a)) else none
  | none => none

/-- The stages that results pass on after the given one: the axes, then the panel. -/
def axesAfter (axis : Nat) : List Nat :=
  match axis with
  | 1 => [2, 3, 0]
  | 2 => [3, 0]
  | 3 => [0]
  | _ => []

/-- Stage indexes to which index `i` passes on what its group has: its partner, and those of the other group whose own
partner is absent, shared out in turn. -/
def passOn (n k i : Nat) : List Nat :=
  let g := i / 2 ^ (k + 1)
  let first := (2 * g + 1) * 2 ^ k
  let right := min n (first + 2 ^ k) - first
  if n ≤ first then []
  else if i < first then (if i + 2 ^ k < n then [i + 2 ^ k] else [])
  else ((List.range (2 ^ k)).filter (fun j => j % right = i - first)).map (fun j => 2 * g * 2 ^ k + j)

/-- Ranks to which `me` sends in a doubling step what belongs to `target`. -/
def doublingDests (w : TeamShape) (e : Exchange) (me target : Nat) : List Nat :=
  let i := w.index e.axis me
  if agrees w (axesAfter e.axis) me target && w.index e.axis target / 2 ^ e.step = i / 2 ^ e.step then
    (passOn (w.len e.axis) e.step i).map (w.moved e.axis me)
  else []

/-- The rank from which `me` takes in a doubling step what belongs to `target`. -/
def doublingSource (w : TeamShape) (e : Exchange) (me target : Nat) : Option Nat :=
  let i := w.index e.axis me
  let g := i / 2 ^ (e.step + 1)
  let t := w.index e.axis target
  if agrees w (axesAfter e.axis) me target && t / 2 ^ (e.step + 1) = g && t / 2 ^ e.step ≠ i / 2 ^ e.step then
    ((List.range (w.len e.axis)).find? (fun j => j / 2 ^ (e.step + 1) = g && (passOn (w.len e.axis) e.step j).contains i)).map
      (w.moved e.axis me)
  else none

/-! ### The trees of a BROADCAST (R365) -/

/-- The rank of step `k` of a tree over `n` ranks from `root` that index `i` sends to. -/
def treeDest (n k root i : Nat) : Option Nat :=
  let rel := (i + n - root) % max 1 n
  if rel < 2 ^ k && rel + 2 ^ k < n then some ((i + 2 ^ k) % n) else none

/-- Ranks to which `me` sends in a step of a BROADCAST. -/
def broadcastDests (w : TeamShape) (root : Nat) (e : Exchange) (me : Nat) : List Nat :=
  let entry := root % max 1 w.m
  let out : List Nat :=
    if e.axis = 1 then
      (if me < w.m then ((treeDest w.m e.step entry me).map (fun d => [d])).getD [] else [])
    else if e.gather then
      ((treeDest w.p e.step 0 (w.index 0 me)).map (fun d => [w.moved 0 me d])).getD []
    else if me = root && me ≠ entry then [entry] else []
  out.filter (fun d => d ≠ root)

/-! ### All operations -/

/-- Ranks to which `me` sends in an exchange the item that belongs to `target`. -/
def exchangeDests (op : Nat) (w : TeamShape) (root : Nat) (e : Exchange) (me target : Nat) : List Nat :=
  if op = 3 then broadcastDests w root e me
  else if e.gather then doublingDests w e me target
  else halvingDests w e me target

/-- The rank from which `me` takes in an exchange the item that belongs to `target`. -/
def exchangeSource (op : Nat) (w : TeamShape) (root : Nat) (e : Exchange) (me target : Nat) : Option Nat :=
  if op = 3 then (List.range w.n).find? (fun r => (broadcastDests w root e r).contains me)
  else if e.gather then doublingSource w e me target
  else halvingSource w e me target

/-! ### Fields and operands of a collective (R356) -/

def collSrcSlot (l : Line) : Nat := lineField l 0x18 0 24
def collDstSlot (l : Line) : Nat := lineField l 0x1C 0 24
def collStageSlot (l : Line) : Nat := lineField l 0x20 0 24
def collCountsSlot (l : Line) : Nat := lineField l 0x24 0 24
def collRcountsSlot (l : Line) : Nat := lineField l 0x28 0 24
def collVc (l : Line) : Nat := lineField l 0x10 13 3
def collRoot (l : Line) : Nat := lineField l 0x14 0 20
def collCapacity (l : Line) : Nat := lineField l 0x30 0 16
def collTensor (l : Line) : Nat := lineField l 0x2C 0 24
/-- Size of a slot of staging, and of a chunk of the source (R364). -/
def slotBytes : Nat := 524288
def chunkBytes : Nat := 262144

def collSrc (c : Coll) : Desc := descOf (collSrcSlot c.line) c.src
def collDst (c : Coll) : Desc := descOf (collDstSlot c.line) c.dst
def collStageDesc (c : Coll) : Desc := descOf (collStageSlot c.line) c.stage
def collRcounts (c : Coll) : Desc := descOf (collRcountsSlot c.line) c.rcounts

/-- Bytes of a descriptor's elements. -/
def descBytes (d : Desc) : Nat := descCount d * elemBits d.elem / 8

/-- ALL_TO_ALL_V. -/
def isVariable (c : Coll) : Bool := collOp c.line = 5

/-- The collective that a tile's engine runs, when it is in the given phase. -/
def runningIn (s : State) (t : Nat) (ph : CollPhase) : Option Coll :=
  (s.coll t).running.filter (fun c => c.phase = ph)

/-- Replace the running collective. -/
def putRunning (s : State) (t : Nat) (c : Coll) : State :=
  s.setColl t { s.coll t with running := some c }

/-- A line, a block or a roll-call result has reached the member, or an acknowledgement has: its COLL_MS start again
(R369). -/
def madeProgress (s : State) (c : Coll) : Coll := { c with progress := s.time }

/-- Team size and own rank of a collective, and the shape of its team. -/
def collN (s : State) (t : Nat) (c : Coll) : Nat := teamN s (tileParty s t) (collTeam c.line)
def collRank (s : State) (t : Nat) (c : Coll) : Nat := teamRank s (tileParty s t) (collTeam c.line) t
def collShapeOf (s : State) (t : Nat) (c : Coll) : TeamShape := teamShape s (tileParty s t) (collTeam c.line)

/-! ### Numbers as elements -/

/-- `n` bits of a number as element codes. -/
def codesOf (eb n v : Nat) : List Nat := (List.range (n / max 1 eb)).map (fun i => bits v (eb * i) eb)

/-- The bits of codes of one width as codes of another: the destination takes the source bits unchanged (R360). -/
def recode (ebFrom ebTo : Nat) (codes : List Nat) : List Nat :=
  if ebFrom = ebTo then codes else codesOf ebTo (ebFrom * codes.length) (packLine ebFrom codes)

/-- Codes packed in lines, and the first `n` codes of lines. -/
def packedLines (eb : Nat) (codes : List Nat) : List Line :=
  let per := 512 / max 1 eb
  (List.range ((codes.length + per - 1) / max 1 per)).map (fun i =>
    BitVec.ofNat 512 (packLine eb ((codes.drop (per * i)).take per)))
def unpackedCodes (eb n : Nat) (ls : List Line) : List Nat :=
  (ls.flatMap (fun l => (List.range (512 / max 1 eb)).map (lineElem eb l))).take n

/-! ### Lines of a chunk (R364)

The source is cut into lines as its elements follow one another, and a chunk holds 4,096 of them. A REDUCE_SCATTER takes
the lines of the members' blocks in turn, so that every chunk holds a like part of each block. -/

/-- The descriptor whose elements are cut into chunks: the source, or the destination of a BROADCAST. -/
def chunkDesc (c : Coll) : Desc := if collOp c.line = 3 then collDst c else collSrc c

/-- Elements of a line, lines of the whole, of a chunk, and the number of chunks. -/
def chunkPer (c : Coll) : Nat := 512 / max 1 (elemBits (chunkDesc c).elem)
def chunkLinesAll (c : Coll) : Nat := (descBytes (chunkDesc c) + 63) / 64
def chunkTotal (c : Coll) : Nat := (chunkLinesAll c + 4095) / 4096
def chunkSize (c : Coll) (k : Nat) : Nat := min 4096 (chunkLinesAll c - 4096 * k)

/-- Line of the source that line `j` of chunk `k` is, over a team of `n`. -/
def chunkLine (c : Coll) (n k j : Nat) : Nat :=
  let q := 4096 * k + j
  if collOp c.line = 1 then q % max 1 n * (chunkLinesAll c / max 1 n) + q / max 1 n else q

/-- The team rank to which line `j` of chunk `k` belongs in the end: for a REDUCE_SCATTER the member whose block it is,
for an ALL_REDUCE the lines of the chunk in equal parts. -/
def chunkTarget (c : Coll) (n k j : Nat) : Nat :=
  if collOp c.line = 1 then (4096 * k + j) % max 1 n else j * n / max 1 (chunkSize c k)

/-- First element and number of elements of a line of the source. -/
def lineSpan (c : Coll) (line : Nat) : Nat × Nat :=
  (line * chunkPer c, min (chunkPer c) (descCount (chunkDesc c) - line * chunkPer c))

/-- Offset in staging of line `j` of chunk `k`: the lower half of its slot holds the values, the upper half takes what
halving brings. -/
def slotOff (c : Coll) (k j : Nat) (upper : Bool) : Nat :=
  lineAt (collStageDesc c) (8192 * (k % collSlots c.line) + (if upper then 4096 else 0) + j)

/-! ### Items of an exchange

What an exchange moves: lines of the chunk or, in an ALL_GATHER, blocks by the team rank they come from. -/

/-- Number of items, and the rank an item belongs to. -/
def itemCount (c : Coll) (n k : Nat) : Nat := if collOp c.line = 2 then n else chunkSize c k
def itemTarget (c : Coll) (n k j : Nat) : Nat := if collOp c.line = 2 then j else chunkTarget c n k j

/-- Elements of DST that chunk `k` of block `r` of an ALL_GATHER covers. -/
def gatherSpan (c : Coll) (n k r : Nat) : Nat × Nat :=
  let d := collDst c
  let blk := descCount d / max 1 n
  let per := 4096 * (512 / max 1 (elemBits d.elem))
  (r * blk + per * k, min per (blk - per * k))

/-- Offsets that an item takes at its receiver in an exchange. -/
def itemOffs (c : Coll) (n k j : Nat) (e : Exchange) : List Nat :=
  if collOp c.line = 2 then
    let r := gatherSpan c n k j
    let sp := spanLines (collDst c) r.1 r.2
    (List.range sp.2).map (fun i => lineAt (collDst c) (sp.1 + i))
  else [slotOff c k j (!e.gather)]

/-- The key under which a chunk keeps an arrived line of an item. -/
def gotKey (c : Coll) (n round j off : Nat) : Nat :=
  (round * max 4096 n + j) * 2 ^ 28 + (if collOp c.line = 2 then off / 64 else 0)

/-- A chunk of the running collective, and putting one back. -/
def chunk? (c : Coll) (k : Nat) : Option Chunk := c.chunks.find? (fun x => x.index = k)
def putChunk (c : Coll) (x : Chunk) : Coll :=
  if c.chunks.any (fun y => y.index = x.index) then
    { c with chunks := c.chunks.map (fun y => if y.index = x.index then x else y) }
  else { c with chunks := c.chunks ++ [x] }

/-- The exchange, chunk and item for which rank `r` has sent a line to an offset: the earliest that still wants it. -/
def wantedLine (c : Coll) (w : TeamShape) (me r off : Nat) : Option (Nat × Nat × Nat) :=
  let es := exchangesOf (collOp c.line) w
  (List.range (chunkTotal c)).findSome? (fun k =>
    if k < c.nextChunk && (chunk? c k).isNone then none
    else
      let x := (chunk? c k).getD { index := k }
      (List.range es.length).findSome? (fun i =>
        match es[i]? with
        | none => none
        | some e =>
          if i < x.round then none
          else
            ((List.range (itemCount c w.n k)).find? (fun j =>
              exchangeSource (collOp c.line) w (collRoot c.line) e me (itemTarget c w.n k j) = some r &&
              (itemOffs c w.n k j e).contains off &&
              (mget none x.got (gotKey c w.n i j off)).isNone)).map (fun j => (k, i, j))))

end Sys2Proof.Machine
end

