-- ==== Sys2Proof/Machine/CollDirect.lean ====
section
/-! DEFINITION. The data of a collective: the lines that peers send as they arrive, the direct operations ALL_TO_ALL and
ALL_TO_ALL_V with their blocks, receive record and completion (spec/09 R358, R360, R364 to R368). -/

namespace Sys2Proof.Machine

open Sys2Proof

/-! ### The source (R360) -/

/-- Elements of a block of the destination, and of a row of ALL_TO_ALL_V. -/
def blockElems (s : State) (t : Nat) (c : Coll) : Nat := descCount (collDst c) / max 1 (collN s t c)
def rowElems (s : State) (t : Nat) (c : Coll) : Nat := blockElems s t c / max 1 (collCapacity c.line)

/-- Elements of the source that hold `n` elements of the destination's width from number `first` on. -/
def sourceSpan (c : Coll) (first n : Nat) : Nat × Nat :=
  let ebD := elemBits (collDst c).elem
  let ebS := max 1 (elemBits (collSrc c).elem)
  (first * ebD / ebS, n * ebD / ebS)

/-- The source's bits as elements of the destination's width, read with the hint STREAM (R186, R360). -/
def sourceCodes (s : State) (t : Nat) (c : Coll) (first n : Nat) : Except Err (List Nat) × State :=
  let r := sourceSpan c first n
  match loadHinted s t (collSrc c) r.1 r.2 .stream with
  | (.ok cs, s) => (.ok (recode (elemBits (collSrc c).elem) (elemBits (collDst c).elem) cs), s)
  | (.error e, s) => (.error e, s)

/-- The source elements of a range can be accessed. -/
def sourceReady (s : State) (t : Nat) (c : Coll) (first n : Nat) : Bool :=
  let r := sourceSpan c first n
  rangeReady s t (collSrc c) r.1 r.2

/-! ### Blocks (R360, R367, R368) -/

/-- Rows of capacity class `k` (R368). -/
def classOfRows (capacity k : Nat) : Nat := (k * capacity + 7) / 8

/-- Rows that every block carries: those of the smallest class that holds min(G, CAPACITY). -/
def sentRows (capacity largest : Nat) : Nat :=
  (((List.range 8).map (fun i => classOfRows capacity (i + 1))).find? (fun r => min largest capacity ≤ r)).getD capacity

/-- Elements that a block carries; before the open round's result is here, those that it may carry. -/
def blockCarries (s : State) (t : Nat) (c : Coll) : Nat :=
  if isVariable c && c.phase = .direct then sentRows (collCapacity c.line) c.largest * rowElems s t c
  else blockElems s t c

/-- Offsets of the destination that a peer's block takes. -/
def blockOffs (s : State) (t : Nat) (c : Coll) (r : Nat) : List Nat :=
  let sp := spanLines (collDst c) (r * blockElems s t c) (blockCarries s t c)
  (List.range sp.2).map (fun i => lineAt (collDst c) (sp.1 + i))

/-- Lines that all peers bring. -/
def expectedLines (s : State) (t : Nat) (c : Coll) : Nat :=
  (((List.range (collN s t c)).filter (fun r => r ≠ collRank s t c)).map (fun r => (blockOffs s t c r).length)).foldl
    (· + ·) 0

/-- First element and number of elements of the entry of rank `r` in a receive record (R367). -/
def entrySpan (d : Desc) (r : Nat) : Nat × Nat :=
  let eb := max 1 (elemBits d.elem)
  (64 * r / eb, 64 / eb)

/-- Offsets of the receive record that the entry of rank `r` takes. -/
def entryOffs (c : Coll) (r : Nat) : List Nat :=
  let d := collRcounts c
  let e := entrySpan d r
  let sp := spanLines d e.1 e.2
  (List.range sp.2).map (fun i => lineAt d (sp.1 + i))

/-- A direct operation is complete when it has sent every block and received every block, and every entry of its
receive record is performed (R358). -/
def directDone (s : State) (t : Nat) : State :=
  match runningIn s t .direct with
  | none => s
  | some c =>
    let n := collN s t c
    if c.nextChunk = n && expectedLines s t c ≤ c.received &&
        (!isVariable c || (List.range n).all (fun r => (entryOffs c r).length ≤ mget 0 c.entries r)) then
      finishCommand s c.queue c.idx
    else s

/-! ### Lines that arrive -/

/-- The collective of a tile to which packets of its peers belong: the one that has opened (R359). -/
def openedColl (s : State) (t : Nat) : Option Coll := (s.coll t).running.filter (fun c => c.opened)

/-- The team rank of a packet's source. -/
def senderRank (s : State) (t : Nat) (c : Coll) (p : Packet) : Option Nat :=
  let party := tileParty s t
  let team := collTeam c.line
  (List.range (collN s t c)).find? (fun r =>
    rankTile s party team r = p.srcTile && rankModule s party team r = p.srcModule)

/-- The line of a chunked operation that a packet's line is. -/
def wantedHere (s : State) (t : Nat) (c : Coll) (r off : Nat) : Option (Nat × Nat × Nat) :=
  wantedLine c (collShapeOf s t c) (collRank s t c) r off

/-- The part of DST or RCOUNTS that a line of rank `r` carries; the elements beside it stay as they are. -/
def carriedPart (s : State) (t : Nat) (c : Coll) (r off : Nat) : Option (Desc × Nat × Nat) :=
  let op := collOp c.line
  if op = 4 || op = 5 then
    if (blockOffs s t c r).contains off then some (collDst c, r * blockElems s t c, blockCarries s t c)
    else if isVariable c && (entryOffs c r).contains off then
      some (collRcounts c, (entrySpan (collRcounts c) r).1, (entrySpan (collRcounts c) r).2)
    else none
  else if op = 2 then
    (wantedHere s t c r off).map (fun x =>
      let sp := gatherSpan c (collN s t c) x.1 x.2.2
      (collDst c, sp.1, sp.2))
  else none

/-- The lines that a packet of a collective writes. -/
def carriedWrites (s : State) (t : Nat) (p : Packet) (ls : List (Nat × Line)) : List (Nat × Line) :=
  match p.coll, openedColl s t with
  | true, some c =>
    (match senderRank s t c p with
      | some r => ls.flatMap (fun x =>
          match carriedPart s t c r x.1 with
          | some (d, first, n) => keepOthers s t d first n [x]
          | none => [x])
      | none => ls)
  | _, _ => ls

/-- A line of rank `r` has been performed: the collective has it. -/
def noteLine (s : State) (t : Nat) (c : Coll) (r : Nat) (x : Nat × Line) : Coll :=
  let op := collOp c.line
  if op = 4 || op = 5 then
    if (blockOffs s t c r).contains x.1 then { c with received := c.received + 1 }
    else if isVariable c && (entryOffs c r).contains x.1 then
      { c with entries := mset 0 c.entries r (mget 0 c.entries r + 1) }
    else c
  else
    match wantedHere s t c r x.1 with
    | some (k, i, j) =>
      let y := (chunk? c k).getD { index := k }
      putChunk c { y with got := mset none y.got (gotKey c (collN s t c) i j x.1) (some x.2) }
    | none => c

/-- The lines of a packet of a peer have been performed (R358, R369). -/
def collArrived (s : State) (t : Nat) (p : Packet) (ls : List (Nat × Line)) : State :=
  match p.coll, openedColl s t with
  | true, some c =>
    (match senderRank s t c p with
      | some r =>
        let c := ls.foldl (fun c x => noteLine s t c r x) c
        directDone (putRunning s t (madeProgress s c)) t
      | none => s)
  | _, _ => s

/-- An acknowledgement has arrived for a command: progress of the collective it is (R369). -/
def collAcked (s : State) (g : Nat) (idx : Word) : State :=
  match (s.coll (g / 256)).running with
  | some c => if c.queue = g && c.idx = idx then putRunning s (g / 256) (madeProgress s c) else s
  | none => s

/-! ### Sending (R358, R365, R368) -/

/-- Lines of a command that are not acknowledged. -/
def unackedLines (s : State) (g : Nat) (idx : Word) : Nat :=
  ((s.fabric.sent.filter (fun o => o.purpose = .command g idx)).map (fun o => o.pkt.flits)).foldl (· + ·) 0 +
  ((s.fabric.unsent.filter (fun u => u.purpose = .command g idx)).map (fun u => u.pkt.payload.length)).foldl (· + ·) 0

/-- Write packets of a collective to the member of a team rank, in WRITE slots of the gate (R250, R256, R358). Lines of
the destination accumulate where its descriptor says so. -/
def sendColl (s : State) (t : Nat) (c : Coll) (acc : Bool) (rank : Nat) (ls : List (Nat × Line)) : State :=
  let party := tileParty s t
  let team := collTeam c.line
  let tile := rankTile s party team rank
  let s := (s.count64 (tilA t 0x7048) (64 * ls.length)).count64 (tilA t 0x4048) ls.length
  (lineRuns 4 0 (ls.map (·.1))).foldl (fun s r =>
    sendPacket s (.tile (Fin.ofNat 64 t)) (.command c.queue c.idx)
      { ty := (if acc then tyWriteAcc else tyWrite), vc := collVc c.line, coll := true,
        accKf16 := acc && (collDst c).elem = 1, dstModule := rankModule s party team rank, dstTile := tile, party,
        addr := tileAddr tile (r.2.headD 0), payload := ((ls.drop r.1).take r.2.length).map (·.2) }) s

/-- The codes of the block for rank `q`: rows of the source, then rows of zero (R368); the
error of a source line that cannot be read. -/
def blockCodes (s : State) (t : Nat) (c : Coll) (q : Nat) : Except Err (List Nat) × State :=
  let blk := blockElems s t c
  let carries := blockCarries s t c
  let take := if isVariable c then min (c.rows.getD q 0) (collCapacity c.line) * rowElems s t c else blk
  match sourceCodes s t c (q * blk) take with
  | (.ok cs, s) => (.ok (cs ++ List.replicate (carries - take) 0), s)
  | (.error e, s) => (.error e, s)

/-- Rows received and dropped that the entry for rank `q` records, as its 64 bits (R367). -/
def entryFor (c : Coll) (q : Nat) : Nat :=
  let n := c.rows.getD q 0
  min n (collCapacity c.line) + 2 ^ 32 * (n - collCapacity c.line)

/-- The sender's entry of the receive record of rank `q`: written in place for the own block, sent with the block to a
peer (R368). -/
def sendEntry (s : State) (t : Nat) (c : Coll) (q : Nat) : State :=
  let me := collRank s t c
  let d := collRcounts c
  let codes := codesOf (elemBits d.elem) 64 (entryFor c q)
  let first := (entrySpan d me).1
  if q = me then
    match storeCodes s t d first codes (.command c.queue c.idx) with
    | (some e, s) => abortCommand s c.queue c.idx (descFault d 4 e)
    | (none, s) =>
      putRunning s t { c with entries := mset 0 c.entries me (entryOffs c me).length }
  else sendColl s t c false q (placedLines d first codes)

/-- The block for rank `q` has been sent: so is the entry of its receive record, and the drops count (R368). -/
def blockSent (s : State) (t : Nat) (c : Coll) (q : Nat) : State :=
  let c := { c with nextChunk := q + 1, blockSent := 0 }
  let s := putRunning s t c
  let s := if isVariable c then
      sendEntry (s.count64 (tilA t 0x7050) (c.rows.getD q 0 - collCapacity c.line)) t c q
    else s
  directDone s t

/-- Send the next block, or as much of it as SLOTS × 512 KiB unacknowledged allow; the own block is copied. -/
def directStep (s : State) (t : Nat) (c : Coll) : State :=
  let q := c.nextChunk
  let me := collRank s t c
  let blk := blockElems s t c
  let d := collDst c
  if !sourceReady s t c (q * blk) blk then s
  else
    match blockCodes s t c q with
    | (.error e, s) => abortCommand s c.queue c.idx (descFault (collSrc c) 0 e)
    | (.ok codes, s) =>
      if q = me then
        if !rangeReady s t d (me * blk) codes.length then s
        else
          match storeCodes s t d (me * blk) codes (.command c.queue c.idx) with
          | (none, s) => blockSent s t c q
          | (some e, s) => abortCommand s c.queue c.idx (descFault d 1 e)
      else
        let ls := (placedLines d (me * blk) codes).drop c.blockSent
        let room := collSlots c.line * slotBytes / 64 - unackedLines s c.queue c.idx
        let now := ls.take room
        if now = [] then s
        else
          let s := sendColl s t c d.acc q now
          if now.length = ls.length then blockSent s t c q
          else putRunning s t { c with blockSent := c.blockSent + now.length }

end Sys2Proof.Machine
end

