-- ==== Sys2Proof/Machine/Leader.lean ====
section
/-! DEFINITION. Leadership: election, lease and handover (spec/13_itinerary_and_control.md R495 to R499). -/

namespace Sys2Proof.Machine

open Sys2Proof

/-- Register of host port `h` (R462). -/
def hostA (h o : Nat) : Nat := hbgA (0x200 + 0x40 * h + o)

/-- A master's path is up (R507): a host's link, or the management endpoint. -/
def masterPresent (s : State) (m : Nat) : Bool :=
  if m < 2 then s.field (hostA m 0) 0 1 = 1 else s.mgmt.up

/-- The LEADER event (R529). -/
def leaderEvent (s : State) : State :=
  let x := s.lead
  let m := (x.leader.getD x.last).val
  post s 0x07 (srcDevice 3) (m + 4 * x.leader.isNone.toNat + 65536 * x.term.toNat)

/-- A full lease from now: LEASE_S, 1 to 60 seconds (R498, R507). -/
def freshLease (s : State) : Nat := s.now + 1000000000 * s.field 0x8008 0 6

/-- A master becomes trip leader on a path (R497, R498). -/
def install (s : State) (m : Fin 4) (p : Path) : State :=
  leaderEvent { s with lead := { s.lead with
    leader := some m, last := m, pending := false, term := s.lead.term + 1, lease := freshLease s, keepPath := p } }

/-- The trip leader is lost: 0 its lease, 1 its path, 2 deposed (R497). -/
def leaderLost (s : State) (reason : Nat) : State :=
  match s.lead.leader with
  | none => s
  | some m =>
    let s := { s with lead := { s.lead with leader := none, last := m, pending := false } }
    post s 0x09 (srcDevice 3) (m.val + 4 * reason)

/-- A pending handover fails: 0 in time, 1 since the target's path is lost (R497). -/
def handoverFailed (s : State) (cause : Nat) : State :=
  if !s.lead.pending then s
  else
    let m := (s.lead.leader.getD s.lead.last).val
    post { s with lead := { s.lead with pending := false } } 0x08 (srcDevice 3)
      (m + 4 * s.lead.target.val + 16 * cause)

/-- A host's path is lost (R497, R498). -/
def pathLost (s : State) (m : Nat) : State :=
  if s.lead.leader.any (fun x => x.val = m) then leaderLost s 1
  else if s.lead.target.val = m then handoverFailed s 1
  else s

/-- A command of `DEV_LEADER_CMD`, from any management master (R496, R497): one that the table does not allow now is
an ownership error. -/
def leaderCommand (s : State) (p : Path) (effect : Fin 4 → Option State) : State :=
  let acc : Access := { path := p, off := 0x8004 }
  if pathSilent s p then s
  else if pathClosed s p then answer s .unsupported
  else
    match p.master with
    | none => refused s acc 1
    | some m =>
      match effect m with
      | some s => answer s .ok
      | none => ownershipError s acc m.val

/-- What each command of `DEV_LEADER_CMD` does for master `m`, where the table of R497 allows it. -/
def claimBy (s : State) (p : Path) (m : Fin 4) : Option State :=
  if s.lead.leader.isNone then some (install s m p) else none

/-- Only a KEEP from the lease's own path restarts it (R498). -/
def keepBy (s : State) (p : Path) (m : Fin 4) : Option State :=
  if s.lead.leader ≠ some m then none
  else if s.lead.keepPath = p then some { s with lead := { s.lead with lease := freshLease s } }
  else some s

def releaseBy (s : State) (m : Fin 4) : Option State :=
  if s.lead.leader = some m && !s.lead.pending then
    some (leaderEvent { s with lead := { s.lead with leader := none, last := m } })
  else none

/-- A handover starts its 1 s timer. -/
def handoverBy (s : State) (target m : Fin 4) : Option State :=
  if s.lead.leader = some m && !s.lead.pending && target ≠ m && masterPresent s target.val then
    some { s with lead := { s.lead with pending := true, target, deadline := s.now + 1000000000 } }
  else none

def acceptBy (s : State) (p : Path) (m : Fin 4) : Option State :=
  if s.lead.pending && s.lead.target = m then some (install s m p) else none

/-- Only the service port deposes. -/
def deposeBy (s : State) (m : Fin 4) : Option State :=
  if m = 3 && s.lead.leader.isSome then some (leaderLost s 2) else none

/-- CLAIM (R497). -/
def execClaim (p : Path) (s : State) : Host.Outcome State Fault Refusal := .next (leaderCommand s p (claimBy s p))

/-- KEEP (R497, R498). -/
def execKeep (p : Path) (s : State) : Host.Outcome State Fault Refusal := .next (leaderCommand s p (keepBy s p))

/-- RELEASE (R497). -/
def execRelease (p : Path) (s : State) : Host.Outcome State Fault Refusal := .next (leaderCommand s p (releaseBy s))

/-- HANDOVER (R497). -/
def execHandover (p : Path) (target : Fin 4) (s : State) : Host.Outcome State Fault Refusal :=
  .next (leaderCommand s p (handoverBy s target))

/-- ACCEPT (R497). -/
def execAccept (p : Path) (s : State) : Host.Outcome State Fault Refusal := .next (leaderCommand s p (acceptBy s p))

/-- DEPOSE (R497). -/
def execDepose (p : Path) (s : State) : Host.Outcome State Fault Refusal := .next (leaderCommand s p (deposeBy s))

/-- LEASE_EXPIRY (R497, R498). -/
def execLeaseExpiry (s : State) : Host.Outcome State Fault Refusal :=
  if s.lead.leader.isSome then .next (leaderLost (s.passTo s.lead.lease) 0) else .next s

/-- HANDOVER_TIMEOUT (R497). -/
def execHandoverTimeout (s : State) : Host.Outcome State Fault Refusal :=
  if s.lead.pending then .next (handoverFailed (s.passTo s.lead.deadline) 0) else .next s

end Sys2Proof.Machine
end

