-- ==== Sys2Proof/Machine/HostLines.lean ====
section
/-! DEFINITION. What follows in a host bridge when a packet of it is answered: held doorbells and tally writes, and
host reads (spec/11_copper_and_host.md R444 to R449). -/

namespace Sys2Proof.Machine

open Sys2Proof

/-! ### Functions -/

/-- The party whose packets a function's accesses become: the owner's party 0 for a PF. -/
def fnParty (f : Fn) : Nat := f.vf.val - 1

/-! ### The doorbell page (R260, R275, R308) -/

/-- Effect of a write to a doorbell or tally register at an offset of the page. -/
def pageEffect (s : State) (page : Nat) (v : Word) : State :=
  if page < 0x200000 then ringDoorbell s (page / 0x80) v
  else
    let k := (page - 0x200000) / 16
    if page % 16 = 0 then tallyWrite s k v else tallyAdd s k v

/-- Held doorbells and tally writes of a function whose earlier lines are all answered are performed, in their order
(R446). -/
def hostSettle (s : State) (f : Fn) : State :=
  let h := s.host f
  let due := h.waiting.filter (fun w => w.after = [])
  due.foldl (fun s w => pageEffect s w.page w.data)
    (s.setHost f { h with waiting := h.waiting.filter (fun w => w.after ≠ []) })

/-- A full line of a function has been answered. A rejected or lost line settles as an acknowledged one
(DESIGN CHOICE, assumption log entry 39). -/
def hostLineDone (s : State) (f : Fn) (n : Nat) : State :=
  let h := s.host f
  hostSettle (s.setHost f { h with
    unacked := h.unacked.erase n,
    waiting := h.waiting.map (fun w => { w with after := w.after.erase n }) }) f

/-! ### Reads (R447) -/

/-- The bytes of a read from its lines. -/
def readBytes (r : HostRead) : List Nat :=
  (List.range r.length).map (fun i =>
    let k := r.offset % 64 + i
    bits (((mget none r.lines (k / 64)).getD 0).toNat) (8 * (k % 64)) 8)

/-- Lines of a read arrive at a place of it; the last completes the request, with EP when one was poisoned. -/
def hostReadLines (s : State) (f : Fn) (id place : Nat) (ls : List Line) (poison : Bool) : State :=
  let h := s.host f
  match h.reads.find? (fun r => r.id = id) with
  | none => s
  | some r =>
    let s := s.count64 (hostA f.port.val 0x10) ls.length
    let lines := ((List.range ls.length).zip ls).foldl
      (fun m p => mset none m (place + p.1) (some p.2)) r.lines
    let r' : HostRead := { r with lines, poison := r.poison || poison, left := r.left - ls.length }
    if r'.left = 0 then
      (s.setHost f { h with reads := h.reads.filter (fun x => x.id ≠ id) }).emit
        (.completion f .ok (readBytes r') r'.poison)
    else s.setHost f { h with reads := h.reads.map (fun x => if x.id = id then r' else x) }

/-- A read request was rejected or lost: Completer Abort and READ_ABORT; `reason` is 0xFF for a timeout. -/
def hostReadFailed (s : State) (f : Fn) (id reason : Nat) : State :=
  let h := s.host f
  match h.reads.find? (fun r => r.id = id) with
  | none => s
  | some r =>
    let s := s.setHost f { h with reads := h.reads.filter (fun x => x.id ≠ id) }
    let s := (s.emit (.completion f .abort [] false)).count32 (hostA f.port.val 0x20) 1
    post s 0x62 (srcBridge f.port.val 0) (r.offset % 2 ^ 36 + 2 ^ 36 * (reason % 256)) (fnParty f)

end Sys2Proof.Machine
end

