-- ==== Sys2Proof/Machine/Links.lean ====
section
/-! DEFINITION. Links between modules: launching, re-routing, going down and losing a direction
(spec/08_packet_fabric.md R318, R319, R331, R333, R343 to R345). -/

namespace Sys2Proof.Machine

open Sys2Proof

/-! ### Registers and sources -/

/-- Host bridge of a copper link, as the itinerary gives it. -/
def copperBridge (s : State) (k : Nat) : Nat :=
  match copperLink? s.itin.force k with
  | some (h, _, _, _) => h
  | none => 0

/-- SOURCE of a link (R513). -/
def srcLink (s : State) : ModLink → Nat
  | .bundle n m _ => srcLantern n.val (0x20 + m.val)
  | .copper k => srcBridge (copperBridge s k.val) (0x10 + k.val)

/-- Registers of a link: symbols corrected, uncorrectable codewords, replays requested, times down (R434, R463). -/
def linkCe : ModLink → Nat
  | .bundle n m _ => lanA n.val (0x2010 + 0x40 * m.val)
  | .copper k => hbgA (0x1008 + 0x40 * k.val)
def linkUe : ModLink → Nat
  | .bundle n m _ => lanA n.val (0x2018 + 0x40 * m.val)
  | .copper k => hbgA (0x1010 + 0x40 * k.val)
def linkReplays : ModLink → Nat
  | .bundle n m _ => lanA n.val (0x201C + 0x40 * m.val)
  | .copper k => hbgA (0x1014 + 0x40 * k.val)
def linkDowns : ModLink → Nat
  | .bundle n m _ => lanA n.val (0x2020 + 0x40 * m.val)
  | .copper k => hbgA (0x1018 + 0x40 * k.val)

/-- Direction and entry tile of a link in its present entry; the buddy link outside the torus has no direction and
the entry tile of its bridge. -/
def linkPlace (s : State) : ModLink → Option (Option Nat × Nat)
  | .bundle n m i =>
    let e := (s.bundle n.val m.val).entry
    if i.val < entryCount e then some (some (entryDir e i.val), entryTile e) else none
  | .copper k =>
    let e := (s.copperPort k.val).entry
    if bits e 0 1 = 1 then some (some (bits e 1 3), bits e 4 6)
    else if k.val = 12 then (bridgeEntry s (buddyBridge s.itin.force)).map (fun t => (none, t))
    else none

/-- Port of the router of tile `t` that a link's lantern or bridge is attached to (R39). -/
def linkPort (s : State) (t : Nat) (l : ModLink) : Nat :=
  let mine := fun (a : Attach) => match l, a with
    | .bundle n _ _, .lantern n' _ => n.val = n'
    | .copper k, .bridge h _ => copperBridge s k.val = h
    | _, _ => false
  4 + (attachments (siteOf s t)).findIdx mine

/-! ### The key of a link (R591 to R594) -/

/-- The connection that carries a link: its port, or the copper link itself, and the band of its bundle. -/
def linkConn (s : State) : ModLink → Port × Nat
  | .bundle n m i => (s.port n.val (entryPort (s.bundle n.val m.val).entry i.val), planeOf m.val)
  | .copper k => (s.copperPort k.val, 0)

/-- This end is end L of a connection: its identity is the lower one (R591). -/
def lowEnd (mine : Nat) (x : Port) : Bool := match x.keying.offered with
  | some o => decide (mine < o.endpoint)
  | none => true

/-- Endpoint identity of this end of a link's connection (R591). -/
def linkEndpoint (s : State) : ModLink → Nat
  | .bundle n m i => myModule s + 2 ^ 15 * n.val + 2 ^ 18 * entryPort (s.bundle n.val m.val).entry i.val
  | .copper k => myModule s + 2 ^ 14 + 2 ^ 15 * copperBridge s k.val + 2 ^ 18 * k.val

/-- Key and salt under which this end launches frames on a link: of a port, the service key pair comes first, then a
pair for each band, each in the order L to H, H to L; of a copper link, its one pair (R591). -/
def sendKey (s : State) (l : ModLink) : BitVec 288 :=
  let (x, band) := linkConn s l
  let pair := match l with
    | .bundle _ _ _ => 1 + band
    | .copper _ => 0
  x.keying.keys.getD (2 * pair + (if lowEnd (linkEndpoint s l) x then 0 else 1)) 0

/-- The last launch stamp accepted under the key of a link's other direction (R594). -/
def lastStamp (s : State) (l : ModLink) : Option Nat :=
  let (x, band) := linkConn s l
  mget none x.keying.stamps band

/-- A stamp has been accepted. -/
def setStamp (s : State) (l : ModLink) (t : Nat) : State :=
  let (x, band) := linkConn s l
  let x' : Port := { x with keying := { x.keying with stamps := mset none x.keying.stamps band (some t) } }
  match l with
  | .bundle n m i => s.setPort n.val (entryPort (s.bundle n.val m.val).entry i.val) x'
  | .copper k => s.setCopper k.val x'

/-! ### Launching (R320, R343, R344, R409, R593) -/

/-- Frames that a link's retry buffer holds: 256 KiB of 2 KiB frames, shared equally by the positions of a rotation
(R344, R409). -/
def retryFrames (s : State) : ModLink → Nat
  | .bundle n m _ => 128 / max 1 (entryCount (s.bundle n.val m.val).entry)
  | .copper _ => 128

/-- The slot position that a bundle's light is on now (R409). -/
def nowPos (b : Bundle) : Nat := b.slot % max 1 (entryCount b.entry)

/-- Slot length of a ROTATE entry in nanoseconds (R409). -/
def slotNs (e : BitVec 64) : Nat := 256 * entrySlot e

/-- The light of a bundle stands on the link's position now; a copper link has no slots (R409). -/
def inSlot (s : State) : ModLink → Bool
  | .bundle n m i => i.val = nowPos (s.bundle n.val m.val) && !(s.bundle n.val m.val).away
  | .copper _ => true

/-- When a link launches its next frame: now, or 34 ns after the last one (R593). -/
def launchAt (s : State) (l : ModLink) : Nat := match (s.link l).launched with
  | some t => max s.time (t + 34)
  | none => s.time

/-- A frame launched at a time ends before the link's slot does (R409). -/
def endsInSlot (s : State) (l : ModLink) (t : Nat) : Bool := match l with
  | .bundle n m _ =>
    let b := s.bundle n.val m.val
    entryMode b.entry ≠ 2 ||
      (t + 34 < b.origin + (b.slot + 1) * slotNs b.entry && (match b.renew with
        | some r => decide (t + 34 < r)
        | none => true))
  | .copper _ => true

/-- The transmitter of a link runs: the link is in its set, its light locked, and its slot takes another frame. -/
def linkAwake (s : State) (l : ModLink) : Bool :=
  let x := s.link l
  x.up && !x.dark && inSlot s l && endsInSlot s l (launchAt s l)

/-- The peer's input buffer has credits for a packet (R320). -/
def linkCredit (s : State) (l : ModLink) (p : Packet) : Bool :=
  mget 0 (s.link l).lent (bufferOf p) + packetFlits p ≤ bufferFlits p.vc

/-- A link takes another packet from the routers: it is not draining, a new entry of a copper link has taken effect, its
transmitter runs and has room for the frame, and the peer has credits (R320, R344, R407, R453). -/
def linkTakes (s : State) (l : ModLink) (p : Packet) : Bool :=
  let x := s.link l
  !x.draining && linkAwake s l && x.queue.isEmpty && x.retry.length < retryFrames s l && linkCredit s l p

/-- The bytes of the packet flits of a frame: each header in a flit of its own, then its payload. -/
def frameBytes (cs : List Transit) : List (BitVec 8) :=
  cs.flatMap (fun c => (leBytes 64 (packetHeader c.pkt).toNat ++ c.pkt.payload.flatMap (fun x => leBytes 64 x.toNat)).map
    (BitVec.ofNat 8))

/-- Launch a frame: its trailer carries the sequence, unless it holds idle flits only, the acknowledgement of every frame
accepted, a drain mark or a replay request, and IV and tag of its launch instant (R343, R344, R407, R593). How credits
travel is not in the spec: the trailer carries them (DESIGN CHOICE, assumption log entry 156). -/
def launchFrame (s : State) (l : ModLink) (f : Option SentFrame) (replay : Bool) : State :=
  let x := s.link l
  let t := launchAt s l
  let key := sendKey s l
  let iv : BitVec 96 := BitVec.ofNat 96 ((key.toNat % 2 ^ 32) * 2 ^ 64 + t)
  let items := (f.map (·.items)).getD []
  let bytes := frameBytes items
  let out : Launched := {
    seq := f.map (·.seq), ack := x.expect, replay, drainMark := x.draining, credits := (f.map (·.credits)).getD [], iv,
    tag := Config.frameTag (BitVec.ofNat 256 (key.toNat / 2 ^ 32)) iv bytes, crc := Config.frameCrc bytes, packets := items }
  (s.setLink l { x with launched := some t, markAcked := x.markAcked || x.peerMark }).emit (.frame l out)

/-- How many of the packets at the front fit whole into flits of a frame. -/
def fitting : Nat → List Transit → Nat
  | _, [] => 0
  | room, c :: cs => if packetFlits c.pkt ≤ room then fitting (room - packetFlits c.pkt) cs + 1 else 0

/-- Launch the next frame with whole packets of the queue in its 31 flits, and the credits that the link owes (R343). -/
def launchNext (s : State) (l : ModLink) : State :=
  let x := s.link l
  let n := fitting 31 x.queue
  let f : SentFrame := { seq := x.next, credits := if x.draining then [] else x.owed, items := x.queue.take n }
  let s := s.setLink l { x with
    next := (x.next + 1) % 2 ^ 20, retry := x.retry ++ [f], queue := x.queue.drop n,
    owed := if x.draining then x.owed else [] }
  launchFrame s l (some f) false

/-- Launch what a link can: frames of its queue while its retry buffer has room, and with nothing to carry an idle frame,
which still acknowledges (R343, R344, R389). -/
def transmit (s : State) (l : ModLink) : State :=
  let x := s.link l
  let k := max x.queue.length (if x.owed.isEmpty || x.draining then 0 else 1)
  if !linkAwake s l then s
  else if k = 0 || retryFrames s l ≤ x.retry.length then launchFrame s l none false
  else
    (List.range k).foldl (fun s _ =>
      let x := s.link l
      if (!x.queue.isEmpty || (!x.owed.isEmpty && !x.draining)) && x.retry.length < retryFrames s l && linkAwake s l
      then launchNext s l else s) s

/-- Give a packet to a link: it takes the class of the link's direction on the footpath, and flits of the peer's buffer
are lent to it (R320, R322). -/
def giveLink (s : State) (l : ModLink) (dir : Option Nat) (c : Transit) : State :=
  let p := c.pkt
  let p := match dir with
    | some d => if p.vc = 4 then { p with fpc := linkClass s p d } else p
    | none => p
  let x := s.link l
  let buf := bufferOf p
  let x' : LinkState := { x with queue := x.queue ++ [{ c with pkt := p }],
                                 lent := mset 0 x.lent buf (mget 0 x.lent buf + packetFlits p) }
  transmit (s.setLink l x') l

/-- The transmitter sends the frames of its retry buffer again, in their order (R332, R344). -/
def replayFrames (s : State) (l : ModLink) : State :=
  (s.link l).retry.foldl (fun s f => if linkAwake s l then launchFrame s l (some f) false else s) s

/-! ### When the links of a direction change (R319, R331, R333) -/

/-- Where a copy bound for a direction goes now from tile `t`. -/
def rebound (s : State) (t : Nat) (p : Packet) (b : Branch) : Branch :=
  if 16 ≤ b.out then
    match linkFor s (b.out - 16) p with
    | some (_, entry) => { b with out := (meshToward t entry).getD b.out }
    | none => b
  else b

/-- Copies that wait at a tile for a link of a direction follow the direction's present links. -/
def reroute (s : State) : State :=
  let held := s.fabric.held.map (fun h => { h with branches := h.branches.map (rebound s h.tile h.pkt) })
  { s with fabric := { s.fabric with held := held } }

/-- Drop a copy that waits at a router, with NACK LINK, and count it (R319, R333). -/
def dropCopy (s : State) (c : Copy) : State :=
  dropPacket ((takeCopy s c).count32 (tilA c.held.tile 0x608C) 1) c.held.tile (c.held.vc0 % 4) c.held.pkt nackLink

/-- Copies that wait at routers and satisfy a test. -/
def copiesWhere (s : State) (f : Copy → Bool) : List Copy :=
  (s.fabric.held.flatMap (fun h => h.branches.map (fun b => ⟨h, b⟩))).filter f

/-- The copy as it stands once others of its packet may have gone. -/
def Copy.still (s : State) (c : Copy) : Copy :=
  match s.fabric.held.find? (fun h => h.pkt = c.held.pkt && h.tile = c.held.tile && h.port = c.held.port &&
      h.via = c.held.via && h.branches.contains c.branch) with
  | some h => ⟨h, c.branch⟩
  | none => c

/-- Drop every copy that satisfies a test. -/
def dropWhere (s : State) (f : Copy → Bool) : State :=
  (copiesWhere s f).foldl (fun s c => dropCopy s (c.still s)) s

/-- The phase that the module's lanterns are in. -/
def modulePhase (s : State) : Nat := (s.lantern 0).phase

/-- A direction that has lost its last link drops what needs it, and DIRECTION_LOST is posted (R319). -/
def checkDirection (s : State) (dir : Nat) : State :=
  if 1 < axisSize s (dir / 2) && (dirLinks s dir).isEmpty then
    let s := dropWhere s (fun c => branchDir s c.held.pkt c.branch = some dir)
    post s 0x41 (srcDevice 0) (dir + 2 ^ 8 * modulePhase s)
  else reroute s

/-- Directions that have links. -/
def liveDirs (s : State) : List Nat := (List.range 6).filter (fun d => !(dirLinks s d).isEmpty)

/-- After a change of the links' sets: what waits follows the present links, and directions that had links and have none
any more are lost (R319, R405). -/
def checkDirs (s : State) (before : List Nat) : State :=
  (before.filter (fun d => (dirLinks s d).isEmpty)).foldl checkDirection (reroute s)

/-- A link leaves its direction's set. -/
def removeLink (s : State) (l : ModLink) (x : LinkState) : State :=
  let before := liveDirs s
  checkDirs (s.setLink l x) before

/-- The buddy link is not ACTIVE: source windows that mirror to the buddy become INVALID (R564). -/
def buddyLost (s : State) : State :=
  s.each (List.range 256) (fun k s =>
    let t := k / 4
    let w := k % 4
    let st := (s.mirror k).state
    if (st = 1 || st = 2) && !mirReceive s t w && buddyEnabled s.itin.force &&
        mirPeer s t w = buddyModule s.itin.force then mirrorInvalid s t w 2
    else s)

/-- Copies of packets that came by a link and still stand in its input buffers: all but what has left them. -/
def cameBy (s : State) (l : ModLink) : List Held := s.fabric.held.filter (fun h => h.via = some l)

/-- A packet is dropped out of a buffer of a link that goes down (R333). -/
def dropTransit (entry : Nat) (s : State) (c : Transit) : State :=
  dropPacket (s.count32 (tilA entry 0x608C) 1) entry (c.vc0 % 4) c.pkt nackLink

/-- A link is declared down (R333, R345): it is counted, the packets of its transmitter and of its input buffers are
dropped with NACK LINK, and LINK_DOWN is posted. A copper link trains anew, with CAUSE 3 (R455). -/
def linkDown (s : State) (l : ModLink) : State :=
  let x := s.link l
  let inn := cameBy s l
  let gone := x.retry.flatMap (·.items) ++ x.queue ++ inn.map (fun h => ⟨h.pkt, h.vc0⟩)
  let place := linkPlace s l
  let dir := (place.bind (·.1)).getD 7
  let entry := (place.map (·.2)).getD 0
  let s := s.count32 (linkDowns l) 1
  let s := inn.foldl unhold s
  let s := removeLink s l { failed := true, launched := x.launched }
  let s := gone.foldl (dropTransit entry) s
  let s := match l with
    | .copper k =>
      let s := s.setCopper k.val { s.copperPort k.val with
        phase := .probe, attempt := 1, begun := s.now, cause := 3, peer := none, accepted := false, keying := {} }
      if k.val = 12 then buddyLost s else s
    | .bundle _ _ _ => s
  post s 0x40 (srcLink s l) (gone.length % 2 ^ 32 + 2 ^ 32 * dir)

end Sys2Proof.Machine
end

