-- ==== Sys2Proof/Machine/Fabric.lean ====
section
/-! DEFINITION. The packet fabric: routers, endpoints, sources, congestion control and frames between modules
(spec/08_packet_fabric.md R309 to R353, spec/16 R593, R594). -/

namespace Sys2Proof.Machine

open Sys2Proof

/-! ### Routers (R312, R320, R321, R328) -/

/-- A link can take a packet that waits for it at a router: once the links of its direction that change at a fence have
drained, and a new copper entry has taken effect (R331, R407, R453). -/
def directionFree (s : State) (dir : Nat) (l : ModLink) (p : Packet) : Bool :=
  linkTakes s l p && (isBuddyMirror s p || (!dirChanging s dir && (match l with
    | .copper k => (s.copperPort k.val).newEntry.isNone
    | .bundle _ _ _ => true)))

/-- A mirror packet to the buddy, or another packet, waits for the buddy link, which could take it (R563). -/
def buddyWaits (s : State) (mirror : Bool) : Bool :=
  s.fabric.held.any (fun h => isBuddyMirror s h.pkt = mirror && h.branches.any (fun b => 16 ≤ b.out &&
    (match linkFor s (b.out - 16) h.pkt with
    | some (l, _) => l = buddyLink && directionFree s (b.out - 16) l ((⟨h, b⟩ : Copy).pkt s)
    | none => false)))

/-- Packets of both kinds wait for the buddy link (R563). -/
def buddyShared (s : State) (l : ModLink) : Bool := l = buddyLink && buddyWaits s true && buddyWaits s false

/-- Of every 16 frames of the buddy link for which both kinds wait, mirror packets take MIRROR_SHARE (R563): the first
ones (DESIGN CHOICE, assumption log entry 172). -/
def mirrorTurn (s : State) : Bool := (s.link buddyLink).share < s.field (hbgA 0x10008) 0 5

/-- A link takes a packet that waits for it at a router, in its turn where two kinds share the link. -/
def directionTakes (s : State) (dir : Nat) (l : ModLink) (p : Packet) : Bool :=
  directionFree s dir l p && (!buddyShared s l || isBuddyMirror s p = mirrorTurn s)

/-- A frame for which both kinds waited goes out: the next of the 16 has its turn (R563). -/
def nextTurn (s : State) (l : ModLink) (shared : Bool) : State :=
  if shared then s.setLink l { s.link l with share := ((s.link l).share + 1) % 16 } else s

/-- The strand from a tile to the lantern or bridge of a link, with the direction toward that die. -/
def dieStrand (s : State) (t : Nat) : ModLink → Option Strand
  | .bundle n _ _ => lanternStrandOf s t n.val
  | .copper k => bridgeStrandOf s t (copperBridge s k.val)

/-- Nothing is on its way over the strand from a tile to the die of a link: a frame that failed goes first (R31). -/
def strandClear (s : State) (t : Nat) (l : ModLink) : Bool :=
  match dieStrand s t l with
  | some x => strandUp s x && (s.strand x).near.buffer.all (fun f => f.seq < (s.strand x).near.next)
  | none => false

/-- The credits that a guest declared for a channel, in flits (R50). It returns them as it receives (DESIGN CHOICE,
assumption log entry 157). -/
def guestCredits (s : State) (n : Nat) : Nat := bits ((s.guest n).answer.getD 1 0).toNat 16 16

/-- The guest at a tile. -/
def guestAt (s : State) (t : Nat) : Option Nat :=
  (attachments (siteOf s t)).findSome? (fun a => match a with
    | .guest n => some n
    | _ => none)

/-- The output that a copy waits for can take it: credits of the next router, room on its link, a guest's credits, or an
endpoint, which takes whatever reaches it (R320, R323, R344). -/
def outputRoom (s : State) (c : Copy) : Bool :=
  let t := c.held.tile
  let out := c.branch.out
  if out < 4 then
    match meshStrand t out with
    | some (l, _) => strandUp s l && bufferRoom s (neighbour t out) (oppositePort out) (c.pkt s)
    | none => false
  else if 16 ≤ out then
    match linkFor s (out - 16) c.held.pkt with
    | some (l, _) => directionTakes s (out - 16) l (c.pkt s)
    | none => false
  else if out = 8 && c.held.pkt.dstKind = 2 then
    match guestAt s t with
    | some n => (s.guest n).mainband && packetFlits c.held.pkt ≤ guestCredits s n
    | none => false
  else true

/-- The copy that a mesh output of a router sends next, if the receiving buffer has credits for it (R320, R329). -/
def nextMesh (s : State) (t port : Nat) : Option Copy :=
  let n := neighbour t port
  let out := oppositePort port
  choose s n out ((ready s n out).filter (outputRoom s))

/-- A copy goes to the router of tile `t` by its mesh port. -/
def crossMesh (s : State) (t port : Nat) (c : Copy) : State :=
  let (p, s) := leave s c
  arrive (served s c.held.tile c.branch.out p.vc) t port none none c.branch.goal ⟨p, c.held.vc0⟩

/-- A packet crosses from a neighbour's router into the one of tile `t` at a mesh port, unless frames are on their way
there that must come first. -/
def pullMesh (s : State) (t port : Nat) : State :=
  if !(flight s t port).isEmpty then s
  else
    match meshStrand t port with
    | none => s
    | some (l, _) =>
      if !strandUp s l then s
      else
        match nextMesh s t port with
        | none => s
        | some c => crossMesh s t port c

/-- The attachment takes a copy that waits for it at tile `t`: its links, or a guest. -/
def takesCopy (s : State) (t : Nat) (a : Attach) (c : Copy) : Bool :=
  if 16 ≤ c.branch.out then
    match linkFor s (c.branch.out - 16) c.held.pkt with
    | some (l, entry) =>
      entry = t && outputRoom s c && (match a, l with
        | .lantern n _, .bundle n' _ _ => n = n'.val
        | .bridge h' _, .copper k => copperBridge s k.val = h'
        | _, _ => false)
    | none => false
  else c.branch.out = 8 && c.held.pkt.dstKind = 2 && outputRoom s c && (match a with
    | .guest _ => true
    | _ => false)

/-- The copy that an attachment port of a router sends next (R320, R329). -/
def nextAttached (s : State) (t port : Nat) (a : Attach) : Option Copy :=
  choose s t port (((List.range 6).map (16 + ·) ++ [8]).flatMap (fun out => (ready s t out).filter (takesCopy s t a)))

/-- The direction that an output toward a link leaves in; a mirror packet to a buddy keeps its class. -/
def outDir (s : State) (c : Copy) : Option Nat :=
  if isBuddyMirror s c.held.pkt then none else some (c.branch.out - 16)

/-- A copy leaves tile `t` through an attachment. -/
def pushAttachment (s : State) (t port : Nat) (a : Attach) : State :=
  match nextAttached s t port a with
  | none => s
  | some c =>
    let link := (linkFor s (c.branch.out - 16) c.held.pkt).map (·.1)
    let (p, s') := leave s c
    let s' := served s' t port p.vc
    if 16 ≤ c.branch.out then
      match link with
      | some l => if strandClear s t l then giveLink (nextTurn s' l (buddyShared s l)) l (outDir s c) ⟨p, c.held.vc0⟩ else s
      | none => s'
    else
      match a with
      | .guest n => s'.emit (.guestPacket (Fin.ofNat 4 n) p)
      | _ => s'

/-- A guest's packet enters at its anchor: R312 first, then its party and epoch are overwritten (R53). -/
def guestArrives (s : State) (t port n : Nat) (p : Packet) : State :=
  if !(s.guest n).mainband then s
  else if malformed p then dropPacket (s.count32 (tilA t 0x6080) 1) t 0 p nackEncoding
  else
    let party := guestParty s n
    arrive s t port none none .fresh ⟨{ p with party, epoch := epochOf s party }, p.vc⟩

/-- An endpoint's packets that wait for tokens, and those that wait for credits where the endpoint joins the mesh, go on:
the first of the former once its bucket holds its bytes (R320, R338). -/
def sendWaiting (s : State) (mine : Endpoint → Bool) : State :=
  let s := match s.fabric.unsent.find? (fun u => mine u.src && u.since.isNone) with
    | some u =>
      match conn? s u.src (connKey u.pkt) with
      | some c => s.passTo (tokensAt s c u.pkt)
      | none => s
    | none => s
  flushOutbox (flushUnsent s)

/-- The endpoint that joins the mesh at a port. -/
def joinsAt (s : State) (t port : Nat) (ep : Endpoint) : Bool := joins s ep = some (t, port)

/-- ROUTER_PACKET_RECEIVE (R312, R314, R320, R330): a mesh port takes the next packet of the neighbour, an attachment
port passes one on to its attachment, or takes a guest's packet, and the port of the tile itself takes what its endpoint
still has to send. A packet crosses its strand here in a frame that is received good; STRAND_FRAME_RECEIVE shows frames
one by one (DESIGN CHOICE, assumption log entry 158). -/
def execRouterPacketReceive (t : Fin 64) (port : Fin 8) (arriving : Option Packet) (s : State) :
    Host.Outcome State Fault Refusal :=
  if !linksAlive s then .next s
  else if port.val < 4 then .next (flushOutbox (pullMesh s t.val port.val))
  else
    match (attachments (siteOf s t.val))[port.val - 4]? with
    | none => .next (sendWaiting s (joinsAt s t.val port.val))
    | some a =>
      match arriving, a with
      | some p, .guest n => .next (guestArrives s t.val port.val n p)
      | none, _ => .next (sendWaiting (pushAttachment s t.val port.val a) (joinsAt s t.val port.val))
      | some _, _ => .next s

/-- ESCAPE of a router in nanoseconds, and its LIFETIME (R347). -/
def escapeNs (s : State) (t : Nat) : Nat := 1000 * s.field (tilA t 0x6000) 0 12 / coreMHz s
def lifetime (s : State) (t : Nat) : Nat := s.field (tilA t 0x6000) 12 14

/-- The packet at the head of a VC buffer. -/
def headOf (s : State) (t port vc : Nat) : Option Held :=
  s.fabric.held.find? (fun h => h.tile = t && h.port = port && h.buf = vc)

/-- PACKET_ESCAPE (R321, R322): the packet at the head of a buffer moves to the footpath at the outputs without credits;
each branch escapes by itself (R339), and goes on as soon as the next buffer of its class has credits. -/
def execPacketEscape (t : Fin 64) (port : Fin 8) (vc : Fin 4) (s : State) : Host.Outcome State Fault Refusal :=
  match headOf s t.val port.val vc.val with
  | none => .next s
  | some h =>
    let stuck := h.branches.filter (fun b => !b.esc && !outputRoom s ⟨h, b⟩)
    if stuck.isEmpty || !linksAlive s then .next s
    else
      let s := s.passTo (h.since + escapeNs s t.val)
      let h' := { h with branches := h.branches.map (fun b => if stuck.contains b then { b with esc := true } else b) }
      let held := s.fabric.held.map (fun x => if x = h then h' else x)
      .next ({ s with fabric := { s.fabric with held := held } }.count64 (tilA t.val 0x6050) 1)

/-- PACKET_AGE_CHECK (R328): ACKs and NACKs go without a NACK. -/
def execPacketAgeCheck (t : Fin 64) (s : State) : Host.Outcome State Fault Refusal :=
  if !linksAlive s then .next s
  else
    let old := s.fabric.held.filter (fun h => h.tile = t.val && lifetime s t.val < packetAge s h.pkt)
    let s := old.foldl unhold s
    .next (flushOutbox (old.foldl (fun s h =>
      let s := s.count32 (tilA t.val 0x607C) 1
      if h.pkt.ty = tyAck || h.pkt.ty = tyNack then s else dropPacket s t.val (h.vc0 % 4) h.pkt nackAged) s))

/-! ### Destinations (R324, R326, R334) -/

/-- The routers and outputs at which an endpoint takes packets: its own, and for a bridge every tile whose strand to it
is in service (R314, R315). -/
def takesAt (s : State) : Endpoint → List (Nat × Nat)
  | .tile t => [(t.val, 7)]
  | .bridge h => (List.range 3).filterMap (fun i =>
      if strandUp s (mkBridgeStrand h.val i) then (strandTile s (mkBridgeStrand h.val i)).map (fun t => (t, 8)) else none)
  | .guest n => ((anchorTile s n.val).map (fun t => (t, 8))).toList

/-- The packet is for the endpoint. -/
def isFor (ep : Endpoint) (p : Packet) : Bool := match ep with
  | .tile _ => true
  | .bridge h => p.dstKind = 1 && p.dstTile % 2 = h.val
  | .guest _ => p.dstKind = 2

/-- The copy that an endpoint takes next at one of its places, in the order of R320. -/
def nextFor (s : State) (ep : Endpoint) (place : Nat × Nat) : Option Copy :=
  choose s place.1 place.2 ((ready s place.1 place.2).filter (fun c => isFor ep c.held.pkt))

/-- The packet of a type that an endpoint takes next. -/
def takeNext (s : State) (ep : Endpoint) (ty : Nat) : Option Copy :=
  ((takesAt s ep).filterMap (nextFor s ep)).find? (fun c => c.held.pkt.ty = ty)

/-- The packet that a copy becomes at its endpoint, with the VC that it was sent on, which its answers take, and the
state once it has left the router's buffer. -/
def takeIn (s : State) (c : Copy) : Packet × State :=
  let (p, s) := leave s c
  ({ p with vc := c.held.vc0 % 4 }, flushOutbox (served s c.held.tile c.branch.out (c.pkt s).vc))

/-- An endpoint takes its next packet of a type and acts on it; a guest receives it. -/
def endpointStep (s : State) (ep : Endpoint) (ty : Nat) (act : State → Packet → State) : State :=
  if !linksAlive s then s
  else
    match takeNext s ep ty with
    | none => s
    | some c =>
      match ep with
      | .guest n => (leave s c).2.emit (.guestPacket n (leave s c).1)
      | _ =>
        let (p, s) := takeIn s c
        act s p

/-- A count of a tile's own packets (R351); a bridge has no such register. -/
def countAt (s : State) (ep : Endpoint) (off : Nat) (wide : Bool) : State := match ep with
  | .tile t => if wide then s.count64 (tilA t.val off) 1 else s.count32 (tilA t.val off) 1
  | _ => s

/-- A destination rejects a packet: NACK and REJECTION (R326). -/
def rejectPacket (s : State) (ep : Endpoint) (p : Packet) (reason : Nat) : State :=
  let party := match ep with
    | .tile t => tileParty s t.val
    | _ => p.party
  let s := sendAnswer (countAt s ep 0x6070 false) ep (answerTo s ep p.vc p tyNack (nackAux p reason))
  post s 0x43 (srcTile (countTile s ep) 8) (rejection p reason) party

/-- What a destination finds in a packet. -/
inductive Verdict where
  | accept | stale | guest (n : Nat) | reject (reason : Nat)
deriving DecidableEq, Repr

/-- Offsets of the lines that a request touches. -/
def packetLines (p : Packet) : List Nat :=
  (List.range (if p.ty = tyReadReq then p.aux % 128 else p.payload.length)).map (fun i => p.addr % 2 ^ 34 + 64 * i)

/-- The address field of the type is a tile-local address, whose bits [39:34] name the tile: a SIGNAL's names a tally and
an ACK's and NACK's is 0 (R310, R311; DEDUCED, assumption log entry 27). -/
def hasAddress (ty : Nat) : Bool := ty ≠ tySignal && ty ≠ tyAck && ty ≠ tyNack

/-- The type may be multicast (R342). -/
def mayMulticast (ty : Nat) : Bool := ty = tyWrite || ty = tyWriteAcc || ty = tySignal

/-- ENCODING conditions of R326 at an endpoint. A READ_REQ that asks for no lines or more than 64 is one of them
(DESIGN CHOICE, assumption log entry 38). -/
def badEncoding (ep : Endpoint) (p : Packet) : Bool :=
  (match ep with
    | .tile t => p.mcast = 0 && hasAddress p.ty && p.addr / 2 ^ 34 ≠ t.val
    | _ => false) ||
  (p.mcast ≠ 0 && !mayMulticast p.ty) || (p.ty = tyReadReq && (p.aux % 128 = 0 || 64 < p.aux % 128))

/-- The guest whose window holds every line of a request to its anchor tile (R52). -/
def guestWindow? (s : State) (t : Nat) (p : Packet) : Option Nat :=
  (List.range 4).find? (fun n =>
    anchorTile s n = some t && (s.guest n).status = .inService &&
    (packetLines p).all (fun o => 0x200000000 ≤ o && o < 0x200000000 + 65536 * (s.guest n).window))

/-- A line may take a packet's access: an accumulate-on-write only in the hamper (R178, R201). -/
def packetFits (s : State) (t : Nat) (p : Packet) (off : Nat) : Bool :=
  if p.ty = tyWriteAcc then inHamper off else mapped s t off

/-- The checks of R326 at a tile, in their order; what the memory finds comes with the access itself. -/
def tileVerdict (s : State) (t : Fin 64) (p : Packet) : Verdict :=
  if badEncoding (.tile t) p then .reject nackEncoding
  else if !partyExists s p.party || tileParty s t.val ≠ p.party then .reject nackIsolation
  else if p.epoch ≠ epochOf s p.party then .stale
  else if p.ty = tySignal then .accept
  else
    match guestWindow? s t.val p with
    | some n => .guest n
    | none =>
      if (packetLines p).all (packetFits s t.val p) then .accept else .reject nackAddress

/-- The checks at a host bridge, which performs writes and reads of its staging range only (R448, R542). -/
def bridgeVerdict (s : State) (h : Fin 2) (p : Packet) : Verdict :=
  if badEncoding (.bridge h) p then .reject nackEncoding
  else if !partyExists s p.party then .reject nackIsolation
  else if p.epoch ≠ epochOf s p.party then .stale
  else if (p.ty = tyWrite || p.ty = tyReadReq) && (packetLines p).all (fun o => o < 0x4000000) then .accept
  else .reject nackAddress

/-- READ_RESPs of a READ_REQ, up to four lines each; the first carries the echo (R324, R326, R337). A tile returns them
in REMOTE slots of its gate (R250, R256). -/
def sendResponses (s : State) (ep : Endpoint) (p : Packet) (ls : List (Option Line)) : State :=
  let s := match ep with
    | .tile t => s.count64 (tilA t.val 0x4050) ls.length
    | _ => s
  let back := ((p.payload.headD 0).toNat) % 2 ^ 40
  (List.range ((ls.length + 3) / 4)).foldl (fun s i =>
    let part := (ls.drop (4 * i)).take 4
    let r := answerTo s ep p.vc p tyReadResp (if part.all (·.isSome) then 0 else 1)
    let payload := part.map (fun l => l.getD 0)
    sendAnswer s ep { r with addr := back + 256 * i, payload, flits := payload.length, ece := i = 0 && p.ce }) s

/-- The accepted packet is performed at a tile, and answered; its ACK waits for the mirror copies of its lines
(R324, R341, R562). A block of a direct collective goes to the collective engine too (R358). An accumulate-on-write
that the memory refuses in a line is rejected with MEMORY; its other lines are accumulated (R203, R217, R326). -/
def performAtTile (s : State) (t : Fin 64) (p : Packet) : State :=
  let offs := packetLines p
  let ack := answerTo s (.tile t) p.vc p tyAck (ackAux p)
  let taken := p.ty ≠ tyWriteAcc || offs.all (lineGood s t.val)
  let who : MirrorOwner := if taken then .reply ack else .nobody
  let s := s.count64 (tilA t.val 0x6048) 1
  let acked := fun (s : State) => if mirrorPending s who then s else sendAnswer s (.tile t) ack
  if p.ty = tyWrite then
    let s := s.count64 (tilA t.val 0x4050) p.flits
    collArrived (acked (writeLines s t.val (carriedWrites s t.val p (offs.zip p.payload)) who)) t.val p (offs.zip p.payload)
  else if p.ty = tyWriteAcc then
    let s := s.count64 (tilA t.val 0x4050) p.flits
    let s := (accLines s t.val p.accKf16 (offs.zip p.payload) who).2
    if taken then collArrived (acked s) t.val p (offs.zip p.payload) else rejectPacket s (.tile t) p nackMemory
  else if p.ty = tySignal then
    let k := 2048 * t.val + p.addr % 2048
    sendAnswer (s.setTally k (s.tally k + p.aux)) (.tile t) ack
  else
    let (ls, s) := readLines s t.val offs (Hint.ofCode p.hint)
    sendResponses s (.tile t) p ls

/-- Two packets for a tile keep their order: they are of one stream (R329), or touch a common line (R198). -/
def keepsOrder (a b : Packet) : Bool :=
  (a.srcModule = b.srcModule && a.srcTile = b.srcTile && a.srcKind = b.srcKind && a.mcast = b.mcast && a.vc = b.vc) ||
  (a.ty ≠ tySignal && b.ty ≠ tySignal && (packetLines a).any (fun o => (packetLines b).contains o))

/-- The packet stalls at its tile: its lines wait for the zeroing front or for an earlier request (R198, R212), or an
earlier packet that it must not pass stalls. -/
def packetStalls (s : State) (t : Nat) (before : List (Nat × Packet)) (p : Packet) : Bool :=
  before.any (fun x => x.1 = t && keepsOrder x.2 p) || (p.ty ≠ tySignal && !linesReady s t (packetLines p))

/-- A request at a tile: checked, then performed or stalled (R212, R326, R329). -/
def tileRequest (t : Fin 64) (s : State) (p : Packet) : State :=
  match tileVerdict s t p with
  | .reject r => rejectPacket s (.tile t) p r
  | .stale => s.count32 (tilA t.val 0x6078) 1
  | .guest n => s.emit (.guestPacket (Fin.ofNat 4 n) p)
  | .accept =>
    if packetStalls s t.val s.fabric.stalled p then
      { s with fabric := { s.fabric with stalled := s.fabric.stalled ++ [(t.val, p)] } }
    else performAtTile s t p

/-- A request at a host bridge. -/
def bridgeRequest (h : Fin 2) (s : State) (p : Packet) : State :=
  match bridgeVerdict s h p with
  | .reject r => rejectPacket s (.bridge h) p r
  | .stale => s.count32 (tilA (countTile s (.bridge h)) 0x6078) 1
  | .guest _ => s
  | .accept =>
    let key := fun (o : Nat) => 2 ^ 26 * h.val + o
    if p.ty = tyWrite then
      let m := ((packetLines p).zip p.payload).foldl (fun m x => writeNat m 64 (key x.1) x.2.toNat) s.staging
      sendAnswer { s with staging := m } (.bridge h) (answerTo s (.bridge h) p.vc p tyAck (ackAux p))
    else
      sendResponses s (.bridge h) p
        ((packetLines p).map (fun o => some (BitVec.ofNat 512 (readNat s.staging 64 (key o)))))

/-- A request reaches its endpoint. -/
def requestStep (s : State) (ep : Endpoint) (ty : Nat) : State :=
  endpointStep s ep ty (fun s p =>
    match ep with
    | .tile t => tileRequest t s p
    | .bridge h => bridgeRequest h s p
    | .guest _ => s)

/-- WRITE_PACKET (R324, R326). -/
def execWritePacket (ep : Endpoint) (s : State) : Host.Outcome State Fault Refusal :=
  .next (requestStep s ep tyWrite)

/-- WRITE_ACC_PACKET (R201, R324, R326). -/
def execWriteAccPacket (ep : Endpoint) (s : State) : Host.Outcome State Fault Refusal :=
  .next (requestStep s ep tyWriteAcc)

/-- READ_REQ (R324, R326). -/
def execReadReq (ep : Endpoint) (s : State) : Host.Outcome State Fault Refusal :=
  .next (requestStep s ep tyReadReq)

/-- SIGNAL (R270, R324). -/
def execSignal (ep : Endpoint) (s : State) : Host.Outcome State Fault Refusal :=
  .next (requestStep s ep tySignal)

/-- A stalled packet proceeds; an offset that has left the map meanwhile is its address error (R189). -/
def resumePacket (s : State) (t : Fin 64) (p : Packet) : State :=
  if p.ty = tySignal || (packetLines p).all (packetFits s t.val p) then performAtTile s t p
  else rejectPacket s (.tile t) p nackAddress

/-- The stalled packets of a tile proceed in their order, each as soon as nothing stalls it. -/
def performStalled (t : Fin 64) : List (Nat × Packet) → State → State
  | [], s => s
  | x :: xs, s =>
    if x.1 ≠ t.val || packetStalls s t.val (s.fabric.stalled.takeWhile (· ≠ x)) x.2 then performStalled t xs s
    else
      performStalled t xs
        (resumePacket { s with fabric := { s.fabric with stalled := s.fabric.stalled.erase x } } t x.2)

/-- ZEROING_FRONT_PASS (R212): accesses that stalled at lines the front has now passed proceed. -/
def execZeroingFrontPass (t : Fin 64) (s : State) : Host.Outcome State Fault Refusal :=
  if !linksAlive s then .next s else .next (performStalled t s.fabric.stalled s)

/-! ### Sources (R325 to R327, R335 to R338) -/

/-- The panel's rate control fields at an endpoint (R349); a bridge takes those of the tile at which it joins the
mesh (DESIGN CHOICE, assumption log entry 40). -/
def ccField (s : State) (ep : Endpoint) (lo n : Nat) : Nat := s.field (tilA (countTile s ep) 0x6008) lo n

/-- An acknowledgement with ECE lowers the rate of its connection (R338). -/
def echoed (s : State) (src : Endpoint) (key : Nat) : State :=
  let s := countAt s src 0x6060 true
  match conn? s src key with
  | none => s
  | some c =>
    let due := match c.lastDec with
      | some t => t + 1000 * ccField s src 20 4 ≤ s.now
      | none => true
    let c' : Conn :=
      if ccField s src 30 1 = 1 && due then
        { c with rate := max (ccField s src 24 6) (c.rate - c.rate / 2 ^ (ccField s src 6 2 + 1)),
                 lastDec := some s.now, lastEce := s.now }
      else { c with lastEce := s.now }
    let conns := s.fabric.conns.map (fun x => if x = c then c' else x)
    { s with fabric := { s.fabric with conns := conns } }

/-- An answer names an unanswered packet: an ACK by its tag and 16 bits of its sequence together, a NACK by its tag and
8 bits, a READ_RESP by its tag (R310). -/
def answers (p : Packet) (o : Outstanding) : Bool :=
  o.tag = p.tag &&
  (if p.ty = tyAck then o.seq % 65536 = p.aux && o.pkt.ty ≠ tyReadReq
   else if p.ty = tyNack then o.seq % 256 = p.aux / 256 % 256
   else o.pkt.ty = tyReadReq)

/-- The unanswered packet of a source that an answer names. -/
def sentBy? (s : State) (src : Endpoint) (p : Packet) : Option Outstanding :=
  s.fabric.sent.find? (fun o => o.src = src && answers p o)

/-- What is left of an unanswered packet after part of its answer; whether none is. -/
def settle (s : State) (o : Outstanding) (n : Nat) : Bool × State :=
  if o.remain ≤ n then (true, flushUnsent { s with fabric := { s.fabric with sent := s.fabric.sent.erase o } })
  else
    let sent := s.fabric.sent.map (fun x => if x = o then { o with remain := o.remain - n } else x)
    (false, { s with fabric := { s.fabric with sent := sent } })

/-- The answer's epoch is the current one of the source's own party (R334). -/
def currentAnswer (s : State) (ep : Endpoint) (p : Packet) : Bool :=
  match ep with
  | .tile t => p.epoch = epochOf s (tileParty s t.val)
  | _ => p.epoch = epochOf s p.party

/-- A packet of a mirror copy has been answered: the ACK that waited for it goes out (R562). -/
def mirrorAnswered (s : State) (t : Nat) (owner : MirrorOwner) : State :=
  match owner with
  | .reply ack => if mirrorPending s owner then s else sendAnswer s (.tile (Fin.ofNat 64 t)) ack
  | _ => s

/-- A packet is completely acknowledged. -/
def acknowledged (s : State) (o : Outstanding) : State :=
  match o.purpose with
  | .mirror t _ _ owner => mirrorAnswered s t owner
  | .hostWrite f n => hostLineDone s f n
  | _ => s

/-- The error that a NACK raises in its command: the side of a move that sent the packet names its descriptor
(R281, R326). -/
def nackError (s : State) (g : Nat) (idx : Word) (read : Bool) (err : Err) : CmdError :=
  let t := g / 256
  match (List.range 4).findSome? (fun m => (s.mover (4 * t + m)).bind (fun j =>
      if j.queue = g && j.idx = idx then some j else none)) with
  | some j =>
    if read then descFault (descOf (mvSrcSlot j.line) j.src) 0 err
    else descFault (descOf (mvDstSlot j.line) j.dst) 1 err
  | none => { err }

/-- The task error of a NACK reason (R326). -/
def reasonError (reason : Nat) : Err :=
  if reason = nackMemory then .memory
  else if reason = nackLink || reason = nackAged then .link
  else .remote

/-- A packet has been rejected or lost (R326, R327); `reason` is 0xFF for a timeout. -/
def rejected (s : State) (o : Outstanding) (reason : Nat) : State :=
  match o.purpose with
  | .command g idx =>
    let err := if reason = 0xFF then .link else reasonError reason
    if (inflight? (s.queue g) idx).isSome then
      abortCommand s g idx (nackError s g idx (o.pkt.ty = tyReadReq) err)
    else deliverLines s g idx 0 [] true
  | .restore g idx =>
    if (inflight? (s.queue g) idx).isSome then
      abortCommand s g idx { err := if reason = 0xFF then .link else reasonError reason }
    else s
  | .signal g tally mod inc =>
    let t := g / 256
    post s 0x42 (srcTile t 0) (tally % 2 ^ 17 + 2 ^ 17 * (mod % 2 ^ 14) + 2 ^ 31 * (inc % 2 ^ 16)
      + 2 ^ 47 * (reason % 256)) (tileParty s t)
  | .mirror t w _ owner => mirrorAnswered (mirrorInvalid s t w 1) t owner
  | .hostWrite f n => hostLineDone s f n
  | .hostRead f id => hostReadFailed s f id reason
  | .other => s

/-- The lines of a READ_RESP arrive (R325, R326). -/
def responseLines (s : State) (ep : Endpoint) (o : Outstanding) (p : Packet) : State :=
  let poison := p.aux % 2 = 1
  let s := match ep with
    | .tile t => s.count64 (tilA t.val 0x4040) p.flits
    | _ => s
  match o.purpose with
  | .command g idx => deliverLines s g idx (p.addr % 2 ^ 34 / 64) p.payload poison
  | .hostRead f id => hostReadLines s f id (p.addr % 2 ^ 34 / 64) p.payload poison
  | _ => s

/-- An answer of a type reaches its source, counted, and a NACK as one too (R351): a badly encoded one is rejected (R326),
one of another epoch is stale (R334), one without a packet is discarded. -/
def answerStep (s : State) (ep : Endpoint) (ty : Nat) (act : State → Outstanding → Packet → State) : State :=
  endpointStep s ep ty (fun s p =>
    let s := countAt s ep 0x6048 true
    let s := if ty = tyNack then countAt s ep 0x6074 false else s
    if badEncoding ep p then rejectPacket s ep p nackEncoding
    else if !currentAnswer s ep p then s.count32 (tilA (countTile s ep) 0x6078) 1
    else
      match sentBy? s ep p with
      | none => s
      | some o => act (if p.ece then echoed s ep o.conn else s) o p)

/-- READ_RESP (R325, R326): the lines reach the requester, which aborts on POISON. -/
def execReadResp (ep : Endpoint) (s : State) : Host.Outcome State Fault Refusal :=
  .next (answerStep s ep tyReadResp (fun s o p => responseLines (settle s o p.flits).2 ep o p))

/-- ACK (R310, R325, R336): it names its packet by tag and sequence together. -/
def execAck (ep : Endpoint) (s : State) : Host.Outcome State Fault Refusal :=
  .next (answerStep s ep tyAck (fun s o p =>
    let (all, s) := settle s o 1
    let s := match o.purpose with
      | .command g idx => collAcked s g idx
      | _ => s
    if all then acknowledged s o else s))

/-- NACK (R326). -/
def execNack (ep : Endpoint) (s : State) : Host.Outcome State Fault Refusal :=
  .next (answerStep s ep tyNack (fun s o p =>
    rejected (settle s o o.remain).2 o (p.aux % 256)))

/-- ACK_TIMEOUT (R327): the oldest unanswered packet of a source is lost once ACK_MS have passed. -/
def execAckTimeout (ep : Endpoint) (s : State) : Host.Outcome State Fault Refusal :=
  match s.fabric.sent.find? (fun o => o.src = ep) with
  | none => .next s
  | some o =>
    if !active s then .next s
    else
      let t := countTile s ep
      let s := s.passTo (o.sent + 1000000 * s.field (tilA t 0x6004) 0 10)
      let s := s.count32 (tilA t 0x6084) 1
      let (_, s) := settle s o o.remain
      .next (rejected s o 0xFF)

/-- CC_RATE_INCREASE (R338): INC_US have passed with no ECE for the connection. -/
def execCcRateIncrease (ep : Endpoint) (key : Nat) (s : State) : Host.Outcome State Fault Refusal :=
  match conn? s ep key with
  | none => .next s
  | some c =>
    if ccField s ep 30 1 = 0 then .next s
    else
      let s := s.passTo (c.lastEce + 1000 * ccField s ep 14 6)
      let c' : Conn := { c with rate := min 256 (c.rate + ccField s ep 8 6), lastEce := s.now }
      let conns := s.fabric.conns.map (fun x => if x = c then c' else x)
      .next { s with fabric := { s.fabric with conns := conns } }

/-- The fold of a tile's fabric registers (R350). With CC_EN 0 the rates of its connections stand at 256, and so do those
of a bridge that takes its fields (R338). -/
def foldFab (s : State) (t : Nat) : State :=
  let s := ((s.foldReg (tilA t 0x6000)).foldReg (tilA t 0x6004)).foldReg (tilA t 0x6008)
  if s.field (tilA t 0x6008) 30 1 = 1 then s
  else
    let conns := s.fabric.conns.map (fun c => if countTile s c.src = t then { c with rate := 256 } else c)
    { s with fabric := { s.fabric with conns := conns } }

/-- FAB_FOLD (R350). -/
def execFabFold (p : Path) (t : Fin 64) (s : State) : Host.Outcome State Fault Refusal :=
  .next (ownerWrite s p (tilA t.val 0x600C) 1 (fun s => foldFab s t.val))

/-! ### Frames between modules (R343 to R346, R594) -/

/-- A receiver refuses a frame: it asks for a replay, once for each failed try of a frame; the eighth failed replay takes
the link down (R344, R345). Frames after the one it waits for are discarded, and so is one that it has accepted. -/
def refuseFrame (s : State) (l : ModLink) (seq : Nat) : State :=
  let x := s.link l
  if x.fails ≠ 0 && seq ≠ x.expect then s
  else if 8 ≤ x.fails then linkDown s l
  else launchFrame ((s.setLink l { x with fails := x.fails + 1 }).count32 (linkReplays l) 1) l none true

/-- Frames of a retry buffer that an acknowledgement leaves: those from the sequence that it expects on. -/
def afterAck (x : LinkState) (ack : Nat) : List SentFrame :=
  if x.retry.any (fun f => f.seq = ack) then x.retry.dropWhile (fun f => f.seq ≠ ack)
  else if ack = x.next then []
  else x.retry

/-- The flits that a peer still has of those lent to its buffers, after it returns credits (R320). -/
def afterCredits (lent : SMap Nat) (credits : List (Nat × Nat)) : SMap Nat :=
  credits.foldl (fun m c => mset 0 m c.1 (mget 0 m c.1 - c.2)) lent

/-- The trailer of an accepted frame takes effect: its acknowledgement, credits, drain mark and replay request. -/
def takeTrailer (s : State) (l : ModLink) (f : Frame) : State :=
  let x := s.link l
  let s := setStamp (s.setLink l { x with retry := afterAck x f.ack, lent := afterCredits x.lent f.credits,
                                          peerMark := x.peerMark || f.drainMark }) l f.stamp
  if f.replay then replayFrames s l else s

/-- The packets of an accepted frame enter the mesh at the link's entry tile (R314). -/
def framePackets (s : State) (l : ModLink) (f : Frame) : State :=
  match linkPlace s l with
  | none => s
  | some (dir, t) =>
    f.packets.foldl (fun s c => arrive s t (linkPort s t l) (dir.map (fun d => d ^^^ 1)) (some l) .fresh c) s

/-- A frame in order is accepted, and so is an idle frame; the link answers with its own next frame, which acknowledges
it. -/
def acceptFrame (s : State) (l : ModLink) (f : Frame) : State :=
  let s := takeTrailer s l f
  let s := if f.idle then s
    else
      let x := s.link l
      framePackets (s.setLink l { x with expect := (x.expect + 1) % 2 ^ 20, fails := 0 }) l f
  transmit s l

/-- The frame has been accepted before: its sequence lies in the half of the range behind the one expected. -/
def seenFrame (s : State) (l : ModLink) (seq : Nat) : Bool :=
  let d := ((s.link l).expect + 2 ^ 20 - seq % 2 ^ 20) % 2 ^ 20
  0 < d && d ≤ 2 ^ 19

/-- The tag verifies and the stamp exceeds the last one accepted under the key (R594). -/
def frameGenuine (s : State) (l : ModLink) (f : Frame) : Bool :=
  f.tagOk && (match lastStamp s l with
    | some t => decide (t < f.stamp)
    | none => true)

/-- LINK_FRAME_RECEIVE (R344, R409, R594): light that a bundle does not stand on carries nothing to it. -/
def execLinkFrameReceive (l : ModLink) (f : Frame) (s : State) : Host.Outcome State Fault Refusal :=
  let x := s.link l
  if !linksAlive s || !x.up || !inSlot s l then .next s
  else
    let s := (s.count64 (linkCe l) f.corrected).count32 (linkUe l) f.uncorrectable
    if !f.crcOk then .next (refuseFrame s l f.seq)
    else if !frameGenuine s l f then .next (refuseFrame (s.count64 (secA 0x18) 1) l f.seq)
    else if f.idle || f.seq = x.expect then .next (acceptFrame s l f)
    else if seenFrame s l f.seq then .next s
    else .next (refuseFrame s l f.seq)

/-- INTER_MODULE_LINK_DOWN (R345, R409): in the link's own slots, the receiver lost signal or lock for 1 ms, or the
partner stopped acknowledging for 1 ms. -/
def execInterModuleLinkDown (l : ModLink) (s : State) : Host.Outcome State Fault Refusal :=
  if linksAlive s && (s.link l).up && inSlot s l then .next (linkDown s l) else .next s

end Sys2Proof.Machine
end

