-- ==== Sys2Proof/Machine/Bursts.lean ====
section
/-! DEFINITION. Hamper channels: requests, the choice of the next burst, its transfer and its data
(spec/05_tile_memory.md R191, R192, R195 to R198, R214 to R217). -/

namespace Sys2Proof.Machine

open Sys2Proof

/-! ### Requests (R192, R195) -/

/-- Class of a request (R195): a collective's packet takes class 0 whatever it does; every other write class 2. -/
def reqClass (r : HamperReq) : Nat :=
  match r.source, r.kind with
  | .packet true, _ => 0
  | _, .write _ => 2
  | _, .accumulate _ _ => 2
  | .unit, .read _ => 0
  | .collective, .read _ => 0
  | _, .read _ => 1

/-- Lines of a request's first burst: at most 32 granules, within one 4 KiB block (R192). -/
def burstLines (r : HamperReq) : Nat := min r.lines ((4096 - r.offset % 4096) / 64)

/-- The first `n` lines of a request, and the lines after them. -/
def kindFront (n : Nat) : ReqKind → ReqKind
  | .read h => .read h
  | .write d => .write (d.take n)
  | .accumulate k d => .accumulate k (d.take n)
def kindRest (n : Nat) : ReqKind → ReqKind
  | .read h => .read h
  | .write d => .write (d.drop n)
  | .accumulate k d => .accumulate k (d.drop n)

/-- The bursts of a request, one for every 4 KiB block it touches (R191, R192): at most `n` of them. -/
def reqBursts : Nat → HamperReq → List HamperReq
  | 0, _ => []
  | n + 1, r =>
    let k := burstLines r
    if k = 0 then []
    else
      { r with lines := k, kind := kindFront k r.kind } ::
        reqBursts n { r with offset := r.offset + 64 * k, lines := r.lines - k, kind := kindRest k r.kind }

/-- A request reaches the channels of its blocks. -/
def arriveReq (t : Nat) (s : State) (r : HamperReq) : State :=
  ((reqBursts (r.lines / 64 + 2) r).filter (fun b => inHamper b.offset)).foldl (fun s b =>
    let k := 32 * t + channelOf b.offset
    s.setChannel k { s.channel k with waiting := (s.channel k).waiting ++ [b] }) s

/-! ### The next burst (R196 to R198) -/

/-- Two requests touch a common line. -/
def reqOverlap (a b : HamperReq) : Bool :=
  a.offset < b.offset + 64 * b.lines && b.offset < a.offset + 64 * a.lines

/-- Requests that R198 lets go now: none earlier touches a line of theirs. -/
def reqFree : List HamperReq → List HamperReq → List HamperReq
  | _, [] => []
  | before, r :: rs =>
    if before.any (reqOverlap r) then reqFree (before ++ [r]) rs else r :: reqFree (before ++ [r]) rs

/-- The request that must go before `r` can: itself, or the first of the earlier ones that it waits for (R198). -/
def reqRoot (waiting : List HamperReq) : Nat → HamperReq → HamperReq
  | 0, r => r
  | n + 1, r =>
    match (waiting.takeWhile (· ≠ r)).find? (reqOverlap r) with
    | some b => reqRoot waiting n b
    | none => r

/-- A class 0 request waits. -/
def zeroWaits (c : Channel) : Bool := c.waiting.any (fun r => reqClass r = 0)

/-- The request that the next burst serves (R196, R197): an aged one goes first, but only one while a class 0 request
waits; then class 0, an earlier request to a line of it before it. -/
def nextRequest (c : Channel) : Option HamperReq :=
  let free := reqFree [] c.waiting
  let ofClass := fun (k : Nat) (r : HamperReq) => decide (reqClass r = k)
  let aged := if zeroWaits c && c.agedServed then none else free.find? (·.aged)
  let zero := (free.find? (ofClass 0)).or
    ((c.waiting.find? (ofClass 0)).map (reqRoot c.waiting c.waiting.length))
  ((aged.or zero).or (free.find? (ofClass 1))).or (free.find? (ofClass 2))

/-! ### Bursts (R192, R214 to R217) -/

/-- The offsets of a run of lines. -/
def runOffsets (off n : Nat) : List Nat := (List.range n).map (fun i => off + 64 * i)

/-- Who writes for a request. -/
def reqWriter (r : HamperReq) : MirrorOwner :=
  match r.owner with
  | some (g, idx) => .command g idx
  | none => .nobody

/-- Perform a burst's data; the result is whether every line gave or took its data. -/
def performBurst (s : State) (t : Nat) (r : HamperReq) : Bool × State :=
  let offs := runOffsets r.offset r.lines
  match r.kind with
  | .read h =>
    let (ls, s) := readLines s t offs h
    (ls.all (·.isSome), s)
  | .write d => (true, writeLines s t (offs.zip d) (reqWriter r))
  | .accumulate k d => accLines s t k (offs.zip d) (reqWriter r)

/-- A request whose access was refused fails its command (R217). -/
def refuseReq (s : State) (t : Nat) (r : HamperReq) : State :=
  match r.owner with
  | some (g, idx) => abortCommand s g idx { err := lineError s t (runOffsets r.offset r.lines) }
  | none => s

/-- The channel after it has served a request. -/
def channelAfter (c : Channel) (r : HamperReq) : Channel :=
  let c' := { c with waiting := c.waiting.erase r }
  { c' with agedServed := if reqClass r = 0 then false else zeroWaits c' && (r.aged || c.agedServed) }

/-- HAMPER_BURST (R192, R196 to R198, R214 to R217): the requests that have reached the channel join the waiting ones,
and the channel performs one burst, after which accesses that waited for it proceed. `errors` are the errors that have
arisen in lines of the tile; `retries` the CRC errors in a row of each granule's transfer: each of at most four is
repeated, and a fifth fails the channel. -/
def execHamperBurst (t : Fin 64) (c : Fin 32) (arrivals : List HamperReq) (errors : List (Nat × EccFinding))
    (retries : List Nat) (s : State) : Host.Outcome State Fault Refusal :=
  if !active s then .next s
  else
    let k := 32 * t.val + c.val
    let s := arise (arrivals.foldl (arriveReq t.val) s) t.val errors
    match nextRequest (s.channel k) with
    | none => .next s
    | some r =>
      if !(runOffsets r.offset r.lines).all (frontPassed s t.val) then .next s
      else
        let repeats := (retries.take ((r.offset % 128 / 64 + r.lines + 1) / 2)).map (min 5)
        let s := s.count32 (tilA t.val 0x3050) (repeats.map (min 4)).sum
        if repeats.any (fun n => 4 < n) then .next (enterSafe s 0x06 (srcSite (siteOf s t.val)) 0 c.val)
        else
          let s := s.setChannel k (channelAfter (s.channel k) r)
          let (ok, s) := performBurst s t.val r
          let s := if ok then s else refuseReq s t.val r
          .next (performStalled t (s.fabric.stalled) s)

/-- AGED_REQUEST (R197): the oldest request of class 1 or 2 that is not aged becomes aged. -/
def execAgedRequest (t : Fin 64) (c : Fin 32) (s : State) : Host.Outcome State Fault Refusal :=
  let k := 32 * t.val + c.val
  let ch := s.channel k
  match ch.waiting.find? (fun r => reqClass r ≠ 0 && !r.aged) with
  | some r => .next (s.setChannel k
      { ch with waiting := ch.waiting.map (fun x => if x = r then { r with aged := true } else x) })
  | none => .next s

end Sys2Proof.Machine
end

