-- ==== Sys2Proof/Machine/Collectives.lean ====
section
/-! DEFINITION. COLLECTIVE: its checks, its open round, the chunks of its pipeline and its time limits
(spec/09 R356 to R370). -/

namespace Sys2Proof.Machine

open Sys2Proof

/-! ### Checks at issue (R357) -/

/-- Operations as OP codes: 0 ALL_REDUCE, 1 REDUCE_SCATTER, 2 ALL_GATHER, 3 BROADCAST, 4 ALL_TO_ALL, 5 ALL_TO_ALL_V,
6 BARRIER. A reduction other than OR has a format. -/
def collReduces (l : Line) : Bool := collOp l < 2
def collOr (l : Line) : Bool := collReduces l && collRed l = 3

/-- The fields break a rule of R357 that gives ENCODING. The rule limits FMT and RND to reductions; it checks RED and
ROOT in every operation. The format of an OR, whose words have none, is not checked (DEDUCED, assumption log
entry 46). -/
def collFieldError (s : State) (t : Nat) (l : Line) : Bool :=
  let p := tileParty s t
  let team := collTeam l
  6 < collOp l || 3 < collVc l || (collRed l = 3 && collPath l = 0) ||
  (collReduces l && !collOr l && !([0, 1, 3].contains (collFmt l))) ||
  (collReduces l && !collOr l && collFmt l = 1 && 1 < collRnd l) ||
  (collPath l = 1 && collOp l ≠ 0 && collOp l ≠ 6) ||
  !teamValid s p team || !(teamTiles s p team).contains t || teamN s p team ≤ collRoot l

/-- This tile's team rank is the root of a BROADCAST. -/
def isRoot (s : State) (t : Nat) (l : Line) : Bool := teamRank s (tileParty s t) (collTeam l) t = collRoot l

/-- Descriptors that the collective reads, in the order of its slot fields: position, slot and what it must be
(R356, R357, R360, R367). -/
def collNeeds (s : State) (t : Nat) (l : Line) : List (Nat × Nat × Need) :=
  let op := collOp l
  let kinds : List Nat := if collReduces l && !collOr l then [collFmt l] else [0, 1, 2, 3, 4, 5, 6, 7, 8]
  if op = 6 then []
  else
    (if op = 3 && !isRoot s t l then [] else [(0, collSrcSlot l, { kinds, tile := some t })]) ++
    [(1, collDstSlot l, { write := true, kinds, tile := some t })] ++
    (if collPath l = 1 then []
      else [(2, collStageSlot l, { write := true, kinds := [kindByte], tile := some t })]) ++
    (if op = 5 then
      [(3, collCountsSlot l, { tile := some t }), (4, collRcountsSlot l, { write := true, tile := some t })] else [])

/-- Read and check descriptors in their order. -/
def useAll (s : State) (t : Nat) (copies : SMap (Option Line)) :
    List (Nat × Nat × Need) → Except CmdError (List (Nat × Desc)) × State
  | [] => (.ok [], s)
  | (field, slot, w) :: rest =>
    match useDesc s t copies field slot w with
    | (.error e, s) => (.error e, s)
    | (.ok d, s) =>
      match useAll s t copies rest with
      | (.error e, s) => (.error e, s)
      | (.ok ds, s) => (.ok ((field, d) :: ds), s)

/-- The descriptor at a position among the slot fields. -/
def descAt (ds : List (Nat × Desc)) (field : Nat) : Option Desc := (ds.find? (fun x => x.1 = field)).map (·.2)

/-- The sizes of R360 and R367 between the operands of an operation over `n` members; the position of the
descriptor that breaks them. A copy may change the element kind: the destination takes the source bits (R360). -/
def collShape (l : Line) (n : Nat) (src dst : Desc) (ds : List (Nat × Desc)) : Option Nat :=
  let b := descCount src * elemBits src.elem
  let e := descCount dst * elemBits dst.elem
  let cap := collCapacity l
  if collPath l = 1 then
    if b < 64 || 512 < b || b % 64 ≠ 0 then some 0 else if e = b then none else some 1
  else
    match collOp l with
    | 1 => if b % (512 * n) ≠ 0 then some 0 else if e * n = b then none else some 1
    | 2 => if b % 512 ≠ 0 then some 0 else if e = n * b then none else some 1
    | 4 => if b % (512 * n) ≠ 0 then some 0 else if e = b then none else some 1
    | 5 =>
      if cap = 0 || b % (512 * n * cap) ≠ 0 then some 0
      else if e ≠ b then some 1
      else if (descAt ds 3).any (fun d => descBytes d ≠ 4 * n) then some 3
      else if (descAt ds 4).any (fun d => descBytes d ≠ 8 * n) then some 4
      else none
    | _ => if e = b then none else some 1

/-- The checks of R357 on the descriptors together: counts, and the staging buffer. -/
def collDescError (s : State) (t : Nat) (l : Line) (ds : List (Nat × Desc)) : Option CmdError :=
  match descAt ds 1 with
  | none => none
  | some dst =>
    let src := (descAt ds 0).getD dst
    let at_ := fun k (err : Err) => (descAt ds k).map (fun d => descFault d k err)
    match collShape l (teamN s (tileParty s t) (collTeam l)) src dst ds with
    | some k => at_ k .shape
    | none =>
      match descAt ds 2 with
      | none => none
      | some st =>
        if descBytes st ≠ collSlots l * slotBytes then at_ 2 .shape
        else if !inScratch s t (descOff st) then at_ 2 .address
        else none

/-! ### Issue (R358, R359) -/

/-- The bytes of fields, each with a width, for the digest (PRESUMED layout, assumption log entry 10). -/
def fieldBytes (fs : List (Nat × Nat)) : List Nat := fs.flatMap (fun f => leBytes f.2 f.1)

/-- What a descriptor adds to the digest: offset, dimensions and strides. -/
def descFields (d : Desc) : List (Nat × Nat) :=
  [(descOff d, 5), (d.d0, 3), (d.d1, 3), (d.d2, 3), (d.d3, 3), (d.s1, 4), (d.s2, 4), (d.s3, 4)]

/-- DIGEST of R359; the ignored SRC of a BROADCAST has no part in it. -/
def collDigest (l : Line) (seq : Nat) (ds : List (Nat × Desc)) : Nat :=
  let counted := ds.filter (fun x => !(collOp l = 3 && x.1 = 0))
  let shaped := ds.filter (fun x => x.1 = 1 || x.1 = 2)
  crc32 (fieldBytes
    ([(collOp l, 1), (collRed l, 1), (collFmt l, 1), (collRnd l, 1), (collTeam l, 1), (seq, 2)] ++
      counted.map (fun x => (descCount x.2, 12)) ++ shaped.flatMap (fun x => descFields x.2) ++
      [(collRoot l, 3), (collCapacity l, 2), (collTensor l, 3), (lineField l 0x10 22 4, 1)]))

/-- All the elements of a descriptor as one number, as they lie in element order. -/
def descNumber (d : Desc) (codes : List Nat) : Nat := packLine (elemBits d.elem) codes

/-- The operand that the command reads at issue: COUNTS, or the source words of a roll-call collective. -/
def issueOperand (l : Line) (ds : List (Nat × Desc)) : Option (Nat × Desc) :=
  if collOp l = 5 then (descAt ds 3).map (fun d => (3, d))
  else if collPath l = 1 && collOp l = 0 then (descAt ds 0).map (fun d => (0, d))
  else none

/-- The collective takes its place behind the running one, or starts (R358, R359). The sequence number is the count of
collectives issued before on the entry (DEDUCED, assumption log entry 48). -/
def enterColl (c : Cmd) (s : State) (ds : List (Nat × Desc)) (operand : Nat) : State :=
  let e := s.coll c.t
  let l := c.line
  let team := collTeam l
  let seq := mget 0 e.seqs team
  let slot := fun k n => if (descAt ds k).isSome then slotLine s c.t c.copies n else 0
  let n := teamN s (tileParty s c.t) team
  let bytes := match descAt ds 0 with
    | some d => descBytes d
    | none => 0
  let job : Coll :=
    { queue := c.g, idx := c.idx, line := l, task := c.task, seed := seedKey s c.t (lineField l 0x10 22 4),
      src := slot 0 (collSrcSlot l), dst := slot 1 (collDstSlot l), stage := slot 2 (collStageSlot l), counts := slot 3 (collCountsSlot l),
      rcounts := slot 4 (collRcountsSlot l), seq := seq, progress := s.time, digest := collDigest l seq ds,
      rows := (if collOp l = 5 then (List.range n).map (fun q => bits operand (32 * q) 32) else []),
      words := (if collPath l = 1 && collOp l = 0 then
          (List.range (bytes / 8)).map (fun i => BitVec.ofNat 64 (bits operand (64 * i) 64))
        else []) }
  startColl (s.setColl c.t { e with next := some job, seqs := mset 0 e.seqs team ((seq + 1) % 65536) }) c.t

/-- Issue of a collective (R356 to R359). -/
def issueColl (c : Cmd) (s : State) : Issued :=
  let l := c.line
  if (s.coll c.t).next.isSome then .wait
  else if collFieldError s c.t l then .fail { err := .encoding } s
  else
    let needs := collNeeds s c.t l
    let slots := (needs.map (fun x => 64 * x.2.1)).filter (inScratch s c.t)
    if !linesReady s c.t slots then .wait
    else
      match useAll s c.t c.copies needs with
      | (.error e, s) => .fail e s
      | (.ok ds, s) =>
        match collDescError s c.t l ds with
        | some e => .fail e s
        | none =>
          match issueOperand l ds with
          | none => .run (enterColl c s ds 0)
          | some (k, d) =>
            if !descReady s c.t d then .wait
            else
              match loadHinted s c.t d 0 (descCount d) .stream with
              | (.ok codes, s) => .run (enterColl c s ds (descNumber d codes))
              | (.error e, s) => .fail (descFault d k e) s

/-- COLLECTIVE (R356 to R359). -/
def execCollective (g : Fin 16384) (s : State) : Host.Outcome State Fault Refusal :=
  .next (issue s g.val (· = 0x40) issueColl)

/-! ### The open round (R359) and roll-call collectives (R371) -/

/-- What the result of an open round starts (R359): the data phase, or a BARRIER's end. -/
def openResult (s : State) (t : Nat) (c : Coll) (dmin dmax largest : Nat) : State :=
  if dmin ≠ dmax then abortCommand s c.queue c.idx { err := .encoding }
  else
    let c := madeProgress s { c with largest, phase := (if collOp c.line = 4 || collOp c.line = 5 then .direct else .data) }
    let s := putRunning s t c
    if collOp c.line = 6 then finishCommand s c.queue c.idx else s

/-- The words of a roll-call collective are the destination (R371). -/
def wordsResult (s : State) (t : Nat) (c : Coll) (ws : List Dword) : State :=
  let d := collDst c
  let v := (ws.foldr (fun (w : Dword) a => w.toNat + 2 ^ 64 * a) 0)
  let s := putRunning s t (madeProgress s c)
  match storeCodes s t d 0 (codesOf (elemBits d.elem) (64 * ws.length) v) (.command c.queue c.idx) with
  | (none, s) => finishCommand s c.queue c.idx
  | (some e, s) => abortCommand s c.queue c.idx (descFault d 1 e)

/-- OPEN_ROUND_RESULT (R359, R371, R373): the result of the open round, or of a roll-call collective, reaches the
member in tile `t`. -/
def execOpenRoundResult (t : Fin 64) (s : State) : Host.Outcome State Fault Refusal :=
  match runningIn s t.val .open with
  | none => .next s
  | some c =>
    match s.rc.ops.find? (sameOp (collRcOp s t.val c)) with
    | none => .next s
    | some o =>
      if !active s || o.told.contains t.val then .next s
      else if o.failed then .next (abortCommand (tellMember s o t.val) c.queue c.idx { err := .link })
      else
        match o.result with
        | some (.round dmin dmax largest) => .next (openResult (tellMember s o t.val) t.val c dmin dmax largest)
        | some (.words ws) =>
          if descReady s t.val (collDst c) then .next (wordsResult (tellMember s o t.val) t.val c ws) else .next s
        | _ => .next s

/-! ### Chunks: entry (R364) -/

/-- Chunk slots in use (R364). -/
def slotsUsed (c : Coll) : Nat := (c.chunks.filter (fun x => x.entered)).length

/-- A slot is free for chunk `k`, which takes the slots in turn. -/
def chunkSlotFree (c : Coll) (k : Nat) : Bool :=
  !c.chunks.any (fun x => x.entered && x.index % collSlots c.line = k % collSlots c.line)

/-- The member has a source of its own: every one, and of a BROADCAST the root. -/
def hasSource (s : State) (t : Nat) (c : Coll) : Bool := collOp c.line ≠ 3 || collRank s t c = collRoot c.line

/-- A line of the source (R360). -/
def sourceLine (s : State) (t : Nat) (c : Coll) (l : Nat) : Except Err Line × State :=
  let sp := lineSpan c l
  let eb := elemBits (chunkDesc c).elem
  let ebS := elemBits (collSrc c).elem
  match loadHinted s t (collSrc c) (sp.1 * eb / max 1 ebS) (sp.2 * eb / max 1 ebS) .stream with
  | (.error e, s) => (.error e, s)
  | (.ok cs, s) => (.ok (BitVec.ofNat 512 (packLine ebS cs)), s)

/-- Lines of the source, in order. -/
def readSource (s : State) (t : Nat) (c : Coll) (lines : List Nat) : Except Err (List Line) × State :=
  match lines with
  | [] => (.ok [], s)
  | l :: ls =>
    match sourceLine s t c l with
    | (.error e, s) => (.error e, s)
    | (.ok x, s) =>
      match readSource s t c ls with
      | (.error e, s) => (.error e, s)
      | (.ok xs, s) => (.ok (x :: xs), s)

/-- The values of a chunk's lines, as the source gives them. -/
def sourceVals (ls : List Line) : SMap (Option Line) :=
  (List.range ls.length).foldl (fun m j => mset none m j (ls[j]?)) []

/-- Offsets in staging of the first `n` lines of chunk `k`. -/
def slotOffs (c : Coll) (k n : Nat) : List Nat := (List.range n).map (fun j => slotOff c k j false)

/-- A chunk's lines are placed in its staging slot. -/
def placeChunk (s : State) (t : Nat) (c : Coll) (k : Nat) (ls : List Line) : State :=
  writeLines s t ((slotOffs c k ls.length).zip ls) (.command c.queue c.idx)

/-- The own block of an ALL_GATHER is copied to its place, as far as chunk `k` goes. -/
def copyOwn (s : State) (t : Nat) (c : Coll) (k : Nat) (ls : List Line) : Option Err × State :=
  if collOp c.line = 2 then
    let sp := gatherSpan c (collN s t c) k (collRank s t c)
    storeCodes s t (collDst c) sp.1 (unpackedCodes (elemBits (collDst c).elem) sp.2 ls) (.command c.queue c.idx)
  else (none, s)

/-- The lines that the entry of chunk `k` touches can be accessed. -/
def entryReady (s : State) (t : Nat) (c : Coll) (k n : Nat) : Bool :=
  descReady s t (collSrc c) && linesReady s t (slotOffs c k n) &&
  (collOp c.line ≠ 2 ||
    (let sp := gatherSpan c (collN s t c) k (collRank s t c)
     rangeReady s t (collDst c) sp.1 sp.2))

/-- A chunk enters the first stage of its operation, in a free slot (R364). -/
def enterChunk (s : State) (t : Nat) (c : Coll) (k : Nat) : State :=
  let n := chunkSize c k
  let x := { (chunk? c k).getD { index := k } with entered := true }
  if !hasSource s t c then putRunning s t (putChunk { c with nextChunk := k + 1 } x)
  else if !entryReady s t c k n then s
  else
    match readSource s t c ((List.range n).map (chunkLine c (collN s t c) k)) with
    | (.error e, s) => abortCommand s c.queue c.idx (descFault (collSrc c) 0 e)
    | (.ok ls, s) =>
      match copyOwn (placeChunk s t c k ls) t c k ls with
      | (some e, s) => abortCommand s c.queue c.idx (descFault (collDst c) 1 e)
      | (none, s) => putRunning s t (putChunk { c with nextChunk := k + 1 } { x with vals := sourceVals ls })

/-! ### Values (R361, R362) -/

/-- A node of a reduction on the codes of element `n`, the lower-ranked child on the left (R361, R362). -/
def nodeCode (c : Coll) (f : Fmt) (n level a b : Nat) : Nat :=
  let mode := if f = .kg8 then Rnd.sr else (Rnd.ofCode (collRnd c.line)).getD .rne
  (encodeNum f .rne 0 (redNode (collRed c.line) f mode (genLinear 0x04 (collTensor c.line) level n c.seed)
    (decodeNum f a) (decodeNum f b))).1

/-- A node on the elements of two lines that hold elements from `first` on. -/
def nodeLine (c : Coll) (level first : Nat) (a b : Line) : Line :=
  let f := (Fmt.ofCode (collFmt c.line)).getD .kf32
  BitVec.ofNat 512 (packLine f.bits ((List.range (512 / f.bits)).map (fun i =>
    nodeCode c f (first + i) level (lineElem f.bits a i) (lineElem f.bits b i))))

/-- Number of the tree level of a halving step: the panel's levels first, then those of X, Y and Z (R362). -/
def exchangeLevel (w : TeamShape) (e : Exchange) : Nat :=
  ((List.range e.axis).map (fun d => treeDepth (w.len d))).foldl (· + ·) 0 + e.step

/-! ### Exchanges (R364, R365) -/

/-- A line of a block of an ALL_GATHER as it came, in whichever exchange. -/
def cameLine (x : Chunk) (c : Coll) (w : TeamShape) (j off : Nat) : Line :=
  ((List.range (exchangesOf 2 w).length).findSome? (fun i => mget none x.got (gotKey c w.n i j off))).getD 0

/-- The lines of an item that a member sends: a value of the chunk, or its own or another's part of a block of an
ALL_GATHER. -/
def itemLines (s : State) (t : Nat) (c : Coll) (x : Chunk) (e : Exchange) (j : Nat) : List (Nat × Line) :=
  let w := collShapeOf s t c
  if collOp c.line = 2 then
    let sp := gatherSpan c w.n x.index j
    if j = collRank s t c then
      placedLines (collDst c) sp.1 (unpackedCodes (elemBits (collDst c).elem) sp.2
        ((List.range (chunkSize c x.index)).map (fun i => (mget none x.vals i).getD 0)))
    else (itemOffs c w.n x.index j e).map (fun off => (off, cameLine x c w j off))
  else [(slotOff c x.index j (!e.gather), (mget none x.vals j).getD 0)]

/-- What a member sends in an exchange: each rank with the items for it. -/
def exchangeSends (s : State) (t : Nat) (c : Coll) (k : Nat) (e : Exchange) : List (Nat × List Nat) :=
  let w := collShapeOf s t c
  let me := collRank s t c
  let dests := fun (j : Nat) =>
    exchangeDests (collOp c.line) w (collRoot c.line) e me (itemTarget c w.n k j)
  let items := List.range (itemCount c w.n k)
  ((List.range w.n).map (fun r => (r, items.filter (fun j => (dests j).contains r)))).filter (fun x => x.2 ≠ [])

/-- Send the lines of an exchange (R365). -/
def sendExchange (s : State) (t : Nat) (c : Coll) (x : Chunk) (e : Exchange) : State :=
  (exchangeSends s t c x.index e).foldl (fun s y =>
    sendColl s t c (collOp c.line = 2 && (collDst c).acc) y.1 (y.2.flatMap (itemLines s t c x e))) s

/-- Items that a member takes in an exchange, with the rank they come from. -/
def exchangeTakes (s : State) (t : Nat) (c : Coll) (k : Nat) (e : Exchange) : List (Nat × Nat) :=
  let w := collShapeOf s t c
  (List.range (itemCount c w.n k)).filterMap (fun j =>
    (exchangeSource (collOp c.line) w (collRoot c.line) e (collRank s t c) (itemTarget c w.n k j)).map (fun r => (j, r)))

/-- Every line that a member takes in an exchange has been performed here. -/
def exchangeHas (s : State) (t : Nat) (c : Coll) (x : Chunk) (e : Exchange) : Bool :=
  let n := collN s t c
  (exchangeTakes s t c x.index e).all (fun y => (itemOffs c n x.index y.1 e).all (fun off =>
    (mget none x.got (gotKey c n x.round y.1 off)).isSome))

/-- The value of an item after an exchange: the node over both, or what came. -/
def exchangeValue (s : State) (t : Nat) (c : Coll) (x : Chunk) (e : Exchange) (j r : Nat) : Line :=
  let w := collShapeOf s t c
  let came := (mget none x.got (gotKey c w.n x.round j (slotOff c x.index j (!e.gather)))).getD 0
  if collOp c.line = 3 || e.gather then came
  else
    let own := (mget none x.vals j).getD 0
    let first := (lineSpan c (chunkLine c w.n x.index j)).1
    if r < collRank s t c then nodeLine c (exchangeLevel w e) first came own
    else nodeLine c (exchangeLevel w e) first own came

/-- The exchange is over: the values it brought stand in the chunk and in its slot. -/
def endExchange (s : State) (t : Nat) (c : Coll) (x : Chunk) (e : Exchange) : State :=
  let n := collN s t c
  let new := if collOp c.line = 2 then [] else
    (exchangeTakes s t c x.index e).map (fun y => (y.1, exchangeValue s t c x e y.1 y.2))
  let vals := new.foldl (fun m y => mset none m y.1 (some y.2)) x.vals
  let got := if collOp c.line = 2 then x.got else mdrop (fun key => key / 2 ^ 28 / max 4096 n = x.round) x.got
  let s := writeLines s t (new.map (fun y => (slotOff c x.index y.1 false, y.2))) (.command c.queue c.idx)
  putRunning s t (putChunk c { x with round := x.round + 1, sent := false, vals := vals, got := got })

/-- The staging lines of a chunk can be accessed. -/
def exchangeReady (s : State) (t : Nat) (c : Coll) (k : Nat) : Bool := linesReady s t (slotOffs c k (chunkSize c k))

/-- A chunk takes its next exchange: the member sends its lines to its partner, and the exchange ends when those of the
partner are here; a rank without a partner has nothing to send or to wait for (R364). -/
def exchangeStep (s : State) (t : Nat) (c : Coll) (x : Chunk) (e : Exchange) : State :=
  if !exchangeReady s t c x.index then s
  else
    let s := if x.sent then s else sendExchange s t c x e
    if exchangeHas s t c x e then endExchange s t c x e else putRunning s t (putChunk c { x with sent := true })

/-! ### Chunks: end (R358, R364) -/

/-- What a member writes of a finished chunk: first element of DST and codes (R360). -/
def chunkResult (s : State) (t : Nat) (c : Coll) (x : Chunk) : Nat × List Nat :=
  let n := collN s t c
  let eb := elemBits (chunkDesc c).elem
  let at_ := fun j => (mget none x.vals j).getD 0
  match collOp c.line with
  | 2 => (0, [])
  | 1 =>
    let mine := (List.range (chunkSize c x.index)).filter (fun j => chunkTarget c n x.index j = collRank s t c)
    ((4096 * x.index + mine.headD 0) / max 1 n * chunkPer c, unpackedCodes eb (chunkPer c * mine.length) (mine.map at_))
  | _ =>
    let first := 4096 * x.index * chunkPer c
    (first, unpackedCodes eb (descCount (collDst c) - first) ((List.range (chunkSize c x.index)).map at_))

/-- A chunk leaves its last stage: its elements are written, its slot is free, and the last one finishes the
collective (R358, R364). -/
def leaveChunk (s : State) (t : Nat) (c : Coll) (x : Chunk) : State :=
  let r := chunkResult s t c x
  if !rangeReady s t (collDst c) r.1 r.2.length then s
  else
    match storeCodes s t (collDst c) r.1 r.2 (.command c.queue c.idx) with
    | (some e, s) => abortCommand s c.queue c.idx (descFault (collDst c) 1 e)
    | (none, s) =>
      let c := { c with chunks := c.chunks.filter (fun y => y.index ≠ x.index), done := c.done + 1 }
      let s := putRunning s t c
      if c.done = chunkTotal c then finishCommand s c.queue c.idx else s

/-- A chunk that is in a slot takes its next exchange, or leaves after the last. -/
def stepChunk (s : State) (t : Nat) (c : Coll) (x : Chunk) : State :=
  match (exchangesOf (collOp c.line) (collShapeOf s t c))[x.round]? with
  | some e => exchangeStep s t c x e
  | none => leaveChunk s t c x

/-- COLLECTIVE_CHUNK_STEP (R364, R365, R368): a chunk enters a free slot, or takes its next exchange, `step`
being how many it has behind it; of a direct operation, the block for the next peer is sent. -/
def execCollectiveChunkStep (t : Fin 64) (chunk step : Nat) (s : State) : Host.Outcome State Fault Refusal :=
  if !active s then .next s
  else
    match runningIn s t.val .data, runningIn s t.val .direct with
    | some c, _ =>
      (match (chunk? c chunk).filter (·.entered) with
        | some x => if x.round = step then .next (stepChunk s t.val c x) else .next s
        | none =>
          if chunk = c.nextChunk && chunk < chunkTotal c && slotsUsed c < collSlots c.line && chunkSlotFree c chunk then
            .next (enterChunk s t.val c chunk)
          else .next s)
    | none, some c =>
      if chunk = c.nextChunk && chunk < collN s t.val c then .next (directStep s t.val c) else .next s
    | none, none => .next s

/-! ### Failure (R369, R370) -/

/-- COLL_MS in nanoseconds. -/
def collLimit (s : State) : Nat := 1000000 * s.field 0x7004 20 11

/-- COLLECTIVE_TIMEOUT (R369): no progress for COLL_MS. -/
def execCollectiveTimeout (t : Fin 64) (s : State) : Host.Outcome State Fault Refusal :=
  match (s.coll t.val).running with
  | none => .next s
  | some c =>
    if !active s || c.phase = .held then .next s
    else
      let s := passToTime s (c.progress + collLimit s)
      .next (abortCommand (s.count32 (tilA t.val 0x705C) 1) c.queue c.idx { err := .link })

/-- OPEN_ROUND_HOLDOFF_EXPIRY (R370). -/
def execOpenRoundHoldoffExpiry (t team : Fin 64) (s : State) : Host.Outcome State Fault Refusal :=
  match mget none (s.coll t.val).holdoff team.val with
  | none => .next s
  | some d =>
    if !active s then .next s
    else
      let s := s.passTo d
      let e := s.coll t.val
      .next (startColl (s.setColl t.val { e with holdoff := mset none e.holdoff team.val none }) t.val)

end Sys2Proof.Machine
end

