-- ==== Sys2Proof/Machine/Optical.lean ====
section
/-! DEFINITION. Lanterns: the stile, phase maps, rotations, ring tuning and calibration
(spec/10_optical_io.md R387 to R420, R426, R427, R430). -/

namespace Sys2Proof.Machine

open Sys2Proof

/-! ### Links of a bundle (R402, R405) -/

def bundleA (n m o : Nat) : Nat := lanA n (0x2000 + 0x40 * m + o)
/-- The entry that a bundle should be in: that of the lantern's phase once the start-up calibration is complete, and
PARK before and while nothing of it may be lit. -/
def wantedEntry (s : State) (n m : Nat) : BitVec 64 :=
  if (s.lantern n).calDone then
    let e := mapEntry s.itin.applied (s.lantern n).phase n m
    if (litPositions s n m e).isEmpty then 0 else e
  else 0

/-! ### Rings and a calibration that stops (R410, R415) -/

/-- Rings of a bundle: modulators and filters (R410). -/
def bundleRings (m : Nat) : List Nat :=
  (List.range 8).map (fun j => 8 * m + j) ++ (List.range 8).map (fun j => 256 + 8 * m + j)

/-- Heater code of a ring. -/
def heater (s : State) (n r : Nat) : Nat := mget 0 (s.lantern n).heaters r
def setHeater (s : State) (n r c : Nat) : State :=
  s.setLantern n { s.lantern n with heaters := mset 0 (s.lantern n).heaters r c }

/-- A running calibration stops: the heater codes return to their values from before, and settle in 4 µs (R415). -/
def stopCal (s : State) (n m : Nat) : State :=
  let b := s.bundle n m
  if b.calibrating.isNone || !(s.lantern n).calDone then s
  else
    let s := ((bundleRings m).zip b.saved).foldl (fun s p => setHeater s n p.1 p.2) s
    let s := s.setBundle n m { s.bundle n m with calibrating := none, saved := [], settle := s.now + 4000 }
    s.count32 (lanA n 0x50) 1

/-! ### Moves (R400, R407) -/

/-- Set a bundle to move to an entry, no sooner than a timetable instant. -/
def planMove (s : State) (n m : Nat) (e : BitVec 64) (instant : Nat) : State :=
  s.setBundle n m { s.bundle n m with move := some { entry := e, phase := (s.lantern n).phase, instant } }

/-- Bundles of a lantern that now may be lit move to the map of its phase, and a calibration of theirs stops first; a
bundle whose entry stands as the map has it is not tried again (R415, R424, R426, R427). -/
def relight (s : State) (n : Nat) : State :=
  s.each (List.range 32) (fun m s =>
    let b := s.bundle n m
    let e := wantedEntry s n m
    if b.move.isNone && e ≠ 0 && b.entry ≠ e then planMove (stopCal s n m) n m e s.time else s)

/-- Forget the links of a bundle's entry. -/
def clearLinks (s : State) (n m : Nat) : State :=
  s.each (List.range (entryCount (s.bundle n m).entry)) (fun i s => s.setLink (bundleLink n m i) {})

/-- Fresh links for the positions of a bundle's entry that may be lit; packets that hash to them wait until they are
lit (R407). -/
def freshLinks (s : State) (n m : Nat) : State :=
  s.each (litPositions s n m (s.bundle n m).entry) (fun i s =>
    if (s.link (bundleLink n m i)).up then s else s.setLink (bundleLink n m i) { up := true, dark := true })

/-- Park a bundle at once: each of its links is declared down (R401, R422, R424). -/
def parkBundle (s : State) (n m : Nat) : State :=
  let s := s.each (List.range (entryCount (s.bundle n m).entry)) (fun i s =>
    if (s.link (bundleLink n m i)).up then linkDown s (bundleLink n m i) else s)
  let b := s.bundle n m
  let b' : Bundle := { b with entry := 0, locked := false, movedAt := none,
                              away := false, parked := if b.entry = 0 then b.parked else some s.now }
  s.setBundle n m b'

/-- The slot of a rotation at a timetable instant, counted from s_0 (R409). -/
def rotationSlot (e : BitVec 64) (origin t : Nat) : Nat := if entryMode e = 2 then (t - origin) / max 1 (slotNs e) else 0

/-- The move of R400 happens at the present instant. The slots of a rotation count from the last fence, whenever the
bundle joins them (R409); a position that may not be lit leaves the bundle parked for its slots (R405, R421). -/
def moveNow (s : State) (n m : Nat) (mv : StileMove) : State :=
  let before := liveDirs s
  let s := clearLinks (s.count64 (lanA n 0x40) 1) n m
  let b := s.bundle n m
  let e := if (litPositions s n m mv.entry).isEmpty then 0 else mv.entry
  let origin := (s.lantern n).origin
  let slot := rotationSlot e origin s.time
  let away := e ≠ 0 && !mayLight s n m e (slot % max 1 (entryCount e))
  let b' : Bundle := { b with
    entry := e, phase := mv.phase, slot := slot, origin := origin, renew := none, move := none, locked := false, away,
    movedAt := if e = 0 || away then none else some s.now,
    parked := if e ≠ 0 then none else if b.entry = 0 then b.parked else some s.now }
  checkDirs (freshLinks (s.setBundle n m b') n m) before

/-- The old links of a bundle have drained (R407). -/
def bundleDrained (s : State) (n m : Nat) : Bool :=
  (List.range (entryCount (s.bundle n m).entry)).all (fun i =>
    let x := s.link (bundleLink n m i)
    !x.up || !x.draining || x.drained)

/-- STILE_MOVE_START (R400, R407): the move starts at its instant, or once its links have drained and its heaters
have settled. -/
def execStileMoveStart (n : Fin 8) (m : Fin 32) (s : State) : Host.Outcome State Fault Refusal :=
  let b := s.bundle n.val m.val
  match b.move with
  | none => .next s
  | some mv =>
    if !panelRuns s || !bundleDrained s n.val m.val then .next s
    else
      let late := mv.instant < s.time || s.now + dueIn s mv.instant < b.settle
      let s := (passToTime s mv.instant).passTo b.settle
      let s := if late then s.count32 (lanA n.val 0x48) 1 else s
      .next (moveNow s n.val m.val mv)

/-- STILE_MOVE_CHECK (R401): the tap monitors check a moved path, that to the park output too; a stage fault parks the
plane. -/
def execStileMoveCheck (n : Fin 8) (m : Fin 32) (good : Bool) (s : State) : Host.Outcome State Fault Refusal :=
  let pl := planeOf m.val
  if good || !panelRuns s || inTrim s n.val pl then .next s
  else
    let parked := (List.range 8).filter (fun j => (s.bundle n.val (8 * pl + j)).entry ≠ 0)
    let s := s.count32 (lanA n.val 0x58) 1
    let x := s.lantern n.val
    let s := s.setLantern n.val { x with trim := x.trim ||| 2 ^ pl }
    let s := s.each (List.range 8) (fun j s => parkBundle s n.val (8 * pl + j))
    .next (post s 0x50 (srcLantern n.val (0x10 + pl)) (parked.foldl (fun a j => a + 2 ^ j) 0))

/-- LINK_LIT (R400, R407, R426): the receiver has locked on all eight wavelengths, 48 ns after the move, and the link
launches its first frame. -/
def execLinkLit (n : Fin 8) (m : Fin 32) (s : State) : Host.Outcome State Fault Refusal :=
  let b := s.bundle n.val m.val
  match b.movedAt with
  | none => .next s
  | some t =>
    let l := bundleLink n.val m.val (nowPos b)
    if !panelRuns s || !(s.link l).up then .next s
    else
      let s := s.passTo (t + 48)
      let s := s.setLink l { s.link l with dark := false, waited := 0 }
      .next (transmit (s.setBundle n.val m.val { b with locked := true, movedAt := none, unmatched := false }) l)

/-- The slot of a bundle that moved at `t` ends before the receiver's 1 ms, counted over the link's own slots (R409, R426). -/
def slotEndsFirst (s : State) (b : Bundle) (x : LinkState) (t : Nat) : Bool :=
  entryMode b.entry = 2 && s.now + dueIn s (b.origin + (b.slot + 1) * slotNs b.entry) < t + (1000000 - x.waited)

/-- BUNDLE_LOCK_TIMEOUT (R426): the receiver has not locked 1 ms after the move, measured inside the link's own slots. -/
def execBundleLockTimeout (n : Fin 8) (m : Fin 32) (s : State) : Host.Outcome State Fault Refusal :=
  let b := s.bundle n.val m.val
  match b.movedAt with
  | none => .next s
  | some t =>
    let i := nowPos b
    let x := s.link (bundleLink n.val m.val i)
    if !panelRuns s || !x.up || slotEndsFirst s b x t then .next s
    else
      let s := linkDown (s.passTo (t + (1000000 - x.waited))) (bundleLink n.val m.val i)
      let s := s.setBundle n.val m.val { s.bundle n.val m.val with unmatched := true, movedAt := none }
      .next (post s 0x56 (srcLantern n.val (0x20 + m.val)) (entryDir b.entry i + 2 ^ 3 * i + 2 ^ 8 * b.phase))

/-- The next slot of a rotation: its number, s_0 and start instant. An unchanged rotation begins again with slot 0 at the
instant of a fence (R409). -/
def slotNext (b : Bundle) : Nat × Nat × Nat :=
  let start := b.origin + (b.slot + 1) * slotNs b.entry
  match b.renew with
  | some r => if r ≤ start then (0, r, r) else (b.slot + 1, b.origin, start)
  | none => (b.slot + 1, b.origin, start)

/-- The time that the receiver has waited unlocked in the slot that ends is kept with its link (R409, R426). -/
def keepWait (s : State) (n m : Nat) (b : Bundle) : State :=
  match b.movedAt with
  | some t =>
    let l := bundleLink n m (nowPos b)
    s.setLink l { s.link l with waited := (s.link l).waited + (s.now - t) }
  | none => s

/-- A ROTATE bundle moves to the port of its next slot, when that may be lit and its link was not declared down in this
phase (R405, R409, R421, R426). A link that is new to the phase begins. -/
def nextSlot (n m : Nat) (s : State) : State :=
  let b := s.bundle n m
  if entryMode b.entry = 2 then
    let (k, origin, start) := slotNext b
    let s := keepWait ((passToTime s start).count64 (lanA n 0x40) 1) n m b
    let b' : Bundle := { b with slot := k, origin, renew := if k = 0 then none else b.renew, locked := false, away := false }
    let l := bundleLink n m (nowPos b')
    let x := s.link l
    if !mayLight s n m b.entry (nowPos b') then s.setBundle n m { b' with away := true, movedAt := none }
    else if x.failed || (!x.up && b.move.isSome) then s.setBundle n m { b' with movedAt := none }
    else reroute ((s.setBundle n m { b' with movedAt := some s.now }).setLink l { x with up := true, dark := true })
  else s

/-- ROTATION_SLOT (R409): a slot of the lantern's rotations begins. -/
def execRotationSlot (n : Fin 8) (s : State) : Host.Outcome State Fault Refusal :=
  if !panelRuns s then .next s else .next (s.each (List.range 32) (nextSlot n.val))

/-- LINK_DRAINED (R407, R453): every frame of a draining link is acknowledged, the peer's drain mark has come and its
acknowledgement has gone. A copper link then joins its new set, at the fence instant or now. -/
def execLinkDrained (l : ModLink) (s : State) : Host.Outcome State Fault Refusal :=
  let x := s.link l
  if !x.draining || !x.retry.isEmpty || !x.peerMark || !x.markAcked || !panelRuns s then .next s
  else
    match l with
    | .bundle _ _ _ => .next (s.setLink l { x with drained := true })
    | .copper k =>
      let p := s.copperPort k.val
      match p.newEntry with
      | none => .next (s.setLink l { x with draining := false, peerMark := false, markAcked := false })
      | some (e, t) =>
        let s := passToTime s t
        let s := s.setLink l { x with draining := false, peerMark := false, markAcked := false }
        .next (reroute (s.setCopper k.val { p with entry := e, newEntry := none }))

/-! ### Calibration (R410 to R416, R430) -/

/-- Table row and weight of a reading in 1/16 °C: the row below and eighths above it (R411). -/
def tableRow (t : Int) : Nat × Nat :=
  if t < 240 then (0, 0)
  else if 240 + 8 * 159 ≤ t then (159, 0)
  else (((t - 240) / 8).toNat, ((t - 240) % 8).toNat)

/-- table(r, T) in eighths (R411). -/
def tableEighths (n r : Nat) (t : Int) : Nat :=
  let (k, w) := tableRow t
  (Config.tuning n k r).toNat * (8 - w) + (if w = 0 then 0 else (Config.tuning n (k + 1) r).toNat * w)

/-- Offset register of two rings, and the signed offset of a ring (R412). -/
def offsetA (n r : Nat) : Nat := lanA n (0x130000 + 4 * (r / 2))
def ringOffset (s : State) (n r : Nat) : Int := (BitVec.ofNat 16 (s.field (offsetA n r) (16 * (r % 2)) 16)).toInt

/-- An integer nearest to `x` eighths; of two equally near, either, for the spec does not say which
(free choice, assumption log entry 44). -/
def roundEighths (s : State) (x : Int) : Int × State :=
  if x % 8 = 4 then (x / 8 + (if Config.freeBool s.draws then 1 else 0), s.used) else ((x + 4) / 8, s)

/-- Sensor beside a bundle, and its reading in 1/16 °C (R411, R429). -/
def sensorA (n i : Nat) : Nat := lanA n (0x100 + 4 * i)
def sensorRead (s : State) (n i : Nat) : Int := (BitVec.ofNat 16 (s.field (sensorA n i) 0 16)).toInt

/-- Set the heater of a ring from the table and its offset. -/
def followTable (n m r : Nat) (s : State) : State :=
  let (v, s) := roundEighths s ((tableEighths n r (sensorRead s n (m / 2)) : Int) + 8 * ringOffset s n r)
  setHeater s n r (if v < 0 then 0 else min v.toNat 65535)

/-- RING_HEATER_UPDATE (R411, R429): the 16 sensors are sampled and the heaters follow the table; the rings of a
bundle that calibrates are held by its scans. -/
def execRingHeaterUpdate (n : Fin 8) (readings : List Int) (s : State) : Host.Outcome State Fault Refusal :=
  if !s.power.pwrgd then .next s
  else
    let ts := (List.range 16).map (fun i => readings.getD i (sensorRead s n.val i))
    let word := fun (v : Int) => (BitVec.ofInt 16 v).toNat
    let s := s.each (List.range 16) (fun i s => s.setReg (sensorA n.val i) (BitVec.ofNat 32 (word (ts.getD i 0))))
    if !(s.lantern n.val).table then .next s
    else
      .next (s.each (List.range 32) (fun m s =>
        if (s.bundle n.val m).calibrating.isSome then s else s.each (bundleRings m) (followTable n.val m)))

/-- Fields of `LAN_CAL_CFG` (R430). -/
def periodMin (s : State) (n : Nat) : Nat := s.field (lanA n 0x20) 0 6
def driftPm (s : State) (n : Nat) : Nat := s.field (lanA n 0x20) 6 8
def urgentPm (s : State) (n : Nat) : Nat := s.field (lanA n 0x20) 14 8

/-- Since when a calibration of a bundle is pending: from its cause, or from the end of its period (R415). -/
def pendingSince (s : State) (n m : Nat) : Option Nat :=
  let b := s.bundle n m
  let due := b.lastCal + 60000000000 * periodMin s n
  match b.pending with
  | some t => some t
  | none => if (s.lantern n).calDone && due ≤ s.time then some due else none

/-- CAL_URGENT is set, and its event posted once (R415). -/
def setUrgent (s : State) (n m why : Nat) : State :=
  let b := s.bundle n m
  if b.urgent then s
  else post (s.setBundle n m { b with urgent := true }) 0x51 (srcLantern n (0x20 + m)) (min b.drift 255 + 2 ^ 8 * why)

/-- DRIFT_UPDATE (R414, R415): the largest of the 16 distances of a lit bundle. -/
def execDriftUpdate (n : Fin 8) (m : Fin 32) (distances : List Nat) (s : State) :
    Host.Outcome State Fault Refusal :=
  let b := s.bundle n.val m.val
  if !panelRuns s || b.entry = 0 then .next s
  else
    let d := (distances.take 16).foldl max 0
    let b' : Bundle := { b with
      drift := d,
      pending := if driftPm s n.val < d && b.pending.isNone then some s.time else b.pending }
    let s := s.setBundle n.val m.val b'
    .next (if urgentPm s n.val < d then setUrgent s n.val m.val 1 else s)

/-- CAL_URGENT (R415): a calibration has been pending for 60 s, or the drift is above URGENT_PM. -/
def execCalUrgent (n : Fin 8) (m : Fin 32) (s : State) : Host.Outcome State Fault Refusal :=
  if !panelRuns s then .next s
  else if urgentPm s n.val < (s.bundle n.val m.val).drift then .next (setUrgent s n.val m.val 1)
  else
    match pendingSince s n.val m.val with
    | some t => .next (setUrgent (passToTime s (t + 60000000000)) n.val m.val 0)
    | none => .next s

/-- A calibration of a bundle begins: the heater codes from before it are kept (R416). -/
def beginCal (s : State) (n m : Nat) : State :=
  s.setBundle n m { s.bundle n m with calibrating := some s.now, saved := (bundleRings m).map (heater s n) }

/-- CALIBRATION_START (R415): a pending calibration starts once the bundle has been parked for 50 µs. -/
def execCalibrationStart (n : Fin 8) (m : Fin 32) (s : State) : Host.Outcome State Fault Refusal :=
  let b := s.bundle n.val m.val
  match pendingSince s n.val m.val, b.parked with
  | some t, some since =>
    if !panelRuns s || !(s.lantern n.val).calDone || b.calibrating.isSome || b.move.isSome then .next s
    else
      let s := s.passTo (since + 50000)
      let s := s.setBundle n.val m.val { b with pending := some t }
      .next (beginCal s n.val m.val)
  | _, _ => .next s

/-- CALIBRATION_STOP (R415): the lantern learns that the bundle will be lit. -/
def execCalibrationStop (n : Fin 8) (m : Fin 32) (s : State) : Host.Outcome State Fault Refusal :=
  if panelRuns s then .next (stopCal s n.val m.val) else .next s

/-- A ring's offset becomes its target less the table: the spec gives no rounding of the difference, so of two
integers beside it either (assumption log entry 44). -/
def setOffset (n m : Nat) (s : State) (p : Nat × Nat) : State :=
  let x : Int := 8 * (p.2 : Int) - (tableEighths n p.1 (sensorRead s n (m / 2)) : Int)
  let up := x % 8 ≠ 0 && Config.freeBool s.draws
  let v := x / 8 + (if up then 1 else 0)
  let s := if x % 8 = 0 then s else s.used
  setHeater (s.setField (offsetA n p.1) (16 * (p.1 % 2)) 16 (BitVec.ofInt 16 v).toNat) n p.1 p.2

/-- When a calibration that began at `t` ends: at start-up 11.3 ms later (R427), in service after 9 coarse points of
4.1 µs and 11 fine points of 14 µs (R416). -/
def calEnd (startup : Bool) (t : Nat) : Nat := t + (if startup then 11300000 else 190900)

/-- The start-up calibration of a lantern is complete: planes go to FAST, and the map is applied (R427). -/
def startupCalDone (s : State) (n : Nat) : State :=
  if (List.range 32).any (fun m => (s.bundle n m).calibrating.isSome) then s
  else
    let x := s.lantern n
    relight (s.setLantern n { x with calDone := true, calBegun := none, trim := x.faulty }) n

/-- CALIBRATION_DONE (R416): the offsets are set from the target codes of the bundle's rings. -/
def execCalibrationDone (n : Fin 8) (m : Fin 32) (targets : List Nat) (s : State) :
    Host.Outcome State Fault Refusal :=
  match (s.bundle n.val m.val).calibrating with
  | none => .next s
  | some t =>
    if !panelRuns s then .next s
    else
      let startup := !(s.lantern n.val).calDone
      let s := s.passTo (calEnd startup t)
      let s := ((bundleRings m.val).zip (targets.map (· % 65536))).foldl (setOffset n.val m.val) s
      let s := (s.setReg64 (bundleA n.val m.val 0x8) s.time).count32 (lanA n.val 0x4C) 1
      let s := s.setBundle n.val m.val { s.bundle n.val m.val with
        calibrating := none, saved := [], pending := none, urgent := false, lastCal := s.time }
      .next (if startup then startupCalDone s n.val else s)

/-- Fold of a lantern's calibration register: URGENT_PM stands at least 10 above DRIFT_PM (R430). -/
def foldLan (s : State) (n : Nat) : State :=
  let s := s.foldReg (lanA n 0x20)
  let least := driftPm s n + 10
  let u := urgentPm s n
  if u < least then reportClamp (s.setField (lanA n 0x20) 14 8 least) 0 (256 + n) 0x20 14 u least else s

/-- LAN_FOLD (R430). -/
def execLanFold (p : Path) (n : Fin 8) (s : State) : Host.Outcome State Fault Refusal :=
  .next (ownerWrite s p (lanA n.val 0x24) 1 (fun s => foldLan s n.val))

/-! ### Trimming (R399, R401, R427) -/

/-- What a write of `LAN_STILE_CTRL` does (R401, R431): planes named that are in TRIM trim again. -/
def retrimPlanes (s : State) (n : Nat) (planes : Nat → Bool) : State :=
  let x := s.lantern n
  let again := (List.range 4).filter (fun pl => planes pl && bits x.trim pl 1 = 1 &&
    bits x.faulty pl 1 = 0 && x.calDone && (mget none x.trimming pl).isNone)
  let trimming := again.foldl (fun m pl => mset none m pl (some s.now)) x.trimming
  s.setLantern n { x with trimming := trimming }

/-- STILE_RETRIM (R401, R431). -/
def execStileRetrim (p : Path) (n : Fin 8) (planes : BitVec 4) (s : State) : Host.Outcome State Fault Refusal :=
  .next (ownerWrite s p (lanA n.val 0x28) (BitVec.ofNat 32 planes.toNat) (fun s =>
    retrimPlanes s n.val (fun pl => planes.getLsbD pl)))

/-- The trim of start-up has ended on every plane: the start-up calibration of all bundles begins (R427). -/
def startupTrimmed (s : State) (n : Nat) : State :=
  let x := s.lantern n
  if x.calDone || x.calBegun.isSome || !x.trimming.isEmpty then s
  else (s.setLantern n { x with calBegun := some s.now }).each (List.range 32) (fun m s => beginCal s n m)

/-- STILE_TRIM_DONE (R401, R427): a plane's 2 ms of trimming have ended, and its stages have been tested. A plane that
fails stays in TRIM until the next start-up. -/
def execStileTrimDone (n : Fin 8) (plane : Fin 4) (good : Bool) (s : State) : Host.Outcome State Fault Refusal :=
  let x := s.lantern n.val
  match mget none x.trimming plane.val with
  | none => .next s
  | some t =>
    if !panelRuns s then .next s
    else
      let s := s.passTo (t + 2000000)
      let x := { x with trimming := mset none x.trimming plane.val none,
                        faulty := if good then x.faulty else x.faulty ||| 2 ^ plane.val }
      if !x.calDone then .next (startupTrimmed (s.setLantern n.val x) n.val)
      else if !good then .next (s.setLantern n.val x)
      else
        let s := s.setLantern n.val { x with trim := x.trim - bits x.trim plane.val 1 * 2 ^ plane.val }
        let s := s.each (List.range 8) (fun j s =>
          let b := s.bundle n.val (8 * plane.val + j)
          s.setBundle n.val (8 * plane.val + j) { b with pending := some (b.pending.getD s.time) })
        .next (relight s n.val)

/-! ### Fences with MAP (R407, R409, R415, R453) -/

/-- The routers stop giving packets to a link, which sends its drain mark (R407). -/
def drainLink (s : State) (l : ModLink) : State :=
  if (s.link l).up then transmit (s.setLink l { s.link l with draining := true }) l else s

/-- A bundle takes part in the re-drawing for a fence: its old links drain and its move is planned, in place of one that an
earlier fence left (R407). A rotation that stays as it is begins its slots again at the fence (R409). -/
def redrawBundle (n : Nat) (origin start : Nat) (m : Nat) (s : State) : State :=
  let e := wantedEntry s n m
  let b := s.bundle n m
  if e = b.entry && b.move.isNone then
    if entryMode e = 2 then s.setBundle n m { b with renew := some origin, phase := (s.lantern n).phase } else s
  else
    let s := if e ≠ 0 then stopCal s n m else s
    let s := s.each (List.range (entryCount b.entry)) (fun i s => drainLink s (bundleLink n m i))
    planMove s n m e start

/-- The stiles and the copper links begin to follow the map of a phase for a fence at `tf`: bundles move 48 ns before
it, or now when that has passed, and routing goes over to the new sets (R331, R376, R407, R453). -/
def startRedraw (s : State) (phase tf : Nat) : State :=
  let before := liveDirs s
  let s := { s with itin := { s.itin with applied := s.itin.force } }
  let origin := tf - 48
  let start := max s.time origin
  let s := s.each (List.range 8) (fun n s =>
    let s := s.setLantern n { s.lantern n with phase := phase, origin := origin }
    s.each (List.range 32) (redrawBundle n origin start))
  let s := s.each (List.range 13) (fun k s =>
    let p := s.copperPort k
    let e := copperEntry s.itin.force phase k
    if p.entry % 1024 = e % 1024 then s
    else
      let l : ModLink := .copper (Fin.ofNat 13 k)
      let s := s.setCopper k { p with newEntry := some (e, tf) }
      if bits p.entry 0 1 = 1 then drainLink s l else s)
  checkDirs s before

/-- At the fence instant the copper links that need no drain join their new sets (R453). -/
def joinCopper (s : State) : State :=
  reroute (s.each (List.range 13) (fun k s =>
    let p := s.copperPort k
    match p.newEntry with
    | some (e, t) =>
      if t ≤ s.time && !(s.link (.copper (Fin.ofNat 13 k))).draining then
        s.setCopper k { p with entry := e, newEntry := none }
      else s
    | none => s))

end Sys2Proof.Machine
end

