-- ==== Sys2Proof/Machine/Fences.lean ====
section
/-! DEFINITION. Phase fences and the phase log (spec/07 R287 to R290, spec/09 R375, R376, R381, R382). -/

namespace Sys2Proof.Machine

open Sys2Proof

/-! ### The phase log (R381, R382) -/

/-- Write an entry: its kind is 0 END, 1 START or 2 FAILED. -/
def phaseLog (s : State) (t stamp phase kind : Nat) (late voteFail : Bool) (seq : Word) : State :=
  let i := (s.reg (tilA t 0x7100)).toNat
  let unread := (i + 2 ^ 32 - (s.reg (tilA t 0x7104)).toNat) % 2 ^ 32
  let s := if 4096 ≤ unread && unread < 2 ^ 31 then s.count32 (tilA t 0x7108) 1 else s
  let a := tilA t (0x20000 + 16 * (i % 4096))
  let s := s.setReg64 a stamp
  let s := s.setReg (a + 8) (BitVec.ofNat 32 (phase % 64 + 64 * kind + 256 * late.toNat + 512 * voteFail.toNat))
  let s := s.setReg (a + 12) seq
  s.setReg (tilA t 0x7100) (BitVec.ofNat 32 (i + 1))

/-! ### Arrival (R287 to R290, R375, R380) -/

def pfNext (l : Line) : Nat := lineField l 0x10 0 6
def pfScope (l : Line) : Nat := lineField l 0x10 8 2
def pfMap (l : Line) : Bool := lineField l 0x10 10 1 = 1
def pfVote (l : Line) : Bool := lineField l 0x10 11 1 = 1
def pfSeq (l : Line) : Word := BitVec.ofNat 32 (lineWord l 0x14)

/-- The CRC-32 that a fence contributes (R375; its byte layout PRESUMED, assumption log entry 10). -/
def fenceDigest (f : OpenFence) : Nat :=
  crc32 ([f.next, f.scope, f.map.toNat, f.vote.toNat] ++ leBytes 4 f.seq.toNat)

/-- The operation that a tile's fence joins: the oldest of its party that has nothing of the tile, one of the same
sequence before others; a new one otherwise. Arrivals that differ meet there and fail (R289, R375). -/
def fenceOp (s : State) (t : Nat) (f : OpenFence) : Nat × State :=
  let p := tileParty s t
  let seq := f.seq.toNat % 65536
  let cands := s.rc.ops.filter (fun o => o.op = 1 && o.party = p && mget .none o.given t = .none)
  match (cands.find? (fun o => o.seq = seq)).or cands.head? with
  | some o => (o.id, s)
  | none => addOp s { party := p, op := 1, team := 63, seq, job := f.scope = 2, members := partyTiles s p }

/-- The tile contributes its arrival (R375). -/
def sendFence (s : State) (t : Nat) : State :=
  match (s.tile t).fence with
  | none => s
  | some f =>
    if f.sent then s
    else
      let s := s.modTile t (fun x => { x with fence := some { f with sent := true } })
      let d := fenceDigest f
      let (id, s) := fenceOp s t f
      modOp s id (fun o => { o with job := o.job || f.scope = 2,
                                    given := mset .none o.given t (.fence f.arrival.toNat d d f.contribution) })

/-- The servo has locked: the arrivals that were held go to the combiner (R380). -/
def sendHeldFences (s : State) : State := s.each (List.range 64) (fun t s => sendFence s t)

/-- The map of a phase lights these bundles: their calibrations stop (R415). -/
def stopCalFor (s : State) (phase : Nat) : State :=
  s.each (List.range 8) (fun n s => s.each (List.range 32) (fun m s =>
    if entryMode (mapEntry s.itin.force phase n m) ≠ 0 then stopCal s n m else s))

/-- A fence of SCOPE TILE completes at its arrival (R288, R290, R381). -/
def tileFence (s : State) (t next : Nat) (seq : Word) : State :=
  let s := phaseLog s t s.time (s.tile t).phase 0 false false seq
  let s := phaseLog s t s.time next 1 false false seq
  s.modTile t (fun x => { x with phase := next, gateFail := false, fenceSeq := seq })

/-- A fence arrives (R288, R375, R380, R415). -/
def arriveFence (c : Cmd) (s : State) : State :=
  let l := c.line
  let s := phaseLog s c.t s.time (s.tile c.t).phase 0 false false (pfSeq l)
  let f : OpenFence :=
    { queue := c.g, idx := c.idx, next := pfNext l, scope := pfScope l, map := pfMap l, vote := pfVote l,
      seq := pfSeq l, arrival := BitVec.ofNat 64 s.time, contribution := pfVote l && nonfinite s c.t }
  let s := s.modTile c.t (fun x => { x with fence := some f })
  let s := s.modQueue c.g (fun q => { q with fence := true })
  let s := if f.map then stopCalFor s f.next else s
  if s.rc.servo.state = .unlocked then s else sendFence s c.t

/-- Issue of a fence (R287 to R289). -/
def issueFence (c : Cmd) (s : State) : Issued :=
  let l := c.line
  let scope := pfScope l
  if scope = 3 || (pfMap l && scope ≠ 2) || (pfVote l && scope = 0) then .fail { err := .encoding } s
  else if (s.tile c.t).fence.isSome then .fail { err := .fence } s
  else if scope = 0 then .done (tileFence s c.t (pfNext l) (pfSeq l))
  else .ready (arriveFence c s)

/-- PHASE_FENCE (R287 to R290). -/
def execPhaseFence (g : Fin 16384) (s : State) : Host.Outcome State Fault Refusal :=
  .next (issue s g.val (· = 0x0C) issueFence)

/-! ### Result and instant (R375, R376) -/

/-- Close a tile's fence: its queue goes on. -/
def closeFence (s : State) (t : Nat) (f : OpenFence) : State :=
  let s := s.modTile t (fun x => { x with fence := none })
  s.modQueue f.queue (fun q => { q with fence := false })

/-- The fence completes: the phase starts and the vote gate is set (R288, R290, R381). -/
def completeFence (s : State) (t : Nat) (f : OpenFence) (stamp : Nat) (late : Bool) : State :=
  let s := phaseLog s t stamp f.next 1 late f.failed f.seq
  let s := s.modTile t (fun x => { x with phase := f.next, gateFail := f.failed, fenceSeq := f.seq })
  let s := closeFence (if f.vote then selfFence s (tileParty s t) else s) t f
  finishCommand (if f.map then joinCopper s else s) f.queue f.idx

/-- The fence fails (R289, R381). -/
def failFence (s : State) (t : Nat) (f : OpenFence) : State :=
  let s := phaseLog s t s.time (s.tile t).phase 2 false false f.seq
  abortCommand (closeFence s t f) f.queue f.idx { err := .fence }

/-- A list of fences has an entry for a party's fence. -/
def seenFence (xs : List (Nat × Nat)) (p : Nat) (f : OpenFence) : Bool := xs.contains (p, f.seq.toNat)

/-- The failed vote of a fence is counted and posted once in the module (R290). -/
def voteFailed (s : State) (p : Nat) (f : OpenFence) : State :=
  if seenFence s.rc.votes p f then s
  else
    let votes := (p, f.seq.toNat) :: s.rc.votes
    let s := { s with rc := { s.rc with votes := votes } }
    post (s.count32 0x705C 1) 0x24 (srcDevice 4) (f.seq.toNat + 2 ^ 32 * f.next) p

/-- The stiles begin to follow the map of a fence, once in the module (R288, R407). -/
def mapOnce (s : State) (p : Nat) (f : OpenFence) (tf : Nat) : State :=
  if seenFence s.rc.mapFence p f then s
  else
    let done := (p, f.seq.toNat) :: s.rc.mapFence
    startRedraw { s with rc := { s.rc with mapFence := done } } f.next tf

/-- A late fence is counted and posted once in the module (R376). -/
def lateOnce (s : State) (p : Nat) (f : OpenFence) : State :=
  if seenFence s.rc.late p f then s
  else
    let done := (p, f.seq.toNat) :: s.rc.late
    let s := { s with rc := { s.rc with late := done } }
    post (s.count32 0x7058 1) 0x26 (srcDevice 4) (f.seq.toNat + 2 ^ 32 * (s.time % 2 ^ 64)) p

/-- LEAD of a scope (R375, R384). -/
def fenceLead (s : State) (scope : Nat) : Nat := if scope = 2 then s.field 0x7004 0 20 else s.field 0x7000 0 16

/-- The result of the combining reaches a tile (R375, R376). -/
def takeFence (s : State) (t : Nat) (f : OpenFence) (stamp : Nat) (vote : Bool) : State :=
  let p := tileParty s t
  let tf := stamp + fenceLead s f.scope
  let f := { f with failed := f.vote && vote }
  let s := if f.failed then voteFailed s p f else s
  let s := if f.map then mapOnce s p f tf else s
  if tf < s.time + (if f.map then 48 else 0) then
    completeFence (lateOnce s p f) t f s.time true
  else s.modTile t (fun x => { x with fence := some { f with instant := some tf } })

/-- FENCE_RESULT (R289, R375, R376). A fence whose MAP names an undefined phase fails (R405). -/
def execFenceResult (t : Fin 64) (s : State) : Host.Outcome State Fault Refusal :=
  match (s.tile t.val).fence with
  | none => .next s
  | some f =>
    if !active s || f.instant.isSome then .next s
    else
      match f.result with
      | none => .next s
      | some none => .next (failFence s t.val f)
      | some (some (stamp, vote)) =>
        if f.map && !phaseDefined s.itin.force f.next then .next (failFence s t.val f)
        else .next (takeFence s t.val f stamp vote)

/-- FENCE_INSTANT (R288, R290, R375). -/
def execFenceInstant (t : Fin 64) (s : State) : Host.Outcome State Fault Refusal :=
  match (s.tile t.val).fence with
  | none => .next s
  | some f =>
    match f.instant with
    | none => .next s
    | some tf =>
      if !active s then .next s
      else .next (completeFence (passToTime s tf) t.val f tf false)

end Sys2Proof.Machine
end

