-- ==== Sys2Proof/Machine/Taster.lean ====
section
/-! DEFINITION. The taster: recomputation, statistics and watches (spec/04 R161 to R175). -/

namespace Sys2Proof.Machine

open Sys2Proof

/-- A sample leaves the buffer of its bank (R168). -/
def releaseSample (s : State) (t : Nat) (engine bank queue : Nat) (idx : Word) : State :=
  let i := 4 * t + engine
  let b := bankNo i bank
  let k := s.bank b
  let s := s.setBank b { k with samples := k.samples - 1 }
  match passOf s i queue idx with
  | some p => modPass s i p (fun y => { y with samples := y.samples - 1 })
  | none => s

/-- Exact sum of products, rounded once to KF32 (R167). -/
def exactSum (ps : List Num) : Num :=
  decodeNum .kf32 (encodeNum .kf32 .rne 0 (ps.foldl Num.add .zero)).1

/-- The reference operand of a sample: the KF16 copy that SREF names, or the decoded operand (R165). -/
def refOperand (s : State) (t : Nat) (p : Pass) (k : Sample) : Option Stationary × State :=
  match k.stat with
  | some st => (some st, s)
  | none =>
    let slot := match p.stat with
      | some st => st.sref
      | none => none
    match slot.bind (passDesc p) with
    | none => (none, s)
    | some d =>
      match loadElems s t d 0 (mpRows p.line * mpCols p.line) with
      | (.error _, s) => (none, s)
      | (.ok cs, s) =>
        (some { tag := 0, fmt := 1, rows := mpRows p.line, cols := mpCols p.line,
                elems := intoRows (mpCols p.line) (mpRows p.line) (cs.map (decodeNum .kf16)) }, s)

/-- Reference results of a sample; nothing when one of its own reference reads meets a line that cannot be read or an
offset that has left the map (R166, R167, R189). -/
def recompute (s : State) (t : Nat) (p : Pass) (k : Sample) : Option (List Num) × State :=
  let l := p.line
  match passDesc p (mrefSlot l) with
  | none => (none, s)
  | some m =>
    match loadElems s t m (k.order * mpLen l) (mpLen l) with
    | (.error _, s) => (none, s)
    | (.ok xs, s) =>
      match refOperand s t p k with
      | (none, s) => (none, s)
      | (some st, s) =>
        let x := xs.map (decodeNum .kf16)
        (some ((List.range (mpWidth l)).map (fun n => exactSum (products st l x n))), s)

/-- TASTER_RECOMPUTE (R166 to R168): the vector unit recomputes the oldest captured sample. -/
def execTasterRecompute (t : Fin 64) (s : State) : Host.Outcome State Fault Refusal :=
  match (s.tile t.val).samples with
  | [] => .next s
  | k :: ks =>
    if !active s then .next s
    else
      let s := s.modTile t.val (fun x => { x with samples := ks })
      match passOf s (4 * t.val + k.engine) k.queue k.idx with
      | none => .next s
      | some p =>
        let cycles := (mpLen p.line * mpWidth p.line + 2047) / 2048
        let s := ((s.count64 (tilA t.val 0x5028) cycles).count64 (tilA t.val 0x5030) cycles)
        let s := vecWork s t.val cycles
        let (r, s) := recompute s t.val p k
        let s := match r with
          | some refs => s.modTile t.val (fun x => { x with results := x.results ++
              [{ engine := k.engine, bank := k.bank, queue := k.queue, idx := k.idx, watch := k.watch,
                 sums := k.sums, refs, decoded := k.stat.isSome }] })
          | none => admitReady (releaseSample (s.count32 (watchA t.val k.watch 0x14) 1) t.val k.engine k.bank k.queue k.idx)
              (4 * t.val + k.engine)
        .next s

/-! ### Statistics (R169 to R171) -/

/-- A KF32 square, and the quotient of KF32 values that are not zero, rounded by RNE. -/
def squareKf32 (x : Num) : Num := decodeNum .kf32 (encodeNum .kf32 .rne 0 (x.mul x)).1
def divKf32 : Num → Num → Num
  | .fin s m e, .fin t n f =>
    if m = 0 then .zero
    else decodeNum .kf32 (encodeMag .kf32 .rne 0 (s != t) (Mag.ratio m n (e - f))).1
  | _, _ => .nan false

/-- How a sample is recorded: no bin for a non-finite one, else its bin and Q where Q is formed (R169). -/
def sampleBin (qs ps : List Num) : Option (Nat × Option Num) :=
  let e := treeSum ((qs.zip ps).map (fun x => squareKf32 (addKf32 x.1 x.2.negate)))
  let r := treeSum (ps.map squareKf32)
  if !(qs.all Num.isFinite && ps.all Num.isFinite && e.isFinite && r.isFinite) then none
  else if r.isZero then some (if e.isZero then 15 else 0, none)
  else
    match divKf32 e r with
    | .fin _ m x =>
      if m = 0 then some (15, some .zero)
      else
        let lead : Int := Nat.log2 m + x
        let bin := if -2 ≤ lead then 0 else if lead < -30 then 15 else ((-lead - 1) / 2).toNat
        some (bin, some (.fin false m x))
    | _ => none

/-- Add 1 to OVER, and trip the watch when it reaches TRIP_COUNT (R171). -/
def countOver (s : State) (t w : Nat) : State :=
  let s := s.count32 (watchA t w 0x0C) 1
  let total := (s.reg (watchA t w 0x0C)).toNat
  let trip := s.field (watchA t w 0) 16 16
  if trip ≠ 0 && trip ≤ total && s.field (watchA t w 4) 0 1 = 0 then
    post (s.setField (watchA t w 4) 0 1 1) 0x23 (srcTile t 6)
      (t + 2 ^ 8 * w + 2 ^ 32 * total + 2 ^ 64 * (s.reg (watchA t w 8)).toNat) (tileParty s t)
  else s

/-- Record a sample in its watch (R169). -/
def recordSample (s : State) (t : Nat) (r : TasterResult) : State :=
  let w := r.watch
  let s := if r.decoded then s.count32 (watchA t w 0x18) 1 else s
  let s := s.count32 (watchA t w 0x08) 1
  match sampleBin r.sums r.refs with
  | none => countOver (s.count32 (watchA t w 0x10) 1) t w
  | some (bin, q) =>
    let s := s.count32 (watchA t w (0x20 + 4 * bin)) 1
    let s := match q with
      | some v =>
        let code := (encodeNum .kf32 .rne 0 v).1
        if (s.reg (watchA t w 0x1C)).toNat < code then s.setReg (watchA t w 0x1C) (BitVec.ofNat 32 code) else s
      | none => s
    if bin ≤ s.field (watchA t w 0) 4 4 then countOver s t w else s

/-- TASTER_SAMPLE_RECORD (R168 to R171): the oldest recomputed sample is recorded and released. -/
def execTasterSampleRecord (t : Fin 64) (s : State) : Host.Outcome State Fault Refusal :=
  match (s.tile t.val).results with
  | [] => .next s
  | r :: rs =>
    if !active s then .next s
    else
      let s := recordSample (s.modTile t.val (fun x => { x with results := rs })) t.val r
      .next (admitReady (releaseSample s t.val r.engine r.bank r.queue r.idx) (4 * t.val + r.engine))

/-- Clear the statistics of a watch (R175). -/
def clearWatch (s : State) (t w : Nat) : State :=
  s.each ((List.range 23).map (fun k => 4 + 4 * k)) (fun o s => s.setReg (watchA t w o) 0)

/-- WATCH_CLEAR (R175). -/
def execWatchClear (p : Path) (t : Fin 64) (w : Fin 256) (s : State) : Host.Outcome State Fault Refusal :=
  .next (ownerWrite s p (watchA t.val w.val 4) 0x80000000 (fun s => clearWatch s t.val w.val))

/-- TASTE_FOLD (R172). -/
def execTasteFold (p : Path) (t : Fin 64) (s : State) : Host.Outcome State Fault Refusal :=
  .next (ownerWrite s p (tilA t.val 0x2C04) 1 (fun s => s.foldReg (tilA t.val 0x2C00)))

end Sys2Proof.Machine
end

