-- ==== Sys2Proof/Machine/SecFaults.lean ====
section
/-! DEFINITION. Security faults as they are reported (spec/16_security.md R601 to R604). -/

namespace Sys2Proof.Machine

open Sys2Proof

/-- SECURITY_FAULT with a code, the named block and a detail (R602, R604); the source is the active module. -/
def secFault (s : State) (code block detail : Nat) : State :=
  let s := s.setReg (secA 0x10) (BitVec.ofNat 32 (code % 256 + 256 * (block % 65536)))
  let s := s.count32 (secA 0x14) 1
  post s 0x80 (srcSecurity (s.sec.active % 2)) (code % 256 + 2 ^ 8 * (block % 65536) + 2 ^ 32 * (detail % 2 ^ 32))

end Sys2Proof.Machine
end

