-- ==== Sys2Proof/Machine/HostPort.lean ====
section
/-! DEFINITION. The host ports: configuration requests, the data window, line buffers, doorbells and resets
(spec/11_copper_and_host.md R440 to R449, spec/18 R639). -/

namespace Sys2Proof.Machine

open Sys2Proof

/-! ### Functions -/

/-- The path of a function. -/
def fnPath (f : Fn) : Path :=
  if h : f.vf.val = 0 then .pf f.port
  else .vf f.port ⟨f.vf.val - 1, by omega⟩

/-- The function of a path, for host accesses. -/
def pathFn? : Path → Option Fn
  | .pf h => some { port := h, vf := 0 }
  | .vf port p => some { port, vf := ⟨p.val + 1, Nat.succ_lt_succ p.isLt⟩ }
  | .msg _ => none

/-- All functions of a port. -/
def portFns (h : Fin 2) : List Fn := (List.range 17).map (fun v => { port := h, vf := Fin.ofNat 17 v })

/-- The function exists: a VF once SR-IOV is enabled (R442). -/
def fnExists (s : State) (f : Fn) : Bool := f.vf = 0 || (s.fn { port := f.port, vf := 0 }).vfEnable

/-! ### Configuration requests (R441, R442, R515, R639) -/

/-- Bits of a base address register that hold an address: a 64-bit BAR0 of 4 GiB or 4 MiB, a 64-bit BAR2 of 64 GiB,
and BAR4 of 64 KiB; and its type bits. -/
def barMask (f : Fn) (i : Nat) : Nat :=
  match i with
  | 0 => if f.vf = 0 then 0 else 2 ^ 32 - 2 ^ 22
  | 2 => 0
  | 3 => 2 ^ 32 - 2 ^ 4
  | 4 => 2 ^ 32 - 2 ^ 16
  | _ => 2 ^ 32 - 1
def barType (i : Nat) : Nat :=
  match i with
  | 0 => 4
  | 2 => 0xC
  | 4 => 4
  | _ => 0

/-- MODULE_REV (R638, R639). -/
def moduleRev : Nat := Config.moduleRev.toNat

/-- What a configuration read returns. A VF's own vendor and device words read all ones, as PCI Express has them
(PRESUMED, assumption log entry 52). -/
def configRead (s : State) (f : Fn) : ConfigReg → List Nat
  | .ids => [if f.vf = 0 then 0x64721F1B else 0xFFFFFFFF]
  | .classRev => [0x120000B1]
  | .subsystem => [0x1F1B + 65536 * moduleRev]
  | .vfDevice => [0x6473]
  | .command => [2 * (s.fn f).memEnable.toNat + 4 * (s.fn f).busMaster.toNat]
  | .msixControl => [2 ^ 14 * (s.fn f).fnMask.toNat + 2 ^ 15 * (s.fn f).msixEnable.toNat]
  | .sriovControl => [(s.fn f).vfEnable.toNat, 16, 1, 1]
  | .bar i => [(mget 0 (s.fn f).bar i.val).toNat % 2 ^ 32 + barType i.val]

/-- What a configuration write does; an enable lets waiting interrupts go (R515, R518). -/
def configWrite (s : State) (f : Fn) (v : Word) : ConfigReg → State
  | .command =>
    let s := s.setFn f { s.fn f with memEnable := bits v.toNat 1 1 = 1, busMaster := bits v.toNat 2 1 = 1 }
    flushPending (releaseAll s) f
  | .msixControl =>
    let s := s.setFn f { s.fn f with fnMask := bits v.toNat 14 1 = 1, msixEnable := bits v.toNat 15 1 = 1 }
    flushPending (releaseAll s) f
  | .sriovControl =>
    if f.vf ≠ 0 then s
    else
      let on := bits v.toNat 0 1 = 1
      let s := s.setFn f { s.fn f with vfEnable := on }
      if on then s else ((portFns f.port).drop 1).foldl (fun s g => s.setFn g {}) s
  | .bar i =>
    let x := s.fn f
    s.setFn f { x with bar := mset 0 x.bar i.val (BitVec.ofNat 32 (v.toNat &&& barMask f i.val)) }
  | _ => s

/-- CONFIG_REQUEST (R441, R442). -/
def execConfigRequest (f : Fn) (reg : ConfigReg) (write : Option Word) (s : State) :
    Host.Outcome State Fault Refusal :=
  if !s.power.pwrgd then .next s
  else if s.field (hostA f.port.val 0) 9 1 = 0 then .next (answer s .retry)
  else if !fnExists s f then .next (answer s .unsupported)
  else
    match write with
    | none => .next (answer s .ok ((configRead s f reg).map (BitVec.ofNat 32)))
    | some v => .next (answer (configWrite s f v reg) .ok)

/-- HOST_LINK_UP (R440, R462): the port's data link layer comes up at a speed code and width. -/
def execHostLinkUp (h : Fin 2) (speed width : Nat) (s : State) : Host.Outcome State Fault Refusal :=
  if s.power.pwrgd && s.field (hbgA (0x100 + 4 * h.val)) 0 2 = 1 && 1 ≤ speed && speed ≤ 6 &&
      [1, 2, 4, 8, 16].contains width then
    .next (((s.setField (hostA h.val 0) 0 1 1).setField (hostA h.val 0) 1 3 speed).setField (hostA h.val 0) 4 5 width)
  else .next s

/-! ### The data window (R443) -/

/-- Tile and offset of a data-window offset. -/
def windowTile (o : Nat) : Nat := bits o 30 6
def windowOff (o : Nat) : Option Nat :=
  let x := o % 2 ^ 30
  if x < 0x6000000 then some x
  else if 0x10000000 ≤ x && x < 0x34000000 then some (0x100000000 + (x - 0x10000000))
  else none

/-- Tile-local offset that the access may reach: mapped memory, once the first fold has created party 0, of a tile that
a VF's party holds (R178, R443, R626). -/
def windowLine (s : State) (f : Fn) (o : Nat) : Option (Nat × Nat) :=
  let t := windowTile o
  match windowOff o with
  | none => none
  | some off =>
    if !s.itin.folded || !mapped s t off then none
    else if f.vf = 0 || (partyExists s (fnParty f) && tileParty s t = fnParty f) then some (t, off)
    else none

/-- ACCESS_ERROR of a data-window access; the spec gives that window no code, so its code is free (assumption log
entry 51). -/
def windowError (s : State) (f : Fn) (o reason : Nat) : State :=
  post s.used 0x02 (srcDevice 0)
    (o % 2 ^ 32 + 2 ^ 32 * (s.free % 4) + 2 ^ 34 * pathBits (fnPath f) + 2 ^ 44 * reason)

/-- Lines of the data window that `n` bytes from `o` touch. -/
def windowLines (o n : Nat) : List Nat := (List.range ((o + n + 63) / 64 - o / 64)).map (fun i => o / 64 + i)

/-! ### Line buffers (R444, R445) -/

/-- Discard a partly filled buffer: 0 idle, 1 65th buffer, 2 doorbell or tally write, 3 reset or link down. -/
def discardBuffer (s : State) (f : Fn) (b : LineBuf) (cause : Nat) : State :=
  let h := s.host f
  let s := s.setHost f { h with buffers := h.buffers.erase b }
  let s := s.count32 (hostA f.port.val 0x18) 1
  post s 0x61 (srcBridge f.port.val 0) (b.line % 2 ^ 30 + 2 ^ 30 * cause + 2 ^ 32 * b.mask.toNat) (fnParty f)

/-- Discard every partial buffer of a function. -/
def discardAll (s : State) (f : Fn) (cause : Nat) : State :=
  (s.host f).buffers.foldl (fun s b => discardBuffer s f b cause) s

/-- A full line goes to its tile. -/
def sendFull (s : State) (f : Fn) (line : Nat) (l : Line) : State :=
  match windowOff (64 * line) with
  | none => s
  | some off =>
    let t := windowTile (64 * line)
    let h := s.host f
    let s := s.setHost f { h with unacked := h.unacked ++ [h.serial], serial := h.serial + 1 }
    let s := s.count64 (hostA f.port.val 8) 1
    sendPacket s (.bridge f.port) (.hostWrite f h.serial)
      { ty := tyWrite, vc := s.field (hbgA 0x110) 0 2, dstModule := myModule s, dstTile := t, party := fnParty f,
        addr := tileAddr t off, payload := [l] }

/-- Bytes of a line that a write at `o` brings, put over a buffer. -/
def fillBuffer (b : LineBuf) (o : Nat) (bs : List Byte) : LineBuf :=
  ((List.range bs.length).zip bs).foldl (fun (b : LineBuf) x =>
    let a := o + x.1
    if a / 64 = b.line then
      { b with mask := b.mask ||| BitVec.ofNat 64 (2 ^ (a % 64)),
               data := BitVec.ofNat 512 (putBits b.data.toNat (8 * (a % 64)) 8 x.2.toNat) }
    else b) b

/-- The bytes of a write that fall into one line. -/
def writeBuffer (f : Fn) (o : Nat) (bs : List Byte) (s : State) (line : Nat) : State :=
  let h := s.host f
  match h.buffers.find? (fun b => b.line = line) with
  | some b =>
    let b' : LineBuf := { fillBuffer b o bs with last := s.now }
    if b'.mask = BitVec.allOnes 64 then
      sendFull (s.setHost f { h with buffers := h.buffers.erase b }) f line b'.data
    else s.setHost f { h with buffers := h.buffers.map (fun x => if x.line = line then b' else x) }
  | none =>
    let b := fillBuffer { line, born := s.now, last := s.now } o bs
    if b.mask = BitVec.allOnes 64 then sendFull s f line b.data
    else
      let s := match h.buffers with
        | old :: _ => if 64 ≤ h.buffers.length then discardBuffer s f old 1 else s
        | [] => s
      let h := s.host f
      s.setHost f { h with buffers := h.buffers ++ [b] }

/-- Data-window traffic of a function reaches the bridge now (R442, R626). -/
def windowDead (s : State) (f : Fn) : Bool := pathSilent s (fnPath f) || !fnExists s f

/-- HOST_WRITE_TLP (R443, R444, R569, R595). -/
def execHostWriteTlp (f : Fn) (offset : Nat) (bytes : List Byte) (s : State) : Host.Outcome State Fault Refusal :=
  let ls := windowLines offset bytes.length
  if windowDead s f || bytes = [] then .next s
  else if pathClosed s (fnPath f) then .next (answer s .unsupported)
  else if s.safe.active then .next (answer (windowError s f offset 2) .ok)
  else if ls.any (fun l => (windowLine s f (64 * l)).isNone) then .next (answer (windowError s f offset 1) .ok)
  else .next (answer (ls.foldl (writeBuffer f offset bytes) s) .ok)

/-- LINE_BUFFER_TIMEOUT (R445): 1 µs with no write to the buffer. -/
def execLineBufferTimeout (f : Fn) (line : Nat) (s : State) : Host.Outcome State Fault Refusal :=
  match (s.host f).buffers.find? (fun b => b.line = line) with
  | some b => .next (discardBuffer (s.passTo (b.last + 1000)) f b 0)
  | none => .next s

/-! ### Reads (R447, R569) -/

/-- Reads of a function under way at a time: 256 non-posted requests (R440). -/
def readLimit : Nat := 256

/-- In the safe state, when no packet moves, the bridge returns the retained lines itself (R569). -/
def retainedRead (s : State) (f : Fn) (o n : Nat) (ls : List Nat) : State :=
  let at_ := ls.filterMap (fun l => windowLine s f (64 * l))
  let (got, s) := at_.foldl (fun (acc : List (Option Line) × State) x =>
    let (l, s) := readLine acc.2 x.1 x.2
    (acc.1 ++ [l], s)) ([], s)
  let lines := ((List.range got.length).zip got).foldl (fun m x => mset none m x.1 (some (x.2.getD 0))) []
  let r : HostRead := { id := 0, offset := o, length := n, lines, left := 0 }
  (s.count64 (hostA f.port.val 0x10) ls.length).emit (.completion f .ok (readBytes r) (got.any (·.isNone)))

/-- READ_REQ packets of a read, at most 64 lines each. -/
def askHost (s : State) (f : Fn) (id : Nat) (offs : List (Nat × Nat)) : State :=
  (lineRuns 64 0 (offs.map (·.2))).foldl (fun s r =>
    let t := (offs.headD (0, 0)).1
    sendPacket s (.bridge f.port) (.hostRead f id)
      { ty := tyReadReq, vc := s.field (hbgA 0x110) 0 2, dstModule := myModule s, dstTile := t, party := fnParty f,
        addr := tileAddr t (r.2.headD 0), aux := r.2.length, payload := [BitVec.ofNat 512 (64 * r.1)] }) s

/-- HOST_READ_TLP (R440, R443, R447, R569, R595). The port takes no further read while 256 of the function are under way;
the host's link holds it back (assumption log entry 168). -/
def execHostReadTlp (f : Fn) (offset length : Nat) (s : State) : Host.Outcome State Fault Refusal :=
  let ls := windowLines offset length
  if windowDead s f || length = 0 then .next s
  else if pathClosed s (fnPath f) then .next (s.emit (.completion f .unsupported [] false))
  else if ls.any (fun l => (windowLine s f (64 * l)).isNone) then
    .next ((windowError s f offset 1).emit (.completion f .ok (List.replicate length 0) false))
  else if s.safe.active then .next (retainedRead s f offset length ls)
  else
    let h := s.host f
    let id := h.serial
    if readLimit ≤ h.reads.length then .next s
    else
      let s := s.setHost f { h with
        serial := id + 1, reads := h.reads ++ [{ id, offset, length, left := ls.length }] }
      .next (askHost s f id (ls.filterMap (fun l => windowLine s f (64 * l))))

/-! ### Doorbells and tallies (R260, R275, R308, R446) -/

/-- A write of a doorbell or tally register of the page: a function's waits for its lines (R446). -/
def pageWrite (s : State) (p : Path) (page : Nat) (v : Word) : State :=
  match pathFn? p with
  | none => pageEffect s page v
  | some f =>
    let s := discardAll s f 2
    let h := s.host f
    hostSettle (s.setHost f { h with waiting := h.waiting ++ [{ path := p, page, data := v, after := h.unacked }] }) f

/-- DOORBELL_WRITE (R260, R446). -/
def execDoorbellWrite (p : Path) (g : Fin 16384) (v : Word) (s : State) : Host.Outcome State Fault Refusal :=
  .next (queueWrite s p g.val 0 v (fun s => pageWrite s p (0x80 * g.val) v))

/-- A write to a tally register, through the page of the path's party or, for a master, of the tile's (R275). -/
def tallyRegWrite (s : State) (p : Path) (k o : Nat) (v : Word) : State :=
  let t := k / 2048
  let off := 0x200000 + 16 * k + o
  let effect := fun (s : State) => pageWrite s p off v
  match p with
  | .vf _ q =>
    partyWrite s p q.val off v (fun s =>
      if tileParty s t = q.val then effect s else accessError s { path := p, off } 1)
  | _ => partyWrite s p (tileParty s t) off v effect

/-- TALLY_VALUE_WRITE (R275, R446). -/
def execTallyValueWrite (p : Path) (k : Fin 131072) (v : Word) (s : State) : Host.Outcome State Fault Refusal :=
  .next (tallyRegWrite s p k.val 0 v)

/-- TALLY_ADD_WRITE (R275, R446). -/
def execTallyAddWrite (p : Path) (k : Fin 131072) (v : Word) (s : State) : Host.Outcome State Fault Refusal :=
  .next (tallyRegWrite s p k.val 4 v)

/-! ### Resets (R449) -/

/-- An IDE stream leaves the Secure state (R595). -/
def ideLost (s : State) (f : Fn) : State :=
  let x := s.fn f
  if x.ide then
    let s := { s with sec := { s.sec with ports := mset false s.sec.ports f.id false } }
    secFault (s.setFn f { x with ide := false }) 0x07 (srcBridge f.port.val 0) 0
  else s

/-- A function is reset: its partial buffers go, its reads in flight are dropped, its configuration returns to its
reset values; doorbells that it had written still wait for their lines; the rings it serves are disabled (R527). -/
def resetFn (s : State) (f : Fn) : State :=
  let s := discardAll s f 3
  let s := s.setHost f { s.host f with reads := [] }
  let s := s.each ((List.range 17).filter (fun r => ringFn s r = f)) (fun r s =>
    s.setRing r { s.ring r with enable := false, timer := none, held := false, bypass := false })
  s.setFn f { ide := (s.fn f).ide }

/-- The functions of an event, its kind of R529, and whether the link goes down. -/
def eventFns : HostEvent → List Fn
  | .perst h => portFns h
  | .hotReset h => portFns h
  | .linkDown h => portFns h
  | .flr f => if f.vf = 0 then portFns f.port else [f]
def eventKind : HostEvent → Nat
  | .perst _ => 0 | .hotReset _ => 1 | .linkDown _ => 2 | .flr _ => 3
def eventFn : HostEvent → Fn
  | .perst h => { port := h, vf := 0 }
  | .hotReset h => { port := h, vf := 0 }
  | .linkDown h => { port := h, vf := 0 }
  | .flr f => f

/-- A host port loses the traffic of its functions (R449, R498). -/
def hostReset (s : State) (e : HostEvent) : State :=
  let f := eventFn e
  let link := eventKind e < 3
  let fs := eventFns e
  let s := if link then (fs.filter (fun g => (s.fn g).ide)).take 1 |>.foldl ideLost s else s
  let s := fs.foldl resetFn s
  let s := if link then
      fs.foldl (fun s g => s.setFn g {}) (s.setReg (hostA f.port.val 0) (s.reg (hostA f.port.val 0) &&& 0x200))
    else s
  let s := s.count32 (hostA f.port.val 0x1C) 1
  let s := post s 0x63 (srcBridge f.port.val 0) (eventKind e + 4 * f.vf.val)
  if f.vf = 0 then pathLost s f.port.val else s

/-- HOST_PORT_RESET (R449). -/
def execHostPortReset (event : HostEvent) (s : State) : Host.Outcome State Fault Refusal :=
  if s.power.pwrgd then .next (hostReset s event) else .next s

end Sys2Proof.Machine
end

