-- ==== Sys2Proof/Machine/Rucksack.lean ====
section
/-! DEFINITION. The rucksack: checkpoints, restores, self-checkpoints, seals, images moved to and from a host, and the
logbook (spec/15_resilience.md R542 to R560, R575, R576; spec/16 R598).

Commands hand whole pieces and records to the rucksack as they issue, in WRITE packets to the staging range of their
half's bridge; what the rucksack gives back comes in WRITE packets of the bridge (R543; assumption log entry 57). -/

namespace Sys2Proof.Machine

open Sys2Proof

/-! ### Halves and generations (R530, R542, R547) -/

/-- The half that serves a tile. -/
def halfOf (t : Nat) : Nat := if t / 8 < 4 then 0 else 1

/-- Bytes of a half's CHECKPOINT and LOGBOOK areas. -/
def checkpointArea : Nat := 1912 * 2 ^ 30
def logArea : Nat := 128 * 2 ^ 30

/-- `a` is newer than `b` (R530). -/
def newerGen (a b : Word) : Bool := a ≠ b && (a - b).toNat < 2 ^ 31

/-- Generations of a party, oldest first, and its sealed ones. -/
def partyGens (s : State) (p : Nat) : List Gen := s.rk.gens.filter (fun g => g.party = p)
def sealedGens (s : State) (p : Nat) : List Gen := (partyGens s p).filter (·.sealed)
def newestSealed (s : State) (p : Nat) : Option Gen := (sealedGens s p).getLast?

/-- Replace a generation of a party by its number. -/
def putGen (s : State) (x : Gen) : State :=
  { s with rk := { s.rk with gens := s.rk.gens.map (fun g => if g.party = x.party && g.gen = x.gen then x else g) } }

/-- A line holds data. -/
def StoredLine.holds : StoredLine → Bool
  | .stored _ => true
  | _ => false

/-- Lines stored, omitted and lost of a piece or record. -/
def countStored (ls : List StoredLine) : Nat := (ls.filter StoredLine.holds).length
def countOmitted (ls : List StoredLine) : Nat := (ls.filter (fun x => x = .omitted)).length
def countLost (ls : List StoredLine) : Nat := (ls.filter (fun x => x = .lost)).length

/-- Bytes of pieces in half `h`, and bytes in use there. -/
def pieceBytes (h : Nat) (ps : List Piece) : Nat :=
  (ps.filter (fun x => halfOf x.tile = h)).foldl (fun n x => n + 64 * countStored x.lines) 0
def inWork (s : State) (h : Nat) : Nat :=
  s.rk.programming.foldl (fun n x => match x.work with
    | .piece _ _ y => n + pieceBytes h [y]
    | .record _ => n) 0
def usedIn (s : State) (h : Nat) : Nat := s.rk.gens.foldl (fun n g => n + pieceBytes h g.pieces) (inWork s h)

/-- Erase a party's oldest sealed generations, one after the other and never its newest, until `need` bytes fit in
half `h` (R551). -/
def makeRoom (s : State) (p h need : Nat) : Option State :=
  let fits := fun (s : State) => decide (usedIn s h + need ≤ checkpointArea)
  let s := (sealedGens s p).dropLast.foldl (fun s g =>
    if fits s then s else { s with rk := { s.rk with gens := s.rk.gens.erase g } }) s
  if fits s then some s else none

/-- Count what a half has programmed (R575). -/
def countWritten (s : State) (h n : Nat) : State :=
  let s := { s with rk := { s.rk with wrote := mset 0 s.rk.wrote h (mget 0 s.rk.wrote h + n) } }
  s.count64 (hbgA 0x10010) n

/-! ### Reading and writing a walk's lines (R548, R550) -/

/-- The lines of a descriptor's walk, each once, in the order in which the walk first reaches it. -/
def uniqueLines (d : Desc) : List Nat := (walkLines d).eraseDups

/-- The lines of a walk as they are stored. A checkpoint (`stash`) omits the stash and reads with STREAM (R209, R544,
R548); a LOGBOOK WRITE reads with its descriptor's hint (R186). -/
def captureLines (s : State) (t : Nat) (d : Desc) (stash : Bool) : List StoredLine × State :=
  let offs := uniqueLines d
  let taken := offs.filter (fun off => !(stash && inStash s t off))
  let (ls, s) := readLines s t taken (if stash then .stream else Hint.ofCode d.hint)
  (offs.map (fun off =>
    if taken.contains off then
      match ls.getD (taken.findIdx (· = off)) none with
      | some l => .stored l
      | none => .lost
    else .omitted), s)

/-! ### Packets between a tile and its half (R250, R543) -/

/-- The data of a stored line. -/
def StoredLine.line? : StoredLine → Option Line
  | .stored l => some l
  | _ => none

/-- A tile hands lines to its half in WRITE slots: WRITE packets of up to four lines to the staging range of the bridge.
Where in that range they go, and on which VC, are free values (assumption log entry 57). -/
def stageLines (s : State) (t : Nat) (why : Purpose) (ls : List StoredLine) : State :=
  let held := ls.filterMap StoredLine.line?
  let k := s.free
  (List.range ((held.length + 3) / 4)).foldl (fun s i =>
    sendPacket s (.tile (Fin.ofNat 64 t)) why
      { ty := tyWrite, vc := k % 4, dstModule := myModule s, dstKind := 1, dstTile := halfOf t, party := tileParty s t,
        addr := 256 * (k / 4 + i) % 2 ^ 26, payload := (held.drop (4 * i)).take 4 })
    (s.used.count64 (tilA t 0x4048) held.length)

/-- The lines that a piece or record stores, at a walk's offsets. -/
def returnedLines (offs : List Nat) (ls : List StoredLine) : List (Nat × Line) :=
  (offs.zip ls).filterMap (fun x => (StoredLine.line? x.2).map (fun l => (x.1, l)))

/-- The half of a tile returns lines to it: WRITE packets from the bridge, which the tile takes in REMOTE slots. Their VC
is a free value (assumption log entry 57). -/
def returnLines (s : State) (t g : Nat) (idx : Word) (ls : List (Nat × Line)) : State :=
  let k := s.free
  (lineRuns 4 0 (ls.map (·.1))).foldl (fun s r =>
    sendPacket s (.bridge (Fin.ofNat 2 (halfOf t))) (.restore g idx)
      { ty := tyWrite, vc := k % 4, dstModule := myModule s, dstTile := t, party := tileParty s t,
        addr := tileAddr t (r.2.headD 0), payload := ((ls.drop r.1).take r.2.length).map (·.2) }) s.used

/-! ### Codewords that cannot be read (R545) -/

/-- The stored lines of a piece fill codewords of 4 KiB in order (DESIGN CHOICE, assumption log entry 103); those of a
codeword in `bad`, which fails after read retry, are recorded lost. The first line is the `n`-th stored one. -/
def loseLines (bad : List Nat) : Nat → List StoredLine → List StoredLine
  | _, [] => []
  | n, .stored l :: xs => (if bad.contains (n / 64) then .lost else .stored l) :: loseLines bad (n + 1) xs
  | n, x :: xs => x :: loseLines bad n xs

/-- Codewords among those of `n` stored lines that fail. -/
def failedWords (bad : List Nat) (n : Nat) : Nat := ((List.range ((n + 63) / 64)).filter bad.contains).length

/-- Failed codewords of a half count in its RUCKSACK category, and their lines as lost (R540, R575). -/
def countFailed (s : State) (h words lost : Nat) : State :=
  ({ s with rk := { s.rk with faults := mset 0 s.rk.faults h (mget 0 s.rk.faults h + words) } } : State).count32
    (hbgA 0x1001C) lost

/-- A half reads back the lines of a piece or record. -/
def readBack (s : State) (h : Nat) (bad : List Nat) (ls : List StoredLine) : State :=
  countFailed s h (failedWords bad (countStored ls)) (countStored ls - countStored (loseLines bad 0 ls))

/-! ### CHECKPOINT (R546 to R549, R551) -/

/-- Fields of CHECKPOINT and RESTORE. -/
def ckOp (l : Line) : Nat := lineField l 0x10 0 2
def ckGen (l : Line) : Word := BitVec.ofNat 32 (lineWord l 0x14)
def ckSlot (l : Line) : Nat := lineField l 0x18 0 24
def ckKey (l : Line) : Word := BitVec.ofNat 32 (lineWord l 0x1C)

/-- A tile has written a KEY into the party's generation, or is writing it. -/
def keyTaken (s : State) (x : Gen) (t : Nat) (key : Word) : Bool :=
  x.pieces.any (fun y => y.tile = t && y.key = key) ||
  s.rk.programming.any (fun w => match w.work with
    | .piece p g y => p = x.party && g = x.gen && y.tile = t && y.key = key
    | .record _ => false)

/-- The rules of R547 for a WRITE. -/
def writeAllowed (s : State) (p t : Nat) (g key : Word) : Bool :=
  match openGen s p with
  | some x => x.gen = g && !keyTaken s x t key
  | none => (partyGens s p).all (fun x => newerGen g x.gen)

/-- Let the rucksack program what a command hands it. -/
def programWork (s : State) (c : Cmd) (w : RkWork) : State :=
  { s with rk := { s.rk with programming := s.rk.programming ++ [{ queue := c.g, idx := c.idx, work := w }] } }

/-- A WRITE whose checks have passed: its generation is opened if none is, space is made, its lines are taken. -/
def writePiece (c : Cmd) (p : Nat) (d : Desc) (s : State) : Issued :=
  let l := c.line
  let (ls, s') := captureLines s c.t d true
  let piece : Piece := { tile := c.t, key := ckKey l, desc := slotLine s c.t c.copies (ckSlot l), lines := ls }
  match makeRoom s' p (halfOf c.t) (64 * countStored ls) with
  | none => .fail { err := .address } s
  | some s =>
    let s := if (openGen s p).isSome then s
      else { s with rk := { s.rk with gens := s.rk.gens ++ [{ party := p, gen := ckGen l }] } }
    .run (stageLines (programWork s c (.piece p (ckGen l) piece)) c.t (.command c.g c.idx) ls)

/-- Issue of CHECKPOINT: a SEAL that passes its checks stands until SEAL_ACCEPT (R549). -/
def issueCheckpoint (c : Cmd) (s : State) : Issued :=
  let l := c.line
  let p := tileParty s c.t
  if 2 ≤ ckOp l || ckGen l = 0xFFFFFFFF then .fail { err := .encoding } s
  else if ckOp l = 1 then
    (if (openGen s p).any (fun x => x.gen = ckGen l) then .wait else .fail { err := .encoding } s)
  else if !writeAllowed s p c.t (ckGen l) (ckKey l) then .fail { err := .encoding } s
  else if inScratch s c.t (64 * ckSlot l) && !lineReady s c.t (64 * ckSlot l) then .wait
  else
    match useDesc s c.t c.copies 0 (ckSlot l) { tile := some c.t } with
    | (.error e, s) => .fail e s
    | (.ok d, s) => if descReady s c.t d then writePiece c p d s else .wait

/-- CHECKPOINT (R546 to R548). -/
def execCheckpoint (g : Fin 16384) (s : State) : Host.Outcome State Fault Refusal :=
  .next (issue s g.val (· = 0x50) issueCheckpoint)

/-! ### LOGBOOK (R559, R560) -/

/-- Fields of LOGBOOK. -/
def lbRead (l : Line) : Bool := lineField l 0x10 0 1 = 1
def lbSlot (l : Line) : Nat := lineField l 0x1C 0 24

/-- The record that a command names, with the given lines. -/
def lbRecord (s : State) (t : Nat) (l : Line) (ls : List StoredLine) : LogRecord :=
  { party := tileParty s t, tile := t, step := BitVec.ofNat 32 (lineWord l 0x14), micro := lineField l 0x18 0 16,
    stage := lineField l 0x18 16 16, lines := ls }

/-- Two records have one key. -/
def sameKey (a b : LogRecord) : Bool :=
  a.party = b.party && a.tile = b.tile && a.step = b.step && a.micro = b.micro && a.stage = b.stage

/-- Return what a command reads back: the stored lines, and MEMORY when some are lost, whose abort waits for the other
lines (R280, R550). -/
def giveLines (c : Cmd) (d : Desc) (ls : List StoredLine) (s : State) : Issued :=
  let s := returnLines s c.t c.g c.idx (returnedLines (uniqueLines d) ls)
  if ls.any (fun x => x = .lost) then .broke { err := .memory } s else .ready s

/-- A record as a half reads it back. -/
def rereadRecord (s : State) (bad : List Nat) (x : LogRecord) : LogRecord × State :=
  let y := { x with lines := loseLines bad 0 x.lines }
  let s := readBack s (halfOf x.tile) bad x.lines
  (y, { s with rk := { s.rk with log := s.rk.log.map (fun z => if z = x then y else z) } })

/-- Issue of LOGBOOK. -/
def issueLogbook (bad : List Nat) (c : Cmd) (s : State) : Issued :=
  let l := c.line
  let slot := lbSlot l
  if inScratch s c.t (64 * slot) && !lineReady s c.t (64 * slot) then .wait
  else
    match useDesc s c.t c.copies 0 slot { write := lbRead l, tile := some c.t } with
    | (.error e, s) => .fail e s
    | (.ok d, s) =>
      let n := (uniqueLines d).length
      if !lbRead l then
        (if 2 ^ 30 < 64 * n then .fail { err := .shape, slot, tag := d.tag, field := 0 } s
         else if !descReady s c.t d then .wait
         else
          let (ls, s) := captureLines s c.t d false
          .run (stageLines (programWork s c (.record (lbRecord s c.t l ls))) c.t (.command c.g c.idx) ls))
      else
        match s.rk.log.find? (fun x => sameKey x (lbRecord s c.t l [])) with
        | none => .fail { err := .address } s
        | some x =>
          if x.lines.length ≠ n then .fail { err := .shape, slot, tag := d.tag, field := 0 } s
          else if !descReady s c.t d then .wait
          else
            let (y, s) := rereadRecord s bad x
            giveLines c d y.lines s

/-- LOGBOOK (R559, R560). -/
def execLogbook (r : ReadIssue) (s : State) : Host.Outcome State Fault Refusal :=
  .next (issue s r.queue.val (· = 0x52) (issueLogbook r.bad))

/-! ### RESTORE (R550) -/

/-- The sealed generation that a RESTORE names. -/
def genFor (s : State) (t : Nat) (g : Word) : Option Gen :=
  let p := tileParty s t
  if g = 0xFFFFFFFF then newestSealed s p else (sealedGens s p).find? (fun x => x.gen = g)

/-- The piece that a RESTORE names: in a sealed generation, of the issuing tile. -/
def pieceFor (s : State) (t : Nat) (g key : Word) : Option Piece :=
  (genFor s t g).bind (fun x => if bits x.halves (halfOf t) 1 = 1 then
    x.pieces.find? (fun y => y.tile = t && y.key = key) else none)

/-- Replace a piece of a generation. -/
def putPiece (x : Piece) (g : Gen) : Gen :=
  { g with pieces := g.pieces.map (fun y => if y.tile = x.tile && y.key = x.key then x else y) }

/-- A piece as a half reads it back, from the generation that a RESTORE names. -/
def rereadPiece (s : State) (g : Word) (bad : List Nat) (x : Piece) : Piece × State :=
  let y := { x with lines := loseLines bad 0 x.lines }
  let s := readBack s (halfOf x.tile) bad x.lines
  (y, match genFor s x.tile g with
    | some z => putGen s (putPiece y z)
    | none => s)

/-- Issue of RESTORE. -/
def issueRestore (bad : List Nat) (c : Cmd) (s : State) : Issued :=
  let l := c.line
  let slot := ckSlot l
  match pieceFor s c.t (ckGen l) (ckKey l) with
  | none => .fail { err := .address } s
  | some x =>
    if inScratch s c.t (64 * slot) && !lineReady s c.t (64 * slot) then .wait
    else
      match useDesc s c.t c.copies 0 slot { write := true } with
      | (.error e, s) => .fail e s
      | (.ok d, s) =>
        if descTile d ≠ c.t || (uniqueLines d).length ≠ x.lines.length then
          .fail { err := .shape, slot, tag := d.tag, field := 0 } s
        else if d.acc then .fail { err := .encoding, slot, tag := d.tag, field := 0 } s
        else if !descReady s c.t d then .wait
        else
          let (y, s) := rereadPiece s (ckGen l) bad x
          giveLines c d y.lines s

/-- RESTORE (R546, R550). -/
def execRestore (r : ReadIssue) (s : State) : Host.Outcome State Fault Refusal :=
  .next (issue s r.queue.val (· = 0x51) (issueRestore r.bad))

/-! ### Programming (R545, R548, R560) -/

/-- A record goes into its half's ring: an older record of its key is replaced, and the oldest records are erased until
it fits. -/
def storeRecord (s : State) (x : LogRecord) : State :=
  let h := halfOf x.tile
  let size := fun (y : LogRecord) => 64 * countStored y.lines
  let mine := fun (ys : List LogRecord) => (ys.filter (fun y => halfOf y.tile = h)).foldl (fun n y => n + size y) 0
  let s := { s with rk := { s.rk with log := s.rk.log.filter (fun y => !sameKey x y) } }
  let s := s.rk.log.foldl (fun s y =>
    if halfOf y.tile = h && logArea < mine s.rk.log + size x then
      ({ s with rk := { s.rk with log := s.rk.log.erase y } } : State).count32 (hbgA 0x10018) 1
    else s) s
  { s with rk := { s.rk with log := s.rk.log ++ [x] } }

/-- What has been programmed is recorded. -/
def recordWork (s : State) : RkWork → State
  | .piece p g x =>
    let s := match s.rk.gens.find? (fun y => y.party = p && y.gen = g) with
      | some y => putGen s { y with pieces := y.pieces ++ [x] }
      | none => s
    (countWritten s (halfOf x.tile) (64 * countStored x.lines)).count32 (hbgA 0x1001C) (countLost x.lines)
  | .record x =>
    (countWritten (storeRecord s x) (halfOf x.tile) (64 * countStored x.lines)).count32 (hbgA 0x1001C)
      (countLost x.lines)

/-- The half may program the work: a record only in capacity that checkpoints leave free, and none with LOG_MBPS 0
(R543, R560). -/
def mayProgram (s : State) : RkWork → Bool
  | .piece _ _ _ => true
  | .record y => s.field (hbgA 0x10004) 0 12 ≠ 0 && s.rk.programming.all (fun w => match w.work with
    | .piece _ _ x => halfOf x.tile ≠ halfOf y.tile
    | .record _ => true)

/-- RUCKSACK_PROGRAM_DONE (R545, R548, R560): the programming of a command whose lines have all reached the half ends;
`retired` blocks failed to program. -/
def execRucksackProgramDone (g : Fin 16384) (idx : Word) (retired : Nat) (s : State) :
    Host.Outcome State Fault Refusal :=
  match s.rk.programming.find? (fun x => x.queue = g.val && x.idx = idx) with
  | none => .next s
  | some x =>
    if !s.power.pwrgd || !mayProgram s x.work || !quietCommand s g.val idx then .next s
    else
      let h := halfOf (g.val / 256)
      let s := { s with rk := { s.rk with programming := s.rk.programming.erase x,
                                          faults := mset 0 s.rk.faults h (mget 0 s.rk.faults h + retired) } }
      let s := recordWork (s.count32 (hbgA 0x10020) retired) x.work
      .next (if s.safe.active then s else finishCommand s g.val idx)

/-! ### Seals (R549) -/

/-- The command at the issue point of queue `q` is a SEAL of `gen`, with its wait and SERIAL conditions met. -/
def sealStands (s : State) (q : Nat) (gen : Word) : Bool :=
  let x := s.queue q
  let t := q / 256
  active s && standing x &&
  (match commandLine s q with
    | some (.ok f, _) =>
      let l := f.line
      hdrOpcode l = 0x50 && ckOp l = 1 && ckGen l = gen && !taskError x l && mayIssue s q l &&
      !(hdrGate l && (s.tile t).gateFail)
    | _ => false)

/-- The queue of a tile at whose issue point the SEAL stands. -/
def sealQueue (s : State) (t : Nat) (gen : Word) : Option Nat :=
  ((List.range 256).map (fun i => 256 * t + i)).find? (fun q => sealStands s q gen)

/-- SEAL_ACCEPT (R549): the SEAL stands in every tile of the party, and each is accepted. -/
def execSealAccept (party : Fin 16) (s : State) : Host.Outcome State Fault Refusal :=
  let p := party.val
  match openGen s p with
  | none => .next s
  | some x =>
    let ts := partyTiles s p
    let qs := ts.filterMap (fun t => sealQueue s t x.gen)
    if ts = [] || qs.length ≠ ts.length || s.rk.sealing.any (fun y => y.party = p) then .next s
    else
      let s := qs.foldl (fun s q => issue s q (· = 0x50) (fun _ s => .run s)) s
      .next { s with rk := { s.rk with sealing := s.rk.sealing ++ [{ party := p, gen := x.gen }] } }

/-- CHECKPOINT_DONE for a sealed generation (R549). -/
def sealEvent (s : State) (x : Gen) : State :=
  let n := pieceBytes 0 x.pieces + pieceBytes 1 x.pieces
  let lost := x.pieces.foldl (fun k y => k + countLost y.lines) 0
  post s 0x72 (srcBridge 0 1)
    (x.gen.toNat + 2 ^ 32 * ((n + 4095) / 4096 % 2 ^ 32) + 2 ^ 64 * min lost 65535 + 2 ^ 80 * x.self.toNat
      + 2 ^ 81 * x.torn.toNat + 2 ^ 82 * x.imported.toNat) x.party

/-- The SEALs of a generation that have issued in the party's tiles complete. -/
def finishSeals (s : State) (p : Nat) (gen : Word) : State :=
  s.each (partyTiles s p) (fun t s => s.each (List.range 256) (fun i s =>
    let q := 256 * t + i
    match (s.queue q).inflight.find? (fun y => hdrOpcode y.line = 0x50 && ckOp y.line = 1 && ckGen y.line = gen) with
    | some y => finishCommand s q y.idx
    | none => s))

/-- SEAL_PROGRAMMED (R549): both halves have programmed the directory and the seal record. -/
def execSealProgrammed (party : Fin 16) (s : State) : Host.Outcome State Fault Refusal :=
  let p := party.val
  match s.rk.sealing.find? (fun x => x.party = p) with
  | none => .next s
  | some x =>
    let busy := s.rk.programming.any (fun y => match y.work with
      | .piece q g _ => q = p && g = x.gen
      | .record _ => false)
    match s.rk.gens.find? (fun y => y.party = p && y.gen = x.gen) with
    | none => .next s
    | some g =>
      if busy || s.rk.ready ≠ 3 then .next s
      else
        let s := { s with rk := { s.rk with sealing := s.rk.sealing.erase x } }
        let s := sealEvent (putGen s { g with sealed := true }) { g with sealed := true }
        .next (if s.safe.active then s else finishSeals s p x.gen)

/-- Show which halves serve (R575). -/
def showReady (s : State) (n : Nat) : State := { s with rk := { s.rk with ready := n } }

/-- RUCKSACK_MOUNT (R549, R571): a half is mounted at start-up; generations without a seal record are discarded. -/
def execRucksackMount (h : Fin 2) (s : State) : Host.Outcome State Fault Refusal :=
  if !s.power.pwrgd || s.power.stage < 7 || bits s.rk.ready h.val 1 = 1 then .next s
  else
    .next { s with rk := { s.rk with ready := s.rk.ready + 2 ^ h.val,
                                     gens := s.rk.gens.filter (·.sealed), sealing := [] } }

/-! ### Self-checkpoints (R553 to R555) -/

/-- SELF_CHECKPOINT: 0 started, 1 completed, 2 completed and TORN, 3 failed. -/
def selfEvent (s : State) (p : Nat) (gen : Word) (result causes lost : Nat) : State :=
  post s 0x71 (srcBridge 0 1) (gen.toNat + 2 ^ 32 * result + 2 ^ 48 * causes + 2 ^ 64 * min lost (2 ^ 32 - 1)) p

/-- A piece rewritten from the memory of its tile, with its recorded descriptor and KEY. -/
def recapture (s : State) (x : Piece) : Piece × State :=
  let (ls, s) := captureLines s x.tile (descOf 0 x.desc) true
  ({ x with lines := ls }, stageLines s x.tile .other ls)

/-- The self-checkpoint of a party begins: every piece of the newest sealed generation is read again into the
generation after the party's newest; a lack of space fails it (R551, R554, R555). -/
def beginSelf (s : State) (p : Nat) (torn : Bool) : State :=
  match newestSealed s p, (partyGens s p).getLast? with
  | some g, some last =>
    let x := selfCheck s p
    let mine := g.pieces.filter (fun y => tileParty s y.tile = p)
    let (ps, s') := mine.foldl (fun (acc : List Piece × State) y =>
      let (y, s) := recapture acc.2 y
      (acc.1 ++ [y], s)) ([], s)
    let n := last.gen + 1
    let s' := selfEvent s' p n 0 x.causes 0
    let room := (makeRoom s' p 0 (pieceBytes 0 ps)).bind (fun s => makeRoom s p 1 (pieceBytes 1 ps))
    let x := { x with armed := none, fenced := false, torn, running := some n, failed := room.isNone }
    (match room with
      | none => setSelfCheck s' p x
      | some s =>
        setSelfCheck { s with rk := { s.rk with gens := s.rk.gens ++
          [{ party := p, gen := n, pieces := ps, self := true, torn }] } } p x)
  | _, _ => s

/-- A self-checkpoint may start now (R553, R568): every line it reads lies past the zeroing front. -/
def selfReady (s : State) (p : Nat) : Bool :=
  active s && s.field 0x10000 14 1 = 1 && (selfCheck s p).running.isNone && (openGen s p).isNone &&
  (newestSealed s p).any (fun g => g.pieces.all (fun x => descReady s x.tile (descOf 0 x.desc)))

/-- SELF_CHECKPOINT_START (R554). -/
def execSelfCheckpointStart (party : Fin 16) (s : State) : Host.Outcome State Fault Refusal :=
  let x := selfCheck s party.val
  if x.armed.isSome && x.fenced && selfReady s party.val then .next (beginSelf s party.val x.torn) else .next s

/-- SELF_WAIT_TIMEOUT (R554): SELF_WAIT_MS have passed since arming without a voting fence: the self-checkpoint is
TORN, and starts at once unless a generation is still open (assumption log entry 58). -/
def execSelfWaitTimeout (party : Fin 16) (s : State) : Host.Outcome State Fault Refusal :=
  let p := party.val
  let x := selfCheck s p
  match x.armed with
  | none => .next s
  | some t =>
    if x.fenced || !active s then .next s
    else
      let s := s.passTo (t + 1000000 * s.field 0x10004 0 16)
      let s := setSelfCheck s p { x with fenced := true, torn := true }
      .next (if selfReady s p then beginSelf s p true else s)

/-- SELF_CHECKPOINT_DONE (R555): it ends, sealed or failed. -/
def execSelfCheckpointDone (party : Fin 16) (s : State) : Host.Outcome State Fault Refusal :=
  let p := party.val
  let x := selfCheck s p
  match x.running with
  | none => .next s
  | some n =>
    let s := setSelfCheck s p { x with running := none, failed := false, torn := false, causes := 0 }
    match s.rk.gens.find? (fun g => g.party = p && g.gen = n && !g.sealed) with
    | none => .next (selfEvent s p n 3 x.causes 0)
    | some g =>
      let lost := g.pieces.foldl (fun k y => k + countLost y.lines) 0
      let s := countWritten (countWritten s 0 (pieceBytes 0 g.pieces)) 1 (pieceBytes 1 g.pieces)
      let s := putGen (s.count32 (hbgA 0x1001C) lost) { g with sealed := true }
      .next (selfEvent (sealEvent s { g with sealed := true }) p n (if g.torn then 2 else 1) x.causes lost)

/-! ### Images (R556 to R558, R598) -/

/-- Keys of an image: KDF(JK, "KLOLYN IMAGE", PARTY ‖ GEN ‖ MODULE ‖ BRIDGE). The widths of the context's fields are
PRESUMED (assumption log entry 59). -/
def imageLabel : List Byte := [0x4B, 0x4C, 0x4F, 0x4C, 0x59, 0x4E, 0x20, 0x49, 0x4D, 0x41, 0x47, 0x45]
def imageContext (party gen module bridge : Nat) : List Byte :=
  ([party] ++ beBytes 4 gen ++ beBytes 2 module ++ [bridge]).map (BitVec.ofNat 8)

/-- The bytes of a piece's data in an image: its stored lines, and zeros for its lost ones. -/
def pieceData (x : Piece) : List Nat :=
  x.lines.flatMap (fun l => match l with
    | .stored v => leBytes 64 v.toNat
    | .lost => List.replicate 64 0
    | .omitted => [])

/-- The entries of an image and then its data; `off` is the offset of the next entry's data. -/
def imageEntries : List Piece → Nat → List Nat
  | [], _ => []
  | x :: xs, off =>
    leBytes 4 x.tile ++ leBytes 4 x.key.toNat ++ leBytes 4 (countStored x.lines) ++ leBytes 4 (countOmitted x.lines) ++
    leBytes 4 (countLost x.lines) ++ leBytes 4 0 ++ leBytes 8 off ++ List.replicate 32 0 ++ leBytes 64 x.desc.toNat ++
    imageEntries xs (off + (pieceData x).length)

/-- The digest of plaintext bytes as an image holds it, under the digest key. -/
def imageDigest (jk : BitVec 256) (context : List Byte) (plain : List Nat) : List Nat :=
  beBytes 48 (Config.aesBlocks (Config.kdfNext jk imageLabel context) (sha384 plain)).toNat

/-- Encrypt or decrypt the bytes of an image from 0x100 (R598). -/
def imageCipher (jk : BitVec 256) (context : List Byte) (bs : List Byte) : List Byte :=
  Config.aesCtr (Config.kdf jk imageLabel context) 0x10 bs

/-- The image of half `h` of a generation, encrypted under the current job key (R558, R598). -/
def buildImage (s : State) (jk : BitVec 256) (x : Gen) (h : Nat) : List Nat :=
  let ps := x.pieces.filter (fun y => halfOf y.tile = h)
  let data := ps.flatMap pieceData
  let plain := imageEntries ps (0x100 + 128 * ps.length) ++ data
  let context := imageContext x.party x.gen.toNat (myModule s) h
  let flags := 1 + 2 ^ 16 * h + 2 ^ 17 * x.party + 2 ^ 21 * x.self.toNat + 2 ^ 22 * x.torn.toNat
    + 2 ^ 23 * x.imported.toNat
  let head := leBytes 4 0x4B52434B ++ leBytes 4 flags ++ leBytes 4 x.gen.toNat ++ leBytes 4 ps.length ++
    leBytes 8 data.length ++ leBytes 8 (myModule s) ++ imageDigest jk context plain
  head ++ List.replicate (0x100 - head.length) 0 ++
    (imageCipher jk context (plain.map (BitVec.ofNat 8))).map (·.toNat)

/-- A field of an image's bytes. -/
def imageField (bs : List Nat) (o n : Nat) : Nat := leNat ((bs.drop o).take n)

/-- The lines of an imported piece: the image gives how many were stored, omitted and lost, and the data of the stored
and lost ones in order; which lines those are is open (assumption log entry 60), so the draw `k` chooses. -/
def importLines : Nat → Nat → Nat → Nat → Nat → List Nat → List StoredLine
  | 0, _, _, _, _, _ => []
  | n + 1, k, st, om, lo, data =>
    let pick := Config.freeNat k % max 1 (st + om + lo)
    if pick < st then
      .stored (BitVec.ofNat 512 (leNat (data.take 64))) :: importLines n (k + 1) (st - 1) om lo (data.drop 64)
    else if pick < st + om then .omitted :: importLines n (k + 1) st (om - 1) lo data
    else .lost :: importLines n (k + 1) st om (lo - 1) (data.drop 64)

/-- The pieces that the plaintext of an image holds, `n` entries from entry `i`. -/
def importPieces (plain : List Nat) (k : Nat) : Nat → Nat → List Piece
  | 0, _ => []
  | n + 1, i =>
    let e := plain.drop (128 * i)
    let st := imageField e 8 4
    let om := imageField e 0xC 4
    let lo := imageField e 0x10 4
    let data := plain.drop (imageField e 0x18 8 - 0x100)
    { tile := imageField e 0 4 % 64, key := BitVec.ofNat 32 (imageField e 4 4),
      desc := BitVec.ofNat 512 (imageField e 0x40 64), lines := importLines (st + om + lo) k st om lo data } ::
      importPieces plain (k + st + om + lo) n (i + 1)

/-- Read and check an image for half `h`: its header, its digest under the current job key (R556, R598). An image of
another party or bridge than the transfer's is bad (DESIGN CHOICE, assumption log entry 61). -/
def readImage (s : State) (h : Nat) (x : Transfer) (im : Image) : Option Gen :=
  let head := im.header.map (·.toNat)
  let flags := imageField head 4 4
  let party := bits flags 17 4
  let gen := imageField head 8 4
  match s.sec.jk with
  | none => none
  | some jk =>
    let context := imageContext party gen (imageField head 0x18 4 % 2 ^ 14) h
    let plain := (imageCipher jk context im.body).map (·.toNat)
    if head.length ≠ 0x100 || x.len < 0x100 + im.body.length || imageField head 0 4 ≠ 0x4B52434B ||
        flags % 65536 ≠ 1 || bits flags 16 1 ≠ h || party ≠ x.party ||
        (head.drop 0x20).take 48 ≠ imageDigest jk context plain then none
    else
      some { party, gen := BitVec.ofNat 32 gen, pieces := importPieces plain s.draws (imageField head 0xC 4) 0,
             sealed := true, self := bits flags 21 1 = 1, torn := bits flags 22 1 = 1, imported := true,
             halves := 2 ^ h }

/-- An imported half is newer than what its half holds of the party, and is stored; the other half of the same
generation may be there already (DEDUCED, assumption log entry 61). -/
def storeImport (s : State) (h : Nat) (x : Gen) : Option State :=
  let held := (partyGens s x.party).filter (fun g => bits g.halves h 1 = 1)
  if held.any (fun g => !newerGen x.gen g.gen) then none
  else
    match makeRoom s x.party h (pieceBytes h x.pieces) with
    | none => none
    | some s =>
      match (partyGens s x.party).find? (fun g => g.gen = x.gen) with
      | some g => some (putGen s { g with pieces := g.pieces ++ x.pieces, halves := g.halves + 2 ^ h })
      | none => some { s with rk := { s.rk with gens := s.rk.gens ++ [x] } }

/-! ### Transfers (R556, R557, R576) -/

/-- Register of the transfer block of bridge `h`. -/
def xferA (h o : Nat) : Nat := hbgA (0x10200 + 0x40 * h + o)
def xfer (s : State) (h : Nat) : Transfer := mget {} s.rk.xfers h
def setXfer (s : State) (h : Nat) (x : Transfer) : State :=
  { s with rk := { s.rk with xfers := mset {} s.rk.xfers h x } }

/-- A write of `HBG_RK_XFERh_CTRL` (R557, R569, R576): an import is refused in the safe state. -/
def xferWrite (s : State) (p : Path) (h : Nat) (v : Word) : State :=
  let a := xferA h 0
  let acc : Access := { path := p, off := a }
  let op := bits v.toNat 0 2
  let go := v.getLsbD 8
  if s.safe.active && op ≠ 1 then accessError s acc 2
  else
    let s := s.setField a 0 6 (bits v.toNat 0 6)
    if !go || op = 0 || op = 3 then s
    else if (xfer s h).busy then accessError s acc 3
    else
      let s := (s.setField a 10 2 0).setReg64 (xferA h 0x18) 0
      setXfer s h { busy := true, op, party := bits v.toNat 2 4, gen := s.reg (xferA h 4),
                    addr := 4096 * (s.reg64 (xferA h 8) / 4096), len := s.reg64 (xferA h 0x10) }

/-- The word that starts a transfer of an operation with the PARTY that stands. -/
def xferWord (s : State) (h op : Nat) : Word := BitVec.ofNat 32 (op + 4 * s.field (xferA h 0) 2 4 + 256)

/-- EXPORT (R556, R557, R576). -/
def execExportImage (p : Path) (h : Fin 2) (s : State) : Host.Outcome State Fault Refusal :=
  let v := xferWord s h.val 1
  .next (ownerWrite s p (xferA h.val 0) v (fun s => xferWrite s p h.val v))

/-- IMPORT (R556, R557, R576). -/
def execImportImage (p : Path) (h : Fin 2) (s : State) : Host.Outcome State Fault Refusal :=
  let v := xferWord s h.val 2
  .next (ownerWrite s p (xferA h.val 0) v (fun s => xferWrite s p h.val v))

/-- A transfer ends: 1 done, 2 failed (R556). -/
def endTransfer (s : State) (h result moved : Nat) : State :=
  let s := setXfer s h { xfer s h with busy := false }
  (s.setField (xferA h 0) 10 2 result).setReg64 (xferA h 0x18) moved

/-- Posted writes of 4 KiB to host memory. -/
def hostBlocks (f : Fn) : Nat → Nat → List Nat → State → State
  | 0, _, _, s => s
  | n + 1, a, bs, s =>
    if bs = [] then s else hostBlocks f n (a + 4096) (bs.drop 4096) (s.emit (.hostWrite f a (bs.take 4096)))

/-- The pieces of a half as it reads them back in order, the first line being the `n`-th stored one. -/
def losePieces (bad : List Nat) (h : Nat) : Nat → List Piece → List Piece
  | _, [] => []
  | n, x :: xs =>
    if halfOf x.tile = h then
      { x with lines := loseLines bad n x.lines } :: losePieces bad h (n + countStored x.lines) xs
    else x :: losePieces bad h n xs

/-- A half of a generation as the half reads it back. -/
def rereadGen (s : State) (h : Nat) (bad : List Nat) (g : Gen) : Gen × State :=
  let g' := { g with pieces := losePieces bad h 0 g.pieces }
  let n := pieceBytes h g.pieces / 64
  (g', putGen (countFailed s h (failedWords bad n) (n - pieceBytes h g'.pieces / 64)) g')

/-- An export ends: the image is written through the PF of its port, or fails (R556, R598). -/
def finishExport (s : State) (h : Fin 2) (bad : List Nat) (x : Transfer) : State :=
  match s.sec.jk, (sealedGens s x.party).find? (fun g => g.gen = x.gen && bits g.halves h.val 1 = 1) with
  | some jk, some g =>
    let (g, s) := rereadGen s h.val bad g
    let bs := buildImage s jk g h.val
    if x.len < bs.length then endTransfer s h.val 2 0
    else endTransfer (hostBlocks { port := h, vf := 0 } (bs.length / 4096 + 1) x.addr bs s) h.val 1 bs.length
  | _, _ => endTransfer s h.val 2 0

/-- An import ends (R556). -/
def finishImport (s : State) (h : Fin 2) (x : Transfer) (image : Option Image) : State :=
  match image.bind (readImage s h.val x) with
  | none => endTransfer s h.val 2 0
  | some g =>
    match storeImport s h.val g with
    | none => endTransfer s h.val 2 0
    | some s =>
      let n := g.pieces.foldl (fun n y => n + y.lines.length) 0
      let s := countWritten { s with draws := s.draws + n } h.val (pieceBytes h.val g.pieces)
      endTransfer (sealEvent s g) h.val 1 ((image.map (fun i => 0x100 + i.body.length)).getD 0)

/-- RK_TRANSFER_DONE (R556): the transfer of a bridge ends; an import has read its image, an export its
pieces. -/
def execRkTransferDone (h : Fin 2) (x : TransferEnd) (s : State) : Host.Outcome State Fault Refusal :=
  let y := xfer s h.val
  let f : Fn := { port := h, vf := 0 }
  if !y.busy || !s.power.pwrgd || bits s.rk.ready h.val 1 = 0 || !(s.fn f).busMaster || ideClosed s f then .next s
  else if y.op = 1 then .next (finishExport s h x.bad y)
  else .next (finishImport s h y x.image)

/-! ### Views (R575) -/

/-- Wear of a half in percent of its rating of 3,000 cycles over 2 TiB, at a write amplification of 1.10 (R572). -/
def wear (s : State) (h : Nat) : Nat := min 255 (mget 0 s.rk.wrote h * 110 / (3000 * 2 ^ 41))

/-- `HBG_RK_STATUS`. -/
def rkStatus (s : State) : Nat := s.rk.ready + 256 * wear s 0 + 65536 * wear s 1

/-- Word `k` of `HBG_RK_PARTYp`. -/
def rkPartyView (s : State) (p k : Nat) : Nat :=
  let gen := fun (x : Option Gen) => (x.map (·.gen.toNat)).getD 0
  let ss := sealedGens s p
  match k with
  | 0 => gen ss.getLast?
  | 1 => gen (openGen s p)
  | 2 => gen ss.head?
  | _ =>
    let x := selfCheck s p
    let some_ := !ss.isEmpty
    some_.toNat + 2 * (openGen s p).isSome.toNat + 4 * some_.toNat + 8 * x.armed.isSome.toNat
      + 16 * x.running.isSome.toNat + 256 * min ss.length 255

end Sys2Proof.Machine
end

