-- ==== Sys2Proof/Machine/Ports.lean ====
section
/-! DEFINITION. Training and keying of optical ports, rack links and the buddy link
(spec/10_optical_io.md R421 to R427, R431; spec/11 R439, R455, R456, R464; spec/16 R591, R592). -/

namespace Sys2Proof.Machine

open Sys2Proof

/-! ### What a port carries (R421 to R424) -/

def portA (n p o : Nat) : Nat := lanA n (0x1000 + 0x40 * p + o)
def srcPort (n p : Nat) : Nat := srcLantern n p

/-- Every bundle on a port parks, and its links are declared down: a bundle of a rotation that names the port too (R422). -/
def clearPort (s : State) (n p : Nat) : State :=
  s.each (List.range 32) (fun m s =>
    let e := (s.bundle n m).entry
    if (List.range (entryCount e)).any (fun i => entryPort e i = p) then parkBundle s n m else s)

/-- Lasers are off when every port of the lantern is OFF, and on again before one leaves OFF (R420). -/
def lasersFollow (s : State) (n : Nat) : State :=
  let x := s.lantern n
  s.setLantern n { x with
    lasers := x.started && (List.range 16).any (fun p => (mget {} x.ports p).phase ≠ .off) }

/-- A port enters PROBE with a first attempt (R424). -/
def startPort (s : State) (n p cause : Nat) : State :=
  let x := s.port n p
  lasersFollow (s.setPort n p { x with
    phase := .probe, attempt := 1, cause, begun := s.now, peer := none, accepted := false, mismatch := false,
    keying := {} }) n

/-- A port goes OFF: its bundles park (R424). -/
def stopPort (s : State) (n p cause : Nat) : State :=
  let s := clearPort (s.setPort n p { s.port n p with phase := .off }) n p
  let s := s.setPort n p { phase := .off, cause }
  lasersFollow (s.setReg (portA n p 0x8) 0x8000) n

/-- LANTERN_START (R427): the lantern's start slot, 2 ms × its number after the first fold. -/
def execLanternStart (n : Fin 8) (s : State) : Host.Outcome State Fault Refusal :=
  match s.power.firstFold with
  | none => .next s
  | some f =>
    let x := s.lantern n.val
    if !panelRuns s || x.started then .next s
    else
      let s := s.passTo (f + 2000000 * n.val)
      let trimming := (List.range 4).foldl (fun m pl => mset none m pl (some s.now)) []
      let s := s.setLantern n.val { x with
        started := true, lasers := true, trim := 0xF, faulty := 0, trimming := trimming }
      .next (s.each (List.range 16) (fun p s =>
        if (portPeer s.itin.force n.val p).isSome then startPort s n.val p (s.port n.val p).cause else s))

/-- PROBE_BURST (R423): a port in PROBE sends one burst of 2 µs. -/
def execProbeBurst (n : Fin 8) (port : Fin 16) (s : State) : Host.Outcome State Fault Refusal :=
  if panelRuns s && (s.port n.val port.val).phase = .probe then .next (s.emit (.light n port true)) else .next s

/-- PORT_LIGHT_RECEIVED (R424, R427, R433): service light reaches a port; from PROBE the port goes to IDENTIFY and
sends continuous light. -/
def execPortLightReceived (n : Fin 8) (port : Fin 16) (power : Int) (s : State) :
    Host.Outcome State Fault Refusal :=
  if !panelRuns s || !(s.lantern n.val).started then .next s
  else
    let s := s.setReg (portA n.val port.val 0x8) (BitVec.ofNat 32 (BitVec.ofInt 16 power).toNat)
    let x := s.port n.val port.val
    if x.phase = .probe then .next ((s.setPort n.val port.val { x with phase := .identify }).emit (.light n port false))
    else .next s

/-! ### Identities (R425, R456) -/

/-- This port and this copper link in the layout of the PEER field. -/
def ownPort (s : State) (n p : Nat) : Nat := myModule s + 2 ^ 14 * n + 2 ^ 17 * p
def ownCopper (s : State) (k : Nat) : Nat := myModule s + 2 ^ 14 * copperBridge s k + 2 ^ 15 * k

/-- An entry restricted to the slot positions that name a port, or 0 when none does (R425): the PORT and DIR of other
positions count as zero (DEDUCED, assumption log entry 43). -/
def restrictEntry (p : Nat) (e : BitVec 64) : Nat :=
  let keep := (List.range (entryCount e)).filter (fun i => entryPort e i = p)
  if keep.isEmpty then 0
  else
    (List.range 4).foldl (fun w i =>
      if keep.contains i then w else putBits (putBits w (4 + 4 * i) 4 0) (20 + 3 * i) 3 0) e.toNat

/-- MAP_DIGEST of a port (R425). -/
def mapDigest (s : State) (n p : Nat) : Nat :=
  crc32 ((List.range 64).flatMap (fun f => (List.range 32).flatMap (fun m =>
    leBytes 8 (restrictEntry p (mapEntry s.itin.force f n m)))))

/-- Bytes 0 to 11 of an identity message: of a port (R425), or of a copper link (R456). -/
def identityBytes (c : LinkPort) (i : Identity) : List Nat :=
  match c with
  | .optical _ _ =>
    leBytes 2 (bits i.sender 0 14) ++ [bits i.sender 14 7 + 2 ^ 7 * i.ack.toNat, i.version % 256] ++
      leBytes 4 (i.peer % 2 ^ 21) ++ leBytes 4 i.digest.toNat
  | .copper _ =>
    leBytes 2 (bits i.sender 0 14) ++ [bits i.sender 14 5 + 2 ^ 5 * i.ack.toNat, i.version % 256] ++
      leBytes 4 (i.peer % 2 ^ 19) ++ leBytes 4 0

/-- An identity message with its CRC, as it is sent. -/
def sealIdentity (c : LinkPort) (i : Identity) : Identity := { i with crc := BitVec.ofNat 32 (crc32 (identityBytes c i)) }

/-- A receiver keeps a message with a good CRC and VERSION 0x01 (R425, R456). -/
def identityGood (c : LinkPort) (i : Identity) : Bool :=
  i.crc.toNat = crc32 (identityBytes c i) && i.version = 1

/-- The module holds a current job key and debug is closed, as every connection needs (R592, R600). -/
def mayKey (s : State) : Bool := s.sec.jk.isSome && !s.sec.debugOpen

/-- IDENTITY_SEND (R424, R425): a port sends its identity message. It goes on in ACTIVE, so that the peer sees its ACK
(DEDUCED, assumption log entry 45). -/
def execIdentitySend (n : Fin 8) (port : Fin 16) (s : State) : Host.Outcome State Fault Refusal :=
  let x := s.port n.val port.val
  if !panelRuns s || !(x.phase = .identify || x.phase = .active) then .next s
  else
    .next (s.emit (.identity (.optical n port) (sealIdentity (.optical n port)
      { sender := ownPort s n.val port.val, ack := x.accepted,
        peer := (portPeer s.itin.force n.val port.val).getD 0,
        digest := BitVec.ofNat 32 (mapDigest s n.val port.val), crc := 0 })))

/-! ### Keying (R591, R592) -/

/-- Endpoint identity of a connection's end (R591). -/
def keyEndpoint (s : State) : LinkPort → Nat
  | .optical n p => myModule s + 2 ^ 15 * n.val + 2 ^ 18 * p.val
  | .copper k => myModule s + 2 ^ 14 + 2 ^ 15 * copperBridge s k.val + 2 ^ 18 * k.val

/-- The port or link of a connection. -/
def connPort (s : State) : LinkPort → Port
  | .optical n p => s.port n.val p.val
  | .copper k => s.copperPort k.val
def setConnPort (s : State) (c : LinkPort) (x : Port) : State :=
  match c with
  | .optical n p => s.setPort n.val p.val x
  | .copper k => s.setCopper k.val x

/-- SOURCE of a connection. -/
def srcConn (s : State) : LinkPort → Nat
  | .optical n p => srcPort n.val p.val
  | .copper k => srcLink s (.copper k)

/-- KEY_ID of the current job key, 0 when there is none. -/
def jkId (s : State) : Word :=
  match s.sec.jk with
  | some k => keyIdOf k
  | none => 0

/-- The 60 bytes of a KEY_OFFER before its CRC: its fields in the order of R591, and zeros; the spec gives no offsets
(DESIGN CHOICE, assumption log entry 159). -/
def offerBytes (o : KeyOffer) : List Nat :=
  leBytes 4 (o.endpoint % 2 ^ 22) ++ leBytes 4 o.keyId.toNat ++ leBytes 32 o.nonce.toNat ++ List.replicate 20 0

/-- The CRC of a KEY_OFFER is good (R591). -/
def offerGood (o : KeyOffer) : Bool := o.crc.toNat = crc32 (offerBytes o)

/-- A connection that has reached ACTIVE offers a nonce of the DRBG. -/
def offerKey (s : State) (c : LinkPort) : State :=
  let nonce := Config.drbg s.draws
  let s := s.used
  let s := setConnPort s c { connPort s c with keying := { nonce } }
  let o : KeyOffer := { endpoint := keyEndpoint s c, keyId := jkId s, nonce, crc := 0 }
  s.emit (.offer c { o with crc := BitVec.ofNat 32 (crc32 (offerBytes o)) })

/-- Keying fails: the connection goes to FAILED with CAUSE 2, and KEY_MISMATCH is posted (R592). -/
def keyFails (s : State) (c : LinkPort) : State :=
  let s := match c with
    | .optical n p => clearPort s n.val p.val
    | .copper k => s.setLink (.copper k) {}
  let s := setConnPort s c { connPort s c with phase := .failed, cause := 2, keying := {} }
  secFault s 0x06 (srcConn s c) (keyEndpoint s c)

/-- Link keys of a connection, each with its salt, lower endpoint first: ten of a port and two of a copper link, and the
confirm key (R591). -/
def linkKeys (c : LinkPort) (jk : BitVec 256) (mine theirs : Nat) (n1 n2 : BitVec 256) : List (BitVec 288) :=
  let bs := fun (k v : Nat) => (leBytes k v).map (BitVec.ofNat 8)
  let label := ("KLOLYN LINK".toList).map (fun c => BitVec.ofNat 8 c.toNat)
  let context := if mine < theirs then bs 4 mine ++ bs 4 theirs ++ bs 32 n1.toNat ++ bs 32 n2.toNat
    else bs 4 theirs ++ bs 4 mine ++ bs 32 n2.toNat ++ bs 32 n1.toNat
  (List.range (match c with
    | .optical _ _ => 11
    | .copper _ => 3)).map (fun i => Config.kdfSpan jk label context (288 * i))

/-- The confirm tag over both nonces, the lower endpoint's first, under the confirm key. -/
def confirmOf (keys : List (BitVec 288)) (mine theirs : Nat) (n1 n2 : BitVec 256) : BitVec 128 :=
  let key : BitVec 256 := BitVec.ofNat 256 ((keys.getLast?.getD 0).toNat / 2 ^ 32)
  if mine < theirs then Config.confirmTag key n1 n2 else Config.confirmTag key n2 n1

/-- KEY_OFFER (R591, R592): the peer's offer arrives. -/
def execKeyOffer (c : LinkPort) (offer : KeyOffer) (s : State) : Host.Outcome State Fault Refusal :=
  let x := connPort s c
  if !panelRuns s || x.phase ≠ .active || x.keying.keyed || !offerGood offer then .next s
  else
    match s.sec.jk with
    | none => .next (keyFails s c)
    | some jk =>
      if offer.keyId ≠ keyIdOf jk then .next (keyFails s c)
      else
        let me := keyEndpoint s c
        let keys := linkKeys c jk me offer.endpoint x.keying.nonce offer.nonce
        let s := setConnPort s c { x with keying := { x.keying with offered := some offer, keys := keys } }
        .next (s.emit (.confirm c (confirmOf keys me offer.endpoint x.keying.nonce offer.nonce)))

/-- A keyed connection carries links: the port's bundles join the map, a copper link starts frames at sequence 0. -/
def connKeyed (s : State) (c : LinkPort) : State :=
  match c with
  | .optical n _ => relight s n.val
  | .copper k => reroute (s.setLink (.copper k) { up := true })

/-- KEY_CONFIRM (R591, R592). -/
def execKeyConfirm (c : LinkPort) (tag : BitVec 128) (s : State) : Host.Outcome State Fault Refusal :=
  let x := connPort s c
  match x.keying.offered with
  | some o =>
    if !panelRuns s || x.phase ≠ .active || x.keying.keyed then .next s
    else if tag ≠ confirmOf x.keying.keys (keyEndpoint s c) o.endpoint x.keying.nonce o.nonce then .next (keyFails s c)
    else .next (connKeyed (setConnPort s c { x with keying := { x.keying with keyed := true } }) c)
  | none => .next s

/-! ### IDENTIFY (R424, R425, R455) -/

/-- What an identity message does to a connection in IDENTIFY, where `own` and `expected` are both ends as the
tables name them: ACTIVE, FAILED, or another exchange. -/
def identified (s : State) (c : LinkPort) (own : Nat) (expected : Option Nat) (i : Identity) : State :=
  let x := connPort s c
  let x := { x with peer := some i.sender }
  if expected ≠ some i.sender then
    let s := setConnPort s c { x with phase := .failed, cause := 2, accepted := false }
    post s 0x54 (srcConn s c) (i.sender % 2 ^ 21 + 2 ^ 32 * (expected.getD 0 % 2 ^ 21))
  else
    let ok := i.peer = own && mayKey s
    let s := setConnPort s c { x with accepted := ok, phase := if ok && i.ack then .active else .identify }
    if ok && i.ack then offerKey s c else s

/-- PORT_IDENTITY (R424, R425). -/
def execPortIdentity (n : Fin 8) (port : Fin 16) (identity : Identity) (s : State) :
    Host.Outcome State Fault Refusal :=
  if !panelRuns s || (s.port n.val port.val).phase ≠ .identify || !identityGood (.optical n port) identity then .next s
  else
    let c : LinkPort := .optical n port
    let s := identified s c (ownPort s n.val port.val) (portPeer s.itin.force n.val port.val) identity
    let mine := mapDigest s n.val port.val
    if (s.port n.val port.val).phase = .active && identity.digest.toNat ≠ mine then
      let s := s.setPort n.val port.val { s.port n.val port.val with mismatch := true }
      .next (post s 0x55 (srcPort n.val port.val) (mine + 2 ^ 32 * identity.digest.toNat))
    else .next s

/-- An attempt of a connection ends after 50 ms: another, or ABSENT after the fourth (R424, R455). -/
def attemptEnds (s : State) (c : LinkPort) (absent : Nat) : State :=
  let x := connPort s c
  if !panelRuns s || !(x.phase = .probe || x.phase = .identify) then s
  else
    let s := s.passTo (x.begun + 50000000)
    if x.attempt < 4 then
      setConnPort s c { x with phase := .probe, attempt := x.attempt + 1, begun := s.now, cause := 1, accepted := false }
    else post (setConnPort s c { x with phase := .absent, cause := 1, accepted := false }) absent (srcConn s c)

/-- PORT_ATTEMPT_TIMEOUT (R424). -/
def execPortAttemptTimeout (n : Fin 8) (port : Fin 16) (s : State) : Host.Outcome State Fault Refusal :=
  .next (attemptEnds s (.optical n port) 0x53)

/-- PORT_LOSS_OF_LIGHT (R422): automatic power reduction; the port starts again from PROBE. -/
def execPortLossOfLight (n : Fin 8) (port : Fin 16) (s : State) : Host.Outcome State Fault Refusal :=
  let x := s.port n.val port.val
  if !panelRuns s || !(x.phase = .identify || x.phase = .active) then .next s
  else
    let s := (s.count32 (lanA n.val 0x54) 1).count32 (portA n.val port.val 0x1C) 1
    let s := clearPort (s.setPort n.val port.val { x with phase := .probe }) n.val port.val
    let s := startPort (s.setReg (portA n.val port.val 0x8) 0x8000) n.val port.val 3
    .next (post s 0x52 (srcPort n.val port.val) (s.reg (portA n.val port.val 0x1C)).toNat)

/-- Ports named that are ABSENT or FAILED train again (R424, R431). -/
def retrainPorts (s : State) (n : Nat) (ports : Nat → Bool) : State :=
  s.each ((List.range 16).filter ports) (fun k s =>
    let ph := (s.port n k).phase
    if ph = .absent || ph = .failed then startPort s n k 4 else s)

/-- PORT_RETRAIN (R424, R431). -/
def execPortRetrain (p : Path) (n : Fin 8) (ports : BitVec 16) (s : State) : Host.Outcome State Fault Refusal :=
  .next (ownerWrite s p (lanA n.val 0x2C) (BitVec.ofNat 32 ports.toNat) (fun s =>
    retrainPorts s n.val (fun k => ports.getLsbD k)))

/-! ### Copper links (R439, R455, R456, R464) -/

/-- A copper link starts a first attempt. -/
def startCopper (s : State) (k cause : Nat) : State :=
  let x := s.copperPort k
  s.setCopper k { x with
    phase := .probe, attempt := 1, cause, begun := s.now, peer := none, accepted := false, start := none,
    keying := {}, entry := copperEntry s.itin.applied (modulePhase s) k, newEntry := none }

/-- A copper link goes OFF: with the effects of R333 when it was ACTIVE (R455). -/
def stopCopper (s : State) (k cause : Nat) : State :=
  let s := if (s.copperPort k).phase = .active then linkDown s (.copper (Fin.ofNat 13 k)) else s
  (s.setCopper k { phase := .off, cause }).setLink (.copper (Fin.ofNat 13 k)) {}

/-- COPPER_TRAIN_START (R439, R455): the link's training start. -/
def execCopperTrainStart (k : Fin 13) (s : State) : Host.Outcome State Fault Refusal :=
  let x := s.copperPort k.val
  match x.start with
  | some t =>
    if panelRuns s && x.phase = .off && (copperLink? s.itin.force k.val).isSome then
      .next (startCopper (s.passTo t) k.val x.cause)
    else .next s
  | none => .next s

/-- A copper link sends its identity. -/
def sendCopperIdentity (s : State) (k : Fin 13) : State :=
  s.emit (.identity (.copper k) (sealIdentity (.copper k)
    { sender := ownCopper s k.val, ack := (s.copperPort k.val).accepted, crc := 0,
      peer := match copperLink? s.itin.force k.val with
        | some (_, _, _, peer) => peer
        | none => 0 }))

/-- COPPER_LANES_LOCKED (R455): every lane is locked, equalised and below the error ratio. -/
def execCopperLanesLocked (k : Fin 13) (s : State) : Host.Outcome State Fault Refusal :=
  let x := s.copperPort k.val
  if panelRuns s && x.phase = .probe then
    .next (sendCopperIdentity (s.setCopper k.val { x with phase := .identify }) k)
  else .next s

/-- The peer's identity matches what the itinerary names; of the buddy link the module alone is named
(assumption log entry 24). -/
def copperPeer (s : State) (k : Nat) (sender : Nat) : Option Nat :=
  match copperLink? s.itin.force k with
  | some (_, _, _, peer) =>
    if k = 12 && bits sender 0 14 = bits peer 0 14 && bits sender 15 4 = 12 then some sender else some peer
  | none => none

/-- COPPER_IDENTITY (R455, R456). -/
def execCopperIdentity (k : Fin 13) (identity : Identity) (s : State) : Host.Outcome State Fault Refusal :=
  if !panelRuns s || (s.copperPort k.val).phase ≠ .identify || !identityGood (.copper k) identity then .next s
  else
    let own := ownCopper s k.val
    let i := if k.val = 12 && bits identity.peer 0 14 = myModule s then { identity with peer := own } else identity
    .next (sendCopperIdentity (identified s (.copper k) own (copperPeer s k.val identity.sender) i) k)

/-- COPPER_ATTEMPT_TIMEOUT (R455). -/
def execCopperAttemptTimeout (k : Fin 13) (s : State) : Host.Outcome State Fault Refusal :=
  .next (attemptEnds s (.copper k) 0x60)

/-- Copper links named that are ABSENT or FAILED train again (R455, R464). -/
def retrainCopper (s : State) (links : Nat → Bool) : State :=
  s.each ((List.range 13).filter links) (fun k s =>
    let ph := (s.copperPort k).phase
    if ph = .absent || ph = .failed then startCopper s k 4 else s)

/-- COPPER_RETRAIN (R455, R464). -/
def execCopperRetrain (p : Path) (links : BitVec 13) (s : State) : Host.Outcome State Fault Refusal :=
  .next (ownerWrite s p (hbgA 0x120) (BitVec.ofNat 32 links.toNat) (fun s =>
    retrainCopper s (fun k => links.getLsbD k)))

end Sys2Proof.Machine
end

