-- ==== Sys2Proof/Machine/Itinerary.lean ====
section
/-! DEFINITION. The itinerary store: writes, verification, saving, and the checks and clamps of a fold
(spec/13_itinerary_and_control.md R473 to R487, R491, spec/16 R587). -/

namespace Sys2Proof.Machine

open Sys2Proof

/-! ### The store (R473) -/

/-- DEV offset of a slot, and its size. -/
def slotBase (k : Nat) : Nat := if k = 0 then 0x800000 else 0xC00000 + 0x10000 * (k - 1)
def slotSize (k : Nat) : Nat := if k = 0 then 0x400000 else 0x10000
/-- The slot that holds a DEV offset. -/
def slotAt (off : Nat) : Option Nat :=
  if 0x800000 ≤ off && off < 0xC00000 then some 0
  else if 0xC00000 ≤ off && off < 0xE00000 then some (1 + (off - 0xC00000) / 0x10000)
  else none

def State.slot (s : State) (k : Nat) : Slot := mget {} s.itin.slots k
def State.setSlot (s : State) (k : Nat) (x : Slot) : State :=
  { s with itin := { s.itin with slots := mset {} s.itin.slots k x } }
def State.storeWord (s : State) (off : Nat) : Nat := (mget 0 s.itin.store off).toNat

/-- A word is written into the store: its slot becomes EMPTY, and the detours of a base lose it. -/
def storeWrite (s : State) (off : Nat) (v : Word) : State :=
  match slotAt off with
  | none => s
  | some k =>
    let s := { s with itin := { s.itin with store := mset 0 s.itin.store off v } }
    let s := s.setSlot k {}
    if k = 0 then
      s.each (List.range 33) (fun j s =>
        if (s.slot j).state = .valid then s.setSlot j { state := .wrongBase } else s)
    else s

/-- A write to the store or to `DEV_ITIN_CTRL`, which a fold in progress discards (R490). -/
def itinWrite (s : State) (p : Path) (off : Nat) (v : Word) (effect : State → State) : State :=
  ownerWrite s p off v (fun s =>
    if s.itin.plan.isSome then accessError s { path := p, off } 3 else effect s)

/-- ITIN_STORE_WRITE (R473, R490, R496): offsets of the store's range outside its slots are reserved, and a write there
is an access error whoever makes it (R8). -/
def execItinStoreWrite (p : Path) (offset : Nat) (data : Word) (s : State) : Host.Outcome State Fault Refusal :=
  let off := offset / 4 * 4
  if (slotAt off).isSome then .next (itinWrite s p off data (fun s => storeWrite s off data))
  else if pathSilent s p then .next s
  else if pathClosed s p then .next (answer s .unsupported)
  else .next (refused s { path := p, off } 1)

/-! ### Images (R475, R476, R587) -/

/-- A word of the image in a slot, by byte offset, and the image's fields. -/
def imageWord (s : State) (k o : Nat) : Nat := s.storeWord (slotBase k + o)
def imageLength (s : State) (k : Nat) : Nat := imageWord s k 8
/-- The first `n` bytes of the image in a slot. -/
def imageBytes (s : State) (k n : Nat) : List Nat :=
  (List.range ((n + 3) / 4)).flatMap (fun i => leBytes 4 (imageWord s k (4 * i))) |>.take n

/-- The header fields that locate the signature block are right (R474, R476). -/
def headerOk (s : State) (k : Nat) : Bool :=
  let n := imageLength s k
  imageWord s k 0 = 0x4B495447 && bits (imageWord s k 4) 0 16 = 1 &&
  bits (imageWord s k 4) 16 8 = (if k = 0 then 0 else 1) && bits (imageWord s k 4) 24 8 = k &&
  n % 64 = 0 && 0x100 ≤ n && n ≤ slotSize k

/-- The signature of the image verifies under a loaded, unrevoked key (R587). -/
def signatureOk (s : State) (k : Nat) : Bool :=
  let b := imageLength s k - 128
  let slot := bits (imageWord s k b) 0 8
  let sig := (imageBytes s k (b + 128)).drop (b + 0x20)
  bits (imageWord s k b) 8 8 = 1 && slot < 4 && bits s.sec.revoked slot 1 = 0 &&
  (match mget none s.sec.keySlots slot with
    | some key => Config.verifySignature key (sha384 (imageBytes s k b)) (sig.map (BitVec.ofNat 8))
    | none => false)

/-- Body length of a section type, and the instances that exist (R477, R632). -/
def sectionLength (ty : Nat) : Option Nat :=
  match ty with
  | 1 => some 276 | 2 => some 144 | 3 => some 1024 | 4 => some 64 | 5 => some 104 | 6 => some 2080
  | 7 => some 2048 | 8 => some 4 | 9 => some 16 | 10 => some 44 | 11 => some 324 | _ => none
def instanceOk (ty inst : Nat) : Bool :=
  match ty with
  | 2 => inst < 16 | 3 => inst < 16 | 4 => inst < 8 | 6 => inst < 64 | 7 => inst < 16 | 8 => inst < 6
  | 10 => inst < 64 || inst = 0xFFFF
  | _ => inst = 0

/-- The sections of the image in slot `k`, `n` of them from offset `o`, whose keys lie above `least`; none when a rule
of R476 is broken. -/
def parseSections (s : State) (k : Nat) : Nat → Nat → Nat → Option (List Section)
  | 0, o, _ => if o = imageLength s k - 128 then some [] else none
  | n + 1, o, least =>
    let limit := imageLength s k - 128
    let ty := bits (imageWord s k o) 0 16
    let inst := bits (imageWord s k o) 16 16
    let len := imageWord s k (o + 4)
    let next := (o + 16 + len + 63) / 64 * 64
    if limit < o + 16 || sectionLength ty ≠ some len || !instanceOk ty inst || limit < next then none
    else if 65536 * ty + inst < least || (k ≠ 0 && ty = 1) then none
    else
      let pad := (List.range ((next - (o + 16 + len)) / 4)).any (fun i => imageWord s k (o + 16 + len + 4 * i) ≠ 0)
      if pad then none
      else
        let body := (List.range (len / 4)).map (fun i => BitVec.ofNat 32 (imageWord s k (o + 16 + 4 * i)))
        (parseSections s k n next (65536 * ty + inst + 1)).map (fun xs => { ty, inst, body } :: xs)

/-- The sections of a slot's image. -/
def slotSections (s : State) (k : Nat) : Option (List Section) :=
  parseSections s k (bits (imageWord s k 0xC) 0 16) 0x80 0

/-- BASE_DIGEST of a detour matches the VALID base: the digest of the whole base image (R474; DEDUCED, assumption log
entry 53). -/
def baseOk (s : State) (k : Nat) : Bool :=
  (s.slot 0).state = .valid &&
  leNat ((imageBytes s k 0x48).drop 0x18) = leNat (beBytes 48 (sha384 (imageBytes s 0 (imageLength s 0))).toNat)

/-- How the verification of a slot ends (R474). -/
def verdict (s : State) (k : Nat) : Slot :=
  if !headerOk s k then { state := .badFormat }
  else if !signatureOk s k then { state := .badSignature }
  else
    match slotSections s k with
    | none => { state := .badFormat }
    | some xs => if k = 0 || baseOk s k then { state := .valid, sections := xs.length } else { state := .wrongBase }

/-- The slot named with a request is verified (R474). -/
def startVerify (s : State) (p : Path) (slot : Nat) : State :=
  let s := { s with itin := { s.itin with slotSel := slot } }
  if 32 < slot then accessError s { path := p, off := 0x8080 } 1
  else s.setSlot slot { state := .verifying }

/-- VERIFY (R474). -/
def execVerify (p : Path) (slot : Fin 64) (s : State) : Host.Outcome State Fault Refusal :=
  .next (itinWrite s p 0x8080 (BitVec.ofNat 32 (slot.val + 256)) (fun s => startVerify s p slot.val))

/-- ITIN_VERIFY_DONE (R474): the verification under way ends. -/
def execItinVerifyDone (s : State) : Host.Outcome State Fault Refusal :=
  match (List.range 33).find? (fun k => (s.slot k).state = .verifying) with
  | some k => if s.power.pwrgd then .next (s.setSlot k (verdict s k)) else .next s
  | none => .next s

/-! ### Saving (R491) -/

/-- Slots that are VALID. -/
def validSlots (s : State) : List Nat := (List.range 33).filter (fun k => (s.slot k).state = .valid)

/-- Every VALID slot and the selection are copied (R491). -/
def startSave (s : State) : State :=
  let ks := validSlots s
  let store := mdrop (fun a => !((slotAt a).any ks.contains)) s.itin.store
  { s with itin := { s.itin with saving := some (store, ks, s.itin.sel) } }

/-- SAVE (R491). -/
def execSave (p : Path) (s : State) : Host.Outcome State Fault Refusal :=
  .next (itinWrite s p 0x8080 0x200 startSave)

/-- ITIN_SAVE_DONE (R491, R583): the boot itinerary is held, and the current job key with it, wrapped. -/
def execItinSaveDone (s : State) : Host.Outcome State Fault Refusal :=
  match s.itin.saving with
  | none => .next s
  | some b =>
    .next { s with itin := { s.itin with saving := none, bootStore := some b },
                   sec := { s.sec with jkStored := s.sec.jk } }

/-! ### The effective itinerary (R482, R483) -/

/-- Detours that a selection names. -/
def selected (sel : Word) : List Nat := ((List.range 32).filter (fun i => sel.getLsbD i)).map (· + 1)

/-- Put a section over the one of its type and instance. -/
def applySection (xs : List Section) (x : Section) : List Section :=
  if xs.any (fun y => y.ty = x.ty && y.inst = x.inst) then
    xs.map (fun y => if y.ty = x.ty && y.inst = x.inst then x else y)
  else xs ++ [x]

/-- The base with the selected detours over it. -/
def effective (s : State) (sel : Word) : List Section :=
  (selected sel).foldl (fun xs k => ((slotSections s k).getD []).foldl applySection xs) ((slotSections s 0).getD [])

/-- Party of a tile and of a guest under a set of sections (R483). -/
def newOwner (ss : List Section) (t : Nat) : Nat :=
  ((List.range 16).find? (fun p => p ≠ 0 && match sectionOf ss 2 p with
    | some x => bodyField x (4 * (t / 32)) (t % 32) 1 = 1
    | none => false)).getD 0
def newGuestOwner (ss : List Section) (n : Nat) : Nat :=
  ((List.range 16).find? (fun p => p ≠ 0 && match sectionOf ss 2 p with
    | some x => bodyField x 8 (12 + n) 1 = 1
    | none => false)).getD 0
/-- CACHE, EPOCH and seeds of a party; party 0 takes zeros without a section (R477, R480). -/
def partyField (ss : List Section) (p o lo n : Nat) : Nat :=
  match sectionOf ss 2 p with
  | some x => bodyField x o lo n
  | none => 0

/-! ### Refusals (R485) -/

/-- A refusal: its code and the entry that raised it; `index` is none for one bound to no entry. -/
structure FoldRefusal where
  code  : Nat
  ty    : Nat := 0
  inst  : Nat := 0
  off   : Nat := 0
  bit   : Nat := 0
  index : Option Nat := none

/-- Axis sizes of a MODULE section, and a module's coordinates and number under them (R316). -/
structure Torus where
  size : Nat → Nat

/-- The torus that a set of sections describes. -/
def newTorus (ss : List Section) : Torus :=
  { size := fun a => match sectionOf ss 1 0 with
      | some x => bodyField x 0 (8 * a) 7 + 1
      | none => 1 }
def Torus.count (g : Torus) : Nat := g.size 0 * g.size 1 * g.size 2
def Torus.coord (g : Torus) (m axis : Nat) : Nat :=
  match axis with
  | 0 => m % g.size 0
  | 1 => m / g.size 0 % g.size 1
  | _ => m / (g.size 0 * g.size 1)
/-- The module one hop away in a direction. -/
def Torus.hop (g : Torus) (m dir : Nat) : Nat :=
  let a := dir / 2
  let n := g.size a
  let c := g.coord m a
  let c' := if dir % 2 = 0 then (c + 1) % n else (c + n - 1) % n
  let at_ := fun b => if b = a then c' else g.coord m b
  at_ 0 + g.size 0 * (at_ 1 + g.size 1 * at_ 2)
/-- A direction exists: its axis has size 2 or more. -/
def Torus.hasDir (g : Torus) (dir : Nat) : Bool := dir < 6 && 2 ≤ g.size (dir / 2)

/-- Module number of a MODULE section. -/
def newModule (ss : List Section) : Nat :=
  match sectionOf ss 1 0 with
  | some x => bodyField x 4 0 14
  | none => 0

/-- Defined phases. -/
def phases (ss : List Section) : List Nat := (List.range 64).filter (phaseDefined ss)

/-- Bundle places of a phase map: lantern and bundle, with the entry's index and its entry. -/
def bundleEntries (ss : List Section) (f : Nat) : List (Nat × Nat × BitVec 64) :=
  (List.range 8).flatMap (fun n => (List.range 32).map (fun m => (n, m, mapEntry ss f n m)))

/-- A refusal about a bundle entry. -/
def mapRefusal (code f n m : Nat) : FoldRefusal :=
  { code, ty := 6, inst := f, off := 8 * (32 * n + m), index := some (32 * n + m) }

/-- An entry holds a reserved MODE or DIR code. -/
def reservedCode (e : BitVec 64) : Bool := entryMode e = 3 || (List.range 4).any (fun i => 6 ≤ entryDir e i)

/-- CODE: reserved codes of any field. -/
def codeRefusals (ss : List Section) : List FoldRefusal :=
  (phases ss).flatMap (fun f => ((bundleEntries ss f).filter (fun x => reservedCode x.2.2)).map
    (fun x => mapRefusal 3 f x.1 x.2.1)) ++
  (List.range 12).flatMap (fun k =>
    let w := rackWord ss k
    if bits w 0 1 = 1 && (2 ≤ bits w 6 2 || 8 < bits w 2 4 || 11 < bits w 23 4) then
      [{ code := 3, ty := 5, off := 8 + 8 * k, index := some k }] else [])

/-- TORUS. -/
def torusRefusals (s : State) (ss : List Section) : List FoldRefusal :=
  let g := newTorus ss
  match sectionOf ss 1 0 with
  | none => []
  | some x =>
    let m := newModule ss
    let bad := fun (off : Nat) => ({ code := 4, ty := 1, off } : FoldRefusal)
    let held := (List.range 16).any (fun p => !(partyTiles s p).isEmpty)
    (if 16384 < g.count then [bad 0] else []) ++
    (if g.size 0 ≤ bodyField x 4 14 7 || g.size 1 ≤ bodyField x 4 21 7 || g.count ≤ m ||
        g.coord m 0 ≠ bodyField x 4 14 7 || g.coord m 1 ≠ bodyField x 4 21 7 then [bad 4] else []) ++
    (if g.count ≤ bodyField x 8 0 14 then [bad 8] else []) ++
    (if held && m ≠ myModule s then [bad 4] else [])

/-- MEMBERSHIP: a tile or guest that two parties of 1 to 15 name. -/
def memberRefusals (ss : List Section) : List FoldRefusal :=
  ((List.range 16).drop 1).flatMap (fun p =>
    match sectionOf ss 2 p with
    | none => []
    | some x =>
      ((List.range 64).filter (fun t => bodyField x (4 * (t / 32)) (t % 32) 1 = 1 && newOwner ss t < p)).map
        (fun t => ({ code := 5, ty := 2, inst := p, off := 4 * (t / 32), bit := t % 32, index := some t } : FoldRefusal)) ++
      ((List.range 4).filter (fun n => bodyField x 8 (12 + n) 1 = 1 && newGuestOwner ss n < p)).map
        (fun n => ({ code := 5, ty := 2, inst := p, off := 8, bit := 12 + n, index := some n } : FoldRefusal)))

/-- TEAM: a VALID entry whose lengths do not divide their axes (R354). -/
def teamRefusals (ss : List Section) : List FoldRefusal :=
  let g := newTorus ss
  (List.range 16).flatMap (fun p =>
    match sectionOf ss 3 p with
    | none => []
    | some x =>
      ((List.range 64).filter (fun t =>
        bodyField x (16 * t + 8) 31 1 = 1 &&
        (List.range 3).any (fun a => g.size a % (bodyField x (16 * t + 8) (8 * a) 7 + 1) ≠ 0))).map
        (fun t => ({ code := 6, ty := 3, inst := p, off := 16 * t + 8, index := some t } : FoldRefusal)))

/-- Ports that an entry holds in slot position `i`. -/
def heldPort (e : BitVec 64) (i : Nat) : Option Nat :=
  match entryMode e with
  | 1 => some (entryPort e 0)
  | 2 => if i < entryCount e then some (entryPort e i) else none
  | _ => none

/-- Two entries of one band share a port in a slot position (R404). -/
def portClash (ss : List Section) (f n m : Nat) (e : BitVec 64) : Bool :=
  (List.range (m % 8)).any (fun j =>
    let o := mapEntry ss f n (m / 8 * 8 + j)
    (List.range 4).any (fun i => (heldPort e i).isSome && heldPort e i = heldPort o i))

/-- The tile of a site's strand to a lantern or bridge. -/
def entryTileOk (s : State) (sites : List Nat) (t : Nat) : Bool := sites.contains (siteOf s t)

/-- A bundle entry breaks R404; `rot` is the first ROTATE entry of the phase. -/
def badEntry (s : State) (ss : List Section) (rot : Option (BitVec 64)) (f n m : Nat) (e : BitVec 64) : Bool :=
  let g := newTorus ss
  let k := entryCount e
  let ports := (List.range k).map (entryPort e)
  let rotate := entryMode e = 2
  reservedCode e || (rotate && (k < 2 || entrySlot e < 4)) || portClash ss f n m e ||
  (rotate && ports.eraseDups.length ≠ k) ||
  (rotate && rot.any (fun r => entryCount r ≠ k || entrySlot r ≠ entrySlot e)) ||
  (List.range k).any (fun i =>
    match portPeer ss n (entryPort e i) with
    | none => true
    | some peer => !g.hasDir (entryDir e i) || peer % 2 ^ 14 ≠ g.hop (newModule ss) (entryDir e i)) ||
  (k ≠ 0 && !entryTileOk s (lanternSites.getD n []) (entryTile e))

/-- A copper entry with USE 1 breaks R452. -/
def badCopper (s : State) (ss : List Section) (k e : Nat) : Bool :=
  let g := newTorus ss
  bits e 0 1 = 1 &&
  (match copperLink? ss k with
    | none => true
    | some (h, _, _, peer) =>
      !g.hasDir (bits e 1 3) || peer % 2 ^ 14 ≠ g.hop (newModule ss) (bits e 1 3) ||
      !entryTileOk s (bridgeSites.getD h []) (bits e 4 6))

/-- MAP. -/
def mapRefusals (s : State) (ss : List Section) : List FoldRefusal :=
  (phases ss).flatMap (fun f =>
    let es := bundleEntries ss f
    let rot := (es.find? (fun x => entryMode x.2.2 = 2)).map (fun x => x.2.2)
    (es.filter (fun x => badEntry s ss rot f x.1 x.2.1 x.2.2)).map (fun x => mapRefusal 7 f x.1 x.2.1) ++
    ((List.range 13).filter (fun k => badCopper s ss k (copperEntry ss f k))).map
      (fun k => ({ code := 7, ty := 6, inst := f, off := 2048 + 4 * (k / 2), bit := 16 * (k % 2),
                   index := some (256 + k) } : FoldRefusal)))

/-- FOOTPATH: a direction of an axis of size 2 or more without a link in a defined phase (R319). -/
def footRefusals (ss : List Section) : List FoldRefusal :=
  let g := newTorus ss
  (phases ss).flatMap (fun f =>
    let es := bundleEntries ss f
    let served := fun dir =>
      es.any (fun x => (List.range (entryCount x.2.2)).any (fun i => entryDir x.2.2 i = dir)) ||
      (List.range 13).any (fun k => let e := copperEntry ss f k; bits e 0 1 = 1 && bits e 1 3 = dir)
    ((List.range 6).filter (fun d => g.hasDir d && !served d)).map
      (fun d => ({ code := 8, ty := 6, inst := f, index := some d } : FoldRefusal)))

/-- A rack link names a group that another role or an earlier rack link holds (R438). -/
def groupTaken (ss : List Section) (k : Nat) : Bool :=
  let w := rackWord ss k
  let h := bits w 1 1
  let grp := bits w 2 4
  bits w 0 1 = 1 &&
  ((pcieEnabled ss h && grp < 2) || (buddyEnabled ss && buddyBridge ss = h && (grp = 7 || grp = 8)) ||
   (List.range k).any (fun j =>
     let v := rackWord ss j
     bits v 0 1 = 1 && bits v 1 1 = h && bits v 2 4 = grp))

/-- COPPER. -/
def copperRefusals (ss : List Section) : List FoldRefusal :=
  ((List.range 12).filter (groupTaken ss)).map
    (fun k => ({ code := 9, ty := 5, off := 8 + 8 * k, index := some k } : FoldRefusal)) ++
  (if buddyEnabled ss && (newTorus ss).count ≤ buddyModule ss then [{ code := 9, ty := 5, off := 4 }] else [])

/-- GROUP. -/
def groupRefusals (ss : List Section) : List FoldRefusal :=
  let g := newTorus ss
  (List.range 16).flatMap (fun b =>
    match sectionOf ss 7 b with
    | none => []
    | some x =>
      ((List.range 256).filter (fun i =>
        let w := bodyWord x (8 * i) + 2 ^ 32 * bodyWord x (8 * i + 4)
        bits w 0 1 = 1 && (g.count ≤ bits w 1 14 || (List.range 6).any (fun d => bits w (15 + d) 1 = 1 && !g.hasDir d)))).map
        (fun i => ({ code := 0xA, ty := 7, inst := b, off := 8 * i, index := some i } : FoldRefusal)))

/-- FEATURE: a lantern or host bridge lacks a required bit (R45). -/
def featureRefusals (s : State) (ss : List Section) : List FoldRefusal :=
  let need := fun i => match sectionOf ss 8 i with
    | some x => bodyField x 0 0 16
    | none => 0
  let lacks := fun n (a : Nat) => n &&& s.field a 16 16 ≠ n
  ((List.range 8).filter (fun n => lacks (need 0) (lanA n 0))).map
    (fun n => ({ code := 0xB, ty := 8, inst := 0, index := some n } : FoldRefusal)) ++
  ((List.range 2).filter (fun h => lacks (need 1) (hbgA (8 * h)))).map
    (fun h => ({ code := 0xB, ty := 8, inst := 1, index := some h } : FoldRefusal))

/-- Refusals before the clamps, in the order of the table. -/
def refusals (s : State) (sel : Word) : List FoldRefusal :=
  let bad := (0 :: selected sel).filter (fun k => (s.slot k).state ≠ .valid)
  if !bad.isEmpty then bad.map (fun _ => { code := 1 })
  else
    let ss := effective s sel
    let g := newTorus ss
    if (sectionOf ss 1 0).isNone then [{ code := 2 }]
    else
      (if (List.range 3).any (fun a => 2 ≤ g.size a) && !phaseDefined ss 0 then [{ code := 2 }] else []) ++
      codeRefusals ss ++ torusRefusals s ss ++ memberRefusals ss ++ teamRefusals ss ++ mapRefusals s ss ++
      footRefusals ss ++ copperRefusals ss ++ groupRefusals ss ++ featureRefusals s ss

/-- The party is quiescent (R486): its queues hold no incomplete command, from HEAD up to TAIL (R263). -/
def quiescent (s : State) (p : Nat) : Bool :=
  (s.party p).phase ≠ .resetWait && (s.party p).phase ≠ .resetting &&
  (partyTiles s p).all (fun t => (List.range 256).all (fun i =>
    let q := s.queue (256 * t + i)
    !q.enable && q.inflight.isEmpty && queueHead q = q.tail))

/-- QUIET: a QUIET section changes and a party concerned is not quiescent (R477, R502). -/
def quietRefusals (s : State) (ss : List Section) : List FoldRefusal :=
  let old := s.itin.force
  let moved := sectionOf ss 1 0 ≠ sectionOf old 1 0
  let concerned := fun p =>
    moved || sectionOf ss 3 p ≠ sectionOf old 3 p ||
    (List.range 64).any (fun t => (tileParty s t = p || newOwner ss t = p) && tileParty s t ≠ newOwner ss t) ||
    (List.range 4).any (fun n => (guestParty s n = p || newGuestOwner ss n = p) && guestParty s n ≠ newGuestOwner ss n) ||
    partyField ss p 8 8 4 ≠ partyField old p 8 8 4
  ((List.range 16).filter (fun p => partyExists s p && concerned p && !quiescent s p)).map
    (fun p => ({ code := 0xC, ty := 2, inst := p } : FoldRefusal))

/-- A fold-report entry of kind 2 (R494). -/
def refusalEntry (x : FoldRefusal) : FoldEntry :=
  { w0 := BitVec.ofNat 32 (x.ty + 65536 * x.inst),
    w1 := BitVec.ofNat 32 (x.off % 65536 + 65536 * x.bit + 2 ^ 25),
    w2 := BitVec.ofNat 32 x.code, w3 := BitVec.ofNat 32 (x.index.getD 0xFFFFFFFF) }

/-! ### Clamps (R484) -/

/-- A numeric field of a body: word offset, lowest bit, width, whether signed, and its range given the body as already
clamped. -/
structure ClampRule where
  off    : Nat
  bit    : Nat
  width  : Nat
  signed : Bool := false
  range  : Section → Int × Int

/-- A field with a fixed range. -/
def fixedRule (off bit width lo hi : Nat) : ClampRule := { off, bit, width, range := fun _ => (lo, hi) }

/-- Rules of `TIL_MEn_POWER` and `TIL_VEC_POWER` (R135). -/
def powerRules (off : Nat) : List ClampRule := [fixedRule off 0 13 16 4096, fixedRule off 16 14 1 16383]

/-- Rules of TILE_CFG (R172, R224, R252, R347 to R349, R135). -/
def tileRules : List ClampRule :=
  [fixedRule 0 0 4 1 14,
   { off := 0, bit := 4, width := 4, range := fun x => (1, 15 - (bodyField x 0 0 4 : Nat)) },
   fixedRule 4 0 4 4 10, fixedRule 8 0 18 0 147455,
   { off := 12, bit := 0, width := 18, range := fun x => (0, 147456 - (bodyField x 8 0 18 : Nat)) },
   fixedRule 16 0 12 64 4095, fixedRule 16 12 14 64 16383, fixedRule 20 0 10 40 1000,
   fixedRule 24 0 6 8 40, fixedRule 24 8 6 1 63, fixedRule 24 14 6 1 63, fixedRule 24 20 4 1 15,
   fixedRule 24 24 6 1 63] ++ powerRules 28 ++ powerRules 32 ++ powerRules 36 ++ powerRules 40

/-- PCAP: 0 turns it off, other values lie from 40 to 130 (R633). -/
def pcapRule : ClampRule :=
  { off := 0, bit := 8, width := 8, range := fun x => if bodyField x 0 8 8 = 0 then (0, 0) else (40, 130) }

/-- The rules of a section type, in ascending body offset. -/
def clampRules (s : State) (g : Torus) (ty : Nat) : List ClampRule :=
  match ty with
  | 1 => (List.range 128).map (fun i =>
      { off := 0x14 + 2 * i / 4 * 4, bit := 16 * (i % 2), width := 16, signed := true, range := fun _ => (-1000, 1000) })
  | 2 => [fixedRule 8 8 4 0 8]
  | 7 => (List.range 256).flatMap (fun i => [{ off := 8 * i, bit := 22, width := 15, range := fun _ => (0, g.count) }])
  | 9 => [fixedRule 0 0 16 100 60000, fixedRule 4 0 20 1000 1000000, fixedRule 4 20 11 1 2000,
      fixedRule 12 0 6 1 60, fixedRule 12 6 8 10 200,
      { off := 12, bit := 14, width := 8, range := fun x => ((bodyField x 12 6 8 : Nat) + 10, 255) }]
  | 10 => tileRules
  | 11 => [pcapRule] ++
      (List.range 64).map (fun t => fixedRule (4 + t / 4 * 4) (8 * (t % 4)) 8 1 (siteLimit (siteOf s t))) ++
      (List.range 64).flatMap (fun t => powerRules (0x44 + 4 * t))
  | _ => []

/-- A field that can run past its word's end, as a body holds it (MEMBERS of R481). -/
def wideField (x : Section) (off bit width : Nat) : Nat :=
  bits (bodyWord x off + 2 ^ 32 * bodyWord x (off + 4)) bit width
/-- Store a field of a body. -/
def putBody (x : Section) (off bit width v : Nat) : Section :=
  let w := putBits (bodyWord x off + 2 ^ 32 * bodyWord x (off + 4)) bit width v
  let body := (x.body.set (off / 4) (BitVec.ofNat 32 w)).set (off / 4 + 1) (BitVec.ofNat 32 (w / 2 ^ 32))
  { x with body := body }

/-- Clamp one field; the entry that reports it. -/
def clampField (x : Section) (r : ClampRule) : Section × List FoldEntry :=
  let v := wideField x r.off r.bit r.width
  let n : Int := if r.signed && 2 ^ (r.width - 1) ≤ v then (v : Int) - 2 ^ r.width else v
  let (lo, hi) := r.range x
  let c : Int := max lo (min hi n)
  if c = n then (x, [])
  else
    let w := (c % 2 ^ r.width).toNat
    (putBody x r.off r.bit r.width w,
      [{ w0 := BitVec.ofNat 32 (x.ty + 65536 * x.inst), w1 := BitVec.ofNat 32 (r.off + 65536 * r.bit),
         w2 := BitVec.ofNat 32 v, w3 := BitVec.ofNat 32 w }])

/-- Clamp a section. -/
def clampSection (s : State) (g : Torus) (x : Section) : Section × List FoldEntry :=
  (clampRules s g x.ty).foldl (fun r rule =>
    let (y, es) := clampField r.1 rule
    (y, r.2 ++ es)) (x, [])

/-! ### DEV_FOLD.GO (R487) -/

/-- A fold is refused: nothing staged, the first reason and one entry for each (R485). -/
def refuseFold (s : State) (xs : List FoldRefusal) : State :=
  let s := xs.foldl (fun s x => reportEntry s (refusalEntry x)) s
  let code := xs.foldl (fun m x => if m = 0 then x.code else min m x.code) 0
  { s with itin := { s.itin with result := 2, reason := code, plan := none } }

/-- The fold of a selection: checks, clamps, and either its refusal or the plan for its instant, which the panel
chooses within 12 ms (R487; a free value). -/
def beginFold (s : State) (sel : Word) (boot : Bool) : State :=
  let s := { s with itin := { s.itin with report := [], overflow := 0 } }
  match refusals s sel with
  | [] =>
    let ss := effective s sel
    let g := newTorus ss
    let done := ss.map (clampSection s g)
    let s := (done.flatMap (·.2)).foldl reportEntry s
    let ss := done.map (·.1)
    (match quietRefusals s ss with
      | [] =>
        let job := BitVec.ofNat 64 (imageWord s 0 0x10 + 2 ^ 32 * imageWord s 0 0x14)
        let plan : FoldPlan := { sections := ss, job, sel, instant := s.time + s.free % 12000001, boot }
        { s.used with itin := { s.itin with plan := some plan } }
      | xs => refuseFold s xs)
  | xs => refuseFold s xs

/-- FOLD_GO (R487, R490). -/
def execFoldGo (p : Path) (s : State) : Host.Outcome State Fault Refusal :=
  .next (itinWrite s p 0x8020 1 (fun s => beginFold s s.itin.sel false))

end Sys2Proof.Machine
end

