-- ==== Sys2Proof/Machine/Parties.lean ====
section
/-! DEFINITION. Parties: their states, a reset, and the boot fold
(spec/13_itinerary_and_control.md R491, R502 to R505). -/

namespace Sys2Proof.Machine

open Sys2Proof

/-! ### What a tile of a party starts with (R265, R275, R480, R502) -/

/-- Seed k of a party, from its PARTIES section (R480). -/
def partySeed (ss : List Section) (p k : Nat) : Nat :=
  partyField ss p (0x10 + 8 * k) 0 32 + 2 ^ 32 * partyField ss p (0x14 + 8 * k) 0 32

/-- The seed table of a party as its tiles hold it (R93, R480). -/
def partySeeds (ss : List Section) (p : Nat) : SMap Dword :=
  (List.range 16).foldl (fun m k => mset 0 m k (BitVec.ofNat 64 (partySeed ss p k))) []

/-- Load the seed table into a tile, as a SET_SEED would (R298). -/
def loadSeeds (s : State) (t : Nat) (seeds : SMap Dword) : State := s.modTile t (fun x => { x with seeds })

/-- Every queue of a tile is set as R265 says, and the cache marks of what it had prefetched go. -/
def clearQueues (s : State) (t : Nat) : State :=
  s.each (List.range 256) (fun i s =>
    let g := 256 * t + i
    let q := s.queue g
    if q = {} then s
    else
      let s := discardPrefetch s t g (fun _ => true)
      s.setQueue g (clearedQueue (s.queue g)))

/-- Every tally of a tile becomes 0 (R275). -/
def clearTallies (s : State) (t : Nat) : State := { s with tallies := mdrop (fun k => k / 2048 = t) s.tallies }

/-- Banks, drains and engines of a tile after a reset of its party (R122, R142). -/
def clearEngines (s : State) (t : Nat) : State :=
  let s := { s with banks := mdrop (fun k => k / 8 = t) s.banks, drains := mdrop (fun k => k / 4 = t) s.drains }
  s.each (List.range 4) (fun e s =>
    let x := s.engine (4 * t + e)
    s.setEngine (4 * t + e) { x with passes := [], shadow := none, active := none, latest := none, users := [] })

/-- Health flags and every statistic of the watches of a tile are cleared (R159, R505). -/
def clearHealth (s : State) (t : Nat) : State :=
  let s := { s with regs := mdrop (fun a => tilA t 0x18000 ≤ a && a < tilA t 0x18400) s.regs }
  s.each (List.range 256) (fun w s => clearWatch s t w)

/-! ### Reset (R502, R504, R505) -/

/-- What is outstanding of a command or signal of tile `t`: no answer of the old epoch counts any more (R334). -/
def ofTile (t : Nat) : Purpose → Bool
  | .command g _ => g / 256 = t
  | .restore g _ => g / 256 = t
  | .signal g _ _ _ => g / 256 = t
  | _ => false

/-- The connection tables of a tile are cleared with what its commands have outstanding (R334). -/
def clearConns (s : State) (t : Nat) : State :=
  { s with fabric := { s.fabric with
    conns := s.fabric.conns.filter (fun c => c.src ≠ .tile (Fin.ofNat 64 t)),
    sent := s.fabric.sent.filter (fun o => !ofTile t o.purpose),
    unsent := s.fabric.unsent.filter (fun u => !ofTile t u.purpose) } }

/-- A reset of its party acts on a tile (R505). -/
def resetTile (s : State) (p t : Nat) : State :=
  let mine := fun (g : Nat) (_ : Word) => decide (g / 256 = t)
  let s := stopUnits s t { dead := mine, task := mine } false
  let s := s.setColl t { s.coll t with seqs := [] }
  let s := clearTallies (clearQueues s t) t
  let s := clearConns (clearHealth (clearEngines s t) t) t
  s.modTile t (fun x => { x with gateFail := false, fence := none, seeds := partySeeds s.itin.force p })

/-- The roll-call forgets the party's operations: messages of the old epoch count no more (R370, R372). -/
def clearRollCall (s : State) (p : Nat) : State :=
  refillOps { s with rc := { s.rc with
    ops := s.rc.ops.filter (fun o => o.party ≠ p),
    unacked := s.rc.unacked.filter (fun u => u.msg.party ≠ p),
    last := mset 0 s.rc.last p 0,
    late := s.rc.late.filter (fun x => x.1 ≠ p), votes := s.rc.votes.filter (fun x => x.1 ≠ p),
    mapFence := s.rc.mapFence.filter (fun x => x.1 ≠ p) } }

/-- Mirror windows of a tile whose party resets (R564, R565). -/
def resetMirrors (s : State) (t : Nat) : State := s.each (List.range 4) (fun w s => mirrorInvalid s t w 3)

/-- The party's open generation is discarded (R551). -/
def discardOpen (s : State) (p : Nat) : State :=
  { s with rk := { s.rk with
    gens := s.rk.gens.filter (fun g => g.party ≠ p || g.sealed),
    sealing := s.rk.sealing.filter (fun x => x.party ≠ p) } }

/-- A reset starts. -/
def startReset (s : State) (p : Nat) : State :=
  s.setParty p { s.party p with phase := .resetting, cleared := false }

/-- 20 ms have passed since the party's last reset completed (R502). -/
def resetDue (s : State) (x : Party) : Bool :=
  match x.lastReset with
  | some t => t + 20000000 ≤ s.now
  | none => true

/-- A reset request for party `p` (R502, R504). -/
def requestReset (s : State) (path : Path) (p : Nat) : State :=
  let x := s.party p
  if x.phase = .ready then
    (if resetDue s x then startReset s p else s.setParty p { x with phase := .resetWait })
  else accessError s { path, off := 0x8300 } 2

/-- PARTY_RESET_REQUEST (R504). -/
def execPartyResetRequest (p : Path) (party : Fin 16) (s : State) : Host.Outcome State Fault Refusal :=
  .next (ownerWrite s p 0x8300 (BitVec.ofNat 32 (party.val + 16)) (fun s => requestReset s p party.val))

/-- PARTY_RESET_WAIT_EXPIRY (R502). -/
def execPartyResetWaitExpiry (party : Fin 16) (s : State) : Host.Outcome State Fault Refusal :=
  let x := s.party party.val
  if x.phase = .resetWait && s.power.pwrgd then
    .next (startReset (s.passTo (x.lastReset.getD 0 + 20000000)) party.val)
  else .next s

/-- PARTY_RESET (R505): its commands stop, its state is cleared, its epoch advances. -/
def execPartyReset (party : Fin 16) (s : State) : Host.Outcome State Fault Refusal :=
  let p := party.val
  let x := s.party p
  if x.phase ≠ .resetting || x.cleared || !s.power.pwrgd then .next s
  else
    let s := s.each (partyTiles s p) (fun t s => resetMirrors (resetTile s p t) t)
    .next ((discardOpen (clearRollCall s p) p).setParty p { x with epoch := x.epoch + 1, cleared := true })

/-- PARTY_RESET_DONE (R502, R529): every issued command of the party has stopped. -/
def execPartyResetDone (party : Fin 16) (s : State) : Host.Outcome State Fault Refusal :=
  let p := party.val
  let x := s.party p
  let quiet := (partyTiles s p).all (fun t => (List.range 256).all (fun i => (s.queue (256 * t + i)).inflight.isEmpty))
  if x.phase ≠ .resetting || !x.cleared || !quiet then .next s
  else
    let n := satAdd x.resets 1
    let s := s.setParty p { x with phase := .ready, resets := n, lastReset := some s.now, cleared := false }
    .next (post s 0x0B (srcDevice 0) (p + 2 ^ 8 * x.epoch.toNat + 2 ^ 32 * n.toNat) p)

/-- PARTY_ZEROING_DONE (R502, R529): no tile of the party is being zeroed. -/
def execPartyZeroingDone (party : Fin 16) (s : State) : Host.Outcome State Fault Refusal :=
  let p := party.val
  let x := s.party p
  let ts := partyTiles s p
  if x.phase = .zeroing && ts.all (fun t => !(s.tile t).zero.active) then
    .next (post (s.setParty p { x with phase := .ready }) 0x0A (srcDevice 0)
      (p + 2 ^ 8 * x.epoch.toNat + 2 ^ 16 * ts.length) p)
  else .next s

/-! ### The boot fold (R491, R583, R601) -/

/-- BOOT_FOLD event: 0 none held, 1 folded, 2 refused with its reason (R529). -/
def bootEvent (s : State) (result reason : Nat) : State := post s 0x06 (srcDevice 2) (result + 4 * reason)

/-- The stored job key is unwrapped and becomes current; a key that fails to unwrap leaves none (R583, R601). -/
def unwrapKey (s : State) : State :=
  match s.sec.jkStored with
  | none => s
  | some k =>
    if Config.unwraps k then { s with sec := { s.sec with jk := some k } }
    else secFault { s with sec := { s.sec with jk := none } } 0x0A 0 0

/-- BOOT_FOLD (R491): after power-up HB0 loads the boot itinerary into the store, verifies every slot and folds it with
the saved selection. -/
def execBootFold (s : State) : Host.Outcome State Fault Refusal :=
  if !panelRuns s || s.power.stage ≠ 8 || s.itin.folded || s.itin.plan.isSome then .next s
  else
    let s := { s with power := { s.power with stage := 9 } }
    match s.itin.bootStore with
    | none => .next (bootEvent s 0 0)
    | some (store, ks, sel) =>
      let s := { s with itin := { s.itin with store, slots := [], sel } }
      let s := s.each ks (fun k s => s.setSlot k (verdict s k))
      let s := beginFold (unwrapKey s) sel true
      if s.itin.plan.isSome then .next s else .next (bootEvent s 2 s.itin.reason)

end Sys2Proof.Machine
end

