-- ==== Sys2Proof/Machine/Domains.lean ====
section
/-! DEFINITION. Power domains and straps: what is to be switched on or off, what is on, and what a die samples as it
leaves its reset (spec/01 R16 to R18, spec/17 R606, R607). -/

namespace Sys2Proof.Machine

open Sys2Proof

/-! ### Straps (R16 to R18) -/

/-- A number below 2^n completed to odd parity by bit `n`. -/
def oddParity (n v : Nat) : Nat := if countOnes n v % 2 = 1 then v else v + 2 ^ n

/-- Strap pads of a die, by its number of `JtagDie.id`, as R16 and R17 tie them. -/
def strapPads (k : Nat) : Nat :=
  if k < 72 then oddParity 7 k else if k < 80 then oddParity 3 (k - 72) else oddParity 1 (k - 80)

/-- What a strap value names: the position without its parity bit. -/
def strapPosition (k v : Nat) : Nat := if k < 72 then v % 128 else if k < 80 then v % 8 else v % 2

/-- The strap value is good: its parity is odd, and a compute site's position is below 72 (R18). -/
def strapGood (k v : Nat) : Bool :=
  countOnes (if k < 72 then 8 else if k < 80 then 4 else 2) v % 2 = 1 && (72 ≤ k || strapPosition k v < 72)

/-- The pads that a die would sample now. -/
def padsAt (s : State) (k : Nat) : Nat := (mget none s.panel.pads k).getD (strapPads k)

/-- A die samples its straps on the release of its reset (R18). -/
def sampleStraps (s : State) (k : Nat) : State :=
  { s with panel := { s.panel with straps := mset none s.panel.straps k (some (padsAt s k)) } }

/-- The straps that a die holds, 0 before its first sample. -/
def strapsHeld (s : State) (k : Nat) : Nat := (mget none s.panel.straps k).getD 0

/-! ### Domains (R606, R607) -/

def domainOn (s : State) (d : Nat) : Bool := mget false s.power.on d
def domainGood (s : State) (d : Nat) : Bool := mget false s.power.good d

/-- The die with straps that a domain supplies, by its number of `JtagDie.id`. -/
def domainStraps (d : Nat) : Option Nat :=
  if d < 72 then some d else if 144 ≤ d ∧ d < 154 then some (d - 72) else none

/-- A list in rising order with one more domain. -/
def insertUp (d : Nat) : List Nat → List Nat
  | [] => [d]
  | x :: xs => if d < x then d :: x :: xs else if d = x then x :: xs else x :: insertUp d xs

/-- A list in falling order with one more domain. -/
def insertDown (d : Nat) : List Nat → List Nat
  | [] => [d]
  | x :: xs => if x < d then d :: x :: xs else if d = x then x :: xs else x :: insertDown d xs

/-- A domain is to be switched on. -/
def wantOn (s : State) (d : Nat) : State :=
  let p := s.power
  let off := p.unwanted.filter (fun x => x ≠ d)
  let on := if domainOn s d then p.wanted else insertUp d p.wanted
  { s with power := { p with unwanted := off, wanted := on } }

/-- A domain is to be switched off. -/
def wantOff (s : State) (d : Nat) : State :=
  let p := s.power
  let on := p.wanted.filter (fun x => x ≠ d)
  let off := if domainOn s d then insertDown d p.unwanted else p.unwanted
  { s with power := { p with unwanted := off, wanted := on } }

/-- A rail starts its soft start. -/
def railOn (s : State) (d : Nat) : State :=
  let p := s.power
  { s with power := { p with on := mset false p.on d true, good := mset false p.good d false,
                             switched := mset none p.switched d (some s.now) } }

/-- A domain reports power good; a die with straps leaves its reset and samples them. -/
def railGood (s : State) (d : Nat) : State :=
  let p := s.power
  let s := { s with power := { p with good := mset false p.good d true, switched := mset none p.switched d none } }
  match domainStraps d with
  | some k => sampleStraps s k
  | none => s

/-- A rail goes off: what its die held is lost, a basket or a hamper with it (R624). -/
def railOff (s : State) (d : Nat) : State :=
  let p := s.power
  let s := { s with power := { p with on := mset false p.on d false, good := mset false p.good d false,
                                      switched := mset none p.switched d none } }
  let s := match domainStraps d with
    | some k => { s with panel := { s.panel with straps := mset none s.panel.straps k none } }
    | none => s
  if d < 144 then
    match tileAt? s (d % 72) with
    | some t =>
      let s := s.modTile t (fun x => { x with trained := false })
      if d < 72 then clearWhere s t (fun o => decide (o < 0x6000000)) else clearWhere s t inHamper
    | none => s
  else s

/-- The time of the next switch-on or switch-off: 25 µs after the one before (R607). -/
def nextToggle (s : State) : Nat :=
  match s.power.toggled with
  | some t => t + 25000
  | none => s.now

end Sys2Proof.Machine
end

