-- ==== Sys2Proof/Machine/Guests.lean ====
section
/-! DEFINITION. Guests: bring-up, profile, loss and control (spec/01 R46 to R54, spec/17 R608, spec/18 R641, R642). -/

namespace Sys2Proof.Machine

open Sys2Proof

/-- Power domain of a guest site (R606). -/
def guestDomain (n : Nat) : Nat := 154 + n

/-- `DEV_GUESTn_LO`; its high word stays 0 (R42). -/
def guestA (n : Nat) : Nat := 0x1040 + 8 * n

/-- The guest's GUEST_FITTED fuse (R47). -/
def guestFitted (s : State) (n : Nat) : Bool := bits s.panel.fitted n 1 = 1

/-! ### Attempts (R48) -/

/-- A step of the attempt fails or times out: the guest is reset, and after the fourth attempt it is absent. -/
def failAttempt (s : State) (n step : Nat) (late : Bool) : State :=
  let g := s.guest n
  let s := s.setReg (guestA n) 0
  if g.attempt < 4 then s.setGuest n { status := .bringup, attempt := g.attempt, since := s.now }
  else
    let s := wantOff (s.setGuest n { status := .absent, attempt := g.attempt }) (guestDomain n)
    post s 0x13 (srcGuest n) (step + 8 * late.toNat)

/-- GUEST_BRINGUP_START (R48, step 1): the guest's domain is switched on and its reset held. -/
def execGuestBringupStart (n : Fin 4) (s : State) : Host.Outcome State Fault Refusal :=
  let g := s.guest n.val
  let fresh := g.status = .idle || (g.status = .bringup && g.step = 0)
  if !panelRuns s || s.power.stage < 6 || !guestFitted s n.val || (anchorTile s n.val).isNone || !fresh then .next s
  else
    let s := s.setGuest n.val { g with status := .bringup, attempt := g.attempt + 1, step := 1, since := s.now }
    let s := s.setReg (guestA n.val) 0
    let d := guestDomain n.val
    .next (if domainGood s d then wantOn s d else if domainOn s d then railOn s d else wantOn s d)

/-- GUEST_RESET_RELEASE (R48, step 1): 1 ms after the domain reported good. -/
def execGuestResetRelease (n : Fin 4) (s : State) : Host.Outcome State Fault Refusal :=
  let g := s.guest n.val
  if !panelRuns s || g.status ≠ .bringup || g.step ≠ 1 || !domainGood s (guestDomain n.val) then .next s
  else
    let s := s.passTo (g.since + 1000000)
    .next (s.setGuest n.val { g with step := 2, since := s.now })

/-- The profile offer (R49): version 1, the modules trained, 16 GT/s, payloads up to 256 B, five channels, 600 units of
power, and as receive credits the 40 flits that a router port buffers for each channel (R320). -/
def profileOffer (modules : Nat) : List Dword :=
  [BitVec.ofNat 64 (1 + 2 ^ 16 * modules + 2 ^ 20 * 4),
   BitVec.ofNat 64 (3 + 2 ^ 8 * 5 + 2 ^ 16 * 40 + 2 ^ 32 * 600), 0, 0]

/-- GUEST_TRAINING_DONE (R46, R48, steps 2 and 3): the offer goes out when a module has trained. -/
def execGuestTrainingDone (n : Fin 4) (modules : BitVec 4) (s : State) : Host.Outcome State Fault Refusal :=
  let g := s.guest n.val
  if !panelRuns s || g.status ≠ .bringup || g.step ≠ 2 then .next s
  else if modules = 0 then .next (failAttempt s n.val 2 false)
  else
    let s := s.setGuest n.val { g with modules := modules.toNat, rate := 4, step := 4, since := s.now }
    .next (s.emit (.sideband n (profileOffer modules.toNat)))

/-! ### The answer (R49, R50) -/

/-- A field of word `w` of an answer. -/
def answerField (ws : List Dword) (w lo k : Nat) : Nat := bits (ws.getD w 0).toNat lo k

/-- The panel accepts the answer (R50). -/
def answerOk (modules : Nat) (ws : List Dword) : Bool :=
  ws.length = 4 && answerField ws 0 0 16 = 1 &&
  (1 ≤ answerField ws 0 20 4 && answerField ws 0 20 4 ≤ 4) &&
  (1 ≤ answerField ws 1 0 8 && answerField ws 1 0 8 ≤ 3) &&
  (answerField ws 0 16 4 &&& modules) ≠ 0 && 5 ≤ answerField ws 1 8 8 && 5 ≤ answerField ws 1 16 16 &&
  answerField ws 1 32 16 ≤ 600 && (1 ≤ answerField ws 2 0 32 && answerField ws 2 0 32 ≤ 65536)

/-- The answer's FEATURES hold every bit that the itinerary in force requires of the guest (R483). -/
def guestFeatures (s : State) (n : Nat) (ws : List Dword) : Bool :=
  match sectionOf s.itin.force 8 (2 + n) with
  | some x => bodyField x 0 0 16 &&& answerField ws 1 48 16 = bodyField x 0 0 16
  | none => true

/-- GUEST_PROFILE_ANSWER (R48, steps 4 and 5, R50): an accepted answer is confirmed. The confirm message's content is
not in the spec and is shown as no words. -/
def execGuestProfileAnswer (n : Fin 4) (words : List Dword) (s : State) : Host.Outcome State Fault Refusal :=
  let g := s.guest n.val
  if !panelRuns s || g.status ≠ .bringup || g.step ≠ 4 then .next s
  else if !(answerOk g.modules words && guestFeatures s n.val words) then .next (failAttempt s n.val 5 false)
  else
    let s := s.setGuest n.val { g with
      modules := g.modules &&& answerField words 0 16 4, rate := min 4 (answerField words 0 20 4),
      payload := min 3 (answerField words 1 0 8), answer := words, window := answerField words 2 0 32,
      maxPower := answerField words 1 32 16, step := 6, since := s.now }
    .next (s.emit (.sideband n []))

/-- LO of the capability word of a guest, from its answer (R42, R43). -/
def guestCap (ws : List Dword) : Word :=
  BitVec.ofNat 32 (3 + 2 ^ 4 * answerField ws 0 24 4 + 2 ^ 8 * answerField ws 0 28 4 + 2 ^ 16 * answerField ws 1 48 16)

/-- GUEST_CONFIRM_ACK (R48, step 6): the guest waits for the next fold. -/
def execGuestConfirmAck (n : Fin 4) (s : State) : Host.Outcome State Fault Refusal :=
  let g := s.guest n.val
  if !panelRuns s || g.status ≠ .bringup || g.step ≠ 6 then .next s
  else .next ((s.setGuest n.val { g with status := .staged, step := 7 }).setReg (guestA n.val) (guestCap g.answer))

/-- Limit of a step of R48, in ns. -/
def stepLimit : Nat → Option Nat
  | 2 => some 50000000 | 4 => some 10000000 | 6 => some 1000000 | _ => none

/-- GUEST_STEP_TIMEOUT (R48). -/
def execGuestStepTimeout (n : Fin 4) (s : State) : Host.Outcome State Fault Refusal :=
  let g := s.guest n.val
  match stepLimit g.step with
  | some limit =>
    if !panelRuns s || g.status ≠ .bringup then .next s
    else .next (failAttempt (s.passTo (g.since + limit)) n.val g.step true)
  | none => .next s

/-- GUEST_EARLY_PACKET (R51): the packet is discarded, and the attempt fails. -/
def execGuestEarlyPacket (n : Fin 4) (s : State) : Host.Outcome State Fault Refusal :=
  let g := s.guest n.val
  if !panelRuns s || !(g.status = .bringup || g.status = .staged) || g.step = 0 then .next s
  else .next (failAttempt s n.val g.step false)

/-! ### Down (R54, R608, R641) -/

/-- A copy is in flight to or from a guest at its anchor's router: it waits for the guest, it lies in the guest's window,
or it came from the guest (R54). -/
def guestCopy (s : State) (n t : Nat) (c : Copy) : Bool :=
  c.held.tile = t && ((c.branch.out = 8 && c.held.pkt.dstKind = 2) ||
    (c.branch.out = 7 && guestWindow? s t c.held.pkt = some n) || joinsAt s t c.held.port (.guest (Fin.ofNat 4 n)))

/-- A guest is declared down, and its domain is switched off; packets in flight to or from it are dropped, each with NACK
LINK (R54, R607). -/
def guestDown (s : State) (n : Nat) : State :=
  let (k, s) := match anchorTile s n with
    | some t =>
      if (s.guest n).status = GuestStatus.inService then
        ((copiesWhere s (guestCopy s n t)).length, dropWhere s (guestCopy s n t))
      else (0, s)
    | none => (0, s)
  let s := wantOff (s.setGuest n { s.guest n with status := .down, step := 0, attempt := 0, mainband := false }) (guestDomain n)
  post s 0x14 (srcGuest n) (k % 2 ^ 32)

/-- GUEST_LINK_DOWN (R54): after step 7. -/
def execGuestLinkDown (n : Fin 4) (s : State) : Host.Outcome State Fault Refusal :=
  if panelRuns s && (s.guest n.val).status = .inService then .next (guestDown s n.val) else .next s

/-- GUEST_POWER_SAMPLE (R608): the power of one millisecond, in units of 0.25 W. -/
def execGuestPowerSample (n : Fin 4) (power : Nat) (s : State) : Host.Outcome State Fault Refusal :=
  let g := s.guest n.val
  if !panelRuns s || !(g.status = .staged || g.status = .inService) then .next s
  else
    let x := if g.maxPower < power then g.excess + 1 else 0
    let s := s.setGuest n.val { g with excess := x }
    if x < 10 then .next s
    else
      let s := guestDown s n.val
      .next { s with power := { s.power with guestPower := true } }

/-- What a write of `DEV_GUEST_CTRL` does (R641): TAKE_DOWN wins over RENEGOTIATE of the same guest. -/
def guestCtrl (s : State) (v : Word) : State :=
  s.each (List.range 4) (fun n s =>
    let g := s.guest n
    if v.getLsbD (4 + n) then
      (if g.status = .bringup || g.status = .staged || g.status = .inService then guestDown s n else s)
    else if v.getLsbD n && (g.status = .absent || g.status = .down) then
      (s.setGuest n { status := .bringup, since := s.now }).setReg (guestA n) 0
    else s)

/-- RENEGOTIATE (R641). -/
def execRenegotiate (p : Path) (guests : BitVec 4) (s : State) : Host.Outcome State Fault Refusal :=
  let v := BitVec.ofNat 32 guests.toNat
  .next (ownerWrite s p 0x1060 v (fun s => guestCtrl s v))

/-- TAKE_DOWN (R641). -/
def execTakeDown (p : Path) (guests : BitVec 4) (s : State) : Host.Outcome State Fault Refusal :=
  let v := BitVec.ofNat 32 (16 * guests.toNat)
  .next (ownerWrite s p 0x1060 v (fun s => guestCtrl s v))

/-- `DEV_GUEST_STATUS` (R642). -/
def guestStatusWord (s : State) : Nat :=
  (List.range 4).foldl (fun w n => w + 16 ^ n * (s.guest n).status.code) 0

end Sys2Proof.Machine
end

