-- ==== Sys2Proof/Machine/Startup.lean ====
section
/-! DEFINITION. From power good to the first fold: the timed sequence, the row skip map, and the domains
(spec/01 R19 to R28, spec/17 R607, R625, R626). -/

namespace Sys2Proof.Machine

open Sys2Proof

/-! ### Power good (R625, R658, R659) -/

/-- POWER_GOOD (R625): time 0. The host bridges are on and sample their straps and the address pins. -/
def execPowerGood (aa : Fin 4) (s : State) : Host.Outcome State Fault Refusal :=
  if s.power.pwrgd then .next s
  else
    let s := railGood (railGood (railOn (railOn s 152) 153) 152) 153
    let s := { s with power := { s.power with pwrgd := true, bases := s.now, stage := 0 },
                      mgmt := { s.mgmt with aa := aa.val },
                      sec := { s.sec with nonce := Config.drbg s.draws } }
    .next (s.used.emit (.pwrgd true))

/-! ### The row skip map (R19 to R22, R27, R28) -/

/-- A field entry is well formed (R19). -/
def fieldOk (f : Nat) : Bool :=
  f = 0 || (f < 32 && 1 ≤ f % 16 && f % 16 ≤ 9 && countOnes 5 f % 2 = 1)

/-- The entries of a row of a copy. -/
def mapRow (c : MapCopy) (r : Nat) : Nat × Nat × Nat := (c.skip.getD r 15, c.kind.getD r 0, c.field.getD r 0)

/-- A copy is valid (R19). -/
def copyValid (c : MapCopy) : Bool :=
  c.crc = rowmapCrc c.skip c.kind && (List.range 8).all (fun r => c.skip.getD r 15 ≤ 8 && fieldOk (c.field.getD r 0))

/-- Rows in which the copies differ. -/
def mapDiffers (s : State) : List Nat :=
  (List.range 8).filter (fun r => mapRow s.panel.hb0 r ≠ mapRow s.panel.hb1 r)

/-- The row whose entry a power loss left in HB0 alone (R22, second row). -/
def repairRow (s : State) : Option Nat :=
  match mapDiffers s with
  | [r] =>
    let a := mapRow s.panel.hb0 r
    let b := mapRow s.panel.hb1 r
    if a.1 = b.1 && a.2.1 = b.2.1 && a.2.2 ≠ 0 && b.2.2 = 0 then some r else none
  | _ => none

/-- Effective skipped column of a row of a copy (R20). -/
def effectiveSkip (c : MapCopy) (r : Nat) : Nat :=
  let f := c.field.getD r 0
  if f = 0 then c.skip.getD r 15 else f % 16 - 1

/-- `DEV_ROWMAPr` but for RETIRE_OK (R27). -/
def rowmapWord (c : MapCopy) (r : Nat) : Word :=
  let kind := if c.field.getD r 0 ≠ 0 then 2 else c.kind.getD r 0
  BitVec.ofNat 32 (effectiveSkip c r + 2 ^ 4 * kind + 2 ^ 6 * c.skip.getD r 15)

/-- The copy in force. -/
def mapInUse (s : State) : MapCopy := if s.field 0x1020 3 1 = 1 then s.panel.hb1 else s.panel.hb0

/-- Use a copy: the map registers, the skipped columns, and the guests that are fitted; a guest whose anchor site the
map skips is absent (R22, R27, R28, R47, R642). -/
def useMap (s : State) (second repaired v0 v1 : Bool) : State :=
  let c := if second then s.panel.hb1 else s.panel.hb0
  let s := s.each (List.range 8) (fun r s => s.setReg (0x1000 + 4 * r) (rowmapWord c r))
  let s := s.setReg 0x1020 (BitVec.ofNat 32 (v0.toNat + 2 * v1.toNat + 4 * repaired.toNat + 8 * second.toNat + 0xF0))
  let skip := (List.range 8).map (effectiveSkip c)
  let s := { s with panel := { s.panel with mapRead := true, skip, pending := 0 } }
  s.each (List.range 4) (fun n s =>
    let s := if (anchorTile s n).isNone then s.setReg (guestA n) 0 else s
    if guestFitted s n && (s.guest n).status = .unfitted then s.setGuest n { status := .idle } else s)

/-- ROW_MAP_READ (R22). Copies that differ in several rows stop start-up with MAP_MISMATCH, which names the lowest of
them (R570 has room for one; DESIGN CHOICE, assumption log entry 142). -/
def execRowMapRead (s : State) : Host.Outcome State Fault Refusal :=
  if !panelRuns s || s.power.stage ≠ 3 || s.panel.mapRead then .next s
  else
    let v0 := copyValid s.panel.hb0
    let v1 := copyValid s.panel.hb1
    let s := { s with panel := { s.panel with mapTried := true } }
    let shown := s.setReg 0x1020 (BitVec.ofNat 32 (v0.toNat + 2 * v1.toNat + 0xF0))
    if v0 && v1 then
      match mapDiffers s with
      | [] => .next (useMap s false false true true)
      | r :: _ =>
        match repairRow s with
        | some r =>
          let f := s.panel.hb0.field.getD r 0
          let hb1 := s.panel.hb1
          let s := { s with panel := { s.panel with hb1 := { hb1 with field := hb1.field.set r f } } }
          .next (useMap (post s 0x10 (srcDevice 0) r) false true true true)
        | none => .next (enterSafe shown 0x02 (extra := r))
    else if v0 || v1 then .next (useMap (post s 0x11 (srcDevice 0) v1.toNat) v1 false v0 v1)
    else .next (enterSafe shown 0x01)

/-! ### Domains (R607) -/

/-- Power is good and the panel switches rails on. -/
def execDomainSwitchOn (s : State) : Host.Outcome State Fault Refusal :=
  match s.power.wanted with
  | [] => .next s
  | d :: ds =>
    if !panelRuns s then .next s
    else
      let s := s.passTo (nextToggle s)
      .next (railOn { s with power := { s.power with wanted := ds, toggled := some s.now } } d)

/-- DOMAIN_SWITCH_OFF (R607). -/
def execDomainSwitchOff (s : State) : Host.Outcome State Fault Refusal :=
  match s.power.unwanted with
  | [] => .next s
  | d :: ds =>
    if !s.power.pwrgd then .next s
    else
      let s := s.passTo (nextToggle s)
      .next (railOff { s with power := { s.power with unwanted := ds, toggled := some s.now } } d)

/-- DOMAIN_POWER_GOOD (R607): what waits for the domain may begin; a guest's reset is held for 1 ms from now. -/
def execDomainPowerGood (d : Fin 158) (s : State) : Host.Outcome State Fault Refusal :=
  if !s.power.pwrgd || !domainOn s d.val || domainGood s d.val then .next s
  else
    let s := railGood s d.val
    if 154 ≤ d.val then .next (s.setGuest (d.val - 154) { s.guest (d.val - 154) with since := s.now }) else .next s

/-- DOMAIN_POWER_GOOD_TIMEOUT (R607): 1 ms after the switch-on. -/
def execDomainPowerGoodTimeout (d : Fin 158) (s : State) : Host.Outcome State Fault Refusal :=
  match mget none s.power.switched d.val with
  | none => .next s
  | some t =>
    if !s.power.pwrgd then .next s
    else
      let s := s.passTo (t + 1000000)
      let s := { s with power := { s.power with switched := mset none s.power.switched d.val none } }
      if 154 ≤ d.val then .next (failAttempt s (d.val - 154) 1 true)
      else .next (enterSafe s 0x12 (srcPower 1 d.val))

/-! ### The sequence (R625) -/

/-- Sites of the map in force. -/
def mapSites (s : State) : List Nat := (List.range 72).filter (fun k => (tileAt? s k).isSome)

/-- Domains that start-up has on: those of the map's sites and of the lanterns (R607). -/
def startDomains (s : State) : List Nat :=
  mapSites s ++ (mapSites s).map (· + 72) ++ (List.range 8).map (· + 144)

/-- Domains that the map leaves off: those of the skipped sites' dies, and of the guests anchored there (R25, R47). -/
def skippedDomains (s : State) : List Nat :=
  (List.range 144).filter (fun d => (tileAt? s (d % 72)).isNone && domainOn s d) ++
  ((List.range 4).filter (fun n => (anchorTile s n).isNone && domainOn s (guestDomain n))).map guestDomain

/-- Both security modules have told whether their firmware and boot firmware verify (R585). -/
def bootsKnown (s : State) : Bool :=
  (List.range 2).all (fun h =>
    let m : SecModule := mget {} s.sec.modules h
    m.smOk.isSome && m.hbOk.isSome)

/-- Both coolant thermistors are lost (R620). -/
def coolantLost (s : State) : Bool :=
  (mget {} s.power.sensors 1000).lost && (mget {} s.power.sensors 1001).lost

/-- A mesh link of the map exists: the east neighbour within a row, the south neighbour within a column. -/
def meshLinks : List Strand :=
  (List.range 64).flatMap (fun t =>
    (if t % 8 < 7 then [mkMesh t true] else []) ++ (if t < 56 then [mkMesh t false] else []))

/-- Strands of lanterns and bridges to sites of the map in force. -/
def attachStrands (s : State) : List Strand :=
  ((List.range 8).flatMap (fun n => (List.range 4).map (mkLanternStrand n)) ++
   (List.range 2).flatMap (fun h => (List.range 3).map (mkBridgeStrand h))).filter
    (fun l => (strandTile s l).isSome)

/-- Training has ended: every tile is trained, every mesh link carries traffic, and every other strand is in service
or has failed (R35, R220). -/
def trainingDone (s : State) : Bool :=
  (List.range 64).all (fun t => (s.tile t).trained) && meshLinks.all (strandUp s) &&
  (attachStrands s).all (fun l => (s.strand l).phase = .active || (s.strand l).phase = .failed)

/-- The guide-core firmware and the tuning tables are verified and loaded (R412, R585). -/
def tablesLoaded (s : State) : Bool := s.sec.guideOk && (List.range 8).all (fun n => (s.lantern n).table)

/-- Start-up reaches a row of R625, `ms` after power good. -/
def reachStage (s : State) (stage ms : Nat) : State :=
  let s := s.passTo (s.power.bases + 1000000 * ms)
  { s with power := { s.power with stage } }

/-- STARTUP_STEP (R625): the next row, once the one before is complete. The management endpoint comes up at 40 ms in the
safe state too; the other rows are not reached in it. -/
def execStartupStep (s : State) : Host.Outcome State Fault Refusal :=
  if !s.power.pwrgd then .next s
  else
    let run := panelRuns s
    match s.power.stage with
    | 0 => .next (reachStage s 1 1)
    | 1 =>
      if bootsKnown s then
        let s := reachStage s 2 40
        .next { s with mgmt := { s.mgmt with up := true } }
      else .next s
    | 2 =>
      if run then
        let s := reachStage s 3 42
        .next (if coolantLost s then enterSafe s 0x11 else s)
      else .next s
    | 3 =>
      if run && s.panel.mapRead then
        let s := (skippedDomains s).foldl wantOff s
        .next (reachStage ((startDomains s).foldl wantOn s) 4 42)
      else .next s
    | 4 =>
      if run && s.power.wanted.isEmpty && (startDomains s).all (domainGood s) then .next (reachStage s 5 47)
      else .next s
    | 5 =>
      if run && trainingDone s then
        let s := reachStage s 6 52
        .next (s.each (List.range 64) (fun t s => startZero s t))
      else .next s
    | 6 =>
      if run && (List.range 64).all (fun t => !(s.tile t).zero.active) && tablesLoaded s then .next (reachStage s 7 75)
      else .next s
    | 7 => if run && s.rk.ready = 3 then .next (reachStage s 8 330) else .next s
    | _ => .next s

end Sys2Proof.Machine
end

