-- ==== Sys2Proof/Machine/Strands.lean ====
section
/-! DEFINITION. Strands: training, repair, frames and loss, and the training of the hampers
(spec/01 R24, R29 to R41, R45, spec/05 R220 to R222, spec/18 R643). -/

namespace Sys2Proof.Machine

open Sys2Proof

/-! ### Ends and widths (R24, R29, R34) -/

/-- Physical columns of a mesh link's two tiles. -/
def linkColumns (s : State) (t t' : Nat) : Nat × Nat := (physCol s t, physCol s t')

/-- LINK code of a mesh link: 1 straight, 2 diagonal, 3 skip (R24, R39). -/
def meshCode (s : State) (t t' : Nat) : Nat :=
  let (a, b) := linkColumns s t t'
  let d := if a < b then b - a else a - b
  if t / 8 = t' / 8 then (if d = 2 then 3 else 1) else if d = 0 then 1 else 2

/-- The tile at the other end of a mesh link. -/
def meshFar (t : Nat) (east : Bool) : Nat := if east then t + 1 else t + 8

/-- LINK code of a link (R39). -/
def strandCode (s : State) : Strand → Nat
  | .mesh t e => meshCode s t.val (meshFar t.val e)
  | .lantern _ _ => 4
  | .bridge _ _ => 5

/-- Groups of a link, and the fewest that may be in service (R29). -/
def strandGroups (s : State) (l : Strand) : Nat := if strandCode s l = 3 then 8 else 32
def strandMinimum (s : State) (l : Strand) : Nat := strandGroups s l / 2

/-- A link of the map in force: its neighbour exists, or its site is in the map. -/
def strandExists (s : State) : Strand → Bool
  | .mesh t e => if e then t.val % 8 < 7 else t.val < 56
  | l => (strandTile s l).isSome

/-- The dies at both ends, as numbers of `JtagDie.id`. -/
def strandDies (s : State) : Strand → Nat × Nat
  | .mesh t e => (siteOf s t.val, siteOf s (meshFar t.val e))
  | .lantern n i => (72 + n.val, (lanternSites.getD n.val []).getD i.val 0)
  | .bridge h i => (80 + h.val, (bridgeSites.getD h.val []).getD i.val 0)

/-- The power domain of a die. -/
def dieDomain (k : Nat) : Nat := if k < 72 then k else k + 72

/-- The strand of a port of a tile, and whether the tile is its first end (R39). -/
def portStrand (s : State) (t k : Nat) : Option (Strand × Bool) :=
  if k < 4 then meshStrand t k
  else
    match (attachments (siteOf s t))[k - 4]? with
    | some (.lantern n i) => some (mkLanternStrand n i, false)
    | some (.bridge h i) => some (mkBridgeStrand h i, false)
    | _ => none

/-- The port of a tile that a link lands on. -/
def strandPort (s : State) (t : Nat) (l : Strand) : Nat :=
  (List.range 7).findIdx (fun k => (portStrand s t k).any (fun x => x.1 = l))

/-- The tile at an end of a link, if a tile is there. -/
def endTile (s : State) (l : Strand) (far : Bool) : Option Nat :=
  match l with
  | .mesh t e => some (if far then meshFar t.val e else t.val)
  | l => if far then strandTile s l else none

/-- PARTNER of R39 as the tile's end of an attachment sees it. -/
def attachPartner : Strand → Nat
  | .mesh t _ => t.val
  | .lantern n _ => n.val
  | .bridge h _ => h.val

/-! ### Failing (R26, R35, R36) -/

/-- The row can still take a field retirement: its base is a standby, no entry is held, and a copy is valid (R20). -/
def retireOk (s : State) (r : Nat) : Bool :=
  let free := fun (c : MapCopy) => copyValid c && c.kind.getD r 0 = 0 && c.field.getD r 0 = 0
  let bad := fun (c : MapCopy) => !copyValid c
  (free s.panel.hb0 && (free s.panel.hb1 || bad s.panel.hb1)) || (bad s.panel.hb0 && free s.panel.hb1)

/-- The die holds faulty straps, or straps of another position than its own (R18, R34). -/
def dieStrange (s : State) (k : Nat) : Bool :=
  !strapGood k (strapsHeld s k) || strapPosition k (strapsHeld s k) ≠ strapPosition k (strapPads k)

/-- SOURCE of a lantern or bridge that reports one of its strands. R513 gives a bridge no code for the die as a whole;
its code 0 stands for it (DESIGN CHOICE, assumption log entry 144). -/
def attachSource : Strand → Nat
  | .mesh t _ => srcTile t.val 8
  | .lantern n _ => srcLantern n.val 0x14
  | .bridge h _ => srcBridge h.val 0

/-- LINK_FAIL of a lantern strand or a strand to a host bridge, as its tile's port reports it, or as the attached die
does, whose partner is the tile (R35, R529). -/
def linkFailFrom (l : Strand) (run attached : Bool) (s : State) : State :=
  match strandTile s l with
  | some t => post s 0x12 (if attached then attachSource l else srcTile t (0x10 + strandPort s t l))
      (strandCode s l + 2 ^ 4 * (if attached then t else attachPartner l) + 2 ^ 10 * run.toNat)
  | none => s

/-- The ends of a lantern or bridge strand that report its failure: a mismatch of straps is reported at both; a site
with faulty straps answers nobody, and its partner reports it; otherwise the tile's port does (R33 to R35). -/
def linkFailEvent (s : State) (l : Strand) (run : Bool) : State :=
  match (s.strand l).fault with
  | .strapMismatch => linkFailFrom l run true (linkFailFrom l run false s)
  | .silent => linkFailFrom l run (!strapGood (strandDies s l).2 (strapsHeld s (strandDies s l).2)) s
  | _ => linkFailFrom l run false s

/-- A mesh link stops start-up, or the running panel: LINK_FAIL names both sites. A site that its straps show to be bad,
in a row that can take no field retirement, cannot join any more, and ROW_EXHAUSTED names the row; where no end is known
to be the bad one, both rows must be spent, and the first end's is named (R26, R34, R35; assumption log entry 116). -/
def meshFails (s : State) (t t' : Nat) (starting : Bool) : State :=
  let known := [t, t'].filter (fun x => dieStrange s (siteOf s x))
  let spent := (if known.isEmpty then [t, t'] else known).filter (fun x => !retireOk s (x / 8))
  match spent with
  | x :: rest =>
    if starting && (!known.isEmpty || !rest.isEmpty) then enterSafe s 0x03 (extra := x / 8)
    else enterSafe s 0x04 (srcSite (siteOf s t)) (srcSite (siteOf s t'))
  | [] => enterSafe s 0x04 (srcSite (siteOf s t)) (srcSite (siteOf s t'))

/-- A link ends training in FAILED, for a reason (R33, R35). -/
def strandFails (s : State) (l : Strand) (fault : StrandFault) : State :=
  let s := s.setStrand l { s.strand l with phase := .failed, fault }
  match l with
  | .mesh t e => meshFails s t.val (meshFar t.val e) true
  | l => linkFailEvent s l false

/-! ### Training (R33) -/

/-- STRAND_TRAIN_START: both ends are out of reset; a die with faulty straps answers no partner (R18, R34). -/
def execStrandTrainStart (l : Strand) (s : State) : Host.Outcome State Fault Refusal :=
  let (a, b) := strandDies s l
  let x := s.strand l
  if !panelRuns s || s.power.stage ≠ 5 || x.phase ≠ .off || !strandExists s l ||
      !domainGood s (dieDomain a) || !domainGood s (dieDomain b) then .next s
  else if !strapGood a (strapsHeld s a) || !strapGood b (strapsHeld s b) then .next (strandFails s l .silent)
  else .next (s.setStrand l { attempt := x.attempt, phase := .clockLock, begun := s.now })

/-- STRAND_CLOCK_LOCK_TIMEOUT: at 20 µs the groups not locked go out of service. -/
def execStrandClockLockTimeout (l : Strand) (locked : BitVec 32) (s : State) : Host.Outcome State Fault Refusal :=
  let x := s.strand l
  if !panelRuns s || x.phase ≠ .clockLock then .next s
  else
    let s := s.passTo (x.begun + 20000)
    let dead := (List.range (strandGroups s l)).filter (fun g => !locked.getLsbD g)
    .next (s.setStrand l { x with phase := .deskew, dead })

/-- STRAND_DESKEW_DONE: the eye width of each wire is recorded. -/
def execStrandDeskewDone (l : Strand) (eyes : List (Wire × Nat)) (s : State) : Host.Outcome State Fault Refusal :=
  let x := s.strand l
  if !panelRuns s || x.phase ≠ .deskew then .next s
  else .next (s.setStrand l { x with phase := .wireTest, eyes })

/-- Wires of a group in one direction that failed: data wires, and whether the spare did. -/
def groupFailures (bad : List Wire) (g : Nat) (away : Bool) : List Wire × Bool :=
  let mine := bad.filter (fun w => w.group.val = g && w.away = away)
  (mine.filter (fun w => w.index.val < 64), mine.any (fun w => w.index.val = 64))

/-- REPAIR of a group in one direction: the wire that the spare replaces, and whether the group stays in service. -/
def repairGroup (bad : List Wire) (g : Nat) (away : Bool) : Option Wire × Bool :=
  match groupFailures bad g away with
  | ([], _) => (none, true)
  | ([w], false) => (some w, true)
  | _ => (none, false)

/-- The straps of the dies at both ends name the positions that R34 expects. -/
def partnersMatch (s : State) (l : Strand) : Bool :=
  let (a, b) := strandDies s l
  strapPosition a (strapsHeld s a) = strapPosition a (strapPads a) &&
    strapPosition b (strapsHeld s b) = strapPosition b (strapPads b)

/-- REV_MAJOR of the capability word that a lantern or bridge sends is too low for this stepping (R45). -/
def revisionLow (s : State) : Strand → Bool
  | .mesh _ _ => false
  | .lantern n _ => s.field (lanA n.val 0) 8 4 < 2
  | .bridge h _ => s.field (hbgA (8 * h.val)) 8 4 < 3

/-- The die of a link, for the cause DIE_REV. -/
def strandDieSource : Strand → Nat
  | .mesh t _ => srcTile t.val 0
  | .lantern n _ => srcLantern n.val 0x14
  | .bridge h _ => srcBridge h.val 0

/-- STRAND_WIRE_TEST_DONE: a wire fails on a bit error or an eye below 0.35 UI; REPAIR and POSITION follow. -/
def execStrandWireTestDone (l : Strand) (errors : List Wire) (s : State) : Host.Outcome State Fault Refusal :=
  let x := s.strand l
  if !panelRuns s || x.phase ≠ .wireTest then .next s
  else
    let bad := (errors ++ (x.eyes.filter (fun e => e.2 < 35)).map (·.1)).eraseDups
    let n := strandGroups s l
    let ok := fun g => !x.dead.contains g && (repairGroup bad g true).2 && (repairGroup bad g false).2
    let dead := (List.range n).filter (fun g => !ok g)
    let steered := ((List.range n).filter ok).flatMap (fun g =>
      (repairGroup bad g true).1.toList ++ (repairGroup bad g false).1.toList)
    let s := s.setStrand l { x with dead, steered, width := n - dead.length }
    if !partnersMatch s l then .next (strandFails s l .strapMismatch)
    else if strandMinimum s l ≤ n - dead.length then
      let s := s.setStrand l { s.strand l with phase := .active }
      .next (if revisionLow s l then enterSafe s 0x05 (strandDieSource l) else s)
    else if x.attempt < 3 then .next (s.setStrand l { attempt := x.attempt + 1 })
    else .next (strandFails s l .linkWidth)

/-! ### Running links (R30, R31, R36) -/

/-- One direction of a link. -/
def strandRx (x : StrandState) (far : Bool) : StrandRx := if far then x.far else x.near
def setStrandRx (x : StrandState) (far : Bool) (r : StrandRx) : StrandState :=
  if far then { x with far := r } else { x with near := r }

/-- Packets in the frames of a direction that its receiver has not accepted. -/
def inFlight (r : StrandRx) : List Parcel := (r.buffer.filter (fun f => r.next ≤ f.seq)).flatMap (·.items)

/-- The packets in flight on a lantern strand or a strand to a host bridge, and those that wait at its tile for the bridge
itself, are dropped, each with NACK LINK (R36, R333): their number, and the state after. -/
def dropStrand (s : State) (l : Strand) (t : Nat) : Nat × State :=
  let x := s.strand l
  let ps := (inFlight x.near ++ inFlight x.far).map (·.item)
  let here := fun (c : Copy) => match l with
    | .bridge h _ => c.held.tile = t && c.branch.out = 8 && c.held.pkt.dstKind = 1 && c.held.pkt.dstTile % 2 = h.val
    | _ => false
  let k := ps.length + (copiesWhere s here).length
  let s := s.setStrand l { x with near := {}, far := {} }
  (k, ps.foldl (dropTransit t) (dropWhere s here))

/-- A link goes down while it is ACTIVE: a mesh link takes the panel into the safe state; on another link the packets in
flight are dropped and reported, and what it carried leaves its direction's set (R36, R405, R453). -/
def strandDown (s : State) (l : Strand) : State :=
  let before := liveDirs s
  let s := s.setStrand l { s.strand l with phase := .failed, fault := .down }
  match l with
  | .mesh t e => meshFails s t.val (meshFar t.val e) false
  | l =>
    let s := linkFailEvent s l true
    match strandTile s l with
    | none => s
    | some t =>
      let (k, s) := dropStrand s l t
      let s := post s 0x40 (srcTile t (0x10 + strandPort s t l)) (k % 2 ^ 32 + 2 ^ 32 * 7)
      match l with
      | .lantern n _ =>
        s.each (List.range 32) (fun m s =>
          let e := (s.bundle n.val m).entry
          if e ≠ 0 && entryTile e = t then parkBundle s n.val m else s)
      | _ => checkDirs s before

/-- A packet of a frame reaches the die at the frame's end: the router of a tile, or a link between modules, which drops it
when it has left its set. -/
def deliverParcel (l : Strand) (far : Bool) (s : State) (p : Parcel) : State :=
  match p.link, l with
  | none, .mesh t e =>
    let d := if far then meshFar t.val e else t.val
    arrive s d (strandPort s d l) none none p.goal p.item
  | some k, _ =>
    if (s.link k).up then
      giveLink s k (match p.goal with
        | .toward d => some d
        | _ => none) p.item
    else
      match strandTile s l with
      | some t => dropTransit t s p.item
      | none => s
  | none, _ => s

/-- The copy that the transmitting router puts into a strand frame next: toward its neighbour, or toward the links of the
lantern or host bridge (R30, R320). -/
def nextParcel (s : State) (l : Strand) (far : Bool) : Option Copy :=
  match l with
  | .mesh t e =>
    let d := if far then meshFar t.val e else t.val
    nextMesh s d (strandPort s d l)
  | l =>
    if far then none
    else
      (strandTile s l).bind (fun t =>
        ((attachments (siteOf s t))[strandPort s t l - 4]?).bind (fun a =>
          (nextAttached s t (strandPort s t l) a).bind (fun c => if 16 ≤ c.branch.out then some c else none)))

/-- The link between modules that a copy at an attachment goes to, and what it still has to do there. -/
def parcelOf (s : State) (l : Strand) (c : Copy) (p : Packet) : Parcel :=
  match l with
  | .mesh _ _ => { item := ⟨p, c.held.vc0⟩, goal := c.branch.goal }
  | _ => { item := ⟨p, c.held.vc0⟩, goal := (match outDir s c with
      | some d => .toward d
      | none => .fresh), link := (linkFor s (c.branch.out - 16) c.held.pkt).map (·.1) }

/-- Flits of 64 bytes that the fifteen payload transfers of a frame carry: each transfer has one bit for every data wire
in service (R29, R30). -/
def frameFlits (x : StrandState) : Nat := 15 * 64 * x.width / 512

/-- Put a packet into the frame that the transmitter of a direction formed last. -/
def addParcel (s : State) (l : Strand) (far : Bool) (p : Parcel) : State :=
  let x := s.strand l
  let r := strandRx x far
  let buffer := r.buffer.map (fun f => if f.seq + 1 = r.sent then { f with items := f.items ++ [p] } else f)
  s.setStrand l (setStrandRx x far { r with buffer := buffer })

/-- Fill a frame with packets while they fit: at most `fuel`, in `room` flits (R30). -/
def fillFrame (l : Strand) (far : Bool) : Nat → Nat → State → State
  | 0, _, s => s
  | fuel + 1, room, s =>
    match nextParcel s l far with
    | none => s
    | some c =>
      if room < packetFlits c.held.pkt then s
      else
        let (p, s') := leave s c
        fillFrame l far fuel (room - packetFlits p) (addParcel s' l far (parcelOf s l c p))

/-- The transmitter of a direction forms its next frame: its sequence, the acknowledgement of the frames received, and
what waits for the strand. -/
def formFrame (s : State) (l : Strand) (far : Bool) : State :=
  let x := s.strand l
  let r := strandRx x far
  let f : StrandFrame := { seq := r.sent, ack := (strandRx x (!far)).next }
  fillFrame l far 60 (frameFlits x) (s.setStrand l (setStrandRx x far { r with sent := r.sent + 1, buffer := r.buffer ++ [f] }))

/-- The receiver accepts the frame that it expects: its acknowledgement frees frames of the other direction, and its
packets go on. A frame out of order is discarded (R30, R31). -/
def acceptStrandFrame (s : State) (l : Strand) (far : Bool) (f : StrandFrame) : State :=
  let x := s.strand l
  let r := strandRx x far
  let back := strandRx x (!far)
  if f.seq ≠ r.next then s
  else
    let x := setStrandRx x far { r with next := r.next + 1, fails := 0 }
    let x := setStrandRx x (!far) { back with buffer := back.buffer.filter (fun b => f.ack ≤ b.seq) }
    flushOutbox (f.items.foldl (deliverParcel l far) (s.setStrand l x))

/-- The receiver finds a CRC error: it discards the frame and requests a replay from the frame that it expects; the eighth
failed replay of that frame takes the link down (R31, R33, R41). -/
def refuseStrandFrame (s : State) (l : Strand) (far : Bool) (seq : Nat) : State :=
  let x := s.strand l
  let r := strandRx x far
  if seq = r.next && 8 ≤ r.fails then strandDown s l
  else
    let s := match endTile s l far with
      | some t => s.count32 (tilA t (0x130 + 4 * strandPort s t l)) 1
      | none => s
    let s := s.setStrand l (setStrandRx x far { r with fails := if seq = r.next then r.fails + 1 else r.fails })
    s.emit (.strandReplay l.id far ((r.buffer.map (·.seq)).filter (fun k => r.next ≤ k)))

/-- STRAND_FRAME_RECEIVE (R30, R31, R41): a frame of the strand reaches its far or its near end, the next that its
transmitter forms or one that it sends again, and is accepted or found bad. -/
def execStrandFrameReceive (l : Strand) (far : Bool) (seq : Nat) (crcOk : Bool) (s : State) :
    Host.Outcome State Fault Refusal :=
  let x := s.strand l
  if !linksAlive s || x.phase ≠ .active then .next s
  else
    let r := strandRx x far
    let s := if seq = r.sent && r.buffer.length < 64 then formFrame s l far else s
    match (strandRx (s.strand l) far).buffer.find? (fun f => f.seq = seq) with
    | none => .next s
    | some f => .next (if crcOk then acceptStrandFrame s l far f else refuseStrandFrame s l far seq)

/-- STRAND_LINK_DOWN (R33, R36): a group loses its forwarded clock. -/
def execStrandLinkDown (l : Strand) (s : State) : Host.Outcome State Fault Refusal :=
  if linksAlive s && (s.strand l).phase = .active then .next (strandDown s l) else .next s

/-! ### Hamper training (R220 to R222) -/

/-- Lanes of a group: 33 in a data group, 11 in a control group; the last is the spare. -/
def spareLane (group : Nat) : Nat := if group < 32 then 32 else 10

/-- Failed lanes of a group other than its spare, and whether the spare failed. -/
def laneFailures (bad : List HamperLane) (c g : Nat) : List HamperLane × Bool :=
  let mine := (bad.filter (fun l => l.channel.val = c && l.group.val = g)).eraseDups
  (mine.filter (fun l => l.lane.val < spareLane g), mine.any (fun l => l.lane.val = spareLane g))

/-- The group cannot be repaired: two or more failed lanes, or a failed lane and a failed spare (R221). -/
def groupLost (bad : List HamperLane) (c g : Nat) : Bool :=
  match laneFailures bad c g with
  | ([], _) => false
  | ([_], false) => false
  | _ => true

/-- Repair-log byte of a group (R222). -/
def laneByte (bad : List HamperLane) (c g : Nat) : Nat :=
  match laneFailures bad c g with
  | ([l], false) => if g < 32 then l.lane.val else 10 * (g - 32) + l.lane.val
  | _ => 0x7F

/-- The repair log of a channel (R222). -/
def writeLaneLog (t c : Nat) (bad : List HamperLane) (s : State) : State :=
  s.each (List.range 9) (fun j s =>
    s.setReg (tilA t (0x3400 + 0x40 * c + 4 * j))
      (BitVec.ofNat 32 (leNat ((List.range 4).map (fun b => laneByte bad c (4 * j + b))))))

/-- The tile answers on its TIL window: its position and its slew limit stand (R40, R626, R633). -/
def tileTrained (s : State) (t : Nat) : State :=
  let site := siteOf s t
  let s := s.setReg (tilA t 0x100) (BitVec.ofNat 32 (strapsHeld s site + 2 ^ 8 * site + 2 ^ 16 * t))
  let s := s.setField (tilA t 0x9000) 8 8 (siteLimit site)
  s.modTile t (fun x => { x with trained := true, trainedAt := s.time })

/-- HAMPER_TRAINING (R220 to R222): three attempts, then the safe state. -/
def execHamperTraining (site : Fin 72) (failed : List HamperLane) (s : State) : Host.Outcome State Fault Refusal :=
  match tileAt? s site.val with
  | none => .next s
  | some t =>
    if !panelRuns s || s.power.stage ≠ 5 || (s.tile t).trained || !domainGood s site.val || !domainGood s (72 + site.val)
    then .next s
    else
      match (List.range 32).find? (fun c => (List.range 36).any (groupLost failed c)) with
      | none => .next (tileTrained (s.each (List.range 32) (fun c s => writeLaneLog t c failed s)) t)
      | some c =>
        let n := mget 0 s.panel.hamperTry site.val + 1
        let s := { s with panel := { s.panel with hamperTry := mset 0 s.panel.hamperTry site.val n } }
        if n < 3 then .next s
        else if retireOk s (site.val / 9) then .next (enterSafe s 0x06 (srcSite site.val) 0 c)
        else .next (enterSafe s 0x03 (extra := site.val / 9))

/-! ### What the registers show (R39, R643) -/

/-- `TIL_LINKk` of a tile (R39). WIDTH keeps what training recorded until the next start-up (R32); SPARES counts the
spares of the direction toward the tile (DEDUCED, assumption log entry 83). -/
def linkWord (s : State) (t k : Nat) : Nat :=
  match portStrand s t k with
  | some (l, first) =>
    let x := s.strand l
    let spares := (x.steered.filter (fun w => w.away = !first)).length
    let partner := if k < 4 then neighbour t k else attachPartner l
    strandCode s l + 2 ^ 3 * (decide (x.phase = LinkPhase.failed)).toNat + 2 ^ 4 * x.width + 2 ^ 10 * partner + 2 ^ 16 * spares
  | none =>
    match (attachments (siteOf s t))[k - 4]? with
    | some (.guest n) =>
      let g := s.guest n
      if k < 4 || !guestFitted s n then 0
      else
        6 + 2 ^ 3 * (decide (g.status = GuestStatus.absent || g.status = GuestStatus.down)).toNat +
          2 ^ 4 * (if g.status = GuestStatus.inService then countOnes 4 g.modules else 0) + 2 ^ 10 * n
    | _ => 0

/-- A byte of the repair log of a tile's links: port `k`, group `g` (R37, R643). -/
def linkLogByte (s : State) (t k g : Nat) : Nat :=
  match portStrand s t k with
  | some (l, first) =>
    match (s.strand l).steered.find? (fun w => w.away = !first && w.group.val = g) with
    | some w => w.index.val
    | none => 0x7F
  | none => 0x7F

/-- A word of that log: bytes `4 j` to `4 j + 3` of port `k`. -/
def linkLogWord (s : State) (t k j : Nat) : Nat := leNat ((List.range 4).map (fun b => linkLogByte s t k (4 * j + b)))

end Sys2Proof.Machine
end

