-- ==== Sys2Proof/Machine/SafeState.lean ====
section
/-! DEFINITION. The safe state: its entry and stages, restart, and field retirement
(spec/15 R567 to R571, R574, spec/18 R648). -/

namespace Sys2Proof.Machine

open Sys2Proof

/-! ### Zeroizing (R590, R601) -/

/-- Every port and link loses its keys. -/
def dropKeys (s : State) : State :=
  let s := s.each (List.range 8) (fun n s => s.each (List.range 16) (fun p s =>
    s.setPort n p { s.port n p with keying := {} }))
  s.each (List.range 13) (fun k s => s.setCopper k { s.copperPort k with keying := {} })

/-- ZEROIZE (R590): the current, pending and stored job keys and every key made from them; fused values are kept. -/
def zeroizeKeys (s : State) : State :=
  dropKeys { s with sec := { s.sec with jk := none, jkPending := none, jkStored := none } }

/-- The safe state for a security fault: the module zeroizes before it retains anything else (R601). -/
def enterSecurity (s : State) (code block : Nat) : State :=
  if s.safe.active then s else enterSafe (zeroizeKeys s) 0x20 block 0 code

/-! ### Entry and stages (R568, R570) -/

/-- Causes of R570. -/
def safeCauses : List Nat := [1, 2, 3, 4, 5, 6, 7, 8, 9, 0x10, 0x11, 0x12, 0x13, 0x20]

/-- SAFE_STATE_ENTRY (R568, R570): a block reports what R570 gives as a cause. -/
def execSafeStateEntry (cause : Nat) (block0 block1 : BitVec 16) (extra : BitVec 8) (s : State) :
    Host.Outcome State Fault Refusal :=
  if !s.power.pwrgd || s.safe.active || !safeCauses.contains cause then .next s
  else if cause = 0x20 then .next (enterSecurity s extra.toNat block0.toNat)
  else .next (enterSafe s cause block0.toNat block1.toNat extra.toNat)

/-- Every bundle is parked, every port goes OFF with a cause, and every laser is off (R420, R424, R568). -/
def darkenLantern (cause n : Nat) (s : State) : State :=
  let s := s.each (List.range 32) (fun m s => parkBundle s n m)
  let s := s.each (List.range 16) (fun p s =>
    if (s.port n p).phase = .off then s else stopPort s n p cause)
  s.setLantern n { s.lantern n with lasers := false }

/-- Copper links go OFF with a cause (R455, R568). -/
def idleCopper (cause : Nat) (s : State) : State :=
  s.each (List.range 13) (fun k s => if (s.copperPort k).phase = .off then s else stopCopper s k cause)

/-- The mainbands of guests go to electrical idle (R568). -/
def idleGuests (s : State) : State :=
  s.each (List.range 4) (fun n s => s.setGuest n { s.guest n with mainband := false })

/-- SAFE_STATE_STAGE (R568): routers stop within 10 µs, light within 500 µs, copper and guest mainbands within 1 ms. -/
def execSafeStateStage (s : State) : Host.Outcome State Fault Refusal :=
  let x := s.safe
  if !s.power.pwrgd || !x.active then .next s
  else
    match x.stage with
    | 0 => .next { s.passTo (x.entered + 10000) with safe := { x with stage := 1 } }
    | 1 =>
      let s := s.passTo (x.entered + 500000)
      .next { s.each (List.range 8) (fun n s => darkenLantern 5 n s) with safe := { x with stage := 2 } }
    | 2 => .next { idleGuests (idleCopper 5 (s.passTo (x.entered + 1000000))) with safe := { x with stage := 3 } }
    | _ => .next s

/-! ### Restart (R571, R648) -/

/-- A register keeps its value over a restart. -/
def keptAtRestart (a : Nat) : Bool :=
  if a < 0x01000000 then
    !((0x1000 ≤ a && a < 0x1024) || (0x2000 ≤ a && a < 0x8000) || (0x8028 ≤ a && a < 0x8044) ||
      (0x8200 ≤ a && a < 0x8400))
  else if a < 0x02000000 then
    [0x18, 0x1C, 0x60, 0x64, 0x68, 0x6C].contains (a - 0x01000000)
  else if a < 0x04000000 then true
  else if a < 0x08000000 then (a - 0x04000000) % 0x00800000 < 8
  else if a < 0x10000000 then
    let o := a - 0x08000000
    o < 0x10 || (0x200 ≤ o && o < 0x280) || 0x10000 ≤ o
  else false

/-- Weather keeps what stands; its windows start again from counters of 0. -/
def restartWeather (w : SMap Weather) : SMap Weather :=
  w.foldl (fun m p => mset {} m p.1 { p.2 with counts := [] }) []

/-- Dies with straps that leave a reset in a restart: those whose rails are good. -/
def resampleAll (s : State) : State :=
  ((List.range 158).filter (domainGood s)).foldl (fun s d =>
    match domainStraps d with
    | some k => sampleStraps s k
    | none => s) s

/-- Restart (R571): start-up again from the reading of the row skip map, with the resets of R648. -/
def restart (s : State) : State :=
  let seen := fun k => decide (k / 65536 = 0x73) || decide (k / 65536 = 0x46) || decide (k / 65536 = 0x90)
  let nb := { s.nb with rings := mdrop (fun r => decide (r ≠ 0)) s.nb.rings, conds := mdrop seen s.nb.conds }
  let itin := { s.itin with plan := none, heldWrites := [], result := 0, reason := 0, count := 0, active := 0,
                            foldTime := 0, job := 0, report := [], overflow := 0, force := [], applied := [], folded := false }
  let panel := { s.panel with mapRead := false, mapTried := false, skip := [], strands := [], guests := [], hamperTry := [] }
  let rk := { s.rk with gens := s.rk.gens.filter (·.sealed), sealing := [], programming := [], selves := [] }
  let power := { s.power with stage := 3, bases := s.now - 42000000, firstFold := none, wanted := [], unwanted := [],
                              guestPower := false, poweredOff := false, volts := 0, amps := 0, tiles := [],
                              causes := [] }
  let s := { s with
    regs := mdrop (fun a => !keptAtRestart a) s.regs, staged := [], nb, itin, panel, rk, power,
    sec := { s.sec with guideOk := false }, parties := {}, queues := [], tallies := [], cache := [], channels := [],
    tiles := [], engines := [], banks := [], drains := [], movers := [], fabric := {}, colls := [], rc := {},
    lanterns := [], copper := [], hosts := [], mirrors := [], weather := restartWeather s.weather, safe := {} }
  let s := (resampleAll (s.setField 0x10100 0 1 0)).emit (.safeN false)
  if coolantLost s then enterSafe s 0x11 else s

/-- What a write of `DEV_SAFE_CTRL` does (R571, R574). -/
def safeCtrl (s : State) (v : Word) : State :=
  let was := s.safe.active
  let s := if v.getLsbD 0 then enterSafe s 0x09 else s
  if v.getLsbD 1 && was && s.power.shutdown = 0 then restart s else s

/-- ENTER (R574). -/
def execEnter (p : Path) (s : State) : Host.Outcome State Fault Refusal :=
  .next (ownerWrite s p 0x10110 1 (fun s => safeCtrl s 1))

/-- RESTART (R571, R574). -/
def execRestart (p : Path) (s : State) : Host.Outcome State Fault Refusal :=
  .next (ownerWrite s p 0x10110 2 (fun s => safeCtrl s 2))

/-! ### Field retirement (R20, R21, R28, R567, R574) -/

/-- The five fuses of the entry that retires a column (R19). -/
def retireEntry (col : Nat) : Nat := oddParity 4 (col + 1)

/-- The map copies. -/
def mapCopy (s : State) (k : Nat) : MapCopy := if k = 0 then s.panel.hb0 else s.panel.hb1
def setMapCopy (s : State) (k : Nat) (c : MapCopy) : State :=
  { s with panel := if k = 0 then { s.panel with hb0 := c } else { s.panel with hb1 := c } }

/-- The request must name a column other than BASE_SKIP in a row that can still take a retirement (R20). Where both
copies are valid and differ, BASE_SKIP is that of HB0's copy, which is blown first (R21; DESIGN CHOICE, assumption log
entry 143). -/
def retireAllowed (s : State) (row col : Nat) : Bool :=
  let c := if copyValid s.panel.hb0 then s.panel.hb0 else s.panel.hb1
  retireOk s row && col ≤ 8 && col ≠ c.skip.getD row 15

/-- A request ends with a result, which RETIREMENT reports (R567). -/
def endRetire (s : State) (result : Nat) (inForce : Bool) : State :=
  let x := s.panel.retire
  let pending := if inForce then s.panel.pending ||| 2 ^ x.row else s.panel.pending
  let s := { s with panel := { s.panel with retire := { x with copy := none }, pending } }
  let s := (s.setField 0x10200 9 1 0).setField 0x10200 10 2 result
  post s 0x75 (srcSite (9 * x.row + x.col)) (x.row + 2 ^ 3 * x.col + 2 ^ 7 * (result - 1))

/-- What a write of `DEV_RETIRE` does (R567, R574): a GO while BUSY is discarded. -/
def retireWrite (s : State) (acc : Access) (v : Word) : State :=
  let go := v.getLsbD 8
  if go && s.panel.retire.copy.isSome then accessError s acc 3
  else
    let row := bits v.toNat 0 3
    let col := bits v.toNat 3 4
    let s := (s.setField 0x10200 0 3 row).setField 0x10200 3 4 col
    if !go then s
    else
      let x : Retirement := { row, col }
      let s := { s with panel := { s.panel with retire := x } }
      if retireAllowed s row col then
        let first := if copyValid s.panel.hb0 then 0 else 1
        let s := { s with panel := { s.panel with retire := { x with copy := some first } } }
        ((s.setField 0x10200 12 1 0).setField 0x10200 10 2 0).setField 0x10200 9 1 1
      else endRetire (s.setField 0x10200 12 1 1) 1 false

/-- RETIRE_GO (R567). -/
def execRetireGo (p : Path) (row : Fin 8) (col : Fin 16) (s : State) : Host.Outcome State Fault Refusal :=
  let v := BitVec.ofNat 32 (row.val + 2 ^ 3 * col.val + 2 ^ 8)
  .next (ownerWrite s p 0x10200 v (fun s => retireWrite s { path := p, off := 0x10200 } v))

/-- RETIRE_BLOW_DONE (R21, R567): a copy is blown and read back, `taken` being the fuses that took. An entry that does
not match is closed off, unless no fuse of it took. -/
def execRetireBlowDone (taken : BitVec 5) (s : State) : Host.Outcome State Fault Refusal :=
  let x := s.panel.retire
  match x.copy with
  | none => .next s
  | some k =>
    if !s.power.pwrgd then .next s
    else
      let want := retireEntry x.col
      let hit := taken.toNat = want
      let held := if hit then want else if taken = 0 then 0 else 0x1F
      let c := mapCopy s k
      let s := setMapCopy s k { c with field := c.field.set x.row held }
      if k = 0 then
        if !hit then .next (endRetire s 2 false)
        else if copyValid s.panel.hb1 then
          .next { s with panel := { s.panel with retire := { x with copy := some 1 } } }
        else .next (endRetire s 1 true)
      else if hit then .next (endRetire s 1 true)
      else .next (endRetire s 3 (copyValid s.panel.hb0))

/-- `DEV_ROWMAP_STATUS`: the reset values hold until the map has been read (R28). -/
def rowmapStatus (s : State) : Nat :=
  let mask := if s.panel.mapTried then s.panel.pending % 256 else 0
  let rows := (List.range 8).filter (fun r => bits mask r 1 = 1)
  s.field 0x1020 0 4 + 2 ^ 4 * rows.head?.getD 0xF + 2 ^ 8 * mask

end Sys2Proof.Machine
end

