-- ==== Sys2Proof/Machine/Power.lean ====
section
/-! DEFINITION. Operating points, slew, sensors, throttling, the input, shutdown and loss of input
(spec/17 R605 to R635, spec/19 R651, R659, R660). -/

namespace Sys2Proof.Machine

open Sys2Proof

/-! ### Operating points (R609, R610, R633) -/

/-- Every tile changes its operating point when the active one has changed (R610). -/
def changePoint (s : State) (old : Nat) : State :=
  if s.field (pwrA 0) 0 2 = old then s
  else
    s.each (List.range 64) (fun t s =>
      let x : TilePower := mget {} s.power.tiles t
      { s with power := { s.power with tiles := mset {} s.power.tiles t { x with point := .draining } } })

/-- PCAP as the fold holds it: 0, or 40 to 130 (R633). -/
def clampPcap (v : Nat) : Nat := if v = 0 then 0 else clampTo 40 130 v

/-- PWR_FOLD (R633): the staged `PWR_CFG` becomes active. -/
def foldPower (s : State) : State :=
  let old := s.field (pwrA 0) 0 2
  let s := s.foldReg (pwrA 0)
  let v := s.field (pwrA 0) 8 8
  let s := if clampPcap v = v then s
    else reportClamp (s.setField (pwrA 0) 8 8 (clampPcap v)) 0 0x200 0 8 v (clampPcap v)
  changePoint s old

/-- PWR_FOLD (R610, R633). -/
def execPwrFold (p : Path) (s : State) : Host.Outcome State Fault Refusal :=
  .next (ownerWrite s p 0x01000004 1 foldPower)

/-- Slew limit of a tile's site under the map in force (R419, R632). -/
def tileLimit (s : State) (t : Nat) : Nat := siteLimit (siteOf s t)

/-- Fold `TIL_SLEW` and `TIL_VEC_POWER`; LIMIT is held to 1 up to its site's limit (R614, R632). -/
def foldSlew (s : State) (t : Nat) : State :=
  let s := (s.foldReg (tilA t 0x9000)).foldReg (tilA t 0x9004)
  let v := s.field (tilA t 0x9000) 0 8
  let w := clampTo 1 (tileLimit s t) v
  if w = v then s else reportClamp (s.setField (tilA t 0x9000) 0 8 w) 0 t 0x9000 0 v w

/-- What a write of GO to `TIL_PWR_FOLD` does (R12, R633). -/
def pwrTileFold (s : State) (t : Nat) : State :=
  if (s.stagedAt (tilA t 0x9000)).isSome || (s.stagedAt (tilA t 0x9004)).isSome then foldSlew s t else s

/-- TIL_PWR_FOLD (R633). -/
def execTilPwrFold (p : Path) (t : Fin 64) (s : State) : Host.Outcome State Fault Refusal :=
  .next (ownerWrite s p (tilA t.val 0x9008) 1 (fun s => pwrTileFold s t.val))

/-- The tile's issued commands have completed and its ramps are cold (R610, steps 1 and 2). -/
def tileCold (s : State) (t : Nat) : Bool :=
  (List.range 256).all (fun i => (s.queue (256 * t + i)).inflight.isEmpty) &&
  (List.range 4).all (fun e => (s.engine (4 * t + e)).ramp = .cold) && (s.tile t).vecRamp.ramp = .cold

/-- OPERATING_POINT_TILE_CHANGE (R610): supply and clock change, and issue resumes. -/
def execOperatingPointTileChange (t : Fin 64) (s : State) : Host.Outcome State Fault Refusal :=
  let x : TilePower := mget {} s.power.tiles t.val
  if !panelRuns s || x.point ≠ .draining || !tileCold s t.val then .next s
  else .next { s with power := { s.power with tiles := mset {} s.power.tiles t.val { x with point := .steady } } }

/-! ### Slew (R614, R615) -/

/-- An excursion moves a ramp: D becomes the active count. -/
def slewRamp (rising : Bool) (e : Engine) : Engine :=
  { e with limit := activeCount e, ramp := if rising then .rise else .fall, rampRun := 0 }

/-- The response of a tile's units (R615): rising, every one; falling, the idle engines and the vector unit. -/
def slewResponse (s : State) (t : Nat) (rising : Bool) : State :=
  let s := s.each (List.range 4) (fun e s =>
    let x := s.engine (4 * t + e)
    if rising || x.idleRun ≠ 0 || x.ramp = .cold then s.setEngine (4 * t + e) (slewRamp rising x) else s)
  s.modTile t (fun x => { x with vecRamp := slewRamp rising x.vecRamp })

/-- SLEW_EXCEEDED, at most once per millisecond per tile (R615, R631). -/
def slewEvent (s : State) (t : Nat) (change : Int) (rising : Bool) : State :=
  let x : TilePower := mget {} s.power.tiles t
  let n := x.unposted + 1
  let due : Bool := match x.posted with
    | some u => decide (u + 1000000 ≤ s.now)
    | none => true
  if due then
    let s := { s with power := { s.power with
      tiles := mset {} s.power.tiles t { x with posted := some s.now, unposted := 0 } } }
    post s 0x93 (srcTile t 0) ((BitVec.ofInt 16 change).toNat + 2 ^ 16 * s.field (tilA t 0x9000) 0 8
      + 2 ^ 24 * rising.toNat + 2 ^ 32 * min n (2 ^ 32 - 1))
  else { s with power := { s.power with tiles := mset {} s.power.tiles t { x with unposted := n } } }

/-- SLEW_SAMPLE (R614, R615): compute and hamper power over 250 ns, in 1/16 W. -/
def execSlewSample (t : Fin 64) (compute hamper : Nat) (s : State) : Host.Outcome State Fault Refusal :=
  if !s.power.pwrgd || !(s.tile t.val).trained then .next s
  else
    let x : TilePower := mget {} s.power.tiles t.val
    let p : Nat := compute + hamper
    let was : Option Nat := x.samples[3]?
    let x := { x with samples := (p :: x.samples).take 4, energy := x.energy + p }
    let s := { s with power := { s.power with tiles := mset {} s.power.tiles t.val x } }
    let s := s.setReg (tilA t.val 0x9010) (BitVec.ofNat 32 (compute % 65536 + 65536 * (hamper % 65536)))
    let s := s.setReg64 (tilA t.val 0x9020) (x.energy / 64000)
    match was with
    | none => .next s
    | some q =>
      let change : Int := (p : Int) - q
      if s.safe.active || change.natAbs ≤ 4 * s.field (tilA t.val 0x9000) 0 8 then .next s
      else
        let rising := decide (0 < change)
        let s := (s.count32 (tilA t.val 0x9018) 1).count32 (pwrA 0x6C) 1
        .next (slewEvent (slewResponse s t.val rising) t.val change rising)

/-! ### Sensors (R618 to R620) -/

/-- Numbers of the sensors: die pairs, lantern sensors, thermistors. -/
def sensorNo : DieSensor → Nat
  | .pair d b => 2 * d.val + b.toNat
  | .lantern n i => 400 + 16 * n.val + i.val
def thermistorNo (i : Nat) : Nat := 1000 + i

def State.sensor (s : State) (k : Nat) : Sensor := mget {} s.power.sensors k
def State.setSensor (s : State) (k : Nat) (x : Sensor) : State :=
  { s with power := { s.power with sensors := mset {} s.power.sensors k x } }

/-- Two of the last three conversions are flagged. -/
def twoFlagged (recent : List (Option SensorFlag)) : Bool := 2 ≤ (recent.filter (·.isSome)).length

/-- A conversion or sample of a sensor: `sticky` sensors return from a loss after 100 clean conversions. -/
def sensorTakes (x : Sensor) (flag : Option SensorFlag) (reading : Int) (sticky : Bool) : Sensor :=
  let recent := (flag :: x.recent).take 3
  let clean := if flag.isSome then 0 else x.clean + 1
  let lost := twoFlagged recent || (sticky && x.lost && clean < 100)
  { recent, lost, clean, reading := if flag.isSome then x.reading else some reading,
    kind := match flag with
      | some f => f.code
      | none => x.kind }

/-- The sensor's latest conversion is flagged. -/
def flaggedNow (x : Sensor) : Bool :=
  match x.recent with
  | some _ :: _ => true
  | _ => false

/-- A 16-bit reading, 0x8000 while there is none or the sensor is lost. -/
def readingWord (x : Sensor) : Nat :=
  match x.reading with
  | some v => if x.lost then 0x8000 else (BitVec.ofInt 16 v).toNat
  | none => 0x8000

/-- The SENSOR_FAULT condition of a source with several sensors: it stands while one is flagged or lost (R620; that an
unconfirmed flag stands until the next clean conversion is DEDUCED, assumption log entry 63). -/
def faultCond (xs : List Sensor) (pairLost : Bool) : Option LevelCond :=
  match xs.find? (fun x => flaggedNow x || x.lost) with
  | none => none
  | some x => some { party := 0xFF, payload := x.kind + 4 * x.lost.toNat + 8 * pairLost.toNat
      + 2 ^ 16 * (match x.reading with
        | some v => (BitVec.ofInt 16 v).toNat
        | none => 0x8000) }

/-- The sensors of a die: a pair, or the 16 of a lantern (R618). -/
def dieSensors (s : State) (d : Nat) : List Sensor :=
  if 144 ≤ d ∧ d < 152 then (List.range 16).map (fun i => s.sensor (400 + 16 * (d - 144) + i))
  else [s.sensor (2 * d), s.sensor (2 * d + 1)]

/-- Both sensors of some required pair are lost. -/
def pairLost : List Sensor → Bool
  | a :: b :: rest => (a.lost && b.lost) || pairLost rest
  | _ => false

/-- Dies with sensors: compute and hamper dies, lanterns, host bridges. -/
def sensorDies : List Nat := List.range 154

/-- The hottest valid reading of some dies, with its domain (R634). -/
def hottest (s : State) (ds : List Nat) : Option (Int × Nat) :=
  ds.foldl (fun m d => (dieSensors s d).foldl (fun m x =>
    match x.reading, x.lost, m with
    | some v, false, none => some (v, d)
    | some v, false, some (w, e) => if w < v then some (v, d) else some (w, e)
    | _, _, _ => m) m) none

/-! ### Throttling (R621, R622, R631) -/

/-- Level that a temperature sets on a row of R621, whose thresholds are in 1/16 °C. -/
def levelAt (t75 t50 t25 : Int) (v : Int) : Nat := if t25 ≤ v then 3 else if t50 ≤ v then 2 else if t75 ≤ v then 1 else 0

/-- The row of R621 for a die, shifted down by `less`: its level, or the safe state's threshold. -/
def dieLevel (d : Nat) (less v : Int) : Nat :=
  if 144 ≤ d ∧ d < 152 then levelAt (1360 - less) (1408 - less) (1456 - less) v
  else levelAt (1520 - less) (1600 - less) (1648 - less) v
def dieSafeAt (d : Nat) : Int := if 144 ≤ d ∧ d < 152 then 1520 else 1680

/-- Level that every valid die reading and the coolant inlet set, with thresholds lowered by `less` (R621). -/
def thermalLevel (s : State) (less : Int) : Nat :=
  let die := sensorDies.foldl (fun m d => (dieSensors s d).foldl (fun m x =>
    match x.reading, x.lost with
    | some v, false => max m (dieLevel d less v)
    | _, _ => m) m) 0
  let ct := s.sensor (thermistorNo 0)
  match ct.reading, ct.lost with
  | some v, false => max die (levelAt (512 - less) (560 - less) (608 - less) v)
  | _, _ => die

/-- THROTTLE stands while any level below 100 % is in force (R622, R631). -/
def throttleCond (s : State) : Option LevelCond :=
  let level := throttleLevel s
  if level = 0 then none
  else
    let causes := (List.range 4).foldl (fun m c => m + (if (mget {} s.power.causes c : ThrottleCause).level = 0 then 0 else 2 ^ c)) 0
    let hot := match hottest s sensorDies with
      | some (v, _) => (BitVec.ofInt 16 v).toNat
      | none => 0x8000
    some { party := 0xFF, payload := level + 2 ^ 4 * causes + 2 ^ 8 * hot + 2 ^ 24 * (s.power.amps % 65536) }

/-- Give a throttle cause a level; the density cap of every tile follows (R622). -/
def setCause (s : State) (c level : Nat) : State :=
  let x : ThrottleCause := mget {} s.power.causes c
  let x' : ThrottleCause := if x.level = level then x else { level, since := s.now, calm := s.now }
  let s := { s with power := { s.power with causes := mset {} s.power.causes c x' } }
  let s := s.each (List.range 64) (fun t s => s.setReg (tilA t 0x900C) (BitVec.ofNat 32 (levelCap (throttleLevel s))))
  setLevel s 0x90 (srcPower 5 0) (throttleCond s)

/-- A cause's reading is not below its threshold less the margin: its 10 ms start again. -/
def notCalm (s : State) (c : Nat) : State :=
  let x : ThrottleCause := mget {} s.power.causes c
  { s with power := { s.power with causes := mset {} s.power.causes c { x with calm := s.now } } }

/-- A temperature has been read: the thermal cause takes the level it sets, never a lower one (R621). -/
def applyThermal (s : State) : State :=
  let x : ThrottleCause := mget {} s.power.causes 0
  let s := if x.level < thermalLevel s 0 then setCause s 0 (thermalLevel s 0) else s
  if (mget {} s.power.causes 0 : ThrottleCause).level ≤ thermalLevel s 48 then notCalm s 0 else s

/-- A cause's reading is over its threshold: 2 input current in 0.1 A, 3 input power in W against PCAP (R621, R633). -/
def causeHigh (s : State) (cause reading : Nat) : Bool :=
  let pcap := s.field (pwrA 0) 8 8
  (cause = 2 && 2850 ≤ reading) || (cause = 3 && pcap ≠ 0 && 100 * pcap < reading)

/-- A cause's reading is below its threshold less the margin, where only time returns it; a lost thermistor's throttle
ends with the loss (R621). -/
def causeCalm (s : State) (cause reading : Nat) : Bool :=
  let pcap := s.field (pwrA 0) 8 8
  (cause = 0 && thermalLevel s 48 < (mget {} s.power.causes 0 : ThrottleCause).level) || (cause = 2 && reading < 2600) ||
  (cause = 3 && (pcap = 0 || reading < 100 * pcap))

/-- THROTTLE_STEP (R621): cause 0 thermal, 1 coolant thermistor lost, 2 input current in 0.1 A over 1 ms, 3 input power
in W over 10 ms. A cause lowers the throttle a step at least 1 ms after the step before, and raises it a step after
10 ms below its threshold less the margin. -/
def execThrottleStep (cause : Fin 4) (reading : Nat) (s : State) : Host.Outcome State Fault Refusal :=
  let x : ThrottleCause := mget {} s.power.causes cause.val
  if !s.power.pwrgd then .next s
  else if causeHigh s cause.val reading then
    (if x.level < 3 && (x.level = 0 || x.since + 1000000 ≤ s.now) then .next (setCause s cause.val (x.level + 1))
     else .next (notCalm s cause.val))
  else if causeCalm s cause.val reading && 0 < x.level then .next (setCause (s.passTo (x.calm + 10000000)) cause.val (x.level - 1))
  else .next s

/-! ### Conversions and samples (R619, R620, R624) -/

/-- What a thermistor conversion finds (R619): the bias current in µA and the reading in 1/16 °C. -/
def thermistorFlag (microamps : Nat) (reading : Int) : Option SensorFlag :=
  if microamps < 90 || 110 < microamps then some .openCircuit
  else if 2400 < reading then some .short
  else if reading < -320 then some .range
  else none

/-- `PWR_COOLANT` and `PWR_THERMISTOR` (R634). -/
def showCoolant (s : State) : State :=
  let a := s.sensor (thermistorNo 0)
  let b := s.sensor (thermistorNo 1)
  let code := fun (x : Sensor) => if x.lost then 2 else if flaggedNow x then 1 else 0
  let s := s.setReg (pwrA 0x20) (BitVec.ofNat 32 (readingWord a + 65536 * readingWord b))
  s.setReg (pwrA 0x24) (BitVec.ofNat 32 (code a + 4 * (a.kind % 4) + 16 * code b + 64 * (b.kind % 4)))

/-- A newly lost sensor is counted (R635). -/
def countLoss (s : State) (was now : Sensor) : State :=
  if now.lost && !was.lost then s.count32 (pwrA 0x68) 1 else s

/-- THERMISTOR_CONVERSION (R619 to R621). -/
def execThermistorConversion (i : Fin 2) (microamps : Nat) (reading : Int) (s : State) :
    Host.Outcome State Fault Refusal :=
  if !s.power.pwrgd then .next s
  else
    let k := thermistorNo i.val
    let was := s.sensor k
    let s := s.setSensor k (sensorTakes was (thermistorFlag microamps reading) reading true)
    let s := showCoolant (countLoss s was (s.sensor k))
    let both := coolantLost s
    let s := setLevel s 0x91 (srcPower 2 i.val) (faultCond [s.sensor k] both)
    let lost := (s.sensor (thermistorNo 0)).lost || (s.sensor (thermistorNo 1)).lost
    let s := applyThermal (setCause s 1 (if lost then 2 else 0))
    let ct := s.sensor (thermistorNo 0)
    let hot := !ct.lost && ct.reading.any (fun v => decide (640 ≤ v))
    if both && 3 ≤ s.power.stage then .next (enterSafe s 0x11)
    else if hot then .next (enterSafe s 0x10)
    else .next s

/-- Domains that are switched off when a die reaches 115 °C in the safe state: all but the host bridges (R624). -/
def poweringOff (s : State) : State :=
  let s := (List.range 158).foldl (fun s d => if d = 152 || d = 153 then s else wantOff s d) s
  { s with power := { s.power with poweredOff := true } }

/-- Domain of a die sensor. -/
def sensorDomain : DieSensor → Nat
  | .pair d _ => d.val
  | .lantern n _ => 144 + n.val

/-- The registers of a die's sensors (R429, R634). -/
def showDie (s : State) (d : Nat) : State :=
  let s := if 144 ≤ d ∧ d < 152 then s
    else s.setReg (pwrA (0x100 + 4 * d)) (BitVec.ofNat 32
      (readingWord (s.sensor (2 * d)) + 65536 * readingWord (s.sensor (2 * d + 1))))
  match hottest s sensorDies with
  | some (v, e) => s.setReg (pwrA 0x28) (BitVec.ofNat 32 ((BitVec.ofInt 16 v).toNat + 65536 * e))
  | none => s.setReg (pwrA 0x28) 0x8000

/-- DIE_SENSOR_SAMPLE (R620, R621, R624): a reading in 1/16 °C and the built-in reference check. -/
def execDieSensorSample (sensor : DieSensor) (reading : Int) (referenceOk : Bool) (s : State) :
    Host.Outcome State Fault Refusal :=
  let d := sensorDomain sensor
  if !s.power.pwrgd || 154 ≤ d || !domainGood s d then .next s
  else
    let k := sensorNo sensor
    let was := s.sensor k
    let flag : Option SensorFlag :=
      if !referenceOk then some .reference else if reading < -640 || 2400 < reading then some .range else none
    let s := s.setSensor k (sensorTakes was flag reading false)
    let s := countLoss s was (s.sensor k)
    let s := match sensor with
      | .lantern n i => s.setReg (sensorA n.val i.val) (BitVec.ofNat 32 (BitVec.ofInt 16 reading).toNat)
      | .pair _ _ => s
    let gone := pairLost (dieSensors s d)
    let s := setLevel s 0x91 (srcPower 3 d) (faultCond (dieSensors s d) gone)
    let s := applyThermal (showDie s d)
    if s.safe.active then
      (if flag.isNone && 1840 ≤ reading && !s.power.poweredOff then .next (poweringOff s) else .next s)
    else if gone then .next (enterSafe s 0x11 (srcPower 3 d))
    else if flag.isNone && dieSafeAt d ≤ reading then .next (enterSafe s 0x10)
    else .next s

/-! ### The input (R623, R629, R635) -/

/-- SUPPLY_WARNING (R631). -/
def supplyCond (volts amps : Nat) : Option LevelCond :=
  if volts < 4700 || 5900 < volts then
    some { party := 0xFF, payload := volts % 65536 + 2 ^ 16 * (amps % 65536)
      + 2 ^ 32 * (decide (volts < 4700)).toNat + 2 ^ 33 * (decide (5900 < volts)).toNat }
  else none

/-- SUPPLY_SAMPLE (R623, R634, R635): the input averaged over a window, in 10 mV and 0.1 A, so that their product is in
mW. -/
def execSupplySample (window : SupplyWindow) (volts amps : Nat) (s : State) : Host.Outcome State Fault Refusal :=
  if !s.power.pwrgd then .next s
  else
    match window with
    | .us100 =>
      let e := s.power.energy + volts * amps
      let s := { s with power := { s.power with energy := e } }
      let s := s.setReg64 (pwrA 0x18) (e / 10000)
      if volts < 4500 || 6100 < volts || 3000 < amps then .next (enterSafe s 0x12 (srcPower 0 0)) else .next s
    | .ms1 =>
      let s := { s with power := { s.power with volts, amps } }
      let s := s.setReg (pwrA 0x10) (BitVec.ofNat 32 (min volts 65535 + 65536 * min amps 65535))
      let s := setLevel s 0x92 (srcPower 0 0) (supplyCond volts amps)
      let s := if throttleLevel s = 0 then s else s.count64 (pwrA 0x60) 1
      .next (if 2600 ≤ amps then notCalm s 2 else s)
    | .ms10 =>
      let w := volts * amps / 1000
      let s := s.setReg (pwrA 0x14) (BitVec.ofNat 32 (min w 65535))
      let pcap := s.field (pwrA 0) 8 8
      .next (if pcap ≠ 0 && 100 * pcap ≤ w then notCalm s 3 else s)

/-- CLOCK_FAULT (R613): a die loses its reference or the lock of a PLL that is not a lane's. -/
def execClockFault (d : Fin 158) (s : State) : Host.Outcome State Fault Refusal :=
  if s.power.pwrgd && domainGood s d.val then .next (enterSafe s 0x13 (srcPower 4 d.val)) else .next s

/-! ### Orderly shutdown (R628) -/

/-- SHUTDOWN_GO (R628). -/
def shutdownWrite (s : State) : State :=
  if s.power.shutdown ≠ 0 then s
  else { s with power := { s.power with shutdown := 1, shutdownAt := s.now } }

/-- SHUTDOWN_GO (R628, R633). -/
def execShutdownGo (p : Path) (s : State) : Host.Outcome State Fault Refusal :=
  .next (ownerWrite s p 0x0100000C 1 shutdownWrite)

/-- Every tile is idle. -/
def panelIdle (s : State) : Bool :=
  (List.range 64).all (fun t => (List.range 256).all (fun i => (s.queue (256 * t + i)).inflight.isEmpty))

/-- Engines and vector units are cold. -/
def panelCold (s : State) : Bool :=
  (List.range 64).all (fun t =>
    (List.range 4).all (fun e => (s.engine (4 * t + e)).ramp = .cold) && (s.tile t).vecRamp.ramp = .cold)

/-- Enter a STATE of R628. -/
def shutdownTo (s : State) (n : Nat) : State :=
  { s with power := { s.power with shutdown := n, shutdownAt := s.now } }

/-- Domains that a shutdown switches off: all but the host bridges. -/
def shutdownDomains (s : State) : State :=
  (List.range 158).foldl (fun s d => if d = 152 || d = 153 then s else wantOff s d)
    { s with power := { s.power with wanted := [] } }

/-- SHUTDOWN_STAGE (R628): the next STATE, or in DARK the next lantern, L7 first, 2 ms apart, and then the copper
links. Commands that have not completed after 10 ms stop without a signal; ramps that are not cold in time are left as
they stand. -/
def execShutdownStage (s : State) : Host.Outcome State Fault Refusal :=
  let x := s.power
  if !x.pwrgd then .next s
  else
    match x.shutdown with
    | 1 =>
      let s := if panelIdle s || s.safe.active then s else s.passTo (x.shutdownAt + 10000000)
      .next (shutdownTo s 2)
    | 2 =>
      let s := shutdownTo (if panelCold s then s else s.passTo (x.shutdownAt + 50000000)) 3
      .next { s with power := { s.power with dark := 8 } }
    | 3 =>
      if x.dark ≠ 0 then
        let s := s.passTo (x.shutdownAt + 2000000 * (8 - x.dark))
        let s := darkenLantern 0 (x.dark - 1) s
        .next { s with power := { s.power with dark := x.dark - 1 } }
      else .next (shutdownTo (shutdownDomains (idleCopper 0 s)) 4)
    | 4 => if x.unwanted.isEmpty then .next (shutdownTo s 5) else .next s
    | _ => .next s

/-! ### Loss of input (R651, R659, R660) -/

/-- What survives a loss of power: the fuses and straps of the dies, the SYSTEM area, sealed generations, the logbook,
and what has left the block; pages in progress and open generations are lost (R549, R628, R660). -/
def powerLost (s : State) : State :=
  let sec : Security :=
    { anchor := s.sec.anchor, keySlots := s.sec.keySlots, revoked := s.sec.revoked, minSm := s.sec.minSm,
      ideRequired := s.sec.ideRequired, minHb := s.sec.minHb, minGc := s.sec.minGc, jkStored := s.sec.jkStored }
  let rk : Rucksack := { gens := s.rk.gens.filter (·.sealed), log := s.rk.log, wrote := s.rk.wrote }
  let s' : State := { State.reset with
    pending := s.pending, now := s.now, draws := s.draws, out := s.out,
    panel := { hb0 := s.panel.hb0, hb1 := s.panel.hb1, fitted := s.panel.fitted, pads := s.panel.pads },
    itin := { bootStore := s.itin.bootStore }, rk, sec }
  if s.power.pwrgd then
    let s' := s'.emit (.pwrgd false)
    if s.safe.active then s'.emit (.safeN false) else s'
  else s'

/-- MOD_RST_N_LOW (R659, R660). -/
def execModRstNLow (s : State) : Host.Outcome State Fault Refusal := .next (powerLost s)

/-- INPUT_LOSS (R651, R659): the input falls below 40.0 V. -/
def execInputLoss (s : State) : Host.Outcome State Fault Refusal := .next (powerLost s)

/-! ### What the registers show (R629, R633, R634) -/

/-- `PWR_STATUS` (R634). -/
def pwrStatus (s : State) : Nat :=
  let changing := (List.range 64).any (fun t => (mget {} s.power.tiles t : TilePower).point = .draining)
  let causes := (List.range 4).foldl (fun m c =>
    m + (if (mget {} s.power.causes c : ThrottleCause).level = 0 then 0 else 2 ^ c)) 0
  corePoint s + 4 * changing.toNat + 8 * throttleLevel s + 32 * causes + 2 ^ 9 * s.power.guestPower.toNat
    + 2 ^ 10 * s.power.poweredOff.toNat + 2 ^ 16 * s.power.stage

/-- `PWR_DOMAINk` (R634): the domains that are on. -/
def pwrDomain (s : State) (k : Nat) : Nat :=
  (List.range 32).foldl (fun w j => if 32 * k + j < 158 && domainGood s (32 * k + j) then w + 2 ^ j else w) 0

/-- A temperature in 1/16 °C as a PLDM sensor gives it, in 0.1 °C; truncated toward 0 (R629). -/
def tenths (v : Int) : Nat := (BitVec.ofInt 32 (Int.tdiv (v * 10) 16)).toNat

end Sys2Proof.Machine
end

