-- ==== Sys2Proof/Machine/Security.lean ====
section
/-! DEFINITION. The security modules: self-tests, verified boot, SPDM, the owner services, debug, handover and IDE
(spec/16_security.md R579 to R604). -/

namespace Sys2Proof.Machine

open Sys2Proof

def secModule (s : State) (h : Nat) : SecModule := mget {} s.sec.modules h
def setSecModule (s : State) (h : Nat) (x : SecModule) : State :=
  { s with sec := { s.sec with modules := mset {} s.sec.modules h x } }

/-! ### Failing (R601, R602) -/

/-- Nothing is known against a module. -/
def moduleHealthy (s : State) (h : Nat) : Bool :=
  let m := secModule s h
  m.tested ≠ some false && m.smOk ≠ some false && m.hbOk ≠ some false

/-- A module fails with a code (R601): in HB0 a handover to a healthy HB1 begins; in the active HB1, or with no healthy
standby, the panel enters the safe state. -/
def moduleFails (s : State) (h code : Nat) : State :=
  if s.sec.active = h || (h = 1 && s.sec.handover.isSome) then
    if h = 0 && moduleHealthy s 1 then
      (if s.sec.handover.isSome then s else { s with sec := { s.sec with handover := some (code, s.now) } })
    else enterSecurity { s with sec := { s.sec with active := 2, handover := none } } code (srcSecurity h)
  else s

/-- SECURITY_SELFTEST (R580, R601). -/
def execSecuritySelftest (h : Fin 2) (good : Bool) (s : State) : Host.Outcome State Fault Refusal :=
  if !s.power.pwrgd then .next s
  else
    let s := setSecModule s h.val { secModule s h.val with tested := some good }
    if good then .next s else .next (moduleFails (secFault s 0x01 (srcSecurity h.val) 0) h.val 0x01)

/-- ENTROPY_HEALTH_FAIL (R580, R601). -/
def execEntropyHealthFail (h : Fin 2) (s : State) : Host.Outcome State Fault Refusal :=
  if !s.power.pwrgd then .next s
  else
    let s := setSecModule s h.val { secModule s h.val with tested := some false }
    .next (moduleFails (secFault s 0x02 (srcSecurity h.val) 0) h.val 0x02)

/-! ### Verified boot (R585, R586, R601) -/

/-- The fault of an image of a bridge that fails R586: no good signature, or a rollback. -/
def bootFault (signed : Bool) : Nat := if signed then 0x04 else 0x03

/-- An image of a bridge has been verified: with its boot firmware the bridge's host port ends its CRS (R441). -/
def bridgeVerified (s : State) (h : Nat) (x : SecModule) (boot good signed : Bool) (svn : Nat) : State :=
  let s := setSecModule s h x
  if good then (if boot then s.setField (hostA h 0) 9 1 1 else s)
  else moduleFails (secFault s (bootFault signed) (srcSecurity h) svn) h (bootFault signed)

/-- BOOT_VERIFY (R585, R586): `signed` is what the signature and ALG checks find, and `svn` the image's SVN. -/
def execBootVerify (image : BootImage) (signed : Bool) (svn : Nat) (s : State) : Host.Outcome State Fault Refusal :=
  if !s.power.pwrgd then .next s
  else
    match image with
    | .securityModule h =>
      let m := secModule s h.val
      let good := signed && decide (s.sec.minSm ≤ svn)
      if m.smOk.isSome then .next s
      else .next (bridgeVerified s h.val { m with smOk := some good, svnSm := svn } false good signed svn)
    | .bootFirmware h =>
      let m := secModule s h.val
      let good := signed && decide (s.sec.minHb ≤ svn)
      if m.hbOk.isSome then .next s
      else .next (bridgeVerified s h.val { m with hbOk := some good, svnHb := svn } true good signed svn)
    | .guideCores =>
      if !panelRuns s || s.power.stage ≠ 6 || s.sec.guideOk then .next s
      else if signed && decide (s.sec.minGc ≤ svn) then
        .next { s with sec := { s.sec with guideOk := true, svnGc := svn } }
      else .next (enterSecurity (secFault s 0x05 (srcTile 0 0x0A) svn) 0x05 (srcTile 0 0x0A))
    | .tuningTable n =>
      if !panelRuns s || s.power.stage ≠ 6 || (s.lantern n.val).table then .next s
      else if signed then .next (s.setLantern n.val { s.lantern n.val with table := true })
      else
        let block := srcLantern n.val 0x14
        .next (enterSecurity (secFault s 0x05 block svn) 0x05 block)

/-! ### Registers (R603, R604) -/

/-- KEY_ID of a key, 0 when there is none. -/
def keyId? : Option (BitVec 256) → Nat
  | some k => (keyIdOf k).toNat
  | none => 0

/-- `SEC_STATE` (R603). -/
def secState (s : State) : Nat :=
  let x := s.sec
  let loaded := (List.range 4).foldl (fun m k => m + (if (mget none x.keySlots k).isSome then 2 ^ k else 0)) 0
  x.active + 4 * (decide ((secModule s x.active).tested = some true)).toNat + 8 * x.debugOpen.toNat
    + 2 ^ 4 * x.ideRequired.toNat + 2 ^ 5 * x.jk.isSome.toNat + 2 ^ 6 * x.jkPending.isSome.toNat
    + 2 ^ 7 * x.anchor.isSome.toNat + 2 ^ 8 * loaded + 2 ^ 12 * (x.revoked % 16)

/-- `SEC_SVN` (R604). -/
def secSvn (s : State) : Nat :=
  let m := secModule s s.sec.active
  m.svnSm % 256 + 2 ^ 8 * (m.svnHb % 256) + 2 ^ 16 * (s.sec.svnGc % 256)

/-! ### Measurements (R589) -/

/-- What measurement 0x08 covers: SEC_STATE, the fused SVNs, the owner anchor and the itinerary key slots. -/
def stateMeasured (s : State) : List Nat :=
  let key := fun (k : Option (BitVec 384)) => match k with
    | some v => 1 + v.toNat
    | none => 0
  [secState s, s.sec.minSm, s.sec.minHb, s.sec.minGc, key s.sec.anchor] ++
    (List.range 4).map (fun k => key (mget none s.sec.keySlots k))

/-- What measurement 0x09 covers: the map in force and every die capability word. -/
def mapMeasured (s : State) : List Nat :=
  (List.range 8).map (fun r => (s.reg (0x1000 + 4 * r)).toNat) ++
  (List.range 8).flatMap (fun n => [(s.reg (lanA n 0)).toNat, (Config.dieId (144 + n)).toNat]) ++
  (List.range 2).flatMap (fun h => [(s.reg (hbgA (8 * h))).toNat, (Config.dieId (152 + h)).toNat]) ++
  (List.range 4).map (fun n => (s.reg (0x1040 + 8 * n)).toNat)

/-- A measurement as the module answers it now. Those of the fold stand as it computed them; before the first fold 0x06
is zero, and the others are computed on request (assumption log entry 64). -/
def measurement (s : State) (i : Nat) : BitVec 384 :=
  if 6 ≤ i ∧ i ≤ 9 ∧ s.itin.folded then mget 0 s.sec.measured i
  else if i = 6 then 0
  else if i = 8 then Config.measure 8 (stateMeasured s)
  else if i = 9 then Config.measure 9 (mapMeasured s)
  else if 0xA ≤ i ∧ i ≤ 0xD then
    let a := (s.guest (i - 0xA)).answer
    if a.isEmpty then 0 else sha384 (a.flatMap (fun w => leBytes 8 w.toNat))
  else Config.measure i []

/-- The panel recomputes measurements 0x06 to 0x09 at a fold: the digest of the base image, and the selection with every
detour image in force. -/
def remeasure (s : State) (sel : Word) : State :=
  let base := sha384 (imageBytes s 0 (imageLength s 0))
  let detours := (selected sel).flatMap (fun k => imageBytes s k (imageLength s k))
  let m := mset 0 (mset 0 s.sec.measured 6 base) 7 (Config.measure 7 (leBytes 4 sel.toNat ++ detours))
  let m := mset 0 (mset 0 m 8 (Config.measure 8 (stateMeasured s))) 9 (Config.measure 9 (mapMeasured s))
  { s with sec := { s.sec with measured := m } }

/-! ### SPDM (R588) -/

/-- The active module has started: it has passed its tests and runs verified firmware (R580, R585). -/
def responderUp (s : State) : Bool :=
  let m := secModule s s.sec.active
  s.power.pwrgd && decide (m.tested = some true) && decide (m.smOk = some true)

/-- The responder serves the path: its module has started, and the path answers. -/
def spdmUp (s : State) (p : Path) : Bool :=
  let m := secModule s s.sec.active
  decide (m.tested = some true) && decide (m.smOk = some true) &&
  (match p with
    | .pf h => s.power.pwrgd && s.field (hostA h.val 0) 9 1 = 1
    | .vf _ _ => false
    | .msg _ => s.mgmt.up)

/-- The lowest number that no open session has. -/
def freeSession (s : State) : Nat :=
  ((List.range 4).find? (fun i => s.sec.sessions.all (fun x => x.id ≠ i))).getD 0

/-- A session of a path. -/
def sessionOn (s : State) (p : Path) (id : Nat) : Bool := s.sec.sessions.any (fun x => x.id = id && x.path = p)

/-- A digest as words, its first byte first. -/
def digestWords (d : BitVec 384) : List Word :=
  (List.range 12).map (fun i => BitVec.ofNat 32 (leNat (((beBytes 48 d.toNat).drop (4 * i)).take 4)))

/-- What the responder does with a request: a session, a measurement, a certificate or challenge whose content is the
module's own, or the IDE keys of a function of the path's port (R588, R595). -/
def spdmServe (s : State) (p : Path) (kind : SpdmKind) : State :=
  match kind with
  | .startSession mutualAuth =>
    if 4 ≤ s.sec.sessions.length || (mutualAuth && s.sec.anchor.isNone) then answer s .unsupported
    else
      let id := freeSession s
      let x : Session := { id, path := p, mutualAuth }
      answer { s with sec := { s.sec with sessions := s.sec.sessions ++ [x] } } .ok [BitVec.ofNat 32 id]
  | .endSession id =>
    if sessionOn s p id then
      answer { s with sec := { s.sec with sessions := s.sec.sessions.filter (fun x => x.id ≠ id) } } .ok
    else answer s .unsupported
  | .heartbeat id => answer s (if sessionOn s p id then .ok else .unsupported)
  | .measurements i => if 1 ≤ i && i ≤ 0xD then answer s .ok (digestWords (measurement s i)) else answer s .unsupported
  | .certificate => answer s .ok
  | .challenge => answer s .ok
  | .ideProgram f =>
    if p = .pf f.port && s.sec.sessions.any (fun x => x.path = p) then
      answer { s with sec := { s.sec with ports := mset false s.sec.ports f.id true } } .ok
    else answer s .unsupported
  | .unsupported => answer s .unsupported

/-- SPDM_REQUEST (R588): over MCTP, or over DOE of a PF. -/
def execSpdmRequest (p : Path) (kind : SpdmKind) (s : State) : Host.Outcome State Fault Refusal :=
  if spdmUp s p then .next (spdmServe s p kind) else .next s

/-! ### Owner services (R581, R590) -/

/-- A service that is refused (R581, R601). -/
def serviceRefused (s : State) : State :=
  answer (secFault s 0x09 (srcSecurity (s.sec.active % 2)) 0) .unsupported

/-- The session is the trip leader's. -/
def leaderSession (s : State) (x : Session) : Bool := x.path.master.isSome && x.path.master = s.lead.leader

/-- An owner service invoked in a session: the crypto officer's, mutually authenticated, or for PROVISION_ANCHOR the
trip leader's with responder authentication only. A request that comes in no open session is refused like one in a
session that is not the crypto officer's (R581). -/
def ownerService (s : State) (id : Nat) (provision allowed : Bool) (effect : State → State) : State :=
  match s.sec.sessions.find? (fun x => x.id = id) with
  | none => if responderUp s then serviceRefused s else s
  | some x =>
    if !spdmUp s x.path then s
    else if leaderSession s x && x.mutualAuth = !provision && allowed then answer (effect s) .ok
    else serviceRefused s

/-- PROVISION_ANCHOR (R590). -/
def execProvisionAnchor (session : Nat) (anchor : BitVec 384) (s : State) : Host.Outcome State Fault Refusal :=
  .next (ownerService s session true s.sec.anchor.isNone (fun s => { s with sec := { s.sec with anchor := some anchor } }))

/-- LOAD_ITIN_KEY (R590): into an empty slot. -/
def execLoadItinKey (session : Nat) (slot : Fin 4) (key : BitVec 384) (s : State) :
    Host.Outcome State Fault Refusal :=
  .next (ownerService s session false (mget none s.sec.keySlots slot.val).isNone (fun s =>
    { s with sec := { s.sec with keySlots := mset none s.sec.keySlots slot.val (some key) } }))

/-- REVOKE_ITIN_KEY (R590). -/
def execRevokeItinKey (session : Nat) (slot : Fin 4) (s : State) : Host.Outcome State Fault Refusal :=
  .next (ownerService s session false true (fun s =>
    { s with sec := { s.sec with revoked := s.sec.revoked ||| 2 ^ slot.val } }))

/-- LOAD_JOB_KEY (R583, R590, R600): pending until the next itinerary fold; refused while debug is open. The standby
module's copy (R584) is the same field. -/
def execLoadJobKey (session : Nat) (key : BitVec 256) (s : State) : Host.Outcome State Fault Refusal :=
  .next (ownerService s session false (!s.sec.debugOpen) (fun s => { s with sec := { s.sec with jkPending := some key } }))

/-- ADVANCE_SVN (R586, R590): the fused minimums rise to the SVNs of the images that are running. -/
def execAdvanceSvn (session : Nat) (s : State) : Host.Outcome State Fault Refusal :=
  .next (ownerService s session false true (fun s =>
    let m := secModule s s.sec.active
    { s with sec := { s.sec with minSm := max s.sec.minSm m.svnSm, minHb := max s.sec.minHb m.svnHb,
                                 minGc := max s.sec.minGc s.sec.svnGc } }))

/-- ZEROIZE (R590): only in the safe state. -/
def execZeroize (session : Nat) (s : State) : Host.Outcome State Fault Refusal :=
  .next (ownerService s session false s.safe.active zeroizeKeys)

/-- The token verifies: it binds HB0's DIE_ID and the present nonce under Gweord's key. The order of the bytes signed
is PRESUMED: the DIE_ID, then the nonce (assumption log entry 65). -/
def tokenOk (s : State) (t : DebugToken) : Bool :=
  t.dieId = Config.dieId 152 && t.nonce = s.sec.nonce &&
  Config.verifySignature Config.debugKey (sha384 (leBytes 4 t.dieId.toNat ++ leBytes 32 t.nonce.toNat))
    ((beBytes 96 t.signature.toNat).map (BitVec.ofNat 8))

/-- DEBUG_UNLOCK (R600): every attempt takes a new nonce. -/
def execDebugUnlock (session : Nat) (token : DebugToken) (s : State) : Host.Outcome State Fault Refusal :=
  .next (ownerService s session false s.safe.active (fun s =>
    let ok := tokenOk s token
    let s := { s with sec := { s.sec with nonce := Config.drbg s.draws } }
    let s := s.used
    if ok then
      let s := zeroizeKeys s
      restart { s with sec := { s.sec with debugOpen := true } }
    else secFault s 0x08 (srcSecurity (s.sec.active % 2)) 0))

/-! ### Handover and IDE (R595, R602) -/

/-- SECURITY_HANDOVER (R602): HB1's module takes over; a handover at boot waits until the endpoint is up. -/
def execSecurityHandover (s : State) : Host.Outcome State Fault Refusal :=
  match s.sec.handover with
  | none => .next s
  | some (code, _) =>
    if !s.power.pwrgd || !s.mgmt.up then .next s
    else
      let s := { s with sec := { s.sec with active := 1, handover := none, sessions := [] } }
      let s := (portFns 0 ++ portFns 1).foldl ideLost s
      .next (post s 0x81 (srcSecurity 1) (1 + 2 ^ 8 * code))

/-- IDE_STATE_CHANGE (R595): a stream with keys enters Secure, and what waited for it goes on; or it leaves Secure. -/
def execIdeStateChange (f : Fn) (secure : Bool) (s : State) : Host.Outcome State Fault Refusal :=
  if !s.power.pwrgd then .next s
  else if !secure then .next (ideLost s f)
  else if mget false s.sec.ports f.id then .next (releaseAll (s.setFn f { s.fn f with ide := true }))
  else .next s

end Sys2Proof.Machine
end

