-- ==== Sys2Proof/Machine/Jtag.lean ====
section
/-! DEFINITION. Boundary scan of the service connector (spec/16 R599, spec/19 R665). -/

namespace Sys2Proof.Machine

open Sys2Proof

/-- The die is in the chain: the host bridges while power is good, the lanterns and the sites of the map in force once
the map has been read (R665). -/
def inChain (s : State) : JtagDie → Bool
  | .bridge _ => s.power.pwrgd
  | .lantern _ => s.power.pwrgd && s.panel.mapRead
  | .site k => s.power.pwrgd && (tileAt? s k.val).isSome

def State.tap (s : State) (d : JtagDie) : Tap := mget {} s.taps d.id
def State.setTap (s : State) (d : JtagDie) (x : Tap) : State := { s with taps := mset {} s.taps d.id x }

/-- IDCODE of a die (R665). -/
def idcodeOf : JtagDie → Nat
  | .site _ => 0xB64725CB
  | .lantern _ => 0x264745CB
  | .bridge _ => 0x364755CB

/-- A die takes an instruction, and the register that it selects captures a value. Widths of 32, 8 and 1; the spec does
not give the boundary register's width, shown as 0. -/
def selectReg (s : State) (d : JtagDie) (i : TapInstruction) (width value : Nat) : State :=
  (s.setTap d { s.tap d with instruction := i, driven := decide (i = TapInstruction.extest) }).emit (.jtag d width value)

/-- IDCODE (R599, R665). -/
def execIdcode (die : JtagDie) (s : State) : Host.Outcome State Fault Refusal :=
  .next (if inChain s die then selectReg s die .idcode 32 (idcodeOf die) else s)

/-- STRAP_READ (R665): the pads as sampled at the die's last reset. -/
def execStrapRead (die : JtagDie) (s : State) : Host.Outcome State Fault Refusal :=
  .next (if inChain s die then selectReg s die .strapRead 8 (strapsHeld s die.id) else s)

/-- BYPASS (R599): the bypass register captures 0; every code not listed acts so. -/
def execBypass (die : JtagDie) (s : State) : Host.Outcome State Fault Refusal :=
  .next (if inChain s die then selectReg s die .bypass 1 0 else s)

/-- SAMPLE/PRELOAD (R599): the boundary register captures the pins and takes what is shifted in. -/
def execSamplePreload (die : JtagDie) (pins preload : Nat) (s : State) : Host.Outcome State Fault Refusal :=
  if inChain s die then
    let s := s.setTap die { s.tap die with boundary := preload }
    .next (selectReg s die .samplePreload 0 pins)
  else .next s

/-- EXTEST (R599): the boundary register drives the pins, and captures what the input pins hold. -/
def execExtest (die : JtagDie) (pins : Nat) (s : State) : Host.Outcome State Fault Refusal :=
  .next (if inChain s die then selectReg s die .extest 0 pins else s)

end Sys2Proof.Machine
end

