-- ==== Sys2Proof/Machine/Mirror.lean ====
section
/-! DEFINITION. Buddy mirroring: the windows' commands and fills (spec/15_resilience.md R561 to R566, R577). -/

namespace Sys2Proof.Machine

open Sys2Proof

/-- The hamper blocks of a window: first, and the one after its last. -/
def mirBlocks (s : State) (t w : Nat) : Nat × Nat :=
  let b := s.field (mirA t w 4) 0 18
  (b, b + s.field (mirA t w 8) 0 18)

/-- A window is enabled. -/
def mirEnabled (s : State) (t w : Nat) : Bool := s.field (mirA t w 0) 0 1 = 1

/-- The window may be enabled in a role (R577). -/
def mirAllowed (s : State) (t w : Nat) (receive : Bool) : Bool :=
  let (b, e) := mirBlocks s t w
  e ≤ 147456 &&
  (receive || (List.range 4).all (fun v =>
    let (c, f) := mirBlocks s t v
    v = w || !mirEnabled s t v || mirReceive s t v || e ≤ c || f ≤ b))

/-- The buddy link is not ACTIVE for a window whose peer is the buddy (R564). -/
def buddyDark (s : State) (t w : Nat) : Bool :=
  buddyEnabled s.itin.force && mirPeer s t w = buddyModule s.itin.force && (s.copperPort 12).phase ≠ .active

/-- A fill starts at the window's first line. -/
def startFill (s : State) (t w : Nat) : State :=
  let s := mirrorLevel (s.setMirror (mirKey t w) { state := 1 })
  if buddyDark s t w then mirrorInvalid s t w 2 else s

/-- Turn a window OFF. -/
def mirOff (s : State) (t w : Nat) : State :=
  mirrorLevel ((s.setField (mirA t w 0) 0 1 0).setMirror (mirKey t w) {})

/-- ENABLE rises: a fill or a wait for one starts. -/
def mirOn (s : State) (t w : Nat) : State :=
  let s := s.setField (mirA t w 0) 0 1 1
  if mirReceive s t w then s.setMirror (mirKey t w) { state := 4, idle := s.now } else startFill s t w

/-- ROLE and FILL_IDLE_MS of a write (R577). -/
def mirFields (s : State) (t w : Nat) (v : Word) : State :=
  let a := mirA t w 0
  (s.setField a 1 1 (bits v.toNat 1 1)).setField a 16 16 (clampTo 10 10000 (bits v.toNat 16 16))

/-- RESYNC restarts an INVALID source (R564); COMMIT makes a FILLING receive window VALID (R565). -/
def mirResync (s : State) (t w : Nat) : State :=
  if (s.mirror (mirKey t w)).state = 3 && !mirReceive s t w then startFill s t w else s
def mirCommit (s : State) (t w : Nat) : State :=
  let m := s.mirror (mirKey t w)
  if m.state = 4 then s.setMirror (mirKey t w) { m with state := 2 } else s

/-- A write of `TIL_MIRw_CTRL` (R564, R565, R577). -/
def mirCtrl (s : State) (p : Path) (t w : Nat) (v : Word) : State :=
  let a := mirA t w 0
  let acc : Access := { path := p, off := a }
  let on := mirEnabled s t w
  let want := v.getLsbD 0
  let changes := s.reg a ≠ (mirFields s t w v).reg a
  let s := if !on then mirFields s t w v else if changes then accessError s acc 2 else s
  let s := if on && !want then mirOff s t w
    else if !on && want then (if mirAllowed s t w (mirReceive s t w) then mirOn s t w else accessError s acc 2)
    else s
  let s := if v.getLsbD 2 then mirResync s t w else s
  if v.getLsbD 3 then mirCommit s t w else s

/-- MIRROR_ENABLE (R564, R565, R577): a write of a window's control word. -/
def execMirrorEnable (p : Path) (t : Fin 64) (w : Fin 4) (v : Word) (s : State) : Host.Outcome State Fault Refusal :=
  .next (ownerWrite s p (mirA t.val w.val 0) v (fun s => mirCtrl s p t.val w.val v))

/-- RESYNC (R564), its other fields written as they stand. -/
def execResync (p : Path) (t : Fin 64) (w : Fin 4) (s : State) : Host.Outcome State Fault Refusal :=
  let v := s.reg (mirA t.val w.val 0) ||| 4
  .next (ownerWrite s p (mirA t.val w.val 0) v (fun s => mirCtrl s p t.val w.val v))

/-- COMMIT (R565), its other fields written as they stand. -/
def execCommit (p : Path) (t : Fin 64) (w : Fin 4) (s : State) : Host.Outcome State Fault Refusal :=
  let v := s.reg (mirA t.val w.val 0) ||| 8
  .next (ownerWrite s p (mirA t.val w.val 0) v (fun s => mirCtrl s p t.val w.val v))

/-- MIRROR_FILL_LINE (R209, R561, R564): the line at FRONT is read and sent, and FRONT advances. A stash line is left
out; a line that cannot be read has no value to send (assumption log entry 62). -/
def execMirrorFillLine (t : Fin 64) (w : Fin 4) (s : State) : Host.Outcome State Fault Refusal :=
  let k := mirKey t.val w.val
  let m := s.mirror k
  let off := mirBase s t.val w.val + 64 * m.front
  if !active s || m.state ≠ 1 || mirLines s t.val w.val ≤ m.front || !lineReady s t.val off then .next s
  else
    let s := s.setMirror k { m with front := m.front + 1 }
    if inStash s t.val off then .next s
    else
      let (ls, s) := readLines s t.val [off] .stream
      match ls with
      | [some l] => .next (sendPacket (s.count64 (tilA t.val 0x4048) 1) (.tile t) (.mirror t.val w.val true .nobody) (mirrorPacket s t.val w.val off l))
      | _ => .next s

/-- A packet of a window's fill or copies is not yet acknowledged. -/
def fillOpen (s : State) (t w : Nat) : Bool :=
  let mine := fun (p : Purpose) => match p with
    | .mirror t' w' true _ => decide (t' = t ∧ w' = w)
    | _ => false
  s.fabric.sent.any (fun o => mine o.purpose) || s.fabric.unsent.any (fun u => mine u.purpose)

/-- MIRROR_FILL_DONE (R564). -/
def execMirrorFillDone (t : Fin 64) (w : Fin 4) (s : State) : Host.Outcome State Fault Refusal :=
  let k := mirKey t.val w.val
  let m := s.mirror k
  if active s && m.state = 1 && m.front = mirLines s t.val w.val && !fillOpen s t.val w.val then
    .next (s.setMirror k { m with state := 2 })
  else .next s

/-- MIRROR_FILL_IDLE_TIMEOUT (R565). -/
def execMirrorFillIdleTimeout (t : Fin 64) (w : Fin 4) (s : State) : Host.Outcome State Fault Refusal :=
  let m := s.mirror (mirKey t.val w.val)
  if m.state = 4 && s.power.pwrgd then
    let s := s.passTo (m.idle + 1000000 * s.field (mirA t.val w.val 0) 16 16)
    .next (mirrorInvalid s t.val w.val 4)
  else .next s

/-- `TIL_MIRw_CTRL` as it reads: its stored fields with STATE and CAUSE (R577). -/
def mirView (s : State) (t w : Nat) : Nat :=
  let m := s.mirror (mirKey t w)
  putBits (putBits (s.reg (mirA t w 0)).toNat 4 3 m.state) 7 3 m.cause

/-- `TIL_MIRw_FRONT`: whole blocks filled. -/
def mirFront (s : State) (t w : Nat) : Nat := (s.mirror (mirKey t w)).front / 64

end Sys2Proof.Machine
end

