-- ==== Sys2Proof/Machine/Noticeboard.lean ====
section
/-! DEFINITION. The noticeboard's rings: records written to host memory, moderation, masks, re-sampling and the global
hold (spec/14_noticeboard.md R511 to R535). -/

namespace Sys2Proof.Machine

open Sys2Proof

/-! ### Records (R511, R517, R519) -/

/-- The 32 bytes of a record (R511). -/
def recordBytes (x : Record) : List Nat :=
  let body := leBytes 4 x.seq.toNat ++ leBytes 8 x.stamp.toNat ++ leBytes 2 x.source.toNat ++
    [x.cls.toNat, x.party.toNat] ++ leBytes 12 x.payload.toNat
  body ++ leBytes 4 (crc32 body)

/-- The ring has a slot for a record: the last one is an NB_LOST record's (R517). -/
def slotFree (x : Ring) (rec : Record) : Bool :=
  let used := (rec.seq - x.consumer).toNat
  used < 2 ^ x.sizeLog2 - 1 || (rec.cls = 1 && used < 2 ^ x.sizeLog2)

/-- The oldest record of a ring's buffer goes to host memory (R516, R517, R522). -/
def writeRecord (s : State) (r : Nat) (x : Ring) (rec : Record) (rest : List Record) : State :=
  let s := s.emit (.hostWrite (ringFn s r) (x.base + 32 * (rec.seq.toNat % 2 ^ x.sizeLog2)) (recordBytes rec))
  let empty := x.consumer = x.producer
  let s := refill (s.setRing r { x with producer := rec.seq + 1, buffer := rest }) r
  if empty then interruptDue s r else s

/-- RECORD_WRITE (R517, R526, R518). -/
def execRecordWrite (ring : Fin 17) (s : State) : Host.Outcome State Fault Refusal :=
  let x := s.ring ring.val
  match x.buffer with
  | [] => .next s
  | rec :: rest =>
    if ringOpen s ring.val && slotFree x rec then .next (writeRecord s ring.val x rec rest) else .next s

/-- EVENT_COMMIT (R512, R517, R521, R524, R529): a source commits a record of a class of the table, with the payload bits
that the class defines; for a level class its condition becomes true. -/
def execEventCommit (e : Event) (s : State) : Host.Outcome State Fault Refusal :=
  if !s.power.pwrgd || e.cls = 1 || !knownClass e.cls then .next s
  else if levelClasses.contains e.cls then
    .next (setLevel s e.cls e.source (some { party := if deviceClasses.contains e.cls then 0xFF else e.party,
                                             payload := payloadOf e.cls e.payload }))
  else .next (post s e.cls e.source (payloadOf e.cls e.payload) e.party)

/-- MODERATION_TIMEOUT (R522). -/
def execModerationTimeout (ring : Fin 17) (s : State) : Host.Outcome State Fault Refusal :=
  let r := ring.val
  match (s.ring r).timer with
  | none => .next s
  | some t =>
    let s := s.passTo t
    let x := s.ring r
    let s := s.setRing r { x with timer := none }
    if !x.held then .next s
    else if x.consumer = x.producer then .next (s.setRing r { x with timer := none, held := false })
    else .next (sendInterrupt s r)

/-! ### Writes to a ring's block (R514, R518, R533) -/

/-- A write to word `o` of the block of ring `r`: of the device ring an owner write, of a party's ring a write through
a VF of the party; masters have a read-only view of a party's ring (R496, R514, R534, R569). -/
def boardWrite (s : State) (p : Path) (r o : Nat) (v : Word) (effect : Access → State → State) : State :=
  match r, p with
  | 0, p => ownerWrite s p (0xD100 + o) v (effect { path := p, off := 0xD100 + o })
  | k + 1, .vf port q =>
    let acc : Access := { path := .vf port q, bar4 := true, off := 0x1000 + o }
    if q.val ≠ k || pathSilent s p then s
    else if pathClosed s p then answer s .unsupported
    else if !partyExists s k then refused s acc 1
    else answer (effect acc s) .ok
  | _, _ => s

/-- The function whose enables an enabling write needs: of a party's ring, the VF that writes (R518). -/
def enableFn (s : State) (p : Path) (r : Nat) : Fn :=
  match p with
  | .vf port q => { port, vf := ⟨q.val + 1, Nat.succ_lt_succ q.isLt⟩ }
  | _ => ringFn s r

/-- ENABLE rises from 0 to 1 (R518). -/
def enableRing (s : State) (acc : Access) (r : Nat) : State :=
  let x := s.ring r
  let f := enableFn s acc.path r
  if (s.fn f).busMaster && (s.fn f).msixEnable then
    releaseHeld (s.setRing r { x with enable := true, consumer := x.producer,
                                      port := if r = 0 then x.port else f.port.val }) r
  else accessError s acc 2

/-- A write of `NB_CTRL`: ENABLE and the idle hint (R518, R523). -/
def boardCtrl (s : State) (acc : Access) (r : Nat) (v : Word) : State :=
  let x := s.ring r
  let s := if v.getLsbD 0 then (if x.enable then s else enableRing s acc r)
    else s.setRing r { x with enable := false }
  if v.getLsbD 1 then setBypass s r else s

/-- A write of `NB_CONSUMER` (R518): the freed slots may let waiting records go. -/
def consumerWrite (s : State) (acc : Access) (r : Nat) (v : Word) : State :=
  let x := s.ring r
  if (v - x.consumer).toNat ≤ (x.producer - x.consumer).toNat then s.setRing r { x with consumer := v }
  else accessError s acc 2

/-- A ring takes a base, only while ENABLE is 0; bits [11:0] are reserved (R518, R533). -/
def baseWrite (s : State) (acc : Access) (r v : Nat) : State :=
  let x := s.ring r
  if x.enable then accessError s acc 2 else s.setRing r { x with base := 4096 * (v % 2 ^ 64 / 4096) }

/-- A write of a word of `NB_BASE` or of `NB_CFG`, only while ENABLE is 0 (R518, R533). The base is a 64-bit quantity:
its low word waits for the high word (R10, R646). -/
def cfgWrite (s : State) (acc : Access) (r o : Nat) (v : Word) : State :=
  let x := s.ring r
  if x.enable then accessError s acc 2
  else if o = 0 then putLow s acc.path acc.off v
  else if o = 4 then
    let (lo, s) := takeLow s acc.path (acc.off - 4) (fun s => (BitVec.ofNat 32 x.base, s))
    baseWrite s acc r (lo.toNat + 2 ^ 32 * v.toNat)
  else s.setRing r { x with sizeLog2 := clampTo 6 20 (bits v.toNat 0 5), modUs := clampTo 0 1000 (bits v.toNat 16 10),
                            port := if r = 0 then bits v.toNat 31 1 else x.port }

/-- Keys of a ring's levels that have posted their record. -/
def postedKeys (x : Ring) : List Nat := (x.levels.filter (fun p => p.2 = .posted)).map (·.1)

/-- A write of `NB_COMPLETE` (R521): one source and class, or with ALL every POSTED source. -/
def completeWrite (s : State) (r : Nat) (v : Word) : State :=
  let key := levelKey (bits v.toNat 0 8) (bits v.toNat 8 16)
  ((postedKeys (s.ring r)).filter (fun k => v.getLsbD 31 || k = key)).foldl (fun s k => resample s r k) s

/-- One bit of a mask write (R524, R525): its window opens; a level class is re-sampled when an unmask is in force. -/
def maskBit (s : State) (r : Nat) (v : Word) (k j : Nat) : State :=
  let c := 32 * k + j
  let x := s.ring r
  let new := v.getLsbD j
  if !knownClass c || unmaskable c || x.masks.getLsbD (c % 256) = new then s
  else
    s.setRing r { x with
      masks := BitVec.ofNat 256 (putBits x.masks.toNat c 1 new.toNat),
      maskTime := mset none x.maskTime c (some s.now),
      resample := mset none x.resample c (if !new && levelClasses.contains c then some s.now else none) }

/-- A write of `NB_MASKk` (R524). -/
def maskWrite (s : State) (r k : Nat) (v : Word) : State :=
  s.each (List.range 32) (fun j s => maskBit s r v k j)

/-- What a write to word `o` of a ring's block does; read-only words ignore it (R11, R533). -/
def ringEffect (s : State) (acc : Access) (r o : Nat) (v : Word) : State :=
  if o ≤ 8 then cfgWrite s acc r o v
  else if o = 0xC then boardCtrl s acc r v
  else if o = 0x18 then consumerWrite s acc r v
  else if o = 0x1C then completeWrite s r v
  else if 0x40 ≤ o && o < 0x60 then maskWrite s r ((o - 0x40) / 4) v
  else s

/-- RING_ENABLE (R518): ENABLE is written 1. -/
def execRingEnable (p : Path) (ring : Fin 17) (s : State) : Host.Outcome State Fault Refusal :=
  .next (boardWrite s p ring.val 0xC 1 (fun acc s => boardCtrl s acc ring.val 1))

/-- CONSUMER_WRITE (R518). -/
def execConsumerWrite (p : Path) (ring : Fin 17) (v : Word) (s : State) : Host.Outcome State Fault Refusal :=
  .next (boardWrite s p ring.val 0x18 v (fun acc s => consumerWrite s acc ring.val v))

/-- IDLE (R523): the idle hint, ENABLE written as it stands. -/
def execIdle (p : Path) (ring : Fin 17) (s : State) : Host.Outcome State Fault Refusal :=
  let v := BitVec.ofNat 32 (2 + (s.ring ring.val).enable.toNat)
  .next (boardWrite s p ring.val 0xC v (fun acc s => boardCtrl s acc ring.val v))

/-- NB_COMPLETE (R521). -/
def execNbComplete (p : Path) (ring : Fin 17) (v : Word) (s : State) : Host.Outcome State Fault Refusal :=
  .next (boardWrite s p ring.val 0x1C v (fun _ s => completeWrite s ring.val v))

/-- MASK_WRITE (R524, R525). -/
def execMaskWrite (p : Path) (ring : Fin 17) (k : Fin 8) (v : Word) (s : State) : Host.Outcome State Fault Refusal :=
  .next (boardWrite s p ring.val (0x40 + 4 * k.val) v (fun _ s => maskWrite s ring.val k.val v))

/-- UNMASK_RESAMPLE (R521, R525): at t_u + 40 ns the sources of the class that are ARMED are re-sampled. -/
def execUnmaskResample (ring : Fin 17) (cls : Fin 256) (s : State) : Host.Outcome State Fault Refusal :=
  let r := ring.val
  match mget none (s.ring r).resample cls.val with
  | none => .next s
  | some t =>
    let s := s.passTo (t + 40)
    let x := s.ring r
    let s := s.setRing r { x with resample := mset none x.resample cls.val none }
    let keys := (s.nb.conds.filter (fun p => p.1 / 65536 = cls.val &&
      (match p.2 with
        | some c => (ringsOf cls.val c.party).contains r
        | none => false) &&
      mget .armed x.levels p.1 = .armed)).map (·.1)
    .next (keys.foldl (fun s k => resample s r k) s)

/-! ### Reads (R523, R533) -/

/-- `NB_CTRL` as it reads. -/
def ctrlView (x : Ring) : Word :=
  BitVec.ofNat 32 (x.enable.toNat + 4 * x.bypass.toNat + 8 * x.timer.isSome.toNat + 16 * x.held.toNat)

/-- Word `o` of a ring's block as it reads; write-only words read 0 (R11). -/
def ringView (x : Ring) (o : Nat) : Word :=
  if o = 0 then BitVec.ofNat 32 x.base
  else if o = 4 then BitVec.ofNat 32 (x.base / 2 ^ 32)
  else if o = 8 then BitVec.ofNat 32 (x.sizeLog2 + 65536 * x.modUs + 2 ^ 31 * (x.port % 2))
  else if o = 0xC then ctrlView x
  else if o = 0x10 then x.taken
  else if o = 0x14 then x.producer
  else if o = 0x18 then x.consumer
  else if o = 0x20 then x.lost
  else if o = 0x24 then x.masked
  else if 0x40 ≤ o && o < 0x60 then BitVec.ofNat 32 (x.masks.toNat / 2 ^ (8 * (o - 0x40)))
  else 0

/-- A read of `NB_PRODUCER`: a consumer that finds its own position sets BYPASS (R523). -/
def producerRead (s : State) (r : Nat) : State :=
  let x := s.ring r
  let s := answer s .ok [x.producer]
  if x.producer = x.consumer then setBypass s r else s

/-- PRODUCER_READ (R523): by the ring's consumer, a master for the device ring and a VF of the party for its ring. -/
def execProducerRead (p : Path) (ring : Fin 17) (s : State) : Host.Outcome State Fault Refusal :=
  if pathSilent s p then .next s
  else if pathClosed s p then .next (answer s .unsupported)
  else
    match ring.val, p with
    | 0, .vf _ _ => .next s
    | 0, _ => .next (producerRead s 0)
    | k + 1, .vf _ q =>
      if q.val ≠ k then .next s
      else if !partyExists s k then .next (answer (accessError s { path := p, bar4 := true, off := 0x1014 } 1) .ok [0])
      else .next (producerRead s (k + 1))
    | _, _ => .next s

/-- The recent window's word at byte `o` (R535). -/
def recentView (s : State) (o : Nat) : Word :=
  match mget none s.nb.recent (o / 32) with
  | some x => BitVec.ofNat 32 (leNat ((recordBytes x).drop (o % 32 / 4 * 4) |>.take 4))
  | none => 0

/-- A read-only view word of a party's ring (R534). -/
def partyRingView (s : State) (p o : Nat) : Word :=
  if !partyExists s p then 0
  else ringView (s.ring (p + 1)) (if o = 0 then 0x10 else if o = 4 then 0x14 else if o = 8 then 0x18 else if o = 0xC then 0xC else 0x20)

/-! ### Global hold (R526, R532) -/

/-- HOLD is written: at its end every ring sends what it holds. -/
def holdWrite (s : State) (hold : Bool) : State :=
  let s := { s with nb := { s.nb with hold } }
  if hold then s else releaseAll s

/-- GLOBAL_HOLD (R526, R532). -/
def execGlobalHold (p : Path) (hold : Bool) (s : State) : Host.Outcome State Fault Refusal :=
  .next (ownerWrite s p 0xD000 (BitVec.ofNat 32 hold.toNat) (fun s => holdWrite s hold))

end Sys2Proof.Machine
end

