-- ==== Sys2Proof/Machine/Time.lean ====
section
/-! DEFINITION. The timetable servo: its upstream, its exchanges and their time limit (spec/09 R377 to R380, R384). -/

namespace Sys2Proof.Machine

open Sys2Proof

/-- This module is ROOT: `DEV_TIME_CFG.ROOT` is its own number (R379). -/
def rootModule (s : State) : Nat := s.field 0x7018 0 14
def isTimeRoot (s : State) : Bool := rootModule s = myModule s

/-- The upstream of a module under R378. -/
def plainUpstream (s : State) (m : Nat) : Nat :=
  let r := rootModule s
  let c := coordOf s m
  let d := coordOf s r
  if c 2 ≠ d 2 then moduleAt s (c 0) (c 1) (d 2)
  else if c 1 ≠ d 1 then moduleAt s (c 0) (d 1) (c 2)
  else moduleAt s (d 0) (c 1) (c 2)

/-- Exchanges from ROOT along R378. -/
def plainDepth (s : State) (m : Nat) : Nat :=
  ((List.range 3).filter (fun a => coordOf s m a ≠ coordOf s (rootModule s) a)).length

/-- CAND0 to CAND2 of the itinerary (R479). -/
def candidate (s : State) (i : Nat) : Option Nat :=
  match sectionOf s.itin.force 1 0 with
  | some x =>
    let v := bits (bodyWord x (0xC + 4 * (i / 2))) (16 * (i % 2)) 16
    if v = 0xFFFF then none else some (v % 2 ^ 14)
  | none => none

/-- The upstream at a place of the search: 0 that of R378, 1 to 3 the candidates. -/
def upstreamAt (s : State) (choice : Nat) : Option Nat :=
  if choice = 0 then some (plainUpstream s (myModule s)) else candidate s (choice - 1)

/-- The current upstream. -/
def upstream (s : State) : Nat := (upstreamAt s s.rc.servo.choice).getD (plainUpstream s (myModule s))

/-- The place after the current one that names a module; 0 after the last. -/
def nextChoice (s : State) : Nat :=
  (((List.range 4).filter (fun i => s.rc.servo.choice < i && (upstreamAt s i).isSome)).head?).getD 0

/-- `DEV_TIME_STATUS` (R384). DEPTH counts the exchanges of R378 from the upstream in use on (DEDUCED, assumption log
entry 49). -/
def timeStatus (s : State) : Nat :=
  let v := s.rc.servo
  let root := isTimeRoot s
  let depth := if root then 0 else min 3 (plainDepth s (upstream s) + 1)
  let off := max (-127) (min 127 v.offset)
  (decide (v.state = .locked)).toNat + 2 * (decide (v.state = .holdover)).toNat + 4 * depth
    + 256 * (off % 256).toNat + 65536 * (if root then myModule s else upstream s)

/-- The level event of HOLDOVER (R379, R529). -/
def holdoverLevel (s : State) : State :=
  setLevel s 0x46 (srcDevice 4)
    (if s.rc.servo.state = .holdover then some { party := 0xFF, payload := timeStatus s } else none)

/-- The module's counter in quarters of a nanosecond. -/
def quarterTime (s : State) : Int := 4 * s.time + s.rc.servo.part * 4 / 1000000

/-- A time message (R372). -/
def timeMessage (s : State) (kind : Nat) (p : RcPayload) : RcMessage :=
  { kind, op := 0, party := 0, epoch := epochOf s 0, stage := 0, seq := 0, team := 0, rank := 0, words := rcWords p }

/-- The upstream's answer to a TIME_REQ received at t2, stamped t3 as it leaves (R378). -/
def answerTime (s : State) (src : Nat) (t2 : Int) : State :=
  sendRoll s src (timeMessage s 5 (.stamps t2 (quarterTime s)))

/-- TIME_REQ (R378): this module asks its upstream, or takes the request of another, received at t2, and answers it. -/
def execTimeReq (request : Option (LinkPort × Nat × Int)) (s : State) : Host.Outcome State Fault Refusal :=
  if !panelRuns s then .next s
  else
    match request with
    | some (via, src, t2) =>
      if wayOpen s via then .next (answerTime (acceptRoll s src (timeMessage s 4 (.stamp 0))) src t2) else .next s
    | none =>
      if isTimeRoot s || !s.itin.folded then .next s
      else
        let t1 := quarterTime s
        let s := { s with rc := { s.rc with servo := { s.rc.servo with reqSent := some t1 } } }
        .next (sendRoll s (upstream s) (timeMessage s 4 (.stamp t1)))

/-- Asymmetry correction of a way in tenths of a nanosecond; 0 on a rack or buddy link (R378, R479). -/
def asymmetry (s : State) (via : LinkPort) : Int :=
  match via, sectionOf s.itin.force 1 0 with
  | .optical n p, some x =>
    let i := 16 * n.val + p.val
    (BitVec.ofNat 16 (bits (bodyWord x (0x14 + 2 * i / 4 * 4)) (16 * (i % 2)) 16)).toInt
  | _, _ => 0

/-- Offset of an exchange in fortieths of a nanosecond (R378). -/
def exchangeOffset (t1 t2 t3 t4 asym : Int) : Int := 10 * (t2 - t1) - 5 * ((t4 - t1) - (t3 - t2)) - 4 * asym

/-- The spread of offsets is within ±1 ns: no two lie more than 2 ns apart (DEDUCED, assumption log entry 50). -/
def spreadOk (os : List Int) : Bool := os.all (fun a => os.all (fun b => a - b ≤ 80))

/-- The counter takes the upstream's estimated value (R379). -/
def loadCounter (s : State) (off : Int) : State :=
  let total : Int := 1000000 * s.time + s.rc.servo.part + 25000 * off
  { s with time := (total / 1000000).toNat, rc := { s.rc with servo := { s.rc.servo with part := total % 1000000 } } }

/-- The offset as OFFSET holds it: of two quarters beside it either, the rounding is not stated (log entry 50). -/
def quarterOffset (s : State) (off : Int) : Int × State :=
  if off % 10 = 0 then (off / 10, s) else (off / 10 + (Config.freeBool s.draws).toNat, s.used)

/-- The rate after an exchange: toward an offset of 0, by at most 100 ppm; its size is open (assumption log entry 47). -/
def steer (s : State) (off : Int) : State :=
  let r : Int := if off = 0 then 0 else (s.free % 100 + 1 : Nat)
  { s.used with rc := { s.rc with servo := { s.rc.servo with rate := if off < 0 then -r else r } } }

/-- A valid exchange (R379). -/
def validExchange (s : State) (off : Int) : State :=
  let (q, s) := quarterOffset s off
  let v := s.rc.servo
  let s := { s with rc := { s.rc with servo := { v with offset := q, last := s.now, silent := 0, reqSent := none } } }
  match v.state with
  | .unlocked =>
    let os := (off :: v.offsets).take 8
    if os.length = 8 && spreadOk os then
      let s := loadCounter s off
      sendHeldFences { s with rc := { s.rc with servo := { s.rc.servo with state := .locked, offsets := [] } } }
    else { s with rc := { s.rc with servo := { s.rc.servo with offsets := os } } }
  | .locked => steer s off
  | .holdover =>
    holdoverLevel (steer { s with rc := { s.rc with servo := { s.rc.servo with state := .locked } } } off)

/-- A TIME_RESP received at t4: that of the upstream asked makes an exchange (R378, R379). -/
def takeTime (s : State) (via : LinkPort) (src : Nat) (t2 t3 t4 : Int) : State :=
  match s.rc.servo.reqSent with
  | none => s
  | some t1 =>
    if src ≠ upstream s || isTimeRoot s then s else validExchange s (exchangeOffset t1 t2 t3 t4 (asymmetry s via))

/-- TIME_RESP (R378, R379): an answer comes in by a port or copper link at t4. -/
def execTimeResp (via : LinkPort) (src : Nat) (t2 t3 t4 : Int) (s : State) : Host.Outcome State Fault Refusal :=
  if !panelRuns s || !wayOpen s via then .next s
  else .next (takeTime (acceptRoll s src (timeMessage s 5 (.stamps t2 t3))) via src t2 t3 t4)

/-- The upstream is silent: an UNLOCKED module names it once after a fold (R379). -/
def tellSilent (s : State) : State :=
  let m := upstream s
  let v := s.rc.servo
  if v.state ≠ .unlocked || v.told.contains m then s
  else
    let told := m :: v.told
    post { s with rc := { s.rc with servo := { v with told := told } } } 0x45 (srcDevice 4) m

/-- The rate of a free-running servo in HOLDOVER: within 1 ppm, and open (R380, assumption log entry 47). -/
def driftRate (s : State) : State :=
  { s.used with rc := { s.rc with servo := { s.rc.servo with rate := (s.free % 3 : Nat) - 1 } } }

/-- Upstreams that a module tries: that of R378 and the candidates the itinerary names. -/
def upstreams (s : State) : List Nat := (List.range 4).filter (fun i => (upstreamAt s i).isSome)

/-- TIME_EXCHANGE_TIMEOUT (R379): 3 ms without a valid exchange. The next upstream is tried; a LOCKED module goes to
HOLDOVER once all have been silent. -/
def execTimeExchangeTimeout (s : State) : Host.Outcome State Fault Refusal :=
  if !panelRuns s || isTimeRoot s || !s.itin.folded then .next s
  else
    let s := tellSilent (s.passTo (s.rc.servo.last + 3000000))
    let choice := nextChoice s
    let s := { s with rc := { s.rc with servo := { s.rc.servo with
      choice := choice, last := s.now, silent := s.rc.servo.silent + 1, offsets := [], reqSent := none } } }
    if (upstreams s).length ≤ s.rc.servo.silent && s.rc.servo.state = .locked then
      .next (holdoverLevel (driftRate { s with rc := { s.rc with servo := { s.rc.servo with state := .holdover } } }))
    else .next s

/-- The counter of ROOT is loaded before its first fold; elsewhere the write is discarded (R379, R384). -/
def loadTime (s : State) (v : Nat) : State :=
  if isTimeRoot s && !s.itin.folded then
    { s with time := v, rc := { s.rc with servo := { s.rc.servo with part := 0 } } }
  else s

/-- The low word of `DEV_TIME_SET` where the path has written none: the register is write-only and holds nothing between
writes, so the word is a free value (DESIGN CHOICE, assumption log entry 141). -/
def timeLow (s : State) : Word × State := (BitVec.ofNat 32 s.free, s.used)

/-- TIME_SET (R379, R384, R646): the write of `DEV_TIME_SET_HI` takes the low word that the path wrote before. -/
def execTimeSet (p : Path) (hi : Word) (s : State) : Host.Outcome State Fault Refusal :=
  .next (ownerWrite s p 0x7024 hi (fun s =>
    let (lo, s) := takeLow s p 0x7020 timeLow
    loadTime s (lo.toNat + 2 ^ 32 * hi.toNat)))

end Sys2Proof.Machine
end

