-- ==== Sys2Proof/Machine/Views.lean ====
section
/-! DEFINITION. What every register of the management window reads as: the stored words, and the registers that show a
unit's state (spec/18_register_map.md R637 to R643 and the register rules of each chapter). -/

namespace Sys2Proof.Machine

open Sys2Proof

/-! ### Codes -/

/-- Codes of R474, R509, R126 and R173. -/
def SlotState.num : SlotState → Nat
  | .empty => 0 | .verifying => 1 | .valid => 2 | .badSignature => 3 | .badFormat => 4 | .wrongBase => 5
def PartyPhase.num : PartyPhase → Nat
  | .none => 0 | .zeroing => 1 | .ready => 2 | .resetWait => 3 | .resetting => 4
def BankState.num : BankState → Nat
  | .idle => 0 | .fill => 1 | .drainWait => 2 | .drain => 3 | .zero => 4

/-- A mask of the numbers below `n` for which a test holds. -/
def maskOf (n : Nat) (f : Nat → Bool) : Nat := (List.range n).foldl (fun m k => m + (if f k then 2 ^ k else 0)) 0

/-- Word `k` of a number that two words hold. -/
def wordOf (v k : Nat) : Nat := v / 2 ^ (32 * k) % 2 ^ 32

/-! ### DEV -/

/-- `DEV_LEADER` (R507). -/
def leaderView (s : State) : Nat :=
  let x := s.lead
  (x.leader.getD x.last).val + 4 * x.leader.isNone.toNat + 8 * x.pending.toNat + 16 * x.target.val
    + 65536 * x.term.toNat

/-- `DEV_MASTERS` (R507). -/
def mastersView (s : State) : Nat := (s.reg 0x800C).toNat / 256 * 256 + maskOf 4 (masterPresent s)

/-- `DEV_FOLD_STATUS` (R508). -/
def foldStatus (s : State) : Nat :=
  let x := s.itin
  x.plan.isSome.toNat + 2 * x.result + 8 * x.reason + 65536 * x.count.toNat

/-- `DEV_ITIN_CTRL` (R508). -/
def itinCtrl (s : State) : Nat :=
  let x := s.itin
  x.slotSel + 2 ^ 10 * x.saving.isSome.toNat + 2 ^ 11 * x.bootStore.isSome.toNat + 2 ^ 12 * x.bootFolded.toNat

/-- Word `k` of a party's block (R509). -/
def partyView (s : State) (p k : Nat) : Nat :=
  let x := s.party p
  let ts := partyTiles s p
  match k with
  | 0 => PartyPhase.num x.phase + 2 ^ 8 * x.epoch.toNat + 2 ^ 16 * ts.length + 2 ^ 24 * maskOf 4 (partyGuests s p).contains
  | 1 => maskOf 32 ts.contains
  | 2 => maskOf 32 (fun t => ts.contains (32 + t))
  | _ => x.resets.toNat

/-- A word of the fold report, by its number (R494). -/
def reportView (s : State) (i : Nat) : Word :=
  match s.itin.report[i / 4]? with
  | none => 0
  | some e =>
    match i % 4 with
    | 0 => e.w0 | 1 => e.w1 | 2 => e.w2 | _ => e.w3

/-- `DEV_ROWMAPr` with RETIRE_OK (R27). -/
def rowmapView (s : State) (r : Nat) : Nat :=
  (s.reg (0x1000 + 4 * r)).toNat + 2 ^ 10 * (s.panel.mapRead && retireOk s r).toNat

/-- A word of the DEV block that shows a unit's state; none for one that is stored. -/
def devView (s : State) (o : Nat) : Option Nat :=
  if o = 0x4 then some (0x010000B1 + 2 ^ 8 * Config.moduleRev.toNat)
  else if o = 0x8 ∨ o = 0xC then some (wordOf Config.serial.toNat (o / 4 % 2))
  else if o = 0x10 then some (0x00402840 + 2 ^ 14 * (s.panel.fitted % 16))
  else if 0x1000 ≤ o ∧ o < 0x1020 then some (rowmapView s ((o - 0x1000) / 4))
  else if o = 0x1020 then some (rowmapStatus s)
  else if o = 0x1064 then some (guestStatusWord s)
  else if o = 0x7010 ∨ o = 0x7014 then some (wordOf s.time (o / 4 % 2))
  else if o = 0x7028 then some (timeStatus s)
  else if o = 0x8000 then some (leaderView s)
  else if o = 0x800C then some (mastersView s)
  else if o = 0x8024 then some s.itin.sel.toNat
  else if o = 0x8028 then some (foldStatus s)
  else if o = 0x802C then some s.itin.active.toNat
  else if o = 0x8030 ∨ o = 0x8034 then some (wordOf s.itin.foldTime.toNat (o / 4 % 2))
  else if o = 0x8038 ∨ o = 0x803C then some (wordOf s.itin.job.toNat (o / 4 % 2))
  else if o = 0x8040 then some (s.itin.report.length + 65536 * min s.itin.overflow 65535)
  else if o = 0x8080 then some (itinCtrl s)
  else if 0x8100 ≤ o ∧ o < 0x8184 then
    let x := s.slot ((o - 0x8100) / 4)
    some (SlotState.num x.state + 65536 * x.sections)
  else if 0x8200 ≤ o ∧ o < 0x8300 then some (partyView s ((o - 0x8200) / 16) (o / 4 % 4))
  else if 0x9000 ≤ o ∧ o < 0xD000 then some (reportView s ((o - 0x9000) / 4)).toNat
  else if o = 0xD000 then some s.nb.hold.toNat
  else if 0xD100 ≤ o ∧ o < 0xD160 then some (ringView (s.ring 0) (o - 0xD100)).toNat
  else if 0xD200 ≤ o ∧ o < 0xD400 then some (partyRingView s ((o - 0xD200) / 32) (o % 32)).toNat
  else if 0xE000 ≤ o ∧ o < 0xE800 then some (recentView s (o - 0xE000)).toNat
  else if 0x800000 ≤ o ∧ o < 0xE00000 then some (s.storeWord o)
  else none

/-! ### PWR and SEC -/

/-- A word of the PWR block that shows a unit's state (R634). -/
def pwrView (s : State) (o : Nat) : Option Nat :=
  if o = 0x8 then some (pwrStatus s)
  else if o = 0xC then some (2 * s.power.shutdown)
  else if 0x40 ≤ o ∧ o < 0x54 then some (pwrDomain s ((o - 0x40) / 4))
  else none

/-- A word of the SEC block that shows a unit's state (R603, R604). -/
def secView (s : State) (o : Nat) : Option Nat :=
  if o = 0 then some (secState s)
  else if o = 4 then some (keyId? s.sec.jk)
  else if o = 8 then some (keyId? s.sec.jkPending)
  else if o = 0xC then some (secSvn s)
  else if 0x40 ≤ o ∧ o < 0x60 then some (wordOf s.sec.nonce.toNat ((o - 0x40) / 4))
  else none

/-! ### LAN -/

/-- `LAN_STATUS` (R428). -/
def lanStatus (s : State) (n : Nat) : Nat :=
  let x := s.lantern n
  let up := (List.range 4).filter (fun i => strandUp s (.lantern (Fin.ofNat 8 n) (Fin.ofNat 4 i)))
  up.length + 2 ^ 4 * (x.trim % 16) + 2 ^ 8 * x.phase + 2 ^ 14 * x.lasers.toNat + 2 ^ 15 * x.calDone.toNat

/-- `LAN_TEMP`: the highest and lowest of the 16 readings (R429). -/
def lanTemp (s : State) (n : Nat) : Nat :=
  let ts := (List.range 16).map (sensorRead s n)
  let hi := ts.foldl max (ts.headD 0)
  let lo := ts.foldl min (ts.headD 0)
  (BitVec.ofInt 16 hi).toNat + 65536 * (BitVec.ofInt 16 lo).toNat

/-- STATE and PEER of a port or copper link, with the bits of PEER (R433, R463). -/
def portState (x : Port) : Nat := x.phase.code + 2 ^ 3 * (x.attempt - 1) + 2 ^ 5 * x.cause
def portPeerWord (x : Port) (n : Nat) : Nat :=
  match x.peer with
  | some v => v % 2 ^ n + 2 ^ 31
  | none => 0

/-- `LAN_BUNDLEmm_STATE` (R434). -/
def bundleView (s : State) (n m : Nat) : Nat :=
  let b := s.bundle n m
  let i := nowPos b
  let light := if b.away then 0 else entryMode b.entry
  let place := if light = 0 then 0 else 2 ^ 2 * entryPort b.entry i + 2 ^ 6 * entryDir b.entry i
  light + place + 2 ^ 9 * b.locked.toNat + 2 ^ 10 * (pendingSince s n m).isSome.toNat + 2 ^ 11 * b.urgent.toNat
    + 2 ^ 12 * b.unmatched.toNat + 2 ^ 16 * min b.drift 255

/-- Two codes of the tuning table (R412): it reads 0 until it is loaded. -/
def tuningView (s : State) (n o : Nat) : Nat :=
  if (s.lantern n).table then
    let row := o / 1024
    let r := o % 1024 / 2
    (Config.tuning n row r).toNat + 65536 * (Config.tuning n row (r + 1)).toNat
  else 0

/-- A word of a lantern's block that shows a unit's state. -/
def lanView (s : State) (n o : Nat) : Option Nat :=
  if o = 4 then some (Config.dieId (144 + n)).toNat
  else if o = 0x10 then some (lanStatus s n)
  else if o = 0x14 then some (lanTemp s n)
  else if 0x1000 ≤ o ∧ o < 0x1400 then
    let x := s.port n ((o - 0x1000) / 0x40)
    if o % 0x40 = 0 then some (portState x + 2 ^ 8 * x.mismatch.toNat)
    else if o % 0x40 = 4 then some (portPeerWord x 21)
    else none
  else if 0x2000 ≤ o ∧ o < 0x2800 then
    let m := (o - 0x2000) / 0x40
    if o % 0x40 = 0 then some (bundleView s n m)
    else if o % 0x40 = 8 ∨ o % 0x40 = 0xC then some (wordOf (s.bundle n m).lastCal (o / 4 % 2))
    else none
  else if 0x8000 ≤ o ∧ o < 0xC000 then
    let k := (o - 0x8000) / 8
    some (wordOf ((mapEntry s.itin.force (k / 32) n (k % 32)).toNat % 2 ^ 46) (o / 4 % 2))
  else if 0x100000 ≤ o ∧ o < 0x128000 then some (tuningView s n (o - 0x100000))
  else none

/-! ### HBG -/

/-- `HBG_LINKk_STATE` (R463). -/
def copperView (s : State) (k : Nat) : Nat :=
  let place := match copperLink? s.itin.force k with
    | some (h, g, rate, _) => 2 ^ 8 * h + 2 ^ 9 * g + 2 ^ 13 * rate + 2 ^ 15
    | none => 0
  portState (s.copperPort k) + place

/-- A word of the HBG block that shows a unit's state. -/
def hbgView (s : State) (o : Nat) : Option Nat :=
  if o = 4 ∨ o = 0xC then some (Config.dieId (152 + o / 8)).toNat
  else if 0x1000 ≤ o ∧ o < 0x1340 then
    let k := (o - 0x1000) / 0x40
    if o % 0x40 = 0 then some (copperView s k)
    else if o % 0x40 = 4 then some (portPeerWord (s.copperPort k) 19)
    else none
  else if o = 0x10000 then some (rkStatus s)
  else if 0x10100 ≤ o ∧ o < 0x10200 then some (rkPartyView s ((o - 0x10100) / 16) (o / 4 % 4))
  else if o = 0x10200 ∨ o = 0x10240 then
    let h := (o - 0x10200) / 0x40
    some (putBits (s.reg (hbgA o)).toNat 9 1 (xfer s h).busy.toNat)
  else none

/-! ### TIL -/

/-- `TIL_MEn_STATE` (R137). A next pass is issued when a pass holds its place and has not begun, or two hold theirs. -/
def engineView (s : State) (i : Nat) : Nat :=
  let x := s.engine i
  let held := x.passes.filter (fun p => p.holds)
  let next := decide (2 ≤ held.length) || held.any (fun p => !p.begun)
  let tag := match x.latest with
    | some y => 2 ^ 14 + 2 ^ 16 * (y.tag % 2 ^ 16)
    | none => 0
  (!x.passes.isEmpty).toNat + 2 * x.orient.toNat + 4 * next.toNat + 8 * (decide (x.bus ≠ 0)).toNat +
    16 * Ramp.code x.ramp + 2 ^ 7 * x.limit + tag

/-- `TIL_MEe_BANKb_STATE` and `TIL_MEe_BANKb_EXT` (R173). -/
def bankView (s : State) (b k : Nat) : Nat :=
  let x := s.bank b
  match k, x.extent with
  | 0, some e => BankState.num x.state + 2 ^ 3 * x.trans.toNat + 2 ^ 4 * e.width + 2 ^ 14 * x.samples
  | 0, none => BankState.num x.state + 2 ^ 3 * x.trans.toNat + 2 ^ 13 + 2 ^ 14 * x.samples
  | _, some e => e.lo + 2 ^ 16 * e.hi
  | _, none => 0

/-- `TIL_MOVERm_STATE` (R255). -/
def moverView (s : State) (i : Nat) : Nat :=
  match s.mover i with
  | some j => 1 + 2 * (mvXchg j.line).toNat + 4 * (j.srcFar.isSome || j.dstFar.isSome).toNat + 65536 * j.queue
  | none => 0

/-- Granules of a tile that are marked PREFETCH. -/
def prefetched (s : State) (t : Nat) : Nat :=
  s.cache.foldl (fun n p => if p.1 / 65536 = t then n + (p.2.filter (fun w => w.prefetch.isSome)).length else n) 0

/-- `TIL_CP_STATE` (R307). -/
def cpState (s : State) (t : Nat) : Nat :=
  let x := s.tile t
  x.gateFail.toNat + 2 * x.fence.isSome.toNat + 4 * x.phase

/-- STAGE of a running collective (R385): that of its oldest chunk in a slot. A chunk past its last exchange is in the
operation's last stage. -/
def collStage (s : State) (t : Nat) (c : Coll) : Nat :=
  let es := exchangesOf (collOp c.line) (collShapeOf s t c)
  match c.phase with
  | .direct => 4
  | .data =>
    (match c.chunks.find? (fun x => x.entered) with
      | some x =>
        (match es[x.round]?.or es.getLast? with
          | some e => if e.axis ≠ 0 then 2 else if e.gather then 3 else 1
          | none => if collOp c.line = 2 then 3 else 1)
      | none => if collOp c.line = 2 then 2 else 1)
  | _ => 0

/-- `TIL_COLL_STATE` (R385). -/
def collView (s : State) (t : Nat) : Nat :=
  match (s.coll t).running with
  | some c => 1 + 2 * (collOp c.line % 16) + 2 ^ 5 * collStage s t c + 2 ^ 8 * slotsUsed c + 2 ^ 16 * (c.seq % 65536)
  | none => 0

/-- A mailbox request of a tile is pending (R306). -/
def mailboxBusy (s : State) (t : Nat) : Bool := (s.tile t).guide.any (fun r => r.queue.isNone)

/-- A word of a tile's block that shows a unit's state. -/
def tilView (s : State) (t o : Nat) : Option Nat :=
  if o = 4 then some (Config.dieId (siteOf s t)).toNat
  else if o = 8 then some (Config.dieId (72 + siteOf s t)).toNat
  else if 0x110 ≤ o ∧ o < 0x12C then some (linkWord s t ((o - 0x110) / 4))
  else if 0x200 ≤ o ∧ o < 0x2E0 then some (linkLogWord s t ((o - 0x200) / 32) (o % 32 / 4))
  else if 0x2000 ≤ o ∧ o < 0x2400 ∧ o % 0x100 = 4 then some (engineView s (4 * t + (o - 0x2000) / 0x100))
  else if 0x2800 ≤ o ∧ o < 0x2880 then some (bankView s (8 * t + (o - 0x2800) / 16) (o % 16 / 4))
  else if 0x4010 ≤ o ∧ o < 0x4020 then some (moverView s (4 * t + (o - 0x4010) / 4))
  else if o = 0x5000 then some (cpState s t)
  else if o = 0x5004 then some (s.tile t).fenceSeq.toNat
  else if o = 0x5008 then some (prefetched s t)
  else if o = 0x5130 then some ((s.reg (tilA t o)).toNat + 2 * (mailboxBusy s t).toNat)
  else if o = 0x5150 then some Config.guideFw.toNat
  else if o = 0x6010 then some (s.fabric.conns.filter (fun c => c.src = .tile (Fin.ofNat 64 t))).length
  else if o = 0x7000 then some (collView s t)
  else if 0x8000 ≤ o ∧ o < 0x8080 then
    let w := (o - 0x8000) / 32
    if o % 32 = 0 then some (mirView s t w) else if o % 32 = 0x14 then some (mirFront s t w) else none
  else if o = 0x18420 then some (healthSum s t)
  else none

/-! ### A word of the window -/

/-- A word that shows a unit's state; none for one that is stored. -/
def unitView (s : State) (a : Nat) : Option Nat :=
  if a < 0x01000000 then devView s a
  else if a < 0x02000000 then
    let o := a - 0x01000000
    let d := (o - 0x100) / 4
    if 0x340 ≤ o ∧ o < 0x360 then (if domainGood s d then some (lanTemp s (d - 144)) else none) else pwrView s o
  else if a < 0x03000000 then secView s (a - 0x02000000)
  else if a < 0x08000000 then lanView s ((a - 0x04000000) / 0x00800000) ((a - 0x04000000) % 0x00800000)
  else if a < 0x10000000 then hbgView s (a - 0x08000000)
  else tilView s ((a - 0x10000000) / 0x00400000) ((a - 0x10000000) % 0x00400000)

/-- The register at `a` as it reads (R11, R12, R647): a staged word with STAGED set while one is pending, and a counter
from its shadow copy. -/
def regView (s : State) (a : Nat) : Word :=
  match unitView s a with
  | some v => BitVec.ofNat 32 v
  | none =>
    match s.stagedAt a with
    | some w => w ||| 0x80000000
    | none => s.shown a

/-! ### A party's page (R262, R275) -/

/-- `PTY_Qg_STATE`. -/
def queueState (q : Queue) : Nat :=
  let code := if !q.enable then 0 else if q.skip.isSome then 3 else if q.cmd = q.tail then 1 else 2
  let task := match q.open? with
    | some t => 8 + 2 ^ 16 * (t.id % 65536)
    | none => 0
  code + 16 * q.stall.toNat + task

/-- Word at offset `o` of a queue's block. -/
def queueView (s : State) (g o : Nat) : Nat :=
  let q := s.queue g
  match o with
  | 0x04 => q.tail.toNat
  | 0x08 => (queueHead q).toNat
  | 0x0C => q.cmd.toNat
  | 0x10 => q.base + 2 ^ 24 * q.sizeLog2
  | 0x14 => q.enable.toNat + 2 * q.faDepth + 2 ^ 6 * q.priority + 2 ^ 16 * q.stallMs
  | 0x18 => queueState q
  | 0x20 => wordOf q.lastAbort.toNat 0
  | 0x24 => wordOf q.lastAbort.toNat 1
  | 0x28 => wordOf q.lastAbort.toNat 2
  | 0x2C => wordOf q.lastAbort.toNat 3
  | 0x30 => wordOf q.stallInfo.toNat 0
  | 0x34 => wordOf q.stallInfo.toNat 1
  | _ => 0

/-- Word at offset `o` of a doorbell page. -/
def pageView (s : State) (o : Nat) : Nat :=
  if o < 0x200000 then queueView s (o / 0x80) (o % 0x80)
  else if o % 16 = 0 then s.tally ((o - 0x200000) / 16)
  else 0

end Sys2Proof.Machine
end

