-- ==== Sys2Proof/Machine/Weather.lean ====
section
/-! DEFINITION. Weather warnings, and the self-checkpoints that they arm (spec/15_resilience.md R540, R541, R553). -/

namespace Sys2Proof.Machine

open Sys2Proof

/-- The categories that an instance counts, each with the registers of its counters (R540). -/
def wxCounters : WxInstance → List (Nat × List Nat)
  | .tile t =>
    let a := tilA t.val
    [(0, [a 0x3040]), (1, [a 0x3048]), (2, [a 0x3050]), (3, [a 0x3044, a 0x304C]),
     (4, (List.range 7).map (fun k => a (0x130 + 4 * k)))]
  | .bundle n m =>
    let a := fun o => lanA n.val (0x2000 + 0x40 * m.val + o)
    [(5, [a 0x18, a 0x1C]), (7, [a 0x20])]
  | .copper k =>
    let a := fun o => hbgA (0x1000 + 0x40 * k.val + o)
    [(6, [a 0x10, a 0x14]), (7, [a 0x18])]
  | .port n p => [(8, [lanA n.val (0x1000 + 0x40 * p.val + 0x18)])]
  | .half _ => [(9, [])]

/-- The values that a category's counters have now. -/
def wxValues (s : State) (i : WxInstance) (rs : List Nat) : List Nat :=
  match i with
  | .half h => [mget 0 s.rk.faults h.val]
  | _ => rs.map (fun a => (s.reg a).toNat)

/-- SOURCE of an instance's warning; a tile's is its memory unit (DESIGN CHOICE, assumption log entry 56). -/
def wxSource (s : State) : WxInstance → Nat
  | .tile t => srcTile t.val 7
  | .bundle n m => srcLantern n.val (0x20 + m.val)
  | .copper k => srcBridge (copperBridge s k.val) (0x10 + k.val)
  | .port n p => srcLantern n.val p.val
  | .half h => srcBridge h.val 1

/-- THRESH and ARM of a category (R573). -/
def wxThresh (s : State) (c : Nat) : Nat := s.field (0x10040 + 4 * c) 0 16
def wxArm (s : State) (c : Nat) : Bool := s.field (0x10040 + 4 * c) 16 1 = 1

/-- A counter has saturated during the window (R541). -/
def saturated (old new : Nat) : Bool := new = 2 ^ 32 - 1 && old ≠ new

/-- What a window found of a category: the category, the increase, and whether it reached its threshold. -/
structure WxResult where
  cat     : Nat
  rise    : Nat
  reached : Bool

/-- Evaluate a category over a window: the counters' values at its start and at its end. -/
def wxResult (s : State) (c : Nat) (old new : List Nat) : WxResult :=
  let rise := (old.zip new).foldl (fun n x => n + (x.2 - x.1)) 0
  let th := wxThresh s c
  { cat := c, rise, reached := decide (th ≠ 0) && (decide (th ≤ rise) || (old.zip new).any (fun x => saturated x.1 x.2)) }

/-- Evaluate the categories of an instance, in ascending order, over the values of the last window's end. -/
def wxResults (s : State) (i : WxInstance) : List (Nat × List Nat) → List Nat → List WxResult
  | [], _ => []
  | (c, rs) :: cs, old =>
    let new := wxValues s i rs
    wxResult s c (old.take new.length ++ List.replicate (new.length - old.length) 0) new ::
      wxResults s i cs (old.drop new.length)

/-- Categories as a mask. -/
def catMask (cs : List Nat) : Nat := cs.foldl (fun m c => m ||| 2 ^ c) 0

/-- Standing categories over all instances, and the instances with a warning (R573). -/
def showWeather (s : State) : State :=
  let on := s.weather.filter (fun p => p.2.standing ≠ 0)
  s.setReg 0x10008 (BitVec.ofNat 32 (on.foldl (fun m p => m ||| p.2.standing) 0 + 65536 * on.length))

/-- Arm the self-checkpoint of each party that qualifies (R553). -/
def armSelf (s : State) (causes : Nat) : State :=
  if causes = 0 || s.field 0x10000 14 1 = 0 then s
  else
    let on := (s.weather.filter (fun p => p.2.standing ≠ 0)).map (·.1)
    s.each (List.range 16) (fun p s =>
      let x := selfCheck s p
      if s.field 0x10000 (16 + p) 1 = 1 && (newestSealed s p).isSome && x.armed.isNone && x.running.isNone &&
          x.blocked.isEmpty then
        setSelfCheck s p { x with armed := some s.now, fenced := false, torn := false, causes, blocked := on }
      else s)

/-- A warning has cleared: parties armed while it stood wait for it no longer. -/
def clearBlock (s : State) (id : Nat) : State :=
  s.each (List.range 16) (fun p s =>
    let x := selfCheck s p
    if x.blocked = [] then s else setSelfCheck s p { x with blocked := x.blocked.filter (· ≠ id) })

/-- WEATHER_WINDOW (R540, R541, R553): the window of an instance ends. -/
def execWeatherWindow (place : WxInstance) (s : State) : Host.Outcome State Fault Refusal :=
  if !s.power.pwrgd then .next s
  else
    let was := mget {} s.weather place.id
    let cs := wxCounters place
    let rs := wxResults s place cs was.counts
    let hit := rs.filter (·.reached)
    let standing := catMask (hit.map (·.cat))
    let x : Weather := { counts := cs.flatMap (fun c => wxValues s place c.2), standing, rise := rs.map (·.rise) }
    let s := showWeather { s with weather := mset {} s.weather place.id x }
    let cond : Option LevelCond := hit.head?.map (fun h => ({
      party := 0xFF,
      payload := standing + 2 ^ 16 * min h.rise (2 ^ 32 - 1) + 2 ^ 48 * wxThresh s h.cat } : LevelCond))
    let s := setLevel s 0x70 (wxSource s place) cond
    if standing = 0 then .next (clearBlock s place.id)
    else .next (armSelf s (catMask ((hit.map (·.cat)).filter (fun c => was.standing / 2 ^ c % 2 = 0 && wxArm s c))))

end Sys2Proof.Machine
end

