-- ==== Sys2Proof/Machine/Registers.lean ====
section
/-! DEFINITION. Accesses to registers: what an address holds, 64-bit quantities and their latches, reads, and what a
write does (spec/00 R7 to R13, spec/11 R442, spec/13 R496, spec/18 R637, R645 to R647). -/

namespace Sys2Proof.Machine

open Sys2Proof

/-! ### What an address holds -/

/-- The kinds of words that an access can name: a word of the management window, of a party's doorbell page, of a
party's ring block in BAR4, of a function's MSI-X structures, or none. -/
inductive Spot where
  | reg (a : Nat)
  | page (party o : Nat)
  | board (party o : Nat)
  | msix (f : Fn) (o : Nat)
  | gone
deriving DecidableEq, Repr

/-- MSI-X structures of BAR4: the table of one entry and the pending bits (R514). -/
def msixWord (o : Nat) : Bool := o < 0x10 || o = 0x800 || o = 0x804

/-- The word that an access names (R7, R442, R514). -/
def spotOf (acc : Access) : Spot :=
  match acc.path, acc.bar4 with
  | .vf port q, true =>
    if msixWord acc.off then .msix { port, vf := ⟨q.val + 1, Nat.succ_lt_succ q.isLt⟩ } acc.off
    else if 0x1000 ≤ acc.off ∧ acc.off < 0x1060 then .board q.val (acc.off - 0x1000)
    else .gone
  | .pf port, true => if msixWord acc.off then .msix { port, vf := 0 } acc.off else .gone
  | .msg _, true => .gone
  | .vf _ q, false => if acc.off < 0x400000 then .page q.val acc.off else .gone
  | _, false =>
    if 0x20000000 ≤ acc.off ∧ acc.off < 0x24000000 then
      .page ((acc.off - 0x20000000) / 0x400000) ((acc.off - 0x20000000) % 0x400000)
    else .reg acc.off

/-- Words of a ring's block (R533). -/
def ringWord (o : Nat) : Bool := o % 4 = 0 && (o < 0x28 || (0x40 ≤ o && o < 0x60))

/-- A window word outside the tables of registers is described by its own rule: the fold report, the rings and their
views, the recent window, the store and the phase logs. The result is whether a write can act on it. -/
def plainWord (a : Nat) : Option Bool :=
  if 0x9000 ≤ a ∧ a < 0xD000 then some false
  else if 0xD100 ≤ a ∧ a < 0xD160 then
    (if ringWord (a - 0xD100) then
      some (!([0x10, 0x14, 0x20, 0x24].contains (a - 0xD100)))
    else none)
  else if 0xD200 ≤ a ∧ a < 0xD400 then (if a % 32 < 0x14 then some false else none)
  else if 0xE000 ≤ a ∧ a < 0xE800 then some false
  else if 0x800000 ≤ a ∧ a < 0xE00000 then some true
  else if 0x10000000 ≤ a ∧ a < 0x20000000 then
    (let o := (a - 0x10000000) % 0x400000
      if 0x20000 ≤ o ∧ o < 0x30000 then some false else none)
  else none

/-- The words outside the tables that belong to a 64-bit quantity, and which half each is: NB_BASE of the device ring
and the stamp of a phase-log entry (R9, R381, R533). -/
def plainHalf (a : Nat) : Option Nat :=
  if a = 0xD100 then some 0
  else if a = 0xD104 then some 1
  else if 0x10000000 ≤ a ∧ a % 16 = 0 then some 0
  else if 0x10000000 ≤ a ∧ a % 16 = 4 then some 1
  else none

/-- The row of a window word, its word of the quantity, and whether a write can act on it. -/
def windowWord (a : Nat) : Option (Option Nat × Bool) :=
  if a % 4 ≠ 0 then none
  else
    match plainWord a with
    | some w => some (plainHalf a, w)
    | none =>
      match regRow a with
      | some (r, k) => some (if r.wide then some k else none, r.acts k)
      | none => none

/-- Words of a doorbell page: a queue's block and a tally's words (R262, R275); whether a write can act on one. -/
def pageWord (o : Nat) : Option Bool :=
  if o % 4 ≠ 0 ∨ 0x400000 ≤ o then none
  else if o < 0x200000 then
    (let k := o % 0x80
      if k < 0x38 then some ([0x00, 0x10, 0x14, 0x1C].contains k) else none)
  else if o % 16 < 8 then some true
  else none

/-- The tile that a word of a doorbell page names. -/
def pageTile (o : Nat) : Nat := if o < 0x200000 then o / 0x80 / 256 else (o - 0x200000) / 16 / 2048

/-- The word is not reserved, as the panel stands (R8, R262, R442, R626). -/
def present (s : State) : Spot → Bool
  | .reg a => (windowWord a).isSome && !untrained s a
  | .page p o => partyExists s p && (pageWord o).isSome && tileParty s (pageTile o) = p
  | .board p o => partyExists s p && ringWord o
  | .msix f _ => f.vf = 0 || partyExists s (f.vf.val - 1)
  | .gone => false

/-- Which word of a 64-bit quantity it is: 0 the low, 1 the high (R9). -/
def wordHalf : Spot → Option Nat
  | .reg a => (windowWord a).bind (·.1)
  | .board _ o => if o = 0 then some 0 else if o = 4 then some 1 else none
  | _ => none

/-- A write can act on the word (R496). -/
def actsOn : Spot → Bool
  | .reg a => (windowWord a).any (·.2)
  | .page _ o => (pageWord o).any id
  | .board _ o => !([0x10, 0x14, 0x20, 0x24].contains o)
  | .msix _ o => o < 0x10
  | .gone => false

/-! ### Reads (R8 to R12, R523) -/

/-- A word of a function's MSI-X structures. -/
def msixView (s : State) (f : Fn) (o : Nat) : Nat :=
  let x := s.fn f
  if o = 0 then wordOf x.msgAddr.toNat 0
  else if o = 4 then wordOf x.msgAddr.toNat 1
  else if o = 8 then x.msgData.toNat
  else if o = 0xC then x.vecMask.toNat
  else if o = 0x800 then x.vecPending.toNat
  else 0

/-- The word as it stands. -/
def spotView (s : State) : Spot → Word
  | .reg a => regView s a
  | .page _ o => BitVec.ofNat 32 (pageView s o)
  | .board p o => ringView (s.ring (p + 1)) o
  | .msix f o => BitVec.ofNat 32 (msixView s f o)
  | .gone => 0

/-- A consumer that reads PRODUCER and finds its own position sets BYPASS (R523). -/
def readTouch (s : State) : Spot → State
  | .reg a => if a = 0xD114 && (s.ring 0).producer = (s.ring 0).consumer then setBypass s 0 else s
  | .board p o =>
    if o = 0x14 && (s.ring (p + 1)).producer = (s.ring (p + 1)).consumer then setBypass s (p + 1) else s
  | _ => s

/-- A 4-byte read: its value, and the state after (R8, R10, R646). Unused words of the fold report post no event
(R510). -/
def readWord (s : State) (acc : Access) : Word × State :=
  let sp := spotOf acc
  if !present s sp then (0, accessError s acc 1)
  else
    let v := spotView s sp
    match wordHalf sp with
    | some 0 =>
      let high := spotView s (spotOf { acc with off := acc.off + 4 })
      (v, { s with rlatch := mset none s.rlatch (latchKey acc.path acc.off) (some high) })
    | some _ => ((mget none s.rlatch (latchKey acc.path (acc.off - 4))).getD v, s)
    | none => (v, readTouch s sp)

/-- An access of a size that the panel accepts at the word (R9). -/
def sizeOk (sp : Spot) (off size : Nat) : Bool :=
  off % 4 = 0 && (size = 4 || (size = 8 && off % 8 = 0 && wordHalf sp = some 0))

/-- A read of a register (R9, R10, R595, R626). -/
def busRead (s : State) (acc : Access) (size : Nat) : State :=
  let sp := spotOf acc
  if pathSilent s acc.path then s
  else if pathClosed s acc.path || !sizeOk sp acc.off size then answer s .unsupported
  else if !present s sp then answer (accessError s acc 1) .ok (List.replicate (size / 4) 0)
  else if size = 8 then answer s .ok [spotView s sp, spotView s (spotOf { acc with off := acc.off + 4 })]
  else
    let (v, s) := readWord s acc
    answer s .ok [v]

/-- LOW_WORD_READ (R10, R646): a read of a register, which latches the high half where the word is the low one of a
64-bit quantity. -/
def execLowWordRead (acc : Access) (size : Nat) (s : State) : Host.Outcome State Fault Refusal :=
  .next (busRead s acc size)

/-! ### What a write does -/

/-- Write the RW, W1C and RWC fields of a stored register (R11, R12). -/
def fieldWrite (s : State) (a : Nat) (v : Word) : State :=
  match regRow a with
  | none => s
  | some (r, _) =>
    let old := (s.reg a).toNat
    let s := s.setReg a (BitVec.ofNat 32 (clearFields v.toNat r.fields (writeFields .rw v.toNat r.fields old)))
    if hasType .rwc r.fields then
      let staged := writeFields .rwc v.toNat r.fields ((s.stagedAt a).getD (s.reg a)).toNat
      { s with staged := mset none s.staged a (some (BitVec.ofNat 32 staged)) }
    else s

/-- The error address of a tile (R227): CLEAR is bit 63 of the quantity. -/
def isErrAddr (a : Nat) : Bool := 0x10000000 ≤ a && (a - 0x10000000) % 0x00400000 = 0x3058

/-- A 64-bit quantity takes a value (R10): the timetable counter, the base of the device ring, an error address, or an
address or length of a transfer block. -/
def quadWrite (s : State) (acc : Access) (a v : Nat) : State :=
  if a = 0x7020 then loadTime s v
  else if a = 0xD100 then baseWrite s acc 0 v
  else if isErrAddr a then (if bits v 63 1 = 1 then clearErrAddr s ((a - 0x10000000) / 0x00400000) else s)
  else s.setReg64 a v

/-- The low word that stands in a 64-bit quantity as its high word is written (R646). -/
def currentLow (s : State) (a : Nat) : Word × State := if a = 0x7020 then timeLow s else (regView s a, s)

/-- A write of `DEV_ITIN_CTRL` (R474, R491, R508). -/
def itinCtrlWrite (s : State) (p : Path) (v : Word) : State :=
  let slot := bits v.toNat 0 6
  let s := { s with itin := { s.itin with slotSel := slot } }
  let s := if v.getLsbD 8 then startVerify s p slot else s
  if v.getLsbD 9 then startSave s else s

/-- A write to the store, the itinerary control or the fold, which a fold in progress discards (R490). -/
def whileIdle (s : State) (acc : Access) (effect : State → State) : State :=
  if s.itin.plan.isSome then accessError s acc 3 else effect s

/-- A write to a word of the DEV block. -/
def devWrite (s : State) (acc : Access) (v : Word) : State :=
  let o := acc.off
  if o = 0x1060 then guestCtrl s v
  else if o = 0x8020 then (if v.getLsbD 0 then whileIdle s acc (fun s => beginFold s s.itin.sel false) else s)
  else if o = 0x8024 then { s with itin := { s.itin with sel := v } }
  else if o = 0x8080 then whileIdle s acc (fun s => itinCtrlWrite s acc.path v)
  else if o = 0x8300 then (if v.getLsbD 4 then requestReset s acc.path (bits v.toNat 0 4) else s)
  else if o = 0xD000 then holdWrite s (v.getLsbD 0)
  else if o = 0x10110 then safeCtrl s v
  else if o = 0x10200 then retireWrite s acc v
  else if 0x800000 ≤ o then whileIdle s acc (fun s => storeWrite s o v)
  else fieldWrite s o v

/-- A write to a word of the PWR block (R633). -/
def pwrWrite (s : State) (a : Nat) (v : Word) : State :=
  if a = 0x01000004 then (if v.getLsbD 0 && (s.stagedAt (pwrA 0)).isSome then foldPower s else s)
  else if a = 0x0100000C then (if v.getLsbD 0 then shutdownWrite s else s)
  else fieldWrite s a v

/-- A write to a word of a lantern's block (R430, R431). -/
def lanWrite (s : State) (n o : Nat) (v : Word) : State :=
  if o = 0x24 then (if v.getLsbD 0 then foldLan s n else s)
  else if o = 0x28 then retrimPlanes s n (fun k => v.getLsbD k)
  else if o = 0x2C then retrainPorts s n (fun k => v.getLsbD k)
  else fieldWrite s (lanA n o) v

/-- A write to a word of the HBG block (R461, R464, R575, R576). -/
def hbgWrite (s : State) (p : Path) (o : Nat) (v : Word) : State :=
  if o = 0x120 then retrainCopper s (fun k => v.getLsbD k)
  else if o = 0x10200 then xferWrite s p 0 v
  else if o = 0x10240 then xferWrite s p 1 v
  else fieldWrite s (hbgA o) v

/-- A write of `TIL_GUIDE_CTRL` (R306): DONE is cleared by a 1; GO submits the request of the REQ words. -/
def mailboxWrite (s : State) (acc : Access) (t : Nat) (v : Word) : State :=
  let s := fieldWrite s (tilA t 0x5130) v
  if !v.getLsbD 0 then s
  else if mailboxBusy s t then accessError s acc 3
  else
    let w := fun k => s.reg (tilA t (0x5100 + 4 * k))
    let req : GuideReq :=
      { queue := none, core := bits (w 0).toNat 8 1, service := bits (w 0).toNat 0 8,
        args := (List.range 11).map (fun k => w (k + 1)), since := s.now }
    s.modTile t (fun x => { x with guide := x.guide ++ [req] })

/-- A write to a word of a mirror window (R577). -/
def mirrorReg (s : State) (acc : Access) (t w o : Nat) (v : Word) : State :=
  if o = 0 then mirCtrl s acc.path t w v
  else if mirEnabled s t w then accessError s acc 2
  else fieldWrite s acc.off v

/-- A write to a word of a tile's block. -/
def tilWrite (s : State) (acc : Access) (t o : Nat) (v : Word) : State :=
  let go := v.getLsbD 0
  let clear := v.getLsbD 31
  if o = 0x2400 then (if go then foldMe s t else s)
  else if o = 0x2C04 then (if go then s.foldReg (tilA t 0x2C00) else s)
  else if o = 0x3004 then (if go then foldMemory s t else s)
  else if o = 0x600C then (if go then foldFab s t else s)
  else if o = 0x9008 then (if go then pwrTileFold s t else s)
  else if o = 0x3010 then (if clear then s.setReg (tilA t 0x3010) 0 else s)
  else if o = 0x5130 then mailboxWrite s acc t v
  else if 0x8000 ≤ o ∧ o < 0x8080 then mirrorReg s acc t ((o - 0x8000) / 32) (o % 32) v
  else if 0x10000 ≤ o ∧ o < 0x18000 ∧ o % 0x80 = 4 then
    (if clear then clearWatch s t ((o - 0x10000) / 0x80) else s)
  else fieldWrite s (tilA t o) v

/-- What a write to a word of the window does, whoever was allowed to make it; the high word of a 64-bit quantity
brings the low word that the path wrote before (R10, R646). -/
def regWrite (s : State) (acc : Access) (v : Word) : State :=
  let a := acc.off
  if 0xD100 ≤ a ∧ a < 0xD160 then ringEffect s acc 0 (a - 0xD100) v
  else
  match wordHalf (.reg a) with
  | some 0 => putLow s acc.path a v
  | some _ =>
    let (lo, s) := takeLow s acc.path (a - 4) (fun s => currentLow s (a - 4))
    quadWrite s acc (a - 4) (lo.toNat + 2 ^ 32 * v.toNat)
  | none =>
    if a < 0x01000000 then devWrite s acc v
    else if a < 0x02000000 then pwrWrite s a v
    else if a < 0x04000000 then s
    else if a < 0x08000000 then lanWrite s ((a - 0x04000000) / 0x00800000) ((a - 0x04000000) % 0x00800000) v
    else if a < 0x10000000 then hbgWrite s acc.path (a - 0x08000000) v
    else tilWrite s acc ((a - 0x10000000) / 0x00400000) ((a - 0x10000000) % 0x00400000) v

/-- What a write to a word of a doorbell page does (R260 to R264, R275, R282, R446). -/
def pageSet (s : State) (acc : Access) (o : Nat) (v : Word) : State :=
  let g := o / 0x80
  if 0x200000 ≤ o then pageWrite s acc.path o v
  else if o % 0x80 = 0 then pageWrite s acc.path o v
  else if o % 0x80 = 0x10 then ringWrite s acc.path g v
  else if o % 0x80 = 0x14 then ctrlWrite s acc.path g v
  else if v.getLsbD 0 then requestAbort s g
  else s

/-- What a write to a function's MSI-X table does (R515): a message that waits goes when the mask clears. -/
def msixWrite (s : State) (f : Fn) (o : Nat) (v : Word) : State :=
  let x := s.fn f
  let x := if o = 0 then { x with msgAddr := BitVec.ofNat 64 (putBits x.msgAddr.toNat 0 32 v.toNat) }
    else if o = 4 then { x with msgAddr := BitVec.ofNat 64 (putBits x.msgAddr.toNat 32 32 v.toNat) }
    else if o = 8 then { x with msgData := v }
    else { x with vecMask := v.getLsbD 0 }
  flushPending (s.setFn f x) f

/-- A write of `DEV_LEADER_CMD` (R496, R497, R507): it is no owner write; code 7 is reserved. -/
def leaderWrite (s : State) (acc : Access) (v : Word) : State :=
  let p := acc.path
  match bits v.toNat 0 3 with
  | 0 => answer s .ok
  | 1 => leaderCommand s p (claimBy s p)
  | 2 => leaderCommand s p (keepBy s p)
  | 3 => leaderCommand s p (releaseBy s)
  | 4 => leaderCommand s p (handoverBy s (Fin.ofNat 4 (bits v.toNat 4 2)))
  | 5 => leaderCommand s p (acceptBy s p)
  | 6 => leaderCommand s p (deposeBy s)
  | _ => refused s acc 4

/-- A 4-byte write (R8, R11, R13, R442, R496). -/
def busWrite (s : State) (acc : Access) (v : Word) : State :=
  let sp := spotOf acc
  if pathSilent s acc.path then s
  else if pathClosed s acc.path then answer s .unsupported
  else if !present s sp then refused s acc 1
  else if !actsOn sp then answer s .ok
  else
    match sp with
    | .reg a =>
      if a = 0x8004 then leaderWrite s acc v
      else ownerWrite s acc.path a v (fun s => regWrite s acc v)
    | .page p o => partyWrite s acc.path p o v (fun s => pageSet s acc o v)
    | .board p o => boardWrite s acc.path (p + 1) o v (fun acc s => ringEffect s acc (p + 1) o v)
    | .msix f o => answer (msixWrite s f o v) .ok
    | .gone => s

/-- An 8-byte write, which the panel accepts at a 64-bit quantity only and performs at once (R9, R10). -/
def busWrite8 (s : State) (acc : Access) (v : Dword) : State :=
  if pathSilent s acc.path then s
  else if pathClosed s acc.path then answer s .unsupported
  else if !present s (spotOf acc) then refused s acc 1
  else if !actsOn (spotOf acc) && !actsOn (spotOf { acc with off := acc.off + 4 }) then answer s .ok
  else
    match spotOf acc with
    | .reg a => ownerWrite s acc.path a (BitVec.ofNat 32 v.toNat) (fun s => quadWrite (dropLow s acc.path a) acc a v.toNat)
    | .board p o => boardWrite s acc.path (p + 1) o (BitVec.ofNat 32 v.toNat) (fun acc s =>
        baseWrite (dropLow s acc.path acc.off) acc (p + 1) v.toNat)
    | _ => s

/-- REGISTER_WRITE (R9 to R13): a write of 4 or 8 bytes. -/
def execRegisterWrite (acc : Access) (size : Nat) (data : Dword) (s : State) : Host.Outcome State Fault Refusal :=
  if pathSilent s acc.path then .next s
  else if !sizeOk (spotOf acc) acc.off size then .next (answer s .unsupported)
  else if size = 8 then .next (busWrite8 s acc data)
  else .next (busWrite s acc (BitVec.ofNat 32 data.toNat))

end Sys2Proof.Machine
end

