-- ==== Sys2Proof/Machine/Guides.lean ====
section
/-! DEFINITION. REG_COPY, the guide cores: calls, services, answers and the mailbox
(spec/07_command_streams.md R299, R303 to R306, spec/17 R630, spec/18 R644). -/

namespace Sys2Proof.Machine

open Sys2Proof

/-! ### REG_COPY (R299) -/

/-- Fields of REG_COPY. -/
def rcSrc (l : Line) : Nat := lineField l 0x10 0 22
def rcLines (l : Line) : Nat := lineField l 0x14 0 13
def rcClear (l : Line) : Bool := lineField l 0x14 13 1 = 1
def rcDst (l : Line) : Nat := lineField l 0x18 0 24

/-- A word of the window as the copy takes it: reserved words read 0. -/
def copyWord (s : State) (a : Nat) : Nat := if present s (.reg a) then (regView s a).toNat else 0

/-- A watch block lies wholly inside the range (R174, R299). -/
def watchInside (off lines w : Nat) : Bool :=
  off ≤ 0x10000 + 0x80 * w && 0x10000 + 0x80 * w + 0x80 ≤ off + 64 * lines

/-- The error of the fields. -/
def copyError (l : Line) : Option Err :=
  if rcSrc l % 64 ≠ 0 then some .align
  else if rcLines l = 0 then some .shape
  else if 0x400000 < rcSrc l + 64 * rcLines l then some .address
  else none

/-- Byte `n` of the copied range. -/
def copyByte (s : State) (t off n : Nat) : Nat :=
  copyWord s (tilA t (off + n / 4 * 4)) / 2 ^ (8 * (n % 4)) % 256

/-- Issue of REG_COPY: the words are taken, the watches cleared, the lines written. -/
def issueRegCopy (c : Cmd) (s : State) : Issued :=
  let l := c.line
  let off := rcSrc l
  match copyError l with
  | some e => .fail { err := e } s
  | none =>
    if inScratch s c.t (64 * rcDst l) && !lineReady s c.t (64 * rcDst l) then .wait
    else
      match useDesc s c.t c.copies 0 (rcDst l)
          { write := true, kinds := [kindByte], tile := some c.t, count := some (64 * rcLines l) } with
      | (.error e, s) => .fail e s
      | (.ok d, s) =>
        if !descReady s c.t d then .wait
        else
          let ls := fillLines d 0 (descLines d) (copyByte s c.t off)
          let s := if rcClear l then
              s.each ((List.range 256).filter (watchInside off (rcLines l))) (fun w s => clearWatch s c.t w)
            else s
          .ready (writeLines s c.t ls (.command c.g c.idx))

/-- REG_COPY (R299). -/
def execRegCopy (g : Fin 16384) (s : State) : Host.Outcome State Fault Refusal :=
  .next (issue s g.val (· = 0x05) issueRegCopy)

/-! ### Calls (R304, R306) -/

/-- The request that a GUIDE_CALL makes. -/
def callOf (s : State) (c : Cmd) : GuideReq :=
  { queue := some (c.g, c.idx), core := lineField c.line 0x10 8 1, service := lineField c.line 0x10 0 8,
    args := (List.range 11).map (fun k => BitVec.ofNat 32 (lineWord c.line (0x14 + 4 * k))), since := s.now }

/-- GUIDE_CALL (R304): the request joins those of its guide core. -/
def execGuideCall (g : Fin 16384) (s : State) : Host.Outcome State Fault Refusal :=
  .next (issue s g.val (· = 0x06) (fun c s =>
    .run (s.modTile c.t (fun x => { x with guide := x.guide ++ [callOf s c] }))))

/-- GUIDE_MAILBOX_GO (R306). -/
def execGuideMailboxGo (p : Path) (t : Fin 64) (s : State) : Host.Outcome State Fault Refusal :=
  .next (ownerWrite s p (tilA t.val 0x5130) 1 (fun s =>
    mailboxWrite s { path := p, off := tilA t.val 0x5130 } t.val 1))

/-! ### Services (R305, R630, R644) -/

/-- The image of the repair log: its word at byte offset `o` (R644). -/
def repairWord (s : State) (t o : Nat) : Nat :=
  if o = 0 then 0x4C504B52
  else if o = 4 then t + 2 ^ 8 * siteOf s t
  else if o = 8 then wordOf (s.tile t).trainedAt 0
  else if o = 0xC then wordOf (s.tile t).trainedAt 1
  else if 0x100 ≤ o ∧ o < 0x1E0 then linkLogWord s t ((o - 0x100) / 32) (o % 32 / 4)
  else if 0x800 ≤ o then copyWord s (tilA t (0x3400 + (o - 0x800)))
  else 0

/-- Sensor `b` of the compute die (`b` below 2) or the hamper die of a tile. -/
def tileSensor (s : State) (t b : Nat) : Sensor := s.sensor (2 * (siteOf s t + 72 * (b / 2)) + b % 2)

/-- The sensor record: its word at byte offset `o` (R630). `supply` is the two supplies in mV, which no rule fixes. -/
def sensorWord (s : State) (t supply o : Nat) : Nat :=
  let r := fun k => (s.reg (tilA t k)).toNat
  let pair := fun b => readingWord (tileSensor s t b) + 2 ^ 16 * readingWord (tileSensor s t (b + 1))
  match o with
  | 0 => wordOf s.time 0
  | 4 => wordOf s.time 1
  | 8 => pair 0
  | 12 => pair 2
  | 16 => supply % 2 ^ 32
  | 20 => r 0x9010
  | 24 => r 0x9020
  | 28 => r 0x9024
  | 32 => bits (r 0x9000) 0 8 + 2 ^ 8 * bits (r 0x900C) 0 7 + 2 ^ 16 * maskOf 4 (fun b => (tileSensor s t b).lost)
  | 36 => r 0x9018
  | _ => 0

/-- A word image as bytes. -/
def imageByte (word : Nat → Nat) (n : Nat) : Nat := word (n / 4 * 4) / 2 ^ (8 * (n % 4)) % 256

/-- What serving a request comes to. -/
inductive Served where
  /-- its data cannot be accessed yet: it waits -/
  | wait
  /-- it is answered -/
  | answer (status : Nat) (results : List Word) (s : State)

/-- Whom a request's writes belong to. -/
def reqOwner (r : GuideReq) : MirrorOwner :=
  match r.queue with
  | some (g, i) => .command g i
  | none => .nobody

/-- A service that writes `n` bytes through slot ARG0 (R305). A descriptor that fails its checks is a bad argument, one
whose line cannot be read a fault (DEDUCED, assumption log entry 66). -/
def serveData (s : State) (t : Nat) (r : GuideReq) (n : Nat) (word : Nat → Nat) (results : List Word) : Served :=
  let slot := bits (r.args.headD 0).toNat 0 24
  if inScratch s t (64 * slot) && !lineReady s t (64 * slot) then .wait
  else
    match useDesc s t [] 0 slot { write := true, kinds := [kindByte], tile := some t, count := some n } with
    | (.error e, s) => .answer (if e.err = .memory then 3 else 2) results s
    | (.ok d, s) =>
      if !descReady s t d then .wait
      else .answer 0 results (writeLines s t (fillLines d 0 (descLines d) (imageByte word)) (reqOwner r))

/-- Serve a request (R305); `results` are the words the core answers where no rule gives them. -/
def serve (s : State) (t : Nat) (r : GuideReq) (results : List Word) : Served :=
  match r.service with
  | 1 => .answer 0 (r.args.take 3) s
  | 2 => serveData s t r 4096 (repairWord s t) results
  | 3 => .answer 0 [Config.guideFw &&& 0xFFFF, Config.guideFw >>> 16, Config.guideDigest] s
  | 4 => serveData s.used t r 64 (sensorWord s t s.free) results
  | _ => .answer 1 results s

/-- A request leaves its core. -/
def dropRequest (s : State) (t : Nat) (r : GuideReq) : State :=
  s.modTile t (fun x => { x with guide := x.guide.erase r })

/-- An answer reaches its caller (R304, R306). -/
def giveAnswer (s : State) (t : Nat) (r : GuideReq) (status : Nat) (results : List Word) : State :=
  let s := dropRequest s t r
  match r.queue with
  | some (g, i) => if status = 0 then finishCommand s g i else abortCommand s g i { err := .guide }
  | none =>
    let s := s.setReg (tilA t 0x5140) (BitVec.ofNat 32 status)
    let s := s.each (List.range 3) (fun k s => s.setReg (tilA t (0x5144 + 4 * k)) (results.getD k 0))
    s.setField (tilA t 0x5130) 2 1 1

/-- The request that a core serves: its oldest (R304). -/
def served? (s : State) (t core : Nat) : Option GuideReq := (s.tile t).guide.find? (fun r => r.core = core)

/-- GUIDE_ANSWER (R304 to R306): the core answers the call it serves. A `status` other than 0 is a fault that it met
while serving a service it knows. -/
def execGuideAnswer (t : Fin 64) (core : Fin 2) (status : Word) (results : List Word) (s : State) :
    Host.Outcome State Fault Refusal :=
  match served? s t.val core.val with
  | none => .next s
  | some r =>
    if !active s || r.since + 1000000 < s.now then .next s
    else if status ≠ 0 ∧ 1 ≤ r.service ∧ r.service ≤ 4 then
      .next (giveAnswer s t.val r (if status = 2 then 2 else 3) results)
    else
      match serve s t.val r results with
      | .wait => .next s
      | .answer st rs s => .next (giveAnswer s t.val r st rs)

/-- GUIDE_CALL_TIMEOUT (R304, R306): the core's oldest call has waited 1 ms. -/
def execGuideCallTimeout (t : Fin 64) (core : Fin 2) (s : State) : Host.Outcome State Fault Refusal :=
  match served? s t.val core.val with
  | none => .next s
  | some r =>
    if !panelRuns s || (r.queue.isSome && !active s) then .next s
    else .next (giveAnswer (s.passTo (r.since + 1000000)) t.val r 3 [])

end Sys2Proof.Machine
end

