-- ==== Sys2Proof/Machine/Vector.lean ====
section
/-! DEFINITION. VECTOR: its checks, operations and chunks (spec/07 R291 to R297). -/

namespace Sys2Proof.Machine

open Sys2Proof

/-! ### Fields (R291) -/

def vcOp (l : Line) : Nat := lineField l 0x10 0 8
def vcFmt (l : Line) (i : Nat) : Nat := lineField l 0x10 (8 + 4 * i) 4
def vcRnd (l : Line) : Nat := lineField l 0x10 24 2
def vcEsc (l : Line) : Nat := lineField l 0x10 26 3
def vcNoThresh (l : Line) : Bool := lineField l 0x10 29 1 = 1
def vcHealth (l : Line) : Nat := lineField l 0x14 0 8
def vcWatch (l : Line) : Nat := lineField l 0x14 8 8
def vcThresh (l : Line) : Nat := lineField l 0x14 16 16
def vcSlot (l : Line) (i : Nat) : Nat := lineField l (0x18 + 4 * i) 0 24
def vcScalar (l : Line) : Nat := lineField l 0x28 0 32
def vcTensor (l : Line) : Nat := lineField l 0x2C 0 24
def vcSeed (l : Line) : Nat := lineField l 0x2C 24 4
def vcIndex (l : Line) : Nat := lineField l 0x30 0 32
def vcOrigin (l : Line) : Nat := lineField l 0x34 0 64
def vcRetRow (l : Line) : Nat := lineField l 0x3C 0 32

/-! ### Operations (R292) -/

/-- Sources an operation uses, as positions A 0, B 1, C 2; none for a reserved code. -/
def vecSources (op : Nat) : Option (List Nat) :=
  if [0x00, 0x08, 0x09, 0x0A, 0x0B, 0x0C, 0x0D, 0x10, 0x11, 0x12, 0x14, 0x19, 0x1D].contains op then some [0]
  else if [0x01, 0x02, 0x03, 0x05, 0x06, 0x07].contains op then some [0, 1]
  else if op = 0x04 then some [0, 1, 2]
  else if op = 0x18 || op = 0x1C then some []
  else none

def isCheck (op : Nat) : Bool := op = 0x1D
def isReduction (op : Nat) : Bool := op = 0x10 || op = 0x11 || op = 0x12
def isScan (op : Nat) : Bool := op = 0x14

/-- Lane cost (R292), the block result's extra included. -/
def laneCost (op : Nat) (d : Option Fmt) : Nat :=
  (if op = 0x0A || op = 0x0C || op = 0x0D then 4 else if op = 0x0B then 2 else 1) +
  (match d with
    | some f => f.isBlock.toNat
    | none => 0)

/-- An arithmetic NaN has no sign of its own (R60, R293). -/
def plainNan (x : Num) : Num := if x.isNan then .nan false else x

/-- An element-wise result from its operands, S and the draw u of domain 0x03 (R292, R293). -/
def vecElem (l : Line) (u : Nat) (a b c : Num) : Exact :=
  let sc := decodeNum .kf32 (vcScalar l)
  match vcOp l with
  | 0x00 => .num a
  | 0x01 => .num (a.add b)
  | 0x02 => .num (a.add b.negate)
  | 0x03 => .num (a.mul b)
  | 0x04 => .num ((a.mul b).add c)
  | 0x05 => .num ((a.mul sc).add b)
  | 0x06 => .num (numMax a b)
  | 0x07 => .num (numMin a b)
  | 0x08 => .num (plainNan (a.withSign false))
  | 0x09 => .num (plainNan a.negate)
  | 0x0A => expOf a
  | 0x0B => recipOf a
  | 0x0C => rsqrtOf a
  | 0x0D => sqrtOf a
  | 0x18 => .num (.fin false u (-16))
  | 0x19 => if vcNoThresh l || u < vcThresh l then .num (a.mul sc) else .num .zero
  | _ => .num sc

/-- A reduction of a run (R154, R293). -/
def vecReduce (op : Nat) (run : List Num) : Num :=
  if op = 0x10 then treeSum run
  else
    match run with
    | [] => .zero
    | x :: xs => plainNan (xs.foldl (if op = 0x11 then numMax else numMin) x)

/-- Running sums of elements, of which the first has place `i` in its run of `n`: each rounded to KF32 (R293). -/
def scanSums (n : Nat) : Nat → Num → List Num → List Num
  | _, _, [] => []
  | i, acc, x :: xs =>
    let v := if i % n = 0 then decodeNum .kf32 (encodeNum .kf32 .rne 0 x).1 else addKf32 acc x
    v :: scanSums n (i + 1) v xs

/-! ### Checks (R55, R57, R294, R295) -/

/-- A format at its place: block formats only in CONVERT (R55). -/
def vecFmt (l : Line) (i : Nat) : Option Fmt :=
  match Fmt.ofCode (vcFmt l i) with
  | some f => if f.isBlock && vcOp l ≠ 0x00 then none else some f
  | none => none

/-- The field checks, without descriptors. -/
def vecFieldsOk (l : Line) : Bool :=
  match vecSources (vcOp l) with
  | none => false
  | some srcs =>
    srcs.all (fun i => (vecFmt l i).isSome) &&
    (isCheck (vcOp l) ||
      match vecFmt l 3 with
      | none => false
      | some f => f = .kg8 || vcRnd l ≠ 3)

/-- The operands of a vector command as checked: sources by position, result, and the slot of retained rows. -/
structure VecPlan where
  srcs : List (Nat × Operand) := []
  dst  : Option Operand := none
  ret  : Option Desc := none

/-- The count that source A of a reduction needs, by its own DIM0, and SCAN's equal DIM0 (R294). -/
def sourceShape (op : Nat) (a : Desc) (dst : Option Desc) : Bool :=
  match dst with
  | none => true
  | some d =>
    if isReduction op then descCount a = a.d0 * descCount d
    else if isScan op then descCount a = descCount d && a.d0 = d.d0
    else true

/-- Check the sources in order. -/
def vecSourcesOk (c : Cmd) (dst : Option Desc) : List Nat → State → Except CmdError (List (Nat × Operand)) × State
  | [], s => (.ok [], s)
  | i :: is, s =>
    let op := vcOp c.line
    let f := (vecFmt c.line i).getD .kf32
    let count := if isCheck op || isReduction op || isScan op then none else dst.map descCount
    match useOperand s c.t c.copies i (vcSlot c.line i) f false false count with
    | (.error e, s) => (.error e, s)
    | (.ok o, s) =>
      if !sourceShape op o.codes dst then
        (.error { err := .shape, slot := o.codes.slot, tag := o.codes.tag, field := i }, s)
      else
        match vecSourcesOk c dst is s with
        | (.error e, s) => (.error e, s)
        | (.ok os, s) => (.ok ((i, o) :: os), s)

/-- All checks of a vector command (R294, R295). DST's dimensions count as its slot holds them, whatever its own
checks find. -/
def vecCheck (c : Cmd) (s : State) : Except CmdError VecPlan × State :=
  let l := c.line
  let op := vcOp l
  if !vecFieldsOk l then (.error { err := .encoding }, s)
  else
    let srcs := (vecSources op).getD []
    if isCheck op then
      match vecSourcesOk c none srcs s with
      | (.error e, s) => (.error e, s)
      | (.ok os, s) => (.ok { srcs := os }, s)
    else
      let (raw, s) := readDesc s c.t c.copies 3 (vcSlot l 3)
      let dims : Option Desc := match raw with
        | .ok d => some d
        | .error _ => none
      match vecSourcesOk c dims srcs s with
      | (.error e, s) => (.error e, s)
      | (.ok os, s) =>
        let f := (vecFmt l 3).getD .kf32
        match useOperand s c.t c.copies 3 (vcSlot l 3) f true false none with
        | (.error e, s) => (.error e, s)
        | (.ok d, s) =>
          if f.isBlock && retains s c.t (vcWatch l) then
            match useDesc s c.t c.copies 3 (vcSlot l 3 + 3) { write := true, kinds := [1], tile := some c.t } with
            | (.error e, s) => (.error e, s)
            | (.ok r, s) => (.ok { srcs := os, dst := some d, ret := some r }, s)
          else (.ok { srcs := os, dst := some d }, s)

/-- The slots that a vector command reads as descriptors. -/
def vecSlots (s : State) (t : Nat) (l : Line) : List Nat :=
  let wide := fun i => match vecFmt l i with
    | some f => if f.isBlock then [vcSlot l i, vcSlot l i + 1, vcSlot l i + 2] else [vcSlot l i]
    | none => [vcSlot l i]
  ((vecSources (vcOp l)).getD []).flatMap wide ++
  (if isCheck (vcOp l) then [] else wide 3) ++
  (match vecFmt l 3 with
    | some f => if f.isBlock && retains s t (vcWatch l) then [vcSlot l 3 + 3] else []
    | none => [])

/-! ### Results -/

/-- Values of a source from element `n` on; a source with a fault names itself. -/
def vecLoad (s : State) (t : Nat) (p : VecPlan) (i n count : Nat) : Except CmdError (List Num) × State :=
  match p.srcs.find? (fun o => o.1 = i) with
  | none => (.ok [], s)
  | some (_, o) =>
    match loadValues s t o n count with
    | (.ok vs, s) => (.ok vs, s)
    | (.error e, s) => (.error (descFault o.codes i e), s)

/-- Results of elements `n` to `n + count − 1`, and the running sum to carry on (R292, R293, R295). -/
def vecResults (s : State) (c : Cmd) (key : Dword) (p : VecPlan) (d0 n count : Nat) (carry : Num) :
    Except CmdError (List Exact) × Num × State :=
  let l := c.line
  let op := vcOp l
  if isReduction op then
    let w := match p.srcs with
      | (_, o) :: _ => o.codes.d0
      | [] => 0
    match vecLoad s c.t p 0 (n * w) (count * w) with
    | (.error e, s) => (.error e, carry, s)
    | (.ok vs, s) =>
      (.ok ((List.range count).map (fun k => Exact.num (vecReduce op ((vs.drop (k * w)).take w)))), carry, s)
  else
    match vecLoad s c.t p 0 n count with
    | (.error e, s) => (.error e, carry, s)
    | (.ok a, s) =>
      if isScan op then
        let sums := scanSums d0 (n % d0) carry a
        (.ok (sums.map Exact.num), sums.getLast?.getD carry, s)
      else
        match vecLoad s c.t p 1 n count with
        | (.error e, s) => (.error e, carry, s)
        | (.ok b, s) =>
          match vecLoad s c.t p 2 n count with
          | (.error e, s) => (.error e, carry, s)
          | (.ok cc, s) =>
            (.ok ((List.range count).map (fun i =>
              let u := if op = 0x18 || op = 0x19 then
                  genLinear 0x03 (vcTensor l) (vcIndex l) (vcOrigin l + n + i) key
                else 0
              vecElem l u (a.getD i .zero) (b.getD i .zero) (cc.getD i .zero))), carry, s)

/-- What a chunk writes: lines of each part of the result, and the health flags of its values. -/
structure VecWrites where
  codes : List (Nat × Line)
  scale : List (Nat × Line) := []
  esc   : List (Nat × Line) := []
  flags : Nat

/-- The draw of a result element (R295). -/
def vecDraw (c : Cmd) (key : Dword) (n : Nat) : Nat :=
  genLinear 0x02 (vcTensor c.line) (vcIndex c.line) (vcOrigin c.line + n) key

/-- Lines `k` to `k + m − 1` of a plain result whose elements from `n` on are `rs` (R293, R296). -/
def plainWrites (c : Cmd) (key : Dword) (f : Fmt) (d : Desc) (k m n : Nat) (rs : List Exact) : VecWrites :=
  let mode := (Rnd.ofCode (vcRnd c.line)).getD .rne
  let out := (List.range rs.length).map (fun i =>
    let r := rs.getD i (.num .zero)
    let (code, sat) := r.encode f mode (vecDraw c key (n + i))
    (code, codeFlags f code ||| (if sat && (codeFlags f code = 0) && (f = .kf8 || f = .kg8) &&
      (match r with
        | .num x => x.isFinite
        | .mag _ _ => true) then 8 else 0)))
  { codes := fillLines d k m (fun x => (out.getD (x - n) (0, 0)).1),
    flags := out.foldl (fun a x => a ||| x.2) 0 }

/-- Place range of the lines of a part that hold the entries of blocks `b0` to `b1 − 1`. -/
def partLines (d : Desc) (b0 b1 : Nat) : Nat × Nat :=
  let k0 := elemLine d b0
  (k0, elemLine d (b1 - 1) + 1 - k0)

/-- First and last entry held by lines of a part. -/
def partSpan (d : Desc) (ks : Nat × Nat) : Nat × Nat :=
  let z := ks.1 + ks.2 - 1
  (lineFirst d ks.1, lineFirst d z + lineHolds d z)

/-- Blocks that chunk lines `k` to `k + m − 1` carry: those of its codes, and those of the scale and escape lines
written with them (R296). -/
def chunkBlocks (o : Operand) (k m : Nat) : (Nat × Nat) × (Nat × Nat) :=
  let b0 := lineFirst o.codes k / 32
  let b1 := (lineFirst o.codes (k + m - 1) + lineHolds o.codes (k + m - 1)) / 32
  let spans := (o.scale.toList ++ o.esc.toList).map (fun d => partSpan d (partLines d b0 b1))
  ((b0, b1), (spans.foldl (fun a x => min a x.1) b0, spans.foldl (fun a x => max a x.2) b1))

/-- Lines of a block-scaled result (R84, R85, R296). -/
def blockWrites (c : Cmd) (key : Dword) (o : Operand) (k m : Nat) (own all : Nat × Nat) (vs : List Num) : VecWrites :=
  let mode := (Rnd.ofCode (vcRnd c.line)).getD .rne
  let qs := (List.range (all.2 - all.1)).map (fun i =>
    quantise o.fmt (vcEsc c.line) mode (fun p => vecDraw c key (32 * (all.1 + i) + p)) ((vs.drop (32 * i)).take 32))
  let q := fun b => qs.getD (b - all.1) { scale := 0, codes := [], esc := {} }
  let fill := fun (d : Option Desc) (f : Nat → Nat) => match d with
    | some d =>
      let ks := partLines d own.1 own.2
      fillLines d ks.1 ks.2 f
    | none => []
  { codes := fillLines o.codes k m (fun n => (q (n / 32)).codes.getD (n % 32) 0),
    scale := fill o.scale (fun b => (q b).scale), esc := fill o.esc (fun b => (q b).esc.toBits),
    flags := (List.range (own.2 - own.1)).foldl (fun a i => a ||| blockFlags (q (own.1 + i))) 0 }

/-- Values of results where no rounding has happened yet; block results come only from CONVERT. -/
def exactNums (rs : List Exact) : List Num :=
  rs.map (fun r => match r with
    | .num x => x
    | .mag _ _ => .zero)

/-! ### Chunks (R242, R295 to R297) -/

/-- The command of a job that the vector unit holds. -/
def jobCmd (j : VecJob) : Cmd :=
  { g := j.queue, t := j.queue / 256, idx := j.idx, line := j.line, copies := j.descs, task := soloTask j.idx }

/-- The operands of a job, from its descriptor copies. -/
def vecJobPlan (j : VecJob) : VecPlan :=
  let l := j.line
  let operand := fun i => heldOperand j.descs (vcSlot l i) ((vecFmt l i).getD .kf32) false
  { srcs := ((vecSources (vcOp l)).getD []).filterMap (fun i => (operand i).map (fun o => (i, o))),
    dst := if isCheck (vcOp l) then none else operand 3,
    ret := if j.retain then heldDesc j.descs (vcSlot l 3 + 3) else none }

/-- Global row of row `k` of a destination (R295), and how many rows before it are sampled. -/
def retRow (l : Line) (k : Nat) : Nat := (vcRetRow l + k) % 2 ^ 32
def sampledBefore (l : Line) (rate phase k : Nat) : Nat :=
  ((List.range k).filter (fun i => sampledRow rate phase (retRow l i))).length

/-- The retained rows that a chunk completes, in KF16 (R295, R296): the source values of its own elements follow those
of the row that the chunk before left incomplete. -/
def retainChunk (s : State) (c : Cmd) (j : VecJob) (d : Desc) (w : Nat) (vals : List Num) : Option Err × State :=
  let all := j.part ++ vals
  ((List.range (all.length / w)).filter (fun i => sampledRow j.rate j.phase (retRow c.line (j.rows + i)))).foldl
    (fun (acc : Option Err × State) i =>
      if acc.1.isSome then acc
      else
        storeCodes acc.2 c.t d (sampledBefore c.line j.rate j.phase (j.rows + i) * w)
          (((all.drop (i * w)).take w).map (fun v => (encodeNum .kf16 .rne 0 v).1)) (.command c.g c.idx))
    (none, s)

/-- The job after a chunk whose values end in an incomplete row of width `w`. -/
def jobPast (j : VecJob) (w : Nat) (vals : List Num) (carry : Num) : VecJob :=
  let all := j.part ++ vals
  let n := all.length / w
  { j with next := j.next + 1, carry, rows := j.rows + n, part := all.drop (n * w) }

/-- The lines of a chunk go to memory: codes, scales and escapes; the error of a line that it did not take. -/
def storeChunk (s : State) (c : Cmd) (o : Operand) (w : VecWrites) : Option Err × State :=
  let who : MirrorOwner := .command c.g c.idx
  let (e1, s) := storeLines s c.t o.codes w.codes who
  let (e2, s) := match o.scale with
    | some x => storeLines s c.t x w.scale who
    | none => (none, s)
  let (e3, s) := match o.esc with
    | some x => storeLines s c.t x w.esc who
    | none => (none, s)
  ((e1.or e2).or e3, s)

/-- A job's next chunk of 64 lines of its result: its sources are read before its lines are written (R242, R294,
R296). -/
def vecChunk (j : VecJob) (p : VecPlan) (o : Operand) (s : State) : Except CmdError VecJob × State :=
  let c := jobCmd j
  let d := o.codes
  let k := 64 * j.next
  let m := min 64 (descLines d - k)
  let n0 := lineFirst d k
  let n1 := lineFirst d (k + m - 1) + lineHolds d (k + m - 1)
  let (own, all) := if o.fmt.isBlock then chunkBlocks o k m else ((0, 0), (0, 0))
  let (a, b) := if o.fmt.isBlock then (32 * all.1, 32 * all.2) else (n0, n1)
  match vecResults s c j.seed p d.d0 a (b - a) j.carry with
  | (.error e, _, s) => (.error e, s)
  | (.ok rs, carry, s) =>
    let w := if o.fmt.isBlock then blockWrites c j.seed o k m own all (exactNums rs)
      else plainWrites c j.seed o.fmt d k m n0 rs
    let vals := if p.ret.isSome then ((exactNums rs).drop (n0 - a)).take (n1 - n0) else []
    let (e, s) := storeChunk s c o w
    let (r, s) := match p.ret with
      | some x => retainChunk s c j x d.d0 vals
      | none => (none, s)
    let s := setHealth s c.t (vcHealth c.line) w.flags
    match e.or r with
    | some e => (.error (descFault d 3 e), s)
    | none => (.ok (jobPast j d.d0 vals carry), s)

/-- Bytes that the descriptors of an operand name. -/
def operandBytes (o : Operand) : Nat :=
  (([o.codes] ++ o.scale.toList ++ o.esc.toList).map (fun d => (descCount d * elemBits d.elem + 7) / 8)).foldl (· + ·) 0

def ceilDiv (a b : Nat) : Nat := (a + b - 1) / b

/-- Working cycles of a vector command, its start latency apart (R297). -/
def vecCycles (l : Line) (p : VecPlan) : Nat :=
  let op := vcOp l
  let df := p.dst.map (·.fmt)
  let wide := p.srcs.any (fun o => o.2.fmt = .kf32) || df = some .kf32
  let lanes := if wide then 1024 else 2048
  let src := (p.srcs.map (fun o => operandBytes o.2)).foldl (· + ·) 0
  let res := (p.dst.map operandBytes).getD 0
  let a := match p.srcs with
    | (_, o) :: _ => descCount o.codes
    | [] => 0
  let e := if isReduction op || isCheck op then a else (p.dst.map (fun o => descCount o.codes)).getD 0
  let base := max (max (ceilDiv (e * laneCost op df) lanes) (ceilDiv src 8192))
    (max (ceilDiv res 4096) (ceilDiv (src + res) 8192))
  match p.dst with
  | some o => if isScan op then max base (ceilDiv (descRuns o.codes) lanes * o.codes.d0) else base
  | none => base

/-- CHECK sets the flags of every value it reads from A (R296). -/
def vecCheckRun (j : VecJob) (p : VecPlan) (s : State) : Except CmdError VecJob × State :=
  let n := match p.srcs with
    | (_, o) :: _ => descCount o.codes
    | [] => 0
  match vecLoad s (j.queue / 256) p 0 0 n with
  | (.error e, s) => (.error e, s)
  | (.ok vs, s) =>
    (.ok { j with next := j.next + 1 }, setHealth s (j.queue / 256) (vcHealth j.line) (flagsOf vs))

/-- Chunks of a job. -/
def vecChunks (p : VecPlan) : Nat :=
  match p.dst with
  | some o => (descLines o.codes + 63) / 64
  | none => 1

/-- Every line that the operands of a plan name can be accessed. -/
def vecReady (s : State) (t : Nat) (p : VecPlan) : Bool :=
  p.srcs.all (fun o => operandReady s t o.2) &&
  (match p.dst with
    | some o => operandReady s t o
    | none => true) &&
  (match p.ret with
    | some d => descReady s t d
    | none => true)

/-- The running command starts: its cycles count, and the unit's ramp follows them (R297, R617). -/
def vecBegin (s : State) (t : Nat) (j : VecJob) (p : VecPlan) : State :=
  if j.next = 0 then vecWork (s.count64 (tilA t 0x5028) (12 + vecCycles j.line p)) t (vecCycles j.line p) else s

/-- The vector unit does the next chunk of the command that it runs; after the last the command finishes, and the one
behind it runs. -/
def vecStep (t : Nat) (s : State) : State :=
  match (s.tile t).vec with
  | [] => s
  | j :: rest =>
    let p := vecJobPlan j
    if !vecReady s t p then s
    else
      let s := vecBegin s t j p
      let (r, s) := match p.dst with
        | some o => vecChunk j p o s
        | none => vecCheckRun j p s
      match r with
      | .error e => abortCommand s j.queue j.idx e
      | .ok j' =>
        if j'.next < vecChunks p then s.modTile t (fun x => { x with vec := j' :: rest })
        else finishCommand (s.modTile t (fun x => { x with vec := rest })) j.queue j.idx

/-- The vector unit does `n` chunks. -/
def vecAdvance (t : Nat) : Nat → State → State
  | 0, s => s
  | n + 1, s => vecAdvance t n (vecStep t s)

/-- Issue of a vector command: the vector unit takes it, at most one behind the one that it runs (R294 to R297). It
waits at the issue point while a line of it cannot be accessed (DESIGN CHOICE, assumption log entry 36). -/
def issueVector (c : Cmd) (s : State) : Issued :=
  if 2 ≤ (s.tile c.t).vec.length then .wait
  else if !linesReady s c.t (((vecSlots s c.t c.line).map (64 * ·)).filter (inScratch s c.t)) then .wait
  else
    match vecCheck c s with
    | (.error e, s) => .fail e s
    | (.ok p, s') =>
      if !vecReady s c.t p then .wait
      else
        let rate := tasteRate s c.t
        let phase := tastePhase s c.t
        let d0 := (p.dst.map (fun o => o.codes.d0)).getD 0
        let sel := sampledBefore c.line rate phase ((p.dst.map (fun o => descRuns o.codes)).getD 0)
        let fits := p.ret.any (fun d => descCount d = sel * d0)
        let descs := (vecSlots s c.t c.line).foldl (fun m k => mset none m k (some (slotLine s c.t c.copies k))) []
        let s := if p.ret.isSome && !fits then s'.count32 (watchA c.t (vcWatch c.line) 0x14) sel else s'
        let j : VecJob :=
          { queue := c.g, idx := c.idx, line := c.line, descs, seed := seedKey s c.t (vcSeed c.line), retain := fits,
            rate, phase }
        .run (s.modTile c.t (fun x => { x with vec := x.vec ++ [j] }))

/-- VECTOR (R291 to R297): the command at the issue point goes to the vector unit, which then does up to so many
chunks of what it holds; the rest of them are done by COMMAND_COMPLETE (DESIGN CHOICE, assumption log entry 150). -/
def execVector (v : VectorIssue) (s : State) : Host.Outcome State Fault Refusal :=
  let t := v.queue.val / 256
  let s' := issue s v.queue.val (· = 0x10) issueVector
  .next (if (s'.tile t).vec.length = (s.tile t).vec.length then s' else vecAdvance t v.chunks s')

/-- What the vector unit has still to do of a command that it runs. -/
def vecRest (s : State) (g : Nat) (idx : Word) : Nat :=
  match (s.tile (g / 256)).vec with
  | [] => 0
  | j :: _ => if j.queue = g && j.idx = idx then vecChunks (vecJobPlan j) - j.next else 0

/-- COMMAND_COMPLETE (R267, R273, R297): a command completes once its unit has finished and everything it wrote is
performed; the vector unit finishes the one that it runs. -/
def execCommandComplete (g : Fin 16384) (idx : Word) (s : State) : Host.Outcome State Fault Refusal :=
  if !active s then .next s
  else
    let s := vecAdvance (g.val / 256) (vecRest s g.val idx) s
    match inflight? (s.queue g.val) idx with
    | some x => if canComplete s g.val x then .next (completeCommand s g.val x) else .next s
    | none => .next s

end Sys2Proof.Machine
end

