-- ==== Sys2Proof/Machine/FetchAhead.lean ====
section
/-! DEFINITION. Fetch-ahead: command lines, descriptor copies, hamper prefetch and staged remote lines
(spec/07_command_streams.md R283 to R286, spec/05 R188). -/

namespace Sys2Proof.Machine

open Sys2Proof

/-! ### What a command names -/

/-- The references of a pass that the taster acts on (R165). -/
def passRefs (l : Line) : List Nat :=
  if tasted l then mrefSlot l :: (if mpKeep l then [] else [srefSlot l]) else []

/-- The descriptor slots of a command of tile `t` (R283, item 2). -/
def namedSlots (s : State) (t : Nat) (l : Line) : List Nat :=
  (match hdrOpcode l with
    | 0x05 => [rcDst l]
    | 0x10 => vecSlots s t l
    | 0x20 => passSlots l (mpDrain l) (passRetains s t l) ++ passRefs l
    | 0x30 => [mvSrcSlot l, mvDstSlot l]
    | 0x31 => [mvSrcSlot l, mvDstSlot l]
    | 0x40 => (collNeeds s t l).map (fun (x : Nat × Nat × Need) => x.2.1)
    | 0x50 => if ckOp l = 0 then [ckSlot l] else []
    | 0x51 => [ckSlot l]
    | 0x52 => [lbSlot l]
    | _ => []).eraseDups

/-- The slots among them that describe what the command reads (R283, item 3). -/
def readSlots (s : State) (t : Nat) (l : Line) : List Nat :=
  (match hdrOpcode l with
    | 0x10 => ((vecSources (vcOp l)).getD []).flatMap (fun i =>
        if (vecFmt l i).any Fmt.isBlock then [vcSlot l i, vcSlot l i + 1, vcSlot l i + 2] else [vcSlot l i])
    | 0x20 => passSlots l false false ++ passRefs l
    | 0x30 => [mvSrcSlot l]
    | 0x31 => [mvSrcSlot l]
    | 0x40 => ((collNeeds s t l).filter (fun (x : Nat × Nat × Need) => !x.2.2.write)).map (fun (x : Nat × Nat × Need) => x.2.1)
    | 0x50 => if ckOp l = 0 then [ckSlot l] else []
    | 0x52 => if lbRead l then [] else [lbSlot l]
    | _ => []).eraseDups

/-! ### Descriptor copies (R235) -/

/-- Copy one slot; a slot that cannot be read now is read again at issue. -/
def copySlot (t : Nat) (acc : SMap (Option Line) × State) (slot : Nat) : SMap (Option Line) × State :=
  let s := acc.2
  if !inScratch s t (64 * slot) || !lineReady s t (64 * slot) || !lineGood s t (64 * slot) then acc
  else
    match readLine s t (64 * slot) with
    | (some l, s) => (mset none acc.1 slot (some l), s)
    | (none, _) => acc

/-! ### Hamper prefetch (R188, R283) -/

/-- The first granules that a read operand takes from the tile's hamper, at most 64. -/
def operandGranules (s : State) (t : Nat) (d : Desc) : List Nat :=
  let offs := ((List.range (min 128 (descLines d))).map (lineAt d)).filter (fun o => lineReady s t o)
  (granuleRuns none offs).take 64

/-- The operand is prefetched: valid, of this tile, with hint NORMAL or KEEP. -/
def prefetches (s : State) (t : Nat) (d : Desc) : Bool :=
  (d.hint = 0 || d.hint = 2) && (descError s t {} d).isNone && descTile d = t

/-- The granules of the operands for a command, with their hints. -/
def granulesToFetch (s : State) (t : Nat) (ds : List Desc) : List (Nat × Hint) :=
  if cacheUnits s t = 0 then []
  else
    (ds.filter (prefetches s t)).flatMap (fun d => (operandGranules s t d).map (fun x => (x, Hint.ofCode d.hint)))

/-- Prefetch granules for a command until 4,096 are marked; those left wait until marks have cleared (R284). -/
def prefetchAll (t g : Nat) (idx : Word) : List (Nat × Hint) → State → List (Nat × Hint) × State
  | [], s => ([], s)
  | x :: xs, s =>
    if 4096 ≤ prefetched s t then (x :: xs, s) else prefetchAll t g idx xs (touchGranule s t x.1 x.2 (some (g, idx)))

/-! ### Staged remote lines (R283, item 4) -/

/-- The staging buffer of a mover holds lines asked for ahead. -/
def stagingTaken (s : State) (t m : Nat) : Bool :=
  s.queues.any (fun q => q.1 / 256 = t && q.2.fetched.any (fun f =>
    match f.2 with
    | some x => x.asked ≠ 0 && mvMover x.line = m
    | none => false))

/-- Ask a remote source for the first lines of its first chunk: the fetched command as it then stands. -/
def stageSource (s : State) (t g : Nat) (idx : Word) (f : Fetched) : Fetched × State :=
  let l := f.line
  match mget none f.descs (mvSrcSlot l), mget none f.descs (mvDstSlot l) with
  | some a, some b =>
    let src := descOf (mvSrcSlot l) a
    let dst := descOf (mvDstSlot l) b
    let ok := mvVc l < 4 && !(mvXchg l && 6 ≤ mvUnit l) && (moveError s t l src dst).isNone
    match remoteSide s t l 0x14 src with
    | none => (f, s)
    | some far =>
      if !ok || (s.mover (4 * t + mvMover l)).isSome || stagingTaken s t (mvMover l) then (f, s)
      else
        let p := jobPlan { queue := g, idx, line := l, src := a, dst := b }
        let offs := (p.needs.take 64).map (lineAt src)
        ({ f with asked := offs.length }, askLines s t g idx (mvVc l) far src 0 offs)
  | _, _ => (f, s)

/-! ### The row -/

/-- The next command that fetch-ahead reads: the first one not yet read, unless one before it carries the hold mark
(R283, R284). -/
def nextFetch (q : Queue) : Nat → Word → Option Word
  | 0, _ => none
  | n + 1, idx =>
    if idx = q.tail then none
    else
      match mget none q.fetched idx.toNat with
      | none => some idx
      | some f => if hdrHold f.line then none else nextFetch q n (idx + 1)

/-- Read ahead for the command `idx`, whose line is `l`. -/
def fetchCommand (s : State) (g : Nat) (idx : Word) (l : Line) : State :=
  let t := g / 256
  let put := fun (s : State) (f : Fetched) =>
    s.modQueue g (fun q => { q with fetched := mset none q.fetched idx.toNat (some f) })
  if hdrHold l then put s { line := l }
  else
    let (descs, s) := (namedSlots s t l).foldl (copySlot t) ([], s)
    let ds := (readSlots s t l).filterMap (fun k => (mget none descs k).map (descOf k))
    let local_ := ds.filter (fun d =>
      !((hdrOpcode l = 0x30 || hdrOpcode l = 0x31) && (remoteSide s t l 0x14 d).isSome))
    let (todo, s) := prefetchAll t g idx (granulesToFetch s t local_) s
    let f : Fetched := { line := l, descs, todo }
    if hdrOpcode l = 0x30 || hdrOpcode l = 0x31 then
      let (f, s) := stageSource s t g idx f
      put s f
    else put s f

/-- The fetched command whose prefetch has paused (R284). -/
def pausedFetch (q : Queue) : Option (Nat × Fetched) :=
  q.fetched.findSome? (fun p =>
    match p.2 with
    | some f => if f.todo = [] then none else some (p.1, f)
    | none => none)

/-- A paused prefetch goes on. -/
def resumeFetch (s : State) (g k : Nat) (f : Fetched) : State :=
  let (todo, s) := prefetchAll (g / 256) g (BitVec.ofNat 32 k) f.todo s
  s.modQueue g (fun q => { q with fetched := mset none q.fetched k (some { f with todo }) })

/-- FETCH_AHEAD (R283 to R286): a paused prefetch goes on, or the next command within FA_DEPTH of the issue point is read
ahead. A line that cannot be read is left for the issue to read. -/
def execFetchAhead (g : Fin 16384) (s : State) : Host.Outcome State Fault Refusal :=
  let q := s.queue g.val
  let t := g.val / 256
  if !active s || s.power.shutdown ≠ 0 || !q.enable || q.skip.isSome || 4096 ≤ prefetched s t then .next s
  else
    match pausedFetch q with
    | some (k, f) => .next (resumeFetch s g.val k f)
    | none =>
      match nextFetch q (q.faDepth + 1) q.cmd with
      | none => .next s
      | some idx =>
        let off := ringOff q idx
        if !inScratch s t off || !lineReady s t off || !lineGood s t off then .next s
        else
          match readLine s t off with
          | (some l, s) => .next (fetchCommand s g.val idx l)
          | (none, _) => .next s

end Sys2Proof.Machine
end

