-- ==== Sys2Proof/Machine/FoldInstant.lean ====
section
/-! DEFINITION. The fold instant T: registers, parties, ports, copper, guests, the job key and the writes held while
BUSY (spec/13_itinerary_and_control.md R477 to R490, R502, spec/10 R424, R427, spec/11 R439, R455, spec/16 R583). -/

namespace Sys2Proof.Machine

open Sys2Proof

/-! ### Registers (R478, R488) -/

/-- The itinerary's image of a register word replaces what is staged for it: its RWC fields take the image's. -/
def stageImage (s : State) (a v : Nat) : State :=
  match regRow a with
  | some (r, _) =>
    let w := writeFields .rwc v r.fields (s.reg a).toNat
    { s with staged := mset none s.staged a (some (BitVec.ofNat 32 w)) }
  | none => s

/-- A word of a section, when the itinerary has the section. -/
def stageWord (ss : List Section) (ty inst o a : Nat) (s : State) : State :=
  match sectionOf ss ty inst with
  | some x => stageImage s a (bodyWord x o)
  | none => s

/-- TILE_CFG of a tile: its own section, or the one for every tile (R478). -/
def tileCfg (ss : List Section) (t : Nat) : Option Section := (sectionOf ss 10 t).or (sectionOf ss 10 0xFFFF)

/-- Tile offsets of the registers of TILE_CFG, in body order (R478). -/
def tileCfgRegs : List Nat :=
  [0x4000, 0x2C00, 0x3008, 0x300C, 0x6000, 0x6004, 0x6008, 0x2000, 0x2100, 0x2200, 0x2300]

/-- Stage what the itinerary sets in a tile. -/
def stageTile (ss : List Section) (t : Nat) (s : State) : State :=
  let s := match tileCfg ss t with
    | some x => (List.range 11).foldl (fun s i =>
        stageImage s (tilA t (tileCfgRegs.getD i 0)) (bodyWord x (4 * i))) s
    | none => s
  let s := stageImage s (tilA t 0x3000) (partyField ss (newOwner ss t) 8 8 4)
  match sectionOf ss 11 0 with
  | some x =>
    stageImage (stageImage s (tilA t 0x9000) (bodyField x (4 + t / 4 * 4) (8 * (t % 4)) 8)) (tilA t 0x9004)
      (bodyWord x (0x44 + 4 * t))
  | none => s

/-- Hold a field of a register to its range, with an entry in the fold report (R252, R384). -/
def clampReg (s : State) (a inst off lo n min max : Nat) : State :=
  let v := s.field a lo n
  let w := clampTo min max v
  if w = v then s else reportClamp (s.setField a lo n w) 0 inst off lo v w

/-- Fold `TIL_XFER_SPLIT` (R252, R254): REMOTE_SHARE is what is left of 16. -/
def foldXfer (s : State) (t : Nat) : State :=
  let a := tilA t 0x4000
  let s := clampReg (s.foldReg a) a t 0x4000 0 4 1 14
  let s := clampReg s a t 0x4000 4 4 1 (15 - s.field a 0 4)
  s.setField a 8 4 (16 - s.field a 0 4 - s.field a 4 4)

/-- Fold the roll-call registers (R384). -/
def foldRollCall (s : State) : State :=
  let s := (s.foldReg 0x7000).foldReg 0x7004
  let s := clampReg s 0x7000 0x200 0x7000 0 16 100 60000
  clampReg (clampReg s 0x7004 0x200 0x7004 0 20 1000 1000000) 0x7004 0x200 0x7004 20 11 1 2000

/-- Every register of a tile folds. -/
def foldTile (ss : List Section) (t : Nat) (s : State) : State :=
  let s := foldMemory (stageTile ss t s) t
  let s := (foldMe s t).foldReg (tilA t 0x2C00)
  foldSlew (foldFab (foldXfer s t) t) t

/-- The registers that the fold loads and folds, outside the tiles; MODULE's are loaded as they are (R352, R479). -/
def foldDevice (ss : List Section) (s : State) : State :=
  let s := match sectionOf ss 1 0 with
    | some x => (s.setReg 0x2000 (BitVec.ofNat 32 (bodyWord x 0 &&& 0x7F7F7F))).setReg 0x2004
        (BitVec.ofNat 32 (bodyField x 4 0 28))
    | none => s
  let s := stageWord ss 1 0 8 0x7018 s
  let s := stageWord ss 9 0 4 0x7004 (stageWord ss 9 0 0 0x7000 s)
  let s := stageWord ss 11 0 0 (pwrA 0) (stageWord ss 9 0 8 (hbgA 0x110) s)
  let s := (foldRollCall s).foldReg 0x7018
  let s := foldPower (s.foldReg (hbgA 0x110))
  s.each (List.range 8) (fun n s => foldLan (stageWord ss 9 0 12 (lanA n 0x20) s) n)

/-- The team table (R354, R383, R481): the panel computes N, a field of 21 bits. -/
def loadTeam (ss : List Section) (p t : Nat) (s : State) : State :=
  let w := fun (o : Nat) => match sectionOf ss 3 p with
    | some x => bodyWord x (16 * t + o)
    | none => 0
  let s := (s.setReg (teamA p t 0) (BitVec.ofNat 32 (w 0))).setReg (teamA p t 4) (BitVec.ofNat 32 (w 4))
  let s := s.setReg (teamA p t 8) (BitVec.ofNat 32 (w 8 &&& 0x807F7F7F))
  s.setReg (teamA p t 0xC) (BitVec.ofNat 32 (teamN s p t % 2 ^ 21))

/-- The teams of every party whose section changes. -/
def foldTeams (old ss : List Section) (s : State) : State :=
  s.each (List.range 16) (fun p s =>
    if sectionOf old 3 p = sectionOf ss 3 p then s else s.each (List.range 64) (fun t s => loadTeam ss p t s))

/-! ### Parties (R3, R210, R483, R488, R502, R528, R551, R560) -/

/-- A tile joins a party: its queues and tallies are cleared, the seed table loaded, its memory zeroed (R210, R265,
R275, R480). That a tile that joins a party which stands already starts like one of a new party is DEDUCED
(assumption log entry 67). -/
def joinTile (ss : List Section) (p : Nat) (t : Nat) (s : State) : State :=
  startZero (loadSeeds (clearTallies (clearQueues s t) t) t (partySeeds ss p)) t

/-- Tiles that join party `p`: those it did not hold, or all when it is created. -/
def joiners (s : State) (ss : List Section) (p : Nat) : List Nat :=
  (List.range 64).filter (fun t => newOwner ss t = p && (!partyExists s p || tileParty s t ≠ p))

/-- The party holds a tile or a guest under the new sections. -/
def holdsAny (ss : List Section) (p : Nat) : Bool :=
  (List.range 64).any (fun t => newOwner ss t = p) || (List.range 4).any (fun n => newGuestOwner ss n = p)

/-- A party exists under an itinerary: it holds a tile or a guest, or it is party 0, the owner's default party, which
exists from the first fold (R3, R502). -/
def stands (ss : List Section) (p : Nat) : Bool := holdsAny ss p || p = 0

/-- A party ends (R502, R528, R551, R560): its generations and records become unreadable, its ring is reset. -/
def endParty (s : State) (p : Nat) : State :=
  let s := clearRollCall (s.setParty p {}) p
  let s := s.setRing (p + 1) {}
  { s with rk := { s.rk with
    gens := s.rk.gens.filter (fun g => g.party ≠ p), log := s.rk.log.filter (fun r => r.party ≠ p),
    sealing := s.rk.sealing.filter (fun x => x.party ≠ p), selves := mset {} s.rk.selves p {} } }

/-- What the fold makes of one party; `was` is the state before the fold. -/
def foldParty (was : State) (ss : List Section) (p : Nat) (s : State) : State :=
  let js := joiners was ss p
  let ts := (List.range 64).filter (fun t => newOwner ss t = p)
  let x := s.party p
  if !partyExists was p then
    (if stands ss p then
      let s := s.each js (joinTile ss p)
      (s.setParty p { phase := .zeroing, epoch := BitVec.ofNat 8 (partyField ss p 8 0 8) }).setRing (p + 1) {}
    else s)
  else if !stands ss p then endParty s p
  else
    let seeds := decide (partySeeds was.itin.force p ≠ partySeeds ss p)
    let s := if seeds then s.each ts (fun t s => loadSeeds s t (partySeeds ss p)) else s
    if js.isEmpty then s else (s.each js (joinTile ss p)).setParty p { x with phase := .zeroing }

/-- The tiles and guests of every party. -/
def foldOwners (ss : List Section) (s : State) : State :=
  { s with parties := { s.parties with
    tileOwner := (List.range 64).foldl (fun m t => mset 0 m t (newOwner ss t)) [],
    guestOwner := (List.range 4).foldl (fun m n => mset 0 m n (newGuestOwner ss n)) [] } }

/-- Parties at T: those that end first, then the others, so that a joined tile is zeroed under its new party. -/
def foldParties (was : State) (ss : List Section) (s : State) : State :=
  let ps := List.range 16
  let ends := fun p => partyExists was p && !stands ss p
  let s := s.each (ps.filter ends) (foldParty was ss)
  foldOwners ss (s.each (ps.filter (fun p => !ends p)) (foldParty was ss))

/-! ### Ports, copper and guests (R424, R427, R439, R48) -/

/-- Role of a group of a bridge (R437, R438). -/
def groupRole (ss : List Section) (h g : Nat) : Nat :=
  if g < 2 && pcieEnabled ss h then 1
  else if (g = 7 || g = 8) && buddyEnabled ss && buddyBridge ss = h then 3
  else if (List.range 12).any (fun k =>
      let w := rackWord ss k
      bits w 0 1 = 1 && bits w 1 1 = h && bits w 2 4 = g) then 2
  else 0

/-- `HBG_HBh_ROLES` (R460). -/
def foldRoles (ss : List Section) (s : State) : State :=
  s.each (List.range 2) (fun h s => s.setReg (hbgA (0x100 + 4 * h))
    (BitVec.ofNat 32 ((List.range 9).foldl (fun w g => w + 4 ^ g * groupRole ss h g) 0)))

/-- A bridge whose host port loses its role takes it down (R439, R449). -/
def foldHosts (old ss : List Section) (s : State) : State :=
  s.each (List.range 2) (fun h s =>
    if pcieEnabled old h && !pcieEnabled ss h && s.field (hostA h 0) 0 1 = 1 then hostReset s (.linkDown (Fin.ofNat 2 h))
    else s)

/-- Bridge, first group and rate of a copper link. -/
def copperSeat (ss : List Section) (k : Nat) : Option (Nat × Nat × Nat) :=
  (copperLink? ss k).map (fun x => (x.1, x.2.1, x.2.2.1))

/-- Ports that leave the table go OFF, and copper links that leave it or move to other lanes (R424, R439, R455). -/
def stopOld (old ss : List Section) (s : State) : State :=
  let s := s.each (List.range 8) (fun n s => s.each (List.range 16) (fun p s =>
    if (s.lantern n).started && (portPeer old n p).isSome && (portPeer ss n p).isNone then stopPort s n p 0 else s))
  s.each (List.range 13) (fun k s =>
    if (copperSeat old k).isSome && copperSeat old k ≠ copperSeat ss k then stopCopper s k 0 else s)

/-- One port of a lantern that has had its start slot: it enters the table, or is named again (R424). -/
def startNewPort (old ss : List Section) (n p : Nat) (s : State) : State :=
  let x := s.port n p
  if (portPeer ss n p).isNone then s
  else if (portPeer old n p).isNone then startPort s n p 0
  else if x.phase = .absent || x.phase = .failed then startPort s n p 4
  else s

/-- One copper link at a fold after the first (R439, R455). -/
def startNewCopper (old ss : List Section) (k : Nat) (s : State) : State :=
  let x := s.copperPort k
  if (copperSeat ss k).isNone then s
  else if copperSeat old k ≠ copperSeat ss k then startCopper s k 0
  else if x.phase = .absent || x.phase = .failed then startCopper s k 4
  else s

/-- Ports and copper links that a fold after the first starts. -/
def startNew (old ss : List Section) (s : State) : State :=
  let s := s.each (List.range 8) (fun n s =>
    if (s.lantern n).started then s.each (List.range 16) (fun p s => startNewPort old ss n p s) else s)
  s.each (List.range 13) (fun k s => startNewCopper old ss k s)

/-- At F each copper link gets its training start (R439). -/
def planCopper (ss : List Section) (k : Nat) (s : State) : State :=
  match copperSeat ss k with
  | some (h, _, _) => s.setCopper k { s.copperPort k with start := some (s.now + 16000000 + 2000000 * h) }
  | none => s

/-- Guests that have done step 6 open their mainbands (R48, step 7). -/
def openGuests (s : State) : State :=
  s.each (List.range 4) (fun n s =>
    if (s.guest n).status = .staged then s.setGuest n { s.guest n with status := .inService, mainband := true } else s)

/-- Links that the fold starts; `old` is the itinerary before it. -/
def foldLinks (old ss : List Section) (first : Bool) (s : State) : State :=
  let s := foldHosts old ss (foldRoles ss s)
  openGuests (if first then s.each (List.range 13) (planCopper ss) else startNew old ss s)

/-! ### The instant (R487) -/

/-- The pending job key becomes current (R583). -/
def foldKey (s : State) : State :=
  { s with sec := { s.sec with jk := s.sec.jkPending.or s.sec.jk, jkPending := none } }

/-- The servo at a fold: ROOT is LOCKED, and silent candidates are named anew (R379). -/
def foldServo (first : Bool) (s : State) : State :=
  let v := s.rc.servo
  let v := if first then { v with last := s.now, choice := 0, told := [] } else { v with told := [] }
  let v := if isTimeRoot s && v.state = .unlocked then { v with state := .locked, offsets := [] } else v
  sendHeldFences { s with rc := { s.rc with servo := v } }

/-- The first fold completes start-up (R427, R625). -/
def firstFold (s : State) : State :=
  { s with power := { s.power with stage := 15, firstFold := some s.now } }

/-- The fold is recorded (R487, R508, R529). -/
def recordFold (s : State) (f : FoldPlan) : State :=
  let s := { s with itin := { s.itin with
    plan := none, force := f.sections, result := 1, reason := 0, count := s.itin.count + 1, active := f.sel,
    foldTime := BitVec.ofNat 64 f.instant, job := f.job, folded := true,
    bootFolded := if s.itin.folded then s.itin.bootFolded else f.boot,
    applied := if s.itin.folded then s.itin.applied else f.sections } }
  let s := post s 0x04 (srcDevice 2)
    (f.instant % 2 ^ 64 + 2 ^ 64 * s.itin.count.toNat + 2 ^ 80 * (s.itin.report.length % 2048))
  if f.boot then bootEvent s 1 0 else s

/-- The writes held while BUSY are performed in the order in which they arrived (R490). -/
def performHeld (s : State) : State :=
  let ws := s.itin.heldWrites
  ws.foldl (fun s w => regWrite s w.acc w.data) { s with itin := { s.itin with heldWrites := [] } }

/-- The plan takes effect. -/
def applyFold (s : State) (f : FoldPlan) : State :=
  let first := !s.itin.folded
  let old := s.itin.force
  let ss := f.sections
  let s' := foldTeams old ss (foldDevice ss s)
  let s' := s'.each (List.range 64) (foldTile ss)
  let s' := foldParties s ss s'
  let s' := recordFold (foldKey (if first then firstFold s' else stopOld old ss s')) f
  let s' := foldServo first (foldLinks old ss first s')
  performHeld (remeasure s' f.sel)

/-- FOLD_INSTANT (R487, R488): T. -/
def execFoldInstant (s : State) : Host.Outcome State Fault Refusal :=
  match s.itin.plan with
  | none => .next s
  | some f =>
    if !panelRuns s || s.power.stage < 9 then .next s
    else .next (applyFold (passToTime s f.instant) f)

end Sys2Proof.Machine
end

