-- ==== Sys2Proof/Machine/Mgmt.lean ====
section
/-! DEFINITION. The management endpoint: register-access messages, MCTP and I3C
(spec/11_copper_and_host.md R457 to R459, spec/13 R495, R500, spec/17 R626, R629). -/

namespace Sys2Proof.Machine

open Sys2Proof

/-! ### Register-access messages (R459) -/

/-- A normal completion as a completion code: 0, or 2 where an owner write was refused. -/
def asCode (s : State) : State :=
  match s.reply.status with
  | .code _ => s
  | _ => { s with reply := { s.reply with status := .code 0 } }

/-- READ32. -/
def msgRead (s : State) (m : Fin 4) (offset : Nat) : State :=
  if offset % 4 ≠ 0 then answer s (.code 3)
  else
    let (v, s) := readWord s { path := .msg m, off := offset }
    answer s (.code 0) [v]

/-- WRITE32. -/
def msgWrite (s : State) (m : Fin 4) (offset : Nat) (data : Word) : State :=
  if offset % 4 ≠ 0 then answer s (.code 3)
  else asCode (busWrite s { path := .msg m, off := offset } data)

/-- `n` words from consecutive offsets, in their order. -/
def readRun (m : Fin 4) : Nat → Nat → State → List Word × State
  | 0, _, s => ([], s)
  | n + 1, off, s =>
    let (v, s) := readWord s { path := .msg m, off }
    let (vs, s) := readRun m n (off + 4) s
    (v :: vs, s)

/-- READ_BLOCK of 1 to 16 words. -/
def msgBlock (s : State) (m : Fin 4) (offset count : Nat) : State :=
  if count = 0 ∨ 16 < count then answer s (.code 1)
  else if offset % 4 ≠ 0 then answer s (.code 3)
  else
    let (vs, s) := readRun m count offset s
    answer s (.code 0) vs

/-- The endpoint takes messages of the path (R457, R626): its firmware runs, and a host's messages come over a link. -/
def endpointUp (s : State) (m : Nat) : Bool := s.mgmt.up && masterPresent s m

/-- READ32 (R459). -/
def execRead32 (m : Fin 4) (offset : Nat) (s : State) : Host.Outcome State Fault Refusal :=
  if endpointUp s m.val then .next (msgRead s m offset) else .next s

/-- WRITE32 (R459, R496). -/
def execWrite32 (m : Fin 4) (offset : Nat) (data : Word) (s : State) : Host.Outcome State Fault Refusal :=
  if endpointUp s m.val then .next (msgWrite s m offset data) else .next s

/-- READ_BLOCK (R459). -/
def execReadBlock (m : Fin 4) (offset count : Nat) (s : State) : Host.Outcome State Fault Refusal :=
  if endpointUp s m.val then .next (msgBlock s m offset count) else .next s

/-- A reserved command byte, 0 or 4 to 255 (R459): completion 0x01. -/
def execRegAccessReserved (m : Fin 4) (command : Nat) (s : State) : Host.Outcome State Fault Refusal :=
  if endpointUp s m.val && !(1 ≤ command && command ≤ 3) then .next (answer s (.code 1)) else .next s

/-! ### PLDM sensors (R629) -/

/-- A temperature as a PLDM sensor gives it; nothing for a sensor that is lost or has no reading. -/
def sensorTemp (x : Sensor) : Option Nat := if x.lost then none else x.reading.map tenths

/-- The hottest valid reading of some dies. -/
def hotTemp (s : State) (ds : List Nat) : Option Nat := (hottest s ds).map (fun x => tenths x.1)

/-- A numeric sensor: absent, or its value when it has one. -/
def pldmSensor (s : State) (id : Nat) : Option (Option Nat) :=
  match id with
  | 0x01 => some (some s.power.volts)
  | 0x02 => some (some s.power.amps)
  | 0x03 => some (some (s.reg (pwrA 0x14)).toNat)
  | 0x04 => some (some (s.reg64 (pwrA 0x18) / 1000000))
  | 0x10 => some (sensorTemp (s.sensor (thermistorNo 0)))
  | 0x11 => some (sensorTemp (s.sensor (thermistorNo 1)))
  | 0x20 => some (hotTemp s (List.range 144))
  | 0x21 => some (hotTemp s ((List.range 8).map (144 + ·)))
  | 0x22 => some (hotTemp s [152, 153])
  | 0x30 => some (some (100 - 25 * throttleLevel s))
  | 0x31 => some (some (coreMHz s))
  | _ => none

/-! ### MCTP (R457, R458, R495, R500) -/

/-- The management master that sent a message: a host by its port, on I3C the service port by its EID. -/
def mctpMaster (s : State) (x : Mctp) : Fin 4 :=
  match x.binding with
  | .pcie h => ⟨h.val, Nat.lt_of_lt_of_le h.isLt (by decide)⟩
  | .i3c => if x.source = s.field 0x800C 8 8 then 3 else 2

/-- What the endpoint does with a message, or nothing for a type that it discards. What a FRU response holds the spec
does not say; it is shown as no words. -/
def mctpServe (s : State) (m : Fin 4) : MctpBody → Option State
  | .control (some eid) => some (answer { s with mgmt := { s.mgmt with eid } } .ok [BitVec.ofNat 32 eid])
  | .control none => some (answer s .ok [BitVec.ofNat 32 s.mgmt.eid])
  | .pldmSensor id =>
    (match pldmSensor s id with
      | some (some v) => some (answer s .ok [BitVec.ofNat 32 v])
      | some none => some (answer s .ok)
      | none => some (answer s .unsupported))
  | .pldmFru => some (answer s .ok)
  | .regRead off => some (msgRead s m off)
  | .regWrite off data => some (msgWrite s m off data)
  | .regBlock off n => some (msgBlock s m off n)
  | .regReserved c => some (if 1 ≤ c && c ≤ 3 then s else answer s (.code 1))
  | .spdm k => if spdmUp s (.msg m) then some (spdmServe s (.msg m) k) else none
  | .other _ => none

/-- The response leaves on its binding; on I3C an in-band interrupt announces it (R458). -/
def mctpReply (s : State) (x : Mctp) : State :=
  let s := s.emit (.mctp x.binding x.source s.reply.status s.reply.words)
  match x.binding with
  | .i3c => s.emit .ibi
  | .pcie _ => s

/-- MCTP_MESSAGE (R457 to R459, R495, R500): a message whose packet error code fails is discarded. -/
def execMctpMessage (msg : Mctp) (s : State) : Host.Outcome State Fault Refusal :=
  let m := mctpMaster s msg
  if !endpointUp s m.val || !msg.pecOk then .next s
  else
    match mctpServe s m msg.body with
    | some s => .next (mctpReply s msg)
    | none => .next s

/-! ### I3C (R458, R626) -/

/-- The panel's static address. -/
def staticAddress (s : State) : Nat := 0x50 + s.mgmt.aa

/-- I3C_CCC (R458): before 40 ms, for another static address, and for a code that it does not support, the panel does
not acknowledge. -/
def execI3cCcc (ccc : Ccc) (s : State) : Host.Outcome State Fault Refusal :=
  if !s.mgmt.up then .next (answer s .noAck)
  else
    match ccc with
    | .setdasa static_ dynamic =>
      if static_ = staticAddress s && s.mgmt.dynamic.isNone then
        .next (answer { s with mgmt := { s.mgmt with dynamic := some (dynamic % 128) } } .ok)
      else .next (answer s .noAck)
    | .entdaa dynamic =>
      if s.mgmt.dynamic.isNone then .next (answer { s with mgmt := { s.mgmt with dynamic := some (dynamic % 128) } } .ok)
      else .next (answer s .noAck)
    | .rstdaa => .next (answer { s with mgmt := { s.mgmt with dynamic := none } } .ok)
    | .setmrl n =>
      if s.mgmt.dynamic.isSome then .next (answer { s with mgmt := { s.mgmt with maxRead := min n 69 } } .ok)
      else .next (answer s .noAck)
    | .getmrl =>
      if s.mgmt.dynamic.isSome then .next (answer s .ok [BitVec.ofNat 32 s.mgmt.maxRead]) else .next (answer s .noAck)
    | .other _ => .next (answer s .noAck)

end Sys2Proof.Machine
end

