-- ==== Sys2Proof/Machine/RollCall.lean ====
section
/-! DEFINITION. The messages of the roll-call network: what a receiver does with each, and their repeats
(spec/09 R369, R371 to R373, R378). -/

namespace Sys2Proof.Machine

open Sys2Proof

/-! ### Combining (R371) -/

/-- A combined collective of this sequence has left this module's members behind. -/
def collPast (s : State) (m : RcMessage) : Bool :=
  let ts := teamTiles s m.party m.team
  let has := fun (t : Nat) =>
    ((s.coll t).running.toList ++ (s.coll t).next.toList).any (fun c => collTeam c.line = m.team && c.seq = m.seq)
  !ts.any has && ts.any (fun t => (mget 0 (s.coll t).seqs m.team + 65535 - m.seq) % 65536 < 32768)

/-- The operation that another module's partial joins; none when it repeats what has been combined. -/
def partialOp (s : State) (m : RcMessage) : Option (Nat × State) :=
  let k := 128 * m.stage + m.rank
  if m.op = 1 then
    let cands := s.rc.ops.filter (fun o => o.op = 1 && o.party = m.party)
    let lacks := fun (o : RcOp) => mget .none o.partials k = .none
    if cands.any (fun o => o.seq = m.seq && !lacks o) then none
    else if mget 0 s.rc.last m.party = m.seq + 1 then none
    else
      match (cands.find? (fun o => o.seq = m.seq)).or (cands.find? lacks) with
      | some o => some (o.id, s)
      | none => some (addOp s { party := m.party, op := 1, team := 63, seq := m.seq, job := true,
                                members := partyTiles s m.party })
  else
    let new : RcOp := { party := m.party, op := m.op, fmt := m.fmt, team := m.team, seq := m.seq,
                        members := teamTiles s m.party m.team }
    match s.rc.ops.find? (sameOp new) with
    | some o => some (o.id, s)
    | none => if collPast s m then none else some (addOp s new)

/-- A partial is combined (R371). -/
def takePartial (s : State) (m : RcMessage) : State :=
  if m.stage = 0 then s
  else
    match partialOp s m with
    | none => s
    | some (id, s) =>
      let k := 128 * m.stage + m.rank
      modOp s id (fun o => if mget .none o.partials k = .none then
        { o with partials := mset .none o.partials k (rcPayload m) } else o)

/-- The error with which an ABORT ends a collective: REMOTE (R369), but where its operation has already failed here, LINK
(R373), and where its digests are known to differ, ENCODING (R359). -/
def abortError (s : State) (t : Nat) (c : Coll) : Err :=
  match s.rc.ops.find? (sameOp (collRcOp s t c)) with
  | some o =>
    if o.failed then .link
    else
      match o.result with
      | some (.round dmin dmax _) => if dmin ≠ dmax then .encoding else .remote
      | _ => .remote
  | none => .remote

/-- An ABORT reaches this module's members (R369). -/
def takeAbort (s : State) (m : RcMessage) : State :=
  s.each (teamTiles s m.party m.team) (fun t s =>
    match ((s.coll t).running.toList ++ (s.coll t).next.toList).find? (fun c =>
        collTeam c.line = m.team && c.seq % 65536 = m.seq % 65536 && tileParty s t = m.party) with
    | some c => abortCommand s c.queue c.idx { err := abortError s t c } false
    | none => s)

/-- An ACK ends the repeats of the message whose header it repeats (R372). -/
def takeAck (s : State) (src : Nat) (m : RcMessage) : State :=
  match s.rc.unacked.find? (fun u => u.dest = src && rcHeader u.msg = (m.words.headD 0).toNat) with
  | some u =>
    let rest := s.rc.unacked.erase u
    { s with rc := { s.rc with unacked := rest } }
  | none => s

/-! ### Receipt (R372, R373) -/

/-- What an accepted message does. Every module computes the result itself, so a RESULT between modules changes
nothing. -/
def actRoll (s : State) (via : LinkPort) (src : Nat) (m : RcMessage) : State :=
  match m.kind with
  | 0 => takePartial s m
  | 2 => takeAbort s m
  | 3 => takeAck s src m
  | 4 => answerTime s src (quarterTime s)
  | 5 => takeTime s via src ((m.words.getD 0 0).toInt) ((m.words.getD 1 0).toInt) (quarterTime s)
  | _ => s

/-- A message from another module is checked, counted and acknowledged before it acts (R372). -/
def receiveMessage (s : State) (via : LinkPort) (src : Nat) (m : RcMessage) : State :=
  if badMessage s m then s.count32 0x7050 1 else actRoll (acceptRoll s src m) via src m

/-- ROLLCALL_MESSAGE (R371 to R373, R451): a message comes in by a port or copper link. One for another module goes on its way. -/
def execRollcallMessage (way : RcArrival) (msg : RcMessage) (s : State) : Host.Outcome State Fault Refusal :=
  if !linksAlive s || !wayOpen s way.via then .next s
  else if way.dest ≠ myModule s then .next (hopRoll s way.src way.dest msg)
  else .next (receiveMessage s way.via way.src msg)

/-- ROLLCALL_ABORT (R369): this module's own copy, which its roll-call network delivers, or one that comes in from another
module by a port or copper link. -/
def execRollcallAbort (via : Option (LinkPort × Nat)) (msg : RcMessage) (s : State) : Host.Outcome State Fault Refusal :=
  if !linksAlive s then .next s
  else
    match via with
    | none => .next (if badMessage s msg then s else takeAbort s msg)
    | some (w, src) =>
      if !wayOpen s w then .next s
      else .next (if badMessage s msg then s.count32 0x7050 1 else takeAbort (acceptRoll s src msg) msg)

/-! ### Repeats (R372, R373) -/

/-- A peer cannot be reached: the operations that need it fail (R373). Of a silent time source the servo's own rule tells
(R379). -/
def unreachable (s : State) (u : RcUnacked) : State :=
  if u.msg.kind = 4 || u.msg.kind = 5 then s
  else
    let s := post s 0x45 (srcDevice 4) u.dest
    if u.msg.kind ≠ 0 then s
    else
      match s.rc.ops.find? (fun o => o.party = u.msg.party && o.op = u.msg.op && o.team = u.msg.team &&
          o.seq = u.msg.seq) with
      | some o => modOp s o.id (fun o => { o with failed := o.result.isNone })
      | none => s

/-- A repeated time message bears the stamp of its own transmission (R378). -/
def restamp (s : State) (m : RcMessage) : RcMessage × State :=
  let now := quarterTime s
  if m.kind = 4 then
    (sealRoll { m with words := rcWords (.stamp now) },
      { s with rc := { s.rc with servo := { s.rc.servo with reqSent := s.rc.servo.reqSent.map (fun _ => now) } } })
  else if m.kind = 5 then (sealRoll { m with words := (m.words.take 1) ++ [BitVec.ofInt 64 now] }, s)
  else (m, s)

/-- ROLLCALL_REPEAT (R372, R373): the message whose 2 µs end next is repeated, up to three times. -/
def execRollcallRepeat (s : State) : Host.Outcome State Fault Refusal :=
  match s.rc.unacked with
  | [] => .next s
  | u0 :: us =>
    let u := us.foldl (fun (m : RcUnacked) x => if x.due < m.due then x else m) u0
    if !linksAlive s then .next s
    else
      let s := s.passTo u.due
      let rest := s.rc.unacked.erase u
      if u.repeats < 3 then
        let (m, s) := restamp s u.msg
        let again : RcUnacked := { msg := m, dest := u.dest, due := u.due + 2000, repeats := u.repeats + 1 }
        let s := { s with rc := { s.rc with unacked := rest ++ [again] } }
        .next ((hopRoll s (myModule s) u.dest m).count32 0x7054 1)
      else .next (unreachable { s with rc := { s.rc with unacked := rest } } u)

end Sys2Proof.Machine
end

