-- ==== Sys2Proof/Machine/Dispatch.lean ====
section
/-! DEFINITION. One arm per command: a call of its meaning. -/

namespace Sys2Proof.Machine

open Sys2Proof

/-- What a command does to everything but the queue. -/
def exec (i : Instr) (s : State) : Host.Outcome State Fault Refusal :=
  match i with
  | .registerWrite acc size data => Sys2Proof.Machine.execRegisterWrite acc size data s
  | .lowWordRead acc size => Sys2Proof.Machine.execLowWordRead acc size s
  | .powerGood aa => Sys2Proof.Machine.execPowerGood aa s
  | .startupStep => Sys2Proof.Machine.execStartupStep s
  | .rowMapRead => Sys2Proof.Machine.execRowMapRead s
  | .domainSwitchOn => Sys2Proof.Machine.execDomainSwitchOn s
  | .domainSwitchOff => Sys2Proof.Machine.execDomainSwitchOff s
  | .domainPowerGoodTimeout d => Sys2Proof.Machine.execDomainPowerGoodTimeout d s
  | .strandTrainStart l => Sys2Proof.Machine.execStrandTrainStart l s
  | .strandClockLockTimeout l locked => Sys2Proof.Machine.execStrandClockLockTimeout l locked s
  | .strandDeskewDone l eyes => Sys2Proof.Machine.execStrandDeskewDone l eyes s
  | .strandWireTestDone l errors => Sys2Proof.Machine.execStrandWireTestDone l errors s
  | .strandFrameReceive l far seq crcOk => Sys2Proof.Machine.execStrandFrameReceive l far seq crcOk s
  | .strandLinkDown l => Sys2Proof.Machine.execStrandLinkDown l s
  | .hamperTraining site failed => Sys2Proof.Machine.execHamperTraining site failed s
  | .guestBringupStart n => Sys2Proof.Machine.execGuestBringupStart n s
  | .guestResetRelease n => Sys2Proof.Machine.execGuestResetRelease n s
  | .guestTrainingDone n modules => Sys2Proof.Machine.execGuestTrainingDone n modules s
  | .guestProfileAnswer n words => Sys2Proof.Machine.execGuestProfileAnswer n words s
  | .guestConfirmAck n => Sys2Proof.Machine.execGuestConfirmAck n s
  | .guestStepTimeout n => Sys2Proof.Machine.execGuestStepTimeout n s
  | .guestEarlyPacket n => Sys2Proof.Machine.execGuestEarlyPacket n s
  | .guestLinkDown n => Sys2Proof.Machine.execGuestLinkDown n s
  | .guestPowerSample n power => Sys2Proof.Machine.execGuestPowerSample n power s
  | .renegotiate p guests => Sys2Proof.Machine.execRenegotiate p guests s
  | .takeDown p guests => Sys2Proof.Machine.execTakeDown p guests s
  | .nop g => Sys2Proof.Machine.execNop g s
  | .tallySet g => Sys2Proof.Machine.execTallySet g s
  | .setSeed g => Sys2Proof.Machine.execSetSeed g s
  | .regCopy g => Sys2Proof.Machine.execRegCopy g s
  | .guideCall g => Sys2Proof.Machine.execGuideCall g s
  | .taskBegin g => Sys2Proof.Machine.execTaskBegin g s
  | .taskEnd g => Sys2Proof.Machine.execTaskEnd g s
  | .phaseFence g => Sys2Proof.Machine.execPhaseFence g s
  | .vector v => Sys2Proof.Machine.execVector v s
  | .matrixPass g => Sys2Proof.Machine.execMatrixPass g s
  | .move g => Sys2Proof.Machine.execMove g s
  | .transpose g => Sys2Proof.Machine.execTranspose g s
  | .collective g => Sys2Proof.Machine.execCollective g s
  | .checkpoint g => Sys2Proof.Machine.execCheckpoint g s
  | .restore r => Sys2Proof.Machine.execRestore r s
  | .logbook r => Sys2Proof.Machine.execLogbook r s
  | .reservedOpcode g => Sys2Proof.Machine.execReservedOpcode g s
  | .commandComplete g idx => Sys2Proof.Machine.execCommandComplete g idx s
  | .fetchAhead g => Sys2Proof.Machine.execFetchAhead g s
  | .taskAbort g idx e => Sys2Proof.Machine.execTaskAbort g idx e s
  | .abortQuiesced g => Sys2Proof.Machine.execAbortQuiesced g s
  | .doorbellWrite p g v => Sys2Proof.Machine.execDoorbellWrite p g v s
  | .queueRingWrite p g v => Sys2Proof.Machine.execQueueRingWrite p g v s
  | .queueCtrlWrite p g v => Sys2Proof.Machine.execQueueCtrlWrite p g v s
  | .queueAbort p g => Sys2Proof.Machine.execQueueAbort p g s
  | .tallyValueWrite p k v => Sys2Proof.Machine.execTallyValueWrite p k v s
  | .tallyAddWrite p k v => Sys2Proof.Machine.execTallyAddWrite p k v s
  | .stallTimeout g => Sys2Proof.Machine.execStallTimeout g s
  | .guideAnswer t core status results => Sys2Proof.Machine.execGuideAnswer t core status results s
  | .guideCallTimeout t core => Sys2Proof.Machine.execGuideCallTimeout t core s
  | .guideMailboxGo p t => Sys2Proof.Machine.execGuideMailboxGo p t s
  | .passFirstBroadcast t e cycles => Sys2Proof.Machine.execPassFirstBroadcast t e cycles s
  | .stationaryLoadStart t e => Sys2Proof.Machine.execStationaryLoadStart t e s
  | .movingDataArrival t e rows => Sys2Proof.Machine.execMovingDataArrival t e rows s
  | .passSumArrival t e vectors cycles => Sys2Proof.Machine.execPassSumArrival t e vectors cycles s
  | .passComplete t e => Sys2Proof.Machine.execPassComplete t e s
  | .engineWindowExpired t u => Sys2Proof.Machine.execEngineWindowExpired t u s
  | .engineRampStep t u => Sys2Proof.Machine.execEngineRampStep t u s
  | .meFold p t => Sys2Proof.Machine.execMeFold p t s
  | .bankFillDone t b => Sys2Proof.Machine.execBankFillDone t b s
  | .drainStart t e => Sys2Proof.Machine.execDrainStart t e s
  | .drainLastRead t e => Sys2Proof.Machine.execDrainLastRead t e s
  | .drainComplete t e => Sys2Proof.Machine.execDrainComplete t e s
  | .bankZeroExpired t b => Sys2Proof.Machine.execBankZeroExpired t b s
  | .tasterRecompute t => Sys2Proof.Machine.execTasterRecompute t s
  | .tasterSampleRecord t => Sys2Proof.Machine.execTasterSampleRecord t s
  | .watchClear p t w => Sys2Proof.Machine.execWatchClear p t w s
  | .tasteFold p t => Sys2Proof.Machine.execTasteFold p t s
  | .hamperBurst t c arrivals errors retries => Sys2Proof.Machine.execHamperBurst t c arrivals errors retries s
  | .agedRequest t c => Sys2Proof.Machine.execAgedRequest t c s
  | .scrubUnit t place errors => Sys2Proof.Machine.execScrubUnit t place errors s
  | .zeroingStep t paces => Sys2Proof.Machine.execZeroingStep t paces s
  | .zeroingFrontPass t => Sys2Proof.Machine.execZeroingFrontPass t s
  | .memFold p t => Sys2Proof.Machine.execMemFold p t s
  | .stashHwmClear p t => Sys2Proof.Machine.execStashHwmClear p t s
  | .memErrAddrClear p t => Sys2Proof.Machine.execMemErrAddrClear p t s
  | .moveChunk t m => Sys2Proof.Machine.execMoveChunk t m s
  | .exchangeBlock t => Sys2Proof.Machine.execExchangeBlock t s
  | .routerPacketReceive t port arriving => Sys2Proof.Machine.execRouterPacketReceive t port arriving s
  | .packetEscape t port vc => Sys2Proof.Machine.execPacketEscape t port vc s
  | .writePacket ep => Sys2Proof.Machine.execWritePacket ep s
  | .writeAccPacket ep => Sys2Proof.Machine.execWriteAccPacket ep s
  | .readReq ep => Sys2Proof.Machine.execReadReq ep s
  | .readResp ep => Sys2Proof.Machine.execReadResp ep s
  | .signal ep => Sys2Proof.Machine.execSignal ep s
  | .ack ep => Sys2Proof.Machine.execAck ep s
  | .nack ep => Sys2Proof.Machine.execNack ep s
  | .ackTimeout ep => Sys2Proof.Machine.execAckTimeout ep s
  | .packetAgeCheck t => Sys2Proof.Machine.execPacketAgeCheck t s
  | .ccRateIncrease ep key => Sys2Proof.Machine.execCcRateIncrease ep key s
  | .fabFold p t => Sys2Proof.Machine.execFabFold p t s
  | .linkFrameReceive l f => Sys2Proof.Machine.execLinkFrameReceive l f s
  | .interModuleLinkDown l => Sys2Proof.Machine.execInterModuleLinkDown l s
  | .openRoundResult t => Sys2Proof.Machine.execOpenRoundResult t s
  | .collectiveChunkStep t chunk step => Sys2Proof.Machine.execCollectiveChunkStep t chunk step s
  | .collectiveTimeout t => Sys2Proof.Machine.execCollectiveTimeout t s
  | .rollcallMessage way msg => Sys2Proof.Machine.execRollcallMessage way msg s
  | .rollcallAbort via msg => Sys2Proof.Machine.execRollcallAbort via msg s
  | .rollcallRepeat => Sys2Proof.Machine.execRollcallRepeat s
  | .fenceResult t => Sys2Proof.Machine.execFenceResult t s
  | .fenceInstant t => Sys2Proof.Machine.execFenceInstant t s
  | .timeReq request => Sys2Proof.Machine.execTimeReq request s
  | .timeResp via src t2 t3 t4 => Sys2Proof.Machine.execTimeResp via src t2 t3 t4 s
  | .timeExchangeTimeout => Sys2Proof.Machine.execTimeExchangeTimeout s
  | .timeSet p hi => Sys2Proof.Machine.execTimeSet p hi s
  | .lanternStart n => Sys2Proof.Machine.execLanternStart n s
  | .stileTrimDone n plane good => Sys2Proof.Machine.execStileTrimDone n plane good s
  | .stileRetrim p n planes => Sys2Proof.Machine.execStileRetrim p n planes s
  | .stileMoveStart n m => Sys2Proof.Machine.execStileMoveStart n m s
  | .stileMoveCheck n m good => Sys2Proof.Machine.execStileMoveCheck n m good s
  | .linkLit n m => Sys2Proof.Machine.execLinkLit n m s
  | .linkDrained l => Sys2Proof.Machine.execLinkDrained l s
  | .rotationSlot n => Sys2Proof.Machine.execRotationSlot n s
  | .bundleLockTimeout n m => Sys2Proof.Machine.execBundleLockTimeout n m s
  | .ringHeaterUpdate n readings => Sys2Proof.Machine.execRingHeaterUpdate n readings s
  | .driftUpdate n m distances => Sys2Proof.Machine.execDriftUpdate n m distances s
  | .calibrationStart n m => Sys2Proof.Machine.execCalibrationStart n m s
  | .calibrationStop n m => Sys2Proof.Machine.execCalibrationStop n m s
  | .calibrationDone n m targets => Sys2Proof.Machine.execCalibrationDone n m targets s
  | .calUrgent n m => Sys2Proof.Machine.execCalUrgent n m s
  | .lanFold p n => Sys2Proof.Machine.execLanFold p n s
  | .probeBurst n port => Sys2Proof.Machine.execProbeBurst n port s
  | .portLightReceived n port power => Sys2Proof.Machine.execPortLightReceived n port power s
  | .identitySend n port => Sys2Proof.Machine.execIdentitySend n port s
  | .portIdentity n port identity => Sys2Proof.Machine.execPortIdentity n port identity s
  | .portAttemptTimeout n port => Sys2Proof.Machine.execPortAttemptTimeout n port s
  | .portLossOfLight n port => Sys2Proof.Machine.execPortLossOfLight n port s
  | .portRetrain p n ports => Sys2Proof.Machine.execPortRetrain p n ports s
  | .keyOffer c offer => Sys2Proof.Machine.execKeyOffer c offer s
  | .keyConfirm c tag => Sys2Proof.Machine.execKeyConfirm c tag s
  | .configRequest f reg write => Sys2Proof.Machine.execConfigRequest f reg write s
  | .hostWriteTlp f offset bytes => Sys2Proof.Machine.execHostWriteTlp f offset bytes s
  | .lineBufferTimeout f line => Sys2Proof.Machine.execLineBufferTimeout f line s
  | .hostReadTlp f offset length => Sys2Proof.Machine.execHostReadTlp f offset length s
  | .hostPortReset event => Sys2Proof.Machine.execHostPortReset event s
  | .copperTrainStart k => Sys2Proof.Machine.execCopperTrainStart k s
  | .copperLanesLocked k => Sys2Proof.Machine.execCopperLanesLocked k s
  | .copperIdentity k identity => Sys2Proof.Machine.execCopperIdentity k identity s
  | .copperAttemptTimeout k => Sys2Proof.Machine.execCopperAttemptTimeout k s
  | .copperRetrain p links => Sys2Proof.Machine.execCopperRetrain p links s
  | .mctpMessage msg => Sys2Proof.Machine.execMctpMessage msg s
  | .i3cCcc ccc => Sys2Proof.Machine.execI3cCcc ccc s
  | .read32 m offset => Sys2Proof.Machine.execRead32 m offset s
  | .write32 m offset data => Sys2Proof.Machine.execWrite32 m offset data s
  | .readBlock m offset count => Sys2Proof.Machine.execReadBlock m offset count s
  | .regAccessReserved m command => Sys2Proof.Machine.execRegAccessReserved m command s
  | .itinStoreWrite p offset data => Sys2Proof.Machine.execItinStoreWrite p offset data s
  | .verify p slot => Sys2Proof.Machine.execVerify p slot s
  | .itinVerifyDone => Sys2Proof.Machine.execItinVerifyDone s
  | .save p => Sys2Proof.Machine.execSave p s
  | .itinSaveDone => Sys2Proof.Machine.execItinSaveDone s
  | .foldGo p => Sys2Proof.Machine.execFoldGo p s
  | .foldInstant => Sys2Proof.Machine.execFoldInstant s
  | .bootFold => Sys2Proof.Machine.execBootFold s
  | .claim p => Sys2Proof.Machine.execClaim p s
  | .keep p => Sys2Proof.Machine.execKeep p s
  | .release p => Sys2Proof.Machine.execRelease p s
  | .handover p target => Sys2Proof.Machine.execHandover p target s
  | .accept p => Sys2Proof.Machine.execAccept p s
  | .depose p => Sys2Proof.Machine.execDepose p s
  | .leaseExpiry => Sys2Proof.Machine.execLeaseExpiry s
  | .handoverTimeout => Sys2Proof.Machine.execHandoverTimeout s
  | .partyResetRequest p party => Sys2Proof.Machine.execPartyResetRequest p party s
  | .partyResetWaitExpiry party => Sys2Proof.Machine.execPartyResetWaitExpiry party s
  | .partyReset party => Sys2Proof.Machine.execPartyReset party s
  | .partyResetDone party => Sys2Proof.Machine.execPartyResetDone party s
  | .partyZeroingDone party => Sys2Proof.Machine.execPartyZeroingDone party s
  | .eventCommit e => Sys2Proof.Machine.execEventCommit e s
  | .recordWrite ring => Sys2Proof.Machine.execRecordWrite ring s
  | .moderationTimeout ring => Sys2Proof.Machine.execModerationTimeout ring s
  | .ringEnable p ring => Sys2Proof.Machine.execRingEnable p ring s
  | .consumerWrite p ring v => Sys2Proof.Machine.execConsumerWrite p ring v s
  | .idle p ring => Sys2Proof.Machine.execIdle p ring s
  | .producerRead p ring => Sys2Proof.Machine.execProducerRead p ring s
  | .nbComplete p ring v => Sys2Proof.Machine.execNbComplete p ring v s
  | .maskWrite p ring k v => Sys2Proof.Machine.execMaskWrite p ring k v s
  | .unmaskResample ring cls => Sys2Proof.Machine.execUnmaskResample ring cls s
  | .globalHold p hold => Sys2Proof.Machine.execGlobalHold p hold s
  | .weatherWindow place => Sys2Proof.Machine.execWeatherWindow place s
  | .selfCheckpointStart party => Sys2Proof.Machine.execSelfCheckpointStart party s
  | .selfWaitTimeout party => Sys2Proof.Machine.execSelfWaitTimeout party s
  | .selfCheckpointDone party => Sys2Proof.Machine.execSelfCheckpointDone party s
  | .sealAccept party => Sys2Proof.Machine.execSealAccept party s
  | .sealProgrammed party => Sys2Proof.Machine.execSealProgrammed party s
  | .rucksackProgramDone g idx retired => Sys2Proof.Machine.execRucksackProgramDone g idx retired s
  | .rucksackMount h => Sys2Proof.Machine.execRucksackMount h s
  | .exportImage p h => Sys2Proof.Machine.execExportImage p h s
  | .importImage p h => Sys2Proof.Machine.execImportImage p h s
  | .rkTransferDone h x => Sys2Proof.Machine.execRkTransferDone h x s
  | .mirrorEnable p t w v => Sys2Proof.Machine.execMirrorEnable p t w v s
  | .mirrorFillLine t w => Sys2Proof.Machine.execMirrorFillLine t w s
  | .mirrorFillDone t w => Sys2Proof.Machine.execMirrorFillDone t w s
  | .resync p t w => Sys2Proof.Machine.execResync p t w s
  | .commit p t w => Sys2Proof.Machine.execCommit p t w s
  | .mirrorFillIdleTimeout t w => Sys2Proof.Machine.execMirrorFillIdleTimeout t w s
  | .retireGo p row col => Sys2Proof.Machine.execRetireGo p row col s
  | .retireBlowDone taken => Sys2Proof.Machine.execRetireBlowDone taken s
  | .safeStateEntry cause block0 block1 extra => Sys2Proof.Machine.execSafeStateEntry cause block0 block1 extra s
  | .safeStateStage => Sys2Proof.Machine.execSafeStateStage s
  | .enter p => Sys2Proof.Machine.execEnter p s
  | .restart p => Sys2Proof.Machine.execRestart p s
  | .securitySelftest h good => Sys2Proof.Machine.execSecuritySelftest h good s
  | .entropyHealthFail h => Sys2Proof.Machine.execEntropyHealthFail h s
  | .bootVerify image signed svn => Sys2Proof.Machine.execBootVerify image signed svn s
  | .spdmRequest p kind => Sys2Proof.Machine.execSpdmRequest p kind s
  | .provisionAnchor session anchor => Sys2Proof.Machine.execProvisionAnchor session anchor s
  | .loadItinKey session slot key => Sys2Proof.Machine.execLoadItinKey session slot key s
  | .revokeItinKey session slot => Sys2Proof.Machine.execRevokeItinKey session slot s
  | .loadJobKey session key => Sys2Proof.Machine.execLoadJobKey session key s
  | .advanceSvn session => Sys2Proof.Machine.execAdvanceSvn session s
  | .zeroize session => Sys2Proof.Machine.execZeroize session s
  | .debugUnlock session token => Sys2Proof.Machine.execDebugUnlock session token s
  | .securityHandover => Sys2Proof.Machine.execSecurityHandover s
  | .ideStateChange f secure => Sys2Proof.Machine.execIdeStateChange f secure s
  | .pwrFold p => Sys2Proof.Machine.execPwrFold p s
  | .operatingPointTileChange t => Sys2Proof.Machine.execOperatingPointTileChange t s
  | .tilPwrFold p t => Sys2Proof.Machine.execTilPwrFold p t s
  | .slewSample t compute hamper => Sys2Proof.Machine.execSlewSample t compute hamper s
  | .thermistorConversion sensor microamps reading => Sys2Proof.Machine.execThermistorConversion sensor microamps reading s
  | .dieSensorSample sensor reading referenceOk => Sys2Proof.Machine.execDieSensorSample sensor reading referenceOk s
  | .throttleStep cause reading => Sys2Proof.Machine.execThrottleStep cause reading s
  | .supplySample window volts amps => Sys2Proof.Machine.execSupplySample window volts amps s
  | .clockFault d => Sys2Proof.Machine.execClockFault d s
  | .shutdownGo p => Sys2Proof.Machine.execShutdownGo p s
  | .shutdownStage => Sys2Proof.Machine.execShutdownStage s
  | .modRstNLow => Sys2Proof.Machine.execModRstNLow s
  | .inputLoss => Sys2Proof.Machine.execInputLoss s
  | .idcode die => Sys2Proof.Machine.execIdcode die s
  | .strapRead die => Sys2Proof.Machine.execStrapRead die s
  | .bypass die => Sys2Proof.Machine.execBypass die s
  | .samplePreload die pins preload => Sys2Proof.Machine.execSamplePreload die pins preload s
  | .extest die pins => Sys2Proof.Machine.execExtest die pins s
  | .domainPowerGood d => Sys2Proof.Machine.execDomainPowerGood d s
  | .hostLinkUp h speed width => Sys2Proof.Machine.execHostLinkUp h speed width s
  | .openRoundHoldoffExpiry t team => Sys2Proof.Machine.execOpenRoundHoldoffExpiry t team s

end Sys2Proof.Machine
end

