-- ==== Sys2Proof/Safety.lean ====
section
/-! DEFINITION. What claims are stated with: outcomes that are a next state, the fields of the state and which of them
a command may change, the state's own rules, and the fuses. -/

namespace Sys2Proof.Machine

open Sys2Proof

/-- The outcome is the next state `t`. -/
def Goes (o : Host.Outcome State Fault Refusal) (t : State) : Prop := o = .next t

/-- The outcome is some next state with a property. -/
def GoesTo (o : Host.Outcome State Fault Refusal) (p : State → Prop) : Prop := ∃ t, o = .next t ∧ p t

/-! ### Frames -/

/-- The fields of the state. -/
inductive StateField where
  | pending | now | time | draws | reply | out | regs | staged | rlatch | wlatch | nb | fns | itin | lead
  | parties | queues | tallies | mem | poison | badLine | cache | channels | tiles | engines | banks | drains
  | movers | panel | fabric | colls | rc | lanterns | copper | hosts | mgmt | rk | staging | mirrors | weather
  | safe | sec | power | taps
deriving DecidableEq, Repr

/-- A field's place in the state, counted from 0. -/
def StateField.idx : StateField → Nat
  | .pending => 0 | .now => 1 | .time => 2 | .draws => 3 | .reply => 4 | .out => 5 | .regs => 6 | .staged => 7
  | .rlatch => 8 | .wlatch => 9 | .nb => 10 | .fns => 11 | .itin => 12 | .lead => 13 | .parties => 14
  | .queues => 15 | .tallies => 16 | .mem => 17 | .poison => 18 | .badLine => 19 | .cache => 20
  | .channels => 21 | .tiles => 22 | .engines => 23 | .banks => 24 | .drains => 25 | .movers => 26
  | .panel => 27 | .fabric => 28 | .colls => 29 | .rc => 30 | .lanterns => 31 | .copper => 32 | .hosts => 33
  | .mgmt => 34 | .rk => 35 | .staging => 36 | .mirrors => 37 | .weather => 38 | .safe => 39 | .sec => 40
  | .power => 41 | .taps => 42

/-- The field has the same value in both states. -/
def StateField.same (f : StateField) (s t : State) : Prop :=
  match f with
  | .pending => t.pending = s.pending
  | .now => t.now = s.now
  | .time => t.time = s.time
  | .draws => t.draws = s.draws
  | .reply => t.reply = s.reply
  | .out => t.out = s.out
  | .regs => t.regs = s.regs
  | .staged => t.staged = s.staged
  | .rlatch => t.rlatch = s.rlatch
  | .wlatch => t.wlatch = s.wlatch
  | .nb => t.nb = s.nb
  | .fns => t.fns = s.fns
  | .itin => t.itin = s.itin
  | .lead => t.lead = s.lead
  | .parties => t.parties = s.parties
  | .queues => t.queues = s.queues
  | .tallies => t.tallies = s.tallies
  | .mem => t.mem = s.mem
  | .poison => t.poison = s.poison
  | .badLine => t.badLine = s.badLine
  | .cache => t.cache = s.cache
  | .channels => t.channels = s.channels
  | .tiles => t.tiles = s.tiles
  | .engines => t.engines = s.engines
  | .banks => t.banks = s.banks
  | .drains => t.drains = s.drains
  | .movers => t.movers = s.movers
  | .panel => t.panel = s.panel
  | .fabric => t.fabric = s.fabric
  | .colls => t.colls = s.colls
  | .rc => t.rc = s.rc
  | .lanterns => t.lanterns = s.lanterns
  | .copper => t.copper = s.copper
  | .hosts => t.hosts = s.hosts
  | .mgmt => t.mgmt = s.mgmt
  | .rk => t.rk = s.rk
  | .staging => t.staging = s.staging
  | .mirrors => t.mirrors = s.mirrors
  | .weather => t.weather = s.weather
  | .safe => t.safe = s.safe
  | .sec => t.sec = s.sec
  | .power => t.power = s.power
  | .taps => t.taps = s.taps

/-- Every field outside the list has the same value in both states. -/
def SameBut (fs : List StateField) (s t : State) : Prop := ∀ f : StateField, f ∉ fs → f.same s t

/-! ### What a command may change -/

namespace StateField

/-- The fields. -/
def all : List StateField :=
  [.pending, .now, .time, .draws, .reply, .out, .regs, .staged, .rlatch, .wlatch, .nb, .fns, .itin, .lead, .parties,
   .queues, .tallies, .mem, .poison, .badLine, .cache, .channels, .tiles, .engines, .banks, .drains, .movers, .panel,
   .fabric, .colls, .rc, .lanterns, .copper, .hosts, .mgmt, .rk, .staging, .mirrors, .weather, .safe, .sec, .power,
   .taps]

/-- Every field outside a list. -/
def allBut (fs : List StateField) : List StateField := all.filter (fun f => f ∉ fs)

/-- What aborting a task may change. -/
def aborting : List StateField := [.draws, .nb, .regs, .out, .queues, .tiles, .engines, .banks, .drains, .movers, .fabric, .colls, .rc, .rk,
  .poison, .badLine]

/-- What completing a command may change. -/
def completing : List StateField := [.draws, .nb, .regs, .out, .queues, .tallies, .tiles, .movers, .fabric, .colls, .rc]

/-- The tile memories, with the marks of their lines. -/
def storing : List StateField := [.mem, .poison, .badLine]

/-- What reading a tile's memory may change: the cache, the channels' directions, and what the checks found. -/
def reading : List StateField := [.cache, .channels, .poison, .badLine]

/-- What the passing of time changes. -/
def timed : List StateField := [.now, .time, .rc]

/-- What a write that only the leader may make can change beside its own effect. -/
def owned : List StateField := [.reply, .itin, .draws, .nb, .regs]

/-- What a notice posted, or an error counted, changes. -/
def noting : List StateField := [.draws, .nb, .regs]

end StateField

open StateField in
/-- The fields that a command may change, whatever the state; every other field keeps its value. Each row follows from
the rules of the command's meaning (Machine/). -/
def footprint : Instr → List StateField
  | .registerWrite .. | .write32 .. => allBut [.pending, .now, .rlatch, .mgmt, .staging, .taps]
  | .lowWordRead .. | .read32 .. | .readBlock .. => [.draws, .reply, .out, .rlatch, .nb, .fns]
  | .powerGood .. => [.draws, .out, .panel, .mgmt, .sec, .power]
  | .startupStep => timed ++ noting ++ [.out, .tiles, .mgmt, .safe, .power]
  | .rowMapRead | .strandTrainStart .. | .strandWireTestDone .. => noting ++ [.out, .panel, .safe]
  | .domainSwitchOn => timed ++ [.power]
  | .domainSwitchOff => storing ++ timed ++ [.tiles, .panel, .power]
  | .domainPowerGoodTimeout .. => timed ++ noting ++ [.out, .panel, .safe, .power]
  | .strandClockLockTimeout .. | .guestResetRelease .. => timed ++ [.panel]
  | .strandDeskewDone .. => [.panel]
  | .strandFrameReceive .. | .strandLinkDown .. => noting ++ [.out, .panel, .fabric, .lanterns, .copper, .mirrors,
      .safe]
  | .hamperTraining .. => noting ++ [.out, .tiles, .panel, .safe]
  | .guestBringupStart .. => [.regs, .panel, .power]
  | .domainPowerGood .. => [.panel, .power]
  | .guestTrainingDone .. | .guestProfileAnswer .. => noting ++ [.out, .panel, .power]
  | .guestConfirmAck .. => [.regs, .panel]
  | .guestStepTimeout .. => timed ++ noting ++ [.panel, .power]
  | .guestEarlyPacket .. => noting ++ [.panel, .power]
  | .guestLinkDown .. | .guestPowerSample .. => noting ++ [.panel, .fabric, .power]
  | .renegotiate .. | .takeDown .. => owned ++ [.panel, .fabric, .power]
  | .nop .. | .tallySet .. | .setSeed .. | .guideCall .. | .taskBegin .. | .taskEnd .. | .matrixPass .. | .move ..
      | .transpose .. | .collective .. | .checkpoint .. | .reservedOpcode .. | .sealAccept .. => aborting ++ reading ++
      [.tallies]
  | .regCopy .. | .vector .. | .restore .. | .logbook .. | .guideAnswer .. | .moveChunk .. | .openRoundResult .. |
      .collectiveChunkStep .. => aborting ++ storing ++ reading ++ [.tallies, .mirrors]
  | .phaseFence .. => aborting ++ [.tallies, .cache, .lanterns]
  | .commandComplete .. => aborting ++ storing ++ reading ++ [.tallies, .mirrors]
  | .fetchAhead .. => noting ++ reading ++ [.queues, .fabric]
  | .taskAbort .. | .stationaryLoadStart .. | .movingDataArrival .. | .exchangeBlock .. |
      .rollcallAbort .. => aborting ++ reading
  | .rollcallMessage .. => aborting ++ reading ++ [.time]
  | .abortQuiesced .. => noting ++ [.queues, .tallies, .fabric]
  | .doorbellWrite .. | .tallyValueWrite .. | .tallyAddWrite .. => owned ++ [.queues, .tallies, .cache, .poison, .badLine, .hosts]
  | .queueRingWrite .. => owned ++ [.queues, .engines]
  | .queueCtrlWrite .. => owned ++ [.queues, .cache, .poison, .badLine]
  | .queueAbort .. => aborting ++ [.reply, .itin, .cache]
  | .stallTimeout .. => timed ++ noting ++ [.queues]
  | .guideCallTimeout .. => aborting ++ timed ++ [.tallies, .cache]
  | .guideMailboxGo .. => owned ++ [.staged, .tiles]
  | .passFirstBroadcast .. => [.regs, .engines]
  | .passSumArrival .. => [.draws, .regs, .tiles, .engines, .banks, .drains]
  | .passComplete .. => completing ++ [.engines, .banks, .drains]
  | .engineWindowExpired .. | .engineRampStep .. => [.regs, .tiles, .engines]
  | .meFold .. | .tasteFold .. | .lanFold .. | .tilPwrFold .. => owned ++ [.staged]
  | .bankFillDone .. | .drainStart .. | .bankZeroExpired .. => [.engines, .banks, .drains]
  | .drainLastRead .. => aborting ++ storing ++ reading ++ [.mirrors]
  | .drainComplete .. => [.regs, .engines, .drains]
  | .tasterRecompute .. => noting ++ reading ++ [.tiles, .engines, .banks, .drains]
  | .tasterSampleRecord .. => noting ++ [.tiles, .engines, .banks, .drains]
  | .watchClear .. | .stashHwmClear .. | .memErrAddrClear .. | .itinStoreWrite .. | .verify .. | .save .. |
      .foldGo .. | .consumerWrite .. | .nbComplete .. | .maskWrite .. => owned
  | .hamperBurst .. => aborting ++ storing ++ reading ++ [.tallies, .mirrors, .safe]
  | .agedRequest .. => [.channels]
  | .scrubUnit .. => noting ++ [.poison, .badLine, .channels, .tiles]
  | .zeroingStep .. => storing ++ timed ++ [.regs, .tiles]
  | .zeroingFrontPass .. => completing ++ storing ++ reading ++ [.mirrors]
  | .memFold .. => storing ++ owned ++ [.staged, .cache, .tiles, .queues]
  | .routerPacketReceive .. => timed ++ noting ++ [.out, .fabric]
  | .packetEscape .. => timed ++ [.regs, .fabric]
  | .writePacket .. | .writeAccPacket .. | .readReq .. | .signal .. => completing ++ storing ++ reading ++ [.staging,
      .mirrors]
  | .readResp .. => aborting ++ [.cache, .hosts]
  | .ack .. => noting ++ [.out, .queues, .tallies, .cache, .poison, .badLine, .fabric, .colls, .hosts]
  | .nack .. => aborting ++ [.tallies, .cache, .hosts, .mirrors]
  | .ackTimeout .. => aborting ++ timed ++ [.tallies, .cache, .hosts, .mirrors]
  | .packetAgeCheck .. => noting ++ [.fabric]
  | .ccRateIncrease .. => timed ++ [.fabric]
  | .fabFold .. => owned ++ [.staged, .fabric]
  | .linkFrameReceive .. => noting ++ [.out, .fabric, .lanterns, .copper, .mirrors]
  | .interModuleLinkDown .. => noting ++ [.fabric, .copper, .mirrors]
  | .collectiveTimeout .. => aborting ++ timed ++ [.cache]
  | .rollcallRepeat => timed ++ noting ++ [.out, .tiles]
  | .fenceResult .. => aborting ++ [.itin, .tallies, .cache, .lanterns, .copper]
  | .fenceInstant .. => completing ++ timed ++ [.copper, .rk]
  | .timeReq .. => [.out, .regs, .rc]
  | .timeResp .. => noting ++ [.time, .out, .tiles, .rc]
  | .timeExchangeTimeout | .unmaskResample .. => timed ++ [.draws, .nb]
  | .timeSet .. => owned ++ [.time, .wlatch, .rc]
  | .lanternStart .. | .calibrationStart .. => timed ++ [.lanterns]
  | .stileTrimDone .. => timed ++ [.regs, .lanterns]
  | .stileRetrim .. | .portRetrain .. => owned ++ [.lanterns]
  | .stileMoveStart .. => timed ++ noting ++ [.fabric, .lanterns]
  | .rotationSlot .. => timed ++ [.regs, .fabric, .lanterns]
  | .stileMoveCheck .. | .portLossOfLight .. | .keyConfirm .. => noting ++ [.fabric, .lanterns, .copper, .mirrors]
  | .linkLit .. => timed ++ [.out, .fabric, .lanterns]
  | .linkDrained .. => timed ++ [.fabric, .copper]
  | .bundleLockTimeout .. => timed ++ noting ++ [.fabric, .lanterns, .copper, .mirrors]
  | .ringHeaterUpdate .. => [.draws, .regs, .lanterns]
  | .driftUpdate .. => [.draws, .nb, .lanterns]
  | .calibrationStop .. => [.regs, .lanterns]
  | .calibrationDone .. => timed ++ [.draws, .regs, .lanterns]
  | .calUrgent .. => timed ++ [.draws, .nb, .lanterns]
  | .probeBurst .. | .identitySend .. => [.out]
  | .portLightReceived .. => [.out, .regs, .lanterns]
  | .portIdentity .. | .copperIdentity .. => [.draws, .out, .nb, .lanterns, .copper]
  | .portAttemptTimeout .. | .copperAttemptTimeout .. => timed ++ [.draws, .nb, .lanterns, .copper]
  | .keyOffer .. => noting ++ [.out, .fabric, .lanterns, .copper, .mirrors]
  | .configRequest .. => [.reply, .out, .nb, .fns]
  | .hostWriteTlp .. => noting ++ [.reply, .fabric, .hosts]
  | .lineBufferTimeout .. => timed ++ noting ++ [.hosts]
  | .hostReadTlp .. => noting ++ [.out, .poison, .badLine, .fabric, .hosts]
  | .hostPortReset .. => noting ++ [.fns, .lead, .hosts, .sec]
  | .copperTrainStart .. => timed ++ [.copper]
  | .copperLanesLocked .. => [.out, .copper]
  | .copperRetrain .. => owned ++ [.copper]
  | .mctpMessage .. => allBut [.pending, .now, .staging, .taps]
  | .i3cCcc .. => [.reply, .mgmt]
  | .regAccessReserved .. => [.reply]
  | .itinVerifyDone => [.itin]
  | .itinSaveDone => [.itin, .sec]
  | .foldInstant => allBut [.pending, .reply, .rlatch, .mgmt, .staging, .taps]
  | .bootFold => noting ++ [.itin, .sec, .power]
  | .claim .. | .keep .. | .release .. | .handover .. | .accept .. | .depose .. => noting ++ [.reply, .lead]
  | .leaseExpiry | .handoverTimeout => timed ++ [.draws, .nb, .lead]
  | .partyResetRequest .. => owned ++ [.parties]
  | .partyResetWaitExpiry .. => timed ++ [.parties]
  | .partyReset .. => aborting ++ [.parties, .tallies, .cache, .mirrors]
  | .partyResetDone .. | .partyZeroingDone .. => [.draws, .nb, .parties]
  | .eventCommit .. => [.draws, .nb]
  | .recordWrite .. => [.out, .nb, .fns]
  | .moderationTimeout .. => timed ++ [.out, .nb, .fns]
  | .ringEnable .. | .idle .. | .globalHold .. => owned ++ [.out, .fns]
  | .producerRead .. => [.draws, .reply, .out, .nb, .fns]
  | .weatherWindow .. => noting ++ [.rk, .weather]
  | .selfCheckpointStart .. => noting ++ reading ++ [.rk, .fabric]
  | .selfWaitTimeout .. => timed ++ noting ++ reading ++ [.rk, .fabric]
  | .selfCheckpointDone .. => noting ++ [.rk]
  | .sealProgrammed .. | .rucksackProgramDone .. => completing ++ [.rk]
  | .rucksackMount .. => [.rk]
  | .exportImage .. | .importImage .. => owned ++ [.rk]
  | .rkTransferDone .. => noting ++ [.out, .rk]
  | .mirrorEnable .. | .resync .. | .commit .. => owned ++ [.mirrors]
  | .mirrorFillLine .. => noting ++ reading ++ [.fabric, .mirrors]
  | .mirrorFillDone .. => [.mirrors]
  | .mirrorFillIdleTimeout .. => timed ++ [.draws, .nb, .mirrors]
  | .retireGo .. => owned ++ [.panel]
  | .retireBlowDone .. => noting ++ [.panel]
  | .safeStateEntry .. | .securitySelftest .. | .entropyHealthFail .. | .bootVerify .. => noting ++ [.out,
      .lanterns, .copper, .safe, .sec]
  | .safeStateStage => timed ++ noting ++ [.fabric, .lanterns, .copper, .mirrors, .safe, .panel]
  | .enter .. | .restart .. | .debugUnlock .. => allBut [.pending, .now, .time, .rlatch, .wlatch, .fns, .lead,
      .mem, .poison, .badLine, .mgmt, .staging, .taps]
  | .spdmRequest .. => [.reply, .sec]
  | .provisionAnchor .. | .loadItinKey .. | .revokeItinKey .. | .loadJobKey .. | .advanceSvn .. => noting ++
      [.reply, .sec]
  | .zeroize .. => noting ++ [.reply, .lanterns, .copper, .sec]
  | .securityHandover => noting ++ [.fns, .sec]
  | .ideStateChange .. => noting ++ [.out, .fns, .sec]
  | .pwrFold .. => owned ++ [.staged, .power]
  | .operatingPointTileChange .. => [.power]
  | .slewSample .. => noting ++ [.tiles, .engines, .power]
  | .thermistorConversion .. | .dieSensorSample .. | .supplySample .. => noting ++ [.out, .safe, .power]
  | .throttleStep .. => timed ++ noting ++ [.power]
  | .clockFault .. => noting ++ [.out, .safe]
  | .shutdownGo .. => owned ++ [.power]
  | .shutdownStage => timed ++ noting ++ [.fabric, .lanterns, .copper, .mirrors, .power]
  | .modRstNLow | .inputLoss => allBut [.pending, .now, .draws]
  | .idcode .. | .strapRead .. | .bypass .. | .samplePreload .. | .extest .. => [.out, .taps]
  | .hostLinkUp .. => [.regs]
  | .openRoundHoldoffExpiry .. => timed ++ [.out, .regs, .tiles, .colls]

/-! ### Who may write -/

/-- A write through the path to the register at `off` takes effect at once: the path answers and is open, it is the trip
leader's, the tile is trained, the safe state leaves the register writable, and no fold in progress holds it
(R442, R490, R496, R569, R595, R626). -/
def ownerGate (s : State) (p : Path) (off : Nat) : Bool :=
  !pathSilent s p && !pathClosed s p && p.master.isSome && decide (p.master = s.lead.leader) && !untrained s off &&
  (!s.safe.active || safeWritable off) && s.itin.plan.isNone

/-- A command to the leadership register takes effect: the path answers, is open, and has a master (R497). -/
def leaderGate (s : State) (p : Path) (m : Fin 4) : Bool :=
  !pathSilent s p && !pathClosed s p && decide (p.master = some m)

/-- A write through the path to `page` of the doorbell page of tile `t`'s party takes effect: a VF writes its own
party's page, for a tile of that party; a master needs an open gate as for any register (R8, R442, R496, R569). -/
def pageGate (s : State) (p : Path) (t page : Nat) : Bool :=
  match p with
  | .vf _ q =>
    !pathSilent s p && !pathClosed s p && partyExists s q.val && !s.safe.active && decide (tileParty s t = q.val)
  | _ => partyExists s (tileParty s t) && ownerGate s p (ptyA (tileParty s t) page)

/-- A write through the path to word `o` of the block of ring `r` takes effect: of the device ring an owner write, of a
party's ring a write of a VF of that party (R496, R514, R534). -/
def boardGate (s : State) (p : Path) (r o : Nat) : Bool :=
  match r, p with
  | 0, p => ownerGate s p (0xD100 + o)
  | k + 1, .vf _ q =>
    decide (q.val = k) && !pathSilent s p && !pathClosed s p && partyExists s k
  | _, _ => false

/-- The access that such a write makes. -/
def boardAccess (p : Path) (r o : Nat) : Access :=
  if r = 0 then { path := p, off := 0xD100 + o } else { path := p, bar4 := true, off := 0x1000 + o }

/-- A service asked for in a session is served: the session is open and its path answers, it is the trip leader's, and
it is mutually authenticated, or with responder authentication only for PROVISION_ANCHOR (R581, R588, R590). -/
def serviceGate (s : State) (id : Nat) (provision : Bool) : Bool :=
  match s.sec.sessions.find? (fun x => x.id = id) with
  | some x => spdmUp s x.path && leaderSession s x && decide (x.mutualAuth = !provision)
  | none => false

/-! ### Issue -/

/-- The command that stands at the issue point of queue `g`, with its line and the copies fetched ahead. -/
def commandAt (s : State) (g : Nat) (f : Fetched) : Cmd :=
  { g, t := g / 256, idx := (s.queue g).cmd, line := f.line, copies := f.descs, task := taskOf (s.queue g) f.line }

/-- The command `f`, fetched ahead or read from the ring now, stands at the issue point of queue `g` and passes steps
1 to 6 of R266; no queue that goes before it has a command for its unit. -/
structure Issues (s : State) (g : Nat) (f : Fetched) : Prop where
  line : commandLine s g = some (.ok f, s)
  acts : issuing s (g / 256) = true
  stands : standing (s.queue g) = true
  wait : hdrWaitEn f.line = true →
    waitSatisfied (s.tally (2048 * (g / 256) + hdrWaitTally f.line)) (hdrWaitTarget f.line) = true
  alone : hdrSerial f.line = true ∨ hdrOpcode f.line = 0x0C → (s.queue g).inflight = []
  fence : (s.queue g).fence = false
  task : taskError (s.queue g) f.line = false
  gate : hdrGate f.line = true → selfHolds s (tileParty s (g / 256)) = false ∧ (s.tile (g / 256)).gateFail = false
  first : outranked s g (fun _ => true) (fun _ s => .ready s) f.line = false

/-- The queue `g` gives way to the next command, with `new` in flight. -/
def Advances (s t : State) (g : Nat) (new : List Inflight) : Prop :=
  (t.queue g).cmd = (s.queue g).cmd + 1 ∧ (t.queue g).inflight = (s.queue g).inflight ++ new ∧
  (t.queue g).tail = (s.queue g).tail ∧ (t.queue g).enable = (s.queue g).enable

/-! ### Packets at an endpoint -/

/-- The packet of a type that an endpoint takes next from its router, with its VC as it was sent on, and the state once
it has left the router's buffer. -/
def taken (s : State) (ep : Endpoint) (ty : Nat) : Option (Packet × State) :=
  if linksAlive s then (takeNext s ep ty).map (takeIn s) else none

/-! ### The state's own rules -/

/-- The memory's canonical form: addresses strictly rising, no byte listed that reads as an unlisted one. -/
def Memory.wf (m : SMap Byte) : Bool := mwf 0 m

/-- What every state that the machine reaches keeps: memory in its canonical form, and tallies of 31 bits (R270). -/
structure Inv (s : State) : Prop where
  memory : Memory.wf s.mem = true
  tallies : ∀ k, s.tally k < 2 ^ 31

/-- Fused values are one-way (R582, R585, R586, R590): an anchor and a key stay once fused, a revoke fuse stays blown,
and a minimum security version never falls. -/
structure FusesKept (a b : Security) : Prop where
  anchor : ∀ x, a.anchor = some x → b.anchor = some x
  keys : ∀ k x, mget none a.keySlots k = some x → mget none b.keySlots k = some x
  revoked : ∀ k, a.revoked.testBit k = true → b.revoked.testBit k = true
  minSm : a.minSm ≤ b.minSm
  minHb : a.minHb ≤ b.minHb
  minGc : a.minGc ≤ b.minGc

end Sys2Proof.Machine
end

