-- ==== Sys2Proof/WellFormed.lean ====
section
/-! DEFINITION. Well-formed commands: which operands a sender, a partner or the surroundings can put into a command.
A constructor's types already bound every unit's number; what is left are numbers and lists whose widths and lengths
the spec fixes. The machine gives every command a meaning, well-formed or not. -/

namespace Sys2Proof

/-- An access names a byte of the 4 GiB window, or of the 8 KiB of BAR4 (R7, R514). -/
def Access.wf (a : Access) : Bool := decide (a.off < 2 ^ 32)

/-- The fields of a packet's header fit their widths, and its payload its length (R309, R310). -/
def Packet.wf (p : Packet) : Bool :=
  decide (p.ty < 2 ^ 5) && decide (p.vc < 2 ^ 3) && decide (p.fpc < 2 ^ 3) && decide (p.hint < 2 ^ 2) &&
  decide (p.mcast < 2 ^ 2) && decide (p.flits < 2 ^ 3) && decide (p.epoch < 2 ^ 8) && decide (p.dstModule < 2 ^ 14) &&
  decide (p.dstTile < 2 ^ 6) && decide (p.srcTile < 2 ^ 6) && decide (p.party < 2 ^ 4) && decide (p.srcKind < 2 ^ 2) &&
  decide (p.srcModule < 2 ^ 14) && decide (p.dstKind < 2 ^ 2) && decide (p.birth < 2 ^ 16) &&
  decide (p.addr < 2 ^ 40) && decide (p.seq < 2 ^ 24) && decide (p.tag < 2 ^ 16) && decide (p.aux < 2 ^ 16) &&
  decide (p.payload.length = p.flits)

/-- A packet in a frame comes with the VC it had before escape: its own, unless it is on the footpath (R321, R330). -/
def Transit.wf (c : Transit) : Bool := c.pkt.wf && decide (c.vc0 < 4) && (decide (4 ≤ c.pkt.vc) || decide (c.vc0 = c.pkt.vc))

/-- A roll-call message's fields fit their widths, and its payload is one to eight words (R372). -/
def RcMessage.wf (m : RcMessage) : Bool :=
  decide (m.kind < 16) && decide (m.op < 16) && decide (m.fmt < 16) && decide (m.party < 16) &&
  decide (m.epoch < 256) && decide (m.stage < 4) && decide (m.seq < 2 ^ 16) && decide (m.team < 64) &&
  decide (m.rank < 2 ^ 7) && decide (0 < m.words.length) && decide (m.words.length ≤ 8) && decide (m.crc < 2 ^ 32)

/-- A request to a hamper channel names at least one whole line of the hamper (R177, R192). -/
def HamperReq.wf (r : HamperReq) : Bool :=
  decide (r.offset % 64 = 0) && decide (0x100000000 ≤ r.offset) && decide (r.offset + 64 * r.lines ≤ 0x124000000) &&
  decide (0 < r.lines)

/-- Errors arise in whole lines of a tile; ECC corrects up to eight words of one (R214). -/
def errorWf (e : Nat × EccFinding) : Bool :=
  decide (e.1 % 64 = 0) && decide (e.1 < 2 ^ 34) &&
  (match e.2 with
    | .correctable n => decide (0 < n) && decide (n ≤ 8)
    | _ => true)

/-- An event's numbers fit the record's fields (R511). -/
def Event.wf (e : Event) : Bool := decide (e.cls < 256) && decide (e.source < 2 ^ 16) && decide (e.payload < 2 ^ 96)

/-- A command whose operands the spec's formats can carry. -/
def Instr.wf : Instr → Bool
  | .registerWrite acc size _ => acc.wf && decide (0 < size) && decide (size ≤ 8)
  | .lowWordRead acc size => acc.wf && decide (0 < size) && decide (size ≤ 8)
  | .guestProfileAnswer _ words => decide (words.length = 4)
  | .guideAnswer _ _ _ results => decide (results.length ≤ 3)
  | .hamperBurst _ _ arrivals errors retries =>
    arrivals.all HamperReq.wf && errors.all errorWf && retries.all (fun n => decide (n ≤ 5))
  | .scrubUnit _ _ errors => errors.all errorWf
  | .routerPacketReceive _ _ (some p) => p.wf
  | .linkFrameReceive _ f => f.packets.all Transit.wf
  | .rollcallMessage w m => m.wf && decide (w.src < 2 ^ 14) && decide (w.dest < 2 ^ 14)
  | .rollcallAbort none m => m.wf
  | .rollcallAbort (some (_, src)) m => m.wf && decide (src < 2 ^ 14)
  | .timeReq (some (_, m, _)) => decide (m < 2 ^ 14)
  | .timeResp _ src _ _ _ => decide (src < 2 ^ 14)
  | .driftUpdate _ _ distances => decide (distances.length ≤ 16)
  | .calibrationDone _ _ targets => decide (targets.length ≤ 16)
  | .hostWriteTlp _ _ bytes => decide (0 < bytes.length) && decide (bytes.length ≤ 4096)
  | .hostReadTlp _ _ length => decide (0 < length) && decide (length ≤ 4096)
  | .hostLinkUp _ speed width => decide (speed ≤ 6) && decide (width ≤ 16)
  | .read32 _ offset => decide (offset < 2 ^ 32)
  | .write32 _ offset _ => decide (offset < 2 ^ 32)
  | .readBlock _ offset count => decide (offset < 2 ^ 32) && decide (count ≤ 256)
  | .regAccessReserved _ command => decide (command < 256)
  | .itinStoreWrite _ offset _ => decide (0x800000 ≤ offset) && decide (offset < 0x1000000)
  | .eventCommit e => e.wf
  | .safeStateEntry cause _ _ _ => decide (cause < 256)
  | _ => true

end Sys2Proof
end

