-- ==== Sys2Proof/Certificates/Slice0/Obligations.lean ====
section
/-! DEFINITION. The statements about the machine, each a proposition. Its parts say what the commands of one part of the
spec do from every state that meets the conditions named, and which commands complete there; the head statements at the
end are about every command. -/

open Sys2Proof Sys2Proof.Machine

/-- Power good puts the host bridges' domains on and good, raises PWRGD and starts row 0 of the sequence (R607, R625, R659). STARTUP_STEP reaches the next row of R625 once what it waits for is done, and the clock first reaches its time after power good: 1 ms; 40 ms, with both boot images known, and the management endpoint comes up; 42 ms, in the safe state where both coolant thermistors are lost (R620); with the map read, the domains of its sites and the lanterns are asked for and those of skipped sites asked off (R25, R607); 47 ms, with every domain good; 52 ms, with training done, and every tile starts to zero; 75 ms, with zeroing done and the tables loaded; 330 ms, with both halves mounted. ROW_MAP_READ takes each row of the table of R22: two equal copies, the repair of HB1's, the one valid copy, or the safe state with MAP_MISMATCH or MAP_INVALID. Where the spec leaves a point to the model, it takes the choice of assumption log entries 12, 137 and 142. -/
def Obligations.StartupSequence : Prop :=
  (∀ (s : State) (aa : Fin 4), s.power.pwrgd = false →
     ∃ t, exec (.powerGood aa) s = .next t ∧ t.power.pwrgd = true ∧ t.power.stage = 0 ∧ t.power.bases = s.now ∧
       domainOn t 152 = true ∧ domainOn t 153 = true ∧ domainGood t 152 = true ∧ domainGood t 153 = true ∧
       t.mgmt.aa = aa.val ∧ t.out = s.out ++ [.pwrgd true]) ∧
  (∀ s : State, s.power.pwrgd = true → s.power.stage = 0 →
     ∃ t, exec .startupStep s = .next t ∧ t.power.stage = 1 ∧ t.now = max s.now (s.power.bases + 1000000 * 1)) ∧
  (∀ s : State, s.power.pwrgd = true → s.power.stage = 1 → bootsKnown s = true →
     ∃ t, exec .startupStep s = .next t ∧ t.power.stage = 2 ∧ t.mgmt.up = true ∧
       t.now = max s.now (s.power.bases + 1000000 * 40)) ∧
  (∀ s : State, panelRuns s = true → s.power.stage = 2 →
     ∃ t, exec .startupStep s = .next t ∧ t.power.stage = 3 ∧ t.now = max s.now (s.power.bases + 1000000 * 42) ∧
       t.safe.active = coolantLost s) ∧
  (∀ s : State, panelRuns s = true → s.power.stage = 3 → s.panel.mapRead = true →
     ∃ t, exec .startupStep s = .next t ∧ t.power.stage = 4 ∧ t.now = max s.now (s.power.bases + 1000000 * 42) ∧
       (∀ d ∈ startDomains s, domainOn s d = false → d ∈ t.power.wanted) ∧
       (∀ d ∈ skippedDomains s, d ∈ t.power.unwanted ∧ d ∉ t.power.wanted)) ∧
  (∀ s : State, panelRuns s = true → s.power.stage = 4 → s.power.wanted = [] →
     (∀ d ∈ startDomains s, domainGood s d = true) →
     ∃ t, exec .startupStep s = .next t ∧ t.power.stage = 5 ∧ t.now = max s.now (s.power.bases + 1000000 * 47)) ∧
  (∀ s : State, panelRuns s = true → s.power.stage = 5 → trainingDone s = true →
     ∃ t, exec .startupStep s = .next t ∧ t.power.stage = 6 ∧ t.now = max s.now (s.power.bases + 1000000 * 52) ∧
       ∀ k < 64, (t.tile k).zero.active = true ∧ (t.tile k).zero.began = t.now ∧ (t.tile k).zero.paces = 0) ∧
  (∀ s : State, panelRuns s = true → s.power.stage = 6 → (∀ k < 64, (s.tile k).zero.active = false) →
     tablesLoaded s = true →
     ∃ t, exec .startupStep s = .next t ∧ t.power.stage = 7 ∧ t.now = max s.now (s.power.bases + 1000000 * 75)) ∧
  (∀ s : State, panelRuns s = true → s.power.stage = 7 → s.rk.ready = 3 →
     ∃ t, exec .startupStep s = .next t ∧ t.power.stage = 8 ∧ t.now = max s.now (s.power.bases + 1000000 * 330)) ∧
  (∀ s : State, panelRuns s = true → s.power.stage = 3 → s.panel.mapRead = false →
     let a := s.panel.hb0
     let b := s.panel.hb1
     (copyValid a = true → copyValid b = true → mapDiffers s = [] →
       ∃ t, exec .rowMapRead s = .next t ∧ t.panel.mapRead = true ∧
         t.panel.skip = (List.range 8).map (effectiveSkip a) ∧ t.panel.hb0 = a ∧ t.panel.hb1 = b ∧
         t.reg 0x1020 = 0xF3 ∧ t.safe = s.safe) ∧
     (∀ r, copyValid a = true → copyValid b = true → repairRow s = some r →
       ∃ t, exec .rowMapRead s = .next t ∧ t.panel.mapRead = true ∧
         t.panel.skip = (List.range 8).map (effectiveSkip a) ∧ t.panel.hb0 = a ∧
         t.panel.hb1 = { b with field := b.field.set r (a.field.getD r 0) } ∧ t.reg 0x1020 = 0xF7 ∧ t.safe = s.safe) ∧
     (copyValid a = true → copyValid b = true → mapDiffers s ≠ [] → repairRow s = none →
       ∃ t, exec .rowMapRead s = .next t ∧ t.panel.mapRead = false ∧ t.safe.active = true ∧
         t.field 0x10100 8 8 = 0x02 ∧ t.panel.hb0 = a ∧ t.panel.hb1 = b) ∧
     (copyValid a = true → copyValid b = false →
       ∃ t, exec .rowMapRead s = .next t ∧ t.panel.mapRead = true ∧
         t.panel.skip = (List.range 8).map (effectiveSkip a) ∧ t.panel.hb0 = a ∧ t.panel.hb1 = b ∧
         t.reg 0x1020 = 0xF1 ∧ t.safe = s.safe) ∧
     (copyValid a = false → copyValid b = true →
       ∃ t, exec .rowMapRead s = .next t ∧ t.panel.mapRead = true ∧
         t.panel.skip = (List.range 8).map (effectiveSkip b) ∧ t.panel.hb0 = a ∧ t.panel.hb1 = b ∧
         t.reg 0x1020 = 0xFA ∧ t.safe = s.safe) ∧
     (copyValid a = false → copyValid b = false →
       ∃ t, exec .rowMapRead s = .next t ∧ t.panel.mapRead = false ∧ t.safe.active = true ∧
         t.field 0x10100 8 8 = 0x01 ∧ t.panel.hb0 = a ∧ t.panel.hb1 = b))

/-- The panel switches the next domain asked for on, or the next asked off off, 25 µs after the switch before it, and no other domain changes; a domain that reports is good; one that does not within 1 ms takes the panel into the safe state with cause SUPPLY, or, of a guest, fails its attempt, and the fourth attempt ends in ABSENT with its domain asked off (R607, R48). Where the spec leaves a point to the model, it takes the choice of assumption log entry 137. -/
def Obligations.PowerDomains : Prop :=
  (∀ (s : State) (d : Nat) (ds : List Nat), panelRuns s = true → s.power.wanted = d :: ds →
     ∃ t, exec .domainSwitchOn s = .next t ∧ domainOn t d = true ∧ domainGood t d = false ∧ t.power.wanted = ds ∧
       t.now = max s.now (nextToggle s) ∧ t.power.toggled = some t.now ∧ mget none t.power.switched d = some t.now ∧
       (∀ e, e ≠ d → domainOn t e = domainOn s e ∧ domainGood t e = domainGood s e)) ∧
  (∀ (s : State) (d : Nat) (ds : List Nat), s.power.pwrgd = true → s.power.unwanted = d :: ds →
     ∃ t, exec .domainSwitchOff s = .next t ∧ domainOn t d = false ∧ domainGood t d = false ∧ t.power.unwanted = ds ∧
       t.now = max s.now (nextToggle s) ∧
       (∀ e, e ≠ d → domainOn t e = domainOn s e ∧ domainGood t e = domainGood s e)) ∧
  (∀ (s : State) (d : Fin 158), s.power.pwrgd = true → domainOn s d.val = true → domainGood s d.val = false →
     ∃ t, exec (.domainPowerGood d) s = .next t ∧ domainGood t d.val = true ∧ domainOn t d.val = true ∧
       (∀ e, e ≠ d.val → domainGood t e = domainGood s e)) ∧
  (∀ (s : State) (d : Fin 158) (t0 : Nat), s.power.pwrgd = true → mget none s.power.switched d.val = some t0 →
     d.val < 154 → s.safe.active = false →
     ∃ t, exec (.domainPowerGoodTimeout d) s = .next t ∧ t.safe.active = true ∧ t.field 0x10100 8 8 = 0x12 ∧
       mget none t.power.switched d.val = none ∧ t.now = max s.now (t0 + 1000000)) ∧
  (∀ (s : State) (d : Fin 158) (t0 : Nat), s.power.pwrgd = true → mget none s.power.switched d.val = some t0 →
     154 ≤ d.val → (s.guest (d.val - 154)).attempt < 4 →
     ∃ t, exec (.domainPowerGoodTimeout d) s = .next t ∧ (t.guest (d.val - 154)).status = .bringup ∧
       (t.guest (d.val - 154)).attempt = (s.guest (d.val - 154)).attempt ∧ (t.guest (d.val - 154)).step = 0 ∧
       t.now = max s.now (t0 + 1000000)) ∧
  (∀ (s : State) (d : Fin 158) (t0 : Nat), s.power.pwrgd = true → mget none s.power.switched d.val = some t0 →
     154 ≤ d.val → 4 ≤ (s.guest (d.val - 154)).attempt →
     ∃ t, exec (.domainPowerGoodTimeout d) s = .next t ∧ (t.guest (d.val - 154)).status = .absent ∧
       (domainOn s d.val = true → d.val ∈ t.power.unwanted))

/-- A link whose dies are out of reset with good straps begins clock lock; at 20 µs the groups not locked are out of service; deskew records the eyes; after the wire test a group with no failed wire, or with one and a good spare, stays in service: a link whose partners match and that has its minimum of groups is ACTIVE with the others out of service, one with too few starts again up to three attempts, and else it FAILED (R30, R33, R34). On an ACTIVE link a good frame in order is accepted, and one whose CRC fails asks for a replay of what its transmitter still holds from there on, up to eight times (R30, R31, R33). A group that loses its clock takes an ACTIVE link to FAILED (R33). A hamper whose lanes can all be repaired is trained (R220, R221). Where the spec leaves a point to the model, it takes the choice of assumption log entries 116, 117, 137 and 158. -/
def Obligations.StrandTraining : Prop :=
  (∀ (s : State) (l : Strand), panelRuns s = true → s.power.stage = 5 → (s.strand l).phase = .off →
     strandExists s l = true → domainGood s (dieDomain (strandDies s l).1) = true →
     domainGood s (dieDomain (strandDies s l).2) = true →
     strapGood (strandDies s l).1 (strapsHeld s (strandDies s l).1) = true →
     strapGood (strandDies s l).2 (strapsHeld s (strandDies s l).2) = true →
     exec (.strandTrainStart l) s =
       .next (s.setStrand l { attempt := (s.strand l).attempt, phase := .clockLock, begun := s.now })) ∧
  (∀ (s : State) (l : Strand) (locked : BitVec 32), panelRuns s = true → (s.strand l).phase = .clockLock →
     ∃ t, exec (.strandClockLockTimeout l locked) s = .next t ∧ (t.strand l).phase = .deskew ∧
       (t.strand l).dead = (List.range (strandGroups s l)).filter (fun g => !locked.getLsbD g) ∧
       t.now = max s.now ((s.strand l).begun + 20000)) ∧
  (∀ (s : State) (l : Strand) (eyes : List (Wire × Nat)), panelRuns s = true → (s.strand l).phase = .deskew →
     exec (.strandDeskewDone l eyes) s = .next (s.setStrand l { s.strand l with phase := .wireTest, eyes })) ∧
  (∀ (s : State) (l : Strand), panelRuns s = true → (s.strand l).phase = .wireTest → (s.strand l).dead = [] →
     (s.strand l).eyes = [] → partnersMatch s l = true → revisionLow s l = false →
     ∃ t, exec (.strandWireTestDone l []) s = .next t ∧ (t.strand l).phase = .active ∧ (t.strand l).dead = [] ∧
       (t.strand l).steered = []) ∧
  (∀ (s : State) (l : Strand) (errors : List Wire),
     let x := s.strand l
     let bad := (errors ++ (x.eyes.filter (fun e => e.2 < 35)).map (·.1)).eraseDups
     let dead := (List.range (strandGroups s l)).filter (fun g =>
       x.dead.contains g || !(repairGroup bad g true).2 || !(repairGroup bad g false).2)
     panelRuns s = true → x.phase = .wireTest →
     (partnersMatch s l = true → strandMinimum s l ≤ strandGroups s l - dead.length → revisionLow s l = false →
       ∃ t, exec (.strandWireTestDone l errors) s = .next t ∧ (t.strand l).phase = .active ∧
         (t.strand l).dead = dead ∧ (t.strand l).width = strandGroups s l - dead.length ∧ t.safe = s.safe) ∧
     (partnersMatch s l = true → strandGroups s l - dead.length < strandMinimum s l → x.attempt < 3 →
       ∃ t, exec (.strandWireTestDone l errors) s = .next t ∧ (t.strand l).phase = .off ∧
         (t.strand l).attempt = x.attempt + 1 ∧ t.safe = s.safe) ∧
     (partnersMatch s l = false ∨ strandGroups s l - dead.length < strandMinimum s l ∧ 3 ≤ x.attempt →
       ∃ t, exec (.strandWireTestDone l errors) s = .next t ∧ (t.strand l).phase = .failed ∧
         (t.strand l).fault = (if partnersMatch s l = false then .strapMismatch else .linkWidth))) ∧
  (∀ (s : State) (l : Strand) (far good : Bool),
     let x := strandRx (s.strand l) far
     linksAlive s = true → (s.strand l).phase = .active →
     (x.next ∈ x.buffer.map (·.seq) ∨ x.next = x.sent ∧ x.buffer.length < 64) →
     (good = true → ∃ t, exec (.strandFrameReceive l far x.next good) s = .next t ∧
       (strandRx (t.strand l) far).next = x.next + 1 ∧ (strandRx (t.strand l) far).fails = 0 ∧
       (t.strand l).phase = .active ∧ (t.strand l).dead = (s.strand l).dead) ∧
     (good = false → x.fails < 8 → ∃ t, exec (.strandFrameReceive l far x.next good) s = .next t ∧
       (strandRx (t.strand l) far).fails = x.fails + 1 ∧ (strandRx (t.strand l) far).next = x.next ∧
       (t.strand l).phase = .active ∧
       t.out = s.out ++ [.strandReplay l.id far (((strandRx (t.strand l) far).buffer.map (·.seq)).filter
         (fun k => x.next ≤ k))])) ∧
  (∀ (s : State) (l : Strand), linksAlive s = true → (s.strand l).phase = .active →
     ∃ t, exec (.strandLinkDown l) s = .next t ∧ (t.strand l).phase = .failed ∧
       (∀ k e, l = .mesh k e → t.safe.active = true)) ∧
  (∀ (s : State) (site : Fin 72) (t : Nat) (failed : List HamperLane), panelRuns s = true → s.power.stage = 5 →
     tileAt? s site.val = some t → (s.tile t).trained = false → domainGood s site.val = true →
     domainGood s (72 + site.val) = true → (∀ c < 32, ∀ g < 36, groupLost failed c g = false) →
     ∃ u, exec (.hamperTraining site failed) s = .next u ∧ (u.tile t).trained = true ∧ u.safe = s.safe)

/-- The steps of a guest's bring-up (R48 to R51). Step 1 asks for the guest's domain, at the first attempt and after a failed one; 1 ms after the domain reports good the reset is released; a module that trained sends the profile offer; an accepted answer is confirmed, and its acknowledgement stages the guest with its capability word. An attempt in which no module trained, whose answer is not accepted, whose step is late, or in which the guest sends early, fails: bring-up starts again at step 1, and after the fourth attempt the guest is ABSENT and its domain asked off. A guest in service that loses its link is DOWN (R54), as is one staged or in service at its tenth excess of power in a row (R608); TAKE_DOWN makes a guest DOWN and RENEGOTIATE brings one that is absent or down up anew (R641). Where the spec leaves a point to the model, it takes the choice of assumption log entries 118, 119 and 137. -/
def Obligations.GuestBringUp : Prop :=
  (∀ (s : State) (n : Fin 4), panelRuns s = true → 6 ≤ s.power.stage → guestFitted s n.val = true →
     (anchorTile s n.val).isSome = true →
     (s.guest n.val).status = .idle ∨ (s.guest n.val).status = .bringup ∧ (s.guest n.val).step = 0 →
     ∃ t, exec (.guestBringupStart n) s = .next t ∧ (t.guest n.val).status = .bringup ∧ (t.guest n.val).step = 1 ∧
       (t.guest n.val).attempt = (s.guest n.val).attempt + 1 ∧ (t.guest n.val).since = s.now ∧
       t.reg (guestA n.val) = 0 ∧ (domainOn t (guestDomain n.val) = true ∨ guestDomain n.val ∈ t.power.wanted)) ∧
  (∀ (s : State) (n : Fin 4), panelRuns s = true → (s.guest n.val).status = .bringup → (s.guest n.val).step = 1 →
     domainGood s (guestDomain n.val) = true →
     ∃ t, exec (.guestResetRelease n) s = .next t ∧ (t.guest n.val).step = 2 ∧ (t.guest n.val).status = .bringup ∧
       (t.guest n.val).since = t.now ∧ t.now = max s.now ((s.guest n.val).since + 1000000)) ∧
  (∀ (s : State) (n : Fin 4) (modules : BitVec 4), panelRuns s = true → (s.guest n.val).status = .bringup →
     (s.guest n.val).step = 2 → modules ≠ 0 →
     ∃ t, exec (.guestTrainingDone n modules) s = .next t ∧ (t.guest n.val).step = 4 ∧
       (t.guest n.val).modules = modules.toNat ∧ (t.guest n.val).status = .bringup ∧
       t.out = s.out ++ [.sideband n (profileOffer modules.toNat)]) ∧
  (∀ (s : State) (n : Fin 4) (words : List Dword), panelRuns s = true → (s.guest n.val).status = .bringup →
     (s.guest n.val).step = 4 → answerOk (s.guest n.val).modules words = true → guestFeatures s n.val words = true →
     ∃ t, exec (.guestProfileAnswer n words) s = .next t ∧ (t.guest n.val).step = 6 ∧ (t.guest n.val).answer = words ∧
       (t.guest n.val).modules = (s.guest n.val).modules &&& answerField words 0 16 4 ∧
       (t.guest n.val).rate = min 4 (answerField words 0 20 4) ∧ (t.guest n.val).window = answerField words 2 0 32 ∧
       (t.guest n.val).maxPower = answerField words 1 32 16 ∧ (t.guest n.val).status = .bringup) ∧
  (∀ (s : State) (n : Fin 4), panelRuns s = true → (s.guest n.val).status = .bringup → (s.guest n.val).step = 6 →
     exec (.guestConfirmAck n) s = .next ((s.setGuest n.val { s.guest n.val with status := .staged, step := 7 }).setReg
       (guestA n.val) (guestCap (s.guest n.val).answer))) ∧
  (∀ (s : State) (n : Fin 4),
     let g := s.guest n.val
     let Failed (t : State) : Prop := t.reg (guestA n.val) = 0 ∧
       (g.attempt < 4 → t.guest n.val = { status := .bringup, attempt := g.attempt, since := t.now }) ∧
       (4 ≤ g.attempt → (t.guest n.val).status = .absent ∧
         (domainOn s (guestDomain n.val) = true → guestDomain n.val ∈ t.power.unwanted))
     panelRuns s = true → g.status = .bringup →
     (∀ limit, stepLimit g.step = some limit →
       ∃ t, exec (.guestStepTimeout n) s = .next t ∧ Failed t ∧ t.now = max s.now (g.since + limit)) ∧
     (g.step = 2 → ∃ t, exec (.guestTrainingDone n 0) s = .next t ∧ Failed t ∧ t.now = s.now) ∧
     (∀ words, g.step = 4 → (answerOk g.modules words && guestFeatures s n.val words) = false →
       ∃ t, exec (.guestProfileAnswer n words) s = .next t ∧ Failed t ∧ t.now = s.now) ∧
     (g.step ≠ 0 → ∃ t, exec (.guestEarlyPacket n) s = .next t ∧ Failed t ∧ t.now = s.now)) ∧
  (∀ (s : State) (n : Fin 4), panelRuns s = true → (s.guest n.val).status = .inService →
     ∃ t, exec (.guestLinkDown n) s = .next t ∧ (t.guest n.val).status = .down ∧ (t.guest n.val).attempt = 0 ∧
       (t.guest n.val).mainband = false ∧
       (domainOn s (guestDomain n.val) = true → guestDomain n.val ∈ t.power.unwanted)) ∧
  (∀ (s : State) (n : Fin 4) (power : Nat), panelRuns s = true →
     ((s.guest n.val).status = .staged ∨ (s.guest n.val).status = .inService) →
     ((s.guest n.val).excess < 9 ∨ power ≤ (s.guest n.val).maxPower →
       exec (.guestPowerSample n power) s = .next (s.setGuest n.val { s.guest n.val with
         excess := if (s.guest n.val).maxPower < power then (s.guest n.val).excess + 1 else 0 })) ∧
     (9 ≤ (s.guest n.val).excess → (s.guest n.val).maxPower < power →
       ∃ t, exec (.guestPowerSample n power) s = .next t ∧ (t.guest n.val).status = .down ∧
         t.power.guestPower = true ∧
         (domainOn s (guestDomain n.val) = true → guestDomain n.val ∈ t.power.unwanted))) ∧
  (∀ (s : State) (p : Path) (guests : BitVec 4), ownerGate s p 0x1060 = true →
     (∃ t, exec (.takeDown p guests) s = .next t ∧ t.reply = { status := .ok } ∧ ∀ n < 4,
       (guests.getLsbD n = true → (s.guest n).status ∈ [GuestStatus.bringup, .staged, .inService] →
         (t.guest n).status = .down) ∧
       (guests.getLsbD n = false ∨ (s.guest n).status ∉ [GuestStatus.bringup, .staged, .inService] →
         t.guest n = s.guest n)) ∧
     (∃ t, exec (.renegotiate p guests) s = .next t ∧ t.reply = { status := .ok } ∧ ∀ n < 4,
       (guests.getLsbD n = true → (s.guest n).status ∈ [GuestStatus.absent, .down] →
         t.guest n = { status := .bringup, since := s.now } ∧ t.reg (guestA n) = 0) ∧
       (guests.getLsbD n = false ∨ (s.guest n).status ∉ [GuestStatus.absent, .down] → t.guest n = s.guest n)))

/-- A command that issues leaves the issue point: CMD advances by one, the commands in flight gain those given, in order, and TAIL and ENABLE stay; and a command that completes at issue then signals (R266, R267). -/
def Obligations.IssueAdvances : Prop :=
  ∀ (s u : State) (g : Nat) (f : Fetched) (new : List Inflight), u.queue g = s.queue g →
    Advances s (passIssue u (commandAt s g f) new) g new ∧
    Advances s (signalFor (passIssue u (commandAt s g f) new) g f.line) g new

/-- A control command that issues has its effect, and those that finish at issue then signal: NOP nothing else (R269); TALLY_SET sets or adds to the tally (R276); SET_SEED writes a slot, or all sixteen from two table lines (R298); TASK_BEGIN opens the task, one of identifier 0 fails with ENCODING (R278); TASK_END closes it and stays in flight until the others are done (R278); GUIDE_CALL joins the requests of its core (R304); a reserved opcode aborts its task with ENCODING (R269). Where the spec leaves a point to the model, it takes the choice of assumption log entry 36. -/
def Obligations.ControlCommands : Prop :=
  (∀ (s : State) (g : Fin 16384) (f : Fetched), Issues s g.val f → hdrOpcode f.line = 0x00 →
     exec (.nop g) s = .next (signalFor (passIssue s (commandAt s g.val f) []) g.val f.line)) ∧
  (∀ (s : State) (g : Fin 16384) (f : Fetched), Issues s g.val f → hdrOpcode f.line = 0x02 →
     let k := 2048 * (g.val / 256) + lineField f.line 0x10 0 11
     let v := lineField f.line 0x14 0 31
     exec (.tallySet g) s =
       .next (signalFor (passIssue (s.setTally k (if lineField f.line 0x10 11 1 = 1 then s.tally k + v else v))
         (commandAt s g.val f) []) g.val f.line)) ∧
  (∀ (s : State) (g : Fin 16384) (f : Fetched), Issues s g.val f → hdrOpcode f.line = 0x04 →
     lineField f.line 0x10 4 1 = 0 →
     exec (.setSeed g) s =
       .next (signalFor (passIssue (s.modTile (g.val / 256) (fun x =>
         { x with seeds := mset 0 x.seeds (lineField f.line 0x10 0 4) (BitVec.ofNat 64 (lineField f.line 0x18 0 64)) }))
         (commandAt s g.val f) []) g.val f.line)) ∧
  (∀ (s u : State) (g : Fin 16384) (f : Fetched) (a b : Line), Issues s g.val f → hdrOpcode f.line = 0x04 →
     lineField f.line 0x10 4 1 = 1 →
     let slot := lineField f.line 0x14 0 24
     inScratch s (g.val / 256) (64 * slot) = true → inScratch s (g.val / 256) (64 * slot + 64) = true →
     linesReady s (g.val / 256) [64 * slot, 64 * slot + 64] = true →
     readLines s (g.val / 256) [64 * slot, 64 * slot + 64] .normal = ([some a, some b], u) →
     exec (.setSeed g) s =
       .next (signalFor (passIssue (u.modTile (g.val / 256) (fun x => { x with seeds := tableSeeds a b }))
         (commandAt s g.val f) []) g.val f.line)) ∧
  (∀ (s : State) (g : Fin 16384) (f : Fetched), Issues s g.val f → hdrOpcode f.line = 0x08 →
     ((taskOf (s.queue g.val) f.line).id ≠ 0 → exec (.taskBegin g) s =
       .next (signalFor (passIssue (s.modQueue g.val (fun q => { q with open? := some (taskOf (s.queue g.val) f.line) }))
         (commandAt s g.val f) []) g.val f.line)) ∧
     ((taskOf (s.queue g.val) f.line).id = 0 →
       exec (.taskBegin g) s = .next (failAtIssue s g.val { err := .encoding }))) ∧
  (∀ (s : State) (g : Fin 16384) (f : Fetched), Issues s g.val f → hdrOpcode f.line = 0x09 →
     exec (.taskEnd g) s =
       .next (passIssue (s.modQueue g.val (fun q => { q with open? := none })) (commandAt s g.val f)
         [{ idx := (s.queue g.val).cmd, line := f.line, task := taskOf (s.queue g.val) f.line, ready := true }])) ∧
  (∀ (s : State) (g : Fin 16384) (f : Fetched), Issues s g.val f → hdrOpcode f.line = 0x06 →
     exec (.guideCall g) s =
       .next (passIssue (s.modTile (g.val / 256) (fun x => { x with guide := x.guide ++ [callOf s (commandAt s g.val f)] }))
         (commandAt s g.val f)
         [{ idx := (s.queue g.val).cmd, line := f.line, task := taskOf (s.queue g.val) f.line }])) ∧
  (∀ (s : State) (g : Fin 16384) (f : Fetched), Issues s g.val f → hdrOpcode f.line ∉ opcodes →
     exec (.reservedOpcode g) s = .next (failAtIssue s g.val { err := .encoding }))

/-- A command of a unit that issues, its checks passed and the lines it names ready, joins its unit and its queue moves on: a phase fence of the tile alone ends the phase at once, one of a wider scope closes its queue until its result, one whose fields do not agree fails with ENCODING and one of a tile with an open fence with FENCE (R287 to R289); a vector command joins the vector unit, which runs it chunk by chunk (R293, R296, R297); a matrix pass joins its engine's passes (R133); a move or a transpose takes its mover (R242, R247); a collective enters the tile's engine (R357); REG_COPY writes the words it copies, having cleared the watches inside the range where CLEAR asks for it (R299). Where the spec leaves a point to the model, it takes the choice of assumption log entries 36, 46, 48 and 92. -/
def Obligations.UnitCommands : Prop :=
  (∀ (s : State) (g : Fin 16384) (f : Fetched), Issues s g.val f → hdrOpcode f.line = 0x0C → pfScope f.line = 0 →
     pfMap f.line = false → pfVote f.line = false → (s.tile (g.val / 256)).fence = none →
     exec (.phaseFence g) s =
       .next (signalFor (passIssue (tileFence s (g.val / 256) (pfNext f.line) (pfSeq f.line)) (commandAt s g.val f) [])
         g.val f.line)) ∧
  (∀ (s : State) (g : Fin 16384) (f : Fetched), Issues s g.val f → hdrOpcode f.line = 0x0C →
     (pfScope f.line = 3 ∨ pfMap f.line = true ∧ pfScope f.line ≠ 2 ∨ pfVote f.line = true ∧ pfScope f.line = 0 →
       exec (.phaseFence g) s = .next (failAtIssue s g.val { err := .encoding })) ∧
     (pfScope f.line ≠ 3 → (pfMap f.line = true → pfScope f.line = 2) → (pfVote f.line = true → pfScope f.line ≠ 0) →
       (s.tile (g.val / 256)).fence.isSome = true →
       exec (.phaseFence g) s = .next (failAtIssue s g.val { err := .fence }))) ∧
  (∀ (s : State) (g : Fin 16384) (f : Fetched), Issues s g.val f → hdrOpcode f.line = 0x0C →
     (pfScope f.line = 1 ∧ pfMap f.line = false ∨ pfScope f.line = 2) → (s.tile (g.val / 256)).fence = none →
     exec (.phaseFence g) s =
       .next (passIssue (arriveFence (commandAt s g.val f) s) (commandAt s g.val f)
         [{ idx := (s.queue g.val).cmd, line := f.line, task := taskOf (s.queue g.val) f.line, ready := true }])) ∧
  (∀ (s u : State) (g : Fin 16384) (f : Fetched) (chunks : Nat) (p : VecPlan), Issues s g.val f →
     hdrOpcode f.line = 0x10 → (s.tile (g.val / 256)).vec.length < 2 →
     linesReady s (g.val / 256) (((vecSlots s (g.val / 256) f.line).map (64 * ·)).filter (inScratch s (g.val / 256))) = true →
     vecCheck (commandAt s g.val f) s = (.ok p, u) → vecReady s (g.val / 256) p = true →
     ∃ (j : VecJob) (t : State), exec (.vector ⟨g, chunks⟩) s = .next (vecAdvance (g.val / 256) chunks t) ∧
       (t.tile (g.val / 256)).vec = (s.tile (g.val / 256)).vec ++ [j] ∧ j.queue = g.val ∧ j.line = f.line ∧
       j.idx = (s.queue g.val).cmd ∧ j.next = 0 ∧ (t.queue g.val).inflight = (s.queue g.val).inflight ++
         [{ idx := (s.queue g.val).cmd, line := f.line, task := taskOf (s.queue g.val) f.line }]) ∧
  (∀ (s : State) (g : Fin 16384) (f : Fetched), Issues s g.val f → hdrOpcode f.line = 0x20 →
     let c := commandAt s g.val f
     let i := 4 * c.t + mpEngine f.line
     let ext := drainExtent (s.engine i) (s.bank (bankNo i (lineField f.line 0x10 4 1))) f.line
     let keepRows := passRetains s c.t f.line && ext.1.isSome
     engineAccepts (s.engine i) = true →
     linesReady s c.t (((passSlots f.line ext.1.isSome keepRows).map (64 * ·)).filter (inScratch s c.t)) = true →
     (passCheck c (s.engine i) ext keepRows s).1.toBool = true →
     ∃ t, exec (.matrixPass g) s = .next t ∧
       (t.engine i).passes.map (fun p => (p.queue, p.idx)) =
         (s.engine i).passes.map (fun p => (p.queue, p.idx)) ++ [(g.val, c.idx)] ∧
       (t.queue g.val).inflight = (s.queue g.val).inflight ++ [{ idx := c.idx, line := f.line, task := c.task }]) ∧
  (∀ (s u v : State) (g : Fin 16384) (f : Fetched) (src dst : Desc), Issues s g.val f → hdrOpcode f.line = 0x30 →
     let c := commandAt s g.val f
     let l := f.line
     s.mover (4 * c.t + mvMover l) = none → mvVc l < 4 → (mvXchg l = true → mvUnit l < 6) →
     linesReady s c.t [64 * mvSrcSlot l, 64 * mvDstSlot l] = true →
     inScratch s c.t (64 * mvSrcSlot l) = true → inScratch s c.t (64 * mvDstSlot l) = true →
     readDesc s c.t f.descs 0 (mvSrcSlot l) = (.ok src, u) → readDesc u c.t f.descs 1 (mvDstSlot l) = (.ok dst, v) →
     moveError v c.t l src dst = none →
     ∃ t, exec (.move g) s = .next t ∧
       (t.mover (4 * c.t + mvMover l)).map (fun j => (j.queue, j.idx, j.line, j.next)) = some (g.val, c.idx, l, 0) ∧
       (t.queue g.val).inflight = (v.queue g.val).inflight ++ [{ idx := c.idx, line := l, task := c.task }]) ∧
  (∀ (s u v : State) (g : Fin 16384) (f : Fetched) (src dst : Desc), Issues s g.val f → hdrOpcode f.line = 0x31 →
     let c := commandAt s g.val f
     let l := f.line
     s.mover (4 * c.t + mvMover l) = none → mvVc l < 4 → (mvXchg l = true → mvUnit l < 6) →
     linesReady s c.t [64 * mvSrcSlot l, 64 * mvDstSlot l] = true →
     inScratch s c.t (64 * mvSrcSlot l) = true → inScratch s c.t (64 * mvDstSlot l) = true →
     readDesc s c.t f.descs 0 (mvSrcSlot l) = (.ok src, u) → readDesc u c.t f.descs 1 (mvDstSlot l) = (.ok dst, v) →
     moveError v c.t l src dst = none →
     ∃ t, exec (.transpose g) s = .next t ∧
       (t.mover (4 * c.t + mvMover l)).map (fun j => (j.queue, j.idx, j.line, j.next)) = some (g.val, c.idx, l, 0) ∧
       (t.queue g.val).inflight = (v.queue g.val).inflight ++ [{ idx := c.idx, line := l, task := c.task }]) ∧
  (∀ (s u : State) (g : Fin 16384) (f : Fetched) (ds : List (Nat × Desc)), Issues s g.val f → hdrOpcode f.line = 0x40 →
     let c := commandAt s g.val f
     let needs := collNeeds s c.t f.line
     (s.coll c.t).next = none → collFieldError s c.t f.line = false →
     linesReady s c.t ((needs.map (fun x => 64 * x.2.1)).filter (inScratch s c.t)) = true →
     useAll s c.t f.descs needs = (.ok ds, u) → collDescError u c.t f.line ds = none →
     (issueOperand f.line ds = none →
       exec (.collective g) s = .next (passIssue (enterColl c u ds 0) c
         [{ idx := c.idx, line := f.line, task := c.task }])) ∧
     (∀ k d codes v, issueOperand f.line ds = some (k, d) → descReady u c.t d = true →
       loadHinted u c.t d 0 (descCount d) .stream = (.ok codes, v) →
       exec (.collective g) s = .next (passIssue (enterColl c v ds (descNumber d codes)) c
         [{ idx := c.idx, line := f.line, task := c.task }]))) ∧
  (∀ (s u : State) (g : Fin 16384) (f : Fetched) (d : Desc), Issues s g.val f → hdrOpcode f.line = 0x05 →
     let c := commandAt s g.val f
     let l := f.line
     copyError l = none → (inScratch s c.t (64 * rcDst l) = true → lineReady s c.t (64 * rcDst l) = true) →
     useDesc s c.t f.descs 0 (rcDst l)
         { write := true, kinds := [kindByte], tile := some c.t, count := some (64 * rcLines l) } = (.ok d, u) →
     descReady u c.t d = true →
     let v := if rcClear l
       then u.each ((List.range 256).filter (watchInside (rcSrc l) (rcLines l))) (fun w x => clearWatch x c.t w) else u
     exec (.regCopy g) s = .next (passIssue (writeLines v c.t (fillLines d 0 (descLines d) (copyByte u c.t (rcSrc l)))
         (.command g.val c.idx)) c [{ idx := c.idx, line := l, task := c.task, ready := true }]))

/-- A CHECKPOINT write that issues hands its piece to the rucksack, in the party's open generation (R547, R548), and a SEAL of the open generation stands at the issue point until it is accepted (R549); a RESTORE writes the stored lines of its piece to the walk it names, and aborts with MEMORY if some are lost (R550); a LOGBOOK write hands its record over and a LOGBOOK read gives the record's lines back, with MEMORY if some are lost (R550, R560). Each but the SEAL stays in flight until what it handed over is programmed or performed. Where the spec leaves a point to the model, it takes the choice of assumption log entries 57 and 102. -/
def Obligations.RucksackCommands : Prop :=
  (∀ (s u v : State) (g : Fin 16384) (f : Fetched) (d : Desc), Issues s g.val f → hdrOpcode f.line = 0x50 →
     let c := commandAt s g.val f
     let l := f.line
     let p := tileParty s c.t
     ckOp l = 0 → ckGen l ≠ 0xFFFFFFFF → writeAllowed s p c.t (ckGen l) (ckKey l) = true →
     (inScratch s c.t (64 * ckSlot l) = true → lineReady s c.t (64 * ckSlot l) = true) →
     useDesc s c.t f.descs 0 (ckSlot l) { tile := some c.t } = (.ok d, u) → descReady u c.t d = true →
     let lines := (captureLines u c.t d true).1
     makeRoom (captureLines u c.t d true).2 p (halfOf c.t) (64 * countStored lines) = some v →
     ∃ t, exec (.checkpoint g) s = .next t ∧
       t.rk.programming = v.rk.programming ++
         [{ queue := g.val, idx := c.idx,
            work := .piece p (ckGen l)
              { tile := c.t, key := ckKey l, desc := slotLine u c.t f.descs (ckSlot l), lines := lines } }] ∧
       (openGen t p).isSome = true ∧
       (t.queue g.val).inflight = (v.queue g.val).inflight ++ [{ idx := c.idx, line := l, task := c.task }]) ∧
  (∀ (s : State) (g : Fin 16384) (f : Fetched) (x : Gen), Issues s g.val f → hdrOpcode f.line = 0x50 →
     ckOp f.line = 1 → openGen s (tileParty s (g.val / 256)) = some x → x.gen = ckGen f.line →
     ckGen f.line ≠ 0xFFFFFFFF →
     exec (.checkpoint g) s = .next s ∧ standing (s.queue g.val) = true) ∧
  (∀ (s u : State) (g : Fin 16384) (bad : List Nat) (f : Fetched) (d : Desc) (x : Piece), Issues s g.val f →
     hdrOpcode f.line = 0x51 →
     let c := commandAt s g.val f
     let l := f.line
     pieceFor s c.t (ckGen l) (ckKey l) = some x →
     (inScratch s c.t (64 * ckSlot l) = true → lineReady s c.t (64 * ckSlot l) = true) →
     useDesc s c.t f.descs 0 (ckSlot l) { write := true } = (.ok d, u) → descTile d = c.t →
     (uniqueLines d).length = x.lines.length → d.acc = false → descReady u c.t d = true →
     let v := returnLines (rereadPiece u (ckGen l) bad x).2 c.t g.val c.idx
         (returnedLines (uniqueLines d) (loseLines bad 0 x.lines))
     exec (.restore ⟨g, bad⟩) s = .next (if (loseLines bad 0 x.lines).any (fun y => y = .lost) = true
       then abortCommand (passIssue v c [{ idx := c.idx, line := l, task := c.task }]) g.val c.idx { err := .memory }
       else passIssue v c [{ idx := c.idx, line := l, task := c.task, ready := true }])) ∧
  (∀ (s u : State) (g : Fin 16384) (bad : List Nat) (f : Fetched) (d : Desc), Issues s g.val f →
     hdrOpcode f.line = 0x52 →
     let c := commandAt s g.val f
     let l := f.line
     lbRead l = false → (inScratch s c.t (64 * lbSlot l) = true → lineReady s c.t (64 * lbSlot l) = true) →
     useDesc s c.t f.descs 0 (lbSlot l) { write := false, tile := some c.t } = (.ok d, u) →
     64 * (uniqueLines d).length ≤ 2 ^ 30 → descReady u c.t d = true →
     let r := captureLines u c.t d false
     exec (.logbook ⟨g, bad⟩) s = .next (passIssue (stageLines (programWork r.2 c (.record (lbRecord r.2 c.t l r.1))) c.t
         (.command g.val c.idx) r.1) c
       [{ idx := c.idx, line := l, task := c.task }])) ∧
  (∀ (s u : State) (g : Fin 16384) (bad : List Nat) (f : Fetched) (d : Desc) (x : LogRecord), Issues s g.val f →
     hdrOpcode f.line = 0x52 →
     let c := commandAt s g.val f
     let l := f.line
     lbRead l = true → (inScratch s c.t (64 * lbSlot l) = true → lineReady s c.t (64 * lbSlot l) = true) →
     useDesc s c.t f.descs 0 (lbSlot l) { write := true, tile := some c.t } = (.ok d, u) →
     u.rk.log.find? (fun x => sameKey x (lbRecord u c.t l [])) = some x → x.lines.length = (uniqueLines d).length →
     descReady u c.t d = true →
     let v := returnLines (rereadRecord u bad x).2 c.t g.val c.idx
         (returnedLines (uniqueLines d) (loseLines bad 0 x.lines))
     exec (.logbook ⟨g, bad⟩) s = .next (if (loseLines bad 0 x.lines).any (fun y => y = .lost) = true
       then abortCommand (passIssue v c [{ idx := c.idx, line := l, task := c.task }]) g.val c.idx { err := .memory }
       else passIssue v c [{ idx := c.idx, line := l, task := c.task, ready := true }]))

/-- A finished command with nothing outstanding leaves its queue and signals, a vector command once the vector unit has done the chunks left of it (R267, R273, R297); a command in flight that meets an error aborts its task, as does the one at the issue point (R280); once an aborted task's commands have stopped its record is kept and its abort tally raised (R280, R281); fetch-ahead reads the next command line within its depth (R283); a stall of STALL_MS sets STALL (R300). Where the spec leaves a point to the model, it takes the choice of assumption log entries 85, 132 and 137. -/
def Obligations.QueueProgress : Prop :=
  (∀ (s : State) (g : Fin 16384) (idx : Word) (x : Inflight), active s = true →
     let u := vecAdvance (g.val / 256) (vecRest s g.val idx) s
     inflight? (u.queue g.val) idx = some x → canComplete u g.val x = true →
     exec (.commandComplete g idx) s =
       .next (signalFor (freeUnit (u.modQueue g.val (fun q =>
         { q with inflight := q.inflight.filter (fun y => y.idx ≠ x.idx) })) g.val x.idx) g.val x.line)) ∧
  (∀ (s : State) (g : Fin 16384) (x : Inflight) (e : CmdError), inflight? (s.queue g.val) x.idx = some x →
     active s = true → x.dead = false →
     exec (.taskAbort g x.idx e) s = .next (abortTask s g.val x.task x.idx e)) ∧
  (∀ (s : State) (g : Fin 16384) (e : CmdError), inflight? (s.queue g.val) (s.queue g.val).cmd = none →
     active s = true → standing (s.queue g.val) = true →
     exec (.taskAbort g (s.queue g.val).cmd e) s =
       .next (abortTask s g.val ((s.queue g.val).open?.getD (soloTask (s.queue g.val).cmd)) (s.queue g.val).cmd e)) ∧
  (∀ (s : State) (g : Fin 16384) (a : PendingAbort), quietAbort? s g.val = some a → active s = true →
     ∃ t, exec (.abortQuiesced g) s = .next t ∧ (t.queue g.val).aborts = (s.queue g.val).aborts.erase a ∧
       (t.queue g.val).inflight = (s.queue g.val).inflight.filter (fun x => x.task ≠ a.task) ∧
       (t.queue g.val).lastAbort = BitVec.ofNat 128 (a.payload.toNat + 2 ^ 96 * a.index.toNat)) ∧
  (∀ (s u : State) (g : Fin 16384) (idx : Word) (l : Line), active s = true → s.power.shutdown = 0 →
     (s.queue g.val).enable = true → pausedFetch (s.queue g.val) = none → (s.queue g.val).skip = none → prefetched s (g.val / 256) < 4096 →
     nextFetch (s.queue g.val) ((s.queue g.val).faDepth + 1) (s.queue g.val).cmd = some idx →
     let off := ringOff (s.queue g.val) idx
     inScratch s (g.val / 256) off = true → lineReady s (g.val / 256) off = true →
     readLine s (g.val / 256) off = (some l, u) → exec (.fetchAhead g) s = .next (fetchCommand u g.val idx l)) ∧
  (∀ (s : State) (g : Fin 16384) (t0 : Nat), (s.queue g.val).stallFrom = some t0 → (s.queue g.val).stall = false →
     (s.queue g.val).stallMs ≠ 0 → standing (s.queue g.val) = true → active s = true →
     ∃ t, exec (.stallTimeout g) s = .next t ∧ (t.queue g.val).stall = true ∧ (t.queue g.val).stallFrom = some t0 ∧
       (t.queue g.val).cmd = (s.queue g.val).cmd ∧
       t.now = s.now + dueIn s (t0 + 1000000 * (s.queue g.val).stallMs))

/-- A doorbell within range moves TAIL, one out of range is posted and changes no queue (R260), and a host function's doorbells and tally writes first wait for its lines (R446). The ring is set while the queue is disabled and idle (R263); CTRL enables a queue whose ring lies in scratch or that is enabled already, disables one, and sets the depth, the priority and the stall limit (R262, R264); ABORT.GO aborts what is open or stands at the issue point, and with neither does nothing (R282); a tally is set or added to (R275). Where the spec leaves a point to the model, it takes the choice of assumption log entry 86. -/
def Obligations.QueueRegisters : Prop :=
  (∀ (s : State) (p : Path) (g : Fin 16384) (v : Word), pageGate s p (g.val / 256) (0x80 * g.val) = true →
     exec (.doorbellWrite p g v) s = .next (answer (pageWrite s p (0x80 * g.val) v) .ok)) ∧
  (∀ (s : State) (g : Nat) (v : Word),
     (if (v - queueHead (s.queue g)).toNat ≤ 2 ^ (s.queue g).sizeLog2 ∧
         (v - (s.queue g).tail).toNat ≤ (v - queueHead (s.queue g)).toNat
       then ((ringDoorbell s g v).queue g).tail = v else (ringDoorbell s g v).queues = s.queues) ∧
     (∀ m, g < 16384 → pageWrite s (.msg m) (0x80 * g) v = ringDoorbell s g v)) ∧
  (∀ (s : State) (p : Path) (g : Fin 16384) (v : Word), pageGate s p (g.val / 256) (0x80 * g.val + 0x10) = true →
     (s.queue g.val).enable = false → queueHead (s.queue g.val) = (s.queue g.val).tail →
     ∃ t, exec (.queueRingWrite p g v) s = .next t ∧ (t.queue g.val).base = bits v.toNat 0 24 ∧
       (t.queue g.val).sizeLog2 = clampTo 4 16 (bits v.toNat 24 5) ∧ (t.queue g.val).tail = 0 ∧
       (t.queue g.val).cmd = 0 ∧ (t.queue g.val).enable = false ∧ t.reply = { status := .ok }) ∧
  (∀ (s : State) (p : Path) (g : Fin 16384) (v : Word), pageGate s p (g.val / 256) (0x80 * g.val + 0x14) = true →
     ∃ t, exec (.queueCtrlWrite p g v) s = .next t ∧
       (t.queue g.val).enable = (decide (bits v.toNat 0 1 = 1) &&
         ((s.queue g.val).enable || ringInScratch s (g.val / 256) (s.queue g.val))) ∧
       (t.queue g.val).faDepth = bits v.toNat 1 5 ∧ (t.queue g.val).priority = bits v.toNat 6 2 ∧
       (t.queue g.val).stallMs = min 60000 (bits v.toNat 16 16) ∧ t.reply = { status := .ok }) ∧
  (∀ (s : State) (p : Path) (g : Fin 16384), pageGate s p (g.val / 256) (0x80 * g.val + 0x1C) = true →
     ((s.queue g.val).open?.isSome = true ∨ ((s.queue g.val).skip = none ∧ (s.queue g.val).cmd ≠ (s.queue g.val).tail) →
       exec (.queueAbort p g) s = .next (answer (failAtIssue s g.val { err := .request }) .ok)) ∧
     ((s.queue g.val).open? = none → (s.queue g.val).skip.isSome = true ∨ (s.queue g.val).cmd = (s.queue g.val).tail →
       exec (.queueAbort p g) s = .next (answer s .ok))) ∧
  (∀ (s : State) (m : Fin 4) (k : Fin 131072) (v : Word), pageGate s (.msg m) (k.val / 2048) (0x200000 + 16 * k.val) = true →
     exec (.tallyValueWrite (.msg m) k v) s = .next (answer (s.setTally k.val (bits v.toNat 0 31)) .ok)) ∧
  (∀ (s : State) (m : Fin 4) (k : Fin 131072) (v : Word),
     pageGate s (.msg m) (k.val / 2048) (0x200000 + 16 * k.val + 4) = true →
     exec (.tallyAddWrite (.msg m) k v) s = .next (answer (s.setTally k.val (s.tally k.val + bits v.toNat 0 16)) .ok)) ∧
  (∀ (s : State) (p : Path) (k : Fin 131072) (v : Word),
     (pageGate s p (k.val / 2048) (0x200000 + 16 * k.val) = true →
       exec (.tallyValueWrite p k v) s = .next (answer (pageWrite s p (0x200000 + 16 * k.val) v) .ok)) ∧
     (pageGate s p (k.val / 2048) (0x200000 + 16 * k.val + 4) = true →
       exec (.tallyAddWrite p k v) s = .next (answer (pageWrite s p (0x200000 + 16 * k.val + 4) v) .ok)))

/-- The oldest call of a guide core is answered: an echo with its arguments, the firmware's version and digest, the repair log and the sensor record through the descriptor they name, a service that the panel does not define with STATUS 1 and the sender's words, a service that met a fault with STATUS 2 or 3 (R304, R305, R630, R644); a call not answered within 1 ms fails with STATUS 3 (R304); MAILBOX.GO adds the mailbox's call when none waits (R306). Where the spec leaves a point to the model, it takes the choice of assumption log entries 66 and 112. -/
def Obligations.GuideCores : Prop :=
  (∀ (s : State) (t : Fin 64) (core : Fin 2) (status : Word) (results : List Word) (r : GuideReq),
     served? s t.val core.val = some r → active s = true → s.now ≤ r.since + 1000000 →
     (r.service = 1 → status = 0 →
       exec (.guideAnswer t core status results) s = .next (giveAnswer s t.val r 0 (r.args.take 3))) ∧
     (r.service = 3 → status = 0 →
       exec (.guideAnswer t core status results) s = .next (giveAnswer s t.val r 0
         [Config.guideFw &&& 0xFFFF, Config.guideFw >>> 16, Config.guideDigest])) ∧
     (∀ st rs u, r.service = 2 ∨ r.service = 4 → status = 0 → serve s t.val r results = .answer st rs u →
       exec (.guideAnswer t core status results) s = .next (giveAnswer u t.val r st rs)) ∧
     (r.service = 0 ∨ 4 < r.service →
       exec (.guideAnswer t core status results) s = .next (giveAnswer s t.val r 1 results)) ∧
     (1 ≤ r.service → r.service ≤ 4 → status ≠ 0 →
       exec (.guideAnswer t core status results) s = .next (giveAnswer s t.val r (if status = 2 then 2 else 3) results))) ∧
  (∀ (s : State) (t : Fin 64) (core : Fin 2) (r : GuideReq), served? s t.val core.val = some r → active s = true →
     exec (.guideCallTimeout t core) s = .next (giveAnswer (s.passTo (r.since + 1000000)) t.val r 3 [])) ∧
  (∀ (s : State) (t : Nat) (r : GuideReq) (status : Nat) (results : List Word),
     (r.queue = none → (giveAnswer s t r status results).tile t = { s.tile t with guide := (s.tile t).guide.erase r } ∧
       (giveAnswer s t r status results).reg (tilA t 0x5140) = BitVec.ofNat 32 status) ∧
     (∀ g i, r.queue = some (g, i) → giveAnswer s t r status results =
       if status = 0 then finishCommand (dropRequest s t r) g i else abortCommand (dropRequest s t r) g i { err := .guide })) ∧
  (∀ (s : State) (p : Path) (t : Fin 64), ownerGate s p (tilA t.val 0x5130) = true → mailboxBusy s t.val = false →
     ∃ u, exec (.guideMailboxGo p t) s = .next u ∧
       (u.tile t.val).guide = (s.tile t.val).guide ++
         [{ queue := none, core := bits (s.reg (tilA t.val 0x5100)).toNat 8 1,
            service := bits (s.reg (tilA t.val 0x5100)).toNat 0 8,
            args := (List.range 11).map (fun k => s.reg (tilA t.val (0x5100 + 4 * (k + 1)))), since := s.now }] ∧
       u.reply = { status := .ok })

/-- A loading pass starts to fill the shadow with its stationary operand, two rows a cycle, once the shadow, the bus and the first rows are free (R115, R117); its input rows join the pass (R123); at its first broadcast the shadow becomes the active operand, unless the pass keeps the one in force, and a limiter that holds it back makes the cycle a RAMP cycle (R114, R116, R119, R126); a running pass broadcasts the lanes that are ready, and vectors whose sums arrive count as done (R103, R143); a pass that is over leaves its engine and completes (R112); an idle engine falls at the end of its window, and D takes its steps (R126); ME_FOLD makes the staged fields active (R136). Where the spec leaves a point to the model, it takes the choice of assumption log entries 37, 80, 137, 145 and 146. -/
def Obligations.MatrixEngine : Prop :=
  (∀ (s u : State) (t : Fin 64) (e : Fin 4) (p : Pass) (o : Operand) (vs : List Machine.Num),
     let i := 4 * t.val + e.val
     let l := p.line
     (s.engine i).passes.find? (fun p => !p.loaded && !p.begun) = some p →
     passOperand p (mpSSlot l) (mpSFmt l) (mpSNoEsc l) = some o → (s.engine i).shadow = none →
     (s.engine i).bus = 0 → (s.engine i).frontIn = 0 →
     active s = true → operandReady s t.val o = true → loadValues s t.val o 0 (mpRows l * mpCols l) = (.ok vs, u) →
     ∃ v, exec (.stationaryLoadStart t e) s = .next v ∧
       (v.engine i).shadow = some
         { tag := mpTag l, fmt := mpSFmt l, rows := mpRows l, cols := mpCols l,
           sref := if tasted l then some (srefSlot l) else none, elems := intoRows (mpCols l) (mpRows l) vs } ∧
       (v.engine i).bus = (mpRows l + 1) / 2 ∧
       (∀ y ∈ (v.engine i).passes, y.queue = p.queue → y.idx = p.idx → y.loaded = true)) ∧
  (∀ (s u : State) (t : Fin 64) (e : Fin 4) (rows : Nat) (p : Pass) (o : Operand) (vs : List Machine.Num),
     let i := 4 * t.val + e.val
     let l := p.line
     let n := min rows (mpInputs l - p.rows.length)
     (s.engine i).passes.find? (fun p => !drainOnly p.line && p.rows.length < mpInputs p.line) = some p →
     passOperand p (mpMSlot l) (mpMFmt l) (mpMNoEsc l) = some o → active s = true →
     operandReady s t.val o = true →
     loadValues s t.val o (p.rows.length * mpSegment l) (n * mpSegment l) = (.ok vs, u) →
     exec (.movingDataArrival t e rows) s =
       .next (modPass u i p (fun y => { y with rows := y.rows ++ intoRows (mpSegment l) n vs }))) ∧
  (∀ (s : State) (t : Fin 64) (e : Fin 4) (cycles : Nat) (p : Pass),
     let i := 4 * t.val + e.val
     let v := passCycles s t.val e.val cycles
     let x := v.engine i
     active s = true → slotOf x = .first p →
     (mayBroadcast x = true → ∃ u, exec (.passFirstBroadcast t e cycles) s = .next u ∧
       (u.engine i).active = (if mpKeep p.line then x.active else x.shadow) ∧
       (u.engine i).shadow = (if mpKeep p.line then x.shadow else none) ∧ (u.engine i).orient = mpTrans p.line ∧
       u.reg64 (meA t.val e.val 0x10) = (v.reg64 (meA t.val e.val 0x10) + 1) % 2 ^ 64 ∧
       (∀ y ∈ (u.engine i).passes, y.queue = p.queue → y.idx = p.idx → y.begun = true)) ∧
     (mayBroadcast x = false → ∃ u, exec (.passFirstBroadcast t e cycles) s = .next u ∧
       (u.engine i).passes = x.passes ∧ (u.engine i).active = x.active ∧
       u.reg64 (meA t.val e.val 0x38) = (v.reg64 (meA t.val e.val 0x38) + 1) % 2 ^ 64)) ∧
  (∀ (s : State) (t : Fin 64) (e : Fin 4) (vectors cycles : Nat) (p : Pass),
     let i := 4 * t.val + e.val
     active s = true → arrivingPass ((passCycles s t.val e.val cycles).engine i) = some p →
     ∃ u, exec (.passSumArrival t e vectors cycles) s = .next u ∧
       (∀ y ∈ (u.engine i).passes, y.queue = p.queue → y.idx = p.idx → y.done = p.done + min vectors (p.sent - p.done))) ∧
  (∀ (s : State) (t : Fin 64) (e : Fin 4) (p : Pass),
     let i := 4 * t.val + e.val
     let x := s.engine i
     let lanes := min (mpVectors p.line - p.sent) ((pairLanes p.line).getD 1)
     active s = true → slotOf x = .vector p → mayBroadcast x = true → mpMFmt p.line ≠ 1 →
     ∃ u, exec (.passSumArrival t e 0 1) s = .next u ∧
       (∀ y ∈ (u.engine i).passes, y.queue = p.queue → y.idx = p.idx → y.sent = p.sent + lanes) ∧
       (u.engine i).history = (x.history <<< 1) ||| 1 ∧ (u.engine i).idleRun = 0 ∧
       u.reg64 (meA t.val e.val 0x10) = (s.reg64 (meA t.val e.val 0x10) + 1) % 2 ^ 64) ∧
  (∀ (s : State) (t : Fin 64) (e : Fin 4) (p : Pass),
     let i := 4 * t.val + e.val
     (s.engine i).passes.find? passOver = some p → active s = true →
     ∃ u, exec (.passComplete t e) s = .next (finishCommand u p.queue p.idx) ∧
       (∀ y ∈ (u.engine i).passes, ¬(y.queue = p.queue ∧ y.idx = p.idx)) ∧ u.queues = s.queues) ∧
  (∀ (s : State) (t : Fin 64) (e : Fin 4),
     let i := 4 * t.val + e.val
     let x := s.engine i
     let k := enginePace s t.val e.val
     panelRuns s = true → x.passes = [] →
     (x.ramp = .hold → x.idleRun < k.window → ∃ u, exec (.engineWindowExpired t ⟨e.val, by omega⟩) s = .next u ∧
       (u.engine i).ramp = .fall ∧ (u.engine i).idleRun = k.window ∧ (u.engine i).limit = x.limit ∧
       u.reg64 (meA t.val e.val 0x40) = (s.reg64 (meA t.val e.val 0x40) + (k.window - x.idleRun)) % 2 ^ 64) ∧
     (x.ramp = .fall → x.rampRun < k.step → ∃ u, exec (.engineRampStep t ⟨e.val, by omega⟩) s = .next u ∧
       (u.engine i).limit = x.limit - 1 ∧ (u.engine i).ramp = (if x.limit - 1 = 0 then .cold else .fall) ∧
       (u.engine i).rampRun = 0) ∧
     (x.ramp = .rise → x.rampRun < k.step → x.limit < 64 → x.idleRun + (k.step - x.rampRun) < k.window →
       ∃ u, exec (.engineRampStep t ⟨e.val, by omega⟩) s = .next u ∧ (u.engine i).limit = x.limit + 1 ∧
         (u.engine i).ramp = (if x.limit = 63 then .run else .rise) ∧ (u.engine i).rampRun = 0)) ∧
  (∀ (s : State) (t : Fin 64),
     let x := (s.tile t.val).vecRamp
     let k := vectorPace s t.val
     panelRuns s = true →
     (x.ramp = .hold → x.idleRun < k.window → ∃ u, exec (.engineWindowExpired t 4) s = .next u ∧
       (u.tile t.val).vecRamp.ramp = .fall ∧ (u.tile t.val).vecRamp.idleRun = k.window) ∧
     (x.ramp = .fall → x.rampRun < k.step → ∃ u, exec (.engineRampStep t 4) s = .next u ∧
       (u.tile t.val).vecRamp.limit = x.limit - 1)) ∧
  (∀ (s : State) (p : Path) (t : Fin 64), ownerGate s p (tilA t.val 0x2400) = true →
     ∃ u, exec (.meFold p t) s = .next u ∧ u.reply = { status := .ok } ∧
       (∀ e < 4, u.reg (meA t.val e 0) = (s.stagedAt (meA t.val e 0)).getD (s.reg (meA t.val e 0)) ∧
         u.stagedAt (meA t.val e 0) = none))

/-- A bank whose lanes are all written is IDLE, or waits for its drain (R146); the oldest drain request starts on a bank that waits, and one of an EMPTY extent, or of a bank that an abort had taken, completes at once (R148 to R150); the last read empties the bank's extent, writes the results and frees the unit for the next drain, and a result that the memory refuses aborts the drain's task (R148, R280); a drain that completes frees its unit and its pass knows (R148, R158); a bank whose 256 cycles of ZERO are over holds no word (R142, R146). Where the spec leaves a point to the model, it takes the choice of assumption log entries 81 and 137. -/
def Obligations.BanksAndDrains : Prop :=
  (∀ (s : State) (t : Fin 64) (b : Fin 8),
     let n := 8 * t.val + b.val
     (s.bank n).state = .fill → active s = true → fillOver s n = true →
     ((s.bank n).latestDrain = false →
       exec (.bankFillDone t b) s = .next (admitReady (s.setBank n { s.bank n with state := .idle }) (bankEngine n))) ∧
     (∀ a p, (s.bank n).latestDrain = true → (s.bank n).admitted.getLast? = some a →
       passOf s (bankEngine n) a.1 a.2 = some p →
       ∃ u, exec (.bankFillDone t b) s = .next u ∧ (u.bank n).state = .drainWait ∧
         (u.drain (bankEngine n)).requests = (s.drain (bankEngine n)).requests ++
           [{ bank := passBank (bankEngine n) p, queue := p.queue, idx := p.idx, empty := p.stray }])) ∧
  (∀ (s : State) (t : Fin 64) (e : Fin 4) (r : DrainReq) (rs : List DrainReq),
     let i := 4 * t.val + e.val
     (s.drain i).current = none → (s.drain i).requests = r :: rs → active s = true →
     ((s.bank r.bank).state = .drainWait → r.empty = false → (s.bank r.bank).extent.isSome = true →
       exec (.drainStart t e) s =
       .next ((s.setDrain i { s.drain i with requests := rs, current := some r }).setBank r.bank
         { s.bank r.bank with state := .drain })) ∧
     (r.empty = true ∧ (s.bank r.bank).state ≠ .zero ∨ (s.bank r.bank).state = .drainWait ∧ (s.bank r.bank).extent = none →
       let rests := if (s.bank r.bank).state = .drainWait ∧ rs.all (fun y => y.bank ≠ r.bank) = true
         then .idle else (s.bank r.bank).state
       exec (.drainStart t e) s =
       .next (admitReady (drainedPass ((s.setDrain i { s.drain i with requests := rs }).setBank r.bank
         { s.bank r.bank with state := rests }) i r) i))) ∧
  (∀ (s : State) (t : Fin 64) (e : Fin 4) (r : DrainReq) (p : Pass) (x : Extent),
     let i := 4 * t.val + e.val
     let k := s.bank r.bank
     let rows := extentRows k x
     let words := rows.foldl (fun ws r => (List.range (drainWidth k.trans x)).foldl (fun ws c =>
       mset 0 ws (bankWord k.trans r.1 c) 0) ws) k.words
     let emptied := s.setBank r.bank { k with words := words, extent := none, state := .idle }
     (s.drain i).current = some r → passOf s i r.queue r.idx = some p → k.extent = some x →
     active s = true → drainReady s t.val p = true →
     ∃ u, (u.drain i).current = none ∧
       (u.drain i).ending = (s.drain i).ending ++ [(r, (drainWrites emptied t.val p rows).2.1)] ∧
       u.mem = (drainWrites emptied t.val p rows).2.2.mem ∧
       ((drainWrites emptied t.val p rows).1 = none → exec (.drainLastRead t e) s = .next (admitReady u i)) ∧
       (∀ c, (drainWrites emptied t.val p rows).1 = some c →
         exec (.drainLastRead t e) s = .next (abortCommand u r.queue r.idx c))) ∧
  (∀ (s : State) (t : Fin 64) (e : Fin 4) (r : DrainReq) (flags : Nat) (rest : List (DrainReq × Nat)) (p : Pass),
     let i := 4 * t.val + e.val
     (s.drain i).ending = (r, flags) :: rest → active s = true → passOf s i r.queue r.idx = some p →
     ∃ u, exec (.drainComplete t e) s = .next u ∧ (u.drain i).ending = rest ∧
       (u.drain i).requests = (s.drain i).requests ∧ (u.drain i).current = (s.drain i).current ∧
       (∀ y ∈ (u.engine i).passes, y.queue = p.queue → y.idx = p.idx → y.drained = true)) ∧
  (∀ (s : State) (t : Fin 64) (b : Fin 8),
     let n := 8 * t.val + b.val
     (s.bank n).state = .zero → active s = true →
     exec (.bankZeroExpired t b) s = .next (admitReady
       (s.setBank n { s.bank n with words := [], state := if drainAsked s n then .drainWait else .idle }) (bankEngine n)))

/-- The oldest captured sample is recomputed, and one that can be waits for its record beside its sums, while one whose reference cannot be read is skipped and counted (R166 to R168); the oldest result is recorded in its watch, counted, and its place released (R168, R169); WATCH.CLEAR zeroes a watch's statistics and leaves its settings (R175); TASTE_FOLD makes the staged settings active (R172). Where the spec leaves a point to the model, it takes the choice of assumption log entry 91. -/
def Obligations.Taster : Prop :=
  (∀ (s u : State) (t : Fin 64) (k : Sample) (ks : List Sample) (p : Pass) (refs : List Machine.Num),
     let cycles := (mpLen p.line * mpWidth p.line + 2047) / 2048
     let s1 := s.modTile t.val (fun x => { x with samples := ks })
     let s2 := vecWork ((s1.count64 (tilA t.val 0x5028) cycles).count64 (tilA t.val 0x5030) cycles) t.val cycles
     (s.tile t.val).samples = k :: ks → active s = true → passOf s (4 * t.val + k.engine) k.queue k.idx = some p →
     (recompute s2 t.val p k = (none, u) → exec (.tasterRecompute t) s = .next
       (admitReady (releaseSample (u.count32 (watchA t.val k.watch 0x14) 1) t.val k.engine k.bank k.queue k.idx)
         (4 * t.val + k.engine))) ∧
     (recompute s2 t.val p k = (some refs, u) →
     ∃ v, exec (.tasterRecompute t) s = .next v ∧ (v.tile t.val).samples = (u.tile t.val).samples ∧
       (v.tile t.val).results = (u.tile t.val).results ++
         [{ engine := k.engine, bank := k.bank, queue := k.queue, idx := k.idx, watch := k.watch, sums := k.sums,
            refs := refs, decoded := k.stat.isSome }])) ∧
  (∀ (s : State) (t : Fin 64) (r : TasterResult) (rs : List TasterResult), (s.tile t.val).results = r :: rs →
     active s = true →
     ∃ u, exec (.tasterSampleRecord t) s = .next u ∧ (u.tile t.val).results = rs ∧
       u.reg (watchA t.val r.watch 0x08) = satAdd (s.reg (watchA t.val r.watch 0x08)) 1) ∧
  (∀ (s : State) (p : Path) (t : Fin 64) (w : Fin 256), ownerGate s p (watchA t.val w.val 4) = true →
     ∃ u, exec (.watchClear p t w) s = .next u ∧ u.reply = { status := .ok } ∧
       (∀ k, 1 ≤ k → k ≤ 23 → u.reg (watchA t.val w.val (4 * k)) = 0) ∧
       u.reg (watchA t.val w.val 0) = s.reg (watchA t.val w.val 0)) ∧
  (∀ (s : State) (p : Path) (t : Fin 64), ownerGate s p (tilA t.val 0x2C04) = true →
     exec (.tasteFold p t) s = .next (answer (s.foldReg (tilA t.val 0x2C00)) .ok))

/-- Writing lines puts each mapped one at its address, clears its poison, and changes no byte outside them (R177, R179, R217). So REG_COPY, RESTORE and LOGBOOK, whose meaning writes lines of one descriptor, store nowhere else. -/
def Obligations.TileStores : Prop :=
  (∀ (s : State) (t : Nat) (ls : List (Nat × Line)) (who : MirrorOwner), (∀ x ∈ ls, x.1 % 64 = 0) →
     (∀ a, (∀ x ∈ ls, a < tileAddr t x.1 ∨ tileAddr t x.1 + 64 ≤ a) → (writeLines s t ls who).byte a = s.byte a) ∧
     (ls.Pairwise (fun x y => x.1 ≠ y.1) → ∀ x ∈ ls, mapped s t x.1 = true → (writeLines s t ls who).line (tileAddr t x.1) = x.2 ∧
       mget false (writeLines s t ls who).poison (lineNo t x.1) = false)) ∧
  (∀ (s u v : State) (g : Fin 16384) (f : Fetched) (d : Desc), Issues s g.val f → hdrOpcode f.line = 0x05 →
     useDesc s (g.val / 256) f.descs 0 (rcDst f.line)
       { write := true, kinds := [kindByte], tile := some (g.val / 256), count := some (64 * rcLines f.line) } = (.ok d, u) →
     exec (.regCopy g) s = .next v →
     ∀ a, (∀ k < descLines d, a < tileAddr (g.val / 256) (lineAt d k) ∨ tileAddr (g.val / 256) (lineAt d k) + 64 ≤ a) →
       v.byte a = s.byte a)

/-- A write burst of a hamper channel puts its lines in memory, a read burst changes no byte, and no burst changes a byte outside its lines; its request no longer waits (R192, R196); a granule whose transfer fails five times in a row takes the panel into the safe state with cause HAMPER_FAIL (R215); the oldest waiting request of class 1 or 2 that is not aged becomes aged (R197); scrubbing moves to the next granule or line (R218); zeroing clears what its front passes (R211); accesses that waited proceed (R212); the memory's registers are folded, and its high-water mark and error address cleared (R223, R224, R227). Where the spec leaves a point to the model, it takes the choice of assumption log entries 68, 78 and 84. -/
def Obligations.HamperMemory : Prop :=
  (∀ (s : State) (t : Fin 64) (c : Fin 32) (arrivals : List HamperReq) (errors : List (Nat × EccFinding))
     (retries : List Nat) (r : HamperReq),
     let k := 32 * t.val + c.val
     let v := arrivals.foldl (arriveReq t.val) s
     active s = true → nextRequest (v.channel k) = some r → s.fabric.stalled = [] →
     (runOffsets r.offset r.lines).all inHamper = true → (runOffsets r.offset r.lines).all (frontPassed s t.val) = true →
     r.offset % 64 = 0 →
     let tries := retries.take ((r.offset % 128 / 64 + r.lines + 1) / 2)
     ((∀ n ∈ tries, n ≤ 4) →
       ∃ u, exec (.hamperBurst t c arrivals errors retries) s = .next u ∧
         (u.channel k).waiting = (v.channel k).waiting.erase r ∧
         (∀ h, r.kind = .read h → u.mem = s.mem) ∧
         (∀ d, r.kind = .write d → ∀ k < r.lines, k < d.length →
           u.line (tileAddr t.val (r.offset + 64 * k)) = d.getD k 0) ∧
         (∀ a, a < tileAddr t.val r.offset ∨ tileAddr t.val (r.offset + 64 * r.lines) ≤ a → u.byte a = s.byte a)) ∧
     ((∃ n ∈ tries, 4 < n) → s.safe.active = false →
       ∃ u, exec (.hamperBurst t c arrivals errors retries) s = .next u ∧ u.mem = s.mem ∧ u.safe.active = true ∧
         u.field 0x10100 8 8 = 0x06)) ∧
  (∀ (s : State) (t : Fin 64) (c : Fin 32) (r : HamperReq),
     let k := 32 * t.val + c.val
     (s.channel k).waiting.find? (fun r => reqClass r ≠ 0 && !r.aged) = some r →
     exec (.agedRequest t c) s = .next (s.setChannel k { s.channel k with
       waiting := (s.channel k).waiting.map (fun x => if x = r then { r with aged := true } else x) })) ∧
  (∀ (s : State) (t : Fin 64) (errors : List (Nat × EccFinding)), active s = true →
     (∀ c : Fin 32, hamperZeroes (s.tile t.val).zero = false → ∃ u, exec (.scrubUnit t (.hamper c) errors) s = .next u ∧
       (u.channel (32 * t.val + c.val)).scrub = ((s.channel (32 * t.val + c.val)).scrub + 1) % 147456) ∧
     (∀ b : Fin 128, basketZeroes (s.tile t.val).zero = false → ∃ u, exec (.scrubUnit t (.basket b) errors) s = .next u ∧
       mget 0 (u.tile t.val).basketScrub b.val = (mget 0 (s.tile t.val).basketScrub b.val + 1) % 12288)) ∧
  (∀ (s : State) (t : Fin 64) (paces : Nat),
     let z := (s.tile t.val).zero
     z.active = true → s.power.pwrgd = true →
     ∃ u, exec (.zeroingStep t paces) s = .next u ∧ u.now = max s.now (z.began + 64 * (z.paces + paces)) ∧
       (u.tile t.val).zero.paces = z.paces + paces ∧ (u.tile t.val).zero.hamper = min 147456 (z.hamper + paces) ∧
       (∀ off, inHamper off = true → z.hamper ≤ channelGranule off → channelGranule off < min 147456 (z.hamper + paces) →
         u.byte (tileAddr t.val off) = 0)) ∧
  (∀ (s : State) (t : Fin 64) (x : Nat × Packet), linksAlive s = true → s.fabric.stalled = [x] → x.1 = t.val →
     x.2.ty = tySignal ∨ linesReady s t.val (packetLines x.2) = true →
     (x.2.ty = tySignal ∨ (packetLines x.2).all (packetFits s t.val x.2) = true →
       exec (.zeroingFrontPass t) s = .next (performAtTile { s with fabric := { s.fabric with stalled := [] } } t x.2)) ∧
     (x.2.ty ≠ tySignal → (packetLines x.2).all (packetFits s t.val x.2) = false →
       exec (.zeroingFrontPass t) s =
         .next (rejectPacket { s with fabric := { s.fabric with stalled := [] } } (.tile t) x.2 nackAddress))) ∧
  (∀ (s : State) (p : Path) (t : Fin 64), ownerGate s p (tilA t.val 0x3004) = true →
     exec (.memFold p t) s = .next (answer (foldMemory s t.val) .ok)) ∧
  (∀ (s : State) (p : Path) (t : Fin 64),
     (ownerGate s p (tilA t.val 0x3010) = true →
       exec (.stashHwmClear p t) s = .next (answer (s.setReg (tilA t.val 0x3010) 0) .ok)) ∧
     (ownerGate s p (tilA t.val 0x305C) = true →
       exec (.memErrAddrClear p t) s = .next (answer ((s.setReg (tilA t.val 0x3058) 0).setReg (tilA t.val 0x305C)
         (s.reg (tilA t.val 0x305C) &&& 4)) .ok)))

/-- A mover whose chunk's source lines are in hand and readable writes the chunk; a remote source whose lines are not all here is asked for those not asked for yet, and so is the source of a block that has still to pass the exchange network; a line that cannot be read aborts the command (R242, R280). The exchange network takes the block of the mover whose turn it is (R245, R248). Where the spec leaves a point to the model, it takes the choice of assumption log entries 31 and 32. -/
def Obligations.Moves : Prop :=
  (∀ (s u : State) (t : Fin 64) (m : Fin 4) (j : MoveJob), s.mover (4 * t.val + m.val) = some j →
     active s = true → jobOpen j = true →
     (mvXchg j.line = true → j.inside = false →
       exec (.moveChunk t m) s = .next (askChunk s t.val (4 * t.val + m.val) j (jobPlan j))) ∧
     ((mvXchg j.line = true → j.inside = true) → chunkWritable s t.val j (jobPlan j) = true →
       (chunkLines s t.val j (jobPlan j) = none →
         exec (.moveChunk t m) s = .next (askChunk s t.val (4 * t.val + m.val) j (jobPlan j))) ∧
       (∀ got, chunkLines s t.val j (jobPlan j) = some (got, u) →
         (got.all (·.isSome) = true →
           exec (.moveChunk t m) s = .next (writeChunk u t.val (4 * t.val + m.val) j (jobPlan j) got)) ∧
         (got.all (·.isSome) = false →
           exec (.moveChunk t m) s = .next (abortCommand u j.queue j.idx (sourceFault u t.val j)))))) ∧
  (∀ (s u : State) (t : Fin 64) (m : Nat) (j : MoveJob) (got : List (Option Line)), active s = true →
     ((List.range 4).map (fun i => ((s.tile t.val).lastMover + 1 + i) % 4)).find? (blockReady s t.val) = some m →
     s.mover (4 * t.val + m) = some j → chunkLines s t.val j (jobPlan j) = some (got, u) →
     (got.all (·.isSome) = true →
       ∃ v, exec (.exchangeBlock t) s = .next v ∧ (v.tile t.val).lastMover = m ∧
         (v.mover (4 * t.val + m)).map (·.inside) = some true ∧
         (v.mover (4 * t.val + m)).map (·.next) = some j.next ∧ v.mem = u.mem) ∧
     (got.all (·.isSome) = false → exec (.exchangeBlock t) s =
       .next (abortCommand (u.modTile t.val (fun x => { x with lastMover := m })) j.queue j.idx
         (sourceFault (u.modTile t.val (fun x => { x with lastMover := m })) t.val j))))

/-- A WRITE, WRITE_ACC, READ_REQ or SIGNAL that its tile accepts is performed, unless its lines or a packet before it make it stall, when it waits behind those that stall (R212, R324, R326, R329); one for a guest's window goes to the guest (R52), one of another epoch is only counted and one that fails a check is rejected for the reason of the first (R326). A host bridge performs writes and reads of its staging range (R448). A WRITE changes no byte outside its lines, a READ_REQ and a SIGNAL none, and a SIGNAL raises its tally by the increment it carries (R270). Where the spec leaves a point to the model, it takes the choice of assumption log entries 27, 29 and 38. -/
def Obligations.RequestPackets : Prop :=
  (∀ (s u : State) (ep : Endpoint) (p : Packet) (c : Instr) (ty : Nat),
     (c, ty) ∈ [(Instr.writePacket ep, tyWrite), (.writeAccPacket ep, tyWriteAcc), (.readReq ep, tyReadReq),
       (.signal ep, tySignal)] →
     (∀ t, ep = .tile t → taken s ep ty = some (p, u) → tileVerdict u t p = .accept →
       packetStalls u t.val u.fabric.stalled p = false → exec c s = .next (performAtTile u t p)) ∧
     (∀ t, ep = .tile t → taken s ep ty = some (p, u) → tileVerdict u t p = .accept →
       packetStalls u t.val u.fabric.stalled p = true → exec c s =
         .next { u with fabric := { u.fabric with stalled := u.fabric.stalled ++ [(t.val, p)] } }) ∧
     (∀ t n, ep = .tile t → taken s ep ty = some (p, u) → tileVerdict u t p = .guest n →
       exec c s = .next (u.emit (.guestPacket (Fin.ofNat 4 n) p))) ∧
     (∀ r, taken s ep ty = some (p, u) →
       (∃ t, ep = .tile t ∧ tileVerdict u t p = .reject r) ∨ (∃ h, ep = .bridge h ∧ bridgeVerdict u h p = .reject r) →
       exec c s = .next (rejectPacket u ep p r)) ∧
     (taken s ep ty = some (p, u) →
       (∃ t, ep = .tile t ∧ tileVerdict u t p = .stale) ∨ (∃ h, ep = .bridge h ∧ bridgeVerdict u h p = .stale) →
       exec c s = .next (u.count32 (tilA (countTile u ep) 0x6078) 1)) ∧
     (∀ h, ep = .bridge h → taken s ep ty = some (p, u) → bridgeVerdict u h p = .accept →
       (ty = tyWrite →
         let put := fun (m : SMap Byte) (x : Nat × Line) => writeNat m 64 (2 ^ 26 * h.val + x.1) x.2.toNat
         let v := { u with staging := ((packetLines p).zip p.payload).foldl put u.staging }
         exec c s = .next (sendAnswer v ep (answerTo u ep p.vc p tyAck (ackAux p)))) ∧
       (ty = tyReadReq → exec c s = .next (sendResponses u ep p ((packetLines p).map (fun o =>
         some (BitVec.ofNat 512 (readNat u.staging 64 (2 ^ 26 * h.val + o)))))))) ∧
     (∀ n k, ep = .guest n → linksAlive s = true → takeNext s ep ty = some k →
       exec c s = .next ((leave s k).2.emit (.guestPacket n (leave s k).1)))) ∧
  (∀ (s : State) (t : Fin 64) (p : Packet),
     (p.ty = tyWrite → p.coll = false → p.addr % 64 = 0 → ∀ a,
       (a < tileAddr t.val (p.addr % 2 ^ 34) ∨ tileAddr t.val (p.addr % 2 ^ 34 + 64 * p.payload.length) ≤ a) →
       (performAtTile s t p).byte a = s.byte a) ∧
     (p.ty = tyReadReq → (performAtTile s t p).mem = s.mem) ∧
     (p.ty = tySignal → (performAtTile s t p).mem = s.mem ∧
       (performAtTile s t p).tally (2048 * t.val + p.addr % 2048) =
         (s.tally (2048 * t.val + p.addr % 2048) + p.aux) % 2 ^ 31))

/-- An answer of the current epoch settles the packet of its source that it names, after the congestion echo it carries: an ACK by tag and sequence, whose last one acknowledges it (R325, R336), a NACK, which rejects it for the reason it gives (R326), a READ_RESP, whose lines reach the requester (R325). An answer that is badly encoded is rejected with ENCODING (R326), one of another epoch is only counted (R334), and one that names no packet is discarded (R310). The oldest unanswered packet of a source is given up after ACK_MS (R327), and a connection's rate rises after INC_US without an echo (R338). Where the spec leaves a point to the model, it takes the choice of assumption log entries 26, 40 and 137. -/
def Obligations.AnswerPackets : Prop :=
  (∀ (s u : State) (ep : Endpoint) (p : Packet) (o : Outstanding), (∀ n, ep ≠ .guest n) →
     taken s ep tyAck = some (p, u) →
     let v := countAt u ep 0x6048 true
     let w := if p.ece then echoed v ep o.conn else v
     let r := settle w o 1
     let x := match o.purpose with
       | .command g idx => collAcked r.2 g idx
       | _ => r.2
     p.mcast = 0 → currentAnswer v ep p = true → o ∈ v.fabric.sent → o.src = ep → o.tag = p.tag →
     o.seq % 65536 = p.aux → o.pkt.ty ≠ tyReadReq →
     (∀ y ∈ v.fabric.sent, y.src = ep → y.tag = p.tag → y.seq % 65536 = p.aux → y = o) →
     exec (.ack ep) s = .next (if r.1 then acknowledged x o else x)) ∧
  (∀ (s u : State) (ep : Endpoint) (p : Packet) (o : Outstanding), (∀ n, ep ≠ .guest n) →
     taken s ep tyNack = some (p, u) →
     let v := countAt (countAt u ep 0x6048 true) ep 0x6074 false
     let w := if p.ece then echoed v ep o.conn else v
     p.mcast = 0 → currentAnswer v ep p = true → sentBy? v ep p = some o →
     exec (.nack ep) s = .next (rejected (settle w o o.remain).2 o (p.aux % 256))) ∧
  (∀ (s u : State) (ep : Endpoint) (p : Packet) (o : Outstanding), (∀ n, ep ≠ .guest n) →
     taken s ep tyReadResp = some (p, u) →
     let v := countAt u ep 0x6048 true
     let w := if p.ece then echoed v ep o.conn else v
     badEncoding ep p = false → currentAnswer v ep p = true → sentBy? v ep p = some o →
     exec (.readResp ep) s = .next (responseLines (settle w o p.flits).2 ep o p)) ∧
  (∀ (s u : State) (ep : Endpoint) (p : Packet) (c : Instr) (ty : Nat), (∀ n, ep ≠ .guest n) →
     (c, ty) ∈ [(Instr.ack ep, tyAck), (.nack ep, tyNack), (.readResp ep, tyReadResp)] → taken s ep ty = some (p, u) →
     let w := countAt u ep 0x6048 true
     let v := if ty = tyNack then countAt w ep 0x6074 false else w
     (badEncoding ep p = true → exec c s = .next (rejectPacket v ep p nackEncoding)) ∧
     (badEncoding ep p = false → currentAnswer v ep p = false →
       exec c s = .next (v.count32 (tilA (countTile v ep) 0x6078) 1)) ∧
     (badEncoding ep p = false → currentAnswer v ep p = true → sentBy? v ep p = none → exec c s = .next v)) ∧
  (∀ (s : State) (n : Fin 4) (k : Copy) (c : Instr) (ty : Nat),
     (c, ty) ∈ [(Instr.ack (.guest n), tyAck), (.nack (.guest n), tyNack), (.readResp (.guest n), tyReadResp)] →
     linksAlive s = true → takeNext s (.guest n) ty = some k →
     exec c s = .next ((leave s k).2.emit (.guestPacket n (leave s k).1))) ∧
  (∀ (s : State) (ep : Endpoint) (o : Outstanding), s.fabric.sent.find? (fun o => o.src = ep) = some o →
     active s = true →
     exec (.ackTimeout ep) s =
       .next (rejected (settle ((s.passTo (o.sent + 1000000 * s.field (tilA (countTile s ep) 0x6004) 0 10)).count32
         (tilA (countTile s ep) 0x6084) 1) o o.remain).2 o 0xFF)) ∧
  (∀ (s : State) (ep : Endpoint) (key : Nat) (c : Conn), conn? s ep key = some c → ccField s ep 30 1 = 1 →
     ∃ u, exec (.ccRateIncrease ep key) s = .next u ∧ u.now = max s.now (c.lastEce + 1000 * ccField s ep 14 6) ∧
       u.fabric.conns = s.fabric.conns.map (fun x => if x = c
         then { c with rate := min 256 (c.rate + ccField s ep 8 6), lastEce := u.now } else x))

/-- A mesh port takes a packet of its neighbour, an attachment port passes one on to its guest or link, or takes a guest's packet, with the guest's party and epoch put in its header, or drops one that is malformed, and the port of the tile itself sends what its endpoint still has to send (R312, R314, R320, R53); a packet without credits at some of its outputs escapes to the footpath there after ESCAPE (R321); packets older than LIFETIME leave the router, counted and, unless they are answers, with a NACK (R328); FAB_FOLD makes the staged settings active (R350). Where the spec leaves a point to the model, it takes the choice of assumption log entries 91, 137, 158 and 172. -/
def Obligations.Routers : Prop :=
  (∀ (s : State) (t : Fin 64) (port : Fin 8) (l : Strand) (far : Bool) (c : Copy), linksAlive s = true →
     port.val < 4 → flight s t.val port.val = [] → meshStrand t.val port.val = some (l, far) → strandUp s l = true →
     nextMesh s t.val port.val = some c →
     exec (.routerPacketReceive t port none) s = .next (flushOutbox (crossMesh s t.val port.val c))) ∧
  (∀ (s : State) (t : Fin 64) (port : Fin 8) (a : Attach) (c : Copy),
     let k := leave s c
     let u := served k.2 t.val port.val k.1.vc
     linksAlive s = true → 4 ≤ port.val → (attachments (siteOf s t.val))[port.val - 4]? = some a →
     nextAttached s t.val port.val a = some c →
     (∀ n, a = .guest n → c.branch.out = 8 → exec (.routerPacketReceive t port none) s =
       .next (sendWaiting (u.emit (.guestPacket (Fin.ofNat 4 n) k.1)) (joinsAt s t.val port.val))) ∧
     (∀ l entry, 16 ≤ c.branch.out → linkFor s (c.branch.out - 16) c.held.pkt = some (l, entry) →
       strandClear s t.val l = true → exec (.routerPacketReceive t port none) s =
         .next (sendWaiting (giveLink (nextTurn u l (buddyShared s l)) l (outDir s c) ⟨k.1, c.held.vc0⟩)
           (joinsAt s t.val port.val)))) ∧
  (∀ (s : State) (t : Fin 64) (port : Fin 8), linksAlive s = true → 4 ≤ port.val →
     (attachments (siteOf s t.val))[port.val - 4]? = none →
     exec (.routerPacketReceive t port none) s = .next (sendWaiting s (joinsAt s t.val port.val))) ∧
  (∀ (s : State) (t : Fin 64) (port : Fin 8) (n : Nat) (p : Packet), linksAlive s = true → 4 ≤ port.val →
     (attachments (siteOf s t.val))[port.val - 4]? = some (.guest n) → (s.guest n).mainband = true →
     (malformed p = false → exec (.routerPacketReceive t port (some p)) s = .next (arrive s t.val port.val none none .fresh
       ⟨{ p with party := guestParty s n, epoch := epochOf s (guestParty s n) }, p.vc⟩)) ∧
     (malformed p = true → exec (.routerPacketReceive t port (some p)) s =
       .next (dropPacket (s.count32 (tilA t.val 0x6080) 1) t.val 0 p nackEncoding))) ∧
  (∀ (s : State) (t : Fin 64) (port : Fin 8) (vc : Fin 4) (h : Held), headOf s t.val port.val vc.val = some h →
     (∃ b ∈ h.branches, b.esc = false ∧ outputRoom s ⟨h, b⟩ = false) → linksAlive s = true →
     let stuck := fun (b : Branch) => !b.esc && !outputRoom s ⟨h, b⟩
     ∃ u, exec (.packetEscape t port vc) s = .next u ∧ u.now = max s.now (h.since + escapeNs s t.val) ∧
       u.fabric.held = s.fabric.held.map (fun x => if x = h
         then { h with branches := h.branches.map (fun b => if stuck b then { b with esc := true } else b) } else x) ∧
       u.reg64 (tilA t.val 0x6050) = (s.reg64 (tilA t.val 0x6050) + 1) % 2 ^ 64) ∧
  (∀ (s : State) (t : Fin 64), linksAlive s = true →
     (∀ h ∈ s.fabric.held, h.tile = t.val → packetAge s h.pkt ≤ lifetime s t.val) →
     exec (.packetAgeCheck t) s = .next (flushOutbox s)) ∧
  (∀ (s : State) (t : Fin 64), linksAlive s = true →
     let old := s.fabric.held.filter (fun h => h.tile = t.val && lifetime s t.val < packetAge s h.pkt)
     let gone := fun (u : State) (h : Held) =>
       let v := u.count32 (tilA t.val 0x607C) 1
       if h.pkt.ty = tyAck ∨ h.pkt.ty = tyNack then v else dropPacket v t.val (h.vc0 % 4) h.pkt nackAged
     exec (.packetAgeCheck t) s = .next (flushOutbox (old.foldl gone (old.foldl unhold s)))) ∧
  (∀ (s : State) (p : Path) (t : Fin 64), ownerGate s p (tilA t.val 0x600C) = true →
     ∃ u, exec (.fabFold p t) s = .next u ∧ u.reply = { status := .ok } ∧
       (∀ o ∈ [0x6000, 0x6004, 0x6008], u.reg (tilA t.val o) = (s.stagedAt (tilA t.val o)).getD (s.reg (tilA t.val o))))

/-- A frame with a good check, in sequence, with a good tag and a stamp later than the last is accepted, and so is an idle frame (R343, R344, R594); the expected sequence advances, but not for an idle frame. One with a bad check or out of sequence is refused, and one whose tag or stamp is not accepted is counted and refused (R344, R594); a refusal asks for a replay, and the one after the eighth failed replay takes the link down (R345). A link that loses its partner goes down (R345). A link that is not in service, or whose bundle's light stands elsewhere, takes nothing. Where the spec leaves a point to the model, it takes the choice of assumption log entries 79 and 156. -/
def Obligations.LinksBetweenModules : Prop :=
  (∀ (s : State) (l : ModLink) (f : Frame), linksAlive s = true → (s.link l).up = true → inSlot s l = true →
     let v := (s.count64 (linkCe l) f.corrected).count32 (linkUe l) f.uncorrectable
     let genuine := f.tagOk = true ∧ ∀ t, lastStamp s l = some t → t < f.stamp
     (f.crcOk = true → genuine → f.idle = true ∨ f.seq = (s.link l).expect →
       exec (.linkFrameReceive l f) s = .next (acceptFrame v l f)) ∧
     (f.crcOk = false ∨ genuine ∧ f.idle = false ∧ f.seq ≠ (s.link l).expect ∧ seenFrame s l f.seq = false →
       exec (.linkFrameReceive l f) s = .next (refuseFrame v l f.seq)) ∧
     (f.crcOk = true → genuine → f.idle = false → f.seq ≠ (s.link l).expect → seenFrame s l f.seq = true →
       exec (.linkFrameReceive l f) s = .next v) ∧
     (f.crcOk = true → ¬ genuine →
       exec (.linkFrameReceive l f) s = .next (refuseFrame (v.count64 (secA 0x18) 1) l f.seq))) ∧
  (∀ (s : State) (l : ModLink) (f : Frame), f.packets = [] → f.replay = false →
     lastStamp (acceptFrame s l f) l = some f.stamp ∧
     ((acceptFrame s l f).link l).expect =
       (if f.idle then (s.link l).expect else ((s.link l).expect + 1) % 2 ^ 20) ∧
     (f.idle = false → ((acceptFrame s l f).link l).fails = 0)) ∧
  (∀ (s : State) (l : ModLink), (s.link l).fails < 8 →
     ((refuseFrame s l (s.link l).expect).link l).fails = (s.link l).fails + 1 ∧
     ((refuseFrame s l (s.link l).expect).link l).expect = (s.link l).expect ∧
     ∃ f, (refuseFrame s l (s.link l).expect).out = s.out ++ [.frame l f] ∧ f.replay = true ∧
       f.ack = (s.link l).expect) ∧
  (∀ (s : State) (l : ModLink) (seq : Nat), (s.link l).fails ≠ 0 →
     (seq ≠ (s.link l).expect → refuseFrame s l seq = s) ∧
     (8 ≤ (s.link l).fails → refuseFrame s l (s.link l).expect = linkDown s l)) ∧
  (∀ (s : State) (l : ModLink), linksAlive s = true → (s.link l).up = true → inSlot s l = true →
     exec (.interModuleLinkDown l) s = .next (linkDown s l)) ∧
  (∀ (s : State) (l : ModLink) (f : Frame), linksAlive s = false ∨ (s.link l).up = false ∨ inSlot s l = false →
     exec (.linkFrameReceive l f) s = .next s ∧ exec (.interModuleLinkDown l) s = .next s)

/-- The result of an open round reaches its member: equal digests start the data phase, or end a BARRIER, and digests that differ abort it with ENCODING (R359); a result that failed aborts it with LINK (R373); the words of a roll-call collective are its destination (R371). The next chunk enters a free slot; a chunk in a slot takes the exchange that the command names once it is its next, which sends its lines to the partner and ends when the partner's are here, or leaves after the last (R364, R365), and one whose staging lines are still being zeroed, or that finds no slot, waits; a direct collective goes on with its next peer (R365); a collective without progress for COLL_MS aborts with LINK (R369); the end of a hold-off lets the held collective of the team start (R370). Where the spec leaves a point to the model, it takes the choice of assumption log entries 41, 89, 90, 137 and 174. -/
def Obligations.Collectives : Prop :=
  (∀ (s : State) (t : Fin 64) (c : Coll) (o : RcOp), runningIn s t.val .open = some c →
     s.rc.ops.find? (sameOp (collRcOp s t.val c)) = some o → active s = true → t.val ∉ o.told →
     (o.failed = true → exec (.openRoundResult t) s =
       .next (abortCommand (tellMember s o t.val) c.queue c.idx { err := .link })) ∧
     (o.failed = false → ∀ dmin dmax largest, o.result = some (.round dmin dmax largest) →
       (dmin ≠ dmax → exec (.openRoundResult t) s =
         .next (abortCommand (tellMember s o t.val) c.queue c.idx { err := .encoding })) ∧
       (dmin = dmax → collOp c.line = 6 → ∃ u, runningIn u t.val .data = some { c with largest := largest, phase := .data, progress := u.time } ∧
         exec (.openRoundResult t) s = .next (finishCommand u c.queue c.idx)) ∧
       (dmin = dmax → collOp c.line ≠ 6 → ∃ u, exec (.openRoundResult t) s = .next u ∧
         (u.coll t.val).running = some { c with largest := largest, progress := u.time, phase := (if collOp c.line = 4 ∨ collOp c.line = 5 then .direct else .data) })) ∧
     (o.failed = false → ∀ ws, o.result = some (.words ws) → descReady s t.val (collDst c) = true →
       exec (.openRoundResult t) s = .next (wordsResult (tellMember s o t.val) t.val c ws))) ∧
  (∀ (s : State) (t : Fin 64) (c : Coll) (k : Nat) (x : Chunk), active s = true → runningIn s t.val .data = some c →
     ((chunk? c k).filter (·.entered) = some x →
       (∀ e, (exchangesOf (collOp c.line) (collShapeOf s t.val c))[x.round]? = some e →
         exchangeReady s t.val c x.index = true →
         let u := if x.sent then s else sendExchange s t.val c x e
         exec (.collectiveChunkStep t k x.round) s = .next
           (if exchangeHas u t.val c x e then endExchange u t.val c x e
            else putRunning u t.val (putChunk c { x with sent := true }))) ∧
       ((exchangesOf (collOp c.line) (collShapeOf s t.val c))[x.round]? = none →
         exec (.collectiveChunkStep t k x.round) s = .next (leaveChunk s t.val c x)) ∧
       (∀ r, r ≠ x.round → exec (.collectiveChunkStep t k r) s = .next s)) ∧
     (∀ e, (chunk? c k).filter (·.entered) = some x →
       (exchangesOf (collOp c.line) (collShapeOf s t.val c))[x.round]? = some e → exchangeReady s t.val c x.index = false →
       exec (.collectiveChunkStep t k x.round) s = .next s) ∧
     ((chunk? c k).filter (·.entered) = none →
       k ≠ c.nextChunk ∨ chunkTotal c ≤ k ∨ collSlots c.line ≤ slotsUsed c ∨ chunkSlotFree c k = false →
       ∀ r, exec (.collectiveChunkStep t k r) s = .next s) ∧
     ((chunk? c k).filter (·.entered) = none → k = c.nextChunk → k < chunkTotal c → slotsUsed c < collSlots c.line →
       chunkSlotFree c k = true → ∀ r, exec (.collectiveChunkStep t k r) s = .next (enterChunk s t.val c k))) ∧
  (∀ (s : State) (t : Fin 64) (c : Coll), active s = true →
     runningIn s t.val .data = none → runningIn s t.val .direct = some c → c.nextChunk < collN s t.val c →
     ∀ r, exec (.collectiveChunkStep t c.nextChunk r) s = .next (directStep s t.val c)) ∧
  (∀ (s : State) (t : Fin 64) (c : Coll), (s.coll t.val).running = some c → active s = true → c.phase ≠ .held →
     exec (.collectiveTimeout t) s = .next (abortCommand
       ((passToTime s (c.progress + collLimit s)).count32 (tilA t.val 0x705C) 1) c.queue c.idx
       { err := .link })) ∧
  (∀ (s : State) (t team : Fin 64) (d : Nat), mget none (s.coll t.val).holdoff team.val = some d → active s = true →
     exec (.openRoundHoldoffExpiry t team) s = .next (startColl ((s.passTo d).setColl t.val
       { s.coll t.val with holdoff := mset none (s.coll t.val).holdoff team.val none }) t.val))

/-- A message to another module leaves with its CRC by the way of its next hop, counts, and unless it is an ACK is repeated until acknowledged (R372, R373, R384). A good message for this module is counted and, unless it is an ACK, acknowledged, before it acts; one with a bad CRC, a reserved code or another epoch is counted, if another module sent it, and does nothing else (R372); one for another module goes on its way (R373). An ABORT reaches the members that run the collective it names (R369). The unacknowledged message whose time comes first is sent again after 2 µs, up to three times, a time message with the stamp of its own transmission (R378); then its peer counts as unreachable (R372, R373). Where the spec leaves a point to the model, it takes the choice of assumption log entries 89, 90, 137, 164, 165, 166 and 167. -/
def Obligations.RollCall : Prop :=
  (∀ (s : State) (dest : Nat) (m : RcMessage) (via : LinkPort), wayTo s (nextModule s dest) = some via →
     let m' := { m with crc := crc32 (rcBytes m) }
     (sendRoll s dest m).out = s.out ++ [.roll via (myModule s) dest m'] ∧
     (sendRoll s dest m).reg64 0x7040 = (s.reg64 0x7040 + 1) % 2 ^ 64 ∧
     (sendRoll s dest m).rc.unacked =
       s.rc.unacked ++ (if m.kind = 3 then [] else [{ msg := m', dest, due := s.now + 2000 }])) ∧
  (∀ (s : State) (via : LinkPort) (src dest : Nat) (m : RcMessage), linksAlive s = true → wayOpen s via = true →
     (dest = myModule s → badMessage s m = false →
       exec (.rollcallMessage ⟨via, src, dest⟩ m) s = .next (actRoll (acceptRoll s src m) via src m)) ∧
     (dest = myModule s → badMessage s m = true →
       exec (.rollcallMessage ⟨via, src, dest⟩ m) s = .next (s.count32 0x7050 1)) ∧
     (dest ≠ myModule s → exec (.rollcallMessage ⟨via, src, dest⟩ m) s = .next (hopRoll s src dest m))) ∧
  (∀ (s : State) (m : RcMessage), linksAlive s = true →
     (badMessage s m = false → exec (.rollcallAbort none m) s = .next (takeAbort s m) ∧
       (∀ via src, wayOpen s via = true →
         exec (.rollcallAbort (some (via, src)) m) s = .next (takeAbort (acceptRoll s src m) m))) ∧
     (badMessage s m = true → exec (.rollcallAbort none m) s = .next s ∧
       (∀ via src, wayOpen s via = true → exec (.rollcallAbort (some (via, src)) m) s = .next (s.count32 0x7050 1)))) ∧
  (∀ (s : State) (u0 : RcUnacked) (us : List RcUnacked), s.rc.unacked = u0 :: us → linksAlive s = true →
     let u := us.foldl (fun (m : RcUnacked) x => if x.due < m.due then x else m) u0
     let rest := (u0 :: us).erase u
     let s' := s.passTo u.due
     (u.repeats < 3 → ∃ t, exec .rollcallRepeat s = .next t ∧ t.now = max s.now u.due ∧
       (∀ via, wayTo s' (nextModule s' u.dest) = some via →
         t.out = s'.out ++ [.roll via (myModule s') u.dest (restamp s' u.msg).1]) ∧
       t.rc.unacked = rest ++ [{ u with msg := (restamp s' u.msg).1, due := u.due + 2000, repeats := u.repeats + 1 }] ∧
       (u.msg.kind < 4 → (restamp s' u.msg).1 = u.msg)) ∧
     (3 ≤ u.repeats → exec .rollcallRepeat s = .next (unreachable { s' with rc := { s'.rc with unacked := rest } } u)))

/-- The result of a fence gives it its instant, the largest arrival plus the lead of its scope (R375); without MAP and VOTE, one that has passed already completes the fence late, at once (R376); one that failed, or whose MAP names an undefined phase, fails its command with FENCE (R289, R405). At its instant the phase it names begins, the gate takes the combined vote, and its command finishes (R288, R290). Where the spec leaves a point to the model, it takes the choice of assumption log entries 90 and 92. -/
def Obligations.Fences : Prop :=
  (∀ (s : State) (t : Fin 64) (f : OpenFence) (stamp : Nat) (vote : Bool), (s.tile t.val).fence = some f →
     active s = true → f.instant = none →
     (f.result = some (some (stamp, vote)) → (f.map = true → phaseDefined s.itin.force f.next = true) →
       exec (.fenceResult t) s = .next (takeFence s t.val f stamp vote)) ∧
     (f.result = some none ∨ f.result = some (some (stamp, vote)) ∧ f.map = true ∧ phaseDefined s.itin.force f.next = false →
       exec (.fenceResult t) s = .next (failFence s t.val f)) ∧
     (f.result = none → exec (.fenceResult t) s = .next s)) ∧
  (∀ (s : State) (t : Nat) (f : OpenFence) (stamp : Nat), f.map = false → f.vote = false →
     let tf := stamp + fenceLead s f.scope
     let g : OpenFence := { f with failed := false }
     (s.time ≤ tf → takeFence s t f stamp false = s.modTile t (fun x => { x with fence := some { g with instant := some tf } })) ∧
     (tf < s.time → takeFence s t f stamp false = completeFence (lateOnce s (tileParty s t) g) t g s.time true)) ∧
  (∀ (s : State) (t : Fin 64) (f : OpenFence) (tf : Nat), (s.tile t.val).fence = some f → f.instant = some tf →
     active s = true →
     exec (.fenceInstant t) s = .next (completeFence (passToTime s tf) t.val f tf false)) ∧
  (∀ (s : State) (t : Nat) (f : OpenFence) (stamp : Nat) (late : Bool),
     ∃ u, completeFence s t f stamp late = finishCommand (if f.map then joinCopper u else u) f.queue f.idx ∧
       (u.tile t).phase = f.next ∧ (u.tile t).gateFail = f.failed ∧ (u.tile t).fenceSeq = f.seq ∧ (u.tile t).fence = none ∧
       (u.queue f.queue).fence = false)

/-- A module that is not ROOT, after its first fold, sends its upstream the stamp t1, and acknowledges and answers another's request with t2 and t3 (R372, R378); the answer of its upstream makes an exchange of the offset the rule gives (R378, R379), and an answer that it did not ask for only counts; after 3 ms without one the next candidate is tried, and a LOCKED module whose upstreams are all silent goes to HOLDOVER (R379); ROOT's counter is loaded from the low word the path wrote before, a free value where it wrote none, and the high word, before its first fold, and by no later write nor elsewhere (R379, R384, R646). Where the spec leaves a point to the model, it takes the choice of assumption log entries 47, 49, 50, 132, 141 and 164. -/
def Obligations.Timetable : Prop :=
  (∀ (s : State), panelRuns s = true →
     (∀ via src t2, wayOpen s via = true → exec (.timeReq (some (via, src, t2))) s =
       .next (answerTime (acceptRoll s src (timeMessage s 4 (.stamp 0))) src t2)) ∧
     (isTimeRoot s = false → s.itin.folded = true → ∃ u, u.rc.servo.reqSent = some (quarterTime s) ∧
       u.out = s.out ∧ u.time = s.time ∧ exec (.timeReq none) s =
         .next (sendRoll u (upstream s) (timeMessage s 4 (.stamp (quarterTime s)))))) ∧
  (∀ (s : State) (src : Nat) (t2 : Int),
     answerTime s src t2 = sendRoll s src (timeMessage s 5 (.stamps t2 (quarterTime s)))) ∧
  (∀ (s : State) (via : LinkPort) (t1 t2 t3 t4 : Int), panelRuns s = true → wayOpen s via = true →
     let u := acceptRoll s (upstream s) (timeMessage s 5 (.stamps t2 t3))
     u.rc.servo.reqSent = some t1 → isTimeRoot u = false → upstream u = upstream s →
     exec (.timeResp via (upstream s) t2 t3 t4) s = .next (validExchange u
       (10 * (t2 - t1) - 5 * ((t4 - t1) - (t3 - t2)) - 4 * asymmetry u via))) ∧
  (∀ (s : State) (via : LinkPort) (src : Nat) (t2 t3 t4 : Int), panelRuns s = true → wayOpen s via = true →
     let u := acceptRoll s src (timeMessage s 5 (.stamps t2 t3))
     u.rc.servo.reqSent = none ∨ isTimeRoot u = true ∨ src ≠ upstream u →
     exec (.timeResp via src t2 t3 t4) s = .next u) ∧
  (∀ (s : State), panelRuns s = true → isTimeRoot s = false → s.itin.folded = true → s.rc.servo.state = .unlocked →
     ∃ u, exec .timeExchangeTimeout s = .next u ∧ u.now = max s.now (s.rc.servo.last + 3000000) ∧
       u.rc.servo.last = u.now ∧ u.rc.servo.offsets = [] ∧ u.rc.servo.reqSent = none ∧
       u.rc.servo.silent = s.rc.servo.silent + 1 ∧ u.rc.servo.state = .unlocked) ∧
  (∀ (s : State), panelRuns s = true → isTimeRoot s = false → s.itin.folded = true → s.rc.servo.state ≠ .unlocked →
     ∃ u, exec .timeExchangeTimeout s = .next u ∧ u.rc.servo.silent = s.rc.servo.silent + 1 ∧
       u.rc.servo.choice = nextChoice s ∧
       u.rc.servo.state = (if (upstreams s).length ≤ s.rc.servo.silent + 1 then .holdover else s.rc.servo.state)) ∧
  (∀ (s : State), isTimeRoot s = true ∨ s.itin.folded = false → panelRuns s = true →
     exec (.timeReq none) s = .next s ∧ exec .timeExchangeTimeout s = .next s) ∧
  (∀ (s : State) (p : Path) (hi : Word), ownerGate s p 0x7024 = true → isTimeRoot s = true → s.itin.folded = false →
     ∃ u, exec (.timeSet p hi) s = .next u ∧
       u.time = ((mget none s.wlatch (latchKey p 0x7020)).getD (BitVec.ofNat 32 s.free)).toNat + 2 ^ 32 * hi.toNat ∧
       mget none u.wlatch (latchKey p 0x7020) = none ∧ u.reply = { status := .ok }) ∧
  (∀ (s : State) (p : Path) (hi : Word), ownerGate s p 0x7024 = true → isTimeRoot s = false ∨ s.itin.folded = true →
     ∃ u, exec (.timeSet p hi) s = .next u ∧ u.time = s.time ∧ mget none u.wlatch (latchKey p 0x7020) = none ∧
       u.reply = { status := .ok })

/-- Lantern n starts 2 ms times n after the first fold, and all four planes trim (R427); a plane's trim ends 2 ms after it began, and one that fails is faulty and stays in TRIM, but one that trims again in service and passes leaves it (R401, R427); planes named that are in TRIM trim again (R431); a stage fault puts the plane into TRIM (R401); LAN_FOLD makes the staged calibration settings active, URGENT_PM at least 10 above DRIFT_PM (R430). Where the spec leaves a point to the model, it takes the choice of assumption log entries 93, 94 and 137. -/
def Obligations.LanternStart : Prop :=
  (∀ (s : State) (n : Fin 8) (f : Nat), s.power.firstFold = some f → panelRuns s = true →
     (s.lantern n.val).started = false →
     ∃ u, exec (.lanternStart n) s = .next u ∧ u.now = max s.now (f + 2000000 * n.val) ∧
       (u.lantern n.val).started = true ∧ (u.lantern n.val).trim = 0xF ∧ (u.lantern n.val).faulty = 0 ∧
       (∀ pl < 4, mget none (u.lantern n.val).trimming pl = some u.now)) ∧
  (∀ (s : State) (n : Fin 8) (plane : Fin 4) (good : Bool) (t : Nat),
     mget none (s.lantern n.val).trimming plane.val = some t → panelRuns s = true →
     ∃ u, exec (.stileTrimDone n plane good) s = .next u ∧
       mget none (u.lantern n.val).trimming plane.val = none ∧
       (u.lantern n.val).faulty =
         (if good then (s.lantern n.val).faulty else (s.lantern n.val).faulty ||| 2 ^ plane.val) ∧
       ((s.lantern n.val).calDone = true → (u.lantern n.val).trim =
         (s.lantern n.val).trim - (if good then bits (s.lantern n.val).trim plane.val 1 * 2 ^ plane.val else 0)) ∧
       max s.now (t + 2000000) ≤ u.now) ∧
  (∀ (s : State) (p : Path) (n : Fin 8) (planes : BitVec 4), ownerGate s p (lanA n.val 0x28) = true →
     exec (.stileRetrim p n planes) s = .next (answer (retrimPlanes s n.val (fun pl => planes.getLsbD pl)) .ok)) ∧
  (∀ (s : State) (n : Nat) (planes : Nat → Bool), ∀ pl < 4,
     let x := s.lantern n
     let again := planes pl = true ∧ bits x.trim pl 1 = 1 ∧ bits x.faulty pl 1 = 0 ∧ x.calDone = true ∧ mget none x.trimming pl = none
     mget none ((retrimPlanes s n planes).lantern n).trimming pl =
       (if again then some s.now else mget none x.trimming pl)) ∧
  (∀ (s : State) (n : Fin 8) (m : Fin 32), panelRuns s = true → inTrim s n.val (planeOf m.val) = false →
     ∃ u, exec (.stileMoveCheck n m false) s = .next u ∧
       (u.lantern n.val).trim = (s.lantern n.val).trim ||| 2 ^ planeOf m.val ∧
       u.reg (lanA n.val 0x58) = satAdd (s.reg (lanA n.val 0x58)) 1) ∧
  (∀ (s : State) (n : Fin 8) (m : Fin 32) (good : Bool), good = true ∨ inTrim s n.val (planeOf m.val) = true →
     exec (.stileMoveCheck n m good) s = .next s) ∧
  (∀ (s : State) (n : Nat), let u := foldLan s n
     driftPm u n ≤ 200 → driftPm u n + 10 ≤ urgentPm u n) ∧
  (∀ (s : State) (p : Path) (n : Fin 8), ownerGate s p (lanA n.val 0x24) = true →
     exec (.lanFold p n) s = .next (answer (foldLan s n.val) .ok))

/-- A planned move starts once its links have drained and its heaters settled, and the bundle takes the phase of the move (R400, R407); its link is lit 48 ns later (R400), or given up after 1 ms (R426); a rotation goes on by one slot, or begins again with slot 0 at the instant of a fence that leaves it as it is (R409); a link whose frames are all acknowledged on both sides has drained, and a copper link then joins its new set (R407, R453). Where the spec leaves a point to the model, it takes the choice of assumption log entries 93, 132, 137, 138 and 160. -/
def Obligations.Bundles : Prop :=
  (∀ (s : State) (n : Fin 8) (m : Fin 32) (mv : StileMove), (s.bundle n.val m.val).move = some mv → panelRuns s = true →
     (bundleDrained s n.val m.val = false → exec (.stileMoveStart n m) s = .next s) ∧
     (bundleDrained s n.val m.val = true →
     ∃ u, exec (.stileMoveStart n m) s = .next u ∧ (u.bundle n.val m.val).move = none ∧
       (u.bundle n.val m.val).phase = mv.phase ∧ (u.bundle n.val m.val).locked = false ∧
       (u.bundle n.val m.val).slot = rotationSlot (u.bundle n.val m.val).entry (s.lantern n.val).origin u.time ∧
       ((u.bundle n.val m.val).entry = mv.entry ∨ (u.bundle n.val m.val).entry = 0) ∧
       (0 < 1000000 + s.rc.servo.rate → mv.instant ≤ u.time) ∧ (s.bundle n.val m.val).settle ≤ u.now)) ∧
  (∀ (s : State) (n : Fin 8) (m : Fin 32) (t : Nat), (s.bundle n.val m.val).movedAt = some t → panelRuns s = true →
     (s.link (bundleLink n.val m.val (nowPos (s.bundle n.val m.val)))).up = true →
     ∃ u, exec (.linkLit n m) s = .next u ∧ u.now = max s.now (t + 48) ∧ (u.bundle n.val m.val).locked = true ∧
       (u.bundle n.val m.val).movedAt = none ∧
       (u.link (bundleLink n.val m.val (nowPos (s.bundle n.val m.val)))).dark = false) ∧
  (∀ (s : State) (l : ModLink), (s.link l).draining = true → (s.link l).retry = [] → (s.link l).peerMark = true →
     (s.link l).markAcked = true → panelRuns s = true →
     (∀ n m i, l = .bundle n m i → exec (.linkDrained l) s = .next (s.setLink l { s.link l with drained := true })) ∧
     (∀ k, l = .copper k → (s.copperPort k.val).newEntry = none → exec (.linkDrained l) s =
       .next (s.setLink l { s.link l with draining := false, peerMark := false, markAcked := false })) ∧
     (∀ (k : Fin 13) e t, l = .copper k → (s.copperPort k.val).newEntry = some (e, t) → ∃ u, exec (.linkDrained l) s = .next u ∧
       u.copperPort k.val = { s.copperPort k.val with entry := e, newEntry := none } ∧ (u.link l).draining = false ∧
       (0 < 1000000 + s.rc.servo.rate → t ≤ u.time))) ∧
  (∀ (s : State) (n : Fin 8), panelRuns s = true →
     exec (.rotationSlot n) s = .next (s.each (List.range 32) (nextSlot n.val)) ∧
     (∀ m, entryMode (s.bundle n.val m).entry = 2 → ((nextSlot n.val m s).bundle n.val m).locked = false ∧
       ((∀ r, (s.bundle n.val m).renew = some r →
           (s.bundle n.val m).origin + ((s.bundle n.val m).slot + 1) * slotNs (s.bundle n.val m).entry < r) →
         ((nextSlot n.val m s).bundle n.val m).slot = (s.bundle n.val m).slot + 1 ∧
         ((nextSlot n.val m s).bundle n.val m).origin = (s.bundle n.val m).origin) ∧
       (∀ r, (s.bundle n.val m).renew = some r →
         r ≤ (s.bundle n.val m).origin + ((s.bundle n.val m).slot + 1) * slotNs (s.bundle n.val m).entry →
         ((nextSlot n.val m s).bundle n.val m).slot = 0 ∧ ((nextSlot n.val m s).bundle n.val m).origin = r))) ∧
  (∀ (s : State) (n : Fin 8) (m : Fin 32) (t : Nat),
     let x := s.link (bundleLink n.val m.val (nowPos (s.bundle n.val m.val)))
     (s.bundle n.val m.val).movedAt = some t → panelRuns s = true → x.up = true →
     slotEndsFirst s (s.bundle n.val m.val) x t = false →
     ∃ u, exec (.bundleLockTimeout n m) s = .next u ∧ u.now = max s.now (t + (1000000 - x.waited)) ∧
       (u.bundle n.val m.val).unmatched = true ∧ (u.bundle n.val m.val).movedAt = none)

/-- The 16 sensors of a lantern are sampled (R411, R429), and a heater takes the code nearest to the table and its offset, within 16 bits (R413); the drift of a lit bundle is the largest of its distances (R414); a pending calibration starts once the bundle has been parked for 50 µs, stops when it will be lit, with 4 µs for its heaters to settle, and ends 190.9 µs after it began, or 11.3 ms at start-up, whose last one brings the planes without a fault to FAST (R415, R416, R427); a drift above URGENT_PM, or 60 s pending, makes it urgent (R415). Where the spec leaves a point to the model, it takes the choice of assumption log entries 44, 95, 132 and 138. -/
def Obligations.RingTuning : Prop :=
  (∀ (s : State) (n : Fin 8) (readings : List Int), s.power.pwrgd = true →
     ∃ u, exec (.ringHeaterUpdate n readings) s = .next u ∧
       (∀ i < 16, u.reg (sensorA n.val i) = BitVec.ofNat 32 (BitVec.ofInt 16 (readings.getD i (sensorRead s n.val i))).toNat)) ∧
  (∀ (s : State) (n m r : Nat),
     let x : Int := (tableEighths n r (sensorRead s n (m / 2)) : Int) + 8 * ringOffset s n r
     ∃ v : Int, -4 ≤ 8 * v - x ∧ 8 * v - x ≤ 4 ∧ heater (followTable n m r s) n r = (max 0 (min v 65535)).toNat) ∧
  (∀ (s : State) (n : Fin 8) (m : Fin 32) (distances : List Nat), panelRuns s = true →
     (s.bundle n.val m.val).entry ≠ 0 →
     ∃ u, exec (.driftUpdate n m distances) s = .next u ∧
       (u.bundle n.val m.val).drift = (distances.take 16).foldl max 0 ∧
       (driftPm s n.val < (distances.take 16).foldl max 0 → (u.bundle n.val m.val).pending.isSome = true)) ∧
  (∀ (s : State) (n : Fin 8) (m : Fin 32) (t since : Nat), pendingSince s n.val m.val = some t →
     (s.bundle n.val m.val).parked = some since → panelRuns s = true → (s.lantern n.val).calDone = true →
     (s.bundle n.val m.val).calibrating = none → (s.bundle n.val m.val).move = none →
     ∃ u, exec (.calibrationStart n m) s = .next u ∧ u.now = max s.now (since + 50000) ∧
       (u.bundle n.val m.val).calibrating = some u.now ∧ (u.bundle n.val m.val).pending = some t) ∧
  (∀ (s : State) (n : Fin 8) (m : Fin 32), panelRuns s = true → (s.bundle n.val m.val).calibrating.isSome = true →
     (s.lantern n.val).calDone = true →
     ∃ u, exec (.calibrationStop n m) s = .next u ∧ (u.bundle n.val m.val).calibrating = none ∧
       (u.bundle n.val m.val).settle = s.now + 4000) ∧
  (∀ (s : State) (n : Fin 8) (m : Fin 32), (s.bundle n.val m.val).calibrating = none ∨ (s.lantern n.val).calDone = false →
     exec (.calibrationStop n m) s = .next s) ∧
  (∀ (s : State) (n : Fin 8) (m : Fin 32) (targets : List Nat) (t : Nat), (s.bundle n.val m.val).calibrating = some t →
     panelRuns s = true → (s.lantern n.val).calDone = true →
     ∃ u, exec (.calibrationDone n m targets) s = .next u ∧ (u.bundle n.val m.val).calibrating = none ∧
       (u.bundle n.val m.val).pending = none ∧ (u.bundle n.val m.val).urgent = false ∧
       (u.bundle n.val m.val).lastCal = u.time ∧ u.now = max s.now (t + 190900)) ∧
  (∀ (s : State) (n : Fin 8) (m : Fin 32) (targets : List Nat) (t : Nat), (s.bundle n.val m.val).calibrating = some t →
     panelRuns s = true → (s.lantern n.val).calDone = false →
     ∃ u, exec (.calibrationDone n m targets) s = .next u ∧ (u.bundle n.val m.val).calibrating = none ∧
       (u.bundle n.val m.val).lastCal = u.time ∧ u.now = max s.now (t + 11300000) ∧
       ((∀ m' < 32, m' ≠ m.val → (s.bundle n.val m').calibrating = none) →
         (u.lantern n.val).calDone = true ∧ (u.lantern n.val).trim = (s.lantern n.val).faulty)) ∧
  (∀ (s : State) (n : Fin 8) (m : Fin 32), panelRuns s = true → urgentPm s n.val < (s.bundle n.val m.val).drift →
     ∃ u, exec (.calUrgent n m) s = .next u ∧ (u.bundle n.val m.val).urgent = true ∧
       (u.bundle n.val m.val).drift = (s.bundle n.val m.val).drift) ∧
  (∀ (s : State) (n : Fin 8) (m : Fin 32) (t : Nat), panelRuns s = true →
     (s.bundle n.val m.val).drift ≤ urgentPm s n.val → pendingSince s n.val m.val = some t →
     ∃ u, exec (.calUrgent n m) s = .next u ∧ (u.bundle n.val m.val).urgent = true ∧
       (0 < 1000000 + s.rc.servo.rate → t + 60000000000 ≤ u.time))

/-- A port in PROBE sends bursts, and goes to IDENTIFY with continuous light when service light arrives (R420, R424); an identity of the expected sender that names this port is accepted, and makes it ACTIVE if it acknowledges, another sender makes it FAILED with cause 2, and a message with a bad CRC or another version is dropped (R424, R425); an attempt lasts 50 ms and the fourth ends in ABSENT (R424); loss of light starts the port again with cause 3 (R422); the ports named that are ABSENT or FAILED start again (R424, R431). Where the spec leaves a point to the model, it takes the choice of assumption log entries 45, 110 and 137. -/
def Obligations.PortConnections : Prop :=
  (∀ (s : State) (n : Fin 8) (port : Fin 16), panelRuns s = true → (s.port n.val port.val).phase = .probe →
     exec (.probeBurst n port) s = .next { s with out := s.out ++ [.light n port true] }) ∧
  (∀ (s : State) (n : Fin 8) (port : Fin 16) (power : Int), panelRuns s = true → (s.lantern n.val).started = true →
     (s.port n.val port.val).phase = .probe →
     ∃ u, exec (.portLightReceived n port power) s = .next u ∧
       u.port n.val port.val = { s.port n.val port.val with phase := .identify } ∧
       u.out = s.out ++ [.light n port false] ∧
       u.reg (portA n.val port.val 0x8) = BitVec.ofNat 32 (BitVec.ofInt 16 power).toNat) ∧
  (∀ (s : State) (n : Fin 8) (port : Fin 16) (power : Int), panelRuns s = true → (s.lantern n.val).started = true →
     (s.port n.val port.val).phase ≠ .probe → exec (.portLightReceived n port power) s =
       .next (s.setReg (portA n.val port.val 0x8) (BitVec.ofNat 32 (BitVec.ofInt 16 power).toNat))) ∧
  (∀ (s : State) (n : Fin 8) (port : Fin 16), panelRuns s = true →
     ((s.port n.val port.val).phase = .identify ∨ (s.port n.val port.val).phase = .active) →
     ∃ i : Identity, exec (.identitySend n port) s = .next { s with out := s.out ++ [.identity (.optical n port) i] } ∧
       i.sender = myModule s + 2 ^ 14 * n.val + 2 ^ 17 * port.val ∧ i.ack = (s.port n.val port.val).accepted ∧
       i.version = 1 ∧ i.digest = BitVec.ofNat 32 (mapDigest s n.val port.val) ∧
       identityGood (.optical n port) i = true) ∧
  (∀ (s : State) (n : Fin 8) (port : Fin 16) (i : Identity), panelRuns s = true →
     (s.port n.val port.val).phase = .identify → identityGood (.optical n port) i = true →
     portPeer s.itin.force n.val port.val = some i.sender → (let ok := decide (i.peer = ownPort s n.val port.val) && mayKey s
     ∃ u, exec (.portIdentity n port i) s = .next u ∧
       (u.port n.val port.val).phase = (if ok && i.ack then .active else .identify) ∧
       (u.port n.val port.val).accepted = ok ∧ (u.port n.val port.val).peer = some i.sender ∧
       ((u.port n.val port.val).mismatch = true ↔
         ok = true ∧ i.ack = true ∧ i.digest.toNat ≠ mapDigest s n.val port.val ∨
         (s.port n.val port.val).mismatch = true))) ∧
  (∀ (s : State) (n : Fin 8) (port : Fin 16) (i : Identity), panelRuns s = true →
     (s.port n.val port.val).phase = .identify → identityGood (.optical n port) i = true →
     portPeer s.itin.force n.val port.val ≠ some i.sender →
     ∃ u, exec (.portIdentity n port i) s = .next u ∧ (u.port n.val port.val).phase = .failed ∧
       (u.port n.val port.val).cause = 2 ∧ (u.port n.val port.val).accepted = false) ∧
  (∀ (s : State) (n : Fin 8) (port : Fin 16) (i : Identity), identityGood (.optical n port) i = false →
     exec (.portIdentity n port i) s = .next s) ∧
  (∀ (s : State) (n : Fin 8) (port : Fin 16), panelRuns s = true →
     ((s.port n.val port.val).phase = .probe ∨ (s.port n.val port.val).phase = .identify) →
     ∃ u, exec (.portAttemptTimeout n port) s = .next u ∧ (u.port n.val port.val).cause = 1 ∧
       (u.port n.val port.val).accepted = false ∧ u.now = max s.now ((s.port n.val port.val).begun + 50000000) ∧
       (u.port n.val port.val).phase = (if (s.port n.val port.val).attempt < 4 then .probe else .absent) ∧
       ((s.port n.val port.val).attempt < 4 →
         (u.port n.val port.val).attempt = (s.port n.val port.val).attempt + 1 ∧ (u.port n.val port.val).begun = u.now)) ∧
  (∀ (s : State) (n : Fin 8) (port : Fin 16), panelRuns s = true →
     ((s.port n.val port.val).phase = .identify ∨ (s.port n.val port.val).phase = .active) →
     ∃ u, exec (.portLossOfLight n port) s = .next u ∧ (u.port n.val port.val).phase = .probe ∧
       (u.port n.val port.val).attempt = 1 ∧ (u.port n.val port.val).cause = 3 ∧
       (u.port n.val port.val).peer = none ∧ u.reg (portA n.val port.val 0x8) = 0x8000 ∧ u.now = s.now) ∧
  (∀ (s : State) (p : Path) (n : Fin 8) (ports : BitVec 16), ownerGate s p (lanA n.val 0x2C) = true →
     exec (.portRetrain p n ports) s = .next (answer (retrainPorts s n.val (fun k => ports.getLsbD k)) .ok) ∧
     ∀ k < 16, ports.getLsbD k = true → ((s.port n.val k).phase = .absent ∨ (s.port n.val k).phase = .failed) →
       ((retrainPorts s n.val (fun k => ports.getLsbD k)).port n.val k).phase = .probe ∧
       ((retrainPorts s n.val (fun k => ports.getLsbD k)).port n.val k).cause = 4)

/-- A copper link that the itinerary names leaves OFF at its time and trains (R439, R455); with every lane locked it goes to IDENTIFY and sends its identity (R455, R456); an identity of the expected sender that names this link, or on the buddy link this module, is accepted, and makes it ACTIVE if it acknowledges, another sender makes it FAILED (R455, R456); an attempt lasts 50 ms and the fourth ends in ABSENT (R455); the links named that are ABSENT or FAILED train again (R464). Where the spec leaves a point to the model, it takes the choice of assumption log entries 24, 137 and 138. -/
def Obligations.CopperConnections : Prop :=
  (∀ (s : State) (k : Fin 13) (t : Nat), (s.copperPort k.val).start = some t → panelRuns s = true →
     (s.copperPort k.val).phase = .off → (copperLink? s.itin.force k.val).isSome = true →
     ∃ u, exec (.copperTrainStart k) s = .next u ∧ u.now = max s.now t ∧ (u.copperPort k.val).phase = .probe ∧
       (u.copperPort k.val).attempt = 1 ∧ (u.copperPort k.val).begun = u.now ∧ (u.copperPort k.val).start = none ∧
       (u.copperPort k.val).cause = (s.copperPort k.val).cause) ∧
  (∀ (s : State) (k : Fin 13), panelRuns s = true → (s.copperPort k.val).phase = .probe →
     ∃ u i, exec (.copperLanesLocked k) s = .next u ∧
       u.copperPort k.val = { s.copperPort k.val with phase := .identify } ∧
       u.out = s.out ++ [.identity (.copper k) i] ∧
       i.sender = myModule s + 2 ^ 14 * copperBridge s k.val + 2 ^ 15 * k.val ∧ i.ack = (s.copperPort k.val).accepted) ∧
  (∀ (s : State) (k : Fin 13) (i : Identity), panelRuns s = true → (s.copperPort k.val).phase = .identify →
     identityGood (.copper k) i = true → copperPeer s k.val i.sender = some i.sender →
     (let names := decide (i.peer = ownCopper s k.val) || (decide (k.val = 12) && decide (bits i.peer 0 14 = myModule s))
     let ok := names && mayKey s
     ∃ u, exec (.copperIdentity k i) s = .next u ∧
       (u.copperPort k.val).phase = (if ok && i.ack then .active else .identify) ∧
       (u.copperPort k.val).accepted = ok ∧ (u.copperPort k.val).peer = some i.sender)) ∧
  (∀ (s : State) (k : Fin 13) (i : Identity), identityGood (.copper k) i = false →
     exec (.copperIdentity k i) s = .next s) ∧
  (∀ (s : State) (k : Fin 13) (i : Identity), panelRuns s = true → (s.copperPort k.val).phase = .identify →
     identityGood (.copper k) i = true → copperPeer s k.val i.sender ≠ some i.sender →
     ∃ u, exec (.copperIdentity k i) s = .next u ∧ (u.copperPort k.val).phase = .failed ∧
       (u.copperPort k.val).cause = 2) ∧
  (∀ (s : State) (k : Fin 13), panelRuns s = true →
     ((s.copperPort k.val).phase = .probe ∨ (s.copperPort k.val).phase = .identify) →
     ∃ u, exec (.copperAttemptTimeout k) s = .next u ∧ (u.copperPort k.val).cause = 1 ∧
       u.now = max s.now ((s.copperPort k.val).begun + 50000000) ∧
       (u.copperPort k.val).phase = (if (s.copperPort k.val).attempt < 4 then .probe else .absent)) ∧
  (∀ (s : State) (p : Path) (links : BitVec 13), ownerGate s p (hbgA 0x120) = true →
     exec (.copperRetrain p links) s = .next (answer (retrainCopper s (fun k => links.getLsbD k)) .ok) ∧
     ∀ k < 13, links.getLsbD k = true → ((s.copperPort k).phase = .absent ∨ (s.copperPort k).phase = .failed) →
       ((retrainCopper s (fun k => links.getLsbD k)).copperPort k).phase = .probe ∧
       ((retrainCopper s (fun k => links.getLsbD k)).copperPort k).cause = 4)

/-- An offer that names this panel's job key gives the connection its link keys, and its confirm tag is sent (R591); an offer of another key, or to a panel without a job key, or a wrong tag, makes the connection FAILED with cause 2 (R592); the right tag keys it, and a copper link is then in service (R591, R592); an offer with a bad CRC is dropped. Where the spec leaves a point to the model, it takes the choice of assumption log entries 8, 11 and 159. -/
def Obligations.LinkKeys : Prop :=
  (∀ (s : State) (c : LinkPort) (offer : KeyOffer) (jk : BitVec 256), panelRuns s = true → (connPort s c).phase = .active →
     (connPort s c).keying.keyed = false → offerGood offer = true → s.sec.jk = some jk → offer.keyId = keyIdOf jk →
     ∃ u keys, exec (.keyOffer c offer) s = .next u ∧
       keys = linkKeys c jk (keyEndpoint s c) offer.endpoint (connPort s c).keying.nonce offer.nonce ∧
       (connPort u c).keying.offered = some offer ∧ (connPort u c).keying.keys = keys ∧
       (connPort u c).keying.keyed = false ∧ (connPort u c).phase = .active ∧
       u.out = s.out ++ [.confirm c (confirmOf keys (keyEndpoint s c) offer.endpoint (connPort s c).keying.nonce offer.nonce)]) ∧
  (∀ (s : State) (c : LinkPort) (offer : KeyOffer) (jk : BitVec 256), panelRuns s = true → (connPort s c).phase = .active →
     (connPort s c).keying.keyed = false → offerGood offer = true →
     (s.sec.jk = none ∨ s.sec.jk = some jk ∧ offer.keyId ≠ keyIdOf jk) →
     ∃ u, exec (.keyOffer c offer) s = .next u ∧ (connPort u c).phase = .failed ∧ (connPort u c).cause = 2 ∧
       (connPort u c).keying = {}) ∧
  (∀ (s : State) (c : LinkPort) (offer : KeyOffer), offerGood offer = false → exec (.keyOffer c offer) s = .next s) ∧
  (∀ (s : State) (c : LinkPort) (tag : BitVec 128) (o : KeyOffer) (keys : List (BitVec 288)), panelRuns s = true →
     (connPort s c).phase = .active → (connPort s c).keying.keyed = false → (connPort s c).keying.offered = some o →
     (connPort s c).keying.keys = keys →
     (tag = confirmOf keys (keyEndpoint s c) o.endpoint (connPort s c).keying.nonce o.nonce →
       ∃ u, exec (.keyConfirm c tag) s = .next u ∧ (connPort u c).keying.keyed = true ∧
         (∀ k, c = .copper k → (u.link (.copper k)).up = true)) ∧
     (tag ≠ confirmOf keys (keyEndpoint s c) o.endpoint (connPort s c).keying.nonce o.nonce →
       ∃ u, exec (.keyConfirm c tag) s = .next u ∧ (connPort u c).phase = .failed ∧ (connPort u c).cause = 2))

/-- Before its port is ready a configuration request is answered with retry, and one to a VF that is not enabled as Unsupported (R441, R442); a ready function reads its words, takes its memory and bus master enables, its base addresses and its MSI-X enable and mask, and a PF its VF enable, and a write to another word changes nothing (R441, R442, R515); the link comes up with its speed and width (R440); a reset or function level reset empties the buffers and reads of its functions and clears their enables, and one that takes the link clears the port's state but its READY bit (R449). Where the spec leaves a point to the model, it takes the choice of assumption log entries 52, 71 and 140. -/
def Obligations.HostFunctions : Prop :=
  (∀ (s : State) (f : Fn) (reg : ConfigReg) (w : Option Word), s.power.pwrgd = true →
     (s.field (hostA f.port.val 0) 9 1 = 0 → exec (.configRequest f reg w) s = .next (answer s .retry)) ∧
     (s.field (hostA f.port.val 0) 9 1 ≠ 0 → fnExists s f = true → f.vf = 0 →
       exec (.configRequest f .ids none) s = .next (answer s .ok [0x64721F1B]) ∧
       exec (.configRequest f .classRev none) s = .next (answer s .ok [0x120000B1])) ∧
     (s.field (hostA f.port.val 0) 9 1 ≠ 0 → fnExists s f = false → exec (.configRequest f reg w) s =
       .next (answer s .unsupported)) ∧
     (s.field (hostA f.port.val 0) 9 1 ≠ 0 → fnExists s f = true →
       exec (.configRequest f reg none) s = .next (answer s .ok ((configRead s f reg).map (BitVec.ofNat 32))) ∧
       ∀ v, reg ∈ [ConfigReg.ids, .classRev, .subsystem, .vfDevice] ∨ reg = .sriovControl ∧ f.vf ≠ 0 →
         exec (.configRequest f reg (some v)) s = .next (answer s .ok)) ∧
     (∀ v : Word, s.field (hostA f.port.val 0) 9 1 ≠ 0 → fnExists s f = true →
       (∃ u, exec (.configRequest f .command (some v)) s = .next u ∧ u.reply.status = .ok ∧
         (u.fn f).memEnable = v.getLsbD 1 ∧ (u.fn f).busMaster = v.getLsbD 2) ∧
       (∃ u, exec (.configRequest f .msixControl (some v)) s = .next u ∧ u.reply.status = .ok ∧
         (u.fn f).fnMask = v.getLsbD 14 ∧ (u.fn f).msixEnable = v.getLsbD 15) ∧
       (∀ i : Fin 6, ∃ u, exec (.configRequest f (.bar i) (some v)) s = .next u ∧ u.reply.status = .ok ∧
         mget 0 (u.fn f).bar i.val = BitVec.ofNat 32 (v.toNat &&& barMask f i.val)) ∧
       (f.vf = 0 → ∃ u, exec (.configRequest f .sriovControl (some v)) s = .next u ∧ u.reply.status = .ok ∧
         (u.fn f).vfEnable = v.getLsbD 0))) ∧
  (∀ (s : State) (h : Fin 2) (speed width : Nat), s.power.pwrgd = true →
     s.field (hbgA (0x100 + 4 * h.val)) 0 2 = 1 → 1 ≤ speed → speed ≤ 6 → width ∈ [1, 2, 4, 8, 16] →
     ∃ u, exec (.hostLinkUp h speed width) s = .next u ∧ u.field (hostA h.val 0) 0 1 = 1 ∧
       u.field (hostA h.val 0) 1 3 = speed ∧ u.field (hostA h.val 0) 4 5 = width ∧
       u.field (hostA h.val 0) 9 1 = s.field (hostA h.val 0) 9 1) ∧
  (∀ (s : State) (event : HostEvent) (f : Fn), s.power.pwrgd = true → f ∈ eventFns event →
     ∃ u, exec (.hostPortReset event) s = .next u ∧ (u.host f).buffers = [] ∧ (u.host f).reads = [] ∧
       (u.fn f).memEnable = false ∧ (u.fn f).busMaster = false ∧ (u.fn f).msixEnable = false ∧
       (u.fn f).vfEnable = false ∧
       u.reg (hostA f.port.val 0x1C) = satAdd (s.reg (hostA f.port.val 0x1C)) 1 ∧
       (eventKind event < 3 → u.reg (hostA f.port.val 0) = s.reg (hostA f.port.val 0) &&& 0x200))

/-- A write that fills a line sends it, and it stands unacknowledged, whether a buffer was open for the line or not (R443, R444); a write that leaves a line partly filled opens a buffer for it, the 65th in place of the oldest, which is discarded, or is put over the one that is open (R444, R445); a buffer that nothing writes for 1 µs is discarded and counted (R445); a read of mapped lines stands as one read under way until its lines are there (R447). An access outside the memory that the function may reach, or a write in the safe state, is posted; the write changes nothing else, and the read returns zeros (R443, R569); a read in the safe state is answered from the retained lines (R569), and one that comes while 256 are under way waits outside; on a closed path both are Unsupported (R595). Where the spec leaves a point to the model, it takes the choice of assumption log entries 39, 51, 137 and 168. -/
def Obligations.HostWindow : Prop :=
  (∀ (s : State) (f : Fn) (offset : Nat) (bytes : List Byte), windowDead s f = false →
     pathClosed s (fnPath f) = false → s.safe.active = false → (windowLine s f (64 * (offset / 64))).isSome = true →
     (s.host f).buffers.find? (fun b => b.line = offset / 64) = none →
     (offset % 64 = 0 → bytes.length = 64 →
       ∃ u, exec (.hostWriteTlp f offset bytes) s = .next u ∧ u.reply.status = .ok ∧
         (u.host f).unacked = (s.host f).unacked ++ [(s.host f).serial] ∧ (u.host f).buffers = (s.host f).buffers) ∧
     (bytes ≠ [] → offset % 64 + bytes.length < 64 → (s.host f).buffers.length < 64 →
       ∃ u b, exec (.hostWriteTlp f offset bytes) s = .next u ∧ u.reply.status = .ok ∧
         (u.host f).buffers = (s.host f).buffers ++ [b] ∧ b.line = offset / 64 ∧ b.last = s.now ∧
         (∀ i < 64, b.mask.getLsbD i = (decide (offset % 64 ≤ i) && decide (i < offset % 64 + bytes.length))) ∧
         (u.host f).unacked = (s.host f).unacked) ∧
     (∀ old rest, bytes ≠ [] → offset % 64 + bytes.length < 64 → (s.host f).buffers = old :: rest → 64 ≤ (s.host f).buffers.length →
       ∃ u b, exec (.hostWriteTlp f offset bytes) s = .next u ∧ u.reply.status = .ok ∧
         (u.host f).buffers = rest ++ [b] ∧ b.line = offset / 64 ∧
         u.reg (hostA f.port.val 0x18) = satAdd (s.reg (hostA f.port.val 0x18)) 1)) ∧
  (∀ (s : State) (f : Fn) (offset : Nat) (bytes : List Byte) (b : LineBuf), windowDead s f = false →
     pathClosed s (fnPath f) = false → s.safe.active = false → (windowLine s f (64 * (offset / 64))).isSome = true →
     (s.host f).buffers.find? (fun b => b.line = offset / 64) = some b →
     bytes ≠ [] → offset % 64 + bytes.length ≤ 64 →
     let b' : LineBuf := { fillBuffer b offset bytes with last := s.now }
     (b'.mask = BitVec.allOnes 64 → ∃ u, exec (.hostWriteTlp f offset bytes) s = .next u ∧
       (u.host f).unacked = (s.host f).unacked ++ [(s.host f).serial] ∧ (u.host f).buffers = (s.host f).buffers.erase b) ∧
     (b'.mask ≠ BitVec.allOnes 64 → ∃ u, exec (.hostWriteTlp f offset bytes) s = .next u ∧
       (u.host f).unacked = (s.host f).unacked ∧
       (u.host f).buffers = (s.host f).buffers.map (fun x => if x.line = offset / 64 then b' else x))) ∧
  (∀ (s : State) (f : Fn) (offset : Nat) (bytes : List Byte) (n : Nat), windowDead s f = false → bytes ≠ [] → n ≠ 0 →
     (pathClosed s (fnPath f) = true → exec (.hostWriteTlp f offset bytes) s = .next (answer s .unsupported) ∧
       exec (.hostReadTlp f offset n) s = .next (s.emit (.completion f .unsupported [] false))) ∧
     (pathClosed s (fnPath f) = false →
       (s.safe.active = true → exec (.hostWriteTlp f offset bytes) s = .next (answer (windowError s f offset 2) .ok)) ∧
       (s.safe.active = false → (windowLines offset bytes.length).any (fun l => (windowLine s f (64 * l)).isNone) = true →
         exec (.hostWriteTlp f offset bytes) s = .next (answer (windowError s f offset 1) .ok)) ∧
       ((windowLines offset n).any (fun l => (windowLine s f (64 * l)).isNone) = true →
         exec (.hostReadTlp f offset n) s =
           .next ((windowError s f offset 1).emit (.completion f .ok (List.replicate n 0) false))) ∧
       ((windowLines offset n).all (fun l => (windowLine s f (64 * l)).isSome) = true →
         (s.safe.active = true → exec (.hostReadTlp f offset n) s = .next (retainedRead s f offset n (windowLines offset n))) ∧
         (s.safe.active = false → 256 ≤ (s.host f).reads.length → exec (.hostReadTlp f offset n) s = .next s)))) ∧
  (∀ (s : State) (f : Fn) (line : Nat) (b : LineBuf), (s.host f).buffers.find? (fun b => b.line = line) = some b →
     ∃ u, exec (.lineBufferTimeout f line) s = .next u ∧ (u.host f).buffers = (s.host f).buffers.erase b ∧
       u.reg (hostA f.port.val 0x18) = satAdd (s.reg (hostA f.port.val 0x18)) 1 ∧ u.now = max s.now (b.last + 1000)) ∧
  (∀ (s : State) (f : Fn) (offset length : Nat), windowDead s f = false → length ≠ 0 → pathClosed s (fnPath f) = false →
     s.safe.active = false → (s.host f).reads.length < 256 →
     (windowLines offset length).all (fun l => (windowLine s f (64 * l)).isSome) = true →
     ∃ u r, exec (.hostReadTlp f offset length) s = .next u ∧ (u.host f).reads = (s.host f).reads ++ [r] ∧
       r.offset = offset ∧ r.length = length ∧ r.left = (offset + length + 63) / 64 - offset / 64 ∧ r.lines = [] ∧
       ((∀ x ∈ (s.host f).reads, x.id < (s.host f).serial) → ∀ x ∈ (s.host f).reads, x.id ≠ r.id) ∧ (u.host f).buffers = (s.host f).buffers ∧ u.mem = s.mem)

/-- A read completes with the word; one of a 64-bit quantity's low word latches its high word for the path, from which that path's next read of the high word comes, and one of all 8 bytes returns both words (R9, R10, R646). A write acts as the word's rule says: of the window by an owner write, of a queue's or tally's page by the party's VF or an owner write, of a party's ring by its VF, of an MSI-X table by its function, and of the leadership register by any master (R11, R442, R496, R497). A word written to an RW field is held to the field's range, a 1 written to a W1C field clears it, an RWC field is only staged, and the others stay (R11, R12). A write to an offset that the panel does not have is discarded and a read of it returns 0, both posted (R8); a word that only reads takes no write (R496); an access of another size is Unsupported (R9). Where the spec leaves a point to the model, it takes the choice of assumption log entries 23, 28 and 69. -/
def Obligations.RegisterAccess : Prop :=
  (∀ (s : State) (acc : Access) (size : Nat),
     let sp := spotOf acc
     pathSilent s acc.path = false →
     (pathClosed s acc.path = true ∨ sizeOk sp acc.off size = false →
       exec (.lowWordRead acc size) s = .next (answer s .unsupported)) ∧
     (pathClosed s acc.path = false → sizeOk sp acc.off size = true → present s sp = false →
       exec (.lowWordRead acc size) s = .next (answer (accessError s acc 1) .ok (List.replicate (size / 4) 0))) ∧
     (pathClosed s acc.path = false → sizeOk sp acc.off size = true → present s sp = true →
       (size = 8 → exec (.lowWordRead acc size) s =
         .next (answer s .ok [spotView s sp, spotView s (spotOf { acc with off := acc.off + 4 })])) ∧
       (size = 4 → wordHalf sp = some 0 →
         let high := spotView s (spotOf { acc with off := acc.off + 4 })
         exec (.lowWordRead acc size) s = .next (answer
           { s with rlatch := mset none s.rlatch (latchKey acc.path acc.off) (some high) } .ok [spotView s sp])) ∧
       (wordHalf sp = some 1 → exec (.lowWordRead acc size) s =
         .next (answer s .ok [(mget none s.rlatch (latchKey acc.path (acc.off - 4))).getD (spotView s sp)])) ∧
       (wordHalf sp = none → exec (.lowWordRead acc size) s = .next (answer (readTouch s sp) .ok [spotView s sp])))) ∧
  (∀ (s : State) (acc : Access) (size : Nat) (d : Dword),
     let sp := spotOf acc
     pathSilent s acc.path = false →
     (pathClosed s acc.path = true ∨ sizeOk sp acc.off size = false →
       exec (.registerWrite acc size d) s = .next (answer s .unsupported)) ∧
     (pathClosed s acc.path = false → sizeOk sp acc.off size = true → present s sp = false →
       exec (.registerWrite acc size d) s = .next (refused s acc 1)) ∧
     (pathClosed s acc.path = false → acc.off % 4 = 0 → present s sp = true → actsOn sp = false →
       exec (.registerWrite acc 4 d) s = .next (answer s .ok))) ∧
  (∀ (s : State) (acc : Access) (d : Dword),
     let sp := spotOf acc
     let v := BitVec.ofNat 32 d.toNat
     pathSilent s acc.path = false → pathClosed s acc.path = false → acc.off % 4 = 0 → present s sp = true →
     actsOn sp = true →
     (∀ a, sp = .reg a → a ≠ 0x8004 → ownerGate s acc.path a = true →
       exec (.registerWrite acc 4 d) s = .next (answer (regWrite s acc v) .ok)) ∧
     (sp = .reg 0x8004 → exec (.registerWrite acc 4 d) s = .next (leaderWrite s acc v)) ∧
     (∀ p o, sp = .page p o → pageGate s acc.path (pageTile o) o = true →
       exec (.registerWrite acc 4 d) s = .next (answer (pageSet s acc o v) .ok)) ∧
     (∀ p o, sp = .board p o → exec (.registerWrite acc 4 d) s = .next (answer (ringEffect s acc (p + 1) o v) .ok)) ∧
     (∀ f o, sp = .msix f o → exec (.registerWrite acc 4 d) s = .next (answer (msixWrite s f o v) .ok)) ∧
     (∀ a, sp = .reg a → sizeOk sp acc.off 8 = true → ownerGate s acc.path a = true →
       exec (.registerWrite acc 8 d) s =
         .next (answer (quadWrite (dropLow s acc.path a) acc a d.toNat) .ok))) ∧
  (∀ (s : State) (a k : Nat) (v : Word) (r : RegRow) (f : Field), regRow a = some (r, k) → f ∈ r.fields →
     f.lo + f.width ≤ 32 →
     let taken := clampTo f.min f.max (bits v.toNat f.lo f.width)
     let old := s.field a f.lo f.width
     (f.acc = .rw → (fieldWrite s a v).field a f.lo f.width = taken) ∧
     (f.acc = .w1c → (fieldWrite s a v).field a f.lo f.width = old - (old &&& bits v.toNat f.lo f.width)) ∧
     (f.acc = .rwc → (fieldWrite s a v).field a f.lo f.width = old ∧
       ∃ w, (fieldWrite s a v).stagedAt a = some w ∧ bits w.toNat f.lo f.width = taken) ∧
     (f.acc = .ro ∨ f.acc = .wo → (fieldWrite s a v).field a f.lo f.width = old)) ∧
  (∀ (s : State) (p : Path) (d : Dword), ownerGate s p 0x8008 = true →
     exec (.registerWrite { path := p, off := 0x8008 } 4 d) s =
       .next (answer (s.setReg 0x8008 (BitVec.ofNat 32 (putBits (s.reg 0x8008).toNat 0 6
         (clampTo 1 60 (bits (d.toNat % 2 ^ 32) 0 6))))) .ok)) ∧
  (∀ (s : State) (p : Path) (d : Dword), ownerGate s p 0x7000 = true →
     exec (.registerWrite { path := p, off := 0x7000 } 4 d) s =
       .next (answer { s.setReg 0x7000 (s.reg 0x7000) with
         staged := mset none s.staged 0x7000 (some (BitVec.ofNat 32
           (putBits ((s.stagedAt 0x7000).getD (s.reg 0x7000)).toNat 0 16 (bits d.toNat 0 16)))) } .ok))

/-- An access at an offset that is no multiple of four completes with code 3, a block of 0 or more than 16 words, and a reserved command byte, with code 1, and another access with code 0 and its words, a write with the code of the register write (R459); a served message is answered on its binding, and one with a bad error code or of a type that the panel does not serve is discarded (R457, R458); the I3C codes set and clear the dynamic address and set and read the maximum length, up to 69, and others, or before 40 ms any, are not acknowledged (R458). Where the spec leaves a point to the model, it takes the choice of assumption log entries 23, 54, 75 and 77. -/
def Obligations.ManagementMessages : Prop :=
  (∀ (s : State) (m : Fin 4) (offset : Nat), endpointUp s m.val = true →
     (offset % 4 ≠ 0 → exec (.read32 m offset) s = .next (answer s (.code 3))) ∧
     (offset % 4 = 0 → exec (.read32 m offset) s =
       .next (answer (readWord s { path := .msg m, off := offset }).2 (.code 0)
         [(readWord s { path := .msg m, off := offset }).1]))) ∧
  (∀ (s : State) (m : Fin 4) (offset : Nat) (data : Word), endpointUp s m.val = true →
     (offset % 4 ≠ 0 → exec (.write32 m offset data) s = .next (answer s (.code 3))) ∧
     (offset % 4 = 0 → exec (.write32 m offset data) s =
       .next (asCode (busWrite s { path := .msg m, off := offset } data)))) ∧
  (∀ (s : State) (m : Fin 4) (offset count : Nat), endpointUp s m.val = true →
     ((count = 0 ∨ 16 < count) → exec (.readBlock m offset count) s = .next (answer s (.code 1))) ∧
     (1 ≤ count → count ≤ 16 → offset % 4 ≠ 0 → exec (.readBlock m offset count) s = .next (answer s (.code 3))) ∧
     (1 ≤ count → count ≤ 16 → offset % 4 = 0 → ∃ ws v, readRun m count offset s = (ws, v) ∧ ws.length = count ∧
       ws.head? = some (readWord s { path := .msg m, off := offset }).1 ∧
       exec (.readBlock m offset count) s = .next (answer v (.code 0) ws))) ∧
  (∀ (s : State) (m : Fin 4) (command : Nat), endpointUp s m.val = true → (command = 0 ∨ 4 ≤ command) →
     exec (.regAccessReserved m command) s = .next (answer s (.code 1))) ∧
  (∀ (s u : State) (msg : Mctp), endpointUp s (mctpMaster s msg).val = true → msg.pecOk = true →
     mctpServe s (mctpMaster s msg) msg.body = some u →
     exec (.mctpMessage msg) s = .next
       { u with
         out := u.out ++ .mctp msg.binding msg.source u.reply.status u.reply.words ::
           (if msg.binding = .i3c then [.ibi] else []) }) ∧
  (∀ (s : State) (msg : Mctp), msg.pecOk = false ∨ mctpServe s (mctpMaster s msg) msg.body = none →
     exec (.mctpMessage msg) s = .next s) ∧
  (∀ (s : State) (msg : Mctp), endpointUp s (mctpMaster s msg).val = true → msg.pecOk = true →
     (∀ id v, msg.body = .pldmSensor id → pldmSensor s id = some (some v) →
       ∃ u, exec (.mctpMessage msg) s = .next u ∧ u.reply = { status := .ok, words := [BitVec.ofNat 32 v] }) ∧
     (∀ off, msg.body = .regRead off → off % 4 = 0 →
       ∃ u, exec (.mctpMessage msg) s = .next u ∧ u.reply.status = .code 0 ∧
         u.reply.words = [(readWord s { path := .msg (mctpMaster s msg), off }).1]) ∧
     (∀ eid, msg.body = .control (some eid) →
       ∃ u, exec (.mctpMessage msg) s = .next u ∧ u.mgmt = { s.mgmt with eid := eid } ∧ u.reply.status = .ok) ∧
     (∀ off d, msg.body = .regWrite off d → off % 4 ≠ 0 →
       ∃ u, exec (.mctpMessage msg) s = .next u ∧ u.reply.status = .code 3 ∧ u.regs = s.regs)) ∧
  (∀ s : State, s.mgmt.up = true →
     (∀ a d, s.mgmt.dynamic = none →
       exec (.i3cCcc (.setdasa a d)) s = .next (if a = 0x50 + s.mgmt.aa then
         answer { s with mgmt := { s.mgmt with dynamic := some (d % 128) } } .ok else answer s .noAck) ∧
       exec (.i3cCcc (.entdaa d)) s = .next (answer { s with mgmt := { s.mgmt with dynamic := some (d % 128) } } .ok)) ∧
     exec (.i3cCcc .rstdaa) s = .next (answer { s with mgmt := { s.mgmt with dynamic := none } } .ok) ∧
     (s.mgmt.dynamic.isSome = true →
       exec (.i3cCcc .getmrl) s = .next (answer s .ok [BitVec.ofNat 32 s.mgmt.maxRead]) ∧
       (∀ n, exec (.i3cCcc (.setmrl n)) s =
         .next (answer { s with mgmt := { s.mgmt with maxRead := min n 69 } } .ok)) ∧
       ∀ a d, exec (.i3cCcc (.setdasa a d)) s = .next (answer s .noAck) ∧
         exec (.i3cCcc (.entdaa d)) s = .next (answer s .noAck)) ∧
     (s.mgmt.dynamic = none → exec (.i3cCcc .getmrl) s = .next (answer s .noAck) ∧
       ∀ n, exec (.i3cCcc (.setmrl n)) s = .next (answer s .noAck)) ∧
     (∀ c, exec (.i3cCcc (.other c)) s = .next (answer s .noAck))) ∧
  (∀ (s : State) (ccc : Ccc), s.mgmt.up = false → exec (.i3cCcc ccc) s = .next (answer s .noAck))

/-- A word written into a slot is stored and the slot is EMPTY again; a write to the base slot turns the VALID detours to WRONG_BASE; a write to the store's reserved offsets is an access error (R8, R473). VERIFY starts a verification of the slot named, which ends with the verdict of R474 to R476: BAD_FORMAT, BAD_SIGNATURE, WRONG_BASE or VALID. SAVE copies the VALID slots and the selection, and ends with them held as the boot itinerary, the job key with them (R491). While a fold is BUSY all these writes are discarded, with an access error (R490). Where the spec leaves a point to the model, it takes the choice of assumption log entries 53, 97, 137 and 169. -/
def Obligations.ItineraryStore : Prop :=
  (∀ (s : State) (p : Path) (offset k : Nat) (data : Word), slotAt (offset / 4 * 4) = some k →
     ownerGate s p (offset / 4 * 4) = true →
     ∃ u, exec (.itinStoreWrite p offset data) s = .next u ∧ u.reply.status = .ok ∧
       mget 0 u.itin.store (offset / 4 * 4) = data ∧ (k ≠ 0 → (u.slot k) = {}) ∧
       (k = 0 → (u.slot 0) = {} ∧ ∀ j < 33, (s.slot j).state = .valid → j ≠ 0 → (u.slot j).state = .wrongBase) ∧
       (∀ a, a ≠ offset / 4 * 4 → mget 0 u.itin.store a = mget 0 s.itin.store a)) ∧
  (∀ (s : State) (p : Path) (offset : Nat) (data : Word), slotAt (offset / 4 * 4) = none →
     pathSilent s p = false → pathClosed s p = false →
     exec (.itinStoreWrite p offset data) s =
       .next (answer (accessError s { path := p, off := offset / 4 * 4 } 1) .ok)) ∧
  (∀ (s : State) (p : Path), s.itin.plan.isSome = true →
     let idle : State := { s with itin := { s.itin with plan := none } }
     let busy := fun (off : Nat) => .next (answer (accessError s { path := p, off } 3) .ok)
     (ownerGate idle p 0x8080 = true → exec (.save p) s = busy 0x8080 ∧ ∀ slot, exec (.verify p slot) s = busy 0x8080) ∧
     (ownerGate idle p 0x8020 = true → exec (.foldGo p) s = busy 0x8020) ∧
     (∀ offset data, (slotAt (offset / 4 * 4)).isSome = true → ownerGate idle p (offset / 4 * 4) = true →
       isFoldReg (offset / 4 * 4) = false → holdsRwc (offset / 4 * 4) = false →
       exec (.itinStoreWrite p offset data) s = busy (offset / 4 * 4))) ∧
  (∀ (s : State) (p : Path) (slot : Fin 64), ownerGate s p 0x8080 = true →
     ∃ u, exec (.verify p slot) s = .next u ∧ u.reply.status = .ok ∧ u.itin.slotSel = slot.val ∧
       (slot.val ≤ 32 → (u.slot slot.val).state = .verifying ∧ u.itin.store = s.itin.store)) ∧
  (∀ (s : State) (k : Nat), k < 33 → (s.slot k).state = .verifying → (∀ j < k, (s.slot j).state ≠ .verifying) →
     s.power.pwrgd = true →
     exec .itinVerifyDone s = .next (s.setSlot k (verdict s k)) ∧
     ((verdict s k).state = .valid ↔ headerOk s k = true ∧ signatureOk s k = true ∧ (slotSections s k).isSome = true ∧
       (k = 0 ∨ baseOk s k = true)) ∧
     ((verdict s k).state = .badFormat ↔ headerOk s k = false ∨ signatureOk s k = true ∧ (slotSections s k).isSome = false) ∧
     ((verdict s k).state = .badSignature ↔ headerOk s k = true ∧ signatureOk s k = false) ∧
     ((verdict s k).state = .wrongBase ↔ headerOk s k = true ∧ signatureOk s k = true ∧
       (slotSections s k).isSome = true ∧ k ≠ 0 ∧ baseOk s k = false)) ∧
  (∀ (s : State) (p : Path), ownerGate s p 0x8080 = true →
     ∃ u store, exec (.save p) s = .next u ∧ u.reply.status = .ok ∧
       u.itin = { s.itin with saving := some (store, validSlots s, s.itin.sel) } ∧
       (∀ a k, slotAt a = some k → (s.slot k).state = .valid → mget 0 store a = mget 0 s.itin.store a)) ∧
  (∀ (s : State) (b : SMap Word × List Nat × Word), s.itin.saving = some b →
     exec .itinSaveDone s = .next { s with itin := { s.itin with saving := none, bootStore := some b }, sec := { s.sec with jkStored := s.sec.jk } })

/-- A selection with a refusal is refused, with the lowest of their codes, and leaves what is in force; that is code 1 where its base or detour is not VALID (R484, R485, R494); one with no refusal is planned at an instant within 12 ms (R487; the instant is free). At the instant the itinerary is in force, counted, and its selection active; the writes held while BUSY are performed after that (R487, R488, R490). The boot fold reports that none is held (R491). Where the spec leaves a point to the model, it takes the choice of assumption log entries 98, 99, 108 and 132. -/
def Obligations.Folds : Prop :=
  (∀ (s : State) (p : Path), ownerGate s p 0x8020 = true →
     (∃ k ∈ 0 :: selected s.itin.sel, (s.slot k).state ≠ .valid) →
     ∃ u, exec (.foldGo p) s = .next u ∧ u.reply.status = .ok ∧ u.itin.plan = none ∧ u.itin.result = 2 ∧
       u.itin.reason = 1 ∧ u.itin.force = s.itin.force ∧ u.itin.count = s.itin.count) ∧
  (∀ (s : State) (p : Path), ownerGate s p 0x8020 = true →
     let quiet := quietRefusals s ((effective s s.itin.sel).map (fun x => (clampSection s (newTorus (effective s s.itin.sel)) x).1))
     let xs := if refusals s s.itin.sel = [] then quiet else refusals s s.itin.sel
     xs ≠ [] → ∃ u, exec (.foldGo p) s = .next u ∧ u.reply.status = .ok ∧ u.itin.plan = none ∧ u.itin.result = 2 ∧
       u.itin.reason = xs.foldl (fun m x => if m = 0 then x.code else min m x.code) 0 ∧
       u.itin.force = s.itin.force ∧ u.itin.count = s.itin.count) ∧
  (∀ (s : State) (p : Path), ownerGate s p 0x8020 = true → refusals s s.itin.sel = [] →
     quietRefusals s ((effective s s.itin.sel).map (fun x => (clampSection s (newTorus (effective s s.itin.sel)) x).1)) = [] →
     ∃ u f, exec (.foldGo p) s = .next u ∧ u.reply.status = .ok ∧ u.itin.plan = some f ∧ f.sel = s.itin.sel ∧
       f.boot = false ∧ s.time ≤ f.instant ∧ f.instant ≤ s.time + 12000000 ∧ u.itin.force = s.itin.force) ∧
  (∀ (s : State) (f : FoldPlan), s.itin.plan = some f → panelRuns s = true → 9 ≤ s.power.stage →
     s.itin.heldWrites = [] →
     ∃ u, exec .foldInstant s = .next u ∧ u.itin.plan = none ∧ u.itin.force = f.sections ∧ u.itin.result = 1 ∧
       u.itin.count = s.itin.count + 1 ∧ u.itin.active = f.sel ∧ u.itin.folded = true ∧ u.itin.job = f.job ∧
       u.itin.foldTime = BitVec.ofNat 64 f.instant ∧ s.now ≤ u.now) ∧
  (∀ (s : State) (f : FoldPlan), s.itin.plan = some f → panelRuns s = true → 9 ≤ s.power.stage →
     ∃ v, exec .foldInstant s = .next (performHeld v) ∧ v.itin.heldWrites = s.itin.heldWrites ∧ v.itin.plan = none ∧
       v.itin.force = f.sections ∧ v.itin.count = s.itin.count + 1) ∧
  (∀ s : State, panelRuns s = true → s.power.stage = 8 → s.itin.folded = false → s.itin.plan = none →
     s.itin.bootStore = none →
     ∃ u, exec .bootFold s = .next u ∧ u.power.stage = 9 ∧ u.itin = s.itin ∧
       u = post { s with power := { s.power with stage := 9 } } 0x06 (srcDevice 2) 0) ∧
  (∀ (s : State) (store : SMap Word) (ks : List Nat) (sel : Word), panelRuns s = true → s.power.stage = 8 →
     s.itin.folded = false → s.itin.plan = none → s.itin.bootStore = some (store, ks, sel) →
     ∃ u, exec .bootFold s = .next u ∧ u.power.stage = 9 ∧ u.itin.store = store ∧ u.itin.sel = sel ∧
       (∀ f, u.itin.plan = some f → f.boot = true ∧ f.sel = sel))

/-- While VACANT any master's CLAIM makes it leader, with the next term and a full lease of LEASE_S seconds on its path (R497, R498); the leader's KEEP on the lease's path restarts the lease; RELEASE leaves the module VACANT; HANDOVER to a present master starts the 1 s timer and the target's ACCEPT installs it; DEPOSE is the service port's alone; a lease that ends, and a handover not accepted in time, are lost (R497, R498). A command that the table does not allow now is an ownership error; a KEEP of the leader on another path is taken and changes nothing. Where the spec leaves a point to the model, it takes the choice of assumption log entries 96 and 137. -/
def Obligations.Leadership : Prop :=
  (∀ (s : State) (p : Path) (m : Fin 4), leaderGate s p m = true → s.lead.leader = none →
     ∃ u, exec (.claim p) s = .next u ∧ u.reply.status = .ok ∧ u.lead.leader = some m ∧ u.lead.last = m ∧
       u.lead.term = s.lead.term + 1 ∧ u.lead.keepPath = p ∧ u.lead.pending = false ∧
       u.lead.lease = s.now + 1000000000 * s.field 0x8008 0 6) ∧
  (∀ (s : State) (p : Path) (m : Fin 4), leaderGate s p m = true → s.lead.leader = some m → s.lead.keepPath = p →
     exec (.keep p) s = .next (answer
       { s with
         lead := { s.lead with lease := s.now + 1000000000 * s.field 0x8008 0 6 } } .ok)) ∧
  (∀ (s : State) (p : Path) (m : Fin 4), leaderGate s p m = true → s.lead.leader = some m → s.lead.pending = false →
     ∃ u, exec (.release p) s = .next u ∧ u.reply.status = .ok ∧ u.lead = { s.lead with leader := none, last := m }) ∧
  (∀ (s : State) (p : Path) (m target : Fin 4), leaderGate s p m = true → s.lead.leader = some m →
     s.lead.pending = false → target ≠ m → masterPresent s target.val = true →
     exec (.handover p target) s = .next (answer
       { s with
         lead := { s.lead with pending := true, target := target, deadline := s.now + 1000000000 } } .ok)) ∧
  (∀ (s : State) (p : Path) (m : Fin 4), leaderGate s p m = true → s.lead.pending = true → s.lead.target = m →
     ∃ u, exec (.accept p) s = .next u ∧ u.reply.status = .ok ∧ u.lead.leader = some m ∧ u.lead.pending = false ∧
       u.lead.term = s.lead.term + 1 ∧ u.lead.keepPath = p ∧ u.lead.lease = s.now + 1000000000 * s.field 0x8008 0 6) ∧
  (∀ (s : State) (p : Path) (m : Fin 4), leaderGate s p m = true →
     (∀ x, m = 3 → s.lead.leader = some x → ∃ u, exec (.depose p) s = .next u ∧ u.reply.status = .ok ∧
       u.lead = { s.lead with leader := none, last := x, pending := false }) ∧
     (m ≠ 3 → ∃ u, exec (.depose p) s = .next u ∧ u.lead = s.lead)) ∧
  (∀ (s : State) (p : Path) (m : Fin 4), leaderGate s p m = true →
     let no : Host.Outcome State Fault Refusal := .next (ownershipError s { path := p, off := 0x8004 } m.val)
     (s.lead.leader ≠ none → exec (.claim p) s = no) ∧
     (s.lead.leader ≠ some m → exec (.keep p) s = no ∧ exec (.release p) s = no ∧ ∀ t, exec (.handover p t) s = no) ∧
     (s.lead.leader = some m → s.lead.keepPath ≠ p → exec (.keep p) s = .next (answer s .ok)) ∧
     (s.lead.pending = true → exec (.release p) s = no ∧ ∀ t, exec (.handover p t) s = no) ∧
     (∀ t : Fin 4, t = m ∨ masterPresent s t.val = false → exec (.handover p t) s = no) ∧
     (s.lead.pending = false ∨ s.lead.target ≠ m → exec (.accept p) s = no) ∧
     (m ≠ 3 ∨ s.lead.leader = none → exec (.depose p) s = no)) ∧
  (∀ (s : State) (m : Fin 4), s.lead.leader = some m →
     ∃ u, exec .leaseExpiry s = .next u ∧ u.lead = { s.lead with leader := none, last := m, pending := false } ∧
       u.now = max s.now s.lead.lease) ∧
  (∀ s : State, s.lead.pending = true →
     ∃ u, exec .handoverTimeout s = .next u ∧ u.lead = { s.lead with pending := false } ∧
       u.now = max s.now s.lead.deadline)

/-- A READY party whose last reset lies 20 ms back starts resetting at once, another waits for its 20 ms, and a request for a party in another state is an access error (R502, R504); the reset clears every queue's state and every tally of its tiles and advances its epoch (R505); with every command stopped it is READY, its resets counted (R502); after a fold's zeroing it is READY (R502). Where the spec leaves a point to the model, it takes the choice of assumption log entries 67, 106 and 137. -/
def Obligations.PartyResets : Prop :=
  (∀ (s : State) (p : Path) (party : Fin 16), ownerGate s p 0x8300 = true → (s.party party.val).phase = .ready →
     ∃ u, exec (.partyResetRequest p party) s = .next u ∧ u.reply.status = .ok ∧
       (u.party party.val).epoch = (s.party party.val).epoch ∧
       (u.party party.val).phase = (if (s.party party.val).lastReset.all (fun t => t + 20000000 ≤ s.now) = true
         then .resetting else .resetWait)) ∧
  (∀ (s : State) (p : Path) (party : Fin 16), ownerGate s p 0x8300 = true → (s.party party.val).phase ≠ .ready →
     exec (.partyResetRequest p party) s = .next (answer (accessError s { path := p, off := 0x8300 } 2) .ok)) ∧
  (∀ (s : State) (party : Fin 16) (t : Nat), (s.party party.val).phase = .resetWait →
     (s.party party.val).lastReset = some t → s.power.pwrgd = true →
     ∃ u, exec (.partyResetWaitExpiry party) s = .next u ∧ u.now = max s.now (t + 20000000) ∧
       u.party party.val = { s.party party.val with phase := .resetting, cleared := false }) ∧
  (∀ (s : State) (party : Fin 16), (s.party party.val).phase = .resetting → (s.party party.val).cleared = false →
     s.power.pwrgd = true →
     ∃ u, exec (.partyReset party) s = .next u ∧
       u.party party.val = { s.party party.val with epoch := (s.party party.val).epoch + 1, cleared := true } ∧
       (∀ q, q ≠ party.val → u.party q = s.party q) ∧
       (∀ t ∈ partyTiles s party.val, (u.tile t).gateFail = false ∧ (u.tile t).fence = none ∧
         ∀ k < 2048, u.tally (2048 * t + k) = 0)) ∧
  (∀ (s : State) (party : Fin 16), (s.party party.val).phase = .resetting → (s.party party.val).cleared = true →
     (∀ t ∈ partyTiles s party.val, ∀ i < 256, (s.queue (256 * t + i)).inflight = []) →
     ∃ u, exec (.partyResetDone party) s = .next u ∧
       u.party party.val = { s.party party.val with phase := .ready, resets := satAdd (s.party party.val).resets 1, lastReset := some s.now, cleared := false }) ∧
  (∀ (s : State) (party : Fin 16), (s.party party.val).phase = .zeroing →
     (∀ t ∈ partyTiles s party.val, (s.tile t).zero.active = false) →
     ∃ u, exec (.partyZeroingDone party) s = .next u ∧
       u.party party.val = { s.party party.val with phase := .ready })

/-- A record that a source commits enters the buffer of every ring of its class with the next sequence number and the time as its stamp, is counted as masked, or, with no room or with records already lost, is counted as lost; other rings keep what they hold; a record of a level source that is ARMED enters so when its condition becomes true (R512, R517, R521, R524, R529). The oldest record of a ring that may write goes to its slot in host memory (R516, R517). A moderation timer that ends sends what it held, or leaves it pending under a PCIe mask (R515, R522). Where the spec leaves a point to the model, it takes the choice of assumption log entries 55, 136 and 137. -/
def Obligations.Records : Prop :=
  (∀ (s : State) (e : Event) (r : Nat), s.power.pwrgd = true → e.cls ≠ 1 → knownClass e.cls = true →
     levelClasses.contains e.cls = false → r ≤ 16 →
     (∀ t, mget none (s.ring r).maskTime e.cls = some t → t + 40 ≤ s.now) →
     ∃ u, exec (.eventCommit e) s = .next u ∧
       (r ∉ ringsOf e.cls e.party → u.ring r = s.ring r) ∧
       (r ∈ ringsOf e.cls e.party → (s.ring r).masks.getLsbD (e.cls % 256) = true →
         u.ring r = { s.ring r with masked := satAdd (s.ring r).masked 1 }) ∧
       (r ∈ ringsOf e.cls e.party → (s.ring r).masks.getLsbD (e.cls % 256) = false →
         ((s.ring r).buffer.length < bufferCap r ∧ (s.ring r).lostNow = 0 →
           ∃ rec : Record, (u.ring r).buffer = (s.ring r).buffer ++ [rec] ∧ rec.seq = (s.ring r).taken ∧
             (u.ring r).taken = (s.ring r).taken + 1 ∧ rec.stamp = BitVec.ofNat 64 s.time ∧
             rec.party = BitVec.ofNat 8 (if deviceClasses.contains e.cls = true then 0xFF else e.party) ∧
             rec.cls = BitVec.ofNat 8 e.cls ∧ rec.source = BitVec.ofNat 16 e.source ∧
             rec.payload = BitVec.ofNat 96 (payloadOf e.cls e.payload)) ∧
         (¬ ((s.ring r).buffer.length < bufferCap r ∧ (s.ring r).lostNow = 0) →
           (u.ring r).buffer = (s.ring r).buffer ∧ (u.ring r).lost = satAdd (s.ring r).lost 1))) ∧
  (∀ (s : State) (e : Event), s.power.pwrgd = true → levelClasses.contains e.cls = true →
     let key := levelKey e.cls e.source
     ∃ u, exec (.eventCommit e) s = .next u ∧
       mget none u.nb.conds key =
         some { party := if deviceClasses.contains e.cls = true then 0xFF else e.party, payload := payloadOf e.cls e.payload } ∧
       (∀ r ∈ ringsOf e.cls e.party, mget none s.nb.conds key = none → mget .armed (s.ring r).levels key = .armed →
         mget none (s.ring r).maskTime e.cls = none → (s.ring r).masks.getLsbD (e.cls % 256) = false →
         (s.ring r).buffer.length < bufferCap r → (s.ring r).lostNow = 0 →
         mget .armed (u.ring r).levels key = .posted ∧ ∃ rec : Record, (u.ring r).buffer = (s.ring r).buffer ++ [rec] ∧
           rec.seq = (s.ring r).taken ∧ rec.stamp = BitVec.ofNat 64 s.time)) ∧
  (∀ (s : State) (ring : Fin 17) (rec : Record) (rest : List Record), (s.ring ring.val).buffer = rec :: rest →
     ringOpen s ring.val = true → slotFree (s.ring ring.val) rec = true →
     ∃ u more, exec (.recordWrite ring) s = .next u ∧
       u.out = s.out ++ .hostWrite (ringFn s ring.val)
         ((s.ring ring.val).base + 32 * (rec.seq.toNat % 2 ^ (s.ring ring.val).sizeLog2)) (recordBytes rec) :: more ∧
       (u.ring ring.val).producer = rec.seq + 1 ∧ (u.ring ring.val).consumer = (s.ring ring.val).consumer) ∧
  (∀ (s : State) (ring : Fin 17), (s.ring ring.val).buffer = [] ∨ ringOpen s ring.val = false ∨
     (∀ rec, (s.ring ring.val).buffer.head? = some rec → slotFree (s.ring ring.val) rec = false) →
     exec (.recordWrite ring) s = .next s) ∧
  (∀ (s : State) (ring : Fin 17) (t : Nat), (s.ring ring.val).timer = some t →
     ∃ u, exec (.moderationTimeout ring) s = .next u ∧ u.now = max s.now t ∧
       ((s.ring ring.val).held = false ∨ (s.ring ring.val).consumer = (s.ring ring.val).producer →
         u.ring ring.val = { s.ring ring.val with timer := none, held := false } ∧ u.out = s.out) ∧
       ((s.ring ring.val).held = true → (s.ring ring.val).consumer ≠ (s.ring ring.val).producer →
         ringOpen s ring.val = true →
         (s.fn (ringFn s ring.val)).fnMask = true ∨ (s.fn (ringFn s ring.val)).vecMask = true → (u.ring ring.val).held = false ∧
         (u.fn (ringFn s ring.val)).vecPending = true) ∧
       ((s.ring ring.val).held = true → (s.ring ring.val).consumer ≠ (s.ring ring.val).producer →
         ringOpen s ring.val = true → (s.fn (ringFn s ring.val)).fnMask = false →
         (s.fn (ringFn s ring.val)).vecMask = false → (u.ring ring.val).held = false ∧
         u.out = s.out ++ [.msix (ringFn s ring.val) (s.fn (ringFn s ring.val)).msgAddr (s.fn (ringFn s ring.val)).msgData]))

/-- ENABLE starts a ring at its producer index if the function masters requests and uses MSI-X, and else is an access error (R518); a consumer index between consumer and producer is taken, another refused (R518); the idle hint leaves ENABLE and sets BYPASS (R523), and so does a read of the producer index that finds the ring empty (R523); a mask write sets the bits of the known, maskable classes of its word (R524); completion re-arms a level source whose condition is gone and posts one anew whose condition stands (R521); an unmask is re-sampled 40 ns after it (R525); the global hold is set and cleared (R526). Where the spec leaves a point to the model, it takes the choice of assumption log entries 20, 101, 132 and 137. -/
def Obligations.Rings : Prop :=
  (∀ (s : State) (p : Path) (ring : Fin 17), boardGate s p ring.val 0xC = true → (s.ring ring.val).enable = false →
     (s.fn (enableFn s p ring.val)).busMaster = true → (s.fn (enableFn s p ring.val)).msixEnable = true →
     ∃ u, exec (.ringEnable p ring) s = .next u ∧ u.reply.status = .ok ∧ (u.ring ring.val).enable = true ∧
       (u.ring ring.val).consumer = (s.ring ring.val).producer ∧ (u.ring ring.val).producer = (s.ring ring.val).producer) ∧
  (∀ (s : State) (p : Path) (ring : Fin 17), boardGate s p ring.val 0xC = true →
     ((s.ring ring.val).enable = true → exec (.ringEnable p ring) s = .next (answer s .ok)) ∧
     ((s.ring ring.val).enable = false →
       (s.fn (enableFn s p ring.val)).busMaster = false ∨ (s.fn (enableFn s p ring.val)).msixEnable = false →
       ∃ u, exec (.ringEnable p ring) s = .next u ∧ u.reply.status = .ok ∧ (u.ring ring.val).enable = false)) ∧
  (∀ (s : State) (p : Path) (ring : Fin 17) (v : Word), boardGate s p ring.val 0x18 = true →
     ∃ u, exec (.consumerWrite p ring v) s = .next u ∧ u.reply.status = .ok ∧
       (u.ring ring.val).producer = (s.ring ring.val).producer ∧
       (u.ring ring.val).consumer =
         (if (v - (s.ring ring.val).consumer).toNat ≤
             ((s.ring ring.val).producer - (s.ring ring.val).consumer).toNat then v
           else (s.ring ring.val).consumer)) ∧
  (∀ (s : State) (p : Path) (ring : Fin 17), boardGate s p ring.val 0xC = true →
     ∃ u, exec (.idle p ring) s = .next u ∧ u.reply.status = .ok ∧
       (u.ring ring.val).enable = (s.ring ring.val).enable ∧
       ((s.ring ring.val).held = false → u.ring ring.val = { s.ring ring.val with bypass := true }) ∧
       ((s.ring ring.val).held = true → ringOpen s ring.val = true →
         (u.ring ring.val).held = false ∧ (u.ring ring.val).bypass = false)) ∧
  (∀ (s : State) (p : Path), pathSilent s p = false → pathClosed s p = false → p.master.isSome = true →
     ∃ u, exec (.producerRead p 0) s = .next u ∧ u.reply = { status := .ok, words := [(s.ring 0).producer] } ∧
       ((s.ring 0).producer ≠ (s.ring 0).consumer → u.ring 0 = s.ring 0) ∧
       ((s.ring 0).producer = (s.ring 0).consumer → (s.ring 0).held = false →
         u.ring 0 = { s.ring 0 with bypass := true })) ∧
  (∀ (s : State) (port : Fin 2) (q : Fin 16), pathSilent s (.vf port q) = false → pathClosed s (.vf port q) = false →
     partyExists s q.val = true →
     ∃ u, exec (.producerRead (.vf port q) ⟨q.val + 1, Nat.succ_lt_succ q.isLt⟩) s = .next u ∧
       u.reply = { status := .ok, words := [(s.ring (q.val + 1)).producer] }) ∧
  (∀ (s : State) (p : Path) (ring : Fin 17) (v : Word) (key : Nat), boardGate s p ring.val 0x1C = true →
     key = levelKey (bits v.toNat 0 8) (bits v.toNat 8 16) → mget .armed (s.ring ring.val).levels key = .posted →
     mget none s.nb.conds key = none →
     ∃ u, exec (.nbComplete p ring v) s = .next u ∧ u.reply.status = .ok ∧
       mget .armed (u.ring ring.val).levels key = .armed) ∧
  (∀ (s : State) (p : Path) (ring : Fin 17) (v : Word) (key : Nat) (c : LevelCond), boardGate s p ring.val 0x1C = true →
     v.getLsbD 31 = false → key = levelKey (bits v.toNat 0 8) (bits v.toNat 8 16) →
     (postedKeys (s.ring ring.val)).filter (fun k => k = key) = [key] → mget none s.nb.conds key = some c →
     mget none (s.ring ring.val).maskTime (key / 65536) = none →
     (s.ring ring.val).masks.getLsbD (key / 65536 % 256) = false →
     (s.ring ring.val).buffer.length < bufferCap ring.val → (s.ring ring.val).lostNow = 0 →
     ∃ u rec, exec (.nbComplete p ring v) s = .next u ∧ u.reply.status = .ok ∧
       mget .armed (u.ring ring.val).levels key = .posted ∧
       (u.ring ring.val).buffer = (s.ring ring.val).buffer ++ [rec] ∧ rec.seq = (s.ring ring.val).taken ∧
       rec.stamp = BitVec.ofNat 64 s.time) ∧
  (∀ (s : State) (p : Path) (ring : Fin 17) (k : Fin 8) (v : Word), boardGate s p ring.val (0x40 + 4 * k.val) = true →
     ∃ u, exec (.maskWrite p ring k v) s = .next u ∧ u.reply.status = .ok ∧
       ∀ c < 256, (u.ring ring.val).masks.getLsbD c =
         (if c / 32 = k.val ∧ knownClass c = true ∧ unmaskable c = false then v.getLsbD (c % 32)
           else (s.ring ring.val).masks.getLsbD c)) ∧
  (∀ (s : State) (ring : Fin 17) (cls : Fin 256) (t : Nat), mget none (s.ring ring.val).resample cls.val = some t →
     ∃ u, exec (.unmaskResample ring cls) s = .next u ∧ u.now = max s.now (t + 40) ∧
       mget none (u.ring ring.val).resample cls.val = none ∧
       (u.ring ring.val).masks = (s.ring ring.val).masks) ∧
  (∀ (s : State) (p : Path) (hold : Bool), ownerGate s p 0xD000 = true →
     ∃ u, exec (.globalHold p hold) s = .next u ∧ u.reply.status = .ok ∧ u.nb.hold = hold)

/-- At the end of a window of an instance its counters are kept for the next one, and its WEATHER condition stands exactly when some category's increase has reached its threshold, or a counter has saturated (R540, R541); a port's instance counts one register, under category 8 (R573). A category that newly stands and may arm arms the self-checkpoint of every party that self-checkpoints, has a sealed generation, and has none armed or running and no warning to wait for (R553). An armed self-checkpoint that a voting fence has passed starts once it may (R554); without one it is TORN after SELF_WAIT_MS (R554); neither acts on a party without such a self-checkpoint; it ends with its generation sealed (R555). Where the spec leaves a point to the model, it takes the choice of assumption log entries 56, 58, 107 and 137. -/
def Obligations.WeatherAndSelfCheckpoints : Prop :=
  (∀ (s : State) (party : Fin 16), (selfCheck s party.val).armed.isSome = true → (selfCheck s party.val).fenced = true →
     selfReady s party.val = true →
     ∃ u, exec (.selfCheckpointStart party) s = .next u ∧ (selfCheck u party.val).armed = none ∧
       (selfCheck u party.val).fenced = false ∧ (selfCheck u party.val).running.isSome = true ∧
       (selfCheck u party.val).torn = (selfCheck s party.val).torn ∧
       (selfCheck u party.val).causes = (selfCheck s party.val).causes ∧ u.mem = s.mem) ∧
  (∀ (s : State) (party : Fin 16), (selfCheck s party.val).armed.isNone = true ∨
     (selfCheck s party.val).fenced = false ∨ selfReady s party.val = false →
     exec (.selfCheckpointStart party) s = .next s) ∧
  (∀ (s : State) (party : Fin 16), (selfCheck s party.val).armed.isNone = true ∨
     (selfCheck s party.val).fenced = true ∨ active s = false → exec (.selfWaitTimeout party) s = .next s) ∧
  (∀ (s : State) (place : WxInstance) (p : Fin 16) (r : WxResult), s.power.pwrgd = true →
     r ∈ wxResults s place (wxCounters place) (mget {} s.weather place.id).counts → r.reached = true →
     bits (mget {} s.weather place.id).standing r.cat 1 = 0 → wxArm s r.cat = true → s.field 0x10000 14 1 = 1 →
     s.field 0x10000 (16 + p.val) 1 = 1 → (newestSealed s p.val).isSome = true →
     (selfCheck s p.val).armed = none → (selfCheck s p.val).running = none → (selfCheck s p.val).blocked = [] →
     ∃ u, exec (.weatherWindow place) s = .next u ∧ (selfCheck u p.val).armed = some s.now ∧
       (selfCheck u p.val).fenced = false ∧ (selfCheck u p.val).torn = false) ∧
  (∀ (s : State) (party : Fin 16) (t : Nat), (selfCheck s party.val).armed = some t →
     (selfCheck s party.val).fenced = false → active s = true →
     ∃ u, exec (.selfWaitTimeout party) s = .next u ∧ (selfCheck u party.val).torn = true ∧
       u.now = max s.now (t + 1000000 * s.field 0x10004 0 16) ∧
       (selfReady s party.val = true → (selfCheck u party.val).running.isSome = true) ∧
       (selfReady s party.val = false → (selfCheck u party.val).armed = some t ∧
         (selfCheck u party.val).fenced = true)) ∧
  (∀ (s : State) (party : Fin 16) (n : Word), (selfCheck s party.val).running = some n →
     ∃ u, exec (.selfCheckpointDone party) s = .next u ∧ (selfCheck u party.val).running = none ∧
       (selfCheck u party.val).failed = false ∧ (selfCheck u party.val).torn = false ∧
       (∀ g ∈ s.rk.gens, g.party = party.val → g.gen = n → g.sealed = false →
         ∃ y ∈ u.rk.gens, y.party = party.val ∧ y.gen = n ∧ y.sealed = true)) ∧
  (∀ (s : State) (place : WxInstance), s.power.pwrgd = true →
     ∃ u, exec (.weatherWindow place) s = .next u ∧
       (mget {} u.weather place.id).counts = (wxCounters place).flatMap (fun c => wxValues s place c.2) ∧
       ((mget none u.nb.conds (levelKey 0x70 (wxSource s place))).isSome = true ↔
         ∃ r ∈ wxResults s place (wxCounters place) (mget {} s.weather place.id).counts, r.reached = true)) ∧
  (∀ (s : State) (n : Fin 8) (p : Fin 16) (o : Nat), s.power.pwrgd = true →
     (mget {} s.weather (WxInstance.port n p).id).counts = [o] →
     o + s.field 0x10060 0 16 ≤ (s.reg (portA n.val p.val 0x18)).toNat → s.field 0x10060 0 16 ≠ 0 →
     ∃ u, exec (.weatherWindow (.port n p)) s = .next u ∧
       (mget {} u.weather (WxInstance.port n p).id).standing = 2 ^ 8 ∧
       (mget none u.nb.conds (levelKey 0x70 (srcPort n.val p.val))).isSome = true)

/-- A half mounts and serves, with the open generations discarded (R546, R575), once and from stage 7 of start-up on. The programming of a command's piece or record ends, with the blocks that failed counted, and the piece stands in its generation, the record in the logbook (R545, R548, R560). A SEAL that stands in a queue of every tile of the party is accepted, and waits while it does not (R549), and its generation is sealed once its directory and record are programmed, and not before (R549). Where the spec leaves a point to the model, it takes the choice of assumption log entries 57, 104 and 105. -/
def Obligations.Seals : Prop :=
  (∀ (s : State) (h : Fin 2), s.power.pwrgd = true → 7 ≤ s.power.stage → bits s.rk.ready h.val 1 = 0 →
     exec (.rucksackMount h) s = .next
       { s with
         rk := { s.rk with ready := s.rk.ready + 2 ^ h.val, gens := s.rk.gens.filter (·.sealed), sealing := [] } }) ∧
  (∀ (s : State) (g : Fin 16384) (idx : Word) (retired : Nat) (x : Programming),
     s.rk.programming.find? (fun x => x.queue = g.val && x.idx = idx) = some x → s.power.pwrgd = true →
     mayProgram s x.work = true → quietCommand s g.val idx = true →
     ∃ u, exec (.rucksackProgramDone g idx retired) s = .next u ∧ u.rk.programming = s.rk.programming.erase x ∧
       mget 0 u.rk.faults (halfOf (g.val / 256)) = mget 0 s.rk.faults (halfOf (g.val / 256)) + retired ∧
       (∀ p n y, x.work = .piece p n y → ∀ z, s.rk.gens.find? (fun z => z.party = p && z.gen = n) = some z →
         { z with pieces := z.pieces ++ [y] } ∈ u.rk.gens) ∧
       (∀ y, x.work = .record y → y ∈ u.rk.log)) ∧
  (∀ (s : State) (g : Fin 16384) (idx : Word) (retired : Nat),
     (∀ x, s.rk.programming.find? (fun x => x.queue = g.val && x.idx = idx) = some x →
       s.power.pwrgd = false ∨ mayProgram s x.work = false ∨ quietCommand s g.val idx = false) →
     exec (.rucksackProgramDone g idx retired) s = .next s) ∧
  (∀ (s : State) (h : Fin 2), s.power.pwrgd = false ∨ s.power.stage < 7 ∨ bits s.rk.ready h.val 1 = 1 →
     exec (.rucksackMount h) s = .next s) ∧
  (∀ (s : State) (party : Fin 16), (∀ x, openGen s party.val = some x → partyTiles s party.val = [] ∨
     (∃ t ∈ partyTiles s party.val, sealQueue s t x.gen = none) ∨ ∃ y ∈ s.rk.sealing, y.party = party.val) →
     exec (.sealAccept party) s = .next s) ∧
  (∀ (s : State) (party : Fin 16), (∀ x, s.rk.sealing.find? (fun x => x.party = party.val) = some x →
     s.rk.gens.find? (fun y => y.party = party.val && y.gen = x.gen) = none ∨ s.rk.ready ≠ 3 ∨
     ∃ y ∈ s.rk.programming, ∃ pc, y.work = .piece party.val x.gen pc) →
     exec (.sealProgrammed party) s = .next s) ∧
  (∀ (s : State) (party : Fin 16) (x : Gen), openGen s party.val = some x → partyTiles s party.val ≠ [] →
     (∀ t ∈ partyTiles s party.val, (sealQueue s t x.gen).isSome = true) →
     (∀ y ∈ s.rk.sealing, y.party ≠ party.val) →
     ∃ u, exec (.sealAccept party) s = .next u ∧
       u.rk.sealing = s.rk.sealing ++ [{ party := party.val, gen := x.gen }] ∧ u.rk.gens = s.rk.gens) ∧
  (∀ (s : State) (party : Fin 16) (x : Sealing) (g : Gen), s.rk.sealing.find? (fun x => x.party = party.val) = some x →
     s.rk.gens.find? (fun y => y.party = party.val && y.gen = x.gen) = some g →
     (∀ y ∈ s.rk.programming, ∀ pc, y.work ≠ .piece party.val x.gen pc) → s.rk.ready = 3 →
     ∃ u, exec (.sealProgrammed party) s = .next u ∧ u.rk.sealing = s.rk.sealing.erase x ∧
       { g with sealed := true } ∈ u.rk.gens)

/-- EXPORT and IMPORT start a transfer of the party, generation, address and length that stand in the block (R556, R576), an import in the normal state only (R569); a GO while one is BUSY is discarded as an access error (R557). It ends, no longer BUSY, while the half serves and its port's function may master the bus: an export writes the image, from its first block on, with result 1 and its length, or result 2 where there is no such sealed generation, no job key or no room for it; an import stores the generation that the image holds, or ends with result 2 where the image is bad or is not stored (R556, R598). Where the spec leaves a point to the model, it takes the choice of assumption log entries 59, 60, 61 and 137. -/
def Obligations.Transfers : Prop :=
  (∀ (s : State) (p : Path) (h : Fin 2) (c : Instr) (op : Nat),
     (c, op) ∈ [(Instr.exportImage p h, 1), (.importImage p h, 2)] → ownerGate s p (xferA h.val 0) = true →
     (op = 2 → s.safe.active = false) → (xfer s h.val).busy = false →
     ∃ u, exec c s = .next u ∧ u.reply.status = .ok ∧
       xfer u h.val = { busy := true, op := op, party := s.field (xferA h.val 0) 2 4, gen := s.reg (xferA h.val 4), addr := 4096 * (s.reg64 (xferA h.val 8) / 4096), len := s.reg64 (xferA h.val 0x10) } ∧
       u.field (xferA h.val 0) 10 2 = 0 ∧ u.reg64 (xferA h.val 0x18) = 0) ∧
  (∀ (s : State) (p : Path) (h : Fin 2) (c : Instr) (op : Nat),
     (c, op) ∈ [(Instr.exportImage p h, 1), (.importImage p h, 2)] → ownerGate s p (xferA h.val 0) = true →
     (op = 2 → s.safe.active = false) → (xfer s h.val).busy = true →
     exec c s = .next (answer (accessError (s.setField (xferA h.val 0) 0 6 (op + 4 * s.field (xferA h.val 0) 2 4))
       { path := p, off := xferA h.val 0 } 3) .ok)) ∧
  (∀ (s : State) (p : Path) (h : Fin 2), ownerGate s p (xferA h.val 0) = true → s.safe.active = true →
     exec (.importImage p h) s = .next (answer (accessError s { path := p, off := xferA h.val 0 } 2) .ok)) ∧
  (∀ (s : State) (h : Fin 2) (image : Option Image) (bad : List Nat),
     (xfer s h.val).busy = false ∨ s.power.pwrgd = false ∨ bits s.rk.ready h.val 1 = 0 ∨
       (s.fn { port := h, vf := 0 }).busMaster = false ∨ ideClosed s { port := h, vf := 0 } = true →
     exec (.rkTransferDone h ⟨image, bad⟩) s = .next s) ∧
  (∀ (s : State) (h : Fin 2) (image : Option Image) (bad : List Nat), (xfer s h.val).busy = true → s.power.pwrgd = true →
     bits s.rk.ready h.val 1 = 1 → (s.fn { port := h, vf := 0 }).busMaster = true →
     ideClosed s { port := h, vf := 0 } = false →
     let x := xfer s h.val
     let held := (sealedGens s x.party).find? (fun g => g.gen = x.gen && bits g.halves h.val 1 = 1)
     let read := image.bind (readImage s h.val x)
     ∃ u, exec (.rkTransferDone h ⟨image, bad⟩) s = .next u ∧ xfer u h.val = { x with busy := false } ∧
       (x.op = 1 → held.isNone = true ∨ s.sec.jk.isNone = true → u.field (xferA h.val 0) 10 2 = 2 ∧ u.out = s.out) ∧
       (x.op = 1 → ∀ jk g, s.sec.jk = some jk → held = some g →
         let r := rereadGen s h.val bad g
         let bs := buildImage r.2 jk r.1 h.val
         (x.len < bs.length → u.field (xferA h.val 0) 10 2 = 2 ∧ u.out = s.out) ∧
         (bs.length ≤ x.len → u.field (xferA h.val 0) 10 2 = 1 ∧
           u.reg64 (xferA h.val 0x18) = bs.length % 2 ^ 64 ∧
           .hostWrite { port := h, vf := 0 } x.addr (bs.take 4096) ∈ u.out)) ∧
       (x.op ≠ 1 → (∀ g, read = some g → (storeImport s h.val g).isNone = true) →
         u.field (xferA h.val 0) 10 2 = 2 ∧ u.rk.gens = s.rk.gens) ∧
       (x.op ≠ 1 → ∀ g, read = some g → (storeImport s h.val g).isSome = true →
         u.field (xferA h.val 0) 10 2 = 1 ∧ ∃ y ∈ u.rk.gens, y.party = g.party ∧ y.gen = g.gen ∧
           bits y.halves h.val 1 = 1 ∧ ∀ z ∈ g.pieces, z ∈ y.pieces))

/-- Enabling a receive window makes it wait for a fill, and enabling a source starts its fill, INVALID with cause 2 while its buddy link is dark (R564, R565, R577); a window that may not be enabled, and a change of an enabled one, is an access error (R577); a disabled window is OFF (R577). Each fill step takes the line at FRONT once it may, a stash line without sending it (R209, R564), and the fill ends VALID with its packets acknowledged (R564); RESYNC starts the fill of an INVALID source again, COMMIT makes a FILLING window VALID (R564, R565); a FILLING window that nothing writes for FILL_IDLE_MS is INVALID with cause 4 (R565). Where the spec leaves a point to the model, it takes the choice of assumption log entries 25, 62 and 137. -/
def Obligations.Mirrors : Prop :=
  (∀ (s : State) (p : Path) (t : Fin 64) (w : Fin 4) (v : Word), ownerGate s p (mirA t.val w.val 0) = true →
     mirEnabled s t.val w.val = false → v.toNat % 16 = 3 → (mirBlocks s t.val w.val).2 ≤ 147456 →
     ∃ u, exec (.mirrorEnable p t w v) s = .next u ∧ u.reply.status = .ok ∧ mirEnabled u t.val w.val = true ∧
       mirReceive u t.val w.val = true ∧ u.mirror (mirKey t.val w.val) = { state := 4, idle := s.now }) ∧
  (∀ (s : State) (p : Path) (t : Fin 64) (w : Fin 4) (v : Word), ownerGate s p (mirA t.val w.val 0) = true →
     mirEnabled s t.val w.val = false → v.toNat % 16 = 1 → mirAllowed s t.val w.val false = true →
     ∃ u, exec (.mirrorEnable p t w v) s = .next u ∧ u.reply.status = .ok ∧ mirEnabled u t.val w.val = true ∧
       mirReceive u t.val w.val = false ∧
       u.mirror (mirKey t.val w.val) = (if buddyDark s t.val w.val then { state := 3, cause := 2 } else { state := 1 })) ∧
  (∀ (s : State) (p : Path) (t : Fin 64) (w : Fin 4) (v : Word), ownerGate s p (mirA t.val w.val 0) = true →
     mirEnabled s t.val w.val = false → v.toNat % 2 = 1 → v.toNat / 4 % 4 = 0 →
     mirAllowed s t.val w.val (decide (v.toNat / 2 % 2 = 1)) = false →
     exec (.mirrorEnable p t w v) s = .next (answer (accessError (mirFields s t.val w.val v)
       { path := p, off := mirA t.val w.val 0 } 2) .ok)) ∧
  (∀ (s : State) (p : Path) (t : Fin 64) (w : Fin 4) (v : Word), ownerGate s p (mirA t.val w.val 0) = true →
     mirEnabled s t.val w.val = true → v.toNat % 2 = 1 → v.toNat / 4 % 4 = 0 →
     (mirFields s t.val w.val v).reg (mirA t.val w.val 0) ≠ s.reg (mirA t.val w.val 0) →
     exec (.mirrorEnable p t w v) s =
       .next (answer (accessError s { path := p, off := mirA t.val w.val 0 } 2) .ok)) ∧
  (∀ (s : State) (p : Path) (t : Fin 64) (w : Fin 4) (v : Word), ownerGate s p (mirA t.val w.val 0) = true →
     mirEnabled s t.val w.val = true → v.toNat % 2 = 0 → v.toNat / 4 % 4 = 0 →
     ∃ u, exec (.mirrorEnable p t w v) s = .next u ∧ u.reply.status = .ok ∧ mirEnabled u t.val w.val = false ∧
       mirReceive u t.val w.val = mirReceive s t.val w.val ∧ u.mirror (mirKey t.val w.val) = {}) ∧
  (∀ (s : State) (t : Fin 64) (w : Fin 4), active s = false ∨ (s.mirror (mirKey t.val w.val)).state ≠ 1 ∨
     mirLines s t.val w.val ≤ (s.mirror (mirKey t.val w.val)).front ∨
     lineReady s t.val (mirBase s t.val w.val + 64 * (s.mirror (mirKey t.val w.val)).front) = false →
     exec (.mirrorFillLine t w) s = .next s) ∧
  (∀ (s : State) (t : Fin 64) (w : Fin 4), active s = false ∨ (s.mirror (mirKey t.val w.val)).state ≠ 1 ∨
     (s.mirror (mirKey t.val w.val)).front ≠ mirLines s t.val w.val ∨ fillOpen s t.val w.val = true →
     exec (.mirrorFillDone t w) s = .next s) ∧
  (∀ (s : State) (t : Fin 64) (w : Fin 4), (s.mirror (mirKey t.val w.val)).state ≠ 4 ∨ s.power.pwrgd = false →
     exec (.mirrorFillIdleTimeout t w) s = .next s) ∧
  (∀ (s : State) (p : Path) (t : Fin 64) (w : Fin 4), ownerGate s p (mirA t.val w.val 0) = true →
     mirEnabled s t.val w.val = true → mirReceive s t.val w.val = false →
     (s.mirror (mirKey t.val w.val)).state = 3 → 10 ≤ s.field (mirA t.val w.val 0) 16 16 →
     s.field (mirA t.val w.val 0) 16 16 ≤ 10000 → s.field (mirA t.val w.val 0) 3 1 = 0 →
     exec (.resync p t w) s = .next (answer (startFill s t.val w.val) .ok)) ∧
  (∀ (s : State) (p : Path) (t : Fin 64) (w : Fin 4), ownerGate s p (mirA t.val w.val 0) = true →
     mirEnabled s t.val w.val = true → (s.mirror (mirKey t.val w.val)).state = 4 →
     10 ≤ s.field (mirA t.val w.val 0) 16 16 → s.field (mirA t.val w.val 0) 16 16 ≤ 10000 →
     ∃ u, exec (.commit p t w) s = .next u ∧ u.reply.status = .ok ∧
       u.mirror (mirKey t.val w.val) = { s.mirror (mirKey t.val w.val) with state := 2 }) ∧
  (∀ (s : State) (t : Fin 64) (w : Fin 4), active s = true → (s.mirror (mirKey t.val w.val)).state = 1 →
     (s.mirror (mirKey t.val w.val)).front < mirLines s t.val w.val →
     lineReady s t.val (mirBase s t.val w.val + 64 * (s.mirror (mirKey t.val w.val)).front) = true →
     ∃ u, exec (.mirrorFillLine t w) s = .next u ∧ u.mem = s.mem ∧
       u.mirror (mirKey t.val w.val) =
         { s.mirror (mirKey t.val w.val) with front := (s.mirror (mirKey t.val w.val)).front + 1 } ∧
       (inStash s t.val (mirBase s t.val w.val + 64 * (s.mirror (mirKey t.val w.val)).front) = true →
         u.fabric = s.fabric)) ∧
  (∀ (s : State) (t : Fin 64) (w : Fin 4), active s = true → (s.mirror (mirKey t.val w.val)).state = 1 →
     (s.mirror (mirKey t.val w.val)).front = mirLines s t.val w.val → fillOpen s t.val w.val = false →
     exec (.mirrorFillDone t w) s =
       .next (s.setMirror (mirKey t.val w.val) { s.mirror (mirKey t.val w.val) with state := 2 })) ∧
  (∀ (s : State) (t : Fin 64) (w : Fin 4), (s.mirror (mirKey t.val w.val)).state = 4 → s.power.pwrgd = true →
     ∃ u, exec (.mirrorFillIdleTimeout t w) s = .next u ∧
       u.mirror (mirKey t.val w.val) = { s.mirror (mirKey t.val w.val) with state := 3, cause := 4 } ∧
       u.now = max s.now ((s.mirror (mirKey t.val w.val)).idle + 1000000 * s.field (mirA t.val w.val 0) 16 16) ∧
       (mget none u.nb.conds (levelKey 0x73 (srcBridge 0 1))).isSome = true)

/-- A cause of R570, and ENTER, enter the safe state from the normal state, its first cause recorded and SAFE_N signalled (R568, R570, R574); routers stop within 10 µs, every bundle is parked and the lights are out within 500 µs, and the copper links and guest mainbands idle within 1 ms of entry (R568; the model takes the bounds as the instants); RESTART in the safe state, with no shutdown under way, starts the sequence again at its row map with memory as it stands, and has no effect otherwise (R571). Where the spec leaves a point to the model, it takes the choice of assumption log entries 114, 124, 125 and 132. -/
def Obligations.SafeStateSequence : Prop :=
  (∀ (s : State) (cause : Nat) (block0 block1 : BitVec 16) (extra : BitVec 8), s.power.pwrgd = true →
     s.safe.active = false → cause ∈ [1, 2, 3, 4, 5, 6, 7, 8, 9, 0x10, 0x11, 0x12, 0x13, 0x20] →
     ∃ u, exec (.safeStateEntry cause block0 block1 extra) s = .next u ∧
       u.safe = { active := true, entered := s.now, stage := 0 } ∧ u.field 0x10100 8 8 = cause ∧
       u.field 0x10100 0 1 = 1 ∧ (cause = 0x20 → u.sec.jk = none) ∧ .safeN true ∈ u.out) ∧
  (∀ (s : State) (cause : Nat) (block0 block1 : BitVec 16) (extra : BitVec 8), s.power.pwrgd = false ∨
     s.safe.active = true ∨ cause ∉ [1, 2, 3, 4, 5, 6, 7, 8, 9, 0x10, 0x11, 0x12, 0x13, 0x20] →
     exec (.safeStateEntry cause block0 block1 extra) s = .next s) ∧
  (∀ (s : State) (p : Path), ownerGate s p 0x10110 = true → s.safe.active = false →
     exec (.enter p) s = .next (answer (enterSafe s 9) .ok)) ∧
  (∀ (s : State) (p : Path), ownerGate s p 0x10110 = true → s.safe.active = true →
     exec (.enter p) s = .next (answer s .ok)) ∧
  (∀ (s : State) (p : Path), ownerGate s p 0x10110 = true → s.safe.active = false ∨ s.power.shutdown ≠ 0 →
     exec (.restart p) s = .next (answer s .ok)) ∧
  (∀ s : State, s.power.pwrgd = false ∨ s.safe.active = false ∨ 3 ≤ s.safe.stage →
     exec .safeStateStage s = .next s) ∧
  (∀ s : State, s.power.pwrgd = true → s.safe.active = true → s.safe.stage < 3 →
     ∃ u, exec .safeStateStage s = .next u ∧ u.safe = { s.safe with stage := s.safe.stage + 1 } ∧
       u.now = max s.now (s.safe.entered + [10000, 500000, 1000000].getD s.safe.stage 0) ∧
       (s.safe.stage = 1 → ∀ n < 8, (u.lantern n).lasers = false ∧
         (∀ k < 16, (u.port n k).phase = .off) ∧ ∀ m < 32, (u.bundle n m).entry = 0) ∧
       (s.safe.stage = 2 → ∀ k < 13, (u.copperPort k).phase = .off) ∧
       (s.safe.stage = 2 → ∀ n < 4, (u.guest n).mainband = false)) ∧
  (∀ (s : State) (p : Path), ownerGate s p 0x10110 = true → s.safe.active = true → s.power.shutdown = 0 →
     ∃ u, exec (.restart p) s = .next u ∧ u.reply.status = .ok ∧ u.power.stage = 3 ∧ u.itin.folded = false ∧
       u.queues = [] ∧ u.tallies = [] ∧ u.mem = s.mem ∧ u.itin.store = s.itin.store ∧ u.lead = s.lead ∧
       (coolantLost s = false → u.safe.active = false))

/-- RETIRE.GO starts blowing the first valid copy for an allowed row and column, refuses another with result 1, and is an access error while BUSY (R20, R567, R574); a copy that took is followed by the other, and the retirement then pends for its row with result 1 (R21, R567); an entry that did not take is closed off unless none of its fuses took, and ends the request with result 2 or 3 (R21, R567). Where the spec leaves a point to the model, it takes the choice of assumption log entries 137 and 143. -/
def Obligations.FieldRetirement : Prop :=
  (∀ (s : State) (p : Path) (row : Fin 8) (col : Fin 16), ownerGate s p 0x10200 = true → s.panel.retire.copy = none →
     ∃ u, exec (.retireGo p row col) s = .next u ∧ u.reply.status = .ok ∧ u.panel.retire.row = row.val ∧
       u.panel.retire.col = col.val ∧ u.panel.pending = s.panel.pending ∧
       u.panel.hb0 = s.panel.hb0 ∧ u.panel.hb1 = s.panel.hb1 ∧
       u.panel.retire.copy = (if retireAllowed s row.val col.val then
         (if copyValid s.panel.hb0 then some 0 else some 1) else none) ∧
       u.field 0x10200 0 13 = row.val + 8 * col.val + bits (s.field 0x10200 0 13) 7 2 * 128 +
         (if retireAllowed s row.val col.val then 512 else 1024 + 4096)) ∧
  (∀ (s : State) (p : Path) (row : Fin 8) (col : Fin 16), ownerGate s p 0x10200 = true →
     s.panel.retire.copy.isSome = true →
     exec (.retireGo p row col) s = .next (answer (accessError s { path := p, off := 0x10200 } 3) .ok)) ∧
  (∀ (s : State) (taken : BitVec 5), s.panel.retire.copy = none ∨ s.power.pwrgd = false →
     exec (.retireBlowDone taken) s = .next s) ∧
  (∀ (s : State) (taken : BitVec 5) (k : Fin 2), s.power.pwrgd = true → s.panel.retire.copy = some k.val →
     taken.toNat ≠ retireEntry s.panel.retire.col →
     ∃ u, exec (.retireBlowDone taken) s = .next u ∧ u.panel.retire.copy = none ∧
       u.field 0x10200 10 2 = k.val + 2 ∧ (mapCopy u (1 - k.val)) = mapCopy s (1 - k.val) ∧
       (mapCopy u k.val).field =
         (mapCopy s k.val).field.set s.panel.retire.row (if taken = 0 then 0 else 0x1F) ∧
       u.panel.pending = (if k.val = 1 ∧ copyValid s.panel.hb0 = true then
         s.panel.pending ||| 2 ^ s.panel.retire.row else s.panel.pending)) ∧
  (∀ (s : State) (taken : BitVec 5), s.power.pwrgd = true → taken.toNat = retireEntry s.panel.retire.col →
     (s.panel.retire.copy = some 0 → copyValid s.panel.hb1 = true →
       ∃ u, exec (.retireBlowDone taken) s = .next u ∧ u.panel.retire.copy = some 1 ∧
         u.panel.hb0.field = s.panel.hb0.field.set s.panel.retire.row taken.toNat ∧ u.panel.hb1 = s.panel.hb1) ∧
     (s.panel.retire.copy = some 0 → copyValid s.panel.hb1 = false →
       ∃ u, exec (.retireBlowDone taken) s = .next u ∧ u.panel.retire.copy = none ∧
         u.panel.hb0.field = s.panel.hb0.field.set s.panel.retire.row taken.toNat ∧ u.panel.hb1 = s.panel.hb1 ∧
         u.panel.pending = s.panel.pending ||| 2 ^ s.panel.retire.row ∧ u.field 0x10200 10 2 = 1) ∧
     (s.panel.retire.copy = some 1 →
       ∃ u, exec (.retireBlowDone taken) s = .next u ∧ u.panel.retire.copy = none ∧
         u.panel.hb1.field = s.panel.hb1.field.set s.panel.retire.row taken.toNat ∧
         u.panel.pending = s.panel.pending ||| 2 ^ s.panel.retire.row ∧ u.field 0x10200 10 2 = 1))

/-- A module whose self-tests pass is marked so (R580); a failing active HB0 module hands over to a healthy HB1 module, and with none, or when HB1's fails while it is active or taking over, the panel enters the safe state for a security fault (R601, R602); a failing module that is neither changes nothing else. An image verifies when it is signed and its SVN is no lower than the fused minimum, and else is a fault of code 0x03, or 0x04 for a rollback (R585, R586); bad guide-core firmware or a bad tuning table enters the safe state (R601). The handover ends the sessions and the Secure streams once the endpoint is up (R602). A stream enters Secure with keys only, and loses them when it leaves (R595). Where the spec leaves a point to the model, it takes the choice of assumption log entry 127. -/
def Obligations.SecurityModules : Prop :=
  (∀ (s : State) (h : Fin 2), s.power.pwrgd = true →
     exec (.securitySelftest h true) s = .next (setSecModule s h.val { secModule s h.val with tested := some true })) ∧
  (∀ (s : State) (c : Instr) (code : Nat),
     (c, code) ∈ [(Instr.securitySelftest 0 false, 1), (.entropyHealthFail 0, 2)] → s.power.pwrgd = true →
     s.sec.active = 0 →
     ∃ u, exec c s = .next u ∧ (secModule u 0).tested = some false ∧
       u.reg (secA 0x14) = satAdd (s.reg (secA 0x14)) 1 ∧
       (moduleHealthy s 1 = true → s.sec.handover = none → u.sec.handover = some (code, s.now) ∧ u.safe = s.safe) ∧
       (moduleHealthy s 1 = false → u.safe.active = true ∧ u.sec.active = 2 ∧ (s.safe.active = false → u.sec.jk = none))) ∧
  (∀ (s : State) (c : Instr), c ∈ [Instr.securitySelftest 0 false, .entropyHealthFail 0] → s.power.pwrgd = true →
     s.sec.active ≠ 0 →
     ∃ u, exec c s = .next u ∧ (secModule u 0).tested = some false ∧ u.safe = s.safe ∧ u.sec.active = s.sec.active ∧
       u.reg (secA 0x14) = satAdd (s.reg (secA 0x14)) 1) ∧
  (∀ (s : State) (c : Instr), c ∈ [Instr.securitySelftest 1 false, .entropyHealthFail 1] → s.power.pwrgd = true →
     ∃ u, exec c s = .next u ∧ (secModule u 1).tested = some false ∧
       u.reg (secA 0x14) = satAdd (s.reg (secA 0x14)) 1 ∧
       (s.sec.active = 1 ∨ s.sec.handover.isSome = true → u.safe.active = true ∧ u.sec.active = 2 ∧
         u.sec.handover = none) ∧
       (s.sec.active ≠ 1 → s.sec.handover = none → u.safe = s.safe ∧ u.sec.active = s.sec.active)) ∧
  (∀ (s : State) (c : Instr), s.power.pwrgd = false → c ∈ [Instr.securityHandover, .securitySelftest 0 false,
       .securitySelftest 0 true, .securitySelftest 1 false, .securitySelftest 1 true, .entropyHealthFail 0,
       .entropyHealthFail 1] ∨ (∃ i g n, c = .bootVerify i g n) ∨ (∃ f b, c = .ideStateChange f b) →
     exec c s = .next s) ∧
  (∀ (s : State) (h : Fin 2) (svn : Nat), s.power.pwrgd = true →
     ((secModule s h.val).smOk = none → s.sec.minSm ≤ svn →
       ∃ u, exec (.bootVerify (.securityModule h) true svn) s = .next u ∧ u.safe = s.safe ∧
         secModule u h.val = { secModule s h.val with smOk := some true, svnSm := svn }) ∧
     ((secModule s h.val).hbOk = none → s.sec.minHb ≤ svn →
       ∃ u, exec (.bootVerify (.bootFirmware h) true svn) s = .next u ∧ u.safe = s.safe ∧
         secModule u h.val = { secModule s h.val with hbOk := some true, svnHb := svn } ∧
         u.field (hostA h.val 0) 9 1 = 1) ∧
     ((secModule s h.val).smOk = none → ∃ u, exec (.bootVerify (.securityModule h) false svn) s = .next u ∧
       (secModule u h.val).smOk = some false ∧ u.reg (secA 0x14) = satAdd (s.reg (secA 0x14)) 1)) ∧
  (∀ (s : State) (h : Fin 2) (signed : Bool) (svn : Nat), s.power.pwrgd = true →
     ((secModule s h.val).smOk = none → signed = false ∨ svn < s.sec.minSm →
       ∃ u, exec (.bootVerify (.securityModule h) signed svn) s = .next u ∧ (secModule u h.val).smOk = some false ∧
         u.field (secA 0x10) 0 8 = (if signed then 4 else 3)) ∧
     ((secModule s h.val).hbOk = none → signed = false ∨ svn < s.sec.minHb →
       ∃ u, exec (.bootVerify (.bootFirmware h) signed svn) s = .next u ∧ (secModule u h.val).hbOk = some false ∧
         u.field (hostA h.val 0) 9 1 = s.field (hostA h.val 0) 9 1 ∧
         u.field (secA 0x10) 0 8 = (if signed then 4 else 3)) ∧
     ((secModule s h.val).smOk.isSome = true → exec (.bootVerify (.securityModule h) signed svn) s = .next s) ∧
     ((secModule s h.val).hbOk.isSome = true → exec (.bootVerify (.bootFirmware h) signed svn) s = .next s)) ∧
  (∀ (s : State) (n : Fin 8) (signed : Bool) (svn : Nat),
     (panelRuns s = false ∨ s.power.stage ≠ 6 ∨ s.sec.guideOk = true →
       exec (.bootVerify .guideCores signed svn) s = .next s) ∧
     (panelRuns s = false ∨ s.power.stage ≠ 6 ∨ (s.lantern n.val).table = true →
       exec (.bootVerify (.tuningTable n) signed svn) s = .next s) ∧
     (panelRuns s = true → s.power.stage = 6 → s.sec.guideOk = false → signed = false ∨ svn < s.sec.minGc →
       ∃ u, exec (.bootVerify .guideCores signed svn) s = .next u ∧ u.sec.guideOk = false ∧ u.safe.active = true ∧
         u.sec.jk = none)) ∧
  (∀ (s : State) (n : Fin 8) (svn : Nat), panelRuns s = true → s.power.stage = 6 →
     (s.sec.guideOk = false → s.sec.minGc ≤ svn → exec (.bootVerify .guideCores true svn) s = .next
       { s with
         sec := { s.sec with guideOk := true, svnGc := svn } }) ∧
     ((s.lantern n.val).table = false →
       (∃ u, exec (.bootVerify (.tuningTable n) true svn) s = .next u ∧ (u.lantern n.val).table = true ∧
         u.safe = s.safe) ∧
       (∃ u, exec (.bootVerify (.tuningTable n) false svn) s = .next u ∧ (u.lantern n.val).table = false ∧
         u.safe.active = true ∧ u.sec.jk = none))) ∧
  (∀ (s : State) (code t : Nat), s.sec.handover = some (code, t) → s.power.pwrgd = true → s.mgmt.up = true →
     ∃ u, exec .securityHandover s = .next u ∧ u.sec.active = 1 ∧ u.sec.handover = none ∧ u.sec.sessions = [] ∧
       u.sec.jk = s.sec.jk ∧ ∀ f : Fn, (u.fn f).ide = false) ∧
  (∀ s : State, s.sec.handover = none ∨ s.mgmt.up = false → exec .securityHandover s = .next s) ∧
  (∀ (s : State) (f : Fn), s.power.pwrgd = true →
     (mget false s.sec.ports f.id = true →
       ∃ u, exec (.ideStateChange f true) s = .next u ∧ (u.fn f).ide = true ∧ u.sec = s.sec) ∧
     (mget false s.sec.ports f.id = false → exec (.ideStateChange f true) s = .next s) ∧
     (∃ u, exec (.ideStateChange f false) s = .next u ∧ (u.fn f).ide = false ∧
       ((s.fn f).ide = true → mget false u.sec.ports f.id = false)))

/-- Through a session that may ask for it: the anchor is fused once (R590), an itinerary key into an empty slot, a slot is revoked (R590), a job key is pending until the next fold while debug is closed (R583, R600), the fused minimum SVNs rise to those that run (R586), ZEROIZE in the safe state forgets the job keys and the link keys (R590), and a debug token that verifies opens debug after zeroizing, while every attempt takes a new nonce (R600). A service that the session or the state does not allow is refused with a security fault (R581, R590, R601). SPDM opens and ends sessions, serves measurements, heartbeats, certificates and challenges, and programs the IDE keys of the path's own functions (R588, R595); no responder answers before its module has started (R580, R585). Where the spec leaves a point to the model, it takes the choice of assumption log entries 65 and 126. -/
def Obligations.OwnerServices : Prop :=
  (∀ (s : State) (session : Nat) (anchor : BitVec 384), serviceGate s session true = true → s.sec.anchor = none →
     exec (.provisionAnchor session anchor) s = .next (answer
       { s with
         sec := { s.sec with anchor := some anchor } } .ok)) ∧
  (∀ (s : State) (session : Nat) (slot : Fin 4) (key : BitVec 384), serviceGate s session false = true →
     mget none s.sec.keySlots slot.val = none →
     ∃ u, exec (.loadItinKey session slot key) s = .next u ∧ u.reply.status = .ok ∧
       mget none u.sec.keySlots slot.val = some key ∧
       ∀ k, k ≠ slot.val → mget none u.sec.keySlots k = mget none s.sec.keySlots k) ∧
  (∀ (s : State) (session : Nat) (slot : Fin 4), serviceGate s session false = true →
     ∃ u, exec (.revokeItinKey session slot) s = .next u ∧ u.reply.status = .ok ∧
       ∀ k, u.sec.revoked.testBit k = (s.sec.revoked.testBit k || decide (k = slot.val))) ∧
  (∀ (s : State) (session : Nat) (key : BitVec 256), serviceGate s session false = true → s.sec.debugOpen = false →
     exec (.loadJobKey session key) s = .next (answer
       { s with
         sec := { s.sec with jkPending := some key } } .ok)) ∧
  (∀ (s : State) (session : Nat), serviceGate s session false = true →
     ∃ u, exec (.advanceSvn session) s = .next u ∧ u.reply.status = .ok ∧
       u.sec = { s.sec with minSm := max s.sec.minSm (secModule s s.sec.active).svnSm, minHb := max s.sec.minHb (secModule s s.sec.active).svnHb, minGc := max s.sec.minGc s.sec.svnGc }) ∧
  (∀ (s : State) (session : Nat), serviceGate s session false = true → s.safe.active = true →
     ∃ u, exec (.zeroize session) s = .next u ∧ u.reply.status = .ok ∧
       u.sec = { s.sec with jk := none, jkPending := none, jkStored := none } ∧
       (∀ k < 13, (u.copperPort k).keying = {}) ∧ ∀ n < 8, ∀ k < 16, (u.port n k).keying = {}) ∧
  (∀ (s : State) (session : Nat) (token : DebugToken), serviceGate s session false = true → s.safe.active = true →
     ∃ u, exec (.debugUnlock session token) s = .next u ∧ u.reply.status = .ok ∧ u.sec.nonce = Config.drbg s.draws ∧
       (tokenOk s token = true → u.sec.debugOpen = true ∧ u.sec.jk = none ∧ u.sec.jkStored = none ∧ u.power.stage = 3) ∧
       (tokenOk s token = false → u.sec.debugOpen = s.sec.debugOpen ∧ u.sec.jk = s.sec.jk ∧
         u.reg (secA 0x14) = satAdd (s.reg (secA 0x14)) 1)) ∧
  (∀ (s : State) (session : Nat) (c : Instr) (may : Bool) (anchor : BitVec 384) (slot : Fin 4) (key : BitVec 256)
     (token : DebugToken), (c, may) ∈ [
       (Instr.provisionAnchor session anchor, serviceGate s session true && s.sec.anchor.isNone),
       (.loadItinKey session slot anchor, serviceGate s session false && (mget none s.sec.keySlots slot.val).isNone),
       (.revokeItinKey session slot, serviceGate s session false),
       (.loadJobKey session key, serviceGate s session false && !s.sec.debugOpen),
       (.advanceSvn session, serviceGate s session false),
       (.zeroize session, serviceGate s session false && s.safe.active),
       (.debugUnlock session token, serviceGate s session false && s.safe.active)] → may = false →
     let heard : Bool := match s.sec.sessions.find? (fun x => x.id = session) with
       | some x => spdmUp s x.path
       | none => responderUp s
     (heard = true → ∃ u, exec c s = .next u ∧ u.reply.status = .unsupported ∧ u.sec = s.sec ∧
       u.field (secA 0x10) 0 8 = 9 ∧ u.reg (secA 0x14) = satAdd (s.reg (secA 0x14)) 1) ∧
     (heard = false → exec c s = .next s)) ∧
  (∀ (s : State) (p : Path), spdmUp s p = true →
     (∀ id, exec (.spdmRequest p (.heartbeat id)) s =
       .next (answer s (if sessionOn s p id then .ok else .unsupported))) ∧
     (∀ i, exec (.spdmRequest p (.measurements i)) s = .next
       (if 1 ≤ i ∧ i ≤ 13 then answer s .ok (digestWords (measurement s i)) else answer s .unsupported)) ∧
     exec (.spdmRequest p .certificate) s = .next (answer s .ok) ∧
     exec (.spdmRequest p .challenge) s = .next (answer s .ok) ∧
     (∀ f : Fn, (p = .pf f.port → (∃ x ∈ s.sec.sessions, x.path = p) →
         ∃ u, exec (.spdmRequest p (.ideProgram f)) s = .next u ∧ u.reply.status = .ok ∧
           mget false u.sec.ports f.id = true) ∧
       (p ≠ .pf f.port ∨ (∀ x ∈ s.sec.sessions, x.path ≠ p) →
         exec (.spdmRequest p (.ideProgram f)) s = .next (answer s .unsupported))) ∧
     (∀ m, 4 ≤ s.sec.sessions.length ∨ (m = true ∧ s.sec.anchor = none) →
       exec (.spdmRequest p (.startSession m)) s = .next (answer s .unsupported)) ∧
     (∀ id, sessionOn s p id = false →
       exec (.spdmRequest p (.endSession id)) s = .next (answer s .unsupported))) ∧
  (∀ (s : State) (p : Path) (kind : SpdmKind), spdmUp s p = false → exec (.spdmRequest p kind) s = .next s) ∧
  (∀ (s : State) (p : Path), spdmUp s p = true →
     (∀ m, s.sec.sessions.length < 4 → (m = true → s.sec.anchor.isSome = true) →
       ∃ u x, exec (.spdmRequest p (.startSession m)) s = .next u ∧ u.reply.status = .ok ∧
         u.sec = { s.sec with sessions := s.sec.sessions ++ [x] } ∧ x.path = p ∧ x.mutualAuth = m ∧
         ∀ y ∈ s.sec.sessions, y.id ≠ x.id) ∧
     (∀ id, sessionOn s p id = true → exec (.spdmRequest p (.endSession id)) s = .next (answer
       { s with
         sec := { s.sec with sessions := s.sec.sessions.filter (fun x => x.id ≠ id) } } .ok)) ∧
     exec (.spdmRequest p .unsupported) s = .next (answer s .unsupported))

/-- PWR_FOLD and TIL_PWR_FOLD make the staged settings active, PCAP and LIMIT held to their ranges, and a changed operating point has every tile drain (R610, R633); a draining tile whose commands have completed and whose ramps are cold changes its operating point, and no other does (R610); a sample of 250 ns is kept with the three before it and shown, and a change beyond the limit since the fourth sample back, and no other, is counted and answered: upward every unit of the tile rises with D at its active count, downward the vector unit and the engines that idle fall (R614, R615). Where the spec leaves a point to the model, it takes the choice of assumption log entries 114 and 130. -/
def Obligations.PowerFolds : Prop :=
  (∀ (s : State) (p : Path), ownerGate s p 0x01000004 = true →
     exec (.pwrFold p) s = .next (answer (foldPower s) .ok) ∧
       (foldPower s).field (pwrA 0) 8 8 = clampPcap ((s.foldReg (pwrA 0)).field (pwrA 0) 8 8) ∧
       (foldPower s).field (pwrA 0) 0 2 = (s.foldReg (pwrA 0)).field (pwrA 0) 0 2 ∧
       ((s.foldReg (pwrA 0)).field (pwrA 0) 0 2 ≠ s.field (pwrA 0) 0 2 →
         ∀ t < 64, (mget {} (foldPower s).power.tiles t).point = .draining)) ∧
  (∀ (s : State) (p : Path) (t : Fin 64), ownerGate s p (tilA t.val 0x9008) = true →
     exec (.tilPwrFold p t) s = .next (answer (pwrTileFold s t.val) .ok) ∧
       (∀ w, s.stagedAt (tilA t.val 0x9000) = some w → (pwrTileFold s t.val).field (tilA t.val 0x9000) 0 8 =
         clampTo 1 (tileLimit s t.val) (bits w.toNat 0 8)) ∧
       (∀ w, s.stagedAt (tilA t.val 0x9004) = some w → (pwrTileFold s t.val).reg (tilA t.val 0x9004) = w)) ∧
  (∀ (s : State) (t : Fin 64), panelRuns s = false ∨ (mget {} s.power.tiles t.val).point ≠ .draining ∨
     tileCold s t.val = false → exec (.operatingPointTileChange t) s = .next s) ∧
  (∀ (s : State) (t : Fin 64) (compute hamper : Nat), s.power.pwrgd = false ∨ (s.tile t.val).trained = false →
     exec (.slewSample t compute hamper) s = .next s) ∧
  (∀ (s : State) (t : Fin 64), panelRuns s = true → (mget {} s.power.tiles t.val).point = .draining →
     tileCold s t.val = true →
     ∃ u, exec (.operatingPointTileChange t) s = .next u ∧
       mget {} u.power.tiles t.val = { mget {} s.power.tiles t.val with point := .steady }) ∧
  (∀ (s : State) (t : Fin 64) (compute hamper : Nat), s.power.pwrgd = true → (s.tile t.val).trained = true →
     ∃ u, exec (.slewSample t compute hamper) s = .next u ∧
       (mget {} u.power.tiles t.val).samples = ((compute + hamper) :: (mget {} s.power.tiles t.val).samples).take 4 ∧
       u.reg (tilA t.val 0x9010) = BitVec.ofNat 32 (compute % 65536 + 65536 * (hamper % 65536)) ∧
       (∀ q : Nat, (mget {} s.power.tiles t.val).samples[3]? = some q → s.safe.active = false →
         4 * s.field (tilA t.val 0x9000) 0 8 < ((compute + hamper : Nat) - (q : Int)).natAbs →
         u.reg (tilA t.val 0x9018) = satAdd (s.reg (tilA t.val 0x9018)) 1 ∧
         (u.tile t.val).vecRamp.ramp = (if q < compute + hamper then .rise else .fall) ∧
         (u.tile t.val).vecRamp.limit = activeCount (s.tile t.val).vecRamp ∧
         ∀ e < 4, (q < compute + hamper ∨ (s.engine (4 * t.val + e)).idleRun ≠ 0 ∨
             (s.engine (4 * t.val + e)).ramp = .cold →
             (u.engine (4 * t.val + e)).ramp = (if q < compute + hamper then .rise else .fall) ∧
             (u.engine (4 * t.val + e)).limit = activeCount (s.engine (4 * t.val + e))) ∧
           (compute + hamper ≤ q → (s.engine (4 * t.val + e)).idleRun = 0 →
             (s.engine (4 * t.val + e)).ramp ≠ .cold → u.engine (4 * t.val + e) = s.engine (4 * t.val + e))) ∧
       (∀ q : Nat, (mget {} s.power.tiles t.val).samples[3]? = some q →
         s.safe.active = true ∨ ((compute + hamper : Nat) - (q : Int)).natAbs ≤ 4 * s.field (tilA t.val 0x9000) 0 8 →
         u.reg (tilA t.val 0x9018) = s.reg (tilA t.val 0x9018) ∧ u.engines = s.engines) ∧
       ((mget {} s.power.tiles t.val).samples[3]? = none →
         u.reg (tilA t.val 0x9018) = s.reg (tilA t.val 0x9018) ∧ u.engines = s.engines))

/-- A thermistor conversion is kept with its flag, a sound coolant inlet at 40 °C enters the safe state, and so does the loss of both thermistors (R619, R624); a die sensor sample is kept with its flag, a sound one at the die's limit enters the safe state, as does the loss of both sensors of a pair, and one at 115 °C in the safe state has the domains switched off (R620, R624); a cause over its threshold lowers the throttle a step, at most once a millisecond, and one below its threshold less the margin raises it a step (R621); the input out of its bounds over 100 µs enters the safe state, and the 1 ms readings are shown and warned of (R623, R631, R634); a lost clock enters the safe state (R613). Where the spec leaves a point to the model, it takes the choice of assumption log entries 63, 120 and 121. -/
def Obligations.Sensors : Prop :=
  (∀ (s : State) (i : Fin 2) (microamps : Nat) (reading : Int), s.power.pwrgd = true →
     ∃ u, exec (.thermistorConversion i microamps reading) s = .next u ∧
       u.sensor (thermistorNo i.val) =
         sensorTakes (s.sensor (thermistorNo i.val)) (thermistorFlag microamps reading) reading true ∧
       (i = 0 → thermistorFlag microamps reading = none → 640 ≤ reading → (u.sensor (thermistorNo 0)).lost = false →
         u.safe.active = true) ∧
       (coolantLost u = true → 3 ≤ s.power.stage → u.safe.active = true)) ∧
  (∀ (s : State) (sensor : DieSensor) (reading : Int) (referenceOk : Bool), s.power.pwrgd = true →
     sensorDomain sensor < 154 → domainGood s (sensorDomain sensor) = true →
     let flag : Option SensorFlag := if !referenceOk then some .reference
       else if reading < -640 ∨ 2400 < reading then some .range else none
     ∃ u, exec (.dieSensorSample sensor reading referenceOk) s = .next u ∧
       u.sensor (sensorNo sensor) = sensorTakes (s.sensor (sensorNo sensor)) flag reading false ∧
       (flag = none → dieSafeAt (sensorDomain sensor) ≤ reading → u.safe.active = true) ∧
       (pairLost (dieSensors u (sensorDomain sensor)) = true → u.safe.active = true) ∧
       (s.safe.active = true → flag = none → 1840 ≤ reading → u.power.poweredOff = true)) ∧
  (∀ (s : State) (c : Instr), s.power.pwrgd = false → (∃ i a r, c = .thermistorConversion i a r) ∨
     (∃ d r b, c = .dieSensorSample d r b) ∨ (∃ w v a, c = .supplySample w v a) ∨ (∃ i r, c = .throttleStep i r) ∨
     (∃ d, c = .clockFault d) → exec c s = .next s) ∧
  (∀ (s : State) (sensor : DieSensor) (reading : Int) (referenceOk : Bool),
     154 ≤ sensorDomain sensor ∨ domainGood s (sensorDomain sensor) = false →
     exec (.dieSensorSample sensor reading referenceOk) s = .next s) ∧
  (∀ (s : State) (cause : Fin 4) (reading : Nat), s.power.pwrgd = true →
     (cause = 2 ∧ 2850 ≤ reading) ∨
       (cause = 3 ∧ s.field (pwrA 0) 8 8 ≠ 0 ∧ 100 * s.field (pwrA 0) 8 8 < reading) →
     ((mget {} s.power.causes cause.val).level < 3 → (mget {} s.power.causes cause.val).level = 0 ∨
         (mget {} s.power.causes cause.val).since + 1000000 ≤ s.now →
       ∃ u, exec (.throttleStep cause reading) s = .next u ∧
         mget {} u.power.causes cause.val =
           { level := (mget {} s.power.causes cause.val).level + 1, since := s.now, calm := s.now } ∧
         ∀ t < 64, u.reg (tilA t 0x900C) = BitVec.ofNat 32 (levelCap (throttleLevel u))) ∧
     (3 ≤ (mget {} s.power.causes cause.val).level ∨ ((mget {} s.power.causes cause.val).level ≠ 0 ∧
         s.now < (mget {} s.power.causes cause.val).since + 1000000) →
       exec (.throttleStep cause reading) s = .next (notCalm s cause.val))) ∧
  (∀ (s : State) (cause : Fin 4) (reading : Nat), s.power.pwrgd = true →
     0 < (mget {} s.power.causes cause.val).level →
     (cause = 0 ∧ thermalLevel s 48 < (mget {} s.power.causes cause.val).level) ∨ (cause = 2 ∧ reading < 2600) ∨
       (cause = 3 ∧ (s.field (pwrA 0) 8 8 = 0 ∨ reading < 100 * s.field (pwrA 0) 8 8)) →
     ∃ u, exec (.throttleStep cause reading) s = .next u ∧
       (mget {} u.power.causes cause.val).level = (mget {} s.power.causes cause.val).level - 1 ∧
       u.now = max s.now ((mget {} s.power.causes cause.val).calm + 10000000) ∧
       ∀ t < 64, u.reg (tilA t 0x900C) = BitVec.ofNat 32 (levelCap (throttleLevel u))) ∧
  (∀ (s : State) (reading : Nat), exec (.throttleStep 1 reading) s = .next s) ∧
  (∀ (s : State) (volts amps : Nat), s.power.pwrgd = true →
     (∃ u, exec (.supplySample .us100 volts amps) s = .next u ∧ u.power.energy = s.power.energy + volts * amps ∧
       (volts < 4500 ∨ 6100 < volts ∨ 3000 < amps → u.safe.active = true) ∧
       (4500 ≤ volts → volts ≤ 6100 → amps ≤ 3000 → u.safe = s.safe)) ∧
     (∃ u, exec (.supplySample .ms1 volts amps) s = .next u ∧ u.power.volts = volts ∧ u.power.amps = amps ∧
       u.reg (pwrA 0x10) = BitVec.ofNat 32 (min volts 65535 + 65536 * min amps 65535) ∧
       ((mget none u.nb.conds (levelKey 0x92 (srcPower 0 0))).isSome = true ↔ volts < 4700 ∨ 5900 < volts)) ∧
     (∃ u, exec (.supplySample .ms10 volts amps) s = .next u ∧
       u.reg (pwrA 0x14) = BitVec.ofNat 32 (min (volts * amps / 1000) 65535))) ∧
  (∀ (s : State) (d : Fin 158), s.power.pwrgd = true → domainGood s d.val = true →
     exec (.clockFault d) s = .next (enterSafe s 0x13 (srcPower 4 d.val))) ∧
  (∀ (s : State) (d : Fin 158), domainGood s d.val = false → exec (.clockFault d) s = .next s)

/-- SHUTDOWN.GO starts a shutdown once (R628); it waits for the commands at most 10 ms and for the ramps at most 50 ms, darkens the lanterns from L7 down 2 ms apart, switches the domains but the host bridges' off and ends OFF when they are (R628); MOD_RST_N low, or a loss of input, leaves the fuses, the row map, the boot itinerary, the sealed generations and the logbook (R651, R659, R660). Where the spec leaves a point to the model, it takes the choice of assumption log entries 123 and 137. -/
def Obligations.PowerDown : Prop :=
  (∀ (s : State) (p : Path), ownerGate s p 0x0100000C = true → s.power.shutdown = 0 →
     exec (.shutdownGo p) s = .next (answer
       { s with
         power := { s.power with shutdown := 1, shutdownAt := s.now } } .ok)) ∧
  (∀ (s : State) (p : Path), ownerGate s p 0x0100000C = true → s.power.shutdown ≠ 0 →
     exec (.shutdownGo p) s = .next (answer s .ok)) ∧
  (∀ s : State, s.power.pwrgd = false ∨ s.power.shutdown = 0 ∨ 5 ≤ s.power.shutdown ∨
     (s.power.shutdown = 4 ∧ s.power.unwanted ≠ []) → exec .shutdownStage s = .next s) ∧
  (∀ s : State, s.power.pwrgd = true →
     (s.power.shutdown = 1 → ∃ u, exec .shutdownStage s = .next u ∧ u.power.shutdown = 2 ∧ u.power.shutdownAt = u.now ∧
       u.now = (if panelIdle s = true ∨ s.safe.active = true then s.now
         else max s.now (s.power.shutdownAt + 10000000))) ∧
     (s.power.shutdown = 2 → ∃ u, exec .shutdownStage s = .next u ∧ u.power.shutdown = 3 ∧ u.power.dark = 8 ∧
       u.now = (if panelCold s = true then s.now else max s.now (s.power.shutdownAt + 50000000))) ∧
     (s.power.shutdown = 3 → s.power.dark ≠ 0 → ∃ u, exec .shutdownStage s = .next u ∧ u.power.shutdown = 3 ∧
       u.power.dark = s.power.dark - 1 ∧
       u.now = max s.now (s.power.shutdownAt + 2000000 * (8 - s.power.dark)) ∧ (u.lantern (s.power.dark - 1)).lasers = false) ∧
     (s.power.shutdown = 3 → s.power.dark = 0 → ∃ u, exec .shutdownStage s = .next u ∧ u.power.shutdown = 4 ∧
       (∀ d < 158, domainOn s d = true → d ≠ 152 → d ≠ 153 → d ∈ u.power.unwanted) ∧
       ∀ k < 13, (u.copperPort k).phase = .off) ∧
     (s.power.shutdown = 4 → s.power.unwanted = [] → exec .shutdownStage s = .next
       { s with
         power := { s.power with shutdown := 5, shutdownAt := s.now } })) ∧
  (∀ (s : State) (c : Instr), c ∈ [Instr.modRstNLow, .inputLoss] →
     ∃ u, exec c s = .next u ∧ u.power.pwrgd = false ∧ FusesKept s.sec u.sec ∧ u.sec.jk = none ∧
       u.sec.jkStored = s.sec.jkStored ∧ u.panel.hb0 = s.panel.hb0 ∧ u.panel.hb1 = s.panel.hb1 ∧
       u.itin.bootStore = s.itin.bootStore ∧ u.itin.store = [] ∧ u.rk.gens = s.rk.gens.filter (·.sealed) ∧
       u.rk.log = s.rk.log ∧ u.mem = [] ∧ u.queues = [] ∧ u.lead = State.reset.lead ∧ u.now = s.now ∧
       (s.power.pwrgd = true → .pwrgd false ∈ u.out))

/-- For a die in the chain (R665): IDCODE captures the die's 32-bit code, STRAP_READ the 8 pads sampled at its last reset, BYPASS one 0 bit, SAMPLE/PRELOAD and EXTEST the pins; EXTEST alone drives the boundary register onto the pins (R599, R665). A die that is not in the chain takes no instruction, and no die takes another's. Where the spec leaves a point to the model, it takes the choice of assumption log entry 128. -/
def Obligations.ScanChain : Prop :=
  (∀ (s : State) (die : JtagDie), inChain s die = true →
     ∃ u, exec (.idcode die) s = .next u ∧ (u.tap die).instruction = .idcode ∧ (u.tap die).driven = false ∧
       u.out = s.out ++ [.jtag die 32 (match die with
         | .site _ => 0xB64725CB
         | .lantern _ => 0x264745CB
         | .bridge _ => 0x364755CB)]) ∧
  (∀ (s : State) (die : JtagDie), inChain s die = true →
     ∃ u, exec (.strapRead die) s = .next u ∧ (u.tap die).instruction = .strapRead ∧ (u.tap die).driven = false ∧
       u.out = s.out ++ [.jtag die 8 (strapsHeld s die.id)]) ∧
  (∀ (s : State) (die : JtagDie), inChain s die = true →
     ∃ u, exec (.bypass die) s = .next u ∧ (u.tap die).instruction = .bypass ∧ (u.tap die).driven = false ∧
       (u.tap die).boundary = (s.tap die).boundary ∧ u.out = s.out ++ [.jtag die 1 0]) ∧
  (∀ (s : State) (die : JtagDie) (pins preload : Nat), inChain s die = true →
     ∃ u, exec (.samplePreload die pins preload) s = .next u ∧ (u.tap die).instruction = .samplePreload ∧
       (u.tap die).driven = false ∧ (u.tap die).boundary = preload ∧ u.out = s.out ++ [.jtag die 0 pins]) ∧
  (∀ (s : State) (die : JtagDie) (pins : Nat), inChain s die = true →
     ∃ u, exec (.extest die pins) s = .next u ∧ (u.tap die).instruction = .extest ∧ (u.tap die).driven = true ∧
       (u.tap die).boundary = (s.tap die).boundary ∧ u.out = s.out ++ [.jtag die 0 pins]) ∧
  (∀ (s : State) (c : Instr) (d : JtagDie), inChain s d = false →
     c ∈ [Instr.idcode d, .strapRead d, .bypass d] ∨ (∃ x y, c = .samplePreload d x y) ∨ (∃ x, c = .extest d x) →
     exec c s = .next s) ∧
  (∀ (s t : State) (c : Instr) (d : JtagDie),
     c ∈ [Instr.idcode d, .strapRead d, .bypass d] ∨ (∃ x y, c = .samplePreload d x y) ∨ (∃ x, c = .extest d x) →
     exec c s = .next t → ∀ e : JtagDie, e.id ≠ d.id → t.tap e = s.tap e)

/-- A step takes the front command off the queue and does what it does; the model's own choice (assumption log entry 20) is that an empty queue lets one nanosecond pass. -/
def Obligations.StepRunsFront : Prop :=
  (∀ (s : State) (c : Instr) (rest : List Instr), s.pending = c :: rest → step s = exec c { s with pending := rest }) ∧
  (∀ s : State, s.pending = [] → step s = .next (s.passTo (s.now + 1)))

/-- From every state, reached or not, a step answers a next state; the clock does not run back, the fused anchor, keys, revocations and minimum versions are kept or only added to (R582, R585, R586, R590), and the commands behind the front one go on waiting. -/
def Obligations.EveryStep : Prop :=
  ∀ s : State, ∃ t, step s = .next t ∧ s.now ≤ t.now ∧ FusesKept s.sec t.sec ∧ t.pending = s.pending.tail

/-- For every command and state: each piece of state outside the command's footprint (Safety.lean) keeps its value. So a command whose footprint does not name the memory leaves every byte of it unchanged, and no command changes the queue behind it. -/
def Obligations.FrameOfEveryCommand : Prop :=
  (∀ (c : Instr) (s t : State), exec c s = .next t → SameBut (footprint c) s t) ∧
  (∀ (c : Instr) (s t : State) (a : Nat), StateField.mem ∉ footprint c → exec c s = .next t →
     t.byte a = s.byte a ∧ t.pending = s.pending)

/-- From every state that meets the invariant (memory listed at rising addresses with no byte that reads as an unlisted one, every tally below 2^31), whatever command is in front, the next state meets it. -/
def Obligations.InvariantKept : Prop :=
  ∀ s t : State, Inv s → step s = .next t → Inv t

/-- After reset no command waits, power is not good, the module is VACANT, no party exists and no itinerary is in force; every slot is EMPTY, every ring and queue disabled, every tally 0; the capability words read as the table of stepping B1 gives them and LEASE_S is 10. Where the spec leaves a point to the model, it takes the choice of assumption log entries 12, 13, 135 and 140. -/
def Obligations.ResetState : Prop :=
  Inv State.reset ∧ State.reset.pending = [] ∧ State.reset.power.pwrgd = false ∧ State.reset.lead.leader = none ∧
  (∀ p, partyExists State.reset p = false) ∧ State.reset.itin.folded = false ∧ (∀ k, State.reset.slot k = {}) ∧
  (∀ r, (State.reset.ring r).enable = false) ∧ (∀ g, (State.reset.queue g).enable = false) ∧
  (∀ k, State.reset.tally k = 0) ∧ (∀ n < 8, State.reset.reg (lanA n 0) = 0x000F0211) ∧
  (∀ h < 2, State.reset.reg (hbgA (8 * h)) = 0x00070302) ∧ State.reset.field 0x8008 0 6 = 10

/-- Logical column c of row r lies at physical column c below the row's skipped column and at c + 1 otherwise, and its site is 9 times the row plus that column; no other tile lies at the site, and none at the skipped one (R23). -/
def Obligations.SiteNumbers : Prop :=
  (∀ (s : State) (r c : Nat), r < 8 → c < 8 →
     (c < skipCol s r → siteOf s (8 * r + c) = r * 9 + c) ∧ (skipCol s r ≤ c → siteOf s (8 * r + c) = r * 9 + (c + 1))) ∧
  (∀ (s : State) (t : Nat), t < 64 → s.panel.mapRead = true → skipCol s (t / 8) ≤ 8 →
     tileAt? s (siteOf s t) = some t ∧ tileAt? s (9 * (t / 8) + skipCol s (t / 8)) = none ∧
     ∀ u < 64, siteOf s u = siteOf s t → u = t)

/-- An escape value is absolute and replaces the element whatever its code; COUNT 1 ignores the second entry and COUNT 0 escapes nothing (R72). COUNT 3, or COUNT 2 with equal positions, makes a NaN block, and a K2 marker that no entry names reads as NaN (R73). The generator gives the outputs and the words after each round of the table for both counters (R88). -/
def Obligations.EscapesAndGenerator : Prop :=
  (∀ (f : Fmt) (scale : Nat) (x : Escapes) (i code : Nat), nanBlock scale x = false →
     (x.count = 1 ∨ x.count = 2 → x.pos0 = i → decodeBlockElem f scale x i code = decodeNum .kf16 x.val0) ∧
     (x.count = 2 → x.pos1 = i → decodeBlockElem f scale x i code = decodeNum .kf16 x.val1) ∧
     (x.count = 1 → ∀ q v, decodeBlockElem f scale { x with pos1 := q, val1 := v } i code =
       decodeBlockElem f scale x i code) ∧
     (x.count = 0 → decodeBlockElem f scale x i code = decodeBlockElem f scale {} i code)) ∧
  (∀ (f : Fmt) (scale : Nat) (x : Escapes) (i code : Nat),
     (x.count = 3 ∨ x.count = 2 ∧ x.pos0 = x.pos1 → (decodeBlockElem f scale x i code).isNan = true) ∧
     (code % 4 = 2 → ¬ (1 ≤ x.count ∧ x.pos0 = i) → ¬ (2 ≤ x.count ∧ x.pos1 = i) →
       (decodeBlockElem .k2 scale x i code).isNan = true)) ∧
  (generate 0 0 = 0x2739E97766558BB976A1AAED418B0CED#128 ∧
   generate 1 0 = 0xC639E89A63568CB965BE4BDD408B0D01#128 ∧
   genRound 0 0 ⟨0, 0, 0, 0⟩ = ⟨0, 0, 0, 0⟩ ∧
   genRound 0 1 ⟨0, 0, 0, 0⟩ = ⟨0, 0x6B2E59A4, 0x6B2E59A4, 0⟩ ∧
   genRound 0 2 ⟨0, 0x6B2E59A4, 0x6B2E59A4, 0⟩ = ⟨0xD65CB347, 0x6B2E59A6, 0x6B2E59A6, 0x8FF8D869⟩ ∧
   genRound 0 3 ⟨0xD65CB347, 0x6B2E59A6, 0x6B2E59A6, 0x8FF8D869⟩ = ⟨0x418B0CED, 0x76A1AAED, 0xFB273212, 0x2739E977⟩ ∧
   genRound 0 0 ⟨1, 0, 0, 0⟩ = ⟨1, 0, 0, 1⟩ ∧
   genRound 0 1 ⟨1, 0, 0, 1⟩ = ⟨1, 0x6A2E59A5, 0x6B2E59A5, 1⟩ ∧
   genRound 0 2 ⟨1, 0x6A2E59A5, 0x6B2E59A5, 1⟩ = ⟨0xD55CB349, 0x6B2E59B8, 0x6B2E59A8, 0x8CF9D967⟩ ∧
   genRound 0 3 ⟨0xD55CB349, 0x6B2E59B8, 0x6B2E59A8, 0x8CF9D967⟩ = ⟨0x408B0D01, 0x65BE4BDD, 0xF8283312, 0xC639E89A⟩)
end

