-- ==== Sys2Proof/Laws/Maps.lean ====
section
/-! SUPPORT. Laws of sparse maps: a read after a write, and the canonical form that every operation keeps. -/

namespace Sys2Proof

variable {α : Type}

theorem mget_minsert (d : α) (m : SMap α) (k j : Nat) (v : α) :
    mget d (minsert k v m) j = if k = j then v else mget d m j := by
  induction m with
  | nil => simp [minsert, mget]
  | cons p m ih =>
    obtain ⟨a, b⟩ := p
    simp only [minsert]
    split
    · simp [mget]
    · split
      · subst_vars; simp only [mget]; split <;> rfl
      · simp only [mget, ih]
        split <;> split <;> first | rfl | omega

theorem mget_merase (d : α) (m : SMap α) (k j : Nat) :
    mget d (merase k m) j = if k = j then d else mget d m j := by
  induction m with
  | nil => simp [merase, mget]
  | cons p m ih =>
    obtain ⟨a, b⟩ := p
    simp only [merase]
    split
    · rw [ih]; subst_vars; simp only [mget]; split <;> rfl
    · simp only [mget, ih]; split <;> split <;> first | rfl | omega

/-- A read after a write: the value written at its key, the old value elsewhere. -/
theorem mget_mset [DecidableEq α] (d : α) (m : SMap α) (k j : Nat) (v : α) :
    mget d (mset d m k v) j = if k = j then v else mget d m j := by
  unfold mset; split
  · subst_vars; rw [mget_merase]
  · rw [mget_minsert]

@[simp] theorem mget_mset_self [DecidableEq α] (d : α) (m : SMap α) (k : Nat) (v : α) :
    mget d (mset d m k v) k = v := by rw [mget_mset]; simp

theorem mget_mset_other [DecidableEq α] (d : α) (m : SMap α) {k j : Nat} (v : α) (h : k ≠ j) :
    mget d (mset d m k v) j = mget d m j := by rw [mget_mset]; simp [h]

theorem mget_mdrop (d : α) (p : Nat → Bool) (m : SMap α) (j : Nat) :
    mget d (mdrop p m) j = if p j then d else mget d m j := by
  induction m with
  | nil => simp [mdrop, mget]
  | cons q m ih =>
    obtain ⟨a, b⟩ := q
    simp only [mdrop]
    split
    · rw [ih]; by_cases h : p j = true
      · simp [h]
      · have : a ≠ j := by rintro rfl; contradiction
        simp [h, mget, this]
    · simp only [mget, ih]; split
      · subst_vars; simp_all
      · rfl

theorem mabove_trans {a b : Nat} (h : a ≤ b) {m : SMap α} (hm : mabove b m = true) : mabove a m = true := by
  induction m with
  | nil => rfl
  | cons p m ih =>
    obtain ⟨k, v⟩ := p
    simp only [mabove, Bool.and_eq_true, decide_eq_true_eq] at hm ⊢
    exact ⟨by omega, ih hm.2⟩

theorem mabove_minsert {a k : Nat} {v : α} (h : a < k) {m : SMap α} (hm : mabove a m = true) :
    mabove a (minsert k v m) = true := by
  induction m with
  | nil => simpa [minsert, mabove] using h
  | cons p m ih =>
    obtain ⟨j, w⟩ := p
    simp only [mabove, Bool.and_eq_true, decide_eq_true_eq] at hm
    simp only [minsert]
    split
    · simp only [mabove, Bool.and_eq_true, decide_eq_true_eq]; exact ⟨h, hm⟩
    · split <;> simp only [mabove, Bool.and_eq_true, decide_eq_true_eq]
      · exact ⟨h, hm.2⟩
      · exact ⟨hm.1, ih hm.2⟩

theorem mabove_merase {a k : Nat} {m : SMap α} (hm : mabove a m = true) : mabove a (merase k m) = true := by
  induction m with
  | nil => rfl
  | cons p m ih =>
    obtain ⟨j, w⟩ := p
    simp only [mabove, Bool.and_eq_true, decide_eq_true_eq] at hm
    simp only [merase]
    split
    · exact ih hm.2
    · simp only [mabove, Bool.and_eq_true, decide_eq_true_eq]; exact ⟨hm.1, ih hm.2⟩

theorem mabove_mdrop {a : Nat} {p : Nat → Bool} {m : SMap α} (hm : mabove a m = true) :
    mabove a (mdrop p m) = true := by
  induction m with
  | nil => rfl
  | cons q m ih =>
    obtain ⟨j, w⟩ := q
    simp only [mabove, Bool.and_eq_true, decide_eq_true_eq] at hm
    simp only [mdrop]
    split
    · exact ih hm.2
    · simp only [mabove, Bool.and_eq_true, decide_eq_true_eq]; exact ⟨hm.1, ih hm.2⟩

section Canonical

variable [DecidableEq α] {d : α}

theorem mwf_minsert {m : SMap α} {k : Nat} {v : α} (hv : v ≠ d) (hm : mwf d m = true) :
    mwf d (minsert k v m) = true := by
  induction m with
  | nil => simp [minsert, mwf, mabove, hv]
  | cons p m ih =>
    obtain ⟨j, w⟩ := p
    simp only [mwf, Bool.and_eq_true, Bool.not_eq_true', decide_eq_false_iff_not] at hm
    simp only [minsert]
    split
    · simp only [mwf, mabove, Bool.and_eq_true, Bool.not_eq_true', decide_eq_false_iff_not, decide_eq_true_eq]
      exact ⟨⟨hv, by assumption, mabove_trans (by omega) hm.1.2⟩, hm⟩
    · split
      · subst_vars
        simp only [mwf, Bool.and_eq_true, Bool.not_eq_true', decide_eq_false_iff_not]
        exact ⟨⟨hv, hm.1.2⟩, hm.2⟩
      · simp only [mwf, Bool.and_eq_true, Bool.not_eq_true', decide_eq_false_iff_not]
        exact ⟨⟨hm.1.1, mabove_minsert (by omega) hm.1.2⟩, ih hm.2⟩

theorem mwf_merase {m : SMap α} {k : Nat} (hm : mwf d m = true) : mwf d (merase k m) = true := by
  induction m with
  | nil => rfl
  | cons p m ih =>
    obtain ⟨j, w⟩ := p
    simp only [mwf, Bool.and_eq_true, Bool.not_eq_true', decide_eq_false_iff_not] at hm
    simp only [merase]
    split
    · exact ih hm.2
    · simp only [mwf, Bool.and_eq_true, Bool.not_eq_true', decide_eq_false_iff_not]
      exact ⟨⟨hm.1.1, mabove_merase hm.1.2⟩, ih hm.2⟩

/-- A write keeps the canonical form. -/
theorem mwf_mset {m : SMap α} (k : Nat) (v : α) (hm : mwf d m = true) : mwf d (mset d m k v) = true := by
  unfold mset; split
  · exact mwf_merase hm
  · exact mwf_minsert (by assumption) hm

theorem mwf_mdrop {m : SMap α} (p : Nat → Bool) (hm : mwf d m = true) : mwf d (mdrop p m) = true := by
  induction m with
  | nil => rfl
  | cons q m ih =>
    obtain ⟨j, w⟩ := q
    simp only [mwf, Bool.and_eq_true, Bool.not_eq_true', decide_eq_false_iff_not] at hm
    simp only [mdrop]
    split
    · exact ih hm.2
    · simp only [mwf, Bool.and_eq_true, Bool.not_eq_true', decide_eq_false_iff_not]
      exact ⟨⟨hm.1.1, mabove_mdrop hm.1.2⟩, ih hm.2⟩

end Canonical

namespace Machine

/-- Writing bytes keeps the canonical form. -/
theorem mwf_writeNat {m : SMap Byte} (n a v : Nat) (hm : mwf 0 m = true) : mwf 0 (writeNat m n a v) = true := by
  induction n generalizing m a v with
  | zero => exact hm
  | succ n ih => exact ih _ _ (mwf_mset _ _ hm)

/-- Writing `n` bytes from `a` leaves every other byte. -/
theorem mget_writeNat_other {m : SMap Byte} (n a v b : Nat) (h : b < a ∨ a + n ≤ b) :
    mget 0 (writeNat m n a v) b = mget 0 m b := by
  induction n generalizing m a v with
  | zero => rfl
  | succ n ih =>
    simp only [writeNat]
    rw [ih _ _ (by omega), mget_mset_other]
    omega

/-- Reading `n` bytes back where a number was written gives its low `n` bytes. -/
theorem readNat_writeNat {m : SMap Byte} (n a v : Nat) : readNat (writeNat m n a v) n a = v % 256 ^ n := by
  induction n generalizing m a v with
  | zero => simp [readNat, Nat.mod_one]
  | succ n ih =>
    simp only [readNat, writeNat]
    rw [ih, mget_writeNat_other _ _ _ _ (by omega), mget_mset_self]
    simp only [BitVec.toNat_ofNat]
    rw [show (256 : Nat) ^ (n + 1) = 256 * 256 ^ n from by rw [Nat.pow_succ, Nat.mul_comm], Nat.mod_mul]

end Machine

end Sys2Proof
end

