-- ==== Sys2Proof/Laws/State.lean ====
section
/-! SUPPORT. One lemma for each field that a named update of the state leaves alone, and a read after each update, so
that no proof unfolds a record update. -/

namespace Sys2Proof.Machine

open Sys2Proof

variable (s : State)

section

variable (o : Out)

@[simp] theorem State.emit_pending : (s.emit o).pending = s.pending := rfl
@[simp] theorem State.emit_now : (s.emit o).now = s.now := rfl
@[simp] theorem State.emit_time : (s.emit o).time = s.time := rfl
@[simp] theorem State.emit_draws : (s.emit o).draws = s.draws := rfl
@[simp] theorem State.emit_reply : (s.emit o).reply = s.reply := rfl
@[simp] theorem State.emit_regs : (s.emit o).regs = s.regs := rfl
@[simp] theorem State.emit_staged : (s.emit o).staged = s.staged := rfl
@[simp] theorem State.emit_rlatch : (s.emit o).rlatch = s.rlatch := rfl
@[simp] theorem State.emit_wlatch : (s.emit o).wlatch = s.wlatch := rfl
@[simp] theorem State.emit_nb : (s.emit o).nb = s.nb := rfl
@[simp] theorem State.emit_fns : (s.emit o).fns = s.fns := rfl
@[simp] theorem State.emit_itin : (s.emit o).itin = s.itin := rfl
@[simp] theorem State.emit_lead : (s.emit o).lead = s.lead := rfl
@[simp] theorem State.emit_parties : (s.emit o).parties = s.parties := rfl
@[simp] theorem State.emit_queues : (s.emit o).queues = s.queues := rfl
@[simp] theorem State.emit_tallies : (s.emit o).tallies = s.tallies := rfl
@[simp] theorem State.emit_mem : (s.emit o).mem = s.mem := rfl
@[simp] theorem State.emit_poison : (s.emit o).poison = s.poison := rfl
@[simp] theorem State.emit_badLine : (s.emit o).badLine = s.badLine := rfl
@[simp] theorem State.emit_cache : (s.emit o).cache = s.cache := rfl
@[simp] theorem State.emit_channels : (s.emit o).channels = s.channels := rfl
@[simp] theorem State.emit_tiles : (s.emit o).tiles = s.tiles := rfl
@[simp] theorem State.emit_engines : (s.emit o).engines = s.engines := rfl
@[simp] theorem State.emit_banks : (s.emit o).banks = s.banks := rfl
@[simp] theorem State.emit_drains : (s.emit o).drains = s.drains := rfl
@[simp] theorem State.emit_movers : (s.emit o).movers = s.movers := rfl
@[simp] theorem State.emit_panel : (s.emit o).panel = s.panel := rfl
@[simp] theorem State.emit_fabric : (s.emit o).fabric = s.fabric := rfl
@[simp] theorem State.emit_colls : (s.emit o).colls = s.colls := rfl
@[simp] theorem State.emit_rc : (s.emit o).rc = s.rc := rfl
@[simp] theorem State.emit_lanterns : (s.emit o).lanterns = s.lanterns := rfl
@[simp] theorem State.emit_copper : (s.emit o).copper = s.copper := rfl
@[simp] theorem State.emit_hosts : (s.emit o).hosts = s.hosts := rfl
@[simp] theorem State.emit_mgmt : (s.emit o).mgmt = s.mgmt := rfl
@[simp] theorem State.emit_rk : (s.emit o).rk = s.rk := rfl
@[simp] theorem State.emit_staging : (s.emit o).staging = s.staging := rfl
@[simp] theorem State.emit_mirrors : (s.emit o).mirrors = s.mirrors := rfl
@[simp] theorem State.emit_weather : (s.emit o).weather = s.weather := rfl
@[simp] theorem State.emit_safe : (s.emit o).safe = s.safe := rfl
@[simp] theorem State.emit_sec : (s.emit o).sec = s.sec := rfl
@[simp] theorem State.emit_power : (s.emit o).power = s.power := rfl
@[simp] theorem State.emit_taps : (s.emit o).taps = s.taps := rfl

end

section

@[simp] theorem State.used_pending : (s.used).pending = s.pending := rfl
@[simp] theorem State.used_now : (s.used).now = s.now := rfl
@[simp] theorem State.used_time : (s.used).time = s.time := rfl
@[simp] theorem State.used_reply : (s.used).reply = s.reply := rfl
@[simp] theorem State.used_out : (s.used).out = s.out := rfl
@[simp] theorem State.used_regs : (s.used).regs = s.regs := rfl
@[simp] theorem State.used_staged : (s.used).staged = s.staged := rfl
@[simp] theorem State.used_rlatch : (s.used).rlatch = s.rlatch := rfl
@[simp] theorem State.used_wlatch : (s.used).wlatch = s.wlatch := rfl
@[simp] theorem State.used_nb : (s.used).nb = s.nb := rfl
@[simp] theorem State.used_fns : (s.used).fns = s.fns := rfl
@[simp] theorem State.used_itin : (s.used).itin = s.itin := rfl
@[simp] theorem State.used_lead : (s.used).lead = s.lead := rfl
@[simp] theorem State.used_parties : (s.used).parties = s.parties := rfl
@[simp] theorem State.used_queues : (s.used).queues = s.queues := rfl
@[simp] theorem State.used_tallies : (s.used).tallies = s.tallies := rfl
@[simp] theorem State.used_mem : (s.used).mem = s.mem := rfl
@[simp] theorem State.used_poison : (s.used).poison = s.poison := rfl
@[simp] theorem State.used_badLine : (s.used).badLine = s.badLine := rfl
@[simp] theorem State.used_cache : (s.used).cache = s.cache := rfl
@[simp] theorem State.used_channels : (s.used).channels = s.channels := rfl
@[simp] theorem State.used_tiles : (s.used).tiles = s.tiles := rfl
@[simp] theorem State.used_engines : (s.used).engines = s.engines := rfl
@[simp] theorem State.used_banks : (s.used).banks = s.banks := rfl
@[simp] theorem State.used_drains : (s.used).drains = s.drains := rfl
@[simp] theorem State.used_movers : (s.used).movers = s.movers := rfl
@[simp] theorem State.used_panel : (s.used).panel = s.panel := rfl
@[simp] theorem State.used_fabric : (s.used).fabric = s.fabric := rfl
@[simp] theorem State.used_colls : (s.used).colls = s.colls := rfl
@[simp] theorem State.used_rc : (s.used).rc = s.rc := rfl
@[simp] theorem State.used_lanterns : (s.used).lanterns = s.lanterns := rfl
@[simp] theorem State.used_copper : (s.used).copper = s.copper := rfl
@[simp] theorem State.used_hosts : (s.used).hosts = s.hosts := rfl
@[simp] theorem State.used_mgmt : (s.used).mgmt = s.mgmt := rfl
@[simp] theorem State.used_rk : (s.used).rk = s.rk := rfl
@[simp] theorem State.used_staging : (s.used).staging = s.staging := rfl
@[simp] theorem State.used_mirrors : (s.used).mirrors = s.mirrors := rfl
@[simp] theorem State.used_weather : (s.used).weather = s.weather := rfl
@[simp] theorem State.used_safe : (s.used).safe = s.safe := rfl
@[simp] theorem State.used_sec : (s.used).sec = s.sec := rfl
@[simp] theorem State.used_power : (s.used).power = s.power := rfl
@[simp] theorem State.used_taps : (s.used).taps = s.taps := rfl

end

section

variable (a : Nat) (w : Word)

@[simp] theorem State.setReg_pending : (s.setReg a w).pending = s.pending := rfl
@[simp] theorem State.setReg_now : (s.setReg a w).now = s.now := rfl
@[simp] theorem State.setReg_time : (s.setReg a w).time = s.time := rfl
@[simp] theorem State.setReg_draws : (s.setReg a w).draws = s.draws := rfl
@[simp] theorem State.setReg_reply : (s.setReg a w).reply = s.reply := rfl
@[simp] theorem State.setReg_out : (s.setReg a w).out = s.out := rfl
@[simp] theorem State.setReg_staged : (s.setReg a w).staged = s.staged := rfl
@[simp] theorem State.setReg_rlatch : (s.setReg a w).rlatch = s.rlatch := rfl
@[simp] theorem State.setReg_wlatch : (s.setReg a w).wlatch = s.wlatch := rfl
@[simp] theorem State.setReg_nb : (s.setReg a w).nb = s.nb := rfl
@[simp] theorem State.setReg_fns : (s.setReg a w).fns = s.fns := rfl
@[simp] theorem State.setReg_itin : (s.setReg a w).itin = s.itin := rfl
@[simp] theorem State.setReg_lead : (s.setReg a w).lead = s.lead := rfl
@[simp] theorem State.setReg_parties : (s.setReg a w).parties = s.parties := rfl
@[simp] theorem State.setReg_queues : (s.setReg a w).queues = s.queues := rfl
@[simp] theorem State.setReg_tallies : (s.setReg a w).tallies = s.tallies := rfl
@[simp] theorem State.setReg_mem : (s.setReg a w).mem = s.mem := rfl
@[simp] theorem State.setReg_poison : (s.setReg a w).poison = s.poison := rfl
@[simp] theorem State.setReg_badLine : (s.setReg a w).badLine = s.badLine := rfl
@[simp] theorem State.setReg_cache : (s.setReg a w).cache = s.cache := rfl
@[simp] theorem State.setReg_channels : (s.setReg a w).channels = s.channels := rfl
@[simp] theorem State.setReg_tiles : (s.setReg a w).tiles = s.tiles := rfl
@[simp] theorem State.setReg_engines : (s.setReg a w).engines = s.engines := rfl
@[simp] theorem State.setReg_banks : (s.setReg a w).banks = s.banks := rfl
@[simp] theorem State.setReg_drains : (s.setReg a w).drains = s.drains := rfl
@[simp] theorem State.setReg_movers : (s.setReg a w).movers = s.movers := rfl
@[simp] theorem State.setReg_panel : (s.setReg a w).panel = s.panel := rfl
@[simp] theorem State.setReg_fabric : (s.setReg a w).fabric = s.fabric := rfl
@[simp] theorem State.setReg_colls : (s.setReg a w).colls = s.colls := rfl
@[simp] theorem State.setReg_rc : (s.setReg a w).rc = s.rc := rfl
@[simp] theorem State.setReg_lanterns : (s.setReg a w).lanterns = s.lanterns := rfl
@[simp] theorem State.setReg_copper : (s.setReg a w).copper = s.copper := rfl
@[simp] theorem State.setReg_hosts : (s.setReg a w).hosts = s.hosts := rfl
@[simp] theorem State.setReg_mgmt : (s.setReg a w).mgmt = s.mgmt := rfl
@[simp] theorem State.setReg_rk : (s.setReg a w).rk = s.rk := rfl
@[simp] theorem State.setReg_staging : (s.setReg a w).staging = s.staging := rfl
@[simp] theorem State.setReg_mirrors : (s.setReg a w).mirrors = s.mirrors := rfl
@[simp] theorem State.setReg_weather : (s.setReg a w).weather = s.weather := rfl
@[simp] theorem State.setReg_safe : (s.setReg a w).safe = s.safe := rfl
@[simp] theorem State.setReg_sec : (s.setReg a w).sec = s.sec := rfl
@[simp] theorem State.setReg_power : (s.setReg a w).power = s.power := rfl
@[simp] theorem State.setReg_taps : (s.setReg a w).taps = s.taps := rfl

end

section

variable (a lo n v : Nat)

@[simp] theorem State.setField_pending : (s.setField a lo n v).pending = s.pending := rfl
@[simp] theorem State.setField_now : (s.setField a lo n v).now = s.now := rfl
@[simp] theorem State.setField_time : (s.setField a lo n v).time = s.time := rfl
@[simp] theorem State.setField_draws : (s.setField a lo n v).draws = s.draws := rfl
@[simp] theorem State.setField_reply : (s.setField a lo n v).reply = s.reply := rfl
@[simp] theorem State.setField_out : (s.setField a lo n v).out = s.out := rfl
@[simp] theorem State.setField_staged : (s.setField a lo n v).staged = s.staged := rfl
@[simp] theorem State.setField_rlatch : (s.setField a lo n v).rlatch = s.rlatch := rfl
@[simp] theorem State.setField_wlatch : (s.setField a lo n v).wlatch = s.wlatch := rfl
@[simp] theorem State.setField_nb : (s.setField a lo n v).nb = s.nb := rfl
@[simp] theorem State.setField_fns : (s.setField a lo n v).fns = s.fns := rfl
@[simp] theorem State.setField_itin : (s.setField a lo n v).itin = s.itin := rfl
@[simp] theorem State.setField_lead : (s.setField a lo n v).lead = s.lead := rfl
@[simp] theorem State.setField_parties : (s.setField a lo n v).parties = s.parties := rfl
@[simp] theorem State.setField_queues : (s.setField a lo n v).queues = s.queues := rfl
@[simp] theorem State.setField_tallies : (s.setField a lo n v).tallies = s.tallies := rfl
@[simp] theorem State.setField_mem : (s.setField a lo n v).mem = s.mem := rfl
@[simp] theorem State.setField_poison : (s.setField a lo n v).poison = s.poison := rfl
@[simp] theorem State.setField_badLine : (s.setField a lo n v).badLine = s.badLine := rfl
@[simp] theorem State.setField_cache : (s.setField a lo n v).cache = s.cache := rfl
@[simp] theorem State.setField_channels : (s.setField a lo n v).channels = s.channels := rfl
@[simp] theorem State.setField_tiles : (s.setField a lo n v).tiles = s.tiles := rfl
@[simp] theorem State.setField_engines : (s.setField a lo n v).engines = s.engines := rfl
@[simp] theorem State.setField_banks : (s.setField a lo n v).banks = s.banks := rfl
@[simp] theorem State.setField_drains : (s.setField a lo n v).drains = s.drains := rfl
@[simp] theorem State.setField_movers : (s.setField a lo n v).movers = s.movers := rfl
@[simp] theorem State.setField_panel : (s.setField a lo n v).panel = s.panel := rfl
@[simp] theorem State.setField_fabric : (s.setField a lo n v).fabric = s.fabric := rfl
@[simp] theorem State.setField_colls : (s.setField a lo n v).colls = s.colls := rfl
@[simp] theorem State.setField_rc : (s.setField a lo n v).rc = s.rc := rfl
@[simp] theorem State.setField_lanterns : (s.setField a lo n v).lanterns = s.lanterns := rfl
@[simp] theorem State.setField_copper : (s.setField a lo n v).copper = s.copper := rfl
@[simp] theorem State.setField_hosts : (s.setField a lo n v).hosts = s.hosts := rfl
@[simp] theorem State.setField_mgmt : (s.setField a lo n v).mgmt = s.mgmt := rfl
@[simp] theorem State.setField_rk : (s.setField a lo n v).rk = s.rk := rfl
@[simp] theorem State.setField_staging : (s.setField a lo n v).staging = s.staging := rfl
@[simp] theorem State.setField_mirrors : (s.setField a lo n v).mirrors = s.mirrors := rfl
@[simp] theorem State.setField_weather : (s.setField a lo n v).weather = s.weather := rfl
@[simp] theorem State.setField_safe : (s.setField a lo n v).safe = s.safe := rfl
@[simp] theorem State.setField_sec : (s.setField a lo n v).sec = s.sec := rfl
@[simp] theorem State.setField_power : (s.setField a lo n v).power = s.power := rfl
@[simp] theorem State.setField_taps : (s.setField a lo n v).taps = s.taps := rfl

end

section

variable (a n : Nat)

@[simp] theorem State.count32_pending : (s.count32 a n).pending = s.pending := rfl
@[simp] theorem State.count32_now : (s.count32 a n).now = s.now := rfl
@[simp] theorem State.count32_time : (s.count32 a n).time = s.time := rfl
@[simp] theorem State.count32_draws : (s.count32 a n).draws = s.draws := rfl
@[simp] theorem State.count32_reply : (s.count32 a n).reply = s.reply := rfl
@[simp] theorem State.count32_out : (s.count32 a n).out = s.out := rfl
@[simp] theorem State.count32_staged : (s.count32 a n).staged = s.staged := rfl
@[simp] theorem State.count32_rlatch : (s.count32 a n).rlatch = s.rlatch := rfl
@[simp] theorem State.count32_wlatch : (s.count32 a n).wlatch = s.wlatch := rfl
@[simp] theorem State.count32_nb : (s.count32 a n).nb = s.nb := rfl
@[simp] theorem State.count32_fns : (s.count32 a n).fns = s.fns := rfl
@[simp] theorem State.count32_itin : (s.count32 a n).itin = s.itin := rfl
@[simp] theorem State.count32_lead : (s.count32 a n).lead = s.lead := rfl
@[simp] theorem State.count32_parties : (s.count32 a n).parties = s.parties := rfl
@[simp] theorem State.count32_queues : (s.count32 a n).queues = s.queues := rfl
@[simp] theorem State.count32_tallies : (s.count32 a n).tallies = s.tallies := rfl
@[simp] theorem State.count32_mem : (s.count32 a n).mem = s.mem := rfl
@[simp] theorem State.count32_poison : (s.count32 a n).poison = s.poison := rfl
@[simp] theorem State.count32_badLine : (s.count32 a n).badLine = s.badLine := rfl
@[simp] theorem State.count32_cache : (s.count32 a n).cache = s.cache := rfl
@[simp] theorem State.count32_channels : (s.count32 a n).channels = s.channels := rfl
@[simp] theorem State.count32_tiles : (s.count32 a n).tiles = s.tiles := rfl
@[simp] theorem State.count32_engines : (s.count32 a n).engines = s.engines := rfl
@[simp] theorem State.count32_banks : (s.count32 a n).banks = s.banks := rfl
@[simp] theorem State.count32_drains : (s.count32 a n).drains = s.drains := rfl
@[simp] theorem State.count32_movers : (s.count32 a n).movers = s.movers := rfl
@[simp] theorem State.count32_panel : (s.count32 a n).panel = s.panel := rfl
@[simp] theorem State.count32_fabric : (s.count32 a n).fabric = s.fabric := rfl
@[simp] theorem State.count32_colls : (s.count32 a n).colls = s.colls := rfl
@[simp] theorem State.count32_rc : (s.count32 a n).rc = s.rc := rfl
@[simp] theorem State.count32_lanterns : (s.count32 a n).lanterns = s.lanterns := rfl
@[simp] theorem State.count32_copper : (s.count32 a n).copper = s.copper := rfl
@[simp] theorem State.count32_hosts : (s.count32 a n).hosts = s.hosts := rfl
@[simp] theorem State.count32_mgmt : (s.count32 a n).mgmt = s.mgmt := rfl
@[simp] theorem State.count32_rk : (s.count32 a n).rk = s.rk := rfl
@[simp] theorem State.count32_staging : (s.count32 a n).staging = s.staging := rfl
@[simp] theorem State.count32_mirrors : (s.count32 a n).mirrors = s.mirrors := rfl
@[simp] theorem State.count32_weather : (s.count32 a n).weather = s.weather := rfl
@[simp] theorem State.count32_safe : (s.count32 a n).safe = s.safe := rfl
@[simp] theorem State.count32_sec : (s.count32 a n).sec = s.sec := rfl
@[simp] theorem State.count32_power : (s.count32 a n).power = s.power := rfl
@[simp] theorem State.count32_taps : (s.count32 a n).taps = s.taps := rfl

end

section

variable (a v : Nat)

@[simp] theorem State.setReg64_pending : (s.setReg64 a v).pending = s.pending := rfl
@[simp] theorem State.setReg64_now : (s.setReg64 a v).now = s.now := rfl
@[simp] theorem State.setReg64_time : (s.setReg64 a v).time = s.time := rfl
@[simp] theorem State.setReg64_draws : (s.setReg64 a v).draws = s.draws := rfl
@[simp] theorem State.setReg64_reply : (s.setReg64 a v).reply = s.reply := rfl
@[simp] theorem State.setReg64_out : (s.setReg64 a v).out = s.out := rfl
@[simp] theorem State.setReg64_staged : (s.setReg64 a v).staged = s.staged := rfl
@[simp] theorem State.setReg64_rlatch : (s.setReg64 a v).rlatch = s.rlatch := rfl
@[simp] theorem State.setReg64_wlatch : (s.setReg64 a v).wlatch = s.wlatch := rfl
@[simp] theorem State.setReg64_nb : (s.setReg64 a v).nb = s.nb := rfl
@[simp] theorem State.setReg64_fns : (s.setReg64 a v).fns = s.fns := rfl
@[simp] theorem State.setReg64_itin : (s.setReg64 a v).itin = s.itin := rfl
@[simp] theorem State.setReg64_lead : (s.setReg64 a v).lead = s.lead := rfl
@[simp] theorem State.setReg64_parties : (s.setReg64 a v).parties = s.parties := rfl
@[simp] theorem State.setReg64_queues : (s.setReg64 a v).queues = s.queues := rfl
@[simp] theorem State.setReg64_tallies : (s.setReg64 a v).tallies = s.tallies := rfl
@[simp] theorem State.setReg64_mem : (s.setReg64 a v).mem = s.mem := rfl
@[simp] theorem State.setReg64_poison : (s.setReg64 a v).poison = s.poison := rfl
@[simp] theorem State.setReg64_badLine : (s.setReg64 a v).badLine = s.badLine := rfl
@[simp] theorem State.setReg64_cache : (s.setReg64 a v).cache = s.cache := rfl
@[simp] theorem State.setReg64_channels : (s.setReg64 a v).channels = s.channels := rfl
@[simp] theorem State.setReg64_tiles : (s.setReg64 a v).tiles = s.tiles := rfl
@[simp] theorem State.setReg64_engines : (s.setReg64 a v).engines = s.engines := rfl
@[simp] theorem State.setReg64_banks : (s.setReg64 a v).banks = s.banks := rfl
@[simp] theorem State.setReg64_drains : (s.setReg64 a v).drains = s.drains := rfl
@[simp] theorem State.setReg64_movers : (s.setReg64 a v).movers = s.movers := rfl
@[simp] theorem State.setReg64_panel : (s.setReg64 a v).panel = s.panel := rfl
@[simp] theorem State.setReg64_fabric : (s.setReg64 a v).fabric = s.fabric := rfl
@[simp] theorem State.setReg64_colls : (s.setReg64 a v).colls = s.colls := rfl
@[simp] theorem State.setReg64_rc : (s.setReg64 a v).rc = s.rc := rfl
@[simp] theorem State.setReg64_lanterns : (s.setReg64 a v).lanterns = s.lanterns := rfl
@[simp] theorem State.setReg64_copper : (s.setReg64 a v).copper = s.copper := rfl
@[simp] theorem State.setReg64_hosts : (s.setReg64 a v).hosts = s.hosts := rfl
@[simp] theorem State.setReg64_mgmt : (s.setReg64 a v).mgmt = s.mgmt := rfl
@[simp] theorem State.setReg64_rk : (s.setReg64 a v).rk = s.rk := rfl
@[simp] theorem State.setReg64_staging : (s.setReg64 a v).staging = s.staging := rfl
@[simp] theorem State.setReg64_mirrors : (s.setReg64 a v).mirrors = s.mirrors := rfl
@[simp] theorem State.setReg64_weather : (s.setReg64 a v).weather = s.weather := rfl
@[simp] theorem State.setReg64_safe : (s.setReg64 a v).safe = s.safe := rfl
@[simp] theorem State.setReg64_sec : (s.setReg64 a v).sec = s.sec := rfl
@[simp] theorem State.setReg64_power : (s.setReg64 a v).power = s.power := rfl
@[simp] theorem State.setReg64_taps : (s.setReg64 a v).taps = s.taps := rfl

end

section

variable (a n : Nat)

@[simp] theorem State.count64_pending : (s.count64 a n).pending = s.pending := rfl
@[simp] theorem State.count64_now : (s.count64 a n).now = s.now := rfl
@[simp] theorem State.count64_time : (s.count64 a n).time = s.time := rfl
@[simp] theorem State.count64_draws : (s.count64 a n).draws = s.draws := rfl
@[simp] theorem State.count64_reply : (s.count64 a n).reply = s.reply := rfl
@[simp] theorem State.count64_out : (s.count64 a n).out = s.out := rfl
@[simp] theorem State.count64_staged : (s.count64 a n).staged = s.staged := rfl
@[simp] theorem State.count64_rlatch : (s.count64 a n).rlatch = s.rlatch := rfl
@[simp] theorem State.count64_wlatch : (s.count64 a n).wlatch = s.wlatch := rfl
@[simp] theorem State.count64_nb : (s.count64 a n).nb = s.nb := rfl
@[simp] theorem State.count64_fns : (s.count64 a n).fns = s.fns := rfl
@[simp] theorem State.count64_itin : (s.count64 a n).itin = s.itin := rfl
@[simp] theorem State.count64_lead : (s.count64 a n).lead = s.lead := rfl
@[simp] theorem State.count64_parties : (s.count64 a n).parties = s.parties := rfl
@[simp] theorem State.count64_queues : (s.count64 a n).queues = s.queues := rfl
@[simp] theorem State.count64_tallies : (s.count64 a n).tallies = s.tallies := rfl
@[simp] theorem State.count64_mem : (s.count64 a n).mem = s.mem := rfl
@[simp] theorem State.count64_poison : (s.count64 a n).poison = s.poison := rfl
@[simp] theorem State.count64_badLine : (s.count64 a n).badLine = s.badLine := rfl
@[simp] theorem State.count64_cache : (s.count64 a n).cache = s.cache := rfl
@[simp] theorem State.count64_channels : (s.count64 a n).channels = s.channels := rfl
@[simp] theorem State.count64_tiles : (s.count64 a n).tiles = s.tiles := rfl
@[simp] theorem State.count64_engines : (s.count64 a n).engines = s.engines := rfl
@[simp] theorem State.count64_banks : (s.count64 a n).banks = s.banks := rfl
@[simp] theorem State.count64_drains : (s.count64 a n).drains = s.drains := rfl
@[simp] theorem State.count64_movers : (s.count64 a n).movers = s.movers := rfl
@[simp] theorem State.count64_panel : (s.count64 a n).panel = s.panel := rfl
@[simp] theorem State.count64_fabric : (s.count64 a n).fabric = s.fabric := rfl
@[simp] theorem State.count64_colls : (s.count64 a n).colls = s.colls := rfl
@[simp] theorem State.count64_rc : (s.count64 a n).rc = s.rc := rfl
@[simp] theorem State.count64_lanterns : (s.count64 a n).lanterns = s.lanterns := rfl
@[simp] theorem State.count64_copper : (s.count64 a n).copper = s.copper := rfl
@[simp] theorem State.count64_hosts : (s.count64 a n).hosts = s.hosts := rfl
@[simp] theorem State.count64_mgmt : (s.count64 a n).mgmt = s.mgmt := rfl
@[simp] theorem State.count64_rk : (s.count64 a n).rk = s.rk := rfl
@[simp] theorem State.count64_staging : (s.count64 a n).staging = s.staging := rfl
@[simp] theorem State.count64_mirrors : (s.count64 a n).mirrors = s.mirrors := rfl
@[simp] theorem State.count64_weather : (s.count64 a n).weather = s.weather := rfl
@[simp] theorem State.count64_safe : (s.count64 a n).safe = s.safe := rfl
@[simp] theorem State.count64_sec : (s.count64 a n).sec = s.sec := rfl
@[simp] theorem State.count64_power : (s.count64 a n).power = s.power := rfl
@[simp] theorem State.count64_taps : (s.count64 a n).taps = s.taps := rfl

end

section

variable (t : Nat) (x : Tile)

@[simp] theorem State.setTile_pending : (s.setTile t x).pending = s.pending := rfl
@[simp] theorem State.setTile_now : (s.setTile t x).now = s.now := rfl
@[simp] theorem State.setTile_time : (s.setTile t x).time = s.time := rfl
@[simp] theorem State.setTile_draws : (s.setTile t x).draws = s.draws := rfl
@[simp] theorem State.setTile_reply : (s.setTile t x).reply = s.reply := rfl
@[simp] theorem State.setTile_out : (s.setTile t x).out = s.out := rfl
@[simp] theorem State.setTile_regs : (s.setTile t x).regs = s.regs := rfl
@[simp] theorem State.setTile_staged : (s.setTile t x).staged = s.staged := rfl
@[simp] theorem State.setTile_rlatch : (s.setTile t x).rlatch = s.rlatch := rfl
@[simp] theorem State.setTile_wlatch : (s.setTile t x).wlatch = s.wlatch := rfl
@[simp] theorem State.setTile_nb : (s.setTile t x).nb = s.nb := rfl
@[simp] theorem State.setTile_fns : (s.setTile t x).fns = s.fns := rfl
@[simp] theorem State.setTile_itin : (s.setTile t x).itin = s.itin := rfl
@[simp] theorem State.setTile_lead : (s.setTile t x).lead = s.lead := rfl
@[simp] theorem State.setTile_parties : (s.setTile t x).parties = s.parties := rfl
@[simp] theorem State.setTile_queues : (s.setTile t x).queues = s.queues := rfl
@[simp] theorem State.setTile_tallies : (s.setTile t x).tallies = s.tallies := rfl
@[simp] theorem State.setTile_mem : (s.setTile t x).mem = s.mem := rfl
@[simp] theorem State.setTile_poison : (s.setTile t x).poison = s.poison := rfl
@[simp] theorem State.setTile_badLine : (s.setTile t x).badLine = s.badLine := rfl
@[simp] theorem State.setTile_cache : (s.setTile t x).cache = s.cache := rfl
@[simp] theorem State.setTile_channels : (s.setTile t x).channels = s.channels := rfl
@[simp] theorem State.setTile_engines : (s.setTile t x).engines = s.engines := rfl
@[simp] theorem State.setTile_banks : (s.setTile t x).banks = s.banks := rfl
@[simp] theorem State.setTile_drains : (s.setTile t x).drains = s.drains := rfl
@[simp] theorem State.setTile_movers : (s.setTile t x).movers = s.movers := rfl
@[simp] theorem State.setTile_panel : (s.setTile t x).panel = s.panel := rfl
@[simp] theorem State.setTile_fabric : (s.setTile t x).fabric = s.fabric := rfl
@[simp] theorem State.setTile_colls : (s.setTile t x).colls = s.colls := rfl
@[simp] theorem State.setTile_rc : (s.setTile t x).rc = s.rc := rfl
@[simp] theorem State.setTile_lanterns : (s.setTile t x).lanterns = s.lanterns := rfl
@[simp] theorem State.setTile_copper : (s.setTile t x).copper = s.copper := rfl
@[simp] theorem State.setTile_hosts : (s.setTile t x).hosts = s.hosts := rfl
@[simp] theorem State.setTile_mgmt : (s.setTile t x).mgmt = s.mgmt := rfl
@[simp] theorem State.setTile_rk : (s.setTile t x).rk = s.rk := rfl
@[simp] theorem State.setTile_staging : (s.setTile t x).staging = s.staging := rfl
@[simp] theorem State.setTile_mirrors : (s.setTile t x).mirrors = s.mirrors := rfl
@[simp] theorem State.setTile_weather : (s.setTile t x).weather = s.weather := rfl
@[simp] theorem State.setTile_safe : (s.setTile t x).safe = s.safe := rfl
@[simp] theorem State.setTile_sec : (s.setTile t x).sec = s.sec := rfl
@[simp] theorem State.setTile_power : (s.setTile t x).power = s.power := rfl
@[simp] theorem State.setTile_taps : (s.setTile t x).taps = s.taps := rfl

end

section

variable (t : Nat) (f : Tile → Tile)

@[simp] theorem State.modTile_pending : (s.modTile t f).pending = s.pending := rfl
@[simp] theorem State.modTile_now : (s.modTile t f).now = s.now := rfl
@[simp] theorem State.modTile_time : (s.modTile t f).time = s.time := rfl
@[simp] theorem State.modTile_draws : (s.modTile t f).draws = s.draws := rfl
@[simp] theorem State.modTile_reply : (s.modTile t f).reply = s.reply := rfl
@[simp] theorem State.modTile_out : (s.modTile t f).out = s.out := rfl
@[simp] theorem State.modTile_regs : (s.modTile t f).regs = s.regs := rfl
@[simp] theorem State.modTile_staged : (s.modTile t f).staged = s.staged := rfl
@[simp] theorem State.modTile_rlatch : (s.modTile t f).rlatch = s.rlatch := rfl
@[simp] theorem State.modTile_wlatch : (s.modTile t f).wlatch = s.wlatch := rfl
@[simp] theorem State.modTile_nb : (s.modTile t f).nb = s.nb := rfl
@[simp] theorem State.modTile_fns : (s.modTile t f).fns = s.fns := rfl
@[simp] theorem State.modTile_itin : (s.modTile t f).itin = s.itin := rfl
@[simp] theorem State.modTile_lead : (s.modTile t f).lead = s.lead := rfl
@[simp] theorem State.modTile_parties : (s.modTile t f).parties = s.parties := rfl
@[simp] theorem State.modTile_queues : (s.modTile t f).queues = s.queues := rfl
@[simp] theorem State.modTile_tallies : (s.modTile t f).tallies = s.tallies := rfl
@[simp] theorem State.modTile_mem : (s.modTile t f).mem = s.mem := rfl
@[simp] theorem State.modTile_poison : (s.modTile t f).poison = s.poison := rfl
@[simp] theorem State.modTile_badLine : (s.modTile t f).badLine = s.badLine := rfl
@[simp] theorem State.modTile_cache : (s.modTile t f).cache = s.cache := rfl
@[simp] theorem State.modTile_channels : (s.modTile t f).channels = s.channels := rfl
@[simp] theorem State.modTile_engines : (s.modTile t f).engines = s.engines := rfl
@[simp] theorem State.modTile_banks : (s.modTile t f).banks = s.banks := rfl
@[simp] theorem State.modTile_drains : (s.modTile t f).drains = s.drains := rfl
@[simp] theorem State.modTile_movers : (s.modTile t f).movers = s.movers := rfl
@[simp] theorem State.modTile_panel : (s.modTile t f).panel = s.panel := rfl
@[simp] theorem State.modTile_fabric : (s.modTile t f).fabric = s.fabric := rfl
@[simp] theorem State.modTile_colls : (s.modTile t f).colls = s.colls := rfl
@[simp] theorem State.modTile_rc : (s.modTile t f).rc = s.rc := rfl
@[simp] theorem State.modTile_lanterns : (s.modTile t f).lanterns = s.lanterns := rfl
@[simp] theorem State.modTile_copper : (s.modTile t f).copper = s.copper := rfl
@[simp] theorem State.modTile_hosts : (s.modTile t f).hosts = s.hosts := rfl
@[simp] theorem State.modTile_mgmt : (s.modTile t f).mgmt = s.mgmt := rfl
@[simp] theorem State.modTile_rk : (s.modTile t f).rk = s.rk := rfl
@[simp] theorem State.modTile_staging : (s.modTile t f).staging = s.staging := rfl
@[simp] theorem State.modTile_mirrors : (s.modTile t f).mirrors = s.mirrors := rfl
@[simp] theorem State.modTile_weather : (s.modTile t f).weather = s.weather := rfl
@[simp] theorem State.modTile_safe : (s.modTile t f).safe = s.safe := rfl
@[simp] theorem State.modTile_sec : (s.modTile t f).sec = s.sec := rfl
@[simp] theorem State.modTile_power : (s.modTile t f).power = s.power := rfl
@[simp] theorem State.modTile_taps : (s.modTile t f).taps = s.taps := rfl

end

section

variable (g : Nat) (q : Queue)

@[simp] theorem State.setQueue_pending : (s.setQueue g q).pending = s.pending := rfl
@[simp] theorem State.setQueue_now : (s.setQueue g q).now = s.now := rfl
@[simp] theorem State.setQueue_time : (s.setQueue g q).time = s.time := rfl
@[simp] theorem State.setQueue_draws : (s.setQueue g q).draws = s.draws := rfl
@[simp] theorem State.setQueue_reply : (s.setQueue g q).reply = s.reply := rfl
@[simp] theorem State.setQueue_out : (s.setQueue g q).out = s.out := rfl
@[simp] theorem State.setQueue_regs : (s.setQueue g q).regs = s.regs := rfl
@[simp] theorem State.setQueue_staged : (s.setQueue g q).staged = s.staged := rfl
@[simp] theorem State.setQueue_rlatch : (s.setQueue g q).rlatch = s.rlatch := rfl
@[simp] theorem State.setQueue_wlatch : (s.setQueue g q).wlatch = s.wlatch := rfl
@[simp] theorem State.setQueue_nb : (s.setQueue g q).nb = s.nb := rfl
@[simp] theorem State.setQueue_fns : (s.setQueue g q).fns = s.fns := rfl
@[simp] theorem State.setQueue_itin : (s.setQueue g q).itin = s.itin := rfl
@[simp] theorem State.setQueue_lead : (s.setQueue g q).lead = s.lead := rfl
@[simp] theorem State.setQueue_parties : (s.setQueue g q).parties = s.parties := rfl
@[simp] theorem State.setQueue_tallies : (s.setQueue g q).tallies = s.tallies := rfl
@[simp] theorem State.setQueue_mem : (s.setQueue g q).mem = s.mem := rfl
@[simp] theorem State.setQueue_poison : (s.setQueue g q).poison = s.poison := rfl
@[simp] theorem State.setQueue_badLine : (s.setQueue g q).badLine = s.badLine := rfl
@[simp] theorem State.setQueue_cache : (s.setQueue g q).cache = s.cache := rfl
@[simp] theorem State.setQueue_channels : (s.setQueue g q).channels = s.channels := rfl
@[simp] theorem State.setQueue_tiles : (s.setQueue g q).tiles = s.tiles := rfl
@[simp] theorem State.setQueue_engines : (s.setQueue g q).engines = s.engines := rfl
@[simp] theorem State.setQueue_banks : (s.setQueue g q).banks = s.banks := rfl
@[simp] theorem State.setQueue_drains : (s.setQueue g q).drains = s.drains := rfl
@[simp] theorem State.setQueue_movers : (s.setQueue g q).movers = s.movers := rfl
@[simp] theorem State.setQueue_panel : (s.setQueue g q).panel = s.panel := rfl
@[simp] theorem State.setQueue_fabric : (s.setQueue g q).fabric = s.fabric := rfl
@[simp] theorem State.setQueue_colls : (s.setQueue g q).colls = s.colls := rfl
@[simp] theorem State.setQueue_rc : (s.setQueue g q).rc = s.rc := rfl
@[simp] theorem State.setQueue_lanterns : (s.setQueue g q).lanterns = s.lanterns := rfl
@[simp] theorem State.setQueue_copper : (s.setQueue g q).copper = s.copper := rfl
@[simp] theorem State.setQueue_hosts : (s.setQueue g q).hosts = s.hosts := rfl
@[simp] theorem State.setQueue_mgmt : (s.setQueue g q).mgmt = s.mgmt := rfl
@[simp] theorem State.setQueue_rk : (s.setQueue g q).rk = s.rk := rfl
@[simp] theorem State.setQueue_staging : (s.setQueue g q).staging = s.staging := rfl
@[simp] theorem State.setQueue_mirrors : (s.setQueue g q).mirrors = s.mirrors := rfl
@[simp] theorem State.setQueue_weather : (s.setQueue g q).weather = s.weather := rfl
@[simp] theorem State.setQueue_safe : (s.setQueue g q).safe = s.safe := rfl
@[simp] theorem State.setQueue_sec : (s.setQueue g q).sec = s.sec := rfl
@[simp] theorem State.setQueue_power : (s.setQueue g q).power = s.power := rfl
@[simp] theorem State.setQueue_taps : (s.setQueue g q).taps = s.taps := rfl

end

section

variable (g : Nat) (f : Queue → Queue)

@[simp] theorem State.modQueue_pending : (s.modQueue g f).pending = s.pending := rfl
@[simp] theorem State.modQueue_now : (s.modQueue g f).now = s.now := rfl
@[simp] theorem State.modQueue_time : (s.modQueue g f).time = s.time := rfl
@[simp] theorem State.modQueue_draws : (s.modQueue g f).draws = s.draws := rfl
@[simp] theorem State.modQueue_reply : (s.modQueue g f).reply = s.reply := rfl
@[simp] theorem State.modQueue_out : (s.modQueue g f).out = s.out := rfl
@[simp] theorem State.modQueue_regs : (s.modQueue g f).regs = s.regs := rfl
@[simp] theorem State.modQueue_staged : (s.modQueue g f).staged = s.staged := rfl
@[simp] theorem State.modQueue_rlatch : (s.modQueue g f).rlatch = s.rlatch := rfl
@[simp] theorem State.modQueue_wlatch : (s.modQueue g f).wlatch = s.wlatch := rfl
@[simp] theorem State.modQueue_nb : (s.modQueue g f).nb = s.nb := rfl
@[simp] theorem State.modQueue_fns : (s.modQueue g f).fns = s.fns := rfl
@[simp] theorem State.modQueue_itin : (s.modQueue g f).itin = s.itin := rfl
@[simp] theorem State.modQueue_lead : (s.modQueue g f).lead = s.lead := rfl
@[simp] theorem State.modQueue_parties : (s.modQueue g f).parties = s.parties := rfl
@[simp] theorem State.modQueue_tallies : (s.modQueue g f).tallies = s.tallies := rfl
@[simp] theorem State.modQueue_mem : (s.modQueue g f).mem = s.mem := rfl
@[simp] theorem State.modQueue_poison : (s.modQueue g f).poison = s.poison := rfl
@[simp] theorem State.modQueue_badLine : (s.modQueue g f).badLine = s.badLine := rfl
@[simp] theorem State.modQueue_cache : (s.modQueue g f).cache = s.cache := rfl
@[simp] theorem State.modQueue_channels : (s.modQueue g f).channels = s.channels := rfl
@[simp] theorem State.modQueue_tiles : (s.modQueue g f).tiles = s.tiles := rfl
@[simp] theorem State.modQueue_engines : (s.modQueue g f).engines = s.engines := rfl
@[simp] theorem State.modQueue_banks : (s.modQueue g f).banks = s.banks := rfl
@[simp] theorem State.modQueue_drains : (s.modQueue g f).drains = s.drains := rfl
@[simp] theorem State.modQueue_movers : (s.modQueue g f).movers = s.movers := rfl
@[simp] theorem State.modQueue_panel : (s.modQueue g f).panel = s.panel := rfl
@[simp] theorem State.modQueue_fabric : (s.modQueue g f).fabric = s.fabric := rfl
@[simp] theorem State.modQueue_colls : (s.modQueue g f).colls = s.colls := rfl
@[simp] theorem State.modQueue_rc : (s.modQueue g f).rc = s.rc := rfl
@[simp] theorem State.modQueue_lanterns : (s.modQueue g f).lanterns = s.lanterns := rfl
@[simp] theorem State.modQueue_copper : (s.modQueue g f).copper = s.copper := rfl
@[simp] theorem State.modQueue_hosts : (s.modQueue g f).hosts = s.hosts := rfl
@[simp] theorem State.modQueue_mgmt : (s.modQueue g f).mgmt = s.mgmt := rfl
@[simp] theorem State.modQueue_rk : (s.modQueue g f).rk = s.rk := rfl
@[simp] theorem State.modQueue_staging : (s.modQueue g f).staging = s.staging := rfl
@[simp] theorem State.modQueue_mirrors : (s.modQueue g f).mirrors = s.mirrors := rfl
@[simp] theorem State.modQueue_weather : (s.modQueue g f).weather = s.weather := rfl
@[simp] theorem State.modQueue_safe : (s.modQueue g f).safe = s.safe := rfl
@[simp] theorem State.modQueue_sec : (s.modQueue g f).sec = s.sec := rfl
@[simp] theorem State.modQueue_power : (s.modQueue g f).power = s.power := rfl
@[simp] theorem State.modQueue_taps : (s.modQueue g f).taps = s.taps := rfl

end

section

variable (k v : Nat)

@[simp] theorem State.setTally_pending : (s.setTally k v).pending = s.pending := rfl
@[simp] theorem State.setTally_now : (s.setTally k v).now = s.now := rfl
@[simp] theorem State.setTally_time : (s.setTally k v).time = s.time := rfl
@[simp] theorem State.setTally_draws : (s.setTally k v).draws = s.draws := rfl
@[simp] theorem State.setTally_reply : (s.setTally k v).reply = s.reply := rfl
@[simp] theorem State.setTally_out : (s.setTally k v).out = s.out := rfl
@[simp] theorem State.setTally_regs : (s.setTally k v).regs = s.regs := rfl
@[simp] theorem State.setTally_staged : (s.setTally k v).staged = s.staged := rfl
@[simp] theorem State.setTally_rlatch : (s.setTally k v).rlatch = s.rlatch := rfl
@[simp] theorem State.setTally_wlatch : (s.setTally k v).wlatch = s.wlatch := rfl
@[simp] theorem State.setTally_nb : (s.setTally k v).nb = s.nb := rfl
@[simp] theorem State.setTally_fns : (s.setTally k v).fns = s.fns := rfl
@[simp] theorem State.setTally_itin : (s.setTally k v).itin = s.itin := rfl
@[simp] theorem State.setTally_lead : (s.setTally k v).lead = s.lead := rfl
@[simp] theorem State.setTally_parties : (s.setTally k v).parties = s.parties := rfl
@[simp] theorem State.setTally_queues : (s.setTally k v).queues = s.queues := rfl
@[simp] theorem State.setTally_mem : (s.setTally k v).mem = s.mem := rfl
@[simp] theorem State.setTally_poison : (s.setTally k v).poison = s.poison := rfl
@[simp] theorem State.setTally_badLine : (s.setTally k v).badLine = s.badLine := rfl
@[simp] theorem State.setTally_cache : (s.setTally k v).cache = s.cache := rfl
@[simp] theorem State.setTally_channels : (s.setTally k v).channels = s.channels := rfl
@[simp] theorem State.setTally_tiles : (s.setTally k v).tiles = s.tiles := rfl
@[simp] theorem State.setTally_engines : (s.setTally k v).engines = s.engines := rfl
@[simp] theorem State.setTally_banks : (s.setTally k v).banks = s.banks := rfl
@[simp] theorem State.setTally_drains : (s.setTally k v).drains = s.drains := rfl
@[simp] theorem State.setTally_movers : (s.setTally k v).movers = s.movers := rfl
@[simp] theorem State.setTally_panel : (s.setTally k v).panel = s.panel := rfl
@[simp] theorem State.setTally_fabric : (s.setTally k v).fabric = s.fabric := rfl
@[simp] theorem State.setTally_colls : (s.setTally k v).colls = s.colls := rfl
@[simp] theorem State.setTally_rc : (s.setTally k v).rc = s.rc := rfl
@[simp] theorem State.setTally_lanterns : (s.setTally k v).lanterns = s.lanterns := rfl
@[simp] theorem State.setTally_copper : (s.setTally k v).copper = s.copper := rfl
@[simp] theorem State.setTally_hosts : (s.setTally k v).hosts = s.hosts := rfl
@[simp] theorem State.setTally_mgmt : (s.setTally k v).mgmt = s.mgmt := rfl
@[simp] theorem State.setTally_rk : (s.setTally k v).rk = s.rk := rfl
@[simp] theorem State.setTally_staging : (s.setTally k v).staging = s.staging := rfl
@[simp] theorem State.setTally_mirrors : (s.setTally k v).mirrors = s.mirrors := rfl
@[simp] theorem State.setTally_weather : (s.setTally k v).weather = s.weather := rfl
@[simp] theorem State.setTally_safe : (s.setTally k v).safe = s.safe := rfl
@[simp] theorem State.setTally_sec : (s.setTally k v).sec = s.sec := rfl
@[simp] theorem State.setTally_power : (s.setTally k v).power = s.power := rfl
@[simp] theorem State.setTally_taps : (s.setTally k v).taps = s.taps := rfl

end

section

variable (i : Nat) (e : Engine)

@[simp] theorem State.setEngine_pending : (s.setEngine i e).pending = s.pending := rfl
@[simp] theorem State.setEngine_now : (s.setEngine i e).now = s.now := rfl
@[simp] theorem State.setEngine_time : (s.setEngine i e).time = s.time := rfl
@[simp] theorem State.setEngine_draws : (s.setEngine i e).draws = s.draws := rfl
@[simp] theorem State.setEngine_reply : (s.setEngine i e).reply = s.reply := rfl
@[simp] theorem State.setEngine_out : (s.setEngine i e).out = s.out := rfl
@[simp] theorem State.setEngine_regs : (s.setEngine i e).regs = s.regs := rfl
@[simp] theorem State.setEngine_staged : (s.setEngine i e).staged = s.staged := rfl
@[simp] theorem State.setEngine_rlatch : (s.setEngine i e).rlatch = s.rlatch := rfl
@[simp] theorem State.setEngine_wlatch : (s.setEngine i e).wlatch = s.wlatch := rfl
@[simp] theorem State.setEngine_nb : (s.setEngine i e).nb = s.nb := rfl
@[simp] theorem State.setEngine_fns : (s.setEngine i e).fns = s.fns := rfl
@[simp] theorem State.setEngine_itin : (s.setEngine i e).itin = s.itin := rfl
@[simp] theorem State.setEngine_lead : (s.setEngine i e).lead = s.lead := rfl
@[simp] theorem State.setEngine_parties : (s.setEngine i e).parties = s.parties := rfl
@[simp] theorem State.setEngine_queues : (s.setEngine i e).queues = s.queues := rfl
@[simp] theorem State.setEngine_tallies : (s.setEngine i e).tallies = s.tallies := rfl
@[simp] theorem State.setEngine_mem : (s.setEngine i e).mem = s.mem := rfl
@[simp] theorem State.setEngine_poison : (s.setEngine i e).poison = s.poison := rfl
@[simp] theorem State.setEngine_badLine : (s.setEngine i e).badLine = s.badLine := rfl
@[simp] theorem State.setEngine_cache : (s.setEngine i e).cache = s.cache := rfl
@[simp] theorem State.setEngine_channels : (s.setEngine i e).channels = s.channels := rfl
@[simp] theorem State.setEngine_tiles : (s.setEngine i e).tiles = s.tiles := rfl
@[simp] theorem State.setEngine_banks : (s.setEngine i e).banks = s.banks := rfl
@[simp] theorem State.setEngine_drains : (s.setEngine i e).drains = s.drains := rfl
@[simp] theorem State.setEngine_movers : (s.setEngine i e).movers = s.movers := rfl
@[simp] theorem State.setEngine_panel : (s.setEngine i e).panel = s.panel := rfl
@[simp] theorem State.setEngine_fabric : (s.setEngine i e).fabric = s.fabric := rfl
@[simp] theorem State.setEngine_colls : (s.setEngine i e).colls = s.colls := rfl
@[simp] theorem State.setEngine_rc : (s.setEngine i e).rc = s.rc := rfl
@[simp] theorem State.setEngine_lanterns : (s.setEngine i e).lanterns = s.lanterns := rfl
@[simp] theorem State.setEngine_copper : (s.setEngine i e).copper = s.copper := rfl
@[simp] theorem State.setEngine_hosts : (s.setEngine i e).hosts = s.hosts := rfl
@[simp] theorem State.setEngine_mgmt : (s.setEngine i e).mgmt = s.mgmt := rfl
@[simp] theorem State.setEngine_rk : (s.setEngine i e).rk = s.rk := rfl
@[simp] theorem State.setEngine_staging : (s.setEngine i e).staging = s.staging := rfl
@[simp] theorem State.setEngine_mirrors : (s.setEngine i e).mirrors = s.mirrors := rfl
@[simp] theorem State.setEngine_weather : (s.setEngine i e).weather = s.weather := rfl
@[simp] theorem State.setEngine_safe : (s.setEngine i e).safe = s.safe := rfl
@[simp] theorem State.setEngine_sec : (s.setEngine i e).sec = s.sec := rfl
@[simp] theorem State.setEngine_power : (s.setEngine i e).power = s.power := rfl
@[simp] theorem State.setEngine_taps : (s.setEngine i e).taps = s.taps := rfl

end

section

variable (i : Nat) (b : Bank)

@[simp] theorem State.setBank_pending : (s.setBank i b).pending = s.pending := rfl
@[simp] theorem State.setBank_now : (s.setBank i b).now = s.now := rfl
@[simp] theorem State.setBank_time : (s.setBank i b).time = s.time := rfl
@[simp] theorem State.setBank_draws : (s.setBank i b).draws = s.draws := rfl
@[simp] theorem State.setBank_reply : (s.setBank i b).reply = s.reply := rfl
@[simp] theorem State.setBank_out : (s.setBank i b).out = s.out := rfl
@[simp] theorem State.setBank_regs : (s.setBank i b).regs = s.regs := rfl
@[simp] theorem State.setBank_staged : (s.setBank i b).staged = s.staged := rfl
@[simp] theorem State.setBank_rlatch : (s.setBank i b).rlatch = s.rlatch := rfl
@[simp] theorem State.setBank_wlatch : (s.setBank i b).wlatch = s.wlatch := rfl
@[simp] theorem State.setBank_nb : (s.setBank i b).nb = s.nb := rfl
@[simp] theorem State.setBank_fns : (s.setBank i b).fns = s.fns := rfl
@[simp] theorem State.setBank_itin : (s.setBank i b).itin = s.itin := rfl
@[simp] theorem State.setBank_lead : (s.setBank i b).lead = s.lead := rfl
@[simp] theorem State.setBank_parties : (s.setBank i b).parties = s.parties := rfl
@[simp] theorem State.setBank_queues : (s.setBank i b).queues = s.queues := rfl
@[simp] theorem State.setBank_tallies : (s.setBank i b).tallies = s.tallies := rfl
@[simp] theorem State.setBank_mem : (s.setBank i b).mem = s.mem := rfl
@[simp] theorem State.setBank_poison : (s.setBank i b).poison = s.poison := rfl
@[simp] theorem State.setBank_badLine : (s.setBank i b).badLine = s.badLine := rfl
@[simp] theorem State.setBank_cache : (s.setBank i b).cache = s.cache := rfl
@[simp] theorem State.setBank_channels : (s.setBank i b).channels = s.channels := rfl
@[simp] theorem State.setBank_tiles : (s.setBank i b).tiles = s.tiles := rfl
@[simp] theorem State.setBank_engines : (s.setBank i b).engines = s.engines := rfl
@[simp] theorem State.setBank_drains : (s.setBank i b).drains = s.drains := rfl
@[simp] theorem State.setBank_movers : (s.setBank i b).movers = s.movers := rfl
@[simp] theorem State.setBank_panel : (s.setBank i b).panel = s.panel := rfl
@[simp] theorem State.setBank_fabric : (s.setBank i b).fabric = s.fabric := rfl
@[simp] theorem State.setBank_colls : (s.setBank i b).colls = s.colls := rfl
@[simp] theorem State.setBank_rc : (s.setBank i b).rc = s.rc := rfl
@[simp] theorem State.setBank_lanterns : (s.setBank i b).lanterns = s.lanterns := rfl
@[simp] theorem State.setBank_copper : (s.setBank i b).copper = s.copper := rfl
@[simp] theorem State.setBank_hosts : (s.setBank i b).hosts = s.hosts := rfl
@[simp] theorem State.setBank_mgmt : (s.setBank i b).mgmt = s.mgmt := rfl
@[simp] theorem State.setBank_rk : (s.setBank i b).rk = s.rk := rfl
@[simp] theorem State.setBank_staging : (s.setBank i b).staging = s.staging := rfl
@[simp] theorem State.setBank_mirrors : (s.setBank i b).mirrors = s.mirrors := rfl
@[simp] theorem State.setBank_weather : (s.setBank i b).weather = s.weather := rfl
@[simp] theorem State.setBank_safe : (s.setBank i b).safe = s.safe := rfl
@[simp] theorem State.setBank_sec : (s.setBank i b).sec = s.sec := rfl
@[simp] theorem State.setBank_power : (s.setBank i b).power = s.power := rfl
@[simp] theorem State.setBank_taps : (s.setBank i b).taps = s.taps := rfl

end

section

variable (i : Nat) (d : DrainUnit)

@[simp] theorem State.setDrain_pending : (s.setDrain i d).pending = s.pending := rfl
@[simp] theorem State.setDrain_now : (s.setDrain i d).now = s.now := rfl
@[simp] theorem State.setDrain_time : (s.setDrain i d).time = s.time := rfl
@[simp] theorem State.setDrain_draws : (s.setDrain i d).draws = s.draws := rfl
@[simp] theorem State.setDrain_reply : (s.setDrain i d).reply = s.reply := rfl
@[simp] theorem State.setDrain_out : (s.setDrain i d).out = s.out := rfl
@[simp] theorem State.setDrain_regs : (s.setDrain i d).regs = s.regs := rfl
@[simp] theorem State.setDrain_staged : (s.setDrain i d).staged = s.staged := rfl
@[simp] theorem State.setDrain_rlatch : (s.setDrain i d).rlatch = s.rlatch := rfl
@[simp] theorem State.setDrain_wlatch : (s.setDrain i d).wlatch = s.wlatch := rfl
@[simp] theorem State.setDrain_nb : (s.setDrain i d).nb = s.nb := rfl
@[simp] theorem State.setDrain_fns : (s.setDrain i d).fns = s.fns := rfl
@[simp] theorem State.setDrain_itin : (s.setDrain i d).itin = s.itin := rfl
@[simp] theorem State.setDrain_lead : (s.setDrain i d).lead = s.lead := rfl
@[simp] theorem State.setDrain_parties : (s.setDrain i d).parties = s.parties := rfl
@[simp] theorem State.setDrain_queues : (s.setDrain i d).queues = s.queues := rfl
@[simp] theorem State.setDrain_tallies : (s.setDrain i d).tallies = s.tallies := rfl
@[simp] theorem State.setDrain_mem : (s.setDrain i d).mem = s.mem := rfl
@[simp] theorem State.setDrain_poison : (s.setDrain i d).poison = s.poison := rfl
@[simp] theorem State.setDrain_badLine : (s.setDrain i d).badLine = s.badLine := rfl
@[simp] theorem State.setDrain_cache : (s.setDrain i d).cache = s.cache := rfl
@[simp] theorem State.setDrain_channels : (s.setDrain i d).channels = s.channels := rfl
@[simp] theorem State.setDrain_tiles : (s.setDrain i d).tiles = s.tiles := rfl
@[simp] theorem State.setDrain_engines : (s.setDrain i d).engines = s.engines := rfl
@[simp] theorem State.setDrain_banks : (s.setDrain i d).banks = s.banks := rfl
@[simp] theorem State.setDrain_movers : (s.setDrain i d).movers = s.movers := rfl
@[simp] theorem State.setDrain_panel : (s.setDrain i d).panel = s.panel := rfl
@[simp] theorem State.setDrain_fabric : (s.setDrain i d).fabric = s.fabric := rfl
@[simp] theorem State.setDrain_colls : (s.setDrain i d).colls = s.colls := rfl
@[simp] theorem State.setDrain_rc : (s.setDrain i d).rc = s.rc := rfl
@[simp] theorem State.setDrain_lanterns : (s.setDrain i d).lanterns = s.lanterns := rfl
@[simp] theorem State.setDrain_copper : (s.setDrain i d).copper = s.copper := rfl
@[simp] theorem State.setDrain_hosts : (s.setDrain i d).hosts = s.hosts := rfl
@[simp] theorem State.setDrain_mgmt : (s.setDrain i d).mgmt = s.mgmt := rfl
@[simp] theorem State.setDrain_rk : (s.setDrain i d).rk = s.rk := rfl
@[simp] theorem State.setDrain_staging : (s.setDrain i d).staging = s.staging := rfl
@[simp] theorem State.setDrain_mirrors : (s.setDrain i d).mirrors = s.mirrors := rfl
@[simp] theorem State.setDrain_weather : (s.setDrain i d).weather = s.weather := rfl
@[simp] theorem State.setDrain_safe : (s.setDrain i d).safe = s.safe := rfl
@[simp] theorem State.setDrain_sec : (s.setDrain i d).sec = s.sec := rfl
@[simp] theorem State.setDrain_power : (s.setDrain i d).power = s.power := rfl
@[simp] theorem State.setDrain_taps : (s.setDrain i d).taps = s.taps := rfl

end

section

variable (i : Nat) (j : Option MoveJob)

@[simp] theorem State.setMover_pending : (s.setMover i j).pending = s.pending := rfl
@[simp] theorem State.setMover_now : (s.setMover i j).now = s.now := rfl
@[simp] theorem State.setMover_time : (s.setMover i j).time = s.time := rfl
@[simp] theorem State.setMover_draws : (s.setMover i j).draws = s.draws := rfl
@[simp] theorem State.setMover_reply : (s.setMover i j).reply = s.reply := rfl
@[simp] theorem State.setMover_out : (s.setMover i j).out = s.out := rfl
@[simp] theorem State.setMover_regs : (s.setMover i j).regs = s.regs := rfl
@[simp] theorem State.setMover_staged : (s.setMover i j).staged = s.staged := rfl
@[simp] theorem State.setMover_rlatch : (s.setMover i j).rlatch = s.rlatch := rfl
@[simp] theorem State.setMover_wlatch : (s.setMover i j).wlatch = s.wlatch := rfl
@[simp] theorem State.setMover_nb : (s.setMover i j).nb = s.nb := rfl
@[simp] theorem State.setMover_fns : (s.setMover i j).fns = s.fns := rfl
@[simp] theorem State.setMover_itin : (s.setMover i j).itin = s.itin := rfl
@[simp] theorem State.setMover_lead : (s.setMover i j).lead = s.lead := rfl
@[simp] theorem State.setMover_parties : (s.setMover i j).parties = s.parties := rfl
@[simp] theorem State.setMover_queues : (s.setMover i j).queues = s.queues := rfl
@[simp] theorem State.setMover_tallies : (s.setMover i j).tallies = s.tallies := rfl
@[simp] theorem State.setMover_mem : (s.setMover i j).mem = s.mem := rfl
@[simp] theorem State.setMover_poison : (s.setMover i j).poison = s.poison := rfl
@[simp] theorem State.setMover_badLine : (s.setMover i j).badLine = s.badLine := rfl
@[simp] theorem State.setMover_cache : (s.setMover i j).cache = s.cache := rfl
@[simp] theorem State.setMover_channels : (s.setMover i j).channels = s.channels := rfl
@[simp] theorem State.setMover_tiles : (s.setMover i j).tiles = s.tiles := rfl
@[simp] theorem State.setMover_engines : (s.setMover i j).engines = s.engines := rfl
@[simp] theorem State.setMover_banks : (s.setMover i j).banks = s.banks := rfl
@[simp] theorem State.setMover_drains : (s.setMover i j).drains = s.drains := rfl
@[simp] theorem State.setMover_panel : (s.setMover i j).panel = s.panel := rfl
@[simp] theorem State.setMover_fabric : (s.setMover i j).fabric = s.fabric := rfl
@[simp] theorem State.setMover_colls : (s.setMover i j).colls = s.colls := rfl
@[simp] theorem State.setMover_rc : (s.setMover i j).rc = s.rc := rfl
@[simp] theorem State.setMover_lanterns : (s.setMover i j).lanterns = s.lanterns := rfl
@[simp] theorem State.setMover_copper : (s.setMover i j).copper = s.copper := rfl
@[simp] theorem State.setMover_hosts : (s.setMover i j).hosts = s.hosts := rfl
@[simp] theorem State.setMover_mgmt : (s.setMover i j).mgmt = s.mgmt := rfl
@[simp] theorem State.setMover_rk : (s.setMover i j).rk = s.rk := rfl
@[simp] theorem State.setMover_staging : (s.setMover i j).staging = s.staging := rfl
@[simp] theorem State.setMover_mirrors : (s.setMover i j).mirrors = s.mirrors := rfl
@[simp] theorem State.setMover_weather : (s.setMover i j).weather = s.weather := rfl
@[simp] theorem State.setMover_safe : (s.setMover i j).safe = s.safe := rfl
@[simp] theorem State.setMover_sec : (s.setMover i j).sec = s.sec := rfl
@[simp] theorem State.setMover_power : (s.setMover i j).power = s.power := rfl
@[simp] theorem State.setMover_taps : (s.setMover i j).taps = s.taps := rfl

end

section

variable (i : Nat) (c : Channel)

@[simp] theorem State.setChannel_pending : (s.setChannel i c).pending = s.pending := rfl
@[simp] theorem State.setChannel_now : (s.setChannel i c).now = s.now := rfl
@[simp] theorem State.setChannel_time : (s.setChannel i c).time = s.time := rfl
@[simp] theorem State.setChannel_draws : (s.setChannel i c).draws = s.draws := rfl
@[simp] theorem State.setChannel_reply : (s.setChannel i c).reply = s.reply := rfl
@[simp] theorem State.setChannel_out : (s.setChannel i c).out = s.out := rfl
@[simp] theorem State.setChannel_regs : (s.setChannel i c).regs = s.regs := rfl
@[simp] theorem State.setChannel_staged : (s.setChannel i c).staged = s.staged := rfl
@[simp] theorem State.setChannel_rlatch : (s.setChannel i c).rlatch = s.rlatch := rfl
@[simp] theorem State.setChannel_wlatch : (s.setChannel i c).wlatch = s.wlatch := rfl
@[simp] theorem State.setChannel_nb : (s.setChannel i c).nb = s.nb := rfl
@[simp] theorem State.setChannel_fns : (s.setChannel i c).fns = s.fns := rfl
@[simp] theorem State.setChannel_itin : (s.setChannel i c).itin = s.itin := rfl
@[simp] theorem State.setChannel_lead : (s.setChannel i c).lead = s.lead := rfl
@[simp] theorem State.setChannel_parties : (s.setChannel i c).parties = s.parties := rfl
@[simp] theorem State.setChannel_queues : (s.setChannel i c).queues = s.queues := rfl
@[simp] theorem State.setChannel_tallies : (s.setChannel i c).tallies = s.tallies := rfl
@[simp] theorem State.setChannel_mem : (s.setChannel i c).mem = s.mem := rfl
@[simp] theorem State.setChannel_poison : (s.setChannel i c).poison = s.poison := rfl
@[simp] theorem State.setChannel_badLine : (s.setChannel i c).badLine = s.badLine := rfl
@[simp] theorem State.setChannel_cache : (s.setChannel i c).cache = s.cache := rfl
@[simp] theorem State.setChannel_tiles : (s.setChannel i c).tiles = s.tiles := rfl
@[simp] theorem State.setChannel_engines : (s.setChannel i c).engines = s.engines := rfl
@[simp] theorem State.setChannel_banks : (s.setChannel i c).banks = s.banks := rfl
@[simp] theorem State.setChannel_drains : (s.setChannel i c).drains = s.drains := rfl
@[simp] theorem State.setChannel_movers : (s.setChannel i c).movers = s.movers := rfl
@[simp] theorem State.setChannel_panel : (s.setChannel i c).panel = s.panel := rfl
@[simp] theorem State.setChannel_fabric : (s.setChannel i c).fabric = s.fabric := rfl
@[simp] theorem State.setChannel_colls : (s.setChannel i c).colls = s.colls := rfl
@[simp] theorem State.setChannel_rc : (s.setChannel i c).rc = s.rc := rfl
@[simp] theorem State.setChannel_lanterns : (s.setChannel i c).lanterns = s.lanterns := rfl
@[simp] theorem State.setChannel_copper : (s.setChannel i c).copper = s.copper := rfl
@[simp] theorem State.setChannel_hosts : (s.setChannel i c).hosts = s.hosts := rfl
@[simp] theorem State.setChannel_mgmt : (s.setChannel i c).mgmt = s.mgmt := rfl
@[simp] theorem State.setChannel_rk : (s.setChannel i c).rk = s.rk := rfl
@[simp] theorem State.setChannel_staging : (s.setChannel i c).staging = s.staging := rfl
@[simp] theorem State.setChannel_mirrors : (s.setChannel i c).mirrors = s.mirrors := rfl
@[simp] theorem State.setChannel_weather : (s.setChannel i c).weather = s.weather := rfl
@[simp] theorem State.setChannel_safe : (s.setChannel i c).safe = s.safe := rfl
@[simp] theorem State.setChannel_sec : (s.setChannel i c).sec = s.sec := rfl
@[simp] theorem State.setChannel_power : (s.setChannel i c).power = s.power := rfl
@[simp] theorem State.setChannel_taps : (s.setChannel i c).taps = s.taps := rfl

end

section

variable (r : Nat) (x : Ring)

@[simp] theorem State.setRing_pending : (s.setRing r x).pending = s.pending := rfl
@[simp] theorem State.setRing_now : (s.setRing r x).now = s.now := rfl
@[simp] theorem State.setRing_time : (s.setRing r x).time = s.time := rfl
@[simp] theorem State.setRing_draws : (s.setRing r x).draws = s.draws := rfl
@[simp] theorem State.setRing_reply : (s.setRing r x).reply = s.reply := rfl
@[simp] theorem State.setRing_out : (s.setRing r x).out = s.out := rfl
@[simp] theorem State.setRing_regs : (s.setRing r x).regs = s.regs := rfl
@[simp] theorem State.setRing_staged : (s.setRing r x).staged = s.staged := rfl
@[simp] theorem State.setRing_rlatch : (s.setRing r x).rlatch = s.rlatch := rfl
@[simp] theorem State.setRing_wlatch : (s.setRing r x).wlatch = s.wlatch := rfl
@[simp] theorem State.setRing_fns : (s.setRing r x).fns = s.fns := rfl
@[simp] theorem State.setRing_itin : (s.setRing r x).itin = s.itin := rfl
@[simp] theorem State.setRing_lead : (s.setRing r x).lead = s.lead := rfl
@[simp] theorem State.setRing_parties : (s.setRing r x).parties = s.parties := rfl
@[simp] theorem State.setRing_queues : (s.setRing r x).queues = s.queues := rfl
@[simp] theorem State.setRing_tallies : (s.setRing r x).tallies = s.tallies := rfl
@[simp] theorem State.setRing_mem : (s.setRing r x).mem = s.mem := rfl
@[simp] theorem State.setRing_poison : (s.setRing r x).poison = s.poison := rfl
@[simp] theorem State.setRing_badLine : (s.setRing r x).badLine = s.badLine := rfl
@[simp] theorem State.setRing_cache : (s.setRing r x).cache = s.cache := rfl
@[simp] theorem State.setRing_channels : (s.setRing r x).channels = s.channels := rfl
@[simp] theorem State.setRing_tiles : (s.setRing r x).tiles = s.tiles := rfl
@[simp] theorem State.setRing_engines : (s.setRing r x).engines = s.engines := rfl
@[simp] theorem State.setRing_banks : (s.setRing r x).banks = s.banks := rfl
@[simp] theorem State.setRing_drains : (s.setRing r x).drains = s.drains := rfl
@[simp] theorem State.setRing_movers : (s.setRing r x).movers = s.movers := rfl
@[simp] theorem State.setRing_panel : (s.setRing r x).panel = s.panel := rfl
@[simp] theorem State.setRing_fabric : (s.setRing r x).fabric = s.fabric := rfl
@[simp] theorem State.setRing_colls : (s.setRing r x).colls = s.colls := rfl
@[simp] theorem State.setRing_rc : (s.setRing r x).rc = s.rc := rfl
@[simp] theorem State.setRing_lanterns : (s.setRing r x).lanterns = s.lanterns := rfl
@[simp] theorem State.setRing_copper : (s.setRing r x).copper = s.copper := rfl
@[simp] theorem State.setRing_hosts : (s.setRing r x).hosts = s.hosts := rfl
@[simp] theorem State.setRing_mgmt : (s.setRing r x).mgmt = s.mgmt := rfl
@[simp] theorem State.setRing_rk : (s.setRing r x).rk = s.rk := rfl
@[simp] theorem State.setRing_staging : (s.setRing r x).staging = s.staging := rfl
@[simp] theorem State.setRing_mirrors : (s.setRing r x).mirrors = s.mirrors := rfl
@[simp] theorem State.setRing_weather : (s.setRing r x).weather = s.weather := rfl
@[simp] theorem State.setRing_safe : (s.setRing r x).safe = s.safe := rfl
@[simp] theorem State.setRing_sec : (s.setRing r x).sec = s.sec := rfl
@[simp] theorem State.setRing_power : (s.setRing r x).power = s.power := rfl
@[simp] theorem State.setRing_taps : (s.setRing r x).taps = s.taps := rfl

end

section

variable (f : Fn) (x : FnState)

@[simp] theorem State.setFn_pending : (s.setFn f x).pending = s.pending := rfl
@[simp] theorem State.setFn_now : (s.setFn f x).now = s.now := rfl
@[simp] theorem State.setFn_time : (s.setFn f x).time = s.time := rfl
@[simp] theorem State.setFn_draws : (s.setFn f x).draws = s.draws := rfl
@[simp] theorem State.setFn_reply : (s.setFn f x).reply = s.reply := rfl
@[simp] theorem State.setFn_out : (s.setFn f x).out = s.out := rfl
@[simp] theorem State.setFn_regs : (s.setFn f x).regs = s.regs := rfl
@[simp] theorem State.setFn_staged : (s.setFn f x).staged = s.staged := rfl
@[simp] theorem State.setFn_rlatch : (s.setFn f x).rlatch = s.rlatch := rfl
@[simp] theorem State.setFn_wlatch : (s.setFn f x).wlatch = s.wlatch := rfl
@[simp] theorem State.setFn_nb : (s.setFn f x).nb = s.nb := rfl
@[simp] theorem State.setFn_itin : (s.setFn f x).itin = s.itin := rfl
@[simp] theorem State.setFn_lead : (s.setFn f x).lead = s.lead := rfl
@[simp] theorem State.setFn_parties : (s.setFn f x).parties = s.parties := rfl
@[simp] theorem State.setFn_queues : (s.setFn f x).queues = s.queues := rfl
@[simp] theorem State.setFn_tallies : (s.setFn f x).tallies = s.tallies := rfl
@[simp] theorem State.setFn_mem : (s.setFn f x).mem = s.mem := rfl
@[simp] theorem State.setFn_poison : (s.setFn f x).poison = s.poison := rfl
@[simp] theorem State.setFn_badLine : (s.setFn f x).badLine = s.badLine := rfl
@[simp] theorem State.setFn_cache : (s.setFn f x).cache = s.cache := rfl
@[simp] theorem State.setFn_channels : (s.setFn f x).channels = s.channels := rfl
@[simp] theorem State.setFn_tiles : (s.setFn f x).tiles = s.tiles := rfl
@[simp] theorem State.setFn_engines : (s.setFn f x).engines = s.engines := rfl
@[simp] theorem State.setFn_banks : (s.setFn f x).banks = s.banks := rfl
@[simp] theorem State.setFn_drains : (s.setFn f x).drains = s.drains := rfl
@[simp] theorem State.setFn_movers : (s.setFn f x).movers = s.movers := rfl
@[simp] theorem State.setFn_panel : (s.setFn f x).panel = s.panel := rfl
@[simp] theorem State.setFn_fabric : (s.setFn f x).fabric = s.fabric := rfl
@[simp] theorem State.setFn_colls : (s.setFn f x).colls = s.colls := rfl
@[simp] theorem State.setFn_rc : (s.setFn f x).rc = s.rc := rfl
@[simp] theorem State.setFn_lanterns : (s.setFn f x).lanterns = s.lanterns := rfl
@[simp] theorem State.setFn_copper : (s.setFn f x).copper = s.copper := rfl
@[simp] theorem State.setFn_hosts : (s.setFn f x).hosts = s.hosts := rfl
@[simp] theorem State.setFn_mgmt : (s.setFn f x).mgmt = s.mgmt := rfl
@[simp] theorem State.setFn_rk : (s.setFn f x).rk = s.rk := rfl
@[simp] theorem State.setFn_staging : (s.setFn f x).staging = s.staging := rfl
@[simp] theorem State.setFn_mirrors : (s.setFn f x).mirrors = s.mirrors := rfl
@[simp] theorem State.setFn_weather : (s.setFn f x).weather = s.weather := rfl
@[simp] theorem State.setFn_safe : (s.setFn f x).safe = s.safe := rfl
@[simp] theorem State.setFn_sec : (s.setFn f x).sec = s.sec := rfl
@[simp] theorem State.setFn_power : (s.setFn f x).power = s.power := rfl
@[simp] theorem State.setFn_taps : (s.setFn f x).taps = s.taps := rfl

end

section

variable (f : Fn) (x : HostFn)

@[simp] theorem State.setHost_pending : (s.setHost f x).pending = s.pending := rfl
@[simp] theorem State.setHost_now : (s.setHost f x).now = s.now := rfl
@[simp] theorem State.setHost_time : (s.setHost f x).time = s.time := rfl
@[simp] theorem State.setHost_draws : (s.setHost f x).draws = s.draws := rfl
@[simp] theorem State.setHost_reply : (s.setHost f x).reply = s.reply := rfl
@[simp] theorem State.setHost_out : (s.setHost f x).out = s.out := rfl
@[simp] theorem State.setHost_regs : (s.setHost f x).regs = s.regs := rfl
@[simp] theorem State.setHost_staged : (s.setHost f x).staged = s.staged := rfl
@[simp] theorem State.setHost_rlatch : (s.setHost f x).rlatch = s.rlatch := rfl
@[simp] theorem State.setHost_wlatch : (s.setHost f x).wlatch = s.wlatch := rfl
@[simp] theorem State.setHost_nb : (s.setHost f x).nb = s.nb := rfl
@[simp] theorem State.setHost_fns : (s.setHost f x).fns = s.fns := rfl
@[simp] theorem State.setHost_itin : (s.setHost f x).itin = s.itin := rfl
@[simp] theorem State.setHost_lead : (s.setHost f x).lead = s.lead := rfl
@[simp] theorem State.setHost_parties : (s.setHost f x).parties = s.parties := rfl
@[simp] theorem State.setHost_queues : (s.setHost f x).queues = s.queues := rfl
@[simp] theorem State.setHost_tallies : (s.setHost f x).tallies = s.tallies := rfl
@[simp] theorem State.setHost_mem : (s.setHost f x).mem = s.mem := rfl
@[simp] theorem State.setHost_poison : (s.setHost f x).poison = s.poison := rfl
@[simp] theorem State.setHost_badLine : (s.setHost f x).badLine = s.badLine := rfl
@[simp] theorem State.setHost_cache : (s.setHost f x).cache = s.cache := rfl
@[simp] theorem State.setHost_channels : (s.setHost f x).channels = s.channels := rfl
@[simp] theorem State.setHost_tiles : (s.setHost f x).tiles = s.tiles := rfl
@[simp] theorem State.setHost_engines : (s.setHost f x).engines = s.engines := rfl
@[simp] theorem State.setHost_banks : (s.setHost f x).banks = s.banks := rfl
@[simp] theorem State.setHost_drains : (s.setHost f x).drains = s.drains := rfl
@[simp] theorem State.setHost_movers : (s.setHost f x).movers = s.movers := rfl
@[simp] theorem State.setHost_panel : (s.setHost f x).panel = s.panel := rfl
@[simp] theorem State.setHost_fabric : (s.setHost f x).fabric = s.fabric := rfl
@[simp] theorem State.setHost_colls : (s.setHost f x).colls = s.colls := rfl
@[simp] theorem State.setHost_rc : (s.setHost f x).rc = s.rc := rfl
@[simp] theorem State.setHost_lanterns : (s.setHost f x).lanterns = s.lanterns := rfl
@[simp] theorem State.setHost_copper : (s.setHost f x).copper = s.copper := rfl
@[simp] theorem State.setHost_mgmt : (s.setHost f x).mgmt = s.mgmt := rfl
@[simp] theorem State.setHost_rk : (s.setHost f x).rk = s.rk := rfl
@[simp] theorem State.setHost_staging : (s.setHost f x).staging = s.staging := rfl
@[simp] theorem State.setHost_mirrors : (s.setHost f x).mirrors = s.mirrors := rfl
@[simp] theorem State.setHost_weather : (s.setHost f x).weather = s.weather := rfl
@[simp] theorem State.setHost_safe : (s.setHost f x).safe = s.safe := rfl
@[simp] theorem State.setHost_sec : (s.setHost f x).sec = s.sec := rfl
@[simp] theorem State.setHost_power : (s.setHost f x).power = s.power := rfl
@[simp] theorem State.setHost_taps : (s.setHost f x).taps = s.taps := rfl

end

section

variable (p : Nat) (x : Party)

@[simp] theorem State.setParty_pending : (s.setParty p x).pending = s.pending := rfl
@[simp] theorem State.setParty_now : (s.setParty p x).now = s.now := rfl
@[simp] theorem State.setParty_time : (s.setParty p x).time = s.time := rfl
@[simp] theorem State.setParty_draws : (s.setParty p x).draws = s.draws := rfl
@[simp] theorem State.setParty_reply : (s.setParty p x).reply = s.reply := rfl
@[simp] theorem State.setParty_out : (s.setParty p x).out = s.out := rfl
@[simp] theorem State.setParty_regs : (s.setParty p x).regs = s.regs := rfl
@[simp] theorem State.setParty_staged : (s.setParty p x).staged = s.staged := rfl
@[simp] theorem State.setParty_rlatch : (s.setParty p x).rlatch = s.rlatch := rfl
@[simp] theorem State.setParty_wlatch : (s.setParty p x).wlatch = s.wlatch := rfl
@[simp] theorem State.setParty_nb : (s.setParty p x).nb = s.nb := rfl
@[simp] theorem State.setParty_fns : (s.setParty p x).fns = s.fns := rfl
@[simp] theorem State.setParty_itin : (s.setParty p x).itin = s.itin := rfl
@[simp] theorem State.setParty_lead : (s.setParty p x).lead = s.lead := rfl
@[simp] theorem State.setParty_queues : (s.setParty p x).queues = s.queues := rfl
@[simp] theorem State.setParty_tallies : (s.setParty p x).tallies = s.tallies := rfl
@[simp] theorem State.setParty_mem : (s.setParty p x).mem = s.mem := rfl
@[simp] theorem State.setParty_poison : (s.setParty p x).poison = s.poison := rfl
@[simp] theorem State.setParty_badLine : (s.setParty p x).badLine = s.badLine := rfl
@[simp] theorem State.setParty_cache : (s.setParty p x).cache = s.cache := rfl
@[simp] theorem State.setParty_channels : (s.setParty p x).channels = s.channels := rfl
@[simp] theorem State.setParty_tiles : (s.setParty p x).tiles = s.tiles := rfl
@[simp] theorem State.setParty_engines : (s.setParty p x).engines = s.engines := rfl
@[simp] theorem State.setParty_banks : (s.setParty p x).banks = s.banks := rfl
@[simp] theorem State.setParty_drains : (s.setParty p x).drains = s.drains := rfl
@[simp] theorem State.setParty_movers : (s.setParty p x).movers = s.movers := rfl
@[simp] theorem State.setParty_panel : (s.setParty p x).panel = s.panel := rfl
@[simp] theorem State.setParty_fabric : (s.setParty p x).fabric = s.fabric := rfl
@[simp] theorem State.setParty_colls : (s.setParty p x).colls = s.colls := rfl
@[simp] theorem State.setParty_rc : (s.setParty p x).rc = s.rc := rfl
@[simp] theorem State.setParty_lanterns : (s.setParty p x).lanterns = s.lanterns := rfl
@[simp] theorem State.setParty_copper : (s.setParty p x).copper = s.copper := rfl
@[simp] theorem State.setParty_hosts : (s.setParty p x).hosts = s.hosts := rfl
@[simp] theorem State.setParty_mgmt : (s.setParty p x).mgmt = s.mgmt := rfl
@[simp] theorem State.setParty_rk : (s.setParty p x).rk = s.rk := rfl
@[simp] theorem State.setParty_staging : (s.setParty p x).staging = s.staging := rfl
@[simp] theorem State.setParty_mirrors : (s.setParty p x).mirrors = s.mirrors := rfl
@[simp] theorem State.setParty_weather : (s.setParty p x).weather = s.weather := rfl
@[simp] theorem State.setParty_safe : (s.setParty p x).safe = s.safe := rfl
@[simp] theorem State.setParty_sec : (s.setParty p x).sec = s.sec := rfl
@[simp] theorem State.setParty_power : (s.setParty p x).power = s.power := rfl
@[simp] theorem State.setParty_taps : (s.setParty p x).taps = s.taps := rfl

end

section

variable (n : Nat) (g : Guest)

@[simp] theorem State.setGuest_pending : (s.setGuest n g).pending = s.pending := rfl
@[simp] theorem State.setGuest_now : (s.setGuest n g).now = s.now := rfl
@[simp] theorem State.setGuest_time : (s.setGuest n g).time = s.time := rfl
@[simp] theorem State.setGuest_draws : (s.setGuest n g).draws = s.draws := rfl
@[simp] theorem State.setGuest_reply : (s.setGuest n g).reply = s.reply := rfl
@[simp] theorem State.setGuest_out : (s.setGuest n g).out = s.out := rfl
@[simp] theorem State.setGuest_regs : (s.setGuest n g).regs = s.regs := rfl
@[simp] theorem State.setGuest_staged : (s.setGuest n g).staged = s.staged := rfl
@[simp] theorem State.setGuest_rlatch : (s.setGuest n g).rlatch = s.rlatch := rfl
@[simp] theorem State.setGuest_wlatch : (s.setGuest n g).wlatch = s.wlatch := rfl
@[simp] theorem State.setGuest_nb : (s.setGuest n g).nb = s.nb := rfl
@[simp] theorem State.setGuest_fns : (s.setGuest n g).fns = s.fns := rfl
@[simp] theorem State.setGuest_itin : (s.setGuest n g).itin = s.itin := rfl
@[simp] theorem State.setGuest_lead : (s.setGuest n g).lead = s.lead := rfl
@[simp] theorem State.setGuest_parties : (s.setGuest n g).parties = s.parties := rfl
@[simp] theorem State.setGuest_queues : (s.setGuest n g).queues = s.queues := rfl
@[simp] theorem State.setGuest_tallies : (s.setGuest n g).tallies = s.tallies := rfl
@[simp] theorem State.setGuest_mem : (s.setGuest n g).mem = s.mem := rfl
@[simp] theorem State.setGuest_poison : (s.setGuest n g).poison = s.poison := rfl
@[simp] theorem State.setGuest_badLine : (s.setGuest n g).badLine = s.badLine := rfl
@[simp] theorem State.setGuest_cache : (s.setGuest n g).cache = s.cache := rfl
@[simp] theorem State.setGuest_channels : (s.setGuest n g).channels = s.channels := rfl
@[simp] theorem State.setGuest_tiles : (s.setGuest n g).tiles = s.tiles := rfl
@[simp] theorem State.setGuest_engines : (s.setGuest n g).engines = s.engines := rfl
@[simp] theorem State.setGuest_banks : (s.setGuest n g).banks = s.banks := rfl
@[simp] theorem State.setGuest_drains : (s.setGuest n g).drains = s.drains := rfl
@[simp] theorem State.setGuest_movers : (s.setGuest n g).movers = s.movers := rfl
@[simp] theorem State.setGuest_fabric : (s.setGuest n g).fabric = s.fabric := rfl
@[simp] theorem State.setGuest_colls : (s.setGuest n g).colls = s.colls := rfl
@[simp] theorem State.setGuest_rc : (s.setGuest n g).rc = s.rc := rfl
@[simp] theorem State.setGuest_lanterns : (s.setGuest n g).lanterns = s.lanterns := rfl
@[simp] theorem State.setGuest_copper : (s.setGuest n g).copper = s.copper := rfl
@[simp] theorem State.setGuest_hosts : (s.setGuest n g).hosts = s.hosts := rfl
@[simp] theorem State.setGuest_mgmt : (s.setGuest n g).mgmt = s.mgmt := rfl
@[simp] theorem State.setGuest_rk : (s.setGuest n g).rk = s.rk := rfl
@[simp] theorem State.setGuest_staging : (s.setGuest n g).staging = s.staging := rfl
@[simp] theorem State.setGuest_mirrors : (s.setGuest n g).mirrors = s.mirrors := rfl
@[simp] theorem State.setGuest_weather : (s.setGuest n g).weather = s.weather := rfl
@[simp] theorem State.setGuest_safe : (s.setGuest n g).safe = s.safe := rfl
@[simp] theorem State.setGuest_sec : (s.setGuest n g).sec = s.sec := rfl
@[simp] theorem State.setGuest_power : (s.setGuest n g).power = s.power := rfl
@[simp] theorem State.setGuest_taps : (s.setGuest n g).taps = s.taps := rfl

end

section

variable (l : Strand) (x : StrandState)

@[simp] theorem State.setStrand_pending : (s.setStrand l x).pending = s.pending := rfl
@[simp] theorem State.setStrand_now : (s.setStrand l x).now = s.now := rfl
@[simp] theorem State.setStrand_time : (s.setStrand l x).time = s.time := rfl
@[simp] theorem State.setStrand_draws : (s.setStrand l x).draws = s.draws := rfl
@[simp] theorem State.setStrand_reply : (s.setStrand l x).reply = s.reply := rfl
@[simp] theorem State.setStrand_out : (s.setStrand l x).out = s.out := rfl
@[simp] theorem State.setStrand_regs : (s.setStrand l x).regs = s.regs := rfl
@[simp] theorem State.setStrand_staged : (s.setStrand l x).staged = s.staged := rfl
@[simp] theorem State.setStrand_rlatch : (s.setStrand l x).rlatch = s.rlatch := rfl
@[simp] theorem State.setStrand_wlatch : (s.setStrand l x).wlatch = s.wlatch := rfl
@[simp] theorem State.setStrand_nb : (s.setStrand l x).nb = s.nb := rfl
@[simp] theorem State.setStrand_fns : (s.setStrand l x).fns = s.fns := rfl
@[simp] theorem State.setStrand_itin : (s.setStrand l x).itin = s.itin := rfl
@[simp] theorem State.setStrand_lead : (s.setStrand l x).lead = s.lead := rfl
@[simp] theorem State.setStrand_parties : (s.setStrand l x).parties = s.parties := rfl
@[simp] theorem State.setStrand_queues : (s.setStrand l x).queues = s.queues := rfl
@[simp] theorem State.setStrand_tallies : (s.setStrand l x).tallies = s.tallies := rfl
@[simp] theorem State.setStrand_mem : (s.setStrand l x).mem = s.mem := rfl
@[simp] theorem State.setStrand_poison : (s.setStrand l x).poison = s.poison := rfl
@[simp] theorem State.setStrand_badLine : (s.setStrand l x).badLine = s.badLine := rfl
@[simp] theorem State.setStrand_cache : (s.setStrand l x).cache = s.cache := rfl
@[simp] theorem State.setStrand_channels : (s.setStrand l x).channels = s.channels := rfl
@[simp] theorem State.setStrand_tiles : (s.setStrand l x).tiles = s.tiles := rfl
@[simp] theorem State.setStrand_engines : (s.setStrand l x).engines = s.engines := rfl
@[simp] theorem State.setStrand_banks : (s.setStrand l x).banks = s.banks := rfl
@[simp] theorem State.setStrand_drains : (s.setStrand l x).drains = s.drains := rfl
@[simp] theorem State.setStrand_movers : (s.setStrand l x).movers = s.movers := rfl
@[simp] theorem State.setStrand_fabric : (s.setStrand l x).fabric = s.fabric := rfl
@[simp] theorem State.setStrand_colls : (s.setStrand l x).colls = s.colls := rfl
@[simp] theorem State.setStrand_rc : (s.setStrand l x).rc = s.rc := rfl
@[simp] theorem State.setStrand_lanterns : (s.setStrand l x).lanterns = s.lanterns := rfl
@[simp] theorem State.setStrand_copper : (s.setStrand l x).copper = s.copper := rfl
@[simp] theorem State.setStrand_hosts : (s.setStrand l x).hosts = s.hosts := rfl
@[simp] theorem State.setStrand_mgmt : (s.setStrand l x).mgmt = s.mgmt := rfl
@[simp] theorem State.setStrand_rk : (s.setStrand l x).rk = s.rk := rfl
@[simp] theorem State.setStrand_staging : (s.setStrand l x).staging = s.staging := rfl
@[simp] theorem State.setStrand_mirrors : (s.setStrand l x).mirrors = s.mirrors := rfl
@[simp] theorem State.setStrand_weather : (s.setStrand l x).weather = s.weather := rfl
@[simp] theorem State.setStrand_safe : (s.setStrand l x).safe = s.safe := rfl
@[simp] theorem State.setStrand_sec : (s.setStrand l x).sec = s.sec := rfl
@[simp] theorem State.setStrand_power : (s.setStrand l x).power = s.power := rfl
@[simp] theorem State.setStrand_taps : (s.setStrand l x).taps = s.taps := rfl

end

section

variable (l : ModLink) (x : LinkState)

@[simp] theorem State.setLink_pending : (s.setLink l x).pending = s.pending := rfl
@[simp] theorem State.setLink_now : (s.setLink l x).now = s.now := rfl
@[simp] theorem State.setLink_time : (s.setLink l x).time = s.time := rfl
@[simp] theorem State.setLink_draws : (s.setLink l x).draws = s.draws := rfl
@[simp] theorem State.setLink_reply : (s.setLink l x).reply = s.reply := rfl
@[simp] theorem State.setLink_out : (s.setLink l x).out = s.out := rfl
@[simp] theorem State.setLink_regs : (s.setLink l x).regs = s.regs := rfl
@[simp] theorem State.setLink_staged : (s.setLink l x).staged = s.staged := rfl
@[simp] theorem State.setLink_rlatch : (s.setLink l x).rlatch = s.rlatch := rfl
@[simp] theorem State.setLink_wlatch : (s.setLink l x).wlatch = s.wlatch := rfl
@[simp] theorem State.setLink_nb : (s.setLink l x).nb = s.nb := rfl
@[simp] theorem State.setLink_fns : (s.setLink l x).fns = s.fns := rfl
@[simp] theorem State.setLink_itin : (s.setLink l x).itin = s.itin := rfl
@[simp] theorem State.setLink_lead : (s.setLink l x).lead = s.lead := rfl
@[simp] theorem State.setLink_parties : (s.setLink l x).parties = s.parties := rfl
@[simp] theorem State.setLink_queues : (s.setLink l x).queues = s.queues := rfl
@[simp] theorem State.setLink_tallies : (s.setLink l x).tallies = s.tallies := rfl
@[simp] theorem State.setLink_mem : (s.setLink l x).mem = s.mem := rfl
@[simp] theorem State.setLink_poison : (s.setLink l x).poison = s.poison := rfl
@[simp] theorem State.setLink_badLine : (s.setLink l x).badLine = s.badLine := rfl
@[simp] theorem State.setLink_cache : (s.setLink l x).cache = s.cache := rfl
@[simp] theorem State.setLink_channels : (s.setLink l x).channels = s.channels := rfl
@[simp] theorem State.setLink_tiles : (s.setLink l x).tiles = s.tiles := rfl
@[simp] theorem State.setLink_engines : (s.setLink l x).engines = s.engines := rfl
@[simp] theorem State.setLink_banks : (s.setLink l x).banks = s.banks := rfl
@[simp] theorem State.setLink_drains : (s.setLink l x).drains = s.drains := rfl
@[simp] theorem State.setLink_movers : (s.setLink l x).movers = s.movers := rfl
@[simp] theorem State.setLink_panel : (s.setLink l x).panel = s.panel := rfl
@[simp] theorem State.setLink_colls : (s.setLink l x).colls = s.colls := rfl
@[simp] theorem State.setLink_rc : (s.setLink l x).rc = s.rc := rfl
@[simp] theorem State.setLink_lanterns : (s.setLink l x).lanterns = s.lanterns := rfl
@[simp] theorem State.setLink_copper : (s.setLink l x).copper = s.copper := rfl
@[simp] theorem State.setLink_hosts : (s.setLink l x).hosts = s.hosts := rfl
@[simp] theorem State.setLink_mgmt : (s.setLink l x).mgmt = s.mgmt := rfl
@[simp] theorem State.setLink_rk : (s.setLink l x).rk = s.rk := rfl
@[simp] theorem State.setLink_staging : (s.setLink l x).staging = s.staging := rfl
@[simp] theorem State.setLink_mirrors : (s.setLink l x).mirrors = s.mirrors := rfl
@[simp] theorem State.setLink_weather : (s.setLink l x).weather = s.weather := rfl
@[simp] theorem State.setLink_safe : (s.setLink l x).safe = s.safe := rfl
@[simp] theorem State.setLink_sec : (s.setLink l x).sec = s.sec := rfl
@[simp] theorem State.setLink_power : (s.setLink l x).power = s.power := rfl
@[simp] theorem State.setLink_taps : (s.setLink l x).taps = s.taps := rfl

end

section

variable (n : Nat) (x : Lantern)

@[simp] theorem State.setLantern_pending : (s.setLantern n x).pending = s.pending := rfl
@[simp] theorem State.setLantern_now : (s.setLantern n x).now = s.now := rfl
@[simp] theorem State.setLantern_time : (s.setLantern n x).time = s.time := rfl
@[simp] theorem State.setLantern_draws : (s.setLantern n x).draws = s.draws := rfl
@[simp] theorem State.setLantern_reply : (s.setLantern n x).reply = s.reply := rfl
@[simp] theorem State.setLantern_out : (s.setLantern n x).out = s.out := rfl
@[simp] theorem State.setLantern_regs : (s.setLantern n x).regs = s.regs := rfl
@[simp] theorem State.setLantern_staged : (s.setLantern n x).staged = s.staged := rfl
@[simp] theorem State.setLantern_rlatch : (s.setLantern n x).rlatch = s.rlatch := rfl
@[simp] theorem State.setLantern_wlatch : (s.setLantern n x).wlatch = s.wlatch := rfl
@[simp] theorem State.setLantern_nb : (s.setLantern n x).nb = s.nb := rfl
@[simp] theorem State.setLantern_fns : (s.setLantern n x).fns = s.fns := rfl
@[simp] theorem State.setLantern_itin : (s.setLantern n x).itin = s.itin := rfl
@[simp] theorem State.setLantern_lead : (s.setLantern n x).lead = s.lead := rfl
@[simp] theorem State.setLantern_parties : (s.setLantern n x).parties = s.parties := rfl
@[simp] theorem State.setLantern_queues : (s.setLantern n x).queues = s.queues := rfl
@[simp] theorem State.setLantern_tallies : (s.setLantern n x).tallies = s.tallies := rfl
@[simp] theorem State.setLantern_mem : (s.setLantern n x).mem = s.mem := rfl
@[simp] theorem State.setLantern_poison : (s.setLantern n x).poison = s.poison := rfl
@[simp] theorem State.setLantern_badLine : (s.setLantern n x).badLine = s.badLine := rfl
@[simp] theorem State.setLantern_cache : (s.setLantern n x).cache = s.cache := rfl
@[simp] theorem State.setLantern_channels : (s.setLantern n x).channels = s.channels := rfl
@[simp] theorem State.setLantern_tiles : (s.setLantern n x).tiles = s.tiles := rfl
@[simp] theorem State.setLantern_engines : (s.setLantern n x).engines = s.engines := rfl
@[simp] theorem State.setLantern_banks : (s.setLantern n x).banks = s.banks := rfl
@[simp] theorem State.setLantern_drains : (s.setLantern n x).drains = s.drains := rfl
@[simp] theorem State.setLantern_movers : (s.setLantern n x).movers = s.movers := rfl
@[simp] theorem State.setLantern_panel : (s.setLantern n x).panel = s.panel := rfl
@[simp] theorem State.setLantern_fabric : (s.setLantern n x).fabric = s.fabric := rfl
@[simp] theorem State.setLantern_colls : (s.setLantern n x).colls = s.colls := rfl
@[simp] theorem State.setLantern_rc : (s.setLantern n x).rc = s.rc := rfl
@[simp] theorem State.setLantern_copper : (s.setLantern n x).copper = s.copper := rfl
@[simp] theorem State.setLantern_hosts : (s.setLantern n x).hosts = s.hosts := rfl
@[simp] theorem State.setLantern_mgmt : (s.setLantern n x).mgmt = s.mgmt := rfl
@[simp] theorem State.setLantern_rk : (s.setLantern n x).rk = s.rk := rfl
@[simp] theorem State.setLantern_staging : (s.setLantern n x).staging = s.staging := rfl
@[simp] theorem State.setLantern_mirrors : (s.setLantern n x).mirrors = s.mirrors := rfl
@[simp] theorem State.setLantern_weather : (s.setLantern n x).weather = s.weather := rfl
@[simp] theorem State.setLantern_safe : (s.setLantern n x).safe = s.safe := rfl
@[simp] theorem State.setLantern_sec : (s.setLantern n x).sec = s.sec := rfl
@[simp] theorem State.setLantern_power : (s.setLantern n x).power = s.power := rfl
@[simp] theorem State.setLantern_taps : (s.setLantern n x).taps = s.taps := rfl

end

section

variable (n p : Nat) (x : Port)

@[simp] theorem State.setPort_pending : (s.setPort n p x).pending = s.pending := rfl
@[simp] theorem State.setPort_now : (s.setPort n p x).now = s.now := rfl
@[simp] theorem State.setPort_time : (s.setPort n p x).time = s.time := rfl
@[simp] theorem State.setPort_draws : (s.setPort n p x).draws = s.draws := rfl
@[simp] theorem State.setPort_reply : (s.setPort n p x).reply = s.reply := rfl
@[simp] theorem State.setPort_out : (s.setPort n p x).out = s.out := rfl
@[simp] theorem State.setPort_regs : (s.setPort n p x).regs = s.regs := rfl
@[simp] theorem State.setPort_staged : (s.setPort n p x).staged = s.staged := rfl
@[simp] theorem State.setPort_rlatch : (s.setPort n p x).rlatch = s.rlatch := rfl
@[simp] theorem State.setPort_wlatch : (s.setPort n p x).wlatch = s.wlatch := rfl
@[simp] theorem State.setPort_nb : (s.setPort n p x).nb = s.nb := rfl
@[simp] theorem State.setPort_fns : (s.setPort n p x).fns = s.fns := rfl
@[simp] theorem State.setPort_itin : (s.setPort n p x).itin = s.itin := rfl
@[simp] theorem State.setPort_lead : (s.setPort n p x).lead = s.lead := rfl
@[simp] theorem State.setPort_parties : (s.setPort n p x).parties = s.parties := rfl
@[simp] theorem State.setPort_queues : (s.setPort n p x).queues = s.queues := rfl
@[simp] theorem State.setPort_tallies : (s.setPort n p x).tallies = s.tallies := rfl
@[simp] theorem State.setPort_mem : (s.setPort n p x).mem = s.mem := rfl
@[simp] theorem State.setPort_poison : (s.setPort n p x).poison = s.poison := rfl
@[simp] theorem State.setPort_badLine : (s.setPort n p x).badLine = s.badLine := rfl
@[simp] theorem State.setPort_cache : (s.setPort n p x).cache = s.cache := rfl
@[simp] theorem State.setPort_channels : (s.setPort n p x).channels = s.channels := rfl
@[simp] theorem State.setPort_tiles : (s.setPort n p x).tiles = s.tiles := rfl
@[simp] theorem State.setPort_engines : (s.setPort n p x).engines = s.engines := rfl
@[simp] theorem State.setPort_banks : (s.setPort n p x).banks = s.banks := rfl
@[simp] theorem State.setPort_drains : (s.setPort n p x).drains = s.drains := rfl
@[simp] theorem State.setPort_movers : (s.setPort n p x).movers = s.movers := rfl
@[simp] theorem State.setPort_panel : (s.setPort n p x).panel = s.panel := rfl
@[simp] theorem State.setPort_fabric : (s.setPort n p x).fabric = s.fabric := rfl
@[simp] theorem State.setPort_colls : (s.setPort n p x).colls = s.colls := rfl
@[simp] theorem State.setPort_rc : (s.setPort n p x).rc = s.rc := rfl
@[simp] theorem State.setPort_copper : (s.setPort n p x).copper = s.copper := rfl
@[simp] theorem State.setPort_hosts : (s.setPort n p x).hosts = s.hosts := rfl
@[simp] theorem State.setPort_mgmt : (s.setPort n p x).mgmt = s.mgmt := rfl
@[simp] theorem State.setPort_rk : (s.setPort n p x).rk = s.rk := rfl
@[simp] theorem State.setPort_staging : (s.setPort n p x).staging = s.staging := rfl
@[simp] theorem State.setPort_mirrors : (s.setPort n p x).mirrors = s.mirrors := rfl
@[simp] theorem State.setPort_weather : (s.setPort n p x).weather = s.weather := rfl
@[simp] theorem State.setPort_safe : (s.setPort n p x).safe = s.safe := rfl
@[simp] theorem State.setPort_sec : (s.setPort n p x).sec = s.sec := rfl
@[simp] theorem State.setPort_power : (s.setPort n p x).power = s.power := rfl
@[simp] theorem State.setPort_taps : (s.setPort n p x).taps = s.taps := rfl

end

section

variable (n m : Nat) (x : Bundle)

@[simp] theorem State.setBundle_pending : (s.setBundle n m x).pending = s.pending := rfl
@[simp] theorem State.setBundle_now : (s.setBundle n m x).now = s.now := rfl
@[simp] theorem State.setBundle_time : (s.setBundle n m x).time = s.time := rfl
@[simp] theorem State.setBundle_draws : (s.setBundle n m x).draws = s.draws := rfl
@[simp] theorem State.setBundle_reply : (s.setBundle n m x).reply = s.reply := rfl
@[simp] theorem State.setBundle_out : (s.setBundle n m x).out = s.out := rfl
@[simp] theorem State.setBundle_regs : (s.setBundle n m x).regs = s.regs := rfl
@[simp] theorem State.setBundle_staged : (s.setBundle n m x).staged = s.staged := rfl
@[simp] theorem State.setBundle_rlatch : (s.setBundle n m x).rlatch = s.rlatch := rfl
@[simp] theorem State.setBundle_wlatch : (s.setBundle n m x).wlatch = s.wlatch := rfl
@[simp] theorem State.setBundle_nb : (s.setBundle n m x).nb = s.nb := rfl
@[simp] theorem State.setBundle_fns : (s.setBundle n m x).fns = s.fns := rfl
@[simp] theorem State.setBundle_itin : (s.setBundle n m x).itin = s.itin := rfl
@[simp] theorem State.setBundle_lead : (s.setBundle n m x).lead = s.lead := rfl
@[simp] theorem State.setBundle_parties : (s.setBundle n m x).parties = s.parties := rfl
@[simp] theorem State.setBundle_queues : (s.setBundle n m x).queues = s.queues := rfl
@[simp] theorem State.setBundle_tallies : (s.setBundle n m x).tallies = s.tallies := rfl
@[simp] theorem State.setBundle_mem : (s.setBundle n m x).mem = s.mem := rfl
@[simp] theorem State.setBundle_poison : (s.setBundle n m x).poison = s.poison := rfl
@[simp] theorem State.setBundle_badLine : (s.setBundle n m x).badLine = s.badLine := rfl
@[simp] theorem State.setBundle_cache : (s.setBundle n m x).cache = s.cache := rfl
@[simp] theorem State.setBundle_channels : (s.setBundle n m x).channels = s.channels := rfl
@[simp] theorem State.setBundle_tiles : (s.setBundle n m x).tiles = s.tiles := rfl
@[simp] theorem State.setBundle_engines : (s.setBundle n m x).engines = s.engines := rfl
@[simp] theorem State.setBundle_banks : (s.setBundle n m x).banks = s.banks := rfl
@[simp] theorem State.setBundle_drains : (s.setBundle n m x).drains = s.drains := rfl
@[simp] theorem State.setBundle_movers : (s.setBundle n m x).movers = s.movers := rfl
@[simp] theorem State.setBundle_panel : (s.setBundle n m x).panel = s.panel := rfl
@[simp] theorem State.setBundle_fabric : (s.setBundle n m x).fabric = s.fabric := rfl
@[simp] theorem State.setBundle_colls : (s.setBundle n m x).colls = s.colls := rfl
@[simp] theorem State.setBundle_rc : (s.setBundle n m x).rc = s.rc := rfl
@[simp] theorem State.setBundle_copper : (s.setBundle n m x).copper = s.copper := rfl
@[simp] theorem State.setBundle_hosts : (s.setBundle n m x).hosts = s.hosts := rfl
@[simp] theorem State.setBundle_mgmt : (s.setBundle n m x).mgmt = s.mgmt := rfl
@[simp] theorem State.setBundle_rk : (s.setBundle n m x).rk = s.rk := rfl
@[simp] theorem State.setBundle_staging : (s.setBundle n m x).staging = s.staging := rfl
@[simp] theorem State.setBundle_mirrors : (s.setBundle n m x).mirrors = s.mirrors := rfl
@[simp] theorem State.setBundle_weather : (s.setBundle n m x).weather = s.weather := rfl
@[simp] theorem State.setBundle_safe : (s.setBundle n m x).safe = s.safe := rfl
@[simp] theorem State.setBundle_sec : (s.setBundle n m x).sec = s.sec := rfl
@[simp] theorem State.setBundle_power : (s.setBundle n m x).power = s.power := rfl
@[simp] theorem State.setBundle_taps : (s.setBundle n m x).taps = s.taps := rfl

end

section

variable (k : Nat) (x : Port)

@[simp] theorem State.setCopper_pending : (s.setCopper k x).pending = s.pending := rfl
@[simp] theorem State.setCopper_now : (s.setCopper k x).now = s.now := rfl
@[simp] theorem State.setCopper_time : (s.setCopper k x).time = s.time := rfl
@[simp] theorem State.setCopper_draws : (s.setCopper k x).draws = s.draws := rfl
@[simp] theorem State.setCopper_reply : (s.setCopper k x).reply = s.reply := rfl
@[simp] theorem State.setCopper_out : (s.setCopper k x).out = s.out := rfl
@[simp] theorem State.setCopper_regs : (s.setCopper k x).regs = s.regs := rfl
@[simp] theorem State.setCopper_staged : (s.setCopper k x).staged = s.staged := rfl
@[simp] theorem State.setCopper_rlatch : (s.setCopper k x).rlatch = s.rlatch := rfl
@[simp] theorem State.setCopper_wlatch : (s.setCopper k x).wlatch = s.wlatch := rfl
@[simp] theorem State.setCopper_nb : (s.setCopper k x).nb = s.nb := rfl
@[simp] theorem State.setCopper_fns : (s.setCopper k x).fns = s.fns := rfl
@[simp] theorem State.setCopper_itin : (s.setCopper k x).itin = s.itin := rfl
@[simp] theorem State.setCopper_lead : (s.setCopper k x).lead = s.lead := rfl
@[simp] theorem State.setCopper_parties : (s.setCopper k x).parties = s.parties := rfl
@[simp] theorem State.setCopper_queues : (s.setCopper k x).queues = s.queues := rfl
@[simp] theorem State.setCopper_tallies : (s.setCopper k x).tallies = s.tallies := rfl
@[simp] theorem State.setCopper_mem : (s.setCopper k x).mem = s.mem := rfl
@[simp] theorem State.setCopper_poison : (s.setCopper k x).poison = s.poison := rfl
@[simp] theorem State.setCopper_badLine : (s.setCopper k x).badLine = s.badLine := rfl
@[simp] theorem State.setCopper_cache : (s.setCopper k x).cache = s.cache := rfl
@[simp] theorem State.setCopper_channels : (s.setCopper k x).channels = s.channels := rfl
@[simp] theorem State.setCopper_tiles : (s.setCopper k x).tiles = s.tiles := rfl
@[simp] theorem State.setCopper_engines : (s.setCopper k x).engines = s.engines := rfl
@[simp] theorem State.setCopper_banks : (s.setCopper k x).banks = s.banks := rfl
@[simp] theorem State.setCopper_drains : (s.setCopper k x).drains = s.drains := rfl
@[simp] theorem State.setCopper_movers : (s.setCopper k x).movers = s.movers := rfl
@[simp] theorem State.setCopper_panel : (s.setCopper k x).panel = s.panel := rfl
@[simp] theorem State.setCopper_fabric : (s.setCopper k x).fabric = s.fabric := rfl
@[simp] theorem State.setCopper_colls : (s.setCopper k x).colls = s.colls := rfl
@[simp] theorem State.setCopper_rc : (s.setCopper k x).rc = s.rc := rfl
@[simp] theorem State.setCopper_lanterns : (s.setCopper k x).lanterns = s.lanterns := rfl
@[simp] theorem State.setCopper_hosts : (s.setCopper k x).hosts = s.hosts := rfl
@[simp] theorem State.setCopper_mgmt : (s.setCopper k x).mgmt = s.mgmt := rfl
@[simp] theorem State.setCopper_rk : (s.setCopper k x).rk = s.rk := rfl
@[simp] theorem State.setCopper_staging : (s.setCopper k x).staging = s.staging := rfl
@[simp] theorem State.setCopper_mirrors : (s.setCopper k x).mirrors = s.mirrors := rfl
@[simp] theorem State.setCopper_weather : (s.setCopper k x).weather = s.weather := rfl
@[simp] theorem State.setCopper_safe : (s.setCopper k x).safe = s.safe := rfl
@[simp] theorem State.setCopper_sec : (s.setCopper k x).sec = s.sec := rfl
@[simp] theorem State.setCopper_power : (s.setCopper k x).power = s.power := rfl
@[simp] theorem State.setCopper_taps : (s.setCopper k x).taps = s.taps := rfl

end

section

variable (t : Nat) (x : CollEngine)

@[simp] theorem State.setColl_pending : (s.setColl t x).pending = s.pending := rfl
@[simp] theorem State.setColl_now : (s.setColl t x).now = s.now := rfl
@[simp] theorem State.setColl_time : (s.setColl t x).time = s.time := rfl
@[simp] theorem State.setColl_draws : (s.setColl t x).draws = s.draws := rfl
@[simp] theorem State.setColl_reply : (s.setColl t x).reply = s.reply := rfl
@[simp] theorem State.setColl_out : (s.setColl t x).out = s.out := rfl
@[simp] theorem State.setColl_regs : (s.setColl t x).regs = s.regs := rfl
@[simp] theorem State.setColl_staged : (s.setColl t x).staged = s.staged := rfl
@[simp] theorem State.setColl_rlatch : (s.setColl t x).rlatch = s.rlatch := rfl
@[simp] theorem State.setColl_wlatch : (s.setColl t x).wlatch = s.wlatch := rfl
@[simp] theorem State.setColl_nb : (s.setColl t x).nb = s.nb := rfl
@[simp] theorem State.setColl_fns : (s.setColl t x).fns = s.fns := rfl
@[simp] theorem State.setColl_itin : (s.setColl t x).itin = s.itin := rfl
@[simp] theorem State.setColl_lead : (s.setColl t x).lead = s.lead := rfl
@[simp] theorem State.setColl_parties : (s.setColl t x).parties = s.parties := rfl
@[simp] theorem State.setColl_queues : (s.setColl t x).queues = s.queues := rfl
@[simp] theorem State.setColl_tallies : (s.setColl t x).tallies = s.tallies := rfl
@[simp] theorem State.setColl_mem : (s.setColl t x).mem = s.mem := rfl
@[simp] theorem State.setColl_poison : (s.setColl t x).poison = s.poison := rfl
@[simp] theorem State.setColl_badLine : (s.setColl t x).badLine = s.badLine := rfl
@[simp] theorem State.setColl_cache : (s.setColl t x).cache = s.cache := rfl
@[simp] theorem State.setColl_channels : (s.setColl t x).channels = s.channels := rfl
@[simp] theorem State.setColl_tiles : (s.setColl t x).tiles = s.tiles := rfl
@[simp] theorem State.setColl_engines : (s.setColl t x).engines = s.engines := rfl
@[simp] theorem State.setColl_banks : (s.setColl t x).banks = s.banks := rfl
@[simp] theorem State.setColl_drains : (s.setColl t x).drains = s.drains := rfl
@[simp] theorem State.setColl_movers : (s.setColl t x).movers = s.movers := rfl
@[simp] theorem State.setColl_panel : (s.setColl t x).panel = s.panel := rfl
@[simp] theorem State.setColl_fabric : (s.setColl t x).fabric = s.fabric := rfl
@[simp] theorem State.setColl_rc : (s.setColl t x).rc = s.rc := rfl
@[simp] theorem State.setColl_lanterns : (s.setColl t x).lanterns = s.lanterns := rfl
@[simp] theorem State.setColl_copper : (s.setColl t x).copper = s.copper := rfl
@[simp] theorem State.setColl_hosts : (s.setColl t x).hosts = s.hosts := rfl
@[simp] theorem State.setColl_mgmt : (s.setColl t x).mgmt = s.mgmt := rfl
@[simp] theorem State.setColl_rk : (s.setColl t x).rk = s.rk := rfl
@[simp] theorem State.setColl_staging : (s.setColl t x).staging = s.staging := rfl
@[simp] theorem State.setColl_mirrors : (s.setColl t x).mirrors = s.mirrors := rfl
@[simp] theorem State.setColl_weather : (s.setColl t x).weather = s.weather := rfl
@[simp] theorem State.setColl_safe : (s.setColl t x).safe = s.safe := rfl
@[simp] theorem State.setColl_sec : (s.setColl t x).sec = s.sec := rfl
@[simp] theorem State.setColl_power : (s.setColl t x).power = s.power := rfl
@[simp] theorem State.setColl_taps : (s.setColl t x).taps = s.taps := rfl

end

section

variable (i : Nat) (x : Mirror)

@[simp] theorem State.setMirror_pending : (s.setMirror i x).pending = s.pending := rfl
@[simp] theorem State.setMirror_now : (s.setMirror i x).now = s.now := rfl
@[simp] theorem State.setMirror_time : (s.setMirror i x).time = s.time := rfl
@[simp] theorem State.setMirror_draws : (s.setMirror i x).draws = s.draws := rfl
@[simp] theorem State.setMirror_reply : (s.setMirror i x).reply = s.reply := rfl
@[simp] theorem State.setMirror_out : (s.setMirror i x).out = s.out := rfl
@[simp] theorem State.setMirror_regs : (s.setMirror i x).regs = s.regs := rfl
@[simp] theorem State.setMirror_staged : (s.setMirror i x).staged = s.staged := rfl
@[simp] theorem State.setMirror_rlatch : (s.setMirror i x).rlatch = s.rlatch := rfl
@[simp] theorem State.setMirror_wlatch : (s.setMirror i x).wlatch = s.wlatch := rfl
@[simp] theorem State.setMirror_nb : (s.setMirror i x).nb = s.nb := rfl
@[simp] theorem State.setMirror_fns : (s.setMirror i x).fns = s.fns := rfl
@[simp] theorem State.setMirror_itin : (s.setMirror i x).itin = s.itin := rfl
@[simp] theorem State.setMirror_lead : (s.setMirror i x).lead = s.lead := rfl
@[simp] theorem State.setMirror_parties : (s.setMirror i x).parties = s.parties := rfl
@[simp] theorem State.setMirror_queues : (s.setMirror i x).queues = s.queues := rfl
@[simp] theorem State.setMirror_tallies : (s.setMirror i x).tallies = s.tallies := rfl
@[simp] theorem State.setMirror_mem : (s.setMirror i x).mem = s.mem := rfl
@[simp] theorem State.setMirror_poison : (s.setMirror i x).poison = s.poison := rfl
@[simp] theorem State.setMirror_badLine : (s.setMirror i x).badLine = s.badLine := rfl
@[simp] theorem State.setMirror_cache : (s.setMirror i x).cache = s.cache := rfl
@[simp] theorem State.setMirror_channels : (s.setMirror i x).channels = s.channels := rfl
@[simp] theorem State.setMirror_tiles : (s.setMirror i x).tiles = s.tiles := rfl
@[simp] theorem State.setMirror_engines : (s.setMirror i x).engines = s.engines := rfl
@[simp] theorem State.setMirror_banks : (s.setMirror i x).banks = s.banks := rfl
@[simp] theorem State.setMirror_drains : (s.setMirror i x).drains = s.drains := rfl
@[simp] theorem State.setMirror_movers : (s.setMirror i x).movers = s.movers := rfl
@[simp] theorem State.setMirror_panel : (s.setMirror i x).panel = s.panel := rfl
@[simp] theorem State.setMirror_fabric : (s.setMirror i x).fabric = s.fabric := rfl
@[simp] theorem State.setMirror_colls : (s.setMirror i x).colls = s.colls := rfl
@[simp] theorem State.setMirror_rc : (s.setMirror i x).rc = s.rc := rfl
@[simp] theorem State.setMirror_lanterns : (s.setMirror i x).lanterns = s.lanterns := rfl
@[simp] theorem State.setMirror_copper : (s.setMirror i x).copper = s.copper := rfl
@[simp] theorem State.setMirror_hosts : (s.setMirror i x).hosts = s.hosts := rfl
@[simp] theorem State.setMirror_mgmt : (s.setMirror i x).mgmt = s.mgmt := rfl
@[simp] theorem State.setMirror_rk : (s.setMirror i x).rk = s.rk := rfl
@[simp] theorem State.setMirror_staging : (s.setMirror i x).staging = s.staging := rfl
@[simp] theorem State.setMirror_weather : (s.setMirror i x).weather = s.weather := rfl
@[simp] theorem State.setMirror_safe : (s.setMirror i x).safe = s.safe := rfl
@[simp] theorem State.setMirror_sec : (s.setMirror i x).sec = s.sec := rfl
@[simp] theorem State.setMirror_power : (s.setMirror i x).power = s.power := rfl
@[simp] theorem State.setMirror_taps : (s.setMirror i x).taps = s.taps := rfl

end

section

variable (a : Nat) (b : Byte)

@[simp] theorem State.setByte_pending : (s.setByte a b).pending = s.pending := rfl
@[simp] theorem State.setByte_now : (s.setByte a b).now = s.now := rfl
@[simp] theorem State.setByte_time : (s.setByte a b).time = s.time := rfl
@[simp] theorem State.setByte_draws : (s.setByte a b).draws = s.draws := rfl
@[simp] theorem State.setByte_reply : (s.setByte a b).reply = s.reply := rfl
@[simp] theorem State.setByte_out : (s.setByte a b).out = s.out := rfl
@[simp] theorem State.setByte_regs : (s.setByte a b).regs = s.regs := rfl
@[simp] theorem State.setByte_staged : (s.setByte a b).staged = s.staged := rfl
@[simp] theorem State.setByte_rlatch : (s.setByte a b).rlatch = s.rlatch := rfl
@[simp] theorem State.setByte_wlatch : (s.setByte a b).wlatch = s.wlatch := rfl
@[simp] theorem State.setByte_nb : (s.setByte a b).nb = s.nb := rfl
@[simp] theorem State.setByte_fns : (s.setByte a b).fns = s.fns := rfl
@[simp] theorem State.setByte_itin : (s.setByte a b).itin = s.itin := rfl
@[simp] theorem State.setByte_lead : (s.setByte a b).lead = s.lead := rfl
@[simp] theorem State.setByte_parties : (s.setByte a b).parties = s.parties := rfl
@[simp] theorem State.setByte_queues : (s.setByte a b).queues = s.queues := rfl
@[simp] theorem State.setByte_tallies : (s.setByte a b).tallies = s.tallies := rfl
@[simp] theorem State.setByte_poison : (s.setByte a b).poison = s.poison := rfl
@[simp] theorem State.setByte_badLine : (s.setByte a b).badLine = s.badLine := rfl
@[simp] theorem State.setByte_cache : (s.setByte a b).cache = s.cache := rfl
@[simp] theorem State.setByte_channels : (s.setByte a b).channels = s.channels := rfl
@[simp] theorem State.setByte_tiles : (s.setByte a b).tiles = s.tiles := rfl
@[simp] theorem State.setByte_engines : (s.setByte a b).engines = s.engines := rfl
@[simp] theorem State.setByte_banks : (s.setByte a b).banks = s.banks := rfl
@[simp] theorem State.setByte_drains : (s.setByte a b).drains = s.drains := rfl
@[simp] theorem State.setByte_movers : (s.setByte a b).movers = s.movers := rfl
@[simp] theorem State.setByte_panel : (s.setByte a b).panel = s.panel := rfl
@[simp] theorem State.setByte_fabric : (s.setByte a b).fabric = s.fabric := rfl
@[simp] theorem State.setByte_colls : (s.setByte a b).colls = s.colls := rfl
@[simp] theorem State.setByte_rc : (s.setByte a b).rc = s.rc := rfl
@[simp] theorem State.setByte_lanterns : (s.setByte a b).lanterns = s.lanterns := rfl
@[simp] theorem State.setByte_copper : (s.setByte a b).copper = s.copper := rfl
@[simp] theorem State.setByte_hosts : (s.setByte a b).hosts = s.hosts := rfl
@[simp] theorem State.setByte_mgmt : (s.setByte a b).mgmt = s.mgmt := rfl
@[simp] theorem State.setByte_rk : (s.setByte a b).rk = s.rk := rfl
@[simp] theorem State.setByte_staging : (s.setByte a b).staging = s.staging := rfl
@[simp] theorem State.setByte_mirrors : (s.setByte a b).mirrors = s.mirrors := rfl
@[simp] theorem State.setByte_weather : (s.setByte a b).weather = s.weather := rfl
@[simp] theorem State.setByte_safe : (s.setByte a b).safe = s.safe := rfl
@[simp] theorem State.setByte_sec : (s.setByte a b).sec = s.sec := rfl
@[simp] theorem State.setByte_power : (s.setByte a b).power = s.power := rfl
@[simp] theorem State.setByte_taps : (s.setByte a b).taps = s.taps := rfl

end

section

variable (a : Nat) (l : Line)

@[simp] theorem State.setLine_pending : (s.setLine a l).pending = s.pending := rfl
@[simp] theorem State.setLine_now : (s.setLine a l).now = s.now := rfl
@[simp] theorem State.setLine_time : (s.setLine a l).time = s.time := rfl
@[simp] theorem State.setLine_draws : (s.setLine a l).draws = s.draws := rfl
@[simp] theorem State.setLine_reply : (s.setLine a l).reply = s.reply := rfl
@[simp] theorem State.setLine_out : (s.setLine a l).out = s.out := rfl
@[simp] theorem State.setLine_regs : (s.setLine a l).regs = s.regs := rfl
@[simp] theorem State.setLine_staged : (s.setLine a l).staged = s.staged := rfl
@[simp] theorem State.setLine_rlatch : (s.setLine a l).rlatch = s.rlatch := rfl
@[simp] theorem State.setLine_wlatch : (s.setLine a l).wlatch = s.wlatch := rfl
@[simp] theorem State.setLine_nb : (s.setLine a l).nb = s.nb := rfl
@[simp] theorem State.setLine_fns : (s.setLine a l).fns = s.fns := rfl
@[simp] theorem State.setLine_itin : (s.setLine a l).itin = s.itin := rfl
@[simp] theorem State.setLine_lead : (s.setLine a l).lead = s.lead := rfl
@[simp] theorem State.setLine_parties : (s.setLine a l).parties = s.parties := rfl
@[simp] theorem State.setLine_queues : (s.setLine a l).queues = s.queues := rfl
@[simp] theorem State.setLine_tallies : (s.setLine a l).tallies = s.tallies := rfl
@[simp] theorem State.setLine_poison : (s.setLine a l).poison = s.poison := rfl
@[simp] theorem State.setLine_badLine : (s.setLine a l).badLine = s.badLine := rfl
@[simp] theorem State.setLine_cache : (s.setLine a l).cache = s.cache := rfl
@[simp] theorem State.setLine_channels : (s.setLine a l).channels = s.channels := rfl
@[simp] theorem State.setLine_tiles : (s.setLine a l).tiles = s.tiles := rfl
@[simp] theorem State.setLine_engines : (s.setLine a l).engines = s.engines := rfl
@[simp] theorem State.setLine_banks : (s.setLine a l).banks = s.banks := rfl
@[simp] theorem State.setLine_drains : (s.setLine a l).drains = s.drains := rfl
@[simp] theorem State.setLine_movers : (s.setLine a l).movers = s.movers := rfl
@[simp] theorem State.setLine_panel : (s.setLine a l).panel = s.panel := rfl
@[simp] theorem State.setLine_fabric : (s.setLine a l).fabric = s.fabric := rfl
@[simp] theorem State.setLine_colls : (s.setLine a l).colls = s.colls := rfl
@[simp] theorem State.setLine_rc : (s.setLine a l).rc = s.rc := rfl
@[simp] theorem State.setLine_lanterns : (s.setLine a l).lanterns = s.lanterns := rfl
@[simp] theorem State.setLine_copper : (s.setLine a l).copper = s.copper := rfl
@[simp] theorem State.setLine_hosts : (s.setLine a l).hosts = s.hosts := rfl
@[simp] theorem State.setLine_mgmt : (s.setLine a l).mgmt = s.mgmt := rfl
@[simp] theorem State.setLine_rk : (s.setLine a l).rk = s.rk := rfl
@[simp] theorem State.setLine_staging : (s.setLine a l).staging = s.staging := rfl
@[simp] theorem State.setLine_mirrors : (s.setLine a l).mirrors = s.mirrors := rfl
@[simp] theorem State.setLine_weather : (s.setLine a l).weather = s.weather := rfl
@[simp] theorem State.setLine_safe : (s.setLine a l).safe = s.safe := rfl
@[simp] theorem State.setLine_sec : (s.setLine a l).sec = s.sec := rfl
@[simp] theorem State.setLine_power : (s.setLine a l).power = s.power := rfl
@[simp] theorem State.setLine_taps : (s.setLine a l).taps = s.taps := rfl

end

section

variable (st : Status) (ws : List Word)

@[simp] theorem answer_pending : (answer s st ws).pending = s.pending := rfl
@[simp] theorem answer_now : (answer s st ws).now = s.now := rfl
@[simp] theorem answer_time : (answer s st ws).time = s.time := rfl
@[simp] theorem answer_draws : (answer s st ws).draws = s.draws := rfl
@[simp] theorem answer_out : (answer s st ws).out = s.out := rfl
@[simp] theorem answer_regs : (answer s st ws).regs = s.regs := rfl
@[simp] theorem answer_staged : (answer s st ws).staged = s.staged := rfl
@[simp] theorem answer_rlatch : (answer s st ws).rlatch = s.rlatch := rfl
@[simp] theorem answer_wlatch : (answer s st ws).wlatch = s.wlatch := rfl
@[simp] theorem answer_nb : (answer s st ws).nb = s.nb := rfl
@[simp] theorem answer_fns : (answer s st ws).fns = s.fns := rfl
@[simp] theorem answer_itin : (answer s st ws).itin = s.itin := rfl
@[simp] theorem answer_lead : (answer s st ws).lead = s.lead := rfl
@[simp] theorem answer_parties : (answer s st ws).parties = s.parties := rfl
@[simp] theorem answer_queues : (answer s st ws).queues = s.queues := rfl
@[simp] theorem answer_tallies : (answer s st ws).tallies = s.tallies := rfl
@[simp] theorem answer_mem : (answer s st ws).mem = s.mem := rfl
@[simp] theorem answer_poison : (answer s st ws).poison = s.poison := rfl
@[simp] theorem answer_badLine : (answer s st ws).badLine = s.badLine := rfl
@[simp] theorem answer_cache : (answer s st ws).cache = s.cache := rfl
@[simp] theorem answer_channels : (answer s st ws).channels = s.channels := rfl
@[simp] theorem answer_tiles : (answer s st ws).tiles = s.tiles := rfl
@[simp] theorem answer_engines : (answer s st ws).engines = s.engines := rfl
@[simp] theorem answer_banks : (answer s st ws).banks = s.banks := rfl
@[simp] theorem answer_drains : (answer s st ws).drains = s.drains := rfl
@[simp] theorem answer_movers : (answer s st ws).movers = s.movers := rfl
@[simp] theorem answer_panel : (answer s st ws).panel = s.panel := rfl
@[simp] theorem answer_fabric : (answer s st ws).fabric = s.fabric := rfl
@[simp] theorem answer_colls : (answer s st ws).colls = s.colls := rfl
@[simp] theorem answer_rc : (answer s st ws).rc = s.rc := rfl
@[simp] theorem answer_lanterns : (answer s st ws).lanterns = s.lanterns := rfl
@[simp] theorem answer_copper : (answer s st ws).copper = s.copper := rfl
@[simp] theorem answer_hosts : (answer s st ws).hosts = s.hosts := rfl
@[simp] theorem answer_mgmt : (answer s st ws).mgmt = s.mgmt := rfl
@[simp] theorem answer_rk : (answer s st ws).rk = s.rk := rfl
@[simp] theorem answer_staging : (answer s st ws).staging = s.staging := rfl
@[simp] theorem answer_mirrors : (answer s st ws).mirrors = s.mirrors := rfl
@[simp] theorem answer_weather : (answer s st ws).weather = s.weather := rfl
@[simp] theorem answer_safe : (answer s st ws).safe = s.safe := rfl
@[simp] theorem answer_sec : (answer s st ws).sec = s.sec := rfl
@[simp] theorem answer_power : (answer s st ws).power = s.power := rfl
@[simp] theorem answer_taps : (answer s st ws).taps = s.taps := rfl
@[simp] theorem answer_reply : (answer s st ws).reply = { status := st, words := ws } := rfl

end

section

variable (t : Nat)

@[simp] theorem State.passTo_pending : (s.passTo t).pending = s.pending := rfl
@[simp] theorem State.passTo_draws : (s.passTo t).draws = s.draws := rfl
@[simp] theorem State.passTo_reply : (s.passTo t).reply = s.reply := rfl
@[simp] theorem State.passTo_out : (s.passTo t).out = s.out := rfl
@[simp] theorem State.passTo_regs : (s.passTo t).regs = s.regs := rfl
@[simp] theorem State.passTo_staged : (s.passTo t).staged = s.staged := rfl
@[simp] theorem State.passTo_rlatch : (s.passTo t).rlatch = s.rlatch := rfl
@[simp] theorem State.passTo_wlatch : (s.passTo t).wlatch = s.wlatch := rfl
@[simp] theorem State.passTo_nb : (s.passTo t).nb = s.nb := rfl
@[simp] theorem State.passTo_fns : (s.passTo t).fns = s.fns := rfl
@[simp] theorem State.passTo_itin : (s.passTo t).itin = s.itin := rfl
@[simp] theorem State.passTo_lead : (s.passTo t).lead = s.lead := rfl
@[simp] theorem State.passTo_parties : (s.passTo t).parties = s.parties := rfl
@[simp] theorem State.passTo_queues : (s.passTo t).queues = s.queues := rfl
@[simp] theorem State.passTo_tallies : (s.passTo t).tallies = s.tallies := rfl
@[simp] theorem State.passTo_mem : (s.passTo t).mem = s.mem := rfl
@[simp] theorem State.passTo_poison : (s.passTo t).poison = s.poison := rfl
@[simp] theorem State.passTo_badLine : (s.passTo t).badLine = s.badLine := rfl
@[simp] theorem State.passTo_cache : (s.passTo t).cache = s.cache := rfl
@[simp] theorem State.passTo_channels : (s.passTo t).channels = s.channels := rfl
@[simp] theorem State.passTo_tiles : (s.passTo t).tiles = s.tiles := rfl
@[simp] theorem State.passTo_engines : (s.passTo t).engines = s.engines := rfl
@[simp] theorem State.passTo_banks : (s.passTo t).banks = s.banks := rfl
@[simp] theorem State.passTo_drains : (s.passTo t).drains = s.drains := rfl
@[simp] theorem State.passTo_movers : (s.passTo t).movers = s.movers := rfl
@[simp] theorem State.passTo_panel : (s.passTo t).panel = s.panel := rfl
@[simp] theorem State.passTo_fabric : (s.passTo t).fabric = s.fabric := rfl
@[simp] theorem State.passTo_colls : (s.passTo t).colls = s.colls := rfl
@[simp] theorem State.passTo_lanterns : (s.passTo t).lanterns = s.lanterns := rfl
@[simp] theorem State.passTo_copper : (s.passTo t).copper = s.copper := rfl
@[simp] theorem State.passTo_hosts : (s.passTo t).hosts = s.hosts := rfl
@[simp] theorem State.passTo_mgmt : (s.passTo t).mgmt = s.mgmt := rfl
@[simp] theorem State.passTo_rk : (s.passTo t).rk = s.rk := rfl
@[simp] theorem State.passTo_staging : (s.passTo t).staging = s.staging := rfl
@[simp] theorem State.passTo_mirrors : (s.passTo t).mirrors = s.mirrors := rfl
@[simp] theorem State.passTo_weather : (s.passTo t).weather = s.weather := rfl
@[simp] theorem State.passTo_safe : (s.passTo t).safe = s.safe := rfl
@[simp] theorem State.passTo_sec : (s.passTo t).sec = s.sec := rfl
@[simp] theorem State.passTo_power : (s.passTo t).power = s.power := rfl
@[simp] theorem State.passTo_taps : (s.passTo t).taps = s.taps := rfl
theorem State.passTo_now : (s.passTo t).now = max s.now t := rfl

end

/-! ### A read after an update -/

theorem State.reg_setReg (a b : Nat) (w : Word) : (s.setReg a w).reg b = if a = b then w else s.reg b := by
  unfold State.reg State.setReg
  dsimp only
  rw [mget_mset]
  by_cases e : a = b
  · subst e
    cases nextRefresh s a with
    | some d => simp
    | none => by_cases h : w = regReset a <;> simp [h]
  · simp [e]

@[simp] theorem State.reg_setReg_self (a : Nat) (w : Word) : (s.setReg a w).reg a = w := by
  rw [State.reg_setReg]; simp

theorem State.reg_setReg_other {a b : Nat} (w : Word) (h : a ≠ b) : (s.setReg a w).reg b = s.reg b := by
  rw [State.reg_setReg]; simp [h]

theorem State.tile_setTile (t j : Nat) (x : Tile) : (s.setTile t x).tile j = if t = j then x else s.tile j :=
  mget_mset ..
@[simp] theorem State.tile_setTile_self (t : Nat) (x : Tile) : (s.setTile t x).tile t = x := mget_mset_self ..
theorem State.tile_setTile_other {t j : Nat} (x : Tile) (h : t ≠ j) : (s.setTile t x).tile j = s.tile j :=
  mget_mset_other _ _ _ h

theorem State.queue_setQueue (g j : Nat) (x : Queue) : (s.setQueue g x).queue j = if g = j then x else s.queue j :=
  mget_mset ..
@[simp] theorem State.queue_setQueue_self (g : Nat) (x : Queue) : (s.setQueue g x).queue g = x := mget_mset_self ..
theorem State.queue_setQueue_other {g j : Nat} (x : Queue) (h : g ≠ j) : (s.setQueue g x).queue j = s.queue j :=
  mget_mset_other _ _ _ h

theorem State.engine_setEngine (i j : Nat) (x : Engine) : (s.setEngine i x).engine j = if i = j then x else s.engine j :=
  mget_mset ..
@[simp] theorem State.engine_setEngine_self (i : Nat) (x : Engine) : (s.setEngine i x).engine i = x := mget_mset_self ..
theorem State.engine_setEngine_other {i j : Nat} (x : Engine) (h : i ≠ j) : (s.setEngine i x).engine j = s.engine j :=
  mget_mset_other _ _ _ h

theorem State.bank_setBank (i j : Nat) (x : Bank) : (s.setBank i x).bank j = if i = j then x else s.bank j :=
  mget_mset ..
@[simp] theorem State.bank_setBank_self (i : Nat) (x : Bank) : (s.setBank i x).bank i = x := mget_mset_self ..
theorem State.bank_setBank_other {i j : Nat} (x : Bank) (h : i ≠ j) : (s.setBank i x).bank j = s.bank j :=
  mget_mset_other _ _ _ h

theorem State.drain_setDrain (i j : Nat) (x : DrainUnit) : (s.setDrain i x).drain j = if i = j then x else s.drain j :=
  mget_mset ..
@[simp] theorem State.drain_setDrain_self (i : Nat) (x : DrainUnit) : (s.setDrain i x).drain i = x := mget_mset_self ..
theorem State.drain_setDrain_other {i j : Nat} (x : DrainUnit) (h : i ≠ j) : (s.setDrain i x).drain j = s.drain j :=
  mget_mset_other _ _ _ h

theorem State.mover_setMover (i j : Nat) (x : Option MoveJob) : (s.setMover i x).mover j = if i = j then x else s.mover j :=
  mget_mset ..
@[simp] theorem State.mover_setMover_self (i : Nat) (x : Option MoveJob) : (s.setMover i x).mover i = x := mget_mset_self ..
theorem State.mover_setMover_other {i j : Nat} (x : Option MoveJob) (h : i ≠ j) : (s.setMover i x).mover j = s.mover j :=
  mget_mset_other _ _ _ h

theorem State.channel_setChannel (i j : Nat) (x : Channel) : (s.setChannel i x).channel j = if i = j then x else s.channel j :=
  mget_mset ..
@[simp] theorem State.channel_setChannel_self (i : Nat) (x : Channel) : (s.setChannel i x).channel i = x := mget_mset_self ..
theorem State.channel_setChannel_other {i j : Nat} (x : Channel) (h : i ≠ j) : (s.setChannel i x).channel j = s.channel j :=
  mget_mset_other _ _ _ h

theorem State.ring_setRing (r j : Nat) (x : Ring) : (s.setRing r x).ring j = if r = j then x else s.ring j :=
  mget_mset ..
@[simp] theorem State.ring_setRing_self (r : Nat) (x : Ring) : (s.setRing r x).ring r = x := mget_mset_self ..
theorem State.ring_setRing_other {r j : Nat} (x : Ring) (h : r ≠ j) : (s.setRing r x).ring j = s.ring j :=
  mget_mset_other _ _ _ h

theorem State.party_setParty (p j : Nat) (x : Party) : (s.setParty p x).party j = if p = j then x else s.party j :=
  mget_mset ..
@[simp] theorem State.party_setParty_self (p : Nat) (x : Party) : (s.setParty p x).party p = x := mget_mset_self ..
theorem State.party_setParty_other {p j : Nat} (x : Party) (h : p ≠ j) : (s.setParty p x).party j = s.party j :=
  mget_mset_other _ _ _ h

theorem State.guest_setGuest (n j : Nat) (x : Guest) : (s.setGuest n x).guest j = if n = j then x else s.guest j :=
  mget_mset ..
@[simp] theorem State.guest_setGuest_self (n : Nat) (x : Guest) : (s.setGuest n x).guest n = x := mget_mset_self ..
theorem State.guest_setGuest_other {n j : Nat} (x : Guest) (h : n ≠ j) : (s.setGuest n x).guest j = s.guest j :=
  mget_mset_other _ _ _ h

theorem State.lantern_setLantern (n j : Nat) (x : Lantern) : (s.setLantern n x).lantern j = if n = j then x else s.lantern j :=
  mget_mset ..
@[simp] theorem State.lantern_setLantern_self (n : Nat) (x : Lantern) : (s.setLantern n x).lantern n = x := mget_mset_self ..
theorem State.lantern_setLantern_other {n j : Nat} (x : Lantern) (h : n ≠ j) : (s.setLantern n x).lantern j = s.lantern j :=
  mget_mset_other _ _ _ h

theorem State.copperPort_setCopper (k j : Nat) (x : Port) : (s.setCopper k x).copperPort j = if k = j then x else s.copperPort j :=
  mget_mset ..
@[simp] theorem State.copperPort_setCopper_self (k : Nat) (x : Port) : (s.setCopper k x).copperPort k = x := mget_mset_self ..
theorem State.copperPort_setCopper_other {k j : Nat} (x : Port) (h : k ≠ j) : (s.setCopper k x).copperPort j = s.copperPort j :=
  mget_mset_other _ _ _ h

theorem State.coll_setColl (t j : Nat) (x : CollEngine) : (s.setColl t x).coll j = if t = j then x else s.coll j :=
  mget_mset ..
@[simp] theorem State.coll_setColl_self (t : Nat) (x : CollEngine) : (s.setColl t x).coll t = x := mget_mset_self ..
theorem State.coll_setColl_other {t j : Nat} (x : CollEngine) (h : t ≠ j) : (s.setColl t x).coll j = s.coll j :=
  mget_mset_other _ _ _ h

theorem State.mirror_setMirror (i j : Nat) (x : Mirror) : (s.setMirror i x).mirror j = if i = j then x else s.mirror j :=
  mget_mset ..
@[simp] theorem State.mirror_setMirror_self (i : Nat) (x : Mirror) : (s.setMirror i x).mirror i = x := mget_mset_self ..
theorem State.mirror_setMirror_other {i j : Nat} (x : Mirror) (h : i ≠ j) : (s.setMirror i x).mirror j = s.mirror j :=
  mget_mset_other _ _ _ h

theorem State.tally_setTally (k j v : Nat) : (s.setTally k v).tally j = if k = j then v % 2 ^ 31 else s.tally j :=
  mget_mset ..
@[simp] theorem State.strand_setStrand_self (l : Strand) (x : StrandState) : (s.setStrand l x).strand l = x :=
  mget_mset_self ..
@[simp] theorem State.link_setLink_self (l : ModLink) (x : LinkState) : (s.setLink l x).link l = x := mget_mset_self ..
@[simp] theorem State.fn_setFn_self (f : Fn) (x : FnState) : (s.setFn f x).fn f = x := mget_mset_self ..
@[simp] theorem State.host_setHost_self (f : Fn) (x : HostFn) : (s.setHost f x).host f = x := mget_mset_self ..
@[simp] theorem State.port_setPort_self (n p : Nat) (x : Port) : (s.setPort n p x).port n p = x := by
  simp [State.port, State.setPort]
@[simp] theorem State.bundle_setBundle_self (n m : Nat) (x : Bundle) : (s.setBundle n m x).bundle n m = x := by
  simp [State.bundle, State.setBundle]
@[simp] theorem State.byte_setByte_self (a : Nat) (b : Byte) : (s.setByte a b).byte a = b := mget_mset_self ..
theorem State.byte_setByte_other {a c : Nat} (b : Byte) (h : a ≠ c) : (s.setByte a b).byte c = s.byte c :=
  mget_mset_other _ _ _ h
/-- A line written reads back. -/
@[simp] theorem State.line_setLine_self (a : Nat) (l : Line) : (s.setLine a l).line a = l := by
  unfold State.line State.setLine
  dsimp only
  rw [readNat_writeNat]
  apply BitVec.eq_of_toNat_eq
  have h : l.toNat < 256 ^ 64 := by
    rw [show (256 : Nat) = 2 ^ 8 from rfl, ← Nat.pow_mul]
    exact l.isLt
  rw [Nat.mod_eq_of_lt h, BitVec.ofNat_toNat, BitVec.setWidth_eq]
/-- A line written leaves every byte outside it. -/
theorem State.byte_setLine_other {a c : Nat} (l : Line) (h : c < a ∨ a + 64 ≤ c) : (s.setLine a l).byte c = s.byte c :=
  mget_writeNat_other _ _ _ _ h

end Sys2Proof.Machine
end

