-- ==== Sys2Proof/Laws/Access.lean ====
section
/-! SUPPORT. What a register write does when nothing refuses it. -/

namespace Sys2Proof.Machine

open Sys2Proof

/-- The parts of the gate of an owner write. -/
theorem ownerGate_parts {s : State} {p : Path} {off : Nat} (h : ownerGate s p off = true) :
    pathSilent s p = false ∧ pathClosed s p = false ∧ (∃ m, p.master = some m ∧ s.lead.leader = some m) ∧
      untrained s off = false ∧ (s.safe.active && !safeWritable off) = false ∧ s.itin.plan = none := by
  simp only [ownerGate, Bool.and_eq_true, Bool.not_eq_true', decide_eq_true_eq] at h
  obtain ⟨⟨⟨⟨⟨⟨h1, h2⟩, h3⟩, h4⟩, h5⟩, h6⟩, h7⟩ := h
  obtain ⟨m, hm⟩ := Option.isSome_iff_exists.1 h3
  refine ⟨h1, h2, ⟨m, hm, h4 ▸ hm⟩, h5, ?_, by simpa using h7⟩
  cases ha : s.safe.active <;> simp_all

/-- An owner write through an open gate does what it does and completes. -/
theorem ownerWrite_gate {s : State} {p : Path} {off : Nat} (h : ownerGate s p off = true) (d : Word)
    (f : State → State) : ownerWrite s p off d f = answer (f s) .ok := by
  obtain ⟨h1, h2, ⟨m, hm, hl⟩, h5, h6, h7⟩ := ownerGate_parts h
  simp [ownerWrite, h1, h2, hm, h5, h6, hl, h7]

/-- A leadership command through an open gate does what the table of R497 allows it. -/
theorem leaderCommand_gate {s t : State} {p : Path} {m : Fin 4} (h : leaderGate s p m = true)
    {f : Fin 4 → Option State} (hf : f m = some t) : leaderCommand s p f = answer t .ok := by
  simp only [leaderGate, Bool.and_eq_true, Bool.not_eq_true', decide_eq_true_eq] at h
  obtain ⟨⟨h1, h2⟩, h3⟩ := h
  simp [leaderCommand, h1, h2, h3, hf]

/-- A write to a ring's block through an open gate does what it does and completes. -/
theorem boardWrite_gate {s : State} {p : Path} {r o : Nat} (h : boardGate s p r o = true) (v : Word)
    (f : Access → State → State) : boardWrite s p r o v f = answer (f (boardAccess p r o) s) .ok := by
  cases r with
  | zero => exact ownerWrite_gate h v _
  | succ k =>
    cases p with
    | vf port q =>
      simp only [boardGate, Bool.and_eq_true, Bool.not_eq_true', decide_eq_true_eq] at h
      obtain ⟨⟨⟨h1, h2⟩, h3⟩, h4⟩ := h
      subst h1
      simp [boardWrite, boardAccess, h2, h3, h4]
    | pf _ => cases h
    | msg _ => cases h

/-- A service through an open gate that is allowed does what it does and completes. -/
theorem ownerService_gate {s : State} {id : Nat} {provision allowed : Bool} (h : serviceGate s id provision = true)
    (ha : allowed = true) (f : State → State) : ownerService s id provision allowed f = answer (f s) .ok := by
  unfold serviceGate at h
  unfold ownerService
  split at h
  · rename_i x hx
    simp only [Bool.and_eq_true, decide_eq_true_eq] at h
    simp [hx, h.1.1, h.1.2, h.2, ha]
  · cases h

end Sys2Proof.Machine
end

