-- ==== Sys2Proof/Laws/Only.lean ====
section
/-! SUPPORT. What an operation may change: `Only m s t` says that from `s` to `t` every field whose bit is clear in `m`
keeps its value, the clock does not run back, the state's own rules are kept, and no fuse is undone. Every operation of
the model has one lemma `<operation>_only`, which later proofs cite instead of unfolding the operation. -/

namespace Sys2Proof.Machine

open Sys2Proof

structure Only (m : Nat) (s t : State) : Prop where
  frame : ∀ f : StateField, m.testBit f.idx = false → f.same s t
  clock : s.now ≤ t.now
  inv : Inv s → Inv t
  fuses : FusesKept s.sec t.sec

/-- Every bit of `n` is a bit of `m`. -/
def Within (n m : Nat) : Prop := n &&& m = n

theorem Within.trans {a b c : Nat} (h : Within a b) (h' : Within b c) : Within a c := by
  unfold Within at *; rw [← h, Nat.and_assoc, h']

theorem Within.of {a b c : Nat} (h' : Within b c) (h : a &&& b = a) : Within a c := Within.trans h h'

theorem Within.testBit {n m : Nat} (h : Within n m) {i : Nat} (hm : m.testBit i = false) : n.testBit i = false := by
  unfold Within at h
  have := congrArg (fun x => x.testBit i) h
  simpa [Nat.testBit_and, hm] using this.symm

theorem StateField.same.refl (f : StateField) (s : State) : f.same s s := by cases f <;> rfl

theorem StateField.same.trans {f : StateField} {s t u : State} (h : f.same s t) (h' : f.same t u) : f.same s u := by
  cases f <;> exact Eq.trans h' h

theorem FusesKept.refl (a : Security) : FusesKept a a :=
  ⟨fun _ h => h, fun _ _ h => h, fun _ h => h, Nat.le_refl _, Nat.le_refl _, Nat.le_refl _⟩

theorem FusesKept.trans {a b c : Security} (h : FusesKept a b) (h' : FusesKept b c) : FusesKept a c :=
  ⟨fun x e => h'.anchor x (h.anchor x e), fun k x e => h'.keys k x (h.keys k x e),
   fun k e => h'.revoked k (h.revoked k e), Nat.le_trans h.minSm h'.minSm, Nat.le_trans h.minHb h'.minHb,
   Nat.le_trans h.minGc h'.minGc⟩

theorem FusesKept.same {a b : Security} (h1 : b.anchor = a.anchor) (h2 : b.keySlots = a.keySlots)
    (h3 : b.revoked = a.revoked) (h4 : b.minSm = a.minSm) (h5 : b.minHb = a.minHb) (h6 : b.minGc = a.minGc) :
    FusesKept a b :=
  ⟨fun _ e => h1.trans e, fun _ _ e => by rw [h2]; exact e, fun _ e => by rw [h3]; exact e, Nat.le_of_eq h4.symm,
   Nat.le_of_eq h5.symm, Nat.le_of_eq h6.symm⟩

theorem Only.refl (m : Nat) (s : State) : Only m s s :=
  ⟨fun f _ => StateField.same.refl f s, Nat.le_refl _, id, FusesKept.refl _⟩

theorem Only.trans {m : Nat} {s t u : State} (h : Only m s t) (h' : Only m t u) : Only m s u :=
  ⟨fun f e => (h.frame f e).trans (h'.frame f e), Nat.le_trans h.clock h'.clock, fun i => h'.inv (h.inv i),
   h.fuses.trans h'.fuses⟩

theorem Only.weaken {m n : Nat} {s t : State} (h : Only n s t) (hm : Within n m) : Only m s t :=
  ⟨fun f e => h.frame f (hm.testBit e), h.clock, h.inv, h.fuses⟩

/-- Prove a part, and go on with it. -/
theorem cut {p q : Prop} (a : p) (f : p → q) : q := f a

/-! ### One field written -/

theorem Only.time {m : Nat} {s t : State} {v0} (h : Only m s t) (hm : Within 4 m) :
    Only m s { t with time := v0 } := by
  refine h.trans ⟨fun f e => ?_, Nat.le_refl _, fun i => ⟨i.memory, i.tallies⟩, FusesKept.refl _⟩
  have e' := hm.testBit e
  cases f <;> first | rfl | exact absurd e' (by decide)

theorem Only.draws {m : Nat} {s t : State} {v0} (h : Only m s t) (hm : Within 8 m) :
    Only m s { t with draws := v0 } := by
  refine h.trans ⟨fun f e => ?_, Nat.le_refl _, fun i => ⟨i.memory, i.tallies⟩, FusesKept.refl _⟩
  have e' := hm.testBit e
  cases f <;> first | rfl | exact absurd e' (by decide)

theorem Only.reply {m : Nat} {s t : State} {v0} (h : Only m s t) (hm : Within 16 m) :
    Only m s { t with reply := v0 } := by
  refine h.trans ⟨fun f e => ?_, Nat.le_refl _, fun i => ⟨i.memory, i.tallies⟩, FusesKept.refl _⟩
  have e' := hm.testBit e
  cases f <;> first | rfl | exact absurd e' (by decide)

theorem Only.out {m : Nat} {s t : State} {v0} (h : Only m s t) (hm : Within 32 m) :
    Only m s { t with out := v0 } := by
  refine h.trans ⟨fun f e => ?_, Nat.le_refl _, fun i => ⟨i.memory, i.tallies⟩, FusesKept.refl _⟩
  have e' := hm.testBit e
  cases f <;> first | rfl | exact absurd e' (by decide)

theorem Only.regs {m : Nat} {s t : State} {v0} (h : Only m s t) (hm : Within 64 m) :
    Only m s { t with regs := v0 } := by
  refine h.trans ⟨fun f e => ?_, Nat.le_refl _, fun i => ⟨i.memory, i.tallies⟩, FusesKept.refl _⟩
  have e' := hm.testBit e
  cases f <;> first | rfl | exact absurd e' (by decide)

theorem Only.staged {m : Nat} {s t : State} {v0} (h : Only m s t) (hm : Within 128 m) :
    Only m s { t with staged := v0 } := by
  refine h.trans ⟨fun f e => ?_, Nat.le_refl _, fun i => ⟨i.memory, i.tallies⟩, FusesKept.refl _⟩
  have e' := hm.testBit e
  cases f <;> first | rfl | exact absurd e' (by decide)

theorem Only.rlatch {m : Nat} {s t : State} {v0} (h : Only m s t) (hm : Within 256 m) :
    Only m s { t with rlatch := v0 } := by
  refine h.trans ⟨fun f e => ?_, Nat.le_refl _, fun i => ⟨i.memory, i.tallies⟩, FusesKept.refl _⟩
  have e' := hm.testBit e
  cases f <;> first | rfl | exact absurd e' (by decide)

theorem Only.wlatch {m : Nat} {s t : State} {v0} (h : Only m s t) (hm : Within 512 m) :
    Only m s { t with wlatch := v0 } := by
  refine h.trans ⟨fun f e => ?_, Nat.le_refl _, fun i => ⟨i.memory, i.tallies⟩, FusesKept.refl _⟩
  have e' := hm.testBit e
  cases f <;> first | rfl | exact absurd e' (by decide)

theorem Only.nb {m : Nat} {s t : State} {v0} (h : Only m s t) (hm : Within 1024 m) :
    Only m s { t with nb := v0 } := by
  refine h.trans ⟨fun f e => ?_, Nat.le_refl _, fun i => ⟨i.memory, i.tallies⟩, FusesKept.refl _⟩
  have e' := hm.testBit e
  cases f <;> first | rfl | exact absurd e' (by decide)

theorem Only.fns {m : Nat} {s t : State} {v0} (h : Only m s t) (hm : Within 2048 m) :
    Only m s { t with fns := v0 } := by
  refine h.trans ⟨fun f e => ?_, Nat.le_refl _, fun i => ⟨i.memory, i.tallies⟩, FusesKept.refl _⟩
  have e' := hm.testBit e
  cases f <;> first | rfl | exact absurd e' (by decide)

theorem Only.itin {m : Nat} {s t : State} {v0} (h : Only m s t) (hm : Within 4096 m) :
    Only m s { t with itin := v0 } := by
  refine h.trans ⟨fun f e => ?_, Nat.le_refl _, fun i => ⟨i.memory, i.tallies⟩, FusesKept.refl _⟩
  have e' := hm.testBit e
  cases f <;> first | rfl | exact absurd e' (by decide)

theorem Only.lead {m : Nat} {s t : State} {v0} (h : Only m s t) (hm : Within 8192 m) :
    Only m s { t with lead := v0 } := by
  refine h.trans ⟨fun f e => ?_, Nat.le_refl _, fun i => ⟨i.memory, i.tallies⟩, FusesKept.refl _⟩
  have e' := hm.testBit e
  cases f <;> first | rfl | exact absurd e' (by decide)

theorem Only.parties {m : Nat} {s t : State} {v0} (h : Only m s t) (hm : Within 16384 m) :
    Only m s { t with parties := v0 } := by
  refine h.trans ⟨fun f e => ?_, Nat.le_refl _, fun i => ⟨i.memory, i.tallies⟩, FusesKept.refl _⟩
  have e' := hm.testBit e
  cases f <;> first | rfl | exact absurd e' (by decide)

theorem Only.queues {m : Nat} {s t : State} {v0} (h : Only m s t) (hm : Within 32768 m) :
    Only m s { t with queues := v0 } := by
  refine h.trans ⟨fun f e => ?_, Nat.le_refl _, fun i => ⟨i.memory, i.tallies⟩, FusesKept.refl _⟩
  have e' := hm.testBit e
  cases f <;> first | rfl | exact absurd e' (by decide)

theorem Only.poison {m : Nat} {s t : State} {v0} (h : Only m s t) (hm : Within 262144 m) :
    Only m s { t with poison := v0 } := by
  refine h.trans ⟨fun f e => ?_, Nat.le_refl _, fun i => ⟨i.memory, i.tallies⟩, FusesKept.refl _⟩
  have e' := hm.testBit e
  cases f <;> first | rfl | exact absurd e' (by decide)

theorem Only.badLine {m : Nat} {s t : State} {v0} (h : Only m s t) (hm : Within 524288 m) :
    Only m s { t with badLine := v0 } := by
  refine h.trans ⟨fun f e => ?_, Nat.le_refl _, fun i => ⟨i.memory, i.tallies⟩, FusesKept.refl _⟩
  have e' := hm.testBit e
  cases f <;> first | rfl | exact absurd e' (by decide)

theorem Only.cache {m : Nat} {s t : State} {v0} (h : Only m s t) (hm : Within 1048576 m) :
    Only m s { t with cache := v0 } := by
  refine h.trans ⟨fun f e => ?_, Nat.le_refl _, fun i => ⟨i.memory, i.tallies⟩, FusesKept.refl _⟩
  have e' := hm.testBit e
  cases f <;> first | rfl | exact absurd e' (by decide)

theorem Only.channels {m : Nat} {s t : State} {v0} (h : Only m s t) (hm : Within 2097152 m) :
    Only m s { t with channels := v0 } := by
  refine h.trans ⟨fun f e => ?_, Nat.le_refl _, fun i => ⟨i.memory, i.tallies⟩, FusesKept.refl _⟩
  have e' := hm.testBit e
  cases f <;> first | rfl | exact absurd e' (by decide)

theorem Only.tiles {m : Nat} {s t : State} {v0} (h : Only m s t) (hm : Within 4194304 m) :
    Only m s { t with tiles := v0 } := by
  refine h.trans ⟨fun f e => ?_, Nat.le_refl _, fun i => ⟨i.memory, i.tallies⟩, FusesKept.refl _⟩
  have e' := hm.testBit e
  cases f <;> first | rfl | exact absurd e' (by decide)

theorem Only.engines {m : Nat} {s t : State} {v0} (h : Only m s t) (hm : Within 8388608 m) :
    Only m s { t with engines := v0 } := by
  refine h.trans ⟨fun f e => ?_, Nat.le_refl _, fun i => ⟨i.memory, i.tallies⟩, FusesKept.refl _⟩
  have e' := hm.testBit e
  cases f <;> first | rfl | exact absurd e' (by decide)

theorem Only.banks {m : Nat} {s t : State} {v0} (h : Only m s t) (hm : Within 16777216 m) :
    Only m s { t with banks := v0 } := by
  refine h.trans ⟨fun f e => ?_, Nat.le_refl _, fun i => ⟨i.memory, i.tallies⟩, FusesKept.refl _⟩
  have e' := hm.testBit e
  cases f <;> first | rfl | exact absurd e' (by decide)

theorem Only.drains {m : Nat} {s t : State} {v0} (h : Only m s t) (hm : Within 33554432 m) :
    Only m s { t with drains := v0 } := by
  refine h.trans ⟨fun f e => ?_, Nat.le_refl _, fun i => ⟨i.memory, i.tallies⟩, FusesKept.refl _⟩
  have e' := hm.testBit e
  cases f <;> first | rfl | exact absurd e' (by decide)

theorem Only.movers {m : Nat} {s t : State} {v0} (h : Only m s t) (hm : Within 67108864 m) :
    Only m s { t with movers := v0 } := by
  refine h.trans ⟨fun f e => ?_, Nat.le_refl _, fun i => ⟨i.memory, i.tallies⟩, FusesKept.refl _⟩
  have e' := hm.testBit e
  cases f <;> first | rfl | exact absurd e' (by decide)

theorem Only.panel {m : Nat} {s t : State} {v0} (h : Only m s t) (hm : Within 134217728 m) :
    Only m s { t with panel := v0 } := by
  refine h.trans ⟨fun f e => ?_, Nat.le_refl _, fun i => ⟨i.memory, i.tallies⟩, FusesKept.refl _⟩
  have e' := hm.testBit e
  cases f <;> first | rfl | exact absurd e' (by decide)

theorem Only.fabric {m : Nat} {s t : State} {v0} (h : Only m s t) (hm : Within 268435456 m) :
    Only m s { t with fabric := v0 } := by
  refine h.trans ⟨fun f e => ?_, Nat.le_refl _, fun i => ⟨i.memory, i.tallies⟩, FusesKept.refl _⟩
  have e' := hm.testBit e
  cases f <;> first | rfl | exact absurd e' (by decide)

theorem Only.colls {m : Nat} {s t : State} {v0} (h : Only m s t) (hm : Within 536870912 m) :
    Only m s { t with colls := v0 } := by
  refine h.trans ⟨fun f e => ?_, Nat.le_refl _, fun i => ⟨i.memory, i.tallies⟩, FusesKept.refl _⟩
  have e' := hm.testBit e
  cases f <;> first | rfl | exact absurd e' (by decide)

theorem Only.rc {m : Nat} {s t : State} {v0} (h : Only m s t) (hm : Within 1073741824 m) :
    Only m s { t with rc := v0 } := by
  refine h.trans ⟨fun f e => ?_, Nat.le_refl _, fun i => ⟨i.memory, i.tallies⟩, FusesKept.refl _⟩
  have e' := hm.testBit e
  cases f <;> first | rfl | exact absurd e' (by decide)

theorem Only.lanterns {m : Nat} {s t : State} {v0} (h : Only m s t) (hm : Within 2147483648 m) :
    Only m s { t with lanterns := v0 } := by
  refine h.trans ⟨fun f e => ?_, Nat.le_refl _, fun i => ⟨i.memory, i.tallies⟩, FusesKept.refl _⟩
  have e' := hm.testBit e
  cases f <;> first | rfl | exact absurd e' (by decide)

theorem Only.copper {m : Nat} {s t : State} {v0} (h : Only m s t) (hm : Within 4294967296 m) :
    Only m s { t with copper := v0 } := by
  refine h.trans ⟨fun f e => ?_, Nat.le_refl _, fun i => ⟨i.memory, i.tallies⟩, FusesKept.refl _⟩
  have e' := hm.testBit e
  cases f <;> first | rfl | exact absurd e' (by decide)

theorem Only.hosts {m : Nat} {s t : State} {v0} (h : Only m s t) (hm : Within 8589934592 m) :
    Only m s { t with hosts := v0 } := by
  refine h.trans ⟨fun f e => ?_, Nat.le_refl _, fun i => ⟨i.memory, i.tallies⟩, FusesKept.refl _⟩
  have e' := hm.testBit e
  cases f <;> first | rfl | exact absurd e' (by decide)

theorem Only.mgmt {m : Nat} {s t : State} {v0} (h : Only m s t) (hm : Within 17179869184 m) :
    Only m s { t with mgmt := v0 } := by
  refine h.trans ⟨fun f e => ?_, Nat.le_refl _, fun i => ⟨i.memory, i.tallies⟩, FusesKept.refl _⟩
  have e' := hm.testBit e
  cases f <;> first | rfl | exact absurd e' (by decide)

theorem Only.rk {m : Nat} {s t : State} {v0} (h : Only m s t) (hm : Within 34359738368 m) :
    Only m s { t with rk := v0 } := by
  refine h.trans ⟨fun f e => ?_, Nat.le_refl _, fun i => ⟨i.memory, i.tallies⟩, FusesKept.refl _⟩
  have e' := hm.testBit e
  cases f <;> first | rfl | exact absurd e' (by decide)

theorem Only.staging {m : Nat} {s t : State} {v0} (h : Only m s t) (hm : Within 68719476736 m) :
    Only m s { t with staging := v0 } := by
  refine h.trans ⟨fun f e => ?_, Nat.le_refl _, fun i => ⟨i.memory, i.tallies⟩, FusesKept.refl _⟩
  have e' := hm.testBit e
  cases f <;> first | rfl | exact absurd e' (by decide)

theorem Only.mirrors {m : Nat} {s t : State} {v0} (h : Only m s t) (hm : Within 137438953472 m) :
    Only m s { t with mirrors := v0 } := by
  refine h.trans ⟨fun f e => ?_, Nat.le_refl _, fun i => ⟨i.memory, i.tallies⟩, FusesKept.refl _⟩
  have e' := hm.testBit e
  cases f <;> first | rfl | exact absurd e' (by decide)

theorem Only.weather {m : Nat} {s t : State} {v0} (h : Only m s t) (hm : Within 274877906944 m) :
    Only m s { t with weather := v0 } := by
  refine h.trans ⟨fun f e => ?_, Nat.le_refl _, fun i => ⟨i.memory, i.tallies⟩, FusesKept.refl _⟩
  have e' := hm.testBit e
  cases f <;> first | rfl | exact absurd e' (by decide)

theorem Only.safe {m : Nat} {s t : State} {v0} (h : Only m s t) (hm : Within 549755813888 m) :
    Only m s { t with safe := v0 } := by
  refine h.trans ⟨fun f e => ?_, Nat.le_refl _, fun i => ⟨i.memory, i.tallies⟩, FusesKept.refl _⟩
  have e' := hm.testBit e
  cases f <;> first | rfl | exact absurd e' (by decide)

theorem Only.power {m : Nat} {s t : State} {v0} (h : Only m s t) (hm : Within 2199023255552 m) :
    Only m s { t with power := v0 } := by
  refine h.trans ⟨fun f e => ?_, Nat.le_refl _, fun i => ⟨i.memory, i.tallies⟩, FusesKept.refl _⟩
  have e' := hm.testBit e
  cases f <;> first | rfl | exact absurd e' (by decide)

theorem Only.taps {m : Nat} {s t : State} {v0} (h : Only m s t) (hm : Within 4398046511104 m) :
    Only m s { t with taps := v0 } := by
  refine h.trans ⟨fun f e => ?_, Nat.le_refl _, fun i => ⟨i.memory, i.tallies⟩, FusesKept.refl _⟩
  have e' := hm.testBit e
  cases f <;> first | rfl | exact absurd e' (by decide)

theorem Only.time_rc {m : Nat} {s t : State} {v0} {v1} (h : Only m s t) (hm : Within 1073741828 m) :
    Only m s { t with time := v0, rc := v1 } := by
  refine h.trans ⟨fun f e => ?_, Nat.le_refl _, fun i => ⟨i.memory, i.tallies⟩, FusesKept.refl _⟩
  have e' := hm.testBit e
  cases f <;> first | rfl | exact absurd e' (by decide)

theorem Only.poison_badLine {m : Nat} {s t : State} {v0} {v1} (h : Only m s t) (hm : Within 786432 m) :
    Only m s { t with poison := v0, badLine := v1 } := by
  refine h.trans ⟨fun f e => ?_, Nat.le_refl _, fun i => ⟨i.memory, i.tallies⟩, FusesKept.refl _⟩
  have e' := hm.testBit e
  cases f <;> first | rfl | exact absurd e' (by decide)

theorem Only.banks_drains {m : Nat} {s t : State} {v0} {v1} (h : Only m s t) (hm : Within 50331648 m) :
    Only m s { t with banks := v0, drains := v1 } := by
  refine h.trans ⟨fun f e => ?_, Nat.le_refl _, fun i => ⟨i.memory, i.tallies⟩, FusesKept.refl _⟩
  have e' := hm.testBit e
  cases f <;> first | rfl | exact absurd e' (by decide)

theorem Only.sec {m : Nat} {s t : State} {v0} (h : Only m s t) (hm : Within 1099511627776 m) (hf : FusesKept t.sec v0) :
    Only m s { t with sec := v0 } := by
  refine h.trans ⟨fun f e => ?_, Nat.le_refl _, fun i => ⟨i.memory, i.tallies⟩, hf⟩
  have e' := hm.testBit e
  cases f <;> first | rfl | exact absurd e' (by decide)

theorem Only.itin_sec {m : Nat} {s t : State} {v0} {v1} (h : Only m s t) (hm : Within 1099511631872 m) (hf : FusesKept t.sec v1) :
    Only m s { t with itin := v0, sec := v1 } := by
  refine h.trans ⟨fun f e => ?_, Nat.le_refl _, fun i => ⟨i.memory, i.tallies⟩, hf⟩
  have e' := hm.testBit e
  cases f <;> first | rfl | exact absurd e' (by decide)

theorem Only.mgmt_sec_power {m : Nat} {s t : State} {v0} {v1} {v2} (h : Only m s t) (hm : Within 3315714752512 m) (hf : FusesKept t.sec v1) :
    Only m s { t with mgmt := v0, sec := v1, power := v2 } := by
  refine h.trans ⟨fun f e => ?_, Nat.le_refl _, fun i => ⟨i.memory, i.tallies⟩, hf⟩
  have e' := hm.testBit e
  cases f <;> first | rfl | exact absurd e' (by decide)

theorem Only.itin_panel_rk_sec {m : Nat} {s t : State} {v0} {v1} {v2} {v3} (h : Only m s t) (hm : Within 1134005587968 m) (hf : FusesKept t.sec v3) :
    Only m s { t with itin := v0, panel := v1, rk := v2, sec := v3 } := by
  refine h.trans ⟨fun f e => ?_, Nat.le_refl _, fun i => ⟨i.memory, i.tallies⟩, hf⟩
  have e' := hm.testBit e
  cases f <;> first | rfl | exact absurd e' (by decide)

theorem Only.mem {m : Nat} {s t : State} {v0} (h : Only m s t) (hm : Within 131072 m) (hv : mwf 0 t.mem = true → mwf 0 v0 = true) :
    Only m s { t with mem := v0 } := by
  refine h.trans ⟨fun f e => ?_, Nat.le_refl _, fun i => ⟨hv i.memory, i.tallies⟩, FusesKept.refl _⟩
  have e' := hm.testBit e
  cases f <;> first | rfl | exact absurd e' (by decide)

theorem Only.mem_poison_badLine {m : Nat} {s t : State} {v0} {v1} {v2} (h : Only m s t) (hm : Within 917504 m) (hv : mwf 0 t.mem = true → mwf 0 v0 = true) :
    Only m s { t with mem := v0, poison := v1, badLine := v2 } := by
  refine h.trans ⟨fun f e => ?_, Nat.le_refl _, fun i => ⟨hv i.memory, i.tallies⟩, FusesKept.refl _⟩
  have e' := hm.testBit e
  cases f <;> first | rfl | exact absurd e' (by decide)

theorem Only.tallies {m : Nat} {s t : State} {v0} (h : Only m s t) (hm : Within 65536 m) (hv : (∀ k, mget 0 t.tallies k < 2 ^ 31) → ∀ k, mget 0 v0 k < 2 ^ 31) :
    Only m s { t with tallies := v0 } := by
  refine h.trans ⟨fun f e => ?_, Nat.le_refl _, fun i => ⟨i.memory, hv i.tallies⟩, FusesKept.refl _⟩
  have e' := hm.testBit e
  cases f <;> first | rfl | exact absurd e' (by decide)

theorem Only.passing {m : Nat} {s t : State} {v0 v1 v2} (h : Only m s t) (hm : Within 1073741830 m)
    (hv : t.now ≤ v0) : Only m s { t with now := v0, time := v1, rc := v2 } := by
  refine h.trans ⟨fun f e => ?_, hv, fun i => ⟨i.memory, i.tallies⟩, FusesKept.refl _⟩
  have e' := hm.testBit e
  cases f <;> first | rfl | exact absurd e' (by decide)

/-! ### Results that carry a state -/

/-- A pair's second part. -/
structure OnlyP (m : Nat) (s : State) {α : Type} (x : α × State) : Prop where
  only : Only m s x.2
/-- A pair's first part. -/
structure OnlyF (m : Nat) (s : State) {α : Type} (x : State × α) : Prop where
  only : Only m s x.1
/-- The third of three. -/
structure OnlyT (m : Nat) (s : State) {α β : Type} (x : α × β × State) : Prop where
  only : Only m s x.2.2
/-- An optional state. -/
structure OnlyO (m : Nat) (s : State) (x : Option State) : Prop where
  only : ∀ t, x = some t → Only m s t
/-- An optional pair. -/
structure OnlyOP (m : Nat) (s : State) {α : Type} (x : Option (α × State)) : Prop where
  only : ∀ p, x = some p → Only m s p.2
/-- The outcome of a command. -/
structure OnlyN (m : Nat) (s : State) (x : Host.Outcome State Fault Refusal) : Prop where
  only : ∀ t, x = .next t → Only m s t
/-- The outcome of an issue. -/
structure OnlyI (m : Nat) (s : State) (x : Issued) : Prop where
  fail : ∀ e t, x = .fail e t → Only m s t
  run : ∀ t, x = .run t → Only m s t
  ready : ∀ t, x = .ready t → Only m s t
  done : ∀ t, x = .done t → Only m s t
  broke : ∀ e t, x = .broke e t → Only m s t
/-- Checks that read through a state. -/
structure OnlyL (m : Nat) (s : State) {ε α : Type} (fs : List (State → Except ε α × State)) : Prop where
  all : ∀ f ∈ fs, ∀ u, Only m s u → OnlyP m s (f u)
/-- A service request. -/
structure OnlyS (m : Nat) (s : State) (x : Served) : Prop where
  only : ∀ st rs t, x = .answer st rs t → Only m s t

section Results

variable {m : Nat} {s t : State} {α β : Type} {a : α} {b : β}

theorem OnlyP.mk' (h : Only m s t) : OnlyP m s (a, t) := ⟨h⟩
theorem OnlyP.snd {x : α × State} (h : OnlyP m s x) : Only m s x.2 := h.only
theorem OnlyP.of_eq {x : α × State} (e : x = (a, t)) (h : OnlyP m s x) : Only m s t := by subst e; exact h.only
theorem OnlyP.elim (h : OnlyP m s (a, t)) : Only m s t := h.only
theorem OnlyF.mk' (h : Only m s t) : OnlyF m s (t, a) := ⟨h⟩
theorem OnlyF.fst {x : State × α} (h : OnlyF m s x) : Only m s x.1 := h.only
theorem OnlyF.of_eq {x : State × α} (e : x = (t, a)) (h : OnlyF m s x) : Only m s t := by subst e; exact h.only
theorem OnlyF.elim (h : OnlyF m s (t, a)) : Only m s t := h.only
theorem OnlyT.mk' (h : Only m s t) : OnlyT m s (a, b, t) := ⟨h⟩
theorem OnlyT.snd {x : α × β × State} (h : OnlyT m s x) : Only m s x.2.2 := h.only
theorem OnlyT.of_eq {x : α × β × State} (e : x = (a, b, t)) (h : OnlyT m s x) : Only m s t := by
  subst e; exact h.only
theorem OnlyO.none : OnlyO m s none := ⟨fun _ h => by cases h⟩
theorem OnlyO.some (h : Only m s t) : OnlyO m s (some t) := ⟨fun _ e => by cases e; exact h⟩
theorem OnlyO.of_eq {x : Option State} (e : x = Option.some t) (h : OnlyO m s x) : Only m s t := h.only t e
theorem OnlyO.getD {x : Option State} (h : OnlyO m s x) (h' : Only m s t) : Only m s (x.getD t) := by
  cases x with
  | none => exact h'
  | some u => exact h.only u rfl
theorem OnlyOP.none : OnlyOP m s (α := α) none := ⟨fun _ h => by cases h⟩
theorem OnlyOP.some (h : Only m s t) : OnlyOP m s (some (a, t)) := ⟨fun _ e => by cases e; exact h⟩
theorem OnlyOP.of_eq {x : Option (α × State)} (e : x = Option.some (a, t)) (h : OnlyOP m s x) : Only m s t :=
  h.only _ e
theorem OnlyN.next (h : Only m s t) : OnlyN m s (.next t) := ⟨fun _ e => by cases e; exact h⟩
theorem OnlyI.wait : OnlyI m s .wait := by
  refine ⟨?_, ?_, ?_, ?_, ?_⟩ <;> intros <;> simp_all
theorem OnlyI.ofFail {e : CmdError} (h : Only m s t) : OnlyI m s (.fail e t) := by
  refine ⟨?_, ?_, ?_, ?_, ?_⟩ <;> intros <;> simp_all
theorem OnlyI.ofRun (h : Only m s t) : OnlyI m s (.run t) := by
  refine ⟨?_, ?_, ?_, ?_, ?_⟩ <;> intros <;> simp_all
theorem OnlyI.ofReady (h : Only m s t) : OnlyI m s (.ready t) := by
  refine ⟨?_, ?_, ?_, ?_, ?_⟩ <;> intros <;> simp_all
theorem OnlyI.ofDone (h : Only m s t) : OnlyI m s (.done t) := by
  refine ⟨?_, ?_, ?_, ?_, ?_⟩ <;> intros <;> simp_all
theorem OnlyI.ofBroke {e : CmdError} (h : Only m s t) : OnlyI m s (.broke e t) := by
  refine ⟨?_, ?_, ?_, ?_, ?_⟩ <;> intros <;> simp_all
theorem OnlyI.fail_eq {x : Issued} {e : CmdError} (h : x = .fail e t) (k : OnlyI m s x) : Only m s t := k.fail e t h
theorem OnlyI.run_eq {x : Issued} (h : x = .run t) (k : OnlyI m s x) : Only m s t := k.run t h
theorem OnlyI.ready_eq {x : Issued} (h : x = .ready t) (k : OnlyI m s x) : Only m s t := k.ready t h
theorem OnlyI.done_eq {x : Issued} (h : x = .done t) (k : OnlyI m s x) : Only m s t := k.done t h
theorem OnlyI.broke_eq {x : Issued} {e : CmdError} (h : x = .broke e t) (k : OnlyI m s x) : Only m s t :=
  k.broke e t h

theorem OnlyL.nil {ε : Type} : OnlyL m s (ε := ε) (α := α) [] := ⟨fun _ h => by cases h⟩
theorem OnlyL.one {ε : Type} {f : State → Except ε α × State} (h : ∀ u, Only m s u → OnlyP m s (f u)) :
    OnlyL m s [f] := ⟨fun _ e => by cases e with | head => exact h | tail _ e => cases e⟩
theorem OnlyL.append {ε : Type} {xs ys : List (State → Except ε α × State)} (h : OnlyL m s xs) (h' : OnlyL m s ys) :
    OnlyL m s (xs ++ ys) := ⟨fun f e => (List.mem_append.1 e).elim (h.all f) (h'.all f)⟩
theorem OnlyS.wait : OnlyS m s .wait := ⟨fun _ _ _ h => by cases h⟩
theorem OnlyS.answer {st : Nat} {rs : List Word} (h : Only m s t) : OnlyS m s (.answer st rs t) :=
  ⟨fun _ _ _ e => by cases e; exact h⟩
theorem OnlyS.of_eq {x : Served} {st : Nat} {rs : List Word} (e : x = .answer st rs t) (h : OnlyS m s x) :
    Only m s t := h.only _ _ _ e

theorem Only.ite {c : Prop} [Decidable c] {x y : State} (h : Only m s x) (h' : Only m s y) :
    Only m s (if c then x else y) := by split <;> assumption
theorem OnlyP.ite {c : Prop} [Decidable c] {x y : α × State} (h : OnlyP m s x) (h' : OnlyP m s y) :
    OnlyP m s (if c then x else y) := by split <;> assumption
theorem OnlyF.ite {c : Prop} [Decidable c] {x y : State × α} (h : OnlyF m s x) (h' : OnlyF m s y) :
    OnlyF m s (if c then x else y) := by split <;> assumption
theorem OnlyO.ite {c : Prop} [Decidable c] {x y : Option State} (h : OnlyO m s x) (h' : OnlyO m s y) :
    OnlyO m s (if c then x else y) := by split <;> assumption
theorem OnlyN.ite {c : Prop} [Decidable c] {x y : Host.Outcome State Fault Refusal} (h : OnlyN m s x) (h' : OnlyN m s y) :
    OnlyN m s (if c then x else y) := by split <;> assumption
theorem OnlyI.ite {c : Prop} [Decidable c] {x y : Issued} (h : OnlyI m s x) (h' : OnlyI m s y) :
    OnlyI m s (if c then x else y) := by split <;> assumption

/-! ### Loops -/

theorem Only.foldl {f : State → α → State} {l : List α} (h : Only m s t)
    (hf : ∀ u x, Only m s u → Only m s (f u x)) : Only m s (l.foldl f t) := by
  induction l generalizing t with
  | nil => exact h
  | cons x l ih => exact ih (hf _ _ h)
theorem OnlyP.foldl {f : β × State → α → β × State} {l : List α} {p : β × State} (h : OnlyP m s p)
    (hf : ∀ u x, OnlyP m s u → OnlyP m s (f u x)) : OnlyP m s (l.foldl f p) := by
  induction l generalizing p with
  | nil => exact h
  | cons x l ih => exact ih (hf _ _ h)
theorem OnlyF.foldl {f : State × β → α → State × β} {l : List α} {p : State × β} (h : OnlyF m s p)
    (hf : ∀ u x, OnlyF m s u → OnlyF m s (f u x)) : OnlyF m s (l.foldl f p) := by
  induction l generalizing p with
  | nil => exact h
  | cons x l ih => exact ih (hf _ _ h)
theorem Only.each {f : Nat → State → State} {l : List Nat} (h : Only m s t)
    (hf : ∀ k u, Only m s u → Only m s (f k u)) : Only m s (t.each l f) :=
  h.foldl fun u k hu => hf k u hu

end Results

end Sys2Proof.Machine
end

