-- ==== Sys2Proof/Laws/OnlyOps.lean ====
section
/-! SUPPORT. What each operation of Sys2Proof/Machine/Ops.lean may change. -/

namespace Sys2Proof.Machine

open Sys2Proof

theorem State.emit_only {F : Nat} {s₀ : State} {s : State} {o : Out}
    (hs : Only F s₀ s) (hF : Within 32 F) :
    Only F s₀ (State.emit s o) := by
  unfold State.emit
  repeat' first
    | with_reducible assumption
    | (extract_lets +onlyGivenNames y; refine cut (p := Only F s₀ y) ?_ (fun _ => ?_); rotate_left; clear_value y; rotate_right; subst y)
    | (extract_lets +onlyGivenNames y; try clear_value y)
    | with_reducible exact hF.of (by decide)
    | with_reducible apply Only.out

theorem State.passTo_only {F : Nat} {s₀ : State} {s : State} {t : Nat}
    (hs : Only F s₀ s) (hF : Within 1073741830 F) :
    Only F s₀ (State.passTo s t) := by
  unfold State.passTo
  extract_lets total
  exact Only.passing hs hF (Nat.le_max_left _ _)

theorem passToTime_only {F : Nat} {s₀ : State} {s : State} {t : Nat}
    (hs : Only F s₀ s) (hF : Within 1073741830 F) :
    Only F s₀ (passToTime s t) := by
  unfold passToTime
  repeat' first
    | with_reducible assumption
    | with_reducible apply State.passTo_only
    | with_reducible exact hF.of (by decide)

theorem State.used_only {F : Nat} {s₀ : State} {s : State}
    (hs : Only F s₀ s) (hF : Within 8 F) :
    Only F s₀ (State.used s) := by
  unfold State.used
  repeat' first
    | with_reducible assumption
    | (extract_lets +onlyGivenNames y; refine cut (p := Only F s₀ y) ?_ (fun _ => ?_); rotate_left; clear_value y; rotate_right; subst y)
    | (extract_lets +onlyGivenNames y; try clear_value y)
    | with_reducible exact hF.of (by decide)
    | with_reducible apply Only.draws

theorem State.setReg_only {F : Nat} {s₀ : State} {s : State} {a : Nat} {w : Word}
    (hs : Only F s₀ s) (hF : Within 64 F) :
    Only F s₀ (State.setReg s a w) := by
  unfold State.setReg
  repeat' first
    | with_reducible assumption
    | (extract_lets +onlyGivenNames y; refine cut (p := Only F s₀ y) ?_ (fun _ => ?_); rotate_left; clear_value y; rotate_right; subst y)
    | (extract_lets +onlyGivenNames y; try clear_value y)
    | with_reducible exact hF.of (by decide)
    | with_reducible apply Only.ite
    | split
    | with_reducible apply Only.regs

theorem State.setField_only {F : Nat} {s₀ : State} {s : State} {a : Nat} {lo : Nat} {n : Nat} {v : Nat}
    (hs : Only F s₀ s) (hF : Within 64 F) :
    Only F s₀ (State.setField s a lo n v) := by
  unfold State.setField
  repeat' first
    | with_reducible assumption
    | with_reducible apply State.setReg_only
    | with_reducible exact hF.of (by decide)

theorem State.count32_only {F : Nat} {s₀ : State} {s : State} {a : Nat} {n : Nat}
    (hs : Only F s₀ s) (hF : Within 64 F) :
    Only F s₀ (State.count32 s a n) := by
  unfold State.count32
  repeat' first
    | with_reducible assumption
    | with_reducible apply State.setReg_only
    | with_reducible exact hF.of (by decide)

theorem State.setReg64_only {F : Nat} {s₀ : State} {s : State} {a : Nat} {v : Nat}
    (hs : Only F s₀ s) (hF : Within 64 F) :
    Only F s₀ (State.setReg64 s a v) := by
  unfold State.setReg64
  repeat' first
    | with_reducible assumption
    | with_reducible apply State.setReg_only
    | with_reducible exact hF.of (by decide)

theorem State.count64_only {F : Nat} {s₀ : State} {s : State} {a : Nat} {n : Nat}
    (hs : Only F s₀ s) (hF : Within 64 F) :
    Only F s₀ (State.count64 s a n) := by
  unfold State.count64
  repeat' first
    | with_reducible assumption
    | with_reducible apply State.setReg64_only
    | with_reducible exact hF.of (by decide)

theorem State.foldReg_only {F : Nat} {s₀ : State} {s : State} {a : Nat}
    (hs : Only F s₀ s) (hF : Within 192 F) :
    Only F s₀ (State.foldReg s a) := by
  unfold State.foldReg
  repeat' first
    | with_reducible assumption
    | (extract_lets +onlyGivenNames y; refine cut (p := Only F s₀ y) ?_ (fun _ => ?_); rotate_left; clear_value y; rotate_right; subst y)
    | (extract_lets +onlyGivenNames y; try clear_value y)
    | with_reducible apply State.setReg_only
    | with_reducible exact hF.of (by decide)
    | split
    | with_reducible apply Only.staged

theorem State.setTile_only {F : Nat} {s₀ : State} {s : State} {t : Nat} {x : Tile}
    (hs : Only F s₀ s) (hF : Within 4194304 F) :
    Only F s₀ (State.setTile s t x) := by
  unfold State.setTile
  repeat' first
    | with_reducible assumption
    | (extract_lets +onlyGivenNames y; refine cut (p := Only F s₀ y) ?_ (fun _ => ?_); rotate_left; clear_value y; rotate_right; subst y)
    | (extract_lets +onlyGivenNames y; try clear_value y)
    | with_reducible exact hF.of (by decide)
    | with_reducible apply Only.tiles

theorem State.modTile_only {F : Nat} {s₀ : State} {s : State} {t : Nat} {f : Tile → Tile}
    (hs : Only F s₀ s) (hF : Within 4194304 F) :
    Only F s₀ (State.modTile s t f) := by
  unfold State.modTile
  repeat' first
    | with_reducible assumption
    | (intro _ _ _ _; try dsimp -zeta only)
    | (intro _ _ _; try dsimp -zeta only)
    | (intro _ _; try dsimp -zeta only)
    | (intro _; try dsimp -zeta only)
    | with_reducible apply State.setTile_only
    | with_reducible exact hF.of (by decide)

theorem State.setQueue_only {F : Nat} {s₀ : State} {s : State} {g : Nat} {q : Queue}
    (hs : Only F s₀ s) (hF : Within 32768 F) :
    Only F s₀ (State.setQueue s g q) := by
  unfold State.setQueue
  repeat' first
    | with_reducible assumption
    | (extract_lets +onlyGivenNames y; refine cut (p := Only F s₀ y) ?_ (fun _ => ?_); rotate_left; clear_value y; rotate_right; subst y)
    | (extract_lets +onlyGivenNames y; try clear_value y)
    | with_reducible exact hF.of (by decide)
    | with_reducible apply Only.queues

theorem State.modQueue_only {F : Nat} {s₀ : State} {s : State} {g : Nat} {f : Queue → Queue}
    (hs : Only F s₀ s) (hF : Within 32768 F) :
    Only F s₀ (State.modQueue s g f) := by
  unfold State.modQueue
  repeat' first
    | with_reducible assumption
    | (intro _ _ _ _; try dsimp -zeta only)
    | (intro _ _ _; try dsimp -zeta only)
    | (intro _ _; try dsimp -zeta only)
    | (intro _; try dsimp -zeta only)
    | with_reducible apply State.setQueue_only
    | with_reducible exact hF.of (by decide)

theorem State.setTally_only {F : Nat} {s₀ : State} {s : State} {k : Nat} {v : Nat}
    (hs : Only F s₀ s) (hF : Within 65536 F) :
    Only F s₀ (State.setTally s k v) := by
  refine Only.tallies hs hF fun hk j => ?_
  rw [mget_mset]; split
  · exact Nat.mod_lt _ (by decide)
  · exact hk j

theorem State.setEngine_only {F : Nat} {s₀ : State} {s : State} {i : Nat} {e : Engine}
    (hs : Only F s₀ s) (hF : Within 8388608 F) :
    Only F s₀ (State.setEngine s i e) := by
  unfold State.setEngine
  repeat' first
    | with_reducible assumption
    | (extract_lets +onlyGivenNames y; refine cut (p := Only F s₀ y) ?_ (fun _ => ?_); rotate_left; clear_value y; rotate_right; subst y)
    | (extract_lets +onlyGivenNames y; try clear_value y)
    | with_reducible exact hF.of (by decide)
    | with_reducible apply Only.engines

theorem State.setBank_only {F : Nat} {s₀ : State} {s : State} {i : Nat} {b : Bank}
    (hs : Only F s₀ s) (hF : Within 16777216 F) :
    Only F s₀ (State.setBank s i b) := by
  unfold State.setBank
  repeat' first
    | with_reducible assumption
    | (extract_lets +onlyGivenNames y; refine cut (p := Only F s₀ y) ?_ (fun _ => ?_); rotate_left; clear_value y; rotate_right; subst y)
    | (extract_lets +onlyGivenNames y; try clear_value y)
    | with_reducible exact hF.of (by decide)
    | with_reducible apply Only.banks

theorem State.setDrain_only {F : Nat} {s₀ : State} {s : State} {i : Nat} {d : DrainUnit}
    (hs : Only F s₀ s) (hF : Within 33554432 F) :
    Only F s₀ (State.setDrain s i d) := by
  unfold State.setDrain
  repeat' first
    | with_reducible assumption
    | (extract_lets +onlyGivenNames y; refine cut (p := Only F s₀ y) ?_ (fun _ => ?_); rotate_left; clear_value y; rotate_right; subst y)
    | (extract_lets +onlyGivenNames y; try clear_value y)
    | with_reducible exact hF.of (by decide)
    | with_reducible apply Only.drains

theorem State.setMover_only {F : Nat} {s₀ : State} {s : State} {i : Nat} {j : Option MoveJob}
    (hs : Only F s₀ s) (hF : Within 67108864 F) :
    Only F s₀ (State.setMover s i j) := by
  unfold State.setMover
  repeat' first
    | with_reducible assumption
    | (extract_lets +onlyGivenNames y; refine cut (p := Only F s₀ y) ?_ (fun _ => ?_); rotate_left; clear_value y; rotate_right; subst y)
    | (extract_lets +onlyGivenNames y; try clear_value y)
    | with_reducible exact hF.of (by decide)
    | with_reducible apply Only.movers

theorem State.setChannel_only {F : Nat} {s₀ : State} {s : State} {i : Nat} {c : Channel}
    (hs : Only F s₀ s) (hF : Within 2097152 F) :
    Only F s₀ (State.setChannel s i c) := by
  unfold State.setChannel
  repeat' first
    | with_reducible assumption
    | (extract_lets +onlyGivenNames y; refine cut (p := Only F s₀ y) ?_ (fun _ => ?_); rotate_left; clear_value y; rotate_right; subst y)
    | (extract_lets +onlyGivenNames y; try clear_value y)
    | with_reducible exact hF.of (by decide)
    | with_reducible apply Only.channels

theorem State.setRing_only {F : Nat} {s₀ : State} {s : State} {r : Nat} {x : Ring}
    (hs : Only F s₀ s) (hF : Within 1024 F) :
    Only F s₀ (State.setRing s r x) := by
  unfold State.setRing
  repeat' first
    | with_reducible assumption
    | (extract_lets +onlyGivenNames y; refine cut (p := Only F s₀ y) ?_ (fun _ => ?_); rotate_left; clear_value y; rotate_right; subst y)
    | (extract_lets +onlyGivenNames y; try clear_value y)
    | with_reducible exact hF.of (by decide)
    | with_reducible apply Only.nb

theorem State.setFn_only {F : Nat} {s₀ : State} {s : State} {f : Fn} {x : FnState}
    (hs : Only F s₀ s) (hF : Within 2048 F) :
    Only F s₀ (State.setFn s f x) := by
  unfold State.setFn
  repeat' first
    | with_reducible assumption
    | (extract_lets +onlyGivenNames y; refine cut (p := Only F s₀ y) ?_ (fun _ => ?_); rotate_left; clear_value y; rotate_right; subst y)
    | (extract_lets +onlyGivenNames y; try clear_value y)
    | with_reducible exact hF.of (by decide)
    | with_reducible apply Only.fns

theorem State.setHost_only {F : Nat} {s₀ : State} {s : State} {f : Fn} {x : HostFn}
    (hs : Only F s₀ s) (hF : Within 8589934592 F) :
    Only F s₀ (State.setHost s f x) := by
  unfold State.setHost
  repeat' first
    | with_reducible assumption
    | (extract_lets +onlyGivenNames y; refine cut (p := Only F s₀ y) ?_ (fun _ => ?_); rotate_left; clear_value y; rotate_right; subst y)
    | (extract_lets +onlyGivenNames y; try clear_value y)
    | with_reducible exact hF.of (by decide)
    | with_reducible apply Only.hosts

theorem State.setParty_only {F : Nat} {s₀ : State} {s : State} {p : Nat} {x : Party}
    (hs : Only F s₀ s) (hF : Within 16384 F) :
    Only F s₀ (State.setParty s p x) := by
  unfold State.setParty
  repeat' first
    | with_reducible assumption
    | (extract_lets +onlyGivenNames y; refine cut (p := Only F s₀ y) ?_ (fun _ => ?_); rotate_left; clear_value y; rotate_right; subst y)
    | (extract_lets +onlyGivenNames y; try clear_value y)
    | with_reducible exact hF.of (by decide)
    | with_reducible apply Only.parties

theorem State.setGuest_only {F : Nat} {s₀ : State} {s : State} {n : Nat} {g : Guest}
    (hs : Only F s₀ s) (hF : Within 134217728 F) :
    Only F s₀ (State.setGuest s n g) := by
  unfold State.setGuest
  repeat' first
    | with_reducible assumption
    | (extract_lets +onlyGivenNames y; refine cut (p := Only F s₀ y) ?_ (fun _ => ?_); rotate_left; clear_value y; rotate_right; subst y)
    | (extract_lets +onlyGivenNames y; try clear_value y)
    | with_reducible exact hF.of (by decide)
    | with_reducible apply Only.panel

theorem State.setStrand_only {F : Nat} {s₀ : State} {s : State} {l : Strand} {x : StrandState}
    (hs : Only F s₀ s) (hF : Within 134217728 F) :
    Only F s₀ (State.setStrand s l x) := by
  unfold State.setStrand
  repeat' first
    | with_reducible assumption
    | (extract_lets +onlyGivenNames y; refine cut (p := Only F s₀ y) ?_ (fun _ => ?_); rotate_left; clear_value y; rotate_right; subst y)
    | (extract_lets +onlyGivenNames y; try clear_value y)
    | with_reducible exact hF.of (by decide)
    | with_reducible apply Only.panel

theorem State.setLink_only {F : Nat} {s₀ : State} {s : State} {l : ModLink} {x : LinkState}
    (hs : Only F s₀ s) (hF : Within 268435456 F) :
    Only F s₀ (State.setLink s l x) := by
  unfold State.setLink
  repeat' first
    | with_reducible assumption
    | (extract_lets +onlyGivenNames y; refine cut (p := Only F s₀ y) ?_ (fun _ => ?_); rotate_left; clear_value y; rotate_right; subst y)
    | (extract_lets +onlyGivenNames y; try clear_value y)
    | with_reducible exact hF.of (by decide)
    | with_reducible apply Only.fabric

theorem State.setLantern_only {F : Nat} {s₀ : State} {s : State} {n : Nat} {x : Lantern}
    (hs : Only F s₀ s) (hF : Within 2147483648 F) :
    Only F s₀ (State.setLantern s n x) := by
  unfold State.setLantern
  repeat' first
    | with_reducible assumption
    | (extract_lets +onlyGivenNames y; refine cut (p := Only F s₀ y) ?_ (fun _ => ?_); rotate_left; clear_value y; rotate_right; subst y)
    | (extract_lets +onlyGivenNames y; try clear_value y)
    | with_reducible exact hF.of (by decide)
    | with_reducible apply Only.lanterns

theorem State.setPort_only {F : Nat} {s₀ : State} {s : State} {n : Nat} {p : Nat} {x : Port}
    (hs : Only F s₀ s) (hF : Within 2147483648 F) :
    Only F s₀ (State.setPort s n p x) := by
  unfold State.setPort
  repeat' first
    | with_reducible assumption
    | (extract_lets +onlyGivenNames y; refine cut (p := Only F s₀ y) ?_ (fun _ => ?_); rotate_left; clear_value y; rotate_right; subst y)
    | (extract_lets +onlyGivenNames y; try clear_value y)
    | with_reducible apply State.setLantern_only
    | with_reducible exact hF.of (by decide)

theorem State.setBundle_only {F : Nat} {s₀ : State} {s : State} {n : Nat} {m : Nat} {x : Bundle}
    (hs : Only F s₀ s) (hF : Within 2147483648 F) :
    Only F s₀ (State.setBundle s n m x) := by
  unfold State.setBundle
  repeat' first
    | with_reducible assumption
    | (extract_lets +onlyGivenNames y; refine cut (p := Only F s₀ y) ?_ (fun _ => ?_); rotate_left; clear_value y; rotate_right; subst y)
    | (extract_lets +onlyGivenNames y; try clear_value y)
    | with_reducible apply State.setLantern_only
    | with_reducible exact hF.of (by decide)

theorem State.setCopper_only {F : Nat} {s₀ : State} {s : State} {k : Nat} {x : Port}
    (hs : Only F s₀ s) (hF : Within 4294967296 F) :
    Only F s₀ (State.setCopper s k x) := by
  unfold State.setCopper
  repeat' first
    | with_reducible assumption
    | (extract_lets +onlyGivenNames y; refine cut (p := Only F s₀ y) ?_ (fun _ => ?_); rotate_left; clear_value y; rotate_right; subst y)
    | (extract_lets +onlyGivenNames y; try clear_value y)
    | with_reducible exact hF.of (by decide)
    | with_reducible apply Only.copper

theorem State.setColl_only {F : Nat} {s₀ : State} {s : State} {t : Nat} {x : CollEngine}
    (hs : Only F s₀ s) (hF : Within 536870912 F) :
    Only F s₀ (State.setColl s t x) := by
  unfold State.setColl
  repeat' first
    | with_reducible assumption
    | (extract_lets +onlyGivenNames y; refine cut (p := Only F s₀ y) ?_ (fun _ => ?_); rotate_left; clear_value y; rotate_right; subst y)
    | (extract_lets +onlyGivenNames y; try clear_value y)
    | with_reducible exact hF.of (by decide)
    | with_reducible apply Only.colls

theorem State.setMirror_only {F : Nat} {s₀ : State} {s : State} {i : Nat} {x : Mirror}
    (hs : Only F s₀ s) (hF : Within 137438953472 F) :
    Only F s₀ (State.setMirror s i x) := by
  unfold State.setMirror
  repeat' first
    | with_reducible assumption
    | (extract_lets +onlyGivenNames y; refine cut (p := Only F s₀ y) ?_ (fun _ => ?_); rotate_left; clear_value y; rotate_right; subst y)
    | (extract_lets +onlyGivenNames y; try clear_value y)
    | with_reducible exact hF.of (by decide)
    | with_reducible apply Only.mirrors

theorem State.setByte_only {F : Nat} {s₀ : State} {s : State} {a : Nat} {b : Byte}
    (hs : Only F s₀ s) (hF : Within 131072 F) :
    Only F s₀ (State.setByte s a b) := by
  exact Only.mem hs hF (mwf_mset _ _)

theorem State.setLine_only {F : Nat} {s₀ : State} {s : State} {a : Nat} {l : Line}
    (hs : Only F s₀ s) (hF : Within 131072 F) :
    Only F s₀ (State.setLine s a l) := by
  exact Only.mem hs hF (mwf_writeNat _ _ _)

end Sys2Proof.Machine
end

