-- ==== Sys2Proof/Laws/OnlyFlags.lean ====
section
/-! SUPPORT. What each operation of Sys2Proof/Machine/Flags.lean may change. -/

namespace Sys2Proof.Machine

open Sys2Proof

theorem setHealth_only {F : Nat} {s₀ : State} {s : State} {t : Nat} {n : Nat} {flags : Nat}
    (hs : Only F s₀ s) (hF : Within 64 F) :
    Only F s₀ (setHealth s t n flags) := by
  unfold setHealth
  repeat' first
    | with_reducible assumption
    | with_reducible apply State.setReg_only
    | with_reducible exact hF.of (by decide)
    | with_reducible apply Only.ite
    | split

end Sys2Proof.Machine
end

