-- ==== Sys2Proof/Laws/OnlyEvents.lean ====
section
/-! SUPPORT. What each operation of Sys2Proof/Machine/Events.lean may change. -/

namespace Sys2Proof.Machine

open Sys2Proof

theorem sendInterrupt_only {F : Nat} {s₀ : State} {s : State} {r : Nat}
    (hs : Only F s₀ s) (hF : Within 3104 F) :
    Only F s₀ (sendInterrupt s r) := by
  unfold sendInterrupt
  repeat' first
    | with_reducible assumption
    | (extract_lets +onlyGivenNames y; refine cut (p := Only F s₀ y) ?_ (fun _ => ?_); rotate_left; clear_value y; rotate_right; subst y)
    | (extract_lets +onlyGivenNames y; try clear_value y)
    | with_reducible apply State.setRing_only
    | with_reducible apply State.setFn_only
    | with_reducible apply State.emit_only
    | with_reducible exact hF.of (by decide)
    | with_reducible apply Only.ite
    | split

theorem interruptDue_only {F : Nat} {s₀ : State} {s : State} {r : Nat}
    (hs : Only F s₀ s) (hF : Within 3104 F) :
    Only F s₀ (interruptDue s r) := by
  unfold interruptDue
  repeat' first
    | with_reducible assumption
    | (extract_lets +onlyGivenNames y; refine cut (p := Only F s₀ y) ?_ (fun _ => ?_); rotate_left; clear_value y; rotate_right; subst y)
    | (extract_lets +onlyGivenNames y; try clear_value y)
    | with_reducible apply sendInterrupt_only
    | with_reducible apply State.setRing_only
    | with_reducible exact hF.of (by decide)
    | with_reducible apply Only.ite
    | split

theorem setBypass_only {F : Nat} {s₀ : State} {s : State} {r : Nat}
    (hs : Only F s₀ s) (hF : Within 3104 F) :
    Only F s₀ (setBypass s r) := by
  unfold setBypass
  repeat' first
    | with_reducible assumption
    | (extract_lets +onlyGivenNames y; refine cut (p := Only F s₀ y) ?_ (fun _ => ?_); rotate_left; clear_value y; rotate_right; subst y)
    | (extract_lets +onlyGivenNames y; try clear_value y)
    | with_reducible apply State.setRing_only
    | with_reducible apply sendInterrupt_only
    | with_reducible exact hF.of (by decide)
    | with_reducible apply Only.ite
    | split

theorem releaseHeld_only {F : Nat} {s₀ : State} {s : State} {r : Nat}
    (hs : Only F s₀ s) (hF : Within 3104 F) :
    Only F s₀ (releaseHeld s r) := by
  unfold releaseHeld
  repeat' first
    | with_reducible assumption
    | (extract_lets +onlyGivenNames y; refine cut (p := Only F s₀ y) ?_ (fun _ => ?_); rotate_left; clear_value y; rotate_right; subst y)
    | (extract_lets +onlyGivenNames y; try clear_value y)
    | with_reducible apply sendInterrupt_only
    | with_reducible exact hF.of (by decide)
    | with_reducible apply Only.ite
    | split

theorem releaseAll_only {F : Nat} {s₀ : State} {s : State}
    (hs : Only F s₀ s) (hF : Within 3104 F) :
    Only F s₀ (releaseAll s) := by
  unfold releaseAll
  repeat' first
    | with_reducible assumption
    | (intro _ _ _ _; try dsimp -zeta only)
    | (intro _ _ _; try dsimp -zeta only)
    | (intro _ _; try dsimp -zeta only)
    | (intro _; try dsimp -zeta only)
    | with_reducible apply releaseHeld_only
    | with_reducible exact hF.of (by decide)
    | with_reducible apply Only.each

theorem flushPending_only {F : Nat} {s₀ : State} {s : State} {f : Fn}
    (hs : Only F s₀ s) (hF : Within 2080 F) :
    Only F s₀ (flushPending s f) := by
  unfold flushPending
  repeat' first
    | with_reducible assumption
    | (extract_lets +onlyGivenNames y; refine cut (p := Only F s₀ y) ?_ (fun _ => ?_); rotate_left; clear_value y; rotate_right; subst y)
    | (extract_lets +onlyGivenNames y; try clear_value y)
    | with_reducible apply State.emit_only
    | with_reducible apply State.setFn_only
    | with_reducible exact hF.of (by decide)
    | with_reducible apply Only.ite
    | split

theorem enterRecord_only {F : Nat} {s₀ : State} {s : State} {r : Nat} {cls : Nat} {src : Nat} {party : Nat} {payload : Nat}
    (hs : Only F s₀ s) (hF : Within 1024 F) :
    Only F s₀ (enterRecord s r cls src party payload) := by
  unfold enterRecord
  repeat' first
    | with_reducible assumption
    | (extract_lets +onlyGivenNames y; refine cut (p := Only F s₀ y) ?_ (fun _ => ?_); rotate_left; clear_value y; rotate_right; subst y)
    | (extract_lets +onlyGivenNames y; try clear_value y)
    | with_reducible apply State.setRing_only
    | with_reducible exact hF.of (by decide)
    | with_reducible apply Only.ite
    | split
    | with_reducible apply Only.nb

theorem buildLevel_only {F : Nat} {s₀ : State} {s : State} {r : Nat} {key : Nat}
    (hs : Only F s₀ s) (hF : Within 1024 F) :
    Only F s₀ (buildLevel s r key) := by
  unfold buildLevel
  repeat' first
    | with_reducible assumption
    | (extract_lets +onlyGivenNames y; refine cut (p := Only F s₀ y) ?_ (fun _ => ?_); rotate_left; clear_value y; rotate_right; subst y)
    | (extract_lets +onlyGivenNames y; try clear_value y)
    | with_reducible apply State.setRing_only
    | with_reducible apply enterRecord_only
    | with_reducible exact hF.of (by decide)
    | with_reducible apply Only.ite
    | split

theorem refill_only {F : Nat} {s₀ : State} {s : State} {r : Nat}
    (hs : Only F s₀ s) (hF : Within 1024 F) :
    Only F s₀ (refill s r) := by
  unfold refill
  repeat' first
    | with_reducible assumption
    | (intro _ _ _ _; try dsimp -zeta only)
    | (intro _ _ _; try dsimp -zeta only)
    | (intro _ _; try dsimp -zeta only)
    | (intro _; try dsimp -zeta only)
    | (extract_lets +onlyGivenNames y; refine cut (p := Only F s₀ y) ?_ (fun _ => ?_); rotate_left; clear_value y; rotate_right; subst y)
    | (extract_lets +onlyGivenNames y; try clear_value y)
    | with_reducible apply enterRecord_only
    | with_reducible apply State.setRing_only
    | with_reducible apply buildLevel_only
    | with_reducible exact hF.of (by decide)
    | with_reducible apply Only.foldl
    | with_reducible apply OnlyP.foldl
    | with_reducible apply OnlyF.foldl
    | with_reducible apply Only.ite
    | with_reducible apply OnlyP.ite
    | with_reducible apply OnlyF.ite
    | split
    | with_reducible apply OnlyP.mk'
    | with_reducible apply OnlyF.mk'
    | with_reducible refine OnlyP.of_eq (by assumption) ?_
    | with_reducible apply OnlyP.snd
    | with_reducible exact OnlyP.elim (by assumption)
    | with_reducible refine OnlyF.of_eq (by assumption) ?_
    | with_reducible apply OnlyF.fst
    | with_reducible exact OnlyF.elim (by assumption)

theorem maskedNow_only {F : Nat} {s₀ : State} {s : State} {r : Nat} {c : Nat}
    (hs : Only F s₀ s) (hF : Within 8 F) :
    OnlyP F s₀ (maskedNow s r c) := by
  unfold maskedNow
  repeat' first
    | with_reducible assumption
    | (extract_lets +onlyGivenNames y; refine cut (p := Only F s₀ y) ?_ (fun _ => ?_); rotate_left; clear_value y; rotate_right; subst y)
    | (extract_lets +onlyGivenNames y; refine cut (p := OnlyP F s₀ y) ?_ (fun _ => ?_); rotate_left; clear_value y; rotate_right; subst y)
    | (extract_lets +onlyGivenNames y; try clear_value y)
    | with_reducible apply State.used_only
    | with_reducible exact hF.of (by decide)
    | with_reducible apply Only.ite
    | with_reducible apply OnlyP.ite
    | split
    | with_reducible apply OnlyP.mk'
    | with_reducible refine OnlyP.of_eq (by assumption) ?_
    | with_reducible apply OnlyP.snd
    | with_reducible exact OnlyP.elim (by assumption)

theorem postEdge_only {F : Nat} {s₀ : State} {s : State} {r : Nat} {e : Event}
    (hs : Only F s₀ s) (hF : Within 1032 F) :
    Only F s₀ (postEdge s r e) := by
  unfold postEdge
  repeat' first
    | with_reducible assumption
    | (extract_lets +onlyGivenNames y; refine cut (p := Only F s₀ y) ?_ (fun _ => ?_); rotate_left; clear_value y; rotate_right; subst y)
    | (extract_lets +onlyGivenNames y; refine cut (p := OnlyP F s₀ y) ?_ (fun _ => ?_); rotate_left; clear_value y; rotate_right; subst y)
    | (extract_lets +onlyGivenNames y; try clear_value y)
    | with_reducible apply maskedNow_only
    | with_reducible apply State.setRing_only
    | with_reducible apply enterRecord_only
    | with_reducible exact hF.of (by decide)
    | with_reducible apply Only.ite
    | with_reducible apply OnlyP.ite
    | split
    | with_reducible apply OnlyP.mk'
    | with_reducible refine OnlyP.of_eq (by assumption) ?_
    | with_reducible apply OnlyP.snd
    | with_reducible exact OnlyP.elim (by assumption)

theorem post_only {F : Nat} {s₀ : State} {s : State} {cls : Nat} {src : Nat} {payload : optParam Nat 0} {party : optParam Nat 255}
    (hs : Only F s₀ s) (hF : Within 1032 F) :
    Only F s₀ (post s cls src payload party) := by
  unfold post
  repeat' first
    | with_reducible assumption
    | (intro _ _ _ _; try dsimp -zeta only)
    | (intro _ _ _; try dsimp -zeta only)
    | (intro _ _; try dsimp -zeta only)
    | (intro _; try dsimp -zeta only)
    | with_reducible apply postEdge_only
    | with_reducible exact hF.of (by decide)
    | with_reducible apply Only.each
    | with_reducible apply Only.ite
    | split

theorem setLevel_only {F : Nat} {s₀ : State} {s : State} {cls : Nat} {src : Nat} {cond : Option LevelCond}
    (hs : Only F s₀ s) (hF : Within 1032 F) :
    Only F s₀ (setLevel s cls src cond) := by
  unfold setLevel
  repeat' first
    | with_reducible assumption
    | (intro _ _ _ _; try dsimp -zeta only)
    | (intro _ _ _; try dsimp -zeta only)
    | (intro _ _; try dsimp -zeta only)
    | (intro _; try dsimp -zeta only)
    | (extract_lets +onlyGivenNames y; refine cut (p := Only F s₀ y) ?_ (fun _ => ?_); rotate_left; clear_value y; rotate_right; subst y)
    | (extract_lets +onlyGivenNames y; refine cut (p := OnlyP F s₀ y) ?_ (fun _ => ?_); rotate_left; clear_value y; rotate_right; subst y)
    | (extract_lets +onlyGivenNames y; try clear_value y)
    | with_reducible apply maskedNow_only
    | with_reducible apply buildLevel_only
    | with_reducible exact hF.of (by decide)
    | with_reducible apply Only.each
    | with_reducible apply Only.ite
    | with_reducible apply OnlyP.ite
    | split
    | with_reducible apply OnlyP.mk'
    | with_reducible refine OnlyP.of_eq (by assumption) ?_
    | with_reducible apply OnlyP.snd
    | with_reducible exact OnlyP.elim (by assumption)
    | with_reducible apply Only.nb

theorem resample_only {F : Nat} {s₀ : State} {s : State} {r : Nat} {key : Nat}
    (hs : Only F s₀ s) (hF : Within 1032 F) :
    Only F s₀ (resample s r key) := by
  unfold resample
  repeat' first
    | with_reducible assumption
    | (extract_lets +onlyGivenNames y; refine cut (p := Only F s₀ y) ?_ (fun _ => ?_); rotate_left; clear_value y; rotate_right; subst y)
    | (extract_lets +onlyGivenNames y; refine cut (p := OnlyP F s₀ y) ?_ (fun _ => ?_); rotate_left; clear_value y; rotate_right; subst y)
    | (extract_lets +onlyGivenNames y; try clear_value y)
    | with_reducible apply maskedNow_only
    | with_reducible apply State.setRing_only
    | with_reducible apply buildLevel_only
    | with_reducible exact hF.of (by decide)
    | with_reducible apply Only.ite
    | with_reducible apply OnlyP.ite
    | split
    | with_reducible apply OnlyP.mk'
    | with_reducible refine OnlyP.of_eq (by assumption) ?_
    | with_reducible apply OnlyP.snd
    | with_reducible exact OnlyP.elim (by assumption)

theorem accessError_only {F : Nat} {s₀ : State} {s : State} {a : Access} {reason : Nat}
    (hs : Only F s₀ s) (hF : Within 1032 F) :
    Only F s₀ (accessError s a reason) := by
  unfold accessError
  repeat' first
    | with_reducible assumption
    | (extract_lets +onlyGivenNames y; refine cut (p := Only F s₀ y) ?_ (fun _ => ?_); rotate_left; clear_value y; rotate_right; subst y)
    | (extract_lets +onlyGivenNames y; try clear_value y)
    | with_reducible apply post_only
    | with_reducible exact hF.of (by decide)
    | with_reducible apply Only.ite
    | split

theorem ownAccessError_only {F : Nat} {s₀ : State} {s : State} {off : Nat} {reason : Nat}
    (hs : Only F s₀ s) (hF : Within 1032 F) :
    Only F s₀ (ownAccessError s off reason) := by
  unfold ownAccessError
  repeat' first
    | with_reducible assumption
    | with_reducible apply accessError_only
    | with_reducible exact hF.of (by decide)

end Sys2Proof.Machine
end

