-- ==== Sys2Proof/Laws/OnlyOwner.lean ====
section
/-! SUPPORT. What each operation of Sys2Proof/Machine/Owner.lean may change. -/

namespace Sys2Proof.Machine

open Sys2Proof

theorem enterSafe_only {F : Nat} {s₀ : State} {s : State} {cause : Nat} {block0 : optParam Nat 0} {block1 : optParam Nat 0} {extra : optParam Nat 0}
    (hs : Only F s₀ s) (hF : Within 549755815016 F) :
    Only F s₀ (enterSafe s cause block0 block1 extra) := by
  unfold enterSafe
  repeat' first
    | with_reducible assumption
    | (extract_lets +onlyGivenNames y; refine cut (p := Only F s₀ y) ?_ (fun _ => ?_); rotate_left; clear_value y; rotate_right; subst y)
    | (extract_lets +onlyGivenNames y; try clear_value y)
    | with_reducible apply State.setReg_only
    | with_reducible apply State.setReg64_only
    | with_reducible apply State.emit_only
    | with_reducible apply post_only
    | with_reducible exact hF.of (by decide)
    | with_reducible apply Only.ite
    | split
    | with_reducible apply Only.safe

theorem reportEntry_only {F : Nat} {s₀ : State} {s : State} {e : FoldEntry}
    (hs : Only F s₀ s) (hF : Within 4096 F) :
    Only F s₀ (reportEntry s e) := by
  unfold reportEntry
  repeat' first
    | with_reducible assumption
    | (extract_lets +onlyGivenNames y; refine cut (p := Only F s₀ y) ?_ (fun _ => ?_); rotate_left; clear_value y; rotate_right; subst y)
    | (extract_lets +onlyGivenNames y; try clear_value y)
    | with_reducible exact hF.of (by decide)
    | with_reducible apply Only.ite
    | split
    | with_reducible apply Only.itin

theorem reportClamp_only {F : Nat} {s₀ : State} {s : State} {sect : Nat} {inst : Nat} {off : Nat} {bit : Nat} {written : Nat} {applied : Nat}
    (hs : Only F s₀ s) (hF : Within 5128 F) :
    Only F s₀ (reportClamp s sect inst off bit written applied) := by
  unfold reportClamp
  repeat' first
    | with_reducible assumption
    | (extract_lets +onlyGivenNames y; refine cut (p := Only F s₀ y) ?_ (fun _ => ?_); rotate_left; clear_value y; rotate_right; subst y)
    | (extract_lets +onlyGivenNames y; try clear_value y)
    | with_reducible apply reportEntry_only
    | with_reducible apply post_only
    | with_reducible exact hF.of (by decide)
    | with_reducible apply Only.ite
    | split

theorem answer_only {F : Nat} {s₀ : State} {s : State} {st : Status} {ws : optParam (List Word) []}
    (hs : Only F s₀ s) (hF : Within 16 F) :
    Only F s₀ (answer s st ws) := by
  unfold answer
  repeat' first
    | with_reducible assumption
    | (extract_lets +onlyGivenNames y; refine cut (p := Only F s₀ y) ?_ (fun _ => ?_); rotate_left; clear_value y; rotate_right; subst y)
    | (extract_lets +onlyGivenNames y; try clear_value y)
    | with_reducible exact hF.of (by decide)
    | with_reducible apply Only.reply

theorem putLow_only {F : Nat} {s₀ : State} {s : State} {p : Path} {a : Nat} {v : Word}
    (hs : Only F s₀ s) (hF : Within 512 F) :
    Only F s₀ (putLow s p a v) := by
  unfold putLow
  repeat' first
    | with_reducible assumption
    | (intro _ _ _ _; try dsimp -zeta only)
    | (intro _ _ _; try dsimp -zeta only)
    | (intro _ _; try dsimp -zeta only)
    | (intro _; try dsimp -zeta only)
    | with_reducible exact hF.of (by decide)
    | with_reducible apply Only.wlatch

theorem dropLow_only {F : Nat} {s₀ : State} {s : State} {p : Path} {a : Nat}
    (hs : Only F s₀ s) (hF : Within 512 F) :
    Only F s₀ (dropLow s p a) := by
  unfold dropLow
  repeat' first
    | with_reducible assumption
    | (intro _ _ _ _; try dsimp -zeta only)
    | (intro _ _ _; try dsimp -zeta only)
    | (intro _ _; try dsimp -zeta only)
    | (intro _; try dsimp -zeta only)
    | with_reducible exact hF.of (by decide)
    | with_reducible apply Only.wlatch

theorem takeLow_only {F : Nat} {s₀ : State} {s : State} {p : Path} {a : Nat} {current : State → Word × State}
    (hs : Only F s₀ s) (h_current : ∀ x0, Only F s₀ x0 → OnlyP F s₀ (current x0)) (hF : Within 512 F) :
    OnlyP F s₀ (takeLow s p a current) := by
  unfold takeLow
  repeat' first
    | with_reducible assumption
    | (intro _ _ _ _; try dsimp -zeta only)
    | (intro _ _ _; try dsimp -zeta only)
    | (intro _ _; try dsimp -zeta only)
    | (intro _; try dsimp -zeta only)
    | with_reducible apply h_current
    | with_reducible apply dropLow_only
    | with_reducible exact hF.of (by decide)
    | split
    | with_reducible apply OnlyP.mk'
    | with_reducible refine OnlyP.of_eq (by assumption) ?_
    | with_reducible apply OnlyP.snd
    | with_reducible exact OnlyP.elim (by assumption)

theorem ownershipError_only {F : Nat} {s₀ : State} {s : State} {acc : Access} {m : Nat}
    (hs : Only F s₀ s) (hF : Within 1112 F) :
    Only F s₀ (ownershipError s acc m) := by
  unfold ownershipError
  repeat' first
    | with_reducible assumption
    | (extract_lets +onlyGivenNames y; refine cut (p := Only F s₀ y) ?_ (fun _ => ?_); rotate_left; clear_value y; rotate_right; subst y)
    | (extract_lets +onlyGivenNames y; try clear_value y)
    | with_reducible apply State.setReg_only
    | with_reducible apply State.count32_only
    | with_reducible apply answer_only
    | with_reducible apply post_only
    | with_reducible exact hF.of (by decide)
    | split

theorem refused_only {F : Nat} {s₀ : State} {s : State} {acc : Access} {reason : Nat}
    (hs : Only F s₀ s) (hF : Within 1048 F) :
    Only F s₀ (refused s acc reason) := by
  unfold refused
  repeat' first
    | with_reducible assumption
    | with_reducible apply answer_only
    | with_reducible apply accessError_only
    | with_reducible exact hF.of (by decide)

theorem ownerWrite_only {F : Nat} {s₀ : State} {s : State} {p : Path} {off : Nat} {data : Word} {effect : State → State}
    (hs : Only F s₀ s) (h_effect : ∀ x0, Only F s₀ x0 → Only F s₀ (effect x0)) (hF : Within 5208 F) :
    Only F s₀ (ownerWrite s p off data effect) := by
  unfold ownerWrite
  repeat' first
    | with_reducible assumption
    | (intro _ _ _ _; try dsimp -zeta only)
    | (intro _ _ _; try dsimp -zeta only)
    | (intro _ _; try dsimp -zeta only)
    | (intro _; try dsimp -zeta only)
    | (extract_lets +onlyGivenNames y; refine cut (p := Only F s₀ y) ?_ (fun _ => ?_); rotate_left; clear_value y; rotate_right; subst y)
    | (extract_lets +onlyGivenNames y; try clear_value y)
    | with_reducible apply answer_only
    | with_reducible apply refused_only
    | with_reducible apply ownershipError_only
    | with_reducible exact hF.of (by decide)
    | apply h_effect
    | with_reducible apply Only.ite
    | split
    | with_reducible apply Only.itin

theorem partyWrite_only {F : Nat} {s₀ : State} {s : State} {p : Path} {party : Nat} {o : Nat} {data : Word} {effect : State → State}
    (hs : Only F s₀ s) (h_effect : ∀ x0, Only F s₀ x0 → Only F s₀ (effect x0)) (hF : Within 5208 F) :
    Only F s₀ (partyWrite s p party o data effect) := by
  unfold partyWrite
  repeat' first
    | with_reducible assumption
    | (intro _ _ _ _; try dsimp -zeta only)
    | (intro _ _ _; try dsimp -zeta only)
    | (intro _ _; try dsimp -zeta only)
    | (intro _; try dsimp -zeta only)
    | (extract_lets +onlyGivenNames y; refine cut (p := Only F s₀ y) ?_ (fun _ => ?_); rotate_left; clear_value y; rotate_right; subst y)
    | (extract_lets +onlyGivenNames y; try clear_value y)
    | with_reducible apply answer_only
    | with_reducible apply refused_only
    | with_reducible apply ownerWrite_only
    | with_reducible exact hF.of (by decide)
    | apply h_effect
    | with_reducible apply Only.ite
    | split

end Sys2Proof.Machine
end

