-- ==== Sys2Proof/Laws/OnlyPackets.lean ====
section
/-! SUPPORT. What each operation of Sys2Proof/Machine/Packets.lean may change. -/

namespace Sys2Proof.Machine

open Sys2Proof

theorem unhold_only {F : Nat} {s₀ : State} {s : State} {h : Held}
    (hs : Only F s₀ s) (hF : Within 268435456 F) :
    Only F s₀ (unhold s h) := by
  unfold unhold
  repeat' first
    | with_reducible assumption
    | (intro _ _ _ _; try dsimp -zeta only)
    | (intro _ _ _; try dsimp -zeta only)
    | (intro _ _; try dsimp -zeta only)
    | (intro _; try dsimp -zeta only)
    | (extract_lets +onlyGivenNames y; refine cut (p := Only F s₀ y) ?_ (fun _ => ?_); rotate_left; clear_value y; rotate_right; subst y)
    | (extract_lets +onlyGivenNames y; try clear_value y)
    | with_reducible apply State.setLink_only
    | with_reducible exact hF.of (by decide)
    | split
    | with_reducible apply Only.fabric

theorem takeCopy_only {F : Nat} {s₀ : State} {s : State} {c : Copy}
    (hs : Only F s₀ s) (hF : Within 268435456 F) :
    Only F s₀ (takeCopy s c) := by
  unfold takeCopy
  repeat' first
    | with_reducible assumption
    | (intro _ _ _ _; try dsimp -zeta only)
    | (intro _ _ _; try dsimp -zeta only)
    | (intro _ _; try dsimp -zeta only)
    | (intro _; try dsimp -zeta only)
    | (extract_lets +onlyGivenNames y; refine cut (p := Only F s₀ y) ?_ (fun _ => ?_); rotate_left; clear_value y; rotate_right; subst y)
    | (extract_lets +onlyGivenNames y; try clear_value y)
    | with_reducible apply unhold_only
    | with_reducible exact hF.of (by decide)
    | with_reducible apply Only.ite
    | split
    | with_reducible apply Only.fabric

theorem leave_only {F : Nat} {s₀ : State} {s : State} {c : Copy}
    (hs : Only F s₀ s) (hF : Within 268435520 F) :
    OnlyP F s₀ (leave s c) := by
  unfold leave
  repeat' first
    | with_reducible assumption
    | (intro _ _ _ _; try dsimp -zeta only)
    | (intro _ _ _; try dsimp -zeta only)
    | (intro _ _; try dsimp -zeta only)
    | (intro _; try dsimp -zeta only)
    | (extract_lets +onlyGivenNames y; refine cut (p := Only F s₀ y) ?_ (fun _ => ?_); rotate_left; clear_value y; rotate_right; subst y)
    | (extract_lets +onlyGivenNames y; refine cut (p := OnlyP F s₀ y) ?_ (fun _ => ?_); rotate_left; clear_value y; rotate_right; subst y)
    | (extract_lets +onlyGivenNames y; try clear_value y)
    | with_reducible apply State.count64_only
    | with_reducible apply takeCopy_only
    | with_reducible exact hF.of (by decide)
    | with_reducible apply Only.ite
    | with_reducible apply OnlyP.ite
    | split
    | with_reducible apply OnlyP.mk'
    | with_reducible refine OnlyP.of_eq (by assumption) ?_
    | with_reducible apply OnlyP.snd
    | with_reducible exact OnlyP.elim (by assumption)

theorem served_only {F : Nat} {s₀ : State} {s : State} {t : Nat} {port : Nat} {vc : Nat}
    (hs : Only F s₀ s) (hF : Within 268435456 F) :
    Only F s₀ (served s t port vc) := by
  unfold served
  repeat' first
    | with_reducible assumption
    | (intro _ _ _ _; try dsimp -zeta only)
    | (intro _ _ _; try dsimp -zeta only)
    | (intro _ _; try dsimp -zeta only)
    | (intro _; try dsimp -zeta only)
    | with_reducible exact hF.of (by decide)
    | with_reducible apply Only.ite
    | split
    | with_reducible apply Only.fabric

theorem hold_only {F : Nat} {s₀ : State} {s : State} {t : Nat} {port : Nat} {via : Option ModLink} {c : Transit} {bs : List Branch}
    (hs : Only F s₀ s) (hF : Within 268435456 F) :
    Only F s₀ (hold s t port via c bs) := by
  unfold hold
  repeat' first
    | with_reducible assumption
    | (intro _ _ _ _; try dsimp -zeta only)
    | (intro _ _ _; try dsimp -zeta only)
    | (intro _ _; try dsimp -zeta only)
    | (intro _; try dsimp -zeta only)
    | (extract_lets +onlyGivenNames y; refine cut (p := Only F s₀ y) ?_ (fun _ => ?_); rotate_left; clear_value y; rotate_right; subst y)
    | (extract_lets +onlyGivenNames y; try clear_value y)
    | with_reducible exact hF.of (by decide)
    | with_reducible apply Only.ite
    | split
    | with_reducible apply Only.fabric

theorem inject_only {F : Nat} {s₀ : State} {s : State} {t : Nat} {port : Nat} {p : Packet} {bs : List Branch}
    (hs : Only F s₀ s) (hF : Within 268435456 F) :
    Only F s₀ (inject s t port p bs) := by
  unfold inject
  repeat' first
    | with_reducible assumption
    | (intro _ _ _ _; try dsimp -zeta only)
    | (intro _ _ _; try dsimp -zeta only)
    | (intro _ _; try dsimp -zeta only)
    | (intro _; try dsimp -zeta only)
    | with_reducible apply hold_only
    | with_reducible exact hF.of (by decide)
    | with_reducible apply Only.ite
    | split
    | with_reducible apply Only.fabric

theorem putAnswer_only {F : Nat} {s₀ : State} {s : State} {ep : Endpoint} {p : Packet}
    (hs : Only F s₀ s) (hF : Within 268435520 F) :
    OnlyP F s₀ (putAnswer s ep p) := by
  unfold putAnswer
  repeat' first
    | with_reducible assumption
    | (intro _ _ _ _; try dsimp -zeta only)
    | (intro _ _ _; try dsimp -zeta only)
    | (intro _ _; try dsimp -zeta only)
    | (intro _; try dsimp -zeta only)
    | (extract_lets +onlyGivenNames y; refine cut (p := Only F s₀ y) ?_ (fun _ => ?_); rotate_left; clear_value y; rotate_right; subst y)
    | (extract_lets +onlyGivenNames y; refine cut (p := OnlyP F s₀ y) ?_ (fun _ => ?_); rotate_left; clear_value y; rotate_right; subst y)
    | (extract_lets +onlyGivenNames y; try clear_value y)
    | with_reducible apply State.count64_only
    | with_reducible apply inject_only
    | with_reducible exact hF.of (by decide)
    | with_reducible apply Only.ite
    | with_reducible apply OnlyP.ite
    | split
    | with_reducible apply OnlyP.mk'
    | with_reducible refine OnlyP.of_eq (by assumption) ?_
    | with_reducible apply OnlyP.snd
    | with_reducible exact OnlyP.elim (by assumption)

theorem dropPacket_only {F : Nat} {s₀ : State} {s : State} {t : Nat} {vc0 : Nat} {p : Packet} {reason : Nat}
    (hs : Only F s₀ s) (hF : Within 268435520 F) :
    Only F s₀ (dropPacket s t vc0 p reason) := by
  unfold dropPacket
  repeat' first
    | with_reducible assumption
    | (intro _ _ _ _; try dsimp -zeta only)
    | (intro _ _ _; try dsimp -zeta only)
    | (intro _ _; try dsimp -zeta only)
    | (intro _; try dsimp -zeta only)
    | (extract_lets +onlyGivenNames y; refine cut (p := Only F s₀ y) ?_ (fun _ => ?_); rotate_left; clear_value y; rotate_right; subst y)
    | (extract_lets +onlyGivenNames y; refine cut (p := OnlyP F s₀ y) ?_ (fun _ => ?_); rotate_left; clear_value y; rotate_right; subst y)
    | (extract_lets +onlyGivenNames y; try clear_value y)
    | with_reducible apply State.count32_only
    | with_reducible apply putAnswer_only
    | with_reducible exact hF.of (by decide)
    | with_reducible apply Only.ite
    | with_reducible apply OnlyP.ite
    | split
    | with_reducible apply OnlyP.mk'
    | with_reducible refine OnlyP.of_eq (by assumption) ?_
    | with_reducible apply OnlyP.snd
    | with_reducible exact OnlyP.elim (by assumption)

theorem dropGroup_only {F : Nat} {s₀ : State} {s : State} {t : Nat} {vc0 : Nat} {p : Packet}
    (hs : Only F s₀ s) (hF : Within 268436552 F) :
    Only F s₀ (dropGroup s t vc0 p) := by
  unfold dropGroup
  repeat' first
    | with_reducible assumption
    | (intro _ _ _ _; try dsimp -zeta only)
    | (intro _ _ _; try dsimp -zeta only)
    | (intro _ _; try dsimp -zeta only)
    | (intro _; try dsimp -zeta only)
    | with_reducible apply post_only
    | with_reducible apply dropPacket_only
    | with_reducible exact hF.of (by decide)

theorem routeLosses_only {F : Nat} {s₀ : State} {s : State} {t : Nat} {vc0 : Nat} {p : Packet} {r : Route}
    (hs : Only F s₀ s) (hF : Within 268436552 F) :
    Only F s₀ (routeLosses s t vc0 p r) := by
  unfold routeLosses
  repeat' first
    | with_reducible assumption
    | (intro _ _ _ _; try dsimp -zeta only)
    | (intro _ _ _; try dsimp -zeta only)
    | (intro _ _; try dsimp -zeta only)
    | (intro _; try dsimp -zeta only)
    | (extract_lets +onlyGivenNames y; refine cut (p := Only F s₀ y) ?_ (fun _ => ?_); rotate_left; clear_value y; rotate_right; subst y)
    | (extract_lets +onlyGivenNames y; try clear_value y)
    | with_reducible apply post_only
    | with_reducible apply State.count32_only
    | with_reducible apply dropPacket_only
    | with_reducible apply dropGroup_only
    | with_reducible exact hF.of (by decide)
    | with_reducible apply Only.foldl
    | with_reducible apply Only.ite
    | split

theorem sendAnswer_only {F : Nat} {s₀ : State} {s : State} {ep : Endpoint} {p : Packet}
    (hs : Only F s₀ s) (hF : Within 268436552 F) :
    Only F s₀ (sendAnswer s ep p) := by
  unfold sendAnswer
  repeat' first
    | with_reducible assumption
    | (intro _ _ _ _; try dsimp -zeta only)
    | (intro _ _ _; try dsimp -zeta only)
    | (intro _ _; try dsimp -zeta only)
    | (intro _; try dsimp -zeta only)
    | (extract_lets +onlyGivenNames y; refine cut (p := Only F s₀ y) ?_ (fun _ => ?_); rotate_left; clear_value y; rotate_right; subst y)
    | (extract_lets +onlyGivenNames y; refine cut (p := OnlyP F s₀ y) ?_ (fun _ => ?_); rotate_left; clear_value y; rotate_right; subst y)
    | (extract_lets +onlyGivenNames y; try clear_value y)
    | with_reducible apply putAnswer_only
    | with_reducible apply routeLosses_only
    | with_reducible exact hF.of (by decide)
    | split
    | with_reducible apply OnlyP.mk'
    | with_reducible refine OnlyP.of_eq (by assumption) ?_
    | with_reducible apply OnlyP.snd
    | with_reducible exact OnlyP.elim (by assumption)

theorem arrive_only {F : Nat} {s₀ : State} {s : State} {t : Nat} {port : Nat} {inn : Option Nat} {via : Option ModLink} {goal : Goal} {c : Transit}
    (hs : Only F s₀ s) (hF : Within 268436552 F) :
    Only F s₀ (arrive s t port inn via goal c) := by
  unfold arrive
  repeat' first
    | with_reducible assumption
    | (intro _ _ _ _; try dsimp -zeta only)
    | (intro _ _ _; try dsimp -zeta only)
    | (intro _ _; try dsimp -zeta only)
    | (intro _; try dsimp -zeta only)
    | (extract_lets +onlyGivenNames y; refine cut (p := Only F s₀ y) ?_ (fun _ => ?_); rotate_left; clear_value y; rotate_right; subst y)
    | (extract_lets +onlyGivenNames y; try clear_value y)
    | with_reducible apply State.count32_only
    | with_reducible apply hold_only
    | with_reducible apply dropPacket_only
    | with_reducible apply routeLosses_only
    | with_reducible exact hF.of (by decide)
    | with_reducible apply Only.ite
    | split

theorem flushOutbox_only {F : Nat} {s₀ : State} {s : State}
    (hs : Only F s₀ s) (hF : Within 268436552 F) :
    Only F s₀ (flushOutbox s) := by
  unfold flushOutbox
  repeat' first
    | with_reducible assumption
    | (intro _ _ _ _; try dsimp -zeta only)
    | (intro _ _ _; try dsimp -zeta only)
    | (intro _ _; try dsimp -zeta only)
    | (intro _; try dsimp -zeta only)
    | (extract_lets +onlyGivenNames y; refine cut (p := Only F s₀ y) ?_ (fun _ => ?_); rotate_left; clear_value y; rotate_right; subst y)
    | (extract_lets +onlyGivenNames y; try clear_value y)
    | with_reducible apply arrive_only
    | with_reducible exact hF.of (by decide)
    | with_reducible apply Only.foldl
    | with_reducible apply Only.ite
    | split
    | with_reducible apply Only.fabric

theorem openConn_only {F : Nat} {s₀ : State} {s : State} {src : Endpoint} {key : Nat}
    (hs : Only F s₀ s) (hF : Within 268435456 F) :
    OnlyO F s₀ (openConn s src key) := by
  unfold openConn
  repeat' first
    | with_reducible assumption
    | with_reducible apply OnlyO.some
    | with_reducible apply OnlyO.none
    | split
    | (dsimp only; with_reducible apply Only.fabric)
    | with_reducible exact hF.of (by decide)

theorem enterMesh_only {F : Nat} {s₀ : State} {s : State} {src : Endpoint} {p : Packet}
    (hs : Only F s₀ s) (hF : Within 268436552 F) :
    Only F s₀ (enterMesh s src p) := by
  unfold enterMesh
  repeat' first
    | with_reducible assumption
    | (intro _ _ _ _; try dsimp -zeta only)
    | (intro _ _ _; try dsimp -zeta only)
    | (intro _ _; try dsimp -zeta only)
    | (intro _; try dsimp -zeta only)
    | (extract_lets +onlyGivenNames y; refine cut (p := Only F s₀ y) ?_ (fun _ => ?_); rotate_left; clear_value y; rotate_right; subst y)
    | (extract_lets +onlyGivenNames y; try clear_value y)
    | with_reducible apply State.count64_only
    | with_reducible apply inject_only
    | with_reducible apply routeLosses_only
    | with_reducible exact hF.of (by decide)
    | with_reducible apply Only.ite
    | split

theorem sendOn_only {F : Nat} {s₀ : State} {s : State} {c : Conn} {src : Endpoint} {purpose : Purpose} {need : Nat} {p : Packet}
    (hs : Only F s₀ s) (hF : Within 268436552 F) :
    Only F s₀ (sendOn s c src purpose need p) := by
  unfold sendOn
  repeat' first
    | with_reducible assumption
    | (intro _ _ _ _; try dsimp -zeta only)
    | (intro _ _ _; try dsimp -zeta only)
    | (intro _ _; try dsimp -zeta only)
    | (intro _; try dsimp -zeta only)
    | (extract_lets +onlyGivenNames y; refine cut (p := Only F s₀ y) ?_ (fun _ => ?_); rotate_left; clear_value y; rotate_right; subst y)
    | (extract_lets +onlyGivenNames y; try clear_value y)
    | with_reducible apply enterMesh_only
    | with_reducible exact hF.of (by decide)
    | with_reducible apply Only.ite
    | split
    | with_reducible apply Only.fabric

theorem trySend_only {F : Nat} {s₀ : State} {s : State} {src : Endpoint} {purpose : Purpose} {need : Nat} {p : Packet}
    (hs : Only F s₀ s) (hF : Within 268436552 F) :
    OnlyO F s₀ (trySend s src purpose need p) := by
  unfold trySend
  repeat' first
    | with_reducible assumption
    | (intro _ _ _ _; try dsimp -zeta only)
    | (intro _ _ _; try dsimp -zeta only)
    | (intro _ _; try dsimp -zeta only)
    | (intro _; try dsimp -zeta only)
    | with_reducible apply openConn_only
    | with_reducible apply sendOn_only
    | with_reducible exact hF.of (by decide)
    | with_reducible apply Only.ite
    | with_reducible apply OnlyO.ite
    | split
    | with_reducible apply OnlyO.some
    | with_reducible apply OnlyO.none
    | with_reducible apply OnlyO.getD
    | with_reducible refine OnlyO.of_eq (by assumption) ?_

theorem keepUnsent_only {F : Nat} {s₀ : State} {s : State} {src : Endpoint} {purpose : Purpose} {p : Packet} {since : Option Nat}
    (hs : Only F s₀ s) (hF : Within 268435456 F) :
    Only F s₀ (keepUnsent s src purpose p since) := by
  unfold keepUnsent
  repeat' first
    | with_reducible assumption
    | (intro _ _ _ _; try dsimp -zeta only)
    | (intro _ _ _; try dsimp -zeta only)
    | (intro _ _; try dsimp -zeta only)
    | (intro _; try dsimp -zeta only)
    | with_reducible exact hF.of (by decide)
    | with_reducible apply Only.fabric

theorem sendPacket_only {F : Nat} {s₀ : State} {s : State} {src : Endpoint} {purpose : Purpose} {p : Packet}
    (hs : Only F s₀ s) (hF : Within 268436552 F) :
    Only F s₀ (sendPacket s src purpose p) := by
  unfold sendPacket
  repeat' first
    | with_reducible assumption
    | (intro _ _ _ _; try dsimp -zeta only)
    | (intro _ _ _; try dsimp -zeta only)
    | (intro _ _; try dsimp -zeta only)
    | (intro _; try dsimp -zeta only)
    | (extract_lets +onlyGivenNames y; refine cut (p := Only F s₀ y) ?_ (fun _ => ?_); rotate_left; clear_value y; rotate_right; subst y)
    | (extract_lets +onlyGivenNames y; refine cut (p := OnlyO F s₀ y) ?_ (fun _ => ?_); rotate_left; clear_value y; rotate_right; subst y)
    | (extract_lets +onlyGivenNames y; try clear_value y)
    | with_reducible apply trySend_only
    | with_reducible apply keepUnsent_only
    | with_reducible exact hF.of (by decide)
    | with_reducible apply Only.ite
    | with_reducible apply OnlyO.ite
    | split
    | with_reducible apply OnlyO.some
    | with_reducible apply OnlyO.none
    | with_reducible apply OnlyO.getD
    | with_reducible refine OnlyO.of_eq (by assumption) ?_

theorem countWait_only {F : Nat} {s₀ : State} {s : State} {u : Unsent}
    (hs : Only F s₀ s) (hF : Within 64 F) :
    Only F s₀ (countWait s u) := by
  unfold countWait
  repeat' first
    | with_reducible assumption
    | (intro _ _ _ _; try dsimp -zeta only)
    | (intro _ _ _; try dsimp -zeta only)
    | (intro _ _; try dsimp -zeta only)
    | (intro _; try dsimp -zeta only)
    | with_reducible apply State.count64_only
    | with_reducible exact hF.of (by decide)
    | split

theorem flushUnsent_only {F : Nat} {s₀ : State} {s : State}
    (hs : Only F s₀ s) (hF : Within 268436552 F) :
    Only F s₀ (flushUnsent s) := by
  unfold flushUnsent
  repeat' first
    | with_reducible assumption
    | (intro _ _ _ _; try dsimp -zeta only)
    | (intro _ _ _; try dsimp -zeta only)
    | (intro _ _; try dsimp -zeta only)
    | (intro _; try dsimp -zeta only)
    | (extract_lets +onlyGivenNames y; refine cut (p := Only F s₀ y) ?_ (fun _ => ?_); rotate_left; clear_value y; rotate_right; subst y)
    | (extract_lets +onlyGivenNames y; refine cut (p := OnlyO F s₀ y) ?_ (fun _ => ?_); rotate_left; clear_value y; rotate_right; subst y)
    | (extract_lets +onlyGivenNames y; try clear_value y)
    | with_reducible apply trySend_only
    | with_reducible apply countWait_only
    | with_reducible exact hF.of (by decide)
    | with_reducible apply Only.foldl
    | with_reducible apply Only.ite
    | with_reducible apply OnlyO.ite
    | split
    | with_reducible apply OnlyO.some
    | with_reducible apply OnlyO.none
    | with_reducible apply OnlyO.getD
    | with_reducible refine OnlyO.of_eq (by assumption) ?_
    | with_reducible apply Only.fabric

end Sys2Proof.Machine
end

