-- ==== Sys2Proof/Laws/OnlyMemory.lean ====
section
/-! SUPPORT. What each operation of Sys2Proof/Machine/Memory.lean may change. -/

namespace Sys2Proof.Machine

open Sys2Proof

theorem recordUe_only {F : Nat} {s₀ : State} {s : State} {t : Nat} {off : Nat}
    (hs : Only F s₀ s) (hF : Within 1096 F) :
    Only F s₀ (recordUe s t off) := by
  unfold recordUe
  repeat' first
    | with_reducible assumption
    | (extract_lets +onlyGivenNames y; refine cut (p := Only F s₀ y) ?_ (fun _ => ?_); rotate_left; clear_value y; rotate_right; subst y)
    | (extract_lets +onlyGivenNames y; try clear_value y)
    | with_reducible apply State.count32_only
    | with_reducible apply State.setReg_only
    | with_reducible apply post_only
    | with_reducible exact hF.of (by decide)
    | with_reducible apply Only.ite
    | split

theorem arise_only {F : Nat} {s₀ : State} {s : State} {t : Nat} {errors : List (Nat × EccFinding)}
    (hs : Only F s₀ s) (hF : Within 524288 F) :
    Only F s₀ (arise s t errors) := by
  unfold arise
  repeat' first
    | with_reducible assumption
    | (intro _ _ _ _; try dsimp -zeta only)
    | (intro _ _ _; try dsimp -zeta only)
    | (intro _ _; try dsimp -zeta only)
    | (intro _; try dsimp -zeta only)
    | with_reducible exact hF.of (by decide)
    | with_reducible apply Only.foldl
    | with_reducible apply Only.ite
    | split
    | with_reducible apply Only.badLine

theorem checkLine_only {F : Nat} {s₀ : State} {s : State} {t : Nat} {off : Nat}
    (hs : Only F s₀ s) (hF : Within 787528 F) :
    OnlyP F s₀ (checkLine s t off) := by
  unfold checkLine
  repeat' first
    | with_reducible assumption
    | (intro _ _ _ _; try dsimp -zeta only)
    | (intro _ _ _; try dsimp -zeta only)
    | (intro _ _; try dsimp -zeta only)
    | (intro _; try dsimp -zeta only)
    | (extract_lets +onlyGivenNames y; refine cut (p := Only F s₀ y) ?_ (fun _ => ?_); rotate_left; clear_value y; rotate_right; subst y)
    | (extract_lets +onlyGivenNames y; refine cut (p := OnlyP F s₀ y) ?_ (fun _ => ?_); rotate_left; clear_value y; rotate_right; subst y)
    | (extract_lets +onlyGivenNames y; try clear_value y)
    | with_reducible apply recordUe_only
    | with_reducible apply State.count32_only
    | with_reducible exact hF.of (by decide)
    | with_reducible apply Only.ite
    | with_reducible apply OnlyP.ite
    | split
    | with_reducible apply OnlyP.mk'
    | with_reducible refine OnlyP.of_eq (by assumption) ?_
    | with_reducible apply OnlyP.snd
    | with_reducible exact OnlyP.elim (by assumption)
    | with_reducible apply Only.badLine
    | with_reducible apply Only.poison_badLine

theorem turn_only {F : Nat} {s₀ : State} {s : State} {t : Nat} {g : Nat} {write : Bool}
    (hs : Only F s₀ s) (hF : Within 2097216 F) :
    Only F s₀ (turn s t g write) := by
  unfold turn
  repeat' first
    | with_reducible assumption
    | (intro _ _ _ _; try dsimp -zeta only)
    | (intro _ _ _; try dsimp -zeta only)
    | (intro _ _; try dsimp -zeta only)
    | (intro _; try dsimp -zeta only)
    | (extract_lets +onlyGivenNames y; refine cut (p := Only F s₀ y) ?_ (fun _ => ?_); rotate_left; clear_value y; rotate_right; subst y)
    | (extract_lets +onlyGivenNames y; try clear_value y)
    | with_reducible apply State.count64_only
    | with_reducible apply State.setChannel_only
    | with_reducible exact hF.of (by decide)
    | with_reducible apply Only.ite
    | split

theorem moveGranule_only {F : Nat} {s₀ : State} {s : State} {t : Nat} {count : Nat} {g : Nat} {write : Bool}
    (hs : Only F s₀ s) (hF : Within 2097216 F) :
    Only F s₀ (moveGranule s t count g write) := by
  unfold moveGranule
  repeat' first
    | with_reducible assumption
    | (intro _ _ _ _; try dsimp -zeta only)
    | (intro _ _ _; try dsimp -zeta only)
    | (intro _ _; try dsimp -zeta only)
    | (intro _; try dsimp -zeta only)
    | with_reducible apply turn_only
    | with_reducible apply State.count64_only
    | with_reducible exact hF.of (by decide)

theorem touchGranule_only {F : Nat} {s₀ : State} {s : State} {t : Nat} {g : Nat} {hint : Hint} {mark : Option (Nat × Word)}
    (hs : Only F s₀ s) (hF : Within 3145792 F) :
    Only F s₀ (touchGranule s t g hint mark) := by
  unfold touchGranule
  repeat' first
    | with_reducible assumption
    | (intro _ _ _ _; try dsimp -zeta only)
    | (intro _ _ _; try dsimp -zeta only)
    | (intro _ _; try dsimp -zeta only)
    | (intro _; try dsimp -zeta only)
    | (extract_lets +onlyGivenNames y; refine cut (p := Only F s₀ y) ?_ (fun _ => ?_); rotate_left; clear_value y; rotate_right; subst y)
    | (extract_lets +onlyGivenNames y; try clear_value y)
    | with_reducible apply moveGranule_only
    | with_reducible apply State.count64_only
    | with_reducible exact hF.of (by decide)
    | with_reducible apply Only.ite
    | split
    | with_reducible apply Only.cache

theorem dropGranule_only {F : Nat} {s₀ : State} {s : State} {t : Nat} {g : Nat}
    (hs : Only F s₀ s) (hF : Within 1048576 F) :
    Only F s₀ (dropGranule s t g) := by
  unfold dropGranule
  repeat' first
    | with_reducible assumption
    | (intro _ _ _ _; try dsimp -zeta only)
    | (intro _ _ _; try dsimp -zeta only)
    | (intro _ _; try dsimp -zeta only)
    | (intro _; try dsimp -zeta only)
    | (extract_lets +onlyGivenNames y; refine cut (p := Only F s₀ y) ?_ (fun _ => ?_); rotate_left; clear_value y; rotate_right; subst y)
    | (extract_lets +onlyGivenNames y; try clear_value y)
    | with_reducible exact hF.of (by decide)
    | with_reducible apply Only.ite
    | split
    | with_reducible apply Only.cache

theorem dropCache_only {F : Nat} {s₀ : State} {s : State} {t : Nat}
    (hs : Only F s₀ s) (hF : Within 1048576 F) :
    Only F s₀ (dropCache s t) := by
  unfold dropCache
  repeat' first
    | with_reducible assumption
    | (intro _ _ _ _; try dsimp -zeta only)
    | (intro _ _ _; try dsimp -zeta only)
    | (intro _ _; try dsimp -zeta only)
    | (intro _; try dsimp -zeta only)
    | (extract_lets +onlyGivenNames y; refine cut (p := Only F s₀ y) ?_ (fun _ => ?_); rotate_left; clear_value y; rotate_right; subst y)
    | (extract_lets +onlyGivenNames y; try clear_value y)
    | with_reducible exact hF.of (by decide)
    | with_reducible apply Only.cache

theorem discardPrefetch_only {F : Nat} {s₀ : State} {s : State} {t : Nat} {q : Nat} {ofTask : Word → Bool}
    (hs : Only F s₀ s) (hF : Within 1048576 F) :
    Only F s₀ (discardPrefetch s t q ofTask) := by
  unfold discardPrefetch
  repeat' first
    | with_reducible assumption
    | (intro _ _ _ _; try dsimp -zeta only)
    | (intro _ _ _; try dsimp -zeta only)
    | (intro _ _; try dsimp -zeta only)
    | (intro _; try dsimp -zeta only)
    | with_reducible exact hF.of (by decide)
    | with_reducible apply Only.ite
    | split
    | with_reducible apply Only.cache

theorem readLine_only {F : Nat} {s₀ : State} {s : State} {t : Nat} {off : Nat}
    (hs : Only F s₀ s) (hF : Within 787528 F) :
    OnlyP F s₀ (readLine s t off) := by
  unfold readLine
  repeat' first
    | with_reducible assumption
    | (intro _ _ _ _; try dsimp -zeta only)
    | (intro _ _ _; try dsimp -zeta only)
    | (intro _ _; try dsimp -zeta only)
    | (intro _; try dsimp -zeta only)
    | (extract_lets +onlyGivenNames y; refine cut (p := Only F s₀ y) ?_ (fun _ => ?_); rotate_left; clear_value y; rotate_right; subst y)
    | (extract_lets +onlyGivenNames y; refine cut (p := OnlyP F s₀ y) ?_ (fun _ => ?_); rotate_left; clear_value y; rotate_right; subst y)
    | (extract_lets +onlyGivenNames y; try clear_value y)
    | with_reducible apply checkLine_only
    | with_reducible apply State.count32_only
    | with_reducible exact hF.of (by decide)
    | with_reducible apply Only.ite
    | with_reducible apply OnlyP.ite
    | split
    | with_reducible apply OnlyP.mk'
    | with_reducible refine OnlyP.of_eq (by assumption) ?_
    | with_reducible apply OnlyP.snd
    | with_reducible exact OnlyP.elim (by assumption)

theorem readLines_only {F : Nat} {s₀ : State} {s : State} {t : Nat} {offs : List Nat} {hint : Hint}
    (hs : Only F s₀ s) (hF : Within 3933256 F) :
    OnlyP F s₀ (readLines s t offs hint) := by
  unfold readLines
  repeat' first
    | with_reducible assumption
    | (intro _ _ _ _; try dsimp -zeta only)
    | (intro _ _ _; try dsimp -zeta only)
    | (intro _ _; try dsimp -zeta only)
    | (intro _; try dsimp -zeta only)
    | (extract_lets +onlyGivenNames y; refine cut (p := Only F s₀ y) ?_ (fun _ => ?_); rotate_left; clear_value y; rotate_right; subst y)
    | (extract_lets +onlyGivenNames y; refine cut (p := OnlyP F s₀ y) ?_ (fun _ => ?_); rotate_left; clear_value y; rotate_right; subst y)
    | (extract_lets +onlyGivenNames y; try clear_value y)
    | with_reducible apply touchGranule_only
    | with_reducible apply readLine_only
    | with_reducible exact hF.of (by decide)
    | with_reducible apply Only.foldl
    | with_reducible apply OnlyP.foldl
    | with_reducible apply OnlyF.foldl
    | split
    | with_reducible apply OnlyP.mk'
    | with_reducible apply OnlyF.mk'
    | with_reducible refine OnlyP.of_eq (by assumption) ?_
    | with_reducible apply OnlyP.snd
    | with_reducible exact OnlyP.elim (by assumption)
    | with_reducible refine OnlyF.of_eq (by assumption) ?_
    | with_reducible apply OnlyF.fst
    | with_reducible exact OnlyF.elim (by assumption)

theorem mirrorLevel_only {F : Nat} {s₀ : State} {s : State}
    (hs : Only F s₀ s) (hF : Within 1032 F) :
    Only F s₀ (mirrorLevel s) := by
  unfold mirrorLevel
  repeat' first
    | with_reducible assumption
    | (extract_lets +onlyGivenNames y; refine cut (p := Only F s₀ y) ?_ (fun _ => ?_); rotate_left; clear_value y; rotate_right; subst y)
    | (extract_lets +onlyGivenNames y; try clear_value y)
    | with_reducible apply setLevel_only
    | with_reducible exact hF.of (by decide)
    | split

theorem mirrorInvalid_only {F : Nat} {s₀ : State} {s : State} {t : Nat} {w : Nat} {cause : Nat}
    (hs : Only F s₀ s) (hF : Within 137438954504 F) :
    Only F s₀ (mirrorInvalid s t w cause) := by
  unfold mirrorInvalid
  repeat' first
    | with_reducible assumption
    | (extract_lets +onlyGivenNames y; refine cut (p := Only F s₀ y) ?_ (fun _ => ?_); rotate_left; clear_value y; rotate_right; subst y)
    | (extract_lets +onlyGivenNames y; try clear_value y)
    | with_reducible apply mirrorLevel_only
    | with_reducible apply State.setMirror_only
    | with_reducible exact hF.of (by decide)
    | with_reducible apply Only.ite
    | split

theorem mirrorWrite_only {F : Nat} {s₀ : State} {s : State} {t : Nat} {off : Nat} {who : MirrorOwner}
    (hs : Only F s₀ s) (hF : Within 137707390024 F) :
    Only F s₀ (mirrorWrite s t off who) := by
  unfold mirrorWrite
  repeat' first
    | with_reducible assumption
    | (intro _ _ _ _; try dsimp -zeta only)
    | (intro _ _ _; try dsimp -zeta only)
    | (intro _ _; try dsimp -zeta only)
    | (intro _; try dsimp -zeta only)
    | (extract_lets +onlyGivenNames y; refine cut (p := Only F s₀ y) ?_ (fun _ => ?_); rotate_left; clear_value y; rotate_right; subst y)
    | (extract_lets +onlyGivenNames y; try clear_value y)
    | with_reducible apply State.count64_only
    | with_reducible apply State.setMirror_only
    | with_reducible apply sendPacket_only
    | with_reducible exact hF.of (by decide)
    | with_reducible apply Only.each
    | with_reducible apply Only.ite
    | split

theorem stashMark_only {F : Nat} {s₀ : State} {s : State} {t : Nat} {off : Nat}
    (hs : Only F s₀ s) (hF : Within 64 F) :
    Only F s₀ (stashMark s t off) := by
  unfold stashMark
  repeat' first
    | with_reducible assumption
    | (extract_lets +onlyGivenNames y; refine cut (p := Only F s₀ y) ?_ (fun _ => ?_); rotate_left; clear_value y; rotate_right; subst y)
    | (extract_lets +onlyGivenNames y; try clear_value y)
    | with_reducible apply State.setReg_only
    | with_reducible exact hF.of (by decide)
    | with_reducible apply Only.ite
    | split

theorem writeLine_only {F : Nat} {s₀ : State} {s : State} {t : Nat} {off : Nat} {l : Line} {who : MirrorOwner}
    (hs : Only F s₀ s) (hF : Within 137708307528 F) :
    Only F s₀ (writeLine s t off l who) := by
  unfold writeLine
  repeat' first
    | with_reducible assumption
    | (intro _ _ _ _; try dsimp -zeta only)
    | (intro _ _ _; try dsimp -zeta only)
    | (intro _ _; try dsimp -zeta only)
    | (intro _; try dsimp -zeta only)
    | (extract_lets +onlyGivenNames y; refine cut (p := Only F s₀ y) ?_ (fun _ => ?_); rotate_left; clear_value y; rotate_right; subst y)
    | (extract_lets +onlyGivenNames y; try clear_value y)
    | with_reducible apply mirrorWrite_only
    | with_reducible apply stashMark_only
    | with_reducible apply State.setLine_only
    | with_reducible exact hF.of (by decide)
    | with_reducible apply Only.ite
    | split
    | with_reducible apply Only.poison_badLine

theorem moveOut_only {F : Nat} {s₀ : State} {s : State} {t : Nat} {count : Nat} {offs : List Nat}
    (hs : Only F s₀ s) (hF : Within 2097216 F) :
    Only F s₀ (moveOut s t count offs) := by
  unfold moveOut
  repeat' first
    | with_reducible assumption
    | (intro _ _ _ _; try dsimp -zeta only)
    | (intro _ _ _; try dsimp -zeta only)
    | (intro _ _; try dsimp -zeta only)
    | (intro _; try dsimp -zeta only)
    | with_reducible apply moveGranule_only
    | with_reducible exact hF.of (by decide)
    | with_reducible apply Only.foldl

theorem writeLines_only {F : Nat} {s₀ : State} {s : State} {t : Nat} {ls : List (Nat × Line)} {who : MirrorOwner}
    (hs : Only F s₀ s) (hF : Within 137710404680 F) :
    Only F s₀ (writeLines s t ls who) := by
  unfold writeLines
  repeat' first
    | with_reducible assumption
    | (intro _ _ _ _; try dsimp -zeta only)
    | (intro _ _ _; try dsimp -zeta only)
    | (intro _ _; try dsimp -zeta only)
    | (intro _; try dsimp -zeta only)
    | with_reducible apply writeLine_only
    | with_reducible apply moveOut_only
    | with_reducible exact hF.of (by decide)
    | with_reducible apply Only.foldl

theorem accLine_only {F : Nat} {s₀ : State} {s : State} {t : Nat} {off : Nat} {kf16 : Bool} {l : Line} {who : MirrorOwner}
    (hs : Only F s₀ s) (hF : Within 137709356104 F) :
    OnlyP F s₀ (accLine s t off kf16 l who) := by
  unfold accLine
  repeat' first
    | with_reducible assumption
    | (intro _ _ _ _; try dsimp -zeta only)
    | (intro _ _ _; try dsimp -zeta only)
    | (intro _ _; try dsimp -zeta only)
    | (intro _; try dsimp -zeta only)
    | (extract_lets +onlyGivenNames y; refine cut (p := Only F s₀ y) ?_ (fun _ => ?_); rotate_left; clear_value y; rotate_right; subst y)
    | (extract_lets +onlyGivenNames y; refine cut (p := OnlyP F s₀ y) ?_ (fun _ => ?_); rotate_left; clear_value y; rotate_right; subst y)
    | (extract_lets +onlyGivenNames y; try clear_value y)
    | with_reducible apply dropGranule_only
    | with_reducible apply readLine_only
    | with_reducible apply mirrorWrite_only
    | with_reducible apply stashMark_only
    | with_reducible apply State.setReg_only
    | with_reducible apply State.setLine_only
    | with_reducible exact hF.of (by decide)
    | with_reducible apply Only.ite
    | with_reducible apply OnlyP.ite
    | split
    | with_reducible apply OnlyP.mk'
    | with_reducible refine OnlyP.of_eq (by assumption) ?_
    | with_reducible apply OnlyP.snd
    | with_reducible exact OnlyP.elim (by assumption)

theorem accLines_only {F : Nat} {s₀ : State} {s : State} {t : Nat} {kf16 : Bool} {ls : List (Nat × Line)} {who : MirrorOwner}
    (hs : Only F s₀ s) (hF : Within 137711453256 F) :
    OnlyP F s₀ (accLines s t kf16 ls who) := by
  unfold accLines
  repeat' first
    | with_reducible assumption
    | (intro _ _ _ _; try dsimp -zeta only)
    | (intro _ _ _; try dsimp -zeta only)
    | (intro _ _; try dsimp -zeta only)
    | (intro _; try dsimp -zeta only)
    | (extract_lets +onlyGivenNames y; refine cut (p := Only F s₀ y) ?_ (fun _ => ?_); rotate_left; clear_value y; rotate_right; subst y)
    | (extract_lets +onlyGivenNames y; refine cut (p := OnlyP F s₀ y) ?_ (fun _ => ?_); rotate_left; clear_value y; rotate_right; subst y)
    | (extract_lets +onlyGivenNames y; try clear_value y)
    | with_reducible apply moveOut_only
    | with_reducible apply accLine_only
    | with_reducible exact hF.of (by decide)
    | with_reducible apply Only.foldl
    | with_reducible apply OnlyP.foldl
    | with_reducible apply OnlyP.mk'
    | with_reducible refine OnlyP.of_eq (by assumption) ?_
    | with_reducible apply OnlyP.snd
    | with_reducible exact OnlyP.elim (by assumption)

theorem execScrubUnit_only {F : Nat} {s₀ : State} {t : Fin 64} {place : ScrubPlace} {errors : List (Nat × EccFinding)} {s : State}
    (hs : Only F s₀ s) (hF : Within 7078984 F) :
    OnlyN F s₀ (execScrubUnit t place errors s) := by
  unfold execScrubUnit
  repeat' first
    | with_reducible assumption
    | (intro _ _ _ _; try dsimp -zeta only)
    | (intro _ _ _; try dsimp -zeta only)
    | (intro _ _; try dsimp -zeta only)
    | (intro _; try dsimp -zeta only)
    | (extract_lets +onlyGivenNames y; refine cut (p := Only F s₀ y) ?_ (fun _ => ?_); rotate_left; clear_value y; rotate_right; subst y)
    | (extract_lets +onlyGivenNames y; refine cut (p := OnlyP F s₀ y) ?_ (fun _ => ?_); rotate_left; clear_value y; rotate_right; subst y)
    | (extract_lets +onlyGivenNames y; try clear_value y)
    | with_reducible apply arise_only
    | with_reducible apply checkLine_only
    | with_reducible apply State.count32_only
    | with_reducible apply State.modTile_only
    | with_reducible apply State.setChannel_only
    | with_reducible exact hF.of (by decide)
    | with_reducible apply Only.ite
    | with_reducible apply OnlyP.ite
    | with_reducible apply OnlyN.ite
    | split
    | with_reducible apply OnlyN.next
    | with_reducible apply OnlyP.mk'
    | with_reducible refine OnlyP.of_eq (by assumption) ?_
    | with_reducible apply OnlyP.snd
    | with_reducible exact OnlyP.elim (by assumption)

theorem showZero_only {F : Nat} {s₀ : State} {s : State} {t : Nat}
    (hs : Only F s₀ s) (hF : Within 64 F) :
    Only F s₀ (showZero s t) := by
  unfold showZero
  repeat' first
    | with_reducible assumption
    | with_reducible apply State.setReg_only
    | with_reducible exact hF.of (by decide)

theorem startZero_only {F : Nat} {s₀ : State} {s : State} {t : Nat}
    (hs : Only F s₀ s) (hF : Within 4194368 F) :
    Only F s₀ (startZero s t) := by
  unfold startZero
  repeat' first
    | with_reducible assumption
    | (intro _ _ _ _; try dsimp -zeta only)
    | (intro _ _ _; try dsimp -zeta only)
    | (intro _ _; try dsimp -zeta only)
    | (intro _; try dsimp -zeta only)
    | (extract_lets +onlyGivenNames y; refine cut (p := Only F s₀ y) ?_ (fun _ => ?_); rotate_left; clear_value y; rotate_right; subst y)
    | (extract_lets +onlyGivenNames y; try clear_value y)
    | with_reducible apply showZero_only
    | with_reducible apply State.modTile_only
    | with_reducible exact hF.of (by decide)

theorem startZeroBasket_only {F : Nat} {s₀ : State} {s : State} {t : Nat} {lo : Nat} {hi : Nat}
    (hs : Only F s₀ s) (hF : Within 4194368 F) :
    Only F s₀ (startZeroBasket s t lo hi) := by
  unfold startZeroBasket
  repeat' first
    | with_reducible assumption
    | (intro _ _ _ _; try dsimp -zeta only)
    | (intro _ _ _; try dsimp -zeta only)
    | (intro _ _; try dsimp -zeta only)
    | (intro _; try dsimp -zeta only)
    | (extract_lets +onlyGivenNames y; refine cut (p := Only F s₀ y) ?_ (fun _ => ?_); rotate_left; clear_value y; rotate_right; subst y)
    | (extract_lets +onlyGivenNames y; try clear_value y)
    | with_reducible apply showZero_only
    | with_reducible apply State.modTile_only
    | with_reducible exact hF.of (by decide)
    | with_reducible apply Only.ite
    | split

theorem clearWhere_only {F : Nat} {s₀ : State} {s : State} {t : Nat} {f : Nat → Bool}
    (hs : Only F s₀ s) (hF : Within 917504 F) :
    Only F s₀ (clearWhere s t f) := by
  exact Only.mem_poison_badLine hs hF (mwf_mdrop _)

theorem execZeroingStep_only {F : Nat} {s₀ : State} {t : Fin 64} {paces : Nat} {s : State}
    (hs : Only F s₀ s) (hF : Within 1078853702 F) :
    OnlyN F s₀ (execZeroingStep t paces s) := by
  unfold execZeroingStep
  repeat' first
    | with_reducible assumption
    | (intro _ _ _ _; try dsimp -zeta only)
    | (intro _ _ _; try dsimp -zeta only)
    | (intro _ _; try dsimp -zeta only)
    | (intro _; try dsimp -zeta only)
    | (extract_lets +onlyGivenNames y; refine cut (p := Only F s₀ y) ?_ (fun _ => ?_); rotate_left; clear_value y; rotate_right; subst y)
    | (extract_lets +onlyGivenNames y; try clear_value y)
    | with_reducible apply State.passTo_only
    | with_reducible apply clearWhere_only
    | with_reducible apply State.modTile_only
    | with_reducible apply showZero_only
    | with_reducible exact hF.of (by decide)
    | with_reducible apply Only.ite
    | with_reducible apply OnlyN.ite
    | split
    | with_reducible apply OnlyN.next

theorem foldMem_only {F : Nat} {s₀ : State} {s : State} {t : Nat}
    (hs : Only F s₀ s) (hF : Within 6165704 F) :
    Only F s₀ (foldMem s t) := by
  unfold foldMem
  repeat' first
    | with_reducible assumption
    | (extract_lets +onlyGivenNames y; refine cut (p := Only F s₀ y) ?_ (fun _ => ?_); rotate_left; clear_value y; rotate_right; subst y)
    | (extract_lets +onlyGivenNames y; try clear_value y)
    | with_reducible apply State.foldReg_only
    | with_reducible apply reportClamp_only
    | with_reducible apply State.setField_only
    | with_reducible apply dropCache_only
    | with_reducible apply startZeroBasket_only
    | with_reducible apply clearWhere_only
    | with_reducible exact hF.of (by decide)
    | with_reducible apply Only.ite
    | split

theorem execStashHwmClear_only {F : Nat} {s₀ : State} {p : Path} {t : Fin 64} {s : State}
    (hs : Only F s₀ s) (hF : Within 5208 F) :
    OnlyN F s₀ (execStashHwmClear p t s) := by
  unfold execStashHwmClear
  repeat' first
    | with_reducible assumption
    | (intro _ _ _ _; try dsimp -zeta only)
    | (intro _ _ _; try dsimp -zeta only)
    | (intro _ _; try dsimp -zeta only)
    | (intro _; try dsimp -zeta only)
    | with_reducible apply ownerWrite_only
    | with_reducible apply State.setReg_only
    | with_reducible exact hF.of (by decide)
    | with_reducible apply OnlyN.next

theorem clearErrAddr_only {F : Nat} {s₀ : State} {s : State} {t : Nat}
    (hs : Only F s₀ s) (hF : Within 64 F) :
    Only F s₀ (clearErrAddr s t) := by
  unfold clearErrAddr
  repeat' first
    | with_reducible assumption
    | with_reducible apply State.setReg_only
    | with_reducible exact hF.of (by decide)

theorem execMemErrAddrClear_only {F : Nat} {s₀ : State} {p : Path} {t : Fin 64} {s : State}
    (hs : Only F s₀ s) (hF : Within 5208 F) :
    OnlyN F s₀ (execMemErrAddrClear p t s) := by
  unfold execMemErrAddrClear
  repeat' first
    | with_reducible assumption
    | (intro _ _ _ _; try dsimp -zeta only)
    | (intro _ _ _; try dsimp -zeta only)
    | (intro _ _; try dsimp -zeta only)
    | (intro _; try dsimp -zeta only)
    | with_reducible apply ownerWrite_only
    | with_reducible apply clearErrAddr_only
    | with_reducible exact hF.of (by decide)
    | with_reducible apply OnlyN.next

end Sys2Proof.Machine
end

