-- ==== Sys2Proof/Laws/OnlyOperands.lean ====
section
/-! SUPPORT. What each operation of Sys2Proof/Machine/Operands.lean may change. -/

namespace Sys2Proof.Machine

open Sys2Proof

theorem readDesc_only {F : Nat} {s₀ : State} {s : State} {t : Nat} {copies : SMap (Option Line)} {field : Nat} {slot : Nat}
    (hs : Only F s₀ s) (hF : Within 787528 F) :
    OnlyP F s₀ (readDesc s t copies field slot) := by
  unfold readDesc
  repeat' first
    | with_reducible assumption
    | with_reducible apply readLine_only
    | with_reducible exact hF.of (by decide)
    | with_reducible apply OnlyP.ite
    | split
    | with_reducible apply OnlyP.mk'
    | with_reducible refine OnlyP.of_eq (by assumption) ?_
    | with_reducible apply OnlyP.snd
    | with_reducible exact OnlyP.elim (by assumption)

theorem useDesc_only {F : Nat} {s₀ : State} {s : State} {t : Nat} {copies : SMap (Option Line)} {field : Nat} {slot : Nat} {w : Need}
    (hs : Only F s₀ s) (hF : Within 787528 F) :
    OnlyP F s₀ (useDesc s t copies field slot w) := by
  unfold useDesc
  repeat' first
    | with_reducible assumption
    | with_reducible apply readDesc_only
    | with_reducible exact hF.of (by decide)
    | split
    | with_reducible apply OnlyP.mk'
    | with_reducible refine OnlyP.of_eq (by assumption) ?_
    | with_reducible apply OnlyP.snd
    | with_reducible exact OnlyP.elim (by assumption)

theorem loadHinted_only {F : Nat} {s₀ : State} {s : State} {t : Nat} {d : Desc} {first : Nat} {n : Nat} {hint : Hint}
    (hs : Only F s₀ s) (hF : Within 3933256 F) :
    OnlyP F s₀ (loadHinted s t d first n hint) := by
  unfold loadHinted
  repeat' first
    | with_reducible assumption
    | (intro _ _ _ _; try dsimp -zeta only)
    | (intro _ _ _; try dsimp -zeta only)
    | (intro _ _; try dsimp -zeta only)
    | (intro _; try dsimp -zeta only)
    | (extract_lets +onlyGivenNames y; refine cut (p := Only F s₀ y) ?_ (fun _ => ?_); rotate_left; clear_value y; rotate_right; subst y)
    | (extract_lets +onlyGivenNames y; refine cut (p := OnlyP F s₀ y) ?_ (fun _ => ?_); rotate_left; clear_value y; rotate_right; subst y)
    | (extract_lets +onlyGivenNames y; try clear_value y)
    | with_reducible apply readLines_only
    | with_reducible exact hF.of (by decide)
    | with_reducible apply Only.ite
    | with_reducible apply OnlyP.ite
    | split
    | with_reducible apply OnlyP.mk'
    | with_reducible refine OnlyP.of_eq (by assumption) ?_
    | with_reducible apply OnlyP.snd
    | with_reducible exact OnlyP.elim (by assumption)

theorem loadElems_only {F : Nat} {s₀ : State} {s : State} {t : Nat} {d : Desc} {first : Nat} {n : Nat}
    (hs : Only F s₀ s) (hF : Within 3933256 F) :
    OnlyP F s₀ (loadElems s t d first n) := by
  unfold loadElems
  repeat' first
    | with_reducible assumption
    | (intro _ _ _ _; try dsimp -zeta only)
    | (intro _ _ _; try dsimp -zeta only)
    | (intro _ _; try dsimp -zeta only)
    | (intro _; try dsimp -zeta only)
    | with_reducible apply loadHinted_only
    | with_reducible exact hF.of (by decide)
    | with_reducible apply OnlyP.mk'
    | with_reducible refine OnlyP.of_eq (by assumption) ?_
    | with_reducible apply OnlyP.snd
    | with_reducible exact OnlyP.elim (by assumption)

theorem storeLines_only {F : Nat} {s₀ : State} {s : State} {t : Nat} {d : Desc} {ls : List (Nat × Line)} {who : MirrorOwner}
    (hs : Only F s₀ s) (hF : Within 137711453256 F) :
    OnlyP F s₀ (storeLines s t d ls who) := by
  unfold storeLines
  repeat' first
    | with_reducible assumption
    | (intro _ _ _ _; try dsimp -zeta only)
    | (intro _ _ _; try dsimp -zeta only)
    | (intro _ _; try dsimp -zeta only)
    | (intro _; try dsimp -zeta only)
    | (extract_lets +onlyGivenNames y; refine cut (p := Only F s₀ y) ?_ (fun _ => ?_); rotate_left; clear_value y; rotate_right; subst y)
    | (extract_lets +onlyGivenNames y; refine cut (p := OnlyP F s₀ y) ?_ (fun _ => ?_); rotate_left; clear_value y; rotate_right; subst y)
    | (extract_lets +onlyGivenNames y; try clear_value y)
    | with_reducible apply writeLines_only
    | with_reducible apply accLines_only
    | with_reducible exact hF.of (by decide)
    | with_reducible apply Only.ite
    | with_reducible apply OnlyP.ite
    | split
    | with_reducible apply OnlyP.mk'
    | with_reducible refine OnlyP.of_eq (by assumption) ?_
    | with_reducible apply OnlyP.snd
    | with_reducible exact OnlyP.elim (by assumption)

theorem storeCodes_only {F : Nat} {s₀ : State} {s : State} {t : Nat} {d : Desc} {first : Nat} {codes : List Nat} {who : MirrorOwner}
    (hs : Only F s₀ s) (hF : Within 137711453256 F) :
    OnlyP F s₀ (storeCodes s t d first codes who) := by
  unfold storeCodes
  repeat' first
    | with_reducible assumption
    | (intro _ _ _ _; try dsimp -zeta only)
    | (intro _ _ _; try dsimp -zeta only)
    | (intro _ _; try dsimp -zeta only)
    | (intro _; try dsimp -zeta only)
    | with_reducible apply storeLines_only
    | with_reducible exact hF.of (by decide)
    | with_reducible apply OnlyP.mk'
    | with_reducible refine OnlyP.of_eq (by assumption) ?_
    | with_reducible apply OnlyP.snd
    | with_reducible exact OnlyP.elim (by assumption)

theorem useOperand_only {F : Nat} {s₀ : State} {s : State} {t : Nat} {copies : SMap (Option Line)} {field : Nat} {slot : Nat} {f : Fmt} {write : Bool} {noEsc : Bool} {count : Option Nat}
    (hs : Only F s₀ s) (hF : Within 787528 F) :
    OnlyP F s₀ (useOperand s t copies field slot f write noEsc count) := by
  unfold useOperand
  repeat' first
    | with_reducible assumption
    | (extract_lets +onlyGivenNames y; refine cut (p := Only F s₀ y) ?_ (fun _ => ?_); rotate_left; clear_value y; rotate_right; subst y)
    | (extract_lets +onlyGivenNames y; refine cut (p := OnlyP F s₀ y) ?_ (fun _ => ?_); rotate_left; clear_value y; rotate_right; subst y)
    | (extract_lets +onlyGivenNames y; try clear_value y)
    | with_reducible apply useDesc_only
    | with_reducible exact hF.of (by decide)
    | with_reducible apply OnlyP.ite
    | split
    | with_reducible apply OnlyP.mk'
    | with_reducible refine OnlyP.of_eq (by assumption) ?_
    | with_reducible apply OnlyP.snd
    | with_reducible exact OnlyP.elim (by assumption)

theorem loadValues_only {F : Nat} {s₀ : State} {s : State} {t : Nat} {o : Operand} {first : Nat} {n : Nat}
    (hs : Only F s₀ s) (hF : Within 3933256 F) :
    OnlyP F s₀ (loadValues s t o first n) := by
  unfold loadValues
  repeat' first
    | with_reducible assumption
    | (intro _ _ _ _; try dsimp -zeta only)
    | (intro _ _ _; try dsimp -zeta only)
    | (intro _ _; try dsimp -zeta only)
    | (intro _; try dsimp -zeta only)
    | (extract_lets +onlyGivenNames y; refine cut (p := Only F s₀ y) ?_ (fun _ => ?_); rotate_left; clear_value y; rotate_right; subst y)
    | (extract_lets +onlyGivenNames y; refine cut (p := OnlyP F s₀ y) ?_ (fun _ => ?_); rotate_left; clear_value y; rotate_right; subst y)
    | (extract_lets +onlyGivenNames y; try clear_value y)
    | with_reducible apply loadElems_only
    | with_reducible exact hF.of (by decide)
    | split
    | with_reducible apply OnlyP.mk'
    | with_reducible refine OnlyP.of_eq (by assumption) ?_
    | with_reducible apply OnlyP.snd
    | with_reducible exact OnlyP.elim (by assumption)

end Sys2Proof.Machine
end

