-- ==== Sys2Proof/Laws/OnlyPasses.lean ====
section
/-! SUPPORT. What each operation of Machine/Passes.lean may change. -/

namespace Sys2Proof.Machine

open Sys2Proof

theorem modPass_only {F : Nat} {s₀ : State} {s : State} {i : Nat} {p : Pass} {f : Pass → Pass}
    (hs : Only F s₀ s) (hF : Within 8388608 F) :
    Only F s₀ (modPass s i p f) := by
  unfold modPass
  repeat' first
    | with_reducible assumption
    | (intro _ _ _ _; try dsimp -zeta only)
    | (intro _ _ _; try dsimp -zeta only)
    | (intro _ _; try dsimp -zeta only)
    | (intro _; try dsimp -zeta only)
    | with_reducible apply State.setEngine_only
    | with_reducible exact hF.of (by decide)

theorem requestDrain_only {F : Nat} {s₀ : State} {s : State} {i : Nat} {p : Pass}
    (hs : Only F s₀ s) (hF : Within 33554432 F) :
    Only F s₀ (requestDrain s i p) := by
  unfold requestDrain
  repeat' first
    | with_reducible assumption
    | (intro _ _ _ _; try dsimp -zeta only)
    | (intro _ _ _; try dsimp -zeta only)
    | (intro _ _; try dsimp -zeta only)
    | (intro _; try dsimp -zeta only)
    | (extract_lets +onlyGivenNames y; refine cut (p := Only F s₀ y) ?_ (fun _ => ?_); rotate_left; clear_value y; rotate_right; subst y)
    | (extract_lets +onlyGivenNames y; try clear_value y)
    | with_reducible apply State.setDrain_only
    | with_reducible exact hF.of (by decide)

theorem admitPass_only {F : Nat} {s₀ : State} {s : State} {i : Nat} {p : Pass}
    (hs : Only F s₀ s) (hF : Within 58720256 F) :
    Only F s₀ (admitPass s i p) := by
  unfold admitPass
  extract_lets +onlyGivenNames b k k'
  have hm : ∀ f, Only F s₀ (modPass s i p f) := fun f => modPass_only hs (hF.of (by decide))
  split
  · extract_lets u
    split
    · exact requestDrain_only (State.setBank_only (hm _) (hF.of (by decide))) (hF.of (by decide))
    · exact State.setBank_only (hm _) (hF.of (by decide))
  · exact State.setBank_only (hm _) (hF.of (by decide))

theorem admitLoop_only {F : Nat} {s₀ : State} {i : Nat} {n : Nat} {s : State}
    (hs : Only F s₀ s) (hF : Within 58720256 F) :
    Only F s₀ (admitLoop i n s) := by
  induction n generalizing s with
  | zero => exact hs
  | succ n ih =>
    unfold admitLoop
    repeat' first
      | with_reducible assumption
      | with_reducible apply ih
      | with_reducible apply admitPass_only
      | with_reducible exact hF.of (by decide)
      | split

theorem admitReady_only {F : Nat} {s₀ : State} {s : State} {i : Nat}
    (hs : Only F s₀ s) (hF : Within 58720256 F) :
    Only F s₀ (admitReady s i) := by
  unfold admitReady
  repeat' first
    | with_reducible assumption
    | (intro _ _ _ _; try dsimp -zeta only)
    | (intro _ _ _; try dsimp -zeta only)
    | (intro _ _; try dsimp -zeta only)
    | (intro _; try dsimp -zeta only)
    | with_reducible apply admitLoop_only
    | with_reducible exact hF.of (by decide)

end Sys2Proof.Machine
end

