-- ==== Sys2Proof/Laws/OnlyRollCallOps.lean ====
section
/-! SUPPORT. What each operation of Sys2Proof/Machine/RollCallOps.lean may change. -/

namespace Sys2Proof.Machine

open Sys2Proof

theorem hopRoll_only {F : Nat} {s₀ : State} {s : State} {src : Nat} {dest : Nat} {m : RcMessage}
    (hs : Only F s₀ s) (hF : Within 96 F) :
    Only F s₀ (hopRoll s src dest m) := by
  unfold hopRoll
  repeat' first
    | with_reducible assumption
    | (intro _ _ _ _; try dsimp -zeta only)
    | (intro _ _ _; try dsimp -zeta only)
    | (intro _ _; try dsimp -zeta only)
    | (intro _; try dsimp -zeta only)
    | with_reducible apply State.emit_only
    | with_reducible apply State.count64_only
    | with_reducible exact hF.of (by decide)
    | split

theorem sendRoll_only {F : Nat} {s₀ : State} {s : State} {dest : Nat} {m : RcMessage}
    (hs : Only F s₀ s) (hF : Within 1073741920 F) :
    Only F s₀ (sendRoll s dest m) := by
  unfold sendRoll
  repeat' first
    | with_reducible assumption
    | (intro _ _ _ _; try dsimp -zeta only)
    | (intro _ _ _; try dsimp -zeta only)
    | (intro _ _; try dsimp -zeta only)
    | (intro _; try dsimp -zeta only)
    | (extract_lets +onlyGivenNames y; refine cut (p := Only F s₀ y) ?_ (fun _ => ?_); rotate_left; clear_value y; rotate_right; subst y)
    | (extract_lets +onlyGivenNames y; try clear_value y)
    | with_reducible apply hopRoll_only
    | with_reducible exact hF.of (by decide)
    | with_reducible apply Only.ite
    | split
    | with_reducible apply Only.rc

theorem acceptRoll_only {F : Nat} {s₀ : State} {s : State} {src : Nat} {m : RcMessage}
    (hs : Only F s₀ s) (hF : Within 1073741920 F) :
    Only F s₀ (acceptRoll s src m) := by
  unfold acceptRoll
  repeat' first
    | with_reducible assumption
    | (intro _ _ _ _; try dsimp -zeta only)
    | (intro _ _ _; try dsimp -zeta only)
    | (intro _ _; try dsimp -zeta only)
    | (intro _; try dsimp -zeta only)
    | (extract_lets +onlyGivenNames y; refine cut (p := Only F s₀ y) ?_ (fun _ => ?_); rotate_left; clear_value y; rotate_right; subst y)
    | (extract_lets +onlyGivenNames y; try clear_value y)
    | with_reducible apply State.count64_only
    | with_reducible apply sendRoll_only
    | with_reducible exact hF.of (by decide)
    | with_reducible apply Only.ite
    | split

theorem enterAxis_only {F : Nat} {s₀ : State} {s : State} {o : RcOp} {axis : Nat} {v : RcPayload}
    (hs : Only F s₀ s) (hF : Within 1073741920 F) :
    OnlyF F s₀ (enterAxis s o axis v) := by
  unfold enterAxis
  repeat' first
    | with_reducible assumption
    | (intro _ _ _ _; try dsimp -zeta only)
    | (intro _ _ _; try dsimp -zeta only)
    | (intro _ _; try dsimp -zeta only)
    | (intro _; try dsimp -zeta only)
    | (extract_lets +onlyGivenNames y; refine cut (p := Only F s₀ y) ?_ (fun _ => ?_); rotate_left; clear_value y; rotate_right; subst y)
    | (extract_lets +onlyGivenNames y; refine cut (p := OnlyF F s₀ y) ?_ (fun _ => ?_); rotate_left; clear_value y; rotate_right; subst y)
    | (extract_lets +onlyGivenNames y; try clear_value y)
    | with_reducible apply sendRoll_only
    | with_reducible exact hF.of (by decide)
    | with_reducible apply Only.foldl
    | with_reducible apply OnlyP.foldl
    | with_reducible apply OnlyF.foldl
    | with_reducible apply Only.ite
    | with_reducible apply OnlyP.ite
    | with_reducible apply OnlyF.ite
    | split
    | with_reducible apply OnlyP.mk'
    | with_reducible apply OnlyF.mk'
    | with_reducible refine OnlyP.of_eq (by assumption) ?_
    | with_reducible apply OnlyP.snd
    | with_reducible exact OnlyP.elim (by assumption)
    | with_reducible refine OnlyF.of_eq (by assumption) ?_
    | with_reducible apply OnlyF.fst
    | with_reducible exact OnlyF.elim (by assumption)

theorem advanceOp_only {F : Nat} {s₀ : State} {n : Nat} {s : State} {o : RcOp}
    (hs : Only F s₀ s) (hF : Within 1073741920 F) :
    OnlyF F s₀ (advanceOp n s o) := by
  induction n generalizing s o with
  | zero => exact OnlyF.mk' hs
  | succ n ih =>
    unfold advanceOp
    repeat' first
      | with_reducible assumption
      | (extract_lets +onlyGivenNames y; try clear_value y)
      | with_reducible apply ih
      | with_reducible apply enterAxis_only
      | with_reducible exact hF.of (by decide)
      | split
      | with_reducible apply OnlyF.mk'
      | with_reducible refine OnlyF.of_eq (by assumption) ?_
      | with_reducible apply OnlyF.fst

theorem addOp_only {F : Nat} {s₀ : State} {s : State} {o : RcOp}
    (hs : Only F s₀ s) (hF : Within 1073741824 F) :
    OnlyP F s₀ (addOp s o) := by
  unfold addOp
  repeat' first
    | with_reducible assumption
    | (extract_lets +onlyGivenNames y; refine cut (p := Only F s₀ y) ?_ (fun _ => ?_); rotate_left; clear_value y; rotate_right; subst y)
    | (extract_lets +onlyGivenNames y; refine cut (p := OnlyP F s₀ y) ?_ (fun _ => ?_); rotate_left; clear_value y; rotate_right; subst y)
    | (extract_lets +onlyGivenNames y; try clear_value y)
    | with_reducible exact hF.of (by decide)
    | with_reducible apply OnlyP.mk'
    | with_reducible refine OnlyP.of_eq (by assumption) ?_
    | with_reducible apply OnlyP.snd
    | with_reducible exact OnlyP.elim (by assumption)
    | with_reducible apply Only.rc

theorem putOp_only {F : Nat} {s₀ : State} {s : State} {o : RcOp}
    (hs : Only F s₀ s) (hF : Within 1073741824 F) :
    Only F s₀ (putOp s o) := by
  unfold putOp
  repeat' first
    | with_reducible assumption
    | (intro _ _ _ _; try dsimp -zeta only)
    | (intro _ _ _; try dsimp -zeta only)
    | (intro _ _; try dsimp -zeta only)
    | (intro _; try dsimp -zeta only)
    | (extract_lets +onlyGivenNames y; refine cut (p := Only F s₀ y) ?_ (fun _ => ?_); rotate_left; clear_value y; rotate_right; subst y)
    | (extract_lets +onlyGivenNames y; try clear_value y)
    | with_reducible exact hF.of (by decide)
    | with_reducible apply Only.ite
    | split
    | with_reducible apply Only.rc

theorem fenceEnds_only {F : Nat} {s₀ : State} {s : State} {o : RcOp}
    (hs : Only F s₀ s) (hF : Within 1077936128 F) :
    Only F s₀ (fenceEnds s o) := by
  unfold fenceEnds
  repeat' first
    | with_reducible assumption
    | (intro _ _ _ _; try dsimp -zeta only)
    | (intro _ _ _; try dsimp -zeta only)
    | (intro _ _; try dsimp -zeta only)
    | (intro _; try dsimp -zeta only)
    | (extract_lets +onlyGivenNames y; refine cut (p := Only F s₀ y) ?_ (fun _ => ?_); rotate_left; clear_value y; rotate_right; subst y)
    | (extract_lets +onlyGivenNames y; refine cut (p := ∀ u, Only F s₀ u → Only F s₀ (y u)) ?_ (fun hy => ?_); rotate_left; clear_value y; rotate_right; subst y)
    | (extract_lets +onlyGivenNames y; try clear_value y)
    | with_reducible apply State.modTile_only
    | with_reducible exact hF.of (by decide)
    | with_reducible apply Only.each
    | with_reducible apply hy
    | with_reducible apply Only.ite
    | split
    | with_reducible apply Only.rc

theorem advance_only {F : Nat} {s₀ : State} {s : State} {id : Nat}
    (hs : Only F s₀ s) (hF : Within 1077936224 F) :
    Only F s₀ (advance s id) := by
  unfold advance
  repeat' first
    | with_reducible assumption
    | (intro _ _ _ _; try dsimp -zeta only)
    | (intro _ _ _; try dsimp -zeta only)
    | (intro _ _; try dsimp -zeta only)
    | (intro _; try dsimp -zeta only)
    | (extract_lets +onlyGivenNames y; refine cut (p := Only F s₀ y) ?_ (fun _ => ?_); rotate_left; clear_value y; rotate_right; subst y)
    | (extract_lets +onlyGivenNames y; refine cut (p := OnlyF F s₀ y) ?_ (fun _ => ?_); rotate_left; clear_value y; rotate_right; subst y)
    | (extract_lets +onlyGivenNames y; try clear_value y)
    | with_reducible apply advanceOp_only
    | with_reducible apply fenceEnds_only
    | with_reducible apply putOp_only
    | with_reducible exact hF.of (by decide)
    | with_reducible apply Only.ite
    | with_reducible apply OnlyF.ite
    | split
    | with_reducible apply OnlyF.mk'
    | with_reducible refine OnlyF.of_eq (by assumption) ?_
    | with_reducible apply OnlyF.fst
    | with_reducible exact OnlyF.elim (by assumption)

theorem refillOps_only {F : Nat} {s₀ : State} {s : State}
    (hs : Only F s₀ s) (hF : Within 1077936224 F) :
    Only F s₀ (refillOps s) := by
  unfold refillOps
  repeat' first
    | with_reducible assumption
    | (intro _ _ _ _; try dsimp -zeta only)
    | (intro _ _ _; try dsimp -zeta only)
    | (intro _ _; try dsimp -zeta only)
    | (intro _; try dsimp -zeta only)
    | with_reducible apply advance_only
    | with_reducible exact hF.of (by decide)
    | with_reducible apply Only.each

theorem modOp_only {F : Nat} {s₀ : State} {s : State} {id : Nat} {f : RcOp → RcOp}
    (hs : Only F s₀ s) (hF : Within 1077936224 F) :
    Only F s₀ (modOp s id f) := by
  unfold modOp
  repeat' first
    | with_reducible assumption
    | (intro _ _ _ _; try dsimp -zeta only)
    | (intro _ _ _; try dsimp -zeta only)
    | (intro _ _; try dsimp -zeta only)
    | (intro _; try dsimp -zeta only)
    | (extract_lets +onlyGivenNames y; refine cut (p := Only F s₀ y) ?_ (fun _ => ?_); rotate_left; clear_value y; rotate_right; subst y)
    | (extract_lets +onlyGivenNames y; try clear_value y)
    | with_reducible apply advance_only
    | with_reducible apply putOp_only
    | with_reducible apply refillOps_only
    | with_reducible exact hF.of (by decide)
    | with_reducible apply Only.ite
    | split

theorem dropOp_only {F : Nat} {s₀ : State} {s : State} {o : RcOp}
    (hs : Only F s₀ s) (hF : Within 1077936224 F) :
    Only F s₀ (dropOp s o) := by
  unfold dropOp
  repeat' first
    | with_reducible assumption
    | (intro _ _ _ _; try dsimp -zeta only)
    | (intro _ _ _; try dsimp -zeta only)
    | (intro _ _; try dsimp -zeta only)
    | (intro _; try dsimp -zeta only)
    | (extract_lets +onlyGivenNames y; refine cut (p := Only F s₀ y) ?_ (fun _ => ?_); rotate_left; clear_value y; rotate_right; subst y)
    | (extract_lets +onlyGivenNames y; try clear_value y)
    | with_reducible apply refillOps_only
    | with_reducible exact hF.of (by decide)
    | with_reducible apply Only.ite
    | split
    | with_reducible apply Only.rc

theorem collOpId_only {F : Nat} {s₀ : State} {s : State} {new : RcOp}
    (hs : Only F s₀ s) (hF : Within 1073741824 F) :
    OnlyP F s₀ (collOpId s new) := by
  unfold collOpId
  repeat' first
    | with_reducible assumption
    | with_reducible apply addOp_only
    | with_reducible exact hF.of (by decide)
    | split
    | with_reducible apply OnlyP.mk'
    | with_reducible refine OnlyP.of_eq (by assumption) ?_
    | with_reducible apply OnlyP.snd
    | with_reducible exact OnlyP.elim (by assumption)

theorem contribute_only {F : Nat} {s₀ : State} {s : State} {new : RcOp} {t : Nat} {v : RcPayload}
    (hs : Only F s₀ s) (hF : Within 1077936224 F) :
    Only F s₀ (contribute s new t v) := by
  unfold contribute
  repeat' first
    | with_reducible assumption
    | (intro _ _ _ _; try dsimp -zeta only)
    | (intro _ _ _; try dsimp -zeta only)
    | (intro _ _; try dsimp -zeta only)
    | (intro _; try dsimp -zeta only)
    | (extract_lets +onlyGivenNames y; refine cut (p := Only F s₀ y) ?_ (fun _ => ?_); rotate_left; clear_value y; rotate_right; subst y)
    | (extract_lets +onlyGivenNames y; refine cut (p := OnlyP F s₀ y) ?_ (fun _ => ?_); rotate_left; clear_value y; rotate_right; subst y)
    | (extract_lets +onlyGivenNames y; try clear_value y)
    | with_reducible apply collOpId_only
    | with_reducible apply modOp_only
    | with_reducible exact hF.of (by decide)
    | split
    | with_reducible apply OnlyP.mk'
    | with_reducible refine OnlyP.of_eq (by assumption) ?_
    | with_reducible apply OnlyP.snd
    | with_reducible exact OnlyP.elim (by assumption)

theorem tellMember_only {F : Nat} {s₀ : State} {s : State} {o : RcOp} {t : Nat}
    (hs : Only F s₀ s) (hF : Within 1077936224 F) :
    Only F s₀ (tellMember s o t) := by
  unfold tellMember
  repeat' first
    | with_reducible assumption
    | (intro _ _ _ _; try dsimp -zeta only)
    | (intro _ _ _; try dsimp -zeta only)
    | (intro _ _; try dsimp -zeta only)
    | (intro _; try dsimp -zeta only)
    | (extract_lets +onlyGivenNames y; refine cut (p := Only F s₀ y) ?_ (fun _ => ?_); rotate_left; clear_value y; rotate_right; subst y)
    | (extract_lets +onlyGivenNames y; try clear_value y)
    | with_reducible apply putOp_only
    | with_reducible apply dropOp_only
    | with_reducible exact hF.of (by decide)
    | with_reducible apply Only.ite
    | split

theorem leaveOp_only {F : Nat} {s₀ : State} {s : State} {o : RcOp} {t : Nat}
    (hs : Only F s₀ s) (hF : Within 1077936224 F) :
    Only F s₀ (leaveOp s o t) := by
  unfold leaveOp
  repeat' first
    | with_reducible assumption
    | (intro _ _ _ _; try dsimp -zeta only)
    | (intro _ _ _; try dsimp -zeta only)
    | (intro _ _; try dsimp -zeta only)
    | (intro _; try dsimp -zeta only)
    | with_reducible apply dropOp_only
    | with_reducible apply tellMember_only
    | with_reducible exact hF.of (by decide)
    | with_reducible apply Only.ite
    | split

theorem sendAbort_only {F : Nat} {s₀ : State} {s : State} {party : Nat} {team : Nat} {seq : Nat} {t : Nat}
    (hs : Only F s₀ s) (hF : Within 1073741920 F) :
    Only F s₀ (sendAbort s party team seq t) := by
  unfold sendAbort
  repeat' first
    | with_reducible assumption
    | (intro _ _ _ _; try dsimp -zeta only)
    | (intro _ _ _; try dsimp -zeta only)
    | (intro _ _; try dsimp -zeta only)
    | (intro _; try dsimp -zeta only)
    | (extract_lets +onlyGivenNames y; refine cut (p := Only F s₀ y) ?_ (fun _ => ?_); rotate_left; clear_value y; rotate_right; subst y)
    | (extract_lets +onlyGivenNames y; try clear_value y)
    | with_reducible apply State.emit_only
    | with_reducible apply sendRoll_only
    | with_reducible exact hF.of (by decide)
    | with_reducible apply Only.foldl
    | with_reducible apply Only.ite
    | split

theorem startColl_only {F : Nat} {s₀ : State} {s : State} {t : Nat}
    (hs : Only F s₀ s) (hF : Within 1614807136 F) :
    Only F s₀ (startColl s t) := by
  unfold startColl
  repeat' first
    | with_reducible assumption
    | (extract_lets +onlyGivenNames y; refine cut (p := Only F s₀ y) ?_ (fun _ => ?_); rotate_left; clear_value y; rotate_right; subst y)
    | (extract_lets +onlyGivenNames y; try clear_value y)
    | with_reducible apply State.setColl_only
    | with_reducible apply contribute_only
    | with_reducible exact hF.of (by decide)
    | with_reducible apply Only.ite
    | split

end Sys2Proof.Machine
end

