-- ==== Sys2Proof/Laws/OnlyStops.lean ====
section
/-! SUPPORT. What each operation of Sys2Proof/Machine/Stops.lean may change. -/

namespace Sys2Proof.Machine

open Sys2Proof

theorem zeroBank_only {F : Nat} {s₀ : State} {s : State} {b : Nat}
    (hs : Only F s₀ s) (hF : Within 16777216 F) :
    Only F s₀ (zeroBank s b) := by
  unfold zeroBank
  repeat' first
    | with_reducible assumption
    | (extract_lets +onlyGivenNames y; refine cut (p := Only F s₀ y) ?_ (fun _ => ?_); rotate_left; clear_value y; rotate_right; subst y)
    | (extract_lets +onlyGivenNames y; try clear_value y)
    | with_reducible apply State.setBank_only
    | with_reducible exact hF.of (by decide)

theorem stopPass_only {F : Nat} {s₀ : State} {i : Nat} {s : State} {p : Pass}
    (hs : Only F s₀ s) (hF : Within 16777216 F) :
    Only F s₀ (stopPass i s p) := by
  unfold stopPass
  repeat' first
    | with_reducible assumption
    | (intro _ _ _ _; try dsimp -zeta only)
    | (intro _ _ _; try dsimp -zeta only)
    | (intro _ _; try dsimp -zeta only)
    | (intro _; try dsimp -zeta only)
    | (extract_lets +onlyGivenNames y; refine cut (p := Only F s₀ y) ?_ (fun _ => ?_); rotate_left; clear_value y; rotate_right; subst y)
    | (extract_lets +onlyGivenNames y; try clear_value y)
    | with_reducible apply zeroBank_only
    | with_reducible apply State.setBank_only
    | with_reducible exact hF.of (by decide)
    | with_reducible apply Only.ite
    | split

theorem stopDrains_only {F : Nat} {s₀ : State} {s : State} {i : Nat} {st : Stops}
    (hs : Only F s₀ s) (hF : Within 50331648 F) :
    Only F s₀ (stopDrains s i st) := by
  unfold stopDrains
  repeat' first
    | with_reducible assumption
    | (intro _ _ _ _; try dsimp -zeta only)
    | (intro _ _ _; try dsimp -zeta only)
    | (intro _ _; try dsimp -zeta only)
    | (intro _; try dsimp -zeta only)
    | (extract_lets +onlyGivenNames y; refine cut (p := Only F s₀ y) ?_ (fun _ => ?_); rotate_left; clear_value y; rotate_right; subst y)
    | (extract_lets +onlyGivenNames y; try clear_value y)
    | with_reducible apply State.setDrain_only
    | with_reducible apply zeroBank_only
    | with_reducible exact hF.of (by decide)
    | with_reducible apply Only.foldl

theorem strayPass_only {F : Nat} {s₀ : State} {i : Nat} {s : State} {p : Pass}
    (hs : Only F s₀ s) (hF : Within 33554432 F) :
    Only F s₀ (strayPass i s p) := by
  unfold strayPass
  repeat' first
    | with_reducible assumption
    | (intro _ _ _ _; try dsimp -zeta only)
    | (intro _ _ _; try dsimp -zeta only)
    | (intro _ _; try dsimp -zeta only)
    | (intro _; try dsimp -zeta only)
    | (extract_lets +onlyGivenNames y; refine cut (p := Only F s₀ y) ?_ (fun _ => ?_); rotate_left; clear_value y; rotate_right; subst y)
    | (extract_lets +onlyGivenNames y; try clear_value y)
    | with_reducible apply requestDrain_only
    | with_reducible exact hF.of (by decide)
    | with_reducible apply Only.ite
    | split

theorem strays_only {F : Nat} {s₀ : State} {s : State} {i : Nat}
    (hs : Only F s₀ s) (hF : Within 41943040 F) :
    Only F s₀ (strays s i) := by
  unfold strays
  repeat' first
    | with_reducible assumption
    | (intro _ _ _ _; try dsimp -zeta only)
    | (intro _ _ _; try dsimp -zeta only)
    | (intro _ _; try dsimp -zeta only)
    | (intro _; try dsimp -zeta only)
    | (extract_lets +onlyGivenNames y; refine cut (p := Only F s₀ y) ?_ (fun _ => ?_); rotate_left; clear_value y; rotate_right; subst y)
    | (extract_lets +onlyGivenNames y; try clear_value y)
    | with_reducible apply State.setEngine_only
    | with_reducible apply State.setDrain_only
    | with_reducible apply strayPass_only
    | with_reducible exact hF.of (by decide)
    | with_reducible apply Only.foldl
    | with_reducible apply Only.ite
    | split

theorem stopEngine_only {F : Nat} {s₀ : State} {s : State} {i : Nat} {st : Stops}
    (hs : Only F s₀ s) (hF : Within 58720256 F) :
    Only F s₀ (stopEngine s i st) := by
  unfold stopEngine
  repeat' first
    | with_reducible assumption
    | (intro _ _ _ _; try dsimp -zeta only)
    | (intro _ _ _; try dsimp -zeta only)
    | (intro _ _; try dsimp -zeta only)
    | (intro _; try dsimp -zeta only)
    | (extract_lets +onlyGivenNames y; refine cut (p := Only F s₀ y) ?_ (fun _ => ?_); rotate_left; clear_value y; rotate_right; subst y)
    | (extract_lets +onlyGivenNames y; try clear_value y)
    | with_reducible apply State.setEngine_only
    | with_reducible apply admitReady_only
    | with_reducible apply stopPass_only
    | with_reducible apply stopDrains_only
    | with_reducible apply strays_only
    | with_reducible exact hF.of (by decide)
    | with_reducible apply Only.foldl
    | with_reducible apply Only.ite
    | split

theorem dropColl_only {F : Nat} {s₀ : State} {s : State} {t : Nat} {c : Coll} {tell : Bool}
    (hs : Only F s₀ s) (hF : Within 1614807136 F) :
    Only F s₀ (dropColl s t c tell) := by
  unfold dropColl
  repeat' first
    | with_reducible assumption
    | (intro _ _ _ _; try dsimp -zeta only)
    | (intro _ _ _; try dsimp -zeta only)
    | (intro _ _; try dsimp -zeta only)
    | (intro _; try dsimp -zeta only)
    | (extract_lets +onlyGivenNames y; refine cut (p := Only F s₀ y) ?_ (fun _ => ?_); rotate_left; clear_value y; rotate_right; subst y)
    | (extract_lets +onlyGivenNames y; try clear_value y)
    | with_reducible apply State.count32_only
    | with_reducible apply State.setColl_only
    | with_reducible apply leaveOp_only
    | with_reducible apply sendAbort_only
    | with_reducible exact hF.of (by decide)
    | with_reducible apply Only.ite
    | split

theorem stopColls_only {F : Nat} {s₀ : State} {s : State} {t : Nat} {st : Stops} {tell : Bool}
    (hs : Only F s₀ s) (hF : Within 1614807136 F) :
    Only F s₀ (stopColls s t st tell) := by
  unfold stopColls
  repeat' first
    | with_reducible assumption
    | (intro _ _ _ _; try dsimp -zeta only)
    | (intro _ _ _; try dsimp -zeta only)
    | (intro _ _; try dsimp -zeta only)
    | (intro _; try dsimp -zeta only)
    | (extract_lets +onlyGivenNames y; refine cut (p := Only F s₀ y) ?_ (fun _ => ?_); rotate_left; clear_value y; rotate_right; subst y)
    | (extract_lets +onlyGivenNames y; try clear_value y)
    | with_reducible apply startColl_only
    | with_reducible apply dropColl_only
    | with_reducible exact hF.of (by decide)
    | with_reducible apply Only.foldl
    | with_reducible apply OnlyP.foldl
    | with_reducible apply OnlyF.foldl
    | with_reducible apply Only.ite
    | with_reducible apply OnlyP.ite
    | with_reducible apply OnlyF.ite
    | split
    | with_reducible apply OnlyP.mk'
    | with_reducible apply OnlyF.mk'
    | with_reducible refine OnlyP.of_eq (by assumption) ?_
    | with_reducible apply OnlyP.snd
    | with_reducible exact OnlyP.elim (by assumption)
    | with_reducible refine OnlyF.of_eq (by assumption) ?_
    | with_reducible apply OnlyF.fst
    | with_reducible exact OnlyF.elim (by assumption)

theorem stopUnits_only {F : Nat} {s₀ : State} {s : State} {t : Nat} {st : Stops} {tell : Bool}
    (hs : Only F s₀ s) (hF : Within 36368810080 F) :
    Only F s₀ (stopUnits s t st tell) := by
  unfold stopUnits
  repeat' first
    | with_reducible assumption
    | (intro _ _ _ _; try dsimp -zeta only)
    | (intro _ _ _; try dsimp -zeta only)
    | (intro _ _; try dsimp -zeta only)
    | (intro _; try dsimp -zeta only)
    | (extract_lets +onlyGivenNames y; refine cut (p := Only F s₀ y) ?_ (fun _ => ?_); rotate_left; clear_value y; rotate_right; subst y)
    | (extract_lets +onlyGivenNames y; try clear_value y)
    | with_reducible apply State.modTile_only
    | with_reducible apply State.setMover_only
    | with_reducible apply stopEngine_only
    | with_reducible apply stopColls_only
    | with_reducible exact hF.of (by decide)
    | with_reducible apply Only.each
    | with_reducible apply Only.ite
    | split
    | with_reducible apply Only.fabric
    | with_reducible apply Only.rk

end Sys2Proof.Machine
end

