-- ==== Sys2Proof/Laws/OnlyQueues.lean ====
section
/-! SUPPORT. What each operation of Sys2Proof/Machine/Queues.lean may change. -/

namespace Sys2Proof.Machine

open Sys2Proof

theorem raiseTally_only {F : Nat} {s₀ : State} {s : State} {g : Nat} {m : Nat} {k : Nat} {inc : Nat}
    (hs : Only F s₀ s) (hF : Within 268502088 F) :
    Only F s₀ (raiseTally s g m k inc) := by
  unfold raiseTally
  repeat' first
    | with_reducible assumption
    | (extract_lets +onlyGivenNames y; refine cut (p := Only F s₀ y) ?_ (fun _ => ?_); rotate_left; clear_value y; rotate_right; subst y)
    | (extract_lets +onlyGivenNames y; try clear_value y)
    | with_reducible apply State.setTally_only
    | with_reducible apply sendPacket_only
    | with_reducible exact hF.of (by decide)
    | with_reducible apply Only.ite
    | split

theorem signalFor_only {F : Nat} {s₀ : State} {s : State} {g : Nat} {l : Line}
    (hs : Only F s₀ s) (hF : Within 268502088 F) :
    Only F s₀ (signalFor s g l) := by
  unfold signalFor
  repeat' first
    | with_reducible assumption
    | with_reducible apply raiseTally_only
    | with_reducible exact hF.of (by decide)
    | with_reducible apply Only.ite
    | split

theorem markReady_only {F : Nat} {s₀ : State} {s : State} {g : Nat} {idx : Word}
    (hs : Only F s₀ s) (hF : Within 32768 F) :
    Only F s₀ (markReady s g idx) := by
  unfold markReady
  repeat' first
    | with_reducible assumption
    | (intro _ _ _ _; try dsimp -zeta only)
    | (intro _ _ _; try dsimp -zeta only)
    | (intro _ _; try dsimp -zeta only)
    | (intro _; try dsimp -zeta only)
    | (extract_lets +onlyGivenNames y; refine cut (p := Only F s₀ y) ?_ (fun _ => ?_); rotate_left; clear_value y; rotate_right; subst y)
    | (extract_lets +onlyGivenNames y; try clear_value y)
    | with_reducible apply State.modQueue_only
    | with_reducible exact hF.of (by decide)
    | with_reducible apply Only.ite
    | split

theorem freeUnit_only {F : Nat} {s₀ : State} {s : State} {g : Nat} {idx : Word}
    (hs : Only F s₀ s) (hF : Within 1681916000 F) :
    Only F s₀ (freeUnit s g idx) := by
  unfold freeUnit
  repeat' first
    | with_reducible assumption
    | (intro _ _ _ _; try dsimp -zeta only)
    | (intro _ _ _; try dsimp -zeta only)
    | (intro _ _; try dsimp -zeta only)
    | (intro _; try dsimp -zeta only)
    | (extract_lets +onlyGivenNames y; refine cut (p := Only F s₀ y) ?_ (fun _ => ?_); rotate_left; clear_value y; rotate_right; subst y)
    | (extract_lets +onlyGivenNames y; try clear_value y)
    | with_reducible apply State.setMover_only
    | with_reducible apply startColl_only
    | with_reducible apply State.count64_only
    | with_reducible apply State.setColl_only
    | with_reducible exact hF.of (by decide)
    | with_reducible apply Only.each
    | with_reducible apply Only.ite
    | split

theorem completeCommand_only {F : Nat} {s₀ : State} {s : State} {g : Nat} {x : Inflight}
    (hs : Only F s₀ s) (hF : Within 1950450792 F) :
    Only F s₀ (completeCommand s g x) := by
  unfold completeCommand
  repeat' first
    | with_reducible assumption
    | (intro _ _ _ _; try dsimp -zeta only)
    | (intro _ _ _; try dsimp -zeta only)
    | (intro _ _; try dsimp -zeta only)
    | (intro _; try dsimp -zeta only)
    | (extract_lets +onlyGivenNames y; refine cut (p := Only F s₀ y) ?_ (fun _ => ?_); rotate_left; clear_value y; rotate_right; subst y)
    | (extract_lets +onlyGivenNames y; try clear_value y)
    | with_reducible apply State.modQueue_only
    | with_reducible apply signalFor_only
    | with_reducible apply freeUnit_only
    | with_reducible exact hF.of (by decide)

theorem finishCommand_only {F : Nat} {s₀ : State} {s : State} {g : Nat} {idx : Word}
    (hs : Only F s₀ s) (hF : Within 1950450792 F) :
    Only F s₀ (finishCommand s g idx) := by
  unfold finishCommand
  repeat' first
    | with_reducible assumption
    | (extract_lets +onlyGivenNames y; refine cut (p := Only F s₀ y) ?_ (fun _ => ?_); rotate_left; clear_value y; rotate_right; subst y)
    | (extract_lets +onlyGivenNames y; try clear_value y)
    | with_reducible apply markReady_only
    | with_reducible apply completeCommand_only
    | with_reducible exact hF.of (by decide)
    | with_reducible apply Only.ite
    | split

theorem skipOne_only {F : Nat} {s₀ : State} {s : State} {g : Nat}
    (hs : Only F s₀ s) (hF : Within 1081408 F) :
    Only F s₀ (skipOne s g) := by
  unfold skipOne
  repeat' first
    | with_reducible assumption
    | (intro _ _ _ _; try dsimp -zeta only)
    | (intro _ _ _; try dsimp -zeta only)
    | (intro _ _; try dsimp -zeta only)
    | (intro _; try dsimp -zeta only)
    | (extract_lets +onlyGivenNames y; refine cut (p := Only F s₀ y) ?_ (fun _ => ?_); rotate_left; clear_value y; rotate_right; subst y)
    | (extract_lets +onlyGivenNames y; try clear_value y)
    | with_reducible apply discardPrefetch_only
    | with_reducible apply State.count64_only
    | with_reducible apply State.setQueue_only
    | with_reducible exact hF.of (by decide)

theorem commandLine_only {F : Nat} {s₀ : State} {s : State} {g : Nat}
    (hs : Only F s₀ s) (hF : Within 787528 F) :
    OnlyOP F s₀ (commandLine s g) := by
  unfold commandLine
  repeat' first
    | with_reducible assumption
    | (intro _ _ _ _; try dsimp -zeta only)
    | (intro _ _ _; try dsimp -zeta only)
    | (intro _ _; try dsimp -zeta only)
    | (intro _; try dsimp -zeta only)
    | (extract_lets +onlyGivenNames y; refine cut (p := Only F s₀ y) ?_ (fun _ => ?_); rotate_left; clear_value y; rotate_right; subst y)
    | (extract_lets +onlyGivenNames y; refine cut (p := OnlyP F s₀ y) ?_ (fun _ => ?_); rotate_left; clear_value y; rotate_right; subst y)
    | (extract_lets +onlyGivenNames y; try clear_value y)
    | with_reducible apply readLine_only
    | with_reducible exact hF.of (by decide)
    | with_reducible apply Only.ite
    | with_reducible apply OnlyP.ite
    | split
    | with_reducible apply OnlyP.mk'
    | with_reducible apply OnlyOP.some
    | with_reducible apply OnlyOP.none
    | with_reducible refine OnlyOP.of_eq (by assumption) ?_
    | with_reducible refine OnlyP.of_eq (by assumption) ?_
    | with_reducible apply OnlyP.snd
    | with_reducible exact OnlyP.elim (by assumption)

theorem skipLoop_only {F : Nat} {s₀ : State} {g : Nat} {n : Nat} {s : State}
    (hs : Only F s₀ s) (hF : Within 1868872 F) :
    Only F s₀ (skipLoop g n s) := by
  induction n generalizing s with
  | zero => exact hs
  | succ n ih =>
    unfold skipLoop
    repeat' first
      | with_reducible assumption
      | (extract_lets +onlyGivenNames y; refine cut (p := Only F s₀ y) ?_ (fun _ => ?_); rotate_left; clear_value y; rotate_right; subst y)
      | (extract_lets +onlyGivenNames y; try clear_value y)
      | with_reducible apply ih
      | with_reducible apply skipOne_only
      | with_reducible apply State.modQueue_only
      | with_reducible apply commandLine_only
      | with_reducible exact hF.of (by decide)
      | split
      | with_reducible refine OnlyOP.of_eq (by assumption) ?_

theorem skipOn_only {F : Nat} {s₀ : State} {s : State} {g : Nat}
    (hs : Only F s₀ s) (hF : Within 1868872 F) :
    Only F s₀ (skipOn s g) := by
  unfold skipOn
  repeat' first
    | with_reducible assumption
    | with_reducible apply skipLoop_only
    | with_reducible exact hF.of (by decide)

theorem abortTask_only {F : Nat} {s₀ : State} {s : State} {g : Nat} {task : Task} {idx : Word} {e : CmdError} {tell : Bool}
    (hs : Only F s₀ s) (hF : Within 36370678888 F) :
    Only F s₀ (abortTask s g task idx e tell) := by
  unfold abortTask
  repeat' first
    | with_reducible assumption
    | (intro _ _ _ _; try dsimp -zeta only)
    | (intro _ _ _; try dsimp -zeta only)
    | (intro _ _; try dsimp -zeta only)
    | (intro _; try dsimp -zeta only)
    | (extract_lets +onlyGivenNames y; refine cut (p := Only F s₀ y) ?_ (fun _ => ?_); rotate_left; clear_value y; rotate_right; subst y)
    | (extract_lets +onlyGivenNames y; try clear_value y)
    | with_reducible apply discardPrefetch_only
    | with_reducible apply State.count32_only
    | with_reducible apply State.setQueue_only
    | with_reducible apply State.modQueue_only
    | with_reducible apply skipOne_only
    | with_reducible apply skipOn_only
    | with_reducible apply stopUnits_only
    | with_reducible exact hF.of (by decide)
    | with_reducible apply Only.ite
    | split

theorem abortCommand_only {F : Nat} {s₀ : State} {s : State} {g : Nat} {idx : Word} {e : CmdError} {tell : optParam Bool true}
    (hs : Only F s₀ s) (hF : Within 36370678888 F) :
    Only F s₀ (abortCommand s g idx e tell) := by
  unfold abortCommand
  repeat' first
    | with_reducible assumption
    | with_reducible apply abortTask_only
    | with_reducible exact hF.of (by decide)
    | with_reducible apply Only.ite
    | split

theorem failAtIssue_only {F : Nat} {s₀ : State} {s : State} {g : Nat} {e : CmdError}
    (hs : Only F s₀ s) (hF : Within 36370678888 F) :
    Only F s₀ (failAtIssue s g e) := by
  unfold failAtIssue
  repeat' first
    | with_reducible assumption
    | (extract_lets +onlyGivenNames y; refine cut (p := Only F s₀ y) ?_ (fun _ => ?_); rotate_left; clear_value y; rotate_right; subst y)
    | (extract_lets +onlyGivenNames y; try clear_value y)
    | with_reducible apply abortTask_only
    | with_reducible exact hF.of (by decide)

theorem setSelfCheck_only {F : Nat} {s₀ : State} {s : State} {p : Nat} {x : SelfCheck}
    (hs : Only F s₀ s) (hF : Within 34359738368 F) :
    Only F s₀ (setSelfCheck s p x) := by
  unfold setSelfCheck
  repeat' first
    | with_reducible assumption
    | (extract_lets +onlyGivenNames y; refine cut (p := Only F s₀ y) ?_ (fun _ => ?_); rotate_left; clear_value y; rotate_right; subst y)
    | (extract_lets +onlyGivenNames y; try clear_value y)
    | with_reducible exact hF.of (by decide)
    | with_reducible apply Only.rk

theorem selfFence_only {F : Nat} {s₀ : State} {s : State} {p : Nat}
    (hs : Only F s₀ s) (hF : Within 34359738368 F) :
    Only F s₀ (selfFence s p) := by
  unfold selfFence
  repeat' first
    | with_reducible assumption
    | (extract_lets +onlyGivenNames y; refine cut (p := Only F s₀ y) ?_ (fun _ => ?_); rotate_left; clear_value y; rotate_right; subst y)
    | (extract_lets +onlyGivenNames y; try clear_value y)
    | with_reducible apply setSelfCheck_only
    | with_reducible exact hF.of (by decide)
    | with_reducible apply Only.ite
    | split

theorem passIssue_only {F : Nat} {s₀ : State} {s : State} {c : Cmd} {new : List Inflight}
    (hs : Only F s₀ s) (hF : Within 4227136 F) :
    Only F s₀ (passIssue s c new) := by
  unfold passIssue
  repeat' first
    | with_reducible assumption
    | (intro _ _ _ _; try dsimp -zeta only)
    | (intro _ _ _; try dsimp -zeta only)
    | (intro _ _; try dsimp -zeta only)
    | (intro _; try dsimp -zeta only)
    | (extract_lets +onlyGivenNames y; refine cut (p := Only F s₀ y) ?_ (fun _ => ?_); rotate_left; clear_value y; rotate_right; subst y)
    | (extract_lets +onlyGivenNames y; try clear_value y)
    | with_reducible apply State.count64_only
    | with_reducible apply State.modTile_only
    | with_reducible apply State.setQueue_only
    | with_reducible exact hF.of (by decide)

theorem afterIssue_only {F : Nat} {s₀ : State} {s : State} {c : Cmd} {r : Issued}
    (hs : Only F s₀ s) (h_r : OnlyI F s₀ r) (hF : Within 36370744424 F) :
    Only F s₀ (afterIssue s c r) := by
  unfold afterIssue
  repeat' first
    | with_reducible assumption
    | (extract_lets +onlyGivenNames y; refine cut (p := Only F s₀ y) ?_ (fun _ => ?_); rotate_left; clear_value y; rotate_right; subst y)
    | (extract_lets +onlyGivenNames y; refine cut (p := OnlyI F s₀ y) ?_ (fun _ => ?_); rotate_left; clear_value y; rotate_right; subst y)
    | (extract_lets +onlyGivenNames y; try clear_value y)
    | with_reducible apply failAtIssue_only
    | with_reducible apply passIssue_only
    | with_reducible apply signalFor_only
    | with_reducible apply abortCommand_only
    | with_reducible exact hF.of (by decide)
    | split
    | with_reducible apply OnlyI.wait
    | with_reducible apply OnlyI.ofFail
    | with_reducible apply OnlyI.ofRun
    | with_reducible apply OnlyI.ofReady
    | with_reducible apply OnlyI.ofDone
    | with_reducible apply OnlyI.ofBroke
    | with_reducible exact OnlyI.fail_eq rfl (by assumption)
    | with_reducible exact OnlyI.run_eq rfl (by assumption)
    | with_reducible exact OnlyI.ready_eq rfl (by assumption)
    | with_reducible exact OnlyI.done_eq rfl (by assumption)
    | with_reducible exact OnlyI.broke_eq rfl (by assumption)
    | with_reducible refine OnlyI.fail_eq (by assumption) ?_
    | with_reducible refine OnlyI.run_eq (by assumption) ?_
    | with_reducible refine OnlyI.ready_eq (by assumption) ?_
    | with_reducible refine OnlyI.done_eq (by assumption) ?_
    | with_reducible refine OnlyI.broke_eq (by assumption) ?_

theorem issue_only {F : Nat} {s₀ : State} {s : State} {g : Nat} {ok : Nat → Bool} {effect : Cmd → State → Issued}
    (hs : Only F s₀ s) (h_effect : ∀ x0 x1, Only F s₀ x1 → OnlyI F s₀ (effect x0 x1)) (hF : Within 36370744424 F) :
    Only F s₀ (issue s g ok effect) := by
  unfold issue
  repeat' first
    | with_reducible assumption
    | (intro _ _ _ _; try dsimp -zeta only)
    | (intro _ _ _; try dsimp -zeta only)
    | (intro _ _; try dsimp -zeta only)
    | (intro _; try dsimp -zeta only)
    | (extract_lets +onlyGivenNames y; refine cut (p := Only F s₀ y) ?_ (fun _ => ?_); rotate_left; clear_value y; rotate_right; subst y)
    | (extract_lets +onlyGivenNames y; refine cut (p := OnlyP F s₀ y) ?_ (fun _ => ?_); rotate_left; clear_value y; rotate_right; subst y)
    | (extract_lets +onlyGivenNames y; try clear_value y)
    | with_reducible apply h_effect
    | with_reducible apply signalFor_only
    | with_reducible apply skipOne_only
    | with_reducible apply commandLine_only
    | with_reducible apply failAtIssue_only
    | with_reducible apply afterIssue_only
    | with_reducible exact hF.of (by decide)
    | with_reducible apply Only.ite
    | with_reducible apply OnlyP.ite
    | split
    | with_reducible apply OnlyP.mk'
    | with_reducible apply OnlyOP.some
    | with_reducible apply OnlyOP.none
    | with_reducible refine OnlyOP.of_eq (by assumption) ?_
    | with_reducible refine OnlyP.of_eq (by assumption) ?_
    | with_reducible apply OnlyP.snd
    | with_reducible exact OnlyP.elim (by assumption)

theorem execNop_only {F : Nat} {s₀ : State} {g : Fin 16384} {s : State}
    (hs : Only F s₀ s) (hF : Within 36370744424 F) :
    OnlyN F s₀ (execNop g s) := by
  unfold execNop
  repeat' first
    | with_reducible assumption
    | (intro _ _ _ _; try dsimp -zeta only)
    | (intro _ _ _; try dsimp -zeta only)
    | (intro _ _; try dsimp -zeta only)
    | (intro _; try dsimp -zeta only)
    | with_reducible apply issue_only
    | with_reducible exact hF.of (by decide)
    | with_reducible apply OnlyN.next
    | with_reducible apply OnlyI.wait
    | with_reducible apply OnlyI.ofFail
    | with_reducible apply OnlyI.ofRun
    | with_reducible apply OnlyI.ofReady
    | with_reducible apply OnlyI.ofDone
    | with_reducible apply OnlyI.ofBroke
    | with_reducible exact OnlyI.fail_eq rfl (by assumption)
    | with_reducible exact OnlyI.run_eq rfl (by assumption)
    | with_reducible exact OnlyI.ready_eq rfl (by assumption)
    | with_reducible exact OnlyI.done_eq rfl (by assumption)
    | with_reducible exact OnlyI.broke_eq rfl (by assumption)
    | with_reducible refine OnlyI.fail_eq (by assumption) ?_
    | with_reducible refine OnlyI.run_eq (by assumption) ?_
    | with_reducible refine OnlyI.ready_eq (by assumption) ?_
    | with_reducible refine OnlyI.done_eq (by assumption) ?_
    | with_reducible refine OnlyI.broke_eq (by assumption) ?_

theorem execTallySet_only {F : Nat} {s₀ : State} {g : Fin 16384} {s : State}
    (hs : Only F s₀ s) (hF : Within 36370744424 F) :
    OnlyN F s₀ (execTallySet g s) := by
  unfold execTallySet
  repeat' first
    | with_reducible assumption
    | (intro _ _ _ _; try dsimp -zeta only)
    | (intro _ _ _; try dsimp -zeta only)
    | (intro _ _; try dsimp -zeta only)
    | (intro _; try dsimp -zeta only)
    | (extract_lets +onlyGivenNames y; refine cut (p := Only F s₀ y) ?_ (fun _ => ?_); rotate_left; clear_value y; rotate_right; subst y)
    | (extract_lets +onlyGivenNames y; refine cut (p := OnlyI F s₀ y) ?_ (fun _ => ?_); rotate_left; clear_value y; rotate_right; subst y)
    | (extract_lets +onlyGivenNames y; try clear_value y)
    | with_reducible apply issue_only
    | with_reducible apply State.setTally_only
    | with_reducible exact hF.of (by decide)
    | with_reducible apply Only.ite
    | with_reducible apply OnlyN.ite
    | with_reducible apply OnlyI.ite
    | split
    | with_reducible apply OnlyN.next
    | with_reducible apply OnlyI.wait
    | with_reducible apply OnlyI.ofFail
    | with_reducible apply OnlyI.ofRun
    | with_reducible apply OnlyI.ofReady
    | with_reducible apply OnlyI.ofDone
    | with_reducible apply OnlyI.ofBroke
    | with_reducible exact OnlyI.fail_eq rfl (by assumption)
    | with_reducible exact OnlyI.run_eq rfl (by assumption)
    | with_reducible exact OnlyI.ready_eq rfl (by assumption)
    | with_reducible exact OnlyI.done_eq rfl (by assumption)
    | with_reducible exact OnlyI.broke_eq rfl (by assumption)
    | with_reducible refine OnlyI.fail_eq (by assumption) ?_
    | with_reducible refine OnlyI.run_eq (by assumption) ?_
    | with_reducible refine OnlyI.ready_eq (by assumption) ?_
    | with_reducible refine OnlyI.done_eq (by assumption) ?_
    | with_reducible refine OnlyI.broke_eq (by assumption) ?_

theorem execSetSeed_only {F : Nat} {s₀ : State} {g : Fin 16384} {s : State}
    (hs : Only F s₀ s) (hF : Within 36372841576 F) :
    OnlyN F s₀ (execSetSeed g s) := by
  unfold execSetSeed
  repeat' first
    | with_reducible assumption
    | (intro _ _ _ _; try dsimp -zeta only)
    | (intro _ _ _; try dsimp -zeta only)
    | (intro _ _; try dsimp -zeta only)
    | (intro _; try dsimp -zeta only)
    | (extract_lets +onlyGivenNames y; refine cut (p := Only F s₀ y) ?_ (fun _ => ?_); rotate_left; clear_value y; rotate_right; subst y)
    | (extract_lets +onlyGivenNames y; refine cut (p := OnlyP F s₀ y) ?_ (fun _ => ?_); rotate_left; clear_value y; rotate_right; subst y)
    | (extract_lets +onlyGivenNames y; refine cut (p := OnlyI F s₀ y) ?_ (fun _ => ?_); rotate_left; clear_value y; rotate_right; subst y)
    | (extract_lets +onlyGivenNames y; try clear_value y)
    | with_reducible apply readLines_only
    | with_reducible apply State.modTile_only
    | with_reducible apply issue_only
    | with_reducible exact hF.of (by decide)
    | with_reducible apply Only.ite
    | with_reducible apply OnlyP.ite
    | with_reducible apply OnlyN.ite
    | with_reducible apply OnlyI.ite
    | split
    | with_reducible apply OnlyN.next
    | with_reducible apply OnlyP.mk'
    | with_reducible apply OnlyI.wait
    | with_reducible apply OnlyI.ofFail
    | with_reducible apply OnlyI.ofRun
    | with_reducible apply OnlyI.ofReady
    | with_reducible apply OnlyI.ofDone
    | with_reducible apply OnlyI.ofBroke
    | with_reducible refine OnlyP.of_eq (by assumption) ?_
    | with_reducible apply OnlyP.snd
    | with_reducible exact OnlyP.elim (by assumption)
    | with_reducible exact OnlyI.fail_eq rfl (by assumption)
    | with_reducible exact OnlyI.run_eq rfl (by assumption)
    | with_reducible exact OnlyI.ready_eq rfl (by assumption)
    | with_reducible exact OnlyI.done_eq rfl (by assumption)
    | with_reducible exact OnlyI.broke_eq rfl (by assumption)
    | with_reducible refine OnlyI.fail_eq (by assumption) ?_
    | with_reducible refine OnlyI.run_eq (by assumption) ?_
    | with_reducible refine OnlyI.ready_eq (by assumption) ?_
    | with_reducible refine OnlyI.done_eq (by assumption) ?_
    | with_reducible refine OnlyI.broke_eq (by assumption) ?_

theorem execTaskBegin_only {F : Nat} {s₀ : State} {g : Fin 16384} {s : State}
    (hs : Only F s₀ s) (hF : Within 36370744424 F) :
    OnlyN F s₀ (execTaskBegin g s) := by
  unfold execTaskBegin
  repeat' first
    | with_reducible assumption
    | (intro _ _ _ _; try dsimp -zeta only)
    | (intro _ _ _; try dsimp -zeta only)
    | (intro _ _; try dsimp -zeta only)
    | (intro _; try dsimp -zeta only)
    | with_reducible apply issue_only
    | with_reducible apply State.modQueue_only
    | with_reducible exact hF.of (by decide)
    | with_reducible apply Only.ite
    | with_reducible apply OnlyN.ite
    | with_reducible apply OnlyI.ite
    | split
    | with_reducible apply OnlyN.next
    | with_reducible apply OnlyI.wait
    | with_reducible apply OnlyI.ofFail
    | with_reducible apply OnlyI.ofRun
    | with_reducible apply OnlyI.ofReady
    | with_reducible apply OnlyI.ofDone
    | with_reducible apply OnlyI.ofBroke
    | with_reducible exact OnlyI.fail_eq rfl (by assumption)
    | with_reducible exact OnlyI.run_eq rfl (by assumption)
    | with_reducible exact OnlyI.ready_eq rfl (by assumption)
    | with_reducible exact OnlyI.done_eq rfl (by assumption)
    | with_reducible exact OnlyI.broke_eq rfl (by assumption)
    | with_reducible refine OnlyI.fail_eq (by assumption) ?_
    | with_reducible refine OnlyI.run_eq (by assumption) ?_
    | with_reducible refine OnlyI.ready_eq (by assumption) ?_
    | with_reducible refine OnlyI.done_eq (by assumption) ?_
    | with_reducible refine OnlyI.broke_eq (by assumption) ?_

theorem execTaskEnd_only {F : Nat} {s₀ : State} {g : Fin 16384} {s : State}
    (hs : Only F s₀ s) (hF : Within 36370744424 F) :
    OnlyN F s₀ (execTaskEnd g s) := by
  unfold execTaskEnd
  repeat' first
    | with_reducible assumption
    | (intro _ _ _ _; try dsimp -zeta only)
    | (intro _ _ _; try dsimp -zeta only)
    | (intro _ _; try dsimp -zeta only)
    | (intro _; try dsimp -zeta only)
    | with_reducible apply issue_only
    | with_reducible apply State.modQueue_only
    | with_reducible exact hF.of (by decide)
    | with_reducible apply OnlyN.next
    | with_reducible apply OnlyI.wait
    | with_reducible apply OnlyI.ofFail
    | with_reducible apply OnlyI.ofRun
    | with_reducible apply OnlyI.ofReady
    | with_reducible apply OnlyI.ofDone
    | with_reducible apply OnlyI.ofBroke
    | with_reducible exact OnlyI.fail_eq rfl (by assumption)
    | with_reducible exact OnlyI.run_eq rfl (by assumption)
    | with_reducible exact OnlyI.ready_eq rfl (by assumption)
    | with_reducible exact OnlyI.done_eq rfl (by assumption)
    | with_reducible exact OnlyI.broke_eq rfl (by assumption)
    | with_reducible refine OnlyI.fail_eq (by assumption) ?_
    | with_reducible refine OnlyI.run_eq (by assumption) ?_
    | with_reducible refine OnlyI.ready_eq (by assumption) ?_
    | with_reducible refine OnlyI.done_eq (by assumption) ?_
    | with_reducible refine OnlyI.broke_eq (by assumption) ?_

theorem execReservedOpcode_only {F : Nat} {s₀ : State} {g : Fin 16384} {s : State}
    (hs : Only F s₀ s) (hF : Within 36370744424 F) :
    OnlyN F s₀ (execReservedOpcode g s) := by
  unfold execReservedOpcode
  repeat' first
    | with_reducible assumption
    | (intro _ _ _ _; try dsimp -zeta only)
    | (intro _ _ _; try dsimp -zeta only)
    | (intro _ _; try dsimp -zeta only)
    | (intro _; try dsimp -zeta only)
    | with_reducible apply issue_only
    | with_reducible exact hF.of (by decide)
    | with_reducible apply OnlyN.next
    | with_reducible apply OnlyI.wait
    | with_reducible apply OnlyI.ofFail
    | with_reducible apply OnlyI.ofRun
    | with_reducible apply OnlyI.ofReady
    | with_reducible apply OnlyI.ofDone
    | with_reducible apply OnlyI.ofBroke
    | with_reducible exact OnlyI.fail_eq rfl (by assumption)
    | with_reducible exact OnlyI.run_eq rfl (by assumption)
    | with_reducible exact OnlyI.ready_eq rfl (by assumption)
    | with_reducible exact OnlyI.done_eq rfl (by assumption)
    | with_reducible exact OnlyI.broke_eq rfl (by assumption)
    | with_reducible refine OnlyI.fail_eq (by assumption) ?_
    | with_reducible refine OnlyI.run_eq (by assumption) ?_
    | with_reducible refine OnlyI.ready_eq (by assumption) ?_
    | with_reducible refine OnlyI.done_eq (by assumption) ?_
    | with_reducible refine OnlyI.broke_eq (by assumption) ?_

theorem execTaskAbort_only {F : Nat} {s₀ : State} {g : Fin 16384} {idx : Word} {e : CmdError} {s : State}
    (hs : Only F s₀ s) (hF : Within 36370678888 F) :
    OnlyN F s₀ (execTaskAbort g idx e s) := by
  unfold execTaskAbort
  repeat' first
    | with_reducible assumption
    | with_reducible apply abortCommand_only
    | with_reducible apply failAtIssue_only
    | with_reducible exact hF.of (by decide)
    | with_reducible apply Only.ite
    | with_reducible apply OnlyN.ite
    | split
    | with_reducible apply OnlyN.next

theorem execAbortQuiesced_only {F : Nat} {s₀ : State} {g : Fin 16384} {s : State}
    (hs : Only F s₀ s) (hF : Within 268534856 F) :
    OnlyN F s₀ (execAbortQuiesced g s) := by
  unfold execAbortQuiesced
  repeat' first
    | with_reducible assumption
    | (intro _ _ _ _; try dsimp -zeta only)
    | (intro _ _ _; try dsimp -zeta only)
    | (intro _ _; try dsimp -zeta only)
    | (intro _; try dsimp -zeta only)
    | (extract_lets +onlyGivenNames y; refine cut (p := Only F s₀ y) ?_ (fun _ => ?_); rotate_left; clear_value y; rotate_right; subst y)
    | (extract_lets +onlyGivenNames y; try clear_value y)
    | with_reducible apply State.modQueue_only
    | with_reducible apply post_only
    | with_reducible apply raiseTally_only
    | with_reducible exact hF.of (by decide)
    | with_reducible apply Only.ite
    | with_reducible apply OnlyN.ite
    | split
    | with_reducible apply OnlyN.next

theorem ringDoorbell_only {F : Nat} {s₀ : State} {s : State} {g : Nat} {v : Word}
    (hs : Only F s₀ s) (hF : Within 1868872 F) :
    Only F s₀ (ringDoorbell s g v) := by
  unfold ringDoorbell
  repeat' first
    | with_reducible assumption
    | (extract_lets +onlyGivenNames y; refine cut (p := Only F s₀ y) ?_ (fun _ => ?_); rotate_left; clear_value y; rotate_right; subst y)
    | (extract_lets +onlyGivenNames y; try clear_value y)
    | with_reducible apply skipOn_only
    | with_reducible apply State.setQueue_only
    | with_reducible apply post_only
    | with_reducible exact hF.of (by decide)
    | with_reducible apply Only.ite
    | split

theorem tallyWrite_only {F : Nat} {s₀ : State} {s : State} {k : Nat} {v : Word}
    (hs : Only F s₀ s) (hF : Within 65536 F) :
    Only F s₀ (tallyWrite s k v) := by
  unfold tallyWrite
  repeat' first
    | with_reducible assumption
    | with_reducible apply State.setTally_only
    | with_reducible exact hF.of (by decide)

theorem tallyAdd_only {F : Nat} {s₀ : State} {s : State} {k : Nat} {v : Word}
    (hs : Only F s₀ s) (hF : Within 65536 F) :
    Only F s₀ (tallyAdd s k v) := by
  unfold tallyAdd
  repeat' first
    | with_reducible assumption
    | with_reducible apply State.setTally_only
    | with_reducible exact hF.of (by decide)

theorem queueWrite_only {F : Nat} {s₀ : State} {s : State} {p : Path} {g : Nat} {o : Nat} {data : Word} {effect : State → State}
    (hs : Only F s₀ s) (h_effect : ∀ x0, Only F s₀ x0 → Only F s₀ (effect x0)) (hF : Within 5208 F) :
    Only F s₀ (queueWrite s p g o data effect) := by
  unfold queueWrite
  repeat' first
    | with_reducible assumption
    | (intro _ _ _ _; try dsimp -zeta only)
    | (intro _ _ _; try dsimp -zeta only)
    | (intro _ _; try dsimp -zeta only)
    | (intro _; try dsimp -zeta only)
    | (extract_lets +onlyGivenNames y; refine cut (p := Only F s₀ y) ?_ (fun _ => ?_); rotate_left; clear_value y; rotate_right; subst y)
    | (extract_lets +onlyGivenNames y; try clear_value y)
    | with_reducible apply partyWrite_only
    | with_reducible apply accessError_only
    | with_reducible exact hF.of (by decide)
    | apply h_effect
    | with_reducible apply Only.ite
    | split

theorem forgetUsers_only {F : Nat} {s₀ : State} {s : State} {g : Nat}
    (hs : Only F s₀ s) (hF : Within 8388608 F) :
    Only F s₀ (forgetUsers s g) := by
  unfold forgetUsers
  repeat' first
    | with_reducible assumption
    | (intro _ _ _ _; try dsimp -zeta only)
    | (intro _ _ _; try dsimp -zeta only)
    | (intro _ _; try dsimp -zeta only)
    | (intro _; try dsimp -zeta only)
    | (extract_lets +onlyGivenNames y; refine cut (p := Only F s₀ y) ?_ (fun _ => ?_); rotate_left; clear_value y; rotate_right; subst y)
    | (extract_lets +onlyGivenNames y; try clear_value y)
    | with_reducible apply State.setEngine_only
    | with_reducible exact hF.of (by decide)
    | with_reducible apply Only.each
    | split

theorem ringWrite_only {F : Nat} {s₀ : State} {s : State} {p : Path} {g : Nat} {v : Word}
    (hs : Only F s₀ s) (hF : Within 8422408 F) :
    Only F s₀ (ringWrite s p g v) := by
  unfold ringWrite
  repeat' first
    | with_reducible assumption
    | (intro _ _ _ _; try dsimp -zeta only)
    | (intro _ _ _; try dsimp -zeta only)
    | (intro _ _; try dsimp -zeta only)
    | (intro _; try dsimp -zeta only)
    | (extract_lets +onlyGivenNames y; refine cut (p := Only F s₀ y) ?_ (fun _ => ?_); rotate_left; clear_value y; rotate_right; subst y)
    | (extract_lets +onlyGivenNames y; try clear_value y)
    | with_reducible apply accessError_only
    | with_reducible apply State.setQueue_only
    | with_reducible apply forgetUsers_only
    | with_reducible exact hF.of (by decide)
    | with_reducible apply Only.ite
    | split

theorem execQueueRingWrite_only {F : Nat} {s₀ : State} {p : Path} {g : Fin 16384} {v : Word} {s : State}
    (hs : Only F s₀ s) (hF : Within 8426584 F) :
    OnlyN F s₀ (execQueueRingWrite p g v s) := by
  unfold execQueueRingWrite
  repeat' first
    | with_reducible assumption
    | (intro _ _ _ _; try dsimp -zeta only)
    | (intro _ _ _; try dsimp -zeta only)
    | (intro _ _; try dsimp -zeta only)
    | (intro _; try dsimp -zeta only)
    | with_reducible apply queueWrite_only
    | with_reducible apply ringWrite_only
    | with_reducible exact hF.of (by decide)
    | with_reducible apply OnlyN.next

theorem ctrlWrite_only {F : Nat} {s₀ : State} {s : State} {p : Path} {g : Nat} {v : Word}
    (hs : Only F s₀ s) (hF : Within 1868872 F) :
    Only F s₀ (ctrlWrite s p g v) := by
  unfold ctrlWrite
  repeat' first
    | with_reducible assumption
    | (extract_lets +onlyGivenNames y; refine cut (p := Only F s₀ y) ?_ (fun _ => ?_); rotate_left; clear_value y; rotate_right; subst y)
    | (extract_lets +onlyGivenNames y; try clear_value y)
    | with_reducible apply accessError_only
    | with_reducible apply skipOn_only
    | with_reducible apply State.setQueue_only
    | with_reducible exact hF.of (by decide)
    | with_reducible apply Only.ite
    | split

theorem execQueueCtrlWrite_only {F : Nat} {s₀ : State} {p : Path} {g : Fin 16384} {v : Word} {s : State}
    (hs : Only F s₀ s) (hF : Within 1872984 F) :
    OnlyN F s₀ (execQueueCtrlWrite p g v s) := by
  unfold execQueueCtrlWrite
  repeat' first
    | with_reducible assumption
    | (intro _ _ _ _; try dsimp -zeta only)
    | (intro _ _ _; try dsimp -zeta only)
    | (intro _ _; try dsimp -zeta only)
    | (intro _; try dsimp -zeta only)
    | with_reducible apply queueWrite_only
    | with_reducible apply ctrlWrite_only
    | with_reducible exact hF.of (by decide)
    | with_reducible apply OnlyN.next

theorem strandRings_only {F : Nat} {s₀ : State} {s : State} {t : Nat}
    (hs : Only F s₀ s) (hF : Within 33800 F) :
    Only F s₀ (strandRings s t) := by
  unfold strandRings
  repeat' first
    | with_reducible assumption
    | (intro _ _ _ _; try dsimp -zeta only)
    | (intro _ _ _; try dsimp -zeta only)
    | (intro _ _; try dsimp -zeta only)
    | (intro _; try dsimp -zeta only)
    | (extract_lets +onlyGivenNames y; refine cut (p := Only F s₀ y) ?_ (fun _ => ?_); rotate_left; clear_value y; rotate_right; subst y)
    | (extract_lets +onlyGivenNames y; try clear_value y)
    | with_reducible apply ownAccessError_only
    | with_reducible apply State.setQueue_only
    | with_reducible exact hF.of (by decide)
    | with_reducible apply Only.each
    | with_reducible apply Only.ite
    | split

theorem foldMemory_only {F : Nat} {s₀ : State} {s : State} {t : Nat}
    (hs : Only F s₀ s) (hF : Within 6198472 F) :
    Only F s₀ (foldMemory s t) := by
  unfold foldMemory
  repeat' first
    | with_reducible assumption
    | (intro _ _ _ _; try dsimp -zeta only)
    | (intro _ _ _; try dsimp -zeta only)
    | (intro _ _; try dsimp -zeta only)
    | (intro _; try dsimp -zeta only)
    | with_reducible apply foldMem_only
    | with_reducible apply strandRings_only
    | with_reducible exact hF.of (by decide)

theorem execMemFold_only {F : Nat} {s₀ : State} {p : Path} {t : Fin 64} {s : State}
    (hs : Only F s₀ s) (hF : Within 6198488 F) :
    OnlyN F s₀ (execMemFold p t s) := by
  unfold execMemFold
  repeat' first
    | with_reducible assumption
    | (intro _ _ _ _; try dsimp -zeta only)
    | (intro _ _ _; try dsimp -zeta only)
    | (intro _ _; try dsimp -zeta only)
    | (intro _; try dsimp -zeta only)
    | with_reducible apply ownerWrite_only
    | with_reducible apply foldMemory_only
    | with_reducible exact hF.of (by decide)
    | with_reducible apply OnlyN.next

theorem requestAbort_only {F : Nat} {s₀ : State} {s : State} {g : Nat}
    (hs : Only F s₀ s) (hF : Within 36370678888 F) :
    Only F s₀ (requestAbort s g) := by
  unfold requestAbort
  repeat' first
    | with_reducible assumption
    | (extract_lets +onlyGivenNames y; refine cut (p := Only F s₀ y) ?_ (fun _ => ?_); rotate_left; clear_value y; rotate_right; subst y)
    | (extract_lets +onlyGivenNames y; try clear_value y)
    | with_reducible apply failAtIssue_only
    | with_reducible exact hF.of (by decide)
    | with_reducible apply Only.ite
    | split

theorem execQueueAbort_only {F : Nat} {s₀ : State} {p : Path} {g : Fin 16384} {s : State}
    (hs : Only F s₀ s) (hF : Within 36370683000 F) :
    OnlyN F s₀ (execQueueAbort p g s) := by
  unfold execQueueAbort
  repeat' first
    | with_reducible assumption
    | (intro _ _ _ _; try dsimp -zeta only)
    | (intro _ _ _; try dsimp -zeta only)
    | (intro _ _; try dsimp -zeta only)
    | (intro _; try dsimp -zeta only)
    | with_reducible apply queueWrite_only
    | with_reducible apply requestAbort_only
    | with_reducible exact hF.of (by decide)
    | with_reducible apply OnlyN.next

theorem execStallTimeout_only {F : Nat} {s₀ : State} {g : Fin 16384} {s : State}
    (hs : Only F s₀ s) (hF : Within 1073775694 F) :
    OnlyN F s₀ (execStallTimeout g s) := by
  unfold execStallTimeout
  repeat' first
    | with_reducible assumption
    | (intro _ _ _ _; try dsimp -zeta only)
    | (intro _ _ _; try dsimp -zeta only)
    | (intro _ _; try dsimp -zeta only)
    | (intro _; try dsimp -zeta only)
    | (extract_lets +onlyGivenNames y; refine cut (p := Only F s₀ y) ?_ (fun _ => ?_); rotate_left; clear_value y; rotate_right; subst y)
    | (extract_lets +onlyGivenNames y; try clear_value y)
    | with_reducible apply passToTime_only
    | with_reducible apply State.modQueue_only
    | with_reducible apply post_only
    | with_reducible apply State.count32_only
    | with_reducible exact hF.of (by decide)
    | with_reducible apply Only.ite
    | with_reducible apply OnlyN.ite
    | split
    | with_reducible apply OnlyN.next

end Sys2Proof.Machine
end

