-- ==== Sys2Proof/Laws/OnlyRamp.lean ====
section
/-! SUPPORT. What each operation of Sys2Proof/Machine/Ramp.lean may change. -/

namespace Sys2Proof.Machine

open Sys2Proof

theorem countCycles_only {F : Nat} {s₀ : State} {s : State} {t : Nat} {e : Nat} {c : Cycles}
    (hs : Only F s₀ s) (hF : Within 64 F) :
    Only F s₀ (countCycles s t e c) := by
  unfold countCycles
  repeat' first
    | with_reducible assumption
    | (intro _ _ _ _; try dsimp -zeta only)
    | (intro _ _ _; try dsimp -zeta only)
    | (intro _ _; try dsimp -zeta only)
    | (intro _; try dsimp -zeta only)
    | (extract_lets +onlyGivenNames y; refine cut (p := Only F s₀ y) ?_ (fun _ => ?_); rotate_left; clear_value y; rotate_right; subst y)
    | (extract_lets +onlyGivenNames y; try clear_value y)
    | with_reducible apply State.count64_only
    | with_reducible exact hF.of (by decide)

theorem passCycles_only {F : Nat} {s₀ : State} {s : State} {t : Nat} {e : Nat} {n : Nat}
    (hs : Only F s₀ s) (hF : Within 8388672 F) :
    Only F s₀ (passCycles s t e n) := by
  unfold passCycles
  repeat' first
    | with_reducible assumption
    | (intro _ _ _ _; try dsimp -zeta only)
    | (intro _ _ _; try dsimp -zeta only)
    | (intro _ _; try dsimp -zeta only)
    | (intro _; try dsimp -zeta only)
    | (extract_lets +onlyGivenNames y; refine cut (p := Only F s₀ y) ?_ (fun _ => ?_); rotate_left; clear_value y; rotate_right; subst y)
    | (extract_lets +onlyGivenNames y; try clear_value y)
    | with_reducible apply State.setEngine_only
    | with_reducible apply countCycles_only
    | with_reducible exact hF.of (by decide)

theorem unitCycles_only {F : Nat} {s₀ : State} {s : State} {t : Nat} {u : Nat} {f : Pace → Engine → Nat}
    (hs : Only F s₀ s) (hF : Within 12582976 F) :
    Only F s₀ (unitCycles s t u f) := by
  unfold unitCycles
  repeat' first
    | with_reducible assumption
    | (intro _ _ _ _; try dsimp -zeta only)
    | (intro _ _ _; try dsimp -zeta only)
    | (intro _ _; try dsimp -zeta only)
    | (intro _; try dsimp -zeta only)
    | with_reducible apply State.modTile_only
    | with_reducible apply passCycles_only
    | with_reducible exact hF.of (by decide)
    | with_reducible apply Only.ite
    | split

theorem execEngineWindowExpired_only {F : Nat} {s₀ : State} {t : Fin 64} {u : Fin 5} {s : State}
    (hs : Only F s₀ s) (hF : Within 12582976 F) :
    OnlyN F s₀ (execEngineWindowExpired t u s) := by
  unfold execEngineWindowExpired
  repeat' first
    | with_reducible assumption
    | (intro _ _ _ _; try dsimp -zeta only)
    | (intro _ _ _; try dsimp -zeta only)
    | (intro _ _; try dsimp -zeta only)
    | (intro _; try dsimp -zeta only)
    | with_reducible apply unitCycles_only
    | with_reducible exact hF.of (by decide)
    | with_reducible apply Only.ite
    | with_reducible apply OnlyN.ite
    | split
    | with_reducible apply OnlyN.next

theorem execEngineRampStep_only {F : Nat} {s₀ : State} {t : Fin 64} {u : Fin 5} {s : State}
    (hs : Only F s₀ s) (hF : Within 12582976 F) :
    OnlyN F s₀ (execEngineRampStep t u s) := by
  unfold execEngineRampStep
  repeat' first
    | with_reducible assumption
    | (intro _ _ _ _; try dsimp -zeta only)
    | (intro _ _ _; try dsimp -zeta only)
    | (intro _ _; try dsimp -zeta only)
    | (intro _; try dsimp -zeta only)
    | with_reducible apply unitCycles_only
    | with_reducible exact hF.of (by decide)
    | with_reducible apply Only.ite
    | with_reducible apply OnlyN.ite
    | split
    | with_reducible apply OnlyN.next

theorem vecWork_only {F : Nat} {s₀ : State} {s : State} {t : Nat} {n : Nat}
    (hs : Only F s₀ s) (hF : Within 4194304 F) :
    Only F s₀ (vecWork s t n) := by
  unfold vecWork
  repeat' first
    | with_reducible assumption
    | (intro _ _ _ _; try dsimp -zeta only)
    | (intro _ _ _; try dsimp -zeta only)
    | (intro _ _; try dsimp -zeta only)
    | (intro _; try dsimp -zeta only)
    | with_reducible apply State.modTile_only
    | with_reducible exact hF.of (by decide)

end Sys2Proof.Machine
end

