-- ==== Sys2Proof/Laws/OnlyEngine.lean ====
section
/-! SUPPORT. What each operation of Sys2Proof/Machine/Engine.lean may change. -/

namespace Sys2Proof.Machine

open Sys2Proof

theorem checkOperand_only {F : Nat} {s₀ : State} {c : Cmd} {field : Nat} {slot : Nat} {fmt : Nat} {write : Bool} {noEsc : Bool} {count : Nat} {s : State}
    (hs : Only F s₀ s) (hF : Within 787528 F) :
    OnlyP F s₀ (checkOperand c field slot fmt write noEsc count s) := by
  unfold checkOperand
  repeat' first
    | with_reducible assumption
    | with_reducible apply useOperand_only
    | with_reducible exact hF.of (by decide)
    | split
    | with_reducible apply OnlyP.mk'
    | with_reducible refine OnlyP.of_eq (by assumption) ?_
    | with_reducible apply OnlyP.snd
    | with_reducible exact OnlyP.elim (by assumption)

theorem checkDesc_only {F : Nat} {s₀ : State} {c : Cmd} {field : Nat} {slot : Nat} {w : Need} {s : State}
    (hs : Only F s₀ s) (hF : Within 787528 F) :
    OnlyP F s₀ (checkDesc c field slot w s) := by
  unfold checkDesc
  repeat' first
    | with_reducible assumption
    | with_reducible apply useDesc_only
    | with_reducible exact hF.of (by decide)
    | split
    | with_reducible apply OnlyP.mk'
    | with_reducible refine OnlyP.of_eq (by assumption) ?_
    | with_reducible apply OnlyP.snd
    | with_reducible exact OnlyP.elim (by assumption)

theorem checkAll_only {F : Nat} {s₀ : State} {fs : List (State → Except CmdError Unit × State)} {s : State}
    (hs : Only F s₀ s) (hf : ∀ f ∈ fs, ∀ u, Only F s₀ u → OnlyP F s₀ (f u)) :
    OnlyP F s₀ (checkAll fs s) := by
  induction fs generalizing s with
  | nil => exact OnlyP.mk' hs
  | cons f fs ih =>
    have h := hf f (List.mem_cons_self ..) s hs
    unfold checkAll
    split
    · exact OnlyP.mk' (OnlyP.of_eq (by assumption) h)
    · exact ih (OnlyP.of_eq (by assumption) h) fun g hg => hf g (List.mem_cons_of_mem _ hg)

theorem passCheck_only {F : Nat} {s₀ : State} {c : Cmd} {x : Engine} {ext : Option Extent × Bool} {keepRows : Bool} {s : State}
    (hs : Only F s₀ s) (hF : Within 787528 F) :
    OnlyP F s₀ (passCheck c x ext keepRows s) := by
  have checks : OnlyL F s₀ (passDescChecks c ext keepRows) := by
    unfold passDescChecks
    repeat' first
      | (intro _ _)
      | (extract_lets +onlyGivenNames y; clear_value y)
      | with_reducible apply OnlyL.append
      | with_reducible apply OnlyL.nil
      | with_reducible apply OnlyL.one
      | with_reducible apply checkOperand_only
      | with_reducible apply checkDesc_only
      | with_reducible assumption
      | with_reducible exact hF.of (by decide)
      | split
  have all := checkAll_only hs checks.all
  unfold passCheck
  repeat' first
    | with_reducible assumption
    | split
    | with_reducible apply OnlyP.mk'
    | with_reducible refine OnlyP.of_eq (by assumption) ?_

theorem refGood_only {F : Nat} {s₀ : State} {s : State} {t : Nat} {copies : SMap (Option Line)} {slot : Nat} {count : Nat}
    (hs : Only F s₀ s) (hF : Within 787528 F) :
    OnlyP F s₀ (refGood s t copies slot count) := by
  unfold refGood
  repeat' first
    | with_reducible assumption
    | (intro _ _ _ _; try dsimp -zeta only)
    | (intro _ _ _; try dsimp -zeta only)
    | (intro _ _; try dsimp -zeta only)
    | (intro _; try dsimp -zeta only)
    | with_reducible apply useDesc_only
    | with_reducible exact hF.of (by decide)
    | split
    | with_reducible apply OnlyP.mk'
    | with_reducible refine OnlyP.of_eq (by assumption) ?_
    | with_reducible apply OnlyP.snd
    | with_reducible exact OnlyP.elim (by assumption)

theorem refsGood_only {F : Nat} {s₀ : State} {s : State} {c : Cmd} {vectors : Nat} {sref : Option Nat}
    (hs : Only F s₀ s) (hF : Within 787528 F) :
    OnlyP F s₀ (refsGood s c vectors sref) := by
  unfold refsGood
  repeat' first
    | with_reducible assumption
    | (intro _ _ _ _; try dsimp -zeta only)
    | (intro _ _ _; try dsimp -zeta only)
    | (intro _ _; try dsimp -zeta only)
    | (intro _; try dsimp -zeta only)
    | (extract_lets +onlyGivenNames y; refine cut (p := Only F s₀ y) ?_ (fun _ => ?_); rotate_left; clear_value y; rotate_right; subst y)
    | (extract_lets +onlyGivenNames y; refine cut (p := OnlyP F s₀ y) ?_ (fun _ => ?_); rotate_left; clear_value y; rotate_right; subst y)
    | (extract_lets +onlyGivenNames y; try clear_value y)
    | with_reducible apply refGood_only
    | with_reducible exact hF.of (by decide)
    | with_reducible apply Only.ite
    | with_reducible apply OnlyP.ite
    | split
    | with_reducible apply OnlyP.mk'
    | with_reducible refine OnlyP.of_eq (by assumption) ?_
    | with_reducible apply OnlyP.snd
    | with_reducible exact OnlyP.elim (by assumption)

theorem issuePass_only {F : Nat} {s₀ : State} {c : Cmd} {s : State}
    (hs : Only F s₀ s) (hF : Within 59507784 F) :
    OnlyI F s₀ (issuePass c s) := by
  unfold issuePass
  repeat' first
    | with_reducible assumption
    | (intro _ _ _ _; try dsimp -zeta only)
    | (intro _ _ _; try dsimp -zeta only)
    | (intro _ _; try dsimp -zeta only)
    | (intro _; try dsimp -zeta only)
    | (extract_lets +onlyGivenNames y; refine cut (p := Only F s₀ y) ?_ (fun _ => ?_); rotate_left; clear_value y; rotate_right; subst y)
    | (extract_lets +onlyGivenNames y; refine cut (p := OnlyP F s₀ y) ?_ (fun _ => ?_); rotate_left; clear_value y; rotate_right; subst y)
    | (extract_lets +onlyGivenNames y; refine cut (p := OnlyI F s₀ y) ?_ (fun _ => ?_); rotate_left; clear_value y; rotate_right; subst y)
    | (extract_lets +onlyGivenNames y; try clear_value y)
    | with_reducible apply passCheck_only
    | with_reducible apply refsGood_only
    | with_reducible apply State.count32_only
    | with_reducible apply State.setEngine_only
    | with_reducible apply admitReady_only
    | with_reducible exact hF.of (by decide)
    | with_reducible apply Only.foldl
    | with_reducible apply OnlyP.foldl
    | with_reducible apply Only.ite
    | with_reducible apply OnlyP.ite
    | with_reducible apply OnlyI.ite
    | split
    | with_reducible apply OnlyP.mk'
    | with_reducible apply OnlyI.wait
    | with_reducible apply OnlyI.ofFail
    | with_reducible apply OnlyI.ofRun
    | with_reducible apply OnlyI.ofReady
    | with_reducible apply OnlyI.ofDone
    | with_reducible apply OnlyI.ofBroke
    | with_reducible refine OnlyP.of_eq (by assumption) ?_
    | with_reducible apply OnlyP.snd
    | with_reducible exact OnlyP.elim (by assumption)
    | with_reducible exact OnlyI.fail_eq rfl (by assumption)
    | with_reducible exact OnlyI.run_eq rfl (by assumption)
    | with_reducible exact OnlyI.ready_eq rfl (by assumption)
    | with_reducible exact OnlyI.done_eq rfl (by assumption)
    | with_reducible exact OnlyI.broke_eq rfl (by assumption)
    | with_reducible refine OnlyI.fail_eq (by assumption) ?_
    | with_reducible refine OnlyI.run_eq (by assumption) ?_
    | with_reducible refine OnlyI.ready_eq (by assumption) ?_
    | with_reducible refine OnlyI.done_eq (by assumption) ?_
    | with_reducible refine OnlyI.broke_eq (by assumption) ?_

theorem execMatrixPass_only {F : Nat} {s₀ : State} {g : Fin 16384} {s : State}
    (hs : Only F s₀ s) (hF : Within 36370744424 F) :
    OnlyN F s₀ (execMatrixPass g s) := by
  unfold execMatrixPass
  repeat' first
    | with_reducible assumption
    | (intro _ _ _ _; try dsimp -zeta only)
    | (intro _ _ _; try dsimp -zeta only)
    | (intro _ _; try dsimp -zeta only)
    | (intro _; try dsimp -zeta only)
    | with_reducible apply issue_only
    | with_reducible apply issuePass_only
    | with_reducible exact hF.of (by decide)
    | with_reducible apply OnlyN.next
    | with_reducible apply OnlyI.wait
    | with_reducible apply OnlyI.ofFail
    | with_reducible apply OnlyI.ofRun
    | with_reducible apply OnlyI.ofReady
    | with_reducible apply OnlyI.ofDone
    | with_reducible apply OnlyI.ofBroke
    | with_reducible exact OnlyI.fail_eq rfl (by assumption)
    | with_reducible exact OnlyI.run_eq rfl (by assumption)
    | with_reducible exact OnlyI.ready_eq rfl (by assumption)
    | with_reducible exact OnlyI.done_eq rfl (by assumption)
    | with_reducible exact OnlyI.broke_eq rfl (by assumption)
    | with_reducible refine OnlyI.fail_eq (by assumption) ?_
    | with_reducible refine OnlyI.run_eq (by assumption) ?_
    | with_reducible refine OnlyI.ready_eq (by assumption) ?_
    | with_reducible refine OnlyI.done_eq (by assumption) ?_
    | with_reducible refine OnlyI.broke_eq (by assumption) ?_

theorem execStationaryLoadStart_only {F : Nat} {s₀ : State} {t : Fin 64} {e : Fin 4} {s : State}
    (hs : Only F s₀ s) (hF : Within 36372776040 F) :
    OnlyN F s₀ (execStationaryLoadStart t e s) := by
  unfold execStationaryLoadStart
  repeat' first
    | with_reducible assumption
    | (intro _ _ _ _; try dsimp -zeta only)
    | (intro _ _ _; try dsimp -zeta only)
    | (intro _ _; try dsimp -zeta only)
    | (intro _; try dsimp -zeta only)
    | (extract_lets +onlyGivenNames y; refine cut (p := Only F s₀ y) ?_ (fun _ => ?_); rotate_left; clear_value y; rotate_right; subst y)
    | (extract_lets +onlyGivenNames y; refine cut (p := OnlyP F s₀ y) ?_ (fun _ => ?_); rotate_left; clear_value y; rotate_right; subst y)
    | (extract_lets +onlyGivenNames y; try clear_value y)
    | with_reducible apply loadValues_only
    | with_reducible apply State.setEngine_only
    | with_reducible apply modPass_only
    | with_reducible apply abortCommand_only
    | with_reducible exact hF.of (by decide)
    | with_reducible apply Only.ite
    | with_reducible apply OnlyP.ite
    | with_reducible apply OnlyN.ite
    | split
    | with_reducible apply OnlyN.next
    | with_reducible apply OnlyP.mk'
    | with_reducible refine OnlyP.of_eq (by assumption) ?_
    | with_reducible apply OnlyP.snd
    | with_reducible exact OnlyP.elim (by assumption)

theorem execMovingDataArrival_only {F : Nat} {s₀ : State} {t : Fin 64} {e : Fin 4} {rows : Nat} {s : State}
    (hs : Only F s₀ s) (hF : Within 36372776040 F) :
    OnlyN F s₀ (execMovingDataArrival t e rows s) := by
  unfold execMovingDataArrival
  repeat' first
    | with_reducible assumption
    | (intro _ _ _ _; try dsimp -zeta only)
    | (intro _ _ _; try dsimp -zeta only)
    | (intro _ _; try dsimp -zeta only)
    | (intro _; try dsimp -zeta only)
    | (extract_lets +onlyGivenNames y; refine cut (p := Only F s₀ y) ?_ (fun _ => ?_); rotate_left; clear_value y; rotate_right; subst y)
    | (extract_lets +onlyGivenNames y; refine cut (p := OnlyP F s₀ y) ?_ (fun _ => ?_); rotate_left; clear_value y; rotate_right; subst y)
    | (extract_lets +onlyGivenNames y; try clear_value y)
    | with_reducible apply loadValues_only
    | with_reducible apply modPass_only
    | with_reducible apply abortCommand_only
    | with_reducible exact hF.of (by decide)
    | with_reducible apply Only.ite
    | with_reducible apply OnlyP.ite
    | with_reducible apply OnlyN.ite
    | split
    | with_reducible apply OnlyN.next
    | with_reducible apply OnlyP.mk'
    | with_reducible refine OnlyP.of_eq (by assumption) ?_
    | with_reducible apply OnlyP.snd
    | with_reducible exact OnlyP.elim (by assumption)

theorem execPassFirstBroadcast_only {F : Nat} {s₀ : State} {t : Fin 64} {e : Fin 4} {cycles : Nat} {s : State}
    (hs : Only F s₀ s) (hF : Within 8388672 F) :
    OnlyN F s₀ (execPassFirstBroadcast t e cycles s) := by
  unfold execPassFirstBroadcast
  repeat' first
    | with_reducible assumption
    | (intro _ _ _ _; try dsimp -zeta only)
    | (intro _ _ _; try dsimp -zeta only)
    | (intro _ _; try dsimp -zeta only)
    | (intro _; try dsimp -zeta only)
    | (extract_lets +onlyGivenNames y; refine cut (p := Only F s₀ y) ?_ (fun _ => ?_); rotate_left; clear_value y; rotate_right; subst y)
    | (extract_lets +onlyGivenNames y; try clear_value y)
    | with_reducible apply State.setEngine_only
    | with_reducible apply countCycles_only
    | with_reducible apply passCycles_only
    | with_reducible exact hF.of (by decide)
    | with_reducible apply Only.ite
    | with_reducible apply OnlyN.ite
    | split
    | with_reducible apply OnlyN.next

theorem vectorSums_only {F : Nat} {s₀ : State} {s : State} {p : Pass} {v : Nat}
    (hs : Only F s₀ s) (hF : Within 8 F) :
    OnlyP F s₀ (vectorSums s p v) := by
  unfold vectorSums
  repeat' first
    | with_reducible assumption
    | (intro _ _ _ _; try dsimp -zeta only)
    | (intro _ _ _; try dsimp -zeta only)
    | (intro _ _; try dsimp -zeta only)
    | (intro _; try dsimp -zeta only)
    | (extract_lets +onlyGivenNames y; refine cut (p := Only F s₀ y) ?_ (fun _ => ?_); rotate_left; clear_value y; rotate_right; subst y)
    | (extract_lets +onlyGivenNames y; refine cut (p := OnlyP F s₀ y) ?_ (fun _ => ?_); rotate_left; clear_value y; rotate_right; subst y)
    | (extract_lets +onlyGivenNames y; try clear_value y)
    | with_reducible exact hF.of (by decide)
    | split
    | with_reducible apply OnlyP.mk'
    | with_reducible refine OnlyP.of_eq (by assumption) ?_
    | with_reducible apply OnlyP.snd
    | with_reducible exact OnlyP.elim (by assumption)
    | with_reducible apply Only.draws

theorem takeVector_only {F : Nat} {s₀ : State} {t : Nat} {e : Nat} {p : Pass} {s : State} {v : Nat}
    (hs : Only F s₀ s) (hF : Within 20971592 F) :
    Only F s₀ (takeVector t e p s v) := by
  unfold takeVector
  repeat' first
    | with_reducible assumption
    | (intro _ _ _ _; try dsimp -zeta only)
    | (intro _ _ _; try dsimp -zeta only)
    | (intro _ _; try dsimp -zeta only)
    | (intro _; try dsimp -zeta only)
    | (extract_lets +onlyGivenNames y; refine cut (p := Only F s₀ y) ?_ (fun _ => ?_); rotate_left; clear_value y; rotate_right; subst y)
    | (extract_lets +onlyGivenNames y; refine cut (p := OnlyP F s₀ y) ?_ (fun _ => ?_); rotate_left; clear_value y; rotate_right; subst y)
    | (extract_lets +onlyGivenNames y; try clear_value y)
    | with_reducible apply vectorSums_only
    | with_reducible apply setHealth_only
    | with_reducible apply State.setBank_only
    | with_reducible apply State.modTile_only
    | with_reducible exact hF.of (by decide)
    | with_reducible apply Only.ite
    | with_reducible apply OnlyP.ite
    | split
    | with_reducible apply OnlyP.mk'
    | with_reducible refine OnlyP.of_eq (by assumption) ?_
    | with_reducible apply OnlyP.snd
    | with_reducible exact OnlyP.elim (by assumption)

theorem strayDone_only {F : Nat} {s₀ : State} {s : State} {i : Nat} {p : Pass}
    (hs : Only F s₀ s) (hF : Within 33554432 F) :
    Only F s₀ (strayDone s i p) := by
  unfold strayDone
  repeat' first
    | with_reducible assumption
    | (intro _ _ _ _; try dsimp -zeta only)
    | (intro _ _ _; try dsimp -zeta only)
    | (intro _ _; try dsimp -zeta only)
    | (intro _; try dsimp -zeta only)
    | with_reducible apply requestDrain_only
    | with_reducible exact hF.of (by decide)
    | with_reducible apply Only.ite
    | split

theorem execPassSumArrival_only {F : Nat} {s₀ : State} {t : Fin 64} {e : Fin 4} {vectors : Nat} {cycles : Nat} {s : State}
    (hs : Only F s₀ s) (hF : Within 62914632 F) :
    OnlyN F s₀ (execPassSumArrival t e vectors cycles s) := by
  unfold execPassSumArrival
  repeat' first
    | with_reducible assumption
    | (intro _ _ _ _; try dsimp -zeta only)
    | (intro _ _ _; try dsimp -zeta only)
    | (intro _ _; try dsimp -zeta only)
    | (intro _; try dsimp -zeta only)
    | (extract_lets +onlyGivenNames y; refine cut (p := Only F s₀ y) ?_ (fun _ => ?_); rotate_left; clear_value y; rotate_right; subst y)
    | (extract_lets +onlyGivenNames y; try clear_value y)
    | with_reducible apply takeVector_only
    | with_reducible apply strayDone_only
    | with_reducible apply modPass_only
    | with_reducible apply passCycles_only
    | with_reducible exact hF.of (by decide)
    | with_reducible apply Only.foldl
    | with_reducible apply Only.ite
    | with_reducible apply OnlyN.ite
    | split
    | with_reducible apply OnlyN.next

theorem execPassComplete_only {F : Nat} {s₀ : State} {t : Fin 64} {e : Fin 4} {s : State}
    (hs : Only F s₀ s) (hF : Within 2009171048 F) :
    OnlyN F s₀ (execPassComplete t e s) := by
  unfold execPassComplete
  repeat' first
    | with_reducible assumption
    | (intro _ _ _ _; try dsimp -zeta only)
    | (intro _ _ _; try dsimp -zeta only)
    | (intro _ _; try dsimp -zeta only)
    | (intro _; try dsimp -zeta only)
    | (extract_lets +onlyGivenNames y; refine cut (p := Only F s₀ y) ?_ (fun _ => ?_); rotate_left; clear_value y; rotate_right; subst y)
    | (extract_lets +onlyGivenNames y; try clear_value y)
    | with_reducible apply State.setEngine_only
    | with_reducible apply State.setBank_only
    | with_reducible apply State.count64_only
    | with_reducible apply finishCommand_only
    | with_reducible apply admitReady_only
    | with_reducible exact hF.of (by decide)
    | with_reducible apply Only.ite
    | with_reducible apply OnlyN.ite
    | split
    | with_reducible apply OnlyN.next

theorem foldMe_only {F : Nat} {s₀ : State} {s : State} {t : Nat}
    (hs : Only F s₀ s) (hF : Within 192 F) :
    Only F s₀ (foldMe s t) := by
  unfold foldMe
  repeat' first
    | with_reducible assumption
    | (intro _ _ _ _; try dsimp -zeta only)
    | (intro _ _ _; try dsimp -zeta only)
    | (intro _ _; try dsimp -zeta only)
    | (intro _; try dsimp -zeta only)
    | with_reducible apply State.foldReg_only
    | with_reducible exact hF.of (by decide)
    | with_reducible apply Only.each

theorem execMeFold_only {F : Nat} {s₀ : State} {p : Path} {t : Fin 64} {s : State}
    (hs : Only F s₀ s) (hF : Within 5336 F) :
    OnlyN F s₀ (execMeFold p t s) := by
  unfold execMeFold
  repeat' first
    | with_reducible assumption
    | (intro _ _ _ _; try dsimp -zeta only)
    | (intro _ _ _; try dsimp -zeta only)
    | (intro _ _; try dsimp -zeta only)
    | (intro _; try dsimp -zeta only)
    | with_reducible apply ownerWrite_only
    | with_reducible apply foldMe_only
    | with_reducible exact hF.of (by decide)
    | with_reducible apply OnlyN.next

end Sys2Proof.Machine
end

