-- ==== Sys2Proof/Laws/OnlyWatch.lean ====
section
/-! SUPPORT. What each operation of Sys2Proof/Machine/Watch.lean may change. -/

namespace Sys2Proof.Machine

open Sys2Proof

theorem retainRows_only {F : Nat} {s₀ : State} {s : State} {t : Nat} {w : Nat} {rate : Nat} {phase : Nat} {d : Desc} {rows : List (Nat × List Num)} {who : MirrorOwner}
    (hs : Only F s₀ s) (hF : Within 137711453256 F) :
    OnlyP F s₀ (retainRows s t w rate phase d rows who) := by
  unfold retainRows
  repeat' first
    | with_reducible assumption
    | (intro _ _ _ _; try dsimp -zeta only)
    | (intro _ _ _; try dsimp -zeta only)
    | (intro _ _; try dsimp -zeta only)
    | (intro _; try dsimp -zeta only)
    | (extract_lets +onlyGivenNames y; refine cut (p := Only F s₀ y) ?_ (fun _ => ?_); rotate_left; clear_value y; rotate_right; subst y)
    | (extract_lets +onlyGivenNames y; refine cut (p := OnlyP F s₀ y) ?_ (fun _ => ?_); rotate_left; clear_value y; rotate_right; subst y)
    | (extract_lets +onlyGivenNames y; try clear_value y)
    | with_reducible apply storeLines_only
    | with_reducible apply State.count32_only
    | with_reducible exact hF.of (by decide)
    | with_reducible apply Only.ite
    | with_reducible apply OnlyP.ite
    | split
    | with_reducible apply OnlyP.mk'
    | with_reducible refine OnlyP.of_eq (by assumption) ?_
    | with_reducible apply OnlyP.snd
    | with_reducible exact OnlyP.elim (by assumption)

end Sys2Proof.Machine
end

