-- ==== Sys2Proof/Laws/OnlyAccumulator.lean ====
section
/-! SUPPORT. What each operation of Sys2Proof/Machine/Accumulator.lean may change. -/

namespace Sys2Proof.Machine

open Sys2Proof

theorem execBankFillDone_only {F : Nat} {s₀ : State} {t : Fin 64} {b : Fin 8} {s : State}
    (hs : Only F s₀ s) (hF : Within 58720256 F) :
    OnlyN F s₀ (execBankFillDone t b s) := by
  unfold execBankFillDone
  repeat' first
    | with_reducible assumption
    | (intro _ _ _ _; try dsimp -zeta only)
    | (intro _ _ _; try dsimp -zeta only)
    | (intro _ _; try dsimp -zeta only)
    | (intro _; try dsimp -zeta only)
    | (extract_lets +onlyGivenNames y; refine cut (p := Only F s₀ y) ?_ (fun _ => ?_); rotate_left; clear_value y; rotate_right; subst y)
    | (extract_lets +onlyGivenNames y; try clear_value y)
    | with_reducible apply State.setBank_only
    | with_reducible apply requestDrain_only
    | with_reducible apply admitReady_only
    | with_reducible exact hF.of (by decide)
    | with_reducible apply Only.ite
    | with_reducible apply OnlyN.ite
    | split
    | with_reducible apply OnlyN.next

theorem execBankZeroExpired_only {F : Nat} {s₀ : State} {t : Fin 64} {b : Fin 8} {s : State}
    (hs : Only F s₀ s) (hF : Within 58720256 F) :
    OnlyN F s₀ (execBankZeroExpired t b s) := by
  unfold execBankZeroExpired
  repeat' first
    | with_reducible assumption
    | (extract_lets +onlyGivenNames y; refine cut (p := Only F s₀ y) ?_ (fun _ => ?_); rotate_left; clear_value y; rotate_right; subst y)
    | (extract_lets +onlyGivenNames y; try clear_value y)
    | with_reducible apply admitReady_only
    | with_reducible apply State.setBank_only
    | with_reducible exact hF.of (by decide)
    | with_reducible apply Only.ite
    | with_reducible apply OnlyN.ite
    | split
    | with_reducible apply OnlyN.next

theorem drainedPass_only {F : Nat} {s₀ : State} {s : State} {i : Nat} {r : DrainReq}
    (hs : Only F s₀ s) (hF : Within 8388608 F) :
    Only F s₀ (drainedPass s i r) := by
  unfold drainedPass
  repeat' first
    | with_reducible assumption
    | (intro _ _ _ _; try dsimp -zeta only)
    | (intro _ _ _; try dsimp -zeta only)
    | (intro _ _; try dsimp -zeta only)
    | (intro _; try dsimp -zeta only)
    | (extract_lets +onlyGivenNames y; refine cut (p := Only F s₀ y) ?_ (fun _ => ?_); rotate_left; clear_value y; rotate_right; subst y)
    | (extract_lets +onlyGivenNames y; try clear_value y)
    | with_reducible apply modPass_only
    | with_reducible exact hF.of (by decide)
    | split

theorem execDrainStart_only {F : Nat} {s₀ : State} {t : Fin 64} {e : Fin 4} {s : State}
    (hs : Only F s₀ s) (hF : Within 58720256 F) :
    OnlyN F s₀ (execDrainStart t e s) := by
  unfold execDrainStart
  repeat' first
    | with_reducible assumption
    | (intro _ _ _ _; try dsimp -zeta only)
    | (intro _ _ _; try dsimp -zeta only)
    | (intro _ _; try dsimp -zeta only)
    | (intro _; try dsimp -zeta only)
    | (extract_lets +onlyGivenNames y; refine cut (p := Only F s₀ y) ?_ (fun _ => ?_); rotate_left; clear_value y; rotate_right; subst y)
    | (extract_lets +onlyGivenNames y; try clear_value y)
    | with_reducible apply drainedPass_only
    | with_reducible apply State.setBank_only
    | with_reducible apply State.setDrain_only
    | with_reducible apply admitReady_only
    | with_reducible exact hF.of (by decide)
    | with_reducible apply Only.ite
    | with_reducible apply OnlyN.ite
    | split
    | with_reducible apply OnlyN.next

theorem storeLeading_only {F : Nat} {s₀ : State} {s : State} {t : Nat} {d : Desc} {xs : List Nat} {who : MirrorOwner}
    (hs : Only F s₀ s) (hF : Within 137711453256 F) :
    OnlyP F s₀ (storeLeading s t d xs who) := by
  unfold storeLeading
  repeat' first
    | with_reducible assumption
    | (intro _ _ _ _; try dsimp -zeta only)
    | (intro _ _ _; try dsimp -zeta only)
    | (intro _ _; try dsimp -zeta only)
    | (intro _; try dsimp -zeta only)
    | (extract_lets +onlyGivenNames y; refine cut (p := Only F s₀ y) ?_ (fun _ => ?_); rotate_left; clear_value y; rotate_right; subst y)
    | (extract_lets +onlyGivenNames y; refine cut (p := OnlyP F s₀ y) ?_ (fun _ => ?_); rotate_left; clear_value y; rotate_right; subst y)
    | (extract_lets +onlyGivenNames y; try clear_value y)
    | with_reducible apply storeLines_only
    | with_reducible exact hF.of (by decide)
    | with_reducible apply Only.ite
    | with_reducible apply OnlyP.ite
    | split
    | with_reducible apply OnlyP.mk'
    | with_reducible refine OnlyP.of_eq (by assumption) ?_
    | with_reducible apply OnlyP.snd
    | with_reducible exact OnlyP.elim (by assumption)

theorem drainWrites_only {F : Nat} {s₀ : State} {s : State} {t : Nat} {p : Pass} {rows : List (Nat × List Nat)}
    (hs : Only F s₀ s) (hF : Within 137711453256 F) :
    OnlyT F s₀ (drainWrites s t p rows) := by
  unfold drainWrites
  repeat' first
    | with_reducible assumption
    | (intro _ _ _ _; try dsimp -zeta only)
    | (intro _ _ _; try dsimp -zeta only)
    | (intro _ _; try dsimp -zeta only)
    | (intro _; try dsimp -zeta only)
    | (extract_lets +onlyGivenNames y; refine cut (p := Only F s₀ y) ?_ (fun _ => ?_); rotate_left; clear_value y; rotate_right; subst y)
    | (extract_lets +onlyGivenNames y; refine cut (p := OnlyP F s₀ y) ?_ (fun _ => ?_); rotate_left; clear_value y; rotate_right; subst y)
    | (extract_lets +onlyGivenNames y; refine cut (p := OnlyT F s₀ y) ?_ (fun _ => ?_); rotate_left; clear_value y; rotate_right; subst y)
    | (extract_lets +onlyGivenNames y; try clear_value y)
    | with_reducible apply storeLeading_only
    | with_reducible apply retainRows_only
    | with_reducible exact hF.of (by decide)
    | with_reducible apply Only.foldl
    | with_reducible apply OnlyP.foldl
    | with_reducible apply Only.ite
    | with_reducible apply OnlyP.ite
    | split
    | with_reducible apply OnlyP.mk'
    | with_reducible apply OnlyT.mk'
    | with_reducible refine OnlyP.of_eq (by assumption) ?_
    | with_reducible apply OnlyP.snd
    | with_reducible exact OnlyP.elim (by assumption)
    | with_reducible refine OnlyT.of_eq (by assumption) ?_
    | with_reducible apply OnlyT.snd

theorem execDrainLastRead_only {F : Nat} {s₀ : State} {t : Fin 64} {e : Fin 4} {s : State}
    (hs : Only F s₀ s) (hF : Within 173811860584 F) :
    OnlyN F s₀ (execDrainLastRead t e s) := by
  unfold execDrainLastRead
  repeat' first
    | with_reducible assumption
    | (intro _ _ _ _; try dsimp -zeta only)
    | (intro _ _ _; try dsimp -zeta only)
    | (intro _ _; try dsimp -zeta only)
    | (intro _; try dsimp -zeta only)
    | (extract_lets +onlyGivenNames y; refine cut (p := Only F s₀ y) ?_ (fun _ => ?_); rotate_left; clear_value y; rotate_right; subst y)
    | (extract_lets +onlyGivenNames y; refine cut (p := OnlyP F s₀ y) ?_ (fun _ => ?_); rotate_left; clear_value y; rotate_right; subst y)
    | (extract_lets +onlyGivenNames y; refine cut (p := OnlyT F s₀ y) ?_ (fun _ => ?_); rotate_left; clear_value y; rotate_right; subst y)
    | (extract_lets +onlyGivenNames y; try clear_value y)
    | with_reducible apply drainWrites_only
    | with_reducible apply State.setBank_only
    | with_reducible apply State.setDrain_only
    | with_reducible apply admitReady_only
    | with_reducible apply abortCommand_only
    | with_reducible exact hF.of (by decide)
    | with_reducible apply Only.foldl
    | with_reducible apply OnlyP.foldl
    | with_reducible apply Only.ite
    | with_reducible apply OnlyP.ite
    | with_reducible apply OnlyN.ite
    | split
    | with_reducible apply OnlyN.next
    | with_reducible apply OnlyP.mk'
    | with_reducible apply OnlyT.mk'
    | with_reducible refine OnlyP.of_eq (by assumption) ?_
    | with_reducible apply OnlyP.snd
    | with_reducible exact OnlyP.elim (by assumption)
    | with_reducible refine OnlyT.of_eq (by assumption) ?_
    | with_reducible apply OnlyT.snd

theorem execDrainComplete_only {F : Nat} {s₀ : State} {t : Fin 64} {e : Fin 4} {s : State}
    (hs : Only F s₀ s) (hF : Within 41943104 F) :
    OnlyN F s₀ (execDrainComplete t e s) := by
  unfold execDrainComplete
  repeat' first
    | with_reducible assumption
    | (intro _ _ _ _; try dsimp -zeta only)
    | (intro _ _ _; try dsimp -zeta only)
    | (intro _ _; try dsimp -zeta only)
    | (intro _; try dsimp -zeta only)
    | (extract_lets +onlyGivenNames y; refine cut (p := Only F s₀ y) ?_ (fun _ => ?_); rotate_left; clear_value y; rotate_right; subst y)
    | (extract_lets +onlyGivenNames y; try clear_value y)
    | with_reducible apply drainedPass_only
    | with_reducible apply setHealth_only
    | with_reducible apply State.setDrain_only
    | with_reducible exact hF.of (by decide)
    | with_reducible apply Only.ite
    | with_reducible apply OnlyN.ite
    | split
    | with_reducible apply OnlyN.next

end Sys2Proof.Machine
end

