-- ==== Sys2Proof/Laws/OnlyExchanges.lean ====
section
/-! SUPPORT. What each operation of Machine/Exchanges.lean may change. -/

namespace Sys2Proof.Machine

open Sys2Proof

theorem putRunning_only {F : Nat} {s₀ : State} {s : State} {t : Nat} {c : Coll}
    (hs : Only F s₀ s) (hF : Within 536870912 F) :
    Only F s₀ (putRunning s t c) := by
  unfold putRunning
  repeat' first
    | with_reducible assumption
    | (intro _ _ _ _; try dsimp -zeta only)
    | (intro _ _ _; try dsimp -zeta only)
    | (intro _ _; try dsimp -zeta only)
    | (intro _; try dsimp -zeta only)
    | with_reducible apply State.setColl_only
    | with_reducible exact hF.of (by decide)

end Sys2Proof.Machine
end

