-- ==== Sys2Proof/Laws/OnlyCollDirect.lean ====
section
/-! SUPPORT. What each operation of Sys2Proof/Machine/CollDirect.lean may change. -/

namespace Sys2Proof.Machine

open Sys2Proof

theorem sourceCodes_only {F : Nat} {s₀ : State} {s : State} {t : Nat} {c : Coll} {first : Nat} {n : Nat}
    (hs : Only F s₀ s) (hF : Within 3933256 F) :
    OnlyP F s₀ (sourceCodes s t c first n) := by
  unfold sourceCodes
  repeat' first
    | with_reducible assumption
    | (intro _ _ _ _; try dsimp -zeta only)
    | (intro _ _ _; try dsimp -zeta only)
    | (intro _ _; try dsimp -zeta only)
    | (intro _; try dsimp -zeta only)
    | (extract_lets +onlyGivenNames y; refine cut (p := Only F s₀ y) ?_ (fun _ => ?_); rotate_left; clear_value y; rotate_right; subst y)
    | (extract_lets +onlyGivenNames y; refine cut (p := OnlyP F s₀ y) ?_ (fun _ => ?_); rotate_left; clear_value y; rotate_right; subst y)
    | (extract_lets +onlyGivenNames y; try clear_value y)
    | with_reducible apply loadHinted_only
    | with_reducible exact hF.of (by decide)
    | split
    | with_reducible apply OnlyP.mk'
    | with_reducible refine OnlyP.of_eq (by assumption) ?_
    | with_reducible apply OnlyP.snd
    | with_reducible exact OnlyP.elim (by assumption)

theorem directDone_only {F : Nat} {s₀ : State} {s : State} {t : Nat}
    (hs : Only F s₀ s) (hF : Within 1950450792 F) :
    Only F s₀ (directDone s t) := by
  unfold directDone
  repeat' first
    | with_reducible assumption
    | (intro _ _ _ _; try dsimp -zeta only)
    | (intro _ _ _; try dsimp -zeta only)
    | (intro _ _; try dsimp -zeta only)
    | (intro _; try dsimp -zeta only)
    | (extract_lets +onlyGivenNames y; refine cut (p := Only F s₀ y) ?_ (fun _ => ?_); rotate_left; clear_value y; rotate_right; subst y)
    | (extract_lets +onlyGivenNames y; try clear_value y)
    | with_reducible apply finishCommand_only
    | with_reducible exact hF.of (by decide)
    | with_reducible apply Only.ite
    | split

theorem collArrived_only {F : Nat} {s₀ : State} {s : State} {t : Nat} {p : Packet} {ls : List (Nat × Line)}
    (hs : Only F s₀ s) (hF : Within 1950450792 F) :
    Only F s₀ (collArrived s t p ls) := by
  unfold collArrived
  repeat' first
    | with_reducible assumption
    | (intro _ _ _ _; try dsimp -zeta only)
    | (intro _ _ _; try dsimp -zeta only)
    | (intro _ _; try dsimp -zeta only)
    | (intro _; try dsimp -zeta only)
    | (extract_lets +onlyGivenNames y; refine cut (p := Only F s₀ y) ?_ (fun _ => ?_); rotate_left; clear_value y; rotate_right; subst y)
    | (extract_lets +onlyGivenNames y; try clear_value y)
    | with_reducible apply directDone_only
    | with_reducible apply putRunning_only
    | with_reducible exact hF.of (by decide)
    | with_reducible apply Only.foldl
    | split

theorem collAcked_only {F : Nat} {s₀ : State} {s : State} {g : Nat} {idx : Word}
    (hs : Only F s₀ s) (hF : Within 536870912 F) :
    Only F s₀ (collAcked s g idx) := by
  unfold collAcked
  repeat' first
    | with_reducible assumption
    | with_reducible apply putRunning_only
    | with_reducible exact hF.of (by decide)
    | with_reducible apply Only.ite
    | split

theorem sendColl_only {F : Nat} {s₀ : State} {s : State} {t : Nat} {c : Coll} {acc : Bool} {rank : Nat} {ls : List (Nat × Line)}
    (hs : Only F s₀ s) (hF : Within 268436552 F) :
    Only F s₀ (sendColl s t c acc rank ls) := by
  unfold sendColl
  repeat' first
    | with_reducible assumption
    | (intro _ _ _ _; try dsimp -zeta only)
    | (intro _ _ _; try dsimp -zeta only)
    | (intro _ _; try dsimp -zeta only)
    | (intro _; try dsimp -zeta only)
    | (extract_lets +onlyGivenNames y; refine cut (p := Only F s₀ y) ?_ (fun _ => ?_); rotate_left; clear_value y; rotate_right; subst y)
    | (extract_lets +onlyGivenNames y; try clear_value y)
    | with_reducible apply State.count64_only
    | with_reducible apply sendPacket_only
    | with_reducible exact hF.of (by decide)
    | with_reducible apply Only.foldl
    | with_reducible apply Only.ite
    | split

theorem blockCodes_only {F : Nat} {s₀ : State} {s : State} {t : Nat} {c : Coll} {q : Nat}
    (hs : Only F s₀ s) (hF : Within 3933256 F) :
    OnlyP F s₀ (blockCodes s t c q) := by
  unfold blockCodes
  repeat' first
    | with_reducible assumption
    | (intro _ _ _ _; try dsimp -zeta only)
    | (intro _ _ _; try dsimp -zeta only)
    | (intro _ _; try dsimp -zeta only)
    | (intro _; try dsimp -zeta only)
    | (extract_lets +onlyGivenNames y; refine cut (p := Only F s₀ y) ?_ (fun _ => ?_); rotate_left; clear_value y; rotate_right; subst y)
    | (extract_lets +onlyGivenNames y; refine cut (p := OnlyP F s₀ y) ?_ (fun _ => ?_); rotate_left; clear_value y; rotate_right; subst y)
    | (extract_lets +onlyGivenNames y; try clear_value y)
    | with_reducible apply sourceCodes_only
    | with_reducible exact hF.of (by decide)
    | with_reducible apply Only.ite
    | with_reducible apply OnlyP.ite
    | split
    | with_reducible apply OnlyP.mk'
    | with_reducible refine OnlyP.of_eq (by assumption) ?_
    | with_reducible apply OnlyP.snd
    | with_reducible exact OnlyP.elim (by assumption)

theorem sendEntry_only {F : Nat} {s₀ : State} {s : State} {t : Nat} {c : Coll} {q : Nat}
    (hs : Only F s₀ s) (hF : Within 173811860584 F) :
    Only F s₀ (sendEntry s t c q) := by
  unfold sendEntry
  repeat' first
    | with_reducible assumption
    | (intro _ _ _ _; try dsimp -zeta only)
    | (intro _ _ _; try dsimp -zeta only)
    | (intro _ _; try dsimp -zeta only)
    | (intro _; try dsimp -zeta only)
    | (extract_lets +onlyGivenNames y; refine cut (p := Only F s₀ y) ?_ (fun _ => ?_); rotate_left; clear_value y; rotate_right; subst y)
    | (extract_lets +onlyGivenNames y; refine cut (p := OnlyP F s₀ y) ?_ (fun _ => ?_); rotate_left; clear_value y; rotate_right; subst y)
    | (extract_lets +onlyGivenNames y; try clear_value y)
    | with_reducible apply sendColl_only
    | with_reducible apply putRunning_only
    | with_reducible apply storeCodes_only
    | with_reducible apply abortCommand_only
    | with_reducible exact hF.of (by decide)
    | with_reducible apply Only.ite
    | with_reducible apply OnlyP.ite
    | split
    | with_reducible apply OnlyP.mk'
    | with_reducible refine OnlyP.of_eq (by assumption) ?_
    | with_reducible apply OnlyP.snd
    | with_reducible exact OnlyP.elim (by assumption)

theorem blockSent_only {F : Nat} {s₀ : State} {s : State} {t : Nat} {c : Coll} {q : Nat}
    (hs : Only F s₀ s) (hF : Within 173811926120 F) :
    Only F s₀ (blockSent s t c q) := by
  unfold blockSent
  repeat' first
    | with_reducible assumption
    | (intro _ _ _ _; try dsimp -zeta only)
    | (intro _ _ _; try dsimp -zeta only)
    | (intro _ _; try dsimp -zeta only)
    | (intro _; try dsimp -zeta only)
    | (extract_lets +onlyGivenNames y; refine cut (p := Only F s₀ y) ?_ (fun _ => ?_); rotate_left; clear_value y; rotate_right; subst y)
    | (extract_lets +onlyGivenNames y; try clear_value y)
    | with_reducible apply directDone_only
    | with_reducible apply sendEntry_only
    | with_reducible apply putRunning_only
    | with_reducible apply State.count64_only
    | with_reducible exact hF.of (by decide)
    | with_reducible apply Only.ite
    | split

theorem directStep_only {F : Nat} {s₀ : State} {s : State} {t : Nat} {c : Coll}
    (hs : Only F s₀ s) (hF : Within 173811926120 F) :
    Only F s₀ (directStep s t c) := by
  unfold directStep
  repeat' first
    | with_reducible assumption
    | (intro _ _ _ _; try dsimp -zeta only)
    | (intro _ _ _; try dsimp -zeta only)
    | (intro _ _; try dsimp -zeta only)
    | (intro _; try dsimp -zeta only)
    | (extract_lets +onlyGivenNames y; refine cut (p := Only F s₀ y) ?_ (fun _ => ?_); rotate_left; clear_value y; rotate_right; subst y)
    | (extract_lets +onlyGivenNames y; refine cut (p := OnlyP F s₀ y) ?_ (fun _ => ?_); rotate_left; clear_value y; rotate_right; subst y)
    | (extract_lets +onlyGivenNames y; try clear_value y)
    | with_reducible apply sendColl_only
    | with_reducible apply blockCodes_only
    | with_reducible apply blockSent_only
    | with_reducible apply putRunning_only
    | with_reducible apply storeCodes_only
    | with_reducible apply abortCommand_only
    | with_reducible exact hF.of (by decide)
    | with_reducible apply Only.ite
    | with_reducible apply OnlyP.ite
    | split
    | with_reducible apply OnlyP.mk'
    | with_reducible refine OnlyP.of_eq (by assumption) ?_
    | with_reducible apply OnlyP.snd
    | with_reducible exact OnlyP.elim (by assumption)

end Sys2Proof.Machine
end

