-- ==== Sys2Proof/Laws/OnlyHostLines.lean ====
section
/-! SUPPORT. What each operation of Sys2Proof/Machine/HostLines.lean may change. -/

namespace Sys2Proof.Machine

open Sys2Proof

theorem pageEffect_only {F : Nat} {s₀ : State} {s : State} {page : Nat} {v : Word}
    (hs : Only F s₀ s) (hF : Within 1934408 F) :
    Only F s₀ (pageEffect s page v) := by
  unfold pageEffect
  repeat' first
    | with_reducible assumption
    | (extract_lets +onlyGivenNames y; refine cut (p := Only F s₀ y) ?_ (fun _ => ?_); rotate_left; clear_value y; rotate_right; subst y)
    | (extract_lets +onlyGivenNames y; try clear_value y)
    | with_reducible apply ringDoorbell_only
    | with_reducible apply tallyWrite_only
    | with_reducible apply tallyAdd_only
    | with_reducible exact hF.of (by decide)
    | with_reducible apply Only.ite
    | split

theorem hostSettle_only {F : Nat} {s₀ : State} {s : State} {f : Fn}
    (hs : Only F s₀ s) (hF : Within 8591869000 F) :
    Only F s₀ (hostSettle s f) := by
  unfold hostSettle
  repeat' first
    | with_reducible assumption
    | (intro _ _ _ _; try dsimp -zeta only)
    | (intro _ _ _; try dsimp -zeta only)
    | (intro _ _; try dsimp -zeta only)
    | (intro _; try dsimp -zeta only)
    | (extract_lets +onlyGivenNames y; refine cut (p := Only F s₀ y) ?_ (fun _ => ?_); rotate_left; clear_value y; rotate_right; subst y)
    | (extract_lets +onlyGivenNames y; try clear_value y)
    | with_reducible apply pageEffect_only
    | with_reducible apply State.setHost_only
    | with_reducible exact hF.of (by decide)
    | with_reducible apply Only.foldl

theorem hostLineDone_only {F : Nat} {s₀ : State} {s : State} {f : Fn} {n : Nat}
    (hs : Only F s₀ s) (hF : Within 8591869000 F) :
    Only F s₀ (hostLineDone s f n) := by
  unfold hostLineDone
  repeat' first
    | with_reducible assumption
    | (intro _ _ _ _; try dsimp -zeta only)
    | (intro _ _ _; try dsimp -zeta only)
    | (intro _ _; try dsimp -zeta only)
    | (intro _; try dsimp -zeta only)
    | (extract_lets +onlyGivenNames y; refine cut (p := Only F s₀ y) ?_ (fun _ => ?_); rotate_left; clear_value y; rotate_right; subst y)
    | (extract_lets +onlyGivenNames y; try clear_value y)
    | with_reducible apply hostSettle_only
    | with_reducible apply State.setHost_only
    | with_reducible exact hF.of (by decide)

theorem hostReadLines_only {F : Nat} {s₀ : State} {s : State} {f : Fn} {id : Nat} {place : Nat} {ls : List Line} {poison : Bool}
    (hs : Only F s₀ s) (hF : Within 8589934688 F) :
    Only F s₀ (hostReadLines s f id place ls poison) := by
  unfold hostReadLines
  repeat' first
    | with_reducible assumption
    | (intro _ _ _ _; try dsimp -zeta only)
    | (intro _ _ _; try dsimp -zeta only)
    | (intro _ _; try dsimp -zeta only)
    | (intro _; try dsimp -zeta only)
    | (extract_lets +onlyGivenNames y; refine cut (p := Only F s₀ y) ?_ (fun _ => ?_); rotate_left; clear_value y; rotate_right; subst y)
    | (extract_lets +onlyGivenNames y; try clear_value y)
    | with_reducible apply State.count64_only
    | with_reducible apply State.emit_only
    | with_reducible apply State.setHost_only
    | with_reducible exact hF.of (by decide)
    | with_reducible apply Only.foldl
    | with_reducible apply OnlyP.foldl
    | with_reducible apply OnlyF.foldl
    | with_reducible apply Only.ite
    | with_reducible apply OnlyP.ite
    | with_reducible apply OnlyF.ite
    | split
    | with_reducible apply OnlyP.mk'
    | with_reducible apply OnlyF.mk'
    | with_reducible refine OnlyP.of_eq (by assumption) ?_
    | with_reducible apply OnlyP.snd
    | with_reducible exact OnlyP.elim (by assumption)
    | with_reducible refine OnlyF.of_eq (by assumption) ?_
    | with_reducible apply OnlyF.fst
    | with_reducible exact OnlyF.elim (by assumption)

theorem hostReadFailed_only {F : Nat} {s₀ : State} {s : State} {f : Fn} {id : Nat} {reason : Nat}
    (hs : Only F s₀ s) (hF : Within 8589935720 F) :
    Only F s₀ (hostReadFailed s f id reason) := by
  unfold hostReadFailed
  repeat' first
    | with_reducible assumption
    | (intro _ _ _ _; try dsimp -zeta only)
    | (intro _ _ _; try dsimp -zeta only)
    | (intro _ _; try dsimp -zeta only)
    | (intro _; try dsimp -zeta only)
    | (extract_lets +onlyGivenNames y; refine cut (p := Only F s₀ y) ?_ (fun _ => ?_); rotate_left; clear_value y; rotate_right; subst y)
    | (extract_lets +onlyGivenNames y; try clear_value y)
    | with_reducible apply State.setHost_only
    | with_reducible apply State.count32_only
    | with_reducible apply State.emit_only
    | with_reducible apply post_only
    | with_reducible exact hF.of (by decide)
    | split

end Sys2Proof.Machine
end

