-- ==== Sys2Proof/Laws/OnlyLinks.lean ====
section
/-! SUPPORT. What each operation of Sys2Proof/Machine/Links.lean may change. -/

namespace Sys2Proof.Machine

open Sys2Proof

theorem setStamp_only {F : Nat} {s₀ : State} {s : State} {l : ModLink} {t : Nat}
    (hs : Only F s₀ s) (hF : Within 6442450944 F) :
    Only F s₀ (setStamp s l t) := by
  unfold setStamp
  repeat' first
    | with_reducible assumption
    | (intro _ _ _ _; try dsimp -zeta only)
    | (intro _ _ _; try dsimp -zeta only)
    | (intro _ _; try dsimp -zeta only)
    | (intro _; try dsimp -zeta only)
    | (extract_lets +onlyGivenNames y; refine cut (p := Only F s₀ y) ?_ (fun _ => ?_); rotate_left; clear_value y; rotate_right; subst y)
    | (extract_lets +onlyGivenNames y; try clear_value y)
    | with_reducible apply State.setPort_only
    | with_reducible apply State.setCopper_only
    | with_reducible exact hF.of (by decide)
    | split

theorem launchFrame_only {F : Nat} {s₀ : State} {s : State} {l : ModLink} {f : Option SentFrame} {replay : Bool}
    (hs : Only F s₀ s) (hF : Within 268435488 F) :
    Only F s₀ (launchFrame s l f replay) := by
  unfold launchFrame
  repeat' first
    | with_reducible assumption
    | (intro _ _ _ _; try dsimp -zeta only)
    | (intro _ _ _; try dsimp -zeta only)
    | (intro _ _; try dsimp -zeta only)
    | (intro _; try dsimp -zeta only)
    | (extract_lets +onlyGivenNames y; refine cut (p := Only F s₀ y) ?_ (fun _ => ?_); rotate_left; clear_value y; rotate_right; subst y)
    | (extract_lets +onlyGivenNames y; try clear_value y)
    | with_reducible apply State.emit_only
    | with_reducible apply State.setLink_only
    | with_reducible exact hF.of (by decide)
    | split

theorem launchNext_only {F : Nat} {s₀ : State} {s : State} {l : ModLink}
    (hs : Only F s₀ s) (hF : Within 268435488 F) :
    Only F s₀ (launchNext s l) := by
  unfold launchNext
  repeat' first
    | with_reducible assumption
    | (intro _ _ _ _; try dsimp -zeta only)
    | (intro _ _ _; try dsimp -zeta only)
    | (intro _ _; try dsimp -zeta only)
    | (intro _; try dsimp -zeta only)
    | (extract_lets +onlyGivenNames y; refine cut (p := Only F s₀ y) ?_ (fun _ => ?_); rotate_left; clear_value y; rotate_right; subst y)
    | (extract_lets +onlyGivenNames y; try clear_value y)
    | with_reducible apply launchFrame_only
    | with_reducible apply State.setLink_only
    | with_reducible exact hF.of (by decide)
    | with_reducible apply Only.ite
    | split

theorem transmit_only {F : Nat} {s₀ : State} {s : State} {l : ModLink}
    (hs : Only F s₀ s) (hF : Within 268435488 F) :
    Only F s₀ (transmit s l) := by
  unfold transmit
  repeat' first
    | with_reducible assumption
    | (intro _ _ _ _; try dsimp -zeta only)
    | (intro _ _ _; try dsimp -zeta only)
    | (intro _ _; try dsimp -zeta only)
    | (intro _; try dsimp -zeta only)
    | (extract_lets +onlyGivenNames y; refine cut (p := Only F s₀ y) ?_ (fun _ => ?_); rotate_left; clear_value y; rotate_right; subst y)
    | (extract_lets +onlyGivenNames y; try clear_value y)
    | with_reducible apply launchFrame_only
    | with_reducible apply launchNext_only
    | with_reducible exact hF.of (by decide)
    | with_reducible apply Only.foldl
    | with_reducible apply Only.ite
    | split

theorem giveLink_only {F : Nat} {s₀ : State} {s : State} {l : ModLink} {dir : Option Nat} {c : Transit}
    (hs : Only F s₀ s) (hF : Within 268435488 F) :
    Only F s₀ (giveLink s l dir c) := by
  unfold giveLink
  repeat' first
    | with_reducible assumption
    | (intro _ _ _ _; try dsimp -zeta only)
    | (intro _ _ _; try dsimp -zeta only)
    | (intro _ _; try dsimp -zeta only)
    | (intro _; try dsimp -zeta only)
    | (extract_lets +onlyGivenNames y; refine cut (p := Only F s₀ y) ?_ (fun _ => ?_); rotate_left; clear_value y; rotate_right; subst y)
    | (extract_lets +onlyGivenNames y; try clear_value y)
    | with_reducible apply transmit_only
    | with_reducible apply State.setLink_only
    | with_reducible exact hF.of (by decide)
    | with_reducible apply Only.ite
    | split

theorem replayFrames_only {F : Nat} {s₀ : State} {s : State} {l : ModLink}
    (hs : Only F s₀ s) (hF : Within 268435488 F) :
    Only F s₀ (replayFrames s l) := by
  unfold replayFrames
  repeat' first
    | with_reducible assumption
    | (intro _ _ _ _; try dsimp -zeta only)
    | (intro _ _ _; try dsimp -zeta only)
    | (intro _ _; try dsimp -zeta only)
    | (intro _; try dsimp -zeta only)
    | with_reducible apply launchFrame_only
    | with_reducible exact hF.of (by decide)
    | with_reducible apply Only.foldl
    | with_reducible apply Only.ite
    | split

theorem reroute_only {F : Nat} {s₀ : State} {s : State}
    (hs : Only F s₀ s) (hF : Within 268435456 F) :
    Only F s₀ (reroute s) := by
  unfold reroute
  repeat' first
    | with_reducible assumption
    | (intro _ _ _ _; try dsimp -zeta only)
    | (intro _ _ _; try dsimp -zeta only)
    | (intro _ _; try dsimp -zeta only)
    | (intro _; try dsimp -zeta only)
    | (extract_lets +onlyGivenNames y; refine cut (p := Only F s₀ y) ?_ (fun _ => ?_); rotate_left; clear_value y; rotate_right; subst y)
    | (extract_lets +onlyGivenNames y; try clear_value y)
    | with_reducible exact hF.of (by decide)
    | with_reducible apply Only.fabric

theorem dropCopy_only {F : Nat} {s₀ : State} {s : State} {c : Copy}
    (hs : Only F s₀ s) (hF : Within 268435520 F) :
    Only F s₀ (dropCopy s c) := by
  unfold dropCopy
  repeat' first
    | with_reducible assumption
    | (intro _ _ _ _; try dsimp -zeta only)
    | (intro _ _ _; try dsimp -zeta only)
    | (intro _ _; try dsimp -zeta only)
    | (intro _; try dsimp -zeta only)
    | with_reducible apply State.count32_only
    | with_reducible apply takeCopy_only
    | with_reducible apply dropPacket_only
    | with_reducible exact hF.of (by decide)

theorem dropWhere_only {F : Nat} {s₀ : State} {s : State} {f : Copy → Bool}
    (hs : Only F s₀ s) (hF : Within 268435520 F) :
    Only F s₀ (dropWhere s f) := by
  unfold dropWhere
  repeat' first
    | with_reducible assumption
    | (intro _ _ _ _; try dsimp -zeta only)
    | (intro _ _ _; try dsimp -zeta only)
    | (intro _ _; try dsimp -zeta only)
    | (intro _; try dsimp -zeta only)
    | with_reducible apply dropCopy_only
    | with_reducible exact hF.of (by decide)
    | with_reducible apply Only.foldl

theorem checkDirection_only {F : Nat} {s₀ : State} {s : State} {dir : Nat}
    (hs : Only F s₀ s) (hF : Within 268436552 F) :
    Only F s₀ (checkDirection s dir) := by
  unfold checkDirection
  repeat' first
    | with_reducible assumption
    | (intro _ _ _ _; try dsimp -zeta only)
    | (intro _ _ _; try dsimp -zeta only)
    | (intro _ _; try dsimp -zeta only)
    | (intro _; try dsimp -zeta only)
    | (extract_lets +onlyGivenNames y; refine cut (p := Only F s₀ y) ?_ (fun _ => ?_); rotate_left; clear_value y; rotate_right; subst y)
    | (extract_lets +onlyGivenNames y; try clear_value y)
    | with_reducible apply post_only
    | with_reducible apply reroute_only
    | with_reducible apply dropWhere_only
    | with_reducible exact hF.of (by decide)
    | with_reducible apply Only.ite
    | split

theorem checkDirs_only {F : Nat} {s₀ : State} {s : State} {before : List Nat}
    (hs : Only F s₀ s) (hF : Within 268436552 F) :
    Only F s₀ (checkDirs s before) := by
  unfold checkDirs
  repeat' first
    | with_reducible assumption
    | (intro _ _ _ _; try dsimp -zeta only)
    | (intro _ _ _; try dsimp -zeta only)
    | (intro _ _; try dsimp -zeta only)
    | (intro _; try dsimp -zeta only)
    | with_reducible apply reroute_only
    | with_reducible apply checkDirection_only
    | with_reducible exact hF.of (by decide)
    | with_reducible apply Only.foldl

theorem removeLink_only {F : Nat} {s₀ : State} {s : State} {l : ModLink} {x : LinkState}
    (hs : Only F s₀ s) (hF : Within 268436552 F) :
    Only F s₀ (removeLink s l x) := by
  unfold removeLink
  repeat' first
    | with_reducible assumption
    | (intro _ _ _ _; try dsimp -zeta only)
    | (intro _ _ _; try dsimp -zeta only)
    | (intro _ _; try dsimp -zeta only)
    | (intro _; try dsimp -zeta only)
    | (extract_lets +onlyGivenNames y; refine cut (p := Only F s₀ y) ?_ (fun _ => ?_); rotate_left; clear_value y; rotate_right; subst y)
    | (extract_lets +onlyGivenNames y; try clear_value y)
    | with_reducible apply checkDirs_only
    | with_reducible apply State.setLink_only
    | with_reducible exact hF.of (by decide)

theorem buddyLost_only {F : Nat} {s₀ : State} {s : State}
    (hs : Only F s₀ s) (hF : Within 137438954504 F) :
    Only F s₀ (buddyLost s) := by
  unfold buddyLost
  repeat' first
    | with_reducible assumption
    | (intro _ _ _ _; try dsimp -zeta only)
    | (intro _ _ _; try dsimp -zeta only)
    | (intro _ _; try dsimp -zeta only)
    | (intro _; try dsimp -zeta only)
    | (extract_lets +onlyGivenNames y; refine cut (p := Only F s₀ y) ?_ (fun _ => ?_); rotate_left; clear_value y; rotate_right; subst y)
    | (extract_lets +onlyGivenNames y; try clear_value y)
    | with_reducible apply mirrorInvalid_only
    | with_reducible exact hF.of (by decide)
    | with_reducible apply Only.each
    | with_reducible apply Only.ite
    | split

theorem dropTransit_only {F : Nat} {s₀ : State} {entry : Nat} {s : State} {c : Transit}
    (hs : Only F s₀ s) (hF : Within 268435520 F) :
    Only F s₀ (dropTransit entry s c) := by
  unfold dropTransit
  repeat' first
    | with_reducible assumption
    | (intro _ _ _ _; try dsimp -zeta only)
    | (intro _ _ _; try dsimp -zeta only)
    | (intro _ _; try dsimp -zeta only)
    | (intro _; try dsimp -zeta only)
    | with_reducible apply State.count32_only
    | with_reducible apply dropPacket_only
    | with_reducible exact hF.of (by decide)

theorem linkDown_only {F : Nat} {s₀ : State} {s : State} {l : ModLink}
    (hs : Only F s₀ s) (hF : Within 142002357320 F) :
    Only F s₀ (linkDown s l) := by
  unfold linkDown
  repeat' first
    | with_reducible assumption
    | (intro _ _ _ _; try dsimp -zeta only)
    | (intro _ _ _; try dsimp -zeta only)
    | (intro _ _; try dsimp -zeta only)
    | (intro _; try dsimp -zeta only)
    | (extract_lets +onlyGivenNames y; refine cut (p := Only F s₀ y) ?_ (fun _ => ?_); rotate_left; clear_value y; rotate_right; subst y)
    | (extract_lets +onlyGivenNames y; try clear_value y)
    | with_reducible apply post_only
    | with_reducible apply removeLink_only
    | with_reducible apply buddyLost_only
    | with_reducible apply dropTransit_only
    | with_reducible apply State.count32_only
    | with_reducible apply State.setCopper_only
    | with_reducible apply unhold_only
    | with_reducible exact hF.of (by decide)
    | with_reducible apply Only.foldl
    | with_reducible apply Only.ite
    | split

end Sys2Proof.Machine
end

