-- ==== Sys2Proof/Laws/OnlyMoves.lean ====
section
/-! SUPPORT. What each operation of Sys2Proof/Machine/Moves.lean may change. -/

namespace Sys2Proof.Machine

open Sys2Proof

theorem askLines_only {F : Nat} {s₀ : State} {s : State} {t : Nat} {g : Nat} {idx : Word} {vc : Nat} {m : Nat} {d : Desc} {first : Nat} {offs : List Nat}
    (hs : Only F s₀ s) (hF : Within 268436552 F) :
    Only F s₀ (askLines s t g idx vc m d first offs) := by
  unfold askLines
  repeat' first
    | with_reducible assumption
    | (intro _ _ _ _; try dsimp -zeta only)
    | (intro _ _ _; try dsimp -zeta only)
    | (intro _ _; try dsimp -zeta only)
    | (intro _; try dsimp -zeta only)
    | with_reducible apply sendPacket_only
    | with_reducible exact hF.of (by decide)
    | with_reducible apply Only.foldl
    | with_reducible apply OnlyP.foldl
    | with_reducible apply OnlyF.foldl
    | with_reducible apply OnlyP.mk'
    | with_reducible apply OnlyF.mk'
    | with_reducible refine OnlyP.of_eq (by assumption) ?_
    | with_reducible apply OnlyP.snd
    | with_reducible exact OnlyP.elim (by assumption)
    | with_reducible refine OnlyF.of_eq (by assumption) ?_
    | with_reducible apply OnlyF.fst
    | with_reducible exact OnlyF.elim (by assumption)

theorem sendLines_only {F : Nat} {s₀ : State} {s : State} {t : Nat} {g : Nat} {idx : Word} {vc : Nat} {m : Nat} {d : Desc} {ls : List (Nat × Line)}
    (hs : Only F s₀ s) (hF : Within 268436552 F) :
    Only F s₀ (sendLines s t g idx vc m d ls) := by
  unfold sendLines
  repeat' first
    | with_reducible assumption
    | (intro _ _ _ _; try dsimp -zeta only)
    | (intro _ _ _; try dsimp -zeta only)
    | (intro _ _; try dsimp -zeta only)
    | (intro _; try dsimp -zeta only)
    | (extract_lets +onlyGivenNames y; refine cut (p := Only F s₀ y) ?_ (fun _ => ?_); rotate_left; clear_value y; rotate_right; subst y)
    | (extract_lets +onlyGivenNames y; try clear_value y)
    | with_reducible apply State.count64_only
    | with_reducible apply sendPacket_only
    | with_reducible exact hF.of (by decide)
    | with_reducible apply Only.foldl
    | with_reducible apply OnlyP.foldl
    | with_reducible apply OnlyF.foldl
    | with_reducible apply Only.ite
    | with_reducible apply OnlyP.ite
    | with_reducible apply OnlyF.ite
    | split
    | with_reducible apply OnlyP.mk'
    | with_reducible apply OnlyF.mk'
    | with_reducible refine OnlyP.of_eq (by assumption) ?_
    | with_reducible apply OnlyP.snd
    | with_reducible exact OnlyP.elim (by assumption)
    | with_reducible refine OnlyF.of_eq (by assumption) ?_
    | with_reducible apply OnlyF.fst
    | with_reducible exact OnlyF.elim (by assumption)

theorem issueMove_only {F : Nat} {s₀ : State} {c : Cmd} {s : State}
    (hs : Only F s₀ s) (hF : Within 67896392 F) :
    OnlyI F s₀ (issueMove c s) := by
  unfold issueMove
  repeat' first
    | with_reducible assumption
    | (extract_lets +onlyGivenNames y; refine cut (p := Only F s₀ y) ?_ (fun _ => ?_); rotate_left; clear_value y; rotate_right; subst y)
    | (extract_lets +onlyGivenNames y; refine cut (p := OnlyP F s₀ y) ?_ (fun _ => ?_); rotate_left; clear_value y; rotate_right; subst y)
    | (extract_lets +onlyGivenNames y; refine cut (p := OnlyI F s₀ y) ?_ (fun _ => ?_); rotate_left; clear_value y; rotate_right; subst y)
    | (extract_lets +onlyGivenNames y; try clear_value y)
    | with_reducible apply readDesc_only
    | with_reducible apply State.setMover_only
    | with_reducible exact hF.of (by decide)
    | with_reducible apply Only.ite
    | with_reducible apply OnlyP.ite
    | with_reducible apply OnlyI.ite
    | split
    | with_reducible apply OnlyP.mk'
    | with_reducible apply OnlyI.wait
    | with_reducible apply OnlyI.ofFail
    | with_reducible apply OnlyI.ofRun
    | with_reducible apply OnlyI.ofReady
    | with_reducible apply OnlyI.ofDone
    | with_reducible apply OnlyI.ofBroke
    | with_reducible refine OnlyP.of_eq (by assumption) ?_
    | with_reducible apply OnlyP.snd
    | with_reducible exact OnlyP.elim (by assumption)
    | with_reducible exact OnlyI.fail_eq rfl (by assumption)
    | with_reducible exact OnlyI.run_eq rfl (by assumption)
    | with_reducible exact OnlyI.ready_eq rfl (by assumption)
    | with_reducible exact OnlyI.done_eq rfl (by assumption)
    | with_reducible exact OnlyI.broke_eq rfl (by assumption)
    | with_reducible refine OnlyI.fail_eq (by assumption) ?_
    | with_reducible refine OnlyI.run_eq (by assumption) ?_
    | with_reducible refine OnlyI.ready_eq (by assumption) ?_
    | with_reducible refine OnlyI.done_eq (by assumption) ?_
    | with_reducible refine OnlyI.broke_eq (by assumption) ?_

theorem execMove_only {F : Nat} {s₀ : State} {g : Fin 16384} {s : State}
    (hs : Only F s₀ s) (hF : Within 36370744424 F) :
    OnlyN F s₀ (execMove g s) := by
  unfold execMove
  repeat' first
    | with_reducible assumption
    | (intro _ _ _ _; try dsimp -zeta only)
    | (intro _ _ _; try dsimp -zeta only)
    | (intro _ _; try dsimp -zeta only)
    | (intro _; try dsimp -zeta only)
    | with_reducible apply issue_only
    | with_reducible apply issueMove_only
    | with_reducible exact hF.of (by decide)
    | with_reducible apply OnlyN.next
    | with_reducible apply OnlyI.wait
    | with_reducible apply OnlyI.ofFail
    | with_reducible apply OnlyI.ofRun
    | with_reducible apply OnlyI.ofReady
    | with_reducible apply OnlyI.ofDone
    | with_reducible apply OnlyI.ofBroke
    | with_reducible exact OnlyI.fail_eq rfl (by assumption)
    | with_reducible exact OnlyI.run_eq rfl (by assumption)
    | with_reducible exact OnlyI.ready_eq rfl (by assumption)
    | with_reducible exact OnlyI.done_eq rfl (by assumption)
    | with_reducible exact OnlyI.broke_eq rfl (by assumption)
    | with_reducible refine OnlyI.fail_eq (by assumption) ?_
    | with_reducible refine OnlyI.run_eq (by assumption) ?_
    | with_reducible refine OnlyI.ready_eq (by assumption) ?_
    | with_reducible refine OnlyI.done_eq (by assumption) ?_
    | with_reducible refine OnlyI.broke_eq (by assumption) ?_

theorem execTranspose_only {F : Nat} {s₀ : State} {g : Fin 16384} {s : State}
    (hs : Only F s₀ s) (hF : Within 36370744424 F) :
    OnlyN F s₀ (execTranspose g s) := by
  unfold execTranspose
  repeat' first
    | with_reducible assumption
    | (intro _ _ _ _; try dsimp -zeta only)
    | (intro _ _ _; try dsimp -zeta only)
    | (intro _ _; try dsimp -zeta only)
    | (intro _; try dsimp -zeta only)
    | with_reducible apply issue_only
    | with_reducible apply issueMove_only
    | with_reducible exact hF.of (by decide)
    | with_reducible apply OnlyN.next
    | with_reducible apply OnlyI.wait
    | with_reducible apply OnlyI.ofFail
    | with_reducible apply OnlyI.ofRun
    | with_reducible apply OnlyI.ofReady
    | with_reducible apply OnlyI.ofDone
    | with_reducible apply OnlyI.ofBroke
    | with_reducible exact OnlyI.fail_eq rfl (by assumption)
    | with_reducible exact OnlyI.run_eq rfl (by assumption)
    | with_reducible exact OnlyI.ready_eq rfl (by assumption)
    | with_reducible exact OnlyI.done_eq rfl (by assumption)
    | with_reducible exact OnlyI.broke_eq rfl (by assumption)
    | with_reducible refine OnlyI.fail_eq (by assumption) ?_
    | with_reducible refine OnlyI.run_eq (by assumption) ?_
    | with_reducible refine OnlyI.ready_eq (by assumption) ?_
    | with_reducible refine OnlyI.done_eq (by assumption) ?_
    | with_reducible refine OnlyI.broke_eq (by assumption) ?_

theorem chunkLines_only {F : Nat} {s₀ : State} {s : State} {t : Nat} {j : MoveJob} {p : ChunkPlan}
    (hs : Only F s₀ s) (hF : Within 3933256 F) :
    OnlyOP F s₀ (chunkLines s t j p) := by
  unfold chunkLines
  repeat' first
    | with_reducible assumption
    | (intro _ _ _ _; try dsimp -zeta only)
    | (intro _ _ _; try dsimp -zeta only)
    | (intro _ _; try dsimp -zeta only)
    | (intro _; try dsimp -zeta only)
    | (extract_lets +onlyGivenNames y; refine cut (p := Only F s₀ y) ?_ (fun _ => ?_); rotate_left; clear_value y; rotate_right; subst y)
    | (extract_lets +onlyGivenNames y; refine cut (p := OnlyP F s₀ y) ?_ (fun _ => ?_); rotate_left; clear_value y; rotate_right; subst y)
    | (extract_lets +onlyGivenNames y; try clear_value y)
    | with_reducible apply readLines_only
    | with_reducible exact hF.of (by decide)
    | with_reducible apply OnlyP.ite
    | split
    | with_reducible apply OnlyP.mk'
    | with_reducible apply OnlyOP.some
    | with_reducible apply OnlyOP.none
    | with_reducible refine OnlyP.of_eq (by assumption) ?_
    | with_reducible apply OnlyP.snd
    | with_reducible exact OnlyP.elim (by assumption)
    | with_reducible refine OnlyOP.of_eq (by assumption) ?_

theorem askChunk_only {F : Nat} {s₀ : State} {s : State} {t : Nat} {m : Nat} {j : MoveJob} {p : ChunkPlan}
    (hs : Only F s₀ s) (hF : Within 335545416 F) :
    Only F s₀ (askChunk s t m j p) := by
  unfold askChunk
  repeat' first
    | with_reducible assumption
    | (extract_lets +onlyGivenNames y; refine cut (p := Only F s₀ y) ?_ (fun _ => ?_); rotate_left; clear_value y; rotate_right; subst y)
    | (extract_lets +onlyGivenNames y; try clear_value y)
    | with_reducible apply askLines_only
    | with_reducible apply State.setMover_only
    | with_reducible exact hF.of (by decide)
    | with_reducible apply Only.ite
    | split

theorem writeChunk_only {F : Nat} {s₀ : State} {s : State} {t : Nat} {m : Nat} {j : MoveJob} {p : ChunkPlan} {got : List (Option Line)}
    (hs : Only F s₀ s) (hF : Within 173811926120 F) :
    Only F s₀ (writeChunk s t m j p got) := by
  unfold writeChunk
  repeat' first
    | with_reducible assumption
    | (intro _ _ _ _; try dsimp -zeta only)
    | (intro _ _ _; try dsimp -zeta only)
    | (intro _ _; try dsimp -zeta only)
    | (intro _; try dsimp -zeta only)
    | (extract_lets +onlyGivenNames y; refine cut (p := Only F s₀ y) ?_ (fun _ => ?_); rotate_left; clear_value y; rotate_right; subst y)
    | (extract_lets +onlyGivenNames y; refine cut (p := OnlyP F s₀ y) ?_ (fun _ => ?_); rotate_left; clear_value y; rotate_right; subst y)
    | (extract_lets +onlyGivenNames y; try clear_value y)
    | with_reducible apply sendLines_only
    | with_reducible apply storeLines_only
    | with_reducible apply State.count64_only
    | with_reducible apply State.setMover_only
    | with_reducible apply finishCommand_only
    | with_reducible apply abortCommand_only
    | with_reducible exact hF.of (by decide)
    | with_reducible apply Only.ite
    | with_reducible apply OnlyP.ite
    | split
    | with_reducible apply OnlyP.mk'
    | with_reducible refine OnlyP.of_eq (by assumption) ?_
    | with_reducible apply OnlyP.snd
    | with_reducible exact OnlyP.elim (by assumption)

theorem execMoveChunk_only {F : Nat} {s₀ : State} {t : Fin 64} {m : Fin 4} {s : State}
    (hs : Only F s₀ s) (hF : Within 173811926120 F) :
    OnlyN F s₀ (execMoveChunk t m s) := by
  unfold execMoveChunk
  repeat' first
    | with_reducible assumption
    | (intro _ _ _ _; try dsimp -zeta only)
    | (intro _ _ _; try dsimp -zeta only)
    | (intro _ _; try dsimp -zeta only)
    | (intro _; try dsimp -zeta only)
    | (extract_lets +onlyGivenNames y; refine cut (p := Only F s₀ y) ?_ (fun _ => ?_); rotate_left; clear_value y; rotate_right; subst y)
    | (extract_lets +onlyGivenNames y; refine cut (p := OnlyP F s₀ y) ?_ (fun _ => ?_); rotate_left; clear_value y; rotate_right; subst y)
    | (extract_lets +onlyGivenNames y; try clear_value y)
    | with_reducible apply chunkLines_only
    | with_reducible apply askChunk_only
    | with_reducible apply writeChunk_only
    | with_reducible apply abortCommand_only
    | with_reducible exact hF.of (by decide)
    | with_reducible apply Only.ite
    | with_reducible apply OnlyP.ite
    | with_reducible apply OnlyN.ite
    | split
    | with_reducible apply OnlyN.next
    | with_reducible apply OnlyP.mk'
    | with_reducible apply OnlyOP.some
    | with_reducible apply OnlyOP.none
    | with_reducible refine OnlyOP.of_eq (by assumption) ?_
    | with_reducible refine OnlyP.of_eq (by assumption) ?_
    | with_reducible apply OnlyP.snd
    | with_reducible exact OnlyP.elim (by assumption)

theorem execExchangeBlock_only {F : Nat} {s₀ : State} {t : Fin 64} {s : State}
    (hs : Only F s₀ s) (hF : Within 36372776040 F) :
    OnlyN F s₀ (execExchangeBlock t s) := by
  unfold execExchangeBlock
  repeat' first
    | with_reducible assumption
    | (intro _ _ _ _; try dsimp -zeta only)
    | (intro _ _ _; try dsimp -zeta only)
    | (intro _ _; try dsimp -zeta only)
    | (intro _; try dsimp -zeta only)
    | (extract_lets +onlyGivenNames y; refine cut (p := Only F s₀ y) ?_ (fun _ => ?_); rotate_left; clear_value y; rotate_right; subst y)
    | (extract_lets +onlyGivenNames y; refine cut (p := OnlyP F s₀ y) ?_ (fun _ => ?_); rotate_left; clear_value y; rotate_right; subst y)
    | (extract_lets +onlyGivenNames y; try clear_value y)
    | with_reducible apply chunkLines_only
    | with_reducible apply State.count64_only
    | with_reducible apply State.modTile_only
    | with_reducible apply State.setMover_only
    | with_reducible apply abortCommand_only
    | with_reducible exact hF.of (by decide)
    | with_reducible apply Only.foldl
    | with_reducible apply OnlyP.foldl
    | with_reducible apply Only.ite
    | with_reducible apply OnlyP.ite
    | with_reducible apply OnlyN.ite
    | split
    | with_reducible apply OnlyN.next
    | with_reducible apply OnlyP.mk'
    | with_reducible apply OnlyOP.some
    | with_reducible apply OnlyOP.none
    | with_reducible refine OnlyOP.of_eq (by assumption) ?_
    | with_reducible refine OnlyP.of_eq (by assumption) ?_
    | with_reducible apply OnlyP.snd
    | with_reducible exact OnlyP.elim (by assumption)

theorem deliverLines_only {F : Nat} {s₀ : State} {s : State} {g : Nat} {idx : Word} {place : Nat} {ls : List Line} {poison : Bool}
    (hs : Only F s₀ s) (hF : Within 36370678888 F) :
    Only F s₀ (deliverLines s g idx place ls poison) := by
  unfold deliverLines
  repeat' first
    | with_reducible assumption
    | (intro _ _ _ _; try dsimp -zeta only)
    | (intro _ _ _; try dsimp -zeta only)
    | (intro _ _; try dsimp -zeta only)
    | (intro _; try dsimp -zeta only)
    | (extract_lets +onlyGivenNames y; refine cut (p := Only F s₀ y) ?_ (fun _ => ?_); rotate_left; clear_value y; rotate_right; subst y)
    | (extract_lets +onlyGivenNames y; try clear_value y)
    | with_reducible apply State.modQueue_only
    | with_reducible apply State.setMover_only
    | with_reducible apply abortCommand_only
    | with_reducible exact hF.of (by decide)
    | with_reducible apply Only.foldl
    | with_reducible apply Only.ite
    | split

end Sys2Proof.Machine
end

