-- ==== Sys2Proof/Laws/OnlyFabric.lean ====
section
/-! SUPPORT. What each operation of Sys2Proof/Machine/Fabric.lean may change. -/

namespace Sys2Proof.Machine

open Sys2Proof

theorem nextTurn_only {F : Nat} {s₀ : State} {s : State} {l : ModLink} {shared : Bool}
    (hs : Only F s₀ s) (hF : Within 268435456 F) :
    Only F s₀ (nextTurn s l shared) := by
  unfold nextTurn
  repeat' first
    | with_reducible assumption
    | (intro _ _ _ _; try dsimp -zeta only)
    | (intro _ _ _; try dsimp -zeta only)
    | (intro _ _; try dsimp -zeta only)
    | (intro _; try dsimp -zeta only)
    | with_reducible apply State.setLink_only
    | with_reducible exact hF.of (by decide)
    | with_reducible apply Only.ite
    | split

theorem crossMesh_only {F : Nat} {s₀ : State} {s : State} {t : Nat} {port : Nat} {c : Copy}
    (hs : Only F s₀ s) (hF : Within 268436552 F) :
    Only F s₀ (crossMesh s t port c) := by
  unfold crossMesh
  repeat' first
    | with_reducible assumption
    | (intro _ _ _ _; try dsimp -zeta only)
    | (intro _ _ _; try dsimp -zeta only)
    | (intro _ _; try dsimp -zeta only)
    | (intro _; try dsimp -zeta only)
    | (extract_lets +onlyGivenNames y; refine cut (p := Only F s₀ y) ?_ (fun _ => ?_); rotate_left; clear_value y; rotate_right; subst y)
    | (extract_lets +onlyGivenNames y; refine cut (p := OnlyP F s₀ y) ?_ (fun _ => ?_); rotate_left; clear_value y; rotate_right; subst y)
    | (extract_lets +onlyGivenNames y; try clear_value y)
    | with_reducible apply leave_only
    | with_reducible apply served_only
    | with_reducible apply arrive_only
    | with_reducible exact hF.of (by decide)
    | with_reducible apply OnlyP.mk'
    | with_reducible refine OnlyP.of_eq (by assumption) ?_
    | with_reducible apply OnlyP.snd
    | with_reducible exact OnlyP.elim (by assumption)

theorem pullMesh_only {F : Nat} {s₀ : State} {s : State} {t : Nat} {port : Nat}
    (hs : Only F s₀ s) (hF : Within 268436552 F) :
    Only F s₀ (pullMesh s t port) := by
  unfold pullMesh
  repeat' first
    | with_reducible assumption
    | (intro _ _ _ _; try dsimp -zeta only)
    | (intro _ _ _; try dsimp -zeta only)
    | (intro _ _; try dsimp -zeta only)
    | (intro _; try dsimp -zeta only)
    | with_reducible apply crossMesh_only
    | with_reducible exact hF.of (by decide)
    | with_reducible apply Only.ite
    | split

theorem pushAttachment_only {F : Nat} {s₀ : State} {s : State} {t : Nat} {port : Nat} {a : Attach}
    (hs : Only F s₀ s) (hF : Within 268435552 F) :
    Only F s₀ (pushAttachment s t port a) := by
  unfold pushAttachment
  repeat' first
    | with_reducible assumption
    | (intro _ _ _ _; try dsimp -zeta only)
    | (intro _ _ _; try dsimp -zeta only)
    | (intro _ _; try dsimp -zeta only)
    | (intro _; try dsimp -zeta only)
    | (extract_lets +onlyGivenNames y; refine cut (p := Only F s₀ y) ?_ (fun _ => ?_); rotate_left; clear_value y; rotate_right; subst y)
    | (extract_lets +onlyGivenNames y; refine cut (p := OnlyP F s₀ y) ?_ (fun _ => ?_); rotate_left; clear_value y; rotate_right; subst y)
    | (extract_lets +onlyGivenNames y; try clear_value y)
    | with_reducible apply nextTurn_only
    | with_reducible apply giveLink_only
    | with_reducible apply State.emit_only
    | with_reducible apply leave_only
    | with_reducible apply served_only
    | with_reducible exact hF.of (by decide)
    | with_reducible apply Only.ite
    | with_reducible apply OnlyP.ite
    | split
    | with_reducible apply OnlyP.mk'
    | with_reducible refine OnlyP.of_eq (by assumption) ?_
    | with_reducible apply OnlyP.snd
    | with_reducible exact OnlyP.elim (by assumption)

theorem guestArrives_only {F : Nat} {s₀ : State} {s : State} {t : Nat} {port : Nat} {n : Nat} {p : Packet}
    (hs : Only F s₀ s) (hF : Within 268436552 F) :
    Only F s₀ (guestArrives s t port n p) := by
  unfold guestArrives
  repeat' first
    | with_reducible assumption
    | (intro _ _ _ _; try dsimp -zeta only)
    | (intro _ _ _; try dsimp -zeta only)
    | (intro _ _; try dsimp -zeta only)
    | (intro _; try dsimp -zeta only)
    | (extract_lets +onlyGivenNames y; refine cut (p := Only F s₀ y) ?_ (fun _ => ?_); rotate_left; clear_value y; rotate_right; subst y)
    | (extract_lets +onlyGivenNames y; try clear_value y)
    | with_reducible apply State.count32_only
    | with_reducible apply dropPacket_only
    | with_reducible apply arrive_only
    | with_reducible exact hF.of (by decide)
    | with_reducible apply Only.ite
    | split

theorem sendWaiting_only {F : Nat} {s₀ : State} {s : State} {mine : Endpoint → Bool}
    (hs : Only F s₀ s) (hF : Within 1342178382 F) :
    Only F s₀ (sendWaiting s mine) := by
  unfold sendWaiting
  repeat' first
    | with_reducible assumption
    | (intro _ _ _ _; try dsimp -zeta only)
    | (intro _ _ _; try dsimp -zeta only)
    | (intro _ _; try dsimp -zeta only)
    | (intro _; try dsimp -zeta only)
    | (extract_lets +onlyGivenNames y; refine cut (p := Only F s₀ y) ?_ (fun _ => ?_); rotate_left; clear_value y; rotate_right; subst y)
    | (extract_lets +onlyGivenNames y; try clear_value y)
    | with_reducible apply State.passTo_only
    | with_reducible apply flushOutbox_only
    | with_reducible apply flushUnsent_only
    | with_reducible exact hF.of (by decide)
    | split

theorem execRouterPacketReceive_only {F : Nat} {s₀ : State} {t : Fin 64} {port : Fin 8} {arriving : Option Packet} {s : State}
    (hs : Only F s₀ s) (hF : Within 1342178414 F) :
    OnlyN F s₀ (execRouterPacketReceive t port arriving s) := by
  unfold execRouterPacketReceive
  repeat' first
    | with_reducible assumption
    | (intro _ _ _ _; try dsimp -zeta only)
    | (intro _ _ _; try dsimp -zeta only)
    | (intro _ _; try dsimp -zeta only)
    | (intro _; try dsimp -zeta only)
    | with_reducible apply pullMesh_only
    | with_reducible apply pushAttachment_only
    | with_reducible apply guestArrives_only
    | with_reducible apply sendWaiting_only
    | with_reducible apply flushOutbox_only
    | with_reducible exact hF.of (by decide)
    | with_reducible apply Only.ite
    | with_reducible apply OnlyN.ite
    | split
    | with_reducible apply OnlyN.next

theorem execPacketEscape_only {F : Nat} {s₀ : State} {t : Fin 64} {port : Fin 8} {vc : Fin 4} {s : State}
    (hs : Only F s₀ s) (hF : Within 1342177350 F) :
    OnlyN F s₀ (execPacketEscape t port vc s) := by
  unfold execPacketEscape
  repeat' first
    | with_reducible assumption
    | (intro _ _ _ _; try dsimp -zeta only)
    | (intro _ _ _; try dsimp -zeta only)
    | (intro _ _; try dsimp -zeta only)
    | (intro _; try dsimp -zeta only)
    | (extract_lets +onlyGivenNames y; refine cut (p := Only F s₀ y) ?_ (fun _ => ?_); rotate_left; clear_value y; rotate_right; subst y)
    | (extract_lets +onlyGivenNames y; try clear_value y)
    | with_reducible apply State.passTo_only
    | with_reducible apply State.count64_only
    | with_reducible exact hF.of (by decide)
    | with_reducible apply Only.ite
    | with_reducible apply OnlyN.ite
    | split
    | with_reducible apply OnlyN.next
    | with_reducible apply Only.fabric

theorem execPacketAgeCheck_only {F : Nat} {s₀ : State} {t : Fin 64} {s : State}
    (hs : Only F s₀ s) (hF : Within 268436552 F) :
    OnlyN F s₀ (execPacketAgeCheck t s) := by
  unfold execPacketAgeCheck
  repeat' first
    | with_reducible assumption
    | (intro _ _ _ _; try dsimp -zeta only)
    | (intro _ _ _; try dsimp -zeta only)
    | (intro _ _; try dsimp -zeta only)
    | (intro _; try dsimp -zeta only)
    | (extract_lets +onlyGivenNames y; refine cut (p := Only F s₀ y) ?_ (fun _ => ?_); rotate_left; clear_value y; rotate_right; subst y)
    | (extract_lets +onlyGivenNames y; try clear_value y)
    | with_reducible apply State.count32_only
    | with_reducible apply unhold_only
    | with_reducible apply dropPacket_only
    | with_reducible apply flushOutbox_only
    | with_reducible exact hF.of (by decide)
    | with_reducible apply Only.foldl
    | with_reducible apply Only.ite
    | with_reducible apply OnlyN.ite
    | split
    | with_reducible apply OnlyN.next

theorem takeIn_only {F : Nat} {s₀ : State} {s : State} {c : Copy}
    (hs : Only F s₀ s) (hF : Within 268436552 F) :
    OnlyP F s₀ (takeIn s c) := by
  unfold takeIn
  repeat' first
    | with_reducible assumption
    | (intro _ _ _ _; try dsimp -zeta only)
    | (intro _ _ _; try dsimp -zeta only)
    | (intro _ _; try dsimp -zeta only)
    | (intro _; try dsimp -zeta only)
    | (extract_lets +onlyGivenNames y; refine cut (p := Only F s₀ y) ?_ (fun _ => ?_); rotate_left; clear_value y; rotate_right; subst y)
    | (extract_lets +onlyGivenNames y; refine cut (p := OnlyP F s₀ y) ?_ (fun _ => ?_); rotate_left; clear_value y; rotate_right; subst y)
    | (extract_lets +onlyGivenNames y; try clear_value y)
    | with_reducible apply leave_only
    | with_reducible apply served_only
    | with_reducible apply flushOutbox_only
    | with_reducible exact hF.of (by decide)
    | with_reducible apply OnlyP.mk'
    | with_reducible refine OnlyP.of_eq (by assumption) ?_
    | with_reducible apply OnlyP.snd
    | with_reducible exact OnlyP.elim (by assumption)

theorem endpointStep_only {F : Nat} {s₀ : State} {s : State} {ep : Endpoint} {ty : Nat} {act : State → Packet → State}
    (hs : Only F s₀ s) (h_act : ∀ x0 x1, Only F s₀ x0 → Only F s₀ (act x0 x1)) (hF : Within 268436584 F) :
    Only F s₀ (endpointStep s ep ty act) := by
  unfold endpointStep
  repeat' first
    | with_reducible assumption
    | (intro _ _ _ _; try dsimp -zeta only)
    | (intro _ _ _; try dsimp -zeta only)
    | (intro _ _; try dsimp -zeta only)
    | (intro _; try dsimp -zeta only)
    | (extract_lets +onlyGivenNames y; refine cut (p := Only F s₀ y) ?_ (fun _ => ?_); rotate_left; clear_value y; rotate_right; subst y)
    | (extract_lets +onlyGivenNames y; refine cut (p := OnlyP F s₀ y) ?_ (fun _ => ?_); rotate_left; clear_value y; rotate_right; subst y)
    | (extract_lets +onlyGivenNames y; try clear_value y)
    | with_reducible apply h_act
    | with_reducible apply takeIn_only
    | with_reducible apply State.emit_only
    | with_reducible apply leave_only
    | with_reducible exact hF.of (by decide)
    | with_reducible apply Only.ite
    | with_reducible apply OnlyP.ite
    | split
    | with_reducible apply OnlyP.mk'
    | with_reducible refine OnlyP.of_eq (by assumption) ?_
    | with_reducible apply OnlyP.snd
    | with_reducible exact OnlyP.elim (by assumption)

theorem countAt_only {F : Nat} {s₀ : State} {s : State} {ep : Endpoint} {off : Nat} {wide : Bool}
    (hs : Only F s₀ s) (hF : Within 64 F) :
    Only F s₀ (countAt s ep off wide) := by
  unfold countAt
  repeat' first
    | with_reducible assumption
    | (intro _ _ _ _; try dsimp -zeta only)
    | (intro _ _ _; try dsimp -zeta only)
    | (intro _ _; try dsimp -zeta only)
    | (intro _; try dsimp -zeta only)
    | with_reducible apply State.count32_only
    | with_reducible apply State.count64_only
    | with_reducible exact hF.of (by decide)
    | with_reducible apply Only.ite
    | split

theorem rejectPacket_only {F : Nat} {s₀ : State} {s : State} {ep : Endpoint} {p : Packet} {reason : Nat}
    (hs : Only F s₀ s) (hF : Within 268436552 F) :
    Only F s₀ (rejectPacket s ep p reason) := by
  unfold rejectPacket
  repeat' first
    | with_reducible assumption
    | (intro _ _ _ _; try dsimp -zeta only)
    | (intro _ _ _; try dsimp -zeta only)
    | (intro _ _; try dsimp -zeta only)
    | (intro _; try dsimp -zeta only)
    | (extract_lets +onlyGivenNames y; refine cut (p := Only F s₀ y) ?_ (fun _ => ?_); rotate_left; clear_value y; rotate_right; subst y)
    | (extract_lets +onlyGivenNames y; try clear_value y)
    | with_reducible apply post_only
    | with_reducible apply countAt_only
    | with_reducible apply sendAnswer_only
    | with_reducible exact hF.of (by decide)
    | split

theorem sendResponses_only {F : Nat} {s₀ : State} {s : State} {ep : Endpoint} {p : Packet} {ls : List (Option Line)}
    (hs : Only F s₀ s) (hF : Within 268436552 F) :
    Only F s₀ (sendResponses s ep p ls) := by
  unfold sendResponses
  repeat' first
    | with_reducible assumption
    | (intro _ _ _ _; try dsimp -zeta only)
    | (intro _ _ _; try dsimp -zeta only)
    | (intro _ _; try dsimp -zeta only)
    | (intro _; try dsimp -zeta only)
    | (extract_lets +onlyGivenNames y; refine cut (p := Only F s₀ y) ?_ (fun _ => ?_); rotate_left; clear_value y; rotate_right; subst y)
    | (extract_lets +onlyGivenNames y; try clear_value y)
    | with_reducible apply State.count64_only
    | with_reducible apply sendAnswer_only
    | with_reducible exact hF.of (by decide)
    | with_reducible apply Only.foldl
    | with_reducible apply Only.ite
    | split

theorem performAtTile_only {F : Nat} {s₀ : State} {s : State} {t : Fin 64} {p : Packet}
    (hs : Only F s₀ s) (hF : Within 139393467496 F) :
    Only F s₀ (performAtTile s t p) := by
  unfold performAtTile
  repeat' first
    | with_reducible assumption
    | (intro _ _ _ _; try dsimp -zeta only)
    | (intro _ _ _; try dsimp -zeta only)
    | (intro _ _; try dsimp -zeta only)
    | (intro _; try dsimp -zeta only)
    | (extract_lets +onlyGivenNames y; refine cut (p := Only F s₀ y) ?_ (fun _ => ?_); rotate_left; clear_value y; rotate_right; subst y)
    | (extract_lets +onlyGivenNames y; refine cut (p := OnlyP F s₀ y) ?_ (fun _ => ?_); rotate_left; clear_value y; rotate_right; subst y)
    | (extract_lets +onlyGivenNames y; refine cut (p := ∀ u, Only F s₀ u → Only F s₀ (y u)) ?_ (fun hy => ?_); rotate_left; clear_value y; rotate_right; subst y)
    | with_reducible apply hy
    | (extract_lets +onlyGivenNames y; try clear_value y)
    | with_reducible apply collArrived_only
    | with_reducible apply rejectPacket_only
    | with_reducible apply sendResponses_only
    | with_reducible apply readLines_only
    | with_reducible apply writeLines_only
    | with_reducible apply accLines_only
    | with_reducible apply State.count64_only
    | with_reducible apply State.setTally_only
    | with_reducible apply sendAnswer_only
    | with_reducible exact hF.of (by decide)
    | with_reducible apply Only.ite
    | with_reducible apply OnlyP.ite
    | split
    | with_reducible apply OnlyP.mk'
    | with_reducible refine OnlyP.of_eq (by assumption) ?_
    | with_reducible apply OnlyP.snd
    | with_reducible exact OnlyP.elim (by assumption)

theorem tileRequest_only {F : Nat} {s₀ : State} {t : Fin 64} {s : State} {p : Packet}
    (hs : Only F s₀ s) (hF : Within 139393467496 F) :
    Only F s₀ (tileRequest t s p) := by
  unfold tileRequest
  repeat' first
    | with_reducible assumption
    | (intro _ _ _ _; try dsimp -zeta only)
    | (intro _ _ _; try dsimp -zeta only)
    | (intro _ _; try dsimp -zeta only)
    | (intro _; try dsimp -zeta only)
    | with_reducible apply rejectPacket_only
    | with_reducible apply performAtTile_only
    | with_reducible apply State.emit_only
    | with_reducible apply State.count32_only
    | with_reducible exact hF.of (by decide)
    | with_reducible apply Only.ite
    | split
    | with_reducible apply Only.fabric

theorem bridgeRequest_only {F : Nat} {s₀ : State} {h : Fin 2} {s : State} {p : Packet}
    (hs : Only F s₀ s) (hF : Within 68987913288 F) :
    Only F s₀ (bridgeRequest h s p) := by
  unfold bridgeRequest
  repeat' first
    | with_reducible assumption
    | (intro _ _ _ _; try dsimp -zeta only)
    | (intro _ _ _; try dsimp -zeta only)
    | (intro _ _; try dsimp -zeta only)
    | (intro _; try dsimp -zeta only)
    | (extract_lets +onlyGivenNames y; refine cut (p := Only F s₀ y) ?_ (fun _ => ?_); rotate_left; clear_value y; rotate_right; subst y)
    | (extract_lets +onlyGivenNames y; refine cut (p := ∀ u, Only F s₀ u → Only F s₀ (y u)) ?_ (fun hy => ?_); rotate_left; clear_value y; rotate_right; subst y)
    | (extract_lets +onlyGivenNames y; try clear_value y)
    | with_reducible apply rejectPacket_only
    | with_reducible apply State.count32_only
    | with_reducible apply sendAnswer_only
    | with_reducible apply sendResponses_only
    | with_reducible exact hF.of (by decide)
    | with_reducible apply Only.foldl
    | with_reducible apply OnlyP.foldl
    | with_reducible apply OnlyF.foldl
    | with_reducible apply hy
    | with_reducible apply Only.ite
    | with_reducible apply OnlyP.ite
    | with_reducible apply OnlyF.ite
    | split
    | with_reducible apply OnlyP.mk'
    | with_reducible apply OnlyF.mk'
    | with_reducible refine OnlyP.of_eq (by assumption) ?_
    | with_reducible apply OnlyP.snd
    | with_reducible exact OnlyP.elim (by assumption)
    | with_reducible refine OnlyF.of_eq (by assumption) ?_
    | with_reducible apply OnlyF.fst
    | with_reducible exact OnlyF.elim (by assumption)
    | with_reducible apply Only.staging

theorem requestStep_only {F : Nat} {s₀ : State} {s : State} {ep : Endpoint} {ty : Nat}
    (hs : Only F s₀ s) (hF : Within 208112944232 F) :
    Only F s₀ (requestStep s ep ty) := by
  unfold requestStep
  repeat' first
    | with_reducible assumption
    | (intro _ _ _ _; try dsimp -zeta only)
    | (intro _ _ _; try dsimp -zeta only)
    | (intro _ _; try dsimp -zeta only)
    | (intro _; try dsimp -zeta only)
    | with_reducible apply endpointStep_only
    | with_reducible apply tileRequest_only
    | with_reducible apply bridgeRequest_only
    | with_reducible exact hF.of (by decide)
    | split

theorem execWritePacket_only {F : Nat} {s₀ : State} {ep : Endpoint} {s : State}
    (hs : Only F s₀ s) (hF : Within 208112944232 F) :
    OnlyN F s₀ (execWritePacket ep s) := by
  unfold execWritePacket
  repeat' first
    | with_reducible assumption
    | with_reducible apply requestStep_only
    | with_reducible exact hF.of (by decide)
    | with_reducible apply OnlyN.next

theorem execWriteAccPacket_only {F : Nat} {s₀ : State} {ep : Endpoint} {s : State}
    (hs : Only F s₀ s) (hF : Within 208112944232 F) :
    OnlyN F s₀ (execWriteAccPacket ep s) := by
  unfold execWriteAccPacket
  repeat' first
    | with_reducible assumption
    | with_reducible apply requestStep_only
    | with_reducible exact hF.of (by decide)
    | with_reducible apply OnlyN.next

theorem execReadReq_only {F : Nat} {s₀ : State} {ep : Endpoint} {s : State}
    (hs : Only F s₀ s) (hF : Within 208112944232 F) :
    OnlyN F s₀ (execReadReq ep s) := by
  unfold execReadReq
  repeat' first
    | with_reducible assumption
    | with_reducible apply requestStep_only
    | with_reducible exact hF.of (by decide)
    | with_reducible apply OnlyN.next

theorem execSignal_only {F : Nat} {s₀ : State} {ep : Endpoint} {s : State}
    (hs : Only F s₀ s) (hF : Within 208112944232 F) :
    OnlyN F s₀ (execSignal ep s) := by
  unfold execSignal
  repeat' first
    | with_reducible assumption
    | with_reducible apply requestStep_only
    | with_reducible exact hF.of (by decide)
    | with_reducible apply OnlyN.next

theorem resumePacket_only {F : Nat} {s₀ : State} {s : State} {t : Fin 64} {p : Packet}
    (hs : Only F s₀ s) (hF : Within 139393467496 F) :
    Only F s₀ (resumePacket s t p) := by
  unfold resumePacket
  repeat' first
    | with_reducible assumption
    | (intro _ _ _ _; try dsimp -zeta only)
    | (intro _ _ _; try dsimp -zeta only)
    | (intro _ _; try dsimp -zeta only)
    | (intro _; try dsimp -zeta only)
    | with_reducible apply rejectPacket_only
    | with_reducible apply performAtTile_only
    | with_reducible exact hF.of (by decide)
    | with_reducible apply Only.ite
    | split

theorem performStalled_only {F : Nat} {s₀ : State} {t : Fin 64} {xs : List (Nat × Packet)} {s : State}
    (hs : Only F s₀ s) (hF : Within 139393467496 F) :
    Only F s₀ (performStalled t xs s) := by
  induction xs generalizing s with
  | nil => exact hs
  | cons x xs ih =>
    unfold performStalled
    split
    · exact ih hs
    · exact ih (resumePacket_only (Only.fabric hs (hF.of (by decide))) (hF.of (by decide)))

theorem execZeroingFrontPass_only {F : Nat} {s₀ : State} {t : Fin 64} {s : State}
    (hs : Only F s₀ s) (hF : Within 139393467496 F) :
    OnlyN F s₀ (execZeroingFrontPass t s) := by
  unfold execZeroingFrontPass
  repeat' first
    | with_reducible assumption
    | (intro _ _ _ _; try dsimp -zeta only)
    | (intro _ _ _; try dsimp -zeta only)
    | (intro _ _; try dsimp -zeta only)
    | (intro _; try dsimp -zeta only)
    | with_reducible apply performStalled_only
    | with_reducible exact hF.of (by decide)
    | with_reducible apply Only.ite
    | with_reducible apply OnlyN.ite
    | split
    | with_reducible apply OnlyN.next

theorem echoed_only {F : Nat} {s₀ : State} {s : State} {src : Endpoint} {key : Nat}
    (hs : Only F s₀ s) (hF : Within 268435520 F) :
    Only F s₀ (echoed s src key) := by
  unfold echoed
  repeat' first
    | with_reducible assumption
    | (intro _ _ _ _; try dsimp -zeta only)
    | (intro _ _ _; try dsimp -zeta only)
    | (intro _ _; try dsimp -zeta only)
    | (intro _; try dsimp -zeta only)
    | (extract_lets +onlyGivenNames y; refine cut (p := Only F s₀ y) ?_ (fun _ => ?_); rotate_left; clear_value y; rotate_right; subst y)
    | (extract_lets +onlyGivenNames y; try clear_value y)
    | with_reducible apply countAt_only
    | with_reducible exact hF.of (by decide)
    | with_reducible apply Only.ite
    | split
    | with_reducible apply Only.fabric

theorem settle_only {F : Nat} {s₀ : State} {s : State} {o : Outstanding} {n : Nat}
    (hs : Only F s₀ s) (hF : Within 268436552 F) :
    OnlyP F s₀ (settle s o n) := by
  unfold settle
  repeat' first
    | with_reducible assumption
    | (intro _ _ _ _; try dsimp -zeta only)
    | (intro _ _ _; try dsimp -zeta only)
    | (intro _ _; try dsimp -zeta only)
    | (intro _; try dsimp -zeta only)
    | (extract_lets +onlyGivenNames y; refine cut (p := Only F s₀ y) ?_ (fun _ => ?_); rotate_left; clear_value y; rotate_right; subst y)
    | (extract_lets +onlyGivenNames y; refine cut (p := OnlyP F s₀ y) ?_ (fun _ => ?_); rotate_left; clear_value y; rotate_right; subst y)
    | (extract_lets +onlyGivenNames y; try clear_value y)
    | with_reducible apply flushUnsent_only
    | with_reducible exact hF.of (by decide)
    | with_reducible apply Only.ite
    | with_reducible apply OnlyP.ite
    | split
    | with_reducible apply OnlyP.mk'
    | with_reducible refine OnlyP.of_eq (by assumption) ?_
    | with_reducible apply OnlyP.snd
    | with_reducible exact OnlyP.elim (by assumption)
    | with_reducible apply Only.fabric

theorem mirrorAnswered_only {F : Nat} {s₀ : State} {s : State} {t : Nat} {owner : MirrorOwner}
    (hs : Only F s₀ s) (hF : Within 268436552 F) :
    Only F s₀ (mirrorAnswered s t owner) := by
  unfold mirrorAnswered
  repeat' first
    | with_reducible assumption
    | with_reducible apply sendAnswer_only
    | with_reducible exact hF.of (by decide)
    | with_reducible apply Only.ite
    | split

theorem acknowledged_only {F : Nat} {s₀ : State} {s : State} {o : Outstanding}
    (hs : Only F s₀ s) (hF : Within 8860304456 F) :
    Only F s₀ (acknowledged s o) := by
  unfold acknowledged
  repeat' first
    | with_reducible assumption
    | (intro _ _ _ _; try dsimp -zeta only)
    | (intro _ _ _; try dsimp -zeta only)
    | (intro _ _; try dsimp -zeta only)
    | (intro _; try dsimp -zeta only)
    | with_reducible apply mirrorAnswered_only
    | with_reducible apply hostLineDone_only
    | with_reducible exact hF.of (by decide)
    | split

theorem rejected_only {F : Nat} {s₀ : State} {s : State} {o : Outstanding} {reason : Nat}
    (hs : Only F s₀ s) (hF : Within 182399632488 F) :
    Only F s₀ (rejected s o reason) := by
  unfold rejected
  repeat' first
    | with_reducible assumption
    | (intro _ _ _ _; try dsimp -zeta only)
    | (intro _ _ _; try dsimp -zeta only)
    | (intro _ _; try dsimp -zeta only)
    | (intro _; try dsimp -zeta only)
    | (extract_lets +onlyGivenNames y; refine cut (p := Only F s₀ y) ?_ (fun _ => ?_); rotate_left; clear_value y; rotate_right; subst y)
    | (extract_lets +onlyGivenNames y; try clear_value y)
    | with_reducible apply post_only
    | with_reducible apply mirrorAnswered_only
    | with_reducible apply hostLineDone_only
    | with_reducible apply hostReadFailed_only
    | with_reducible apply mirrorInvalid_only
    | with_reducible apply deliverLines_only
    | with_reducible apply abortCommand_only
    | with_reducible exact hF.of (by decide)
    | with_reducible apply Only.ite
    | split

theorem responseLines_only {F : Nat} {s₀ : State} {s : State} {ep : Endpoint} {o : Outstanding} {p : Packet}
    (hs : Only F s₀ s) (hF : Within 44960613480 F) :
    Only F s₀ (responseLines s ep o p) := by
  unfold responseLines
  repeat' first
    | with_reducible assumption
    | (extract_lets +onlyGivenNames y; refine cut (p := Only F s₀ y) ?_ (fun _ => ?_); rotate_left; clear_value y; rotate_right; subst y)
    | (extract_lets +onlyGivenNames y; try clear_value y)
    | with_reducible apply State.count64_only
    | with_reducible apply deliverLines_only
    | with_reducible apply hostReadLines_only
    | with_reducible exact hF.of (by decide)
    | split

theorem answerStep_only {F : Nat} {s₀ : State} {s : State} {ep : Endpoint} {ty : Nat} {act : State → Outstanding → Packet → State}
    (hs : Only F s₀ s) (h_act : ∀ x0 x1 x2, Only F s₀ x0 → Only F s₀ (act x0 x1 x2)) (hF : Within 268436584 F) :
    Only F s₀ (answerStep s ep ty act) := by
  unfold answerStep
  repeat' first
    | with_reducible assumption
    | (intro _ _ _ _; try dsimp -zeta only)
    | (intro _ _ _; try dsimp -zeta only)
    | (intro _ _; try dsimp -zeta only)
    | (intro _; try dsimp -zeta only)
    | (extract_lets +onlyGivenNames y; refine cut (p := Only F s₀ y) ?_ (fun _ => ?_); rotate_left; clear_value y; rotate_right; subst y)
    | (extract_lets +onlyGivenNames y; try clear_value y)
    | with_reducible apply h_act
    | with_reducible apply endpointStep_only
    | with_reducible apply countAt_only
    | with_reducible apply rejectPacket_only
    | with_reducible apply echoed_only
    | with_reducible apply State.count32_only
    | with_reducible exact hF.of (by decide)
    | with_reducible apply Only.ite
    | split

theorem execReadResp_only {F : Nat} {s₀ : State} {ep : Endpoint} {s : State}
    (hs : Only F s₀ s) (hF : Within 44960613480 F) :
    OnlyN F s₀ (execReadResp ep s) := by
  unfold execReadResp
  repeat' first
    | with_reducible assumption
    | (intro _ _ _ _; try dsimp -zeta only)
    | (intro _ _ _; try dsimp -zeta only)
    | (intro _ _; try dsimp -zeta only)
    | (intro _; try dsimp -zeta only)
    | with_reducible apply settle_only
    | with_reducible apply responseLines_only
    | with_reducible apply answerStep_only
    | with_reducible exact hF.of (by decide)
    | with_reducible apply OnlyN.next
    | with_reducible apply OnlyP.mk'
    | with_reducible refine OnlyP.of_eq (by assumption) ?_
    | with_reducible apply OnlyP.snd
    | with_reducible exact OnlyP.elim (by assumption)

theorem execAck_only {F : Nat} {s₀ : State} {ep : Endpoint} {s : State}
    (hs : Only F s₀ s) (hF : Within 9397175400 F) :
    OnlyN F s₀ (execAck ep s) := by
  unfold execAck
  repeat' first
    | with_reducible assumption
    | (intro _ _ _ _; try dsimp -zeta only)
    | (intro _ _ _; try dsimp -zeta only)
    | (intro _ _; try dsimp -zeta only)
    | (intro _; try dsimp -zeta only)
    | (extract_lets +onlyGivenNames y; refine cut (p := Only F s₀ y) ?_ (fun _ => ?_); rotate_left; clear_value y; rotate_right; subst y)
    | (extract_lets +onlyGivenNames y; refine cut (p := OnlyP F s₀ y) ?_ (fun _ => ?_); rotate_left; clear_value y; rotate_right; subst y)
    | (extract_lets +onlyGivenNames y; try clear_value y)
    | with_reducible apply collAcked_only
    | with_reducible apply settle_only
    | with_reducible apply acknowledged_only
    | with_reducible apply answerStep_only
    | with_reducible exact hF.of (by decide)
    | with_reducible apply Only.ite
    | with_reducible apply OnlyP.ite
    | with_reducible apply OnlyN.ite
    | split
    | with_reducible apply OnlyN.next
    | with_reducible apply OnlyP.mk'
    | with_reducible refine OnlyP.of_eq (by assumption) ?_
    | with_reducible apply OnlyP.snd
    | with_reducible exact OnlyP.elim (by assumption)

theorem execNack_only {F : Nat} {s₀ : State} {ep : Endpoint} {s : State}
    (hs : Only F s₀ s) (hF : Within 182399632488 F) :
    OnlyN F s₀ (execNack ep s) := by
  unfold execNack
  repeat' first
    | with_reducible assumption
    | (intro _ _ _ _; try dsimp -zeta only)
    | (intro _ _ _; try dsimp -zeta only)
    | (intro _ _; try dsimp -zeta only)
    | (intro _; try dsimp -zeta only)
    | with_reducible apply settle_only
    | with_reducible apply rejected_only
    | with_reducible apply answerStep_only
    | with_reducible exact hF.of (by decide)
    | with_reducible apply OnlyN.next
    | with_reducible apply OnlyP.mk'
    | with_reducible refine OnlyP.of_eq (by assumption) ?_
    | with_reducible apply OnlyP.snd
    | with_reducible exact OnlyP.elim (by assumption)

theorem execAckTimeout_only {F : Nat} {s₀ : State} {ep : Endpoint} {s : State}
    (hs : Only F s₀ s) (hF : Within 182399632494 F) :
    OnlyN F s₀ (execAckTimeout ep s) := by
  unfold execAckTimeout
  repeat' first
    | with_reducible assumption
    | (intro _ _ _ _; try dsimp -zeta only)
    | (intro _ _ _; try dsimp -zeta only)
    | (intro _ _; try dsimp -zeta only)
    | (intro _; try dsimp -zeta only)
    | (extract_lets +onlyGivenNames y; refine cut (p := Only F s₀ y) ?_ (fun _ => ?_); rotate_left; clear_value y; rotate_right; subst y)
    | (extract_lets +onlyGivenNames y; refine cut (p := OnlyP F s₀ y) ?_ (fun _ => ?_); rotate_left; clear_value y; rotate_right; subst y)
    | (extract_lets +onlyGivenNames y; try clear_value y)
    | with_reducible apply State.passTo_only
    | with_reducible apply State.count32_only
    | with_reducible apply settle_only
    | with_reducible apply rejected_only
    | with_reducible exact hF.of (by decide)
    | with_reducible apply Only.ite
    | with_reducible apply OnlyP.ite
    | with_reducible apply OnlyN.ite
    | split
    | with_reducible apply OnlyN.next
    | with_reducible apply OnlyP.mk'
    | with_reducible refine OnlyP.of_eq (by assumption) ?_
    | with_reducible apply OnlyP.snd
    | with_reducible exact OnlyP.elim (by assumption)

theorem execCcRateIncrease_only {F : Nat} {s₀ : State} {ep : Endpoint} {key : Nat} {s : State}
    (hs : Only F s₀ s) (hF : Within 1342177286 F) :
    OnlyN F s₀ (execCcRateIncrease ep key s) := by
  unfold execCcRateIncrease
  repeat' first
    | with_reducible assumption
    | (intro _ _ _ _; try dsimp -zeta only)
    | (intro _ _ _; try dsimp -zeta only)
    | (intro _ _; try dsimp -zeta only)
    | (intro _; try dsimp -zeta only)
    | (extract_lets +onlyGivenNames y; refine cut (p := Only F s₀ y) ?_ (fun _ => ?_); rotate_left; clear_value y; rotate_right; subst y)
    | (extract_lets +onlyGivenNames y; try clear_value y)
    | with_reducible apply State.passTo_only
    | with_reducible exact hF.of (by decide)
    | with_reducible apply Only.ite
    | with_reducible apply OnlyN.ite
    | split
    | with_reducible apply OnlyN.next
    | with_reducible apply Only.fabric

theorem foldFab_only {F : Nat} {s₀ : State} {s : State} {t : Nat}
    (hs : Only F s₀ s) (hF : Within 268435648 F) :
    Only F s₀ (foldFab s t) := by
  unfold foldFab
  repeat' first
    | with_reducible assumption
    | (intro _ _ _ _; try dsimp -zeta only)
    | (intro _ _ _; try dsimp -zeta only)
    | (intro _ _; try dsimp -zeta only)
    | (intro _; try dsimp -zeta only)
    | (extract_lets +onlyGivenNames y; refine cut (p := Only F s₀ y) ?_ (fun _ => ?_); rotate_left; clear_value y; rotate_right; subst y)
    | (extract_lets +onlyGivenNames y; try clear_value y)
    | with_reducible apply State.foldReg_only
    | with_reducible exact hF.of (by decide)
    | with_reducible apply Only.ite
    | split
    | with_reducible apply Only.fabric

theorem execFabFold_only {F : Nat} {s₀ : State} {p : Path} {t : Fin 64} {s : State}
    (hs : Only F s₀ s) (hF : Within 268440792 F) :
    OnlyN F s₀ (execFabFold p t s) := by
  unfold execFabFold
  repeat' first
    | with_reducible assumption
    | (intro _ _ _ _; try dsimp -zeta only)
    | (intro _ _ _; try dsimp -zeta only)
    | (intro _ _; try dsimp -zeta only)
    | (intro _; try dsimp -zeta only)
    | with_reducible apply ownerWrite_only
    | with_reducible apply foldFab_only
    | with_reducible exact hF.of (by decide)
    | with_reducible apply OnlyN.next

theorem refuseFrame_only {F : Nat} {s₀ : State} {s : State} {l : ModLink} {seq : Nat}
    (hs : Only F s₀ s) (hF : Within 142002357352 F) :
    Only F s₀ (refuseFrame s l seq) := by
  unfold refuseFrame
  repeat' first
    | with_reducible assumption
    | (intro _ _ _ _; try dsimp -zeta only)
    | (intro _ _ _; try dsimp -zeta only)
    | (intro _ _; try dsimp -zeta only)
    | (intro _; try dsimp -zeta only)
    | (extract_lets +onlyGivenNames y; refine cut (p := Only F s₀ y) ?_ (fun _ => ?_); rotate_left; clear_value y; rotate_right; subst y)
    | (extract_lets +onlyGivenNames y; try clear_value y)
    | with_reducible apply launchFrame_only
    | with_reducible apply linkDown_only
    | with_reducible apply State.count32_only
    | with_reducible apply State.setLink_only
    | with_reducible exact hF.of (by decide)
    | with_reducible apply Only.ite
    | split

theorem takeTrailer_only {F : Nat} {s₀ : State} {s : State} {l : ModLink} {f : Frame}
    (hs : Only F s₀ s) (hF : Within 6710886432 F) :
    Only F s₀ (takeTrailer s l f) := by
  unfold takeTrailer
  repeat' first
    | with_reducible assumption
    | (intro _ _ _ _; try dsimp -zeta only)
    | (intro _ _ _; try dsimp -zeta only)
    | (intro _ _; try dsimp -zeta only)
    | (intro _; try dsimp -zeta only)
    | (extract_lets +onlyGivenNames y; refine cut (p := Only F s₀ y) ?_ (fun _ => ?_); rotate_left; clear_value y; rotate_right; subst y)
    | (extract_lets +onlyGivenNames y; try clear_value y)
    | with_reducible apply setStamp_only
    | with_reducible apply replayFrames_only
    | with_reducible apply State.setLink_only
    | with_reducible exact hF.of (by decide)
    | with_reducible apply Only.ite
    | split

theorem framePackets_only {F : Nat} {s₀ : State} {s : State} {l : ModLink} {f : Frame}
    (hs : Only F s₀ s) (hF : Within 268436552 F) :
    Only F s₀ (framePackets s l f) := by
  unfold framePackets
  repeat' first
    | with_reducible assumption
    | (intro _ _ _ _; try dsimp -zeta only)
    | (intro _ _ _; try dsimp -zeta only)
    | (intro _ _; try dsimp -zeta only)
    | (intro _; try dsimp -zeta only)
    | with_reducible apply arrive_only
    | with_reducible exact hF.of (by decide)
    | with_reducible apply Only.foldl
    | split

theorem acceptFrame_only {F : Nat} {s₀ : State} {s : State} {l : ModLink} {f : Frame}
    (hs : Only F s₀ s) (hF : Within 6710887528 F) :
    Only F s₀ (acceptFrame s l f) := by
  unfold acceptFrame
  repeat' first
    | with_reducible assumption
    | (intro _ _ _ _; try dsimp -zeta only)
    | (intro _ _ _; try dsimp -zeta only)
    | (intro _ _; try dsimp -zeta only)
    | (intro _; try dsimp -zeta only)
    | (extract_lets +onlyGivenNames y; refine cut (p := Only F s₀ y) ?_ (fun _ => ?_); rotate_left; clear_value y; rotate_right; subst y)
    | (extract_lets +onlyGivenNames y; try clear_value y)
    | with_reducible apply takeTrailer_only
    | with_reducible apply framePackets_only
    | with_reducible apply transmit_only
    | with_reducible apply State.setLink_only
    | with_reducible exact hF.of (by decide)
    | with_reducible apply Only.ite
    | split

theorem execLinkFrameReceive_only {F : Nat} {s₀ : State} {l : ModLink} {f : Frame} {s : State}
    (hs : Only F s₀ s) (hF : Within 144149841000 F) :
    OnlyN F s₀ (execLinkFrameReceive l f s) := by
  unfold execLinkFrameReceive
  repeat' first
    | with_reducible assumption
    | (intro _ _ _ _; try dsimp -zeta only)
    | (intro _ _ _; try dsimp -zeta only)
    | (intro _ _; try dsimp -zeta only)
    | (intro _; try dsimp -zeta only)
    | (extract_lets +onlyGivenNames y; refine cut (p := Only F s₀ y) ?_ (fun _ => ?_); rotate_left; clear_value y; rotate_right; subst y)
    | (extract_lets +onlyGivenNames y; try clear_value y)
    | with_reducible apply refuseFrame_only
    | with_reducible apply acceptFrame_only
    | with_reducible apply State.count32_only
    | with_reducible apply State.count64_only
    | with_reducible exact hF.of (by decide)
    | with_reducible apply Only.ite
    | with_reducible apply OnlyN.ite
    | split
    | with_reducible apply OnlyN.next

theorem execInterModuleLinkDown_only {F : Nat} {s₀ : State} {l : ModLink} {s : State}
    (hs : Only F s₀ s) (hF : Within 142002357320 F) :
    OnlyN F s₀ (execInterModuleLinkDown l s) := by
  unfold execInterModuleLinkDown
  repeat' first
    | with_reducible assumption
    | (intro _ _ _ _; try dsimp -zeta only)
    | (intro _ _ _; try dsimp -zeta only)
    | (intro _ _; try dsimp -zeta only)
    | (intro _; try dsimp -zeta only)
    | with_reducible apply linkDown_only
    | with_reducible exact hF.of (by decide)
    | with_reducible apply Only.ite
    | with_reducible apply OnlyN.ite
    | split
    | with_reducible apply OnlyN.next

end Sys2Proof.Machine
end

