-- ==== Sys2Proof/Laws/OnlyBursts.lean ====
section
/-! SUPPORT. What each operation of Machine/Bursts.lean may change. -/

namespace Sys2Proof.Machine

open Sys2Proof

theorem arriveReq_only {F : Nat} {s₀ : State} {t : Nat} {s : State} {r : HamperReq}
    (hs : Only F s₀ s) (hF : Within 2097152 F) :
    Only F s₀ (arriveReq t s r) := by
  unfold arriveReq
  repeat' first
    | with_reducible assumption
    | (intro _ _ _ _; try dsimp -zeta only)
    | (intro _ _ _; try dsimp -zeta only)
    | (intro _ _; try dsimp -zeta only)
    | (intro _; try dsimp -zeta only)
    | (extract_lets +onlyGivenNames y; refine cut (p := Only F s₀ y) ?_ (fun _ => ?_); rotate_left; clear_value y; rotate_right; subst y)
    | (extract_lets +onlyGivenNames y; try clear_value y)
    | with_reducible apply State.setChannel_only
    | with_reducible exact hF.of (by decide)
    | with_reducible apply Only.foldl

theorem performBurst_only {F : Nat} {s₀ : State} {s : State} {t : Nat} {r : HamperReq}
    (hs : Only F s₀ s) (hF : Within 137711453256 F) :
    OnlyP F s₀ (performBurst s t r) := by
  unfold performBurst
  repeat' first
    | with_reducible assumption
    | (intro _ _ _ _; try dsimp -zeta only)
    | (intro _ _ _; try dsimp -zeta only)
    | (intro _ _; try dsimp -zeta only)
    | (intro _; try dsimp -zeta only)
    | (extract_lets +onlyGivenNames y; refine cut (p := Only F s₀ y) ?_ (fun _ => ?_); rotate_left; clear_value y; rotate_right; subst y)
    | (extract_lets +onlyGivenNames y; refine cut (p := OnlyP F s₀ y) ?_ (fun _ => ?_); rotate_left; clear_value y; rotate_right; subst y)
    | (extract_lets +onlyGivenNames y; try clear_value y)
    | with_reducible apply readLines_only
    | with_reducible apply writeLines_only
    | with_reducible apply accLines_only
    | with_reducible exact hF.of (by decide)
    | split
    | with_reducible apply OnlyP.mk'
    | with_reducible refine OnlyP.of_eq (by assumption) ?_
    | with_reducible apply OnlyP.snd
    | with_reducible exact OnlyP.elim (by assumption)

theorem refuseReq_only {F : Nat} {s₀ : State} {s : State} {t : Nat} {r : HamperReq}
    (hs : Only F s₀ s) (hF : Within 36370678888 F) :
    Only F s₀ (refuseReq s t r) := by
  unfold refuseReq
  repeat' first
    | with_reducible assumption
    | (intro _ _ _ _; try dsimp -zeta only)
    | (intro _ _ _; try dsimp -zeta only)
    | (intro _ _; try dsimp -zeta only)
    | (intro _; try dsimp -zeta only)
    | with_reducible apply abortCommand_only
    | with_reducible exact hF.of (by decide)
    | split

theorem execHamperBurst_only {F : Nat} {s₀ : State} {t : Fin 64} {c : Fin 32} {arrivals : List HamperReq} {errors : List (Nat × EccFinding)} {retries : List Nat} {s : State}
    (hs : Only F s₀ s) (hF : Within 723567740008 F) :
    OnlyN F s₀ (execHamperBurst t c arrivals errors retries s) := by
  unfold execHamperBurst
  repeat' first
    | with_reducible assumption
    | (intro _ _ _ _; try dsimp -zeta only)
    | (intro _ _ _; try dsimp -zeta only)
    | (intro _ _; try dsimp -zeta only)
    | (intro _; try dsimp -zeta only)
    | (extract_lets +onlyGivenNames y; refine cut (p := Only F s₀ y) ?_ (fun _ => ?_); rotate_left; clear_value y; rotate_right; subst y)
    | (extract_lets +onlyGivenNames y; refine cut (p := OnlyP F s₀ y) ?_ (fun _ => ?_); rotate_left; clear_value y; rotate_right; subst y)
    | (extract_lets +onlyGivenNames y; try clear_value y)
    | with_reducible apply arriveReq_only
    | with_reducible apply performBurst_only
    | with_reducible apply refuseReq_only
    | with_reducible apply performStalled_only
    | with_reducible apply arise_only
    | with_reducible apply State.count32_only
    | with_reducible apply State.setChannel_only
    | with_reducible apply enterSafe_only
    | with_reducible exact hF.of (by decide)
    | with_reducible apply Only.foldl
    | with_reducible apply OnlyP.foldl
    | with_reducible apply Only.ite
    | with_reducible apply OnlyP.ite
    | with_reducible apply OnlyN.ite
    | split
    | with_reducible apply OnlyN.next
    | with_reducible apply OnlyP.mk'
    | with_reducible refine OnlyP.of_eq (by assumption) ?_
    | with_reducible apply OnlyP.snd
    | with_reducible exact OnlyP.elim (by assumption)

theorem execAgedRequest_only {F : Nat} {s₀ : State} {t : Fin 64} {c : Fin 32} {s : State}
    (hs : Only F s₀ s) (hF : Within 2097152 F) :
    OnlyN F s₀ (execAgedRequest t c s) := by
  unfold execAgedRequest
  repeat' first
    | with_reducible assumption
    | (intro _ _ _ _; try dsimp -zeta only)
    | (intro _ _ _; try dsimp -zeta only)
    | (intro _ _; try dsimp -zeta only)
    | (intro _; try dsimp -zeta only)
    | (extract_lets +onlyGivenNames y; refine cut (p := Only F s₀ y) ?_ (fun _ => ?_); rotate_left; clear_value y; rotate_right; subst y)
    | (extract_lets +onlyGivenNames y; try clear_value y)
    | with_reducible apply State.setChannel_only
    | with_reducible exact hF.of (by decide)
    | with_reducible apply Only.ite
    | with_reducible apply OnlyN.ite
    | split
    | with_reducible apply OnlyN.next

end Sys2Proof.Machine
end

