-- ==== Sys2Proof/Laws/OnlyCollectives.lean ====
section
/-! SUPPORT. What each operation of Sys2Proof/Machine/Collectives.lean may change. -/

namespace Sys2Proof.Machine

open Sys2Proof

theorem useAll_only {F : Nat} {s₀ : State} {s : State} {t : Nat} {copies : SMap (Option Line)} {ws : List (Nat × Nat × Need)}
    (hs : Only F s₀ s) (hF : Within 787528 F) :
    OnlyP F s₀ (useAll s t copies ws) := by
  induction ws generalizing s with
  | nil => exact OnlyP.mk' hs
  | cons w ws ih =>
    unfold useAll
    repeat' first
      | with_reducible assumption
      | (extract_lets +onlyGivenNames y; refine cut (p := Only F s₀ y) ?_ (fun _ => ?_); rotate_left; clear_value y; rotate_right; subst y)
      | (extract_lets +onlyGivenNames y; try clear_value y)
      | with_reducible apply ih
      | with_reducible apply useDesc_only
      | with_reducible exact hF.of (by decide)
      | split
      | with_reducible apply OnlyP.mk'
      | with_reducible refine OnlyP.of_eq (by assumption) ?_
      | with_reducible apply OnlyP.snd

theorem enterColl_only {F : Nat} {s₀ : State} {c : Cmd} {s : State} {ds : List (Nat × Desc)} {operand : Nat}
    (hs : Only F s₀ s) (hF : Within 1614807136 F) :
    Only F s₀ (enterColl c s ds operand) := by
  unfold enterColl
  repeat' first
    | with_reducible assumption
    | (intro _ _ _ _; try dsimp -zeta only)
    | (intro _ _ _; try dsimp -zeta only)
    | (intro _ _; try dsimp -zeta only)
    | (intro _; try dsimp -zeta only)
    | (extract_lets +onlyGivenNames y; refine cut (p := Only F s₀ y) ?_ (fun _ => ?_); rotate_left; clear_value y; rotate_right; subst y)
    | (extract_lets +onlyGivenNames y; try clear_value y)
    | with_reducible apply State.setColl_only
    | with_reducible apply startColl_only
    | with_reducible exact hF.of (by decide)
    | with_reducible apply Only.ite
    | split

theorem issueColl_only {F : Nat} {s₀ : State} {c : Cmd} {s : State}
    (hs : Only F s₀ s) (hF : Within 1618740328 F) :
    OnlyI F s₀ (issueColl c s) := by
  unfold issueColl
  repeat' first
    | with_reducible assumption
    | (intro _ _ _ _; try dsimp -zeta only)
    | (intro _ _ _; try dsimp -zeta only)
    | (intro _ _; try dsimp -zeta only)
    | (intro _; try dsimp -zeta only)
    | (extract_lets +onlyGivenNames y; refine cut (p := Only F s₀ y) ?_ (fun _ => ?_); rotate_left; clear_value y; rotate_right; subst y)
    | (extract_lets +onlyGivenNames y; refine cut (p := OnlyP F s₀ y) ?_ (fun _ => ?_); rotate_left; clear_value y; rotate_right; subst y)
    | (extract_lets +onlyGivenNames y; refine cut (p := OnlyI F s₀ y) ?_ (fun _ => ?_); rotate_left; clear_value y; rotate_right; subst y)
    | (extract_lets +onlyGivenNames y; try clear_value y)
    | with_reducible apply useAll_only
    | with_reducible apply enterColl_only
    | with_reducible apply loadHinted_only
    | with_reducible exact hF.of (by decide)
    | with_reducible apply Only.ite
    | with_reducible apply OnlyP.ite
    | with_reducible apply OnlyI.ite
    | split
    | with_reducible apply OnlyP.mk'
    | with_reducible apply OnlyI.wait
    | with_reducible apply OnlyI.ofFail
    | with_reducible apply OnlyI.ofRun
    | with_reducible apply OnlyI.ofReady
    | with_reducible apply OnlyI.ofDone
    | with_reducible apply OnlyI.ofBroke
    | with_reducible refine OnlyP.of_eq (by assumption) ?_
    | with_reducible apply OnlyP.snd
    | with_reducible exact OnlyP.elim (by assumption)
    | with_reducible exact OnlyI.fail_eq rfl (by assumption)
    | with_reducible exact OnlyI.run_eq rfl (by assumption)
    | with_reducible exact OnlyI.ready_eq rfl (by assumption)
    | with_reducible exact OnlyI.done_eq rfl (by assumption)
    | with_reducible exact OnlyI.broke_eq rfl (by assumption)
    | with_reducible refine OnlyI.fail_eq (by assumption) ?_
    | with_reducible refine OnlyI.run_eq (by assumption) ?_
    | with_reducible refine OnlyI.ready_eq (by assumption) ?_
    | with_reducible refine OnlyI.done_eq (by assumption) ?_
    | with_reducible refine OnlyI.broke_eq (by assumption) ?_

theorem execCollective_only {F : Nat} {s₀ : State} {g : Fin 16384} {s : State}
    (hs : Only F s₀ s) (hF : Within 36372841576 F) :
    OnlyN F s₀ (execCollective g s) := by
  unfold execCollective
  repeat' first
    | with_reducible assumption
    | (intro _ _ _ _; try dsimp -zeta only)
    | (intro _ _ _; try dsimp -zeta only)
    | (intro _ _; try dsimp -zeta only)
    | (intro _; try dsimp -zeta only)
    | with_reducible apply issue_only
    | with_reducible apply issueColl_only
    | with_reducible exact hF.of (by decide)
    | with_reducible apply OnlyN.next
    | with_reducible apply OnlyI.wait
    | with_reducible apply OnlyI.ofFail
    | with_reducible apply OnlyI.ofRun
    | with_reducible apply OnlyI.ofReady
    | with_reducible apply OnlyI.ofDone
    | with_reducible apply OnlyI.ofBroke
    | with_reducible exact OnlyI.fail_eq rfl (by assumption)
    | with_reducible exact OnlyI.run_eq rfl (by assumption)
    | with_reducible exact OnlyI.ready_eq rfl (by assumption)
    | with_reducible exact OnlyI.done_eq rfl (by assumption)
    | with_reducible exact OnlyI.broke_eq rfl (by assumption)
    | with_reducible refine OnlyI.fail_eq (by assumption) ?_
    | with_reducible refine OnlyI.run_eq (by assumption) ?_
    | with_reducible refine OnlyI.ready_eq (by assumption) ?_
    | with_reducible refine OnlyI.done_eq (by assumption) ?_
    | with_reducible refine OnlyI.broke_eq (by assumption) ?_

theorem openResult_only {F : Nat} {s₀ : State} {s : State} {t : Nat} {c : Coll} {dmin : Nat} {dmax : Nat} {largest : Nat}
    (hs : Only F s₀ s) (hF : Within 36370744424 F) :
    Only F s₀ (openResult s t c dmin dmax largest) := by
  unfold openResult
  repeat' first
    | with_reducible assumption
    | (extract_lets +onlyGivenNames y; refine cut (p := Only F s₀ y) ?_ (fun _ => ?_); rotate_left; clear_value y; rotate_right; subst y)
    | (extract_lets +onlyGivenNames y; try clear_value y)
    | with_reducible apply abortCommand_only
    | with_reducible apply putRunning_only
    | with_reducible apply finishCommand_only
    | with_reducible exact hF.of (by decide)
    | with_reducible apply Only.ite
    | split

theorem wordsResult_only {F : Nat} {s₀ : State} {s : State} {t : Nat} {c : Coll} {ws : List Dword}
    (hs : Only F s₀ s) (hF : Within 173811926120 F) :
    Only F s₀ (wordsResult s t c ws) := by
  unfold wordsResult
  repeat' first
    | with_reducible assumption
    | (intro _ _ _ _; try dsimp -zeta only)
    | (intro _ _ _; try dsimp -zeta only)
    | (intro _ _; try dsimp -zeta only)
    | (intro _; try dsimp -zeta only)
    | (extract_lets +onlyGivenNames y; refine cut (p := Only F s₀ y) ?_ (fun _ => ?_); rotate_left; clear_value y; rotate_right; subst y)
    | (extract_lets +onlyGivenNames y; refine cut (p := OnlyP F s₀ y) ?_ (fun _ => ?_); rotate_left; clear_value y; rotate_right; subst y)
    | (extract_lets +onlyGivenNames y; try clear_value y)
    | with_reducible apply putRunning_only
    | with_reducible apply storeCodes_only
    | with_reducible apply finishCommand_only
    | with_reducible apply abortCommand_only
    | with_reducible exact hF.of (by decide)
    | split
    | with_reducible apply OnlyP.mk'
    | with_reducible refine OnlyP.of_eq (by assumption) ?_
    | with_reducible apply OnlyP.snd
    | with_reducible exact OnlyP.elim (by assumption)

theorem execOpenRoundResult_only {F : Nat} {s₀ : State} {t : Fin 64} {s : State}
    (hs : Only F s₀ s) (hF : Within 173811926120 F) :
    OnlyN F s₀ (execOpenRoundResult t s) := by
  unfold execOpenRoundResult
  repeat' first
    | with_reducible assumption
    | with_reducible apply abortCommand_only
    | with_reducible apply tellMember_only
    | with_reducible apply openResult_only
    | with_reducible apply wordsResult_only
    | with_reducible exact hF.of (by decide)
    | with_reducible apply Only.ite
    | with_reducible apply OnlyN.ite
    | split
    | with_reducible apply OnlyN.next

theorem sourceLine_only {F : Nat} {s₀ : State} {s : State} {t : Nat} {c : Coll} {l : Nat}
    (hs : Only F s₀ s) (hF : Within 3933256 F) :
    OnlyP F s₀ (sourceLine s t c l) := by
  unfold sourceLine
  repeat' first
    | with_reducible assumption
    | (intro _ _ _ _; try dsimp -zeta only)
    | (intro _ _ _; try dsimp -zeta only)
    | (intro _ _; try dsimp -zeta only)
    | (intro _; try dsimp -zeta only)
    | (extract_lets +onlyGivenNames y; refine cut (p := Only F s₀ y) ?_ (fun _ => ?_); rotate_left; clear_value y; rotate_right; subst y)
    | (extract_lets +onlyGivenNames y; refine cut (p := OnlyP F s₀ y) ?_ (fun _ => ?_); rotate_left; clear_value y; rotate_right; subst y)
    | (extract_lets +onlyGivenNames y; try clear_value y)
    | with_reducible apply loadHinted_only
    | with_reducible exact hF.of (by decide)
    | split
    | with_reducible apply OnlyP.mk'
    | with_reducible refine OnlyP.of_eq (by assumption) ?_
    | with_reducible apply OnlyP.snd
    | with_reducible exact OnlyP.elim (by assumption)

theorem readSource_only {F : Nat} {s₀ : State} {s : State} {t : Nat} {c : Coll} {lines : List Nat}
    (hs : Only F s₀ s) (hF : Within 3933256 F) :
    OnlyP F s₀ (readSource s t c lines) := by
  induction lines generalizing s with
  | nil => exact OnlyP.mk' hs
  | cons w ws ih =>
    have h : OnlyP F s₀ (sourceLine s t c w) := sourceLine_only hs (hF.of (by decide))
    unfold readSource
    generalize sourceLine s t c w = y at h
    match y, h with
    | (.error _, _), h => exact OnlyP.mk' h.elim
    | (.ok _, u), h =>
      have h' : OnlyP F s₀ (readSource u t c ws) := ih h.elim
      dsimp only
      generalize readSource u t c ws = z at h'
      match z, h' with
      | (.error _, _), h' => exact OnlyP.mk' h'.elim
      | (.ok _, _), h' => exact OnlyP.mk' h'.elim

theorem placeChunk_only {F : Nat} {s₀ : State} {s : State} {t : Nat} {c : Coll} {k : Nat} {ls : List Line}
    (hs : Only F s₀ s) (hF : Within 137710404680 F) :
    Only F s₀ (placeChunk s t c k ls) := by
  unfold placeChunk
  repeat' first
    | with_reducible assumption
    | (intro _ _ _ _; try dsimp -zeta only)
    | (intro _ _ _; try dsimp -zeta only)
    | (intro _ _; try dsimp -zeta only)
    | (intro _; try dsimp -zeta only)
    | with_reducible apply writeLines_only
    | with_reducible exact hF.of (by decide)

theorem copyOwn_only {F : Nat} {s₀ : State} {s : State} {t : Nat} {c : Coll} {k : Nat} {ls : List Line}
    (hs : Only F s₀ s) (hF : Within 137711453256 F) :
    OnlyP F s₀ (copyOwn s t c k ls) := by
  unfold copyOwn
  repeat' first
    | with_reducible assumption
    | (intro _ _ _ _; try dsimp -zeta only)
    | (intro _ _ _; try dsimp -zeta only)
    | (intro _ _; try dsimp -zeta only)
    | (intro _; try dsimp -zeta only)
    | (extract_lets +onlyGivenNames y; refine cut (p := Only F s₀ y) ?_ (fun _ => ?_); rotate_left; clear_value y; rotate_right; subst y)
    | (extract_lets +onlyGivenNames y; refine cut (p := OnlyP F s₀ y) ?_ (fun _ => ?_); rotate_left; clear_value y; rotate_right; subst y)
    | (extract_lets +onlyGivenNames y; try clear_value y)
    | with_reducible apply storeCodes_only
    | with_reducible exact hF.of (by decide)
    | with_reducible apply Only.ite
    | with_reducible apply OnlyP.ite
    | split
    | with_reducible apply OnlyP.mk'
    | with_reducible refine OnlyP.of_eq (by assumption) ?_
    | with_reducible apply OnlyP.snd
    | with_reducible exact OnlyP.elim (by assumption)

theorem enterChunk_only {F : Nat} {s₀ : State} {s : State} {t : Nat} {c : Coll} {k : Nat}
    (hs : Only F s₀ s) (hF : Within 173811860584 F) :
    Only F s₀ (enterChunk s t c k) := by
  unfold enterChunk
  repeat' first
    | with_reducible assumption
    | (intro _ _ _ _; try dsimp -zeta only)
    | (intro _ _ _; try dsimp -zeta only)
    | (intro _ _; try dsimp -zeta only)
    | (intro _; try dsimp -zeta only)
    | (extract_lets +onlyGivenNames y; refine cut (p := Only F s₀ y) ?_ (fun _ => ?_); rotate_left; clear_value y; rotate_right; subst y)
    | (extract_lets +onlyGivenNames y; refine cut (p := OnlyP F s₀ y) ?_ (fun _ => ?_); rotate_left; clear_value y; rotate_right; subst y)
    | (extract_lets +onlyGivenNames y; try clear_value y)
    | with_reducible apply readSource_only
    | with_reducible apply placeChunk_only
    | with_reducible apply copyOwn_only
    | with_reducible apply putRunning_only
    | with_reducible apply abortCommand_only
    | with_reducible exact hF.of (by decide)
    | with_reducible apply Only.ite
    | with_reducible apply OnlyP.ite
    | split
    | with_reducible apply OnlyP.mk'
    | with_reducible refine OnlyP.of_eq (by assumption) ?_
    | with_reducible apply OnlyP.snd
    | with_reducible exact OnlyP.elim (by assumption)

theorem sendExchange_only {F : Nat} {s₀ : State} {s : State} {t : Nat} {c : Coll} {x : Chunk} {e : Exchange}
    (hs : Only F s₀ s) (hF : Within 268436552 F) :
    Only F s₀ (sendExchange s t c x e) := by
  unfold sendExchange
  repeat' first
    | with_reducible assumption
    | (intro _ _ _ _; try dsimp -zeta only)
    | (intro _ _ _; try dsimp -zeta only)
    | (intro _ _; try dsimp -zeta only)
    | (intro _; try dsimp -zeta only)
    | with_reducible apply sendColl_only
    | with_reducible exact hF.of (by decide)
    | with_reducible apply Only.foldl

theorem endExchange_only {F : Nat} {s₀ : State} {s : State} {t : Nat} {c : Coll} {x : Chunk} {e : Exchange}
    (hs : Only F s₀ s) (hF : Within 138247275592 F) :
    Only F s₀ (endExchange s t c x e) := by
  unfold endExchange
  repeat' first
    | with_reducible assumption
    | (intro _ _ _ _; try dsimp -zeta only)
    | (intro _ _ _; try dsimp -zeta only)
    | (intro _ _; try dsimp -zeta only)
    | (intro _; try dsimp -zeta only)
    | (extract_lets +onlyGivenNames y; refine cut (p := Only F s₀ y) ?_ (fun _ => ?_); rotate_left; clear_value y; rotate_right; subst y)
    | (extract_lets +onlyGivenNames y; try clear_value y)
    | with_reducible apply putRunning_only
    | with_reducible apply writeLines_only
    | with_reducible exact hF.of (by decide)
    | with_reducible apply Only.foldl
    | with_reducible apply Only.ite
    | split

theorem exchangeStep_only {F : Nat} {s₀ : State} {s : State} {t : Nat} {c : Coll} {x : Chunk} {e : Exchange}
    (hs : Only F s₀ s) (hF : Within 138247275592 F) :
    Only F s₀ (exchangeStep s t c x e) := by
  unfold exchangeStep
  repeat' first
    | with_reducible assumption
    | (intro _ _ _ _; try dsimp -zeta only)
    | (intro _ _ _; try dsimp -zeta only)
    | (intro _ _; try dsimp -zeta only)
    | (intro _; try dsimp -zeta only)
    | (extract_lets +onlyGivenNames y; refine cut (p := Only F s₀ y) ?_ (fun _ => ?_); rotate_left; clear_value y; rotate_right; subst y)
    | (extract_lets +onlyGivenNames y; try clear_value y)
    | with_reducible apply sendExchange_only
    | with_reducible apply endExchange_only
    | with_reducible apply putRunning_only
    | with_reducible exact hF.of (by decide)
    | with_reducible apply Only.ite
    | split

theorem leaveChunk_only {F : Nat} {s₀ : State} {s : State} {t : Nat} {c : Coll} {x : Chunk}
    (hs : Only F s₀ s) (hF : Within 173811926120 F) :
    Only F s₀ (leaveChunk s t c x) := by
  unfold leaveChunk
  repeat' first
    | with_reducible assumption
    | (intro _ _ _ _; try dsimp -zeta only)
    | (intro _ _ _; try dsimp -zeta only)
    | (intro _ _; try dsimp -zeta only)
    | (intro _; try dsimp -zeta only)
    | (extract_lets +onlyGivenNames y; refine cut (p := Only F s₀ y) ?_ (fun _ => ?_); rotate_left; clear_value y; rotate_right; subst y)
    | (extract_lets +onlyGivenNames y; refine cut (p := OnlyP F s₀ y) ?_ (fun _ => ?_); rotate_left; clear_value y; rotate_right; subst y)
    | (extract_lets +onlyGivenNames y; try clear_value y)
    | with_reducible apply putRunning_only
    | with_reducible apply storeCodes_only
    | with_reducible apply finishCommand_only
    | with_reducible apply abortCommand_only
    | with_reducible exact hF.of (by decide)
    | with_reducible apply Only.ite
    | with_reducible apply OnlyP.ite
    | split
    | with_reducible apply OnlyP.mk'
    | with_reducible refine OnlyP.of_eq (by assumption) ?_
    | with_reducible apply OnlyP.snd
    | with_reducible exact OnlyP.elim (by assumption)

theorem stepChunk_only {F : Nat} {s₀ : State} {s : State} {t : Nat} {c : Coll} {x : Chunk}
    (hs : Only F s₀ s) (hF : Within 173811926120 F) :
    Only F s₀ (stepChunk s t c x) := by
  unfold stepChunk
  repeat' first
    | with_reducible assumption
    | (intro _ _ _ _; try dsimp -zeta only)
    | (intro _ _ _; try dsimp -zeta only)
    | (intro _ _; try dsimp -zeta only)
    | (intro _; try dsimp -zeta only)
    | with_reducible apply exchangeStep_only
    | with_reducible apply leaveChunk_only
    | with_reducible exact hF.of (by decide)
    | split

theorem execCollectiveChunkStep_only {F : Nat} {s₀ : State} {t : Fin 64} {chunk : Nat} {step : Nat} {s : State}
    (hs : Only F s₀ s) (hF : Within 173811926120 F) :
    OnlyN F s₀ (execCollectiveChunkStep t chunk step s) := by
  unfold execCollectiveChunkStep
  repeat' first
    | with_reducible assumption
    | (intro _ _ _ _; try dsimp -zeta only)
    | (intro _ _ _; try dsimp -zeta only)
    | (intro _ _; try dsimp -zeta only)
    | (intro _; try dsimp -zeta only)
    | with_reducible apply directStep_only
    | with_reducible apply enterChunk_only
    | with_reducible apply stepChunk_only
    | with_reducible exact hF.of (by decide)
    | with_reducible apply Only.ite
    | with_reducible apply OnlyN.ite
    | split
    | with_reducible apply OnlyN.next

theorem execCollectiveTimeout_only {F : Nat} {s₀ : State} {t : Fin 64} {s : State}
    (hs : Only F s₀ s) (hF : Within 36370678894 F) :
    OnlyN F s₀ (execCollectiveTimeout t s) := by
  unfold execCollectiveTimeout
  repeat' first
    | with_reducible assumption
    | (extract_lets +onlyGivenNames y; refine cut (p := Only F s₀ y) ?_ (fun _ => ?_); rotate_left; clear_value y; rotate_right; subst y)
    | (extract_lets +onlyGivenNames y; try clear_value y)
    | with_reducible apply passToTime_only
    | with_reducible apply abortCommand_only
    | with_reducible apply State.count32_only
    | with_reducible exact hF.of (by decide)
    | with_reducible apply Only.ite
    | with_reducible apply OnlyN.ite
    | split
    | with_reducible apply OnlyN.next

theorem execOpenRoundHoldoffExpiry_only {F : Nat} {s₀ : State} {t : Fin 64} {team : Fin 64} {s : State}
    (hs : Only F s₀ s) (hF : Within 1614807142 F) :
    OnlyN F s₀ (execOpenRoundHoldoffExpiry t team s) := by
  unfold execOpenRoundHoldoffExpiry
  repeat' first
    | with_reducible assumption
    | (extract_lets +onlyGivenNames y; refine cut (p := Only F s₀ y) ?_ (fun _ => ?_); rotate_left; clear_value y; rotate_right; subst y)
    | (extract_lets +onlyGivenNames y; try clear_value y)
    | with_reducible apply State.passTo_only
    | with_reducible apply startColl_only
    | with_reducible apply State.setColl_only
    | with_reducible exact hF.of (by decide)
    | with_reducible apply Only.ite
    | with_reducible apply OnlyN.ite
    | split
    | with_reducible apply OnlyN.next

end Sys2Proof.Machine
end

