-- ==== Sys2Proof/Laws/OnlyDomains.lean ====
section
/-! SUPPORT. What each operation of Sys2Proof/Machine/Domains.lean may change. -/

namespace Sys2Proof.Machine

open Sys2Proof

theorem sampleStraps_only {F : Nat} {s₀ : State} {s : State} {k : Nat}
    (hs : Only F s₀ s) (hF : Within 134217728 F) :
    Only F s₀ (sampleStraps s k) := by
  unfold sampleStraps
  repeat' first
    | with_reducible assumption
    | (extract_lets +onlyGivenNames y; refine cut (p := Only F s₀ y) ?_ (fun _ => ?_); rotate_left; clear_value y; rotate_right; subst y)
    | (extract_lets +onlyGivenNames y; try clear_value y)
    | with_reducible exact hF.of (by decide)
    | with_reducible apply Only.panel

theorem wantOn_only {F : Nat} {s₀ : State} {s : State} {d : Nat}
    (hs : Only F s₀ s) (hF : Within 2199023255552 F) :
    Only F s₀ (wantOn s d) := by
  unfold wantOn
  repeat' first
    | with_reducible assumption
    | (intro _ _ _ _; try dsimp -zeta only)
    | (intro _ _ _; try dsimp -zeta only)
    | (intro _ _; try dsimp -zeta only)
    | (intro _; try dsimp -zeta only)
    | (extract_lets +onlyGivenNames y; refine cut (p := Only F s₀ y) ?_ (fun _ => ?_); rotate_left; clear_value y; rotate_right; subst y)
    | (extract_lets +onlyGivenNames y; try clear_value y)
    | with_reducible exact hF.of (by decide)
    | with_reducible apply Only.ite
    | split
    | with_reducible apply Only.power

theorem wantOff_only {F : Nat} {s₀ : State} {s : State} {d : Nat}
    (hs : Only F s₀ s) (hF : Within 2199023255552 F) :
    Only F s₀ (wantOff s d) := by
  unfold wantOff
  repeat' first
    | with_reducible assumption
    | (intro _ _ _ _; try dsimp -zeta only)
    | (intro _ _ _; try dsimp -zeta only)
    | (intro _ _; try dsimp -zeta only)
    | (intro _; try dsimp -zeta only)
    | (extract_lets +onlyGivenNames y; refine cut (p := Only F s₀ y) ?_ (fun _ => ?_); rotate_left; clear_value y; rotate_right; subst y)
    | (extract_lets +onlyGivenNames y; try clear_value y)
    | with_reducible exact hF.of (by decide)
    | with_reducible apply Only.ite
    | split
    | with_reducible apply Only.power

theorem railOn_only {F : Nat} {s₀ : State} {s : State} {d : Nat}
    (hs : Only F s₀ s) (hF : Within 2199023255552 F) :
    Only F s₀ (railOn s d) := by
  unfold railOn
  repeat' first
    | with_reducible assumption
    | (extract_lets +onlyGivenNames y; refine cut (p := Only F s₀ y) ?_ (fun _ => ?_); rotate_left; clear_value y; rotate_right; subst y)
    | (extract_lets +onlyGivenNames y; try clear_value y)
    | with_reducible exact hF.of (by decide)
    | with_reducible apply Only.power

theorem railGood_only {F : Nat} {s₀ : State} {s : State} {d : Nat}
    (hs : Only F s₀ s) (hF : Within 2199157473280 F) :
    Only F s₀ (railGood s d) := by
  unfold railGood
  repeat' first
    | with_reducible assumption
    | (extract_lets +onlyGivenNames y; refine cut (p := Only F s₀ y) ?_ (fun _ => ?_); rotate_left; clear_value y; rotate_right; subst y)
    | (extract_lets +onlyGivenNames y; try clear_value y)
    | with_reducible apply sampleStraps_only
    | with_reducible exact hF.of (by decide)
    | split
    | with_reducible apply Only.power

theorem railOff_only {F : Nat} {s₀ : State} {s : State} {d : Nat}
    (hs : Only F s₀ s) (hF : Within 2199162585088 F) :
    Only F s₀ (railOff s d) := by
  unfold railOff
  repeat' first
    | with_reducible assumption
    | (intro _ _ _ _; try dsimp -zeta only)
    | (intro _ _ _; try dsimp -zeta only)
    | (intro _ _; try dsimp -zeta only)
    | (intro _; try dsimp -zeta only)
    | (extract_lets +onlyGivenNames y; refine cut (p := Only F s₀ y) ?_ (fun _ => ?_); rotate_left; clear_value y; rotate_right; subst y)
    | (extract_lets +onlyGivenNames y; try clear_value y)
    | with_reducible apply State.modTile_only
    | with_reducible apply clearWhere_only
    | with_reducible exact hF.of (by decide)
    | with_reducible apply Only.ite
    | split
    | with_reducible apply Only.power
    | with_reducible apply Only.panel

end Sys2Proof.Machine
end

