-- ==== Sys2Proof/Laws/OnlyOptical.lean ====
section
/-! SUPPORT. What each operation of Sys2Proof/Machine/Optical.lean may change. -/

namespace Sys2Proof.Machine

open Sys2Proof

theorem setHeater_only {F : Nat} {s₀ : State} {s : State} {n : Nat} {r : Nat} {c : Nat}
    (hs : Only F s₀ s) (hF : Within 2147483648 F) :
    Only F s₀ (setHeater s n r c) := by
  unfold setHeater
  repeat' first
    | with_reducible assumption
    | (extract_lets +onlyGivenNames y; refine cut (p := Only F s₀ y) ?_ (fun _ => ?_); rotate_left; clear_value y; rotate_right; subst y)
    | (extract_lets +onlyGivenNames y; try clear_value y)
    | with_reducible apply State.setLantern_only
    | with_reducible exact hF.of (by decide)

theorem stopCal_only {F : Nat} {s₀ : State} {s : State} {n : Nat} {m : Nat}
    (hs : Only F s₀ s) (hF : Within 2147483712 F) :
    Only F s₀ (stopCal s n m) := by
  unfold stopCal
  repeat' first
    | with_reducible assumption
    | (intro _ _ _ _; try dsimp -zeta only)
    | (intro _ _ _; try dsimp -zeta only)
    | (intro _ _; try dsimp -zeta only)
    | (intro _; try dsimp -zeta only)
    | (extract_lets +onlyGivenNames y; refine cut (p := Only F s₀ y) ?_ (fun _ => ?_); rotate_left; clear_value y; rotate_right; subst y)
    | (extract_lets +onlyGivenNames y; try clear_value y)
    | with_reducible apply setHeater_only
    | with_reducible apply State.setBundle_only
    | with_reducible apply State.count32_only
    | with_reducible exact hF.of (by decide)
    | with_reducible apply Only.foldl
    | with_reducible apply OnlyP.foldl
    | with_reducible apply OnlyF.foldl
    | with_reducible apply Only.ite
    | with_reducible apply OnlyP.ite
    | with_reducible apply OnlyF.ite
    | split
    | with_reducible apply OnlyP.mk'
    | with_reducible apply OnlyF.mk'
    | with_reducible refine OnlyP.of_eq (by assumption) ?_
    | with_reducible apply OnlyP.snd
    | with_reducible exact OnlyP.elim (by assumption)
    | with_reducible refine OnlyF.of_eq (by assumption) ?_
    | with_reducible apply OnlyF.fst
    | with_reducible exact OnlyF.elim (by assumption)

theorem planMove_only {F : Nat} {s₀ : State} {s : State} {n : Nat} {m : Nat} {e : BitVec 64} {instant : Nat}
    (hs : Only F s₀ s) (hF : Within 2147483648 F) :
    Only F s₀ (planMove s n m e instant) := by
  unfold planMove
  repeat' first
    | with_reducible assumption
    | (extract_lets +onlyGivenNames y; refine cut (p := Only F s₀ y) ?_ (fun _ => ?_); rotate_left; clear_value y; rotate_right; subst y)
    | (extract_lets +onlyGivenNames y; try clear_value y)
    | with_reducible apply State.setBundle_only
    | with_reducible exact hF.of (by decide)

theorem relight_only {F : Nat} {s₀ : State} {s : State} {n : Nat}
    (hs : Only F s₀ s) (hF : Within 2147483712 F) :
    Only F s₀ (relight s n) := by
  unfold relight
  repeat' first
    | with_reducible assumption
    | (intro _ _ _ _; try dsimp -zeta only)
    | (intro _ _ _; try dsimp -zeta only)
    | (intro _ _; try dsimp -zeta only)
    | (intro _; try dsimp -zeta only)
    | (extract_lets +onlyGivenNames y; refine cut (p := Only F s₀ y) ?_ (fun _ => ?_); rotate_left; clear_value y; rotate_right; subst y)
    | (extract_lets +onlyGivenNames y; try clear_value y)
    | with_reducible apply stopCal_only
    | with_reducible apply planMove_only
    | with_reducible exact hF.of (by decide)
    | with_reducible apply Only.each
    | with_reducible apply Only.ite
    | split

theorem clearLinks_only {F : Nat} {s₀ : State} {s : State} {n : Nat} {m : Nat}
    (hs : Only F s₀ s) (hF : Within 268435456 F) :
    Only F s₀ (clearLinks s n m) := by
  unfold clearLinks
  repeat' first
    | with_reducible assumption
    | (intro _ _ _ _; try dsimp -zeta only)
    | (intro _ _ _; try dsimp -zeta only)
    | (intro _ _; try dsimp -zeta only)
    | (intro _; try dsimp -zeta only)
    | with_reducible apply State.setLink_only
    | with_reducible exact hF.of (by decide)
    | with_reducible apply Only.each

theorem freshLinks_only {F : Nat} {s₀ : State} {s : State} {n : Nat} {m : Nat}
    (hs : Only F s₀ s) (hF : Within 268435456 F) :
    Only F s₀ (freshLinks s n m) := by
  unfold freshLinks
  repeat' first
    | with_reducible assumption
    | (intro _ _ _ _; try dsimp -zeta only)
    | (intro _ _ _; try dsimp -zeta only)
    | (intro _ _; try dsimp -zeta only)
    | (intro _; try dsimp -zeta only)
    | with_reducible apply State.setLink_only
    | with_reducible exact hF.of (by decide)
    | with_reducible apply Only.each
    | with_reducible apply Only.ite
    | split

theorem parkBundle_only {F : Nat} {s₀ : State} {s : State} {n : Nat} {m : Nat}
    (hs : Only F s₀ s) (hF : Within 144149840968 F) :
    Only F s₀ (parkBundle s n m) := by
  unfold parkBundle
  repeat' first
    | with_reducible assumption
    | (intro _ _ _ _; try dsimp -zeta only)
    | (intro _ _ _; try dsimp -zeta only)
    | (intro _ _; try dsimp -zeta only)
    | (intro _; try dsimp -zeta only)
    | (extract_lets +onlyGivenNames y; refine cut (p := Only F s₀ y) ?_ (fun _ => ?_); rotate_left; clear_value y; rotate_right; subst y)
    | (extract_lets +onlyGivenNames y; try clear_value y)
    | with_reducible apply linkDown_only
    | with_reducible apply State.setBundle_only
    | with_reducible exact hF.of (by decide)
    | with_reducible apply Only.each
    | with_reducible apply Only.ite
    | split

theorem moveNow_only {F : Nat} {s₀ : State} {s : State} {n : Nat} {m : Nat} {mv : StileMove}
    (hs : Only F s₀ s) (hF : Within 2415920200 F) :
    Only F s₀ (moveNow s n m mv) := by
  unfold moveNow
  repeat' first
    | with_reducible assumption
    | (intro _ _ _ _; try dsimp -zeta only)
    | (intro _ _ _; try dsimp -zeta only)
    | (intro _ _; try dsimp -zeta only)
    | (intro _; try dsimp -zeta only)
    | (extract_lets +onlyGivenNames y; refine cut (p := Only F s₀ y) ?_ (fun _ => ?_); rotate_left; clear_value y; rotate_right; subst y)
    | (extract_lets +onlyGivenNames y; try clear_value y)
    | with_reducible apply checkDirs_only
    | with_reducible apply State.count64_only
    | with_reducible apply State.setBundle_only
    | with_reducible apply clearLinks_only
    | with_reducible apply freshLinks_only
    | with_reducible exact hF.of (by decide)
    | with_reducible apply Only.ite
    | split

theorem execStileMoveStart_only {F : Nat} {s₀ : State} {n : Fin 8} {m : Fin 32} {s : State}
    (hs : Only F s₀ s) (hF : Within 3489662030 F) :
    OnlyN F s₀ (execStileMoveStart n m s) := by
  unfold execStileMoveStart
  repeat' first
    | with_reducible assumption
    | (extract_lets +onlyGivenNames y; refine cut (p := Only F s₀ y) ?_ (fun _ => ?_); rotate_left; clear_value y; rotate_right; subst y)
    | (extract_lets +onlyGivenNames y; try clear_value y)
    | with_reducible apply State.passTo_only
    | with_reducible apply passToTime_only
    | with_reducible apply State.count32_only
    | with_reducible apply moveNow_only
    | with_reducible exact hF.of (by decide)
    | with_reducible apply Only.ite
    | with_reducible apply OnlyN.ite
    | split
    | with_reducible apply OnlyN.next

theorem execStileMoveCheck_only {F : Nat} {s₀ : State} {n : Fin 8} {m : Fin 32} {good : Bool} {s : State}
    (hs : Only F s₀ s) (hF : Within 144149840968 F) :
    OnlyN F s₀ (execStileMoveCheck n m good s) := by
  unfold execStileMoveCheck
  repeat' first
    | with_reducible assumption
    | (intro _ _ _ _; try dsimp -zeta only)
    | (intro _ _ _; try dsimp -zeta only)
    | (intro _ _; try dsimp -zeta only)
    | (intro _; try dsimp -zeta only)
    | (extract_lets +onlyGivenNames y; refine cut (p := Only F s₀ y) ?_ (fun _ => ?_); rotate_left; clear_value y; rotate_right; subst y)
    | (extract_lets +onlyGivenNames y; try clear_value y)
    | with_reducible apply post_only
    | with_reducible apply State.count32_only
    | with_reducible apply State.setLantern_only
    | with_reducible apply parkBundle_only
    | with_reducible exact hF.of (by decide)
    | with_reducible apply Only.each
    | with_reducible apply Only.foldl
    | with_reducible apply Only.ite
    | with_reducible apply OnlyN.ite
    | split
    | with_reducible apply OnlyN.next

theorem execLinkLit_only {F : Nat} {s₀ : State} {n : Fin 8} {m : Fin 32} {s : State}
    (hs : Only F s₀ s) (hF : Within 3489660966 F) :
    OnlyN F s₀ (execLinkLit n m s) := by
  unfold execLinkLit
  repeat' first
    | with_reducible assumption
    | (intro _ _ _ _; try dsimp -zeta only)
    | (intro _ _ _; try dsimp -zeta only)
    | (intro _ _; try dsimp -zeta only)
    | (intro _; try dsimp -zeta only)
    | (extract_lets +onlyGivenNames y; refine cut (p := Only F s₀ y) ?_ (fun _ => ?_); rotate_left; clear_value y; rotate_right; subst y)
    | (extract_lets +onlyGivenNames y; try clear_value y)
    | with_reducible apply transmit_only
    | with_reducible apply State.passTo_only
    | with_reducible apply State.setLink_only
    | with_reducible apply State.setBundle_only
    | with_reducible exact hF.of (by decide)
    | with_reducible apply Only.ite
    | with_reducible apply OnlyN.ite
    | split
    | with_reducible apply OnlyN.next

theorem execBundleLockTimeout_only {F : Nat} {s₀ : State} {n : Fin 8} {m : Fin 32} {s : State}
    (hs : Only F s₀ s) (hF : Within 145223582798 F) :
    OnlyN F s₀ (execBundleLockTimeout n m s) := by
  unfold execBundleLockTimeout
  repeat' first
    | with_reducible assumption
    | (intro _ _ _ _; try dsimp -zeta only)
    | (intro _ _ _; try dsimp -zeta only)
    | (intro _ _; try dsimp -zeta only)
    | (intro _; try dsimp -zeta only)
    | (extract_lets +onlyGivenNames y; refine cut (p := Only F s₀ y) ?_ (fun _ => ?_); rotate_left; clear_value y; rotate_right; subst y)
    | (extract_lets +onlyGivenNames y; try clear_value y)
    | with_reducible apply post_only
    | with_reducible apply linkDown_only
    | with_reducible apply State.passTo_only
    | with_reducible apply State.setBundle_only
    | with_reducible exact hF.of (by decide)
    | with_reducible apply Only.ite
    | with_reducible apply OnlyN.ite
    | split
    | with_reducible apply OnlyN.next

theorem keepWait_only {F : Nat} {s₀ : State} {s : State} {n : Nat} {m : Nat} {b : Bundle}
    (hs : Only F s₀ s) (hF : Within 268435456 F) :
    Only F s₀ (keepWait s n m b) := by
  unfold keepWait
  repeat' first
    | with_reducible assumption
    | (intro _ _ _ _; try dsimp -zeta only)
    | (intro _ _ _; try dsimp -zeta only)
    | (intro _ _; try dsimp -zeta only)
    | (intro _; try dsimp -zeta only)
    | (extract_lets +onlyGivenNames y; refine cut (p := Only F s₀ y) ?_ (fun _ => ?_); rotate_left; clear_value y; rotate_right; subst y)
    | (extract_lets +onlyGivenNames y; try clear_value y)
    | with_reducible apply State.setLink_only
    | with_reducible exact hF.of (by decide)
    | split

theorem nextSlot_only {F : Nat} {s₀ : State} {n : Nat} {m : Nat} {s : State}
    (hs : Only F s₀ s) (hF : Within 3489660998 F) :
    Only F s₀ (nextSlot n m s) := by
  unfold nextSlot
  repeat' first
    | with_reducible assumption
    | (intro _ _ _ _; try dsimp -zeta only)
    | (intro _ _ _; try dsimp -zeta only)
    | (intro _ _; try dsimp -zeta only)
    | (intro _; try dsimp -zeta only)
    | (extract_lets +onlyGivenNames y; refine cut (p := Only F s₀ y) ?_ (fun _ => ?_); rotate_left; clear_value y; rotate_right; subst y)
    | (extract_lets +onlyGivenNames y; try clear_value y)
    | with_reducible apply reroute_only
    | with_reducible apply passToTime_only
    | with_reducible apply State.count64_only
    | with_reducible apply State.setLink_only
    | with_reducible apply State.setBundle_only
    | with_reducible apply keepWait_only
    | with_reducible exact hF.of (by decide)
    | with_reducible apply Only.ite
    | split

theorem execRotationSlot_only {F : Nat} {s₀ : State} {n : Fin 8} {s : State}
    (hs : Only F s₀ s) (hF : Within 3489660998 F) :
    OnlyN F s₀ (execRotationSlot n s) := by
  unfold execRotationSlot
  repeat' first
    | with_reducible assumption
    | (intro _ _ _ _; try dsimp -zeta only)
    | (intro _ _ _; try dsimp -zeta only)
    | (intro _ _; try dsimp -zeta only)
    | (intro _; try dsimp -zeta only)
    | with_reducible apply nextSlot_only
    | with_reducible exact hF.of (by decide)
    | with_reducible apply Only.each
    | with_reducible apply Only.ite
    | with_reducible apply OnlyN.ite
    | split
    | with_reducible apply OnlyN.next

theorem execLinkDrained_only {F : Nat} {s₀ : State} {l : ModLink} {s : State}
    (hs : Only F s₀ s) (hF : Within 5637144582 F) :
    OnlyN F s₀ (execLinkDrained l s) := by
  unfold execLinkDrained
  repeat' first
    | with_reducible assumption
    | (extract_lets +onlyGivenNames y; refine cut (p := Only F s₀ y) ?_ (fun _ => ?_); rotate_left; clear_value y; rotate_right; subst y)
    | (extract_lets +onlyGivenNames y; try clear_value y)
    | with_reducible apply State.setLink_only
    | with_reducible apply passToTime_only
    | with_reducible apply reroute_only
    | with_reducible apply State.setCopper_only
    | with_reducible exact hF.of (by decide)
    | with_reducible apply Only.ite
    | with_reducible apply OnlyN.ite
    | split
    | with_reducible apply OnlyN.next

theorem roundEighths_only {F : Nat} {s₀ : State} {s : State} {x : Int}
    (hs : Only F s₀ s) (hF : Within 8 F) :
    OnlyP F s₀ (roundEighths s x) := by
  unfold roundEighths
  repeat' first
    | with_reducible assumption
    | with_reducible apply State.used_only
    | with_reducible exact hF.of (by decide)
    | with_reducible apply Only.ite
    | with_reducible apply OnlyP.ite
    | split
    | with_reducible apply OnlyP.mk'
    | with_reducible refine OnlyP.of_eq (by assumption) ?_
    | with_reducible apply OnlyP.snd
    | with_reducible exact OnlyP.elim (by assumption)

theorem followTable_only {F : Nat} {s₀ : State} {n : Nat} {m : Nat} {r : Nat} {s : State}
    (hs : Only F s₀ s) (hF : Within 2147483656 F) :
    Only F s₀ (followTable n m r s) := by
  unfold followTable
  repeat' first
    | with_reducible assumption
    | (extract_lets +onlyGivenNames y; refine cut (p := Only F s₀ y) ?_ (fun _ => ?_); rotate_left; clear_value y; rotate_right; subst y)
    | (extract_lets +onlyGivenNames y; refine cut (p := OnlyP F s₀ y) ?_ (fun _ => ?_); rotate_left; clear_value y; rotate_right; subst y)
    | (extract_lets +onlyGivenNames y; try clear_value y)
    | with_reducible apply roundEighths_only
    | with_reducible apply setHeater_only
    | with_reducible exact hF.of (by decide)
    | with_reducible apply Only.ite
    | with_reducible apply OnlyP.ite
    | split
    | with_reducible apply OnlyP.mk'
    | with_reducible refine OnlyP.of_eq (by assumption) ?_
    | with_reducible apply OnlyP.snd
    | with_reducible exact OnlyP.elim (by assumption)

theorem execRingHeaterUpdate_only {F : Nat} {s₀ : State} {n : Fin 8} {readings : List Int} {s : State}
    (hs : Only F s₀ s) (hF : Within 2147483720 F) :
    OnlyN F s₀ (execRingHeaterUpdate n readings s) := by
  unfold execRingHeaterUpdate
  repeat' first
    | with_reducible assumption
    | (intro _ _ _ _; try dsimp -zeta only)
    | (intro _ _ _; try dsimp -zeta only)
    | (intro _ _; try dsimp -zeta only)
    | (intro _; try dsimp -zeta only)
    | (extract_lets +onlyGivenNames y; refine cut (p := Only F s₀ y) ?_ (fun _ => ?_); rotate_left; clear_value y; rotate_right; subst y)
    | (extract_lets +onlyGivenNames y; refine cut (p := ∀ u, Only F s₀ u → Only F s₀ (y u)) ?_ (fun hy => ?_); rotate_left; clear_value y; rotate_right; subst y)
    | (extract_lets +onlyGivenNames y; try clear_value y)
    | with_reducible apply State.setReg_only
    | with_reducible apply followTable_only
    | with_reducible exact hF.of (by decide)
    | with_reducible apply Only.each
    | with_reducible apply hy
    | with_reducible apply Only.ite
    | with_reducible apply OnlyN.ite
    | split
    | with_reducible apply OnlyN.next

theorem setUrgent_only {F : Nat} {s₀ : State} {s : State} {n : Nat} {m : Nat} {why : Nat}
    (hs : Only F s₀ s) (hF : Within 2147484680 F) :
    Only F s₀ (setUrgent s n m why) := by
  unfold setUrgent
  repeat' first
    | with_reducible assumption
    | (extract_lets +onlyGivenNames y; refine cut (p := Only F s₀ y) ?_ (fun _ => ?_); rotate_left; clear_value y; rotate_right; subst y)
    | (extract_lets +onlyGivenNames y; try clear_value y)
    | with_reducible apply post_only
    | with_reducible apply State.setBundle_only
    | with_reducible exact hF.of (by decide)
    | with_reducible apply Only.ite
    | split

theorem execDriftUpdate_only {F : Nat} {s₀ : State} {n : Fin 8} {m : Fin 32} {distances : List Nat} {s : State}
    (hs : Only F s₀ s) (hF : Within 2147484680 F) :
    OnlyN F s₀ (execDriftUpdate n m distances s) := by
  unfold execDriftUpdate
  repeat' first
    | with_reducible assumption
    | (intro _ _ _ _; try dsimp -zeta only)
    | (intro _ _ _; try dsimp -zeta only)
    | (intro _ _; try dsimp -zeta only)
    | (intro _; try dsimp -zeta only)
    | (extract_lets +onlyGivenNames y; refine cut (p := Only F s₀ y) ?_ (fun _ => ?_); rotate_left; clear_value y; rotate_right; subst y)
    | (extract_lets +onlyGivenNames y; try clear_value y)
    | with_reducible apply State.setBundle_only
    | with_reducible apply setUrgent_only
    | with_reducible exact hF.of (by decide)
    | with_reducible apply Only.foldl
    | with_reducible apply OnlyP.foldl
    | with_reducible apply OnlyF.foldl
    | with_reducible apply Only.ite
    | with_reducible apply OnlyP.ite
    | with_reducible apply OnlyF.ite
    | with_reducible apply OnlyN.ite
    | split
    | with_reducible apply OnlyN.next
    | with_reducible apply OnlyP.mk'
    | with_reducible apply OnlyF.mk'
    | with_reducible refine OnlyP.of_eq (by assumption) ?_
    | with_reducible apply OnlyP.snd
    | with_reducible exact OnlyP.elim (by assumption)
    | with_reducible refine OnlyF.of_eq (by assumption) ?_
    | with_reducible apply OnlyF.fst
    | with_reducible exact OnlyF.elim (by assumption)

theorem execCalUrgent_only {F : Nat} {s₀ : State} {n : Fin 8} {m : Fin 32} {s : State}
    (hs : Only F s₀ s) (hF : Within 3221226510 F) :
    OnlyN F s₀ (execCalUrgent n m s) := by
  unfold execCalUrgent
  repeat' first
    | with_reducible assumption
    | with_reducible apply setUrgent_only
    | with_reducible apply passToTime_only
    | with_reducible exact hF.of (by decide)
    | with_reducible apply Only.ite
    | with_reducible apply OnlyN.ite
    | split
    | with_reducible apply OnlyN.next

theorem beginCal_only {F : Nat} {s₀ : State} {s : State} {n : Nat} {m : Nat}
    (hs : Only F s₀ s) (hF : Within 2147483648 F) :
    Only F s₀ (beginCal s n m) := by
  unfold beginCal
  repeat' first
    | with_reducible assumption
    | (extract_lets +onlyGivenNames y; refine cut (p := Only F s₀ y) ?_ (fun _ => ?_); rotate_left; clear_value y; rotate_right; subst y)
    | (extract_lets +onlyGivenNames y; try clear_value y)
    | with_reducible apply State.setBundle_only
    | with_reducible exact hF.of (by decide)

theorem execCalibrationStart_only {F : Nat} {s₀ : State} {n : Fin 8} {m : Fin 32} {s : State}
    (hs : Only F s₀ s) (hF : Within 3221225478 F) :
    OnlyN F s₀ (execCalibrationStart n m s) := by
  unfold execCalibrationStart
  repeat' first
    | with_reducible assumption
    | (extract_lets +onlyGivenNames y; refine cut (p := Only F s₀ y) ?_ (fun _ => ?_); rotate_left; clear_value y; rotate_right; subst y)
    | (extract_lets +onlyGivenNames y; try clear_value y)
    | with_reducible apply State.passTo_only
    | with_reducible apply State.setBundle_only
    | with_reducible apply beginCal_only
    | with_reducible exact hF.of (by decide)
    | with_reducible apply Only.ite
    | with_reducible apply OnlyN.ite
    | split
    | with_reducible apply OnlyN.next

theorem execCalibrationStop_only {F : Nat} {s₀ : State} {n : Fin 8} {m : Fin 32} {s : State}
    (hs : Only F s₀ s) (hF : Within 2147483712 F) :
    OnlyN F s₀ (execCalibrationStop n m s) := by
  unfold execCalibrationStop
  repeat' first
    | with_reducible assumption
    | with_reducible apply stopCal_only
    | with_reducible exact hF.of (by decide)
    | with_reducible apply Only.ite
    | with_reducible apply OnlyN.ite
    | split
    | with_reducible apply OnlyN.next

theorem setOffset_only {F : Nat} {s₀ : State} {n : Nat} {m : Nat} {s : State} {p : Nat × Nat}
    (hs : Only F s₀ s) (hF : Within 2147483720 F) :
    Only F s₀ (setOffset n m s p) := by
  unfold setOffset
  repeat' first
    | with_reducible assumption
    | (extract_lets +onlyGivenNames y; refine cut (p := Only F s₀ y) ?_ (fun _ => ?_); rotate_left; clear_value y; rotate_right; subst y)
    | (extract_lets +onlyGivenNames y; try clear_value y)
    | with_reducible apply State.used_only
    | with_reducible apply setHeater_only
    | with_reducible apply State.setField_only
    | with_reducible exact hF.of (by decide)
    | with_reducible apply Only.ite
    | with_reducible apply OnlyP.ite
    | with_reducible apply OnlyF.ite
    | split
    | with_reducible apply OnlyP.mk'
    | with_reducible apply OnlyF.mk'
    | with_reducible refine OnlyP.of_eq (by assumption) ?_
    | with_reducible apply OnlyP.snd
    | with_reducible exact OnlyP.elim (by assumption)
    | with_reducible refine OnlyF.of_eq (by assumption) ?_
    | with_reducible apply OnlyF.fst
    | with_reducible exact OnlyF.elim (by assumption)

theorem startupCalDone_only {F : Nat} {s₀ : State} {s : State} {n : Nat}
    (hs : Only F s₀ s) (hF : Within 2147483712 F) :
    Only F s₀ (startupCalDone s n) := by
  unfold startupCalDone
  repeat' first
    | with_reducible assumption
    | (intro _ _ _ _; try dsimp -zeta only)
    | (intro _ _ _; try dsimp -zeta only)
    | (intro _ _; try dsimp -zeta only)
    | (intro _; try dsimp -zeta only)
    | (extract_lets +onlyGivenNames y; refine cut (p := Only F s₀ y) ?_ (fun _ => ?_); rotate_left; clear_value y; rotate_right; subst y)
    | (extract_lets +onlyGivenNames y; try clear_value y)
    | with_reducible apply relight_only
    | with_reducible apply State.setLantern_only
    | with_reducible exact hF.of (by decide)
    | with_reducible apply Only.ite
    | split

theorem execCalibrationDone_only {F : Nat} {s₀ : State} {n : Fin 8} {m : Fin 32} {targets : List Nat} {s : State}
    (hs : Only F s₀ s) (hF : Within 3221225550 F) :
    OnlyN F s₀ (execCalibrationDone n m targets s) := by
  unfold execCalibrationDone
  repeat' first
    | with_reducible assumption
    | (intro _ _ _ _; try dsimp -zeta only)
    | (intro _ _ _; try dsimp -zeta only)
    | (intro _ _; try dsimp -zeta only)
    | (intro _; try dsimp -zeta only)
    | (extract_lets +onlyGivenNames y; refine cut (p := Only F s₀ y) ?_ (fun _ => ?_); rotate_left; clear_value y; rotate_right; subst y)
    | (extract_lets +onlyGivenNames y; try clear_value y)
    | with_reducible apply State.passTo_only
    | with_reducible apply setOffset_only
    | with_reducible apply State.count32_only
    | with_reducible apply State.setReg64_only
    | with_reducible apply State.setBundle_only
    | with_reducible apply startupCalDone_only
    | with_reducible exact hF.of (by decide)
    | with_reducible apply Only.foldl
    | with_reducible apply OnlyP.foldl
    | with_reducible apply OnlyF.foldl
    | with_reducible apply Only.ite
    | with_reducible apply OnlyP.ite
    | with_reducible apply OnlyF.ite
    | with_reducible apply OnlyN.ite
    | split
    | with_reducible apply OnlyN.next
    | with_reducible apply OnlyP.mk'
    | with_reducible apply OnlyF.mk'
    | with_reducible refine OnlyP.of_eq (by assumption) ?_
    | with_reducible apply OnlyP.snd
    | with_reducible exact OnlyP.elim (by assumption)
    | with_reducible refine OnlyF.of_eq (by assumption) ?_
    | with_reducible apply OnlyF.fst
    | with_reducible exact OnlyF.elim (by assumption)

theorem foldLan_only {F : Nat} {s₀ : State} {s : State} {n : Nat}
    (hs : Only F s₀ s) (hF : Within 5320 F) :
    Only F s₀ (foldLan s n) := by
  unfold foldLan
  repeat' first
    | with_reducible assumption
    | (extract_lets +onlyGivenNames y; refine cut (p := Only F s₀ y) ?_ (fun _ => ?_); rotate_left; clear_value y; rotate_right; subst y)
    | (extract_lets +onlyGivenNames y; try clear_value y)
    | with_reducible apply State.foldReg_only
    | with_reducible apply reportClamp_only
    | with_reducible apply State.setField_only
    | with_reducible exact hF.of (by decide)
    | with_reducible apply Only.ite
    | split

theorem execLanFold_only {F : Nat} {s₀ : State} {p : Path} {n : Fin 8} {s : State}
    (hs : Only F s₀ s) (hF : Within 5336 F) :
    OnlyN F s₀ (execLanFold p n s) := by
  unfold execLanFold
  repeat' first
    | with_reducible assumption
    | (intro _ _ _ _; try dsimp -zeta only)
    | (intro _ _ _; try dsimp -zeta only)
    | (intro _ _; try dsimp -zeta only)
    | (intro _; try dsimp -zeta only)
    | with_reducible apply ownerWrite_only
    | with_reducible apply foldLan_only
    | with_reducible exact hF.of (by decide)
    | with_reducible apply OnlyN.next

theorem retrimPlanes_only {F : Nat} {s₀ : State} {s : State} {n : Nat} {planes : Nat → Bool}
    (hs : Only F s₀ s) (hF : Within 2147483648 F) :
    Only F s₀ (retrimPlanes s n planes) := by
  unfold retrimPlanes
  repeat' first
    | with_reducible assumption
    | (intro _ _ _ _; try dsimp -zeta only)
    | (intro _ _ _; try dsimp -zeta only)
    | (intro _ _; try dsimp -zeta only)
    | (intro _; try dsimp -zeta only)
    | (extract_lets +onlyGivenNames y; refine cut (p := Only F s₀ y) ?_ (fun _ => ?_); rotate_left; clear_value y; rotate_right; subst y)
    | (extract_lets +onlyGivenNames y; try clear_value y)
    | with_reducible apply State.setLantern_only
    | with_reducible exact hF.of (by decide)
    | with_reducible apply Only.foldl
    | with_reducible apply OnlyP.foldl
    | with_reducible apply OnlyF.foldl
    | with_reducible apply OnlyP.mk'
    | with_reducible apply OnlyF.mk'
    | with_reducible refine OnlyP.of_eq (by assumption) ?_
    | with_reducible apply OnlyP.snd
    | with_reducible exact OnlyP.elim (by assumption)
    | with_reducible refine OnlyF.of_eq (by assumption) ?_
    | with_reducible apply OnlyF.fst
    | with_reducible exact OnlyF.elim (by assumption)

theorem execStileRetrim_only {F : Nat} {s₀ : State} {p : Path} {n : Fin 8} {planes : BitVec 4} {s : State}
    (hs : Only F s₀ s) (hF : Within 2147488856 F) :
    OnlyN F s₀ (execStileRetrim p n planes s) := by
  unfold execStileRetrim
  repeat' first
    | with_reducible assumption
    | (intro _ _ _ _; try dsimp -zeta only)
    | (intro _ _ _; try dsimp -zeta only)
    | (intro _ _; try dsimp -zeta only)
    | (intro _; try dsimp -zeta only)
    | with_reducible apply ownerWrite_only
    | with_reducible apply retrimPlanes_only
    | with_reducible exact hF.of (by decide)
    | with_reducible apply OnlyN.next

theorem startupTrimmed_only {F : Nat} {s₀ : State} {s : State} {n : Nat}
    (hs : Only F s₀ s) (hF : Within 2147483648 F) :
    Only F s₀ (startupTrimmed s n) := by
  unfold startupTrimmed
  repeat' first
    | with_reducible assumption
    | (intro _ _ _ _; try dsimp -zeta only)
    | (intro _ _ _; try dsimp -zeta only)
    | (intro _ _; try dsimp -zeta only)
    | (intro _; try dsimp -zeta only)
    | (extract_lets +onlyGivenNames y; refine cut (p := Only F s₀ y) ?_ (fun _ => ?_); rotate_left; clear_value y; rotate_right; subst y)
    | (extract_lets +onlyGivenNames y; try clear_value y)
    | with_reducible apply State.setLantern_only
    | with_reducible apply beginCal_only
    | with_reducible exact hF.of (by decide)
    | with_reducible apply Only.each
    | with_reducible apply Only.ite
    | split

theorem execStileTrimDone_only {F : Nat} {s₀ : State} {n : Fin 8} {plane : Fin 4} {good : Bool} {s : State}
    (hs : Only F s₀ s) (hF : Within 3221225542 F) :
    OnlyN F s₀ (execStileTrimDone n plane good s) := by
  unfold execStileTrimDone
  repeat' first
    | with_reducible assumption
    | (intro _ _ _ _; try dsimp -zeta only)
    | (intro _ _ _; try dsimp -zeta only)
    | (intro _ _; try dsimp -zeta only)
    | (intro _; try dsimp -zeta only)
    | (extract_lets +onlyGivenNames y; refine cut (p := Only F s₀ y) ?_ (fun _ => ?_); rotate_left; clear_value y; rotate_right; subst y)
    | (extract_lets +onlyGivenNames y; try clear_value y)
    | with_reducible apply State.passTo_only
    | with_reducible apply startupTrimmed_only
    | with_reducible apply State.setLantern_only
    | with_reducible apply State.setBundle_only
    | with_reducible apply relight_only
    | with_reducible exact hF.of (by decide)
    | with_reducible apply Only.each
    | with_reducible apply Only.ite
    | with_reducible apply OnlyN.ite
    | split
    | with_reducible apply OnlyN.next

theorem drainLink_only {F : Nat} {s₀ : State} {s : State} {l : ModLink}
    (hs : Only F s₀ s) (hF : Within 268435488 F) :
    Only F s₀ (drainLink s l) := by
  unfold drainLink
  repeat' first
    | with_reducible assumption
    | (intro _ _ _ _; try dsimp -zeta only)
    | (intro _ _ _; try dsimp -zeta only)
    | (intro _ _; try dsimp -zeta only)
    | (intro _; try dsimp -zeta only)
    | with_reducible apply transmit_only
    | with_reducible apply State.setLink_only
    | with_reducible exact hF.of (by decide)
    | with_reducible apply Only.ite
    | split

theorem redrawBundle_only {F : Nat} {s₀ : State} {n : Nat} {origin : Nat} {start : Nat} {m : Nat} {s : State}
    (hs : Only F s₀ s) (hF : Within 2415919200 F) :
    Only F s₀ (redrawBundle n origin start m s) := by
  unfold redrawBundle
  repeat' first
    | with_reducible assumption
    | (intro _ _ _ _; try dsimp -zeta only)
    | (intro _ _ _; try dsimp -zeta only)
    | (intro _ _; try dsimp -zeta only)
    | (intro _; try dsimp -zeta only)
    | (extract_lets +onlyGivenNames y; refine cut (p := Only F s₀ y) ?_ (fun _ => ?_); rotate_left; clear_value y; rotate_right; subst y)
    | (extract_lets +onlyGivenNames y; try clear_value y)
    | with_reducible apply State.setBundle_only
    | with_reducible apply stopCal_only
    | with_reducible apply planMove_only
    | with_reducible apply drainLink_only
    | with_reducible exact hF.of (by decide)
    | with_reducible apply Only.each
    | with_reducible apply Only.ite
    | split

theorem startRedraw_only {F : Nat} {s₀ : State} {s : State} {phase : Nat} {tf : Nat}
    (hs : Only F s₀ s) (hF : Within 6710891624 F) :
    Only F s₀ (startRedraw s phase tf) := by
  unfold startRedraw
  repeat' first
    | with_reducible assumption
    | (intro _ _ _ _; try dsimp -zeta only)
    | (intro _ _ _; try dsimp -zeta only)
    | (intro _ _; try dsimp -zeta only)
    | (intro _; try dsimp -zeta only)
    | (extract_lets +onlyGivenNames y; refine cut (p := Only F s₀ y) ?_ (fun _ => ?_); rotate_left; clear_value y; rotate_right; subst y)
    | (extract_lets +onlyGivenNames y; try clear_value y)
    | with_reducible apply checkDirs_only
    | with_reducible apply State.setLantern_only
    | with_reducible apply State.setCopper_only
    | with_reducible apply drainLink_only
    | with_reducible apply redrawBundle_only
    | with_reducible exact hF.of (by decide)
    | with_reducible apply Only.each
    | with_reducible apply Only.ite
    | split
    | with_reducible apply Only.itin

theorem joinCopper_only {F : Nat} {s₀ : State} {s : State}
    (hs : Only F s₀ s) (hF : Within 4563402752 F) :
    Only F s₀ (joinCopper s) := by
  unfold joinCopper
  repeat' first
    | with_reducible assumption
    | (intro _ _ _ _; try dsimp -zeta only)
    | (intro _ _ _; try dsimp -zeta only)
    | (intro _ _; try dsimp -zeta only)
    | (intro _; try dsimp -zeta only)
    | (extract_lets +onlyGivenNames y; refine cut (p := Only F s₀ y) ?_ (fun _ => ?_); rotate_left; clear_value y; rotate_right; subst y)
    | (extract_lets +onlyGivenNames y; try clear_value y)
    | with_reducible apply reroute_only
    | with_reducible apply State.setCopper_only
    | with_reducible exact hF.of (by decide)
    | with_reducible apply Only.each
    | with_reducible apply Only.ite
    | split

end Sys2Proof.Machine
end

