-- ==== Sys2Proof/Laws/OnlyFences.lean ====
section
/-! SUPPORT. What each operation of Sys2Proof/Machine/Fences.lean may change. -/

namespace Sys2Proof.Machine

open Sys2Proof

theorem phaseLog_only {F : Nat} {s₀ : State} {s : State} {t : Nat} {stamp : Nat} {phase : Nat} {kind : Nat} {late : Bool} {voteFail : Bool} {seq : Word}
    (hs : Only F s₀ s) (hF : Within 64 F) :
    Only F s₀ (phaseLog s t stamp phase kind late voteFail seq) := by
  unfold phaseLog
  repeat' first
    | with_reducible assumption
    | (extract_lets +onlyGivenNames y; refine cut (p := Only F s₀ y) ?_ (fun _ => ?_); rotate_left; clear_value y; rotate_right; subst y)
    | (extract_lets +onlyGivenNames y; try clear_value y)
    | with_reducible apply State.count32_only
    | with_reducible apply State.setReg64_only
    | with_reducible apply State.setReg_only
    | with_reducible exact hF.of (by decide)
    | with_reducible apply Only.ite
    | split

theorem fenceOp_only {F : Nat} {s₀ : State} {s : State} {t : Nat} {f : OpenFence}
    (hs : Only F s₀ s) (hF : Within 1073741824 F) :
    OnlyP F s₀ (fenceOp s t f) := by
  unfold fenceOp
  repeat' first
    | with_reducible assumption
    | (intro _ _ _ _; try dsimp -zeta only)
    | (intro _ _ _; try dsimp -zeta only)
    | (intro _ _; try dsimp -zeta only)
    | (intro _; try dsimp -zeta only)
    | (extract_lets +onlyGivenNames y; refine cut (p := Only F s₀ y) ?_ (fun _ => ?_); rotate_left; clear_value y; rotate_right; subst y)
    | (extract_lets +onlyGivenNames y; refine cut (p := OnlyP F s₀ y) ?_ (fun _ => ?_); rotate_left; clear_value y; rotate_right; subst y)
    | (extract_lets +onlyGivenNames y; try clear_value y)
    | with_reducible apply addOp_only
    | with_reducible exact hF.of (by decide)
    | split
    | with_reducible apply OnlyP.mk'
    | with_reducible refine OnlyP.of_eq (by assumption) ?_
    | with_reducible apply OnlyP.snd
    | with_reducible exact OnlyP.elim (by assumption)

theorem sendFence_only {F : Nat} {s₀ : State} {s : State} {t : Nat}
    (hs : Only F s₀ s) (hF : Within 1077936224 F) :
    Only F s₀ (sendFence s t) := by
  unfold sendFence
  repeat' first
    | with_reducible assumption
    | (intro _ _ _ _; try dsimp -zeta only)
    | (intro _ _ _; try dsimp -zeta only)
    | (intro _ _; try dsimp -zeta only)
    | (intro _; try dsimp -zeta only)
    | (extract_lets +onlyGivenNames y; refine cut (p := Only F s₀ y) ?_ (fun _ => ?_); rotate_left; clear_value y; rotate_right; subst y)
    | (extract_lets +onlyGivenNames y; refine cut (p := OnlyP F s₀ y) ?_ (fun _ => ?_); rotate_left; clear_value y; rotate_right; subst y)
    | (extract_lets +onlyGivenNames y; try clear_value y)
    | with_reducible apply State.modTile_only
    | with_reducible apply fenceOp_only
    | with_reducible apply modOp_only
    | with_reducible exact hF.of (by decide)
    | with_reducible apply Only.ite
    | with_reducible apply OnlyP.ite
    | split
    | with_reducible apply OnlyP.mk'
    | with_reducible refine OnlyP.of_eq (by assumption) ?_
    | with_reducible apply OnlyP.snd
    | with_reducible exact OnlyP.elim (by assumption)

theorem sendHeldFences_only {F : Nat} {s₀ : State} {s : State}
    (hs : Only F s₀ s) (hF : Within 1077936224 F) :
    Only F s₀ (sendHeldFences s) := by
  unfold sendHeldFences
  repeat' first
    | with_reducible assumption
    | (intro _ _ _ _; try dsimp -zeta only)
    | (intro _ _ _; try dsimp -zeta only)
    | (intro _ _; try dsimp -zeta only)
    | (intro _; try dsimp -zeta only)
    | with_reducible apply sendFence_only
    | with_reducible exact hF.of (by decide)
    | with_reducible apply Only.each

theorem stopCalFor_only {F : Nat} {s₀ : State} {s : State} {phase : Nat}
    (hs : Only F s₀ s) (hF : Within 2147483712 F) :
    Only F s₀ (stopCalFor s phase) := by
  unfold stopCalFor
  repeat' first
    | with_reducible assumption
    | (intro _ _ _ _; try dsimp -zeta only)
    | (intro _ _ _; try dsimp -zeta only)
    | (intro _ _; try dsimp -zeta only)
    | (intro _; try dsimp -zeta only)
    | with_reducible apply stopCal_only
    | with_reducible exact hF.of (by decide)
    | with_reducible apply Only.each
    | with_reducible apply Only.ite
    | split

theorem tileFence_only {F : Nat} {s₀ : State} {s : State} {t : Nat} {next : Nat} {seq : Word}
    (hs : Only F s₀ s) (hF : Within 4194368 F) :
    Only F s₀ (tileFence s t next seq) := by
  unfold tileFence
  repeat' first
    | with_reducible assumption
    | (intro _ _ _ _; try dsimp -zeta only)
    | (intro _ _ _; try dsimp -zeta only)
    | (intro _ _; try dsimp -zeta only)
    | (intro _; try dsimp -zeta only)
    | (extract_lets +onlyGivenNames y; refine cut (p := Only F s₀ y) ?_ (fun _ => ?_); rotate_left; clear_value y; rotate_right; subst y)
    | (extract_lets +onlyGivenNames y; try clear_value y)
    | with_reducible apply phaseLog_only
    | with_reducible apply State.modTile_only
    | with_reducible exact hF.of (by decide)

theorem arriveFence_only {F : Nat} {s₀ : State} {c : Cmd} {s : State}
    (hs : Only F s₀ s) (hF : Within 3225452640 F) :
    Only F s₀ (arriveFence c s) := by
  unfold arriveFence
  repeat' first
    | with_reducible assumption
    | (intro _ _ _ _; try dsimp -zeta only)
    | (intro _ _ _; try dsimp -zeta only)
    | (intro _ _; try dsimp -zeta only)
    | (intro _; try dsimp -zeta only)
    | (extract_lets +onlyGivenNames y; refine cut (p := Only F s₀ y) ?_ (fun _ => ?_); rotate_left; clear_value y; rotate_right; subst y)
    | (extract_lets +onlyGivenNames y; try clear_value y)
    | with_reducible apply phaseLog_only
    | with_reducible apply State.modTile_only
    | with_reducible apply State.modQueue_only
    | with_reducible apply stopCalFor_only
    | with_reducible apply sendFence_only
    | with_reducible exact hF.of (by decide)
    | with_reducible apply Only.ite
    | split

theorem issueFence_only {F : Nat} {s₀ : State} {c : Cmd} {s : State}
    (hs : Only F s₀ s) (hF : Within 3225452640 F) :
    OnlyI F s₀ (issueFence c s) := by
  unfold issueFence
  repeat' first
    | with_reducible assumption
    | (extract_lets +onlyGivenNames y; refine cut (p := Only F s₀ y) ?_ (fun _ => ?_); rotate_left; clear_value y; rotate_right; subst y)
    | (extract_lets +onlyGivenNames y; refine cut (p := OnlyI F s₀ y) ?_ (fun _ => ?_); rotate_left; clear_value y; rotate_right; subst y)
    | (extract_lets +onlyGivenNames y; try clear_value y)
    | with_reducible apply tileFence_only
    | with_reducible apply arriveFence_only
    | with_reducible exact hF.of (by decide)
    | with_reducible apply Only.ite
    | with_reducible apply OnlyI.ite
    | split
    | with_reducible apply OnlyI.wait
    | with_reducible apply OnlyI.ofFail
    | with_reducible apply OnlyI.ofRun
    | with_reducible apply OnlyI.ofReady
    | with_reducible apply OnlyI.ofDone
    | with_reducible apply OnlyI.ofBroke
    | with_reducible exact OnlyI.fail_eq rfl (by assumption)
    | with_reducible exact OnlyI.run_eq rfl (by assumption)
    | with_reducible exact OnlyI.ready_eq rfl (by assumption)
    | with_reducible exact OnlyI.done_eq rfl (by assumption)
    | with_reducible exact OnlyI.broke_eq rfl (by assumption)
    | with_reducible refine OnlyI.fail_eq (by assumption) ?_
    | with_reducible refine OnlyI.run_eq (by assumption) ?_
    | with_reducible refine OnlyI.ready_eq (by assumption) ?_
    | with_reducible refine OnlyI.done_eq (by assumption) ?_
    | with_reducible refine OnlyI.broke_eq (by assumption) ?_

theorem execPhaseFence_only {F : Nat} {s₀ : State} {g : Fin 16384} {s : State}
    (hs : Only F s₀ s) (hF : Within 38518228072 F) :
    OnlyN F s₀ (execPhaseFence g s) := by
  unfold execPhaseFence
  repeat' first
    | with_reducible assumption
    | (intro _ _ _ _; try dsimp -zeta only)
    | (intro _ _ _; try dsimp -zeta only)
    | (intro _ _; try dsimp -zeta only)
    | (intro _; try dsimp -zeta only)
    | with_reducible apply issue_only
    | with_reducible apply issueFence_only
    | with_reducible exact hF.of (by decide)
    | with_reducible apply OnlyN.next
    | with_reducible apply OnlyI.wait
    | with_reducible apply OnlyI.ofFail
    | with_reducible apply OnlyI.ofRun
    | with_reducible apply OnlyI.ofReady
    | with_reducible apply OnlyI.ofDone
    | with_reducible apply OnlyI.ofBroke
    | with_reducible exact OnlyI.fail_eq rfl (by assumption)
    | with_reducible exact OnlyI.run_eq rfl (by assumption)
    | with_reducible exact OnlyI.ready_eq rfl (by assumption)
    | with_reducible exact OnlyI.done_eq rfl (by assumption)
    | with_reducible exact OnlyI.broke_eq rfl (by assumption)
    | with_reducible refine OnlyI.fail_eq (by assumption) ?_
    | with_reducible refine OnlyI.run_eq (by assumption) ?_
    | with_reducible refine OnlyI.ready_eq (by assumption) ?_
    | with_reducible refine OnlyI.done_eq (by assumption) ?_
    | with_reducible refine OnlyI.broke_eq (by assumption) ?_

theorem closeFence_only {F : Nat} {s₀ : State} {s : State} {t : Nat} {f : OpenFence}
    (hs : Only F s₀ s) (hF : Within 4227072 F) :
    Only F s₀ (closeFence s t f) := by
  unfold closeFence
  repeat' first
    | with_reducible assumption
    | (intro _ _ _ _; try dsimp -zeta only)
    | (intro _ _ _; try dsimp -zeta only)
    | (intro _ _; try dsimp -zeta only)
    | (intro _; try dsimp -zeta only)
    | (extract_lets +onlyGivenNames y; refine cut (p := Only F s₀ y) ?_ (fun _ => ?_); rotate_left; clear_value y; rotate_right; subst y)
    | (extract_lets +onlyGivenNames y; try clear_value y)
    | with_reducible apply State.modTile_only
    | with_reducible apply State.modQueue_only
    | with_reducible exact hF.of (by decide)

theorem completeFence_only {F : Nat} {s₀ : State} {s : State} {t : Nat} {f : OpenFence} {stamp : Nat} {late : Bool}
    (hs : Only F s₀ s) (hF : Within 40605156456 F) :
    Only F s₀ (completeFence s t f stamp late) := by
  unfold completeFence
  repeat' first
    | with_reducible assumption
    | (intro _ _ _ _; try dsimp -zeta only)
    | (intro _ _ _; try dsimp -zeta only)
    | (intro _ _; try dsimp -zeta only)
    | (intro _; try dsimp -zeta only)
    | (extract_lets +onlyGivenNames y; refine cut (p := Only F s₀ y) ?_ (fun _ => ?_); rotate_left; clear_value y; rotate_right; subst y)
    | (extract_lets +onlyGivenNames y; try clear_value y)
    | with_reducible apply phaseLog_only
    | with_reducible apply State.modTile_only
    | with_reducible apply closeFence_only
    | with_reducible apply selfFence_only
    | with_reducible apply finishCommand_only
    | with_reducible apply joinCopper_only
    | with_reducible exact hF.of (by decide)
    | with_reducible apply Only.ite
    | split

theorem failFence_only {F : Nat} {s₀ : State} {s : State} {t : Nat} {f : OpenFence}
    (hs : Only F s₀ s) (hF : Within 36370678888 F) :
    Only F s₀ (failFence s t f) := by
  unfold failFence
  repeat' first
    | with_reducible assumption
    | (extract_lets +onlyGivenNames y; refine cut (p := Only F s₀ y) ?_ (fun _ => ?_); rotate_left; clear_value y; rotate_right; subst y)
    | (extract_lets +onlyGivenNames y; try clear_value y)
    | with_reducible apply phaseLog_only
    | with_reducible apply abortCommand_only
    | with_reducible apply closeFence_only
    | with_reducible exact hF.of (by decide)

theorem voteFailed_only {F : Nat} {s₀ : State} {s : State} {p : Nat} {f : OpenFence}
    (hs : Only F s₀ s) (hF : Within 1073742920 F) :
    Only F s₀ (voteFailed s p f) := by
  unfold voteFailed
  repeat' first
    | with_reducible assumption
    | (extract_lets +onlyGivenNames y; refine cut (p := Only F s₀ y) ?_ (fun _ => ?_); rotate_left; clear_value y; rotate_right; subst y)
    | (extract_lets +onlyGivenNames y; try clear_value y)
    | with_reducible apply post_only
    | with_reducible apply State.count32_only
    | with_reducible exact hF.of (by decide)
    | with_reducible apply Only.ite
    | split
    | with_reducible apply Only.rc

theorem mapOnce_only {F : Nat} {s₀ : State} {s : State} {p : Nat} {f : OpenFence} {tf : Nat}
    (hs : Only F s₀ s) (hF : Within 7784633448 F) :
    Only F s₀ (mapOnce s p f tf) := by
  unfold mapOnce
  repeat' first
    | with_reducible assumption
    | (extract_lets +onlyGivenNames y; refine cut (p := Only F s₀ y) ?_ (fun _ => ?_); rotate_left; clear_value y; rotate_right; subst y)
    | (extract_lets +onlyGivenNames y; try clear_value y)
    | with_reducible apply startRedraw_only
    | with_reducible exact hF.of (by decide)
    | with_reducible apply Only.ite
    | split
    | with_reducible apply Only.rc

theorem lateOnce_only {F : Nat} {s₀ : State} {s : State} {p : Nat} {f : OpenFence}
    (hs : Only F s₀ s) (hF : Within 1073742920 F) :
    Only F s₀ (lateOnce s p f) := by
  unfold lateOnce
  repeat' first
    | with_reducible assumption
    | (extract_lets +onlyGivenNames y; refine cut (p := Only F s₀ y) ?_ (fun _ => ?_); rotate_left; clear_value y; rotate_right; subst y)
    | (extract_lets +onlyGivenNames y; try clear_value y)
    | with_reducible apply post_only
    | with_reducible apply State.count32_only
    | with_reducible exact hF.of (by decide)
    | with_reducible apply Only.ite
    | split
    | with_reducible apply Only.rc

theorem takeFence_only {F : Nat} {s₀ : State} {s : State} {t : Nat} {f : OpenFence} {stamp : Nat} {vote : Bool}
    (hs : Only F s₀ s) (hF : Within 42752644200 F) :
    Only F s₀ (takeFence s t f stamp vote) := by
  unfold takeFence
  repeat' first
    | with_reducible assumption
    | (intro _ _ _ _; try dsimp -zeta only)
    | (intro _ _ _; try dsimp -zeta only)
    | (intro _ _; try dsimp -zeta only)
    | (intro _; try dsimp -zeta only)
    | (extract_lets +onlyGivenNames y; refine cut (p := Only F s₀ y) ?_ (fun _ => ?_); rotate_left; clear_value y; rotate_right; subst y)
    | (extract_lets +onlyGivenNames y; try clear_value y)
    | with_reducible apply voteFailed_only
    | with_reducible apply mapOnce_only
    | with_reducible apply completeFence_only
    | with_reducible apply lateOnce_only
    | with_reducible apply State.modTile_only
    | with_reducible exact hF.of (by decide)
    | with_reducible apply Only.ite
    | split

theorem execFenceResult_only {F : Nat} {s₀ : State} {t : Fin 64} {s : State}
    (hs : Only F s₀ s) (hF : Within 42813199464 F) :
    OnlyN F s₀ (execFenceResult t s) := by
  unfold execFenceResult
  repeat' first
    | with_reducible assumption
    | with_reducible apply failFence_only
    | with_reducible apply takeFence_only
    | with_reducible exact hF.of (by decide)
    | with_reducible apply Only.ite
    | with_reducible apply OnlyN.ite
    | split
    | with_reducible apply OnlyN.next

theorem execFenceInstant_only {F : Nat} {s₀ : State} {t : Fin 64} {s : State}
    (hs : Only F s₀ s) (hF : Within 40605156462 F) :
    OnlyN F s₀ (execFenceInstant t s) := by
  unfold execFenceInstant
  repeat' first
    | with_reducible assumption
    | with_reducible apply completeFence_only
    | with_reducible apply passToTime_only
    | with_reducible exact hF.of (by decide)
    | with_reducible apply Only.ite
    | with_reducible apply OnlyN.ite
    | split
    | with_reducible apply OnlyN.next

end Sys2Proof.Machine
end

