-- ==== Sys2Proof/Laws/OnlyFetchAhead.lean ====
section
/-! SUPPORT. What each operation of Sys2Proof/Machine/FetchAhead.lean may change. -/

namespace Sys2Proof.Machine

open Sys2Proof

theorem copySlot_only {F : Nat} {s₀ : State} {t : Nat} {acc : SMap (Option Line) × State} {slot : Nat}
    (hs : OnlyP F s₀ acc) (hF : Within 787528 F) :
    OnlyP F s₀ (copySlot t acc slot) := by
  unfold copySlot
  repeat' first
    | with_reducible assumption
    | (intro _ _ _ _; try dsimp -zeta only)
    | (intro _ _ _; try dsimp -zeta only)
    | (intro _ _; try dsimp -zeta only)
    | (intro _; try dsimp -zeta only)
    | (extract_lets +onlyGivenNames y; refine cut (p := Only F s₀ y) ?_ (fun _ => ?_); rotate_left; clear_value y; rotate_right; subst y)
    | (extract_lets +onlyGivenNames y; refine cut (p := OnlyP F s₀ y) ?_ (fun _ => ?_); rotate_left; clear_value y; rotate_right; subst y)
    | (extract_lets +onlyGivenNames y; try clear_value y)
    | with_reducible apply readLine_only
    | with_reducible exact hF.of (by decide)
    | with_reducible apply Only.ite
    | with_reducible apply OnlyP.ite
    | split
    | with_reducible apply OnlyP.mk'
    | with_reducible refine OnlyP.of_eq (by assumption) ?_
    | with_reducible apply OnlyP.snd
    | with_reducible exact OnlyP.elim (by assumption)

theorem prefetchAll_only {F : Nat} {s₀ : State} {t : Nat} {g : Nat} {idx : Word} {xs : List (Nat × Hint)} {s : State}
    (hs : Only F s₀ s) (hF : Within 3145792 F) :
    OnlyP F s₀ (prefetchAll t g idx xs s) := by
  induction xs generalizing s with
  | nil => exact OnlyP.mk' hs
  | cons x xs ih =>
    unfold prefetchAll
    split
    · exact OnlyP.mk' hs
    · exact ih (touchGranule_only hs (hF.of (by decide)))

theorem stageSource_only {F : Nat} {s₀ : State} {s : State} {t : Nat} {g : Nat} {idx : Word} {f : Fetched}
    (hs : Only F s₀ s) (hF : Within 268436552 F) :
    OnlyP F s₀ (stageSource s t g idx f) := by
  unfold stageSource
  repeat' first
    | with_reducible assumption
    | (extract_lets +onlyGivenNames y; refine cut (p := Only F s₀ y) ?_ (fun _ => ?_); rotate_left; clear_value y; rotate_right; subst y)
    | (extract_lets +onlyGivenNames y; refine cut (p := OnlyP F s₀ y) ?_ (fun _ => ?_); rotate_left; clear_value y; rotate_right; subst y)
    | (extract_lets +onlyGivenNames y; try clear_value y)
    | with_reducible apply askLines_only
    | with_reducible exact hF.of (by decide)
    | with_reducible apply Only.ite
    | with_reducible apply OnlyP.ite
    | split
    | with_reducible apply OnlyP.mk'
    | with_reducible refine OnlyP.of_eq (by assumption) ?_
    | with_reducible apply OnlyP.snd
    | with_reducible exact OnlyP.elim (by assumption)

theorem fetchCommand_only {F : Nat} {s₀ : State} {s : State} {g : Nat} {idx : Word} {l : Line}
    (hs : Only F s₀ s) (hF : Within 272401480 F) :
    Only F s₀ (fetchCommand s g idx l) := by
  unfold fetchCommand
  extract_lets t put
  have hput : ∀ u f, Only F s₀ u → Only F s₀ (put u f) := by
    intro u f hu
    exact State.modQueue_only hu (hF.of (by decide))
  clear_value put
  repeat' first
    | with_reducible assumption
    | with_reducible apply hput
    | (intro _ _ _; try dsimp -zeta only)
    | (extract_lets +onlyGivenNames y; refine cut (p := Only F s₀ y) ?_ (fun _ => ?_); rotate_left; clear_value y; rotate_right; subst y)
    | (extract_lets +onlyGivenNames y; try clear_value y)
    | with_reducible apply prefetchAll_only
    | with_reducible apply stageSource_only
    | with_reducible apply copySlot_only
    | with_reducible apply OnlyP.foldl
    | with_reducible exact hF.of (by decide)
    | split
    | with_reducible refine OnlyP.of_eq (by assumption) ?_
    | with_reducible apply OnlyP.mk'
    | with_reducible apply OnlyP.snd

theorem resumeFetch_only {F : Nat} {s₀ : State} {s : State} {g : Nat} {k : Nat} {f : Fetched}
    (hs : Only F s₀ s) (hF : Within 3178560 F) :
    Only F s₀ (resumeFetch s g k f) := by
  unfold resumeFetch
  repeat' first
    | with_reducible assumption
    | (intro _ _ _ _; try dsimp -zeta only)
    | (intro _ _ _; try dsimp -zeta only)
    | (intro _ _; try dsimp -zeta only)
    | (intro _; try dsimp -zeta only)
    | (extract_lets +onlyGivenNames y; refine cut (p := Only F s₀ y) ?_ (fun _ => ?_); rotate_left; clear_value y; rotate_right; subst y)
    | (extract_lets +onlyGivenNames y; refine cut (p := OnlyP F s₀ y) ?_ (fun _ => ?_); rotate_left; clear_value y; rotate_right; subst y)
    | (extract_lets +onlyGivenNames y; try clear_value y)
    | with_reducible apply prefetchAll_only
    | with_reducible apply State.modQueue_only
    | with_reducible exact hF.of (by decide)
    | with_reducible apply OnlyP.mk'
    | with_reducible refine OnlyP.of_eq (by assumption) ?_
    | with_reducible apply OnlyP.snd
    | with_reducible exact OnlyP.elim (by assumption)

theorem execFetchAhead_only {F : Nat} {s₀ : State} {g : Fin 16384} {s : State}
    (hs : Only F s₀ s) (hF : Within 272401480 F) :
    OnlyN F s₀ (execFetchAhead g s) := by
  unfold execFetchAhead
  repeat' first
    | with_reducible assumption
    | (intro _ _ _ _; try dsimp -zeta only)
    | (intro _ _ _; try dsimp -zeta only)
    | (intro _ _; try dsimp -zeta only)
    | (intro _; try dsimp -zeta only)
    | (extract_lets +onlyGivenNames y; refine cut (p := Only F s₀ y) ?_ (fun _ => ?_); rotate_left; clear_value y; rotate_right; subst y)
    | (extract_lets +onlyGivenNames y; refine cut (p := OnlyP F s₀ y) ?_ (fun _ => ?_); rotate_left; clear_value y; rotate_right; subst y)
    | (extract_lets +onlyGivenNames y; try clear_value y)
    | with_reducible apply fetchCommand_only
    | with_reducible apply resumeFetch_only
    | with_reducible apply readLine_only
    | with_reducible exact hF.of (by decide)
    | with_reducible apply Only.ite
    | with_reducible apply OnlyP.ite
    | with_reducible apply OnlyN.ite
    | split
    | with_reducible apply OnlyN.next
    | with_reducible apply OnlyP.mk'
    | with_reducible refine OnlyP.of_eq (by assumption) ?_
    | with_reducible apply OnlyP.snd
    | with_reducible exact OnlyP.elim (by assumption)

end Sys2Proof.Machine
end

