-- ==== Sys2Proof/Laws/OnlyLeader.lean ====
section
/-! SUPPORT. What each operation of Sys2Proof/Machine/Leader.lean may change. -/

namespace Sys2Proof.Machine

open Sys2Proof

theorem leaderEvent_only {F : Nat} {s₀ : State} {s : State}
    (hs : Only F s₀ s) (hF : Within 1032 F) :
    Only F s₀ (leaderEvent s) := by
  unfold leaderEvent
  repeat' first
    | with_reducible assumption
    | (extract_lets +onlyGivenNames y; refine cut (p := Only F s₀ y) ?_ (fun _ => ?_); rotate_left; clear_value y; rotate_right; subst y)
    | (extract_lets +onlyGivenNames y; try clear_value y)
    | with_reducible apply post_only
    | with_reducible exact hF.of (by decide)

theorem install_only {F : Nat} {s₀ : State} {s : State} {m : Fin 4} {p : Path}
    (hs : Only F s₀ s) (hF : Within 9224 F) :
    Only F s₀ (install s m p) := by
  unfold install
  repeat' first
    | with_reducible assumption
    | (extract_lets +onlyGivenNames y; refine cut (p := Only F s₀ y) ?_ (fun _ => ?_); rotate_left; clear_value y; rotate_right; subst y)
    | (extract_lets +onlyGivenNames y; try clear_value y)
    | with_reducible apply leaderEvent_only
    | with_reducible exact hF.of (by decide)
    | with_reducible apply Only.lead

theorem leaderLost_only {F : Nat} {s₀ : State} {s : State} {reason : Nat}
    (hs : Only F s₀ s) (hF : Within 9224 F) :
    Only F s₀ (leaderLost s reason) := by
  unfold leaderLost
  repeat' first
    | with_reducible assumption
    | (extract_lets +onlyGivenNames y; refine cut (p := Only F s₀ y) ?_ (fun _ => ?_); rotate_left; clear_value y; rotate_right; subst y)
    | (extract_lets +onlyGivenNames y; try clear_value y)
    | with_reducible apply post_only
    | with_reducible exact hF.of (by decide)
    | split
    | with_reducible apply Only.lead

theorem handoverFailed_only {F : Nat} {s₀ : State} {s : State} {cause : Nat}
    (hs : Only F s₀ s) (hF : Within 9224 F) :
    Only F s₀ (handoverFailed s cause) := by
  unfold handoverFailed
  repeat' first
    | with_reducible assumption
    | (extract_lets +onlyGivenNames y; refine cut (p := Only F s₀ y) ?_ (fun _ => ?_); rotate_left; clear_value y; rotate_right; subst y)
    | (extract_lets +onlyGivenNames y; try clear_value y)
    | with_reducible apply post_only
    | with_reducible exact hF.of (by decide)
    | with_reducible apply Only.ite
    | split
    | with_reducible apply Only.lead

theorem pathLost_only {F : Nat} {s₀ : State} {s : State} {m : Nat}
    (hs : Only F s₀ s) (hF : Within 9224 F) :
    Only F s₀ (pathLost s m) := by
  unfold pathLost
  repeat' first
    | with_reducible assumption
    | (intro _ _ _ _; try dsimp -zeta only)
    | (intro _ _ _; try dsimp -zeta only)
    | (intro _ _; try dsimp -zeta only)
    | (intro _; try dsimp -zeta only)
    | with_reducible apply leaderLost_only
    | with_reducible apply handoverFailed_only
    | with_reducible exact hF.of (by decide)
    | with_reducible apply Only.ite
    | split

theorem leaderCommand_only {F : Nat} {s₀ : State} {s : State} {p : Path} {effect : Fin 4 → Option State}
    (hs : Only F s₀ s) (h_effect : ∀ x0, OnlyO F s₀ (effect x0)) (hF : Within 1112 F) :
    Only F s₀ (leaderCommand s p effect) := by
  unfold leaderCommand
  repeat' first
    | with_reducible assumption
    | (intro _ _ _ _; try dsimp -zeta only)
    | (intro _ _ _; try dsimp -zeta only)
    | (intro _ _; try dsimp -zeta only)
    | (intro _; try dsimp -zeta only)
    | (extract_lets +onlyGivenNames y; refine cut (p := Only F s₀ y) ?_ (fun _ => ?_); rotate_left; clear_value y; rotate_right; subst y)
    | (extract_lets +onlyGivenNames y; try clear_value y)
    | with_reducible apply answer_only
    | with_reducible apply refused_only
    | with_reducible apply ownershipError_only
    | with_reducible exact hF.of (by decide)
    | apply h_effect
    | with_reducible apply Only.ite
    | with_reducible apply OnlyO.ite
    | split
    | with_reducible apply OnlyO.some
    | with_reducible apply OnlyO.none
    | with_reducible refine OnlyO.of_eq (by assumption) ?_
    | with_reducible apply OnlyO.getD

theorem claimBy_only {F : Nat} {s₀ : State} {s : State} {p : Path} {m : Fin 4}
    (hs : Only F s₀ s) (hF : Within 9224 F) :
    OnlyO F s₀ (claimBy s p m) := by
  unfold claimBy
  repeat' first
    | with_reducible assumption
    | with_reducible apply install_only
    | with_reducible exact hF.of (by decide)
    | with_reducible apply Only.ite
    | with_reducible apply OnlyO.ite
    | split
    | with_reducible apply OnlyO.some
    | with_reducible apply OnlyO.none
    | with_reducible refine OnlyO.of_eq (by assumption) ?_
    | with_reducible apply OnlyO.getD

theorem keepBy_only {F : Nat} {s₀ : State} {s : State} {p : Path} {m : Fin 4}
    (hs : Only F s₀ s) (hF : Within 8192 F) :
    OnlyO F s₀ (keepBy s p m) := by
  unfold keepBy
  repeat' first
    | with_reducible assumption
    | (extract_lets +onlyGivenNames y; refine cut (p := Only F s₀ y) ?_ (fun _ => ?_); rotate_left; clear_value y; rotate_right; subst y)
    | (extract_lets +onlyGivenNames y; refine cut (p := OnlyO F s₀ y) ?_ (fun _ => ?_); rotate_left; clear_value y; rotate_right; subst y)
    | (extract_lets +onlyGivenNames y; try clear_value y)
    | with_reducible exact hF.of (by decide)
    | with_reducible apply OnlyO.ite
    | split
    | with_reducible apply OnlyO.some
    | with_reducible apply OnlyO.none
    | with_reducible refine OnlyO.of_eq (by assumption) ?_
    | with_reducible apply OnlyO.getD
    | with_reducible apply Only.lead

theorem releaseBy_only {F : Nat} {s₀ : State} {s : State} {m : Fin 4}
    (hs : Only F s₀ s) (hF : Within 9224 F) :
    OnlyO F s₀ (releaseBy s m) := by
  unfold releaseBy
  repeat' first
    | with_reducible assumption
    | (extract_lets +onlyGivenNames y; refine cut (p := Only F s₀ y) ?_ (fun _ => ?_); rotate_left; clear_value y; rotate_right; subst y)
    | (extract_lets +onlyGivenNames y; refine cut (p := OnlyO F s₀ y) ?_ (fun _ => ?_); rotate_left; clear_value y; rotate_right; subst y)
    | (extract_lets +onlyGivenNames y; try clear_value y)
    | with_reducible apply leaderEvent_only
    | with_reducible exact hF.of (by decide)
    | with_reducible apply Only.ite
    | with_reducible apply OnlyO.ite
    | split
    | with_reducible apply OnlyO.some
    | with_reducible apply OnlyO.none
    | with_reducible refine OnlyO.of_eq (by assumption) ?_
    | with_reducible apply OnlyO.getD
    | with_reducible apply Only.lead

theorem handoverBy_only {F : Nat} {s₀ : State} {s : State} {target : Fin 4} {m : Fin 4}
    (hs : Only F s₀ s) (hF : Within 8192 F) :
    OnlyO F s₀ (handoverBy s target m) := by
  unfold handoverBy
  repeat' first
    | with_reducible assumption
    | (extract_lets +onlyGivenNames y; refine cut (p := Only F s₀ y) ?_ (fun _ => ?_); rotate_left; clear_value y; rotate_right; subst y)
    | (extract_lets +onlyGivenNames y; refine cut (p := OnlyO F s₀ y) ?_ (fun _ => ?_); rotate_left; clear_value y; rotate_right; subst y)
    | (extract_lets +onlyGivenNames y; try clear_value y)
    | with_reducible exact hF.of (by decide)
    | with_reducible apply OnlyO.ite
    | split
    | with_reducible apply OnlyO.some
    | with_reducible apply OnlyO.none
    | with_reducible refine OnlyO.of_eq (by assumption) ?_
    | with_reducible apply OnlyO.getD
    | with_reducible apply Only.lead

theorem acceptBy_only {F : Nat} {s₀ : State} {s : State} {p : Path} {m : Fin 4}
    (hs : Only F s₀ s) (hF : Within 9224 F) :
    OnlyO F s₀ (acceptBy s p m) := by
  unfold acceptBy
  repeat' first
    | with_reducible assumption
    | with_reducible apply install_only
    | with_reducible exact hF.of (by decide)
    | with_reducible apply Only.ite
    | with_reducible apply OnlyO.ite
    | split
    | with_reducible apply OnlyO.some
    | with_reducible apply OnlyO.none
    | with_reducible refine OnlyO.of_eq (by assumption) ?_
    | with_reducible apply OnlyO.getD

theorem deposeBy_only {F : Nat} {s₀ : State} {s : State} {m : Fin 4}
    (hs : Only F s₀ s) (hF : Within 9224 F) :
    OnlyO F s₀ (deposeBy s m) := by
  unfold deposeBy
  repeat' first
    | with_reducible assumption
    | with_reducible apply leaderLost_only
    | with_reducible exact hF.of (by decide)
    | with_reducible apply Only.ite
    | with_reducible apply OnlyO.ite
    | split
    | with_reducible apply OnlyO.some
    | with_reducible apply OnlyO.none
    | with_reducible refine OnlyO.of_eq (by assumption) ?_
    | with_reducible apply OnlyO.getD

theorem execClaim_only {F : Nat} {s₀ : State} {p : Path} {s : State}
    (hs : Only F s₀ s) (hF : Within 9304 F) :
    OnlyN F s₀ (execClaim p s) := by
  unfold execClaim
  repeat' first
    | with_reducible assumption
    | (intro _ _ _ _; try dsimp -zeta only)
    | (intro _ _ _; try dsimp -zeta only)
    | (intro _ _; try dsimp -zeta only)
    | (intro _; try dsimp -zeta only)
    | with_reducible apply leaderCommand_only
    | with_reducible apply claimBy_only
    | with_reducible exact hF.of (by decide)
    | with_reducible apply OnlyN.next
    | with_reducible apply OnlyO.some
    | with_reducible apply OnlyO.none
    | with_reducible refine OnlyO.of_eq (by assumption) ?_
    | with_reducible apply OnlyO.getD

theorem execKeep_only {F : Nat} {s₀ : State} {p : Path} {s : State}
    (hs : Only F s₀ s) (hF : Within 9304 F) :
    OnlyN F s₀ (execKeep p s) := by
  unfold execKeep
  repeat' first
    | with_reducible assumption
    | (intro _ _ _ _; try dsimp -zeta only)
    | (intro _ _ _; try dsimp -zeta only)
    | (intro _ _; try dsimp -zeta only)
    | (intro _; try dsimp -zeta only)
    | with_reducible apply leaderCommand_only
    | with_reducible apply keepBy_only
    | with_reducible exact hF.of (by decide)
    | with_reducible apply OnlyN.next
    | with_reducible apply OnlyO.some
    | with_reducible apply OnlyO.none
    | with_reducible refine OnlyO.of_eq (by assumption) ?_
    | with_reducible apply OnlyO.getD

theorem execRelease_only {F : Nat} {s₀ : State} {p : Path} {s : State}
    (hs : Only F s₀ s) (hF : Within 9304 F) :
    OnlyN F s₀ (execRelease p s) := by
  unfold execRelease
  repeat' first
    | with_reducible assumption
    | (intro _ _ _ _; try dsimp -zeta only)
    | (intro _ _ _; try dsimp -zeta only)
    | (intro _ _; try dsimp -zeta only)
    | (intro _; try dsimp -zeta only)
    | with_reducible apply leaderCommand_only
    | with_reducible apply releaseBy_only
    | with_reducible exact hF.of (by decide)
    | with_reducible apply OnlyN.next
    | with_reducible apply OnlyO.some
    | with_reducible apply OnlyO.none
    | with_reducible refine OnlyO.of_eq (by assumption) ?_
    | with_reducible apply OnlyO.getD

theorem execHandover_only {F : Nat} {s₀ : State} {p : Path} {target : Fin 4} {s : State}
    (hs : Only F s₀ s) (hF : Within 9304 F) :
    OnlyN F s₀ (execHandover p target s) := by
  unfold execHandover
  repeat' first
    | with_reducible assumption
    | (intro _ _ _ _; try dsimp -zeta only)
    | (intro _ _ _; try dsimp -zeta only)
    | (intro _ _; try dsimp -zeta only)
    | (intro _; try dsimp -zeta only)
    | with_reducible apply leaderCommand_only
    | with_reducible apply handoverBy_only
    | with_reducible exact hF.of (by decide)
    | with_reducible apply OnlyN.next
    | with_reducible apply OnlyO.some
    | with_reducible apply OnlyO.none
    | with_reducible refine OnlyO.of_eq (by assumption) ?_
    | with_reducible apply OnlyO.getD

theorem execAccept_only {F : Nat} {s₀ : State} {p : Path} {s : State}
    (hs : Only F s₀ s) (hF : Within 9304 F) :
    OnlyN F s₀ (execAccept p s) := by
  unfold execAccept
  repeat' first
    | with_reducible assumption
    | (intro _ _ _ _; try dsimp -zeta only)
    | (intro _ _ _; try dsimp -zeta only)
    | (intro _ _; try dsimp -zeta only)
    | (intro _; try dsimp -zeta only)
    | with_reducible apply leaderCommand_only
    | with_reducible apply acceptBy_only
    | with_reducible exact hF.of (by decide)
    | with_reducible apply OnlyN.next
    | with_reducible apply OnlyO.some
    | with_reducible apply OnlyO.none
    | with_reducible refine OnlyO.of_eq (by assumption) ?_
    | with_reducible apply OnlyO.getD

theorem execDepose_only {F : Nat} {s₀ : State} {p : Path} {s : State}
    (hs : Only F s₀ s) (hF : Within 9304 F) :
    OnlyN F s₀ (execDepose p s) := by
  unfold execDepose
  repeat' first
    | with_reducible assumption
    | (intro _ _ _ _; try dsimp -zeta only)
    | (intro _ _ _; try dsimp -zeta only)
    | (intro _ _; try dsimp -zeta only)
    | (intro _; try dsimp -zeta only)
    | with_reducible apply leaderCommand_only
    | with_reducible apply deposeBy_only
    | with_reducible exact hF.of (by decide)
    | with_reducible apply OnlyN.next
    | with_reducible apply OnlyO.some
    | with_reducible apply OnlyO.none
    | with_reducible refine OnlyO.of_eq (by assumption) ?_
    | with_reducible apply OnlyO.getD

theorem execLeaseExpiry_only {F : Nat} {s₀ : State} {s : State}
    (hs : Only F s₀ s) (hF : Within 1073751054 F) :
    OnlyN F s₀ (execLeaseExpiry s) := by
  unfold execLeaseExpiry
  repeat' first
    | with_reducible assumption
    | with_reducible apply leaderLost_only
    | with_reducible apply State.passTo_only
    | with_reducible exact hF.of (by decide)
    | with_reducible apply Only.ite
    | with_reducible apply OnlyN.ite
    | split
    | with_reducible apply OnlyN.next

theorem execHandoverTimeout_only {F : Nat} {s₀ : State} {s : State}
    (hs : Only F s₀ s) (hF : Within 1073751054 F) :
    OnlyN F s₀ (execHandoverTimeout s) := by
  unfold execHandoverTimeout
  repeat' first
    | with_reducible assumption
    | with_reducible apply handoverFailed_only
    | with_reducible apply State.passTo_only
    | with_reducible exact hF.of (by decide)
    | with_reducible apply Only.ite
    | with_reducible apply OnlyN.ite
    | split
    | with_reducible apply OnlyN.next

end Sys2Proof.Machine
end

