-- ==== Sys2Proof/Laws/OnlySecFaults.lean ====
section
/-! SUPPORT. What each operation of Sys2Proof/Machine/SecFaults.lean may change. -/

namespace Sys2Proof.Machine

open Sys2Proof

theorem secFault_only {F : Nat} {s₀ : State} {s : State} {code : Nat} {block : Nat} {detail : Nat}
    (hs : Only F s₀ s) (hF : Within 1096 F) :
    Only F s₀ (secFault s code block detail) := by
  unfold secFault
  repeat' first
    | with_reducible assumption
    | (extract_lets +onlyGivenNames y; refine cut (p := Only F s₀ y) ?_ (fun _ => ?_); rotate_left; clear_value y; rotate_right; subst y)
    | (extract_lets +onlyGivenNames y; try clear_value y)
    | with_reducible apply State.setReg_only
    | with_reducible apply State.count32_only
    | with_reducible apply post_only
    | with_reducible exact hF.of (by decide)

end Sys2Proof.Machine
end

