-- ==== Sys2Proof/Laws/OnlyHostPort.lean ====
section
/-! SUPPORT. What each operation of Sys2Proof/Machine/HostPort.lean may change. -/

namespace Sys2Proof.Machine

open Sys2Proof

theorem configWrite_only {F : Nat} {s₀ : State} {s : State} {f : Fn} {v : Word} {a3 : ConfigReg}
    (hs : Only F s₀ s) (hF : Within 3104 F) :
    Only F s₀ (configWrite s f v a3) := by
  unfold configWrite
  repeat' first
    | with_reducible assumption
    | (intro _ _ _ _; try dsimp -zeta only)
    | (intro _ _ _; try dsimp -zeta only)
    | (intro _ _; try dsimp -zeta only)
    | (intro _; try dsimp -zeta only)
    | (extract_lets +onlyGivenNames y; refine cut (p := Only F s₀ y) ?_ (fun _ => ?_); rotate_left; clear_value y; rotate_right; subst y)
    | (extract_lets +onlyGivenNames y; try clear_value y)
    | with_reducible apply State.setFn_only
    | with_reducible apply flushPending_only
    | with_reducible apply releaseAll_only
    | with_reducible exact hF.of (by decide)
    | with_reducible apply Only.foldl
    | with_reducible apply OnlyP.foldl
    | with_reducible apply OnlyF.foldl
    | with_reducible apply Only.ite
    | with_reducible apply OnlyP.ite
    | with_reducible apply OnlyF.ite
    | split
    | with_reducible apply OnlyP.mk'
    | with_reducible apply OnlyF.mk'
    | with_reducible refine OnlyP.of_eq (by assumption) ?_
    | with_reducible apply OnlyP.snd
    | with_reducible exact OnlyP.elim (by assumption)
    | with_reducible refine OnlyF.of_eq (by assumption) ?_
    | with_reducible apply OnlyF.fst
    | with_reducible exact OnlyF.elim (by assumption)

theorem execConfigRequest_only {F : Nat} {s₀ : State} {f : Fn} {reg : ConfigReg} {write : Option Word} {s : State}
    (hs : Only F s₀ s) (hF : Within 3120 F) :
    OnlyN F s₀ (execConfigRequest f reg write s) := by
  unfold execConfigRequest
  repeat' first
    | with_reducible assumption
    | with_reducible apply answer_only
    | with_reducible apply configWrite_only
    | with_reducible exact hF.of (by decide)
    | with_reducible apply Only.ite
    | with_reducible apply OnlyN.ite
    | split
    | with_reducible apply OnlyN.next

theorem execHostLinkUp_only {F : Nat} {s₀ : State} {h : Fin 2} {speed : Nat} {width : Nat} {s : State}
    (hs : Only F s₀ s) (hF : Within 64 F) :
    OnlyN F s₀ (execHostLinkUp h speed width s) := by
  unfold execHostLinkUp
  repeat' first
    | with_reducible assumption
    | with_reducible apply State.setField_only
    | with_reducible exact hF.of (by decide)
    | with_reducible apply Only.ite
    | with_reducible apply OnlyN.ite
    | split
    | with_reducible apply OnlyN.next

theorem windowError_only {F : Nat} {s₀ : State} {s : State} {f : Fn} {o : Nat} {reason : Nat}
    (hs : Only F s₀ s) (hF : Within 1032 F) :
    Only F s₀ (windowError s f o reason) := by
  unfold windowError
  repeat' first
    | with_reducible assumption
    | with_reducible apply post_only
    | with_reducible apply State.used_only
    | with_reducible exact hF.of (by decide)

theorem discardBuffer_only {F : Nat} {s₀ : State} {s : State} {f : Fn} {b : LineBuf} {cause : Nat}
    (hs : Only F s₀ s) (hF : Within 8589935688 F) :
    Only F s₀ (discardBuffer s f b cause) := by
  unfold discardBuffer
  repeat' first
    | with_reducible assumption
    | (extract_lets +onlyGivenNames y; refine cut (p := Only F s₀ y) ?_ (fun _ => ?_); rotate_left; clear_value y; rotate_right; subst y)
    | (extract_lets +onlyGivenNames y; try clear_value y)
    | with_reducible apply State.setHost_only
    | with_reducible apply State.count32_only
    | with_reducible apply post_only
    | with_reducible exact hF.of (by decide)

theorem discardAll_only {F : Nat} {s₀ : State} {s : State} {f : Fn} {cause : Nat}
    (hs : Only F s₀ s) (hF : Within 8589935688 F) :
    Only F s₀ (discardAll s f cause) := by
  unfold discardAll
  repeat' first
    | with_reducible assumption
    | (intro _ _ _ _; try dsimp -zeta only)
    | (intro _ _ _; try dsimp -zeta only)
    | (intro _ _; try dsimp -zeta only)
    | (intro _; try dsimp -zeta only)
    | with_reducible apply discardBuffer_only
    | with_reducible exact hF.of (by decide)
    | with_reducible apply Only.foldl
    | with_reducible apply OnlyP.foldl
    | with_reducible apply OnlyF.foldl
    | with_reducible apply OnlyP.mk'
    | with_reducible apply OnlyF.mk'
    | with_reducible refine OnlyP.of_eq (by assumption) ?_
    | with_reducible apply OnlyP.snd
    | with_reducible exact OnlyP.elim (by assumption)
    | with_reducible refine OnlyF.of_eq (by assumption) ?_
    | with_reducible apply OnlyF.fst
    | with_reducible exact OnlyF.elim (by assumption)

theorem sendFull_only {F : Nat} {s₀ : State} {s : State} {f : Fn} {line : Nat} {l : Line}
    (hs : Only F s₀ s) (hF : Within 8858371144 F) :
    Only F s₀ (sendFull s f line l) := by
  unfold sendFull
  repeat' first
    | with_reducible assumption
    | (intro _ _ _ _; try dsimp -zeta only)
    | (intro _ _ _; try dsimp -zeta only)
    | (intro _ _; try dsimp -zeta only)
    | (intro _; try dsimp -zeta only)
    | (extract_lets +onlyGivenNames y; refine cut (p := Only F s₀ y) ?_ (fun _ => ?_); rotate_left; clear_value y; rotate_right; subst y)
    | (extract_lets +onlyGivenNames y; try clear_value y)
    | with_reducible apply State.count64_only
    | with_reducible apply State.setHost_only
    | with_reducible apply sendPacket_only
    | with_reducible exact hF.of (by decide)
    | split

theorem writeBuffer_only {F : Nat} {s₀ : State} {f : Fn} {o : Nat} {bs : List Byte} {s : State} {line : Nat}
    (hs : Only F s₀ s) (hF : Within 8858371144 F) :
    Only F s₀ (writeBuffer f o bs s line) := by
  unfold writeBuffer
  repeat' first
    | with_reducible assumption
    | (intro _ _ _ _; try dsimp -zeta only)
    | (intro _ _ _; try dsimp -zeta only)
    | (intro _ _; try dsimp -zeta only)
    | (intro _; try dsimp -zeta only)
    | (extract_lets +onlyGivenNames y; refine cut (p := Only F s₀ y) ?_ (fun _ => ?_); rotate_left; clear_value y; rotate_right; subst y)
    | (extract_lets +onlyGivenNames y; try clear_value y)
    | with_reducible apply sendFull_only
    | with_reducible apply State.setHost_only
    | with_reducible apply discardBuffer_only
    | with_reducible exact hF.of (by decide)
    | with_reducible apply Only.ite
    | split

theorem execHostWriteTlp_only {F : Nat} {s₀ : State} {f : Fn} {offset : Nat} {bytes : List Byte} {s : State}
    (hs : Only F s₀ s) (hF : Within 8858371160 F) :
    OnlyN F s₀ (execHostWriteTlp f offset bytes s) := by
  unfold execHostWriteTlp
  repeat' first
    | with_reducible assumption
    | (intro _ _ _ _; try dsimp -zeta only)
    | (intro _ _ _; try dsimp -zeta only)
    | (intro _ _; try dsimp -zeta only)
    | (intro _; try dsimp -zeta only)
    | (extract_lets +onlyGivenNames y; refine cut (p := Only F s₀ y) ?_ (fun _ => ?_); rotate_left; clear_value y; rotate_right; subst y)
    | (extract_lets +onlyGivenNames y; try clear_value y)
    | with_reducible apply answer_only
    | with_reducible apply windowError_only
    | with_reducible apply writeBuffer_only
    | with_reducible exact hF.of (by decide)
    | with_reducible apply Only.foldl
    | with_reducible apply OnlyP.foldl
    | with_reducible apply OnlyF.foldl
    | with_reducible apply Only.ite
    | with_reducible apply OnlyP.ite
    | with_reducible apply OnlyF.ite
    | with_reducible apply OnlyN.ite
    | split
    | with_reducible apply OnlyN.next
    | with_reducible apply OnlyP.mk'
    | with_reducible apply OnlyF.mk'
    | with_reducible refine OnlyP.of_eq (by assumption) ?_
    | with_reducible apply OnlyP.snd
    | with_reducible exact OnlyP.elim (by assumption)
    | with_reducible refine OnlyF.of_eq (by assumption) ?_
    | with_reducible apply OnlyF.fst
    | with_reducible exact OnlyF.elim (by assumption)

theorem execLineBufferTimeout_only {F : Nat} {s₀ : State} {f : Fn} {line : Nat} {s : State}
    (hs : Only F s₀ s) (hF : Within 9663677518 F) :
    OnlyN F s₀ (execLineBufferTimeout f line s) := by
  unfold execLineBufferTimeout
  repeat' first
    | with_reducible assumption
    | (intro _ _ _ _; try dsimp -zeta only)
    | (intro _ _ _; try dsimp -zeta only)
    | (intro _ _; try dsimp -zeta only)
    | (intro _; try dsimp -zeta only)
    | with_reducible apply discardBuffer_only
    | with_reducible apply State.passTo_only
    | with_reducible exact hF.of (by decide)
    | split
    | with_reducible apply OnlyN.next

theorem retainedRead_only {F : Nat} {s₀ : State} {s : State} {f : Fn} {o : Nat} {n : Nat} {ls : List Nat}
    (hs : Only F s₀ s) (hF : Within 787560 F) :
    Only F s₀ (retainedRead s f o n ls) := by
  unfold retainedRead
  repeat' first
    | with_reducible assumption
    | (intro _ _ _ _; try dsimp -zeta only)
    | (intro _ _ _; try dsimp -zeta only)
    | (intro _ _; try dsimp -zeta only)
    | (intro _; try dsimp -zeta only)
    | (extract_lets +onlyGivenNames y; refine cut (p := Only F s₀ y) ?_ (fun _ => ?_); rotate_left; clear_value y; rotate_right; subst y)
    | (extract_lets +onlyGivenNames y; refine cut (p := OnlyP F s₀ y) ?_ (fun _ => ?_); rotate_left; clear_value y; rotate_right; subst y)
    | (extract_lets +onlyGivenNames y; try clear_value y)
    | with_reducible apply readLine_only
    | with_reducible apply State.emit_only
    | with_reducible apply State.count64_only
    | with_reducible exact hF.of (by decide)
    | with_reducible apply Only.foldl
    | with_reducible apply OnlyP.foldl
    | with_reducible apply OnlyP.mk'
    | with_reducible refine OnlyP.of_eq (by assumption) ?_
    | with_reducible apply OnlyP.snd
    | with_reducible exact OnlyP.elim (by assumption)

theorem askHost_only {F : Nat} {s₀ : State} {s : State} {f : Fn} {id : Nat} {offs : List (Nat × Nat)}
    (hs : Only F s₀ s) (hF : Within 268436552 F) :
    Only F s₀ (askHost s f id offs) := by
  unfold askHost
  repeat' first
    | with_reducible assumption
    | (intro _ _ _ _; try dsimp -zeta only)
    | (intro _ _ _; try dsimp -zeta only)
    | (intro _ _; try dsimp -zeta only)
    | (intro _; try dsimp -zeta only)
    | (extract_lets +onlyGivenNames y; refine cut (p := Only F s₀ y) ?_ (fun _ => ?_); rotate_left; clear_value y; rotate_right; subst y)
    | (extract_lets +onlyGivenNames y; try clear_value y)
    | with_reducible apply sendPacket_only
    | with_reducible exact hF.of (by decide)
    | with_reducible apply Only.foldl
    | with_reducible apply OnlyP.foldl
    | with_reducible apply OnlyF.foldl
    | with_reducible apply OnlyP.mk'
    | with_reducible apply OnlyF.mk'
    | with_reducible refine OnlyP.of_eq (by assumption) ?_
    | with_reducible apply OnlyP.snd
    | with_reducible exact OnlyP.elim (by assumption)
    | with_reducible refine OnlyF.of_eq (by assumption) ?_
    | with_reducible apply OnlyF.fst
    | with_reducible exact OnlyF.elim (by assumption)

theorem execHostReadTlp_only {F : Nat} {s₀ : State} {f : Fn} {offset : Nat} {length : Nat} {s : State}
    (hs : Only F s₀ s) (hF : Within 8859157608 F) :
    OnlyN F s₀ (execHostReadTlp f offset length s) := by
  unfold execHostReadTlp
  repeat' first
    | with_reducible assumption
    | (intro _ _ _ _; try dsimp -zeta only)
    | (intro _ _ _; try dsimp -zeta only)
    | (intro _ _; try dsimp -zeta only)
    | (intro _; try dsimp -zeta only)
    | (extract_lets +onlyGivenNames y; refine cut (p := Only F s₀ y) ?_ (fun _ => ?_); rotate_left; clear_value y; rotate_right; subst y)
    | (extract_lets +onlyGivenNames y; try clear_value y)
    | with_reducible apply windowError_only
    | with_reducible apply retainedRead_only
    | with_reducible apply askHost_only
    | with_reducible apply State.emit_only
    | with_reducible apply State.setHost_only
    | with_reducible exact hF.of (by decide)
    | with_reducible apply Only.ite
    | with_reducible apply OnlyN.ite
    | split
    | with_reducible apply OnlyN.next

theorem pageWrite_only {F : Nat} {s₀ : State} {s : State} {p : Path} {page : Nat} {v : Word}
    (hs : Only F s₀ s) (hF : Within 8591869000 F) :
    Only F s₀ (pageWrite s p page v) := by
  unfold pageWrite
  repeat' first
    | with_reducible assumption
    | (intro _ _ _ _; try dsimp -zeta only)
    | (intro _ _ _; try dsimp -zeta only)
    | (intro _ _; try dsimp -zeta only)
    | (intro _; try dsimp -zeta only)
    | (extract_lets +onlyGivenNames y; refine cut (p := Only F s₀ y) ?_ (fun _ => ?_); rotate_left; clear_value y; rotate_right; subst y)
    | (extract_lets +onlyGivenNames y; try clear_value y)
    | with_reducible apply pageEffect_only
    | with_reducible apply hostSettle_only
    | with_reducible apply discardAll_only
    | with_reducible apply State.setHost_only
    | with_reducible exact hF.of (by decide)
    | split

theorem execDoorbellWrite_only {F : Nat} {s₀ : State} {p : Path} {g : Fin 16384} {v : Word} {s : State}
    (hs : Only F s₀ s) (hF : Within 8591873112 F) :
    OnlyN F s₀ (execDoorbellWrite p g v s) := by
  unfold execDoorbellWrite
  repeat' first
    | with_reducible assumption
    | (intro _ _ _ _; try dsimp -zeta only)
    | (intro _ _ _; try dsimp -zeta only)
    | (intro _ _; try dsimp -zeta only)
    | (intro _; try dsimp -zeta only)
    | with_reducible apply queueWrite_only
    | with_reducible apply pageWrite_only
    | with_reducible exact hF.of (by decide)
    | with_reducible apply OnlyN.next

theorem tallyRegWrite_only {F : Nat} {s₀ : State} {s : State} {p : Path} {k : Nat} {o : Nat} {v : Word}
    (hs : Only F s₀ s) (hF : Within 8591873112 F) :
    Only F s₀ (tallyRegWrite s p k o v) := by
  unfold tallyRegWrite
  repeat' first
    | with_reducible assumption
    | (intro _ _ _ _; try dsimp -zeta only)
    | (intro _ _ _; try dsimp -zeta only)
    | (intro _ _; try dsimp -zeta only)
    | (intro _; try dsimp -zeta only)
    | (extract_lets +onlyGivenNames y; refine cut (p := Only F s₀ y) ?_ (fun _ => ?_); rotate_left; clear_value y; rotate_right; subst y)
    | (extract_lets +onlyGivenNames y; refine cut (p := ∀ u, Only F s₀ u → Only F s₀ (y u)) ?_ (fun hy => ?_); rotate_left; clear_value y; rotate_right; subst y)
    | (extract_lets +onlyGivenNames y; try clear_value y)
    | with_reducible apply pageWrite_only
    | with_reducible apply partyWrite_only
    | with_reducible apply accessError_only
    | with_reducible exact hF.of (by decide)
    | with_reducible apply hy
    | with_reducible apply Only.ite
    | split

theorem execTallyValueWrite_only {F : Nat} {s₀ : State} {p : Path} {k : Fin 131072} {v : Word} {s : State}
    (hs : Only F s₀ s) (hF : Within 8591873112 F) :
    OnlyN F s₀ (execTallyValueWrite p k v s) := by
  unfold execTallyValueWrite
  repeat' first
    | with_reducible assumption
    | with_reducible apply tallyRegWrite_only
    | with_reducible exact hF.of (by decide)
    | with_reducible apply OnlyN.next

theorem execTallyAddWrite_only {F : Nat} {s₀ : State} {p : Path} {k : Fin 131072} {v : Word} {s : State}
    (hs : Only F s₀ s) (hF : Within 8591873112 F) :
    OnlyN F s₀ (execTallyAddWrite p k v s) := by
  unfold execTallyAddWrite
  repeat' first
    | with_reducible assumption
    | with_reducible apply tallyRegWrite_only
    | with_reducible exact hF.of (by decide)
    | with_reducible apply OnlyN.next

theorem ideLost_only {F : Nat} {s₀ : State} {s : State} {f : Fn}
    (hs : Only F s₀ s) (hF : Within 1099511630920 F) :
    Only F s₀ (ideLost s f) := by
  unfold ideLost
  repeat' first
    | with_reducible assumption
    | exact FusesKept.same rfl rfl rfl rfl rfl rfl
    | (extract_lets +onlyGivenNames y; have t : Security := y; clear t; subst y)
    | (extract_lets +onlyGivenNames y; refine cut (p := Only F s₀ y) ?_ (fun _ => ?_); rotate_left; clear_value y; rotate_right; subst y)
    | (extract_lets +onlyGivenNames y; try clear_value y)
    | with_reducible apply secFault_only
    | with_reducible apply State.setFn_only
    | with_reducible exact hF.of (by decide)
    | with_reducible apply Only.ite
    | split
    | with_reducible apply Only.sec

theorem resetFn_only {F : Nat} {s₀ : State} {s : State} {f : Fn}
    (hs : Only F s₀ s) (hF : Within 8589937736 F) :
    Only F s₀ (resetFn s f) := by
  unfold resetFn
  repeat' first
    | with_reducible assumption
    | (intro _ _ _ _; try dsimp -zeta only)
    | (intro _ _ _; try dsimp -zeta only)
    | (intro _ _; try dsimp -zeta only)
    | (intro _; try dsimp -zeta only)
    | (extract_lets +onlyGivenNames y; refine cut (p := Only F s₀ y) ?_ (fun _ => ?_); rotate_left; clear_value y; rotate_right; subst y)
    | (extract_lets +onlyGivenNames y; try clear_value y)
    | with_reducible apply discardAll_only
    | with_reducible apply State.setHost_only
    | with_reducible apply State.setRing_only
    | with_reducible apply State.setFn_only
    | with_reducible exact hF.of (by decide)
    | with_reducible apply Only.each

theorem hostReset_only {F : Nat} {s₀ : State} {s : State} {e : HostEvent}
    (hs : Only F s₀ s) (hF : Within 1108101573704 F) :
    Only F s₀ (hostReset s e) := by
  unfold hostReset
  repeat' first
    | with_reducible assumption
    | (intro _ _ _ _; try dsimp -zeta only)
    | (intro _ _ _; try dsimp -zeta only)
    | (intro _ _; try dsimp -zeta only)
    | (intro _; try dsimp -zeta only)
    | (extract_lets +onlyGivenNames y; refine cut (p := Only F s₀ y) ?_ (fun _ => ?_); rotate_left; clear_value y; rotate_right; subst y)
    | (extract_lets +onlyGivenNames y; try clear_value y)
    | with_reducible apply ideLost_only
    | with_reducible apply resetFn_only
    | with_reducible apply State.setFn_only
    | with_reducible apply State.setReg_only
    | with_reducible apply State.count32_only
    | with_reducible apply post_only
    | with_reducible apply pathLost_only
    | with_reducible exact hF.of (by decide)
    | with_reducible apply Only.foldl
    | with_reducible apply OnlyP.foldl
    | with_reducible apply OnlyF.foldl
    | with_reducible apply Only.ite
    | with_reducible apply OnlyP.ite
    | with_reducible apply OnlyF.ite
    | split
    | with_reducible apply OnlyP.mk'
    | with_reducible apply OnlyF.mk'
    | with_reducible refine OnlyP.of_eq (by assumption) ?_
    | with_reducible apply OnlyP.snd
    | with_reducible exact OnlyP.elim (by assumption)
    | with_reducible refine OnlyF.of_eq (by assumption) ?_
    | with_reducible apply OnlyF.fst
    | with_reducible exact OnlyF.elim (by assumption)

theorem execHostPortReset_only {F : Nat} {s₀ : State} {event : HostEvent} {s : State}
    (hs : Only F s₀ s) (hF : Within 1108101573704 F) :
    OnlyN F s₀ (execHostPortReset event s) := by
  unfold execHostPortReset
  repeat' first
    | with_reducible assumption
    | with_reducible apply hostReset_only
    | with_reducible exact hF.of (by decide)
    | with_reducible apply Only.ite
    | with_reducible apply OnlyN.ite
    | split
    | with_reducible apply OnlyN.next

end Sys2Proof.Machine
end

