-- ==== Sys2Proof/Laws/OnlyItinerary.lean ====
section
/-! SUPPORT. What each operation of Sys2Proof/Machine/Itinerary.lean may change. -/

namespace Sys2Proof.Machine

open Sys2Proof

theorem State.setSlot_only {F : Nat} {s₀ : State} {s : State} {k : Nat} {x : Slot}
    (hs : Only F s₀ s) (hF : Within 4096 F) :
    Only F s₀ (State.setSlot s k x) := by
  unfold State.setSlot
  repeat' first
    | with_reducible assumption
    | (extract_lets +onlyGivenNames y; refine cut (p := Only F s₀ y) ?_ (fun _ => ?_); rotate_left; clear_value y; rotate_right; subst y)
    | (extract_lets +onlyGivenNames y; try clear_value y)
    | with_reducible exact hF.of (by decide)
    | with_reducible apply Only.itin

theorem storeWrite_only {F : Nat} {s₀ : State} {s : State} {off : Nat} {v : Word}
    (hs : Only F s₀ s) (hF : Within 4096 F) :
    Only F s₀ (storeWrite s off v) := by
  unfold storeWrite
  repeat' first
    | with_reducible assumption
    | (intro _ _ _ _; try dsimp -zeta only)
    | (intro _ _ _; try dsimp -zeta only)
    | (intro _ _; try dsimp -zeta only)
    | (intro _; try dsimp -zeta only)
    | (extract_lets +onlyGivenNames y; refine cut (p := Only F s₀ y) ?_ (fun _ => ?_); rotate_left; clear_value y; rotate_right; subst y)
    | (extract_lets +onlyGivenNames y; try clear_value y)
    | with_reducible apply State.setSlot_only
    | with_reducible exact hF.of (by decide)
    | with_reducible apply Only.each
    | with_reducible apply Only.ite
    | split
    | with_reducible apply Only.itin

theorem itinWrite_only {F : Nat} {s₀ : State} {s : State} {p : Path} {off : Nat} {v : Word} {effect : State → State}
    (hs : Only F s₀ s) (h_effect : ∀ x0, Only F s₀ x0 → Only F s₀ (effect x0)) (hF : Within 5208 F) :
    Only F s₀ (itinWrite s p off v effect) := by
  unfold itinWrite
  repeat' first
    | with_reducible assumption
    | (intro _ _ _ _; try dsimp -zeta only)
    | (intro _ _ _; try dsimp -zeta only)
    | (intro _ _; try dsimp -zeta only)
    | (intro _; try dsimp -zeta only)
    | with_reducible apply ownerWrite_only
    | with_reducible apply accessError_only
    | with_reducible exact hF.of (by decide)
    | apply h_effect
    | with_reducible apply Only.ite
    | split

theorem execItinStoreWrite_only {F : Nat} {s₀ : State} {p : Path} {offset : Nat} {data : Word} {s : State}
    (hs : Only F s₀ s) (hF : Within 5208 F) :
    OnlyN F s₀ (execItinStoreWrite p offset data s) := by
  unfold execItinStoreWrite
  repeat' first
    | with_reducible assumption
    | (intro _ _ _ _; try dsimp -zeta only)
    | (intro _ _ _; try dsimp -zeta only)
    | (intro _ _; try dsimp -zeta only)
    | (intro _; try dsimp -zeta only)
    | (extract_lets +onlyGivenNames y; refine cut (p := Only F s₀ y) ?_ (fun _ => ?_); rotate_left; clear_value y; rotate_right; subst y)
    | (extract_lets +onlyGivenNames y; try clear_value y)
    | with_reducible apply storeWrite_only
    | with_reducible apply itinWrite_only
    | with_reducible apply answer_only
    | with_reducible apply refused_only
    | with_reducible exact hF.of (by decide)
    | with_reducible apply Only.ite
    | with_reducible apply OnlyN.ite
    | split
    | with_reducible apply OnlyN.next

theorem startVerify_only {F : Nat} {s₀ : State} {s : State} {p : Path} {slot : Nat}
    (hs : Only F s₀ s) (hF : Within 5128 F) :
    Only F s₀ (startVerify s p slot) := by
  unfold startVerify
  repeat' first
    | with_reducible assumption
    | (extract_lets +onlyGivenNames y; refine cut (p := Only F s₀ y) ?_ (fun _ => ?_); rotate_left; clear_value y; rotate_right; subst y)
    | (extract_lets +onlyGivenNames y; try clear_value y)
    | with_reducible apply accessError_only
    | with_reducible apply State.setSlot_only
    | with_reducible exact hF.of (by decide)
    | with_reducible apply Only.ite
    | split
    | with_reducible apply Only.itin

theorem execVerify_only {F : Nat} {s₀ : State} {p : Path} {slot : Fin 64} {s : State}
    (hs : Only F s₀ s) (hF : Within 5208 F) :
    OnlyN F s₀ (execVerify p slot s) := by
  unfold execVerify
  repeat' first
    | with_reducible assumption
    | (intro _ _ _ _; try dsimp -zeta only)
    | (intro _ _ _; try dsimp -zeta only)
    | (intro _ _; try dsimp -zeta only)
    | (intro _; try dsimp -zeta only)
    | with_reducible apply itinWrite_only
    | with_reducible apply startVerify_only
    | with_reducible exact hF.of (by decide)
    | with_reducible apply OnlyN.next

theorem execItinVerifyDone_only {F : Nat} {s₀ : State} {s : State}
    (hs : Only F s₀ s) (hF : Within 4096 F) :
    OnlyN F s₀ (execItinVerifyDone s) := by
  unfold execItinVerifyDone
  repeat' first
    | with_reducible assumption
    | (intro _ _ _ _; try dsimp -zeta only)
    | (intro _ _ _; try dsimp -zeta only)
    | (intro _ _; try dsimp -zeta only)
    | (intro _; try dsimp -zeta only)
    | with_reducible apply State.setSlot_only
    | with_reducible exact hF.of (by decide)
    | with_reducible apply Only.ite
    | with_reducible apply OnlyN.ite
    | split
    | with_reducible apply OnlyN.next

theorem startSave_only {F : Nat} {s₀ : State} {s : State}
    (hs : Only F s₀ s) (hF : Within 4096 F) :
    Only F s₀ (startSave s) := by
  unfold startSave
  repeat' first
    | with_reducible assumption
    | (intro _ _ _ _; try dsimp -zeta only)
    | (intro _ _ _; try dsimp -zeta only)
    | (intro _ _; try dsimp -zeta only)
    | (intro _; try dsimp -zeta only)
    | (extract_lets +onlyGivenNames y; refine cut (p := Only F s₀ y) ?_ (fun _ => ?_); rotate_left; clear_value y; rotate_right; subst y)
    | (extract_lets +onlyGivenNames y; try clear_value y)
    | with_reducible exact hF.of (by decide)
    | with_reducible apply Only.itin

theorem execSave_only {F : Nat} {s₀ : State} {p : Path} {s : State}
    (hs : Only F s₀ s) (hF : Within 5208 F) :
    OnlyN F s₀ (execSave p s) := by
  unfold execSave
  repeat' first
    | with_reducible assumption
    | (intro _ _ _ _; try dsimp -zeta only)
    | (intro _ _ _; try dsimp -zeta only)
    | (intro _ _; try dsimp -zeta only)
    | (intro _; try dsimp -zeta only)
    | with_reducible apply itinWrite_only
    | with_reducible apply startSave_only
    | with_reducible exact hF.of (by decide)
    | with_reducible apply OnlyN.next

theorem execItinSaveDone_only {F : Nat} {s₀ : State} {s : State}
    (hs : Only F s₀ s) (hF : Within 1099511631872 F) :
    OnlyN F s₀ (execItinSaveDone s) := by
  unfold execItinSaveDone
  repeat' first
    | with_reducible assumption
    | exact FusesKept.same rfl rfl rfl rfl rfl rfl
    | (extract_lets +onlyGivenNames y; have t : Security := y; clear t; subst y)
    | (extract_lets +onlyGivenNames y; refine cut (p := Only F s₀ y) ?_ (fun _ => ?_); rotate_left; clear_value y; rotate_right; subst y)
    | (extract_lets +onlyGivenNames y; try clear_value y)
    | with_reducible exact hF.of (by decide)
    | split
    | with_reducible apply OnlyN.next
    | with_reducible apply Only.itin_sec

theorem refuseFold_only {F : Nat} {s₀ : State} {s : State} {xs : List FoldRefusal}
    (hs : Only F s₀ s) (hF : Within 4096 F) :
    Only F s₀ (refuseFold s xs) := by
  unfold refuseFold
  repeat' first
    | with_reducible assumption
    | (intro _ _ _ _; try dsimp -zeta only)
    | (intro _ _ _; try dsimp -zeta only)
    | (intro _ _; try dsimp -zeta only)
    | (intro _; try dsimp -zeta only)
    | (extract_lets +onlyGivenNames y; refine cut (p := Only F s₀ y) ?_ (fun _ => ?_); rotate_left; clear_value y; rotate_right; subst y)
    | (extract_lets +onlyGivenNames y; try clear_value y)
    | with_reducible apply reportEntry_only
    | with_reducible exact hF.of (by decide)
    | with_reducible apply Only.foldl
    | with_reducible apply OnlyP.foldl
    | with_reducible apply OnlyF.foldl
    | with_reducible apply Only.ite
    | with_reducible apply OnlyP.ite
    | with_reducible apply OnlyF.ite
    | split
    | with_reducible apply OnlyP.mk'
    | with_reducible apply OnlyF.mk'
    | with_reducible refine OnlyP.of_eq (by assumption) ?_
    | with_reducible apply OnlyP.snd
    | with_reducible exact OnlyP.elim (by assumption)
    | with_reducible refine OnlyF.of_eq (by assumption) ?_
    | with_reducible apply OnlyF.fst
    | with_reducible exact OnlyF.elim (by assumption)
    | with_reducible apply Only.itin

theorem beginFold_only {F : Nat} {s₀ : State} {s : State} {sel : Word} {boot : Bool}
    (hs : Only F s₀ s) (hF : Within 4104 F) :
    Only F s₀ (beginFold s sel boot) := by
  unfold beginFold
  repeat' first
    | with_reducible assumption
    | (intro _ _ _ _; try dsimp -zeta only)
    | (intro _ _ _; try dsimp -zeta only)
    | (intro _ _; try dsimp -zeta only)
    | (intro _; try dsimp -zeta only)
    | (extract_lets +onlyGivenNames y; refine cut (p := Only F s₀ y) ?_ (fun _ => ?_); rotate_left; clear_value y; rotate_right; subst y)
    | (extract_lets +onlyGivenNames y; try clear_value y)
    | with_reducible apply reportEntry_only
    | with_reducible apply State.used_only
    | with_reducible apply refuseFold_only
    | with_reducible exact hF.of (by decide)
    | with_reducible apply Only.foldl
    | with_reducible apply OnlyP.foldl
    | with_reducible apply OnlyF.foldl
    | split
    | with_reducible apply OnlyP.mk'
    | with_reducible apply OnlyF.mk'
    | with_reducible refine OnlyP.of_eq (by assumption) ?_
    | with_reducible apply OnlyP.snd
    | with_reducible exact OnlyP.elim (by assumption)
    | with_reducible refine OnlyF.of_eq (by assumption) ?_
    | with_reducible apply OnlyF.fst
    | with_reducible exact OnlyF.elim (by assumption)
    | with_reducible apply Only.itin

theorem execFoldGo_only {F : Nat} {s₀ : State} {p : Path} {s : State}
    (hs : Only F s₀ s) (hF : Within 5208 F) :
    OnlyN F s₀ (execFoldGo p s) := by
  unfold execFoldGo
  repeat' first
    | with_reducible assumption
    | (intro _ _ _ _; try dsimp -zeta only)
    | (intro _ _ _; try dsimp -zeta only)
    | (intro _ _; try dsimp -zeta only)
    | (intro _; try dsimp -zeta only)
    | with_reducible apply itinWrite_only
    | with_reducible apply beginFold_only
    | with_reducible exact hF.of (by decide)
    | with_reducible apply OnlyN.next

end Sys2Proof.Machine
end

