-- ==== Sys2Proof/Laws/OnlyTaster.lean ====
section
/-! SUPPORT. What each operation of Sys2Proof/Machine/Taster.lean may change. -/

namespace Sys2Proof.Machine

open Sys2Proof

theorem releaseSample_only {F : Nat} {s₀ : State} {s : State} {t : Nat} {engine : Nat} {bank : Nat} {queue : Nat} {idx : Word}
    (hs : Only F s₀ s) (hF : Within 25165824 F) :
    Only F s₀ (releaseSample s t engine bank queue idx) := by
  unfold releaseSample
  repeat' first
    | with_reducible assumption
    | (intro _ _ _ _; try dsimp -zeta only)
    | (intro _ _ _; try dsimp -zeta only)
    | (intro _ _; try dsimp -zeta only)
    | (intro _; try dsimp -zeta only)
    | (extract_lets +onlyGivenNames y; refine cut (p := Only F s₀ y) ?_ (fun _ => ?_); rotate_left; clear_value y; rotate_right; subst y)
    | (extract_lets +onlyGivenNames y; try clear_value y)
    | with_reducible apply State.setBank_only
    | with_reducible apply modPass_only
    | with_reducible exact hF.of (by decide)
    | split

theorem refOperand_only {F : Nat} {s₀ : State} {s : State} {t : Nat} {p : Pass} {k : Sample}
    (hs : Only F s₀ s) (hF : Within 3933256 F) :
    OnlyP F s₀ (refOperand s t p k) := by
  unfold refOperand
  repeat' first
    | with_reducible assumption
    | (intro _ _ _ _; try dsimp -zeta only)
    | (intro _ _ _; try dsimp -zeta only)
    | (intro _ _; try dsimp -zeta only)
    | (intro _; try dsimp -zeta only)
    | (extract_lets +onlyGivenNames y; refine cut (p := Only F s₀ y) ?_ (fun _ => ?_); rotate_left; clear_value y; rotate_right; subst y)
    | (extract_lets +onlyGivenNames y; refine cut (p := OnlyP F s₀ y) ?_ (fun _ => ?_); rotate_left; clear_value y; rotate_right; subst y)
    | (extract_lets +onlyGivenNames y; try clear_value y)
    | with_reducible apply loadElems_only
    | with_reducible exact hF.of (by decide)
    | split
    | with_reducible apply OnlyP.mk'
    | with_reducible refine OnlyP.of_eq (by assumption) ?_
    | with_reducible apply OnlyP.snd
    | with_reducible exact OnlyP.elim (by assumption)

theorem recompute_only {F : Nat} {s₀ : State} {s : State} {t : Nat} {p : Pass} {k : Sample}
    (hs : Only F s₀ s) (hF : Within 3933256 F) :
    OnlyP F s₀ (recompute s t p k) := by
  unfold recompute
  repeat' first
    | with_reducible assumption
    | (intro _ _ _ _; try dsimp -zeta only)
    | (intro _ _ _; try dsimp -zeta only)
    | (intro _ _; try dsimp -zeta only)
    | (intro _; try dsimp -zeta only)
    | (extract_lets +onlyGivenNames y; refine cut (p := Only F s₀ y) ?_ (fun _ => ?_); rotate_left; clear_value y; rotate_right; subst y)
    | (extract_lets +onlyGivenNames y; refine cut (p := OnlyP F s₀ y) ?_ (fun _ => ?_); rotate_left; clear_value y; rotate_right; subst y)
    | (extract_lets +onlyGivenNames y; try clear_value y)
    | with_reducible apply loadElems_only
    | with_reducible apply refOperand_only
    | with_reducible exact hF.of (by decide)
    | split
    | with_reducible apply OnlyP.mk'
    | with_reducible refine OnlyP.of_eq (by assumption) ?_
    | with_reducible apply OnlyP.snd
    | with_reducible exact OnlyP.elim (by assumption)

theorem execTasterRecompute_only {F : Nat} {s₀ : State} {t : Fin 64} {s : State}
    (hs : Only F s₀ s) (hF : Within 66847816 F) :
    OnlyN F s₀ (execTasterRecompute t s) := by
  unfold execTasterRecompute
  repeat' first
    | with_reducible assumption
    | (intro _ _ _ _; try dsimp -zeta only)
    | (intro _ _ _; try dsimp -zeta only)
    | (intro _ _; try dsimp -zeta only)
    | (intro _; try dsimp -zeta only)
    | (extract_lets +onlyGivenNames y; refine cut (p := Only F s₀ y) ?_ (fun _ => ?_); rotate_left; clear_value y; rotate_right; subst y)
    | (extract_lets +onlyGivenNames y; refine cut (p := OnlyP F s₀ y) ?_ (fun _ => ?_); rotate_left; clear_value y; rotate_right; subst y)
    | (extract_lets +onlyGivenNames y; try clear_value y)
    | with_reducible apply State.count32_only
    | with_reducible apply State.count64_only
    | with_reducible apply State.modTile_only
    | with_reducible apply admitReady_only
    | with_reducible apply vecWork_only
    | with_reducible apply releaseSample_only
    | with_reducible apply recompute_only
    | with_reducible exact hF.of (by decide)
    | with_reducible apply Only.ite
    | with_reducible apply OnlyP.ite
    | with_reducible apply OnlyN.ite
    | split
    | with_reducible apply OnlyN.next
    | with_reducible apply OnlyP.mk'
    | with_reducible refine OnlyP.of_eq (by assumption) ?_
    | with_reducible apply OnlyP.snd
    | with_reducible exact OnlyP.elim (by assumption)

theorem countOver_only {F : Nat} {s₀ : State} {s : State} {t : Nat} {w : Nat}
    (hs : Only F s₀ s) (hF : Within 1096 F) :
    Only F s₀ (countOver s t w) := by
  unfold countOver
  repeat' first
    | with_reducible assumption
    | (extract_lets +onlyGivenNames y; refine cut (p := Only F s₀ y) ?_ (fun _ => ?_); rotate_left; clear_value y; rotate_right; subst y)
    | (extract_lets +onlyGivenNames y; try clear_value y)
    | with_reducible apply State.count32_only
    | with_reducible apply post_only
    | with_reducible apply State.setField_only
    | with_reducible exact hF.of (by decide)
    | with_reducible apply Only.ite
    | split

theorem recordSample_only {F : Nat} {s₀ : State} {s : State} {t : Nat} {r : TasterResult}
    (hs : Only F s₀ s) (hF : Within 1096 F) :
    Only F s₀ (recordSample s t r) := by
  unfold recordSample
  repeat' first
    | with_reducible assumption
    | (extract_lets +onlyGivenNames y; refine cut (p := Only F s₀ y) ?_ (fun _ => ?_); rotate_left; clear_value y; rotate_right; subst y)
    | (extract_lets +onlyGivenNames y; try clear_value y)
    | with_reducible apply State.count32_only
    | with_reducible apply countOver_only
    | with_reducible apply State.setReg_only
    | with_reducible exact hF.of (by decide)
    | with_reducible apply Only.ite
    | split

theorem execTasterSampleRecord_only {F : Nat} {s₀ : State} {t : Fin 64} {s : State}
    (hs : Only F s₀ s) (hF : Within 62915656 F) :
    OnlyN F s₀ (execTasterSampleRecord t s) := by
  unfold execTasterSampleRecord
  repeat' first
    | with_reducible assumption
    | (intro _ _ _ _; try dsimp -zeta only)
    | (intro _ _ _; try dsimp -zeta only)
    | (intro _ _; try dsimp -zeta only)
    | (intro _; try dsimp -zeta only)
    | (extract_lets +onlyGivenNames y; refine cut (p := Only F s₀ y) ?_ (fun _ => ?_); rotate_left; clear_value y; rotate_right; subst y)
    | (extract_lets +onlyGivenNames y; try clear_value y)
    | with_reducible apply recordSample_only
    | with_reducible apply State.modTile_only
    | with_reducible apply admitReady_only
    | with_reducible apply releaseSample_only
    | with_reducible exact hF.of (by decide)
    | with_reducible apply Only.ite
    | with_reducible apply OnlyN.ite
    | split
    | with_reducible apply OnlyN.next

theorem clearWatch_only {F : Nat} {s₀ : State} {s : State} {t : Nat} {w : Nat}
    (hs : Only F s₀ s) (hF : Within 64 F) :
    Only F s₀ (clearWatch s t w) := by
  unfold clearWatch
  repeat' first
    | with_reducible assumption
    | (intro _ _ _ _; try dsimp -zeta only)
    | (intro _ _ _; try dsimp -zeta only)
    | (intro _ _; try dsimp -zeta only)
    | (intro _; try dsimp -zeta only)
    | with_reducible apply State.setReg_only
    | with_reducible exact hF.of (by decide)
    | with_reducible apply Only.each

theorem execWatchClear_only {F : Nat} {s₀ : State} {p : Path} {t : Fin 64} {w : Fin 256} {s : State}
    (hs : Only F s₀ s) (hF : Within 5208 F) :
    OnlyN F s₀ (execWatchClear p t w s) := by
  unfold execWatchClear
  repeat' first
    | with_reducible assumption
    | (intro _ _ _ _; try dsimp -zeta only)
    | (intro _ _ _; try dsimp -zeta only)
    | (intro _ _; try dsimp -zeta only)
    | (intro _; try dsimp -zeta only)
    | with_reducible apply ownerWrite_only
    | with_reducible apply clearWatch_only
    | with_reducible exact hF.of (by decide)
    | with_reducible apply OnlyN.next

theorem execTasteFold_only {F : Nat} {s₀ : State} {p : Path} {t : Fin 64} {s : State}
    (hs : Only F s₀ s) (hF : Within 5336 F) :
    OnlyN F s₀ (execTasteFold p t s) := by
  unfold execTasteFold
  repeat' first
    | with_reducible assumption
    | (intro _ _ _ _; try dsimp -zeta only)
    | (intro _ _ _; try dsimp -zeta only)
    | (intro _ _; try dsimp -zeta only)
    | (intro _; try dsimp -zeta only)
    | with_reducible apply ownerWrite_only
    | with_reducible apply State.foldReg_only
    | with_reducible exact hF.of (by decide)
    | with_reducible apply OnlyN.next

end Sys2Proof.Machine
end

