-- ==== Sys2Proof/Laws/OnlyParties.lean ====
section
/-! SUPPORT. What each operation of Sys2Proof/Machine/Parties.lean may change. -/

namespace Sys2Proof.Machine

open Sys2Proof

theorem loadSeeds_only {F : Nat} {s₀ : State} {s : State} {t : Nat} {seeds : SMap Dword}
    (hs : Only F s₀ s) (hF : Within 4194304 F) :
    Only F s₀ (loadSeeds s t seeds) := by
  unfold loadSeeds
  repeat' first
    | with_reducible assumption
    | (intro _ _ _ _; try dsimp -zeta only)
    | (intro _ _ _; try dsimp -zeta only)
    | (intro _ _; try dsimp -zeta only)
    | (intro _; try dsimp -zeta only)
    | with_reducible apply State.modTile_only
    | with_reducible exact hF.of (by decide)

theorem clearQueues_only {F : Nat} {s₀ : State} {s : State} {t : Nat}
    (hs : Only F s₀ s) (hF : Within 1081344 F) :
    Only F s₀ (clearQueues s t) := by
  unfold clearQueues
  repeat' first
    | with_reducible assumption
    | (intro _ _ _ _; try dsimp -zeta only)
    | (intro _ _ _; try dsimp -zeta only)
    | (intro _ _; try dsimp -zeta only)
    | (intro _; try dsimp -zeta only)
    | (extract_lets +onlyGivenNames y; refine cut (p := Only F s₀ y) ?_ (fun _ => ?_); rotate_left; clear_value y; rotate_right; subst y)
    | (extract_lets +onlyGivenNames y; try clear_value y)
    | with_reducible apply discardPrefetch_only
    | with_reducible apply State.setQueue_only
    | with_reducible exact hF.of (by decide)
    | with_reducible apply Only.each
    | with_reducible apply Only.ite
    | split

theorem clearTallies_only {F : Nat} {s₀ : State} {s : State} {t : Nat}
    (hs : Only F s₀ s) (hF : Within 65536 F) :
    Only F s₀ (clearTallies s t) := by
  refine Only.tallies hs hF fun hk j => ?_
  rw [mget_mdrop]; split
  · decide
  · exact hk j

theorem clearEngines_only {F : Nat} {s₀ : State} {s : State} {t : Nat}
    (hs : Only F s₀ s) (hF : Within 58720256 F) :
    Only F s₀ (clearEngines s t) := by
  unfold clearEngines
  repeat' first
    | with_reducible assumption
    | (intro _ _ _ _; try dsimp -zeta only)
    | (intro _ _ _; try dsimp -zeta only)
    | (intro _ _; try dsimp -zeta only)
    | (intro _; try dsimp -zeta only)
    | (extract_lets +onlyGivenNames y; refine cut (p := Only F s₀ y) ?_ (fun _ => ?_); rotate_left; clear_value y; rotate_right; subst y)
    | (extract_lets +onlyGivenNames y; try clear_value y)
    | with_reducible apply State.setEngine_only
    | with_reducible exact hF.of (by decide)
    | with_reducible apply Only.each
    | with_reducible apply Only.banks_drains

theorem clearHealth_only {F : Nat} {s₀ : State} {s : State} {t : Nat}
    (hs : Only F s₀ s) (hF : Within 64 F) :
    Only F s₀ (clearHealth s t) := by
  unfold clearHealth
  repeat' first
    | with_reducible assumption
    | (intro _ _ _ _; try dsimp -zeta only)
    | (intro _ _ _; try dsimp -zeta only)
    | (intro _ _; try dsimp -zeta only)
    | (intro _; try dsimp -zeta only)
    | (extract_lets +onlyGivenNames y; refine cut (p := Only F s₀ y) ?_ (fun _ => ?_); rotate_left; clear_value y; rotate_right; subst y)
    | (extract_lets +onlyGivenNames y; try clear_value y)
    | with_reducible apply clearWatch_only
    | with_reducible exact hF.of (by decide)
    | with_reducible apply Only.each
    | with_reducible apply Only.regs

theorem clearConns_only {F : Nat} {s₀ : State} {s : State} {t : Nat}
    (hs : Only F s₀ s) (hF : Within 268435456 F) :
    Only F s₀ (clearConns s t) := by
  unfold clearConns
  repeat' first
    | with_reducible assumption
    | (intro _ _ _ _; try dsimp -zeta only)
    | (intro _ _ _; try dsimp -zeta only)
    | (intro _ _; try dsimp -zeta only)
    | (intro _; try dsimp -zeta only)
    | (extract_lets +onlyGivenNames y; refine cut (p := Only F s₀ y) ?_ (fun _ => ?_); rotate_left; clear_value y; rotate_right; subst y)
    | (extract_lets +onlyGivenNames y; try clear_value y)
    | with_reducible exact hF.of (by decide)
    | with_reducible apply Only.fabric

theorem resetTile_only {F : Nat} {s₀ : State} {s : State} {p : Nat} {t : Nat}
    (hs : Only F s₀ s) (hF : Within 36369956960 F) :
    Only F s₀ (resetTile s p t) := by
  unfold resetTile
  repeat' first
    | with_reducible assumption
    | (intro _ _ _ _; try dsimp -zeta only)
    | (intro _ _ _; try dsimp -zeta only)
    | (intro _ _; try dsimp -zeta only)
    | (intro _; try dsimp -zeta only)
    | (extract_lets +onlyGivenNames y; refine cut (p := Only F s₀ y) ?_ (fun _ => ?_); rotate_left; clear_value y; rotate_right; subst y)
    | (extract_lets +onlyGivenNames y; refine cut (p := ∀ u, Only F s₀ u → Only F s₀ (y u)) ?_ (fun hy => ?_); rotate_left; clear_value y; rotate_right; subst y)
    | (extract_lets +onlyGivenNames y; try clear_value y)
    | with_reducible apply stopUnits_only
    | with_reducible apply State.setColl_only
    | with_reducible apply clearTallies_only
    | with_reducible apply clearQueues_only
    | with_reducible apply clearConns_only
    | with_reducible apply clearHealth_only
    | with_reducible apply clearEngines_only
    | with_reducible apply State.modTile_only
    | with_reducible exact hF.of (by decide)
    | with_reducible apply hy
    | split

theorem clearRollCall_only {F : Nat} {s₀ : State} {s : State} {p : Nat}
    (hs : Only F s₀ s) (hF : Within 1077936224 F) :
    Only F s₀ (clearRollCall s p) := by
  unfold clearRollCall
  repeat' first
    | with_reducible assumption
    | (intro _ _ _ _; try dsimp -zeta only)
    | (intro _ _ _; try dsimp -zeta only)
    | (intro _ _; try dsimp -zeta only)
    | (intro _; try dsimp -zeta only)
    | with_reducible apply refillOps_only
    | with_reducible exact hF.of (by decide)
    | with_reducible apply Only.rc

theorem resetMirrors_only {F : Nat} {s₀ : State} {s : State} {t : Nat}
    (hs : Only F s₀ s) (hF : Within 137438954504 F) :
    Only F s₀ (resetMirrors s t) := by
  unfold resetMirrors
  repeat' first
    | with_reducible assumption
    | (intro _ _ _ _; try dsimp -zeta only)
    | (intro _ _ _; try dsimp -zeta only)
    | (intro _ _; try dsimp -zeta only)
    | (intro _; try dsimp -zeta only)
    | with_reducible apply mirrorInvalid_only
    | with_reducible exact hF.of (by decide)
    | with_reducible apply Only.each

theorem discardOpen_only {F : Nat} {s₀ : State} {s : State} {p : Nat}
    (hs : Only F s₀ s) (hF : Within 34359738368 F) :
    Only F s₀ (discardOpen s p) := by
  unfold discardOpen
  repeat' first
    | with_reducible assumption
    | (intro _ _ _ _; try dsimp -zeta only)
    | (intro _ _ _; try dsimp -zeta only)
    | (intro _ _; try dsimp -zeta only)
    | (intro _; try dsimp -zeta only)
    | (extract_lets +onlyGivenNames y; refine cut (p := Only F s₀ y) ?_ (fun _ => ?_); rotate_left; clear_value y; rotate_right; subst y)
    | (extract_lets +onlyGivenNames y; try clear_value y)
    | with_reducible exact hF.of (by decide)
    | with_reducible apply Only.rk

theorem startReset_only {F : Nat} {s₀ : State} {s : State} {p : Nat}
    (hs : Only F s₀ s) (hF : Within 16384 F) :
    Only F s₀ (startReset s p) := by
  unfold startReset
  repeat' first
    | with_reducible assumption
    | (extract_lets +onlyGivenNames y; refine cut (p := Only F s₀ y) ?_ (fun _ => ?_); rotate_left; clear_value y; rotate_right; subst y)
    | (extract_lets +onlyGivenNames y; try clear_value y)
    | with_reducible apply State.setParty_only
    | with_reducible exact hF.of (by decide)

theorem requestReset_only {F : Nat} {s₀ : State} {s : State} {path : Path} {p : Nat}
    (hs : Only F s₀ s) (hF : Within 17416 F) :
    Only F s₀ (requestReset s path p) := by
  unfold requestReset
  repeat' first
    | with_reducible assumption
    | (extract_lets +onlyGivenNames y; refine cut (p := Only F s₀ y) ?_ (fun _ => ?_); rotate_left; clear_value y; rotate_right; subst y)
    | (extract_lets +onlyGivenNames y; try clear_value y)
    | with_reducible apply startReset_only
    | with_reducible apply State.setParty_only
    | with_reducible apply accessError_only
    | with_reducible exact hF.of (by decide)
    | with_reducible apply Only.ite
    | split

theorem execPartyResetRequest_only {F : Nat} {s₀ : State} {p : Path} {party : Fin 16} {s : State}
    (hs : Only F s₀ s) (hF : Within 21592 F) :
    OnlyN F s₀ (execPartyResetRequest p party s) := by
  unfold execPartyResetRequest
  repeat' first
    | with_reducible assumption
    | (intro _ _ _ _; try dsimp -zeta only)
    | (intro _ _ _; try dsimp -zeta only)
    | (intro _ _; try dsimp -zeta only)
    | (intro _; try dsimp -zeta only)
    | with_reducible apply ownerWrite_only
    | with_reducible apply requestReset_only
    | with_reducible exact hF.of (by decide)
    | with_reducible apply OnlyN.next

theorem execPartyResetWaitExpiry_only {F : Nat} {s₀ : State} {party : Fin 16} {s : State}
    (hs : Only F s₀ s) (hF : Within 1073758214 F) :
    OnlyN F s₀ (execPartyResetWaitExpiry party s) := by
  unfold execPartyResetWaitExpiry
  repeat' first
    | with_reducible assumption
    | (extract_lets +onlyGivenNames y; refine cut (p := Only F s₀ y) ?_ (fun _ => ?_); rotate_left; clear_value y; rotate_right; subst y)
    | (extract_lets +onlyGivenNames y; try clear_value y)
    | with_reducible apply startReset_only
    | with_reducible apply State.passTo_only
    | with_reducible exact hF.of (by decide)
    | with_reducible apply Only.ite
    | with_reducible apply OnlyN.ite
    | split
    | with_reducible apply OnlyN.next

theorem execPartyReset_only {F : Nat} {s₀ : State} {party : Fin 16} {s : State}
    (hs : Only F s₀ s) (hF : Within 173808927848 F) :
    OnlyN F s₀ (execPartyReset party s) := by
  unfold execPartyReset
  repeat' first
    | with_reducible assumption
    | (intro _ _ _ _; try dsimp -zeta only)
    | (intro _ _ _; try dsimp -zeta only)
    | (intro _ _; try dsimp -zeta only)
    | (intro _; try dsimp -zeta only)
    | (extract_lets +onlyGivenNames y; refine cut (p := Only F s₀ y) ?_ (fun _ => ?_); rotate_left; clear_value y; rotate_right; subst y)
    | (extract_lets +onlyGivenNames y; try clear_value y)
    | with_reducible apply resetMirrors_only
    | with_reducible apply resetTile_only
    | with_reducible apply State.setParty_only
    | with_reducible apply discardOpen_only
    | with_reducible apply clearRollCall_only
    | with_reducible exact hF.of (by decide)
    | with_reducible apply Only.each
    | with_reducible apply Only.ite
    | with_reducible apply OnlyN.ite
    | split
    | with_reducible apply OnlyN.next

theorem execPartyResetDone_only {F : Nat} {s₀ : State} {party : Fin 16} {s : State}
    (hs : Only F s₀ s) (hF : Within 17416 F) :
    OnlyN F s₀ (execPartyResetDone party s) := by
  unfold execPartyResetDone
  repeat' first
    | with_reducible assumption
    | (intro _ _ _ _; try dsimp -zeta only)
    | (intro _ _ _; try dsimp -zeta only)
    | (intro _ _; try dsimp -zeta only)
    | (intro _; try dsimp -zeta only)
    | (extract_lets +onlyGivenNames y; refine cut (p := Only F s₀ y) ?_ (fun _ => ?_); rotate_left; clear_value y; rotate_right; subst y)
    | (extract_lets +onlyGivenNames y; try clear_value y)
    | with_reducible apply State.setParty_only
    | with_reducible apply post_only
    | with_reducible exact hF.of (by decide)
    | with_reducible apply Only.ite
    | with_reducible apply OnlyN.ite
    | split
    | with_reducible apply OnlyN.next

theorem execPartyZeroingDone_only {F : Nat} {s₀ : State} {party : Fin 16} {s : State}
    (hs : Only F s₀ s) (hF : Within 17416 F) :
    OnlyN F s₀ (execPartyZeroingDone party s) := by
  unfold execPartyZeroingDone
  repeat' first
    | with_reducible assumption
    | (intro _ _ _ _; try dsimp -zeta only)
    | (intro _ _ _; try dsimp -zeta only)
    | (intro _ _; try dsimp -zeta only)
    | (intro _; try dsimp -zeta only)
    | (extract_lets +onlyGivenNames y; refine cut (p := Only F s₀ y) ?_ (fun _ => ?_); rotate_left; clear_value y; rotate_right; subst y)
    | (extract_lets +onlyGivenNames y; try clear_value y)
    | with_reducible apply post_only
    | with_reducible apply State.setParty_only
    | with_reducible exact hF.of (by decide)
    | with_reducible apply Only.ite
    | with_reducible apply OnlyN.ite
    | split
    | with_reducible apply OnlyN.next

theorem bootEvent_only {F : Nat} {s₀ : State} {s : State} {result : Nat} {reason : Nat}
    (hs : Only F s₀ s) (hF : Within 1032 F) :
    Only F s₀ (bootEvent s result reason) := by
  unfold bootEvent
  repeat' first
    | with_reducible assumption
    | with_reducible apply post_only
    | with_reducible exact hF.of (by decide)

theorem unwrapKey_only {F : Nat} {s₀ : State} {s : State}
    (hs : Only F s₀ s) (hF : Within 1099511628872 F) :
    Only F s₀ (unwrapKey s) := by
  unfold unwrapKey
  repeat' first
    | with_reducible assumption
    | exact FusesKept.same rfl rfl rfl rfl rfl rfl
    | (extract_lets +onlyGivenNames y; have t : Security := y; clear t; subst y)
    | (extract_lets +onlyGivenNames y; refine cut (p := Only F s₀ y) ?_ (fun _ => ?_); rotate_left; clear_value y; rotate_right; subst y)
    | (extract_lets +onlyGivenNames y; try clear_value y)
    | with_reducible apply secFault_only
    | with_reducible exact hF.of (by decide)
    | with_reducible apply Only.ite
    | split
    | with_reducible apply Only.sec

theorem execBootFold_only {F : Nat} {s₀ : State} {s : State}
    (hs : Only F s₀ s) (hF : Within 3298534888520 F) :
    OnlyN F s₀ (execBootFold s) := by
  unfold execBootFold
  repeat' first
    | with_reducible assumption
    | (intro _ _ _ _; try dsimp -zeta only)
    | (intro _ _ _; try dsimp -zeta only)
    | (intro _ _; try dsimp -zeta only)
    | (intro _; try dsimp -zeta only)
    | (extract_lets +onlyGivenNames y; refine cut (p := Only F s₀ y) ?_ (fun _ => ?_); rotate_left; clear_value y; rotate_right; subst y)
    | (extract_lets +onlyGivenNames y; try clear_value y)
    | with_reducible apply bootEvent_only
    | with_reducible apply State.setSlot_only
    | with_reducible apply beginFold_only
    | with_reducible apply unwrapKey_only
    | with_reducible exact hF.of (by decide)
    | with_reducible apply Only.each
    | with_reducible apply Only.ite
    | with_reducible apply OnlyN.ite
    | split
    | with_reducible apply OnlyN.next
    | with_reducible apply Only.power
    | with_reducible apply Only.itin

end Sys2Proof.Machine
end

