-- ==== Sys2Proof/Laws/OnlyPorts.lean ====
section
/-! SUPPORT. What each operation of Sys2Proof/Machine/Ports.lean may change. -/

namespace Sys2Proof.Machine

open Sys2Proof

theorem clearPort_only {F : Nat} {s₀ : State} {s : State} {n : Nat} {p : Nat}
    (hs : Only F s₀ s) (hF : Within 144149840968 F) :
    Only F s₀ (clearPort s n p) := by
  unfold clearPort
  repeat' first
    | with_reducible assumption
    | (intro _ _ _ _; try dsimp -zeta only)
    | (intro _ _ _; try dsimp -zeta only)
    | (intro _ _; try dsimp -zeta only)
    | (intro _; try dsimp -zeta only)
    | (extract_lets +onlyGivenNames y; refine cut (p := Only F s₀ y) ?_ (fun _ => ?_); rotate_left; clear_value y; rotate_right; subst y)
    | (extract_lets +onlyGivenNames y; try clear_value y)
    | with_reducible apply parkBundle_only
    | with_reducible exact hF.of (by decide)
    | with_reducible apply Only.each
    | with_reducible apply Only.ite
    | split

theorem lasersFollow_only {F : Nat} {s₀ : State} {s : State} {n : Nat}
    (hs : Only F s₀ s) (hF : Within 2147483648 F) :
    Only F s₀ (lasersFollow s n) := by
  unfold lasersFollow
  repeat' first
    | with_reducible assumption
    | (intro _ _ _ _; try dsimp -zeta only)
    | (intro _ _ _; try dsimp -zeta only)
    | (intro _ _; try dsimp -zeta only)
    | (intro _; try dsimp -zeta only)
    | (extract_lets +onlyGivenNames y; refine cut (p := Only F s₀ y) ?_ (fun _ => ?_); rotate_left; clear_value y; rotate_right; subst y)
    | (extract_lets +onlyGivenNames y; try clear_value y)
    | with_reducible apply State.setLantern_only
    | with_reducible exact hF.of (by decide)

theorem startPort_only {F : Nat} {s₀ : State} {s : State} {n : Nat} {p : Nat} {cause : Nat}
    (hs : Only F s₀ s) (hF : Within 2147483648 F) :
    Only F s₀ (startPort s n p cause) := by
  unfold startPort
  repeat' first
    | with_reducible assumption
    | (extract_lets +onlyGivenNames y; refine cut (p := Only F s₀ y) ?_ (fun _ => ?_); rotate_left; clear_value y; rotate_right; subst y)
    | (extract_lets +onlyGivenNames y; try clear_value y)
    | with_reducible apply lasersFollow_only
    | with_reducible apply State.setPort_only
    | with_reducible exact hF.of (by decide)

theorem stopPort_only {F : Nat} {s₀ : State} {s : State} {n : Nat} {p : Nat} {cause : Nat}
    (hs : Only F s₀ s) (hF : Within 144149840968 F) :
    Only F s₀ (stopPort s n p cause) := by
  unfold stopPort
  repeat' first
    | with_reducible assumption
    | (extract_lets +onlyGivenNames y; refine cut (p := Only F s₀ y) ?_ (fun _ => ?_); rotate_left; clear_value y; rotate_right; subst y)
    | (extract_lets +onlyGivenNames y; try clear_value y)
    | with_reducible apply clearPort_only
    | with_reducible apply State.setPort_only
    | with_reducible apply lasersFollow_only
    | with_reducible apply State.setReg_only
    | with_reducible exact hF.of (by decide)

theorem execLanternStart_only {F : Nat} {s₀ : State} {n : Fin 8} {s : State}
    (hs : Only F s₀ s) (hF : Within 3221225478 F) :
    OnlyN F s₀ (execLanternStart n s) := by
  unfold execLanternStart
  repeat' first
    | with_reducible assumption
    | (intro _ _ _ _; try dsimp -zeta only)
    | (intro _ _ _; try dsimp -zeta only)
    | (intro _ _; try dsimp -zeta only)
    | (intro _; try dsimp -zeta only)
    | (extract_lets +onlyGivenNames y; refine cut (p := Only F s₀ y) ?_ (fun _ => ?_); rotate_left; clear_value y; rotate_right; subst y)
    | (extract_lets +onlyGivenNames y; try clear_value y)
    | with_reducible apply State.passTo_only
    | with_reducible apply State.setLantern_only
    | with_reducible apply startPort_only
    | with_reducible exact hF.of (by decide)
    | with_reducible apply Only.foldl
    | with_reducible apply OnlyP.foldl
    | with_reducible apply OnlyF.foldl
    | with_reducible apply Only.each
    | with_reducible apply Only.ite
    | with_reducible apply OnlyP.ite
    | with_reducible apply OnlyF.ite
    | with_reducible apply OnlyN.ite
    | split
    | with_reducible apply OnlyN.next
    | with_reducible apply OnlyP.mk'
    | with_reducible apply OnlyF.mk'
    | with_reducible refine OnlyP.of_eq (by assumption) ?_
    | with_reducible apply OnlyP.snd
    | with_reducible exact OnlyP.elim (by assumption)
    | with_reducible refine OnlyF.of_eq (by assumption) ?_
    | with_reducible apply OnlyF.fst
    | with_reducible exact OnlyF.elim (by assumption)

theorem execProbeBurst_only {F : Nat} {s₀ : State} {n : Fin 8} {port : Fin 16} {s : State}
    (hs : Only F s₀ s) (hF : Within 32 F) :
    OnlyN F s₀ (execProbeBurst n port s) := by
  unfold execProbeBurst
  repeat' first
    | with_reducible assumption
    | with_reducible apply State.emit_only
    | with_reducible exact hF.of (by decide)
    | with_reducible apply Only.ite
    | with_reducible apply OnlyN.ite
    | split
    | with_reducible apply OnlyN.next

theorem execPortLightReceived_only {F : Nat} {s₀ : State} {n : Fin 8} {port : Fin 16} {power : Int} {s : State}
    (hs : Only F s₀ s) (hF : Within 2147483744 F) :
    OnlyN F s₀ (execPortLightReceived n port power s) := by
  unfold execPortLightReceived
  repeat' first
    | with_reducible assumption
    | (extract_lets +onlyGivenNames y; refine cut (p := Only F s₀ y) ?_ (fun _ => ?_); rotate_left; clear_value y; rotate_right; subst y)
    | (extract_lets +onlyGivenNames y; try clear_value y)
    | with_reducible apply State.setReg_only
    | with_reducible apply State.emit_only
    | with_reducible apply State.setPort_only
    | with_reducible exact hF.of (by decide)
    | with_reducible apply Only.ite
    | with_reducible apply OnlyN.ite
    | split
    | with_reducible apply OnlyN.next

theorem execIdentitySend_only {F : Nat} {s₀ : State} {n : Fin 8} {port : Fin 16} {s : State}
    (hs : Only F s₀ s) (hF : Within 32 F) :
    OnlyN F s₀ (execIdentitySend n port s) := by
  unfold execIdentitySend
  repeat' first
    | with_reducible assumption
    | (intro _ _ _ _; try dsimp -zeta only)
    | (intro _ _ _; try dsimp -zeta only)
    | (intro _ _; try dsimp -zeta only)
    | (intro _; try dsimp -zeta only)
    | (extract_lets +onlyGivenNames y; refine cut (p := Only F s₀ y) ?_ (fun _ => ?_); rotate_left; clear_value y; rotate_right; subst y)
    | (extract_lets +onlyGivenNames y; try clear_value y)
    | with_reducible apply State.emit_only
    | with_reducible exact hF.of (by decide)
    | with_reducible apply Only.ite
    | with_reducible apply OnlyN.ite
    | split
    | with_reducible apply OnlyN.next

theorem setConnPort_only {F : Nat} {s₀ : State} {s : State} {c : LinkPort} {x : Port}
    (hs : Only F s₀ s) (hF : Within 6442450944 F) :
    Only F s₀ (setConnPort s c x) := by
  unfold setConnPort
  repeat' first
    | with_reducible assumption
    | with_reducible apply State.setPort_only
    | with_reducible apply State.setCopper_only
    | with_reducible exact hF.of (by decide)
    | split

theorem offerKey_only {F : Nat} {s₀ : State} {s : State} {c : LinkPort}
    (hs : Only F s₀ s) (hF : Within 6442450984 F) :
    Only F s₀ (offerKey s c) := by
  unfold offerKey
  repeat' first
    | with_reducible assumption
    | (intro _ _ _ _; try dsimp -zeta only)
    | (intro _ _ _; try dsimp -zeta only)
    | (intro _ _; try dsimp -zeta only)
    | (intro _; try dsimp -zeta only)
    | (extract_lets +onlyGivenNames y; refine cut (p := Only F s₀ y) ?_ (fun _ => ?_); rotate_left; clear_value y; rotate_right; subst y)
    | (extract_lets +onlyGivenNames y; try clear_value y)
    | with_reducible apply State.emit_only
    | with_reducible apply State.used_only
    | with_reducible apply setConnPort_only
    | with_reducible exact hF.of (by decide)

theorem keyFails_only {F : Nat} {s₀ : State} {s : State} {c : LinkPort}
    (hs : Only F s₀ s) (hF : Within 144149840968 F) :
    Only F s₀ (keyFails s c) := by
  unfold keyFails
  repeat' first
    | with_reducible assumption
    | (extract_lets +onlyGivenNames y; refine cut (p := Only F s₀ y) ?_ (fun _ => ?_); rotate_left; clear_value y; rotate_right; subst y)
    | (extract_lets +onlyGivenNames y; try clear_value y)
    | with_reducible apply clearPort_only
    | with_reducible apply State.setLink_only
    | with_reducible apply setConnPort_only
    | with_reducible apply secFault_only
    | with_reducible exact hF.of (by decide)
    | split

theorem execKeyOffer_only {F : Nat} {s₀ : State} {c : LinkPort} {offer : KeyOffer} {s : State}
    (hs : Only F s₀ s) (hF : Within 144149841000 F) :
    OnlyN F s₀ (execKeyOffer c offer s) := by
  unfold execKeyOffer
  repeat' first
    | with_reducible assumption
    | (intro _ _ _ _; try dsimp -zeta only)
    | (intro _ _ _; try dsimp -zeta only)
    | (intro _ _; try dsimp -zeta only)
    | (intro _; try dsimp -zeta only)
    | (extract_lets +onlyGivenNames y; refine cut (p := Only F s₀ y) ?_ (fun _ => ?_); rotate_left; clear_value y; rotate_right; subst y)
    | (extract_lets +onlyGivenNames y; try clear_value y)
    | with_reducible apply State.emit_only
    | with_reducible apply setConnPort_only
    | with_reducible apply keyFails_only
    | with_reducible exact hF.of (by decide)
    | with_reducible apply Only.ite
    | with_reducible apply OnlyN.ite
    | split
    | with_reducible apply OnlyN.next

theorem connKeyed_only {F : Nat} {s₀ : State} {s : State} {c : LinkPort}
    (hs : Only F s₀ s) (hF : Within 2415919168 F) :
    Only F s₀ (connKeyed s c) := by
  unfold connKeyed
  repeat' first
    | with_reducible assumption
    | with_reducible apply relight_only
    | with_reducible apply reroute_only
    | with_reducible apply State.setLink_only
    | with_reducible exact hF.of (by decide)
    | split

theorem execKeyConfirm_only {F : Nat} {s₀ : State} {c : LinkPort} {tag : BitVec 128} {s : State}
    (hs : Only F s₀ s) (hF : Within 144149840968 F) :
    OnlyN F s₀ (execKeyConfirm c tag s) := by
  unfold execKeyConfirm
  repeat' first
    | with_reducible assumption
    | (intro _ _ _ _; try dsimp -zeta only)
    | (intro _ _ _; try dsimp -zeta only)
    | (intro _ _; try dsimp -zeta only)
    | (intro _; try dsimp -zeta only)
    | (extract_lets +onlyGivenNames y; refine cut (p := Only F s₀ y) ?_ (fun _ => ?_); rotate_left; clear_value y; rotate_right; subst y)
    | (extract_lets +onlyGivenNames y; try clear_value y)
    | with_reducible apply setConnPort_only
    | with_reducible apply keyFails_only
    | with_reducible apply connKeyed_only
    | with_reducible exact hF.of (by decide)
    | with_reducible apply Only.ite
    | with_reducible apply OnlyN.ite
    | split
    | with_reducible apply OnlyN.next

theorem identified_only {F : Nat} {s₀ : State} {s : State} {c : LinkPort} {own : Nat} {expected : Option Nat} {i : Identity}
    (hs : Only F s₀ s) (hF : Within 6442452008 F) :
    Only F s₀ (identified s c own expected i) := by
  unfold identified
  repeat' first
    | with_reducible assumption
    | (extract_lets +onlyGivenNames y; refine cut (p := Only F s₀ y) ?_ (fun _ => ?_); rotate_left; clear_value y; rotate_right; subst y)
    | (extract_lets +onlyGivenNames y; try clear_value y)
    | with_reducible apply setConnPort_only
    | with_reducible apply post_only
    | with_reducible apply offerKey_only
    | with_reducible exact hF.of (by decide)
    | with_reducible apply Only.ite
    | split

theorem execPortIdentity_only {F : Nat} {s₀ : State} {n : Fin 8} {port : Fin 16} {identity : Identity} {s : State}
    (hs : Only F s₀ s) (hF : Within 6442452008 F) :
    OnlyN F s₀ (execPortIdentity n port identity s) := by
  unfold execPortIdentity
  repeat' first
    | with_reducible assumption
    | (intro _ _ _ _; try dsimp -zeta only)
    | (intro _ _ _; try dsimp -zeta only)
    | (intro _ _; try dsimp -zeta only)
    | (intro _; try dsimp -zeta only)
    | (extract_lets +onlyGivenNames y; refine cut (p := Only F s₀ y) ?_ (fun _ => ?_); rotate_left; clear_value y; rotate_right; subst y)
    | (extract_lets +onlyGivenNames y; try clear_value y)
    | with_reducible apply post_only
    | with_reducible apply State.setPort_only
    | with_reducible apply identified_only
    | with_reducible exact hF.of (by decide)
    | with_reducible apply Only.ite
    | with_reducible apply OnlyN.ite
    | split
    | with_reducible apply OnlyN.next

theorem attemptEnds_only {F : Nat} {s₀ : State} {s : State} {c : LinkPort} {absent : Nat}
    (hs : Only F s₀ s) (hF : Within 7516193806 F) :
    Only F s₀ (attemptEnds s c absent) := by
  unfold attemptEnds
  repeat' first
    | with_reducible assumption
    | (extract_lets +onlyGivenNames y; refine cut (p := Only F s₀ y) ?_ (fun _ => ?_); rotate_left; clear_value y; rotate_right; subst y)
    | (extract_lets +onlyGivenNames y; try clear_value y)
    | with_reducible apply State.passTo_only
    | with_reducible apply setConnPort_only
    | with_reducible apply post_only
    | with_reducible exact hF.of (by decide)
    | with_reducible apply Only.ite
    | split

theorem execPortAttemptTimeout_only {F : Nat} {s₀ : State} {n : Fin 8} {port : Fin 16} {s : State}
    (hs : Only F s₀ s) (hF : Within 7516193806 F) :
    OnlyN F s₀ (execPortAttemptTimeout n port s) := by
  unfold execPortAttemptTimeout
  repeat' first
    | with_reducible assumption
    | with_reducible apply attemptEnds_only
    | with_reducible exact hF.of (by decide)
    | with_reducible apply OnlyN.next

theorem execPortLossOfLight_only {F : Nat} {s₀ : State} {n : Fin 8} {port : Fin 16} {s : State}
    (hs : Only F s₀ s) (hF : Within 144149840968 F) :
    OnlyN F s₀ (execPortLossOfLight n port s) := by
  unfold execPortLossOfLight
  repeat' first
    | with_reducible assumption
    | (extract_lets +onlyGivenNames y; refine cut (p := Only F s₀ y) ?_ (fun _ => ?_); rotate_left; clear_value y; rotate_right; subst y)
    | (extract_lets +onlyGivenNames y; try clear_value y)
    | with_reducible apply State.count32_only
    | with_reducible apply clearPort_only
    | with_reducible apply State.setPort_only
    | with_reducible apply startPort_only
    | with_reducible apply State.setReg_only
    | with_reducible apply post_only
    | with_reducible exact hF.of (by decide)
    | with_reducible apply Only.ite
    | with_reducible apply OnlyN.ite
    | split
    | with_reducible apply OnlyN.next

theorem retrainPorts_only {F : Nat} {s₀ : State} {s : State} {n : Nat} {ports : Nat → Bool}
    (hs : Only F s₀ s) (hF : Within 2147483648 F) :
    Only F s₀ (retrainPorts s n ports) := by
  unfold retrainPorts
  repeat' first
    | with_reducible assumption
    | (intro _ _ _ _; try dsimp -zeta only)
    | (intro _ _ _; try dsimp -zeta only)
    | (intro _ _; try dsimp -zeta only)
    | (intro _; try dsimp -zeta only)
    | (extract_lets +onlyGivenNames y; refine cut (p := Only F s₀ y) ?_ (fun _ => ?_); rotate_left; clear_value y; rotate_right; subst y)
    | (extract_lets +onlyGivenNames y; try clear_value y)
    | with_reducible apply startPort_only
    | with_reducible exact hF.of (by decide)
    | with_reducible apply Only.each
    | with_reducible apply Only.ite
    | split

theorem execPortRetrain_only {F : Nat} {s₀ : State} {p : Path} {n : Fin 8} {ports : BitVec 16} {s : State}
    (hs : Only F s₀ s) (hF : Within 2147488856 F) :
    OnlyN F s₀ (execPortRetrain p n ports s) := by
  unfold execPortRetrain
  repeat' first
    | with_reducible assumption
    | (intro _ _ _ _; try dsimp -zeta only)
    | (intro _ _ _; try dsimp -zeta only)
    | (intro _ _; try dsimp -zeta only)
    | (intro _; try dsimp -zeta only)
    | with_reducible apply ownerWrite_only
    | with_reducible apply retrainPorts_only
    | with_reducible exact hF.of (by decide)
    | with_reducible apply OnlyN.next

theorem startCopper_only {F : Nat} {s₀ : State} {s : State} {k : Nat} {cause : Nat}
    (hs : Only F s₀ s) (hF : Within 4294967296 F) :
    Only F s₀ (startCopper s k cause) := by
  unfold startCopper
  repeat' first
    | with_reducible assumption
    | (extract_lets +onlyGivenNames y; refine cut (p := Only F s₀ y) ?_ (fun _ => ?_); rotate_left; clear_value y; rotate_right; subst y)
    | (extract_lets +onlyGivenNames y; try clear_value y)
    | with_reducible apply State.setCopper_only
    | with_reducible exact hF.of (by decide)

theorem stopCopper_only {F : Nat} {s₀ : State} {s : State} {k : Nat} {cause : Nat}
    (hs : Only F s₀ s) (hF : Within 142002357320 F) :
    Only F s₀ (stopCopper s k cause) := by
  unfold stopCopper
  repeat' first
    | with_reducible assumption
    | (extract_lets +onlyGivenNames y; refine cut (p := Only F s₀ y) ?_ (fun _ => ?_); rotate_left; clear_value y; rotate_right; subst y)
    | (extract_lets +onlyGivenNames y; try clear_value y)
    | with_reducible apply linkDown_only
    | with_reducible apply State.setLink_only
    | with_reducible apply State.setCopper_only
    | with_reducible exact hF.of (by decide)
    | with_reducible apply Only.ite
    | split

theorem execCopperTrainStart_only {F : Nat} {s₀ : State} {k : Fin 13} {s : State}
    (hs : Only F s₀ s) (hF : Within 5368709126 F) :
    OnlyN F s₀ (execCopperTrainStart k s) := by
  unfold execCopperTrainStart
  repeat' first
    | with_reducible assumption
    | (extract_lets +onlyGivenNames y; refine cut (p := Only F s₀ y) ?_ (fun _ => ?_); rotate_left; clear_value y; rotate_right; subst y)
    | (extract_lets +onlyGivenNames y; try clear_value y)
    | with_reducible apply startCopper_only
    | with_reducible apply State.passTo_only
    | with_reducible exact hF.of (by decide)
    | with_reducible apply Only.ite
    | with_reducible apply OnlyN.ite
    | split
    | with_reducible apply OnlyN.next

theorem sendCopperIdentity_only {F : Nat} {s₀ : State} {s : State} {k : Fin 13}
    (hs : Only F s₀ s) (hF : Within 32 F) :
    Only F s₀ (sendCopperIdentity s k) := by
  unfold sendCopperIdentity
  repeat' first
    | with_reducible assumption
    | (intro _ _ _ _; try dsimp -zeta only)
    | (intro _ _ _; try dsimp -zeta only)
    | (intro _ _; try dsimp -zeta only)
    | (intro _; try dsimp -zeta only)
    | with_reducible apply State.emit_only
    | with_reducible exact hF.of (by decide)
    | split

theorem execCopperLanesLocked_only {F : Nat} {s₀ : State} {k : Fin 13} {s : State}
    (hs : Only F s₀ s) (hF : Within 4294967328 F) :
    OnlyN F s₀ (execCopperLanesLocked k s) := by
  unfold execCopperLanesLocked
  repeat' first
    | with_reducible assumption
    | (extract_lets +onlyGivenNames y; refine cut (p := Only F s₀ y) ?_ (fun _ => ?_); rotate_left; clear_value y; rotate_right; subst y)
    | (extract_lets +onlyGivenNames y; try clear_value y)
    | with_reducible apply sendCopperIdentity_only
    | with_reducible apply State.setCopper_only
    | with_reducible exact hF.of (by decide)
    | with_reducible apply Only.ite
    | with_reducible apply OnlyN.ite
    | split
    | with_reducible apply OnlyN.next

theorem execCopperIdentity_only {F : Nat} {s₀ : State} {k : Fin 13} {identity : Identity} {s : State}
    (hs : Only F s₀ s) (hF : Within 6442452008 F) :
    OnlyN F s₀ (execCopperIdentity k identity s) := by
  unfold execCopperIdentity
  repeat' first
    | with_reducible assumption
    | (intro _ _ _ _; try dsimp -zeta only)
    | (intro _ _ _; try dsimp -zeta only)
    | (intro _ _; try dsimp -zeta only)
    | (intro _; try dsimp -zeta only)
    | (extract_lets +onlyGivenNames y; refine cut (p := Only F s₀ y) ?_ (fun _ => ?_); rotate_left; clear_value y; rotate_right; subst y)
    | (extract_lets +onlyGivenNames y; try clear_value y)
    | with_reducible apply identified_only
    | with_reducible apply sendCopperIdentity_only
    | with_reducible exact hF.of (by decide)
    | with_reducible apply Only.ite
    | with_reducible apply OnlyN.ite
    | split
    | with_reducible apply OnlyN.next

theorem execCopperAttemptTimeout_only {F : Nat} {s₀ : State} {k : Fin 13} {s : State}
    (hs : Only F s₀ s) (hF : Within 7516193806 F) :
    OnlyN F s₀ (execCopperAttemptTimeout k s) := by
  unfold execCopperAttemptTimeout
  repeat' first
    | with_reducible assumption
    | with_reducible apply attemptEnds_only
    | with_reducible exact hF.of (by decide)
    | with_reducible apply OnlyN.next

theorem retrainCopper_only {F : Nat} {s₀ : State} {s : State} {links : Nat → Bool}
    (hs : Only F s₀ s) (hF : Within 4294967296 F) :
    Only F s₀ (retrainCopper s links) := by
  unfold retrainCopper
  repeat' first
    | with_reducible assumption
    | (intro _ _ _ _; try dsimp -zeta only)
    | (intro _ _ _; try dsimp -zeta only)
    | (intro _ _; try dsimp -zeta only)
    | (intro _; try dsimp -zeta only)
    | (extract_lets +onlyGivenNames y; refine cut (p := Only F s₀ y) ?_ (fun _ => ?_); rotate_left; clear_value y; rotate_right; subst y)
    | (extract_lets +onlyGivenNames y; try clear_value y)
    | with_reducible apply startCopper_only
    | with_reducible exact hF.of (by decide)
    | with_reducible apply Only.each
    | with_reducible apply Only.ite
    | split

theorem execCopperRetrain_only {F : Nat} {s₀ : State} {p : Path} {links : BitVec 13} {s : State}
    (hs : Only F s₀ s) (hF : Within 4294972504 F) :
    OnlyN F s₀ (execCopperRetrain p links s) := by
  unfold execCopperRetrain
  repeat' first
    | with_reducible assumption
    | (intro _ _ _ _; try dsimp -zeta only)
    | (intro _ _ _; try dsimp -zeta only)
    | (intro _ _; try dsimp -zeta only)
    | (intro _; try dsimp -zeta only)
    | with_reducible apply ownerWrite_only
    | with_reducible apply retrainCopper_only
    | with_reducible exact hF.of (by decide)
    | with_reducible apply OnlyN.next

end Sys2Proof.Machine
end

