-- ==== Sys2Proof/Laws/OnlySafeState.lean ====
section
/-! SUPPORT. What each operation of Sys2Proof/Machine/SafeState.lean may change. -/

namespace Sys2Proof.Machine

open Sys2Proof

theorem dropKeys_only {F : Nat} {s₀ : State} {s : State}
    (hs : Only F s₀ s) (hF : Within 6442450944 F) :
    Only F s₀ (dropKeys s) := by
  unfold dropKeys
  repeat' first
    | with_reducible assumption
    | (intro _ _ _ _; try dsimp -zeta only)
    | (intro _ _ _; try dsimp -zeta only)
    | (intro _ _; try dsimp -zeta only)
    | (intro _; try dsimp -zeta only)
    | (extract_lets +onlyGivenNames y; refine cut (p := Only F s₀ y) ?_ (fun _ => ?_); rotate_left; clear_value y; rotate_right; subst y)
    | (extract_lets +onlyGivenNames y; try clear_value y)
    | with_reducible apply State.setPort_only
    | with_reducible apply State.setCopper_only
    | with_reducible exact hF.of (by decide)
    | with_reducible apply Only.each

theorem zeroizeKeys_only {F : Nat} {s₀ : State} {s : State}
    (hs : Only F s₀ s) (hF : Within 1105954078720 F) :
    Only F s₀ (zeroizeKeys s) := by
  unfold zeroizeKeys
  repeat' first
    | with_reducible assumption
    | exact FusesKept.same rfl rfl rfl rfl rfl rfl
    | (extract_lets +onlyGivenNames y; have t : Security := y; clear t; subst y)
    | (extract_lets +onlyGivenNames y; refine cut (p := Only F s₀ y) ?_ (fun _ => ?_); rotate_left; clear_value y; rotate_right; subst y)
    | (extract_lets +onlyGivenNames y; try clear_value y)
    | with_reducible apply dropKeys_only
    | with_reducible exact hF.of (by decide)
    | with_reducible apply Only.sec

theorem enterSecurity_only {F : Nat} {s₀ : State} {s : State} {code : Nat} {block : Nat}
    (hs : Only F s₀ s) (hF : Within 1655709893736 F) :
    Only F s₀ (enterSecurity s code block) := by
  unfold enterSecurity
  repeat' first
    | with_reducible assumption
    | with_reducible apply enterSafe_only
    | with_reducible apply zeroizeKeys_only
    | with_reducible exact hF.of (by decide)
    | with_reducible apply Only.ite
    | split

theorem execSafeStateEntry_only {F : Nat} {s₀ : State} {cause : Nat} {block0 : BitVec 16} {block1 : BitVec 16} {extra : BitVec 8} {s : State}
    (hs : Only F s₀ s) (hF : Within 1655709893736 F) :
    OnlyN F s₀ (execSafeStateEntry cause block0 block1 extra s) := by
  unfold execSafeStateEntry
  repeat' first
    | with_reducible assumption
    | with_reducible apply enterSecurity_only
    | with_reducible apply enterSafe_only
    | with_reducible exact hF.of (by decide)
    | with_reducible apply Only.ite
    | with_reducible apply OnlyN.ite
    | split
    | with_reducible apply OnlyN.next

theorem darkenLantern_only {F : Nat} {s₀ : State} {cause : Nat} {n : Nat} {s : State}
    (hs : Only F s₀ s) (hF : Within 144149840968 F) :
    Only F s₀ (darkenLantern cause n s) := by
  unfold darkenLantern
  repeat' first
    | with_reducible assumption
    | (intro _ _ _ _; try dsimp -zeta only)
    | (intro _ _ _; try dsimp -zeta only)
    | (intro _ _; try dsimp -zeta only)
    | (intro _; try dsimp -zeta only)
    | (extract_lets +onlyGivenNames y; refine cut (p := Only F s₀ y) ?_ (fun _ => ?_); rotate_left; clear_value y; rotate_right; subst y)
    | (extract_lets +onlyGivenNames y; try clear_value y)
    | with_reducible apply parkBundle_only
    | with_reducible apply stopPort_only
    | with_reducible apply State.setLantern_only
    | with_reducible exact hF.of (by decide)
    | with_reducible apply Only.each
    | with_reducible apply Only.ite
    | split

theorem idleCopper_only {F : Nat} {s₀ : State} {cause : Nat} {s : State}
    (hs : Only F s₀ s) (hF : Within 142002357320 F) :
    Only F s₀ (idleCopper cause s) := by
  unfold idleCopper
  repeat' first
    | with_reducible assumption
    | (intro _ _ _ _; try dsimp -zeta only)
    | (intro _ _ _; try dsimp -zeta only)
    | (intro _ _; try dsimp -zeta only)
    | (intro _; try dsimp -zeta only)
    | with_reducible apply stopCopper_only
    | with_reducible exact hF.of (by decide)
    | with_reducible apply Only.each
    | with_reducible apply Only.ite
    | split

theorem idleGuests_only {F : Nat} {s₀ : State} {s : State}
    (hs : Only F s₀ s) (hF : Within 134217728 F) :
    Only F s₀ (idleGuests s) := by
  unfold idleGuests
  repeat' first
    | with_reducible assumption
    | (intro _ _ _ _; try dsimp -zeta only)
    | (intro _ _ _; try dsimp -zeta only)
    | (intro _ _; try dsimp -zeta only)
    | (intro _; try dsimp -zeta only)
    | with_reducible apply State.setGuest_only
    | with_reducible exact hF.of (by decide)
    | with_reducible apply Only.each

theorem execSafeStateStage_only {F : Nat} {s₀ : State} {s : State}
    (hs : Only F s₀ s) (hF : Within 695113614414 F) :
    OnlyN F s₀ (execSafeStateStage s) := by
  unfold execSafeStateStage
  repeat' first
    | with_reducible assumption
    | (intro _ _ _ _; try dsimp -zeta only)
    | (intro _ _ _; try dsimp -zeta only)
    | (intro _ _; try dsimp -zeta only)
    | (intro _; try dsimp -zeta only)
    | (extract_lets +onlyGivenNames y; refine cut (p := Only F s₀ y) ?_ (fun _ => ?_); rotate_left; clear_value y; rotate_right; subst y)
    | (extract_lets +onlyGivenNames y; try clear_value y)
    | with_reducible apply State.passTo_only
    | with_reducible apply darkenLantern_only
    | with_reducible apply idleCopper_only
    | with_reducible apply idleGuests_only
    | with_reducible exact hF.of (by decide)
    | with_reducible apply Only.each
    | with_reducible apply Only.ite
    | with_reducible apply OnlyN.ite
    | split
    | with_reducible apply OnlyN.next
    | with_reducible apply Only.safe

theorem resampleAll_only {F : Nat} {s₀ : State} {s : State}
    (hs : Only F s₀ s) (hF : Within 134217728 F) :
    Only F s₀ (resampleAll s) := by
  unfold resampleAll
  repeat' first
    | with_reducible assumption
    | (intro _ _ _ _; try dsimp -zeta only)
    | (intro _ _ _; try dsimp -zeta only)
    | (intro _ _; try dsimp -zeta only)
    | (intro _; try dsimp -zeta only)
    | with_reducible apply sampleStraps_only
    | with_reducible exact hF.of (by decide)
    | with_reducible apply Only.foldl
    | with_reducible apply OnlyP.foldl
    | with_reducible apply OnlyF.foldl
    | split
    | with_reducible apply OnlyP.mk'
    | with_reducible apply OnlyF.mk'
    | with_reducible refine OnlyP.of_eq (by assumption) ?_
    | with_reducible apply OnlyP.snd
    | with_reducible exact OnlyP.elim (by assumption)
    | with_reducible refine OnlyF.of_eq (by assumption) ?_
    | with_reducible apply OnlyF.fst
    | with_reducible exact OnlyF.elim (by assumption)

theorem restart_only {F : Nat} {s₀ : State} {s : State}
    (hs : Only F s₀ s) (hF : Within 4312146236648 F) :
    Only F s₀ (restart s) := by
  unfold restart
  extract_lets +onlyGivenNames seen n0 nb i0 itin p0 panel r0 rk w0 power c0 u
  have hu : Only F s₀ u := by
    refine hs.trans ⟨fun f e => ?_, Nat.le_refl _, fun i => ⟨i.memory, fun k => ?_⟩, FusesKept.same rfl rfl rfl rfl rfl rfl⟩
    · have e' := hF.testBit e
      cases f <;> first | rfl | exact absurd e' (by decide)
    · show mget 0 [] k < 2 ^ 31
      exact (by decide : 0 < 2 ^ 31)
  clear_value u
  repeat' first
    | with_reducible assumption
    | (extract_lets +onlyGivenNames y; refine cut (p := Only F s₀ y) ?_ (fun _ => ?_); rotate_left; clear_value y; rotate_right; subst y)
    | with_reducible apply State.emit_only
    | with_reducible apply resampleAll_only
    | with_reducible apply State.setField_only
    | with_reducible apply enterSafe_only
    | with_reducible exact hF.of (by decide)
    | split

theorem safeCtrl_only {F : Nat} {s₀ : State} {s : State} {v : Word}
    (hs : Only F s₀ s) (hF : Within 4312146236648 F) :
    Only F s₀ (safeCtrl s v) := by
  unfold safeCtrl
  repeat' first
    | with_reducible assumption
    | (extract_lets +onlyGivenNames y; refine cut (p := Only F s₀ y) ?_ (fun _ => ?_); rotate_left; clear_value y; rotate_right; subst y)
    | (extract_lets +onlyGivenNames y; try clear_value y)
    | with_reducible apply enterSafe_only
    | with_reducible apply restart_only
    | with_reducible exact hF.of (by decide)
    | with_reducible apply Only.ite
    | split

theorem execEnter_only {F : Nat} {s₀ : State} {p : Path} {s : State}
    (hs : Only F s₀ s) (hF : Within 4312146236664 F) :
    OnlyN F s₀ (execEnter p s) := by
  unfold execEnter
  repeat' first
    | with_reducible assumption
    | (intro _ _ _ _; try dsimp -zeta only)
    | (intro _ _ _; try dsimp -zeta only)
    | (intro _ _; try dsimp -zeta only)
    | (intro _; try dsimp -zeta only)
    | with_reducible apply ownerWrite_only
    | with_reducible apply safeCtrl_only
    | with_reducible exact hF.of (by decide)
    | with_reducible apply OnlyN.next

theorem execRestart_only {F : Nat} {s₀ : State} {p : Path} {s : State}
    (hs : Only F s₀ s) (hF : Within 4312146236664 F) :
    OnlyN F s₀ (execRestart p s) := by
  unfold execRestart
  repeat' first
    | with_reducible assumption
    | (intro _ _ _ _; try dsimp -zeta only)
    | (intro _ _ _; try dsimp -zeta only)
    | (intro _ _; try dsimp -zeta only)
    | (intro _; try dsimp -zeta only)
    | with_reducible apply ownerWrite_only
    | with_reducible apply safeCtrl_only
    | with_reducible exact hF.of (by decide)
    | with_reducible apply OnlyN.next

theorem setMapCopy_only {F : Nat} {s₀ : State} {s : State} {k : Nat} {c : MapCopy}
    (hs : Only F s₀ s) (hF : Within 134217728 F) :
    Only F s₀ (setMapCopy s k c) := by
  unfold setMapCopy
  repeat' first
    | with_reducible assumption
    | (extract_lets +onlyGivenNames y; refine cut (p := Only F s₀ y) ?_ (fun _ => ?_); rotate_left; clear_value y; rotate_right; subst y)
    | (extract_lets +onlyGivenNames y; try clear_value y)
    | with_reducible exact hF.of (by decide)
    | with_reducible apply Only.ite
    | split
    | with_reducible apply Only.panel

theorem endRetire_only {F : Nat} {s₀ : State} {s : State} {result : Nat} {inForce : Bool}
    (hs : Only F s₀ s) (hF : Within 134218824 F) :
    Only F s₀ (endRetire s result inForce) := by
  unfold endRetire
  repeat' first
    | with_reducible assumption
    | (extract_lets +onlyGivenNames y; refine cut (p := Only F s₀ y) ?_ (fun _ => ?_); rotate_left; clear_value y; rotate_right; subst y)
    | (extract_lets +onlyGivenNames y; try clear_value y)
    | with_reducible apply State.setField_only
    | with_reducible apply post_only
    | with_reducible exact hF.of (by decide)
    | with_reducible apply Only.ite
    | split
    | with_reducible apply Only.panel

theorem retireWrite_only {F : Nat} {s₀ : State} {s : State} {acc : Access} {v : Word}
    (hs : Only F s₀ s) (hF : Within 134218824 F) :
    Only F s₀ (retireWrite s acc v) := by
  unfold retireWrite
  repeat' first
    | with_reducible assumption
    | (extract_lets +onlyGivenNames y; refine cut (p := Only F s₀ y) ?_ (fun _ => ?_); rotate_left; clear_value y; rotate_right; subst y)
    | (extract_lets +onlyGivenNames y; try clear_value y)
    | with_reducible apply accessError_only
    | with_reducible apply State.setField_only
    | with_reducible apply endRetire_only
    | with_reducible exact hF.of (by decide)
    | with_reducible apply Only.ite
    | split
    | with_reducible apply Only.panel

theorem execRetireGo_only {F : Nat} {s₀ : State} {p : Path} {row : Fin 8} {col : Fin 16} {s : State}
    (hs : Only F s₀ s) (hF : Within 134222936 F) :
    OnlyN F s₀ (execRetireGo p row col s) := by
  unfold execRetireGo
  repeat' first
    | with_reducible assumption
    | (intro _ _ _ _; try dsimp -zeta only)
    | (intro _ _ _; try dsimp -zeta only)
    | (intro _ _; try dsimp -zeta only)
    | (intro _; try dsimp -zeta only)
    | (extract_lets +onlyGivenNames y; refine cut (p := Only F s₀ y) ?_ (fun _ => ?_); rotate_left; clear_value y; rotate_right; subst y)
    | (extract_lets +onlyGivenNames y; try clear_value y)
    | with_reducible apply ownerWrite_only
    | with_reducible apply retireWrite_only
    | with_reducible exact hF.of (by decide)
    | split
    | with_reducible apply OnlyN.next

theorem execRetireBlowDone_only {F : Nat} {s₀ : State} {taken : BitVec 5} {s : State}
    (hs : Only F s₀ s) (hF : Within 134218824 F) :
    OnlyN F s₀ (execRetireBlowDone taken s) := by
  unfold execRetireBlowDone
  repeat' first
    | with_reducible assumption
    | (extract_lets +onlyGivenNames y; refine cut (p := Only F s₀ y) ?_ (fun _ => ?_); rotate_left; clear_value y; rotate_right; subst y)
    | (extract_lets +onlyGivenNames y; try clear_value y)
    | with_reducible apply setMapCopy_only
    | with_reducible apply endRetire_only
    | with_reducible exact hF.of (by decide)
    | with_reducible apply Only.ite
    | with_reducible apply OnlyN.ite
    | split
    | with_reducible apply OnlyN.next
    | with_reducible apply Only.panel

end Sys2Proof.Machine
end

