-- ==== Sys2Proof/Laws/OnlyPower.lean ====
section
/-! SUPPORT. What each operation of Sys2Proof/Machine/Power.lean may change. -/

namespace Sys2Proof.Machine

open Sys2Proof

theorem changePoint_only {F : Nat} {s₀ : State} {s : State} {old : Nat}
    (hs : Only F s₀ s) (hF : Within 2199023255552 F) :
    Only F s₀ (changePoint s old) := by
  unfold changePoint
  repeat' first
    | with_reducible assumption
    | (intro _ _ _ _; try dsimp -zeta only)
    | (intro _ _ _; try dsimp -zeta only)
    | (intro _ _; try dsimp -zeta only)
    | (intro _; try dsimp -zeta only)
    | (extract_lets +onlyGivenNames y; refine cut (p := Only F s₀ y) ?_ (fun _ => ?_); rotate_left; clear_value y; rotate_right; subst y)
    | (extract_lets +onlyGivenNames y; try clear_value y)
    | with_reducible exact hF.of (by decide)
    | with_reducible apply Only.each
    | with_reducible apply Only.ite
    | split
    | with_reducible apply Only.power

theorem foldPower_only {F : Nat} {s₀ : State} {s : State}
    (hs : Only F s₀ s) (hF : Within 2199023260872 F) :
    Only F s₀ (foldPower s) := by
  unfold foldPower
  repeat' first
    | with_reducible assumption
    | (extract_lets +onlyGivenNames y; refine cut (p := Only F s₀ y) ?_ (fun _ => ?_); rotate_left; clear_value y; rotate_right; subst y)
    | (extract_lets +onlyGivenNames y; try clear_value y)
    | with_reducible apply State.foldReg_only
    | with_reducible apply reportClamp_only
    | with_reducible apply State.setField_only
    | with_reducible apply changePoint_only
    | with_reducible exact hF.of (by decide)
    | with_reducible apply Only.ite
    | split

theorem execPwrFold_only {F : Nat} {s₀ : State} {p : Path} {s : State}
    (hs : Only F s₀ s) (hF : Within 2199023260888 F) :
    OnlyN F s₀ (execPwrFold p s) := by
  unfold execPwrFold
  repeat' first
    | with_reducible assumption
    | (intro _ _ _ _; try dsimp -zeta only)
    | (intro _ _ _; try dsimp -zeta only)
    | (intro _ _; try dsimp -zeta only)
    | (intro _; try dsimp -zeta only)
    | with_reducible apply ownerWrite_only
    | with_reducible apply foldPower_only
    | with_reducible exact hF.of (by decide)
    | with_reducible apply OnlyN.next

theorem foldSlew_only {F : Nat} {s₀ : State} {s : State} {t : Nat}
    (hs : Only F s₀ s) (hF : Within 5320 F) :
    Only F s₀ (foldSlew s t) := by
  unfold foldSlew
  repeat' first
    | with_reducible assumption
    | (extract_lets +onlyGivenNames y; refine cut (p := Only F s₀ y) ?_ (fun _ => ?_); rotate_left; clear_value y; rotate_right; subst y)
    | (extract_lets +onlyGivenNames y; try clear_value y)
    | with_reducible apply State.foldReg_only
    | with_reducible apply reportClamp_only
    | with_reducible apply State.setField_only
    | with_reducible exact hF.of (by decide)
    | with_reducible apply Only.ite
    | split

theorem pwrTileFold_only {F : Nat} {s₀ : State} {s : State} {t : Nat}
    (hs : Only F s₀ s) (hF : Within 5320 F) :
    Only F s₀ (pwrTileFold s t) := by
  unfold pwrTileFold
  repeat' first
    | with_reducible assumption
    | with_reducible apply foldSlew_only
    | with_reducible exact hF.of (by decide)
    | with_reducible apply Only.ite
    | split

theorem execTilPwrFold_only {F : Nat} {s₀ : State} {p : Path} {t : Fin 64} {s : State}
    (hs : Only F s₀ s) (hF : Within 5336 F) :
    OnlyN F s₀ (execTilPwrFold p t s) := by
  unfold execTilPwrFold
  repeat' first
    | with_reducible assumption
    | (intro _ _ _ _; try dsimp -zeta only)
    | (intro _ _ _; try dsimp -zeta only)
    | (intro _ _; try dsimp -zeta only)
    | (intro _; try dsimp -zeta only)
    | with_reducible apply ownerWrite_only
    | with_reducible apply pwrTileFold_only
    | with_reducible exact hF.of (by decide)
    | with_reducible apply OnlyN.next

theorem execOperatingPointTileChange_only {F : Nat} {s₀ : State} {t : Fin 64} {s : State}
    (hs : Only F s₀ s) (hF : Within 2199023255552 F) :
    OnlyN F s₀ (execOperatingPointTileChange t s) := by
  unfold execOperatingPointTileChange
  repeat' first
    | with_reducible assumption
    | (extract_lets +onlyGivenNames y; refine cut (p := Only F s₀ y) ?_ (fun _ => ?_); rotate_left; clear_value y; rotate_right; subst y)
    | (extract_lets +onlyGivenNames y; try clear_value y)
    | with_reducible exact hF.of (by decide)
    | with_reducible apply OnlyN.ite
    | split
    | with_reducible apply OnlyN.next
    | with_reducible apply Only.power

theorem slewResponse_only {F : Nat} {s₀ : State} {s : State} {t : Nat} {rising : Bool}
    (hs : Only F s₀ s) (hF : Within 12582912 F) :
    Only F s₀ (slewResponse s t rising) := by
  unfold slewResponse
  repeat' first
    | with_reducible assumption
    | (intro _ _ _ _; try dsimp -zeta only)
    | (intro _ _ _; try dsimp -zeta only)
    | (intro _ _; try dsimp -zeta only)
    | (intro _; try dsimp -zeta only)
    | (extract_lets +onlyGivenNames y; refine cut (p := Only F s₀ y) ?_ (fun _ => ?_); rotate_left; clear_value y; rotate_right; subst y)
    | (extract_lets +onlyGivenNames y; try clear_value y)
    | with_reducible apply State.setEngine_only
    | with_reducible apply State.modTile_only
    | with_reducible exact hF.of (by decide)
    | with_reducible apply Only.each
    | with_reducible apply Only.ite
    | split

theorem slewEvent_only {F : Nat} {s₀ : State} {s : State} {t : Nat} {change : Int} {rising : Bool}
    (hs : Only F s₀ s) (hF : Within 2199023256584 F) :
    Only F s₀ (slewEvent s t change rising) := by
  unfold slewEvent
  repeat' first
    | with_reducible assumption
    | (extract_lets +onlyGivenNames y; refine cut (p := Only F s₀ y) ?_ (fun _ => ?_); rotate_left; clear_value y; rotate_right; subst y)
    | (extract_lets +onlyGivenNames y; try clear_value y)
    | with_reducible apply post_only
    | with_reducible exact hF.of (by decide)
    | with_reducible apply Only.ite
    | split
    | with_reducible apply Only.power

theorem execSlewSample_only {F : Nat} {s₀ : State} {t : Fin 64} {compute : Nat} {hamper : Nat} {s : State}
    (hs : Only F s₀ s) (hF : Within 2199035839560 F) :
    OnlyN F s₀ (execSlewSample t compute hamper s) := by
  unfold execSlewSample
  repeat' first
    | with_reducible assumption
    | (extract_lets +onlyGivenNames y; refine cut (p := Only F s₀ y) ?_ (fun _ => ?_); rotate_left; clear_value y; rotate_right; subst y)
    | (extract_lets +onlyGivenNames y; try clear_value y)
    | with_reducible apply State.setReg_only
    | with_reducible apply State.setReg64_only
    | with_reducible apply State.count32_only
    | with_reducible apply slewEvent_only
    | with_reducible apply slewResponse_only
    | with_reducible exact hF.of (by decide)
    | with_reducible apply Only.ite
    | with_reducible apply OnlyN.ite
    | split
    | with_reducible apply OnlyN.next
    | with_reducible apply Only.power

theorem State.setSensor_only {F : Nat} {s₀ : State} {s : State} {k : Nat} {x : Sensor}
    (hs : Only F s₀ s) (hF : Within 2199023255552 F) :
    Only F s₀ (State.setSensor s k x) := by
  unfold State.setSensor
  repeat' first
    | with_reducible assumption
    | (extract_lets +onlyGivenNames y; refine cut (p := Only F s₀ y) ?_ (fun _ => ?_); rotate_left; clear_value y; rotate_right; subst y)
    | (extract_lets +onlyGivenNames y; try clear_value y)
    | with_reducible exact hF.of (by decide)
    | with_reducible apply Only.power

theorem setCause_only {F : Nat} {s₀ : State} {s : State} {c : Nat} {level : Nat}
    (hs : Only F s₀ s) (hF : Within 2199023256648 F) :
    Only F s₀ (setCause s c level) := by
  unfold setCause
  repeat' first
    | with_reducible assumption
    | (intro _ _ _ _; try dsimp -zeta only)
    | (intro _ _ _; try dsimp -zeta only)
    | (intro _ _; try dsimp -zeta only)
    | (intro _; try dsimp -zeta only)
    | (extract_lets +onlyGivenNames y; refine cut (p := Only F s₀ y) ?_ (fun _ => ?_); rotate_left; clear_value y; rotate_right; subst y)
    | (extract_lets +onlyGivenNames y; try clear_value y)
    | with_reducible apply State.setReg_only
    | with_reducible apply setLevel_only
    | with_reducible exact hF.of (by decide)
    | with_reducible apply Only.each
    | with_reducible apply Only.ite
    | split
    | with_reducible apply Only.power

theorem notCalm_only {F : Nat} {s₀ : State} {s : State} {c : Nat}
    (hs : Only F s₀ s) (hF : Within 2199023255552 F) :
    Only F s₀ (notCalm s c) := by
  unfold notCalm
  repeat' first
    | with_reducible assumption
    | (extract_lets +onlyGivenNames y; refine cut (p := Only F s₀ y) ?_ (fun _ => ?_); rotate_left; clear_value y; rotate_right; subst y)
    | (extract_lets +onlyGivenNames y; try clear_value y)
    | with_reducible exact hF.of (by decide)
    | with_reducible apply Only.power

theorem applyThermal_only {F : Nat} {s₀ : State} {s : State}
    (hs : Only F s₀ s) (hF : Within 2199023256648 F) :
    Only F s₀ (applyThermal s) := by
  unfold applyThermal
  repeat' first
    | with_reducible assumption
    | (extract_lets +onlyGivenNames y; refine cut (p := Only F s₀ y) ?_ (fun _ => ?_); rotate_left; clear_value y; rotate_right; subst y)
    | (extract_lets +onlyGivenNames y; try clear_value y)
    | with_reducible apply setCause_only
    | with_reducible apply notCalm_only
    | with_reducible exact hF.of (by decide)
    | with_reducible apply Only.ite
    | split

theorem execThrottleStep_only {F : Nat} {s₀ : State} {cause : Fin 4} {reading : Nat} {s : State}
    (hs : Only F s₀ s) (hF : Within 2200096998478 F) :
    OnlyN F s₀ (execThrottleStep cause reading s) := by
  unfold execThrottleStep
  repeat' first
    | with_reducible assumption
    | (intro _ _ _ _; try dsimp -zeta only)
    | (intro _ _ _; try dsimp -zeta only)
    | (intro _ _; try dsimp -zeta only)
    | (intro _; try dsimp -zeta only)
    | (extract_lets +onlyGivenNames y; refine cut (p := Only F s₀ y) ?_ (fun _ => ?_); rotate_left; clear_value y; rotate_right; subst y)
    | (extract_lets +onlyGivenNames y; try clear_value y)
    | with_reducible apply State.passTo_only
    | with_reducible apply setCause_only
    | with_reducible apply notCalm_only
    | with_reducible exact hF.of (by decide)
    | with_reducible apply Only.ite
    | with_reducible apply OnlyN.ite
    | split
    | with_reducible apply OnlyN.next

theorem showCoolant_only {F : Nat} {s₀ : State} {s : State}
    (hs : Only F s₀ s) (hF : Within 64 F) :
    Only F s₀ (showCoolant s) := by
  unfold showCoolant
  repeat' first
    | with_reducible assumption
    | (intro _ _ _ _; try dsimp -zeta only)
    | (intro _ _ _; try dsimp -zeta only)
    | (intro _ _; try dsimp -zeta only)
    | (intro _; try dsimp -zeta only)
    | (extract_lets +onlyGivenNames y; refine cut (p := Only F s₀ y) ?_ (fun _ => ?_); rotate_left; clear_value y; rotate_right; subst y)
    | (extract_lets +onlyGivenNames y; refine cut (p := ∀ u, Only F s₀ u → Only F s₀ (y u)) ?_ (fun hy => ?_); rotate_left; clear_value y; rotate_right; subst y)
    | (extract_lets +onlyGivenNames y; try clear_value y)
    | with_reducible apply State.setReg_only
    | with_reducible exact hF.of (by decide)
    | with_reducible apply hy
    | with_reducible apply Only.ite
    | split

theorem countLoss_only {F : Nat} {s₀ : State} {s : State} {was : Sensor} {now : Sensor}
    (hs : Only F s₀ s) (hF : Within 64 F) :
    Only F s₀ (countLoss s was now) := by
  unfold countLoss
  repeat' first
    | with_reducible assumption
    | with_reducible apply State.count32_only
    | with_reducible exact hF.of (by decide)
    | with_reducible apply Only.ite
    | split

theorem execThermistorConversion_only {F : Nat} {s₀ : State} {i : Fin 2} {microamps : Nat} {reading : Int} {s : State}
    (hs : Only F s₀ s) (hF : Within 2748779070568 F) :
    OnlyN F s₀ (execThermistorConversion i microamps reading s) := by
  unfold execThermistorConversion
  repeat' first
    | with_reducible assumption
    | (intro _ _ _ _; try dsimp -zeta only)
    | (intro _ _ _; try dsimp -zeta only)
    | (intro _ _; try dsimp -zeta only)
    | (intro _; try dsimp -zeta only)
    | (extract_lets +onlyGivenNames y; refine cut (p := Only F s₀ y) ?_ (fun _ => ?_); rotate_left; clear_value y; rotate_right; subst y)
    | (extract_lets +onlyGivenNames y; try clear_value y)
    | with_reducible apply State.setSensor_only
    | with_reducible apply showCoolant_only
    | with_reducible apply countLoss_only
    | with_reducible apply setLevel_only
    | with_reducible apply applyThermal_only
    | with_reducible apply setCause_only
    | with_reducible apply enterSafe_only
    | with_reducible exact hF.of (by decide)
    | with_reducible apply Only.ite
    | with_reducible apply OnlyN.ite
    | split
    | with_reducible apply OnlyN.next

theorem poweringOff_only {F : Nat} {s₀ : State} {s : State}
    (hs : Only F s₀ s) (hF : Within 2199023255552 F) :
    Only F s₀ (poweringOff s) := by
  unfold poweringOff
  repeat' first
    | with_reducible assumption
    | (intro _ _ _ _; try dsimp -zeta only)
    | (intro _ _ _; try dsimp -zeta only)
    | (intro _ _; try dsimp -zeta only)
    | (intro _; try dsimp -zeta only)
    | (extract_lets +onlyGivenNames y; refine cut (p := Only F s₀ y) ?_ (fun _ => ?_); rotate_left; clear_value y; rotate_right; subst y)
    | (extract_lets +onlyGivenNames y; try clear_value y)
    | with_reducible apply wantOff_only
    | with_reducible exact hF.of (by decide)
    | with_reducible apply Only.foldl
    | with_reducible apply OnlyP.foldl
    | with_reducible apply OnlyF.foldl
    | with_reducible apply Only.ite
    | with_reducible apply OnlyP.ite
    | with_reducible apply OnlyF.ite
    | split
    | with_reducible apply OnlyP.mk'
    | with_reducible apply OnlyF.mk'
    | with_reducible refine OnlyP.of_eq (by assumption) ?_
    | with_reducible apply OnlyP.snd
    | with_reducible exact OnlyP.elim (by assumption)
    | with_reducible refine OnlyF.of_eq (by assumption) ?_
    | with_reducible apply OnlyF.fst
    | with_reducible exact OnlyF.elim (by assumption)
    | with_reducible apply Only.power

theorem showDie_only {F : Nat} {s₀ : State} {s : State} {d : Nat}
    (hs : Only F s₀ s) (hF : Within 64 F) :
    Only F s₀ (showDie s d) := by
  unfold showDie
  repeat' first
    | with_reducible assumption
    | (extract_lets +onlyGivenNames y; refine cut (p := Only F s₀ y) ?_ (fun _ => ?_); rotate_left; clear_value y; rotate_right; subst y)
    | (extract_lets +onlyGivenNames y; try clear_value y)
    | with_reducible apply State.setReg_only
    | with_reducible exact hF.of (by decide)
    | with_reducible apply Only.ite
    | split

theorem execDieSensorSample_only {F : Nat} {s₀ : State} {sensor : DieSensor} {reading : Int} {referenceOk : Bool} {s : State}
    (hs : Only F s₀ s) (hF : Within 2748779070568 F) :
    OnlyN F s₀ (execDieSensorSample sensor reading referenceOk s) := by
  unfold execDieSensorSample
  repeat' first
    | with_reducible assumption
    | (extract_lets +onlyGivenNames y; refine cut (p := Only F s₀ y) ?_ (fun _ => ?_); rotate_left; clear_value y; rotate_right; subst y)
    | (extract_lets +onlyGivenNames y; try clear_value y)
    | with_reducible apply State.setSensor_only
    | with_reducible apply countLoss_only
    | with_reducible apply State.setReg_only
    | with_reducible apply setLevel_only
    | with_reducible apply applyThermal_only
    | with_reducible apply showDie_only
    | with_reducible apply poweringOff_only
    | with_reducible apply enterSafe_only
    | with_reducible exact hF.of (by decide)
    | with_reducible apply Only.ite
    | with_reducible apply OnlyN.ite
    | split
    | with_reducible apply OnlyN.next

theorem execSupplySample_only {F : Nat} {s₀ : State} {window : SupplyWindow} {volts : Nat} {amps : Nat} {s : State}
    (hs : Only F s₀ s) (hF : Within 2748779070568 F) :
    OnlyN F s₀ (execSupplySample window volts amps s) := by
  unfold execSupplySample
  repeat' first
    | with_reducible assumption
    | (extract_lets +onlyGivenNames y; refine cut (p := Only F s₀ y) ?_ (fun _ => ?_); rotate_left; clear_value y; rotate_right; subst y)
    | (extract_lets +onlyGivenNames y; try clear_value y)
    | with_reducible apply State.setReg64_only
    | with_reducible apply enterSafe_only
    | with_reducible apply State.setReg_only
    | with_reducible apply setLevel_only
    | with_reducible apply State.count64_only
    | with_reducible apply notCalm_only
    | with_reducible exact hF.of (by decide)
    | with_reducible apply Only.ite
    | with_reducible apply OnlyN.ite
    | split
    | with_reducible apply OnlyN.next
    | with_reducible apply Only.power

theorem execClockFault_only {F : Nat} {s₀ : State} {d : Fin 158} {s : State}
    (hs : Only F s₀ s) (hF : Within 549755815016 F) :
    OnlyN F s₀ (execClockFault d s) := by
  unfold execClockFault
  repeat' first
    | with_reducible assumption
    | with_reducible apply enterSafe_only
    | with_reducible exact hF.of (by decide)
    | with_reducible apply Only.ite
    | with_reducible apply OnlyN.ite
    | split
    | with_reducible apply OnlyN.next

theorem shutdownWrite_only {F : Nat} {s₀ : State} {s : State}
    (hs : Only F s₀ s) (hF : Within 2199023255552 F) :
    Only F s₀ (shutdownWrite s) := by
  unfold shutdownWrite
  repeat' first
    | with_reducible assumption
    | (extract_lets +onlyGivenNames y; refine cut (p := Only F s₀ y) ?_ (fun _ => ?_); rotate_left; clear_value y; rotate_right; subst y)
    | (extract_lets +onlyGivenNames y; try clear_value y)
    | with_reducible exact hF.of (by decide)
    | with_reducible apply Only.ite
    | split
    | with_reducible apply Only.power

theorem execShutdownGo_only {F : Nat} {s₀ : State} {p : Path} {s : State}
    (hs : Only F s₀ s) (hF : Within 2199023260760 F) :
    OnlyN F s₀ (execShutdownGo p s) := by
  unfold execShutdownGo
  repeat' first
    | with_reducible assumption
    | (intro _ _ _ _; try dsimp -zeta only)
    | (intro _ _ _; try dsimp -zeta only)
    | (intro _ _; try dsimp -zeta only)
    | (intro _; try dsimp -zeta only)
    | with_reducible apply ownerWrite_only
    | with_reducible apply shutdownWrite_only
    | with_reducible exact hF.of (by decide)
    | with_reducible apply OnlyN.next

theorem shutdownTo_only {F : Nat} {s₀ : State} {s : State} {n : Nat}
    (hs : Only F s₀ s) (hF : Within 2199023255552 F) :
    Only F s₀ (shutdownTo s n) := by
  unfold shutdownTo
  repeat' first
    | with_reducible assumption
    | (extract_lets +onlyGivenNames y; refine cut (p := Only F s₀ y) ?_ (fun _ => ?_); rotate_left; clear_value y; rotate_right; subst y)
    | (extract_lets +onlyGivenNames y; try clear_value y)
    | with_reducible exact hF.of (by decide)
    | with_reducible apply Only.power

theorem shutdownDomains_only {F : Nat} {s₀ : State} {s : State}
    (hs : Only F s₀ s) (hF : Within 2199023255552 F) :
    Only F s₀ (shutdownDomains s) := by
  unfold shutdownDomains
  repeat' first
    | with_reducible assumption
    | (intro _ _ _ _; try dsimp -zeta only)
    | (intro _ _ _; try dsimp -zeta only)
    | (intro _ _; try dsimp -zeta only)
    | (intro _; try dsimp -zeta only)
    | (extract_lets +onlyGivenNames y; refine cut (p := Only F s₀ y) ?_ (fun _ => ?_); rotate_left; clear_value y; rotate_right; subst y)
    | (extract_lets +onlyGivenNames y; try clear_value y)
    | with_reducible apply wantOff_only
    | with_reducible exact hF.of (by decide)
    | with_reducible apply Only.foldl
    | with_reducible apply OnlyP.foldl
    | with_reducible apply OnlyF.foldl
    | with_reducible apply Only.ite
    | with_reducible apply OnlyP.ite
    | with_reducible apply OnlyF.ite
    | split
    | with_reducible apply OnlyP.mk'
    | with_reducible apply OnlyF.mk'
    | with_reducible refine OnlyP.of_eq (by assumption) ?_
    | with_reducible apply OnlyP.snd
    | with_reducible exact OnlyP.elim (by assumption)
    | with_reducible refine OnlyF.of_eq (by assumption) ?_
    | with_reducible apply OnlyF.fst
    | with_reducible exact OnlyF.elim (by assumption)
    | with_reducible apply Only.power

theorem execShutdownStage_only {F : Nat} {s₀ : State} {s : State}
    (hs : Only F s₀ s) (hF : Within 2344246838350 F) :
    OnlyN F s₀ (execShutdownStage s) := by
  unfold execShutdownStage
  repeat' first
    | with_reducible assumption
    | (extract_lets +onlyGivenNames y; refine cut (p := Only F s₀ y) ?_ (fun _ => ?_); rotate_left; clear_value y; rotate_right; subst y)
    | (extract_lets +onlyGivenNames y; try clear_value y)
    | with_reducible apply State.passTo_only
    | with_reducible apply shutdownTo_only
    | with_reducible apply darkenLantern_only
    | with_reducible apply shutdownDomains_only
    | with_reducible apply idleCopper_only
    | with_reducible exact hF.of (by decide)
    | with_reducible apply Only.ite
    | with_reducible apply OnlyN.ite
    | split
    | with_reducible apply OnlyN.next
    | with_reducible apply Only.power

theorem powerLost_only {F : Nat} {s₀ : State} {s : State}
    (hs : Only F s₀ s) (hF : Within 8796093022196 F) :
    Only F s₀ (powerLost s) := by
  unfold powerLost
  extract_lets +onlyGivenNames sec rk r0 u
  have hu : Only F s₀ u := by
    refine hs.trans ⟨fun f e => ?_, Nat.le_refl _, fun i => ⟨rfl, fun k => ?_⟩, FusesKept.same rfl rfl rfl rfl rfl rfl⟩
    · have e' := hF.testBit e
      cases f <;> first | rfl | exact absurd e' (by decide)
    · show mget 0 [] k < 2 ^ 31
      exact (by decide : 0 < 2 ^ 31)
  clear_value u
  repeat' first
    | with_reducible assumption
    | (extract_lets +onlyGivenNames y; refine cut (p := Only F s₀ y) ?_ (fun _ => ?_); rotate_left; clear_value y; rotate_right; subst y)
    | with_reducible apply State.emit_only
    | with_reducible exact hF.of (by decide)
    | split

theorem execModRstNLow_only {F : Nat} {s₀ : State} {s : State}
    (hs : Only F s₀ s) (hF : Within 8796093022196 F) :
    OnlyN F s₀ (execModRstNLow s) := by
  unfold execModRstNLow
  repeat' first
    | with_reducible assumption
    | with_reducible apply powerLost_only
    | with_reducible exact hF.of (by decide)
    | with_reducible apply OnlyN.next

theorem execInputLoss_only {F : Nat} {s₀ : State} {s : State}
    (hs : Only F s₀ s) (hF : Within 8796093022196 F) :
    OnlyN F s₀ (execInputLoss s) := by
  unfold execInputLoss
  repeat' first
    | with_reducible assumption
    | with_reducible apply powerLost_only
    | with_reducible exact hF.of (by decide)
    | with_reducible apply OnlyN.next

end Sys2Proof.Machine
end

