-- ==== Sys2Proof/Laws/OnlyGuests.lean ====
section
/-! SUPPORT. What each operation of Sys2Proof/Machine/Guests.lean may change. -/

namespace Sys2Proof.Machine

open Sys2Proof

theorem failAttempt_only {F : Nat} {s₀ : State} {s : State} {n : Nat} {step : Nat} {late : Bool}
    (hs : Only F s₀ s) (hF : Within 2199157474376 F) :
    Only F s₀ (failAttempt s n step late) := by
  unfold failAttempt
  repeat' first
    | with_reducible assumption
    | (extract_lets +onlyGivenNames y; refine cut (p := Only F s₀ y) ?_ (fun _ => ?_); rotate_left; clear_value y; rotate_right; subst y)
    | (extract_lets +onlyGivenNames y; try clear_value y)
    | with_reducible apply State.setReg_only
    | with_reducible apply State.setGuest_only
    | with_reducible apply wantOff_only
    | with_reducible apply post_only
    | with_reducible exact hF.of (by decide)
    | with_reducible apply Only.ite
    | split

theorem execGuestBringupStart_only {F : Nat} {s₀ : State} {n : Fin 4} {s : State}
    (hs : Only F s₀ s) (hF : Within 2199157473344 F) :
    OnlyN F s₀ (execGuestBringupStart n s) := by
  unfold execGuestBringupStart
  repeat' first
    | with_reducible assumption
    | (intro _ _ _ _; try dsimp -zeta only)
    | (intro _ _ _; try dsimp -zeta only)
    | (intro _ _; try dsimp -zeta only)
    | (intro _; try dsimp -zeta only)
    | (extract_lets +onlyGivenNames y; refine cut (p := Only F s₀ y) ?_ (fun _ => ?_); rotate_left; clear_value y; rotate_right; subst y)
    | (extract_lets +onlyGivenNames y; try clear_value y)
    | with_reducible apply wantOn_only
    | with_reducible apply railOn_only
    | with_reducible apply State.setReg_only
    | with_reducible apply State.setGuest_only
    | with_reducible exact hF.of (by decide)
    | with_reducible apply Only.ite
    | with_reducible apply OnlyN.ite
    | split
    | with_reducible apply OnlyN.next

theorem execGuestResetRelease_only {F : Nat} {s₀ : State} {n : Fin 4} {s : State}
    (hs : Only F s₀ s) (hF : Within 1207959558 F) :
    OnlyN F s₀ (execGuestResetRelease n s) := by
  unfold execGuestResetRelease
  repeat' first
    | with_reducible assumption
    | (extract_lets +onlyGivenNames y; refine cut (p := Only F s₀ y) ?_ (fun _ => ?_); rotate_left; clear_value y; rotate_right; subst y)
    | (extract_lets +onlyGivenNames y; try clear_value y)
    | with_reducible apply State.passTo_only
    | with_reducible apply State.setGuest_only
    | with_reducible exact hF.of (by decide)
    | with_reducible apply Only.ite
    | with_reducible apply OnlyN.ite
    | split
    | with_reducible apply OnlyN.next

theorem execGuestTrainingDone_only {F : Nat} {s₀ : State} {n : Fin 4} {modules : BitVec 4} {s : State}
    (hs : Only F s₀ s) (hF : Within 2199157474408 F) :
    OnlyN F s₀ (execGuestTrainingDone n modules s) := by
  unfold execGuestTrainingDone
  repeat' first
    | with_reducible assumption
    | (intro _ _ _ _; try dsimp -zeta only)
    | (intro _ _ _; try dsimp -zeta only)
    | (intro _ _; try dsimp -zeta only)
    | (intro _; try dsimp -zeta only)
    | (extract_lets +onlyGivenNames y; refine cut (p := Only F s₀ y) ?_ (fun _ => ?_); rotate_left; clear_value y; rotate_right; subst y)
    | (extract_lets +onlyGivenNames y; try clear_value y)
    | with_reducible apply failAttempt_only
    | with_reducible apply State.emit_only
    | with_reducible apply State.setGuest_only
    | with_reducible exact hF.of (by decide)
    | with_reducible apply Only.ite
    | with_reducible apply OnlyN.ite
    | split
    | with_reducible apply OnlyN.next

theorem execGuestProfileAnswer_only {F : Nat} {s₀ : State} {n : Fin 4} {words : List Dword} {s : State}
    (hs : Only F s₀ s) (hF : Within 2199157474408 F) :
    OnlyN F s₀ (execGuestProfileAnswer n words s) := by
  unfold execGuestProfileAnswer
  repeat' first
    | with_reducible assumption
    | (extract_lets +onlyGivenNames y; refine cut (p := Only F s₀ y) ?_ (fun _ => ?_); rotate_left; clear_value y; rotate_right; subst y)
    | (extract_lets +onlyGivenNames y; try clear_value y)
    | with_reducible apply failAttempt_only
    | with_reducible apply State.setGuest_only
    | with_reducible apply State.emit_only
    | with_reducible exact hF.of (by decide)
    | with_reducible apply Only.ite
    | with_reducible apply OnlyN.ite
    | split
    | with_reducible apply OnlyN.next

theorem execGuestConfirmAck_only {F : Nat} {s₀ : State} {n : Fin 4} {s : State}
    (hs : Only F s₀ s) (hF : Within 134217792 F) :
    OnlyN F s₀ (execGuestConfirmAck n s) := by
  unfold execGuestConfirmAck
  repeat' first
    | with_reducible assumption
    | (extract_lets +onlyGivenNames y; refine cut (p := Only F s₀ y) ?_ (fun _ => ?_); rotate_left; clear_value y; rotate_right; subst y)
    | (extract_lets +onlyGivenNames y; try clear_value y)
    | with_reducible apply State.setReg_only
    | with_reducible apply State.setGuest_only
    | with_reducible exact hF.of (by decide)
    | with_reducible apply Only.ite
    | with_reducible apply OnlyN.ite
    | split
    | with_reducible apply OnlyN.next

theorem execGuestStepTimeout_only {F : Nat} {s₀ : State} {n : Fin 4} {s : State}
    (hs : Only F s₀ s) (hF : Within 2200231216206 F) :
    OnlyN F s₀ (execGuestStepTimeout n s) := by
  unfold execGuestStepTimeout
  repeat' first
    | with_reducible assumption
    | (extract_lets +onlyGivenNames y; refine cut (p := Only F s₀ y) ?_ (fun _ => ?_); rotate_left; clear_value y; rotate_right; subst y)
    | (extract_lets +onlyGivenNames y; try clear_value y)
    | with_reducible apply failAttempt_only
    | with_reducible apply State.passTo_only
    | with_reducible exact hF.of (by decide)
    | with_reducible apply Only.ite
    | with_reducible apply OnlyN.ite
    | split
    | with_reducible apply OnlyN.next

theorem execGuestEarlyPacket_only {F : Nat} {s₀ : State} {n : Fin 4} {s : State}
    (hs : Only F s₀ s) (hF : Within 2199157474376 F) :
    OnlyN F s₀ (execGuestEarlyPacket n s) := by
  unfold execGuestEarlyPacket
  repeat' first
    | with_reducible assumption
    | (extract_lets +onlyGivenNames y; refine cut (p := Only F s₀ y) ?_ (fun _ => ?_); rotate_left; clear_value y; rotate_right; subst y)
    | (extract_lets +onlyGivenNames y; try clear_value y)
    | with_reducible apply failAttempt_only
    | with_reducible exact hF.of (by decide)
    | with_reducible apply Only.ite
    | with_reducible apply OnlyN.ite
    | split
    | with_reducible apply OnlyN.next

theorem guestDown_only {F : Nat} {s₀ : State} {s : State} {n : Nat}
    (hs : Only F s₀ s) (hF : Within 2199425909832 F) :
    Only F s₀ (guestDown s n) := by
  unfold guestDown
  repeat' first
    | with_reducible assumption
    | (intro _ _ _ _; try dsimp -zeta only)
    | (intro _ _ _; try dsimp -zeta only)
    | (intro _ _; try dsimp -zeta only)
    | (intro _; try dsimp -zeta only)
    | (extract_lets +onlyGivenNames y; refine cut (p := Only F s₀ y) ?_ (fun _ => ?_); rotate_left; clear_value y; rotate_right; subst y)
    | (extract_lets +onlyGivenNames y; refine cut (p := OnlyP F s₀ y) ?_ (fun _ => ?_); rotate_left; clear_value y; rotate_right; subst y)
    | (extract_lets +onlyGivenNames y; try clear_value y)
    | with_reducible apply wantOff_only
    | with_reducible apply post_only
    | with_reducible apply dropWhere_only
    | with_reducible apply State.setGuest_only
    | with_reducible exact hF.of (by decide)
    | with_reducible apply Only.ite
    | with_reducible apply OnlyP.ite
    | split
    | with_reducible apply OnlyP.mk'
    | with_reducible refine OnlyP.of_eq (by assumption) ?_
    | with_reducible apply OnlyP.snd
    | with_reducible exact OnlyP.elim (by assumption)

theorem execGuestLinkDown_only {F : Nat} {s₀ : State} {n : Fin 4} {s : State}
    (hs : Only F s₀ s) (hF : Within 2199425909832 F) :
    OnlyN F s₀ (execGuestLinkDown n s) := by
  unfold execGuestLinkDown
  repeat' first
    | with_reducible assumption
    | with_reducible apply guestDown_only
    | with_reducible exact hF.of (by decide)
    | with_reducible apply Only.ite
    | with_reducible apply OnlyN.ite
    | split
    | with_reducible apply OnlyN.next

theorem execGuestPowerSample_only {F : Nat} {s₀ : State} {n : Fin 4} {power : Nat} {s : State}
    (hs : Only F s₀ s) (hF : Within 2199425909832 F) :
    OnlyN F s₀ (execGuestPowerSample n power s) := by
  unfold execGuestPowerSample
  repeat' first
    | with_reducible assumption
    | (extract_lets +onlyGivenNames y; refine cut (p := Only F s₀ y) ?_ (fun _ => ?_); rotate_left; clear_value y; rotate_right; subst y)
    | (extract_lets +onlyGivenNames y; try clear_value y)
    | with_reducible apply State.setGuest_only
    | with_reducible apply guestDown_only
    | with_reducible exact hF.of (by decide)
    | with_reducible apply Only.ite
    | with_reducible apply OnlyN.ite
    | split
    | with_reducible apply OnlyN.next
    | with_reducible apply Only.power

theorem guestCtrl_only {F : Nat} {s₀ : State} {s : State} {v : Word}
    (hs : Only F s₀ s) (hF : Within 2199425909832 F) :
    Only F s₀ (guestCtrl s v) := by
  unfold guestCtrl
  repeat' first
    | with_reducible assumption
    | (intro _ _ _ _; try dsimp -zeta only)
    | (intro _ _ _; try dsimp -zeta only)
    | (intro _ _; try dsimp -zeta only)
    | (intro _; try dsimp -zeta only)
    | (extract_lets +onlyGivenNames y; refine cut (p := Only F s₀ y) ?_ (fun _ => ?_); rotate_left; clear_value y; rotate_right; subst y)
    | (extract_lets +onlyGivenNames y; try clear_value y)
    | with_reducible apply guestDown_only
    | with_reducible apply State.setReg_only
    | with_reducible apply State.setGuest_only
    | with_reducible exact hF.of (by decide)
    | with_reducible apply Only.each
    | with_reducible apply Only.ite
    | split

theorem execRenegotiate_only {F : Nat} {s₀ : State} {p : Path} {guests : BitVec 4} {s : State}
    (hs : Only F s₀ s) (hF : Within 2199425913944 F) :
    OnlyN F s₀ (execRenegotiate p guests s) := by
  unfold execRenegotiate
  repeat' first
    | with_reducible assumption
    | (intro _ _ _ _; try dsimp -zeta only)
    | (intro _ _ _; try dsimp -zeta only)
    | (intro _ _; try dsimp -zeta only)
    | (intro _; try dsimp -zeta only)
    | (extract_lets +onlyGivenNames y; refine cut (p := Only F s₀ y) ?_ (fun _ => ?_); rotate_left; clear_value y; rotate_right; subst y)
    | (extract_lets +onlyGivenNames y; try clear_value y)
    | with_reducible apply ownerWrite_only
    | with_reducible apply guestCtrl_only
    | with_reducible exact hF.of (by decide)
    | with_reducible apply OnlyN.next

theorem execTakeDown_only {F : Nat} {s₀ : State} {p : Path} {guests : BitVec 4} {s : State}
    (hs : Only F s₀ s) (hF : Within 2199425913944 F) :
    OnlyN F s₀ (execTakeDown p guests s) := by
  unfold execTakeDown
  repeat' first
    | with_reducible assumption
    | (intro _ _ _ _; try dsimp -zeta only)
    | (intro _ _ _; try dsimp -zeta only)
    | (intro _ _; try dsimp -zeta only)
    | (intro _; try dsimp -zeta only)
    | (extract_lets +onlyGivenNames y; refine cut (p := Only F s₀ y) ?_ (fun _ => ?_); rotate_left; clear_value y; rotate_right; subst y)
    | (extract_lets +onlyGivenNames y; try clear_value y)
    | with_reducible apply ownerWrite_only
    | with_reducible apply guestCtrl_only
    | with_reducible exact hF.of (by decide)
    | with_reducible apply OnlyN.next

end Sys2Proof.Machine
end

