-- ==== Sys2Proof/Laws/OnlyMirror.lean ====
section
/-! SUPPORT. What each operation of Sys2Proof/Machine/Mirror.lean may change. -/

namespace Sys2Proof.Machine

open Sys2Proof

theorem startFill_only {F : Nat} {s₀ : State} {s : State} {t : Nat} {w : Nat}
    (hs : Only F s₀ s) (hF : Within 137438954504 F) :
    Only F s₀ (startFill s t w) := by
  unfold startFill
  repeat' first
    | with_reducible assumption
    | (extract_lets +onlyGivenNames y; refine cut (p := Only F s₀ y) ?_ (fun _ => ?_); rotate_left; clear_value y; rotate_right; subst y)
    | (extract_lets +onlyGivenNames y; try clear_value y)
    | with_reducible apply mirrorLevel_only
    | with_reducible apply State.setMirror_only
    | with_reducible apply mirrorInvalid_only
    | with_reducible exact hF.of (by decide)
    | with_reducible apply Only.ite
    | split

theorem mirOff_only {F : Nat} {s₀ : State} {s : State} {t : Nat} {w : Nat}
    (hs : Only F s₀ s) (hF : Within 137438954568 F) :
    Only F s₀ (mirOff s t w) := by
  unfold mirOff
  repeat' first
    | with_reducible assumption
    | with_reducible apply mirrorLevel_only
    | with_reducible apply State.setMirror_only
    | with_reducible apply State.setField_only
    | with_reducible exact hF.of (by decide)

theorem mirOn_only {F : Nat} {s₀ : State} {s : State} {t : Nat} {w : Nat}
    (hs : Only F s₀ s) (hF : Within 137438954568 F) :
    Only F s₀ (mirOn s t w) := by
  unfold mirOn
  repeat' first
    | with_reducible assumption
    | (extract_lets +onlyGivenNames y; refine cut (p := Only F s₀ y) ?_ (fun _ => ?_); rotate_left; clear_value y; rotate_right; subst y)
    | (extract_lets +onlyGivenNames y; try clear_value y)
    | with_reducible apply State.setField_only
    | with_reducible apply State.setMirror_only
    | with_reducible apply startFill_only
    | with_reducible exact hF.of (by decide)
    | with_reducible apply Only.ite
    | split

theorem mirFields_only {F : Nat} {s₀ : State} {s : State} {t : Nat} {w : Nat} {v : Word}
    (hs : Only F s₀ s) (hF : Within 64 F) :
    Only F s₀ (mirFields s t w v) := by
  unfold mirFields
  repeat' first
    | with_reducible assumption
    | (extract_lets +onlyGivenNames y; refine cut (p := Only F s₀ y) ?_ (fun _ => ?_); rotate_left; clear_value y; rotate_right; subst y)
    | (extract_lets +onlyGivenNames y; try clear_value y)
    | with_reducible apply State.setField_only
    | with_reducible exact hF.of (by decide)

theorem mirResync_only {F : Nat} {s₀ : State} {s : State} {t : Nat} {w : Nat}
    (hs : Only F s₀ s) (hF : Within 137438954504 F) :
    Only F s₀ (mirResync s t w) := by
  unfold mirResync
  repeat' first
    | with_reducible assumption
    | with_reducible apply startFill_only
    | with_reducible exact hF.of (by decide)
    | with_reducible apply Only.ite
    | split

theorem mirCommit_only {F : Nat} {s₀ : State} {s : State} {t : Nat} {w : Nat}
    (hs : Only F s₀ s) (hF : Within 137438953472 F) :
    Only F s₀ (mirCommit s t w) := by
  unfold mirCommit
  repeat' first
    | with_reducible assumption
    | (extract_lets +onlyGivenNames y; refine cut (p := Only F s₀ y) ?_ (fun _ => ?_); rotate_left; clear_value y; rotate_right; subst y)
    | (extract_lets +onlyGivenNames y; try clear_value y)
    | with_reducible apply State.setMirror_only
    | with_reducible exact hF.of (by decide)
    | with_reducible apply Only.ite
    | split

theorem mirCtrl_only {F : Nat} {s₀ : State} {s : State} {p : Path} {t : Nat} {w : Nat} {v : Word}
    (hs : Only F s₀ s) (hF : Within 137438954568 F) :
    Only F s₀ (mirCtrl s p t w v) := by
  unfold mirCtrl
  repeat' first
    | with_reducible assumption
    | (extract_lets +onlyGivenNames y; refine cut (p := Only F s₀ y) ?_ (fun _ => ?_); rotate_left; clear_value y; rotate_right; subst y)
    | (extract_lets +onlyGivenNames y; try clear_value y)
    | with_reducible apply mirFields_only
    | with_reducible apply accessError_only
    | with_reducible apply mirOff_only
    | with_reducible apply mirOn_only
    | with_reducible apply mirResync_only
    | with_reducible apply mirCommit_only
    | with_reducible exact hF.of (by decide)
    | with_reducible apply Only.ite
    | split

theorem execMirrorEnable_only {F : Nat} {s₀ : State} {p : Path} {t : Fin 64} {w : Fin 4} {v : Word} {s : State}
    (hs : Only F s₀ s) (hF : Within 137438958680 F) :
    OnlyN F s₀ (execMirrorEnable p t w v s) := by
  unfold execMirrorEnable
  repeat' first
    | with_reducible assumption
    | (intro _ _ _ _; try dsimp -zeta only)
    | (intro _ _ _; try dsimp -zeta only)
    | (intro _ _; try dsimp -zeta only)
    | (intro _; try dsimp -zeta only)
    | with_reducible apply ownerWrite_only
    | with_reducible apply mirCtrl_only
    | with_reducible exact hF.of (by decide)
    | with_reducible apply OnlyN.next

theorem execResync_only {F : Nat} {s₀ : State} {p : Path} {t : Fin 64} {w : Fin 4} {s : State}
    (hs : Only F s₀ s) (hF : Within 137438958680 F) :
    OnlyN F s₀ (execResync p t w s) := by
  unfold execResync
  repeat' first
    | with_reducible assumption
    | (intro _ _ _ _; try dsimp -zeta only)
    | (intro _ _ _; try dsimp -zeta only)
    | (intro _ _; try dsimp -zeta only)
    | (intro _; try dsimp -zeta only)
    | (extract_lets +onlyGivenNames y; refine cut (p := Only F s₀ y) ?_ (fun _ => ?_); rotate_left; clear_value y; rotate_right; subst y)
    | (extract_lets +onlyGivenNames y; try clear_value y)
    | with_reducible apply ownerWrite_only
    | with_reducible apply mirCtrl_only
    | with_reducible exact hF.of (by decide)
    | with_reducible apply OnlyN.next

theorem execCommit_only {F : Nat} {s₀ : State} {p : Path} {t : Fin 64} {w : Fin 4} {s : State}
    (hs : Only F s₀ s) (hF : Within 137438958680 F) :
    OnlyN F s₀ (execCommit p t w s) := by
  unfold execCommit
  repeat' first
    | with_reducible assumption
    | (intro _ _ _ _; try dsimp -zeta only)
    | (intro _ _ _; try dsimp -zeta only)
    | (intro _ _; try dsimp -zeta only)
    | (intro _; try dsimp -zeta only)
    | (extract_lets +onlyGivenNames y; refine cut (p := Only F s₀ y) ?_ (fun _ => ?_); rotate_left; clear_value y; rotate_right; subst y)
    | (extract_lets +onlyGivenNames y; try clear_value y)
    | with_reducible apply ownerWrite_only
    | with_reducible apply mirCtrl_only
    | with_reducible exact hF.of (by decide)
    | with_reducible apply OnlyN.next

theorem execMirrorFillLine_only {F : Nat} {s₀ : State} {t : Fin 64} {w : Fin 4} {s : State}
    (hs : Only F s₀ s) (hF : Within 137711322184 F) :
    OnlyN F s₀ (execMirrorFillLine t w s) := by
  unfold execMirrorFillLine
  repeat' first
    | with_reducible assumption
    | (intro _ _ _ _; try dsimp -zeta only)
    | (intro _ _ _; try dsimp -zeta only)
    | (intro _ _; try dsimp -zeta only)
    | (intro _; try dsimp -zeta only)
    | (extract_lets +onlyGivenNames y; refine cut (p := Only F s₀ y) ?_ (fun _ => ?_); rotate_left; clear_value y; rotate_right; subst y)
    | (extract_lets +onlyGivenNames y; refine cut (p := OnlyP F s₀ y) ?_ (fun _ => ?_); rotate_left; clear_value y; rotate_right; subst y)
    | (extract_lets +onlyGivenNames y; try clear_value y)
    | with_reducible apply readLines_only
    | with_reducible apply State.count64_only
    | with_reducible apply State.setMirror_only
    | with_reducible apply sendPacket_only
    | with_reducible exact hF.of (by decide)
    | with_reducible apply Only.ite
    | with_reducible apply OnlyP.ite
    | with_reducible apply OnlyN.ite
    | split
    | with_reducible apply OnlyN.next
    | with_reducible apply OnlyP.mk'
    | with_reducible refine OnlyP.of_eq (by assumption) ?_
    | with_reducible apply OnlyP.snd
    | with_reducible exact OnlyP.elim (by assumption)

theorem execMirrorFillDone_only {F : Nat} {s₀ : State} {t : Fin 64} {w : Fin 4} {s : State}
    (hs : Only F s₀ s) (hF : Within 137438953472 F) :
    OnlyN F s₀ (execMirrorFillDone t w s) := by
  unfold execMirrorFillDone
  repeat' first
    | with_reducible assumption
    | (extract_lets +onlyGivenNames y; refine cut (p := Only F s₀ y) ?_ (fun _ => ?_); rotate_left; clear_value y; rotate_right; subst y)
    | (extract_lets +onlyGivenNames y; try clear_value y)
    | with_reducible apply State.setMirror_only
    | with_reducible exact hF.of (by decide)
    | with_reducible apply Only.ite
    | with_reducible apply OnlyN.ite
    | split
    | with_reducible apply OnlyN.next

theorem execMirrorFillIdleTimeout_only {F : Nat} {s₀ : State} {t : Fin 64} {w : Fin 4} {s : State}
    (hs : Only F s₀ s) (hF : Within 138512696334 F) :
    OnlyN F s₀ (execMirrorFillIdleTimeout t w s) := by
  unfold execMirrorFillIdleTimeout
  repeat' first
    | with_reducible assumption
    | (extract_lets +onlyGivenNames y; refine cut (p := Only F s₀ y) ?_ (fun _ => ?_); rotate_left; clear_value y; rotate_right; subst y)
    | (extract_lets +onlyGivenNames y; try clear_value y)
    | with_reducible apply State.passTo_only
    | with_reducible apply mirrorInvalid_only
    | with_reducible exact hF.of (by decide)
    | with_reducible apply Only.ite
    | with_reducible apply OnlyN.ite
    | split
    | with_reducible apply OnlyN.next

end Sys2Proof.Machine
end

