-- ==== Sys2Proof/Laws/OnlyNoticeboard.lean ====
section
/-! SUPPORT. What each operation of Sys2Proof/Machine/Noticeboard.lean may change. -/

namespace Sys2Proof.Machine

open Sys2Proof

theorem writeRecord_only {F : Nat} {s₀ : State} {s : State} {r : Nat} {x : Ring} {rec : Record} {rest : List Record}
    (hs : Only F s₀ s) (hF : Within 3104 F) :
    Only F s₀ (writeRecord s r x rec rest) := by
  unfold writeRecord
  repeat' first
    | with_reducible assumption
    | (extract_lets +onlyGivenNames y; refine cut (p := Only F s₀ y) ?_ (fun _ => ?_); rotate_left; clear_value y; rotate_right; subst y)
    | (extract_lets +onlyGivenNames y; try clear_value y)
    | with_reducible apply State.emit_only
    | with_reducible apply refill_only
    | with_reducible apply State.setRing_only
    | with_reducible apply interruptDue_only
    | with_reducible exact hF.of (by decide)
    | with_reducible apply Only.ite
    | split

theorem execRecordWrite_only {F : Nat} {s₀ : State} {ring : Fin 17} {s : State}
    (hs : Only F s₀ s) (hF : Within 3104 F) :
    OnlyN F s₀ (execRecordWrite ring s) := by
  unfold execRecordWrite
  repeat' first
    | with_reducible assumption
    | (extract_lets +onlyGivenNames y; refine cut (p := Only F s₀ y) ?_ (fun _ => ?_); rotate_left; clear_value y; rotate_right; subst y)
    | (extract_lets +onlyGivenNames y; try clear_value y)
    | with_reducible apply writeRecord_only
    | with_reducible exact hF.of (by decide)
    | with_reducible apply Only.ite
    | with_reducible apply OnlyN.ite
    | split
    | with_reducible apply OnlyN.next

theorem execEventCommit_only {F : Nat} {s₀ : State} {e : Event} {s : State}
    (hs : Only F s₀ s) (hF : Within 1032 F) :
    OnlyN F s₀ (execEventCommit e s) := by
  unfold execEventCommit
  repeat' first
    | with_reducible assumption
    | (intro _ _ _ _; try dsimp -zeta only)
    | (intro _ _ _; try dsimp -zeta only)
    | (intro _ _; try dsimp -zeta only)
    | (intro _; try dsimp -zeta only)
    | with_reducible apply post_only
    | with_reducible apply setLevel_only
    | with_reducible exact hF.of (by decide)
    | with_reducible apply Only.ite
    | with_reducible apply OnlyN.ite
    | split
    | with_reducible apply OnlyN.next

theorem execModerationTimeout_only {F : Nat} {s₀ : State} {ring : Fin 17} {s : State}
    (hs : Only F s₀ s) (hF : Within 1073744934 F) :
    OnlyN F s₀ (execModerationTimeout ring s) := by
  unfold execModerationTimeout
  repeat' first
    | with_reducible assumption
    | (extract_lets +onlyGivenNames y; refine cut (p := Only F s₀ y) ?_ (fun _ => ?_); rotate_left; clear_value y; rotate_right; subst y)
    | (extract_lets +onlyGivenNames y; try clear_value y)
    | with_reducible apply State.passTo_only
    | with_reducible apply State.setRing_only
    | with_reducible apply sendInterrupt_only
    | with_reducible exact hF.of (by decide)
    | with_reducible apply Only.ite
    | with_reducible apply OnlyN.ite
    | split
    | with_reducible apply OnlyN.next

theorem boardWrite_only {F : Nat} {s₀ : State} {s : State} {p : Path} {r : Nat} {o : Nat} {v : Word} {effect : Access → State → State}
    (hs : Only F s₀ s) (h_effect : ∀ x0 x1, Only F s₀ x1 → Only F s₀ (effect x0 x1)) (hF : Within 5208 F) :
    Only F s₀ (boardWrite s p r o v effect) := by
  unfold boardWrite
  repeat' first
    | with_reducible assumption
    | (intro _ _ _ _; try dsimp -zeta only)
    | (intro _ _ _; try dsimp -zeta only)
    | (intro _ _; try dsimp -zeta only)
    | (intro _; try dsimp -zeta only)
    | (extract_lets +onlyGivenNames y; refine cut (p := Only F s₀ y) ?_ (fun _ => ?_); rotate_left; clear_value y; rotate_right; subst y)
    | (extract_lets +onlyGivenNames y; try clear_value y)
    | with_reducible apply ownerWrite_only
    | with_reducible apply answer_only
    | with_reducible apply refused_only
    | with_reducible exact hF.of (by decide)
    | apply h_effect
    | with_reducible apply Only.ite
    | split

theorem enableRing_only {F : Nat} {s₀ : State} {s : State} {acc : Access} {r : Nat}
    (hs : Only F s₀ s) (hF : Within 3112 F) :
    Only F s₀ (enableRing s acc r) := by
  unfold enableRing
  repeat' first
    | with_reducible assumption
    | (extract_lets +onlyGivenNames y; refine cut (p := Only F s₀ y) ?_ (fun _ => ?_); rotate_left; clear_value y; rotate_right; subst y)
    | (extract_lets +onlyGivenNames y; try clear_value y)
    | with_reducible apply releaseHeld_only
    | with_reducible apply State.setRing_only
    | with_reducible apply accessError_only
    | with_reducible exact hF.of (by decide)
    | with_reducible apply Only.ite
    | split

theorem boardCtrl_only {F : Nat} {s₀ : State} {s : State} {acc : Access} {r : Nat} {v : Word}
    (hs : Only F s₀ s) (hF : Within 3112 F) :
    Only F s₀ (boardCtrl s acc r v) := by
  unfold boardCtrl
  repeat' first
    | with_reducible assumption
    | (extract_lets +onlyGivenNames y; refine cut (p := Only F s₀ y) ?_ (fun _ => ?_); rotate_left; clear_value y; rotate_right; subst y)
    | (extract_lets +onlyGivenNames y; try clear_value y)
    | with_reducible apply enableRing_only
    | with_reducible apply State.setRing_only
    | with_reducible apply setBypass_only
    | with_reducible exact hF.of (by decide)
    | with_reducible apply Only.ite
    | split

theorem consumerWrite_only {F : Nat} {s₀ : State} {s : State} {acc : Access} {r : Nat} {v : Word}
    (hs : Only F s₀ s) (hF : Within 1032 F) :
    Only F s₀ (consumerWrite s acc r v) := by
  unfold consumerWrite
  repeat' first
    | with_reducible assumption
    | (extract_lets +onlyGivenNames y; refine cut (p := Only F s₀ y) ?_ (fun _ => ?_); rotate_left; clear_value y; rotate_right; subst y)
    | (extract_lets +onlyGivenNames y; try clear_value y)
    | with_reducible apply State.setRing_only
    | with_reducible apply accessError_only
    | with_reducible exact hF.of (by decide)
    | with_reducible apply Only.ite
    | split

theorem baseWrite_only {F : Nat} {s₀ : State} {s : State} {acc : Access} {r : Nat} {v : Nat}
    (hs : Only F s₀ s) (hF : Within 1032 F) :
    Only F s₀ (baseWrite s acc r v) := by
  unfold baseWrite
  repeat' first
    | with_reducible assumption
    | (intro _ _ _ _; try dsimp -zeta only)
    | (intro _ _ _; try dsimp -zeta only)
    | (intro _ _; try dsimp -zeta only)
    | (intro _; try dsimp -zeta only)
    | (extract_lets +onlyGivenNames y; refine cut (p := Only F s₀ y) ?_ (fun _ => ?_); rotate_left; clear_value y; rotate_right; subst y)
    | (extract_lets +onlyGivenNames y; try clear_value y)
    | with_reducible apply accessError_only
    | with_reducible apply State.setRing_only
    | with_reducible exact hF.of (by decide)
    | with_reducible apply Only.ite
    | split

theorem cfgWrite_only {F : Nat} {s₀ : State} {s : State} {acc : Access} {r : Nat} {o : Nat} {v : Word}
    (hs : Only F s₀ s) (hF : Within 1544 F) :
    Only F s₀ (cfgWrite s acc r o v) := by
  unfold cfgWrite
  repeat' first
    | with_reducible assumption
    | (intro _ _ _ _; try dsimp -zeta only)
    | (intro _ _ _; try dsimp -zeta only)
    | (intro _ _; try dsimp -zeta only)
    | (intro _; try dsimp -zeta only)
    | (extract_lets +onlyGivenNames y; refine cut (p := Only F s₀ y) ?_ (fun _ => ?_); rotate_left; clear_value y; rotate_right; subst y)
    | (extract_lets +onlyGivenNames y; refine cut (p := OnlyP F s₀ y) ?_ (fun _ => ?_); rotate_left; clear_value y; rotate_right; subst y)
    | (extract_lets +onlyGivenNames y; try clear_value y)
    | with_reducible apply accessError_only
    | with_reducible apply baseWrite_only
    | with_reducible apply State.setRing_only
    | with_reducible apply putLow_only
    | with_reducible apply takeLow_only
    | with_reducible exact hF.of (by decide)
    | with_reducible apply Only.ite
    | with_reducible apply OnlyP.ite
    | split
    | with_reducible apply OnlyP.mk'
    | with_reducible refine OnlyP.of_eq (by assumption) ?_
    | with_reducible apply OnlyP.snd
    | with_reducible exact OnlyP.elim (by assumption)

theorem completeWrite_only {F : Nat} {s₀ : State} {s : State} {r : Nat} {v : Word}
    (hs : Only F s₀ s) (hF : Within 1032 F) :
    Only F s₀ (completeWrite s r v) := by
  unfold completeWrite
  repeat' first
    | with_reducible assumption
    | (intro _ _ _ _; try dsimp -zeta only)
    | (intro _ _ _; try dsimp -zeta only)
    | (intro _ _; try dsimp -zeta only)
    | (intro _; try dsimp -zeta only)
    | (extract_lets +onlyGivenNames y; refine cut (p := Only F s₀ y) ?_ (fun _ => ?_); rotate_left; clear_value y; rotate_right; subst y)
    | (extract_lets +onlyGivenNames y; try clear_value y)
    | with_reducible apply resample_only
    | with_reducible exact hF.of (by decide)
    | with_reducible apply Only.foldl
    | with_reducible apply OnlyP.foldl
    | with_reducible apply OnlyF.foldl
    | with_reducible apply OnlyP.mk'
    | with_reducible apply OnlyF.mk'
    | with_reducible refine OnlyP.of_eq (by assumption) ?_
    | with_reducible apply OnlyP.snd
    | with_reducible exact OnlyP.elim (by assumption)
    | with_reducible refine OnlyF.of_eq (by assumption) ?_
    | with_reducible apply OnlyF.fst
    | with_reducible exact OnlyF.elim (by assumption)

theorem maskBit_only {F : Nat} {s₀ : State} {s : State} {r : Nat} {v : Word} {k : Nat} {j : Nat}
    (hs : Only F s₀ s) (hF : Within 1024 F) :
    Only F s₀ (maskBit s r v k j) := by
  unfold maskBit
  repeat' first
    | with_reducible assumption
    | (extract_lets +onlyGivenNames y; refine cut (p := Only F s₀ y) ?_ (fun _ => ?_); rotate_left; clear_value y; rotate_right; subst y)
    | (extract_lets +onlyGivenNames y; try clear_value y)
    | with_reducible apply State.setRing_only
    | with_reducible exact hF.of (by decide)
    | with_reducible apply Only.ite
    | split

theorem maskWrite_only {F : Nat} {s₀ : State} {s : State} {r : Nat} {k : Nat} {v : Word}
    (hs : Only F s₀ s) (hF : Within 1024 F) :
    Only F s₀ (maskWrite s r k v) := by
  unfold maskWrite
  repeat' first
    | with_reducible assumption
    | (intro _ _ _ _; try dsimp -zeta only)
    | (intro _ _ _; try dsimp -zeta only)
    | (intro _ _; try dsimp -zeta only)
    | (intro _; try dsimp -zeta only)
    | with_reducible apply maskBit_only
    | with_reducible exact hF.of (by decide)
    | with_reducible apply Only.each

theorem ringEffect_only {F : Nat} {s₀ : State} {s : State} {acc : Access} {r : Nat} {o : Nat} {v : Word}
    (hs : Only F s₀ s) (hF : Within 3624 F) :
    Only F s₀ (ringEffect s acc r o v) := by
  unfold ringEffect
  repeat' first
    | with_reducible assumption
    | with_reducible apply cfgWrite_only
    | with_reducible apply boardCtrl_only
    | with_reducible apply consumerWrite_only
    | with_reducible apply completeWrite_only
    | with_reducible apply maskWrite_only
    | with_reducible exact hF.of (by decide)
    | with_reducible apply Only.ite
    | split

theorem execRingEnable_only {F : Nat} {s₀ : State} {p : Path} {ring : Fin 17} {s : State}
    (hs : Only F s₀ s) (hF : Within 7288 F) :
    OnlyN F s₀ (execRingEnable p ring s) := by
  unfold execRingEnable
  repeat' first
    | with_reducible assumption
    | (intro _ _ _ _; try dsimp -zeta only)
    | (intro _ _ _; try dsimp -zeta only)
    | (intro _ _; try dsimp -zeta only)
    | (intro _; try dsimp -zeta only)
    | with_reducible apply boardWrite_only
    | with_reducible apply boardCtrl_only
    | with_reducible exact hF.of (by decide)
    | with_reducible apply OnlyN.next

theorem execConsumerWrite_only {F : Nat} {s₀ : State} {p : Path} {ring : Fin 17} {v : Word} {s : State}
    (hs : Only F s₀ s) (hF : Within 5208 F) :
    OnlyN F s₀ (execConsumerWrite p ring v s) := by
  unfold execConsumerWrite
  repeat' first
    | with_reducible assumption
    | (intro _ _ _ _; try dsimp -zeta only)
    | (intro _ _ _; try dsimp -zeta only)
    | (intro _ _; try dsimp -zeta only)
    | (intro _; try dsimp -zeta only)
    | with_reducible apply boardWrite_only
    | with_reducible apply consumerWrite_only
    | with_reducible exact hF.of (by decide)
    | with_reducible apply OnlyN.next

theorem execIdle_only {F : Nat} {s₀ : State} {p : Path} {ring : Fin 17} {s : State}
    (hs : Only F s₀ s) (hF : Within 7288 F) :
    OnlyN F s₀ (execIdle p ring s) := by
  unfold execIdle
  repeat' first
    | with_reducible assumption
    | (intro _ _ _ _; try dsimp -zeta only)
    | (intro _ _ _; try dsimp -zeta only)
    | (intro _ _; try dsimp -zeta only)
    | (intro _; try dsimp -zeta only)
    | (extract_lets +onlyGivenNames y; refine cut (p := Only F s₀ y) ?_ (fun _ => ?_); rotate_left; clear_value y; rotate_right; subst y)
    | (extract_lets +onlyGivenNames y; try clear_value y)
    | with_reducible apply boardWrite_only
    | with_reducible apply boardCtrl_only
    | with_reducible exact hF.of (by decide)
    | with_reducible apply OnlyN.next

theorem execNbComplete_only {F : Nat} {s₀ : State} {p : Path} {ring : Fin 17} {v : Word} {s : State}
    (hs : Only F s₀ s) (hF : Within 5208 F) :
    OnlyN F s₀ (execNbComplete p ring v s) := by
  unfold execNbComplete
  repeat' first
    | with_reducible assumption
    | (intro _ _ _ _; try dsimp -zeta only)
    | (intro _ _ _; try dsimp -zeta only)
    | (intro _ _; try dsimp -zeta only)
    | (intro _; try dsimp -zeta only)
    | with_reducible apply boardWrite_only
    | with_reducible apply completeWrite_only
    | with_reducible exact hF.of (by decide)
    | with_reducible apply OnlyN.next

theorem execMaskWrite_only {F : Nat} {s₀ : State} {p : Path} {ring : Fin 17} {k : Fin 8} {v : Word} {s : State}
    (hs : Only F s₀ s) (hF : Within 5208 F) :
    OnlyN F s₀ (execMaskWrite p ring k v s) := by
  unfold execMaskWrite
  repeat' first
    | with_reducible assumption
    | (intro _ _ _ _; try dsimp -zeta only)
    | (intro _ _ _; try dsimp -zeta only)
    | (intro _ _; try dsimp -zeta only)
    | (intro _; try dsimp -zeta only)
    | with_reducible apply boardWrite_only
    | with_reducible apply maskWrite_only
    | with_reducible exact hF.of (by decide)
    | with_reducible apply OnlyN.next

theorem execUnmaskResample_only {F : Nat} {s₀ : State} {ring : Fin 17} {cls : Fin 256} {s : State}
    (hs : Only F s₀ s) (hF : Within 1073742862 F) :
    OnlyN F s₀ (execUnmaskResample ring cls s) := by
  unfold execUnmaskResample
  repeat' first
    | with_reducible assumption
    | (intro _ _ _ _; try dsimp -zeta only)
    | (intro _ _ _; try dsimp -zeta only)
    | (intro _ _; try dsimp -zeta only)
    | (intro _; try dsimp -zeta only)
    | (extract_lets +onlyGivenNames y; refine cut (p := Only F s₀ y) ?_ (fun _ => ?_); rotate_left; clear_value y; rotate_right; subst y)
    | (extract_lets +onlyGivenNames y; try clear_value y)
    | with_reducible apply State.passTo_only
    | with_reducible apply State.setRing_only
    | with_reducible apply resample_only
    | with_reducible exact hF.of (by decide)
    | with_reducible apply Only.foldl
    | with_reducible apply OnlyP.foldl
    | with_reducible apply OnlyF.foldl
    | split
    | with_reducible apply OnlyN.next
    | with_reducible apply OnlyP.mk'
    | with_reducible apply OnlyF.mk'
    | with_reducible refine OnlyP.of_eq (by assumption) ?_
    | with_reducible apply OnlyP.snd
    | with_reducible exact OnlyP.elim (by assumption)
    | with_reducible refine OnlyF.of_eq (by assumption) ?_
    | with_reducible apply OnlyF.fst
    | with_reducible exact OnlyF.elim (by assumption)

theorem producerRead_only {F : Nat} {s₀ : State} {s : State} {r : Nat}
    (hs : Only F s₀ s) (hF : Within 3120 F) :
    Only F s₀ (producerRead s r) := by
  unfold producerRead
  repeat' first
    | with_reducible assumption
    | (extract_lets +onlyGivenNames y; refine cut (p := Only F s₀ y) ?_ (fun _ => ?_); rotate_left; clear_value y; rotate_right; subst y)
    | (extract_lets +onlyGivenNames y; try clear_value y)
    | with_reducible apply answer_only
    | with_reducible apply setBypass_only
    | with_reducible exact hF.of (by decide)
    | with_reducible apply Only.ite
    | split

theorem execProducerRead_only {F : Nat} {s₀ : State} {p : Path} {ring : Fin 17} {s : State}
    (hs : Only F s₀ s) (hF : Within 3128 F) :
    OnlyN F s₀ (execProducerRead p ring s) := by
  unfold execProducerRead
  repeat' first
    | with_reducible assumption
    | with_reducible apply answer_only
    | with_reducible apply producerRead_only
    | with_reducible apply accessError_only
    | with_reducible exact hF.of (by decide)
    | with_reducible apply Only.ite
    | with_reducible apply OnlyN.ite
    | split
    | with_reducible apply OnlyN.next

theorem holdWrite_only {F : Nat} {s₀ : State} {s : State} {hold : Bool}
    (hs : Only F s₀ s) (hF : Within 3104 F) :
    Only F s₀ (holdWrite s hold) := by
  unfold holdWrite
  repeat' first
    | with_reducible assumption
    | (extract_lets +onlyGivenNames y; refine cut (p := Only F s₀ y) ?_ (fun _ => ?_); rotate_left; clear_value y; rotate_right; subst y)
    | (extract_lets +onlyGivenNames y; try clear_value y)
    | with_reducible apply releaseAll_only
    | with_reducible exact hF.of (by decide)
    | with_reducible apply Only.ite
    | split
    | with_reducible apply Only.nb

theorem execGlobalHold_only {F : Nat} {s₀ : State} {p : Path} {hold : Bool} {s : State}
    (hs : Only F s₀ s) (hF : Within 7288 F) :
    OnlyN F s₀ (execGlobalHold p hold s) := by
  unfold execGlobalHold
  repeat' first
    | with_reducible assumption
    | (intro _ _ _ _; try dsimp -zeta only)
    | (intro _ _ _; try dsimp -zeta only)
    | (intro _ _; try dsimp -zeta only)
    | (intro _; try dsimp -zeta only)
    | with_reducible apply ownerWrite_only
    | with_reducible apply holdWrite_only
    | with_reducible exact hF.of (by decide)
    | with_reducible apply OnlyN.next

end Sys2Proof.Machine
end

