-- ==== Sys2Proof/Laws/OnlyTime.lean ====
section
/-! SUPPORT. What each operation of Sys2Proof/Machine/Time.lean may change. -/

namespace Sys2Proof.Machine

open Sys2Proof

theorem holdoverLevel_only {F : Nat} {s₀ : State} {s : State}
    (hs : Only F s₀ s) (hF : Within 1032 F) :
    Only F s₀ (holdoverLevel s) := by
  unfold holdoverLevel
  repeat' first
    | with_reducible assumption
    | with_reducible apply setLevel_only
    | with_reducible exact hF.of (by decide)
    | with_reducible apply Only.ite
    | split

theorem answerTime_only {F : Nat} {s₀ : State} {s : State} {src : Nat} {t2 : Int}
    (hs : Only F s₀ s) (hF : Within 1073741920 F) :
    Only F s₀ (answerTime s src t2) := by
  unfold answerTime
  repeat' first
    | with_reducible assumption
    | (intro _ _ _ _; try dsimp -zeta only)
    | (intro _ _ _; try dsimp -zeta only)
    | (intro _ _; try dsimp -zeta only)
    | (intro _; try dsimp -zeta only)
    | with_reducible apply sendRoll_only
    | with_reducible exact hF.of (by decide)

theorem execTimeReq_only {F : Nat} {s₀ : State} {request : Option (LinkPort × Nat × Int)} {s : State}
    (hs : Only F s₀ s) (hF : Within 1073741920 F) :
    OnlyN F s₀ (execTimeReq request s) := by
  unfold execTimeReq
  repeat' first
    | with_reducible assumption
    | (intro _ _ _ _; try dsimp -zeta only)
    | (intro _ _ _; try dsimp -zeta only)
    | (intro _ _; try dsimp -zeta only)
    | (intro _; try dsimp -zeta only)
    | (extract_lets +onlyGivenNames y; refine cut (p := Only F s₀ y) ?_ (fun _ => ?_); rotate_left; clear_value y; rotate_right; subst y)
    | (extract_lets +onlyGivenNames y; try clear_value y)
    | with_reducible apply sendRoll_only
    | with_reducible apply acceptRoll_only
    | with_reducible apply answerTime_only
    | with_reducible exact hF.of (by decide)
    | with_reducible apply Only.ite
    | with_reducible apply OnlyN.ite
    | split
    | with_reducible apply OnlyN.next
    | with_reducible apply Only.rc

theorem loadCounter_only {F : Nat} {s₀ : State} {s : State} {off : Int}
    (hs : Only F s₀ s) (hF : Within 1073741828 F) :
    Only F s₀ (loadCounter s off) := by
  unfold loadCounter
  repeat' first
    | with_reducible assumption
    | (extract_lets +onlyGivenNames y; refine cut (p := Only F s₀ y) ?_ (fun _ => ?_); rotate_left; clear_value y; rotate_right; subst y)
    | (extract_lets +onlyGivenNames y; try clear_value y)
    | with_reducible exact hF.of (by decide)
    | with_reducible apply Only.time_rc

theorem quarterOffset_only {F : Nat} {s₀ : State} {s : State} {off : Int}
    (hs : Only F s₀ s) (hF : Within 8 F) :
    OnlyP F s₀ (quarterOffset s off) := by
  unfold quarterOffset
  repeat' first
    | with_reducible assumption
    | with_reducible apply State.used_only
    | with_reducible exact hF.of (by decide)
    | with_reducible apply Only.ite
    | with_reducible apply OnlyP.ite
    | split
    | with_reducible apply OnlyP.mk'
    | with_reducible refine OnlyP.of_eq (by assumption) ?_
    | with_reducible apply OnlyP.snd
    | with_reducible exact OnlyP.elim (by assumption)

theorem steer_only {F : Nat} {s₀ : State} {s : State} {off : Int}
    (hs : Only F s₀ s) (hF : Within 1073741832 F) :
    Only F s₀ (steer s off) := by
  unfold steer
  repeat' first
    | with_reducible assumption
    | (extract_lets +onlyGivenNames y; refine cut (p := Only F s₀ y) ?_ (fun _ => ?_); rotate_left; clear_value y; rotate_right; subst y)
    | (extract_lets +onlyGivenNames y; try clear_value y)
    | with_reducible apply State.used_only
    | with_reducible exact hF.of (by decide)
    | with_reducible apply Only.ite
    | split
    | with_reducible apply Only.rc

theorem validExchange_only {F : Nat} {s₀ : State} {s : State} {off : Int}
    (hs : Only F s₀ s) (hF : Within 1077937260 F) :
    Only F s₀ (validExchange s off) := by
  unfold validExchange
  repeat' first
    | with_reducible assumption
    | (intro _ _ _ _; try dsimp -zeta only)
    | (intro _ _ _; try dsimp -zeta only)
    | (intro _ _; try dsimp -zeta only)
    | (intro _; try dsimp -zeta only)
    | (extract_lets +onlyGivenNames y; refine cut (p := Only F s₀ y) ?_ (fun _ => ?_); rotate_left; clear_value y; rotate_right; subst y)
    | (extract_lets +onlyGivenNames y; refine cut (p := OnlyP F s₀ y) ?_ (fun _ => ?_); rotate_left; clear_value y; rotate_right; subst y)
    | (extract_lets +onlyGivenNames y; try clear_value y)
    | with_reducible apply sendHeldFences_only
    | with_reducible apply holdoverLevel_only
    | with_reducible apply loadCounter_only
    | with_reducible apply quarterOffset_only
    | with_reducible apply steer_only
    | with_reducible exact hF.of (by decide)
    | with_reducible apply Only.ite
    | with_reducible apply OnlyP.ite
    | split
    | with_reducible apply OnlyP.mk'
    | with_reducible refine OnlyP.of_eq (by assumption) ?_
    | with_reducible apply OnlyP.snd
    | with_reducible exact OnlyP.elim (by assumption)
    | with_reducible apply Only.rc

theorem takeTime_only {F : Nat} {s₀ : State} {s : State} {via : LinkPort} {src : Nat} {t2 : Int} {t3 : Int} {t4 : Int}
    (hs : Only F s₀ s) (hF : Within 1077937260 F) :
    Only F s₀ (takeTime s via src t2 t3 t4) := by
  unfold takeTime
  repeat' first
    | with_reducible assumption
    | (intro _ _ _ _; try dsimp -zeta only)
    | (intro _ _ _; try dsimp -zeta only)
    | (intro _ _; try dsimp -zeta only)
    | (intro _; try dsimp -zeta only)
    | with_reducible apply validExchange_only
    | with_reducible exact hF.of (by decide)
    | with_reducible apply Only.ite
    | split

theorem execTimeResp_only {F : Nat} {s₀ : State} {via : LinkPort} {src : Nat} {t2 : Int} {t3 : Int} {t4 : Int} {s : State}
    (hs : Only F s₀ s) (hF : Within 1077937260 F) :
    OnlyN F s₀ (execTimeResp via src t2 t3 t4 s) := by
  unfold execTimeResp
  repeat' first
    | with_reducible assumption
    | (intro _ _ _ _; try dsimp -zeta only)
    | (intro _ _ _; try dsimp -zeta only)
    | (intro _ _; try dsimp -zeta only)
    | (intro _; try dsimp -zeta only)
    | with_reducible apply acceptRoll_only
    | with_reducible apply takeTime_only
    | with_reducible exact hF.of (by decide)
    | with_reducible apply Only.ite
    | with_reducible apply OnlyN.ite
    | split
    | with_reducible apply OnlyN.next

theorem tellSilent_only {F : Nat} {s₀ : State} {s : State}
    (hs : Only F s₀ s) (hF : Within 1073742856 F) :
    Only F s₀ (tellSilent s) := by
  unfold tellSilent
  repeat' first
    | with_reducible assumption
    | (extract_lets +onlyGivenNames y; refine cut (p := Only F s₀ y) ?_ (fun _ => ?_); rotate_left; clear_value y; rotate_right; subst y)
    | (extract_lets +onlyGivenNames y; try clear_value y)
    | with_reducible apply post_only
    | with_reducible exact hF.of (by decide)
    | with_reducible apply Only.ite
    | split
    | with_reducible apply Only.rc

theorem driftRate_only {F : Nat} {s₀ : State} {s : State}
    (hs : Only F s₀ s) (hF : Within 1073741832 F) :
    Only F s₀ (driftRate s) := by
  unfold driftRate
  repeat' first
    | with_reducible assumption
    | (extract_lets +onlyGivenNames y; refine cut (p := Only F s₀ y) ?_ (fun _ => ?_); rotate_left; clear_value y; rotate_right; subst y)
    | (extract_lets +onlyGivenNames y; try clear_value y)
    | with_reducible apply State.used_only
    | with_reducible exact hF.of (by decide)
    | with_reducible apply Only.rc

theorem execTimeExchangeTimeout_only {F : Nat} {s₀ : State} {s : State}
    (hs : Only F s₀ s) (hF : Within 1073742862 F) :
    OnlyN F s₀ (execTimeExchangeTimeout s) := by
  unfold execTimeExchangeTimeout
  repeat' first
    | with_reducible assumption
    | (intro _ _ _ _; try dsimp -zeta only)
    | (intro _ _ _; try dsimp -zeta only)
    | (intro _ _; try dsimp -zeta only)
    | (intro _; try dsimp -zeta only)
    | (extract_lets +onlyGivenNames y; refine cut (p := Only F s₀ y) ?_ (fun _ => ?_); rotate_left; clear_value y; rotate_right; subst y)
    | (extract_lets +onlyGivenNames y; try clear_value y)
    | with_reducible apply State.passTo_only
    | with_reducible apply holdoverLevel_only
    | with_reducible apply tellSilent_only
    | with_reducible apply driftRate_only
    | with_reducible exact hF.of (by decide)
    | with_reducible apply Only.ite
    | with_reducible apply OnlyN.ite
    | split
    | with_reducible apply OnlyN.next
    | with_reducible apply Only.rc

theorem loadTime_only {F : Nat} {s₀ : State} {s : State} {v : Nat}
    (hs : Only F s₀ s) (hF : Within 1073741828 F) :
    Only F s₀ (loadTime s v) := by
  unfold loadTime
  repeat' first
    | with_reducible assumption
    | (extract_lets +onlyGivenNames y; refine cut (p := Only F s₀ y) ?_ (fun _ => ?_); rotate_left; clear_value y; rotate_right; subst y)
    | (extract_lets +onlyGivenNames y; try clear_value y)
    | with_reducible exact hF.of (by decide)
    | with_reducible apply Only.ite
    | split
    | with_reducible apply Only.time_rc

theorem timeLow_only {F : Nat} {s₀ : State} {s : State}
    (hs : Only F s₀ s) (hF : Within 8 F) :
    OnlyP F s₀ (timeLow s) := by
  unfold timeLow
  repeat' first
    | with_reducible assumption
    | (intro _ _ _ _; try dsimp -zeta only)
    | (intro _ _ _; try dsimp -zeta only)
    | (intro _ _; try dsimp -zeta only)
    | (intro _; try dsimp -zeta only)
    | with_reducible apply State.used_only
    | with_reducible exact hF.of (by decide)
    | with_reducible apply OnlyP.mk'
    | with_reducible refine OnlyP.of_eq (by assumption) ?_
    | with_reducible apply OnlyP.snd
    | with_reducible exact OnlyP.elim (by assumption)

theorem execTimeSet_only {F : Nat} {s₀ : State} {p : Path} {hi : Word} {s : State}
    (hs : Only F s₀ s) (hF : Within 1073747548 F) :
    OnlyN F s₀ (execTimeSet p hi s) := by
  unfold execTimeSet
  repeat' first
    | with_reducible assumption
    | (intro _ _ _ _; try dsimp -zeta only)
    | (intro _ _ _; try dsimp -zeta only)
    | (intro _ _; try dsimp -zeta only)
    | (intro _; try dsimp -zeta only)
    | (extract_lets +onlyGivenNames y; refine cut (p := Only F s₀ y) ?_ (fun _ => ?_); rotate_left; clear_value y; rotate_right; subst y)
    | (extract_lets +onlyGivenNames y; refine cut (p := OnlyP F s₀ y) ?_ (fun _ => ?_); rotate_left; clear_value y; rotate_right; subst y)
    | (extract_lets +onlyGivenNames y; try clear_value y)
    | with_reducible apply takeLow_only
    | with_reducible apply ownerWrite_only
    | with_reducible apply loadTime_only
    | with_reducible apply timeLow_only
    | with_reducible exact hF.of (by decide)
    | with_reducible apply OnlyN.next
    | with_reducible apply OnlyP.mk'
    | with_reducible refine OnlyP.of_eq (by assumption) ?_
    | with_reducible apply OnlyP.snd
    | with_reducible exact OnlyP.elim (by assumption)

end Sys2Proof.Machine
end

