-- ==== Sys2Proof/Laws/OnlyRegisters.lean ====
section
/-! SUPPORT. What each operation of Sys2Proof/Machine/Registers.lean may change. -/

namespace Sys2Proof.Machine

open Sys2Proof

theorem readTouch_only {F : Nat} {s₀ : State} {s : State} {a1 : Spot}
    (hs : Only F s₀ s) (hF : Within 3104 F) :
    Only F s₀ (readTouch s a1) := by
  unfold readTouch
  repeat' first
    | with_reducible assumption
    | with_reducible apply setBypass_only
    | with_reducible exact hF.of (by decide)
    | with_reducible apply Only.ite
    | split

theorem readWord_only {F : Nat} {s₀ : State} {s : State} {acc : Access}
    (hs : Only F s₀ s) (hF : Within 3368 F) :
    OnlyP F s₀ (readWord s acc) := by
  unfold readWord
  repeat' first
    | with_reducible assumption
    | (intro _ _ _ _; try dsimp -zeta only)
    | (intro _ _ _; try dsimp -zeta only)
    | (intro _ _; try dsimp -zeta only)
    | (intro _; try dsimp -zeta only)
    | (extract_lets +onlyGivenNames y; refine cut (p := Only F s₀ y) ?_ (fun _ => ?_); rotate_left; clear_value y; rotate_right; subst y)
    | (extract_lets +onlyGivenNames y; refine cut (p := OnlyP F s₀ y) ?_ (fun _ => ?_); rotate_left; clear_value y; rotate_right; subst y)
    | (extract_lets +onlyGivenNames y; try clear_value y)
    | with_reducible apply accessError_only
    | with_reducible apply readTouch_only
    | with_reducible exact hF.of (by decide)
    | with_reducible apply Only.ite
    | with_reducible apply OnlyP.ite
    | split
    | with_reducible apply OnlyP.mk'
    | with_reducible refine OnlyP.of_eq (by assumption) ?_
    | with_reducible apply OnlyP.snd
    | with_reducible exact OnlyP.elim (by assumption)
    | with_reducible apply Only.rlatch

theorem busRead_only {F : Nat} {s₀ : State} {s : State} {acc : Access} {size : Nat}
    (hs : Only F s₀ s) (hF : Within 3384 F) :
    Only F s₀ (busRead s acc size) := by
  unfold busRead
  repeat' first
    | with_reducible assumption
    | (intro _ _ _ _; try dsimp -zeta only)
    | (intro _ _ _; try dsimp -zeta only)
    | (intro _ _; try dsimp -zeta only)
    | (intro _; try dsimp -zeta only)
    | (extract_lets +onlyGivenNames y; refine cut (p := Only F s₀ y) ?_ (fun _ => ?_); rotate_left; clear_value y; rotate_right; subst y)
    | (extract_lets +onlyGivenNames y; refine cut (p := OnlyP F s₀ y) ?_ (fun _ => ?_); rotate_left; clear_value y; rotate_right; subst y)
    | (extract_lets +onlyGivenNames y; try clear_value y)
    | with_reducible apply accessError_only
    | with_reducible apply answer_only
    | with_reducible apply readWord_only
    | with_reducible exact hF.of (by decide)
    | with_reducible apply Only.ite
    | with_reducible apply OnlyP.ite
    | split
    | with_reducible apply OnlyP.mk'
    | with_reducible refine OnlyP.of_eq (by assumption) ?_
    | with_reducible apply OnlyP.snd
    | with_reducible exact OnlyP.elim (by assumption)

theorem execLowWordRead_only {F : Nat} {s₀ : State} {acc : Access} {size : Nat} {s : State}
    (hs : Only F s₀ s) (hF : Within 3384 F) :
    OnlyN F s₀ (execLowWordRead acc size s) := by
  unfold execLowWordRead
  repeat' first
    | with_reducible assumption
    | with_reducible apply busRead_only
    | with_reducible exact hF.of (by decide)
    | with_reducible apply OnlyN.next

theorem fieldWrite_only {F : Nat} {s₀ : State} {s : State} {a : Nat} {v : Word}
    (hs : Only F s₀ s) (hF : Within 192 F) :
    Only F s₀ (fieldWrite s a v) := by
  unfold fieldWrite
  repeat' first
    | with_reducible assumption
    | (extract_lets +onlyGivenNames y; refine cut (p := Only F s₀ y) ?_ (fun _ => ?_); rotate_left; clear_value y; rotate_right; subst y)
    | (extract_lets +onlyGivenNames y; try clear_value y)
    | with_reducible apply State.setReg_only
    | with_reducible exact hF.of (by decide)
    | with_reducible apply Only.ite
    | split
    | with_reducible apply Only.staged

theorem quadWrite_only {F : Nat} {s₀ : State} {s : State} {acc : Access} {a : Nat} {v : Nat}
    (hs : Only F s₀ s) (hF : Within 1073742924 F) :
    Only F s₀ (quadWrite s acc a v) := by
  unfold quadWrite
  repeat' first
    | with_reducible assumption
    | (intro _ _ _ _; try dsimp -zeta only)
    | (intro _ _ _; try dsimp -zeta only)
    | (intro _ _; try dsimp -zeta only)
    | (intro _; try dsimp -zeta only)
    | with_reducible apply clearErrAddr_only
    | with_reducible apply baseWrite_only
    | with_reducible apply State.setReg64_only
    | with_reducible apply loadTime_only
    | with_reducible exact hF.of (by decide)
    | with_reducible apply Only.ite
    | split

theorem currentLow_only {F : Nat} {s₀ : State} {s : State} {a : Nat}
    (hs : Only F s₀ s) (hF : Within 8 F) :
    OnlyP F s₀ (currentLow s a) := by
  unfold currentLow
  repeat' first
    | with_reducible assumption
    | (intro _ _ _ _; try dsimp -zeta only)
    | (intro _ _ _; try dsimp -zeta only)
    | (intro _ _; try dsimp -zeta only)
    | (intro _; try dsimp -zeta only)
    | with_reducible apply timeLow_only
    | with_reducible exact hF.of (by decide)
    | with_reducible apply Only.ite
    | with_reducible apply OnlyP.ite
    | split
    | with_reducible apply OnlyP.mk'
    | with_reducible refine OnlyP.of_eq (by assumption) ?_
    | with_reducible apply OnlyP.snd
    | with_reducible exact OnlyP.elim (by assumption)

theorem itinCtrlWrite_only {F : Nat} {s₀ : State} {s : State} {p : Path} {v : Word}
    (hs : Only F s₀ s) (hF : Within 5128 F) :
    Only F s₀ (itinCtrlWrite s p v) := by
  unfold itinCtrlWrite
  repeat' first
    | with_reducible assumption
    | (extract_lets +onlyGivenNames y; refine cut (p := Only F s₀ y) ?_ (fun _ => ?_); rotate_left; clear_value y; rotate_right; subst y)
    | (extract_lets +onlyGivenNames y; try clear_value y)
    | with_reducible apply startVerify_only
    | with_reducible apply startSave_only
    | with_reducible exact hF.of (by decide)
    | with_reducible apply Only.ite
    | split
    | with_reducible apply Only.itin

theorem whileIdle_only {F : Nat} {s₀ : State} {s : State} {acc : Access} {effect : State → State}
    (hs : Only F s₀ s) (h_effect : ∀ x0, Only F s₀ x0 → Only F s₀ (effect x0)) (hF : Within 1032 F) :
    Only F s₀ (whileIdle s acc effect) := by
  unfold whileIdle
  repeat' first
    | with_reducible assumption
    | (intro _ _ _ _; try dsimp -zeta only)
    | (intro _ _ _; try dsimp -zeta only)
    | (intro _ _; try dsimp -zeta only)
    | (intro _; try dsimp -zeta only)
    | with_reducible apply accessError_only
    | with_reducible exact hF.of (by decide)
    | apply h_effect
    | with_reducible apply Only.ite
    | split

theorem devWrite_only {F : Nat} {s₀ : State} {s : State} {acc : Access} {v : Word}
    (hs : Only F s₀ s) (hF : Within 4312146238696 F) :
    Only F s₀ (devWrite s acc v) := by
  unfold devWrite
  repeat' first
    | with_reducible assumption
    | (intro _ _ _ _; try dsimp -zeta only)
    | (intro _ _ _; try dsimp -zeta only)
    | (intro _ _; try dsimp -zeta only)
    | (intro _; try dsimp -zeta only)
    | (extract_lets +onlyGivenNames y; refine cut (p := Only F s₀ y) ?_ (fun _ => ?_); rotate_left; clear_value y; rotate_right; subst y)
    | (extract_lets +onlyGivenNames y; try clear_value y)
    | with_reducible apply guestCtrl_only
    | with_reducible apply storeWrite_only
    | with_reducible apply beginFold_only
    | with_reducible apply holdWrite_only
    | with_reducible apply requestReset_only
    | with_reducible apply fieldWrite_only
    | with_reducible apply itinCtrlWrite_only
    | with_reducible apply whileIdle_only
    | with_reducible apply safeCtrl_only
    | with_reducible apply retireWrite_only
    | with_reducible exact hF.of (by decide)
    | with_reducible apply Only.ite
    | split
    | with_reducible apply Only.itin

theorem pwrWrite_only {F : Nat} {s₀ : State} {s : State} {a : Nat} {v : Word}
    (hs : Only F s₀ s) (hF : Within 2199023260872 F) :
    Only F s₀ (pwrWrite s a v) := by
  unfold pwrWrite
  repeat' first
    | with_reducible assumption
    | with_reducible apply foldPower_only
    | with_reducible apply shutdownWrite_only
    | with_reducible apply fieldWrite_only
    | with_reducible exact hF.of (by decide)
    | with_reducible apply Only.ite
    | split

theorem lanWrite_only {F : Nat} {s₀ : State} {s : State} {n : Nat} {o : Nat} {v : Word}
    (hs : Only F s₀ s) (hF : Within 2147488968 F) :
    Only F s₀ (lanWrite s n o v) := by
  unfold lanWrite
  repeat' first
    | with_reducible assumption
    | (intro _ _ _ _; try dsimp -zeta only)
    | (intro _ _ _; try dsimp -zeta only)
    | (intro _ _; try dsimp -zeta only)
    | (intro _; try dsimp -zeta only)
    | with_reducible apply foldLan_only
    | with_reducible apply retrimPlanes_only
    | with_reducible apply retrainPorts_only
    | with_reducible apply fieldWrite_only
    | with_reducible exact hF.of (by decide)
    | with_reducible apply Only.ite
    | split

theorem hbgWrite_only {F : Nat} {s₀ : State} {s : State} {p : Path} {o : Nat} {v : Word}
    (hs : Only F s₀ s) (hF : Within 38654706888 F) :
    Only F s₀ (hbgWrite s p o v) := by
  unfold hbgWrite
  repeat' first
    | with_reducible assumption
    | (intro _ _ _ _; try dsimp -zeta only)
    | (intro _ _ _; try dsimp -zeta only)
    | (intro _ _; try dsimp -zeta only)
    | (intro _; try dsimp -zeta only)
    | with_reducible apply retrainCopper_only
    | with_reducible apply xferWrite_only
    | with_reducible apply fieldWrite_only
    | with_reducible exact hF.of (by decide)
    | with_reducible apply Only.ite
    | split

theorem mailboxWrite_only {F : Nat} {s₀ : State} {s : State} {acc : Access} {t : Nat} {v : Word}
    (hs : Only F s₀ s) (hF : Within 4195528 F) :
    Only F s₀ (mailboxWrite s acc t v) := by
  unfold mailboxWrite
  repeat' first
    | with_reducible assumption
    | (intro _ _ _ _; try dsimp -zeta only)
    | (intro _ _ _; try dsimp -zeta only)
    | (intro _ _; try dsimp -zeta only)
    | (intro _; try dsimp -zeta only)
    | (extract_lets +onlyGivenNames y; refine cut (p := Only F s₀ y) ?_ (fun _ => ?_); rotate_left; clear_value y; rotate_right; subst y)
    | (extract_lets +onlyGivenNames y; refine cut (p := ∀ u, Only F s₀ u → Only F s₀ (y u)) ?_ (fun hy => ?_); rotate_left; clear_value y; rotate_right; subst y)
    | (extract_lets +onlyGivenNames y; try clear_value y)
    | with_reducible apply fieldWrite_only
    | with_reducible apply accessError_only
    | with_reducible apply State.modTile_only
    | with_reducible exact hF.of (by decide)
    | with_reducible apply hy
    | with_reducible apply Only.ite
    | split

theorem mirrorReg_only {F : Nat} {s₀ : State} {s : State} {acc : Access} {t : Nat} {w : Nat} {o : Nat} {v : Word}
    (hs : Only F s₀ s) (hF : Within 137438954696 F) :
    Only F s₀ (mirrorReg s acc t w o v) := by
  unfold mirrorReg
  repeat' first
    | with_reducible assumption
    | with_reducible apply mirCtrl_only
    | with_reducible apply accessError_only
    | with_reducible apply fieldWrite_only
    | with_reducible exact hF.of (by decide)
    | with_reducible apply Only.ite
    | split

theorem tilWrite_only {F : Nat} {s₀ : State} {s : State} {acc : Access} {t : Nat} {o : Nat} {v : Word}
    (hs : Only F s₀ s) (hF : Within 137713587400 F) :
    Only F s₀ (tilWrite s acc t o v) := by
  unfold tilWrite
  repeat' first
    | with_reducible assumption
    | (intro _ _ _ _; try dsimp -zeta only)
    | (intro _ _ _; try dsimp -zeta only)
    | (intro _ _; try dsimp -zeta only)
    | (intro _; try dsimp -zeta only)
    | (extract_lets +onlyGivenNames y; refine cut (p := Only F s₀ y) ?_ (fun _ => ?_); rotate_left; clear_value y; rotate_right; subst y)
    | (extract_lets +onlyGivenNames y; try clear_value y)
    | with_reducible apply foldMe_only
    | with_reducible apply foldFab_only
    | with_reducible apply State.setReg_only
    | with_reducible apply State.foldReg_only
    | with_reducible apply pwrTileFold_only
    | with_reducible apply foldMemory_only
    | with_reducible apply fieldWrite_only
    | with_reducible apply mailboxWrite_only
    | with_reducible apply mirrorReg_only
    | with_reducible apply clearWatch_only
    | with_reducible exact hF.of (by decide)
    | with_reducible apply Only.ite
    | split

theorem regWrite_only {F : Nat} {s₀ : State} {s : State} {acc : Access} {v : Word}
    (hs : Only F s₀ s) (hF : Within 4312147156716 F) :
    Only F s₀ (regWrite s acc v) := by
  unfold regWrite
  repeat' first
    | with_reducible assumption
    | (intro _ _ _ _; try dsimp -zeta only)
    | (intro _ _ _; try dsimp -zeta only)
    | (intro _ _; try dsimp -zeta only)
    | (intro _; try dsimp -zeta only)
    | (extract_lets +onlyGivenNames y; refine cut (p := Only F s₀ y) ?_ (fun _ => ?_); rotate_left; clear_value y; rotate_right; subst y)
    | (extract_lets +onlyGivenNames y; refine cut (p := OnlyP F s₀ y) ?_ (fun _ => ?_); rotate_left; clear_value y; rotate_right; subst y)
    | (extract_lets +onlyGivenNames y; try clear_value y)
    | with_reducible apply ringEffect_only
    | with_reducible apply putLow_only
    | with_reducible apply takeLow_only
    | with_reducible apply quadWrite_only
    | with_reducible apply currentLow_only
    | with_reducible apply devWrite_only
    | with_reducible apply pwrWrite_only
    | with_reducible apply lanWrite_only
    | with_reducible apply hbgWrite_only
    | with_reducible apply tilWrite_only
    | with_reducible exact hF.of (by decide)
    | with_reducible apply Only.ite
    | with_reducible apply OnlyP.ite
    | split
    | with_reducible apply OnlyP.mk'
    | with_reducible refine OnlyP.of_eq (by assumption) ?_
    | with_reducible apply OnlyP.snd
    | with_reducible exact OnlyP.elim (by assumption)

theorem pageSet_only {F : Nat} {s₀ : State} {s : State} {acc : Access} {o : Nat} {v : Word}
    (hs : Only F s₀ s) (hF : Within 44960679016 F) :
    Only F s₀ (pageSet s acc o v) := by
  unfold pageSet
  repeat' first
    | with_reducible assumption
    | (extract_lets +onlyGivenNames y; refine cut (p := Only F s₀ y) ?_ (fun _ => ?_); rotate_left; clear_value y; rotate_right; subst y)
    | (extract_lets +onlyGivenNames y; try clear_value y)
    | with_reducible apply pageWrite_only
    | with_reducible apply ringWrite_only
    | with_reducible apply ctrlWrite_only
    | with_reducible apply requestAbort_only
    | with_reducible exact hF.of (by decide)
    | with_reducible apply Only.ite
    | split

theorem msixWrite_only {F : Nat} {s₀ : State} {s : State} {f : Fn} {o : Nat} {v : Word}
    (hs : Only F s₀ s) (hF : Within 2080 F) :
    Only F s₀ (msixWrite s f o v) := by
  unfold msixWrite
  repeat' first
    | with_reducible assumption
    | (extract_lets +onlyGivenNames y; refine cut (p := Only F s₀ y) ?_ (fun _ => ?_); rotate_left; clear_value y; rotate_right; subst y)
    | (extract_lets +onlyGivenNames y; try clear_value y)
    | with_reducible apply flushPending_only
    | with_reducible apply State.setFn_only
    | with_reducible exact hF.of (by decide)
    | with_reducible apply Only.ite
    | split

theorem leaderWrite_only {F : Nat} {s₀ : State} {s : State} {acc : Access} {v : Word}
    (hs : Only F s₀ s) (hF : Within 9304 F) :
    Only F s₀ (leaderWrite s acc v) := by
  unfold leaderWrite
  repeat' first
    | with_reducible assumption
    | (intro _ _ _ _; try dsimp -zeta only)
    | (intro _ _ _; try dsimp -zeta only)
    | (intro _ _; try dsimp -zeta only)
    | (intro _; try dsimp -zeta only)
    | (extract_lets +onlyGivenNames y; refine cut (p := Only F s₀ y) ?_ (fun _ => ?_); rotate_left; clear_value y; rotate_right; subst y)
    | (extract_lets +onlyGivenNames y; refine cut (p := OnlyO F s₀ y) ?_ (fun _ => ?_); rotate_left; clear_value y; rotate_right; subst y)
    | (extract_lets +onlyGivenNames y; try clear_value y)
    | with_reducible apply answer_only
    | with_reducible apply leaderCommand_only
    | with_reducible apply claimBy_only
    | with_reducible apply keepBy_only
    | with_reducible apply releaseBy_only
    | with_reducible apply handoverBy_only
    | with_reducible apply acceptBy_only
    | with_reducible apply deposeBy_only
    | with_reducible apply refused_only
    | with_reducible exact hF.of (by decide)
    | split
    | with_reducible apply OnlyO.some
    | with_reducible apply OnlyO.none
    | with_reducible refine OnlyO.of_eq (by assumption) ?_
    | with_reducible apply OnlyO.getD

theorem busWrite_only {F : Nat} {s₀ : State} {s : State} {acc : Access} {v : Word}
    (hs : Only F s₀ s) (hF : Within 4312147164924 F) :
    Only F s₀ (busWrite s acc v) := by
  unfold busWrite
  repeat' first
    | with_reducible assumption
    | (intro _ _ _ _; try dsimp -zeta only)
    | (intro _ _ _; try dsimp -zeta only)
    | (intro _ _; try dsimp -zeta only)
    | (intro _; try dsimp -zeta only)
    | (extract_lets +onlyGivenNames y; refine cut (p := Only F s₀ y) ?_ (fun _ => ?_); rotate_left; clear_value y; rotate_right; subst y)
    | (extract_lets +onlyGivenNames y; try clear_value y)
    | with_reducible apply answer_only
    | with_reducible apply refused_only
    | with_reducible apply leaderWrite_only
    | with_reducible apply ownerWrite_only
    | with_reducible apply regWrite_only
    | with_reducible apply partyWrite_only
    | with_reducible apply pageSet_only
    | with_reducible apply boardWrite_only
    | with_reducible apply ringEffect_only
    | with_reducible apply msixWrite_only
    | with_reducible exact hF.of (by decide)
    | with_reducible apply Only.ite
    | split

theorem busWrite8_only {F : Nat} {s₀ : State} {s : State} {acc : Access} {v : Dword}
    (hs : Only F s₀ s) (hF : Within 1073747548 F) :
    Only F s₀ (busWrite8 s acc v) := by
  unfold busWrite8
  repeat' first
    | with_reducible assumption
    | (intro _ _ _ _; try dsimp -zeta only)
    | (intro _ _ _; try dsimp -zeta only)
    | (intro _ _; try dsimp -zeta only)
    | (intro _; try dsimp -zeta only)
    | with_reducible apply boardWrite_only
    | with_reducible apply baseWrite_only
    | with_reducible apply answer_only
    | with_reducible apply dropLow_only
    | with_reducible apply refused_only
    | with_reducible apply ownerWrite_only
    | with_reducible apply quadWrite_only
    | with_reducible exact hF.of (by decide)
    | with_reducible apply Only.ite
    | split

theorem execRegisterWrite_only {F : Nat} {s₀ : State} {acc : Access} {size : Nat} {data : Dword} {s : State}
    (hs : Only F s₀ s) (hF : Within 4312147164924 F) :
    OnlyN F s₀ (execRegisterWrite acc size data s) := by
  unfold execRegisterWrite
  repeat' first
    | with_reducible assumption
    | with_reducible apply answer_only
    | with_reducible apply busWrite8_only
    | with_reducible apply busWrite_only
    | with_reducible exact hF.of (by decide)
    | with_reducible apply Only.ite
    | with_reducible apply OnlyN.ite
    | split
    | with_reducible apply OnlyN.next

end Sys2Proof.Machine
end

