-- ==== Sys2Proof/Laws/OnlySecurity.lean ====
section
/-! SUPPORT. What each operation of Sys2Proof/Machine/Security.lean may change. -/

namespace Sys2Proof.Machine

open Sys2Proof

theorem setSecModule_only {F : Nat} {s₀ : State} {s : State} {h : Nat} {x : SecModule}
    (hs : Only F s₀ s) (hF : Within 1099511627776 F) :
    Only F s₀ (setSecModule s h x) := by
  unfold setSecModule
  repeat' first
    | with_reducible assumption
    | exact FusesKept.same rfl rfl rfl rfl rfl rfl
    | (extract_lets +onlyGivenNames y; have t : Security := y; clear t; subst y)
    | (extract_lets +onlyGivenNames y; refine cut (p := Only F s₀ y) ?_ (fun _ => ?_); rotate_left; clear_value y; rotate_right; subst y)
    | (extract_lets +onlyGivenNames y; try clear_value y)
    | with_reducible exact hF.of (by decide)
    | with_reducible apply Only.sec

theorem moduleFails_only {F : Nat} {s₀ : State} {s : State} {h : Nat} {code : Nat}
    (hs : Only F s₀ s) (hF : Within 1655709893736 F) :
    Only F s₀ (moduleFails s h code) := by
  unfold moduleFails
  repeat' first
    | with_reducible assumption
    | exact FusesKept.same rfl rfl rfl rfl rfl rfl
    | (extract_lets +onlyGivenNames y; have t : Security := y; clear t; subst y)
    | (extract_lets +onlyGivenNames y; refine cut (p := Only F s₀ y) ?_ (fun _ => ?_); rotate_left; clear_value y; rotate_right; subst y)
    | (extract_lets +onlyGivenNames y; try clear_value y)
    | with_reducible apply enterSecurity_only
    | with_reducible exact hF.of (by decide)
    | with_reducible apply Only.ite
    | split
    | with_reducible apply Only.sec

theorem execSecuritySelftest_only {F : Nat} {s₀ : State} {h : Fin 2} {good : Bool} {s : State}
    (hs : Only F s₀ s) (hF : Within 1655709893736 F) :
    OnlyN F s₀ (execSecuritySelftest h good s) := by
  unfold execSecuritySelftest
  repeat' first
    | with_reducible assumption
    | (extract_lets +onlyGivenNames y; refine cut (p := Only F s₀ y) ?_ (fun _ => ?_); rotate_left; clear_value y; rotate_right; subst y)
    | (extract_lets +onlyGivenNames y; try clear_value y)
    | with_reducible apply setSecModule_only
    | with_reducible apply moduleFails_only
    | with_reducible apply secFault_only
    | with_reducible exact hF.of (by decide)
    | with_reducible apply Only.ite
    | with_reducible apply OnlyN.ite
    | split
    | with_reducible apply OnlyN.next

theorem execEntropyHealthFail_only {F : Nat} {s₀ : State} {h : Fin 2} {s : State}
    (hs : Only F s₀ s) (hF : Within 1655709893736 F) :
    OnlyN F s₀ (execEntropyHealthFail h s) := by
  unfold execEntropyHealthFail
  repeat' first
    | with_reducible assumption
    | (extract_lets +onlyGivenNames y; refine cut (p := Only F s₀ y) ?_ (fun _ => ?_); rotate_left; clear_value y; rotate_right; subst y)
    | (extract_lets +onlyGivenNames y; try clear_value y)
    | with_reducible apply setSecModule_only
    | with_reducible apply moduleFails_only
    | with_reducible apply secFault_only
    | with_reducible exact hF.of (by decide)
    | with_reducible apply Only.ite
    | with_reducible apply OnlyN.ite
    | split
    | with_reducible apply OnlyN.next

theorem bridgeVerified_only {F : Nat} {s₀ : State} {s : State} {h : Nat} {x : SecModule} {boot : Bool} {good : Bool} {signed : Bool} {svn : Nat}
    (hs : Only F s₀ s) (hF : Within 1655709893736 F) :
    Only F s₀ (bridgeVerified s h x boot good signed svn) := by
  unfold bridgeVerified
  repeat' first
    | with_reducible assumption
    | (extract_lets +onlyGivenNames y; refine cut (p := Only F s₀ y) ?_ (fun _ => ?_); rotate_left; clear_value y; rotate_right; subst y)
    | (extract_lets +onlyGivenNames y; try clear_value y)
    | with_reducible apply setSecModule_only
    | with_reducible apply State.setField_only
    | with_reducible apply moduleFails_only
    | with_reducible apply secFault_only
    | with_reducible exact hF.of (by decide)
    | with_reducible apply Only.ite
    | split

theorem execBootVerify_only {F : Nat} {s₀ : State} {image : BootImage} {signed : Bool} {svn : Nat} {s : State}
    (hs : Only F s₀ s) (hF : Within 1655709893736 F) :
    OnlyN F s₀ (execBootVerify image signed svn s) := by
  unfold execBootVerify
  repeat' first
    | with_reducible assumption
    | exact FusesKept.same rfl rfl rfl rfl rfl rfl
    | (extract_lets +onlyGivenNames y; have t : Security := y; clear t; subst y)
    | (extract_lets +onlyGivenNames y; refine cut (p := Only F s₀ y) ?_ (fun _ => ?_); rotate_left; clear_value y; rotate_right; subst y)
    | (extract_lets +onlyGivenNames y; try clear_value y)
    | with_reducible apply bridgeVerified_only
    | with_reducible apply enterSecurity_only
    | with_reducible apply secFault_only
    | with_reducible apply State.setLantern_only
    | with_reducible exact hF.of (by decide)
    | with_reducible apply Only.ite
    | with_reducible apply OnlyN.ite
    | split
    | with_reducible apply OnlyN.next
    | with_reducible apply Only.sec

theorem remeasure_only {F : Nat} {s₀ : State} {s : State} {sel : Word}
    (hs : Only F s₀ s) (hF : Within 1099511627776 F) :
    Only F s₀ (remeasure s sel) := by
  unfold remeasure
  repeat' first
    | with_reducible assumption
    | exact FusesKept.same rfl rfl rfl rfl rfl rfl
    | (intro _ _ _ _; try dsimp -zeta only)
    | (intro _ _ _; try dsimp -zeta only)
    | (intro _ _; try dsimp -zeta only)
    | (intro _; try dsimp -zeta only)
    | (extract_lets +onlyGivenNames y; have t : Security := y; clear t; subst y)
    | (extract_lets +onlyGivenNames y; refine cut (p := Only F s₀ y) ?_ (fun _ => ?_); rotate_left; clear_value y; rotate_right; subst y)
    | (extract_lets +onlyGivenNames y; try clear_value y)
    | with_reducible exact hF.of (by decide)
    | with_reducible apply Only.sec

theorem spdmServe_only {F : Nat} {s₀ : State} {s : State} {p : Path} {kind : SpdmKind}
    (hs : Only F s₀ s) (hF : Within 1099511627792 F) :
    Only F s₀ (spdmServe s p kind) := by
  unfold spdmServe
  repeat' first
    | with_reducible assumption
    | exact FusesKept.same rfl rfl rfl rfl rfl rfl
    | (intro _ _ _ _; try dsimp -zeta only)
    | (intro _ _ _; try dsimp -zeta only)
    | (intro _ _; try dsimp -zeta only)
    | (intro _; try dsimp -zeta only)
    | (extract_lets +onlyGivenNames y; have t : Security := y; clear t; subst y)
    | (extract_lets +onlyGivenNames y; refine cut (p := Only F s₀ y) ?_ (fun _ => ?_); rotate_left; clear_value y; rotate_right; subst y)
    | (extract_lets +onlyGivenNames y; try clear_value y)
    | with_reducible apply answer_only
    | with_reducible exact hF.of (by decide)
    | with_reducible apply Only.ite
    | split
    | with_reducible apply Only.sec

theorem execSpdmRequest_only {F : Nat} {s₀ : State} {p : Path} {kind : SpdmKind} {s : State}
    (hs : Only F s₀ s) (hF : Within 1099511627792 F) :
    OnlyN F s₀ (execSpdmRequest p kind s) := by
  unfold execSpdmRequest
  repeat' first
    | with_reducible assumption
    | with_reducible apply spdmServe_only
    | with_reducible exact hF.of (by decide)
    | with_reducible apply Only.ite
    | with_reducible apply OnlyN.ite
    | split
    | with_reducible apply OnlyN.next

theorem serviceRefused_only {F : Nat} {s₀ : State} {s : State}
    (hs : Only F s₀ s) (hF : Within 1112 F) :
    Only F s₀ (serviceRefused s) := by
  unfold serviceRefused
  repeat' first
    | with_reducible assumption
    | with_reducible apply answer_only
    | with_reducible apply secFault_only
    | with_reducible exact hF.of (by decide)

theorem ownerService_only {F : Nat} {s₀ : State} {s : State} {id : Nat} {provision : Bool} {allowed : Bool} {effect : State → State}
    (hs : Only F s₀ s) (h_effect : ∀ x0, Only F s₀ x0 → Only F s₀ (effect x0)) (hF : Within 1112 F) :
    Only F s₀ (ownerService s id provision allowed effect) := by
  unfold ownerService
  repeat' first
    | with_reducible assumption
    | (intro _ _ _ _; try dsimp -zeta only)
    | (intro _ _ _; try dsimp -zeta only)
    | (intro _ _; try dsimp -zeta only)
    | (intro _; try dsimp -zeta only)
    | with_reducible apply h_effect
    | with_reducible apply answer_only
    | with_reducible apply serviceRefused_only
    | with_reducible exact hF.of (by decide)
    | with_reducible apply Only.ite
    | split

theorem execProvisionAnchor_only {F : Nat} {s₀ : State} {session : Nat} {anchor : BitVec 384} {s : State}
    (hs : Only F s₀ s) (hF : Within 1099511628888 F) :
    OnlyN F s₀ (execProvisionAnchor session anchor s) := by
  unfold execProvisionAnchor
  refine OnlyN.next ?_
  unfold ownerService
  split
  · split
    · exact serviceRefused_only hs (hF.of (by decide))
    · exact hs
  · split
    · exact hs
    · split
      · next h =>
        refine answer_only (Only.sec hs (hF.of (by decide)) ?_) (hF.of (by decide))
        exact ⟨fun x e => by simp [e] at h, fun _ _ e => e, fun _ e => e, Nat.le_refl _, Nat.le_refl _, Nat.le_refl _⟩
      · exact serviceRefused_only hs (hF.of (by decide))

theorem execLoadItinKey_only {F : Nat} {s₀ : State} {session : Nat} {slot : Fin 4} {key : BitVec 384} {s : State}
    (hs : Only F s₀ s) (hF : Within 1099511628888 F) :
    OnlyN F s₀ (execLoadItinKey session slot key s) := by
  unfold execLoadItinKey
  refine OnlyN.next ?_
  unfold ownerService
  split
  · split
    · exact serviceRefused_only hs (hF.of (by decide))
    · exact hs
  · split
    · exact hs
    · split
      · next h =>
        refine answer_only (Only.sec hs (hF.of (by decide)) ?_) (hF.of (by decide))
        refine ⟨fun _ e => e, fun k x e => ?_, fun _ e => e, Nat.le_refl _, Nat.le_refl _, Nat.le_refl _⟩
        rw [mget_mset]; split
        · next hk => subst hk; simp [e] at h
        · exact e
      · exact serviceRefused_only hs (hF.of (by decide))

theorem execRevokeItinKey_only {F : Nat} {s₀ : State} {session : Nat} {slot : Fin 4} {s : State}
    (hs : Only F s₀ s) (hF : Within 1099511628888 F) :
    OnlyN F s₀ (execRevokeItinKey session slot s) := by
  unfold execRevokeItinKey
  refine OnlyN.next ?_
  unfold ownerService
  split
  · split
    · exact serviceRefused_only hs (hF.of (by decide))
    · exact hs
  · split
    · exact hs
    · split
      · next h =>
        refine answer_only (Only.sec hs (hF.of (by decide)) ?_) (hF.of (by decide))
        exact ⟨fun _ e => e, fun _ _ e => e, fun k e => by simp [Nat.testBit_or, e], Nat.le_refl _, Nat.le_refl _, Nat.le_refl _⟩
      · exact serviceRefused_only hs (hF.of (by decide))

theorem execLoadJobKey_only {F : Nat} {s₀ : State} {session : Nat} {key : BitVec 256} {s : State}
    (hs : Only F s₀ s) (hF : Within 1099511628888 F) :
    OnlyN F s₀ (execLoadJobKey session key s) := by
  unfold execLoadJobKey
  repeat' first
    | with_reducible assumption
    | exact FusesKept.same rfl rfl rfl rfl rfl rfl
    | (intro _ _ _ _; try dsimp -zeta only)
    | (intro _ _ _; try dsimp -zeta only)
    | (intro _ _; try dsimp -zeta only)
    | (intro _; try dsimp -zeta only)
    | (extract_lets +onlyGivenNames y; have t : Security := y; clear t; subst y)
    | (extract_lets +onlyGivenNames y; refine cut (p := Only F s₀ y) ?_ (fun _ => ?_); rotate_left; clear_value y; rotate_right; subst y)
    | (extract_lets +onlyGivenNames y; try clear_value y)
    | with_reducible apply ownerService_only
    | with_reducible exact hF.of (by decide)
    | with_reducible apply OnlyN.next
    | with_reducible apply Only.sec

theorem execAdvanceSvn_only {F : Nat} {s₀ : State} {session : Nat} {s : State}
    (hs : Only F s₀ s) (hF : Within 1099511628888 F) :
    OnlyN F s₀ (execAdvanceSvn session s) := by
  unfold execAdvanceSvn
  refine OnlyN.next ?_
  unfold ownerService
  split
  · split
    · exact serviceRefused_only hs (hF.of (by decide))
    · exact hs
  · split
    · exact hs
    · split
      · next h =>
        refine answer_only (Only.sec hs (hF.of (by decide)) ?_) (hF.of (by decide))
        exact ⟨fun _ e => e, fun _ _ e => e, fun _ e => e, Nat.le_max_left .., Nat.le_max_left .., Nat.le_max_left ..⟩
      · exact serviceRefused_only hs (hF.of (by decide))

theorem execZeroize_only {F : Nat} {s₀ : State} {session : Nat} {s : State}
    (hs : Only F s₀ s) (hF : Within 1105954079832 F) :
    OnlyN F s₀ (execZeroize session s) := by
  unfold execZeroize
  repeat' first
    | with_reducible assumption
    | (intro _ _ _ _; try dsimp -zeta only)
    | (intro _ _ _; try dsimp -zeta only)
    | (intro _ _; try dsimp -zeta only)
    | (intro _; try dsimp -zeta only)
    | with_reducible apply ownerService_only
    | with_reducible apply zeroizeKeys_only
    | with_reducible exact hF.of (by decide)
    | with_reducible apply OnlyN.next

theorem execDebugUnlock_only {F : Nat} {s₀ : State} {session : Nat} {token : DebugToken} {s : State}
    (hs : Only F s₀ s) (hF : Within 4312146236664 F) :
    OnlyN F s₀ (execDebugUnlock session token s) := by
  unfold execDebugUnlock
  repeat' first
    | with_reducible assumption
    | exact FusesKept.same rfl rfl rfl rfl rfl rfl
    | (intro _ _ _ _; try dsimp -zeta only)
    | (intro _ _ _; try dsimp -zeta only)
    | (intro _ _; try dsimp -zeta only)
    | (intro _; try dsimp -zeta only)
    | (extract_lets +onlyGivenNames y; have t : Security := y; clear t; subst y)
    | (extract_lets +onlyGivenNames y; refine cut (p := Only F s₀ y) ?_ (fun _ => ?_); rotate_left; clear_value y; rotate_right; subst y)
    | (extract_lets +onlyGivenNames y; try clear_value y)
    | with_reducible apply ownerService_only
    | with_reducible apply State.used_only
    | with_reducible apply zeroizeKeys_only
    | with_reducible apply restart_only
    | with_reducible apply secFault_only
    | with_reducible exact hF.of (by decide)
    | with_reducible apply Only.ite
    | with_reducible apply OnlyN.ite
    | split
    | with_reducible apply OnlyN.next
    | with_reducible apply Only.sec

theorem execSecurityHandover_only {F : Nat} {s₀ : State} {s : State}
    (hs : Only F s₀ s) (hF : Within 1099511630920 F) :
    OnlyN F s₀ (execSecurityHandover s) := by
  unfold execSecurityHandover
  repeat' first
    | with_reducible assumption
    | exact FusesKept.same rfl rfl rfl rfl rfl rfl
    | (intro _ _ _ _; try dsimp -zeta only)
    | (intro _ _ _; try dsimp -zeta only)
    | (intro _ _; try dsimp -zeta only)
    | (intro _; try dsimp -zeta only)
    | (extract_lets +onlyGivenNames y; have t : Security := y; clear t; subst y)
    | (extract_lets +onlyGivenNames y; refine cut (p := Only F s₀ y) ?_ (fun _ => ?_); rotate_left; clear_value y; rotate_right; subst y)
    | (extract_lets +onlyGivenNames y; try clear_value y)
    | with_reducible apply ideLost_only
    | with_reducible apply post_only
    | with_reducible exact hF.of (by decide)
    | with_reducible apply Only.foldl
    | with_reducible apply OnlyP.foldl
    | with_reducible apply OnlyF.foldl
    | with_reducible apply Only.ite
    | with_reducible apply OnlyP.ite
    | with_reducible apply OnlyF.ite
    | with_reducible apply OnlyN.ite
    | split
    | with_reducible apply OnlyN.next
    | with_reducible apply OnlyP.mk'
    | with_reducible apply OnlyF.mk'
    | with_reducible refine OnlyP.of_eq (by assumption) ?_
    | with_reducible apply OnlyP.snd
    | with_reducible exact OnlyP.elim (by assumption)
    | with_reducible refine OnlyF.of_eq (by assumption) ?_
    | with_reducible apply OnlyF.fst
    | with_reducible exact OnlyF.elim (by assumption)
    | with_reducible apply Only.sec

theorem execIdeStateChange_only {F : Nat} {s₀ : State} {f : Fn} {secure : Bool} {s : State}
    (hs : Only F s₀ s) (hF : Within 1099511630952 F) :
    OnlyN F s₀ (execIdeStateChange f secure s) := by
  unfold execIdeStateChange
  repeat' first
    | with_reducible assumption
    | (extract_lets +onlyGivenNames y; refine cut (p := Only F s₀ y) ?_ (fun _ => ?_); rotate_left; clear_value y; rotate_right; subst y)
    | (extract_lets +onlyGivenNames y; try clear_value y)
    | with_reducible apply ideLost_only
    | with_reducible apply releaseAll_only
    | with_reducible apply State.setFn_only
    | with_reducible exact hF.of (by decide)
    | with_reducible apply Only.ite
    | with_reducible apply OnlyN.ite
    | split
    | with_reducible apply OnlyN.next

end Sys2Proof.Machine
end

