-- ==== Sys2Proof/Laws/OnlyFoldInstant.lean ====
section
/-! SUPPORT. What each operation of Sys2Proof/Machine/FoldInstant.lean may change. -/

namespace Sys2Proof.Machine

open Sys2Proof

theorem stageImage_only {F : Nat} {s₀ : State} {s : State} {a : Nat} {v : Nat}
    (hs : Only F s₀ s) (hF : Within 128 F) :
    Only F s₀ (stageImage s a v) := by
  unfold stageImage
  repeat' first
    | with_reducible assumption
    | (extract_lets +onlyGivenNames y; refine cut (p := Only F s₀ y) ?_ (fun _ => ?_); rotate_left; clear_value y; rotate_right; subst y)
    | (extract_lets +onlyGivenNames y; try clear_value y)
    | with_reducible exact hF.of (by decide)
    | split
    | with_reducible apply Only.staged

theorem stageWord_only {F : Nat} {s₀ : State} {ss : List Section} {ty : Nat} {inst : Nat} {o : Nat} {a : Nat} {s : State}
    (hs : Only F s₀ s) (hF : Within 128 F) :
    Only F s₀ (stageWord ss ty inst o a s) := by
  unfold stageWord
  repeat' first
    | with_reducible assumption
    | with_reducible apply stageImage_only
    | with_reducible exact hF.of (by decide)
    | split

theorem stageTile_only {F : Nat} {s₀ : State} {ss : List Section} {t : Nat} {s : State}
    (hs : Only F s₀ s) (hF : Within 128 F) :
    Only F s₀ (stageTile ss t s) := by
  unfold stageTile
  repeat' first
    | with_reducible assumption
    | (intro _ _ _ _; try dsimp -zeta only)
    | (intro _ _ _; try dsimp -zeta only)
    | (intro _ _; try dsimp -zeta only)
    | (intro _; try dsimp -zeta only)
    | (extract_lets +onlyGivenNames y; refine cut (p := Only F s₀ y) ?_ (fun _ => ?_); rotate_left; clear_value y; rotate_right; subst y)
    | (extract_lets +onlyGivenNames y; try clear_value y)
    | with_reducible apply stageImage_only
    | with_reducible exact hF.of (by decide)
    | with_reducible apply Only.foldl
    | with_reducible apply OnlyP.foldl
    | with_reducible apply OnlyF.foldl
    | split
    | with_reducible apply OnlyP.mk'
    | with_reducible apply OnlyF.mk'
    | with_reducible refine OnlyP.of_eq (by assumption) ?_
    | with_reducible apply OnlyP.snd
    | with_reducible exact OnlyP.elim (by assumption)
    | with_reducible refine OnlyF.of_eq (by assumption) ?_
    | with_reducible apply OnlyF.fst
    | with_reducible exact OnlyF.elim (by assumption)

theorem clampReg_only {F : Nat} {s₀ : State} {s : State} {a : Nat} {inst : Nat} {off : Nat} {lo : Nat} {n : Nat} {min : Nat} {max : Nat}
    (hs : Only F s₀ s) (hF : Within 5192 F) :
    Only F s₀ (clampReg s a inst off lo n min max) := by
  unfold clampReg
  repeat' first
    | with_reducible assumption
    | (extract_lets +onlyGivenNames y; refine cut (p := Only F s₀ y) ?_ (fun _ => ?_); rotate_left; clear_value y; rotate_right; subst y)
    | (extract_lets +onlyGivenNames y; try clear_value y)
    | with_reducible apply reportClamp_only
    | with_reducible apply State.setField_only
    | with_reducible exact hF.of (by decide)
    | with_reducible apply Only.ite
    | split

theorem foldXfer_only {F : Nat} {s₀ : State} {s : State} {t : Nat}
    (hs : Only F s₀ s) (hF : Within 5320 F) :
    Only F s₀ (foldXfer s t) := by
  unfold foldXfer
  repeat' first
    | with_reducible assumption
    | (extract_lets +onlyGivenNames y; refine cut (p := Only F s₀ y) ?_ (fun _ => ?_); rotate_left; clear_value y; rotate_right; subst y)
    | (extract_lets +onlyGivenNames y; try clear_value y)
    | with_reducible apply clampReg_only
    | with_reducible apply State.foldReg_only
    | with_reducible apply State.setField_only
    | with_reducible exact hF.of (by decide)

theorem foldRollCall_only {F : Nat} {s₀ : State} {s : State}
    (hs : Only F s₀ s) (hF : Within 5320 F) :
    Only F s₀ (foldRollCall s) := by
  unfold foldRollCall
  repeat' first
    | with_reducible assumption
    | (extract_lets +onlyGivenNames y; refine cut (p := Only F s₀ y) ?_ (fun _ => ?_); rotate_left; clear_value y; rotate_right; subst y)
    | (extract_lets +onlyGivenNames y; try clear_value y)
    | with_reducible apply State.foldReg_only
    | with_reducible apply clampReg_only
    | with_reducible exact hF.of (by decide)

theorem foldTile_only {F : Nat} {s₀ : State} {ss : List Section} {t : Nat} {s : State}
    (hs : Only F s₀ s) (hF : Within 274633928 F) :
    Only F s₀ (foldTile ss t s) := by
  unfold foldTile
  repeat' first
    | with_reducible assumption
    | (intro _ _ _ _; try dsimp -zeta only)
    | (intro _ _ _; try dsimp -zeta only)
    | (intro _ _; try dsimp -zeta only)
    | (intro _; try dsimp -zeta only)
    | (extract_lets +onlyGivenNames y; refine cut (p := Only F s₀ y) ?_ (fun _ => ?_); rotate_left; clear_value y; rotate_right; subst y)
    | (extract_lets +onlyGivenNames y; try clear_value y)
    | with_reducible apply foldMe_only
    | with_reducible apply foldFab_only
    | with_reducible apply stageTile_only
    | with_reducible apply foldXfer_only
    | with_reducible apply State.foldReg_only
    | with_reducible apply foldSlew_only
    | with_reducible apply foldMemory_only
    | with_reducible exact hF.of (by decide)

theorem foldDevice_only {F : Nat} {s₀ : State} {ss : List Section} {s : State}
    (hs : Only F s₀ s) (hF : Within 2199023260872 F) :
    Only F s₀ (foldDevice ss s) := by
  unfold foldDevice
  repeat' first
    | with_reducible assumption
    | (intro _ _ _ _; try dsimp -zeta only)
    | (intro _ _ _; try dsimp -zeta only)
    | (intro _ _; try dsimp -zeta only)
    | (intro _; try dsimp -zeta only)
    | (extract_lets +onlyGivenNames y; refine cut (p := Only F s₀ y) ?_ (fun _ => ?_); rotate_left; clear_value y; rotate_right; subst y)
    | (extract_lets +onlyGivenNames y; try clear_value y)
    | with_reducible apply State.setReg_only
    | with_reducible apply stageWord_only
    | with_reducible apply State.foldReg_only
    | with_reducible apply foldRollCall_only
    | with_reducible apply foldPower_only
    | with_reducible apply foldLan_only
    | with_reducible exact hF.of (by decide)
    | with_reducible apply Only.each
    | split

theorem loadTeam_only {F : Nat} {s₀ : State} {ss : List Section} {p : Nat} {t : Nat} {s : State}
    (hs : Only F s₀ s) (hF : Within 64 F) :
    Only F s₀ (loadTeam ss p t s) := by
  unfold loadTeam
  repeat' first
    | with_reducible assumption
    | (intro _ _ _ _; try dsimp -zeta only)
    | (intro _ _ _; try dsimp -zeta only)
    | (intro _ _; try dsimp -zeta only)
    | (intro _; try dsimp -zeta only)
    | (extract_lets +onlyGivenNames y; refine cut (p := Only F s₀ y) ?_ (fun _ => ?_); rotate_left; clear_value y; rotate_right; subst y)
    | (extract_lets +onlyGivenNames y; refine cut (p := ∀ u, Only F s₀ u → Only F s₀ (y u)) ?_ (fun hy => ?_); rotate_left; clear_value y; rotate_right; subst y)
    | (extract_lets +onlyGivenNames y; try clear_value y)
    | with_reducible apply State.setReg_only
    | with_reducible exact hF.of (by decide)
    | with_reducible apply hy
    | split

theorem foldTeams_only {F : Nat} {s₀ : State} {old : List Section} {ss : List Section} {s : State}
    (hs : Only F s₀ s) (hF : Within 64 F) :
    Only F s₀ (foldTeams old ss s) := by
  unfold foldTeams
  repeat' first
    | with_reducible assumption
    | (intro _ _ _ _; try dsimp -zeta only)
    | (intro _ _ _; try dsimp -zeta only)
    | (intro _ _; try dsimp -zeta only)
    | (intro _; try dsimp -zeta only)
    | with_reducible apply loadTeam_only
    | with_reducible exact hF.of (by decide)
    | with_reducible apply Only.each
    | with_reducible apply Only.ite
    | split

theorem joinTile_only {F : Nat} {s₀ : State} {ss : List Section} {p : Nat} {t : Nat} {s : State}
    (hs : Only F s₀ s) (hF : Within 5341248 F) :
    Only F s₀ (joinTile ss p t s) := by
  unfold joinTile
  repeat' first
    | with_reducible assumption
    | with_reducible apply startZero_only
    | with_reducible apply loadSeeds_only
    | with_reducible apply clearTallies_only
    | with_reducible apply clearQueues_only
    | with_reducible exact hF.of (by decide)

theorem endParty_only {F : Nat} {s₀ : State} {s : State} {p : Nat}
    (hs : Only F s₀ s) (hF : Within 35437692000 F) :
    Only F s₀ (endParty s p) := by
  unfold endParty
  repeat' first
    | with_reducible assumption
    | (intro _ _ _ _; try dsimp -zeta only)
    | (intro _ _ _; try dsimp -zeta only)
    | (intro _ _; try dsimp -zeta only)
    | (intro _; try dsimp -zeta only)
    | (extract_lets +onlyGivenNames y; refine cut (p := Only F s₀ y) ?_ (fun _ => ?_); rotate_left; clear_value y; rotate_right; subst y)
    | (extract_lets +onlyGivenNames y; try clear_value y)
    | with_reducible apply clearRollCall_only
    | with_reducible apply State.setParty_only
    | with_reducible apply State.setRing_only
    | with_reducible exact hF.of (by decide)
    | with_reducible apply Only.rk

theorem foldParty_only {F : Nat} {s₀ : State} {was : State} {ss : List Section} {p : Nat} {s : State}
    (hs : Only F s₀ s) (hF : Within 35438838880 F) :
    Only F s₀ (foldParty was ss p s) := by
  unfold foldParty
  repeat' first
    | with_reducible assumption
    | (intro _ _ _ _; try dsimp -zeta only)
    | (intro _ _ _; try dsimp -zeta only)
    | (intro _ _; try dsimp -zeta only)
    | (intro _; try dsimp -zeta only)
    | (extract_lets +onlyGivenNames y; refine cut (p := Only F s₀ y) ?_ (fun _ => ?_); rotate_left; clear_value y; rotate_right; subst y)
    | (extract_lets +onlyGivenNames y; try clear_value y)
    | with_reducible apply joinTile_only
    | with_reducible apply State.setRing_only
    | with_reducible apply State.setParty_only
    | with_reducible apply endParty_only
    | with_reducible apply loadSeeds_only
    | with_reducible exact hF.of (by decide)
    | with_reducible apply Only.each
    | with_reducible apply Only.ite
    | split

theorem foldOwners_only {F : Nat} {s₀ : State} {ss : List Section} {s : State}
    (hs : Only F s₀ s) (hF : Within 16384 F) :
    Only F s₀ (foldOwners ss s) := by
  unfold foldOwners
  repeat' first
    | with_reducible assumption
    | (intro _ _ _ _; try dsimp -zeta only)
    | (intro _ _ _; try dsimp -zeta only)
    | (intro _ _; try dsimp -zeta only)
    | (intro _; try dsimp -zeta only)
    | (extract_lets +onlyGivenNames y; refine cut (p := Only F s₀ y) ?_ (fun _ => ?_); rotate_left; clear_value y; rotate_right; subst y)
    | (extract_lets +onlyGivenNames y; try clear_value y)
    | with_reducible exact hF.of (by decide)
    | with_reducible apply Only.foldl
    | with_reducible apply OnlyP.foldl
    | with_reducible apply OnlyF.foldl
    | with_reducible apply OnlyP.mk'
    | with_reducible apply OnlyF.mk'
    | with_reducible refine OnlyP.of_eq (by assumption) ?_
    | with_reducible apply OnlyP.snd
    | with_reducible exact OnlyP.elim (by assumption)
    | with_reducible refine OnlyF.of_eq (by assumption) ?_
    | with_reducible apply OnlyF.fst
    | with_reducible exact OnlyF.elim (by assumption)
    | with_reducible apply Only.parties

theorem foldParties_only {F : Nat} {s₀ : State} {was : State} {ss : List Section} {s : State}
    (hs : Only F s₀ s) (hF : Within 35438838880 F) :
    Only F s₀ (foldParties was ss s) := by
  unfold foldParties
  repeat' first
    | with_reducible assumption
    | (intro _ _ _ _; try dsimp -zeta only)
    | (intro _ _ _; try dsimp -zeta only)
    | (intro _ _; try dsimp -zeta only)
    | (intro _; try dsimp -zeta only)
    | (extract_lets +onlyGivenNames y; refine cut (p := Only F s₀ y) ?_ (fun _ => ?_); rotate_left; clear_value y; rotate_right; subst y)
    | (extract_lets +onlyGivenNames y; refine cut (p := ∀ u, Only F s₀ u → Only F s₀ (y u)) ?_ (fun hy => ?_); rotate_left; clear_value y; rotate_right; subst y)
    | (extract_lets +onlyGivenNames y; try clear_value y)
    | with_reducible apply foldParty_only
    | with_reducible apply foldOwners_only
    | with_reducible exact hF.of (by decide)
    | with_reducible apply Only.each
    | with_reducible apply hy

theorem foldRoles_only {F : Nat} {s₀ : State} {ss : List Section} {s : State}
    (hs : Only F s₀ s) (hF : Within 64 F) :
    Only F s₀ (foldRoles ss s) := by
  unfold foldRoles
  repeat' first
    | with_reducible assumption
    | (intro _ _ _ _; try dsimp -zeta only)
    | (intro _ _ _; try dsimp -zeta only)
    | (intro _ _; try dsimp -zeta only)
    | (intro _; try dsimp -zeta only)
    | with_reducible apply State.setReg_only
    | with_reducible exact hF.of (by decide)
    | with_reducible apply Only.foldl
    | with_reducible apply OnlyP.foldl
    | with_reducible apply OnlyF.foldl
    | with_reducible apply Only.each
    | with_reducible apply OnlyP.mk'
    | with_reducible apply OnlyF.mk'
    | with_reducible refine OnlyP.of_eq (by assumption) ?_
    | with_reducible apply OnlyP.snd
    | with_reducible exact OnlyP.elim (by assumption)
    | with_reducible refine OnlyF.of_eq (by assumption) ?_
    | with_reducible apply OnlyF.fst
    | with_reducible exact OnlyF.elim (by assumption)

theorem foldHosts_only {F : Nat} {s₀ : State} {old : List Section} {ss : List Section} {s : State}
    (hs : Only F s₀ s) (hF : Within 1108101573704 F) :
    Only F s₀ (foldHosts old ss s) := by
  unfold foldHosts
  repeat' first
    | with_reducible assumption
    | (intro _ _ _ _; try dsimp -zeta only)
    | (intro _ _ _; try dsimp -zeta only)
    | (intro _ _; try dsimp -zeta only)
    | (intro _; try dsimp -zeta only)
    | with_reducible apply hostReset_only
    | with_reducible exact hF.of (by decide)
    | with_reducible apply Only.each
    | with_reducible apply Only.ite
    | split

theorem stopOld_only {F : Nat} {s₀ : State} {old : List Section} {ss : List Section} {s : State}
    (hs : Only F s₀ s) (hF : Within 144149840968 F) :
    Only F s₀ (stopOld old ss s) := by
  unfold stopOld
  repeat' first
    | with_reducible assumption
    | (intro _ _ _ _; try dsimp -zeta only)
    | (intro _ _ _; try dsimp -zeta only)
    | (intro _ _; try dsimp -zeta only)
    | (intro _; try dsimp -zeta only)
    | (extract_lets +onlyGivenNames y; refine cut (p := Only F s₀ y) ?_ (fun _ => ?_); rotate_left; clear_value y; rotate_right; subst y)
    | (extract_lets +onlyGivenNames y; try clear_value y)
    | with_reducible apply stopPort_only
    | with_reducible apply stopCopper_only
    | with_reducible exact hF.of (by decide)
    | with_reducible apply Only.each
    | with_reducible apply Only.ite
    | split

theorem startNewPort_only {F : Nat} {s₀ : State} {old : List Section} {ss : List Section} {n : Nat} {p : Nat} {s : State}
    (hs : Only F s₀ s) (hF : Within 2147483648 F) :
    Only F s₀ (startNewPort old ss n p s) := by
  unfold startNewPort
  repeat' first
    | with_reducible assumption
    | (extract_lets +onlyGivenNames y; refine cut (p := Only F s₀ y) ?_ (fun _ => ?_); rotate_left; clear_value y; rotate_right; subst y)
    | (extract_lets +onlyGivenNames y; try clear_value y)
    | with_reducible apply startPort_only
    | with_reducible exact hF.of (by decide)
    | with_reducible apply Only.ite
    | split

theorem startNewCopper_only {F : Nat} {s₀ : State} {old : List Section} {ss : List Section} {k : Nat} {s : State}
    (hs : Only F s₀ s) (hF : Within 4294967296 F) :
    Only F s₀ (startNewCopper old ss k s) := by
  unfold startNewCopper
  repeat' first
    | with_reducible assumption
    | (extract_lets +onlyGivenNames y; refine cut (p := Only F s₀ y) ?_ (fun _ => ?_); rotate_left; clear_value y; rotate_right; subst y)
    | (extract_lets +onlyGivenNames y; try clear_value y)
    | with_reducible apply startCopper_only
    | with_reducible exact hF.of (by decide)
    | with_reducible apply Only.ite
    | split

theorem startNew_only {F : Nat} {s₀ : State} {old : List Section} {ss : List Section} {s : State}
    (hs : Only F s₀ s) (hF : Within 6442450944 F) :
    Only F s₀ (startNew old ss s) := by
  unfold startNew
  repeat' first
    | with_reducible assumption
    | (intro _ _ _ _; try dsimp -zeta only)
    | (intro _ _ _; try dsimp -zeta only)
    | (intro _ _; try dsimp -zeta only)
    | (intro _; try dsimp -zeta only)
    | (extract_lets +onlyGivenNames y; refine cut (p := Only F s₀ y) ?_ (fun _ => ?_); rotate_left; clear_value y; rotate_right; subst y)
    | (extract_lets +onlyGivenNames y; try clear_value y)
    | with_reducible apply startNewPort_only
    | with_reducible apply startNewCopper_only
    | with_reducible exact hF.of (by decide)
    | with_reducible apply Only.each
    | with_reducible apply Only.ite
    | split

theorem planCopper_only {F : Nat} {s₀ : State} {ss : List Section} {k : Nat} {s : State}
    (hs : Only F s₀ s) (hF : Within 4294967296 F) :
    Only F s₀ (planCopper ss k s) := by
  unfold planCopper
  repeat' first
    | with_reducible assumption
    | (extract_lets +onlyGivenNames y; refine cut (p := Only F s₀ y) ?_ (fun _ => ?_); rotate_left; clear_value y; rotate_right; subst y)
    | (extract_lets +onlyGivenNames y; try clear_value y)
    | with_reducible apply State.setCopper_only
    | with_reducible exact hF.of (by decide)
    | split

theorem openGuests_only {F : Nat} {s₀ : State} {s : State}
    (hs : Only F s₀ s) (hF : Within 134217728 F) :
    Only F s₀ (openGuests s) := by
  unfold openGuests
  repeat' first
    | with_reducible assumption
    | (intro _ _ _ _; try dsimp -zeta only)
    | (intro _ _ _; try dsimp -zeta only)
    | (intro _ _; try dsimp -zeta only)
    | (intro _; try dsimp -zeta only)
    | with_reducible apply State.setGuest_only
    | with_reducible exact hF.of (by decide)
    | with_reducible apply Only.each
    | with_reducible apply Only.ite
    | split

theorem foldLinks_only {F : Nat} {s₀ : State} {old : List Section} {ss : List Section} {first : Bool} {s : State}
    (hs : Only F s₀ s) (hF : Within 1114678242376 F) :
    Only F s₀ (foldLinks old ss first s) := by
  unfold foldLinks
  repeat' first
    | with_reducible assumption
    | (intro _ _ _ _; try dsimp -zeta only)
    | (intro _ _ _; try dsimp -zeta only)
    | (intro _ _; try dsimp -zeta only)
    | (intro _; try dsimp -zeta only)
    | (extract_lets +onlyGivenNames y; refine cut (p := Only F s₀ y) ?_ (fun _ => ?_); rotate_left; clear_value y; rotate_right; subst y)
    | (extract_lets +onlyGivenNames y; try clear_value y)
    | with_reducible apply foldHosts_only
    | with_reducible apply foldRoles_only
    | with_reducible apply openGuests_only
    | with_reducible apply planCopper_only
    | with_reducible apply startNew_only
    | with_reducible exact hF.of (by decide)
    | with_reducible apply Only.each
    | with_reducible apply Only.ite
    | split

theorem foldKey_only {F : Nat} {s₀ : State} {s : State}
    (hs : Only F s₀ s) (hF : Within 1099511627776 F) :
    Only F s₀ (foldKey s) := by
  unfold foldKey
  repeat' first
    | with_reducible assumption
    | exact FusesKept.same rfl rfl rfl rfl rfl rfl
    | (extract_lets +onlyGivenNames y; have t : Security := y; clear t; subst y)
    | (extract_lets +onlyGivenNames y; refine cut (p := Only F s₀ y) ?_ (fun _ => ?_); rotate_left; clear_value y; rotate_right; subst y)
    | (extract_lets +onlyGivenNames y; try clear_value y)
    | with_reducible exact hF.of (by decide)
    | with_reducible apply Only.sec

theorem foldServo_only {F : Nat} {s₀ : State} {first : Bool} {s : State}
    (hs : Only F s₀ s) (hF : Within 1077936224 F) :
    Only F s₀ (foldServo first s) := by
  unfold foldServo
  repeat' first
    | with_reducible assumption
    | (extract_lets +onlyGivenNames y; refine cut (p := Only F s₀ y) ?_ (fun _ => ?_); rotate_left; clear_value y; rotate_right; subst y)
    | (extract_lets +onlyGivenNames y; try clear_value y)
    | with_reducible apply sendHeldFences_only
    | with_reducible exact hF.of (by decide)
    | with_reducible apply Only.ite
    | split
    | with_reducible apply Only.rc

theorem firstFold_only {F : Nat} {s₀ : State} {s : State}
    (hs : Only F s₀ s) (hF : Within 2199023255552 F) :
    Only F s₀ (firstFold s) := by
  unfold firstFold
  repeat' first
    | with_reducible assumption
    | (extract_lets +onlyGivenNames y; refine cut (p := Only F s₀ y) ?_ (fun _ => ?_); rotate_left; clear_value y; rotate_right; subst y)
    | (extract_lets +onlyGivenNames y; try clear_value y)
    | with_reducible exact hF.of (by decide)
    | with_reducible apply Only.power

theorem recordFold_only {F : Nat} {s₀ : State} {s : State} {f : FoldPlan}
    (hs : Only F s₀ s) (hF : Within 5128 F) :
    Only F s₀ (recordFold s f) := by
  unfold recordFold
  repeat' first
    | with_reducible assumption
    | (extract_lets +onlyGivenNames y; refine cut (p := Only F s₀ y) ?_ (fun _ => ?_); rotate_left; clear_value y; rotate_right; subst y)
    | (extract_lets +onlyGivenNames y; try clear_value y)
    | with_reducible apply post_only
    | with_reducible apply bootEvent_only
    | with_reducible exact hF.of (by decide)
    | with_reducible apply Only.ite
    | split
    | with_reducible apply Only.itin

theorem performHeld_only {F : Nat} {s₀ : State} {s : State}
    (hs : Only F s₀ s) (hF : Within 4312147156716 F) :
    Only F s₀ (performHeld s) := by
  unfold performHeld
  repeat' first
    | with_reducible assumption
    | (intro _ _ _ _; try dsimp -zeta only)
    | (intro _ _ _; try dsimp -zeta only)
    | (intro _ _; try dsimp -zeta only)
    | (intro _; try dsimp -zeta only)
    | (extract_lets +onlyGivenNames y; refine cut (p := Only F s₀ y) ?_ (fun _ => ?_); rotate_left; clear_value y; rotate_right; subst y)
    | (extract_lets +onlyGivenNames y; try clear_value y)
    | with_reducible apply regWrite_only
    | with_reducible exact hF.of (by decide)
    | with_reducible apply Only.foldl
    | with_reducible apply OnlyP.foldl
    | with_reducible apply OnlyF.foldl
    | with_reducible apply OnlyP.mk'
    | with_reducible apply OnlyF.mk'
    | with_reducible refine OnlyP.of_eq (by assumption) ?_
    | with_reducible apply OnlyP.snd
    | with_reducible exact OnlyP.elim (by assumption)
    | with_reducible refine OnlyF.of_eq (by assumption) ?_
    | with_reducible apply OnlyF.fst
    | with_reducible exact OnlyF.elim (by assumption)
    | with_reducible apply Only.itin

theorem applyFold_only {F : Nat} {s₀ : State} {s : State} {f : FoldPlan}
    (hs : Only F s₀ s) (hF : Within 4312147164908 F) :
    Only F s₀ (applyFold s f) := by
  unfold applyFold
  repeat' first
    | with_reducible assumption
    | (intro _ _ _ _; try dsimp -zeta only)
    | (intro _ _ _; try dsimp -zeta only)
    | (intro _ _; try dsimp -zeta only)
    | (intro _; try dsimp -zeta only)
    | (extract_lets +onlyGivenNames y; refine cut (p := Only F s₀ y) ?_ (fun _ => ?_); rotate_left; clear_value y; rotate_right; subst y)
    | (extract_lets +onlyGivenNames y; try clear_value y)
    | with_reducible apply foldTeams_only
    | with_reducible apply foldDevice_only
    | with_reducible apply foldTile_only
    | with_reducible apply foldParties_only
    | with_reducible apply recordFold_only
    | with_reducible apply foldKey_only
    | with_reducible apply firstFold_only
    | with_reducible apply stopOld_only
    | with_reducible apply foldServo_only
    | with_reducible apply foldLinks_only
    | with_reducible apply performHeld_only
    | with_reducible apply remeasure_only
    | with_reducible exact hF.of (by decide)
    | with_reducible apply Only.each
    | with_reducible apply Only.ite
    | split

theorem execFoldInstant_only {F : Nat} {s₀ : State} {s : State}
    (hs : Only F s₀ s) (hF : Within 4312147164910 F) :
    OnlyN F s₀ (execFoldInstant s) := by
  unfold execFoldInstant
  repeat' first
    | with_reducible assumption
    | with_reducible apply applyFold_only
    | with_reducible apply passToTime_only
    | with_reducible exact hF.of (by decide)
    | with_reducible apply Only.ite
    | with_reducible apply OnlyN.ite
    | split
    | with_reducible apply OnlyN.next

end Sys2Proof.Machine
end

