-- ==== Sys2Proof/Laws/OnlyJtag.lean ====
section
/-! SUPPORT. What each operation of Sys2Proof/Machine/Jtag.lean may change. -/

namespace Sys2Proof.Machine

open Sys2Proof

theorem State.setTap_only {F : Nat} {s₀ : State} {s : State} {d : JtagDie} {x : Tap}
    (hs : Only F s₀ s) (hF : Within 4398046511104 F) :
    Only F s₀ (State.setTap s d x) := by
  unfold State.setTap
  repeat' first
    | with_reducible assumption
    | (extract_lets +onlyGivenNames y; refine cut (p := Only F s₀ y) ?_ (fun _ => ?_); rotate_left; clear_value y; rotate_right; subst y)
    | (extract_lets +onlyGivenNames y; try clear_value y)
    | with_reducible exact hF.of (by decide)
    | with_reducible apply Only.taps

theorem selectReg_only {F : Nat} {s₀ : State} {s : State} {d : JtagDie} {i : TapInstruction} {width : Nat} {value : Nat}
    (hs : Only F s₀ s) (hF : Within 4398046511136 F) :
    Only F s₀ (selectReg s d i width value) := by
  unfold selectReg
  repeat' first
    | with_reducible assumption
    | (extract_lets +onlyGivenNames y; refine cut (p := Only F s₀ y) ?_ (fun _ => ?_); rotate_left; clear_value y; rotate_right; subst y)
    | (extract_lets +onlyGivenNames y; try clear_value y)
    | with_reducible apply State.emit_only
    | with_reducible apply State.setTap_only
    | with_reducible exact hF.of (by decide)

theorem execIdcode_only {F : Nat} {s₀ : State} {die : JtagDie} {s : State}
    (hs : Only F s₀ s) (hF : Within 4398046511136 F) :
    OnlyN F s₀ (execIdcode die s) := by
  unfold execIdcode
  repeat' first
    | with_reducible assumption
    | with_reducible apply selectReg_only
    | with_reducible exact hF.of (by decide)
    | with_reducible apply Only.ite
    | with_reducible apply OnlyN.ite
    | split
    | with_reducible apply OnlyN.next

theorem execStrapRead_only {F : Nat} {s₀ : State} {die : JtagDie} {s : State}
    (hs : Only F s₀ s) (hF : Within 4398046511136 F) :
    OnlyN F s₀ (execStrapRead die s) := by
  unfold execStrapRead
  repeat' first
    | with_reducible assumption
    | with_reducible apply selectReg_only
    | with_reducible exact hF.of (by decide)
    | with_reducible apply Only.ite
    | with_reducible apply OnlyN.ite
    | split
    | with_reducible apply OnlyN.next

theorem execBypass_only {F : Nat} {s₀ : State} {die : JtagDie} {s : State}
    (hs : Only F s₀ s) (hF : Within 4398046511136 F) :
    OnlyN F s₀ (execBypass die s) := by
  unfold execBypass
  repeat' first
    | with_reducible assumption
    | with_reducible apply selectReg_only
    | with_reducible exact hF.of (by decide)
    | with_reducible apply Only.ite
    | with_reducible apply OnlyN.ite
    | split
    | with_reducible apply OnlyN.next

theorem execSamplePreload_only {F : Nat} {s₀ : State} {die : JtagDie} {pins : Nat} {preload : Nat} {s : State}
    (hs : Only F s₀ s) (hF : Within 4398046511136 F) :
    OnlyN F s₀ (execSamplePreload die pins preload s) := by
  unfold execSamplePreload
  repeat' first
    | with_reducible assumption
    | (extract_lets +onlyGivenNames y; refine cut (p := Only F s₀ y) ?_ (fun _ => ?_); rotate_left; clear_value y; rotate_right; subst y)
    | (extract_lets +onlyGivenNames y; try clear_value y)
    | with_reducible apply State.setTap_only
    | with_reducible apply selectReg_only
    | with_reducible exact hF.of (by decide)
    | with_reducible apply Only.ite
    | with_reducible apply OnlyN.ite
    | split
    | with_reducible apply OnlyN.next

theorem execExtest_only {F : Nat} {s₀ : State} {die : JtagDie} {pins : Nat} {s : State}
    (hs : Only F s₀ s) (hF : Within 4398046511136 F) :
    OnlyN F s₀ (execExtest die pins s) := by
  unfold execExtest
  repeat' first
    | with_reducible assumption
    | with_reducible apply selectReg_only
    | with_reducible exact hF.of (by decide)
    | with_reducible apply Only.ite
    | with_reducible apply OnlyN.ite
    | split
    | with_reducible apply OnlyN.next

end Sys2Proof.Machine
end

