-- ==== Sys2Proof/Laws/OnlyMgmt.lean ====
section
/-! SUPPORT. What each operation of Sys2Proof/Machine/Mgmt.lean may change. -/

namespace Sys2Proof.Machine

open Sys2Proof

theorem asCode_only {F : Nat} {s₀ : State} {s : State}
    (hs : Only F s₀ s) (hF : Within 16 F) :
    Only F s₀ (asCode s) := by
  unfold asCode
  repeat' first
    | with_reducible assumption
    | (extract_lets +onlyGivenNames y; refine cut (p := Only F s₀ y) ?_ (fun _ => ?_); rotate_left; clear_value y; rotate_right; subst y)
    | (extract_lets +onlyGivenNames y; try clear_value y)
    | with_reducible exact hF.of (by decide)
    | split
    | with_reducible apply Only.reply

theorem msgRead_only {F : Nat} {s₀ : State} {s : State} {m : Fin 4} {offset : Nat}
    (hs : Only F s₀ s) (hF : Within 3384 F) :
    Only F s₀ (msgRead s m offset) := by
  unfold msgRead
  repeat' first
    | with_reducible assumption
    | (extract_lets +onlyGivenNames y; refine cut (p := Only F s₀ y) ?_ (fun _ => ?_); rotate_left; clear_value y; rotate_right; subst y)
    | (extract_lets +onlyGivenNames y; refine cut (p := OnlyP F s₀ y) ?_ (fun _ => ?_); rotate_left; clear_value y; rotate_right; subst y)
    | (extract_lets +onlyGivenNames y; try clear_value y)
    | with_reducible apply answer_only
    | with_reducible apply readWord_only
    | with_reducible exact hF.of (by decide)
    | with_reducible apply Only.ite
    | with_reducible apply OnlyP.ite
    | split
    | with_reducible apply OnlyP.mk'
    | with_reducible refine OnlyP.of_eq (by assumption) ?_
    | with_reducible apply OnlyP.snd
    | with_reducible exact OnlyP.elim (by assumption)

theorem msgWrite_only {F : Nat} {s₀ : State} {s : State} {m : Fin 4} {offset : Nat} {data : Word}
    (hs : Only F s₀ s) (hF : Within 4312147164924 F) :
    Only F s₀ (msgWrite s m offset data) := by
  unfold msgWrite
  repeat' first
    | with_reducible assumption
    | with_reducible apply answer_only
    | with_reducible apply asCode_only
    | with_reducible apply busWrite_only
    | with_reducible exact hF.of (by decide)
    | with_reducible apply Only.ite
    | split

theorem readRun_only {F : Nat} {s₀ : State} {m : Fin 4} {n : Nat} {off : Nat} {s : State}
    (hs : Only F s₀ s) (hF : Within 3368 F) :
    OnlyP F s₀ (readRun m n off s) := by
  induction n generalizing s off with
  | zero => exact OnlyP.mk' hs
  | succ n ih =>
    unfold readRun
    exact OnlyP.mk' (ih (readWord_only hs (hF.of (by decide))).snd).snd

theorem msgBlock_only {F : Nat} {s₀ : State} {s : State} {m : Fin 4} {offset : Nat} {count : Nat}
    (hs : Only F s₀ s) (hF : Within 3384 F) :
    Only F s₀ (msgBlock s m offset count) := by
  unfold msgBlock
  repeat' first
    | with_reducible assumption
    | (extract_lets +onlyGivenNames y; refine cut (p := Only F s₀ y) ?_ (fun _ => ?_); rotate_left; clear_value y; rotate_right; subst y)
    | (extract_lets +onlyGivenNames y; refine cut (p := OnlyP F s₀ y) ?_ (fun _ => ?_); rotate_left; clear_value y; rotate_right; subst y)
    | (extract_lets +onlyGivenNames y; try clear_value y)
    | with_reducible apply answer_only
    | with_reducible apply readRun_only
    | with_reducible exact hF.of (by decide)
    | with_reducible apply Only.ite
    | with_reducible apply OnlyP.ite
    | split
    | with_reducible apply OnlyP.mk'
    | with_reducible refine OnlyP.of_eq (by assumption) ?_
    | with_reducible apply OnlyP.snd
    | with_reducible exact OnlyP.elim (by assumption)

theorem execRead32_only {F : Nat} {s₀ : State} {m : Fin 4} {offset : Nat} {s : State}
    (hs : Only F s₀ s) (hF : Within 3384 F) :
    OnlyN F s₀ (execRead32 m offset s) := by
  unfold execRead32
  repeat' first
    | with_reducible assumption
    | with_reducible apply msgRead_only
    | with_reducible exact hF.of (by decide)
    | with_reducible apply Only.ite
    | with_reducible apply OnlyN.ite
    | split
    | with_reducible apply OnlyN.next

theorem execWrite32_only {F : Nat} {s₀ : State} {m : Fin 4} {offset : Nat} {data : Word} {s : State}
    (hs : Only F s₀ s) (hF : Within 4312147164924 F) :
    OnlyN F s₀ (execWrite32 m offset data s) := by
  unfold execWrite32
  repeat' first
    | with_reducible assumption
    | with_reducible apply msgWrite_only
    | with_reducible exact hF.of (by decide)
    | with_reducible apply Only.ite
    | with_reducible apply OnlyN.ite
    | split
    | with_reducible apply OnlyN.next

theorem execReadBlock_only {F : Nat} {s₀ : State} {m : Fin 4} {offset : Nat} {count : Nat} {s : State}
    (hs : Only F s₀ s) (hF : Within 3384 F) :
    OnlyN F s₀ (execReadBlock m offset count s) := by
  unfold execReadBlock
  repeat' first
    | with_reducible assumption
    | with_reducible apply msgBlock_only
    | with_reducible exact hF.of (by decide)
    | with_reducible apply Only.ite
    | with_reducible apply OnlyN.ite
    | split
    | with_reducible apply OnlyN.next

theorem execRegAccessReserved_only {F : Nat} {s₀ : State} {m : Fin 4} {command : Nat} {s : State}
    (hs : Only F s₀ s) (hF : Within 16 F) :
    OnlyN F s₀ (execRegAccessReserved m command s) := by
  unfold execRegAccessReserved
  repeat' first
    | with_reducible assumption
    | with_reducible apply answer_only
    | with_reducible exact hF.of (by decide)
    | with_reducible apply Only.ite
    | with_reducible apply OnlyN.ite
    | split
    | with_reducible apply OnlyN.next

theorem mctpServe_only {F : Nat} {s₀ : State} {s : State} {m : Fin 4} {a2 : MctpBody}
    (hs : Only F s₀ s) (hF : Within 4329327034364 F) :
    OnlyO F s₀ (mctpServe s m a2) := by
  unfold mctpServe
  repeat' first
    | with_reducible assumption
    | (extract_lets +onlyGivenNames y; refine cut (p := Only F s₀ y) ?_ (fun _ => ?_); rotate_left; clear_value y; rotate_right; subst y)
    | (extract_lets +onlyGivenNames y; refine cut (p := OnlyO F s₀ y) ?_ (fun _ => ?_); rotate_left; clear_value y; rotate_right; subst y)
    | (extract_lets +onlyGivenNames y; try clear_value y)
    | with_reducible apply answer_only
    | with_reducible apply msgRead_only
    | with_reducible apply msgWrite_only
    | with_reducible apply msgBlock_only
    | with_reducible apply spdmServe_only
    | with_reducible exact hF.of (by decide)
    | with_reducible apply Only.ite
    | with_reducible apply OnlyO.ite
    | split
    | with_reducible apply OnlyO.some
    | with_reducible apply OnlyO.none
    | with_reducible refine OnlyO.of_eq (by assumption) ?_
    | with_reducible apply OnlyO.getD
    | with_reducible apply Only.mgmt

theorem mctpReply_only {F : Nat} {s₀ : State} {s : State} {x : Mctp}
    (hs : Only F s₀ s) (hF : Within 32 F) :
    Only F s₀ (mctpReply s x) := by
  unfold mctpReply
  repeat' first
    | with_reducible assumption
    | (extract_lets +onlyGivenNames y; refine cut (p := Only F s₀ y) ?_ (fun _ => ?_); rotate_left; clear_value y; rotate_right; subst y)
    | (extract_lets +onlyGivenNames y; try clear_value y)
    | with_reducible apply State.emit_only
    | with_reducible exact hF.of (by decide)
    | split

theorem execMctpMessage_only {F : Nat} {s₀ : State} {msg : Mctp} {s : State}
    (hs : Only F s₀ s) (hF : Within 4329327034364 F) :
    OnlyN F s₀ (execMctpMessage msg s) := by
  unfold execMctpMessage
  repeat' first
    | with_reducible assumption
    | (extract_lets +onlyGivenNames y; refine cut (p := Only F s₀ y) ?_ (fun _ => ?_); rotate_left; clear_value y; rotate_right; subst y)
    | (extract_lets +onlyGivenNames y; refine cut (p := OnlyO F s₀ y) ?_ (fun _ => ?_); rotate_left; clear_value y; rotate_right; subst y)
    | (extract_lets +onlyGivenNames y; try clear_value y)
    | with_reducible apply mctpServe_only
    | with_reducible apply mctpReply_only
    | with_reducible exact hF.of (by decide)
    | with_reducible apply Only.ite
    | with_reducible apply OnlyO.ite
    | with_reducible apply OnlyN.ite
    | split
    | with_reducible apply OnlyN.next
    | with_reducible apply OnlyO.some
    | with_reducible apply OnlyO.none
    | with_reducible refine OnlyO.of_eq (by assumption) ?_
    | with_reducible apply OnlyO.getD

theorem execI3cCcc_only {F : Nat} {s₀ : State} {ccc : Ccc} {s : State}
    (hs : Only F s₀ s) (hF : Within 17179869200 F) :
    OnlyN F s₀ (execI3cCcc ccc s) := by
  unfold execI3cCcc
  repeat' first
    | with_reducible assumption
    | (extract_lets +onlyGivenNames y; refine cut (p := Only F s₀ y) ?_ (fun _ => ?_); rotate_left; clear_value y; rotate_right; subst y)
    | (extract_lets +onlyGivenNames y; try clear_value y)
    | with_reducible apply answer_only
    | with_reducible exact hF.of (by decide)
    | with_reducible apply Only.ite
    | with_reducible apply OnlyN.ite
    | split
    | with_reducible apply OnlyN.next
    | with_reducible apply Only.mgmt

end Sys2Proof.Machine
end

