-- ==== Sys2Proof/Laws/OnlyRollCall.lean ====
section
/-! SUPPORT. What each operation of Machine/RollCall.lean may change. -/

namespace Sys2Proof.Machine

open Sys2Proof

theorem partialOp_only {F : Nat} {s₀ : State} {s : State} {m : RcMessage}
    (hs : Only F s₀ s) (hF : Within 1073741824 F) :
    OnlyOP F s₀ (partialOp s m) := by
  unfold partialOp
  repeat' first
    | with_reducible assumption
    | (intro _ _ _ _; try dsimp -zeta only)
    | (intro _ _ _; try dsimp -zeta only)
    | (intro _ _; try dsimp -zeta only)
    | (intro _; try dsimp -zeta only)
    | (extract_lets +onlyGivenNames y; refine cut (p := Only F s₀ y) ?_ (fun _ => ?_); rotate_left; clear_value y; rotate_right; subst y)
    | (extract_lets +onlyGivenNames y; refine cut (p := OnlyP F s₀ y) ?_ (fun _ => ?_); rotate_left; clear_value y; rotate_right; subst y)
    | (extract_lets +onlyGivenNames y; try clear_value y)
    | with_reducible apply addOp_only
    | with_reducible exact hF.of (by decide)
    | with_reducible apply Only.ite
    | with_reducible apply OnlyP.ite
    | split
    | with_reducible apply OnlyP.mk'
    | with_reducible apply OnlyOP.some
    | with_reducible apply OnlyOP.none
    | with_reducible refine OnlyOP.of_eq (by assumption) ?_
    | with_reducible refine OnlyP.of_eq (by assumption) ?_
    | with_reducible apply OnlyP.snd
    | with_reducible exact OnlyP.elim (by assumption)

theorem takePartial_only {F : Nat} {s₀ : State} {s : State} {m : RcMessage}
    (hs : Only F s₀ s) (hF : Within 1077936224 F) :
    Only F s₀ (takePartial s m) := by
  unfold takePartial
  repeat' first
    | with_reducible assumption
    | (intro _ _ _ _; try dsimp -zeta only)
    | (intro _ _ _; try dsimp -zeta only)
    | (intro _ _; try dsimp -zeta only)
    | (intro _; try dsimp -zeta only)
    | (extract_lets +onlyGivenNames y; refine cut (p := Only F s₀ y) ?_ (fun _ => ?_); rotate_left; clear_value y; rotate_right; subst y)
    | (extract_lets +onlyGivenNames y; refine cut (p := OnlyP F s₀ y) ?_ (fun _ => ?_); rotate_left; clear_value y; rotate_right; subst y)
    | (extract_lets +onlyGivenNames y; try clear_value y)
    | with_reducible apply partialOp_only
    | with_reducible apply modOp_only
    | with_reducible exact hF.of (by decide)
    | with_reducible apply Only.ite
    | with_reducible apply OnlyP.ite
    | split
    | with_reducible apply OnlyP.mk'
    | with_reducible apply OnlyOP.some
    | with_reducible apply OnlyOP.none
    | with_reducible refine OnlyOP.of_eq (by assumption) ?_
    | with_reducible refine OnlyP.of_eq (by assumption) ?_
    | with_reducible apply OnlyP.snd
    | with_reducible exact OnlyP.elim (by assumption)

theorem takeAbort_only {F : Nat} {s₀ : State} {s : State} {m : RcMessage}
    (hs : Only F s₀ s) (hF : Within 36370678888 F) :
    Only F s₀ (takeAbort s m) := by
  unfold takeAbort
  repeat' first
    | with_reducible assumption
    | (intro _ _ _ _; try dsimp -zeta only)
    | (intro _ _ _; try dsimp -zeta only)
    | (intro _ _; try dsimp -zeta only)
    | (intro _; try dsimp -zeta only)
    | with_reducible apply abortCommand_only
    | with_reducible exact hF.of (by decide)
    | with_reducible apply Only.each
    | split

theorem takeAck_only {F : Nat} {s₀ : State} {s : State} {src : Nat} {m : RcMessage}
    (hs : Only F s₀ s) (hF : Within 1073741824 F) :
    Only F s₀ (takeAck s src m) := by
  unfold takeAck
  repeat' first
    | with_reducible assumption
    | (intro _ _ _ _; try dsimp -zeta only)
    | (intro _ _ _; try dsimp -zeta only)
    | (intro _ _; try dsimp -zeta only)
    | (intro _; try dsimp -zeta only)
    | (extract_lets +onlyGivenNames y; refine cut (p := Only F s₀ y) ?_ (fun _ => ?_); rotate_left; clear_value y; rotate_right; subst y)
    | (extract_lets +onlyGivenNames y; try clear_value y)
    | with_reducible exact hF.of (by decide)
    | split
    | with_reducible apply Only.rc

theorem actRoll_only {F : Nat} {s₀ : State} {s : State} {via : LinkPort} {src : Nat} {m : RcMessage}
    (hs : Only F s₀ s) (hF : Within 36370678892 F) :
    Only F s₀ (actRoll s via src m) := by
  unfold actRoll
  repeat' first
    | with_reducible assumption
    | (intro _ _ _ _; try dsimp -zeta only)
    | (intro _ _ _; try dsimp -zeta only)
    | (intro _ _; try dsimp -zeta only)
    | (intro _; try dsimp -zeta only)
    | with_reducible apply takePartial_only
    | with_reducible apply takeAbort_only
    | with_reducible apply takeAck_only
    | with_reducible apply answerTime_only
    | with_reducible apply takeTime_only
    | with_reducible exact hF.of (by decide)
    | split

theorem receiveMessage_only {F : Nat} {s₀ : State} {s : State} {via : LinkPort} {src : Nat} {m : RcMessage}
    (hs : Only F s₀ s) (hF : Within 36370678892 F) :
    Only F s₀ (receiveMessage s via src m) := by
  unfold receiveMessage
  repeat' first
    | with_reducible assumption
    | (intro _ _ _ _; try dsimp -zeta only)
    | (intro _ _ _; try dsimp -zeta only)
    | (intro _ _; try dsimp -zeta only)
    | (intro _; try dsimp -zeta only)
    | with_reducible apply State.count32_only
    | with_reducible apply actRoll_only
    | with_reducible apply acceptRoll_only
    | with_reducible exact hF.of (by decide)
    | with_reducible apply Only.ite
    | split

theorem execRollcallMessage_only {F : Nat} {s₀ : State} {way : RcArrival} {msg : RcMessage} {s : State}
    (hs : Only F s₀ s) (hF : Within 36370678892 F) :
    OnlyN F s₀ (execRollcallMessage way msg s) := by
  unfold execRollcallMessage
  repeat' first
    | with_reducible assumption
    | (intro _ _ _ _; try dsimp -zeta only)
    | (intro _ _ _; try dsimp -zeta only)
    | (intro _ _; try dsimp -zeta only)
    | (intro _; try dsimp -zeta only)
    | with_reducible apply receiveMessage_only
    | with_reducible apply hopRoll_only
    | with_reducible exact hF.of (by decide)
    | with_reducible apply Only.ite
    | with_reducible apply OnlyN.ite
    | split
    | with_reducible apply OnlyN.next

theorem execRollcallAbort_only {F : Nat} {s₀ : State} {via : Option (LinkPort × Nat)} {msg : RcMessage} {s : State}
    (hs : Only F s₀ s) (hF : Within 36370678888 F) :
    OnlyN F s₀ (execRollcallAbort via msg s) := by
  unfold execRollcallAbort
  repeat' first
    | with_reducible assumption
    | (intro _ _ _ _; try dsimp -zeta only)
    | (intro _ _ _; try dsimp -zeta only)
    | (intro _ _; try dsimp -zeta only)
    | (intro _; try dsimp -zeta only)
    | with_reducible apply State.count32_only
    | with_reducible apply takeAbort_only
    | with_reducible apply acceptRoll_only
    | with_reducible exact hF.of (by decide)
    | with_reducible apply Only.ite
    | with_reducible apply OnlyN.ite
    | split
    | with_reducible apply OnlyN.next

theorem unreachable_only {F : Nat} {s₀ : State} {s : State} {u : RcUnacked}
    (hs : Only F s₀ s) (hF : Within 1077937256 F) :
    Only F s₀ (unreachable s u) := by
  unfold unreachable
  repeat' first
    | with_reducible assumption
    | (intro _ _ _ _; try dsimp -zeta only)
    | (intro _ _ _; try dsimp -zeta only)
    | (intro _ _; try dsimp -zeta only)
    | (intro _; try dsimp -zeta only)
    | (extract_lets +onlyGivenNames y; refine cut (p := Only F s₀ y) ?_ (fun _ => ?_); rotate_left; clear_value y; rotate_right; subst y)
    | (extract_lets +onlyGivenNames y; try clear_value y)
    | with_reducible apply post_only
    | with_reducible apply modOp_only
    | with_reducible exact hF.of (by decide)
    | with_reducible apply Only.ite
    | split

theorem restamp_only {F : Nat} {s₀ : State} {s : State} {m : RcMessage}
    (hs : Only F s₀ s) (hF : Within 1073741824 F) :
    OnlyP F s₀ (restamp s m) := by
  unfold restamp
  repeat' first
    | with_reducible assumption
    | (intro _ _ _ _; try dsimp -zeta only)
    | (intro _ _ _; try dsimp -zeta only)
    | (intro _ _; try dsimp -zeta only)
    | (intro _; try dsimp -zeta only)
    | (extract_lets +onlyGivenNames y; refine cut (p := Only F s₀ y) ?_ (fun _ => ?_); rotate_left; clear_value y; rotate_right; subst y)
    | (extract_lets +onlyGivenNames y; refine cut (p := OnlyP F s₀ y) ?_ (fun _ => ?_); rotate_left; clear_value y; rotate_right; subst y)
    | (extract_lets +onlyGivenNames y; try clear_value y)
    | with_reducible exact hF.of (by decide)
    | with_reducible apply Only.ite
    | with_reducible apply OnlyP.ite
    | split
    | with_reducible apply OnlyP.mk'
    | with_reducible refine OnlyP.of_eq (by assumption) ?_
    | with_reducible apply OnlyP.snd
    | with_reducible exact OnlyP.elim (by assumption)
    | with_reducible apply Only.rc

theorem execRollcallRepeat_only {F : Nat} {s₀ : State} {s : State}
    (hs : Only F s₀ s) (hF : Within 1077937262 F) :
    OnlyN F s₀ (execRollcallRepeat s) := by
  unfold execRollcallRepeat
  repeat' first
    | with_reducible assumption
    | (intro _ _ _ _; try dsimp -zeta only)
    | (intro _ _ _; try dsimp -zeta only)
    | (intro _ _; try dsimp -zeta only)
    | (intro _; try dsimp -zeta only)
    | (extract_lets +onlyGivenNames y; refine cut (p := Only F s₀ y) ?_ (fun _ => ?_); rotate_left; clear_value y; rotate_right; subst y)
    | (extract_lets +onlyGivenNames y; refine cut (p := OnlyP F s₀ y) ?_ (fun _ => ?_); rotate_left; clear_value y; rotate_right; subst y)
    | (extract_lets +onlyGivenNames y; try clear_value y)
    | with_reducible apply State.passTo_only
    | with_reducible apply State.count32_only
    | with_reducible apply unreachable_only
    | with_reducible apply restamp_only
    | with_reducible apply hopRoll_only
    | with_reducible exact hF.of (by decide)
    | with_reducible apply Only.foldl
    | with_reducible apply OnlyP.foldl
    | with_reducible apply Only.ite
    | with_reducible apply OnlyP.ite
    | with_reducible apply OnlyN.ite
    | split
    | with_reducible apply OnlyN.next
    | with_reducible apply OnlyP.mk'
    | with_reducible refine OnlyP.of_eq (by assumption) ?_
    | with_reducible apply OnlyP.snd
    | with_reducible exact OnlyP.elim (by assumption)
    | with_reducible apply Only.rc

end Sys2Proof.Machine
end

