-- ==== Sys2Proof/Laws/OnlyStartup.lean ====
section
/-! SUPPORT. What each operation of Sys2Proof/Machine/Startup.lean may change. -/

namespace Sys2Proof.Machine

open Sys2Proof

theorem execPowerGood_only {F : Nat} {s₀ : State} {aa : Fin 4} {s : State}
    (hs : Only F s₀ s) (hF : Within 3315848970280 F) :
    OnlyN F s₀ (execPowerGood aa s) := by
  unfold execPowerGood
  repeat' first
    | with_reducible assumption
    | exact FusesKept.same rfl rfl rfl rfl rfl rfl
    | (extract_lets +onlyGivenNames y; have t : Security := y; clear t; subst y)
    | (extract_lets +onlyGivenNames y; refine cut (p := Only F s₀ y) ?_ (fun _ => ?_); rotate_left; clear_value y; rotate_right; subst y)
    | (extract_lets +onlyGivenNames y; try clear_value y)
    | with_reducible apply railGood_only
    | with_reducible apply railOn_only
    | with_reducible apply State.emit_only
    | with_reducible apply State.used_only
    | with_reducible exact hF.of (by decide)
    | with_reducible apply Only.ite
    | with_reducible apply OnlyN.ite
    | split
    | with_reducible apply OnlyN.next
    | with_reducible apply Only.mgmt_sec_power

theorem useMap_only {F : Nat} {s₀ : State} {s : State} {second : Bool} {repaired : Bool} {v0 : Bool} {v1 : Bool}
    (hs : Only F s₀ s) (hF : Within 134217792 F) :
    Only F s₀ (useMap s second repaired v0 v1) := by
  unfold useMap
  repeat' first
    | with_reducible assumption
    | (intro _ _ _ _; try dsimp -zeta only)
    | (intro _ _ _; try dsimp -zeta only)
    | (intro _ _; try dsimp -zeta only)
    | (intro _; try dsimp -zeta only)
    | (extract_lets +onlyGivenNames y; refine cut (p := Only F s₀ y) ?_ (fun _ => ?_); rotate_left; clear_value y; rotate_right; subst y)
    | (extract_lets +onlyGivenNames y; try clear_value y)
    | with_reducible apply State.setReg_only
    | with_reducible apply State.setGuest_only
    | with_reducible exact hF.of (by decide)
    | with_reducible apply Only.each
    | with_reducible apply Only.ite
    | split
    | with_reducible apply Only.panel

theorem execRowMapRead_only {F : Nat} {s₀ : State} {s : State}
    (hs : Only F s₀ s) (hF : Within 549890032744 F) :
    OnlyN F s₀ (execRowMapRead s) := by
  unfold execRowMapRead
  repeat' first
    | with_reducible assumption
    | (intro _ _ _ _; try dsimp -zeta only)
    | (intro _ _ _; try dsimp -zeta only)
    | (intro _ _; try dsimp -zeta only)
    | (intro _; try dsimp -zeta only)
    | (extract_lets +onlyGivenNames y; refine cut (p := Only F s₀ y) ?_ (fun _ => ?_); rotate_left; clear_value y; rotate_right; subst y)
    | (extract_lets +onlyGivenNames y; try clear_value y)
    | with_reducible apply post_only
    | with_reducible apply State.setReg_only
    | with_reducible apply enterSafe_only
    | with_reducible apply useMap_only
    | with_reducible exact hF.of (by decide)
    | with_reducible apply Only.ite
    | with_reducible apply OnlyN.ite
    | split
    | with_reducible apply OnlyN.next
    | with_reducible apply Only.panel

theorem execDomainSwitchOn_only {F : Nat} {s₀ : State} {s : State}
    (hs : Only F s₀ s) (hF : Within 2200096997382 F) :
    OnlyN F s₀ (execDomainSwitchOn s) := by
  unfold execDomainSwitchOn
  repeat' first
    | with_reducible assumption
    | (extract_lets +onlyGivenNames y; refine cut (p := Only F s₀ y) ?_ (fun _ => ?_); rotate_left; clear_value y; rotate_right; subst y)
    | (extract_lets +onlyGivenNames y; try clear_value y)
    | with_reducible apply State.passTo_only
    | with_reducible apply railOn_only
    | with_reducible exact hF.of (by decide)
    | with_reducible apply Only.ite
    | with_reducible apply OnlyN.ite
    | split
    | with_reducible apply OnlyN.next
    | with_reducible apply Only.power

theorem execDomainSwitchOff_only {F : Nat} {s₀ : State} {s : State}
    (hs : Only F s₀ s) (hF : Within 2200236326918 F) :
    OnlyN F s₀ (execDomainSwitchOff s) := by
  unfold execDomainSwitchOff
  repeat' first
    | with_reducible assumption
    | (extract_lets +onlyGivenNames y; refine cut (p := Only F s₀ y) ?_ (fun _ => ?_); rotate_left; clear_value y; rotate_right; subst y)
    | (extract_lets +onlyGivenNames y; try clear_value y)
    | with_reducible apply State.passTo_only
    | with_reducible apply railOff_only
    | with_reducible exact hF.of (by decide)
    | with_reducible apply Only.ite
    | with_reducible apply OnlyN.ite
    | split
    | with_reducible apply OnlyN.next
    | with_reducible apply Only.power

theorem execDomainPowerGood_only {F : Nat} {s₀ : State} {d : Fin 158} {s : State}
    (hs : Only F s₀ s) (hF : Within 2199157473280 F) :
    OnlyN F s₀ (execDomainPowerGood d s) := by
  unfold execDomainPowerGood
  repeat' first
    | with_reducible assumption
    | (extract_lets +onlyGivenNames y; refine cut (p := Only F s₀ y) ?_ (fun _ => ?_); rotate_left; clear_value y; rotate_right; subst y)
    | (extract_lets +onlyGivenNames y; try clear_value y)
    | with_reducible apply railGood_only
    | with_reducible apply State.setGuest_only
    | with_reducible exact hF.of (by decide)
    | with_reducible apply Only.ite
    | with_reducible apply OnlyN.ite
    | split
    | with_reducible apply OnlyN.next

theorem execDomainPowerGoodTimeout_only {F : Nat} {s₀ : State} {d : Fin 158} {s : State}
    (hs : Only F s₀ s) (hF : Within 2749987030126 F) :
    OnlyN F s₀ (execDomainPowerGoodTimeout d s) := by
  unfold execDomainPowerGoodTimeout
  repeat' first
    | with_reducible assumption
    | (extract_lets +onlyGivenNames y; refine cut (p := Only F s₀ y) ?_ (fun _ => ?_); rotate_left; clear_value y; rotate_right; subst y)
    | (extract_lets +onlyGivenNames y; try clear_value y)
    | with_reducible apply State.passTo_only
    | with_reducible apply failAttempt_only
    | with_reducible apply enterSafe_only
    | with_reducible exact hF.of (by decide)
    | with_reducible apply Only.ite
    | with_reducible apply OnlyN.ite
    | split
    | with_reducible apply OnlyN.next
    | with_reducible apply Only.power

theorem reachStage_only {F : Nat} {s₀ : State} {s : State} {stage : Nat} {ms : Nat}
    (hs : Only F s₀ s) (hF : Within 2200096997382 F) :
    Only F s₀ (reachStage s stage ms) := by
  unfold reachStage
  repeat' first
    | with_reducible assumption
    | (extract_lets +onlyGivenNames y; refine cut (p := Only F s₀ y) ?_ (fun _ => ?_); rotate_left; clear_value y; rotate_right; subst y)
    | (extract_lets +onlyGivenNames y; try clear_value y)
    | with_reducible apply State.passTo_only
    | with_reducible exact hF.of (by decide)
    | with_reducible apply Only.power

theorem execStartupStep_only {F : Nat} {s₀ : State} {s : State}
    (hs : Only F s₀ s) (hF : Within 2767036875886 F) :
    OnlyN F s₀ (execStartupStep s) := by
  unfold execStartupStep
  repeat' first
    | with_reducible assumption
    | (intro _ _ _ _; try dsimp -zeta only)
    | (intro _ _ _; try dsimp -zeta only)
    | (intro _ _; try dsimp -zeta only)
    | (intro _; try dsimp -zeta only)
    | (extract_lets +onlyGivenNames y; refine cut (p := Only F s₀ y) ?_ (fun _ => ?_); rotate_left; clear_value y; rotate_right; subst y)
    | (extract_lets +onlyGivenNames y; try clear_value y)
    | with_reducible apply reachStage_only
    | with_reducible apply enterSafe_only
    | with_reducible apply wantOff_only
    | with_reducible apply wantOn_only
    | with_reducible apply startZero_only
    | with_reducible exact hF.of (by decide)
    | with_reducible apply Only.foldl
    | with_reducible apply OnlyP.foldl
    | with_reducible apply OnlyF.foldl
    | with_reducible apply Only.each
    | with_reducible apply Only.ite
    | with_reducible apply OnlyP.ite
    | with_reducible apply OnlyF.ite
    | with_reducible apply OnlyN.ite
    | split
    | with_reducible apply OnlyN.next
    | with_reducible apply OnlyP.mk'
    | with_reducible apply OnlyF.mk'
    | with_reducible refine OnlyP.of_eq (by assumption) ?_
    | with_reducible apply OnlyP.snd
    | with_reducible exact OnlyP.elim (by assumption)
    | with_reducible refine OnlyF.of_eq (by assumption) ?_
    | with_reducible apply OnlyF.fst
    | with_reducible exact OnlyF.elim (by assumption)
    | with_reducible apply Only.mgmt

end Sys2Proof.Machine
end

