-- ==== Sys2Proof/Laws/OnlyStrands.lean ====
section
/-! SUPPORT. What each operation of Sys2Proof/Machine/Strands.lean may change. -/

namespace Sys2Proof.Machine

open Sys2Proof

theorem linkFailFrom_only {F : Nat} {s₀ : State} {l : Strand} {run : Bool} {attached : Bool} {s : State}
    (hs : Only F s₀ s) (hF : Within 1032 F) :
    Only F s₀ (linkFailFrom l run attached s) := by
  unfold linkFailFrom
  repeat' first
    | with_reducible assumption
    | (intro _ _ _ _; try dsimp -zeta only)
    | (intro _ _ _; try dsimp -zeta only)
    | (intro _ _; try dsimp -zeta only)
    | (intro _; try dsimp -zeta only)
    | with_reducible apply post_only
    | with_reducible exact hF.of (by decide)
    | with_reducible apply Only.ite
    | split

theorem linkFailEvent_only {F : Nat} {s₀ : State} {s : State} {l : Strand} {run : Bool}
    (hs : Only F s₀ s) (hF : Within 1032 F) :
    Only F s₀ (linkFailEvent s l run) := by
  unfold linkFailEvent
  repeat' first
    | with_reducible assumption
    | (intro _ _ _ _; try dsimp -zeta only)
    | (intro _ _ _; try dsimp -zeta only)
    | (intro _ _; try dsimp -zeta only)
    | (intro _; try dsimp -zeta only)
    | with_reducible apply linkFailFrom_only
    | with_reducible exact hF.of (by decide)
    | split

theorem meshFails_only {F : Nat} {s₀ : State} {s : State} {t : Nat} {t' : Nat} {starting : Bool}
    (hs : Only F s₀ s) (hF : Within 549755815016 F) :
    Only F s₀ (meshFails s t t' starting) := by
  unfold meshFails
  repeat' first
    | with_reducible assumption
    | (intro _ _ _ _; try dsimp -zeta only)
    | (intro _ _ _; try dsimp -zeta only)
    | (intro _ _; try dsimp -zeta only)
    | (intro _; try dsimp -zeta only)
    | (extract_lets +onlyGivenNames y; refine cut (p := Only F s₀ y) ?_ (fun _ => ?_); rotate_left; clear_value y; rotate_right; subst y)
    | (extract_lets +onlyGivenNames y; try clear_value y)
    | with_reducible apply enterSafe_only
    | with_reducible exact hF.of (by decide)
    | with_reducible apply Only.ite
    | split

theorem strandFails_only {F : Nat} {s₀ : State} {s : State} {l : Strand} {fault : StrandFault}
    (hs : Only F s₀ s) (hF : Within 549890032744 F) :
    Only F s₀ (strandFails s l fault) := by
  unfold strandFails
  repeat' first
    | with_reducible assumption
    | (intro _ _ _ _; try dsimp -zeta only)
    | (intro _ _ _; try dsimp -zeta only)
    | (intro _ _; try dsimp -zeta only)
    | (intro _; try dsimp -zeta only)
    | (extract_lets +onlyGivenNames y; refine cut (p := Only F s₀ y) ?_ (fun _ => ?_); rotate_left; clear_value y; rotate_right; subst y)
    | (extract_lets +onlyGivenNames y; try clear_value y)
    | with_reducible apply State.setStrand_only
    | with_reducible apply linkFailEvent_only
    | with_reducible apply meshFails_only
    | with_reducible exact hF.of (by decide)
    | split

theorem execStrandTrainStart_only {F : Nat} {s₀ : State} {l : Strand} {s : State}
    (hs : Only F s₀ s) (hF : Within 549890032744 F) :
    OnlyN F s₀ (execStrandTrainStart l s) := by
  unfold execStrandTrainStart
  repeat' first
    | with_reducible assumption
    | (intro _ _ _ _; try dsimp -zeta only)
    | (intro _ _ _; try dsimp -zeta only)
    | (intro _ _; try dsimp -zeta only)
    | (intro _; try dsimp -zeta only)
    | (extract_lets +onlyGivenNames y; refine cut (p := Only F s₀ y) ?_ (fun _ => ?_); rotate_left; clear_value y; rotate_right; subst y)
    | (extract_lets +onlyGivenNames y; try clear_value y)
    | with_reducible apply State.setStrand_only
    | with_reducible apply strandFails_only
    | with_reducible exact hF.of (by decide)
    | with_reducible apply Only.ite
    | with_reducible apply OnlyN.ite
    | split
    | with_reducible apply OnlyN.next

theorem execStrandClockLockTimeout_only {F : Nat} {s₀ : State} {l : Strand} {locked : BitVec 32} {s : State}
    (hs : Only F s₀ s) (hF : Within 1207959558 F) :
    OnlyN F s₀ (execStrandClockLockTimeout l locked s) := by
  unfold execStrandClockLockTimeout
  repeat' first
    | with_reducible assumption
    | (intro _ _ _ _; try dsimp -zeta only)
    | (intro _ _ _; try dsimp -zeta only)
    | (intro _ _; try dsimp -zeta only)
    | (intro _; try dsimp -zeta only)
    | (extract_lets +onlyGivenNames y; refine cut (p := Only F s₀ y) ?_ (fun _ => ?_); rotate_left; clear_value y; rotate_right; subst y)
    | (extract_lets +onlyGivenNames y; try clear_value y)
    | with_reducible apply State.passTo_only
    | with_reducible apply State.setStrand_only
    | with_reducible exact hF.of (by decide)
    | with_reducible apply Only.ite
    | with_reducible apply OnlyN.ite
    | split
    | with_reducible apply OnlyN.next

theorem execStrandDeskewDone_only {F : Nat} {s₀ : State} {l : Strand} {eyes : List (Wire × Nat)} {s : State}
    (hs : Only F s₀ s) (hF : Within 134217728 F) :
    OnlyN F s₀ (execStrandDeskewDone l eyes s) := by
  unfold execStrandDeskewDone
  repeat' first
    | with_reducible assumption
    | (extract_lets +onlyGivenNames y; refine cut (p := Only F s₀ y) ?_ (fun _ => ?_); rotate_left; clear_value y; rotate_right; subst y)
    | (extract_lets +onlyGivenNames y; try clear_value y)
    | with_reducible apply State.setStrand_only
    | with_reducible exact hF.of (by decide)
    | with_reducible apply Only.ite
    | with_reducible apply OnlyP.ite
    | with_reducible apply OnlyF.ite
    | with_reducible apply OnlyN.ite
    | split
    | with_reducible apply OnlyN.next
    | with_reducible apply OnlyP.mk'
    | with_reducible apply OnlyF.mk'
    | with_reducible refine OnlyP.of_eq (by assumption) ?_
    | with_reducible apply OnlyP.snd
    | with_reducible exact OnlyP.elim (by assumption)
    | with_reducible refine OnlyF.of_eq (by assumption) ?_
    | with_reducible apply OnlyF.fst
    | with_reducible exact OnlyF.elim (by assumption)

theorem execStrandWireTestDone_only {F : Nat} {s₀ : State} {l : Strand} {errors : List Wire} {s : State}
    (hs : Only F s₀ s) (hF : Within 549890032744 F) :
    OnlyN F s₀ (execStrandWireTestDone l errors s) := by
  unfold execStrandWireTestDone
  repeat' first
    | with_reducible assumption
    | (intro _ _ _ _; try dsimp -zeta only)
    | (intro _ _ _; try dsimp -zeta only)
    | (intro _ _; try dsimp -zeta only)
    | (intro _; try dsimp -zeta only)
    | (extract_lets +onlyGivenNames y; refine cut (p := Only F s₀ y) ?_ (fun _ => ?_); rotate_left; clear_value y; rotate_right; subst y)
    | (extract_lets +onlyGivenNames y; try clear_value y)
    | with_reducible apply State.setStrand_only
    | with_reducible apply enterSafe_only
    | with_reducible apply strandFails_only
    | with_reducible exact hF.of (by decide)
    | with_reducible apply Only.ite
    | with_reducible apply OnlyN.ite
    | split
    | with_reducible apply OnlyN.next

theorem dropStrand_only {F : Nat} {s₀ : State} {s : State} {l : Strand} {t : Nat}
    (hs : Only F s₀ s) (hF : Within 402653248 F) :
    OnlyP F s₀ (dropStrand s l t) := by
  unfold dropStrand
  repeat' first
    | with_reducible assumption
    | (intro _ _ _ _; try dsimp -zeta only)
    | (intro _ _ _; try dsimp -zeta only)
    | (intro _ _; try dsimp -zeta only)
    | (intro _; try dsimp -zeta only)
    | (extract_lets +onlyGivenNames y; refine cut (p := Only F s₀ y) ?_ (fun _ => ?_); rotate_left; clear_value y; rotate_right; subst y)
    | (extract_lets +onlyGivenNames y; refine cut (p := OnlyP F s₀ y) ?_ (fun _ => ?_); rotate_left; clear_value y; rotate_right; subst y)
    | (extract_lets +onlyGivenNames y; try clear_value y)
    | with_reducible apply dropWhere_only
    | with_reducible apply dropTransit_only
    | with_reducible apply State.setStrand_only
    | with_reducible exact hF.of (by decide)
    | with_reducible apply Only.foldl
    | with_reducible apply OnlyP.foldl
    | split
    | with_reducible apply OnlyP.mk'
    | with_reducible refine OnlyP.of_eq (by assumption) ?_
    | with_reducible apply OnlyP.snd
    | with_reducible exact OnlyP.elim (by assumption)

theorem strandDown_only {F : Nat} {s₀ : State} {s : State} {l : Strand}
    (hs : Only F s₀ s) (hF : Within 694039872616 F) :
    Only F s₀ (strandDown s l) := by
  unfold strandDown
  repeat' first
    | with_reducible assumption
    | (intro _ _ _ _; try dsimp -zeta only)
    | (intro _ _ _; try dsimp -zeta only)
    | (intro _ _; try dsimp -zeta only)
    | (intro _; try dsimp -zeta only)
    | (extract_lets +onlyGivenNames y; refine cut (p := Only F s₀ y) ?_ (fun _ => ?_); rotate_left; clear_value y; rotate_right; subst y)
    | (extract_lets +onlyGivenNames y; refine cut (p := OnlyP F s₀ y) ?_ (fun _ => ?_); rotate_left; clear_value y; rotate_right; subst y)
    | (extract_lets +onlyGivenNames y; try clear_value y)
    | with_reducible apply post_only
    | with_reducible apply checkDirs_only
    | with_reducible apply State.setStrand_only
    | with_reducible apply parkBundle_only
    | with_reducible apply linkFailEvent_only
    | with_reducible apply meshFails_only
    | with_reducible apply dropStrand_only
    | with_reducible exact hF.of (by decide)
    | with_reducible apply Only.each
    | with_reducible apply Only.ite
    | with_reducible apply OnlyP.ite
    | split
    | with_reducible apply OnlyP.mk'
    | with_reducible refine OnlyP.of_eq (by assumption) ?_
    | with_reducible apply OnlyP.snd
    | with_reducible exact OnlyP.elim (by assumption)

theorem deliverParcel_only {F : Nat} {s₀ : State} {l : Strand} {far : Bool} {s : State} {p : Parcel}
    (hs : Only F s₀ s) (hF : Within 268436584 F) :
    Only F s₀ (deliverParcel l far s p) := by
  unfold deliverParcel
  repeat' first
    | with_reducible assumption
    | (intro _ _ _ _; try dsimp -zeta only)
    | (intro _ _ _; try dsimp -zeta only)
    | (intro _ _; try dsimp -zeta only)
    | (intro _; try dsimp -zeta only)
    | (extract_lets +onlyGivenNames y; refine cut (p := Only F s₀ y) ?_ (fun _ => ?_); rotate_left; clear_value y; rotate_right; subst y)
    | (extract_lets +onlyGivenNames y; try clear_value y)
    | with_reducible apply giveLink_only
    | with_reducible apply dropTransit_only
    | with_reducible apply arrive_only
    | with_reducible exact hF.of (by decide)
    | with_reducible apply Only.ite
    | split

theorem addParcel_only {F : Nat} {s₀ : State} {s : State} {l : Strand} {far : Bool} {p : Parcel}
    (hs : Only F s₀ s) (hF : Within 134217728 F) :
    Only F s₀ (addParcel s l far p) := by
  unfold addParcel
  repeat' first
    | with_reducible assumption
    | (intro _ _ _ _; try dsimp -zeta only)
    | (intro _ _ _; try dsimp -zeta only)
    | (intro _ _; try dsimp -zeta only)
    | (intro _; try dsimp -zeta only)
    | (extract_lets +onlyGivenNames y; refine cut (p := Only F s₀ y) ?_ (fun _ => ?_); rotate_left; clear_value y; rotate_right; subst y)
    | (extract_lets +onlyGivenNames y; try clear_value y)
    | with_reducible apply State.setStrand_only
    | with_reducible exact hF.of (by decide)
    | with_reducible apply Only.ite
    | split

theorem fillFrame_only {F : Nat} {s₀ : State} {l : Strand} {far : Bool} {fuel room : Nat} {s : State}
    (hs : Only F s₀ s) (hF : Within 402653248 F) :
    Only F s₀ (fillFrame l far fuel room s) := by
  induction fuel generalizing room s with
  | zero => exact hs
  | succ n ih =>
    unfold fillFrame
    split
    · exact hs
    · split
      · exact hs
      · exact ih (addParcel_only (leave_only hs (hF.of (by decide))).snd (hF.of (by decide)))

theorem formFrame_only {F : Nat} {s₀ : State} {s : State} {l : Strand} {far : Bool}
    (hs : Only F s₀ s) (hF : Within 402653248 F) :
    Only F s₀ (formFrame s l far) := by
  unfold formFrame
  repeat' first
    | with_reducible assumption
    | (intro _ _ _ _; try dsimp -zeta only)
    | (intro _ _ _; try dsimp -zeta only)
    | (intro _ _; try dsimp -zeta only)
    | (intro _; try dsimp -zeta only)
    | (extract_lets +onlyGivenNames y; refine cut (p := Only F s₀ y) ?_ (fun _ => ?_); rotate_left; clear_value y; rotate_right; subst y)
    | (extract_lets +onlyGivenNames y; try clear_value y)
    | with_reducible apply State.setStrand_only
    | with_reducible apply fillFrame_only
    | with_reducible exact hF.of (by decide)

theorem acceptStrandFrame_only {F : Nat} {s₀ : State} {s : State} {l : Strand} {far : Bool} {f : StrandFrame}
    (hs : Only F s₀ s) (hF : Within 402654312 F) :
    Only F s₀ (acceptStrandFrame s l far f) := by
  unfold acceptStrandFrame
  repeat' first
    | with_reducible assumption
    | (intro _ _ _ _; try dsimp -zeta only)
    | (intro _ _ _; try dsimp -zeta only)
    | (intro _ _; try dsimp -zeta only)
    | (intro _; try dsimp -zeta only)
    | (extract_lets +onlyGivenNames y; refine cut (p := Only F s₀ y) ?_ (fun _ => ?_); rotate_left; clear_value y; rotate_right; subst y)
    | (extract_lets +onlyGivenNames y; try clear_value y)
    | with_reducible apply State.setStrand_only
    | with_reducible apply flushOutbox_only
    | with_reducible apply deliverParcel_only
    | with_reducible exact hF.of (by decide)
    | with_reducible apply Only.foldl
    | with_reducible apply Only.ite
    | split

theorem refuseStrandFrame_only {F : Nat} {s₀ : State} {s : State} {l : Strand} {far : Bool} {seq : Nat}
    (hs : Only F s₀ s) (hF : Within 694039872616 F) :
    Only F s₀ (refuseStrandFrame s l far seq) := by
  unfold refuseStrandFrame
  repeat' first
    | with_reducible assumption
    | (intro _ _ _ _; try dsimp -zeta only)
    | (intro _ _ _; try dsimp -zeta only)
    | (intro _ _; try dsimp -zeta only)
    | (intro _; try dsimp -zeta only)
    | (extract_lets +onlyGivenNames y; refine cut (p := Only F s₀ y) ?_ (fun _ => ?_); rotate_left; clear_value y; rotate_right; subst y)
    | (extract_lets +onlyGivenNames y; try clear_value y)
    | with_reducible apply State.emit_only
    | with_reducible apply State.count32_only
    | with_reducible apply State.setStrand_only
    | with_reducible apply strandDown_only
    | with_reducible exact hF.of (by decide)
    | with_reducible apply Only.ite
    | split

theorem execStrandFrameReceive_only {F : Nat} {s₀ : State} {l : Strand} {far : Bool} {seq : Nat} {crcOk : Bool} {s : State}
    (hs : Only F s₀ s) (hF : Within 694039872616 F) :
    OnlyN F s₀ (execStrandFrameReceive l far seq crcOk s) := by
  unfold execStrandFrameReceive
  repeat' first
    | with_reducible assumption
    | (intro _ _ _ _; try dsimp -zeta only)
    | (intro _ _ _; try dsimp -zeta only)
    | (intro _ _; try dsimp -zeta only)
    | (intro _; try dsimp -zeta only)
    | (extract_lets +onlyGivenNames y; refine cut (p := Only F s₀ y) ?_ (fun _ => ?_); rotate_left; clear_value y; rotate_right; subst y)
    | (extract_lets +onlyGivenNames y; try clear_value y)
    | with_reducible apply formFrame_only
    | with_reducible apply acceptStrandFrame_only
    | with_reducible apply refuseStrandFrame_only
    | with_reducible exact hF.of (by decide)
    | with_reducible apply Only.ite
    | with_reducible apply OnlyN.ite
    | split
    | with_reducible apply OnlyN.next

theorem execStrandLinkDown_only {F : Nat} {s₀ : State} {l : Strand} {s : State}
    (hs : Only F s₀ s) (hF : Within 694039872616 F) :
    OnlyN F s₀ (execStrandLinkDown l s) := by
  unfold execStrandLinkDown
  repeat' first
    | with_reducible assumption
    | with_reducible apply strandDown_only
    | with_reducible exact hF.of (by decide)
    | with_reducible apply Only.ite
    | with_reducible apply OnlyN.ite
    | split
    | with_reducible apply OnlyN.next

theorem writeLaneLog_only {F : Nat} {s₀ : State} {t : Nat} {c : Nat} {bad : List HamperLane} {s : State}
    (hs : Only F s₀ s) (hF : Within 64 F) :
    Only F s₀ (writeLaneLog t c bad s) := by
  unfold writeLaneLog
  repeat' first
    | with_reducible assumption
    | (intro _ _ _ _; try dsimp -zeta only)
    | (intro _ _ _; try dsimp -zeta only)
    | (intro _ _; try dsimp -zeta only)
    | (intro _; try dsimp -zeta only)
    | with_reducible apply State.setReg_only
    | with_reducible exact hF.of (by decide)
    | with_reducible apply Only.each

theorem tileTrained_only {F : Nat} {s₀ : State} {s : State} {t : Nat}
    (hs : Only F s₀ s) (hF : Within 4194368 F) :
    Only F s₀ (tileTrained s t) := by
  unfold tileTrained
  repeat' first
    | with_reducible assumption
    | (intro _ _ _ _; try dsimp -zeta only)
    | (intro _ _ _; try dsimp -zeta only)
    | (intro _ _; try dsimp -zeta only)
    | (intro _; try dsimp -zeta only)
    | (extract_lets +onlyGivenNames y; refine cut (p := Only F s₀ y) ?_ (fun _ => ?_); rotate_left; clear_value y; rotate_right; subst y)
    | (extract_lets +onlyGivenNames y; try clear_value y)
    | with_reducible apply State.setReg_only
    | with_reducible apply State.setField_only
    | with_reducible apply State.modTile_only
    | with_reducible exact hF.of (by decide)

theorem execHamperTraining_only {F : Nat} {s₀ : State} {site : Fin 72} {failed : List HamperLane} {s : State}
    (hs : Only F s₀ s) (hF : Within 549894227048 F) :
    OnlyN F s₀ (execHamperTraining site failed s) := by
  unfold execHamperTraining
  repeat' first
    | with_reducible assumption
    | (intro _ _ _ _; try dsimp -zeta only)
    | (intro _ _ _; try dsimp -zeta only)
    | (intro _ _; try dsimp -zeta only)
    | (intro _; try dsimp -zeta only)
    | (extract_lets +onlyGivenNames y; refine cut (p := Only F s₀ y) ?_ (fun _ => ?_); rotate_left; clear_value y; rotate_right; subst y)
    | (extract_lets +onlyGivenNames y; try clear_value y)
    | with_reducible apply tileTrained_only
    | with_reducible apply writeLaneLog_only
    | with_reducible apply enterSafe_only
    | with_reducible exact hF.of (by decide)
    | with_reducible apply Only.each
    | with_reducible apply Only.ite
    | with_reducible apply OnlyN.ite
    | split
    | with_reducible apply OnlyN.next
    | with_reducible apply Only.panel

end Sys2Proof.Machine
end

