-- ==== Sys2Proof/Tests/Slice0.lean ====
section
/-! SUPPORT. Tests: an ill-formed command for every check of WellFormed.lean, a few steps against the spec's tables, and for
every clause of every statement a concrete state and operands that meet its hypotheses together. -/

set_option maxRecDepth 4000

namespace Sys2Proof.Tests

open Sys2Proof Sys2Proof.Machine

/-- A running panel with power, a leader and a trained tile 0, for the witnesses below. -/
def live : State :=
  { State.reset with power := { State.reset.power with pwrgd := true, stage := 15 },
                     mgmt := { State.reset.mgmt with up := true }, lead := { State.reset.lead with leader := some 0 },
                     tiles := [(0, { trained := true })], panel := { State.reset.panel with mapRead := true, skip := [8, 8, 8, 8, 8, 8, 8, 8] } }

/-- The path of the leader. -/
def boss : Path := .msg 0

/-- What `Issues` asks beside the line, as a check. -/
def issuesCheck (s : State) (g : Nat) (f : Fetched) : Bool :=
  let t := g / 256
  let l := f.line
  let q := s.queue g
  issuing s t && standing q && (!hdrWaitEn l || waitSatisfied (s.tally (2048 * t + hdrWaitTally l)) (hdrWaitTarget l)) &&
  (!(hdrSerial l || hdrOpcode l = 0x0C) || q.inflight.isEmpty) && !q.fence && !taskError q l &&
  (!hdrGate l || (!selfHolds s (tileParty s t) && !(s.tile t).gateFail)) &&
  !outranked s g (fun _ => true) (fun _ s => .ready s) l

theorem issues_of {s : State} {g : Nat} {f : Fetched} (h : commandLine s g = some (.ok f, s))
    (c : issuesCheck s g f = true) : Issues s g f := by
  simp only [issuesCheck, Bool.and_eq_true] at c
  obtain ⟨⟨⟨⟨⟨⟨⟨c1, c2⟩, c3⟩, c4⟩, c5⟩, c6⟩, c7⟩, c8⟩ := c
  refine ⟨h, c1, c2, fun e => by simpa [e] using c3, fun e => ?_, by simpa using c5, by simpa using c6, fun e => ?_,
    by simpa using c8⟩
  · have : (hdrSerial f.line || decide (hdrOpcode f.line = 0x0C)) = true := by simpa using e
    simpa [this] using c4
  · simpa [e] using c7

/-- Queue 0 of the live state with one command, fetched ahead. -/
def queued (l : Line) : State := live.setQueue 0 { enable := true, tail := 1, fetched := [(0, some { line := l })] }

/-- A value at a bit of a line, and a descriptor of `n` elements of kind `k` at `base` of tile 0. -/
def lineBits (o lo v : Nat) : Line := BitVec.ofNat 512 (2 ^ (8 * o + lo) * v)
def descLine (base k n : Nat) : Line :=
  lineBits 0 0 base ||| lineBits 4 8 k ||| lineBits 8 0 n ||| lineBits 0xC 0 1 ||| lineBits 0x10 0 1 ||| lineBits 0x14 0 1

/-- Queue 0 of the live state with one command, fetched ahead with copies of its descriptors. -/
def fetched (f : Fetched) : State := live.setQueue 0 { enable := true, tail := 1, fetched := [(0, some f)] }

/-! ### An ill-formed command for every check -/

theorem test_wf_access_offset : Instr.wf (.registerWrite { path := boss, off := 2 ^ 32 } 4 0) = false := by decide
theorem test_wf_write_size_zero : Instr.wf (.registerWrite { path := boss, off := 0 } 0 0) = false := by decide
theorem test_wf_write_size : Instr.wf (.registerWrite { path := boss, off := 0 } 9 0) = false := by decide
theorem test_wf_read_size_zero : Instr.wf (.lowWordRead { path := boss, off := 0 } 0) = false := by decide
theorem test_wf_read_size : Instr.wf (.lowWordRead { path := boss, off := 2 ^ 32 } 9) = false := by decide
theorem test_wf_profile : Instr.wf (.guestProfileAnswer 0 [0, 0, 0]) = false := by decide
theorem test_wf_guide_results : Instr.wf (.guideAnswer 0 0 0 [0, 0, 0, 0]) = false := by decide
theorem test_wf_retries : Instr.wf (.hamperBurst 0 0 [] [] [6]) = false := by decide
theorem test_wf_burst_error : Instr.wf (.hamperBurst 0 0 [] [(32, .uncorrectable)] []) = false := by decide
theorem test_wf_scrub : Instr.wf (.scrubUnit 0 (.basket 0) [(0, .correctable 9)]) = false := by decide

/-- A request to a hamper channel, for the four checks of one. -/
def request (offset lines : Nat) : Instr :=
  .hamperBurst 0 0 [{ source := .unit, offset, lines, kind := .read .normal }] [] []
theorem test_wf_request_line : (request 0x100000020 1).wf = false := by decide
theorem test_wf_request_below : (request 0 1).wf = false := by decide
theorem test_wf_request_beyond : (request 0x123FFFFC0 2).wf = false := by decide
theorem test_wf_request_empty : (request 0x100000000 0).wf = false := by decide
theorem test_wf_request_good : (request 0x123FFFFC0 1).wf = true := by decide

/-- A packet of the router's command, for the checks of a packet. -/
def arrival (p : Packet) : Instr := .routerPacketReceive 0 0 (some p)
theorem test_wf_packet_fields :
    [({ ty := 32 } : Packet), { ty := 0, vc := 8 }, { ty := 0, fpc := 8 }, { ty := 0, hint := 4 }, { ty := 0, mcast := 4 },
     { ty := 0, flits := 8 }, { ty := 0, epoch := 256 }, { ty := 0, dstModule := 2 ^ 14 }, { ty := 0, dstTile := 64 },
     { ty := 0, srcTile := 64 }, { ty := 0, party := 16 }, { ty := 0, srcKind := 4 }, { ty := 0, srcModule := 2 ^ 14 },
     { ty := 0, dstKind := 4 }, { ty := 0, birth := 2 ^ 16 }, { ty := 0, addr := 2 ^ 40 }, { ty := 0, seq := 2 ^ 24 },
     { ty := 0, tag := 2 ^ 16 }, { ty := 0, aux := 2 ^ 16 }, { ty := 0, flits := 1 }].all (fun p => !(arrival p).wf) = true := by
  decide
theorem test_wf_packet_good : (arrival { ty := 0 }).wf = true := by decide
theorem test_wf_frame :
    Instr.wf (.linkFrameReceive (.copper 0) { seq := 0, crcOk := true, tagOk := true, stamp := 0, packets := [⟨{ ty := 32 }, 0⟩] })
      = false := by
  decide

/-- A roll-call message with the fields that are checked. -/
def rcMessage (party epoch team seq : Nat) : RcMessage :=
  { kind := 0, op := 0, party, epoch, stage := 0, seq, team, rank := 0, words := [0] }
theorem test_wf_rollcall_message :
    [rcMessage 16 0 0 0, rcMessage 0 256 0 0, rcMessage 0 0 64 0, rcMessage 0 0 0 (2 ^ 16),
      { rcMessage 0 0 0 0 with words := [] }, { rcMessage 0 0 0 0 with words := List.replicate 9 0 },
      { rcMessage 0 0 0 0 with kind := 16 }, { rcMessage 0 0 0 0 with rank := 128 }].all
      (fun m => !Instr.wf (.rollcallMessage ⟨.copper 0, 0, 0⟩ m) && !Instr.wf (.rollcallAbort none m)) = true := by
  decide
theorem test_wf_rollcall_source :
    Instr.wf (.rollcallMessage ⟨.copper 0, 2 ^ 14, 0⟩ (rcMessage 0 0 0 0)) = false := by decide
theorem test_wf_rollcall_dest :
    Instr.wf (.rollcallMessage ⟨.copper 0, 0, 2 ^ 14⟩ (rcMessage 0 0 0 0)) = false := by decide
theorem test_wf_abort_source :
    Instr.wf (.rollcallAbort (some (.copper 0, 2 ^ 14)) (rcMessage 0 0 0 0)) = false := by decide
theorem test_wf_time_request : Instr.wf (.timeReq (some (.copper 0, 2 ^ 14, 0))) = false := by decide
theorem test_wf_time_response : Instr.wf (.timeResp (.copper 0) (2 ^ 14) 0 0 0) = false := by decide
theorem test_wf_distances : Instr.wf (.driftUpdate 0 0 (List.replicate 17 0)) = false := by decide
theorem test_wf_targets : Instr.wf (.calibrationDone 0 0 (List.replicate 17 0)) = false := by decide
theorem test_wf_tlp_empty : Instr.wf (.hostWriteTlp { port := 0, vf := 0 } 0 []) = false := by decide
theorem test_wf_tlp_long (bs : List Byte) (h : 4096 < bs.length) :
    Instr.wf (.hostWriteTlp { port := 0, vf := 0 } 0 bs) = false := by
  simp [Instr.wf, Nat.not_le.mpr h]
theorem test_wf_read_empty : Instr.wf (.hostReadTlp { port := 0, vf := 0 } 0 0) = false := by decide
theorem test_wf_read_long : Instr.wf (.hostReadTlp { port := 0, vf := 0 } 0 4097) = false := by decide
theorem test_wf_link_speed : Instr.wf (.hostLinkUp 0 7 16) = false := by decide
theorem test_wf_link_width : Instr.wf (.hostLinkUp 0 6 17) = false := by decide
theorem test_wf_read32 : Instr.wf (.read32 0 (2 ^ 32)) = false := by decide
theorem test_wf_write32 : Instr.wf (.write32 0 (2 ^ 32) 0) = false := by decide
theorem test_wf_block_offset : Instr.wf (.readBlock 0 (2 ^ 32) 1) = false := by decide
theorem test_wf_block_count : Instr.wf (.readBlock 0 0 257) = false := by decide
theorem test_wf_reserved : Instr.wf (.regAccessReserved 0 256) = false := by decide
theorem test_wf_store_offset : Instr.wf (.itinStoreWrite boss (2 ^ 32) 0) = false := by decide
theorem test_wf_event :
    [({ cls := 256, source := 0 } : Event), { cls := 0, source := 2 ^ 16 }, { cls := 0, source := 0, payload := 2 ^ 96 }].all
      (fun e => !Instr.wf (.eventCommit e)) = true := by
  decide
theorem test_wf_cause : Instr.wf (.safeStateEntry 256 0 0 0) = false := by decide
theorem test_wf_plain : Instr.wf .rowMapRead = true := by decide

/-! ### Worked examples of the spec -/

/-- The module of the example after R26: standby in column 4 of row 0, failed sites in columns 6 and 0 of rows 1 and 2. -/
def shipped : State := { live with panel := { live.panel with skip := [4, 6, 0, 8, 8, 8, 8, 8] } }
theorem test_row_map_example :
    [4, 3, 12, 13, 14, 16, 8].map (siteOf shipped) = [5, 3, 13, 14, 16, 19, 9] ∧
    [4, 15, 18].all (fun x => tileAt? shipped x = none) = true := by
  decide

/-- The example after R191: an offset's channel and place in it. -/
theorem test_channel_example :
    [0x100023040, 0x100023000, 0x100023FC0, 0x100024000].map channelOf = [3, 3, 3, 4] ∧
    channelGranule 0x100023040 = 32 := by
  decide

/-- The example after R282: the tally 0x7FFFFFF0 does not satisfy a wait for 0x10; 0x10 does. -/
theorem test_wait_example :
    waitSatisfied 0x7FFFFFF0 0x10 = false ∧ waitSatisfied 0x10 0x10 = true := by
  decide

/-- The example after R235: words 0x00 to 0x14 of a descriptor, its lines' first and last bytes. -/
theorem test_descriptor_example :
    let d : Desc := descOf 0 (lineBits 0 0 0x00400000 ||| lineBits 4 0 0x00002031 ||| lineBits 8 0 0x3E8 |||
      lineBits 0xC 0 0x180 ||| lineBits 0x10 0 1 ||| lineBits 0x14 0 1 ||| lineBits 0x18 0 0xFC0)
    descTile d = 12 ∧ d.elem = 0 ∧ descOff d = 0x100400000 ∧ runLines d = 63 ∧
      lineAt d (descLines d - 1) % 2 ^ 34 + 63 = 0x100579FFF := by
  decide

/-- The example after R95: 1.0 and the pass sum 15 × 2^−28 with the draw 0x76A1. -/
theorem test_stochastic_example :
    genLane 0 0 0 0 3 0 = 0x76A1 ∧ genLane 0 0 0 0 8 0 = 0x0D01 ∧
    accumulate 0x3F800000 (.fin false 15 (-28)) .sr 0x76A1 = 0x3F800001 ∧
    accumulate 0x3F800000 (.fin false 15 (-28)) .rne 0x76A1 = 0x3F800000 := by
  decide

/-- The example after R101: three products in one pass, and in three. -/
theorem test_window_example :
    let a : Machine.Num := .fin false 3 30
    let b : Machine.Num := .fin false 5 (-2)
    let c : Machine.Num := .fin true 3 30
    accumulate 0 (passSum [a, b, c]) .rne 0 = 0x3FA00000 ∧
    [a, b, c].foldl (fun x p => accumulate x (passSum [p]) .rne 0) 0 = 0 := by
  decide

/-- The example after R86: a block quantised to K4 with RNE and escape code 3. -/
theorem test_quantise_example :
    let q := quantise .k4 3 .rne (fun _ => 0) ((List.range 32).map (fun i =>
      if i = 5 then .fin false 100 0 else if i = 17 then .fin true 37 0 else .fin false 5 (-1)))
    q.scale = 0x82 ∧ q.codes.getD 17 0 = 0xE ∧ q.codes.getD 9 0 = 0x1 ∧ q.codes.getD 5 1 = 0 ∧
      q.esc.toBits = 0x00000405000042C8 := by
  decide

/-- The statistics of the example after R157: a row of 3.0, 1.0 and 3.0. -/
theorem test_statistics_example :
    rowStats true true [0x40400000, 0x3F800000, 0x40400000] = [0x40400000, 0x4008A956, 0x40E00000, 0] := by
  decide

/-- The check value of CRC-32 (reflected, 0xEDB88320) over "123456789". -/
theorem test_crc32_check : crc32 [0x31, 0x32, 0x33, 0x34, 0x35, 0x36, 0x37, 0x38, 0x39] = 0xCBF43926 := by decide

/-! ### One step -/

/-- With nothing waiting a nanosecond passes; with a command waiting the step is the command's. -/
theorem test_idle_step : step live = .next (live.passTo 1) := rfl
theorem test_step_front : ∃ t, step { live with pending := [.rowMapRead, .startupStep] } = .next t ∧ t.pending = [.startupStep] :=
  ⟨_, rfl, rfl⟩

/-! ### The hypotheses of the statements can be met, clause by clause -/

/-- The hypotheses of `StartupSequence`, clause 1. -/
theorem test_StartupSequence_1 :
    State.reset.power.pwrgd = false := by
  decide

/-- The hypotheses of `StartupSequence`, clause 2. -/
theorem test_StartupSequence_2 :
    let s : State := { live with power := { live.power with stage := 0 } }
    s.power.pwrgd = true ∧ s.power.stage = 0 := by
  decide

/-- The hypotheses of `StartupSequence`, clause 3. -/
theorem test_StartupSequence_3 :
    let s : State := { live with power := { live.power with stage := 1 }, sec := { live.sec with modules := [(0, { smOk := some true, hbOk := some true }), (1, { smOk := some true, hbOk := some false })] } }
    s.power.pwrgd = true ∧ s.power.stage = 1 ∧ bootsKnown s = true := by
  decide

/-- The hypotheses of `StartupSequence`, clause 4. -/
theorem test_StartupSequence_4 :
    let s : State := { live with power := { live.power with stage := 2 } }
    panelRuns s = true ∧ s.power.stage = 2 := by
  decide

/-- The hypotheses of `StartupSequence`, clause 5. -/
theorem test_StartupSequence_5 :
    let s : State := { live with power := { live.power with stage := 3, on := [(15, true)] } }
    panelRuns s = true ∧ s.power.stage = 3 ∧ s.panel.mapRead = true ∧ 0 ∈ startDomains s ∧ domainOn s 0 = false ∧
    8 ∈ skippedDomains { s with power := { s.power with on := [(8, true)] } } := by
  decide

/-- The hypotheses of `StartupSequence`, clause 6. -/
theorem test_StartupSequence_6 :
    let s : State := { live with power := { live.power with stage := 4, good := (List.range 152).map (fun d => (d, true)) } }
    panelRuns s = true ∧ s.power.stage = 4 ∧ s.power.wanted = [] ∧ (∀ d ∈ startDomains s, domainGood s d = true) := by
  decide

/-- The hypotheses of `StartupSequence`, clause 7. -/
theorem test_StartupSequence_7 :
    let s : State := { live with
      power := { live.power with stage := 5 }, tiles := (List.range 64).map (fun t => (t, { trained := true })),
      panel := { live.panel with strands := (List.range 168).map (fun k => (k, { phase := .active })) } }
    panelRuns s = true ∧ s.power.stage = 5 ∧ trainingDone s = true := by
  decide

/-- The hypotheses of `StartupSequence`, clause 8. -/
theorem test_StartupSequence_8 :
    let s : State := { live with
      power := { live.power with stage := 6 }, sec := { live.sec with guideOk := true },
      lanterns := (List.range 8).map (fun n => (n, { table := true })) }
    panelRuns s = true ∧ s.power.stage = 6 ∧ (∀ k < 64, (s.tile k).zero.active = false) ∧ tablesLoaded s = true := by
  decide

/-- The hypotheses of `StartupSequence`, clause 9. -/
theorem test_StartupSequence_9 :
    let s : State := { live with power := { live.power with stage := 7 }, rk := { live.rk with ready := 3 } }
    panelRuns s = true ∧ s.power.stage = 7 ∧ s.rk.ready = 3 := by
  decide

/-- The hypotheses of `StartupSequence`, clause 10. -/
theorem test_StartupSequence_10 :
    let s : State := { live with power := { live.power with stage := 3 }, panel := State.reset.panel }
    let c := s.panel.hb0
    let one : State := { s with panel := { s.panel with hb0 := { c with field := [1, 0, 0, 0, 0, 0, 0, 0] } } }
    let two : State := { s with panel := { s.panel with hb1 := { c with field := [1, 0, 0, 0, 0, 0, 0, 0] } } }
    let bad (a b : Bool) : State := { s with panel := { s.panel with
      hb0 := { c with crc := if a then c.crc else c.crc + 1 }, hb1 := { c with crc := if b then c.crc else c.crc + 1 } } }
    (panelRuns s = true ∧ s.power.stage = 3 ∧ s.panel.mapRead = false) ∧
    (copyValid s.panel.hb0 = true ∧ copyValid s.panel.hb1 = true ∧ mapDiffers s = []) ∧
    (copyValid one.panel.hb0 = true ∧ copyValid one.panel.hb1 = true ∧ repairRow one = some 0) ∧
    (copyValid two.panel.hb0 = true ∧ copyValid two.panel.hb1 = true ∧ mapDiffers two = [0] ∧ repairRow two = none) ∧
    (copyValid (bad true false).panel.hb0 = true ∧ copyValid (bad true false).panel.hb1 = false) ∧
    (copyValid (bad false true).panel.hb0 = false ∧ copyValid (bad false true).panel.hb1 = true) ∧
    copyValid (bad false false).panel.hb0 = false ∧ copyValid (bad false false).panel.hb1 = false := by
  decide

/-- The hypotheses of `PowerDomains`, clause 1. -/
theorem test_PowerDomains_1 :
    let s : State := { live with power := { live.power with wanted := [3, 4] } }
    panelRuns s = true ∧ s.power.wanted = [3, 4] := by
  decide

/-- The hypotheses of `PowerDomains`, clause 2. -/
theorem test_PowerDomains_2 :
    let s : State := { live with power := { live.power with unwanted := [157] } }
    s.power.pwrgd = true ∧ s.power.unwanted = [157] := by
  decide

/-- The hypotheses of `PowerDomains`, clause 3. -/
theorem test_PowerDomains_3 :
    let s : State := { live with power := { live.power with on := [(0, true)] } }
    s.power.pwrgd = true ∧ domainOn s 0 = true ∧ domainGood s 0 = false := by
  decide

/-- The hypotheses of `PowerDomains`, clause 4. -/
theorem test_PowerDomains_4 :
    let s : State := { live with power := { live.power with switched := [(153, some 7)] } }
    s.power.pwrgd = true ∧ mget none s.power.switched 153 = some 7 ∧ s.safe.active = false := by
  decide

/-- The hypotheses of `PowerDomains`, clause 5. -/
theorem test_PowerDomains_5 :
    let s : State := { live with power := { live.power with switched := [(154, some 7)] } }
    s.power.pwrgd = true ∧ mget none s.power.switched 154 = some 7 ∧ (s.guest 0).attempt < 4 := by
  decide

/-- The hypotheses of `PowerDomains`, clause 6. -/
theorem test_PowerDomains_6 :
    let s : State := { live with power := { live.power with switched := [(154, some 7)] }, panel := { live.panel with guests := [(0, { attempt := 4 })] } }
    s.power.pwrgd = true ∧ mget none s.power.switched 154 = some 7 ∧ 4 ≤ (s.guest 0).attempt := by
  decide

/-- The hypotheses of `StrandTraining`, clause 1. -/
theorem test_StrandTraining_1 :
    let s : State := { live with power := { live.power with stage := 5, good := [(0, true), (1, true)] }, panel := { live.panel with straps := [(0, some (strapPads 0)), (1, some (strapPads 1))] } }
    let l : Strand := .mesh 0 true
    panelRuns s = true ∧ s.power.stage = 5 ∧ (s.strand l).phase = .off ∧ strandExists s l = true ∧
    domainGood s (dieDomain (strandDies s l).1) = true ∧ domainGood s (dieDomain (strandDies s l).2) = true ∧
    strapGood (strandDies s l).1 (strapsHeld s (strandDies s l).1) = true ∧
    strapGood (strandDies s l).2 (strapsHeld s (strandDies s l).2) = true := by
  decide

/-- The hypotheses of `StrandTraining`, clause 2. -/
theorem test_StrandTraining_2 :
    let s : State := { live with panel := { live.panel with strands := [(0, { phase := .clockLock })] } }
    panelRuns s = true ∧ (s.strand (.mesh 0 false)).phase = .clockLock := by
  decide

/-- The hypotheses of `StrandTraining`, clause 3. -/
theorem test_StrandTraining_3 :
    let s : State := { live with panel := { live.panel with strands := [(0, { phase := .deskew })] } }
    panelRuns s = true ∧ (s.strand (.mesh 0 false)).phase = .deskew := by
  decide

/-- The hypotheses of `StrandTraining`, clause 4. -/
theorem test_StrandTraining_4 :
    let s : State := { live with panel := { live.panel with strands := [(0, { phase := .wireTest })], straps := [(0, some (strapPads 0)), (9, some (strapPads 9))] } }
    let l : Strand := .mesh 0 false
    panelRuns s = true ∧ (s.strand l).phase = .wireTest ∧ (s.strand l).dead = [] ∧ (s.strand l).eyes = [] ∧ partnersMatch s l = true ∧ revisionLow s l = false := by
  decide

/-- The hypotheses of `StrandTraining`, clause 5. -/
theorem test_StrandTraining_5 :
    let w : Wire := { group := 0, away := true, index := 3 }
    let s (n : Nat) (k : Nat) : State := { live with panel := { live.panel with
      strands := [(0, { phase := .wireTest, dead := List.range n, attempt := k })],
      straps := [(0, some (strapPads 0)), (9, some (strapPads 9))] } }
    let l : Strand := .mesh 0 false
    let dead (n k : Nat) : List Nat := (List.range (strandGroups (s n k) l)).filter (fun g =>
      ((s n k).strand l).dead.contains g || !(repairGroup [w] g true).2 || !(repairGroup [w] g false).2)
    panelRuns (s 0 1) = true ∧ ((s 0 1).strand l).phase = .wireTest ∧ revisionLow (s 16 1) l = false ∧
    (partnersMatch (s 16 1) l = true ∧ strandMinimum (s 16 1) l ≤ strandGroups (s 16 1) l - (dead 16 1).length) ∧
    (partnersMatch (s 17 1) l = true ∧ strandGroups (s 17 1) l - (dead 17 1).length < strandMinimum (s 17 1) l) ∧
    strandGroups (s 17 3) l - (dead 17 3).length < strandMinimum (s 17 3) l ∧
    partnersMatch { s 0 1 with panel := { (s 0 1).panel with straps := [] } } l = false := by
  decide

/-- The hypotheses of `StrandTraining`, clause 6. -/
theorem test_StrandTraining_6 :
    let s : State := { live with panel := { live.panel with strands := [(0, { phase := .active, near := { buffer := [{ seq := 0, ack := 0 }], sent := 1 } })] } }
    let x := strandRx (s.strand (.mesh 0 false)) false
    let y := strandRx (s.strand (.mesh 0 false)) true
    linksAlive s = true ∧ (s.strand (.mesh 0 false)).phase = .active ∧
    (x.next ∈ x.buffer.map (·.seq) ∨ x.next = x.sent ∧ x.buffer.length < 64) ∧ x.fails < 8 ∧
    (y.next ∈ y.buffer.map (·.seq) ∨ y.next = y.sent ∧ y.buffer.length < 64) := by
  decide

/-- The hypotheses of `StrandTraining`, clause 7. -/
theorem test_StrandTraining_7 :
    let s : State := { live with panel := { live.panel with strands := [(128, { phase := .active })] } }
    linksAlive s = true ∧ (s.strand (.lantern 0 0)).phase = .active := by
  decide

/-- The hypotheses of `StrandTraining`, clause 8. -/
theorem test_StrandTraining_8 :
    let s : State := { live with tiles := [], power := { live.power with stage := 5, good := [(0, true), (72, true)] } }
    let x : HamperLane := { channel := 0, group := 0, lane := 3 }
    panelRuns s = true ∧ s.power.stage = 5 ∧ tileAt? s 0 = some 0 ∧ (s.tile 0).trained = false ∧ domainGood s 0 = true ∧
    domainGood s 72 = true ∧ ∀ c < 32, ∀ g < 36, groupLost [x] c g = false := by
  decide

/-- The hypotheses of `GuestBringUp`, clause 1. -/
theorem test_GuestBringUp_1 :
    let s (g : Guest) : State := { live with panel := { live.panel with guests := [(2, g)] } }
    (panelRuns (s {}) = true ∧ 6 ≤ (s {}).power.stage ∧ guestFitted (s {}) 2 = true ∧ (anchorTile (s {}) 2).isSome = true) ∧
    ((s { status := .idle }).guest 2).status = .idle ∧
    ((s { status := .bringup, attempt := 3 }).guest 2).status = .bringup ∧
    ((s { status := .bringup, attempt := 3 }).guest 2).step = 0 := by
  decide

/-- The hypotheses of `GuestBringUp`, clause 2. -/
theorem test_GuestBringUp_2 :
    let s : State := { live with panel := { live.panel with guests := [(0, { status := .bringup, step := 1 })] }, power := { live.power with good := [(154, true)] } }
    panelRuns s = true ∧ (s.guest 0).status = .bringup ∧ (s.guest 0).step = 1 ∧ domainGood s (guestDomain 0) = true := by
  decide

/-- The hypotheses of `GuestBringUp`, clause 3. -/
theorem test_GuestBringUp_3 :
    let s : State := { live with panel := { live.panel with guests := [(0, { status := .bringup, step := 2 })] } }
    panelRuns s = true ∧ (s.guest 0).status = .bringup ∧ (s.guest 0).step = 2 ∧ (1 : BitVec 4) ≠ 0 := by
  decide

/-- The hypotheses of `GuestBringUp`, clause 4. -/
theorem test_GuestBringUp_4 :
    let s : State := { live with panel := { live.panel with guests := [(0, { status := .bringup, step := 4, modules := 0xF })] } }
    let ws : List Dword := [0x0000000000110001#64 ||| 0x00100000#64, 0x0010000000050501#64 ||| 0#64, 1#64, 0#64]
    panelRuns s = true ∧ (s.guest 0).status = .bringup ∧ (s.guest 0).step = 4 ∧ answerOk (s.guest 0).modules ws = true ∧ guestFeatures s 0 ws = true := by
  decide

/-- The hypotheses of `GuestBringUp`, clause 5. -/
theorem test_GuestBringUp_5 :
    let s : State := { live with panel := { live.panel with guests := [(0, { status := .bringup, step := 6 })] } }
    panelRuns s = true ∧ (s.guest 0).status = .bringup ∧ (s.guest 0).step = 6 := by
  decide

/-- The hypotheses of `GuestBringUp`, clause 6. -/
theorem test_GuestBringUp_6 :
    let s (step attempt : Nat) : State :=
      { live with panel := { live.panel with guests := [(0, { status := .bringup, step, attempt })] } }
    panelRuns (s 2 3) = true ∧ ((s 2 3).guest 0).status = .bringup ∧ (stepLimit 2).isSome = true ∧
    ((s 2 3).guest 0).attempt < 4 ∧ 4 ≤ ((s 2 4).guest 0).attempt ∧ ((s 4 1).guest 0).step = 4 ∧
    (answerOk 1 [] && guestFeatures (s 4 1) 0 []) = false := by
  decide

/-- The hypotheses of `GuestBringUp`, clause 7. -/
theorem test_GuestBringUp_7 :
    let s : State := { live with panel := { live.panel with guests := [(0, { status := .inService, step := 7 })] } }
    panelRuns s = true ∧ (s.guest 0).status = .inService := by
  decide

/-- The hypotheses of `GuestBringUp`, clause 8. -/
theorem test_GuestBringUp_8 :
    let s (x : Nat) : State :=
      { live with panel := { live.panel with guests := [(0, { status := .inService, excess := x, maxPower := 600 })] } }
    panelRuns (s 8) = true ∧ ((s 8).guest 0).status = .inService ∧ ((s 8).guest 0).excess < 9 ∧
    9 ≤ ((s 9).guest 0).excess ∧ ((s 9).guest 0).maxPower < 601 ∧ 600 ≤ ((s 9).guest 0).maxPower := by
  decide

/-- The hypotheses of `GuestBringUp`, clause 9. -/
theorem test_GuestBringUp_9 :
    let s (g : GuestStatus) : State := { live with panel := { live.panel with guests := [(3, { status := g })] } }
    ownerGate (s .down) boss 0x1060 = true ∧ (8 : BitVec 4).getLsbD 3 = true ∧ (8 : BitVec 4).getLsbD 2 = false ∧
    ((s .staged).guest 3).status ∈ [GuestStatus.bringup, .staged, .inService] ∧
    ((s .down).guest 3).status ∈ [GuestStatus.absent, .down] := by
  decide

/-- The hypotheses of `IssueAdvances`, clause 1. -/
theorem test_IssueAdvances_1 :
    let s : State := live.setQueue 0 { enable := true, tail := 1 }
    s.queue 0 = s.queue 0 := by
  decide

/-- The hypotheses of `ControlCommands`, clause 1. -/
theorem test_ControlCommands_1 :
    let s := queued 0
    Issues s 0 { line := 0 } ∧ hdrOpcode 0 = 0x00 := by
  exact ⟨issues_of rfl (by decide), by decide⟩

/-- The hypotheses of `ControlCommands`, clause 2. -/
theorem test_ControlCommands_2 :
    let f : Fetched := { line := 0x02#512 }
    let s := queued (0x02#512)
    Issues s 0 f ∧ hdrOpcode f.line = 0x02 := by
  exact ⟨issues_of rfl (by decide), by decide⟩

/-- The hypotheses of `ControlCommands`, clause 3. -/
theorem test_ControlCommands_3 :
    let f : Fetched := { line := 0x04#512 }
    let s := queued (0x04#512)
    Issues s 0 f ∧ hdrOpcode f.line = 0x04 ∧ lineField f.line 0x10 4 1 = 0 := by
  exact ⟨issues_of rfl (by decide), by decide⟩

/-- The hypotheses of `ControlCommands`, clause 4. -/
theorem test_ControlCommands_4 :
    let f : Fetched := { line := 0x04#512 ||| lineBits 0x10 4 1 }
    let s := queued (0x04#512 ||| lineBits 0x10 4 1)
    Issues s 0 f ∧ hdrOpcode f.line = 0x04 ∧ lineField f.line 0x10 4 1 = 1 ∧
      ∃ u, readLines s 0 [0, 64] .normal = ([some 0, some 0], u) ∧ linesReady s 0 [0, 64] = true ∧
        inScratch s 0 0 = true ∧ inScratch s 0 64 = true := by
  exact ⟨issues_of rfl (by decide), by decide, by decide, _, rfl, by decide⟩

/-- The hypotheses of `ControlCommands`, clause 5. -/
theorem test_ControlCommands_5 :
    let f : Fetched := { line := 0x08#512 ||| (0x7#512 <<< 16) ||| (0x7#512 <<< 128) }
    let s := queued (0x08#512 ||| (0x7#512 <<< 16) ||| (0x7#512 <<< 128))
    Issues s 0 f ∧ hdrOpcode f.line = 0x08 ∧ (taskOf (s.queue 0) f.line).id ≠ 0 := by
  exact ⟨issues_of rfl (by decide), by decide⟩

/-- The hypotheses of `ControlCommands`, clause 6. -/
theorem test_ControlCommands_6 :
    let f : Fetched := { line := 0x09#512 ||| (0x7#512 <<< 16) }
    let s : State := live.setQueue 0 { enable := true, tail := 1, open? := some { id := 7 }, fetched := [(0, some f)] }
    Issues s 0 f ∧ hdrOpcode f.line = 0x09 := by
  exact ⟨issues_of rfl (by decide), by decide⟩

/-- The hypotheses of `ControlCommands`, clause 7. -/
theorem test_ControlCommands_7 :
    let f : Fetched := { line := 0x06#512 }
    let s := queued (0x06#512)
    Issues s 0 f ∧ hdrOpcode f.line = 0x06 := by
  exact ⟨issues_of rfl (by decide), by decide⟩

/-- The hypotheses of `ControlCommands`, clause 8. -/
theorem test_ControlCommands_8 :
    let f : Fetched := { line := 0x01#512 }
    let s := queued (0x01#512)
    Issues s 0 f ∧ hdrOpcode f.line ∉ opcodes := by
  exact ⟨issues_of rfl (by decide), by decide⟩

/-- The hypotheses of `UnitCommands`, clause 1. -/
theorem test_UnitCommands_1 :
    let f : Fetched := { line := 0x0C#512 }
    let s := queued (0x0C#512)
    Issues s 0 f ∧ hdrOpcode f.line = 0x0C ∧ pfScope f.line = 0 ∧ pfMap f.line = false ∧ pfVote f.line = false ∧ (s.tile 0).fence = none := by
  exact ⟨issues_of rfl (by decide), by decide⟩

/-- The hypotheses of `UnitCommands`, clause 2. -/
theorem test_UnitCommands_2 :
    let f : Fetched := { line := 0x0C#512 ||| (3#512 <<< 136) }
    let s := queued (0x0C#512 ||| (3#512 <<< 136))
    let h : Fetched := { line := 0x0C#512 }
    let k : OpenFence := ⟨1, 0, 0, 1, false, false, 0, 0, false, false, none, none, false⟩
    let u := (queued (0x0C#512)).modTile 0 (fun x => { x with fence := some k })
    Issues s 0 f ∧ hdrOpcode f.line = 0x0C ∧ pfScope f.line = 3 ∧ Issues u 0 h ∧ hdrOpcode h.line = 0x0C ∧
      (u.tile 0).fence.isSome = true := by
  exact ⟨issues_of rfl (by decide), by decide, by decide, issues_of rfl (by decide), by decide, by decide⟩

/-- The hypotheses of `UnitCommands`, clause 3. -/
theorem test_UnitCommands_3 :
    let f : Fetched := { line := 0x0C#512 ||| (1#512 <<< 136) }
    let s := queued (0x0C#512 ||| (1#512 <<< 136))
    Issues s 0 f ∧ hdrOpcode f.line = 0x0C ∧ (pfScope f.line = 1 ∧ pfMap f.line = false ∨ pfScope f.line = 2) ∧ (s.tile 0).fence = none := by
  exact ⟨issues_of rfl (by decide), by decide⟩

/-- The hypotheses of `UnitCommands`, clause 4. -/
theorem test_UnitCommands_4 :
    let f : Fetched := { line := 0x10#512 ||| lineBits 0x10 0 1, descs := [(0, some (descLine 4096 0 16))] }
    let s := fetched f
    let c := commandAt s 0 f
    Issues s 0 f ∧ (hdrOpcode f.line = 0x10 ∧ (s.tile 0).vec.length < 2 ∧
      linesReady s 0 (((vecSlots s 0 f.line).map (64 * ·)).filter (inScratch s 0)) = true ∧
      ∃ p, (vecCheck c s).1.toOption = some p ∧ vecReady s 0 p = true) := by
  refine ⟨issues_of rfl (by decide), by decide, by decide, by decide, _, rfl, by decide⟩

/-- The hypotheses of `UnitCommands`, clause 5. -/
theorem test_UnitCommands_5 :
    let f : Fetched := { line := 0x20#512 ||| lineBits 0x10 9 1 ||| lineBits 0x10 13 1 ||| lineBits 0x10 17 1 ||| lineBits 0x14 0 1 ||| lineBits 0x14 10 1 ||| lineBits 0x14 19 1, descs := [(0, some (descLine 4096 1 1))] }
    let s := fetched f
    let c := commandAt s 0 f
    let ext := drainExtent (s.engine 0) (s.bank (bankNo 0 0)) f.line
    Issues s 0 f ∧ hdrOpcode f.line = 0x20 ∧ engineAccepts (s.engine 0) = true ∧
      linesReady s 0 (((passSlots f.line ext.1.isSome false).map (64 * ·)).filter (inScratch s 0)) = true ∧
      (passCheck c (s.engine 0) ext false s).1.toBool = true := by
  refine ⟨issues_of rfl ?_, ?_⟩ <;> decide

/-- The hypotheses of `UnitCommands`, clause 6. -/
theorem test_UnitCommands_6 :
    let f : Fetched := { line := 0x30#512 ||| lineBits 0x20 0 1, descs := [(0, some (descLine 4096 8 64)), (1, some (descLine 8192 8 64))] }
    let s := fetched f
    let c := commandAt s 0 f
    let l := f.line
    Issues s 0 f ∧ (hdrOpcode l = 0x30 ∧ s.mover (4 * c.t + mvMover l) = none ∧ mvVc l < 4 ∧
      (mvXchg l = true → mvUnit l < 6) ∧ linesReady s c.t [64 * mvSrcSlot l, 64 * mvDstSlot l] = true ∧
      inScratch s c.t (64 * mvSrcSlot l) = true ∧ inScratch s c.t (64 * mvDstSlot l) = true ∧
      moveError s c.t l (descOf 0 (descLine 4096 8 64)) (descOf 1 (descLine 8192 8 64)) = none) := by
  refine ⟨issues_of rfl ?_, ?_⟩ <;> decide

/-- The hypotheses of `UnitCommands`, clause 7. -/
theorem test_UnitCommands_7 :
    let d := fun b => lineBits 0 0 b ||| lineBits 4 8 8 ||| lineBits 8 0 64 ||| lineBits 0xC 0 32 ||| lineBits 0x10 0 1 ||| lineBits 0x14 0 1 ||| lineBits 0x18 0 64
    let f : Fetched := { line := 0x31#512 ||| lineBits 0x20 0 1 ||| lineBits 0x10 2 1, descs := [(0, some (d 4096)), (1, some (d 8192))] }
    let s := fetched f
    let c := commandAt s 0 f
    let l := f.line
    Issues s 0 f ∧ (hdrOpcode l = 0x31 ∧ s.mover (4 * c.t + mvMover l) = none ∧ mvVc l < 4 ∧
      (mvXchg l = true → mvUnit l < 6) ∧ linesReady s c.t [64 * mvSrcSlot l, 64 * mvDstSlot l] = true ∧
      inScratch s c.t (64 * mvSrcSlot l) = true ∧ inScratch s c.t (64 * mvDstSlot l) = true ∧
      moveError s c.t l (descOf 0 (d 4096)) (descOf 1 (d 8192)) = none) := by
  refine ⟨issues_of rfl ?_, ?_⟩ <;> decide

/-- The hypotheses of `UnitCommands`, clause 8. -/
theorem test_UnitCommands_8 :
    let f : Fetched := { line := 0x40#512 ||| lineBits 0x10 0 6 }
    let s := (fetched f).setReg (teamA 0 0 8) 0x80000000 |>.setReg (teamA 0 0 0) 1
    let c := commandAt s 0 f
    Issues s 0 f ∧ (hdrOpcode f.line = 0x40 ∧ (s.coll c.t).next = none ∧ collFieldError s c.t f.line = false ∧
      linesReady s c.t (((collNeeds s c.t f.line).map (fun x => 64 * x.2.1)).filter (inScratch s c.t)) = true ∧
      (useAll s c.t f.descs (collNeeds s c.t f.line)).1.toOption = some [] ∧ collDescError s c.t f.line [] = none ∧
      issueOperand f.line [] = none) := by
  refine ⟨issues_of rfl ?_, ?_⟩ <;> decide

/-- The hypotheses of `UnitCommands`, clause 9. -/
theorem test_UnitCommands_9 :
    let f : Fetched := { line := 0x05#512 ||| lineBits 0x14 0 1, descs := [(0, some (descLine 4096 8 64))] }
    let s := fetched f
    let c := commandAt s 0 f
    let l := f.line
    Issues s 0 f ∧ (hdrOpcode l = 0x05 ∧ copyError l = none ∧ lineReady s c.t (64 * rcDst l) = true ∧
      (useDesc s c.t f.descs 0 (rcDst l) { write := true, kinds := [kindByte], tile := some c.t, count := some (64 * rcLines l) }).1.toBool = true ∧
      descReady s c.t (descOf 0 (descLine 4096 8 64)) = true ∧ rcClear l = false) := by
  refine ⟨issues_of rfl ?_, ?_⟩ <;> decide

/-- The hypotheses of `RucksackCommands`, clause 1. -/
theorem test_RucksackCommands_1 :
    let f : Fetched := { line := 0x50#512, descs := [(0, some (descLine 4096 8 64))] }
    let s := fetched f
    let c := commandAt s 0 f
    let l := f.line
    let d := descOf 0 (descLine 4096 8 64)
    Issues s 0 f ∧ (hdrOpcode l = 0x50 ∧ ckOp l = 0 ∧ ckGen l ≠ 0xFFFFFFFF ∧ writeAllowed s 0 c.t (ckGen l) (ckKey l) = true ∧
      (useDesc s c.t f.descs 0 (ckSlot l) { tile := some c.t }).1.toOption = some d ∧ descReady s c.t d = true ∧
      (makeRoom (captureLines s c.t d true).2 0 (halfOf c.t) (64 * countStored (captureLines s c.t d true).1)).isSome = true) := by
  refine ⟨issues_of rfl ?_, ?_⟩ <;> decide

/-- The hypotheses of `RucksackCommands`, clause 2. -/
theorem test_RucksackCommands_2 :
    let f : Fetched := { line := 0x50#512 ||| lineBits 0x10 0 1 }
    let s := { queued f.line with rk := { live.rk with gens := [{ party := 0, gen := 0 }] } }
    Issues s 0 f ∧ hdrOpcode f.line = 0x50 ∧ ckOp f.line = 1 ∧ ckGen f.line = 0 ∧
      (openGen s (tileParty s 0)).map (·.gen) = some 0 := by
  exact ⟨issues_of rfl (by decide), by decide⟩

/-- The hypotheses of `RucksackCommands`, clause 3. -/
theorem test_RucksackCommands_3 :
    let f : Fetched := { line := 0x51#512, descs := [(0, some (descLine 4096 8 64))] }
    let x : Piece := { tile := 0, key := 0, desc := 0, lines := [.omitted] }
    let s := { fetched f with rk := { live.rk with gens := [{ party := 0, gen := 0, sealed := true, pieces := [x] }] } }
    let c := commandAt s 0 f
    let l := f.line
    let d := descOf 0 (descLine 4096 8 64)
    Issues s 0 f ∧ (hdrOpcode l = 0x51 ∧ pieceFor s c.t (ckGen l) (ckKey l) = some x ∧ x.lines.all (fun y => y ≠ .lost) = true ∧
      lineReady s c.t (64 * ckSlot l) = true ∧
      (useDesc s c.t f.descs 0 (ckSlot l) { write := true }).1.toOption = some d ∧ descTile d = c.t ∧
      (uniqueLines d).length = x.lines.length ∧ d.acc = false ∧ descReady s c.t d = true) := by
  refine ⟨issues_of rfl ?_, ?_⟩ <;> decide

/-- The hypotheses of `RucksackCommands`, clause 4. -/
theorem test_RucksackCommands_4 :
    let f : Fetched := { line := 0x52#512, descs := [(0, some (descLine 4096 8 64))] }
    let s := fetched f
    let c := commandAt s 0 f
    let l := f.line
    let d := descOf 0 (descLine 4096 8 64)
    Issues s 0 f ∧ (hdrOpcode l = 0x52 ∧ lbRead l = false ∧ lineReady s c.t (64 * lbSlot l) = true ∧
      (useDesc s c.t f.descs 0 (lbSlot l) { write := false, tile := some c.t }).1.toOption = some d ∧
      64 * (uniqueLines d).length ≤ 2 ^ 30 ∧ descReady s c.t d = true) := by
  refine ⟨issues_of rfl ?_, ?_⟩ <;> decide

/-- The hypotheses of `RucksackCommands`, clause 5. -/
theorem test_RucksackCommands_5 :
    let f : Fetched := { line := 0x52#512 ||| lineBits 0x10 0 1, descs := [(0, some (descLine 4096 8 64))] }
    let x : LogRecord := { party := 0, tile := 0, step := 0, micro := 0, stage := 0, lines := [.omitted] }
    let s := { fetched f with rk := { live.rk with log := [x] } }
    let c := commandAt s 0 f
    let l := f.line
    let d := descOf 0 (descLine 4096 8 64)
    Issues s 0 f ∧ (hdrOpcode l = 0x52 ∧ lbRead l = true ∧ lineReady s c.t (64 * lbSlot l) = true ∧
      (useDesc s c.t f.descs 0 (lbSlot l) { write := true, tile := some c.t }).1.toOption = some d ∧
      s.rk.log.find? (fun x => sameKey x (lbRecord s c.t l [])) = some x ∧ x.lines.length = (uniqueLines d).length ∧
      x.lines.all (fun y => y ≠ .lost) = true ∧ descReady s c.t d = true) := by
  refine ⟨issues_of rfl ?_, ?_⟩ <;> decide

/-- The hypotheses of `QueueProgress`, clause 1. -/
theorem test_QueueProgress_1 :
    let x : Inflight := { idx := 0, line := 0, task := {}, ready := true }
    let s := live.setQueue 0 { enable := true, inflight := [x] }
    inflight? (s.queue 0) 0 = some x ∧ active s = true ∧ vecRest s 0 0 = 0 ∧ canComplete s 0 x = true := by
  decide

/-- The hypotheses of `QueueProgress`, clause 2. -/
theorem test_QueueProgress_2 :
    let x : Inflight := { idx := 0, line := 0, task := {}, ready := true }
    let s := live.setQueue 0 { enable := true, inflight := [x] }
    inflight? (s.queue 0) 0 = some x ∧ active s = true ∧ x.dead = false := by
  decide

/-- The hypotheses of `QueueProgress`, clause 3. -/
theorem test_QueueProgress_3 :
    let s := queued 0
    inflight? (s.queue 0) (s.queue 0).cmd = none ∧ active s = true ∧ standing (s.queue 0) = true := by
  decide

/-- The hypotheses of `QueueProgress`, clause 4. -/
theorem test_QueueProgress_4 :
    let a : PendingAbort := { task := {}, payload := 5, index := 0 }
    let s := live.setQueue 0 { enable := true, aborts := [a] }
    quietAbort? s 0 = some a ∧ active s = true := by
  decide

/-- The hypotheses of `QueueProgress`, clause 5. -/
theorem test_QueueProgress_5 :
    let s := live.setQueue 0 { enable := true, tail := 1 }
    active s = true ∧ s.power.shutdown = 0 ∧ prefetched s 0 < 4096 ∧ nextFetch (s.queue 0) ((s.queue 0).faDepth + 1) (s.queue 0).cmd = some 0 ∧
    pausedFetch (s.queue 0) = none ∧ inScratch s 0 (ringOff (s.queue 0) 0) = true ∧
    lineReady s 0 (ringOff (s.queue 0) 0) = true ∧ (readLine s 0 (ringOff (s.queue 0) 0)).1.isSome = true := by
  decide

/-- The hypotheses of `QueueProgress`, clause 6. -/
theorem test_QueueProgress_6 :
    let s := live.setQueue 0 { enable := true, tail := 1, stallFrom := some 0, stallMs := 1 }
    (s.queue 0).stallFrom = some 0 ∧ (s.queue 0).stall = false ∧ (s.queue 0).stallMs ≠ 0 ∧ standing (s.queue 0) = true ∧ active s = true := by
  decide

/-- The hypotheses of `QueueRegisters`, clause 1. -/
theorem test_QueueRegisters_1 :
    let s := live.setParty 0 { phase := .ready }
    pageGate s boss 0 0 = true := by
  decide

/-- The hypotheses of `QueueRegisters`, clause 3. -/
theorem test_QueueRegisters_3 :
    let s := live.setParty 0 { phase := .ready }
    pageGate s boss 0 0x10 = true ∧ (s.queue 0).enable = false ∧ queueHead (s.queue 0) = (s.queue 0).tail := by
  decide

/-- The hypotheses of `QueueRegisters`, clause 4. -/
theorem test_QueueRegisters_4 :
    let s := live.setParty 0 { phase := .ready }
    pageGate s boss 0 0x14 = true ∧ ringInScratch s 0 (s.queue 0) = true ∧ bits (1 : Word).toNat 0 1 = 1 := by
  decide

/-- The hypotheses of `QueueRegisters`, clause 5. -/
theorem test_QueueRegisters_5 :
    let s := (queued 0).setParty 0 { phase := .ready }
    pageGate s boss 0 0x1C = true ∧ ((s.queue 0).open?.isSome = true ∨ ((s.queue 0).skip = none ∧ (s.queue 0).cmd ≠ (s.queue 0).tail)) := by
  decide

/-- The hypotheses of `QueueRegisters`, clause 6. -/
theorem test_QueueRegisters_6 :
    let s := live.setParty 0 { phase := .ready }
    pageGate s boss 0 0x200000 = true := by
  decide

/-- The hypotheses of `QueueRegisters`, clause 7. -/
theorem test_QueueRegisters_7 :
    let s := live.setParty 0 { phase := .ready }
    pageGate s boss 0 0x200004 = true := by
  decide

/-- The hypotheses of `QueueRegisters`, clause 8. -/
theorem test_QueueRegisters_8 :
    let s := live.setParty 0 { phase := .ready }
    pageGate s (.pf 0) 0 0x200000 = false ∧ pageGate s boss 0 0x200000 = true ∧ pageGate s boss 0 0x200004 = true := by
  decide

/-- The hypotheses of `GuideCores`, clause 1. -/
theorem test_GuideCores_1 :
    let r : GuideReq := { queue := none, core := 0, service := 1, args := [], since := 0 }
    let s := live.setTile 0 { trained := true, guide := [r] }
    served? s 0 0 = some r ∧ active s = true ∧ s.now ≤ r.since + 1000000 := by
  decide

/-- The hypotheses of `GuideCores`, clause 2. -/
theorem test_GuideCores_2 :
    let r : GuideReq := { queue := none, core := 0, service := 1, args := [], since := 0 }
    let s := live.setTile 0 { trained := true, guide := [r] }
    served? s 0 0 = some r ∧ active s = true := by
  decide

/-- The hypotheses of `GuideCores`, clause 4. -/
theorem test_GuideCores_4 :
    ownerGate live boss (tilA 0 0x5130) = true ∧ mailboxBusy live 0 = false := by
  decide

/-- The hypotheses of `MatrixEngine`, clause 1. -/
theorem test_MatrixEngine_1 :
    let p : Pass := { queue := 0, idx := 0, task := {}, line := lineBits 0x10 9 1 ||| lineBits 0x10 13 1 ||| lineBits 0x10 17 1 ||| lineBits 0x14 0 1 ||| lineBits 0x14 10 1 ||| lineBits 0x14 19 1, descs := [(0, some (descLine 4096 1 1))] }
    let s := live.setEngine 0 { passes := [p] }
    let l := p.line
    (s.engine 0).passes.find? (fun p => !p.loaded && !p.begun) = some p ∧ active s = true ∧ (s.engine 0).bus = 0 ∧
    (s.engine 0).frontIn = 0 ∧
    ∃ o, passOperand p (mpSSlot l) (mpSFmt l) (mpSNoEsc l) = some o ∧ operandReady s 0 o = true ∧ (loadValues s 0 o 0 (mpRows l * mpCols l)).1.toBool = true := by
  refine ⟨by decide, by decide, rfl, rfl, _, rfl, by decide, by decide⟩

/-- The hypotheses of `MatrixEngine`, clause 2. -/
theorem test_MatrixEngine_2 :
    let p : Pass := { queue := 0, idx := 0, task := {}, line := lineBits 0x10 9 1 ||| lineBits 0x10 13 1 ||| lineBits 0x10 17 1 ||| lineBits 0x14 0 1 ||| lineBits 0x14 10 1 ||| lineBits 0x14 19 1, descs := [(0, some (descLine 4096 1 1))] }
    let s := live.setEngine 0 { passes := [p] }
    let l := p.line
    (s.engine 0).passes.find? (fun p => !drainOnly p.line && p.rows.length < mpInputs p.line) = some p ∧ active s = true ∧
    ∃ o, passOperand p (mpMSlot l) (mpMFmt l) (mpMNoEsc l) = some o ∧ operandReady s 0 o = true ∧ (loadValues s 0 o 0 (1 * mpSegment l)).1.toBool = true := by
  refine ⟨by decide, by decide, _, rfl, by decide, by decide⟩

/-- A KF8 pass of one vector, one row and one column, with its input row there. -/
def smallPass : Pass :=
  { queue := 0, idx := 0, task := {}, line := lineBits 0x10 3 1 ||| lineBits 0x10 9 2 ||| lineBits 0x10 13 2 |||
      lineBits 0x10 17 1 ||| lineBits 0x14 0 1 ||| lineBits 0x14 10 1 ||| lineBits 0x14 19 1,
    admitted := true, loaded := true, rows := [[]] }

/-- The hypotheses of `MatrixEngine`, clause 3. -/
theorem test_MatrixEngine_3 :
    let s := live.setEngine 0 { passes := [smallPass], ramp := .run, limit := 64 }
    let s' := live.setEngine 0 { passes := [smallPass] }
    active s = true ∧ slotOf ((passCycles s 0 0 0).engine 0) = .first smallPass ∧
    mayBroadcast ((passCycles s 0 0 0).engine 0) = true ∧ active s' = true ∧
    slotOf ((passCycles s' 0 0 1).engine 0) = .first smallPass ∧ mayBroadcast ((passCycles s' 0 0 1).engine 0) = false := by
  decide

/-- The hypotheses of `MatrixEngine`, clause 4. -/
theorem test_MatrixEngine_4 :
    let p : Pass := { smallPass with begun := true, sent := 1 }
    let s := live.setEngine 0 { passes := [p] }
    active s = true ∧ arrivingPass ((passCycles s 0 0 0).engine 0) = some p := by
  decide

/-- The hypotheses of `MatrixEngine`, clause 5. -/
theorem test_MatrixEngine_5 :
    let p : Pass := { smallPass with begun := true }
    let x : Engine := { passes := [p], ramp := .run, limit := 64 }
    let s := live.setEngine 0 x
    active s = true ∧ slotOf (s.engine 0) = .vector p ∧ mayBroadcast (s.engine 0) = true ∧ mpMFmt p.line ≠ 1 := by
  decide

/-- The hypotheses of `MatrixEngine`, clause 6. -/
theorem test_MatrixEngine_6 :
    let p : Pass := { queue := 0, idx := 0, task := {}, line := lineBits 0x14 0 1, begun := true, admitted := true, done := 1 }
    let s := live.setEngine 0 { passes := [p] }
    (s.engine 0).passes.find? passOver = some p ∧ active s = true := by
  decide

/-- The hypotheses of `MatrixEngine`, clause 7. -/
theorem test_MatrixEngine_7 :
    let s := live.setEngine 0 { ramp := .hold, limit := 8, idleRun := 255 }
    let s' := live.setEngine 0 { ramp := .fall, limit := 8, rampRun := 0x3FFE }
    let s'' := live.setEngine 0 { ramp := .rise, limit := 8, rampRun := 0x3FFE }
    panelRuns live = true ∧ (s.engine 0).idleRun < (enginePace s 0 0).window ∧
    (s'.engine 0).rampRun < (enginePace s' 0 0).step ∧ (s''.engine 0).limit < 64 ∧
    (s''.engine 0).idleRun + ((enginePace s'' 0 0).step - (s''.engine 0).rampRun) < (enginePace s'' 0 0).window := by
  decide

/-- The hypotheses of `MatrixEngine`, clause 8. -/
theorem test_MatrixEngine_8 :
    let s := live.setTile 0 { vecRamp := { ramp := .hold, idleRun := 255 } }
    let s' := live.setTile 0 { vecRamp := { ramp := .fall, rampRun := 7 } }
    panelRuns live = true ∧ (s.tile 0).vecRamp.idleRun < (vectorPace s 0).window ∧
    (s'.tile 0).vecRamp.rampRun < (vectorPace s' 0).step := by
  decide

/-- The hypotheses of `MatrixEngine`, clause 9. -/
theorem test_MatrixEngine_9 :
    ownerGate live boss (tilA 0 0x2400) = true := by
  decide

/-- The hypotheses of `BanksAndDrains`, clause 1. -/
theorem test_BanksAndDrains_1 :
    let s := live.setBank 0 { state := .fill }
    let p : Pass := { smallPass with sent := 1, done := 1 }
    let s' := (live.setBank 0 { state := .fill, latestDrain := true, admitted := [(0, 0)] }).setEngine 0 { passes := [p] }
    (s.bank 0).state = .fill ∧ active s = true ∧ fillOver s 0 = true ∧ (s.bank 0).latestDrain = false ∧
    fillOver s' 0 = true ∧ (s'.bank 0).admitted.getLast? = some (0, 0) ∧ passOf s' (bankEngine 0) 0 0 = some p := by
  decide

/-- The hypotheses of `BanksAndDrains`, clause 2. -/
theorem test_BanksAndDrains_2 :
    let r : DrainReq := { bank := 0, queue := 0, idx := 0 }
    let s := (live.setDrain 0 { requests := [r] }).setBank 0 { state := .drainWait }
    let s' := s.setBank 0 { state := .drainWait, extent := some { lo := 0, hi := 1, width := 1 } }
    let s'' := (live.setDrain 0 { requests := [{ r with empty := true }] }).setBank 0 { state := .fill }
    (s.drain 0).current = none ∧ (s.drain 0).requests = [r] ∧ (s.bank 0).state = .drainWait ∧ active s = true ∧
    (s.bank 0).extent = none ∧ (s'.bank 0).extent.isSome = true ∧ (s'.bank 0).state = .drainWait ∧
    (s''.bank 0).state ≠ .zero ∧ (s''.bank 0).state ≠ .drainWait := by
  decide

/-- The hypotheses of `BanksAndDrains`, clause 3. -/
theorem test_BanksAndDrains_3 :
    let p : Pass := { queue := 0, idx := 0, task := {}, line := 0 }
    let s := ((live.setDrain 0 { current := some { bank := 0, queue := 0, idx := 0 } }).setBank 0 { state := .drain, extent := some { lo := 0, hi := 1, width := 1 } }).setEngine 0 { passes := [p] }
    let k := s.bank 0
    let x : Extent := { lo := 0, hi := 1, width := 1 }
    let rows := extentRows k x
    let words := rows.foldl (fun ws r => (List.range (drainWidth k.trans x)).foldl (fun ws c =>
      mset 0 ws (bankWord k.trans r.1 c) 0) ws) k.words
    let emptied := s.setBank 0 { k with words := words, extent := none, state := .idle }
    (s.drain 0).current = some { bank := 0, queue := 0, idx := 0 } ∧ passOf s 0 0 0 = some p ∧ k.extent = some x ∧ active s = true ∧ drainReady s 0 p = true ∧ (drainWrites emptied 0 p rows).1 = none := by
  decide

/-- The hypotheses of `BanksAndDrains`, clause 4. -/
theorem test_BanksAndDrains_4 :
    let p : Pass := { queue := 0, idx := 0, task := {}, line := 0 }
    let s := (live.setDrain 0 { ending := [({ bank := 0, queue := 0, idx := 0 }, 1)] }).setEngine 0 { passes := [p] }
    (s.drain 0).ending = [({ bank := 0, queue := 0, idx := 0 }, 1)] ∧ active s = true ∧ passOf s 0 0 0 = some p := by
  decide

/-- The hypotheses of `BanksAndDrains`, clause 5. -/
theorem test_BanksAndDrains_5 :
    (live.bank 0).state = .zero ∧ active live = true := by
  decide

/-- The hypotheses of `Taster`, clause 1. -/
theorem test_Taster_1 :
    let st : Stationary := { tag := 0, fmt := 1, rows := 1, cols := 1, elems := [[.fin false 0 0]] }
    let p : Pass := { queue := 0, idx := 0, task := {}, line := lineBits 0x10 9 1 ||| lineBits 0x10 13 1 ||| lineBits 0x10 17 1 ||| lineBits 0x14 0 1 ||| lineBits 0x14 10 1 ||| lineBits 0x14 19 1, descs := [(0, some (descLine 4096 1 1)), (3, some (descLine 4096 1 1))] }
    let k : Sample := { engine := 0, bank := 0, queue := 0, idx := 0, order := 0, vector := 0, watch := 0, sums := [], stat := some st }
    let s := (live.setTile 0 { trained := true, samples := [k] }).setEngine 0 { passes := [p] }
    (s.tile 0).samples = [k] ∧ active s = true ∧ passOf s 0 0 0 = some p ∧ (recompute s 0 p k).1.isSome = true := by
  decide

/-- The hypotheses of `Taster`, clause 2. -/
theorem test_Taster_2 :
    let r : TasterResult := { engine := 0, bank := 0, queue := 0, idx := 0, watch := 0, sums := [], refs := [], decoded := false }
    let s := live.setTile 0 { trained := true, results := [r] }
    (s.tile 0).results = [r] ∧ active s = true := by
  decide

/-- The hypotheses of `Taster`, clause 3. -/
theorem test_Taster_3 :
    ownerGate live boss (watchA 0 255 4) = true := by
  decide

/-- The hypotheses of `Taster`, clause 4. -/
theorem test_Taster_4 :
    ownerGate live boss (tilA 0 0x2C04) = true := by
  decide

/-- The hypotheses of `TileStores`, clause 1. -/
theorem test_TileStores_1 :
    ∀ x ∈ ([(0, 1), (64, 2)] : List (Nat × Line)), x.1 % 64 = 0 := by
  decide

/-- The hypotheses of `TileStores`, clause 2. -/
theorem test_TileStores_2 :
    let f : Fetched := { line := 0x05#512 ||| lineBits 0x14 0 1, descs := [(0, some (descLine 4096 8 64))] }
    let s := fetched f
    Issues s 0 f ∧ (hdrOpcode f.line = 0x05 ∧ (useDesc s 0 f.descs 0 (rcDst f.line) { write := true, kinds := [kindByte], tile := some 0, count := some (64 * rcLines f.line) }).1.toBool = true) := by
  refine ⟨issues_of rfl ?_, ?_⟩ <;> decide

/-- The hypotheses of `HamperMemory`, clause 1. -/
theorem test_HamperMemory_1 :
    let r : HamperReq := { source := .unit, offset := 0x100000000, lines := 1, kind := .write [5] }
    let s := live.setChannel 0 { waiting := [r] }
    let q : HamperReq := { source := .unit, offset := 0x100000000, lines := 1, kind := .read .normal }
    let u := live.setChannel 0 { waiting := [q] }
    active s = true ∧ nextRequest (s.channel 0) = some r ∧ r.offset % 64 = 0 ∧
      s.fabric.stalled = [] ∧ (runOffsets r.offset r.lines).all inHamper = true ∧
      (runOffsets r.offset r.lines).all (frontPassed s 0) = true ∧ active u = true ∧
      nextRequest (u.channel 0) = some q ∧ u.safe.active = false ∧
      [4].take ((q.offset % 128 / 64 + q.lines + 1) / 2) = [4] := by
  decide

/-- The hypotheses of `HamperMemory`, clause 2. -/
theorem test_HamperMemory_2 :
    let r : HamperReq := { source := .move, offset := 0x100000000, lines := 1, kind := .read .normal }
    let s := live.setChannel 0 { waiting := [r] }
    (s.channel 0).waiting.find? (fun r => reqClass r ≠ 0 && !r.aged) = some r := by
  decide

/-- The hypotheses of `HamperMemory`, clause 3. -/
theorem test_HamperMemory_3 :
    active live = true ∧ hamperZeroes (live.tile 0).zero = false ∧ basketZeroes (live.tile 0).zero = false := by
  decide

/-- The hypotheses of `HamperMemory`, clause 4. -/
theorem test_HamperMemory_4 :
    let s := live.setTile 0 { trained := true, zero := { active := true } }
    (s.tile 0).zero.active = true ∧ s.power.pwrgd = true := by
  decide

/-- The hypotheses of `HamperMemory`, clause 5. -/
theorem test_HamperMemory_5 :
    let x : Nat × Packet := (0, { ty := tySignal })
    let s : State := { live with fabric := { live.fabric with stalled := [x] } }
    linksAlive s = true ∧ s.fabric.stalled = [x] ∧ linesReady s 0 (packetLines x.2) = true := by
  decide

/-- The hypotheses of `HamperMemory`, clause 6. -/
theorem test_HamperMemory_6 :
    ownerGate live boss (tilA 0 0x3004) = true := by
  decide

/-- The hypotheses of `HamperMemory`, clause 7. -/
theorem test_HamperMemory_7 :
    ownerGate live boss (tilA 0 0x3010) = true ∧ ownerGate live boss (tilA 0 0x305C) = true := by
  decide

/-- The hypotheses of `Moves`, clause 1. -/
theorem test_Moves_1 :
    let j : MoveJob := { queue := 0, idx := 0, line := 0x30#512 ||| lineBits 0x20 0 1, src := descLine 4096 8 64, dst := descLine 8192 8 64 }
    let s := live.setMover 0 (some j)
    s.mover 0 = some j ∧ active s = true ∧ jobOpen j = true ∧ mvXchg j.line = false ∧ chunkWritable s 0 j (jobPlan j) = true ∧ (chunkLines s 0 j (jobPlan j)).isSome = true := by
  decide

/-- The hypotheses of `Moves`, clause 2. -/
theorem test_Moves_2 :
    let d := fun b => lineBits 0 0 b ||| lineBits 4 8 8 ||| lineBits 8 0 64 ||| lineBits 0xC 0 32 ||| lineBits 0x10 0 1 ||| lineBits 0x14 0 1 ||| lineBits 0x18 0 64
    let j : MoveJob := { queue := 0, idx := 0, line := 0x31#512 ||| lineBits 0x20 0 1 ||| lineBits 0x10 2 1, src := d 4096, dst := d 8192 }
    let s := live.setMover 0 (some j)
    active s = true ∧ ((List.range 4).map (fun i => ((s.tile 0).lastMover + 1 + i) % 4)).find? (blockReady s 0) = some 0 ∧ s.mover (4 * 0 + 0) = some j ∧ ∃ got u, chunkLines s 0 j (jobPlan j) = some (got, u) ∧ got.all (·.isSome) = true := by
  refine ⟨by decide, by decide, by decide, _, _, rfl, by decide⟩

/-- The hypotheses of `RequestPackets`, clause 1. -/
theorem test_RequestPackets_1 :
    ∀ c ∈ [tyWrite, tyWriteAcc, tyReadReq, tySignal],
      let p : Packet := { ty := c, addr := 0x100000000, payload := if c = tyWrite ∨ c = tyWriteAcc then [0] else [], flits := if c = tyWrite ∨ c = tyWriteAcc then 1 else 0, aux := 1 }
      let s : State := { live.setParty 0 { phase := .ready } with fabric := { live.fabric with held := [{ pkt := p, tile := 0, port := 7, vc0 := 0, since := 0, branches := [{ out := 7 }] }] } }
      (taken s (.tile 0) c).any (fun x => tileVerdict x.2 0 x.1 = .accept && !packetStalls x.2 0 x.2.fabric.stalled x.1) = true := by
  decide

/-- The hypotheses of `RequestPackets`, clause 1, at a host bridge and at a guest. -/
theorem test_RequestPackets_1_others :
    let s := live.setParty 0 { phase := .ready }
    (∀ c ∈ [tyWrite, tyReadReq],
      let p : Packet := { ty := c, payload := if c = tyWrite then [0] else [], flits := if c = tyWrite then 1 else 0, aux := 1, dstKind := 1 }
      let u : State := { s with panel := { s.panel with strands := [(160, { phase := .active })] }, fabric := { s.fabric with held := [{ pkt := p, tile := 0, port := 4, vc0 := 0, since := 0, branches := [{ out := 8 }] }] } }
      (taken u (.bridge 0) c).any (fun x => bridgeVerdict x.2 0 x.1 = .accept) = true) := by
  decide

/-- A tile that takes one answer at its own port, with one packet unanswered. -/
def answering (p : Packet) (o : Outstanding) : State :=
  { live with fabric := { live.fabric with sent := [o], held := [{ pkt := p, tile := 0, port := 7, vc0 := 0, since := 0, branches := [{ out := 7 }] }] } }

/-- An unanswered packet of tile 0. -/
def unanswered (ty : Nat) : Outstanding :=
  { src := .tile 0, tag := 3, conn := 0, seq := 0, sent := 0, remain := 1, purpose := .other, pkt := { ty } }

/-- The hypotheses of `AnswerPackets`, clause 1. -/
theorem test_AnswerPackets_1 :
    let p : Packet := { ty := tyAck, tag := 3 }
    let o := unanswered tyWrite
    (taken (answering p o) (.tile 0) tyAck).any (fun x =>
      let v := countAt x.2 (.tile 0) 0x6048 true
      x.1.mcast = 0 && currentAnswer v (.tile 0) x.1 && (v.fabric.sent = [o]) && (o.seq % 65536 = x.1.aux) && o.tag = x.1.tag) = true ∧
    o.src = .tile 0 ∧ o.pkt.ty ≠ tyReadReq := by
  decide

/-- The hypotheses of `AnswerPackets`, clauses 2 and 3. -/
theorem test_AnswerPackets_2 :
    ∀ c ∈ [(tyNack, tyWrite), (tyReadResp, tyReadReq)],
      let p : Packet := { ty := c.1, tag := 3, payload := if c.1 = tyReadResp then [0] else [], flits := if c.1 = tyReadResp then 1 else 0 }
      let o := unanswered c.2
      (taken (answering p o) (.tile 0) c.1).any (fun x =>
        let v := countAt x.2 (.tile 0) 0x6048 true
        !badEncoding (.tile 0) x.1 && currentAnswer v (.tile 0) x.1 && (sentBy? v (.tile 0) x.1 = some o)) = true := by
  decide

/-- The hypotheses of `AnswerPackets`, clause 5. -/
theorem test_AnswerPackets_5 :
    let s : State := { live with fabric := { live.fabric with sent := [unanswered tyReadReq] } }
    s.fabric.sent.find? (fun o => o.src = .tile 0) = some (unanswered tyReadReq) ∧ active s = true := by
  decide

/-- The hypotheses of `AnswerPackets`, clause 6. -/
theorem test_AnswerPackets_6 :
    let c : Conn := { src := .tile 0, key := 7 }
    let s : State := { live with fabric := { live.fabric with conns := [c] } }
    conn? s (.tile 0) 7 = some c ∧ ccField s (.tile 0) 30 1 = 1 := by
  decide

/-- A packet that waits at tile 9 for its southern neighbour, over the strand between them. -/
def crossing : State :=
  { live with panel := { live.panel with strands := [(2, { phase := .active })] },
              fabric := { live.fabric with held := [{ pkt := { ty := tyWrite }, tile := 9, port := 7, vc0 := 0, since := 0, branches := [{ out := 0 }] }] } }

/-- The hypotheses of `Routers`, clause 1. -/
theorem test_Routers_1 :
    linksAlive crossing = true ∧ flight crossing 1 2 = [] ∧ (meshStrand 1 2).any (fun x => strandUp crossing x.1) = true ∧
    (nextMesh crossing 1 2).isSome = true := by
  decide

/-- A packet that waits at the anchor tile of guest 2, which has credits for it. -/
def calling : State :=
  let g : Guest := { mainband := true, answer := [0, 40 <<< 16] }
  { live with panel := { live.panel with guests := mset {} live.panel.guests 2 g },
              fabric := { live.fabric with held := [{ pkt := { ty := tyWrite, dstKind := 2 }, tile := 56, port := 7, vc0 := 0, since := 0, branches := [{ out := 8 }] }] } }

/-- The hypotheses of `Routers`, clauses 2 and 4, at the anchor tile of a guest. -/
theorem test_Routers_2 :
    linksAlive calling = true ∧ (attachments (siteOf calling 56))[2]? = some (.guest 2) ∧
    (calling.guest 2).mainband = true ∧
    (nextAttached calling 56 6 (.guest 2)).any (fun c => c.branch.out = 8) = true := by
  decide

/-- A packet that waits at tile 0 for a lit bundle of the lantern there. -/
def outbound : State :=
  let s := (live.setBundle 0 31 { entry := 1 }).setLink (bundleLink 0 31 0) { up := true }
  let s := s.setStrand (mkLanternStrand 0 0) { phase := .active }
  { s with fabric := { s.fabric with held := [{ pkt := { ty := tyWrite }, tile := 0, port := 7, vc0 := 0, since := 0, branches := [{ out := 16 }] }] } }

set_option maxRecDepth 10000 in
/-- The hypotheses of `Routers`, clause 2, at a lantern. -/
theorem test_Routers_2_lantern :
    linksAlive outbound = true ∧ (attachments (siteOf outbound 0))[0]? = some (.lantern 0 0) ∧
    (nextAttached outbound 0 4 (.lantern 0 0)).any (fun c => c.branch.out = 16 &&
      (linkFor outbound 0 c.held.pkt).any (fun x => strandClear outbound 0 x.1)) = true := by
  decide

/-- The hypotheses of `Routers`, clause 3. -/
theorem test_Routers_3 :
    linksAlive live = true ∧ (attachments (siteOf live 0))[3]? = none := by
  decide

/-- The hypotheses of `Routers`, clause 5. -/
theorem test_Routers_5 :
    let h : Held := { pkt := { ty := tyWrite }, tile := 0, port := 7, vc0 := 0, since := 0, branches := [{ out := 1 }] }
    let s : State := { live with fabric := { live.fabric with held := [h] } }
    headOf s 0 7 0 = some h ∧ (∀ b ∈ h.branches, b.esc = false ∧ outputRoom s ⟨h, b⟩ = false) ∧ linksAlive s = true := by
  decide

/-- The hypotheses of `Routers`, clause 6. -/
theorem test_Routers_6 :
    linksAlive live = true ∧ (∀ h ∈ live.fabric.held, h.tile = 0 → packetAge live h.pkt ≤ lifetime live 0) := by
  decide

/-- The hypotheses of `Routers`, clause 7. -/
theorem test_Routers_7 :
    let h : Held := { pkt := { ty := tyWrite, birth := 1 }, tile := 0, port := 7, vc0 := 0, since := 0, branches := [{ out := 1 }] }
    let s : State := { live with fabric := { live.fabric with held := [h] } }
    linksAlive s = true ∧ s.fabric.held = [h] ∧ lifetime s 0 < packetAge s h.pkt := by
  decide

/-- The hypotheses of `Routers`, clause 8. -/
theorem test_Routers_8 :
    ownerGate live boss (tilA 0 0x600C) = true := by
  decide

/-- The hypotheses of `LinksBetweenModules`, clauses 1, 3 and 4. -/
theorem test_LinksBetweenModules_1 :
    let s := live.setLink (.copper 0) { up := true }
    linksAlive s = true ∧ (s.link (.copper 0)).up = true ∧ inSlot s (.copper 0) = true ∧ lastStamp s (.copper 0) = none ∧
    (s.link (.copper 0)).fails < 8 ∧ seenFrame s (.copper 0) (2 ^ 20 - 1) = true ∧ seenFrame s (.copper 0) 1 = false := by
  decide

/-- The hypotheses of `LinksBetweenModules`, clauses 4 and 6. -/
theorem test_LinksBetweenModules_4 :
    let s := live.setLink (.copper 0) { up := true, fails := 8 }
    (s.link (.copper 0)).fails = 8 ∧ (live.link (.copper 0)).up = false := by
  decide

/-- The hypotheses of `Collectives`, clause 1: equal digests, digests that differ, words, and a failure. -/
theorem test_Collectives_1 :
    let c : Coll := { queue := 0, idx := 0, line := lineBits 0x10 0 6, task := {}, seq := 0, phase := .open }
    let o : RcOp := { party := 0, op := 0, team := 0, seq := 0, result := some (.round 1 1 0) }
    let st : RcOp → State := fun o => { live.setColl 0 { running := some c } with rc := { live.rc with ops := [o] } }
    let s := st o
    runningIn s 0 .open = some c ∧ s.rc.ops.find? (sameOp (collRcOp s 0 c)) = some o ∧ active s = true ∧ 0 ∉ o.told ∧
    o.failed = false ∧ collOp c.line = 6 ∧
    (st { o with failed := true }).rc.ops.find? (sameOp (collRcOp s 0 c)) = some { o with failed := true } ∧
    (st { o with result := some (.round 1 2 0) }).rc.ops.find? (sameOp (collRcOp s 0 c))
      = some { o with result := some (.round 1 2 0) } := by
  decide

/-- The hypotheses of `Collectives`, clause 1, of a roll-call collective. -/
theorem test_Collectives_1_words :
    let c : Coll := { queue := 0, idx := 0, line := lineBits 0x10 12 1, task := {}, seq := 0, phase := .open }
    let o : RcOp := { party := 0, op := 2, team := 0, seq := 0, result := some (.words [5]) }
    let s : State := { live.setColl 0 { running := some c } with rc := { live.rc with ops := [o] } }
    runningIn s 0 .open = some c ∧ s.rc.ops.find? (sameOp (collRcOp s 0 c)) = some o ∧
    descReady s 0 (collDst c) = true ∧ collOp c.line < 6 := by
  decide

/-- The hypotheses of `Collectives`, clause 2: a chunk with an exchange ahead, one past its last, and one to enter. -/
theorem test_Collectives_2 :
    let x : Chunk := { index := 0, entered := true }
    let c : Coll := { queue := 0, idx := 0, line := 0, task := {}, seq := 0, phase := .data, chunks := [x] }
    let c' : Coll := { queue := 0, idx := 0, line := 0, task := {}, seq := 0, phase := .data, src := descLine 4096 8 64 }
    let s := live.setColl 0 { running := some c }
    let two := (live.setColl 0 { running := some c }).setReg (teamA 0 0 0) 3
    active s = true ∧ runningIn s 0 .data = some c ∧ (chunk? c 0).filter (·.entered) = some x ∧
    (exchangesOf (collOp c.line) (collShapeOf two 0 c))[0]? = some { axis := 0, step := 0, gather := false } ∧
    exchangeReady two 0 c 0 = true ∧ (exchangesOf (collOp c.line) (collShapeOf s 0 c))[0]? = none ∧
    (chunk? c' 0).filter (·.entered) = none ∧ 0 = c'.nextChunk ∧ 0 < chunkTotal c' ∧
    slotsUsed c' < collSlots c'.line ∧ chunkSlotFree c' 0 = true := by
  decide

/-- The exchanges of an ALL_REDUCE over five panel ranks: at step 2 rank 0 and rank 4 exchange, rank 4 stands in for the
absent ranks 5 to 7, and every rank has each part in the end (R361, R364). -/
theorem test_exchange_partners :
    let w : TeamShape := { p := 5, x := 1, y := 1, z := 1 }
    (exchangesOf 0 w).length = 6 ∧
    exchangeSource 0 w 0 { axis := 0, step := 2, gather := false } 0 0 = some 4 ∧
    exchangeSource 0 w 0 { axis := 0, step := 2, gather := false } 1 1 = some 4 ∧
    exchangeSource 0 w 0 { axis := 0, step := 0, gather := false } 4 4 = none ∧
    exchangeDests 0 w 0 { axis := 0, step := 2, gather := true } 4 4 = [0, 1, 2, 3] := by
  decide

/-- The hypotheses of `Collectives`, clause 3. -/
theorem test_Collectives_3 :
    let c : Coll := { queue := 0, idx := 0, line := lineBits 0x10 0 4, task := {}, seq := 0, phase := .direct }
    let s := (live.setColl 0 { running := some c }).setReg (teamA 0 0 0) 1
    active s = true ∧ runningIn s 0 .data = none ∧ runningIn s 0 .direct = some c ∧ c.nextChunk < collN s 0 c := by
  decide

/-- The hypotheses of `Collectives`, clause 4. -/
theorem test_Collectives_4 :
    let c : Coll := { queue := 0, idx := 0, line := 0, task := {}, seq := 0, phase := .data }
    let s := live.setColl 0 { running := some c }
    (s.coll 0).running = some c ∧ active s = true ∧ c.phase ≠ .held := by
  decide

/-- The hypotheses of `Collectives`, clause 5. -/
theorem test_Collectives_5 :
    let s := live.setColl 0 { holdoff := [(3, some 18000000)] }
    mget none (s.coll 0).holdoff 3 = some 18000000 ∧ active s = true := by
  decide

/-- A good message of party 0, and a port or link that is open to module 7. -/
def goodRoll (kind : Nat) : RcMessage := sealRoll { rcMessage 0 0 0 0 with kind, stage := 1 }
def openCopper : State := live.setCopper 12 { phase := .active }

/-- The hypotheses of `RollCall`, clause 1: the buddy link is the way to module 7. -/
theorem test_RollCall_1 :
    let f : Section := { ty := 5, inst := 0, body := [4, 7] }
    let s := { openCopper with itin := { live.itin with force := [f] } }
    wayTo s (nextModule s 7) = some (.copper 12) := by
  decide

/-- The hypotheses of `RollCall`, clause 2. -/
theorem test_RollCall_2 :
    linksAlive openCopper = true ∧ wayOpen openCopper (.copper 12) = true ∧ 0 = myModule openCopper ∧
    badMessage openCopper (goodRoll 0) = false ∧ badMessage openCopper { goodRoll 0 with crc := 0 } = true := by
  decide

/-- The hypotheses of `RollCall`, clause 3. -/
theorem test_RollCall_3 :
    linksAlive openCopper = true ∧ badMessage openCopper (goodRoll 2) = false ∧
    wayOpen openCopper (.copper 12) = true := by
  decide

/-- The hypotheses of `RollCall`, clause 4. -/
theorem test_RollCall_4 :
    let u : RcUnacked := { msg := goodRoll 2, dest := 7, due := 5, repeats := 2 }
    let s : State := { live with rc := { live.rc with unacked := [u] } }
    s.rc.unacked = [u] ∧ linksAlive s = true ∧ u.repeats < 3 ∧ u.msg.kind < 4 := by
  decide

/-- The hypotheses of `Fences`, clause 1. -/
theorem test_Fences_1 :
    let f : OpenFence := { queue := 0, idx := 0, next := 0, scope := 1, map := false, vote := false, seq := 0, arrival := 0, result := some (some (9, false)) }
    let s := live.setTile 0 { trained := true, fence := some f }
    (s.tile 0).fence = some f ∧ active s = true ∧ f.instant = none ∧ f.result = some (some (9, false)) ∧ f.map = false := by
  decide

/-- The hypotheses of `Fences`, clause 2. -/
theorem test_Fences_2 :
    let f : OpenFence := { queue := 0, idx := 0, next := 0, scope := 1, map := false, vote := false, seq := 0, arrival := 0 }
    f.map = false ∧ f.vote = false ∧ live.time ≤ 9 + fenceLead live f.scope ∧
    (let late : State := { live with time := 2 ^ 40 }
     9 + fenceLead late f.scope < late.time) ∧ phaseDefined live.itin.force 5 = false := by
  decide

/-- The hypotheses of `Fences`, clause 3. -/
theorem test_Fences_3 :
    let f : OpenFence := { queue := 0, idx := 0, next := 0, scope := 1, map := false, vote := false, seq := 0, arrival := 0, instant := some 9 }
    let s := live.setTile 0 { trained := true, fence := some f }
    (s.tile 0).fence = some f ∧ f.instant = some 9 ∧ active s = true := by
  decide

/-- The hypotheses of `Timetable`, clauses 1, 4, 5 and 6. -/
theorem test_Timetable_1 :
    let s : State := { openCopper.setReg 0x7018 1 with itin := { live.itin with folded := true } }
    let locked : State := { s with rc := { s.rc with servo := { s.rc.servo with state := .locked } } }
    panelRuns s = true ∧ wayOpen s (.copper 12) = true ∧ isTimeRoot s = false ∧ s.itin.folded = true ∧
    s.rc.servo.state = .unlocked ∧ locked.rc.servo.state = .locked ∧ (upstreams locked).length = 1 ∧
    (acceptRoll s 7 (timeMessage s 5 (.stamps 1 2))).rc.servo.reqSent = none := by
  decide

/-- The hypotheses of `Timetable`, clause 3. -/
theorem test_Timetable_3 :
    let s : State := { openCopper.setReg 0x7018 1 with rc := { live.rc with servo := { live.rc.servo with reqSent := some 5 } } }
    let u := acceptRoll s (upstream s) (timeMessage s 5 (.stamps 1 2))
    panelRuns s = true ∧ wayOpen s (.copper 12) = true ∧ u.rc.servo.reqSent = some 5 ∧ isTimeRoot u = false ∧
    upstream u = upstream s := by
  decide

/-- The hypotheses of `Timetable`, clauses 7, 8 and 9. -/
theorem test_Timetable_8 :
    let done : State := { live with itin := { live.itin with folded := true } }
    ownerGate live boss 0x7024 = true ∧ isTimeRoot live = true ∧ live.itin.folded = false ∧ panelRuns live = true ∧
    ownerGate done boss 0x7024 = true ∧ done.itin.folded = true := by
  decide

/-- The hypotheses of `LanternStart`, clause 1. -/
theorem test_LanternStart_1 :
    let s : State := { live with power := { live.power with firstFold := some 5 } }
    s.power.firstFold = some 5 ∧ panelRuns s = true ∧ (s.lantern 7).started = false := by
  decide

/-- The hypotheses of `LanternStart`, clause 2. -/
theorem test_LanternStart_2 :
    let s := live.setLantern 0 { trimming := [(3, some 4)] }
    mget none (s.lantern 0).trimming 3 = some 4 ∧ panelRuns s = true := by
  decide

/-- The hypotheses of `LanternStart`, clause 3. -/
theorem test_LanternStart_3 :
    ownerGate live boss (lanA 7 0x28) = true := by
  decide

/-- The hypotheses of `LanternStart`, clause 4. -/
theorem test_LanternStart_4 :
    let x : Lantern := { calDone := true, trim := 8 }
    let s := live.setLantern 0 x
    bits x.trim 3 1 = 1 ∧ bits x.faulty 3 1 = 0 ∧ (s.lantern 0) = x ∧ mget none x.trimming 3 = none := by
  decide

/-- The hypotheses of `LanternStart`, clause 5. -/
theorem test_LanternStart_5 :
    let s := (live.setLantern 0 { trim := 0 }).setBundle 0 31 { entry := 1 }
    panelRuns s = true ∧ inTrim s 0 (planeOf 31) = false := by
  decide

/-- The hypotheses of `LanternStart`, clause 6. -/
theorem test_LanternStart_6 :
    inTrim live 7 3 = true := by
  decide

/-- The hypotheses of `LanternStart`, clause 7. -/
theorem test_LanternStart_7 :
    driftPm (foldLan live 7) 7 ≤ 200 := by
  decide

/-- The hypotheses of `LanternStart`, clause 8. -/
theorem test_LanternStart_8 :
    ownerGate live boss (lanA 7 0x24) = true := by
  decide

/-- The hypotheses of `Bundles`, clause 1. -/
theorem test_Bundles_1 :
    let mv : StileMove := { entry := 0, phase := 3, instant := 0 }
    let s := live.setBundle 0 31 { move := some mv }
    (s.bundle 0 31).move = some mv ∧ panelRuns s = true ∧ bundleDrained s 0 31 = true := by
  decide

/-- The hypotheses of `Bundles`, clause 2. -/
theorem test_Bundles_2 :
    let s := (live.setBundle 0 31 { movedAt := some 3 }).setLink (bundleLink 0 31 0) { up := true }
    (s.bundle 0 31).movedAt = some 3 ∧ panelRuns s = true ∧ (s.link (bundleLink 0 31 (nowPos (s.bundle 0 31)))).up = true := by
  decide

/-- The hypotheses of `Bundles`, clause 3. -/
theorem test_Bundles_3 :
    let s := live.setLink (.copper 12) { draining := true, peerMark := true, markAcked := true }
    let s' := s.setCopper 12 { newEntry := some (1, 9) }
    (s.link (.copper 12)).draining = true ∧ (s.link (.copper 12)).retry = [] ∧ panelRuns s = true ∧
    (s.copperPort 12).newEntry = none ∧ (s'.copperPort 12).newEntry = some (1, 9) ∧
    ((live.setLink (bundleLink 0 31 0) { draining := true }).link (bundleLink 0 31 0)).draining = true := by
  decide

/-- The hypotheses of `Bundles`, clause 4. -/
theorem test_Bundles_4 :
    let e : BitVec 64 := BitVec.ofNat 64 (2 + 4)
    let s := live.setBundle 0 31 { entry := e, renew := some 9 }
    panelRuns live = true ∧ entryMode e = 2 ∧ (s.bundle 0 31).renew = some 9 ∧
    9 ≤ (s.bundle 0 31).origin + ((s.bundle 0 31).slot + 1) * 10 := by
  decide

/-- The hypotheses of `Bundles`, clause 5. -/
theorem test_Bundles_5 :
    let s := (live.setBundle 0 31 { movedAt := some 3 }).setLink (bundleLink 0 31 0) { up := true }
    let x := s.link (bundleLink 0 31 (nowPos (s.bundle 0 31)))
    (s.bundle 0 31).movedAt = some 3 ∧ panelRuns s = true ∧ x.up = true ∧ slotEndsFirst s (s.bundle 0 31) x 3 = false := by
  decide

/-- The hypotheses of `RingTuning`, clause 1. -/
theorem test_RingTuning_1 :
    live.power.pwrgd = true := by
  decide

/-- The hypotheses of `RingTuning`, clause 2. -/
theorem test_RingTuning_2 :
    urgentPm live 0 = 80 := by
  decide

/-- The hypotheses of `RingTuning`, clause 3. -/
theorem test_RingTuning_3 :
    let s := live.setBundle 0 31 { entry := 1 }
    panelRuns s = true ∧ (s.bundle 0 31).entry ≠ 0 := by
  decide

/-- The hypotheses of `RingTuning`, clause 4. -/
theorem test_RingTuning_4 :
    let s := (live.setLantern 0 { calDone := true }).setBundle 0 31 { pending := some 4, parked := some 2 }
    pendingSince s 0 31 = some 4 ∧ (s.bundle 0 31).parked = some 2 ∧ panelRuns s = true ∧ (s.lantern 0).calDone = true ∧ (s.bundle 0 31).calibrating = none ∧ (s.bundle 0 31).move = none := by
  decide

/-- The hypotheses of `RingTuning`, clause 5. -/
theorem test_RingTuning_5 :
    let s := (live.setLantern 0 { calDone := true }).setBundle 0 31 { calibrating := some 4 }
    panelRuns s = true ∧ (s.bundle 0 31).calibrating.isSome = true ∧ (s.lantern 0).calDone = true := by
  decide

/-- The hypotheses of `RingTuning`, clause 6. -/
theorem test_RingTuning_6 :
    (live.bundle 0 31).calibrating = none := by
  decide

/-- The hypotheses of `RingTuning`, clause 7. -/
theorem test_RingTuning_7 :
    let s := (live.setLantern 0 { calDone := true }).setBundle 0 31 { calibrating := some 4 }
    panelRuns s = true ∧ (s.bundle 0 31).calibrating = some 4 ∧ (s.lantern 0).calDone = true := by
  decide

/-- The hypotheses of `RingTuning`, clause 8. -/
theorem test_RingTuning_8 :
    let s := live.setBundle 0 31 { calibrating := some 4 }
    panelRuns s = true ∧ (s.bundle 0 31).calibrating = some 4 ∧ (s.lantern 0).calDone = false ∧
    (∀ m' < 32, m' ≠ 31 → (s.bundle 0 m').calibrating = none) := by
  decide

/-- The hypotheses of `RingTuning`, clause 9. -/
theorem test_RingTuning_9 :
    let s := live.setBundle 0 31 { drift := 256 }
    panelRuns s = true ∧ urgentPm s 0 < (s.bundle 0 31).drift := by
  decide

/-- The hypotheses of `RingTuning`, clause 10. -/
theorem test_RingTuning_10 :
    let s := live.setBundle 0 31 { pending := some 4 }
    (s.bundle 0 31).drift ≤ urgentPm s 0 ∧ pendingSince s 0 31 = some 4 := by
  decide

/-- The hypotheses of `PortConnections`, clause 1. -/
theorem test_PortConnections_1 :
    let s := live.setPort 7 15 { phase := .probe }
    panelRuns s = true ∧ (s.port 7 15).phase = .probe := by
  decide

/-- The hypotheses of `PortConnections`, clause 2. -/
theorem test_PortConnections_2 :
    let s := (live.setLantern 7 { started := true }).setPort 7 15 { phase := .probe }
    panelRuns s = true ∧ (s.lantern 7).started = true ∧ (s.port 7 15).phase = .probe := by
  decide

/-- The hypotheses of `PortConnections`, clause 3. -/
theorem test_PortConnections_3 :
    let s := (live.setLantern 7 { started := true }).setPort 7 15 { phase := .active }
    (s.lantern 7).started = true ∧ (s.port 7 15).phase ≠ .probe := by
  decide

/-- The hypotheses of `PortConnections`, clause 4. -/
theorem test_PortConnections_4 :
    let s := live.setPort 7 15 { phase := .identify }
    panelRuns s = true ∧ ((s.port 7 15).phase = .identify ∨ (s.port 7 15).phase = .active) := by
  decide

/-- The hypotheses of `PortConnections`, clause 5. -/
theorem test_PortConnections_5 :
    let s : State := { live.setPort 7 15 { phase := .identify } with itin := { live.itin with force := [{ ty := 4, inst := 7, body := List.replicate 15 0 ++ [0x80001F00] }] }, sec := { live.sec with jk := some 1 } }
    panelRuns s = true ∧ (s.port 7 15).phase = .identify ∧ portPeer s.itin.force 7 15 = some 0x1F00 ∧ mayKey s = true := by
  decide

/-- The hypotheses of `PortConnections`, clause 6. -/
theorem test_PortConnections_6 :
    let s := live.setPort 7 15 { phase := .identify }
    panelRuns s = true ∧ (s.port 7 15).phase = .identify ∧ portPeer s.itin.force 7 15 ≠ some 3 := by
  decide

/-- The hypotheses of `PortConnections`, clause 7. -/
theorem test_PortConnections_7 :
    identityGood (.optical 7 15) { sender := 0, ack := true, peer := 0, crc := 0 } = false := by
  decide

/-- The hypotheses of `PortConnections`, clause 8. -/
theorem test_PortConnections_8 :
    let s := live.setPort 7 15 { phase := .probe, attempt := 4 }
    panelRuns s = true ∧ ((s.port 7 15).phase = .probe ∨ (s.port 7 15).phase = .identify) ∧ ¬ (s.port 7 15).attempt < 4 := by
  decide

/-- The hypotheses of `PortConnections`, clause 9. -/
theorem test_PortConnections_9 :
    let s := live.setPort 7 15 { phase := .active }
    panelRuns s = true ∧ ((s.port 7 15).phase = .identify ∨ (s.port 7 15).phase = .active) := by
  decide

/-- The hypotheses of `PortConnections`, clause 10. -/
theorem test_PortConnections_10 :
    ownerGate live boss (lanA 7 0x2C) = true := by
  decide

/-- The hypotheses of `CopperConnections`, clause 1. -/
theorem test_CopperConnections_1 :
    let s : State := { live.setCopper 3 { start := some 9 } with itin := { live.itin with force := [{ ty := 5, inst := 0, body := List.replicate 8 0 ++ [0x701] }] } }
    (s.copperPort 3).start = some 9 ∧ panelRuns s = true ∧ (s.copperPort 3).phase = .off := by
  decide

/-- The hypotheses of `CopperConnections`, clause 2. -/
theorem test_CopperConnections_2 :
    let s := live.setCopper 12 { phase := .probe }
    panelRuns s = true ∧ (s.copperPort 12).phase = .probe := by
  decide

/-- The hypotheses of `CopperConnections`, clause 3. -/
theorem test_CopperConnections_3 :
    let s : State := { live.setCopper 3 { phase := .identify } with itin := { live.itin with force := [{ ty := 5, inst := 0, body := List.replicate 8 0 ++ [0x701] }] }, sec := { live.sec with jk := some 1 } }
    panelRuns s = true ∧ (s.copperPort 3).phase = .identify ∧ copperPeer s 3 7 = some 7 ∧ mayKey s = true := by
  decide

/-- The hypotheses of `CopperConnections`, clause 4. -/
theorem test_CopperConnections_4 :
    identityGood (.copper 12) { sender := 0, ack := true, peer := 0, crc := 0 } = false := by
  decide

/-- The hypotheses of `CopperConnections`, clause 5. -/
theorem test_CopperConnections_5 :
    let s := live.setCopper 12 { phase := .identify }
    panelRuns s = true ∧ (s.copperPort 12).phase = .identify ∧ copperPeer s 12 3 ≠ some 3 := by
  decide

/-- The hypotheses of `CopperConnections`, clause 6. -/
theorem test_CopperConnections_6 :
    let s := live.setCopper 12 { phase := .probe, attempt := 4 }
    panelRuns s = true ∧ ((s.copperPort 12).phase = .probe ∨ (s.copperPort 12).phase = .identify) ∧ ¬ (s.copperPort 12).attempt < 4 := by
  decide

/-- The hypotheses of `CopperConnections`, clause 7. -/
theorem test_CopperConnections_7 :
    ownerGate live boss (hbgA 0x120) = true := by
  decide

/-- The hypotheses of `LinkKeys`, clause 1. -/
theorem test_LinkKeys_1 :
    let s := { live.setPort 7 15 { phase := .active } with sec := { live.sec with jk := some 1 } }
    panelRuns s = true ∧ (connPort s (.optical 7 15)).phase = .active ∧ (connPort s (.optical 7 15)).keying.keyed = false ∧ s.sec.jk = some 1 := by
  decide

/-- The hypotheses of `LinkKeys`, clause 2. -/
theorem test_LinkKeys_2 :
    let s := { live.setCopper 12 { phase := .active } with sec := { live.sec with jk := some 1 } }
    panelRuns s = true ∧ (connPort s (.copper 12)).phase = .active ∧ (connPort s (.copper 12)).keying.keyed = false ∧ s.sec.jk = some 1 := by
  decide

set_option maxRecDepth 10000 in
/-- The hypotheses of `LinkKeys`, clause 3. -/
theorem test_LinkKeys_3 :
    offerGood { endpoint := 5, keyId := 0, nonce := 3, crc := 0 } = false := by
  decide

/-- The hypotheses of `LinkKeys`, clause 4. -/
theorem test_LinkKeys_4 :
    let o : KeyOffer := { endpoint := 5, keyId := 0, nonce := 3, crc := 0 }
    let s := live.setCopper 12 { phase := .active, keying := { offered := some o, keys := [9] } }
    panelRuns s = true ∧ (connPort s (.copper 12)).phase = .active ∧ (connPort s (.copper 12)).keying.offered = some o ∧ (connPort s (.copper 12)).keying.keys = [9] := by
  decide

/-- The hypotheses of `HostFunctions`, clause 1. -/
theorem test_HostFunctions_1 :
    let s := live.setReg (hostA 1 0) 0x200
    s.power.pwrgd = true ∧ s.field (hostA 1 0) 9 1 ≠ 0 ∧ fnExists s { port := 1, vf := 0 } = true ∧ live.field (hostA 1 0) 9 1 = 0 := by
  decide

/-- The hypotheses of `HostFunctions`, clause 2. -/
theorem test_HostFunctions_2 :
    let s := live.setReg (hbgA 0x104) 1
    s.power.pwrgd = true ∧ s.field (hbgA (0x100 + 4 * 1)) 0 2 = 1 ∧ 16 ∈ [1, 2, 4, 8, 16] := by
  decide

/-- The hypotheses of `HostFunctions`, clause 3. -/
theorem test_HostFunctions_3 :
    live.power.pwrgd = true ∧ ({ port := 1, vf := 16 } : Fn) ∈ eventFns (.linkDown 1) ∧ ({ port := 1, vf := 16 } : Fn) ∈ eventFns (.flr { port := 1, vf := 16 }) := by
  decide

/-- The hypotheses of `HostWindow`, clause 1. -/
theorem test_HostWindow_1 :
    let f : Fn := { port := 0, vf := 0 }
    let s : State := { live with itin := { live.itin with folded := true }, sec := { live.sec with ideRequired := false } }
    windowDead s f = false ∧ pathClosed s (fnPath f) = false ∧ s.safe.active = false ∧ (windowLine s f (64 * (0x10000000 / 64))).isSome = true ∧ (s.host f).buffers.find? (fun b => b.line = 0x10000000 / 64) = none ∧ 0x10000000 % 64 = 0 ∧ 0x10000000 % 64 + ([7] : List Byte).length < 64 ∧ (s.host f).buffers.length < 64 := by
  decide

/-- The hypotheses of `HostWindow`, clause 2. -/
theorem test_HostWindow_2 :
    let f : Fn := { port := 0, vf := 0 }
    let b : LineBuf := { line := 0x10000000 / 64, mask := BitVec.ofNat 64 (2 ^ 64 - 2), born := 0, last := 0 }
    let s : State := { live.setHost f { buffers := [b] } with
      itin := { live.itin with folded := true }, sec := { live.sec with ideRequired := false } }
    windowDead s f = false ∧ pathClosed s (fnPath f) = false ∧ s.safe.active = false ∧
    (windowLine s f (64 * (0x10000000 / 64))).isSome = true ∧
    (s.host f).buffers.find? (fun b => b.line = 0x10000000 / 64) = some b ∧
    (fillBuffer b 0x10000000 [7]).mask = BitVec.allOnes 64 ∧ (fillBuffer b 0x10000001 [7]).mask ≠ BitVec.allOnes 64 := by
  decide

/-- The hypotheses of `HostWindow`, clause 3. -/
theorem test_HostWindow_3 :
    let f : Fn := { port := 0, vf := 0 }
    let s : State := { live with sec := { live.sec with ideRequired := false } }
    windowDead s f = false ∧ pathClosed s (fnPath f) = false ∧ s.safe.active = false ∧ pathClosed live (fnPath f) = true ∧
    (windowLines 0 1).any (fun l => (windowLine s f (64 * l)).isNone) = true := by
  decide

/-- The hypotheses of `HostWindow`, clause 4. -/
theorem test_HostWindow_4 :
    let f : Fn := { port := 1, vf := 16 }
    ((live.setHost f { buffers := [{ line := 3, born := 0, last := 0 }] }).host f).buffers.find? (fun b => b.line = 3) = some { line := 3, born := 0, last := 0 } := by
  decide

/-- The hypotheses of `HostWindow`, clause 5. -/
theorem test_HostWindow_5 :
    let f : Fn := { port := 0, vf := 0 }
    let s : State := { live with itin := { live.itin with folded := true }, sec := { live.sec with ideRequired := false } }
    windowDead s f = false ∧ pathClosed s (fnPath f) = false ∧ s.safe.active = false ∧ (windowLines 0x1000003F 2).all (fun l => (windowLine s f (64 * l)).isSome) = true ∧ (windowLines 0x1000003F 2).length = 2 := by
  decide

/-- The hypotheses of `RegisterAccess`, clause 1. -/
theorem test_RegisterAccess_1 :
    pathSilent live boss = false ∧ pathClosed live boss = false ∧
    (sizeOk (.reg 0x8008) 0x8008 8 = false ∧ sizeOk (.reg 0x7020) 0x7020 8 = true) ∧
    (∀ a ∈ [0x7020, 0x7024, 0x8008], spotOf { path := boss, off := a } = .reg a ∧ sizeOk (.reg a) a 4 = true ∧
      present live (.reg a) = true) ∧
    wordHalf (.reg 0x7020) = some 0 ∧ wordHalf (.reg 0x7024) = some 1 ∧ wordHalf (.reg 0x8008) = none ∧
    present live (.reg 0x18) = false := by
  decide

/-- The hypotheses of `RegisterAccess`, clause 2. -/
theorem test_RegisterAccess_2 :
    pathSilent live boss = false ∧ sizeOk (.reg 0x18) 0x18 4 = true ∧ present live (.reg 0x18) = false ∧
    present live (.reg 0x7000) = true ∧ present live (.reg 0x7020) = true ∧ present live (.reg 0) = true ∧
    actsOn (.reg 0) = false := by
  decide

/-- The hypotheses of `RegisterAccess`, clause 3. -/
theorem test_RegisterAccess_3 :
    let p : Path := .vf 0 0
    let s := { live with
      fns := [(({ port := 0, vf := 0 } : Fn).id, { vfEnable := true })]
      parties := { party := [(0, { phase := .ready })] }
      sec := { live.sec with ideRequired := false } }
    ownerGate live boss 0x8008 = true ∧ actsOn (.reg 0x8008) = true ∧ present live (.reg 0x8004) = true ∧
    actsOn (.reg 0x8004) = true ∧ ownerGate live boss 0x7020 = true ∧ sizeOk (.reg 0x7020) 0x7020 8 = true ∧
    pathSilent s p = false ∧ pathClosed s p = false ∧ spotOf { path := p, off := 0 } = .page 0 0 ∧
    spotOf { path := p, bar4 := true, off := 0x1018 } = .board 0 0x18 ∧ present s (.board 0 0x18) = true ∧
    actsOn (.board 0 0x18) = true ∧ spotOf { path := p, bar4 := true, off := 8 } = .msix { port := 0, vf := 1 } 8 := by
  decide

/-- The hypotheses of `RegisterAccess`, clause 4. -/
theorem test_RegisterAccess_4 :
    (∃ r k, regRow 0x8008 = some (r, k) ∧ ∃ f ∈ r.fields, f.acc = .rw ∧ f.lo + f.width ≤ 32) ∧
    (∃ r k, regRow 0x7000 = some (r, k) ∧ ∃ f ∈ r.fields, f.acc = .rwc ∧ f.lo + f.width ≤ 32) := by
  exact ⟨⟨_, _, rfl, by decide⟩, ⟨_, _, rfl, by decide⟩⟩

/-- The hypotheses of `RegisterAccess`, clause 5. -/
theorem test_RegisterAccess_5 :
    ownerGate live boss 0x8008 = true := by
  decide

/-- The hypotheses of `RegisterAccess`, clause 6. -/
theorem test_RegisterAccess_6 :
    ownerGate live boss 0x7000 = true := by
  decide

/-- The hypotheses of `ManagementMessages`, clause 1. -/
theorem test_ManagementMessages_1 :
    endpointUp live 3 = true ∨ endpointUp live 2 = true := by
  decide

/-- The hypotheses of `ManagementMessages`, clause 2. -/
theorem test_ManagementMessages_2 :
    endpointUp live 2 = true := by
  decide

/-- The hypotheses of `ManagementMessages`, clause 3. -/
theorem test_ManagementMessages_3 :
    endpointUp live 2 = true := by
  decide

/-- The hypotheses of `ManagementMessages`, clause 4. -/
theorem test_ManagementMessages_4 :
    endpointUp live 2 = true := by
  decide

/-- The hypotheses of `ManagementMessages`, clause 5. -/
theorem test_ManagementMessages_5 :
    let msg : Mctp := { binding := .i3c, source := 8, body := .control (some 9) }
    endpointUp live (mctpMaster live msg).val = true ∧ msg.pecOk = true ∧ (mctpServe live (mctpMaster live msg) msg.body).isSome = true := by
  decide

/-- The hypotheses of `ManagementMessages`, clause 6. -/
theorem test_ManagementMessages_6 :
    let msg : Mctp := { binding := .i3c, source := 8, body := .other 5 }
    mctpServe live (mctpMaster live msg) msg.body = none := by
  decide

/-- The hypotheses of `ManagementMessages`, clause 7. -/
theorem test_ManagementMessages_7 :
    let msg : Mctp := { binding := .i3c, source := 8, body := .pldmSensor 0x31 }
    endpointUp live (mctpMaster live msg).val = true ∧ msg.pecOk = true ∧ pldmSensor live 0x31 = some (some 1600) := by
  decide

/-- The hypotheses of `ManagementMessages`, clause 8. -/
theorem test_ManagementMessages_8 :
    let msg : Mctp := { binding := .i3c, source := 8, body := .control (some 9) }
    endpointUp live (mctpMaster live msg).val = true ∧ msg.pecOk = true := by
  decide

/-- The hypotheses of `ManagementMessages`, clause 9. -/
theorem test_ManagementMessages_9 :
    live.mgmt.up = true ∧ live.mgmt.dynamic = none := by
  decide

/-- The hypotheses of `ManagementMessages`, clause 10. -/
theorem test_ManagementMessages_10 :
    State.reset.mgmt.up = false := by
  decide

/-- The hypotheses of `ItineraryStore`, clause 1. -/
theorem test_ItineraryStore_1 :
    slotAt (0xC1FFFF / 4 * 4) = some 2 ∧ ownerGate live boss (0xC1FFFF / 4 * 4) = true ∧ slotAt (0x800000 / 4 * 4) = some 0 := by
  decide

/-- The hypotheses of `ItineraryStore`, clause 2. -/
theorem test_ItineraryStore_2 :
    slotAt (0xE00000 / 4 * 4) = none ∧ pathSilent live (.msg 3) = false ∧ pathClosed live (.msg 3) = false := by
  decide

/-- The hypotheses of `ItineraryStore`, clause 3. -/
theorem test_ItineraryStore_3 :
    let f : FoldPlan := { sections := [], job := 0, sel := 5, instant := 7, boot := false }
    let s : State := { live with itin := { live.itin with plan := some f } }
    let idle : State := { s with itin := { s.itin with plan := none } }
    s.itin.plan.isSome = true ∧ ownerGate idle boss 0x8080 = true ∧ ownerGate idle boss 0x8020 = true ∧
    (slotAt (0xC1FFFF / 4 * 4)).isSome = true ∧ ownerGate idle boss (0xC1FFFF / 4 * 4) = true ∧
    isFoldReg (0xC1FFFF / 4 * 4) = false ∧ holdsRwc (0xC1FFFF / 4 * 4) = false := by
  decide

/-- The hypotheses of `ItineraryStore`, clause 4. -/
theorem test_ItineraryStore_4 :
    ownerGate live boss 0x8080 = true := by
  decide

/-- The hypotheses of `ItineraryStore`, clause 5. -/
theorem test_ItineraryStore_5 :
    let s := live.setSlot 32 { state := .verifying }
    (s.slot 32).state = .verifying ∧ (∀ j < 32, (s.slot j).state ≠ .verifying) ∧ s.power.pwrgd = true := by
  decide

/-- The hypotheses of `ItineraryStore`, clause 6. -/
theorem test_ItineraryStore_6 :
    ownerGate live boss 0x8080 = true := by
  decide

/-- The hypotheses of `ItineraryStore`, clause 7. -/
theorem test_ItineraryStore_7 :
    let s : State := { live with itin := { live.itin with saving := some ([], [], 3) } }
    s.itin.saving = some ([], [], 3) := by
  decide

/-- The hypotheses of `Folds`, clause 1. -/
theorem test_Folds_1 :
    ownerGate live boss 0x8020 = true ∧ ∃ k ∈ 0 :: selected live.itin.sel, (live.slot k).state ≠ .valid := by
  decide

/-- The hypotheses of `Folds`, clause 2. -/
theorem test_Folds_2 :
    ownerGate live boss 0x8020 = true ∧ (refusals live live.itin.sel).map (·.code) = [1] := by
  decide

/-- The hypotheses of `Folds`, clause 3. -/
theorem test_Folds_3 :
    let s : State := { (live.setSlot 0 { state := .valid, sections := 1 }) with itin := { (live.setSlot 0 { state := .valid, sections := 1 }).itin with store := [(0x800008, 576), (0x80000C, 1), (0x800080, 1), (0x800084, 276)] } }
    ownerGate s boss 0x8020 = true ∧ refusals s s.itin.sel = [] ∧ quietRefusals s ((effective s s.itin.sel).map (fun x => (clampSection s (newTorus (effective s s.itin.sel)) x).1)) = [] := by
  decide

/-- The hypotheses of `Folds`, clause 4. -/
theorem test_Folds_4 :
    let f : FoldPlan := { sections := [], job := 0, sel := 5, instant := 7, boot := false }
    let s : State := { live with itin := { live.itin with plan := some f } }
    s.itin.plan = some f ∧ panelRuns s = true ∧ 9 ≤ s.power.stage ∧ s.itin.heldWrites = [] := by
  decide

/-- The hypotheses of `Folds`, clause 5. -/
theorem test_Folds_5 :
    let f : FoldPlan := { sections := [], job := 0, sel := 5, instant := 7, boot := false }
    let s : State := { live with itin := { live.itin with plan := some f, heldWrites := [{ acc := { path := boss, off := 0x7000 }, data := 5 }] } }
    s.itin.plan = some f ∧ panelRuns s = true ∧ 9 ≤ s.power.stage ∧ s.itin.heldWrites.length = 1 := by
  decide

/-- The hypotheses of `Folds`, clause 6. -/
theorem test_Folds_6 :
    let s : State := { live with power := { live.power with stage := 8 } }
    panelRuns s = true ∧ s.power.stage = 8 ∧ s.itin.folded = false ∧ s.itin.plan = none ∧ s.itin.bootStore = none := by
  decide

/-- The hypotheses of `Folds`, clause 7. -/
theorem test_Folds_7 :
    let s : State := { live with power := { live.power with stage := 8 }, itin := { live.itin with bootStore := some ([], [], 3) } }
    panelRuns s = true ∧ s.power.stage = 8 ∧ s.itin.folded = false ∧ s.itin.plan = none ∧ s.itin.bootStore = some ([], [], 3) := by
  decide

/-- The hypotheses of `Leadership`, clause 1. -/
theorem test_Leadership_1 :
    let s : State := { live with lead := { live.lead with leader := none } }
    leaderGate s (.msg 3) 3 = true ∧ s.lead.leader = none := by
  decide

/-- The hypotheses of `Leadership`, clause 2. -/
theorem test_Leadership_2 :
    let s : State := { live with lead := { live.lead with keepPath := boss } }
    leaderGate s boss 0 = true ∧ s.lead.leader = some 0 ∧ s.lead.keepPath = boss := by
  decide

/-- The hypotheses of `Leadership`, clause 3. -/
theorem test_Leadership_3 :
    leaderGate live boss 0 = true ∧ live.lead.leader = some 0 ∧ live.lead.pending = false := by
  decide

/-- The hypotheses of `Leadership`, clause 4. -/
theorem test_Leadership_4 :
    leaderGate live boss 0 = true ∧ live.lead.leader = some 0 ∧ live.lead.pending = false ∧ (3 : Fin 4) ≠ 0 ∧ masterPresent live 3 = true := by
  decide

/-- The hypotheses of `Leadership`, clause 5. -/
theorem test_Leadership_5 :
    let s : State := { live with lead := { live.lead with pending := true, target := 3 } }
    leaderGate s (.msg 3) 3 = true ∧ s.lead.pending = true ∧ s.lead.target = 3 := by
  decide

/-- The hypotheses of `Leadership`, clause 6. -/
theorem test_Leadership_6 :
    leaderGate live (.msg 3) 3 = true ∧ live.lead.leader = some 0 ∧ leaderGate live boss 0 = true := by
  decide

/-- The hypotheses of `Leadership`, clause 7. -/
theorem test_Leadership_7 :
    let s : State := { live with lead := { live.lead with pending := true } }
    leaderGate live (.msg 3) 3 = true ∧ live.lead.leader = some 0 ∧ live.lead.pending = false ∧
    leaderGate s boss 0 = true ∧ s.lead.pending = true ∧ masterPresent live 1 = false := by
  decide

/-- The hypotheses of `Leadership`, clause 8. -/
theorem test_Leadership_8 :
    live.lead.leader = some 0 := by
  decide

/-- The hypotheses of `Leadership`, clause 9. -/
theorem test_Leadership_9 :
    let s : State := { live with lead := { live.lead with pending := true } }
    s.lead.pending = true := by
  decide

/-- The hypotheses of `PartyResets`, clause 1. -/
theorem test_PartyResets_1 :
    let s := live.setParty 15 { phase := .ready }
    ownerGate s boss 0x8300 = true ∧ (s.party 15).phase = .ready := by
  decide

/-- The hypotheses of `PartyResets`, clause 2. -/
theorem test_PartyResets_2 :
    ownerGate live boss 0x8300 = true ∧ (live.party 15).phase ≠ .ready := by
  decide

/-- The hypotheses of `PartyResets`, clause 3. -/
theorem test_PartyResets_3 :
    let s := live.setParty 15 { phase := .resetWait, lastReset := some 4 }
    (s.party 15).phase = .resetWait ∧ (s.party 15).lastReset = some 4 ∧ s.power.pwrgd = true := by
  decide

/-- The hypotheses of `PartyResets`, clause 4. -/
theorem test_PartyResets_4 :
    let s := live.setParty 15 { phase := .resetting }
    (s.party 15).phase = .resetting ∧ (s.party 15).cleared = false ∧ s.power.pwrgd = true := by
  decide

/-- The hypotheses of `PartyResets`, clause 5. -/
theorem test_PartyResets_5 :
    let s := live.setParty 15 { phase := .resetting, cleared := true }
    (s.party 15).phase = .resetting ∧ (s.party 15).cleared = true ∧ partyTiles s 15 = [] := by
  decide

/-- The hypotheses of `PartyResets`, clause 6. -/
theorem test_PartyResets_6 :
    let s := live.setParty 15 { phase := .zeroing }
    (s.party 15).phase = .zeroing ∧ ∀ t ∈ partyTiles s 15, (s.tile t).zero.active = false := by
  decide

/-- The hypotheses of `Records`, clause 1. -/
theorem test_Records_1 :
    live.power.pwrgd = true ∧ knownClass 0x63 = true ∧ levelClasses.contains 0x63 = false ∧ 0 ∈ ringsOf 0x63 255 ∧ mget none (live.ring 0).maskTime 0x63 = none ∧ (live.ring 0).buffer.length < bufferCap 0 ∧ (live.ring 0).lostNow = 0 ∧ (live.ring 0).masks.getLsbD 0x63 = false ∧ 16 ∉ ringsOf 0x63 255 := by
  decide

/-- The hypotheses of `Records`, clause 2. -/
theorem test_Records_2 :
    live.power.pwrgd = true ∧ levelClasses.all knownClass = true ∧ levelClasses.contains 0x46 = true := by
  decide

/-- The hypotheses of `Records`, clause 3. -/
theorem test_Records_3 :
    let r : Record := { seq := 5, stamp := 0, source := 0, cls := 0x63, party := 255, payload := 0 }
    let s0 := live.setFn { port := 0, vf := 16 } { busMaster := true, msixEnable := true }
    let s : State := { s0.setRing 16 { enable := true, producer := 5, consumer := 5, buffer := [r] } with sec := { live.sec with ideRequired := false } }
    (s.ring 16).buffer = [r] ∧ ringOpen s 16 = true ∧ slotFree (s.ring 16) r = true := by
  decide

/-- The hypotheses of `Records`, clause 4. -/
theorem test_Records_4 :
    (live.ring 0).buffer = [] ∧ ringOpen live 0 = false := by
  decide

/-- The hypotheses of `Records`, clause 5. -/
theorem test_Records_5 :
    let s0 := live.setFn { port := 0, vf := 16 } { busMaster := true, msixEnable := true, vecMask := false }
    let s : State := { s0.setRing 16 { enable := true, producer := 5, consumer := 4, held := true, timer := some 9 } with sec := { live.sec with ideRequired := false } }
    (s.ring 16).timer = some 9 ∧ (s.ring 16).held = true ∧ ringOpen s 16 = true ∧ (s.fn (ringFn s 16)).fnMask = false ∧ (s.fn (ringFn s 16)).vecMask = false := by
  decide

/-- The hypotheses of `Rings`, clause 1. -/
theorem test_Rings_1 :
    let s := live.setFn { port := 0, vf := 0 } { busMaster := true, msixEnable := true }
    boardGate s boss 0 0xC = true ∧ (s.ring 0).enable = false ∧ (s.fn (enableFn s boss 0)).busMaster = true ∧ (s.fn (enableFn s boss 0)).msixEnable = true := by
  decide

/-- The hypotheses of `Rings`, clause 2. -/
theorem test_Rings_2 :
    let s := live.setRing 0 { enable := true }
    boardGate s boss 0 0xC = true ∧ (s.ring 0).enable = true ∧ (live.ring 0).enable = false ∧
    (live.fn (enableFn live boss 0)).busMaster = false := by
  decide

/-- The hypotheses of `Rings`, clause 3. -/
theorem test_Rings_3 :
    boardGate live boss 0 0x18 = true := by
  decide

/-- The hypotheses of `Rings`, clause 4. -/
theorem test_Rings_4 :
    let f : Fn := { port := 0, vf := 0 }
    let s : State := { (live.setFn f { busMaster := true, msixEnable := true }).setRing 0 { enable := true, held := true } with
      sec := { live.sec with ideRequired := false } }
    boardGate live boss 0 0xC = true ∧ (live.ring 0).held = false ∧ boardGate s boss 0 0xC = true ∧
    (s.ring 0).held = true ∧ ringOpen s 0 = true := by
  decide

/-- The hypotheses of `Rings`, clause 5. -/
theorem test_Rings_5 :
    pathSilent live boss = false ∧ pathClosed live boss = false ∧ boss.master.isSome = true ∧ (live.ring 0).producer = (live.ring 0).consumer ∧ (live.ring 0).held = false := by
  decide

/-- The hypotheses of `Rings`, clause 6. -/
theorem test_Rings_6 :
    let s : State := { (live.setFn { port := 1, vf := 0 } { vfEnable := true }).setParty 15 { phase := .ready } with sec := { live.sec with ideRequired := false } }
    pathSilent s (.vf 1 15) = false ∧ pathClosed s (.vf 1 15) = false ∧ partyExists s 15 = true := by
  decide

/-- The hypotheses of `Rings`, clause 7. -/
theorem test_Rings_7 :
    let s := live.setRing 0 { levels := [(levelKey 0x46 5, .posted)] }
    boardGate s boss 0 0x1C = true ∧ mget .armed (s.ring 0).levels (levelKey (bits 0x546 0 8) (bits 0x546 8 16)) = .posted ∧ mget none s.nb.conds (levelKey 0x46 5) = none := by
  decide

/-- The hypotheses of `Rings`, clause 8. -/
theorem test_Rings_8 :
    let key := levelKey 0x46 5
    let s0 := live.setRing 0 { levels := [(key, .posted)] }
    let s : State := { s0 with nb := { s0.nb with conds := [(key, some { party := 0xFF, payload := 3 })] } }
    boardGate s boss 0 0x1C = true ∧ (BitVec.ofNat 32 0x546).getLsbD 31 = false ∧
    key = levelKey (bits 0x546 0 8) (bits 0x546 8 16) ∧
    (postedKeys (s.ring 0)).filter (fun k => k = key) = [key] ∧ (mget none s.nb.conds key).isSome = true ∧
    mget none (s.ring 0).maskTime (key / 65536) = none ∧ (s.ring 0).masks.getLsbD (key / 65536 % 256) = false := by
  decide

/-- The hypotheses of `Rings`, clause 9. -/
theorem test_Rings_9 :
    boardGate live boss 0 (0x40 + 4 * 7) = true ∧ knownClass 0x63 = true ∧ unmaskable 0x63 = false := by
  decide

/-- The hypotheses of `Rings`, clause 10. -/
theorem test_Rings_10 :
    let s := live.setRing 16 { resample := [(255, some 4)] }
    mget none (s.ring 16).resample 255 = some 4 := by
  decide

/-- The hypotheses of `Rings`, clause 11. -/
theorem test_Rings_11 :
    ownerGate live boss 0xD000 = true := by
  decide

/-- The hypotheses of `WeatherAndSelfCheckpoints`, clause 1. -/
theorem test_WeatherAndSelfCheckpoints_1 :
    let g : Gen := { party := 15, gen := 4, sealed := true }
    let s : State := { live.setReg 0x10000 0x4000 with rk := { live.rk with gens := [g], selves := [(15, { armed := some 3, fenced := true })] } }
    (selfCheck s 15).armed.isSome = true ∧ (selfCheck s 15).fenced = true ∧ selfReady s 15 = true := by
  decide

/-- The hypotheses of `WeatherAndSelfCheckpoints`, clause 2. -/
theorem test_WeatherAndSelfCheckpoints_2 :
    (selfCheck live 15).armed.isNone = true := by
  decide

/-- The hypotheses of `WeatherAndSelfCheckpoints`, clause 3. -/
theorem test_WeatherAndSelfCheckpoints_3 :
    (selfCheck live 15).armed.isNone = true := by
  decide

/-- The hypotheses of `WeatherAndSelfCheckpoints`, clause 4. -/
theorem test_WeatherAndSelfCheckpoints_4 :
    let s0 := (((live.setReg (portA 7 15 0x18) 300).setReg 0x10060 0x10064).setReg 0x10000 0x80004000)
    let s : State := { s0 with weather := [((WxInstance.port 7 15).id, { counts := [200] })], rk := { live.rk with gens := [{ party := 15, gen := 4, sealed := true }] } }
    s.power.pwrgd = true ∧ ((wxResults s (.port 7 15) (wxCounters (.port 7 15)) (mget {} s.weather (WxInstance.port 7 15).id).counts).any (fun r => r.reached && decide (r.cat = 8))) = true ∧
    bits (mget {} s.weather (WxInstance.port 7 15).id).standing 8 1 = 0 ∧ wxArm s 8 = true ∧ s.field 0x10000 14 1 = 1 ∧ s.field 0x10000 31 1 = 1 ∧ (newestSealed s 15).isSome = true ∧
    (selfCheck s 15).armed = none ∧ (selfCheck s 15).running = none ∧ (selfCheck s 15).blocked = [] := by
  decide

/-- The hypotheses of `WeatherAndSelfCheckpoints`, clause 5. -/
theorem test_WeatherAndSelfCheckpoints_5 :
    let s : State := { live with rk := { live.rk with selves := [(15, { armed := some 3 })] } }
    (selfCheck s 15).armed = some 3 ∧ (selfCheck s 15).fenced = false ∧ active s = true ∧ selfReady s 15 = false := by
  decide

/-- The hypotheses of `WeatherAndSelfCheckpoints`, clause 6. -/
theorem test_WeatherAndSelfCheckpoints_6 :
    let s : State := { live with rk := { live.rk with selves := [(15, { running := some 5 })], gens := [{ party := 15, gen := 5 }] } }
    (selfCheck s 15).running = some 5 ∧ ∃ g ∈ s.rk.gens, g.party = 15 ∧ g.gen = 5 ∧ g.sealed = false := by
  exact ⟨by decide, ⟨{ party := 15, gen := 5 }, by decide⟩⟩

/-- The hypotheses of `WeatherAndSelfCheckpoints`, clause 7. -/
theorem test_WeatherAndSelfCheckpoints_7 :
    live.power.pwrgd = true := by
  decide

/-- The hypotheses of `WeatherAndSelfCheckpoints`, clause 8. -/
theorem test_WeatherAndSelfCheckpoints_8 :
    let s : State := { (live.setReg (portA 7 15 0x18) 300).setReg 0x10060 100 with weather := [((WxInstance.port 7 15).id, { counts := [200] })] }
    s.power.pwrgd = true ∧ (mget {} s.weather (WxInstance.port 7 15).id).counts = [200] ∧ 200 + s.field 0x10060 0 16 ≤ (s.reg (portA 7 15 0x18)).toNat ∧ s.field 0x10060 0 16 ≠ 0 := by
  decide

/-- The hypotheses of `Seals`, clause 1. -/
theorem test_Seals_1 :
    live.power.pwrgd = true ∧ 7 ≤ live.power.stage ∧ bits live.rk.ready 1 1 = 0 := by
  decide

/-- The hypotheses of `Seals`, clause 2. -/
theorem test_Seals_2 :
    let x : Programming := { queue := 16383, idx := 5, work := .piece 0 1 { tile := 63, key := 0, desc := 0, lines := [] } }
    let s : State := { live with rk := { live.rk with programming := [x] } }
    s.rk.programming.find? (fun x => x.queue = 16383 && x.idx = 5) = some x ∧ s.power.pwrgd = true ∧ mayProgram s x.work = true := by
  decide

/-- The hypotheses of `Seals`, clause 3. -/
theorem test_Seals_3 :
    let x : Programming := { queue := 16383, idx := 5, work := .record { party := 0, tile := 63, step := 0, micro := 0, stage := 0, lines := [] } }
    let s : State := { live.setReg (hbgA 0x10004) 0 with rk := { live.rk with programming := [x] } }
    s.rk.programming.find? (fun x => x.queue = 16383 && x.idx = 5) = some x ∧ mayProgram s x.work = false := by
  decide

/-- The hypotheses of `Seals`, clause 4. -/
theorem test_Seals_4 :
    bits State.reset.rk.ready 1 1 = 0 ∧ State.reset.power.pwrgd = false := by
  decide

/-- The hypotheses of `Seals`, clause 5. -/
theorem test_Seals_5 :
    openGen live 15 = none := by
  decide

/-- The hypotheses of `Seals`, clause 6. -/
theorem test_Seals_6 :
    live.rk.sealing.find? (fun x => x.party = 15) = none := by
  decide

/-- The hypotheses of `Seals`, clause 7. -/
theorem test_Seals_7 :
    let s0 : State := { (queued (lineBits 0 0 0x50 ||| lineBits 0x10 0 1)).setParty 3 { phase := .ready } with rk := { live.rk with gens := [{ party := 3, gen := 0 }] } }
    let s : State := { s0 with parties := { s0.parties with tileOwner := (0, 3) :: (List.range 63).map (fun t => (t + 1, 4)) } }
    openGen s 3 = some { party := 3, gen := 0 } ∧ partyTiles s 3 = [0] ∧ (∀ t ∈ partyTiles s 3, (sealQueue s t 0).isSome = true) := by
  decide

/-- The hypotheses of `Seals`, clause 8. -/
theorem test_Seals_8 :
    let s : State := { live with rk := { live.rk with ready := 3, sealing := [{ party := 15, gen := 5 }], gens := [{ party := 15, gen := 5 }] } }
    s.rk.sealing.find? (fun x => x.party = 15) = some { party := 15, gen := 5 } ∧ s.rk.gens.find? (fun y => y.party = 15 && y.gen = 5) = some { party := 15, gen := 5 } ∧ s.rk.programming = [] ∧ s.rk.ready = 3 := by
  decide

/-- The hypotheses of `Transfers`, clause 1. -/
theorem test_Transfers_1 :
    ownerGate live boss (xferA 1 0) = true ∧ live.safe.active = false ∧ (xfer live 1).busy = false := by
  decide

/-- The hypotheses of `Transfers`, clause 2. -/
theorem test_Transfers_2 :
    let s : State := { live with rk := { live.rk with xfers := [(1, { busy := true })] } }
    ownerGate s boss (xferA 1 0) = true ∧ s.safe.active = false ∧ (xfer s 1).busy = true := by
  decide

/-- The hypotheses of `Transfers`, clause 3. -/
theorem test_Transfers_3 :
    let s : State := { live with safe := { active := true, stage := 3 } }
    ownerGate s boss (xferA 1 0) = true ∧ s.safe.active = true := by
  decide

/-- The hypotheses of `Transfers`, clause 4. -/
theorem test_Transfers_4 :
    (xfer live 1).busy = false := by
  decide

/-- The hypotheses of `Transfers`, clause 5. -/
theorem test_Transfers_5 :
    let s0 := live.setFn { port := 1, vf := 0 } { busMaster := true }
    let s : State := { s0 with rk := { live.rk with ready := 3, xfers := [(1, { busy := true, op := 1 })] }, sec := { live.sec with ideRequired := false } }
    (xfer s 1).busy = true ∧ s.power.pwrgd = true ∧ bits s.rk.ready 1 1 = 1 ∧ (s.fn { port := 1, vf := 0 }).busMaster = true ∧ ideClosed s { port := 1, vf := 0 } = false ∧ (xfer s 1).op = 1 ∧ sealedGens s (xfer s 1).party = [] := by
  decide

/-- Bytes are below 256. -/
theorem leBytes_small (n v : Nat) : ∀ x ∈ leBytes n v, x < 256 := by
  induction n generalizing v with
  | zero => simp [leBytes]
  | succ n ih => intro x hx; simp [leBytes] at hx; rcases hx with rfl | h
                 · omega
                 · exact ih _ _ h

/-- As many bytes as asked. -/
theorem leBytes_length (n v : Nat) : (leBytes n v).length = n := by
  induction n generalizing v with
  | zero => rfl
  | succ n ih => simp [leBytes, ih]

/-- A digest is a list of bytes. -/
theorem imageDigest_bytes (jk : BitVec 256) (c : List Byte) (p : List Nat) :
    ((imageDigest jk c p).map (BitVec.ofNat 8)).map (·.toNat) = imageDigest jk c p := by
  unfold imageDigest beBytes
  rw [List.map_map]
  refine (List.map_congr_left (g := id) ?_).trans (List.map_id _)
  intro x hx
  have := leBytes_small _ _ x (List.mem_reverse.1 hx)
  simp; omega

/-- The first 32 bytes of a header of no pieces, for half 1 of generation 7 of party 0 (R558). -/
def imageStart : List Nat :=
  [0x4B, 0x43, 0x52, 0x4B, 1, 0, 1, 0, 7, 0, 0, 0, 0, 0, 0, 0, 0, 0, 0, 0, 0, 0, 0, 0, 0, 0, 0, 0, 0, 0, 0, 0]

/-- The header with a digest. -/
def imageHead (d : List Byte) : List Byte :=
  imageStart.map (BitVec.ofNat 8) ++ d ++ List.replicate 176 0

/-- A bridge that reads an image. -/
def imaging : State :=
  let s0 := live.setFn { port := 1, vf := 0 } { busMaster := true }
  { s0 with rk := { live.rk with ready := 3, xfers := [(1, { busy := true, op := 2, len := 0x1000 })] }, sec := { live.sec with ideRequired := false, jk := some 5 } }

/-- Clause 5 of `Transfers`: an image that an import reads and stores. -/
theorem test_Transfers_import : ∃ im g, (some im).bind (readImage imaging 1 (xfer imaging 1)) = some g ∧ (storeImport imaging 1 g).isSome = true := by
  let d := imageDigest 5 (imageContext 0 7 0 1) ((imageCipher 5 (imageContext 0 7 0 1) []).map (·.toNat))
  have hl : d.length = 48 := by simp [d, imageDigest, beBytes, leBytes_length]
  refine ⟨{ header := imageHead (d.map (BitVec.ofNat 8)), body := [] }, { party := 0, gen := 7, sealed := true, imported := true, halves := 2 }, ?_, by decide⟩
  have e : (imageHead (d.map (BitVec.ofNat 8))).map (·.toNat) = imageStart ++ d ++ List.replicate 176 0 := by
    simp only [imageHead, List.map_append]
    rw [show (d.map (BitVec.ofNat 8)).map (·.toNat) = d from imageDigest_bytes _ _ _]
    simp only [List.map_replicate]; congr 1
  simp only [Option.bind_some, readImage, e]
  have hx : xfer imaging 1 = { busy := true, op := 2, len := 0x1000 } := by decide
  have hj : imaging.sec.jk = some 5 := rfl
  simp only [hx, hj]
  generalize hd : d = d' at *
  have h1 : ∀ (o n : Nat), o + n ≤ 32 → imageField (imageStart ++ d' ++ List.replicate 176 0) o n = imageField imageStart o n := by
    intro o n h
    have hs : imageStart.length = 32 := rfl
    unfold imageField
    rw [List.append_assoc, List.drop_append_of_le_length (by omega), List.take_append_of_le_length (by rw [List.length_drop]; omega)]
  have h2 : ((imageStart ++ d' ++ List.replicate 176 0).drop 0x20).take 48 = d' := by
    rw [List.append_assoc, List.drop_append_of_le_length (show 32 ≤ imageStart.length from Nat.le_refl 32)]
    rw [show List.drop 32 imageStart = ([] : List Nat) from rfl, List.nil_append, ← hl, List.take_left']
    rfl
  simp only [h1 4 4 (by omega), h1 8 4 (by omega), h1 0 4 (by omega), h1 0xC 4 (by omega), h1 0x18 4 (by omega), h2]
  have f4 : imageField imageStart 4 4 = 65537 := by decide
  have f8 : imageField imageStart 8 4 = 7 := by decide
  have f0 : imageField imageStart 0 4 = 0x4B52434B := by decide
  have fc : imageField imageStart 0xC 4 = 0 := by decide
  have f18 : imageField imageStart 0x18 4 = 0 := by decide
  simp only [f4, f8, f0, fc, f18]
  rw [if_neg]
  · rfl
  · have hc : bits 65537 16 1 = 1 := by decide
    have hn : (imageStart ++ d' ++ List.replicate 176 0 : List Nat).length = 256 := by
      rw [List.length_append, List.length_append, hl, List.length_replicate]; rfl
    have hg : d' = imageDigest 5 (imageContext 0 7 (0 % 2 ^ 14) 1) ((imageCipher 5 (imageContext 0 7 (0 % 2 ^ 14) 1) []).map (·.toNat)) := hd.symm
    have hz : bits 65537 17 4 = 0 := by decide
    rw [hn, hc, hz, ← hg]
    simp

/-- The hypotheses of `Mirrors`, clause 1. -/
theorem test_Mirrors_1 :
    let s := live.setTile 63 { trained := true }
    ownerGate s boss (mirA 63 3 0) = true ∧ mirEnabled s 63 3 = false ∧ (3 : Word).toNat % 16 = 3 ∧ (mirBlocks s 63 3).2 ≤ 147456 := by
  decide

/-- The hypotheses of `Mirrors`, clause 2. -/
theorem test_Mirrors_2 :
    let s := (live.setTile 63 { trained := true })
    ownerGate s boss (mirA 63 3 0) = true ∧ mirEnabled s 63 3 = false ∧ (1 : Word).toNat % 16 = 1 ∧ mirAllowed s 63 3 false = true := by
  decide

/-- The hypotheses of `Mirrors`, clause 3. -/
theorem test_Mirrors_3 :
    let s := (live.setTile 63 { trained := true }).setReg (mirA 63 3 8) 0x3FFFF
    ownerGate s boss (mirA 63 3 0) = true ∧ mirEnabled s 63 3 = false ∧ (3 : Word).toNat % 2 = 1 ∧ (3 : Word).toNat / 4 % 4 = 0 ∧ mirAllowed s 63 3 true = false := by
  decide

/-- The hypotheses of `Mirrors`, clause 4. -/
theorem test_Mirrors_4 :
    let s := (live.setTile 63 { trained := true }).setReg (mirA 63 3 0) 0xA0001
    ownerGate s boss (mirA 63 3 0) = true ∧ mirEnabled s 63 3 = true ∧ (3 : Word).toNat % 2 = 1 ∧ (3 : Word).toNat / 4 % 4 = 0 ∧ (mirFields s 63 3 3).reg (mirA 63 3 0) ≠ s.reg (mirA 63 3 0) := by
  decide

/-- The hypotheses of `Mirrors`, clause 5. -/
theorem test_Mirrors_5 :
    let s := (live.setTile 63 { trained := true }).setReg (mirA 63 3 0) 0xA0001
    ownerGate s boss (mirA 63 3 0) = true ∧ mirEnabled s 63 3 = true ∧ (0 : Word).toNat % 2 = 0 ∧ (0 : Word).toNat / 4 % 4 = 0 := by
  decide

/-- The hypotheses of `Mirrors`, clause 6. -/
theorem test_Mirrors_6 :
    (live.mirror (mirKey 63 3)).state ≠ 1 := by
  decide

/-- The hypotheses of `Mirrors`, clause 7. -/
theorem test_Mirrors_7 :
    (live.mirror (mirKey 63 3)).state ≠ 1 := by
  decide

/-- The hypotheses of `Mirrors`, clause 8. -/
theorem test_Mirrors_8 :
    (live.mirror (mirKey 63 3)).state ≠ 4 := by
  decide

/-- The hypotheses of `Mirrors`, clause 9. -/
theorem test_Mirrors_9 :
    let s := ((live.setTile 63 { trained := true }).setReg (mirA 63 3 0) 0xA0001).setMirror (mirKey 63 3) { state := 3 }
    ownerGate s boss (mirA 63 3 0) = true ∧ mirEnabled s 63 3 = true ∧ mirReceive s 63 3 = false ∧ (s.mirror (mirKey 63 3)).state = 3 ∧ 10 ≤ s.field (mirA 63 3 0) 16 16 ∧ s.field (mirA 63 3 0) 16 16 ≤ 10000 ∧ s.field (mirA 63 3 0) 3 1 = 0 := by
  decide

/-- The hypotheses of `Mirrors`, clause 10. -/
theorem test_Mirrors_10 :
    let s := ((live.setTile 63 { trained := true }).setReg (mirA 63 3 0) 0xA0003).setMirror (mirKey 63 3) { state := 4 }
    ownerGate s boss (mirA 63 3 0) = true ∧ mirEnabled s 63 3 = true ∧ (s.mirror (mirKey 63 3)).state = 4 ∧ 10 ≤ s.field (mirA 63 3 0) 16 16 ∧ s.field (mirA 63 3 0) 16 16 ≤ 10000 := by
  decide

/-- The hypotheses of `Mirrors`, clause 11. -/
theorem test_Mirrors_11 :
    let s := (live.setReg (mirA 63 3 8) 1).setMirror (mirKey 63 3) { state := 1 }
    active s = true ∧ (s.mirror (mirKey 63 3)).state = 1 ∧ (s.mirror (mirKey 63 3)).front < mirLines s 63 3 ∧ lineReady s 63 (mirBase s 63 3 + 64 * (s.mirror (mirKey 63 3)).front) = true := by
  decide

/-- The hypotheses of `Mirrors`, clause 12. -/
theorem test_Mirrors_12 :
    let s := live.setMirror (mirKey 63 3) { state := 1 }
    active s = true ∧ (s.mirror (mirKey 63 3)).state = 1 ∧ (s.mirror (mirKey 63 3)).front = mirLines s 63 3 ∧ fillOpen s 63 3 = false := by
  decide

/-- The hypotheses of `Mirrors`, clause 13. -/
theorem test_Mirrors_13 :
    let s := live.setMirror (mirKey 63 3) { state := 4 }
    (s.mirror (mirKey 63 3)).state = 4 ∧ s.power.pwrgd = true := by
  decide

/-- The hypotheses of `SafeStateSequence`, clause 1. -/
theorem test_SafeStateSequence_1 :
    live.power.pwrgd = true ∧ live.safe.active = false := by
  decide

/-- The hypotheses of `SafeStateSequence`, clause 2. -/
theorem test_SafeStateSequence_2 :
    live.power.pwrgd = true ∧ live.safe.active = false ∧ 0x14 ∉ [1, 2, 3, 4, 5, 6, 7, 8, 9, 0x10, 0x11, 0x12, 0x13, 0x20] := by
  decide

/-- The hypotheses of `SafeStateSequence`, clause 3. -/
theorem test_SafeStateSequence_3 :
    ownerGate live boss 0x10110 = true ∧ live.safe.active = false := by
  decide

/-- The hypotheses of `SafeStateSequence`, clause 4. -/
theorem test_SafeStateSequence_4 :
    let s : State := { live with safe := { active := true, stage := 3 } }
    ownerGate s boss 0x10110 = true ∧ s.safe.active = true := by
  decide

/-- The hypotheses of `SafeStateSequence`, clause 5. -/
theorem test_SafeStateSequence_5 :
    ownerGate live boss 0x10110 = true ∧ live.safe.active = false := by
  decide

/-- The hypotheses of `SafeStateSequence`, clause 6. -/
theorem test_SafeStateSequence_6 :
    let s : State := { live with safe := { active := true, stage := 3 } }
    s.power.pwrgd = true ∧ s.safe.active = true ∧ 3 ≤ s.safe.stage := by
  decide

/-- The hypotheses of `SafeStateSequence`, clause 7. -/
theorem test_SafeStateSequence_7 :
    let s : State := { live with safe := { active := true, stage := 2 } }
    s.power.pwrgd = true ∧ s.safe.active = true ∧ s.safe.stage < 3 := by
  decide

/-- The hypotheses of `SafeStateSequence`, clause 8. -/
theorem test_SafeStateSequence_8 :
    let s : State := { live with safe := { active := true, stage := 3 } }
    ownerGate s boss 0x10110 = true ∧ s.safe.active = true ∧ s.power.shutdown = 0 ∧ coolantLost s = false := by
  decide

/-- The hypotheses of `FieldRetirement`, clause 1. -/
theorem test_FieldRetirement_1 :
    ownerGate live boss 0x10200 = true ∧ live.panel.retire.copy = none ∧ retireAllowed live 7 3 = true := by
  decide

/-- The hypotheses of `FieldRetirement`, clause 2. -/
theorem test_FieldRetirement_2 :
    let s : State := { live with panel := { live.panel with retire := { row := 7, col := 3, copy := some 1 } } }
    ownerGate s boss 0x10200 = true ∧ s.panel.retire.copy.isSome = true := by
  decide

/-- The hypotheses of `FieldRetirement`, clause 3. -/
theorem test_FieldRetirement_3 :
    live.panel.retire.copy = none := by
  decide

/-- The hypotheses of `FieldRetirement`, clause 4. -/
theorem test_FieldRetirement_4 :
    let s : State := { live with panel := { live.panel with retire := { row := 7, col := 3, copy := some 1 } } }
    s.power.pwrgd = true ∧ s.panel.retire.copy = some (1 : Fin 2).val ∧ (0 : BitVec 5).toNat ≠ retireEntry s.panel.retire.col := by
  decide

/-- The hypotheses of `FieldRetirement`, clause 5. -/
theorem test_FieldRetirement_5 :
    let s : State := { live with panel := { live.panel with retire := { row := 7, col := 3, copy := some 0 } } }
    s.power.pwrgd = true ∧ (BitVec.ofNat 5 (retireEntry 3)).toNat = retireEntry s.panel.retire.col ∧ s.panel.retire.copy = some 0 ∧ copyValid s.panel.hb1 = true := by
  decide

/-- The hypotheses of `SecurityModules`, clause 1. -/
theorem test_SecurityModules_1 :
    live.power.pwrgd = true := by
  decide

/-- The hypotheses of `SecurityModules`, clause 2. -/
theorem test_SecurityModules_2 :
    live.power.pwrgd = true ∧ live.sec.active = 0 ∧ moduleHealthy live 1 = true ∧ live.sec.handover = none := by
  decide

/-- The hypotheses of `SecurityModules`, clause 3. -/
theorem test_SecurityModules_3 :
    let s : State := { live with sec := { live.sec with active := 1 } }
    s.power.pwrgd = true ∧ s.sec.active ≠ 0 := by
  decide

/-- The hypotheses of `SecurityModules`, clause 4. -/
theorem test_SecurityModules_4 :
    live.power.pwrgd = true ∧ live.sec.active ≠ 1 ∧ live.sec.handover = none := by
  decide

/-- The hypotheses of `SecurityModules`, clause 5. -/
theorem test_SecurityModules_5 :
    State.reset.power.pwrgd = false := by
  decide

/-- The hypotheses of `SecurityModules`, clause 6. -/
theorem test_SecurityModules_6 :
    live.power.pwrgd = true ∧ (secModule live 1).smOk = none ∧ live.sec.minSm ≤ 0 ∧ (secModule live 1).hbOk = none ∧ live.sec.minHb ≤ 0 := by
  decide

/-- The hypotheses of `SecurityModules`, clause 7. -/
theorem test_SecurityModules_7 :
    let s : State := { live with sec := { live.sec with minSm := 2, minHb := 2 } }
    s.power.pwrgd = true ∧ (secModule s 1).smOk = none ∧ 1 < s.sec.minSm ∧ (secModule s 1).hbOk = none ∧ 1 < s.sec.minHb := by
  decide

/-- The hypotheses of `SecurityModules`, clause 8. -/
theorem test_SecurityModules_8 :
    let s : State := { live with power := { live.power with stage := 6 }, sec := { live.sec with minGc := 2 } }
    panelRuns s = true ∧ s.power.stage = 6 ∧ s.sec.guideOk = false ∧ 1 < s.sec.minGc ∧ panelRuns State.reset = false := by
  decide

/-- The hypotheses of `SecurityModules`, clause 9. -/
theorem test_SecurityModules_9 :
    let s : State := { live with power := { live.power with stage := 6 } }
    panelRuns s = true ∧ s.power.stage = 6 ∧ s.sec.guideOk = false ∧ s.sec.minGc ≤ 0 ∧ (s.lantern 7).table = false := by
  decide

/-- The hypotheses of `SecurityModules`, clause 10. -/
theorem test_SecurityModules_10 :
    let s : State := { live with sec := { live.sec with handover := some (2, 9) } }
    s.sec.handover = some (2, 9) ∧ s.power.pwrgd = true ∧ s.mgmt.up = true := by
  decide

/-- The hypotheses of `SecurityModules`, clause 11. -/
theorem test_SecurityModules_11 :
    live.sec.handover = none := by
  decide

/-- The hypotheses of `SecurityModules`, clause 12. -/
theorem test_SecurityModules_12 :
    let s : State := { live with sec := { live.sec with ports := [(33, true)] } }
    s.power.pwrgd = true ∧ mget false s.sec.ports ({ port := 1, vf := 16 } : Fn).id = true := by
  decide

/-- The hypotheses of `OwnerServices`, clause 1. -/
theorem test_OwnerServices_1 :
    let s : State := { live with sec := { live.sec with modules := [(0, { tested := some true, smOk := some true })], sessions := [{ id := 2, path := boss, mutualAuth := false }] } }
    serviceGate s 2 true = true ∧ s.sec.anchor = none := by
  decide

/-- The hypotheses of `OwnerServices`, clause 2. -/
theorem test_OwnerServices_2 :
    let s : State := { live with sec := { live.sec with modules := [(0, { tested := some true, smOk := some true })], sessions := [{ id := 2, path := boss, mutualAuth := true }] } }
    serviceGate s 2 false = true ∧ mget none s.sec.keySlots 3 = none := by
  decide

/-- The hypotheses of `OwnerServices`, clause 3. -/
theorem test_OwnerServices_3 :
    let s : State := { live with sec := { live.sec with modules := [(0, { tested := some true, smOk := some true })], sessions := [{ id := 2, path := boss, mutualAuth := true }] } }
    serviceGate s 2 false = true := by
  decide

/-- The hypotheses of `OwnerServices`, clause 4. -/
theorem test_OwnerServices_4 :
    let s : State := { live with sec := { live.sec with modules := [(0, { tested := some true, smOk := some true })], sessions := [{ id := 2, path := boss, mutualAuth := true }] } }
    serviceGate s 2 false = true ∧ s.sec.debugOpen = false := by
  decide

/-- The hypotheses of `OwnerServices`, clause 5. -/
theorem test_OwnerServices_5 :
    let s : State := { live with sec := { live.sec with modules := [(0, { tested := some true, smOk := some true })], sessions := [{ id := 2, path := boss, mutualAuth := true }] } }
    serviceGate s 2 false = true := by
  decide

/-- The hypotheses of `OwnerServices`, clause 6. -/
theorem test_OwnerServices_6 :
    let s : State := { live with safe := { active := true }, sec := { live.sec with modules := [(0, { tested := some true, smOk := some true })], sessions := [{ id := 2, path := boss, mutualAuth := true }] } }
    serviceGate s 2 false = true ∧ s.safe.active = true := by
  decide

/-- The hypotheses of `OwnerServices`, clause 7. -/
theorem test_OwnerServices_7 :
    let s : State := { live with safe := { active := true }, sec := { live.sec with modules := [(0, { tested := some true, smOk := some true })], sessions := [{ id := 2, path := boss, mutualAuth := true }] } }
    serviceGate s 2 false = true ∧ s.safe.active = true := by
  decide

/-- The hypotheses of `OwnerServices`, clause 8. -/
theorem test_OwnerServices_8 :
    let s : State := { live with sec := { live.sec with modules := [(0, { tested := some true, smOk := some true })], sessions := [{ id := 2, path := boss, mutualAuth := true }] } }
    (serviceGate s 2 true && s.sec.anchor.isNone) = false ∧ (serviceGate s 2 false && s.safe.active) = false ∧ (s.sec.sessions.find? (fun x => x.id = 2)).any (fun x => spdmUp s x.path) = true ∧ s.sec.sessions.find? (fun x => x.id = 3) = none ∧ responderUp s = true ∧ responderUp live = false := by
  decide

/-- The hypotheses of `OwnerServices`, clause 9. -/
theorem test_OwnerServices_9 :
    let s : State := { live with sec := { live.sec with modules := [(0, { tested := some true, smOk := some true })], sessions := [{ id := 2, path := boss, mutualAuth := true }] } }
    spdmUp s boss = true ∧ sessionOn s boss 1 = false ∧ s.sec.anchor = none := by
  decide

/-- The hypotheses of `OwnerServices`, clause 10. -/
theorem test_OwnerServices_10 :
    spdmUp live boss = false := by
  decide

/-- The hypotheses of `OwnerServices`, clause 11. -/
theorem test_OwnerServices_11 :
    let s : State := { live with sec := { live.sec with modules := [(0, { tested := some true, smOk := some true })], sessions := [{ id := 2, path := boss, mutualAuth := true }] } }
    spdmUp s boss = true ∧ s.sec.sessions.length < 4 ∧ sessionOn s boss 2 = true := by
  decide

/-- The hypotheses of `PowerFolds`, clause 1. -/
theorem test_PowerFolds_1 :
    ownerGate live boss 0x01000004 = true := by
  decide

/-- The hypotheses of `PowerFolds`, clause 2. -/
theorem test_PowerFolds_2 :
    ownerGate live boss (tilA 0 0x9008) = true := by
  decide

/-- The hypotheses of `PowerFolds`, clause 3. -/
theorem test_PowerFolds_3 :
    (mget {} live.power.tiles 63).point ≠ .draining := by
  decide

/-- The hypotheses of `PowerFolds`, clause 4. -/
theorem test_PowerFolds_4 :
    (live.tile 63).trained = false := by
  decide

/-- The hypotheses of `PowerFolds`, clause 5. -/
theorem test_PowerFolds_5 :
    let s : State := { live with power := { live.power with tiles := [(63, { point := .draining })] } }
    panelRuns s = true ∧ (mget {} s.power.tiles 63).point = .draining ∧ tileCold s 63 = true := by
  decide

/-- The hypotheses of `PowerFolds`, clause 6. -/
theorem test_PowerFolds_6 :
    let s : State := (live.setTile 63 { trained := true })
    let s : State := { s with power := { s.power with tiles := [(63, { samples := [1, 2, 3, 4] })] } }
    s.power.pwrgd = true ∧ (s.tile 63).trained = true ∧ (mget {} s.power.tiles 63).samples[3]? = some 4 ∧ s.safe.active = false ∧ 4 * s.field (tilA 63 0x9000) 0 8 < ((2000 + 1000 : Nat) - ((4 : Nat) : Int)).natAbs := by
  decide

/-- The hypotheses of `Sensors`, clause 1. -/
theorem test_Sensors_1 :
    live.power.pwrgd = true ∧ thermistorFlag 100 640 = none ∧ (sensorTakes (live.sensor (thermistorNo 0)) none 640 true).lost = false := by
  decide

/-- The hypotheses of `Sensors`, clause 2. -/
theorem test_Sensors_2 :
    let s : State := { live with power := { live.power with good := [(151, true)] } }
    s.power.pwrgd = true ∧ sensorDomain (.lantern 7 15) < 154 ∧ domainGood s (sensorDomain (.lantern 7 15)) = true ∧ dieSafeAt 151 ≤ 2400 := by
  decide

/-- The hypotheses of `Sensors`, clause 3. -/
theorem test_Sensors_3 :
    State.reset.power.pwrgd = false := by
  decide

/-- The hypotheses of `Sensors`, clause 4. -/
theorem test_Sensors_4 :
    domainGood live (sensorDomain (.pair 157 true)) = false ∧ 154 ≤ sensorDomain (.pair 157 true) := by
  decide

/-- The hypotheses of `Sensors`, clause 5. -/
theorem test_Sensors_5 :
    let s := live.setReg (pwrA 0) 0x2800
    s.power.pwrgd = true ∧ s.field (pwrA 0) 8 8 ≠ 0 ∧ 100 * s.field (pwrA 0) 8 8 < 4001 ∧ (mget {} s.power.causes 3).level = 0 := by
  decide

/-- The hypotheses of `Sensors`, clause 6. -/
theorem test_Sensors_6 :
    let s : State := { live with power := { live.power with causes := [(2, { level := 3 })] } }
    s.power.pwrgd = true ∧ 0 < (mget {} s.power.causes 2).level := by
  decide

/-- The hypotheses of `Sensors`, clause 7. -/
theorem test_Sensors_7 :
    exec (.throttleStep 1 0) live = .next live := by
  rfl

/-- The hypotheses of `Sensors`, clause 8. -/
theorem test_Sensors_8 :
    live.power.pwrgd = true := by
  decide

/-- The hypotheses of `Sensors`, clause 9. -/
theorem test_Sensors_9 :
    let s : State := { live with power := { live.power with good := [(157, true)] } }
    s.power.pwrgd = true ∧ domainGood s 157 = true := by
  decide

/-- The hypotheses of `Sensors`, clause 10. -/
theorem test_Sensors_10 :
    domainGood live 157 = false := by
  decide

/-- The hypotheses of `PowerDown`, clause 1. -/
theorem test_PowerDown_1 :
    ownerGate live boss 0x0100000C = true ∧ live.power.shutdown = 0 := by
  decide

/-- The hypotheses of `PowerDown`, clause 2. -/
theorem test_PowerDown_2 :
    let s : State := { live with power := { live.power with shutdown := 3 } }
    ownerGate s boss 0x0100000C = true ∧ s.power.shutdown ≠ 0 := by
  decide

/-- The hypotheses of `PowerDown`, clause 3. -/
theorem test_PowerDown_3 :
    live.power.shutdown = 0 := by
  decide

/-- The hypotheses of `PowerDown`, clause 4. -/
theorem test_PowerDown_4 :
    let s : State := { live with power := { live.power with shutdown := 3, dark := 8 } }
    s.power.pwrgd = true ∧ s.power.shutdown = 3 ∧ s.power.dark ≠ 0 := by
  decide

/-- The hypotheses of `PowerDown`, clause 5. -/
theorem test_PowerDown_5 :
    Instr.inputLoss ∈ [Instr.modRstNLow, .inputLoss] := by
  decide

/-- The hypotheses of `ScanChain`, clause 1. -/
theorem test_ScanChain_1 :
    inChain live (.bridge 1) = true ∧ inChain live (.lantern 7) = true ∧ inChain live (.site 1) = true := by
  decide

/-- The hypotheses of `ScanChain`, clause 2. -/
theorem test_ScanChain_2 :
    inChain live (.bridge 1) = true := by
  decide

/-- The hypotheses of `ScanChain`, clause 3. -/
theorem test_ScanChain_3 :
    inChain live (.bridge 1) = true := by
  decide

/-- The hypotheses of `ScanChain`, clause 4. -/
theorem test_ScanChain_4 :
    inChain live (.bridge 1) = true := by
  decide

/-- The hypotheses of `ScanChain`, clause 5. -/
theorem test_ScanChain_5 :
    inChain live (.bridge 1) = true := by
  decide

/-- The hypotheses of `ScanChain`, clause 6. -/
theorem test_ScanChain_6 :
    inChain live (.site 8) = false := by
  decide

/-- The hypotheses of `ScanChain`, clause 7. -/
theorem test_ScanChain_7 :
    ({ State.reset with power := live.power }.tap (.bridge 1)) = {} ∧ (JtagDie.bridge 0).id ≠ (JtagDie.bridge 1).id := by
  decide

/-- The hypotheses of `StepRunsFront`, clause 1. -/
theorem test_StepRunsFront_1 :
    ({ live with pending := [.rowMapRead] } : State).pending = .rowMapRead :: [] := by
  decide

/-- The hypotheses of `StepRunsFront`, clause 2. -/
theorem test_StepRunsFront_2 :
    live.pending = [] := by
  decide

/-- The hypotheses of `FrameOfEveryCommand`, clause 1. -/
theorem test_FrameOfEveryCommand_1 :
    exec .rowMapRead State.reset = .next State.reset := by
  rfl

/-- The hypotheses of `FrameOfEveryCommand`, clause 2. -/
theorem test_FrameOfEveryCommand_2 :
    StateField.mem ∉ footprint .rowMapRead ∧ exec .rowMapRead State.reset = .next State.reset := by
  exact ⟨by decide, rfl⟩

/-- The hypotheses of `InvariantKept`, clause 1. -/
theorem test_InvariantKept_1 :
    Inv live ∧ ∃ t, step live = .next t := by
  refine ⟨⟨by decide, fun k => ?_⟩, _, rfl⟩
  have : live.tally k = 0 := rfl
  omega

/-- The hypotheses of `SiteNumbers`, clause 1. -/
theorem test_SiteNumbers_1 :
    (3 : Nat) < skipCol live 7 := by
  decide

/-- The hypotheses of `SiteNumbers`, clause 2. -/
theorem test_SiteNumbers_2 :
    live.panel.mapRead = true ∧ skipCol live (63 / 8) ≤ 8 := by
  decide

/-- The hypotheses of `EscapesAndGenerator`, clause 1. -/
theorem test_EscapesAndGenerator_1 :
    nanBlock 127 { count := 2, pos0 := 31, pos1 := 0 } = false ∧ nanBlock 127 { count := 0 } = false := by
  decide

/-- The hypotheses of `EscapesAndGenerator`, clause 2. -/
theorem test_EscapesAndGenerator_2 :
    (2 : Nat) % 4 = 2 ∧ ¬ (1 ≤ ({ count := 1, pos0 := 31 } : Escapes).count ∧ ({ count := 1, pos0 := 31 } : Escapes).pos0 = 30) := by
  decide

end Sys2Proof.Tests
end

/-! Proofs of the obligations of spec/00_scope.md: register accesses and the itinerary store. -/

namespace Sys2Proof.Machine

open Sys2Proof

/-! ### Fields of a word (R11) -/

theorem testBit_bits (w lo n i : Nat) : (bits w lo n).testBit i = (decide (i < n) && w.testBit (lo + i)) := by
  simp [bits, Nat.testBit_mod_two_pow, Nat.testBit_shiftRight]

theorem bits_lt (w lo n : Nat) : bits w lo n < 2 ^ n := Nat.mod_lt _ (Nat.two_pow_pos n)

/-- A word with a field replaced is its part below the field, the value, and its part above the field. -/
theorem putBits_eq (w lo n v : Nat) :
    putBits w lo n v = 2 ^ lo * (2 ^ n * (w / 2 ^ lo / 2 ^ n) + v % 2 ^ n) + w % 2 ^ lo := by
  have split : 2 ^ lo * (2 ^ n * (w / 2 ^ lo / 2 ^ n) + bits w lo n) + w % 2 ^ lo = w := by
    rw [bits, Nat.shiftRight_eq_div_pow, Nat.div_add_mod, Nat.div_add_mod]
  unfold putBits
  rw [Nat.mul_add] at split ⊢
  omega

/-- A bit of a word with a field replaced: the value's within the field, the old word's elsewhere. -/
theorem testBit_putBits (w lo n v i : Nat) :
    (putBits w lo n v).testBit i = if lo ≤ i ∧ i < lo + n then v.testBit (i - lo) else w.testBit i := by
  have high : w / 2 ^ lo / 2 ^ n = w >>> (lo + n) := by
    rw [Nat.div_div_eq_div_mul, ← Nat.pow_add, Nat.shiftRight_eq_div_pow]
  rw [putBits_eq, Nat.testBit_two_pow_mul_add _ (Nat.mod_lt _ (Nat.two_pow_pos lo)),
    Nat.testBit_two_pow_mul_add _ (Nat.mod_lt _ (Nat.two_pow_pos n)), high]
  by_cases below : i < lo
  · simp [below, Nat.testBit_mod_two_pow, Nat.not_le.2 below]
  · by_cases within : i - lo < n
    · have : lo ≤ i ∧ i < lo + n := by omega
      simp [below, within, this, Nat.testBit_mod_two_pow]
    · have : ¬ (lo ≤ i ∧ i < lo + n) := by omega
      have place : lo + n + (i - lo - n) = i := by omega
      simp [below, within, this, Nat.testBit_shiftRight, place]

theorem bits_putBits_self (w lo n v : Nat) : bits (putBits w lo n v) lo n = v % 2 ^ n := by
  refine Nat.eq_of_testBit_eq fun i => ?_
  rw [testBit_bits, testBit_putBits, Nat.testBit_mod_two_pow]
  by_cases h : i < n <;> simp [h]

theorem bits_putBits_of_lt (w lo : Nat) {n v : Nat} (h : v < 2 ^ n) : bits (putBits w lo n v) lo n = v := by
  rw [bits_putBits_self, Nat.mod_eq_of_lt h]

theorem bits_putBits_apart (w v : Nat) {lo n lo' n' : Nat} (h : lo' + n' ≤ lo ∨ lo + n ≤ lo') :
    bits (putBits w lo n v) lo' n' = bits w lo' n' := by
  refine Nat.eq_of_testBit_eq fun i => ?_
  rw [testBit_bits, testBit_bits, testBit_putBits]
  by_cases hi : i < n'
  · have : ¬ (lo ≤ lo' + i ∧ lo' + i < lo + n) := by omega
    simp [hi, this]
  · simp [hi]

/-- A field within a word of 32 bits does not see what lies above the word. -/
theorem bits_mod_word (x : Nat) {lo n : Nat} (h : lo + n ≤ 32) : bits (x % 2 ^ 32) lo n = bits x lo n := by
  refine Nat.eq_of_testBit_eq fun i => ?_
  rw [testBit_bits, testBit_bits, Nat.testBit_mod_two_pow]
  by_cases hi : i < n
  · have : lo + i < 32 := by omega
    simp [hi, this]
  · simp [hi]

theorem clampTo_lt {lo hi v b : Nat} (hlo : lo < b) (hv : v < b) : clampTo lo hi v < b := by
  unfold clampTo
  split
  · exact hlo
  · split <;> omega

theorem clampTo_of_mem {lo hi v : Nat} (hlo : lo ≤ v) (hhi : v ≤ hi) : clampTo lo hi v = v := by
  simp [clampTo, Nat.not_lt.2 hlo, Nat.not_lt.2 hhi]

/-! ### The fields of the register map -/

/-- Two fields share no bit. -/
abbrev Field.Apart (f g : Field) : Prop := f.lo + f.width ≤ g.lo ∨ g.lo + g.width ≤ f.lo

/-- The fields of a row share no bit, and each can hold the least value that a write is held to. -/
def fieldsOk (fs : List Field) : Bool :=
  decide (fs.Pairwise Field.Apart) && fs.all fun f => decide (f.min < 2 ^ f.width)

theorem Field.Apart.symm {f g : Field} (h : f.Apart g) : g.Apart f := Or.symm h

theorem fieldsOk_cons {f : Field} {fs : List Field} (h : fieldsOk (f :: fs) = true) :
    (∀ g ∈ fs, f.Apart g) ∧ f.min < 2 ^ f.width ∧ fieldsOk fs = true := by
  simp only [fieldsOk, List.pairwise_cons, List.all_cons, Bool.and_eq_true, decide_eq_true_eq] at h ⊢
  obtain ⟨⟨hf, hfs⟩, hmin, hmins⟩ := h
  exact ⟨hf, hmin, hfs, hmins⟩

theorem findRow_mem {rs : List RegRow} {o k : Nat} {r : RegRow} (h : findRow rs o = some (r, k)) : r ∈ rs := by
  induction rs with
  | nil => cases h
  | cons x xs ih =>
    unfold findRow at h
    split at h
    · cases h; exact List.mem_cons_self
    · exact List.mem_cons_of_mem _ (ih h)

theorem devRows_fieldsOk : devRows.all (fun r => fieldsOk r.fields) = true := by decide
theorem pwrRows_fieldsOk : pwrRows.all (fun r => fieldsOk r.fields) = true := by decide
theorem secRows_fieldsOk : secRows.all (fun r => fieldsOk r.fields) = true := by decide
theorem lanRows_fieldsOk : lanRows.all (fun r => fieldsOk r.fields) = true := by decide
theorem hbgRows_fieldsOk : hbgRows.all (fun r => fieldsOk r.fields) = true := by decide
theorem tilRowsLow_fieldsOk : tilRowsLow.all (fun r => fieldsOk r.fields) = true := by decide
theorem tilRowsHigh_fieldsOk : tilRowsHigh.all (fun r => fieldsOk r.fields) = true := by decide

theorem findRow_fieldsOk {rs : List RegRow} (ok : rs.all (fun r => fieldsOk r.fields) = true) {o k : Nat} {r : RegRow}
    (h : findRow rs o = some (r, k)) : fieldsOk r.fields = true :=
  List.all_eq_true.1 ok r (findRow_mem h)

/-- Every register of the map keeps its fields apart. -/
theorem regRow_fieldsOk {a k : Nat} {r : RegRow} (h : regRow a = some (r, k)) : fieldsOk r.fields = true := by
  unfold regRow at h
  split at h
  · exact findRow_fieldsOk devRows_fieldsOk h
  split at h
  · exact findRow_fieldsOk pwrRows_fieldsOk h
  split at h
  · exact findRow_fieldsOk secRows_fieldsOk h
  split at h
  · cases h
  split at h
  · exact findRow_fieldsOk lanRows_fieldsOk h
  split at h
  · exact findRow_fieldsOk hbgRows_fieldsOk h
  split at h
  · cases h
  split at h
  · dsimp only at h
    split at h
    · exact findRow_fieldsOk tilRowsLow_fieldsOk h
    · exact findRow_fieldsOk tilRowsHigh_fieldsOk h
  · cases h

/-! ### What a write leaves in each field (R11, R12) -/

theorem writeFields_apart (t : AccessType) (w old : Nat) {f : Field} {fs : List Field} (h : ∀ g ∈ fs, f.Apart g) :
    bits (writeFields t w fs old) f.lo f.width = bits old f.lo f.width := by
  induction fs with
  | nil => rfl
  | cons g gs ih =>
    obtain ⟨hg, hgs⟩ := List.forall_mem_cons.1 h
    simp only [writeFields]
    split
    · rw [bits_putBits_apart _ _ hg, ih hgs]
    · exact ih hgs

/-- A field of the type written takes the value held to its range; a field of another type stays. -/
theorem bits_writeFields (t : AccessType) (w old : Nat) {f : Field} {fs : List Field} (ok : fieldsOk fs = true)
    (hf : f ∈ fs) :
    bits (writeFields t w fs old) f.lo f.width =
      if f.acc = t then clampTo f.min f.max (bits w f.lo f.width) else bits old f.lo f.width := by
  induction fs with
  | nil => cases hf
  | cons g gs ih =>
    obtain ⟨apart, hmin, oks⟩ := fieldsOk_cons ok
    simp only [writeFields]
    rcases List.mem_cons.1 hf with rfl | hf
    · split
      · exact bits_putBits_of_lt _ _ (clampTo_lt hmin (bits_lt ..))
      · exact writeFields_apart _ _ _ apart
    · split
      · rw [bits_putBits_apart _ _ (apart f hf).symm, ih oks hf]
      · exact ih oks hf

theorem clearFields_apart (w old : Nat) {f : Field} {fs : List Field} (h : ∀ g ∈ fs, f.Apart g) :
    bits (clearFields w fs old) f.lo f.width = bits old f.lo f.width := by
  induction fs with
  | nil => rfl
  | cons g gs ih =>
    obtain ⟨hg, hgs⟩ := List.forall_mem_cons.1 h
    simp only [clearFields]
    split
    · rw [bits_putBits_apart _ _ hg, ih hgs]
    · exact ih hgs

/-- A W1C field loses the bits written 1; a field of another type stays. -/
theorem bits_clearFields (w old : Nat) {f : Field} {fs : List Field} (ok : fieldsOk fs = true) (hf : f ∈ fs) :
    bits (clearFields w fs old) f.lo f.width =
      if f.acc = .w1c then bits old f.lo f.width - (bits old f.lo f.width &&& bits w f.lo f.width)
      else bits old f.lo f.width := by
  induction fs with
  | nil => cases hf
  | cons g gs ih =>
    obtain ⟨apart, -, oks⟩ := fieldsOk_cons ok
    simp only [clearFields]
    rcases List.mem_cons.1 hf with rfl | hf
    · rw [clearFields_apart _ _ apart]
      split
      · exact bits_putBits_of_lt _ _ (Nat.lt_of_le_of_lt (Nat.sub_le ..) (bits_lt ..))
      · exact clearFields_apart _ _ apart
    · split
      · rw [bits_putBits_apart _ _ (apart f hf).symm, ih oks hf]
      · exact ih oks hf

/-- The state with the word `w` staged for the register at `a`. -/
def State.stage (s : State) (a : Nat) (w : Word) : State := { s with staged := mset none s.staged a (some w) }

@[simp] theorem State.stage_reg (s : State) (a b : Nat) (w : Word) : (s.stage a w).reg b = s.reg b := rfl

@[simp] theorem State.stage_stagedAt_self (s : State) (a : Nat) (w : Word) : (s.stage a w).stagedAt a = some w := by
  simp [State.stage, State.stagedAt]

/-- The active word that a write of `v` leaves over the word `old`: RW fields written, W1C fields cleared. -/
def activeWord (fs : List Field) (old v : Word) : Word :=
  BitVec.ofNat 32 (clearFields v.toNat fs (writeFields .rw v.toNat fs old.toNat))

/-- The staged word that a write of `v` leaves over the word `old`: RWC fields written. -/
def stagedWord (fs : List Field) (old v : Word) : Word := BitVec.ofNat 32 (writeFields .rwc v.toNat fs old.toNat)

theorem bits_activeWord (old v : Word) {f : Field} {fs : List Field} (ok : fieldsOk fs = true) (hf : f ∈ fs)
    (hw : f.lo + f.width ≤ 32) :
    bits (activeWord fs old v).toNat f.lo f.width =
      if f.acc = .rw then clampTo f.min f.max (bits v.toNat f.lo f.width)
      else if f.acc = .w1c then
        bits old.toNat f.lo f.width - (bits old.toNat f.lo f.width &&& bits v.toNat f.lo f.width)
      else bits old.toNat f.lo f.width := by
  rw [activeWord, BitVec.toNat_ofNat, bits_mod_word _ hw, bits_clearFields _ _ ok hf, bits_writeFields _ _ _ ok hf]
  cases f.acc <;> simp

theorem bits_stagedWord (old v : Word) {f : Field} {fs : List Field} (ok : fieldsOk fs = true) (hf : f ∈ fs)
    (hw : f.lo + f.width ≤ 32) (hacc : f.acc = .rwc) :
    bits (stagedWord fs old v).toNat f.lo f.width = clampTo f.min f.max (bits v.toNat f.lo f.width) := by
  rw [stagedWord, BitVec.toNat_ofNat, bits_mod_word _ hw, bits_writeFields _ _ _ ok hf, if_pos hacc]

section

variable {s : State} {a k : Nat} {r : RegRow} (v : Word) (hrow : regRow a = some (r, k))
include hrow

/-- A write of a register without RWC fields stores the active word. -/
theorem fieldWrite_active (h : hasType .rwc r.fields = false) :
    fieldWrite s a v = s.setReg a (activeWord r.fields (s.reg a) v) := by
  simp only [fieldWrite, hrow, h]
  rfl

/-- A write of a register with RWC fields stores the active word and stages the other, over the word staged before or
else the active one. -/
theorem fieldWrite_staging (h : hasType .rwc r.fields = true) :
    let w := activeWord r.fields (s.reg a) v
    fieldWrite s a v = (s.setReg a w).stage a (stagedWord r.fields ((s.stagedAt a).getD w) v) := by
  have same : (s.setReg a (activeWord r.fields (s.reg a) v)).reg a = activeWord r.fields (s.reg a) v :=
    State.reg_setReg_self ..
  simp only [fieldWrite, hrow, h, if_true]
  rw [← activeWord, same]
  rfl

theorem fieldWrite_reg : (fieldWrite s a v).reg a = activeWord r.fields (s.reg a) v := by
  cases h : hasType .rwc r.fields with
  | false => rw [fieldWrite_active v hrow h, State.reg_setReg_self]
  | true => rw [fieldWrite_staging v hrow h, State.stage_reg, State.reg_setReg_self]

/-- A field of the active word after a write: an RW field's value held to its range, a W1C field less the bits written
1, any other as it was. -/
theorem fieldWrite_field {f : Field} (hf : f ∈ r.fields) (hw : f.lo + f.width ≤ 32) :
    (fieldWrite s a v).field a f.lo f.width =
      if f.acc = .rw then clampTo f.min f.max (bits v.toNat f.lo f.width)
      else if f.acc = .w1c then
        s.field a f.lo f.width - (s.field a f.lo f.width &&& bits v.toNat f.lo f.width)
      else s.field a f.lo f.width := by
  rw [State.field, fieldWrite_reg v hrow, bits_activeWord _ _ (regRow_fieldsOk hrow) hf hw]
  rfl

/-- An RWC field of the staged word after a write holds the value held to its range. -/
theorem fieldWrite_staged {f : Field} (hf : f ∈ r.fields) (hw : f.lo + f.width ≤ 32) (hacc : f.acc = .rwc) :
    ∃ w, (fieldWrite s a v).stagedAt a = some w ∧
      bits w.toNat f.lo f.width = clampTo f.min f.max (bits v.toNat f.lo f.width) := by
  have rwc : hasType .rwc r.fields = true := List.any_eq_true.2 ⟨f, hf, decide_eq_true hacc⟩
  rw [fieldWrite_staging v hrow rwc]
  exact ⟨_, State.stage_stagedAt_self .., bits_stagedWord _ _ (regRow_fieldsOk hrow) hf hw hacc⟩

end

/-! ### Which word an access names, and in which sizes (R7, R9, R442, R514) -/

/-- An access is of a size that the panel accepts at a word: four bytes at any, eight at the low word of a quantity. -/
theorem sizeOk_iff {sp : Spot} {off size : Nat} :
    sizeOk sp off size = true ↔
      off % 4 = 0 ∧ (size = 4 ∨ size = 8 ∧ off % 8 = 0 ∧ wordHalf sp = some 0) := by
  simp [sizeOk, and_assoc]

/-- Only the low word of a quantity takes accesses of eight bytes. -/
theorem size_of_sizeOk {sp : Spot} {off size : Nat} (fits : sizeOk sp off size = true) (half : wordHalf sp ≠ some 0) :
    size = 4 := by
  obtain ⟨-, h4 | ⟨-, -, low⟩⟩ := sizeOk_iff.1 fits
  · exact h4
  · exact absurd low half

/-- A master's access below the pages of the parties names a word of the window. -/
theorem spotOf_window {p : Path} {off : Nat} (hm : p.master.isSome = true) (h : off < 0x20000000) :
    spotOf { path := p, off } = .reg off := by
  have low : ¬ (0x20000000 ≤ off ∧ off < 0x24000000) := by omega
  cases p with
  | vf port q => cases hm
  | pf port => simp only [spotOf, low, if_false]
  | msg m => simp only [spotOf, low, if_false]

/-- Only a VF's access to its BAR4 names a word of its party's ring block. -/
theorem access_of_spotOf_board {acc : Access} {party o : Nat} (h : spotOf acc = .board party o) :
    ∃ port q, acc = { path := .vf port q, bar4 := true, off := 0x1000 + o } ∧ q.val = party := by
  obtain ⟨path, bar4, off⟩ := acc
  cases path with
  | vf port q =>
    cases bar4 with
    | false => simp only [spotOf] at h; split at h <;> cases h
    | true =>
      simp only [spotOf] at h
      split at h
      · cases h
      · split at h
        · rename_i block
          cases h
          exact ⟨port, q, by rw [Nat.add_sub_cancel' block.1], rfl⟩
        · cases h
  | pf port =>
    cases bar4 with
    | false => simp only [spotOf] at h; split at h <;> cases h
    | true => simp only [spotOf] at h; split at h <;> cases h
  | msg m =>
    cases bar4 with
    | false => simp only [spotOf] at h; split at h <;> cases h
    | true => cases h

/-! ### Reads (R8, R9, R10, R646) -/

section

variable {s : State} {acc : Access} {size : Nat}

theorem exec_lowWordRead : exec (.lowWordRead acc size) s = .next (busRead s acc size) := rfl

theorem busRead_unsupported (answers : pathSilent s acc.path = false)
    (h : pathClosed s acc.path = true ∨ sizeOk (spotOf acc) acc.off size = false) :
    busRead s acc size = answer s .unsupported := by
  rcases h with h | h <;> simp [busRead, answers, h]

variable (answers : pathSilent s acc.path = false) (opened : pathClosed s acc.path = false)
include answers opened

theorem busRead_reserved (fits : sizeOk (spotOf acc) acc.off size = true) (h : present s (spotOf acc) = false) :
    busRead s acc size = answer (accessError s acc 1) .ok (List.replicate (size / 4) 0) := by
  simp [busRead, answers, opened, fits, h]

theorem busRead_quantity (fits : sizeOk (spotOf acc) acc.off 8 = true) (h : present s (spotOf acc) = true) :
    busRead s acc 8 =
      answer s .ok [spotView s (spotOf acc), spotView s (spotOf { acc with off := acc.off + 4 })] := by
  simp [busRead, answers, opened, fits, h]

theorem busRead_word (fits : sizeOk (spotOf acc) acc.off 4 = true) (h : present s (spotOf acc) = true) :
    busRead s acc 4 = answer (readWord s acc).2 .ok [(readWord s acc).1] := by
  simp [busRead, answers, opened, fits, h]

end

section

variable {s : State} {acc : Access} (h : present s (spotOf acc) = true)
include h

/-- A read of a low word latches the high word for its path. -/
theorem readWord_low (half : wordHalf (spotOf acc) = some 0) :
    readWord s acc = (spotView s (spotOf acc),
      { s with
        rlatch := mset none s.rlatch (latchKey acc.path acc.off)
          (some (spotView s (spotOf { acc with off := acc.off + 4 }))) }) := by
  simp [readWord, h, half]

/-- A read of a high word comes from the path's latch, if it holds one. -/
theorem readWord_high (half : wordHalf (spotOf acc) = some 1) :
    readWord s acc =
      ((mget none s.rlatch (latchKey acc.path (acc.off - 4))).getD (spotView s (spotOf acc)), s) := by
  simp [readWord, h, half]

theorem readWord_single (half : wordHalf (spotOf acc) = none) :
    readWord s acc = (spotView s (spotOf acc), readTouch s (spotOf acc)) := by
  simp [readWord, h, half]

end

/-! ### Writes (R8, R9, R11, R442, R496, R497) -/

/-- The access comes in and names a word that a write can act on. -/
structure Acts (s : State) (acc : Access) : Prop where
  answers : pathSilent s acc.path = false
  opened : pathClosed s acc.path = false
  present : present s (spotOf acc) = true
  acts : actsOn (spotOf acc) = true

section

variable {s : State} {acc : Access}

theorem exec_registerWrite {size : Nat} {d : Dword} :
    exec (.registerWrite acc size d) s = execRegisterWrite acc size d s := rfl

theorem execRegisterWrite_unsupported {size : Nat} {d : Dword} (answers : pathSilent s acc.path = false)
    (h : pathClosed s acc.path = true ∨ sizeOk (spotOf acc) acc.off size = false) :
    execRegisterWrite acc size d s = .next (answer s .unsupported) := by
  cases fits : sizeOk (spotOf acc) acc.off size with
  | false => simp [execRegisterWrite, answers, fits]
  | true =>
    have closed : pathClosed s acc.path = true := by simpa [fits] using h
    by_cases h8 : size = 8
    · subst h8; simp [execRegisterWrite, busWrite8, answers, fits, closed]
    · simp [execRegisterWrite, busWrite, answers, fits, closed, h8]

theorem execRegisterWrite_reserved {size : Nat} {d : Dword} (answers : pathSilent s acc.path = false)
    (opened : pathClosed s acc.path = false) (fits : sizeOk (spotOf acc) acc.off size = true)
    (h : present s (spotOf acc) = false) : execRegisterWrite acc size d s = .next (refused s acc 1) := by
  by_cases h8 : size = 8
  · subst h8; simp [execRegisterWrite, busWrite8, answers, fits, opened, h]
  · simp [execRegisterWrite, busWrite, answers, fits, opened, h, h8]

/-- A write of an aligned word is a write of its four bytes on the bus. -/
theorem execRegisterWrite_word {d : Dword} (answers : pathSilent s acc.path = false) (aligned : acc.off % 4 = 0) :
    execRegisterWrite acc 4 d s = .next (busWrite s acc (BitVec.ofNat 32 d.toNat)) := by
  have fits : sizeOk (spotOf acc) acc.off 4 = true := sizeOk_iff.2 ⟨aligned, .inl rfl⟩
  simp [execRegisterWrite, answers, fits]

theorem busWrite_readOnly {v : Word} (answers : pathSilent s acc.path = false) (opened : pathClosed s acc.path = false)
    (h : present s (spotOf acc) = true) (ro : actsOn (spotOf acc) = false) : busWrite s acc v = answer s .ok := by
  simp [busWrite, answers, opened, h, ro]

/-- What a write that acts does, by the kind of word it names: an owner write of the window or a leadership command, a
write of a party's page or ring, or of an MSI-X table. -/
def spotWrite (s : State) (acc : Access) (v : Word) : Spot → State
  | .reg a =>
    if a = 0x8004 then leaderWrite s acc v else ownerWrite s acc.path a v (fun s => regWrite s acc v)
  | .page party o => partyWrite s acc.path party o v (fun s => pageSet s acc o v)
  | .board party o => boardWrite s acc.path (party + 1) o v (fun acc s => ringEffect s acc (party + 1) o v)
  | .msix f o => answer (msixWrite s f o v) .ok
  | .gone => s

theorem busWrite_acts (h : Acts s acc) (v : Word) {sp : Spot} (hsp : spotOf acc = sp) :
    busWrite s acc v = spotWrite s acc v sp := by
  obtain ⟨answers, opened, here, acts⟩ := h
  rw [hsp] at here acts
  simp only [busWrite, answers, opened, hsp, here, acts]
  cases sp <;> rfl

/-- A write of eight bytes to a quantity of the window is an owner write of both words at once. -/
theorem execRegisterWrite_quad (h : Acts s acc) {a : Nat} {d : Dword} (sp : spotOf acc = .reg a)
    (fits : sizeOk (.reg a) acc.off 8 = true) :
    execRegisterWrite acc 8 d s = .next (ownerWrite s acc.path a (BitVec.ofNat 32 d.toNat)
      (fun s => quadWrite (dropLow s acc.path a) acc a d.toNat)) := by
  obtain ⟨answers, opened, here, acts⟩ := h
  rw [sp] at here acts
  simp [execRegisterWrite, busWrite8, answers, opened, sp, here, acts, fits]

end

/-- A write to a present word of a party's page through an open gate does what it does and completes. -/
theorem partyWrite_gate {s : State} {p : Path} {party o : Nat} (here : present s (.page party o) = true)
    (gate : pageGate s p (pageTile o) o = true) (v : Word) (f : State → State) :
    partyWrite s p party o v f = answer (f s) .ok := by
  simp only [present, Bool.and_eq_true, decide_eq_true_eq] at here
  obtain ⟨⟨exist, -⟩, owner⟩ := here
  cases p with
  | vf port q =>
    simp only [pageGate, Bool.and_eq_true, Bool.not_eq_true', decide_eq_true_eq, owner] at gate
    obtain ⟨⟨⟨⟨answers, opened⟩, -⟩, safe⟩, mine⟩ := gate
    simp [partyWrite, ← mine, answers, opened, safe, exist]
  | pf port =>
    simp only [pageGate, Bool.and_eq_true, owner] at gate
    obtain ⟨answers, opened, -⟩ := ownerGate_parts gate.2
    simp [partyWrite, answers, opened, exist, ownerWrite_gate gate.2]
  | msg m =>
    simp only [pageGate, Bool.and_eq_true, owner] at gate
    obtain ⟨answers, opened, -⟩ := ownerGate_parts gate.2
    simp [partyWrite, answers, opened, exist, ownerWrite_gate gate.2]

/-- A write to a party's ring that comes in and names a word of it does what it does and completes. -/
theorem boardWrite_acts {s : State} {acc : Access} (h : Acts s acc) {party o : Nat} (sp : spotOf acc = .board party o)
    (v : Word) (f : Access → State → State) :
    boardWrite s acc.path (party + 1) o v f = answer (f acc s) .ok := by
  obtain ⟨answers, opened, here, -⟩ := h
  rw [sp] at here
  obtain ⟨port, q, rfl, rfl⟩ := access_of_spotOf_board sp
  have gate : boardGate s (.vf port q) (q.val + 1) o = true := by
    simp only [present, Bool.and_eq_true] at here
    simp [boardGate, answers, opened, here.1]
  exact boardWrite_gate gate v f

/-- An owner write to a word of the window, whole: through an open gate it does what a write to the word does. -/
theorem exec_registerWrite_owner {s : State} {p : Path} {a : Nat} (gate : ownerGate s p a = true)
    (word : (windowWord a).any (·.2) = true) (aligned : a % 4 = 0) (low : a < 0x20000000) (ha : a ≠ 0x8004)
    (d : Dword) :
    exec (.registerWrite { path := p, off := a } 4 d) s =
      .next (answer (regWrite s { path := p, off := a } (BitVec.ofNat 32 d.toNat)) .ok) := by
  obtain ⟨answers, opened, ⟨m, hm, -⟩, trained, -⟩ := ownerGate_parts gate
  have sp : spotOf { path := p, off := a } = .reg a := spotOf_window (by simp [hm]) low
  have some : (windowWord a).isSome = true := by
    obtain ⟨w, hw, -⟩ := (Option.any_eq_true ..).1 word
    exact Option.isSome_of_mem hw
  have acts : Acts s { path := p, off := a } :=
    ⟨answers, opened, by simp [sp, present, some, trained], by rw [sp]; exact word⟩
  rw [exec_registerWrite, execRegisterWrite_word answers aligned, busWrite_acts acts _ sp, spotWrite, if_neg ha,
    ownerWrite_gate gate]


/-! ### The statements -/

theorem exec_registerWrite_leaseSeconds {s : State} {p : Path} (d : Dword) (gate : ownerGate s p 0x8008 = true) :
    exec (.registerWrite { path := p, off := 0x8008 } 4 d) s =
      .next (answer (s.setReg 0x8008 (BitVec.ofNat 32 (putBits (s.reg 0x8008).toNat 0 6
        (clampTo 1 60 (bits (d.toNat % 2 ^ 32) 0 6))))) .ok) := by
  have single : wordHalf (.reg 0x8008) = none := by decide
  have effect : ∀ v, regWrite s { path := p, off := 0x8008 } v = fieldWrite s 0x8008 v := fun v => by
    simp [regWrite, devWrite, single]
  have row : regRow 0x8008 = some ({ off := 0x8008, fields := [fRw 0 6 0x0A 1 60] }, 0) := rfl
  rw [exec_registerWrite_owner gate (by decide) (by decide) (by decide) (by decide), effect,
    fieldWrite_active _ row rfl]
  rfl

theorem exec_registerWrite_panelLead {s : State} {p : Path} (d : Dword) (gate : ownerGate s p 0x7000 = true) :
    exec (.registerWrite { path := p, off := 0x7000 } 4 d) s =
      .next (answer { s.setReg 0x7000 (s.reg 0x7000) with
        staged := mset none s.staged 0x7000 (some (BitVec.ofNat 32
          (putBits ((s.stagedAt 0x7000).getD (s.reg 0x7000)).toNat 0 16 (bits d.toNat 0 16)))) } .ok) := by
  have single : wordHalf (.reg 0x7000) = none := by decide
  have effect : ∀ v, regWrite s { path := p, off := 0x7000 } v = fieldWrite s 0x7000 v := fun v => by
    simp [regWrite, devWrite, single]
  have row : regRow 0x7000 = some ({ off := 0x7000, fields := [fRwc 0 16 0xC8] }, 0) := rfl
  have kept : ∀ v, activeWord [fRwc 0 16 0xC8] (s.reg 0x7000) v = s.reg 0x7000 := fun v => by
    simp [activeWord, clearFields, writeFields, fRwc]
  have taken : clampTo 0 (2 ^ 32 - 1) (bits (d.toNat % 2 ^ 32) 0 16) = bits d.toNat 0 16 := by
    rw [bits_mod_word _ (by decide)]
    have := bits_lt d.toNat 0 16
    exact clampTo_of_mem (Nat.zero_le _) (by omega)
  rw [exec_registerWrite_owner gate (by decide) (by decide) (by decide) (by decide), effect,
    fieldWrite_staging _ row rfl, kept]
  simp only [stagedWord, writeFields, fRwc, BitVec.toNat_ofNat, if_true, taken]
  rfl

/-- Settles O34: reads and writes by the cases of the bus, and the fields of a write by `fieldWrite_field`, which rests
on no row of the map having fields that overlap. -/
theorem registerAccess : Obligations.RegisterAccess := by
  unfold Obligations.RegisterAccess
  refine ⟨?reads, ?discarded, ?acting, ?fields, ?lease, ?panelLead⟩
  case reads =>
    intro s acc size sp answers
    refine ⟨fun h => ?_, fun opened fits absent => ?_, fun opened fits here => ⟨fun h8 => ?_, fun h4 low => ?_,
      fun high => ?_, fun single => ?_⟩⟩
    · rw [exec_lowWordRead, busRead_unsupported answers h]
    · rw [exec_lowWordRead, busRead_reserved answers opened fits absent]
    · subst h8
      rw [exec_lowWordRead, busRead_quantity answers opened fits here]
    · subst h4
      rw [exec_lowWordRead, busRead_word answers opened fits here, readWord_low here low]
    · obtain rfl := size_of_sizeOk fits (by simp [high])
      rw [exec_lowWordRead, busRead_word answers opened fits here, readWord_high here high]
    · obtain rfl := size_of_sizeOk fits (by simp [single])
      rw [exec_lowWordRead, busRead_word answers opened fits here, readWord_single here single]
  case discarded =>
    intro s acc size d sp answers
    refine ⟨fun h => ?_, fun opened fits absent => ?_, fun opened aligned here ro => ?_⟩
    · exact execRegisterWrite_unsupported answers h
    · exact execRegisterWrite_reserved answers opened fits absent
    · rw [exec_registerWrite, execRegisterWrite_word answers aligned, busWrite_readOnly answers opened here ro]
  case acting =>
    intro s acc d sp v answers opened aligned here acts
    have word := execRegisterWrite_word (d := d) answers aligned
    have h : Acts s acc := ⟨answers, opened, here, acts⟩
    refine ⟨fun a hsp ha gate => ?_, fun hsp => ?_, fun p o hsp gate => ?_, fun p o hsp => ?_, fun f o hsp => ?_,
      fun a hsp fits gate => ?_⟩
    · rw [exec_registerWrite, word, busWrite_acts h _ hsp, spotWrite, if_neg ha, ownerWrite_gate gate]
    · rw [exec_registerWrite, word, busWrite_acts h _ hsp, spotWrite, if_pos rfl]
    · rw [exec_registerWrite, word, busWrite_acts h _ hsp, spotWrite, partyWrite_gate (hsp ▸ here) gate]
    · rw [exec_registerWrite, word, busWrite_acts h _ hsp, spotWrite, boardWrite_acts h hsp]
    · rw [exec_registerWrite, word, busWrite_acts h _ hsp, spotWrite]
    · rw [exec_registerWrite, execRegisterWrite_quad h hsp (hsp ▸ fits), ownerWrite_gate gate]
  case fields =>
    intro s a k v r f row hf hw taken old
    have field := fieldWrite_field (s := s) v row hf hw
    refine ⟨fun rw => ?_, fun w1c => ?_, fun rwc => ⟨?_, fieldWrite_staged v row hf hw rwc⟩, fun other => ?_⟩
    · rw [field, if_pos rw]
    · rw [field, w1c]; rfl
    · rw [field, rwc]; rfl
    · rcases other with ro | wo
      · rw [field, ro]; rfl
      · rw [field, wo]; rfl
  case lease => exact fun s p d gate => exec_registerWrite_leaseSeconds d gate
  case panelLead => exact fun s p d gate => exec_registerWrite_panelLead d gate

/-! ### The itinerary store (R473 to R476, R490, R491) -/

theorem State.slot_setSlot (s : State) (k j : Nat) (x : Slot) :
    (s.setSlot k x).slot j = if k = j then x else s.slot j := mget_mset ..

@[simp] theorem State.slot_setSlot_self (s : State) (k : Nat) (x : Slot) : (s.setSlot k x).slot k = x :=
  mget_mset_self ..

@[simp] theorem State.setSlot_store (s : State) (k : Nat) (x : Slot) : (s.setSlot k x).itin.store = s.itin.store := rfl
@[simp] theorem State.setSlot_slotSel (s : State) (k : Nat) (x : Slot) :
    (s.setSlot k x).itin.slotSel = s.itin.slotSel := rfl

@[simp] theorem answer_slot (s : State) (st : Status) (ws : List Word) (k : Nat) : (answer s st ws).slot k = s.slot k :=
  rfl

/-- Posting an access error leaves the itinerary alone. -/
@[simp] theorem accessError_itin (s : State) (a : Access) (reason : Nat) : (accessError s a reason).itin = s.itin :=
  (accessError_only (Only.refl 1032 s) (rfl : 1032 &&& 1032 = 1032)).frame .itin (by decide)

/-- A VALID detour loses its base; any other slot stays. -/
def loseBase (j : Nat) (s : State) : State :=
  if (s.slot j).state = .valid then s.setSlot j { state := .wrongBase } else s

theorem loseBase_slot (j i : Nat) (s : State) :
    (loseBase j s).slot i =
      if j = i ∧ (s.slot i).state = .valid then { state := .wrongBase } else s.slot i := by
  unfold loseBase
  by_cases hj : j = i
  · subst hj
    split <;> simp [*]
  · split <;> simp [hj, State.slot_setSlot]

@[simp] theorem loseBase_store (j : Nat) (s : State) : (loseBase j s).itin.store = s.itin.store := by
  unfold loseBase; split <;> rfl

theorem each_loseBase_store (js : List Nat) (s : State) : (s.each js loseBase).itin.store = s.itin.store := by
  induction js generalizing s with
  | nil => rfl
  | cons j js ih => exact (ih (loseBase j s)).trans (loseBase_store j s)

/-- Of the slots in a list the VALID ones turn to WRONG_BASE, and no other slot changes. -/
theorem each_loseBase_slot (js : List Nat) (s : State) (i : Nat) :
    (s.each js loseBase).slot i =
      if i ∈ js ∧ (s.slot i).state = .valid then { state := .wrongBase } else s.slot i := by
  induction js generalizing s with
  | nil => simp [State.each]
  | cons j js ih =>
    refine (ih (loseBase j s)).trans ?_
    rw [loseBase_slot]
    by_cases hv : (s.slot i).state = .valid
    · by_cases hj : j = i
      · simp [hv, hj]
      · simp [hv, hj, Ne.symm hj]
    · simp [hv]

/-- What a word written into a slot makes of the state, but for the detours of a base. -/
def putStoreWord (s : State) (off k : Nat) (v : Word) : State :=
  { s with itin := { s.itin with store := mset 0 s.itin.store off v } }.setSlot k {}

@[simp] theorem putStoreWord_store (s : State) (off k : Nat) (v : Word) :
    (putStoreWord s off k v).itin.store = mset 0 s.itin.store off v := rfl

theorem putStoreWord_slot (s : State) (off k j : Nat) (v : Word) :
    (putStoreWord s off k v).slot j = if k = j then {} else s.slot j := State.slot_setSlot ..

theorem storeWrite_base {s : State} {off : Nat} (v : Word) (h : slotAt off = some 0) :
    storeWrite s off v = (putStoreWord s off 0 v).each (List.range 33) loseBase := by
  simp only [storeWrite, h]; rfl

theorem storeWrite_detour {s : State} {off k : Nat} (v : Word) (h : slotAt off = some k) (hk : k ≠ 0) :
    storeWrite s off v = putStoreWord s off k v := by
  simp only [storeWrite, h, if_neg hk]; rfl

theorem storeWrite_store {s : State} {off k : Nat} (v : Word) (h : slotAt off = some k) :
    (storeWrite s off v).itin.store = mset 0 s.itin.store off v := by
  by_cases hk : k = 0
  · subst hk
    rw [storeWrite_base v h, each_loseBase_store, putStoreWord_store]
  · rw [storeWrite_detour v h hk, putStoreWord_store]

/-- The slot that a word is written into is EMPTY. -/
theorem storeWrite_slot_self {s : State} {off k : Nat} (v : Word) (h : slotAt off = some k) :
    (storeWrite s off v).slot k = {} := by
  by_cases hk : k = 0
  · subst hk
    rw [storeWrite_base v h, each_loseBase_slot, putStoreWord_slot]
    simp
  · rw [storeWrite_detour v h hk, putStoreWord_slot, if_pos rfl]

/-- A VALID detour turns to WRONG_BASE as a word of the base is written. -/
theorem storeWrite_slot_detour {s : State} {off j : Nat} (v : Word) (h : slotAt off = some 0) (hj : j < 33)
    (h0 : j ≠ 0) (hv : (s.slot j).state = .valid) : ((storeWrite s off v).slot j).state = .wrongBase := by
  rw [storeWrite_base v h, each_loseBase_slot, putStoreWord_slot, if_neg (Ne.symm h0),
    if_pos ⟨List.mem_range.2 hj, hv⟩]

/-! #### Writes that a fold in progress discards -/

section

variable {s : State} {p : Path} {off : Nat} (v : Word) (effect : State → State)

/-- Through an open gate, which no fold in progress closes, the write does what it does and completes. -/
theorem itinWrite_gate (gate : ownerGate s p off = true) :
    itinWrite s p off v effect = answer (effect s) .ok := by
  obtain ⟨-, -, -, -, -, idle⟩ := ownerGate_parts gate
  rw [itinWrite, ownerWrite_gate gate]
  simp [idle]

/-- With a fold in progress and a gate that would be open without it, a write that is not held is an access error. -/
theorem itinWrite_busy (gate : ownerGate { s with itin := { s.itin with plan := none } } p off = true)
    (busy : s.itin.plan.isSome = true) (fold : isFoldReg off = false) (rwc : holdsRwc off = false) :
    itinWrite s p off v effect = answer (accessError s { path := p, off } 3) .ok := by
  obtain ⟨answers, opened, ⟨m, hm, lead⟩, trained, safe, -⟩ := ownerGate_parts gate
  have answers' : pathSilent s p = false := answers
  have opened' : pathClosed s p = false := opened
  have lead' : s.lead.leader = some m := lead
  have trained' : untrained s off = false := trained
  have safe' : (s.safe.active && !safeWritable off) = false := safe
  simp [itinWrite, ownerWrite, answers', opened', hm, trained', safe', lead', fold, rwc, busy]

end

/-! #### Verification and saving -/

@[simp] theorem startVerify_slotSel (s : State) (p : Path) (k : Nat) : (startVerify s p k).itin.slotSel = k := by
  unfold startVerify
  dsimp only
  split
  · rw [accessError_itin]
  · rfl

theorem startVerify_of_slot {s : State} (p : Path) {k : Nat} (hk : k ≤ 32) :
    startVerify s p k = { s with itin := { s.itin with slotSel := k } }.setSlot k { state := .verifying } :=
  if_neg (Nat.not_lt.2 hk)

/-- The verification that ends is that of the lowest slot that is verifying. -/
theorem execItinVerifyDone_of_first {s : State} {k : Nat} (hk : k < 33) (verifying : (s.slot k).state = .verifying)
    (first : ∀ j < k, (s.slot j).state ≠ .verifying) (good : s.power.pwrgd = true) :
    execItinVerifyDone s = .next (s.setSlot k (verdict s k)) := by
  have found : (List.range 33).find? (fun k => (s.slot k).state = .verifying) = some k :=
    List.find?_range_eq_some.2 ⟨by simpa using verifying, List.mem_range.2 hk, by simpa using first⟩
  simp [execItinVerifyDone, found, good]

/-- How a verification ends, in the order of its checks (R474 to R476). -/
theorem verdict_cases (s : State) (k : Nat) :
    headerOk s k = false ∧ (verdict s k).state = .badFormat ∨
    headerOk s k = true ∧ signatureOk s k = false ∧ (verdict s k).state = .badSignature ∨
    headerOk s k = true ∧ signatureOk s k = true ∧ (slotSections s k).isSome = false ∧
      (verdict s k).state = .badFormat ∨
    headerOk s k = true ∧ signatureOk s k = true ∧ (slotSections s k).isSome = true ∧ (k = 0 ∨ baseOk s k = true) ∧
      (verdict s k).state = .valid ∨
    headerOk s k = true ∧ signatureOk s k = true ∧ (slotSections s k).isSome = true ∧ k ≠ 0 ∧ baseOk s k = false ∧
      (verdict s k).state = .wrongBase := by
  cases header : headerOk s k with
  | false => simp [verdict, header]
  | true =>
    cases signature : signatureOk s k with
    | false => simp [verdict, header, signature]
    | true =>
      cases sections : slotSections s k with
      | none => simp [verdict, header, signature, sections]
      | some xs =>
        by_cases h0 : k = 0
        · subst h0; simp [verdict, header, signature, sections]
        · cases base : baseOk s k with
          | false => simp [verdict, header, signature, sections, h0, base]
          | true => simp [verdict, header, signature, sections, base]

/-- Each verdict by the checks that give it. -/
theorem verdict_state_iff (s : State) (k : Nat) :
    ((verdict s k).state = .valid ↔ headerOk s k = true ∧ signatureOk s k = true ∧
      (slotSections s k).isSome = true ∧ (k = 0 ∨ baseOk s k = true)) ∧
    ((verdict s k).state = .badFormat ↔
      headerOk s k = false ∨ signatureOk s k = true ∧ (slotSections s k).isSome = false) ∧
    ((verdict s k).state = .badSignature ↔ headerOk s k = true ∧ signatureOk s k = false) ∧
    ((verdict s k).state = .wrongBase ↔ headerOk s k = true ∧ signatureOk s k = true ∧
      (slotSections s k).isSome = true ∧ k ≠ 0 ∧ baseOk s k = false) := by
  rcases verdict_cases s k with ⟨header, v⟩ | ⟨header, signature, v⟩ | ⟨header, signature, sections, v⟩ |
    ⟨header, signature, sections, base, v⟩ | ⟨header, signature, sections, detour, base, v⟩
  · simp [v, header]
  · simp [v, header, signature]
  · simp [v, header, signature, sections]
  · simpa [v, header, signature, sections, base] using base.resolve_left
  · simp [v, header, signature, sections, detour, base]

theorem slotAt_lt {a k : Nat} (h : slotAt a = some k) : k < 33 := by
  unfold slotAt at h
  split at h
  · cases h; decide
  · split at h
    · rename_i detour
      simp only [Bool.and_eq_true, decide_eq_true_eq] at detour
      cases h; omega
    · cases h

/-- The words of the VALID slots, which a save copies (R491). -/
def savedStore (s : State) : SMap Word :=
  mdrop (fun a => !((slotAt a).any (validSlots s).contains)) s.itin.store

theorem startSave_itin (s : State) :
    (startSave s).itin = { s.itin with saving := some (savedStore s, validSlots s, s.itin.sel) } := rfl

theorem mget_savedStore {s : State} {a k : Nat} (h : slotAt a = some k) (valid : (s.slot k).state = .valid) :
    mget 0 (savedStore s) a = mget 0 s.itin.store a := by
  have mem : k ∈ validSlots s := by simp [validSlots, valid, slotAt_lt h]
  simp [savedStore, mget_mdrop, h, mem]

/-! #### The commands of the store -/

section

variable {s : State} {p : Path}

theorem exec_itinStoreWrite_slot {offset : Nat} {data : Word} (h : (slotAt (offset / 4 * 4)).isSome = true) :
    exec (.itinStoreWrite p offset data) s =
      .next (itinWrite s p (offset / 4 * 4) data (fun s => storeWrite s (offset / 4 * 4) data)) :=
  if_pos h

theorem exec_itinStoreWrite_reserved {offset : Nat} {data : Word} (h : slotAt (offset / 4 * 4) = none)
    (answers : pathSilent s p = false) (opened : pathClosed s p = false) :
    exec (.itinStoreWrite p offset data) s = .next (refused s { path := p, off := offset / 4 * 4 } 1) := by
  have run : exec (.itinStoreWrite p offset data) s = execItinStoreWrite p offset data s := rfl
  simp [run, execItinStoreWrite, h, answers, opened]

theorem exec_verify {slot : Fin 64} : exec (.verify p slot) s =
    .next (itinWrite s p 0x8080 (BitVec.ofNat 32 (slot.val + 256)) (fun s => startVerify s p slot.val)) := rfl

theorem exec_save : exec (.save p) s = .next (itinWrite s p 0x8080 0x200 startSave) := rfl

theorem exec_foldGo : exec (.foldGo p) s =
    .next (itinWrite s p 0x8020 1 (fun s => beginFold s s.itin.sel false)) := rfl

theorem exec_itinSaveDone {b : SMap Word × List Nat × Word} (h : s.itin.saving = some b) :
    exec .itinSaveDone s =
      .next { s with
        itin := { s.itin with saving := none, bootStore := some b }, sec := { s.sec with jkStored := s.sec.jk } } := by
  have run : exec .itinSaveDone s = execItinSaveDone s := rfl
  simp [run, execItinSaveDone, h]

end

/-- Settles O36: each write through its gate, and the verdict by the cases of its definition. -/
theorem itineraryStore : Obligations.ItineraryStore := by
  unfold Obligations.ItineraryStore
  refine ⟨?written, ?reserved, ?busy, ?verify, ?verified, ?save, ?saved⟩
  case written =>
    intro s p offset k data hk gate
    refine ⟨answer (storeWrite s (offset / 4 * 4) data) .ok, ?_, rfl, ?_, fun _ => ?_, fun h0 => ⟨?_, ?_⟩,
      fun a ha => ?_⟩
    · rw [exec_itinStoreWrite_slot (by simp [hk]), itinWrite_gate _ _ gate]
    · rw [answer_itin, storeWrite_store data hk, mget_mset_self]
    · exact storeWrite_slot_self data hk
    · subst h0; exact storeWrite_slot_self data hk
    · subst h0; exact fun j hj hv h0 => storeWrite_slot_detour data hk hj h0 hv
    · rw [answer_itin, storeWrite_store data hk, mget_mset_other _ _ _ (Ne.symm ha)]
  case reserved => exact fun s p offset data hk answers opened => exec_itinStoreWrite_reserved hk answers opened
  case busy =>
    intro s p plan idle busy
    refine ⟨fun gate => ⟨?_, fun slot => ?_⟩, fun gate => ?_, fun offset data hk gate fold rwc => ?_⟩
    · rw [exec_save, itinWrite_busy _ _ gate plan (by decide) (by decide)]
    · rw [exec_verify, itinWrite_busy _ _ gate plan (by decide) (by decide)]
    · rw [exec_foldGo, itinWrite_busy _ _ gate plan (by decide) (by decide)]
    · rw [exec_itinStoreWrite_slot hk, itinWrite_busy _ _ gate plan fold rwc]
  case verify =>
    intro s p slot gate
    refine ⟨answer (startVerify s p slot.val) .ok, ?_, rfl, startVerify_slotSel .., fun hk => ?_⟩
    · rw [exec_verify, itinWrite_gate _ _ gate]
    · rw [answer_slot, answer_itin, startVerify_of_slot p hk, State.slot_setSlot_self, State.setSlot_store]
      exact ⟨rfl, rfl⟩
  case verified =>
    intro s k hk verifying first good
    exact ⟨execItinVerifyDone_of_first hk verifying first good, verdict_state_iff s k⟩
  case save =>
    intro s p gate
    refine ⟨answer (startSave s) .ok, savedStore s, ?_, rfl, startSave_itin s, fun a k => mget_savedStore⟩
    rw [exec_save, itinWrite_gate _ _ gate]
  case saved => exact fun s b h => exec_itinSaveDone h


end Sys2Proof.Machine

/-! Proofs of the obligations of spec/01_panel.md: the reset state, the row skip map, field retirement, guests, strands
and the training of the hampers. -/

namespace Sys2Proof.Machine

open Sys2Proof

/-! ### What posting a record leaves alone (R512) -/

section

variable (s : State) (cls src payload party : Nat)

theorem post_only_self : Only 1032 s (post s cls src payload party) :=
  post_only (Only.refl _ s) (rfl : 1032 &&& 1032 = 1032)

@[simp] theorem post_panel : (post s cls src payload party).panel = s.panel :=
  (post_only_self s cls src payload party).frame .panel (by decide)
@[simp] theorem post_regs : (post s cls src payload party).regs = s.regs :=
  (post_only_self s cls src payload party).frame .regs (by decide)
@[simp] theorem post_power : (post s cls src payload party).power = s.power :=
  (post_only_self s cls src payload party).frame .power (by decide)
@[simp] theorem post_safe : (post s cls src payload party).safe = s.safe :=
  (post_only_self s cls src payload party).frame .safe (by decide)

end

theorem State.reg_congr {s t : State} (h : t.regs = s.regs) (a : Nat) : t.reg a = s.reg a := by
  unfold State.reg; rw [h]

theorem State.field_congr {s t : State} (h : t.regs = s.regs) (a lo n : Nat) : t.field a lo n = s.field a lo n := by
  unfold State.field; rw [State.reg_congr h]

theorem State.guest_congr {s t : State} (h : t.panel = s.panel) (n : Nat) : t.guest n = s.guest n := by
  unfold State.guest; rw [h]

theorem State.strand_congr {s t : State} (h : t.panel = s.panel) (l : Strand) : t.strand l = s.strand l := by
  unfold State.strand; rw [h]

@[simp] theorem post_reg (s : State) (cls src payload party a : Nat) :
    (post s cls src payload party).reg a = s.reg a := State.reg_congr (post_regs ..) a

@[simp] theorem post_guest (s : State) (cls src payload party n : Nat) :
    (post s cls src payload party).guest n = s.guest n := State.guest_congr (post_panel ..) n

/-! ### Fields of a register (R11) -/

theorem State.field_setField_self (s : State) (a : Nat) {lo n v : Nat} (word : lo + n ≤ 32) (fits : v < 2 ^ n) :
    (s.setField a lo n v).field a lo n = v := by
  rw [State.field, State.setField, State.reg_setReg_self, BitVec.toNat_ofNat, bits_mod_word _ word,
    bits_putBits_of_lt _ _ fits]

theorem State.field_setField_apart (s : State) (a v : Nat) {lo n lo' n' : Nat} (word : lo' + n' ≤ 32)
    (apart : lo' + n' ≤ lo ∨ lo + n ≤ lo') : (s.setField a lo n v).field a lo' n' = s.field a lo' n' := by
  rw [State.field, State.setField, State.reg_setReg_self, BitVec.toNat_ofNat, bits_mod_word _ word,
    bits_putBits_apart _ _ apart, State.field]

@[simp] theorem answer_field (s : State) (st : Status) (ws : List Word) (a lo n : Nat) :
    (answer s st ws).field a lo n = s.field a lo n := State.field_congr rfl ..

/-! ### The state after reset -/

/-- Settles O58: every table of the state after reset is empty, so that each unit reads as its default. -/
theorem resetState : Obligations.ResetState := by
  unfold Obligations.ResetState
  refine ⟨⟨rfl, fun k => ?tallies⟩, rfl, rfl, rfl, fun p => rfl, rfl, fun k => rfl, fun r => rfl, fun g => rfl,
    fun k => rfl, ?lanterns, ?bridges, ?lease⟩
  case tallies => exact Nat.two_pow_pos 31
  case lanterns => decide
  case bridges => decide
  case lease => decide

/-! ### Sites of the row skip map (R23) -/

theorem physCol_lt (s : State) (t : Nat) : physCol s t < 9 := by
  unfold physCol
  dsimp only
  split <;> omega

theorem physCol_ne_skipCol (s : State) (t : Nat) : physCol s t ≠ skipCol s (t / 8) := by
  unfold physCol
  dsimp only
  split <;> omega

/-- The logical column of a physical one. -/
theorem physCol_logical (s : State) (t : Nat) :
    (if physCol s t < skipCol s (t / 8) then physCol s t else physCol s t - 1) = t % 8 := by
  unfold physCol
  dsimp only
  by_cases below : t % 8 < skipCol s (t / 8)
  · rw [if_pos below, if_pos below]
  · rw [if_neg below, if_neg (by omega), Nat.add_sub_cancel]

theorem siteOf_div (s : State) (t : Nat) : siteOf s t / 9 = t / 8 := by
  have := physCol_lt s t
  unfold siteOf; omega

theorem siteOf_mod (s : State) (t : Nat) : siteOf s t % 9 = physCol s t := by
  have := physCol_lt s t
  unfold siteOf; omega

theorem siteOf_lt (s : State) {t : Nat} (ht : t < 64) : siteOf s t < 72 := by
  have := physCol_lt s t
  unfold siteOf; omega

theorem tileAt?_siteOf {s : State} {t : Nat} (ht : t < 64) (read : s.panel.mapRead = true) :
    tileAt? s (siteOf s t) = some t := by
  simp only [tileAt?, siteOf_div, siteOf_mod, physCol_logical]
  rw [if_pos ⟨siteOf_lt s ht, read, physCol_ne_skipCol s t⟩, Nat.div_add_mod]

theorem tileAt?_skipped {s : State} {r : Nat} (standard : skipCol s r ≤ 8) :
    tileAt? s (9 * r + skipCol s r) = none := by
  have row : (9 * r + skipCol s r) / 9 = r := by omega
  have col : (9 * r + skipCol s r) % 9 = skipCol s r := by omega
  simp [tileAt?, row, col]

/-- The sites of two tiles are the same only for the same tile, even where the map skips no column. -/
theorem siteOf_injective (s : State) : Function.Injective (siteOf s) := by
  intro u t h
  have row : u / 8 = t / 8 := by rw [← siteOf_div s u, ← siteOf_div s t, h]
  have col : physCol s u = physCol s t := by rw [← siteOf_mod s u, ← siteOf_mod s t, h]
  have logical : u % 8 = t % 8 := by rw [← physCol_logical s u, ← physCol_logical s t, row, col]
  omega

/-- Settles O59: a site's quotient and remainder by 9 give back the row and the physical column. -/
theorem siteNumbers : Obligations.SiteNumbers := by
  unfold Obligations.SiteNumbers
  refine ⟨fun s r c _ hc => ?_, fun s t ht read standard =>
    ⟨tileAt?_siteOf ht read, tileAt?_skipped standard, fun u _ same => siteOf_injective s same⟩⟩
  have row : (8 * r + c) / 8 = r := by omega
  have col : (8 * r + c) % 8 = c := by omega
  constructor <;> intro h
  · simp [siteOf, physCol, row, col, h]
  · simp [siteOf, physCol, row, col, Nat.not_lt.2 h]

/-! ### Field retirement (R20, R21, R567, R574) -/

section

variable (s : State) (result : Nat) (inForce : Bool)

theorem endRetire_panel : (endRetire s result inForce).panel = { s.panel with
    retire := { s.panel.retire with copy := none },
    pending := if inForce then s.panel.pending ||| 2 ^ s.panel.retire.row else s.panel.pending } := by
  simp [endRetire]

/-- The end of a request writes BUSY and RESULT of `DEV_RETIRE`, and posts. -/
theorem endRetire_field (lo n : Nat) : (endRetire s result inForce).field 0x10200 lo n =
    ((s.setField 0x10200 9 1 0).setField 0x10200 10 2 result).field 0x10200 lo n := by
  unfold State.field endRetire
  rw [post_reg]
  rfl

theorem endRetire_result (fits : result < 4) : (endRetire s result inForce).field 0x10200 10 2 = result := by
  rw [endRetire_field, State.field_setField_self _ _ (by decide) fits]

theorem endRetire_busy : (endRetire s result inForce).field 0x10200 9 1 = 0 := by
  rw [endRetire_field, State.field_setField_apart _ _ _ (by decide) (by decide),
    State.field_setField_self _ _ (by decide) (by decide)]

theorem endRetire_apart {lo n : Nat} (word : lo + n ≤ 32) (apart : lo + n ≤ 9 ∨ 12 ≤ lo) :
    (endRetire s result inForce).field 0x10200 lo n = s.field 0x10200 lo n := by
  rw [endRetire_field, State.field_setField_apart _ _ _ word (by omega),
    State.field_setField_apart _ _ _ word (by omega)]

end

/-- The word that RETIRE.GO writes: ROW, COLUMN and GO (R574). -/
def retireWord (row : Fin 8) (col : Fin 16) : Word := BitVec.ofNat 32 (row.val + 2 ^ 3 * col.val + 2 ^ 8)

theorem retireWord_fields (row : Fin 8) (col : Fin 16) : (retireWord row col).getLsbD 8 = true ∧
    bits (retireWord row col).toNat 0 3 = row.val ∧ bits (retireWord row col).toNat 3 4 = col.val := by
  revert row col; decide

/-- The request's row and column stand in `DEV_RETIRE` and in the request; nothing is being blown yet. -/
def retireNamed (s : State) (row col : Nat) : State :=
  let s := (s.setField 0x10200 0 3 row).setField 0x10200 3 4 col
  { s with panel := { s.panel with retire := { row, col } } }

/-- The request's first valid copy starts being blown: BUSY is set, RESULT and REFUSED are cleared. -/
def startBlow (s : State) : State :=
  let first := if copyValid s.panel.hb0 then 0 else 1
  let s := { s with panel := { s.panel with retire := { s.panel.retire with copy := some first } } }
  ((s.setField 0x10200 12 1 0).setField 0x10200 10 2 0).setField 0x10200 9 1 1

section

variable (s : State) (acc : Access) (row : Fin 8) (col : Fin 16)

theorem retireWrite_busy (busy : s.panel.retire.copy.isSome = true) :
    retireWrite s acc (retireWord row col) = accessError s acc 3 := by
  obtain ⟨go, -, -⟩ := retireWord_fields row col
  simp only [retireWrite, go, busy, Bool.and_self, if_true]

theorem retireWrite_go (idle : s.panel.retire.copy = none) : retireWrite s acc (retireWord row col) =
    if retireAllowed s row col then startBlow (retireNamed s row col)
    else endRetire ((retireNamed s row col).setField 0x10200 12 1 1) 1 false := by
  obtain ⟨go, hrow, hcol⟩ := retireWord_fields row col
  simp only [retireWrite, go, idle, hrow, hcol, Option.isSome_none, Bool.and_false, Bool.not_true, Bool.false_eq_true,
    if_false]
  rfl

theorem retireNamed_field (lo n : Nat) : (retireNamed s row col).field 0x10200 lo n =
    ((s.setField 0x10200 0 3 row).setField 0x10200 3 4 col).field 0x10200 lo n := State.field_congr rfl ..

theorem retireNamed_row : (retireNamed s row col).field 0x10200 0 3 = row := by
  rw [retireNamed_field, State.field_setField_apart _ _ _ (by decide) (by decide),
    State.field_setField_self _ _ (by decide) row.isLt]

theorem retireNamed_col : (retireNamed s row col).field 0x10200 3 4 = col := by
  rw [retireNamed_field, State.field_setField_self _ _ (by decide) col.isLt]

theorem retireNamed_reserved : (retireNamed s row col).field 0x10200 7 2 = s.field 0x10200 7 2 := by
  rw [retireNamed_field, State.field_setField_apart _ _ _ (by decide) (by decide),
    State.field_setField_apart _ _ _ (by decide) (by decide)]

end

section

variable (s : State)

theorem startBlow_apart {lo n : Nat} (below : lo + n ≤ 9) :
    (startBlow s).field 0x10200 lo n = s.field 0x10200 lo n := by
  rw [startBlow, State.field_setField_apart _ _ _ (by omega) (by omega),
    State.field_setField_apart _ _ _ (by omega) (by omega), State.field_setField_apart _ _ _ (by omega) (by omega)]
  exact State.field_congr rfl ..

theorem startBlow_busy : (startBlow s).field 0x10200 9 1 = 1 := by
  rw [startBlow, State.field_setField_self _ _ (by decide) (by decide)]

theorem startBlow_result : (startBlow s).field 0x10200 10 2 = 0 := by
  rw [startBlow, State.field_setField_apart _ _ _ (by decide) (by decide),
    State.field_setField_self _ _ (by decide) (by decide)]

theorem startBlow_refused : (startBlow s).field 0x10200 12 1 = 0 := by
  rw [startBlow, State.field_setField_apart _ _ _ (by decide) (by decide),
    State.field_setField_apart _ _ _ (by decide) (by decide), State.field_setField_self _ _ (by decide) (by decide)]

end

/-- `DEV_RETIRE` by its fields (R574). -/
theorem retireRegister_eq (s : State) : s.field 0x10200 0 13 =
    s.field 0x10200 0 3 + 8 * s.field 0x10200 3 4 + 128 * s.field 0x10200 7 2 + 512 * s.field 0x10200 9 1 +
      1024 * s.field 0x10200 10 2 + 4096 * s.field 0x10200 12 1 := by
  simp only [State.field, bits, Nat.shiftRight_eq_div_pow]
  omega

theorem startBlow_copy (s : State) (row col : Nat) : (startBlow (retireNamed s row col)).panel.retire.copy =
    if copyValid s.panel.hb0 then some 0 else some 1 := by
  have same : (retireNamed s row col).panel.hb0 = s.panel.hb0 := rfl
  simp only [startBlow, same, State.setField_panel]
  split <;> rfl

theorem field_retire_allowed (s : State) (row : Fin 8) (col : Fin 16) :
    (startBlow (retireNamed s row col)).field 0x10200 0 13 =
      row.val + 8 * col.val + s.field 0x10200 7 2 * 128 + 512 := by
  rw [retireRegister_eq, startBlow_busy, startBlow_result, startBlow_refused, startBlow_apart _ (by decide),
    startBlow_apart _ (by decide), startBlow_apart _ (by decide), retireNamed_row, retireNamed_col,
    retireNamed_reserved]
  omega

theorem field_retire_refused (s : State) (row : Fin 8) (col : Fin 16) :
    (endRetire ((retireNamed s row col).setField 0x10200 12 1 1) 1 false).field 0x10200 0 13 =
      row.val + 8 * col.val + s.field 0x10200 7 2 * 128 + (1024 + 4096) := by
  have kept {lo n : Nat} (below : lo + n ≤ 9) :
      (endRetire ((retireNamed s row col).setField 0x10200 12 1 1) 1 false).field 0x10200 lo n =
        (retireNamed s row col).field 0x10200 lo n := by
    rw [endRetire_apart _ _ _ (by omega) (.inl below), State.field_setField_apart _ _ _ (by omega) (by omega)]
  have refused : (endRetire ((retireNamed s row col).setField 0x10200 12 1 1) 1 false).field 0x10200 12 1 = 1 := by
    rw [endRetire_apart _ _ _ (by decide) (.inr (by decide)), State.field_setField_self _ _ (by decide) (by decide)]
  rw [retireRegister_eq, endRetire_busy, endRetire_result _ _ _ (by decide), refused, kept (by decide),
    kept (by decide), kept (by decide), retireNamed_row, retireNamed_col, retireNamed_reserved]
  omega

theorem bits_field (s : State) (a : Nat) {lo n lo' n' : Nat} (within : lo' + n' ≤ n) :
    bits (s.field a lo n) lo' n' = s.field a (lo + lo') n' := by
  unfold State.field
  refine Nat.eq_of_testBit_eq fun i => ?_
  simp only [testBit_bits, Nat.add_assoc]
  by_cases h : i < n'
  · have : lo' + i < n := by omega
    simp [h, this]
  · simp [h]

/-- The copy `k` once its entry for the request's row is blown and read back: what took, closed off where it does not
match (R21). -/
def blown (s : State) (k : Nat) (held : Nat) : State :=
  setMapCopy s k { mapCopy s k with field := (mapCopy s k).field.set s.panel.retire.row held }

theorem exec_retireBlowDone (s : State) (taken : BitVec 5) :
    exec (.retireBlowDone taken) s = execRetireBlowDone taken s := rfl

section

variable {s : State} {taken : BitVec 5} {k : Nat}

theorem exec_retireBlowDone_idle (h : s.panel.retire.copy = none ∨ s.power.pwrgd = false) :
    exec (.retireBlowDone taken) s = .next s := by
  rw [exec_retireBlowDone, execRetireBlowDone]
  rcases h with idle | dark
  · simp [idle]
  · cases s.panel.retire.copy <;> simp [dark]

/-- An entry that did not take ends the request with result 2 or 3. -/
theorem exec_retireBlowDone_missed (good : s.power.pwrgd = true) (copy : s.panel.retire.copy = some k)
    (two : k < 2) (miss : taken.toNat ≠ retireEntry s.panel.retire.col) :
    exec (.retireBlowDone taken) s = .next (endRetire (blown s k (if taken = 0 then 0 else 0x1F)) (k + 2)
      (decide (k = 1) && copyValid s.panel.hb0)) := by
  have copies : k = 0 ∨ k = 1 := by omega
  rcases copies with rfl | rfl
  · simp [exec_retireBlowDone, execRetireBlowDone, copy, good, miss, blown]
  · simp [exec_retireBlowDone, execRetireBlowDone, copy, good, miss, blown, setMapCopy]

/-- A first copy that took is followed by the second where that is valid. -/
theorem exec_retireBlowDone_first (good : s.power.pwrgd = true) (copy : s.panel.retire.copy = some 0)
    (hit : taken.toNat = retireEntry s.panel.retire.col) (valid : copyValid s.panel.hb1 = true) :
    exec (.retireBlowDone taken) s = .next { blown s 0 taken.toNat with
      panel := { (blown s 0 taken.toNat).panel with retire := { s.panel.retire with copy := some 1 } } } := by
  simp [exec_retireBlowDone, execRetireBlowDone, copy, good, hit, blown, setMapCopy, valid]

/-- The last copy that took ends the request with result 1, and the retirement pends. -/
theorem exec_retireBlowDone_last (good : s.power.pwrgd = true) (copy : s.panel.retire.copy = some k)
    (hit : taken.toNat = retireEntry s.panel.retire.col) (last : k = 0 ∧ copyValid s.panel.hb1 = false ∨ k = 1) :
    exec (.retireBlowDone taken) s = .next (endRetire (blown s k taken.toNat) 1 true) := by
  rcases last with ⟨rfl, invalid⟩ | rfl
  · simp [exec_retireBlowDone, execRetireBlowDone, copy, good, hit, blown, setMapCopy, invalid]
  · simp [exec_retireBlowDone, execRetireBlowDone, copy, good, hit, blown]

end

theorem exec_retireGo (s : State) (p : Path) (row : Fin 8) (col : Fin 16) : exec (.retireGo p row col) s =
    .next (ownerWrite s p 0x10200 (retireWord row col)
      (fun s => retireWrite s { path := p, off := 0x10200 } (retireWord row col))) := rfl

/-- Settles O47: RETIRE.GO by whether the request is allowed, and the end of a blow by the copy and what took. -/
theorem fieldRetirement : Obligations.FieldRetirement := by
  unfold Obligations.FieldRetirement
  refine ⟨?go, ?busy, ?idle, ?missed, ?took⟩
  case go =>
    intro s p row col gate idle
    rw [exec_retireGo, ownerWrite_gate gate, retireWrite_go s _ row col idle]
    refine ⟨_, rfl, rfl, ?_⟩
    have reserved : bits (s.field 0x10200 0 13) 7 2 = s.field 0x10200 7 2 := bits_field s _ (by decide)
    rw [reserved]
    by_cases ok : retireAllowed s row col = true
    · rw [if_pos ok, if_pos ok, if_pos ok, answer_field]
      exact ⟨rfl, rfl, rfl, rfl, rfl, startBlow_copy s row col, field_retire_allowed s row col⟩
    · rw [if_neg ok, if_neg ok, if_neg ok, answer_field, answer_panel, endRetire_panel]
      exact ⟨rfl, rfl, rfl, rfl, rfl, rfl, field_retire_refused s row col⟩
  case busy =>
    intro s p row col gate busy
    rw [exec_retireGo, ownerWrite_gate gate, retireWrite_busy _ _ _ _ busy]
  case idle => exact fun s taken => exec_retireBlowDone_idle
  case missed =>
    intro s taken k good copy miss
    refine ⟨_, exec_retireBlowDone_missed good copy k.isLt miss, ?_⟩
    have result : k.val + 2 < 4 := by omega
    refine ⟨by simp [endRetire_panel], endRetire_result _ _ _ result, ?_⟩
    have two : ∀ k : Fin 2, k = 0 ∨ k = 1 := by decide
    rcases two k with rfl | rfl
    · simp [endRetire_panel, mapCopy, blown, setMapCopy]
    · simp [endRetire_panel, mapCopy, blown, setMapCopy]
  case took =>
    intro s taken good hit
    refine ⟨fun copy valid => ⟨_, exec_retireBlowDone_first good copy hit valid, rfl, rfl, rfl⟩,
      fun copy invalid => ⟨_, exec_retireBlowDone_last good copy hit (.inl ⟨rfl, invalid⟩), ?_⟩,
      fun copy => ⟨_, exec_retireBlowDone_last good copy hit (.inr rfl), ?_⟩⟩
    · simp [endRetire_panel, endRetire_result, blown, setMapCopy, mapCopy]
    · simp [endRetire_panel, endRetire_result, blown, setMapCopy, mapCopy]

/-! ### Domains (R607) -/

@[simp] theorem dropWhere_panel (s : State) (f : Copy → Bool) : (dropWhere s f).panel = s.panel :=
  (dropWhere_only (Only.refl 268435520 s) (rfl : _ &&& _ = _)).frame .panel (by decide)

@[simp] theorem dropWhere_power (s : State) (f : Copy → Bool) : (dropWhere s f).power = s.power :=
  (dropWhere_only (Only.refl 268435520 s) (rfl : _ &&& _ = _)).frame .power (by decide)

theorem mem_insertUp (d : Nat) (xs : List Nat) : d ∈ insertUp d xs := by
  induction xs with
  | nil => simp [insertUp]
  | cons x xs ih =>
    unfold insertUp
    split
    · simp
    · split <;> simp_all

theorem mem_insertDown (d : Nat) (xs : List Nat) : d ∈ insertDown d xs := by
  induction xs with
  | nil => simp [insertDown]
  | cons x xs ih =>
    unfold insertDown
    split
    · simp
    · split <;> simp_all

section

variable (s : State) (d : Nat)

@[simp] theorem wantOff_reg (a : Nat) : (wantOff s d).reg a = s.reg a := rfl
@[simp] theorem wantOff_guest (n : Nat) : (wantOff s d).guest n = s.guest n := rfl

theorem mem_unwanted_wantOff (on : domainOn s d = true) : d ∈ (wantOff s d).power.unwanted := by
  simp [wantOff, on, mem_insertDown]

theorem domainOn_wantOn : domainOn (wantOn s d) d = domainOn s d := rfl

theorem wantOn_on_or_wanted : domainOn (wantOn s d) d = true ∨ d ∈ (wantOn s d).power.wanted := by
  rw [domainOn_wantOn]
  cases on : domainOn s d with
  | true => exact .inl rfl
  | false => exact .inr (by simp [wantOn, on, mem_insertUp])

theorem domainOn_railOn : domainOn (railOn s d) d = true := by simp [domainOn, railOn]

end

@[simp] theorem State.setGuest_reg (s : State) (n : Nat) (g : Guest) (a : Nat) : (s.setGuest n g).reg a = s.reg a :=
  State.reg_congr rfl a

@[simp] theorem State.setReg_guest (s : State) (a : Nat) (w : Word) (n : Nat) :
    (s.setReg a w).guest n = s.guest n := rfl

@[simp] theorem State.emit_out (s : State) (o : Out) : (s.emit o).out = s.out ++ [o] := rfl

@[simp] theorem State.emit_guest (s : State) (o : Out) (n : Nat) : (s.emit o).guest n = s.guest n := rfl

/-! ### Guests: an attempt starts, fails, or ends down (R48, R54) -/

section

variable (s : State) (n : Nat)

/-- How step 1 of an attempt asks for the guest's domain: it is wanted, or starts again where it is on and not good. -/
def askDomain : State :=
  let d := guestDomain n
  if domainGood s d then wantOn s d else if domainOn s d then railOn s d else wantOn s d

@[simp] theorem askDomain_panel : (askDomain s n).panel = s.panel := by
  unfold askDomain; dsimp only; split; · rfl
  split <;> rfl

@[simp] theorem askDomain_regs : (askDomain s n).regs = s.regs := by
  unfold askDomain; dsimp only; split; · rfl
  split <;> rfl

theorem askDomain_on_or_wanted :
    domainOn (askDomain s n) (guestDomain n) = true ∨ guestDomain n ∈ (askDomain s n).power.wanted := by
  unfold askDomain
  dsimp only
  split
  · exact wantOn_on_or_wanted ..
  · split
    · exact .inl (domainOn_railOn ..)
    · exact wantOn_on_or_wanted ..

/-- The attempt of guest `n` that stands in `s` has failed in `t` (R48). -/
def AttemptFailed (t : State) : Prop :=
  t.reg (guestA n) = 0 ∧
  ((s.guest n).attempt < 4 → t.guest n = { status := .bringup, attempt := (s.guest n).attempt, since := t.now }) ∧
  (4 ≤ (s.guest n).attempt → (t.guest n).status = .absent ∧
    (domainOn s (guestDomain n) = true → guestDomain n ∈ t.power.unwanted))

theorem failAttempt_again (step : Nat) (late : Bool) (more : (s.guest n).attempt < 4) :
    failAttempt s n step late = (s.setReg (guestA n) 0).setGuest n
      { status := .bringup, attempt := (s.guest n).attempt, since := s.now } := if_pos more

theorem failAttempt_last (step : Nat) (late : Bool) (last : 4 ≤ (s.guest n).attempt) :
    failAttempt s n step late = post (wantOff ((s.setReg (guestA n) 0).setGuest n
      { status := .absent, attempt := (s.guest n).attempt }) (guestDomain n)) 0x13 (srcGuest n)
        (step + 8 * late.toNat) := if_neg (Nat.not_lt.2 last)

theorem failAttempt_now (step : Nat) (late : Bool) : (failAttempt s n step late).now = s.now :=
  (failAttempt_only (Only.refl 2199157474376 s) (rfl : _ &&& _ = _)).frame .now (by decide)

theorem attemptFailed_failAttempt (step : Nat) (late : Bool) : AttemptFailed s n (failAttempt s n step late) := by
  rcases Nat.lt_or_ge (s.guest n).attempt 4 with more | last
  · rw [failAttempt_again s n step late more]
    exact ⟨by simp, fun _ => State.guest_setGuest_self .., fun last => absurd more (Nat.not_lt.2 last)⟩
  · rw [failAttempt_last s n step late last]
    refine ⟨?_, fun more => absurd more (Nat.not_lt.2 last), fun _ => ⟨?_, fun on => ?_⟩⟩
    · simp
    · simp
    · rw [post_power]; exact mem_unwanted_wantOff _ _ on

/-- A guest that is declared down. -/
def downGuest : Guest := { s.guest n with status := .down, step := 0, attempt := 0, mainband := false }

/-- The packets to or from the guest that are dropped, counted, and the state after. -/
def guestDropped : Nat × State :=
  match anchorTile s n with
  | some t =>
    if (s.guest n).status = GuestStatus.inService then
      ((copiesWhere s (guestCopy s n t)).length, dropWhere s (guestCopy s n t))
    else (0, s)
  | none => (0, s)

theorem guestDown_eq : guestDown s n =
    post (wantOff ((guestDropped s n).2.setGuest n (downGuest (guestDropped s n).2 n)) (guestDomain n))
      0x14 (srcGuest n) ((guestDropped s n).1 % 2 ^ 32) := rfl

/-- What is dropped at the anchor's router changes neither guests nor domains. -/
theorem guestDropped_frame : (guestDropped s n).2.panel = s.panel ∧ (guestDropped s n).2.power = s.power := by
  unfold guestDropped
  split
  · split
    · exact ⟨dropWhere_panel .., dropWhere_power ..⟩
    · exact ⟨rfl, rfl⟩
  · exact ⟨rfl, rfl⟩

theorem guestDropped_guest (j : Nat) : (guestDropped s n).2.guest j = s.guest j :=
  State.guest_congr (guestDropped_frame s n).1 j

theorem guestDown_guest (j : Nat) : (guestDown s n).guest j = if n = j then downGuest s n else s.guest j := by
  rw [guestDown_eq, post_guest, wantOff_guest, State.guest_setGuest, downGuest, guestDropped_guest, guestDropped_guest,
    downGuest]

theorem guestDown_guest_self : (guestDown s n).guest n = downGuest s n := (guestDown_guest s n n).trans (if_pos rfl)

theorem mem_unwanted_guestDown (on : domainOn s (guestDomain n) = true) :
    guestDomain n ∈ (guestDown s n).power.unwanted := by
  rw [guestDown_eq, post_power]
  refine mem_unwanted_wantOff _ _ ?_
  simpa [domainOn, (guestDropped_frame s n).2] using on

end

/-! ### Guests: the control register (R641) -/

/-- What the control register asks of guest `n`. -/
def controlGuest (v : Word) (n : Nat) (s : State) : State :=
  let g := s.guest n
  if v.getLsbD (4 + n) then
    (if g.status = .bringup || g.status = .staged || g.status = .inService then guestDown s n else s)
  else if v.getLsbD n && (g.status = .absent || g.status = .down) then
    (s.setGuest n { status := .bringup, since := s.now }).setReg (guestA n) 0
  else s

theorem guestCtrl_eq_each (s : State) (v : Word) : guestCtrl s v = s.each (List.range 4) (controlGuest v) := rfl

theorem State.each_cons (s : State) (k : Nat) (ks : List Nat) (f : Nat → State → State) :
    s.each (k :: ks) f = (f k s).each ks f := rfl

/-- What no other number of a list changes is, after the list, as the number's own turn leaves it. -/
theorem State.each_turn {β : Type} (view : State → β) {f : Nat → State → State} {n : Nat}
    (other : ∀ k s, k ≠ n → view (f k s) = view s) {ks : List Nat} (nodup : ks.Nodup) (s : State) :
    (n ∉ ks → view (s.each ks f) = view s) ∧
    (n ∈ ks → ∃ u, view u = view s ∧ view (s.each ks f) = view (f n u)) := by
  induction ks generalizing s with
  | nil => simp [State.each]
  | cons k ks ih =>
    obtain ⟨fresh, nodup⟩ := List.nodup_cons.1 nodup
    obtain ⟨absent, present⟩ := ih nodup (f k s)
    rw [State.each_cons]
    refine ⟨fun h => ?_, fun h => ?_⟩
    · obtain ⟨hk, hks⟩ := not_or.1 (mt List.mem_cons.2 h)
      exact (absent hks).trans (other k s (Ne.symm hk))
    · by_cases hk : k = n
      · subst hk
        exact ⟨s, rfl, absent fresh⟩
      · obtain ⟨u, same, turn⟩ := present ((List.mem_cons.1 h).resolve_left (Ne.symm hk))
        exact ⟨u, same.trans (other k s hk), turn⟩

section

variable (guests : BitVec 4) {n : Nat}

/-- The words that TAKE_DOWN and RENEGOTIATE write (R641). -/
def takeDownWord : Word := BitVec.ofNat 32 (16 * guests.toNat)
def renegotiateWord : Word := BitVec.ofNat 32 guests.toNat

theorem takeDownWord_bits (hn : n < 4) :
    (takeDownWord guests).getLsbD (4 + n) = guests.getLsbD n ∧ (takeDownWord guests).getLsbD n = false := by
  revert guests n; decide

theorem renegotiateWord_noTakeDown (k : Nat) : (renegotiateWord guests).getLsbD (4 + k) = false := by
  have small : guests.toNat < 2 ^ (4 + k) := Nat.lt_of_lt_of_le guests.isLt (Nat.pow_le_pow_right (by decide) (by omega))
  rw [renegotiateWord, BitVec.getLsbD_ofNat, Nat.testBit_lt_two_pow small, Bool.and_false]

theorem renegotiateWord_bit (hn : n < 4) : (renegotiateWord guests).getLsbD n = guests.getLsbD n := by
  revert guests n; decide

end

theorem controlGuest_guest_other (v : Word) {n k : Nat} (s : State) (h : k ≠ n) :
    (controlGuest v k s).guest n = s.guest n := by
  unfold controlGuest
  dsimp only
  split
  · split
    · rw [guestDown_guest, if_neg h]
    · rfl
  · split
    · exact State.guest_setGuest_other _ _ h
    · rfl

section

variable (s : State) (v : Word) {n : Nat}

theorem controlGuest_takeDown (bit : v.getLsbD (4 + n) = true)
    (up : (s.guest n).status ∈ [GuestStatus.bringup, .staged, .inService]) : controlGuest v n s = guestDown s n := by
  simp only [List.mem_cons, List.not_mem_nil, or_false] at up
  simp only [controlGuest, bit, if_true]
  rcases up with h | h | h <;> simp [h]

theorem controlGuest_notUp (bit : v.getLsbD n = false)
    (off : v.getLsbD (4 + n) = false ∨ (s.guest n).status ∉ [GuestStatus.bringup, .staged, .inService]) :
    controlGuest v n s = s := by
  rcases off with h | h
  · simp [controlGuest, bit, h]
  · simp only [List.mem_cons, List.not_mem_nil, or_false, not_or] at h
    simp [controlGuest, bit, h]

theorem controlGuest_renegotiate (down : v.getLsbD (4 + n) = false) (bit : v.getLsbD n = true)
    (out : (s.guest n).status ∈ [GuestStatus.absent, .down]) :
    controlGuest v n s = (s.setGuest n { status := .bringup, since := s.now }).setReg (guestA n) 0 := by
  simp only [List.mem_cons, List.not_mem_nil, or_false] at out
  rcases out with h | h <;> simp [controlGuest, down, bit, h]

theorem controlGuest_notOut (down : v.getLsbD (4 + n) = false)
    (off : v.getLsbD n = false ∨ (s.guest n).status ∉ [GuestStatus.absent, .down]) : controlGuest v n s = s := by
  rcases off with h | h
  · simp [controlGuest, down, h]
  · simp only [List.mem_cons, List.not_mem_nil, or_false, not_or] at h
    simp [controlGuest, down, h]

end

/-- TAKE_DOWN makes the guests that it names down, where they are on their way up or in service, and no others. -/
theorem guestCtrl_takeDown (s : State) (guests : BitVec 4) {n : Nat} (hn : n < 4) :
    (guests.getLsbD n = true → (s.guest n).status ∈ [GuestStatus.bringup, .staged, .inService] →
      ((guestCtrl s (takeDownWord guests)).guest n).status = .down) ∧
    (guests.getLsbD n = false ∨ (s.guest n).status ∉ [GuestStatus.bringup, .staged, .inService] →
      (guestCtrl s (takeDownWord guests)).guest n = s.guest n) := by
  obtain ⟨down, up⟩ := takeDownWord_bits guests hn
  obtain ⟨u, same, turn⟩ := (State.each_turn (fun t => t.guest n)
    (fun k s h => controlGuest_guest_other (takeDownWord guests) s h) List.nodup_range s).2 (List.mem_range.2 hn)
  rw [guestCtrl_eq_each, turn, ← same]
  refine ⟨fun bit status => ?_, fun off => ?_⟩
  · rw [controlGuest_takeDown u _ (down.trans bit) status, guestDown_guest_self]
    rfl
  · rw [controlGuest_notUp u _ up (by rwa [down])]

/-- What RENEGOTIATE of guest `n` depends on and changes: the guest, the time, and its capability word. -/
def renegotiateView (n : Nat) (s : State) : Guest × Nat × Word := (s.guest n, s.now, s.reg (guestA n))

theorem controlGuest_renegotiate_other (guests : BitVec 4) {n k : Nat} (s : State) (h : k ≠ n) :
    renegotiateView n (controlGuest (renegotiateWord guests) k s) = renegotiateView n s := by
  have word : guestA k ≠ guestA n := by unfold guestA; omega
  have down := renegotiateWord_noTakeDown guests k
  by_cases acts : (renegotiateWord guests).getLsbD k = true ∧ (s.guest k).status ∈ [GuestStatus.absent, .down]
  · rw [controlGuest_renegotiate s _ down acts.1 acts.2]
    simp [renegotiateView, State.guest_setGuest_other _ _ h, State.reg_setReg_other _ _ word]
  · rw [controlGuest_notOut s _ down ((Decidable.not_and_iff_not_or_not.1 acts).imp_left eq_false_of_ne_true)]

/-- RENEGOTIATE brings the guests that it names up anew, where they are absent or down, and no others. -/
theorem guestCtrl_renegotiate (s : State) (guests : BitVec 4) {n : Nat} (hn : n < 4) :
    (guests.getLsbD n = true → (s.guest n).status ∈ [GuestStatus.absent, .down] →
      (guestCtrl s (renegotiateWord guests)).guest n = { status := .bringup, since := s.now } ∧
      (guestCtrl s (renegotiateWord guests)).reg (guestA n) = 0) ∧
    (guests.getLsbD n = false ∨ (s.guest n).status ∉ [GuestStatus.absent, .down] →
      (guestCtrl s (renegotiateWord guests)).guest n = s.guest n) := by
  have down := renegotiateWord_noTakeDown guests n
  have bit := renegotiateWord_bit guests hn
  obtain ⟨u, same, turn⟩ := (State.each_turn (renegotiateView n)
    (fun k s h => controlGuest_renegotiate_other guests s h) List.nodup_range s).2 (List.mem_range.2 hn)
  simp only [renegotiateView, Prod.mk.injEq] at same turn
  obtain ⟨guest, now, -⟩ := same
  obtain ⟨guest', -, reg'⟩ := turn
  rw [guestCtrl_eq_each, guest', reg', ← guest, ← now]
  refine ⟨fun named out => ?_, fun off => ?_⟩
  · rw [controlGuest_renegotiate u _ down (bit.trans named) out]
    exact ⟨State.guest_setGuest_self .., State.reg_setReg_self ..⟩
  · rw [controlGuest_notOut u _ down (by rwa [bit])]

/-! ### Guests: the commands -/

section

variable {s : State} {n : Fin 4}

theorem exec_guestBringupStart (runs : panelRuns s = true) (stage : 6 ≤ s.power.stage)
    (fitted : guestFitted s n.val = true) (anchor : (anchorTile s n.val).isSome = true)
    (fresh : (s.guest n.val).status = .idle ∨ (s.guest n.val).status = .bringup ∧ (s.guest n.val).step = 0) :
    exec (.guestBringupStart n) s = .next (askDomain ((s.setGuest n.val { s.guest n.val with
      status := .bringup, attempt := (s.guest n.val).attempt + 1, step := 1, since := s.now }).setReg (guestA n.val) 0)
        n.val) := by
  have run : exec (.guestBringupStart n) s = execGuestBringupStart n s := rfl
  have anchor' : (anchorTile s n.val).isNone = false := by simpa using anchor
  have fresh' : ((s.guest n.val).status = .idle ||
      ((s.guest n.val).status = .bringup && (s.guest n.val).step = 0)) = true := by simpa using fresh
  rw [run, execGuestBringupStart]
  simp only [runs, Nat.not_lt.2 stage, fitted, anchor', fresh']
  rfl

theorem exec_guestResetRelease (runs : panelRuns s = true) (status : (s.guest n.val).status = .bringup)
    (step : (s.guest n.val).step = 1) (good : domainGood s (guestDomain n.val) = true) :
    exec (.guestResetRelease n) s = .next ((s.passTo ((s.guest n.val).since + 1000000)).setGuest n.val
      { s.guest n.val with step := 2, since := max s.now ((s.guest n.val).since + 1000000) }) := by
  have run : exec (.guestResetRelease n) s = execGuestResetRelease n s := rfl
  simp [run, execGuestResetRelease, runs, status, step, good, State.passTo_now]

theorem exec_guestTrainingDone (runs : panelRuns s = true) (status : (s.guest n.val).status = .bringup)
    (step : (s.guest n.val).step = 2) (modules : BitVec 4) : exec (.guestTrainingDone n modules) s =
    if modules = 0 then .next (failAttempt s n.val 2 false)
    else .next ((s.setGuest n.val { s.guest n.val with
      modules := modules.toNat, rate := 4, step := 4, since := s.now }).emit
        (.sideband n (profileOffer modules.toNat))) := by
  have run : exec (.guestTrainingDone n modules) s = execGuestTrainingDone n modules s := rfl
  simp [run, execGuestTrainingDone, runs, status, step]

/-- The guest once its answer is accepted (R50). -/
def answeredGuest (s : State) (n : Nat) (words : List Dword) : Guest :=
  { s.guest n with
    modules := (s.guest n).modules &&& answerField words 0 16 4, rate := min 4 (answerField words 0 20 4),
    payload := min 3 (answerField words 1 0 8), answer := words, window := answerField words 2 0 32,
    maxPower := answerField words 1 32 16, step := 6, since := s.now }

theorem exec_guestProfileAnswer (runs : panelRuns s = true) (status : (s.guest n.val).status = .bringup)
    (step : (s.guest n.val).step = 4) (words : List Dword) : exec (.guestProfileAnswer n words) s =
    if answerOk (s.guest n.val).modules words && guestFeatures s n.val words then
      .next ((s.setGuest n.val (answeredGuest s n.val words)).emit (.sideband n []))
    else .next (failAttempt s n.val 5 false) := by
  have run : exec (.guestProfileAnswer n words) s = execGuestProfileAnswer n words s := rfl
  rw [run, execGuestProfileAnswer]
  cases answerOk (s.guest n.val).modules words && guestFeatures s n.val words <;>
    simp [runs, status, step, answeredGuest]

theorem exec_guestConfirmAck (runs : panelRuns s = true) (status : (s.guest n.val).status = .bringup)
    (step : (s.guest n.val).step = 6) : exec (.guestConfirmAck n) s =
    .next ((s.setGuest n.val { s.guest n.val with status := .staged, step := 7 }).setReg (guestA n.val)
      (guestCap (s.guest n.val).answer)) := by
  have run : exec (.guestConfirmAck n) s = execGuestConfirmAck n s := rfl
  simp [run, execGuestConfirmAck, runs, status, step]

theorem exec_guestStepTimeout (runs : panelRuns s = true) (status : (s.guest n.val).status = .bringup) {limit : Nat}
    (late : stepLimit (s.guest n.val).step = some limit) : exec (.guestStepTimeout n) s =
    .next (failAttempt (s.passTo ((s.guest n.val).since + limit)) n.val (s.guest n.val).step true) := by
  have run : exec (.guestStepTimeout n) s = execGuestStepTimeout n s := rfl
  simp [run, execGuestStepTimeout, runs, status, late]

theorem exec_guestEarlyPacket (runs : panelRuns s = true) (status : (s.guest n.val).status = .bringup)
    (step : (s.guest n.val).step ≠ 0) :
    exec (.guestEarlyPacket n) s = .next (failAttempt s n.val (s.guest n.val).step false) := by
  have run : exec (.guestEarlyPacket n) s = execGuestEarlyPacket n s := rfl
  simp [run, execGuestEarlyPacket, runs, status, step]

theorem exec_guestLinkDown (runs : panelRuns s = true) (status : (s.guest n.val).status = .inService) :
    exec (.guestLinkDown n) s = .next (guestDown s n.val) := by
  have run : exec (.guestLinkDown n) s = execGuestLinkDown n s := rfl
  simp [run, execGuestLinkDown, runs, status]

/-- The measurements above the declared maximum in a row, with one of `power` (R608). -/
def excessOf (g : Guest) (power : Nat) : Nat := if g.maxPower < power then g.excess + 1 else 0

/-- The guest `n` with that measurement counted. -/
def sampledGuest (s : State) (n power : Nat) : State :=
  s.setGuest n { s.guest n with excess := excessOf (s.guest n) power }

/-- A guest has gone down for its power. -/
def flagGuestPower (s : State) : State := { s with power := { s.power with guestPower := true } }

@[simp] theorem flagGuestPower_guest (s : State) (n : Nat) : (flagGuestPower s).guest n = s.guest n :=
  State.guest_congr rfl n

@[simp] theorem flagGuestPower_unwanted (s : State) : (flagGuestPower s).power.unwanted = s.power.unwanted := rfl

theorem exec_guestPowerSample (runs : panelRuns s = true)
    (up : (s.guest n.val).status = .staged ∨ (s.guest n.val).status = .inService) (power : Nat) :
    exec (.guestPowerSample n power) s =
      if excessOf (s.guest n.val) power < 10 then .next (sampledGuest s n.val power)
      else .next (flagGuestPower (guestDown (sampledGuest s n.val power) n.val)) := by
  have run : exec (.guestPowerSample n power) s = execGuestPowerSample n power s := rfl
  have up' : ((s.guest n.val).status = .staged || (s.guest n.val).status = .inService) = true := by simpa using up
  simp only [run, execGuestPowerSample, runs, up', Bool.not_true, Bool.or_self, Bool.false_eq_true, if_false]
  rfl

theorem exec_takeDown (p : Path) (guests : BitVec 4) : exec (.takeDown p guests) s =
    .next (ownerWrite s p 0x1060 (takeDownWord guests) (fun s => guestCtrl s (takeDownWord guests))) := rfl

theorem exec_renegotiate (p : Path) (guests : BitVec 4) : exec (.renegotiate p guests) s =
    .next (ownerWrite s p 0x1060 (renegotiateWord guests) (fun s => guestCtrl s (renegotiateWord guests))) := rfl

end

/-- Settles O4: the steps of an attempt one by one, every way in which it fails through `failAttempt`, and every way
down through `guestDown`. -/
theorem guestBringUp : Obligations.GuestBringUp := by
  unfold Obligations.GuestBringUp
  refine ⟨?start, ?release, ?trained, ?answered, ?confirmed, ?failed, ?lost, ?power, ?control⟩
  case start =>
    intro s n runs stage fitted anchor fresh
    refine ⟨_, exec_guestBringupStart runs stage fitted anchor fresh, ?_⟩
    have guest (u : State) : (askDomain u n.val).guest n.val = u.guest n.val :=
      State.guest_congr (askDomain_panel ..) n.val
    rw [guest, State.reg_congr (askDomain_regs ..), State.reg_setReg_self, State.setReg_guest,
      State.guest_setGuest_self]
    exact ⟨rfl, rfl, rfl, rfl, rfl, askDomain_on_or_wanted ..⟩
  case release =>
    intro s n runs status step good
    refine ⟨_, exec_guestResetRelease runs status step good, ?_⟩
    simp [status, State.passTo_now]
  case trained =>
    intro s n modules runs status step answering
    refine ⟨_, (exec_guestTrainingDone runs status step modules).trans (if_neg answering), ?_⟩
    simp [status]
  case answered =>
    intro s n words runs status step ok features
    refine ⟨_, (exec_guestProfileAnswer runs status step words).trans (if_pos (by simp [ok, features])), ?_⟩
    simp [status, answeredGuest]
  case confirmed => exact fun s n => exec_guestConfirmAck
  case failed =>
    intro s n g Failed runs status
    have failed {c : Instr} {step : Nat} {late : Bool} (run : exec c s = .next (failAttempt s n.val step late)) :
        ∃ t, exec c s = .next t ∧ Failed t ∧ t.now = s.now :=
      ⟨_, run, attemptFailed_failAttempt s n.val step late, failAttempt_now ..⟩
    refine ⟨fun limit late => ?_, fun step => ?_, fun words step bad => ?_, fun step => ?_⟩
    · exact ⟨_, exec_guestStepTimeout runs status late, attemptFailed_failAttempt (s.passTo _) n.val _ true,
        failAttempt_now ..⟩
    · exact failed ((exec_guestTrainingDone runs status step 0).trans (if_pos rfl))
    · exact failed ((exec_guestProfileAnswer runs status step words).trans (if_neg (ne_true_of_eq_false bad)))
    · exact failed (exec_guestEarlyPacket runs status step)
  case lost =>
    intro s n runs status
    refine ⟨_, exec_guestLinkDown runs status, ?_⟩
    rw [guestDown_guest_self]
    exact ⟨rfl, rfl, rfl, mem_unwanted_guestDown s n.val⟩
  case power =>
    intro s n power runs up
    rw [exec_guestPowerSample runs up]
    refine ⟨fun few => ?_, fun many above => ?_⟩
    · have below : excessOf (s.guest n.val) power < 10 := by unfold excessOf; split <;> omega
      exact if_pos below
    · have tenth : ¬ excessOf (s.guest n.val) power < 10 := by rw [excessOf, if_pos above]; omega
      refine ⟨_, if_neg tenth, ?_, rfl, fun on => ?_⟩
      · rw [flagGuestPower_guest, guestDown_guest_self]
        rfl
      · rw [flagGuestPower_unwanted]
        exact mem_unwanted_guestDown (sampledGuest s n.val power) n.val on
  case control =>
    intro s p guests gate
    rw [exec_takeDown, exec_renegotiate, ownerWrite_gate gate, ownerWrite_gate gate]
    exact ⟨⟨_, rfl, rfl, fun n hn => guestCtrl_takeDown s guests hn⟩,
      ⟨_, rfl, rfl, fun n hn => guestCtrl_renegotiate s guests hn⟩⟩

/-! ### Strands: one direction, and the frames that its transmitter forms (R30, R31) -/

section

variable (x : StrandState) (far : Bool) (r r' : StrandRx)

@[simp] theorem strandRx_setStrandRx_self : strandRx (setStrandRx x far r) far = r := by cases far <;> rfl
@[simp] theorem strandRx_setStrandRx_not : strandRx (setStrandRx x (!far) r) far = strandRx x far := by
  cases far <;> rfl
@[simp] theorem setStrandRx_phase : (setStrandRx x far r).phase = x.phase := by cases far <;> rfl
@[simp] theorem setStrandRx_dead : (setStrandRx x far r).dead = x.dead := by cases far <;> rfl
@[simp] theorem setStrandRx_twice : setStrandRx (setStrandRx x far r) far r' = setStrandRx x far r' := by
  cases far <;> rfl
@[simp] theorem setStrandRx_strandRx : setStrandRx x far (strandRx x far) = x := by cases far <;> rfl

end

@[simp] theorem State.emit_strand (s : State) (o : Out) (l : Strand) : (s.emit o).strand l = s.strand l := rfl
@[simp] theorem State.count32_strand (s : State) (a n : Nat) (l : Strand) : (s.count32 a n).strand l = s.strand l := rfl

section

variable (s : State) (l : Strand) (far : Bool)

/-- The transmitter of the direction holds frames of the numbers `seqs`, and has formed `sent`; nothing else of the
strand has changed, and nothing has left the block. -/
def Transmits (sent : Nat) (seqs : List Nat) (t : State) : Prop :=
  t.out = s.out ∧ ∃ buffer : List StrandFrame, buffer.map (·.seq) = seqs ∧
    t.strand l = setStrandRx (s.strand l) far { strandRx (s.strand l) far with sent, buffer }

theorem leave_panel (c : Copy) : (leave s c).2.panel = s.panel :=
  (leave_only (Only.refl 268435520 s) (rfl : _ &&& _ = _)).only.frame .panel (by decide)

theorem leave_out (c : Copy) : (leave s c).2.out = s.out :=
  (leave_only (Only.refl 268435520 s) (rfl : _ &&& _ = _)).only.frame .out (by decide)

end

section

variable {s t u : State} {l : Strand} {far : Bool} {sent : Nat} {seqs : List Nat}

theorem Transmits.of_same (h : Transmits s l far sent seqs t) (panel : u.panel = t.panel) (out : u.out = t.out) :
    Transmits s l far sent seqs u := by
  obtain ⟨outs, buffer, numbers, strand⟩ := h
  exact ⟨out.trans outs, buffer, numbers, (State.strand_congr panel l).trans strand⟩

/-- A packet put into the newest frame changes no frame's number. -/
theorem Transmits.addParcel (h : Transmits s l far sent seqs t) (p : Parcel) :
    Transmits s l far sent seqs (addParcel t l far p) := by
  obtain ⟨outs, buffer, numbers, strand⟩ := h
  refine ⟨outs, buffer.map (fun f => if f.seq + 1 = sent then { f with items := f.items ++ [p] } else f), ?_, ?_⟩
  · rw [← numbers, List.map_map]
    refine List.map_congr_left fun f _ => ?_
    dsimp only [Function.comp_apply]
    split <;> rfl
  · simp [Machine.addParcel, strand]

theorem Transmits.fillFrame (h : Transmits s l far sent seqs t) (fuel room : Nat) :
    Transmits s l far sent seqs (fillFrame l far fuel room t) := by
  induction fuel generalizing t room with
  | zero => exact h
  | succ fuel ih =>
    unfold Machine.fillFrame
    split
    · exact h
    · split
      · exact h
      · exact ih ((h.of_same (leave_panel ..) (leave_out ..)).addParcel _) _

end

theorem transmits_formFrame (s : State) (l : Strand) (far : Bool) :
    Transmits s l far ((strandRx (s.strand l) far).sent + 1)
      ((strandRx (s.strand l) far).buffer.map (·.seq) ++ [(strandRx (s.strand l) far).sent]) (formFrame s l far) := by
  unfold formFrame
  refine Transmits.fillFrame (s := s) ?_ _ _
  refine ⟨rfl, _, ?_, State.strand_setStrand_self s l _⟩
  rw [List.map_append]
  rfl

/-- The state once the transmitter has formed the frame `seq`, where that is its next and it holds fewer than 64. -/
def transmitted (s : State) (l : Strand) (far : Bool) (seq : Nat) : State :=
  if seq = (strandRx (s.strand l) far).sent && (strandRx (s.strand l) far).buffer.length < 64 then formFrame s l far
  else s

/-- The transmitter holds the frame that the receiver expects, or forms it now. -/
theorem transmits_transmitted {s : State} {l : Strand} {far : Bool}
    (shown : (strandRx (s.strand l) far).next ∈ (strandRx (s.strand l) far).buffer.map (·.seq) ∨
      (strandRx (s.strand l) far).next = (strandRx (s.strand l) far).sent ∧
        (strandRx (s.strand l) far).buffer.length < 64) :
    ∃ sent seqs, (strandRx (s.strand l) far).next ∈ seqs ∧
      Transmits s l far sent seqs (transmitted s l far (strandRx (s.strand l) far).next) := by
  by_cases form : ((strandRx (s.strand l) far).next = (strandRx (s.strand l) far).sent &&
      (strandRx (s.strand l) far).buffer.length < 64) = true
  · refine ⟨_, _, ?_, (transmits_formFrame s l far).of_same ?_ ?_⟩
    · simp only [Bool.and_eq_true, decide_eq_true_eq] at form
      rw [List.mem_append, form.1]
      exact .inr (List.mem_singleton.2 rfl)
    · rw [transmitted, if_pos form]
    · rw [transmitted, if_pos form]
  · have held : transmitted s l far (strandRx (s.strand l) far).next = s := if_neg form
    refine ⟨(strandRx (s.strand l) far).sent, _, shown.resolve_right (by simpa using form), ?_⟩
    rw [held]
    exact ⟨rfl, _, rfl, (setStrandRx_strandRx ..).symm⟩

/-- The frame that the receiver expects reaches it: it is accepted, or found bad. -/
theorem exec_strandFrameReceive {s : State} {l : Strand} {far : Bool} (good : Bool) (alive : linksAlive s = true)
    (active : (s.strand l).phase = .active) {sent : Nat} {seqs : List Nat}
    (mem : (strandRx (s.strand l) far).next ∈ seqs)
    (h : Transmits s l far sent seqs (transmitted s l far (strandRx (s.strand l) far).next)) :
    ∃ f : StrandFrame, f.seq = (strandRx (s.strand l) far).next ∧
      exec (.strandFrameReceive l far (strandRx (s.strand l) far).next good) s = .next (
        if good then acceptStrandFrame (transmitted s l far (strandRx (s.strand l) far).next) l far f
        else refuseStrandFrame (transmitted s l far (strandRx (s.strand l) far).next) l far
          (strandRx (s.strand l) far).next) := by
  have run : exec (.strandFrameReceive l far (strandRx (s.strand l) far).next good) s =
    execStrandFrameReceive l far (strandRx (s.strand l) far).next good s := rfl
  obtain ⟨-, buffer, numbers, strand⟩ := h
  rw [← numbers] at mem
  obtain ⟨g, held, number⟩ := List.mem_map.1 mem
  have found : (buffer.find? (fun f => f.seq = (strandRx (s.strand l) far).next)).isSome = true := by
    rw [List.find?_isSome]
    exact ⟨g, held, by simpa using number⟩
  obtain ⟨f, find⟩ := Option.isSome_iff_exists.1 found
  refine ⟨f, by simpa using List.find?_some find, ?_⟩
  rw [run, execStrandFrameReceive]
  simp only [alive, active, Bool.not_true, ne_eq, not_true_eq_false, decide_false, Bool.or_self, Bool.false_eq_true,
    if_false]
  rw [show (if (decide _ && decide _) = true then _ else _) =
    transmitted s l far (strandRx (s.strand l) far).next from rfl, strand, strandRx_setStrandRx_self]
  dsimp only
  rw [find]

/-- The packets of an accepted frame go on without touching the panel's own state. -/
theorem deliver_panel (s : State) (l : Strand) (far : Bool) (items : List Parcel) :
    (flushOutbox (items.foldl (deliverParcel l far) s)).panel = s.panel :=
  (flushOutbox_only ((Only.refl 268436584 s).foldl fun _ _ h => deliverParcel_only h (rfl : _ &&& _ = _))
    (rfl : _ &&& _ = _)).frame .panel (by decide)

/-- An accepted frame moves the receiver on by one. -/
theorem acceptStrandFrame_strand (s : State) (l : Strand) (far : Bool) {f : StrandFrame}
    (expected : f.seq = (strandRx (s.strand l) far).next) : ∃ buffer : List StrandFrame,
      (acceptStrandFrame s l far f).strand l = setStrandRx (setStrandRx (s.strand l) far
        { strandRx (s.strand l) far with next := (strandRx (s.strand l) far).next + 1, fails := 0 }) (!far)
        { strandRx (s.strand l) (!far) with buffer } := by
  refine ⟨(strandRx (s.strand l) (!far)).buffer.filter (fun b => f.ack ≤ b.seq), ?_⟩
  rw [acceptStrandFrame]
  dsimp only
  rw [if_neg (not_not_intro expected), State.strand_congr (deliver_panel ..), State.strand_setStrand_self]

/-- A failed frame, before its eighth failed replay, is asked for again (R31). -/
theorem refuseStrandFrame_expected {s : State} {l : Strand} {far : Bool} {r : StrandRx}
    (rx : strandRx (s.strand l) far = r) (few : r.fails < 8) :
    (refuseStrandFrame s l far r.next).strand l = setStrandRx (s.strand l) far { r with fails := r.fails + 1 } ∧
    (refuseStrandFrame s l far r.next).out =
      s.out ++ [.strandReplay l.id far ((r.buffer.map (·.seq)).filter (fun k => r.next ≤ k))] := by
  unfold refuseStrandFrame
  simp only [rx, Nat.not_le.2 few, decide_true, decide_false, Bool.and_false, Bool.false_eq_true, if_false, if_true]
  split <;> simp

/-! ### Strands that fail (R35, R36) -/

section

variable (s : State) (l : Strand)

theorem enterSafe_active (cause block0 block1 extra : Nat) :
    (enterSafe s cause block0 block1 extra).safe.active = true := by
  unfold enterSafe
  split
  · assumption
  · rw [post_safe]; rfl

/-- A mesh link that fails takes the panel into the safe state, for whichever cause. -/
theorem meshFails_active (t t' : Nat) (starting : Bool) : (meshFails s t t' starting).safe.active = true := by
  unfold meshFails
  dsimp only
  split
  · split <;> exact enterSafe_active ..
  · exact enterSafe_active ..

@[simp] theorem meshFails_strand (t t' : Nat) (starting : Bool) :
    (meshFails s t t' starting).strand l = s.strand l :=
  State.strand_congr ((meshFails_only (Only.refl 549755815016 s) (rfl : _ &&& _ = _)).frame .panel (by decide)) l

theorem linkFailEvent_panel (run : Bool) : (linkFailEvent s l run).panel = s.panel :=
  (linkFailEvent_only (Only.refl 1032 s) (rfl : _ &&& _ = _)).frame .panel (by decide)

@[simp] theorem linkFailEvent_strand (l' : Strand) (run : Bool) : (linkFailEvent s l' run).strand l = s.strand l :=
  State.strand_congr (linkFailEvent_panel ..) l

theorem strandFails_strand (fault : StrandFault) :
    (strandFails s l fault).strand l = { s.strand l with phase := .failed, fault } := by
  unfold strandFails
  cases l <;> simp

@[simp] theorem dropWhere_strand (f : Copy → Bool) : (dropWhere s f).strand l = s.strand l :=
  State.strand_congr (dropWhere_panel ..) l

/-- What a strand carried is dropped; it stays in the state that it is in. -/
theorem dropStrand_phase (t : Nat) : ((dropStrand s l t).2.strand l).phase = (s.strand l).phase := by
  have dropped (ps : List Transit) (u : State) : (ps.foldl (dropTransit t) u).panel = u.panel :=
    ((Only.refl 268435520 u).foldl fun _ _ h => dropTransit_only h (rfl : _ &&& _ = _)).frame .panel (by decide)
  unfold dropStrand
  dsimp only
  rw [State.strand_congr (dropped ..), dropWhere_strand, State.strand_setStrand_self]

/-- The bundles of a lantern strand that are parked, and the directions that close, touch no strand. -/
theorem parkEntries_panel (n t : Nat) :
    (s.each (List.range 32) (fun m s =>
      if (s.bundle n m).entry ≠ 0 && entryTile (s.bundle n m).entry = t then parkBundle s n m else s)).panel =
    s.panel := by
  refine (Only.each (Only.refl 144149840968 s) fun m u h => ?_).frame .panel (by decide)
  split
  · exact parkBundle_only h (rfl : _ &&& _ = _)
  · exact h

theorem checkDirs_panel (before : List Nat) : (checkDirs s before).panel = s.panel :=
  (checkDirs_only (Only.refl 268436552 s) (rfl : _ &&& _ = _)).frame .panel (by decide)

theorem strandDown_phase : ((strandDown s l).strand l).phase = .failed := by
  unfold strandDown
  cases l with
  | mesh t e => simp
  | lantern n i =>
    dsimp only
    split
    · simp
    · rw [State.strand_congr (parkEntries_panel ..), State.strand_congr (post_panel ..), dropStrand_phase,
        linkFailEvent_strand, State.strand_setStrand_self]
  | bridge h i =>
    dsimp only
    split
    · simp
    · rw [State.strand_congr (checkDirs_panel ..), State.strand_congr (post_panel ..), dropStrand_phase,
        linkFailEvent_strand, State.strand_setStrand_self]

theorem strandDown_mesh_active (k : Fin 64) (e : Bool) : (strandDown s (.mesh k e)).safe.active = true :=
  meshFails_active ..

end

/-! ### Training of strands and hampers (R33, R34, R220 to R222) -/

/-- The wires that fail the wire test: those with a bit error, and those with an eye below 0.35 UI (R33). -/
def failedWires (x : StrandState) (errors : List Wire) : List Wire :=
  (errors ++ (x.eyes.filter (fun e => e.2 < 35)).map (·.1)).eraseDups

section

variable (s : State) (l : Strand) (errors : List Wire)

/-- A group stays in service after REPAIR: it was in service, and each of its directions has no failed wire, or one and
a good spare. -/
def groupServes (g : Nat) : Bool :=
  !(s.strand l).dead.contains g && (repairGroup (failedWires (s.strand l) errors) g true).2 &&
    (repairGroup (failedWires (s.strand l) errors) g false).2

/-- The groups out of service after REPAIR. -/
def deadGroups : List Nat := (List.range (strandGroups s l)).filter (fun g => !groupServes s l errors g)

/-- The strand after REPAIR: the groups out of service, the wires that spares replace, and the width. -/
def repairedStrand : StrandState :=
  { s.strand l with
    dead := deadGroups s l errors
    steered := ((List.range (strandGroups s l)).filter (groupServes s l errors)).flatMap (fun g =>
      (repairGroup (failedWires (s.strand l) errors) g true).1.toList ++
      (repairGroup (failedWires (s.strand l) errors) g false).1.toList)
    width := strandGroups s l - (deadGroups s l errors).length }

theorem deadGroups_eq : deadGroups s l errors = (List.range (strandGroups s l)).filter (fun g =>
    (s.strand l).dead.contains g || !(repairGroup (failedWires (s.strand l) errors) g true).2 ||
      !(repairGroup (failedWires (s.strand l) errors) g false).2) := by
  refine List.filter_congr fun g _ => ?_
  simp only [groupServes, Bool.not_and, Bool.not_not]

end

section

variable {s : State} {l : Strand} (errors : List Wire)

/-- The strand in service once its repair has left it enough groups. -/
def activeStrand (s : State) (l : Strand) (errors : List Wire) : StrandState :=
  { repairedStrand s l errors with phase := .active }

/-- POSITION, after a wire test: a mismatch, a strand in service, another attempt, or too few groups. -/
theorem exec_strandWireTestDone (runs : panelRuns s = true) (testing : (s.strand l).phase = .wireTest) :
    exec (.strandWireTestDone l errors) s =
      let u := s.setStrand l (repairedStrand s l errors)
      if !partnersMatch s l then .next (strandFails u l .strapMismatch)
      else if strandMinimum s l ≤ strandGroups s l - (deadGroups s l errors).length then
        .next (if revisionLow s l then enterSafe (u.setStrand l (activeStrand s l errors)) 0x05 (strandDieSource l)
          else u.setStrand l (activeStrand s l errors))
      else if (s.strand l).attempt < 3 then .next (u.setStrand l { attempt := (s.strand l).attempt + 1 })
      else .next (strandFails u l .linkWidth) := by
  have run : exec (.strandWireTestDone l errors) s = execStrandWireTestDone l errors s := rfl
  have acts : ¬ (!panelRuns s || decide ((s.strand l).phase ≠ .wireTest)) = true := by simp [runs, testing]
  rw [run, execStrandWireTestDone]
  dsimp only
  rw [if_neg acts, State.strand_setStrand_self]
  rfl

theorem exec_strandWireTestDone_active (runs : panelRuns s = true) (testing : (s.strand l).phase = .wireTest)
    (partners : partnersMatch s l = true)
    (enough : strandMinimum s l ≤ strandGroups s l - (deadGroups s l errors).length)
    (revision : revisionLow s l = false) : exec (.strandWireTestDone l errors) s =
      .next ((s.setStrand l (repairedStrand s l errors)).setStrand l (activeStrand s l errors)) := by
  simp [exec_strandWireTestDone errors runs testing, partners, enough, revision]

theorem exec_strandWireTestDone_again (runs : panelRuns s = true) (testing : (s.strand l).phase = .wireTest)
    (partners : partnersMatch s l = true)
    (few : strandGroups s l - (deadGroups s l errors).length < strandMinimum s l) (more : (s.strand l).attempt < 3) :
    exec (.strandWireTestDone l errors) s =
      .next ((s.setStrand l (repairedStrand s l errors)).setStrand l { attempt := (s.strand l).attempt + 1 }) := by
  simp [exec_strandWireTestDone errors runs testing, partners, Nat.not_le.2 few, more]

theorem exec_strandWireTestDone_failed (runs : panelRuns s = true) (testing : (s.strand l).phase = .wireTest)
    (bad : partnersMatch s l = false ∨
      strandGroups s l - (deadGroups s l errors).length < strandMinimum s l ∧ 3 ≤ (s.strand l).attempt) :
    exec (.strandWireTestDone l errors) s = .next (strandFails (s.setStrand l (repairedStrand s l errors)) l
      (if partnersMatch s l = false then .strapMismatch else .linkWidth)) := by
  cases partners : partnersMatch s l with
  | false => simp [exec_strandWireTestDone errors runs testing, partners]
  | true =>
    obtain ⟨few, last⟩ := bad.resolve_left (by simp [partners])
    simp [exec_strandWireTestDone errors runs testing, partners, Nat.not_le.2 few, Nat.not_lt.2 last]

/-- With no failed wire, every group that was in service stays so, and no wire is replaced. -/
theorem repairedStrand_clean (dead : (s.strand l).dead = []) (eyes : (s.strand l).eyes = []) :
    deadGroups s l [] = [] ∧ (repairedStrand s l []).steered = [] := by
  have good : failedWires (s.strand l) [] = [] := by simp [failedWires, eyes]
  have repair (g : Nat) (away : Bool) : repairGroup [] g away = (none, true) := rfl
  constructor
  · simp [deadGroups, groupServes, good, dead, repair]
  · simp [repairedStrand, good, repair]

end

section

variable {s : State} {l : Strand}

theorem exec_strandTrainStart (runs : panelRuns s = true) (stage : s.power.stage = 5) (off : (s.strand l).phase = .off)
    (here : strandExists s l = true) (good₁ : domainGood s (dieDomain (strandDies s l).1) = true)
    (good₂ : domainGood s (dieDomain (strandDies s l).2) = true)
    (strap₁ : strapGood (strandDies s l).1 (strapsHeld s (strandDies s l).1) = true)
    (strap₂ : strapGood (strandDies s l).2 (strapsHeld s (strandDies s l).2) = true) :
    exec (.strandTrainStart l) s =
      .next (s.setStrand l { attempt := (s.strand l).attempt, phase := .clockLock, begun := s.now }) := by
  have run : exec (.strandTrainStart l) s = execStrandTrainStart l s := rfl
  simp [run, execStrandTrainStart, runs, stage, off, here, good₁, good₂, strap₁, strap₂]

theorem exec_strandClockLockTimeout (runs : panelRuns s = true) (locking : (s.strand l).phase = .clockLock)
    (locked : BitVec 32) : exec (.strandClockLockTimeout l locked) s =
      .next ((s.passTo ((s.strand l).begun + 20000)).setStrand l { s.strand l with
        phase := .deskew, dead := (List.range (strandGroups s l)).filter (fun g => !locked.getLsbD g) }) := by
  have run : exec (.strandClockLockTimeout l locked) s = execStrandClockLockTimeout l locked s := rfl
  rw [run, execStrandClockLockTimeout]
  simp only [runs, locking, Bool.not_true, ne_eq, not_true_eq_false, decide_false, Bool.or_self, Bool.false_eq_true,
    if_false]
  rfl

theorem exec_strandDeskewDone (runs : panelRuns s = true) (deskew : (s.strand l).phase = .deskew)
    (eyes : List (Wire × Nat)) : exec (.strandDeskewDone l eyes) s =
      .next (s.setStrand l { s.strand l with phase := .wireTest, eyes }) := by
  have run : exec (.strandDeskewDone l eyes) s = execStrandDeskewDone l eyes s := rfl
  simp [run, execStrandDeskewDone, runs, deskew]

theorem exec_strandLinkDown (alive : linksAlive s = true) (active : (s.strand l).phase = .active) :
    exec (.strandLinkDown l) s = .next (strandDown s l) := by
  have run : exec (.strandLinkDown l) s = execStrandLinkDown l s := rfl
  simp [run, execStrandLinkDown, alive, active]

end

/-- The repair logs are registers: writing them leaves every other part of the state alone. -/
theorem writeLaneLogs_only (s : State) (t : Nat) (failed : List HamperLane) :
    Only 64 s (s.each (List.range 32) (fun c s => writeLaneLog t c failed s)) :=
  (Only.refl 64 s).each fun _ _ h => writeLaneLog_only h (rfl : _ &&& _ = _)

theorem tileTrained_trained (s : State) (t : Nat) : ((tileTrained s t).tile t).trained = true := by
  unfold tileTrained State.modTile
  dsimp only
  rw [State.tile_setTile_self]

theorem exec_hamperTraining {s : State} {site : Fin 72} {t : Nat} {failed : List HamperLane} (runs : panelRuns s = true)
    (stage : s.power.stage = 5) (tile : tileAt? s site.val = some t) (fresh : (s.tile t).trained = false)
    (compute : domainGood s site.val = true) (hamper : domainGood s (72 + site.val) = true)
    (whole : ∀ c < 32, ∀ g < 36, groupLost failed c g = false) : exec (.hamperTraining site failed) s =
      .next (tileTrained (s.each (List.range 32) (fun c s => writeLaneLog t c failed s)) t) := by
  have run : exec (.hamperTraining site failed) s = execHamperTraining site failed s := rfl
  have repaired : (List.range 32).find? (fun c => (List.range 36).any (groupLost failed c)) = none := by
    rw [List.find?_eq_none]
    intro c hc
    simpa using fun g hg => whole c (List.mem_range.1 hc) g hg
  simp [run, execHamperTraining, runs, stage, tile, fresh, compute, hamper, repaired]

/-- Settles O3: training state by state, a frame through what its transmitter holds, and a link that goes down. -/
theorem strandTraining : Obligations.StrandTraining := by
  unfold Obligations.StrandTraining
  refine ⟨?start, ?locked, ?deskewed, ?clean, ?tested, ?frame, ?down, ?hamper⟩
  case start => exact fun s l => exec_strandTrainStart
  case locked =>
    intro s l locked runs locking
    refine ⟨_, exec_strandClockLockTimeout runs locking locked, ?_⟩
    rw [State.strand_setStrand_self]
    exact ⟨rfl, rfl, rfl⟩
  case deskewed => exact fun s l eyes runs deskew => exec_strandDeskewDone runs deskew eyes
  case clean =>
    intro s l runs testing dead eyes partners revision
    obtain ⟨whole, straight⟩ := repairedStrand_clean dead eyes
    have enough : strandMinimum s l ≤ strandGroups s l - (deadGroups s l []).length := by
      rw [whole]; exact Nat.div_le_self ..
    refine ⟨_, exec_strandWireTestDone_active [] runs testing partners enough revision, ?_⟩
    rw [State.strand_setStrand_self]
    exact ⟨rfl, whole, straight⟩
  case tested =>
    intro s l errors x bad dead runs testing
    have groups : deadGroups s l errors = dead := deadGroups_eq s l errors
    rw [← groups]
    refine ⟨fun partners enough revision => ?_, fun partners few more => ?_, fun failed => ?_⟩
    · refine ⟨_, exec_strandWireTestDone_active errors runs testing partners enough revision, ?_⟩
      rw [State.strand_setStrand_self]
      exact ⟨rfl, rfl, rfl, rfl⟩
    · refine ⟨_, exec_strandWireTestDone_again errors runs testing partners few more, ?_⟩
      rw [State.strand_setStrand_self]
      exact ⟨rfl, rfl, rfl⟩
    · refine ⟨_, exec_strandWireTestDone_failed errors runs testing failed, ?_⟩
      rw [strandFails_strand]
      exact ⟨rfl, rfl⟩
  case frame =>
    intro s l far good x alive active shown
    obtain ⟨sent, seqs, mem, held⟩ := transmits_transmitted shown
    obtain ⟨f, expected, run⟩ := exec_strandFrameReceive good alive active mem held
    obtain ⟨out, buffer, -, strand⟩ := held
    have rx := congrArg (strandRx · far) strand
    simp only [strandRx_setStrandRx_self] at rx
    refine ⟨fun ok => ⟨_, run.trans (by rw [if_pos ok]), ?_⟩,
      fun bad few => ⟨_, run.trans (by rw [if_neg (ne_true_of_eq_false bad)]), ?_⟩⟩
    · obtain ⟨_, accepted⟩ :=
        acceptStrandFrame_strand (transmitted s l far x.next) l far (f := f) (by rw [expected, rx])
      rw [accepted, strand]
      simp [active, x]
    · obtain ⟨refused, replay⟩ := refuseStrandFrame_expected rx few
      rw [refused, replay, strand, out]
      simp [active, x]
  case down =>
    intro s l alive active
    refine ⟨_, exec_strandLinkDown alive active, strandDown_phase s l, fun k e mesh => ?_⟩
    subst mesh
    exact strandDown_mesh_active s k e
  case hamper =>
    intro s site t failed runs stage tile fresh compute hamper whole
    refine ⟨_, exec_hamperTraining runs stage tile fresh compute hamper whole, tileTrained_trained .., ?_⟩
    exact (tileTrained_only ((writeLaneLogs_only s t failed).weaken (rfl : 64 &&& 4194368 = 64))
      (rfl : _ &&& _ = _)).frame .safe (by decide)

end Sys2Proof.Machine

/-! Proofs of the obligations of spec/02_number_formats.md: elements of a block under its escape entry, and the
counter-based generator. -/

namespace Sys2Proof.Machine

open Sys2Proof

/-! ### Elements of a block (R65, R72, R73) -/

theorem nanBlock_iff {scale : Nat} {x : Escapes} :
    nanBlock scale x = true ↔ scale = 0xFF ∨ x.count = 3 ∨ x.count = 2 ∧ x.pos0 = x.pos1 := by
  simp [nanBlock, or_assoc]

theorem decodeBlockElem_nanBlock {scale : Nat} {x : Escapes} (h : nanBlock scale x = true) (f : Fmt) (i code : Nat) :
    decodeBlockElem f scale x i code = .nan false :=
  if_pos h

section
variable {scale i : Nat} {x : Escapes} (whole : nanBlock scale x = false)
include whole

theorem decodeBlockElem_first (used : 1 ≤ x.count) (at0 : x.pos0 = i) (f : Fmt) (code : Nat) :
    decodeBlockElem f scale x i code = decodeNum .kf16 x.val0 := by
  simp [decodeBlockElem, whole, used, at0]

/-- The two entries of a block that is not a NaN block name different positions, so the first does not hide the
second. -/
theorem decodeBlockElem_second (used : x.count = 2) (at1 : x.pos1 = i) (f : Fmt) (code : Nat) :
    decodeBlockElem f scale x i code = decodeNum .kf16 x.val1 := by
  have apart : x.pos0 ≠ i := fun at0 =>
    ne_true_of_eq_false whole (nanBlock_iff.2 (.inr (.inr ⟨used, at0.trans at1.symm⟩)))
  simp [decodeBlockElem, whole, used, at1, apart]

/-- An element that no entry in use names reads as in a block with COUNT 0. -/
theorem decodeBlockElem_unescaped (first : ¬ (1 ≤ x.count ∧ x.pos0 = i)) (second : ¬ (2 ≤ x.count ∧ x.pos1 = i))
    (f : Fmt) (code : Nat) : decodeBlockElem f scale x i code = decodeBlockElem f scale {} i code := by
  have bare : nanBlock scale {} = false := by
    have scaled : scale ≠ 0xFF := fun h => ne_true_of_eq_false whole (nanBlock_iff.2 (.inl h))
    simp [nanBlock, scaled]
  simp [decodeBlockElem, whole, bare, first, second]

theorem decodeBlockElem_second_unused (one : x.count = 1) (q v : Nat) (f : Fmt) (code : Nat) :
    decodeBlockElem f scale { x with pos1 := q, val1 := v } i code = decodeBlockElem f scale x i code := by
  have whole' : nanBlock scale { x with pos1 := q, val1 := v } = false := by
    rw [← whole]; simp [nanBlock, one]
  by_cases at0 : x.pos0 = i
  · have used : 1 ≤ x.count := Nat.le_of_eq one.symm
    rw [decodeBlockElem_first whole used at0, decodeBlockElem_first whole' used at0]
  · rw [decodeBlockElem_unescaped whole (by simp [at0]) (by simp [one]),
      decodeBlockElem_unescaped whole' (by simp [at0]) (by simp [one])]

end

/-- A K2 marker that no entry in use names is NaN, in a NaN block because everything there is. -/
theorem decodeBlockElem_k2_marker {scale i code : Nat} {x : Escapes} (marker : code % 4 = 2)
    (first : ¬ (1 ≤ x.count ∧ x.pos0 = i)) (second : ¬ (2 ≤ x.count ∧ x.pos1 = i)) :
    decodeBlockElem .k2 scale x i code = .nan false := by
  cases block : nanBlock scale x with
  | true => exact decodeBlockElem_nanBlock block ..
  | false => simp [decodeBlockElem, block, first, second, marker]

/-! ### The generator (R87) -/

/-- The words before the first round. -/
def genStart (counter : BitVec 128) : GenState :=
  ⟨counter.setWidth 32, (counter >>> 32).setWidth 32, (counter >>> 64).setWidth 32, (counter >>> 96).setWidth 32⟩

/-- The output that the words after the last round give. -/
def genOutput (key : Dword) (g : GenState) : BitVec 128 :=
  g.x3 ++ (g.x2 + genKey key 2 + 4#32) ++ g.x1 ++ (g.x0 + genKey key 1)

/-- The output from the words after each round. -/
theorem generate_of_rounds {counter out : BitVec 128} {key : Dword} {g a b c d : GenState}
    (start : genStart counter = g) (round0 : genRound key 0 g = a) (round1 : genRound key 1 a = b)
    (round2 : genRound key 2 b = c) (round3 : genRound key 3 c = d) (output : genOutput key d = out) :
    generate counter key = out := by
  subst start round0 round1 round2 round3 output; rfl

/-- Settles O60: an element by whether the block is a NaN block and by the entry that names its position; each output
of the generator from the table of its rounds. -/
theorem escapesAndGenerator : Obligations.EscapesAndGenerator := by
  unfold Obligations.EscapesAndGenerator
  refine ⟨?escapes, ?nans, ?generator⟩
  case escapes =>
    intro f scale x i code whole
    refine ⟨fun used at0 => decodeBlockElem_first whole (by omega) at0 f code,
      fun used at1 => decodeBlockElem_second whole used at1 f code,
      fun one q v => decodeBlockElem_second_unused whole one q v f code,
      fun empty => decodeBlockElem_unescaped whole (by omega) (by omega) f code⟩
  case nans =>
    intro f scale x i code
    refine ⟨fun counts => ?_, fun marker first second => ?_⟩
    · rw [decodeBlockElem_nanBlock (nanBlock_iff.2 (.inr counts))]; rfl
    · rw [decodeBlockElem_k2_marker marker first second]; rfl
  case generator =>
    -- The table's rounds are conjuncts of their own; both outputs come from these same facts.
    refine ⟨generate_of_rounds (by decide) ?a0 ?a1 ?a2 ?a3 (by decide),
      generate_of_rounds (by decide) ?b0 ?b1 ?b2 ?b3 (by decide), ?a0, ?a1, ?a2, ?a3, ?b0, ?b1, ?b2, ?b3⟩
    all_goals decide

end Sys2Proof.Machine

/-! Proofs of the obligations of spec/03_matrix_engine.md: the loads, broadcasts and sums of a pass, the ramps of the
engines and the vector unit, and the fold of the engines' registers. -/

namespace Sys2Proof.Machine

open Sys2Proof

/-! ### Counters of 64 bits (R9, R531) -/

theorem State.reg64_congr {s t : State} (h : t.regs = s.regs) (a : Nat) : t.reg64 a = s.reg64 a := by
  unfold State.reg64; rw [State.reg_congr h, State.reg_congr h]

theorem State.engine_congr {s t : State} (h : t.engines = s.engines) (i : Nat) : t.engine i = s.engine i := by
  unfold State.engine; rw [h]

theorem State.reg64_setReg64_self (s : State) (a v : Nat) : (s.setReg64 a v).reg64 a = v % 2 ^ 64 := by
  have low : (s.setReg64 a v).reg a = BitVec.ofNat 32 v := by
    rw [State.setReg64, State.reg_setReg_other _ _ (by omega), State.reg_setReg_self]
  have high : (s.setReg64 a v).reg (a + 4) = BitVec.ofNat 32 (v / 2 ^ 32) := State.reg_setReg_self ..
  rw [State.reg64, low, high, BitVec.toNat_ofNat, BitVec.toNat_ofNat]
  omega

theorem State.reg64_setReg64_apart (s : State) {a b : Nat} (v : Nat) (apart : a + 8 ≤ b ∨ b + 8 ≤ a) :
    (s.setReg64 a v).reg64 b = s.reg64 b := by
  have word (c : Nat) (h : c ≠ a ∧ c ≠ a + 4) : (s.setReg64 a v).reg c = s.reg c := by
    rw [State.setReg64, State.reg_setReg_other _ _ h.2.symm, State.reg_setReg_other _ _ h.1.symm]
  rw [State.reg64, State.reg64, word b (by omega), word (b + 4) (by omega)]

theorem State.reg64_count64_self (s : State) (a n : Nat) : (s.count64 a n).reg64 a = (s.reg64 a + n) % 2 ^ 64 :=
  State.reg64_setReg64_self ..

theorem State.reg64_count64_apart (s : State) {a b : Nat} (n : Nat) (apart : a + 8 ≤ b ∨ b + 8 ≤ a) :
    (s.count64 a n).reg64 b = s.reg64 b :=
  State.reg64_setReg64_apart _ _ apart

/-- The counters at `x.1` are counted up by `x.2`. -/
def countAll (xs : List (Nat × Nat)) (s : State) : State := xs.foldl (fun s x => s.count64 x.1 x.2) s

theorem countAll_reg64_below {a : Nat} {xs : List (Nat × Nat)} (below : ∀ x ∈ xs, a + 8 ≤ x.1) (s : State) :
    (countAll xs s).reg64 a = s.reg64 a := by
  induction xs generalizing s with
  | nil => rfl
  | cons x xs ih =>
    obtain ⟨hx, hxs⟩ := List.forall_mem_cons.1 below
    exact (ih hxs _).trans (State.reg64_count64_apart _ _ (.inr hx))

/-- Of counters in rising order, each counts its own. -/
theorem countAll_reg64 {xs : List (Nat × Nat)} (rising : xs.Pairwise (fun x y => x.1 + 8 ≤ y.1)) {a n : Nat}
    (mem : (a, n) ∈ xs) (s : State) : (countAll xs s).reg64 a = (s.reg64 a + n) % 2 ^ 64 := by
  induction xs generalizing s with
  | nil => cases mem
  | cons z zs ih =>
    obtain ⟨first, rest⟩ := List.pairwise_cons.1 rising
    rcases List.mem_cons.1 mem with rfl | mem
    · exact (countAll_reg64_below first _).trans (State.reg64_count64_self ..)
    · exact (ih rest mem _).trans (by rw [State.reg64_count64_apart _ _ (.inl (first _ mem))])

/-- The counters of R138 of engine `e` of tile `t`, with what `c` adds to them. -/
def cycleCounters (t e : Nat) (c : Cycles) : List (Nat × Nat) :=
  [(meA t e 0x10, c.valid), (meA t e 0x18, c.dry), (meA t e 0x20, c.drain), (meA t e 0x28, c.load),
   (meA t e 0x30, c.gap), (meA t e 0x38, c.ramp), (meA t e 0x40, c.none), (meA t e 0x48, c.thermos)]

theorem meA_spaced (t e : Nat) {o o' : Nat} (h : o + 8 ≤ o') : meA t e o + 8 ≤ meA t e o' := by
  unfold meA tilA; omega

theorem cycleCounters_rising (t e : Nat) (c : Cycles) :
    (cycleCounters t e c).Pairwise (fun x y => x.1 + 8 ≤ y.1) := by
  simp [cycleCounters, meA_spaced]

theorem countCycles_eq_countAll (s : State) (t e : Nat) (c : Cycles) :
    countCycles s t e c = countAll (cycleCounters t e c) s := by
  simp only [countCycles, countAll, cycleCounters, List.foldl_cons, List.foldl_nil]

theorem countCycles_reg64 (s : State) (t e : Nat) {c : Cycles} {a n : Nat} (counter : (a, n) ∈ cycleCounters t e c) :
    (countCycles s t e c).reg64 a = (s.reg64 a + n) % 2 ^ 64 := by
  rw [countCycles_eq_countAll, countAll_reg64 (cycleCounters_rising t e c) counter]

theorem countCycles_engines (s : State) (t e : Nat) (c : Cycles) : (countCycles s t e c).engines = s.engines :=
  (countCycles_only (Only.refl 64 s) (rfl : 64 &&& 64 = 64)).frame .engines (by decide)

/-! ### An engine after counted cycles (R138) -/

/-- Engine `e` of tile `t` becomes `y.2`, and the cycles `y.1` are counted. -/
def counted (s : State) (t e : Nat) (y : Cycles × Engine) : State :=
  countCycles (s.setEngine (4 * t + e) y.2) t e y.1

section

variable (s : State) (t e : Nat) (y : Cycles × Engine)

@[simp] theorem counted_engine : (counted s t e y).engine (4 * t + e) = y.2 := by
  rw [counted, State.engine_congr (countCycles_engines ..), State.engine_setEngine_self]

theorem counted_reg64 {a n : Nat} (counter : (a, n) ∈ cycleCounters t e y.1) :
    (counted s t e y).reg64 a = (s.reg64 a + n) % 2 ^ 64 := by
  rw [counted, countCycles_reg64 _ t e counter, State.reg64_congr (State.setEngine_regs ..)]

theorem passCycles_eq_counted (n : Nat) :
    passCycles s t e n = counted s t e (engineCycles (enginePace s t e) n {} (s.engine (4 * t + e))) := rfl

end

/-! ### The passes of an engine (R118) -/

/-- What tells a pass from the others of its engine. -/
def passKey (p : Pass) : Nat × Word := (p.queue, p.idx)

theorem passKey_eq_iff {y p : Pass} : passKey y = passKey p ↔ y.queue = p.queue ∧ y.idx = p.idx := by
  simp [passKey]

section

variable {x : Engine} {p : Pass} {f : Pass → Pass}

theorem withPass_passes :
    (withPass x p f).passes = x.passes.map (fun y => if passKey y = passKey p then f y else y) := by
  simp [withPass, passKey_eq_iff]

/-- What a change leaves alone in each pass stays in all of them. -/
theorem withPass_view {β : Type} {view : Pass → β} (same : ∀ y, view (f y) = view y) :
    (withPass x p f).passes.map view = x.passes.map view := by
  rw [withPass_passes, List.map_map]
  refine List.map_congr_left fun y _ => ?_
  rw [Function.comp_apply, apply_ite view, same, ite_self]

/-- The pass that is changed is afterwards what the change makes of it. -/
theorem mem_withPass {y : Pass} (mem : y ∈ (withPass x p f).passes) (named : passKey y = passKey p) :
    ∃ z ∈ x.passes, passKey z = passKey p ∧ y = f z := by
  rw [withPass_passes] at mem
  obtain ⟨z, hz, rfl⟩ := List.mem_map.1 mem
  by_cases h : passKey z = passKey p
  · exact ⟨z, hz, h, if_pos h⟩
  · rw [if_neg h] at named; exact absurd named h

theorem beginPass_begun {y : Pass} (mem : y ∈ (beginPass x p).passes) (named : passKey y = passKey p) :
    y.begun = true := by
  obtain ⟨z, -, rfl⟩ := List.mem_map.1 mem
  split at named
  · rename_i key; rw [if_pos key]
  · rename_i key
    have other : passKey z ≠ passKey p := by simpa [passKey_eq_iff] using key
    exact absurd (by rw [← named]; split <;> rfl) other

end

@[simp] theorem modPass_engine (s : State) (i : Nat) (p : Pass) (f : Pass → Pass) :
    (modPass s i p f).engine i = withPass (s.engine i) p f := State.engine_setEngine_self ..

/-! ### Admission changes no pass's key (R146) -/

/-- The keys of the passes of engine `i`, in issue order. -/
def passKeys (s : State) (i : Nat) : List (Nat × Word) := (s.engine i).passes.map passKey

@[simp] theorem State.setBank_engine (s : State) (b : Nat) (k : Bank) (i : Nat) :
    (s.setBank b k).engine i = s.engine i := State.engine_congr (State.setBank_engines ..) i

@[simp] theorem requestDrain_engine (s : State) (j : Nat) (p : Pass) (i : Nat) :
    (requestDrain s j p).engine i = s.engine i := State.engine_congr (State.setDrain_engines ..) i

theorem admitPass_passKeys (s : State) (i : Nat) (p : Pass) : passKeys (admitPass s i p) i = passKeys s i := by
  unfold admitPass passKeys
  dsimp only
  split
  · split
    · rw [requestDrain_engine, State.setBank_engine, modPass_engine]
      exact withPass_view fun _ => rfl
    · rw [State.setBank_engine, modPass_engine]
      exact withPass_view fun _ => rfl
  · rw [State.setBank_engine, modPass_engine]
    exact withPass_view fun _ => rfl

theorem admitLoop_passKeys (i n : Nat) (s : State) : passKeys (admitLoop i n s) i = passKeys s i := by
  induction n generalizing s with
  | zero => rfl
  | succ n ih =>
    unfold admitLoop
    split
    · split
      · exact (ih _).trans (admitPass_passKeys ..)
      · rfl
    · rfl

theorem admitReady_passKeys (s : State) (i : Nat) : passKeys (admitReady s i) i = passKeys s i :=
  admitLoop_passKeys ..

theorem admitReady_queues (s : State) (i : Nat) : (admitReady s i).queues = s.queues :=
  (admitReady_only (Only.refl 58720256 s) (rfl : _ &&& _ = _)).frame .queues (by decide)

/-! ### One broadcast cycle (R111, R114, R116, R126) -/

section

variable {pace : Pace} {c : Cycles} {x : Engine} {p : Pass}

/-- Outside the gap class no row is primed: only the bus, the front and the time since the last vector move on. -/
theorem elapse_of_ne_gap (valid : Bool) {slot : BroadcastSlot} (h : slot ≠ .gap) : elapse valid slot x =
    { x with bus := x.bus - 1, frontIn := x.frontIn - 1, since := if valid then 0 else min 4 (x.since + 1) } := by
  cases slot with
  | gap => exact absurd rfl h
  | _ => rfl

theorem rampCycle_vector_valid (may : mayBroadcast x = true) : (rampCycle pace .vector x).1 = .valid := by
  simp [rampCycle, carried, may]

theorem rampCycle_vector_held (held : mayBroadcast x = false) : (rampCycle pace .vector x).1 = .held := by
  simp [rampCycle, carried, held]

theorem engineCycle_first_valid (slot : slotOf x = .first p) (may : mayBroadcast x = true) : engineCycle pace c x =
    (addCycle c (.first p) .valid,
      elapse true (.first p) (carryLanes (beginPass (rampCycle pace .vector x).2 p) p)) := by
  simp [engineCycle, slot, BroadcastSlot.offer, rampCycle_vector_valid may]

theorem engineCycle_first_held (slot : slotOf x = .first p) (held : mayBroadcast x = false) : engineCycle pace c x =
    (addCycle c (.first p) .held, elapse false (.first p) (rampCycle pace .vector x).2) := by
  simp [engineCycle, slot, BroadcastSlot.offer, rampCycle_vector_held held]

theorem engineCycle_vector_valid (slot : slotOf x = .vector p) (may : mayBroadcast x = true) : engineCycle pace c x =
    (addCycle c (.vector p) .valid, elapse true (.vector p) (carryLanes (rampCycle pace .vector x).2 p)) := by
  simp [engineCycle, slot, BroadcastSlot.offer, rampCycle_vector_valid may]

theorem rampCycle_vector_history (may : mayBroadcast x = true) :
    (rampCycle pace .vector x).2.history = (x.history <<< 1) ||| 1 := by
  simp [rampCycle, carried, may]

/-- The running pass offers a vector only between vectors. -/
theorem part_of_slotOf_vector (slot : slotOf x = .vector p) : p.part = 0 := by
  unfold slotOf at slot
  split at slot
  · split at slot
    · cases slot
    · rename_i between
      split at slot <;> cases slot
      simpa using between
  · split at slot
    · repeat' split at slot
      all_goals cases slot
    · split at slot <;> cases slot

/-- Lanes of another format than KF16 are sent in the cycle that carries them. -/
theorem carryLanes_sent (narrow : mpMFmt p.line ≠ 1) (between : p.part = 0) {y : Pass}
    (mem : y ∈ (carryLanes x p).passes) (named : passKey y = passKey p) :
    y.sent = p.sent + min (mpVectors p.line - p.sent) ((pairLanes p.line).getD 1) := by
  obtain ⟨z, -, -, rfl⟩ := mem_withPass mem named
  simp [narrow, between]

theorem carryLanes_begun {y : Pass} (mem : y ∈ (carryLanes (beginPass x p) p).passes)
    (named : passKey y = passKey p) : y.begun = true := by
  obtain ⟨z, hz, key, rfl⟩ := mem_withPass mem named
  have begun := beginPass_begun hz key
  split <;> exact begun

end

/-! ### Idle cycles of a ramp (R126) -/

section

variable {pace : Pace} {x : Engine} {n : Nat}

/-- In HOLD nothing moves but the idle run. -/
theorem rampCycle_hold_early (hold : x.ramp = .hold) (early : x.idleRun + 1 < pace.window) :
    let y := (rampCycle pace .nothing x).2
    y.ramp = .hold ∧ y.limit = x.limit ∧ y.idleRun = x.idleRun + 1 := by
  have idle : carried pace .nothing x ≠ .valid := by cases h : thermosNow pace x <;> simp [carried, h]
  simp [rampCycle, nextRamp, nextLimit, hold, Nat.not_le.2 early, idle]

/-- HOLD ends as the idle run reaches WINDOW. -/
theorem rampCycle_hold_ends (hold : x.ramp = .hold) (ends : x.idleRun + 1 = pace.window) :
    let y := (rampCycle pace .nothing x).2
    y.ramp = .fall ∧ y.limit = x.limit ∧ y.idleRun = pace.window := by
  simp [rampCycle, nextRamp, nextLimit, hold, ends]

theorem rampCycle_fall_early (fall : x.ramp = .fall) (early : x.rampRun + 1 < pace.step) :
    let y := (rampCycle pace .nothing x).2
    y.ramp = .fall ∧ y.limit = x.limit ∧ y.rampRun = x.rampRun + 1 := by
  simp [rampCycle, nextRamp, nextLimit, fall, Nat.not_le.2 early]

theorem rampCycle_fall_steps (fall : x.ramp = .fall) (due : x.rampRun + 1 = pace.step) :
    let y := (rampCycle pace .nothing x).2
    y.limit = x.limit - 1 ∧ y.ramp = (if x.limit - 1 = 0 then .cold else .fall) ∧ y.rampRun = 0 := by
  by_cases cold : x.limit - 1 = 0 <;> simp [rampCycle, nextRamp, nextLimit, fall, due, cold]

theorem rampCycle_rise_early (rise : x.ramp = .rise) (early : x.rampRun + 1 < pace.step) (low : x.limit < 64)
    (window : x.idleRun + 1 < pace.window) :
    let y := (rampCycle pace .nothing x).2
    y.ramp = .rise ∧ y.limit = x.limit ∧ y.rampRun = x.rampRun + 1 ∧ y.idleRun = x.idleRun + 1 := by
  simp [rampCycle, nextRamp, nextLimit, rise, Nat.not_le.2 early, Nat.ne_of_lt low, Nat.not_le.2 window]

theorem rampCycle_rise_steps (rise : x.ramp = .rise) (due : x.rampRun + 1 = pace.step) (low : x.limit < 64)
    (window : x.idleRun + 1 < pace.window) :
    let y := (rampCycle pace .nothing x).2
    y.limit = x.limit + 1 ∧ y.ramp = (if x.limit = 63 then .run else .rise) ∧ y.rampRun = 0 := by
  have step : min 64 (x.limit + 1) = x.limit + 1 := Nat.min_eq_right low
  by_cases top : x.limit = 63 <;>
    simp [rampCycle, nextRamp, nextLimit, rise, due, step, Nat.not_le.2 window, top]

theorem idleCycles_hold (hold : x.ramp = .hold) (left : x.idleRun + (n + 1) = pace.window) :
    let y := idleCycles pace (n + 1) x
    y.ramp = .fall ∧ y.limit = x.limit ∧ y.idleRun = pace.window := by
  induction n generalizing x with
  | zero => exact rampCycle_hold_ends hold left
  | succ n ih =>
    obtain ⟨hold', limit, idle⟩ := rampCycle_hold_early hold (pace := pace) (by omega)
    obtain ⟨fall, limit', window⟩ := ih hold' (by omega)
    exact ⟨fall, limit'.trans limit, window⟩

theorem idleCycles_fall (fall : x.ramp = .fall) (left : x.rampRun + (n + 1) = pace.step) :
    let y := idleCycles pace (n + 1) x
    y.limit = x.limit - 1 ∧ y.ramp = (if x.limit - 1 = 0 then .cold else .fall) ∧ y.rampRun = 0 := by
  induction n generalizing x with
  | zero => exact rampCycle_fall_steps fall left
  | succ n ih =>
    obtain ⟨fall', limit, run⟩ := rampCycle_fall_early fall (pace := pace) (by omega)
    have steps := ih fall' (by omega)
    rwa [limit] at steps

theorem idleCycles_rise (rise : x.ramp = .rise) (left : x.rampRun + (n + 1) = pace.step) (low : x.limit < 64)
    (window : x.idleRun + (n + 1) < pace.window) :
    let y := idleCycles pace (n + 1) x
    y.limit = x.limit + 1 ∧ y.ramp = (if x.limit = 63 then .run else .rise) ∧ y.rampRun = 0 := by
  induction n generalizing x with
  | zero => exact rampCycle_rise_steps rise left low window
  | succ n ih =>
    obtain ⟨rise', limit, run, idle⟩ := rampCycle_rise_early rise (pace := pace) (by omega) low (by omega)
    have steps := ih rise' (by omega) (by omega) (by omega)
    rwa [limit] at steps

theorem untilWindow_hold (hold : x.ramp = .hold) :
    untilWindow pace x = pace.window - x.idleRun := by simp [untilWindow, hold]

/-- The cycles up to the window end HOLD (R126). -/
theorem idleCycles_untilWindow (hold : x.ramp = .hold) (early : x.idleRun < pace.window) :
    let y := idleCycles pace (untilWindow pace x) x
    y.ramp = .fall ∧ y.limit = x.limit ∧ y.idleRun = pace.window := by
  have cycles : untilWindow pace x = (pace.window - x.idleRun - 1) + 1 := by rw [untilWindow_hold hold]; omega
  rw [cycles]
  exact idleCycles_hold hold (by omega)

theorem untilStep_moving (moving : x.ramp = .fall ∨ x.ramp = .rise) :
    untilStep pace x = pace.step - x.rampRun := by simp [untilStep, moving]

/-- The cycles up to D's step lower it in FALL (R126). -/
theorem idleCycles_untilStep_fall (fall : x.ramp = .fall) (early : x.rampRun < pace.step) :
    let y := idleCycles pace (untilStep pace x) x
    y.limit = x.limit - 1 ∧ y.ramp = (if x.limit - 1 = 0 then .cold else .fall) ∧ y.rampRun = 0 := by
  have cycles : untilStep pace x = (pace.step - x.rampRun - 1) + 1 := by rw [untilStep_moving (.inl fall)]; omega
  rw [cycles]
  exact idleCycles_fall fall (by omega)

/-- The cycles up to D's step raise it in RISE, if the window does not end before (R126). -/
theorem idleCycles_untilStep_rise (rise : x.ramp = .rise) (early : x.rampRun < pace.step) (low : x.limit < 64)
    (window : x.idleRun + (pace.step - x.rampRun) < pace.window) :
    let y := idleCycles pace (untilStep pace x) x
    y.limit = x.limit + 1 ∧ y.ramp = (if x.limit = 63 then .run else .rise) ∧ y.rampRun = 0 := by
  have cycles : untilStep pace x = (pace.step - x.rampRun - 1) + 1 := by rw [untilStep_moving (.inr rise)]; omega
  rw [cycles]
  exact idleCycles_rise rise (by omega) low (by omega)

/-! ### Cycles of an engine without passes -/

/-- The engine with what its cycles move beside the ramp: the load bus, the front, and the time since a vector. -/
def besideRamp (x : Engine) (bus frontIn since : Nat) : Engine := { x with bus, frontIn, since }

theorem idleCycles_besideRamp (b f k : Nat) :
    idleCycles pace n (besideRamp x b f k) = besideRamp (idleCycles pace n x) b f k := by
  induction n generalizing x with
  | zero => rfl
  | succ n ih => exact ih (x := (rampCycle pace .nothing x).2)

theorem slotOf_idle (idle : x.passes = []) : slotOf x = .none := by
  simp [slotOf, runningPass, nextPass, idle]

theorem engineCycle_none (none : slotOf x = .none) (c : Cycles) : engineCycle pace c x =
    let y := rampCycle pace .nothing x
    (addCycle c .none y.1, elapse (y.1 = .valid) .none y.2) := by
  simp only [engineCycle, none, BroadcastSlot.offer]
  generalize rampCycle pace .nothing x = y
  obtain ⟨k, y⟩ := y
  cases k <;> rfl

theorem rampCycle_nothing (pace : Pace) (x : Engine) :
    (rampCycle pace .nothing x).1 = .thermos ∨ (rampCycle pace .nothing x).1 = .idle := by
  cases thermos : thermosNow pace x <;> simp [rampCycle, carried, thermos]

theorem engineCycle_idle (idle : x.passes = []) (c : Cycles) :
    (engineCycle pace c x).1.none = c.none + 1 ∧
    ∃ b f k, (engineCycle pace c x).2 = besideRamp (rampCycle pace .nothing x).2 b f k := by
  rw [engineCycle_none (slotOf_idle idle)]
  refine ⟨?_, _, _, _, elapse_of_ne_gap (slot := .none) _ (by simp)⟩
  rcases rampCycle_nothing pace x with h | h <;> simp [h, addCycle]

/-- The cycles of an engine without passes are idle cycles of its ramp, counted in NONE. -/
theorem engineCycles_idle (idle : x.passes = []) (c : Cycles) :
    (engineCycles pace n c x).1.none = c.none + n ∧
    ∃ b f k, (engineCycles pace n c x).2 = besideRamp (idleCycles pace n x) b f k := by
  induction n generalizing x c with
  | zero => exact ⟨rfl, x.bus, x.frontIn, x.since, rfl⟩
  | succ n ih =>
    have next : engineCycles pace (n + 1) c x =
        engineCycles pace n (engineCycle pace c x).1 (engineCycle pace c x).2 := by
      simp [engineCycles, firstReady, slotOf_idle idle]
    obtain ⟨none, b, f, k, engine⟩ := engineCycle_idle (pace := pace) idle c
    have idle' : (engineCycle pace c x).2.passes = [] := by rw [engine]; exact idle
    obtain ⟨nones, b', f', k', engine'⟩ := ih idle' (engineCycle pace c x).1
    refine ⟨by rw [next, nones, none]; omega, b', f', k', ?_⟩
    rw [next, engine', engine, idleCycles_besideRamp]
    rfl

end

section

variable {s : State} {t e : Nat} (idle : (s.engine (4 * t + e)).passes = [])
include idle

theorem passCycles_idle_engine (n : Nat) : ∃ b f k, (passCycles s t e n).engine (4 * t + e) =
    besideRamp (idleCycles (enginePace s t e) n (s.engine (4 * t + e))) b f k := by
  rw [passCycles_eq_counted, counted_engine]
  exact (engineCycles_idle idle _).2

theorem passCycles_idle_none (n : Nat) : (passCycles s t e n).reg64 (meA t e 0x40) =
    (s.reg64 (meA t e 0x40) + n) % 2 ^ 64 := by
  obtain ⟨none, -⟩ := engineCycles_idle (pace := enginePace s t e) (n := n) idle {}
  rw [passCycles_eq_counted, counted_reg64 (n := n)]
  simp [cycleCounters, none]

end

/-! ### The commands of a pass (R112, R115 to R119, R123, R143) -/

section

variable {s u : State} {t : Fin 64} {e : Fin 4} {p : Pass}

/-- The stationary operand that pass `p` loads, of the values `vs` (R115, R121). -/
def loadedOperand (p : Pass) (vs : List Num) : Stationary :=
  { tag := mpTag p.line, fmt := mpSFmt p.line, rows := mpRows p.line, cols := mpCols p.line,
    sref := if tasted p.line then some (srefSlot p.line) else none,
    elems := intoRows (mpCols p.line) (mpRows p.line) vs }

theorem exec_stationaryLoadStart {o : Operand} {vs : List Num}
    (next : (s.engine (4 * t.val + e.val)).passes.find? (fun p => !p.loaded && !p.begun) = some p)
    (operand : passOperand p (mpSSlot p.line) (mpSFmt p.line) (mpSNoEsc p.line) = some o)
    (shadow : (s.engine (4 * t.val + e.val)).shadow = none) (bus : (s.engine (4 * t.val + e.val)).bus = 0)
    (front : (s.engine (4 * t.val + e.val)).frontIn = 0) (acts : active s = true)
    (ready : operandReady s t.val o = true)
    (values : loadValues s t.val o 0 (mpRows p.line * mpCols p.line) = (.ok vs, u)) :
    exec (.stationaryLoadStart t e) s =
      .next (modPass (u.setEngine (4 * t.val + e.val) { u.engine (4 * t.val + e.val) with
        shadow := some (loadedOperand p vs), bus := (mpRows p.line + 1) / 2 }) (4 * t.val + e.val) p
        (fun y => { y with loaded := true })) := by
  have run : exec (.stationaryLoadStart t e) s = execStationaryLoadStart t e s := rfl
  simp [run, execStationaryLoadStart, next, operand, shadow, bus, front, acts, ready, values, loadedOperand]

theorem exec_movingDataArrival {o : Operand} {vs : List Num} {rows n : Nat}
    (next : (s.engine (4 * t.val + e.val)).passes.find?
      (fun p => !drainOnly p.line && p.rows.length < mpInputs p.line) = some p)
    (operand : passOperand p (mpMSlot p.line) (mpMFmt p.line) (mpMNoEsc p.line) = some o) (acts : active s = true)
    (ready : operandReady s t.val o = true) (arriving : n = min rows (mpInputs p.line - p.rows.length))
    (values : loadValues s t.val o (p.rows.length * mpSegment p.line) (n * mpSegment p.line) = (.ok vs, u)) :
    exec (.movingDataArrival t e rows) s =
      .next (modPass u (4 * t.val + e.val) p
        (fun y => { y with rows := y.rows ++ intoRows (mpSegment p.line) n vs })) := by
  have run : exec (.movingDataArrival t e rows) s = execMovingDataArrival t e rows s := rfl
  subst arriving
  simp [run, execMovingDataArrival, next, operand, acts, ready, values]

theorem exec_passFirstBroadcast {cycles : Nat} (acts : active s = true)
    (slot : slotOf ((passCycles s t.val e.val cycles).engine (4 * t.val + e.val)) = .first p) :
    exec (.passFirstBroadcast t e cycles) s =
      let v := passCycles s t.val e.val cycles
      .next (counted v t.val e.val
        (engineCycle (enginePace v t.val e.val) {} (v.engine (4 * t.val + e.val)))) := by
  have run : exec (.passFirstBroadcast t e cycles) s = execPassFirstBroadcast t e cycles s := rfl
  simp [run, execPassFirstBroadcast, acts, slot, counted]

/-- A cycle that no first broadcast ends is one cycle of the engine. -/
theorem passCycles_one {t e : Nat} (later : firstReady (s.engine (4 * t + e)) = false) : passCycles s t e 1 =
    counted s t e (engineCycle (enginePace s t e) {} (s.engine (4 * t + e))) := by
  simp [passCycles_eq_counted, engineCycles, later]

/-- The state once `n` vectors of pass `p` have reached the accumulator. -/
def takeSums (s : State) (t e : Nat) (p : Pass) (n : Nat) : State :=
  let last := p.done + n = mpVectors p.line
  let u := modPass (((List.range n).map (fun k => p.done + k)).foldl (takeVector t e p) s) (4 * t + e) p
    (fun y => { y with done := p.done + n, holds := y.holds && !last })
  if last then strayDone u (4 * t + e) p else u

section

variable {vectors cycles : Nat} (acts : active s = true)
include acts

theorem exec_passSumArrival_none
    (none : arrivingPass ((passCycles s t.val e.val cycles).engine (4 * t.val + e.val)) = none) :
    exec (.passSumArrival t e vectors cycles) s = .next (passCycles s t.val e.val cycles) := by
  have run : exec (.passSumArrival t e vectors cycles) s = execPassSumArrival t e vectors cycles s := rfl
  simp [run, execPassSumArrival, acts, none]

theorem exec_passSumArrival
    (arriving : arrivingPass ((passCycles s t.val e.val cycles).engine (4 * t.val + e.val)) = some p) :
    exec (.passSumArrival t e vectors cycles) s =
      .next (takeSums (passCycles s t.val e.val cycles) t.val e.val p (min vectors (p.sent - p.done))) := by
  have run : exec (.passSumArrival t e vectors cycles) s = execPassSumArrival t e vectors cycles s := rfl
  simp [run, execPassSumArrival, acts, arriving, takeSums]

end

theorem strayDone_only_self (s : State) (i : Nat) (p : Pass) : Only 33554432 s (strayDone s i p) :=
  strayDone_only (Only.refl _ s) (rfl : 33554432 &&& 33554432 = 33554432)

theorem takeVectors_engines (t e : Nat) (p : Pass) (vs : List Nat) (s : State) :
    (vs.foldl (takeVector t e p) s).engines = s.engines :=
  ((Only.refl 20971592 s).foldl fun _ _ h => takeVector_only h (rfl : _ &&& _ = _)).frame .engines (by decide)

/-- Beside the counts of pass `p`, sums that arrive change nothing in the engine. -/
theorem takeSums_engine (s : State) (t e : Nat) (p : Pass) (n : Nat) :
    (takeSums s t e p n).engine (4 * t + e) = withPass (s.engine (4 * t + e)) p
      (fun y => { y with done := p.done + n, holds := y.holds && !decide (p.done + n = mpVectors p.line) }) := by
  have arrived :=
    State.engine_congr (takeVectors_engines t e p ((List.range n).map (fun k => p.done + k)) s) (4 * t + e)
  unfold takeSums
  dsimp only
  split
  · rw [State.engine_congr ((strayDone_only_self ..).frame .engines (by decide)), modPass_engine, arrived]
  · rw [modPass_engine, arrived]

theorem takeSums_none_regs (s : State) (t e : Nat) (p : Pass) : (takeSums s t e p 0).regs = s.regs := by
  unfold takeSums
  dsimp only
  split
  · exact (strayDone_only_self ..).frame .regs (by decide)
  · rfl

/-- A command without vectors leaves, of what its cycles did, the registers, the ramp's history and idle run, and the
vectors that each pass has sent. -/
theorem exec_passSumArrival_noVectors (acts : active s = true) (cycles : Nat) :
    ∃ u, exec (.passSumArrival t e 0 cycles) s = .next u ∧
      let v := passCycles s t.val e.val cycles
      let x := v.engine (4 * t.val + e.val)
      let y := u.engine (4 * t.val + e.val)
      u.regs = v.regs ∧ y.history = x.history ∧ y.idleRun = x.idleRun ∧
        y.passes.map (fun z => (passKey z, z.sent)) = x.passes.map (fun z => (passKey z, z.sent)) := by
  cases arriving : arrivingPass ((passCycles s t.val e.val cycles).engine (4 * t.val + e.val)) with
  | none => exact ⟨_, exec_passSumArrival_none acts arriving, rfl, rfl, rfl, rfl⟩
  | some p =>
    refine ⟨_, exec_passSumArrival acts arriving, ?_⟩
    dsimp only
    rw [Nat.zero_min, takeSums_engine]
    exact ⟨takeSums_none_regs .., rfl, rfl, withPass_view fun _ => rfl⟩

/-- The state once pass `p` has left its engine and its bank, and passes behind it are admitted. -/
def passLeft (s : State) (t e : Nat) (p : Pass) : State :=
  let i := 4 * t + e
  let v := s.setEngine i { s.engine i with
    passes := (s.engine i).passes.filter (fun y => !(y.queue = p.queue && y.idx = p.idx)) }
  let k := v.bank (passBank i p)
  let w := v.setBank (passBank i p) { k with admitted := k.admitted.filter (fun a => a ≠ (p.queue, p.idx)) }
  admitReady (w.count64 (meA t e 0x50) 1) i

theorem exec_passComplete (ends : (s.engine (4 * t.val + e.val)).passes.find? passOver = some p)
    (acts : active s = true) :
    exec (.passComplete t e) s = .next (finishCommand (passLeft s t.val e.val p) p.queue p.idx) := by
  have run : exec (.passComplete t e) s = execPassComplete t e s := rfl
  simp [run, execPassComplete, ends, acts, passLeft]

theorem passLeft_passKeys (s : State) (t e : Nat) (p : Pass) :
    passKey p ∉ passKeys (passLeft s t e p) (4 * t + e) := by
  unfold passLeft
  dsimp only
  rw [admitReady_passKeys, passKeys, State.engine_congr (State.count64_engines ..),
    State.setBank_engine, State.engine_setEngine_self]
  intro mem
  obtain ⟨y, left, key⟩ := List.mem_map.1 mem
  simp [passKey_eq_iff.1 key] at left

theorem passLeft_queues (s : State) (t e : Nat) (p : Pass) : (passLeft s t e p).queues = s.queues := by
  unfold passLeft
  dsimp only
  rw [admitReady_queues, State.count64_queues, State.setBank_queues, State.setEngine_queues]

end

/-! ### The windows and steps of a unit (R126, R617) -/

section

variable {s : State} {t : Fin 64}

theorem exec_engineWindowExpired (runs : panelRuns s = true) (e : Fin 5) :
    exec (.engineWindowExpired t e) s = .next (unitCycles s t.val e.val untilWindow) := by
  have run : exec (.engineWindowExpired t e) s = execEngineWindowExpired t e s := rfl
  rw [run, execEngineWindowExpired, if_pos runs]

theorem exec_engineRampStep (runs : panelRuns s = true) (e : Fin 5) :
    exec (.engineRampStep t e) s = .next (unitCycles s t.val e.val untilStep) := by
  have run : exec (.engineRampStep t e) s = execEngineRampStep t e s := rfl
  rw [run, execEngineRampStep, if_pos runs]

theorem unitCycles_engine (s : State) (t : Nat) (e : Fin 4) (f : Pace → Engine → Nat) : unitCycles s t e.val f =
    passCycles s t e.val (f (enginePace s t e.val) (s.engine (4 * t + e.val))) := if_pos e.isLt

section

variable {t : Nat} {e : Fin 4} (idle : (s.engine (4 * t + e.val)).passes = []) (f : Pace → Engine → Nat)
include idle

theorem unitCycles_idle_engine : ∃ b g k, (unitCycles s t e.val f).engine (4 * t + e.val) =
    besideRamp (idleCycles (enginePace s t e.val) (f (enginePace s t e.val) (s.engine (4 * t + e.val)))
      (s.engine (4 * t + e.val))) b g k := by
  rw [unitCycles_engine]
  exact passCycles_idle_engine idle _

theorem unitCycles_idle_none : (unitCycles s t e.val f).reg64 (meA t e.val 0x40) =
    (s.reg64 (meA t e.val 0x40) + f (enginePace s t e.val) (s.engine (4 * t + e.val))) % 2 ^ 64 := by
  rw [unitCycles_engine, passCycles_idle_none idle]

end

theorem unitCycles_vector (s : State) (t : Nat) (f : Pace → Engine → Nat) :
    ((unitCycles s t (4 : Fin 5).val f).tile t).vecRamp = idleCycles (vectorPace s t)
      (f (vectorPace s t) (s.tile t).vecRamp) (s.tile t).vecRamp := by
  rw [unitCycles, if_neg (by decide), State.modTile, State.tile_setTile_self]

end

/-! ### The fold of the engines' registers (R12, R136) -/

section

variable (s : State) (a : Nat)

theorem State.foldReg_reg_self : (s.foldReg a).reg a = (s.stagedAt a).getD (s.reg a) := by
  unfold State.foldReg
  split
  · rename_i w staged
    rw [staged]; exact (State.reg_congr (s := s.setReg a w) rfl a).trans (State.reg_setReg_self ..)
  · rename_i staged
    rw [staged]; rfl

theorem State.foldReg_stagedAt_self : (s.foldReg a).stagedAt a = none := by
  unfold State.foldReg
  split
  · simp [State.stagedAt]
  · assumption

theorem State.foldReg_other {b : Nat} (h : a ≠ b) :
    (s.foldReg a).reg b = s.reg b ∧ (s.foldReg a).stagedAt b = s.stagedAt b := by
  unfold State.foldReg
  split
  · rename_i w _
    refine ⟨(State.reg_congr (s := s.setReg a w) rfl b).trans (State.reg_setReg_other _ _ h), ?_⟩
    simp [State.stagedAt, mget_mset, h]
  · exact ⟨rfl, rfl⟩

end

/-- The fold of a tile's engines folds each engine's register. -/
theorem foldMe_engine (s : State) (t : Nat) {e : Nat} (he : e < 4) :
    (foldMe s t).reg (meA t e 0) = (s.stagedAt (meA t e 0)).getD (s.reg (meA t e 0)) ∧
    (foldMe s t).stagedAt (meA t e 0) = none := by
  have other (k : Nat) (u : State) (h : k ≠ e) : ((u.foldReg (meA t k 0)).reg (meA t e 0),
      (u.foldReg (meA t k 0)).stagedAt (meA t e 0)) = (u.reg (meA t e 0), u.stagedAt (meA t e 0)) := by
    have apart : meA t k 0 ≠ meA t e 0 := by unfold meA tilA; omega
    obtain ⟨reg, staged⟩ := State.foldReg_other u _ apart
    rw [reg, staged]
  obtain ⟨u, same, turn⟩ := (State.each_turn (fun u => (u.reg (meA t e 0), u.stagedAt (meA t e 0))) other
    List.nodup_range s).2 (List.mem_range.2 he)
  obtain ⟨reg, staged⟩ := Prod.mk.inj same
  obtain ⟨reg', staged'⟩ := Prod.mk.inj turn
  exact ⟨reg'.trans (by rw [State.foldReg_reg_self, reg, staged]), staged'.trans (State.foldReg_stagedAt_self ..)⟩

theorem exec_meFold {s : State} {p : Path} {t : Fin 64} (gate : ownerGate s p (tilA t.val 0x2400) = true) :
    exec (.meFold p t) s = .next (answer (foldMe s t.val) .ok) := by
  have run : exec (.meFold p t) s = execMeFold p t s := rfl
  rw [run, execMeFold, ownerWrite_gate gate]

/-! ### The statement -/

/-- Settles O12: the engine after each command of a pass, and a unit's ramp by the idle cycles up to its window or
step. -/
theorem matrixEngine : Obligations.MatrixEngine := by
  unfold Obligations.MatrixEngine
  refine ⟨?load, ?moving, ?first, ?sums, ?vector, ?complete, ?engine, ?vectorUnit, ?fold⟩
  case load =>
    intro s u t e p o vs i l next operand shadow bus front acts ready values
    refine ⟨_, exec_stationaryLoadStart next operand shadow bus front acts ready values, ?_⟩
    rw [modPass_engine, State.engine_setEngine_self]
    refine ⟨rfl, rfl, fun y mem queue idx => ?_⟩
    obtain ⟨z, -, -, rfl⟩ := mem_withPass mem (passKey_eq_iff.2 ⟨queue, idx⟩)
    rfl
  case moving =>
    intro s u t e rows p o vs i l n next operand acts ready values
    exact exec_movingDataArrival next operand acts ready rfl values
  case first =>
    intro s t e cycles p i v x acts slot
    refine ⟨fun may => ⟨_, exec_passFirstBroadcast acts slot, ?_⟩,
      fun held => ⟨_, exec_passFirstBroadcast acts slot, ?_⟩⟩
    · rw [counted_engine, engineCycle_first_valid slot may, elapse_of_ne_gap (slot := .first p) _ (by simp)]
      refine ⟨rfl, rfl, rfl, counted_reg64 _ _ _ _ (by simp [cycleCounters, addCycle]), fun y mem queue idx => ?_⟩
      exact carryLanes_begun mem (passKey_eq_iff.2 ⟨queue, idx⟩)
    · rw [counted_engine, engineCycle_first_held slot held, elapse_of_ne_gap (slot := .first p) _ (by simp)]
      exact ⟨rfl, rfl, counted_reg64 _ _ _ _ (by simp [cycleCounters, addCycle])⟩
  case sums =>
    intro s t e vectors cycles p i acts arriving
    refine ⟨_, exec_passSumArrival acts arriving, fun y mem queue idx => ?_⟩
    rw [takeSums_engine] at mem
    obtain ⟨z, -, -, rfl⟩ := mem_withPass mem (passKey_eq_iff.2 ⟨queue, idx⟩)
    rfl
  case vector =>
    intro s t e p i x lanes acts slot may narrow
    obtain ⟨u, run, regs, history, idle, sent⟩ := exec_passSumArrival_noVectors (t := t) (e := e) acts 1
    have later : firstReady x = false := by simp [firstReady, slot]
    rw [passCycles_one later] at regs history idle sent
    rw [counted_engine, engineCycle_vector_valid slot may, elapse_of_ne_gap (slot := .vector p) _ (by simp)]
      at history idle sent
    refine ⟨u, run, fun y mem queue idx => ?_, history.trans (rampCycle_vector_history may), idle, ?_⟩
    · have member := List.mem_map_of_mem (f := fun z => (passKey z, z.sent)) mem
      rw [sent] at member
      obtain ⟨z, hz, same⟩ := List.mem_map.1 member
      obtain ⟨key, count⟩ := Prod.mk.inj same
      rw [← count]
      exact carryLanes_sent narrow (part_of_slotOf_vector slot) hz (key.trans (passKey_eq_iff.2 ⟨queue, idx⟩))
    · rw [State.reg64_congr regs, engineCycle_vector_valid slot may]
      exact counted_reg64 _ _ _ _ (by simp [cycleCounters, addCycle])
  case complete =>
    intro s t e p i ends acts
    refine ⟨_, exec_passComplete ends acts, fun y mem key => ?_, passLeft_queues ..⟩
    exact passLeft_passKeys s t e p (List.mem_map.2 ⟨y, mem, passKey_eq_iff.2 key⟩)
  case engine =>
    intro s t e i x k runs idle
    obtain ⟨_, _, _, windowed⟩ := unitCycles_idle_engine idle untilWindow
    obtain ⟨_, _, _, stepped⟩ := unitCycles_idle_engine idle untilStep
    refine ⟨fun hold early => ⟨_, exec_engineWindowExpired runs _, ?_⟩,
      fun fall early => ⟨_, exec_engineRampStep runs _, ?_⟩,
      fun rise early low window => ⟨_, exec_engineRampStep runs _, ?_⟩⟩
    · rw [windowed]
      obtain ⟨ramp, limit, window⟩ := idleCycles_untilWindow hold early
      exact ⟨ramp, window, limit, by rw [unitCycles_idle_none idle, untilWindow_hold hold]⟩
    · rw [stepped]
      exact idleCycles_untilStep_fall fall early
    · rw [stepped]
      exact idleCycles_untilStep_rise rise early low window
  case vectorUnit =>
    intro s t x k runs
    refine ⟨fun hold early => ⟨_, exec_engineWindowExpired runs _, ?_⟩,
      fun fall early => ⟨_, exec_engineRampStep runs _, ?_⟩⟩
    · rw [unitCycles_vector]
      obtain ⟨ramp, -, window⟩ := idleCycles_untilWindow hold early
      exact ⟨ramp, window⟩
    · rw [unitCycles_vector]
      exact (idleCycles_untilStep_fall fall early).1
  case fold =>
    intro s p t gate
    exact ⟨_, exec_meFold gate, rfl, fun e he => foldMe_engine s t.val he⟩

end Sys2Proof.Machine

/-! Proofs of the obligations of spec/04_accumulation_and_guards.md: the banks and their drains, the taster and its
watches. -/

namespace Sys2Proof.Machine

open Sys2Proof

/-! ### Passes that a request or a sample names -/

theorem passOf_congr {s u : State} (h : u.engines = s.engines) (i queue : Nat) (idx : Word) :
    passOf u i queue idx = passOf s i queue idx := by
  unfold passOf; rw [State.engine_congr h]

theorem State.tile_congr {s u : State} (h : u.tiles = s.tiles) (t : Nat) : u.tile t = s.tile t := by
  unfold State.tile; rw [h]

theorem State.drain_congr {s u : State} (h : u.drains = s.drains) (i : Nat) : u.drain i = s.drain i := by
  unfold State.drain; rw [h]

theorem State.bank_congr {s u : State} (h : u.banks = s.banks) (b : Nat) : u.bank b = s.bank b := by
  unfold State.bank; rw [h]

/-! ### A bank that is filled or zeroed (R142, R146) -/

section

variable {s : State} {t : Fin 64} {b : Fin 8} {p : Pass}

@[simp] theorem requestDrain_bank (s : State) (i : Nat) (p : Pass) (b : Nat) :
    (requestDrain s i p).bank b = s.bank b := State.bank_congr (State.setDrain_banks ..) b

theorem requestDrain_requests (s : State) (i : Nat) (p : Pass) : ((requestDrain s i p).drain i).requests =
    (s.drain i).requests ++ [{ bank := passBank i p, queue := p.queue, idx := p.idx, empty := p.stray }] := by
  rw [requestDrain, State.drain_setDrain_self]

section

variable (fill : (s.bank (8 * t.val + b.val)).state = .fill) (acts : active s = true)
  (filled : fillOver s (8 * t.val + b.val) = true)
include fill acts filled

theorem exec_bankFillDone_plain (plain : (s.bank (8 * t.val + b.val)).latestDrain = false) :
    exec (.bankFillDone t b) s = .next (admitReady (s.setBank (8 * t.val + b.val)
      { s.bank (8 * t.val + b.val) with state := .idle }) (bankEngine (8 * t.val + b.val))) := by
  have run : exec (.bankFillDone t b) s = execBankFillDone t b s := rfl
  simp [run, execBankFillDone, fill, acts, filled, plain]

theorem exec_bankFillDone_drain {a : Nat × Word} (drains : (s.bank (8 * t.val + b.val)).latestDrain = true)
    (last : (s.bank (8 * t.val + b.val)).admitted.getLast? = some a)
    (pass : passOf s (bankEngine (8 * t.val + b.val)) a.1 a.2 = some p) :
    exec (.bankFillDone t b) s = .next (requestDrain (s.setBank (8 * t.val + b.val)
      { s.bank (8 * t.val + b.val) with state := .drainWait }) (bankEngine (8 * t.val + b.val)) p) := by
  have run : exec (.bankFillDone t b) s = execBankFillDone t b s := rfl
  simp [run, execBankFillDone, fill, acts, filled, drains, last, pass]

end

theorem exec_bankZeroExpired (zero : (s.bank (8 * t.val + b.val)).state = .zero) (acts : active s = true) :
    exec (.bankZeroExpired t b) s = .next (admitReady (s.setBank (8 * t.val + b.val)
      { s.bank (8 * t.val + b.val) with
        words := [], state := if drainAsked s (8 * t.val + b.val) then .drainWait else .idle })
      (bankEngine (8 * t.val + b.val))) := by
  have run : exec (.bankZeroExpired t b) s = execBankZeroExpired t b s := rfl
  simp [run, execBankZeroExpired, zero, acts]

end

/-! ### A drain starts (R146, R148 to R150) -/

theorem servedEmpty_eq (k : Bank) (b : Nat) (rest : List DrainReq) : servedEmpty k b rest =
    if k.state = .drainWait ∧ rest.all (fun y => y.bank ≠ b) = true then .idle else k.state := by
  simp [servedEmpty]

section

variable {s : State} {t : Fin 64} {e : Fin 4} {r : DrainReq} {rs : List DrainReq}
  (free : (s.drain (4 * t.val + e.val)).current = none) (requests : (s.drain (4 * t.val + e.val)).requests = r :: rs)
  (acts : active s = true)
include free requests acts

theorem exec_drainStart_reads (waits : (s.bank r.bank).state = .drainWait) (full : r.empty = false)
    (extent : (s.bank r.bank).extent.isSome = true) : exec (.drainStart t e) s =
      .next ((s.setDrain (4 * t.val + e.val)
        { s.drain (4 * t.val + e.val) with requests := rs, current := some r }).setBank r.bank
        { s.bank r.bank with state := .drain }) := by
  have run : exec (.drainStart t e) s = execDrainStart t e s := rfl
  have someExtent : (s.bank r.bank).extent ≠ none := Option.isSome_iff_ne_none.1 extent
  simp [run, execDrainStart, free, requests, acts, waits, full, someExtent]

/-- A drain of an EMPTY extent completes at once, whether an abort had taken its bank or the bank has none (R150). -/
theorem exec_drainStart_empty
    (empty : r.empty = true ∧ (s.bank r.bank).state ≠ .zero ∨
      (s.bank r.bank).state = .drainWait ∧ (s.bank r.bank).extent = none) : exec (.drainStart t e) s =
      .next (admitReady (drainedPass
        ((s.setDrain (4 * t.val + e.val) { s.drain (4 * t.val + e.val) with requests := rs }).setBank r.bank
          { s.bank r.bank with state := servedEmpty (s.bank r.bank) r.bank rs }) (4 * t.val + e.val) r)
        (4 * t.val + e.val)) := by
  have run : exec (.drainStart t e) s = execDrainStart t e s := rfl
  rcases empty with ⟨lost, clear⟩ | ⟨waits, extent⟩
  · simp [run, execDrainStart, free, requests, acts, lost, clear]
  · simp [run, execDrainStart, free, requests, acts, waits, extent]

end

/-! ### The last read of a drain, and its results (R148, R151 to R157) -/

/-- The bank once the rows of its extent `x` have been read and set to +0. -/
def emptiedBank (k : Bank) (x : Extent) : Bank :=
  { k with
    words := (extentRows k x).foldl (fun ws r => (List.range (drainWidth k.trans x)).foldl (fun ws c =>
      mset 0 ws (bankWord k.trans r.1 c) 0) ws) k.words
    extent := none, state := .idle }

/-- The writes of drain `r` of pass `p`, from the state in which its bank has been emptied. -/
def drainResults (s : State) (t : Nat) (r : DrainReq) (p : Pass) (x : Extent) : Option CmdError × Nat × State :=
  drainWrites (s.setBank r.bank (emptiedBank (s.bank r.bank) x)) t p (extentRows (s.bank r.bank) x)

/-- The state once drain `r` of pass `p` has read its last row: its results are written, and unit `i` is free. -/
def drainRead (s : State) (t i : Nat) (r : DrainReq) (p : Pass) (x : Extent) : State :=
  let v := drainResults s t r p x
  v.2.2.setDrain i { v.2.2.drain i with current := none, ending := (v.2.2.drain i).ending ++ [(r, v.2.1)] }

section

variable (s : State) (t i : Nat) (r : DrainReq) (p : Pass) (x : Extent)

theorem drainResults_drains : (drainResults s t r p x).2.2.drains = s.drains := by
  have only := drainWrites_only (t := t) (p := p) (rows := extentRows (s.bank r.bank) x)
    (Only.refl 137711453256 (s.setBank r.bank (emptiedBank (s.bank r.bank) x))) (rfl : _ &&& _ = _)
  exact only.snd.frame .drains (by decide)

theorem drainRead_drain : (drainRead s t i r p x).drain i =
    { s.drain i with
      current := none, ending := (s.drain i).ending ++ [(r, (drainResults s t r p x).2.1)] } := by
  rw [drainRead, State.drain_setDrain_self, State.drain_congr (drainResults_drains ..)]

end

/-- The last read ends in an abort when a write was refused (R280), and else in the admission of passes that the free
bank lets in. -/
theorem exec_drainLastRead {s : State} {t : Fin 64} {e : Fin 4} {r : DrainReq} {p : Pass} {x : Extent}
    (current : (s.drain (4 * t.val + e.val)).current = some r)
    (pass : passOf s (4 * t.val + e.val) r.queue r.idx = some p) (extent : (s.bank r.bank).extent = some x)
    (acts : active s = true) (ready : drainReady s t.val p = true) : exec (.drainLastRead t e) s =
      .next ((drainResults s t.val r p x).1.elim
        (admitReady (drainRead s t.val (4 * t.val + e.val) r p x) (4 * t.val + e.val))
        (abortCommand (drainRead s t.val (4 * t.val + e.val) r p x) r.queue r.idx)) := by
  have run : exec (.drainLastRead t e) s = execDrainLastRead t e s := rfl
  simp only [run, execDrainLastRead, current, pass, extent, acts, ready, Bool.not_true, Bool.or_self,
    Bool.false_eq_true, if_false]
  split
  · rename_i c refused
    rw [show (drainResults s t.val r p x).1 = some c from refused]; rfl
  · rename_i stored
    rw [show (drainResults s t.val r p x).1 = none from stored]; rfl

/-! ### A drain completes (R148, R158, R159) -/

theorem setHealth_only_self (s : State) (t n flags : Nat) : Only 64 s (setHealth s t n flags) :=
  setHealth_only (Only.refl _ s) (rfl : 64 &&& 64 = 64)

theorem drainedPass_of_passOf {s : State} {i : Nat} {r : DrainReq} {p : Pass}
    (pass : passOf s i r.queue r.idx = some p) :
    drainedPass s i r = modPass s i p (fun y => { y with drained := true }) := by
  simp [drainedPass, pass]

/-- The state once the oldest drain of unit `i`, of pass `p` and with the flags `flags`, has completed. -/
def drainDone (s : State) (t i : Nat) (p : Pass) (flags : Nat) (rest : List (DrainReq × Nat)) : State :=
  modPass ((setHealth s t (mpWatch p.line) flags).setDrain i { s.drain i with ending := rest }) i p
    (fun y => { y with drained := true })

theorem exec_drainComplete {s : State} {t : Fin 64} {e : Fin 4} {r : DrainReq} {flags : Nat}
    {rest : List (DrainReq × Nat)} {p : Pass} (ending : (s.drain (4 * t.val + e.val)).ending = (r, flags) :: rest)
    (acts : active s = true) (pass : passOf s (4 * t.val + e.val) r.queue r.idx = some p) :
    exec (.drainComplete t e) s = .next (drainDone s t.val (4 * t.val + e.val) p flags rest) := by
  have run : exec (.drainComplete t e) s = execDrainComplete t e s := rfl
  have same := passOf_congr (s := s) (u := (setHealth s t.val (mpWatch p.line) flags).setDrain (4 * t.val + e.val)
    { s.drain (4 * t.val + e.val) with ending := rest })
    ((setHealth_only_self ..).frame .engines (by decide)) (4 * t.val + e.val) r.queue r.idx
  simp [run, execDrainComplete, ending, acts, pass, drainedPass_of_passOf (same.trans pass), drainDone]

section

variable (s : State) (t i : Nat) (p : Pass) (flags : Nat) (rest : List (DrainReq × Nat))

theorem drainDone_drain : (drainDone s t i p flags rest).drain i = { s.drain i with ending := rest } :=
  (State.drain_congr (State.setEngine_drains ..) i).trans (State.drain_setDrain_self ..)

theorem drainDone_drained {y : Pass} (mem : y ∈ ((drainDone s t i p flags rest).engine i).passes)
    (named : passKey y = passKey p) : y.drained = true := by
  rw [drainDone, modPass_engine] at mem
  obtain ⟨z, -, -, rfl⟩ := mem_withPass mem named
  rfl

end

/-- Settles O13: each command by what it does to its bank and drain unit. -/
theorem banksAndDrains : Obligations.BanksAndDrains := by
  unfold Obligations.BanksAndDrains
  refine ⟨?fill, ?start, ?lastRead, ?complete, ?zero⟩
  case fill =>
    intro s t b n fill acts filled
    refine ⟨exec_bankFillDone_plain fill acts filled, fun a p drains last pass =>
      ⟨_, exec_bankFillDone_drain fill acts filled drains last pass, ?_, ?_⟩⟩
    · rw [requestDrain_bank, State.bank_setBank_self]
    · rw [requestDrain_requests, State.drain_congr (State.setBank_drains ..)]
  case start =>
    intro s t e r rs i free requests acts
    refine ⟨exec_drainStart_reads free requests acts, fun empty => ?_⟩
    rw [← servedEmpty_eq]
    exact exec_drainStart_empty free requests acts empty
  case lastRead =>
    intro s t e r p x i k rows words emptied current pass extent acts ready
    have results : drainWrites emptied t.val p rows = drainResults s t.val r p x := rfl
    have read := exec_drainLastRead current pass extent acts ready
    rw [results]
    refine ⟨drainRead s t.val i r p x, ?_, ?_, State.setDrain_mem .., fun stored => ?_, fun c refused => ?_⟩
    · rw [drainRead_drain]
    · rw [drainRead_drain]
    · rw [read, stored]; rfl
    · rw [read, refused]; rfl
  case complete =>
    intro s t e r flags rest p i ending acts pass
    refine ⟨_, exec_drainComplete ending acts pass, ?_, ?_, ?_, fun y mem queue idx =>
      drainDone_drained _ _ _ _ _ _ mem (passKey_eq_iff.2 ⟨queue, idx⟩)⟩
    all_goals rw [drainDone_drain]
  case zero =>
    intro s t b n zero acts
    exact exec_bankZeroExpired zero acts

/-! ### Counters of 32 bits (R531) and the statistics of a watch (R169 to R171, R174, R175) -/

theorem State.reg_count32_self (s : State) (a n : Nat) : (s.count32 a n).reg a = satAdd (s.reg a) n :=
  State.reg_setReg_self ..

theorem State.reg_count32_other (s : State) {a b : Nat} (n : Nat) (apart : a ≠ b) :
    (s.count32 a n).reg b = s.reg b := State.reg_setReg_other _ _ apart

theorem State.reg_setField_other (s : State) {a b : Nat} (lo n v : Nat) (apart : a ≠ b) :
    (s.setField a lo n v).reg b = s.reg b := State.reg_setReg_other _ _ apart

theorem watchA_ne (t w : Nat) {o o' : Nat} (h : o ≠ o') : watchA t w o ≠ watchA t w o' := by
  unfold watchA tilA; omega

/-- Beside OVER and the watch's status word, a sample counted over changes no register. -/
theorem countOver_reg (s : State) (t w : Nat) {a : Nat} (total : watchA t w 0x0C ≠ a) (status : watchA t w 4 ≠ a) :
    (countOver s t w).reg a = s.reg a := by
  unfold countOver
  dsimp only
  split
  · rw [post_reg, State.reg_setField_other _ _ _ _ status, State.reg_count32_other _ _ total]
  · rw [State.reg_count32_other _ _ total]

/-- A recorded sample is counted once in SAMPLES of its watch (R169). -/
theorem recordSample_samples (s : State) (t : Nat) (r : TasterResult) :
    (recordSample s t r).reg (watchA t r.watch 0x08) = satAdd (s.reg (watchA t r.watch 0x08)) 1 := by
  have apart {o : Nat} (h : o ≠ 0x08) : watchA t r.watch o ≠ watchA t r.watch 0x08 := watchA_ne t r.watch h
  unfold recordSample
  extract_lets w decoded counted
  have once : counted.reg (watchA t w 0x08) = satAdd (s.reg (watchA t w 0x08)) 1 := by
    rw [State.reg_count32_self]
    congr 1
    unfold decoded
    split
    · exact State.reg_count32_other _ _ (apart (by decide))
    · rfl
  rw [← once]
  have uncounted (u : State) : (countOver u t w).reg (watchA t w 0x08) = u.reg (watchA t w 0x08) :=
    countOver_reg u t w (apart (by decide)) (apart (by decide))
  split
  · rw [uncounted, State.reg_count32_other _ _ (apart (by decide))]
  · rename_i bin q _
    extract_lets binned raised
    have inBin : binned.reg (watchA t w 0x08) = counted.reg (watchA t w 0x08) :=
      State.reg_count32_other _ _ (apart (by omega))
    have same : raised.reg (watchA t w 0x08) = counted.reg (watchA t w 0x08) := by
      rw [← inBin]
      unfold raised
      split
      · dsimp only
        split
        · exact State.reg_setReg_other _ _ (apart (by decide))
        · rfl
      · rfl
    split
    · rw [uncounted, same]
    · exact same

/-- A register of a watch after its statistics are cleared: the turn of its own offset decides (R175). -/
theorem clearWatch_turn (s : State) (t w o : Nat) :
    let os := (List.range 23).map (fun k => 4 + 4 * k)
    (o ∉ os → (clearWatch s t w).reg (watchA t w o) = s.reg (watchA t w o)) ∧
    (o ∈ os → (clearWatch s t w).reg (watchA t w o) = 0) := by
  have turn := State.each_turn (fun u => u.reg (watchA t w o)) (f := fun o u => u.setReg (watchA t w o) 0) (n := o)
    (fun _ u h => State.reg_setReg_other u _ (watchA_ne t w h))
    (ks := (List.range 23).map (fun k => 4 + 4 * k)) (by decide) s
  refine ⟨turn.1, fun mem => ?_⟩
  obtain ⟨u, -, cleared⟩ := turn.2 mem
  exact cleared.trans (State.reg_setReg_self ..)

theorem clearWatch_statistics (s : State) (t w : Nat) {k : Nat} (low : 1 ≤ k) (high : k ≤ 23) :
    (clearWatch s t w).reg (watchA t w (4 * k)) = 0 :=
  (clearWatch_turn s t w (4 * k)).2 (List.mem_map.2 ⟨k - 1, List.mem_range.2 (by omega), by omega⟩)

theorem clearWatch_settings (s : State) (t w : Nat) :
    (clearWatch s t w).reg (watchA t w 0) = s.reg (watchA t w 0) :=
  (clearWatch_turn s t w 0).1 (by decide)

/-! ### The commands of the taster (R166 to R168, R172, R175) -/

/-- The state in which the oldest sample, of pass `p`, is recomputed: `ks` are left, and the vector unit's cycles are
counted (R166). -/
def recomputeStart (s : State) (t : Nat) (ks : List Sample) (p : Pass) : State :=
  let cycles := (mpLen p.line * mpWidth p.line + 2047) / 2048
  vecWork (((s.modTile t (fun x => { x with samples := ks })).count64 (tilA t 0x5028) cycles).count64
    (tilA t 0x5030) cycles) t cycles

/-- The sample `k` with its reference results, as it waits for its record. -/
def tasterResult (k : Sample) (refs : List Num) : TasterResult :=
  { engine := k.engine, bank := k.bank, queue := k.queue, idx := k.idx, watch := k.watch, sums := k.sums, refs,
    decoded := k.stat.isSome }

section

variable {s u : State} {t : Fin 64} {k : Sample} {ks : List Sample} {p : Pass}
  (samples : (s.tile t.val).samples = k :: ks) (acts : active s = true)
  (pass : passOf s (4 * t.val + k.engine) k.queue k.idx = some p)
include samples acts pass

theorem exec_tasterRecompute_skipped (skipped : recompute (recomputeStart s t.val ks p) t.val p k = (none, u)) :
    exec (.tasterRecompute t) s = .next (admitReady
      (releaseSample (u.count32 (watchA t.val k.watch 0x14) 1) t.val k.engine k.bank k.queue k.idx)
      (4 * t.val + k.engine)) := by
  have run : exec (.tasterRecompute t) s = execTasterRecompute t s := rfl
  unfold recomputeStart at skipped
  simp [run, execTasterRecompute, samples, acts, passOf_congr (State.modTile_engines ..), pass, skipped]

theorem exec_tasterRecompute_kept {refs : List Num}
    (kept : recompute (recomputeStart s t.val ks p) t.val p k = (some refs, u)) :
    exec (.tasterRecompute t) s =
      .next (u.modTile t.val (fun x => { x with results := x.results ++ [tasterResult k refs] })) := by
  have run : exec (.tasterRecompute t) s = execTasterRecompute t s := rfl
  unfold recomputeStart at kept
  simp [run, execTasterRecompute, samples, acts, passOf_congr (State.modTile_engines ..), pass, kept, tasterResult]

end

/-- The state once result `r` is recorded, its place released, and `rs` wait behind it. -/
def sampleRecorded (s : State) (t : Nat) (r : TasterResult) (rs : List TasterResult) : State :=
  admitReady (releaseSample (recordSample (s.modTile t (fun x => { x with results := rs })) t r) t r.engine r.bank
    r.queue r.idx) (4 * t + r.engine)

theorem exec_tasterSampleRecord {s : State} {t : Fin 64} {r : TasterResult} {rs : List TasterResult}
    (results : (s.tile t.val).results = r :: rs) (acts : active s = true) :
    exec (.tasterSampleRecord t) s = .next (sampleRecorded s t.val r rs) := by
  have run : exec (.tasterSampleRecord t) s = execTasterSampleRecord t s := rfl
  simp [run, execTasterSampleRecord, results, acts, sampleRecorded]

section

variable (s : State) (t : Nat) (r : TasterResult) (rs : List TasterResult)

/-- Releasing a place and admitting passes changes engines, banks and drains alone. -/
theorem sampleRecorded_only : Only 58720256 (recordSample (s.modTile t (fun x => { x with results := rs })) t r)
    (sampleRecorded s t r rs) :=
  admitReady_only (releaseSample_only (Only.refl _ _) (rfl : _ &&& _ = _)) (rfl : _ &&& _ = _)

theorem sampleRecorded_results : ((sampleRecorded s t r rs).tile t).results = rs := by
  have recorded := recordSample_only (t := t) (r := r)
    (Only.refl 1096 (s.modTile t (fun x => { x with results := rs }))) (rfl : _ &&& _ = _)
  rw [State.tile_congr ((sampleRecorded_only ..).frame .tiles (by decide)),
    State.tile_congr (recorded.frame .tiles (by decide)), State.modTile, State.tile_setTile_self]

theorem sampleRecorded_samples : (sampleRecorded s t r rs).reg (watchA t r.watch 0x08) =
    satAdd (s.reg (watchA t r.watch 0x08)) 1 := by
  rw [State.reg_congr ((sampleRecorded_only ..).frame .regs (by decide)), recordSample_samples,
    State.reg_congr (State.modTile_regs ..)]

end

section

variable {s : State} {p : Path} {t : Fin 64}

theorem exec_watchClear {w : Fin 256} (gate : ownerGate s p (watchA t.val w.val 4) = true) :
    exec (.watchClear p t w) s = .next (answer (clearWatch s t.val w.val) .ok) := by
  have run : exec (.watchClear p t w) s = execWatchClear p t w s := rfl
  rw [run, execWatchClear, ownerWrite_gate gate]

theorem exec_tasteFold (gate : ownerGate s p (tilA t.val 0x2C04) = true) :
    exec (.tasteFold p t) s = .next (answer (s.foldReg (tilA t.val 0x2C00)) .ok) := by
  have run : exec (.tasteFold p t) s = execTasteFold p t s := rfl
  rw [run, execTasteFold, ownerWrite_gate gate]

end

/-- Settles O14: a sample by whether it can be recomputed, its record by what the watch counts, and the watch by the
turn of each of its registers. -/
theorem taster : Obligations.Taster := by
  unfold Obligations.Taster
  refine ⟨?recompute, ?record, ?clear, ?fold⟩
  case recompute =>
    intro s u t k ks p refs cycles s1 s2 samples acts pass
    rw [show s2 = recomputeStart s t.val ks p from rfl]
    refine ⟨exec_tasterRecompute_skipped samples acts pass,
      fun kept => ⟨_, exec_tasterRecompute_kept samples acts pass kept, ?_, ?_⟩⟩
    · rw [State.modTile, State.tile_setTile_self]
    · rw [State.modTile, State.tile_setTile_self]; rfl
  case record =>
    intro s t r rs results acts
    exact ⟨_, exec_tasterSampleRecord results acts, sampleRecorded_results .., sampleRecorded_samples ..⟩
  case clear =>
    intro s p t w gate
    have same := State.reg_congr (answer_regs (clearWatch s t.val w.val) .ok [])
    exact ⟨_, exec_watchClear gate, rfl,
      fun k low high => (same _).trans (clearWatch_statistics s t.val w.val low high),
      (same _).trans (clearWatch_settings ..)⟩
  case fold =>
    intro s p t gate
    exact exec_tasteFold gate

end Sys2Proof.Machine

/-! Proofs of the obligations of spec/05_tile_memory.md: the frame of every command and the invariant, the hamper
channels and the memory's zeroing, and the requests that reach a tile or a host bridge. -/

namespace Sys2Proof.Machine

open Sys2Proof

/-! ### The frame of every command -/

/-- The bits of a list of fields, as `Only` reads them. -/
def fieldMask : List StateField → Nat
  | [] => 0
  | f :: fs => 2 ^ f.idx ||| fieldMask fs

theorem StateField.all_idx (f : StateField) : StateField.all[f.idx]? = some f := by cases f <;> rfl

theorem StateField.idx_injective : Function.Injective StateField.idx := fun f g h =>
  Option.some.inj ((StateField.all_idx f).symm.trans (h ▸ StateField.all_idx g))

theorem testBit_fieldMask {f : StateField} {fs : List StateField} (out : f ∉ fs) :
    (fieldMask fs).testBit f.idx = false := by
  induction fs with
  | nil => exact Nat.zero_testBit _
  | cons g fs ih =>
    rw [List.mem_cons, not_or] at out
    have apart : g.idx ≠ f.idx := fun e => out.1 (StateField.idx_injective e.symm)
    rw [fieldMask, Nat.testBit_or, ih out.2, Nat.testBit_two_pow_of_ne apart, Bool.or_self]

/-- Every command changes only the fields of its footprint: the law of its meaning, with the mask of the footprint. -/
theorem exec_only (c : Instr) (s : State) : OnlyN (fieldMask (footprint c)) s (exec c s) := by
  have start {F : Nat} : Only F s s := .refl F s
  refine match c with
    | .registerWrite .. => execRegisterWrite_only start ?_
    | .lowWordRead .. => execLowWordRead_only start ?_
    | .powerGood .. => execPowerGood_only start ?_
    | .startupStep => execStartupStep_only start ?_
    | .rowMapRead => execRowMapRead_only start ?_
    | .domainSwitchOn => execDomainSwitchOn_only start ?_
    | .domainSwitchOff => execDomainSwitchOff_only start ?_
    | .domainPowerGoodTimeout .. => execDomainPowerGoodTimeout_only start ?_
    | .strandTrainStart .. => execStrandTrainStart_only start ?_
    | .strandClockLockTimeout .. => execStrandClockLockTimeout_only start ?_
    | .strandDeskewDone .. => execStrandDeskewDone_only start ?_
    | .strandWireTestDone .. => execStrandWireTestDone_only start ?_
    | .strandFrameReceive .. => execStrandFrameReceive_only start ?_
    | .strandLinkDown .. => execStrandLinkDown_only start ?_
    | .hamperTraining .. => execHamperTraining_only start ?_
    | .guestBringupStart .. => execGuestBringupStart_only start ?_
    | .guestResetRelease .. => execGuestResetRelease_only start ?_
    | .guestTrainingDone .. => execGuestTrainingDone_only start ?_
    | .guestProfileAnswer .. => execGuestProfileAnswer_only start ?_
    | .guestConfirmAck .. => execGuestConfirmAck_only start ?_
    | .guestStepTimeout .. => execGuestStepTimeout_only start ?_
    | .guestEarlyPacket .. => execGuestEarlyPacket_only start ?_
    | .guestLinkDown .. => execGuestLinkDown_only start ?_
    | .guestPowerSample .. => execGuestPowerSample_only start ?_
    | .renegotiate .. => execRenegotiate_only start ?_
    | .takeDown .. => execTakeDown_only start ?_
    | .nop .. => execNop_only start ?_
    | .tallySet .. => execTallySet_only start ?_
    | .setSeed .. => execSetSeed_only start ?_
    | .regCopy .. => execRegCopy_only start ?_
    | .guideCall .. => execGuideCall_only start ?_
    | .taskBegin .. => execTaskBegin_only start ?_
    | .taskEnd .. => execTaskEnd_only start ?_
    | .phaseFence .. => execPhaseFence_only start ?_
    | .vector .. => execVector_only start ?_
    | .matrixPass .. => execMatrixPass_only start ?_
    | .move .. => execMove_only start ?_
    | .transpose .. => execTranspose_only start ?_
    | .collective .. => execCollective_only start ?_
    | .checkpoint .. => execCheckpoint_only start ?_
    | .restore .. => execRestore_only start ?_
    | .logbook .. => execLogbook_only start ?_
    | .reservedOpcode .. => execReservedOpcode_only start ?_
    | .commandComplete .. => execCommandComplete_only start ?_
    | .fetchAhead .. => execFetchAhead_only start ?_
    | .taskAbort .. => execTaskAbort_only start ?_
    | .abortQuiesced .. => execAbortQuiesced_only start ?_
    | .doorbellWrite .. => execDoorbellWrite_only start ?_
    | .queueRingWrite .. => execQueueRingWrite_only start ?_
    | .queueCtrlWrite .. => execQueueCtrlWrite_only start ?_
    | .queueAbort .. => execQueueAbort_only start ?_
    | .tallyValueWrite .. => execTallyValueWrite_only start ?_
    | .tallyAddWrite .. => execTallyAddWrite_only start ?_
    | .stallTimeout .. => execStallTimeout_only start ?_
    | .guideAnswer .. => execGuideAnswer_only start ?_
    | .guideCallTimeout .. => execGuideCallTimeout_only start ?_
    | .guideMailboxGo .. => execGuideMailboxGo_only start ?_
    | .passFirstBroadcast .. => execPassFirstBroadcast_only start ?_
    | .stationaryLoadStart .. => execStationaryLoadStart_only start ?_
    | .movingDataArrival .. => execMovingDataArrival_only start ?_
    | .passSumArrival .. => execPassSumArrival_only start ?_
    | .passComplete .. => execPassComplete_only start ?_
    | .engineWindowExpired .. => execEngineWindowExpired_only start ?_
    | .engineRampStep .. => execEngineRampStep_only start ?_
    | .meFold .. => execMeFold_only start ?_
    | .bankFillDone .. => execBankFillDone_only start ?_
    | .drainStart .. => execDrainStart_only start ?_
    | .drainLastRead .. => execDrainLastRead_only start ?_
    | .drainComplete .. => execDrainComplete_only start ?_
    | .bankZeroExpired .. => execBankZeroExpired_only start ?_
    | .tasterRecompute .. => execTasterRecompute_only start ?_
    | .tasterSampleRecord .. => execTasterSampleRecord_only start ?_
    | .watchClear .. => execWatchClear_only start ?_
    | .tasteFold .. => execTasteFold_only start ?_
    | .hamperBurst .. => execHamperBurst_only start ?_
    | .agedRequest .. => execAgedRequest_only start ?_
    | .scrubUnit .. => execScrubUnit_only start ?_
    | .zeroingStep .. => execZeroingStep_only start ?_
    | .zeroingFrontPass .. => execZeroingFrontPass_only start ?_
    | .memFold .. => execMemFold_only start ?_
    | .stashHwmClear .. => execStashHwmClear_only start ?_
    | .memErrAddrClear .. => execMemErrAddrClear_only start ?_
    | .moveChunk .. => execMoveChunk_only start ?_
    | .exchangeBlock .. => execExchangeBlock_only start ?_
    | .routerPacketReceive .. => execRouterPacketReceive_only start ?_
    | .packetEscape .. => execPacketEscape_only start ?_
    | .writePacket .. => execWritePacket_only start ?_
    | .writeAccPacket .. => execWriteAccPacket_only start ?_
    | .readReq .. => execReadReq_only start ?_
    | .readResp .. => execReadResp_only start ?_
    | .signal .. => execSignal_only start ?_
    | .ack .. => execAck_only start ?_
    | .nack .. => execNack_only start ?_
    | .ackTimeout .. => execAckTimeout_only start ?_
    | .packetAgeCheck .. => execPacketAgeCheck_only start ?_
    | .ccRateIncrease .. => execCcRateIncrease_only start ?_
    | .fabFold .. => execFabFold_only start ?_
    | .linkFrameReceive .. => execLinkFrameReceive_only start ?_
    | .interModuleLinkDown .. => execInterModuleLinkDown_only start ?_
    | .openRoundResult .. => execOpenRoundResult_only start ?_
    | .collectiveChunkStep .. => execCollectiveChunkStep_only start ?_
    | .collectiveTimeout .. => execCollectiveTimeout_only start ?_
    | .rollcallMessage .. => execRollcallMessage_only start ?_
    | .rollcallAbort .. => execRollcallAbort_only start ?_
    | .rollcallRepeat => execRollcallRepeat_only start ?_
    | .fenceResult .. => execFenceResult_only start ?_
    | .fenceInstant .. => execFenceInstant_only start ?_
    | .timeReq .. => execTimeReq_only start ?_
    | .timeResp .. => execTimeResp_only start ?_
    | .timeExchangeTimeout => execTimeExchangeTimeout_only start ?_
    | .timeSet .. => execTimeSet_only start ?_
    | .lanternStart .. => execLanternStart_only start ?_
    | .stileTrimDone .. => execStileTrimDone_only start ?_
    | .stileRetrim .. => execStileRetrim_only start ?_
    | .stileMoveStart .. => execStileMoveStart_only start ?_
    | .stileMoveCheck .. => execStileMoveCheck_only start ?_
    | .linkLit .. => execLinkLit_only start ?_
    | .linkDrained .. => execLinkDrained_only start ?_
    | .rotationSlot .. => execRotationSlot_only start ?_
    | .bundleLockTimeout .. => execBundleLockTimeout_only start ?_
    | .ringHeaterUpdate .. => execRingHeaterUpdate_only start ?_
    | .driftUpdate .. => execDriftUpdate_only start ?_
    | .calibrationStart .. => execCalibrationStart_only start ?_
    | .calibrationStop .. => execCalibrationStop_only start ?_
    | .calibrationDone .. => execCalibrationDone_only start ?_
    | .calUrgent .. => execCalUrgent_only start ?_
    | .lanFold .. => execLanFold_only start ?_
    | .probeBurst .. => execProbeBurst_only start ?_
    | .portLightReceived .. => execPortLightReceived_only start ?_
    | .identitySend .. => execIdentitySend_only start ?_
    | .portIdentity .. => execPortIdentity_only start ?_
    | .portAttemptTimeout .. => execPortAttemptTimeout_only start ?_
    | .portLossOfLight .. => execPortLossOfLight_only start ?_
    | .portRetrain .. => execPortRetrain_only start ?_
    | .keyOffer .. => execKeyOffer_only start ?_
    | .keyConfirm .. => execKeyConfirm_only start ?_
    | .configRequest .. => execConfigRequest_only start ?_
    | .hostWriteTlp .. => execHostWriteTlp_only start ?_
    | .lineBufferTimeout .. => execLineBufferTimeout_only start ?_
    | .hostReadTlp .. => execHostReadTlp_only start ?_
    | .hostPortReset .. => execHostPortReset_only start ?_
    | .copperTrainStart .. => execCopperTrainStart_only start ?_
    | .copperLanesLocked .. => execCopperLanesLocked_only start ?_
    | .copperIdentity .. => execCopperIdentity_only start ?_
    | .copperAttemptTimeout .. => execCopperAttemptTimeout_only start ?_
    | .copperRetrain .. => execCopperRetrain_only start ?_
    | .mctpMessage .. => execMctpMessage_only start ?_
    | .i3cCcc .. => execI3cCcc_only start ?_
    | .read32 .. => execRead32_only start ?_
    | .write32 .. => execWrite32_only start ?_
    | .readBlock .. => execReadBlock_only start ?_
    | .regAccessReserved .. => execRegAccessReserved_only start ?_
    | .itinStoreWrite .. => execItinStoreWrite_only start ?_
    | .verify .. => execVerify_only start ?_
    | .itinVerifyDone => execItinVerifyDone_only start ?_
    | .save .. => execSave_only start ?_
    | .itinSaveDone => execItinSaveDone_only start ?_
    | .foldGo .. => execFoldGo_only start ?_
    | .foldInstant => execFoldInstant_only start ?_
    | .bootFold => execBootFold_only start ?_
    | .claim .. => execClaim_only start ?_
    | .keep .. => execKeep_only start ?_
    | .release .. => execRelease_only start ?_
    | .handover .. => execHandover_only start ?_
    | .accept .. => execAccept_only start ?_
    | .depose .. => execDepose_only start ?_
    | .leaseExpiry => execLeaseExpiry_only start ?_
    | .handoverTimeout => execHandoverTimeout_only start ?_
    | .partyResetRequest .. => execPartyResetRequest_only start ?_
    | .partyResetWaitExpiry .. => execPartyResetWaitExpiry_only start ?_
    | .partyReset .. => execPartyReset_only start ?_
    | .partyResetDone .. => execPartyResetDone_only start ?_
    | .partyZeroingDone .. => execPartyZeroingDone_only start ?_
    | .eventCommit .. => execEventCommit_only start ?_
    | .recordWrite .. => execRecordWrite_only start ?_
    | .moderationTimeout .. => execModerationTimeout_only start ?_
    | .ringEnable .. => execRingEnable_only start ?_
    | .consumerWrite .. => execConsumerWrite_only start ?_
    | .idle .. => execIdle_only start ?_
    | .producerRead .. => execProducerRead_only start ?_
    | .nbComplete .. => execNbComplete_only start ?_
    | .maskWrite .. => execMaskWrite_only start ?_
    | .unmaskResample .. => execUnmaskResample_only start ?_
    | .globalHold .. => execGlobalHold_only start ?_
    | .weatherWindow .. => execWeatherWindow_only start ?_
    | .selfCheckpointStart .. => execSelfCheckpointStart_only start ?_
    | .selfWaitTimeout .. => execSelfWaitTimeout_only start ?_
    | .selfCheckpointDone .. => execSelfCheckpointDone_only start ?_
    | .sealAccept .. => execSealAccept_only start ?_
    | .sealProgrammed .. => execSealProgrammed_only start ?_
    | .rucksackProgramDone .. => execRucksackProgramDone_only start ?_
    | .rucksackMount .. => execRucksackMount_only start ?_
    | .exportImage .. => execExportImage_only start ?_
    | .importImage .. => execImportImage_only start ?_
    | .rkTransferDone .. => execRkTransferDone_only start ?_
    | .mirrorEnable .. => execMirrorEnable_only start ?_
    | .mirrorFillLine .. => execMirrorFillLine_only start ?_
    | .mirrorFillDone .. => execMirrorFillDone_only start ?_
    | .resync .. => execResync_only start ?_
    | .commit .. => execCommit_only start ?_
    | .mirrorFillIdleTimeout .. => execMirrorFillIdleTimeout_only start ?_
    | .retireGo .. => execRetireGo_only start ?_
    | .retireBlowDone .. => execRetireBlowDone_only start ?_
    | .safeStateEntry .. => execSafeStateEntry_only start ?_
    | .safeStateStage => execSafeStateStage_only start ?_
    | .enter .. => execEnter_only start ?_
    | .restart .. => execRestart_only start ?_
    | .securitySelftest .. => execSecuritySelftest_only start ?_
    | .entropyHealthFail .. => execEntropyHealthFail_only start ?_
    | .bootVerify .. => execBootVerify_only start ?_
    | .spdmRequest .. => execSpdmRequest_only start ?_
    | .provisionAnchor .. => execProvisionAnchor_only start ?_
    | .loadItinKey .. => execLoadItinKey_only start ?_
    | .revokeItinKey .. => execRevokeItinKey_only start ?_
    | .loadJobKey .. => execLoadJobKey_only start ?_
    | .advanceSvn .. => execAdvanceSvn_only start ?_
    | .zeroize .. => execZeroize_only start ?_
    | .debugUnlock .. => execDebugUnlock_only start ?_
    | .securityHandover => execSecurityHandover_only start ?_
    | .ideStateChange .. => execIdeStateChange_only start ?_
    | .pwrFold .. => execPwrFold_only start ?_
    | .operatingPointTileChange .. => execOperatingPointTileChange_only start ?_
    | .tilPwrFold .. => execTilPwrFold_only start ?_
    | .slewSample .. => execSlewSample_only start ?_
    | .thermistorConversion .. => execThermistorConversion_only start ?_
    | .dieSensorSample .. => execDieSensorSample_only start ?_
    | .throttleStep .. => execThrottleStep_only start ?_
    | .supplySample .. => execSupplySample_only start ?_
    | .clockFault .. => execClockFault_only start ?_
    | .shutdownGo .. => execShutdownGo_only start ?_
    | .shutdownStage => execShutdownStage_only start ?_
    | .modRstNLow => execModRstNLow_only start ?_
    | .inputLoss => execInputLoss_only start ?_
    | .idcode .. => execIdcode_only start ?_
    | .strapRead .. => execStrapRead_only start ?_
    | .bypass .. => execBypass_only start ?_
    | .samplePreload .. => execSamplePreload_only start ?_
    | .extest .. => execExtest_only start ?_
    | .domainPowerGood .. => execDomainPowerGood_only start ?_
    | .hostLinkUp .. => execHostLinkUp_only start ?_
    | .openRoundHoldoffExpiry .. => execOpenRoundHoldoffExpiry_only start ?_
  all_goals
    dsimp only [footprint, Within]
    decide

theorem exec_sameBut {c : Instr} {s t : State} (run : exec c s = .next t) : SameBut (footprint c) s t :=
  fun f out => ((exec_only c s).only t run).frame f (testBit_fieldMask out)

theorem pending_not_mem_footprint (c : Instr) : StateField.pending ∉ footprint c := by
  cases c <;> dsimp only [footprint] <;> decide

theorem State.byte_congr {s t : State} (h : t.mem = s.mem) (a : Nat) : t.byte a = s.byte a := by
  unfold State.byte; rw [h]

/-- Settles O56: the law of every command's meaning, and that no footprint names the queue. -/
theorem frameOfEveryCommand : Obligations.FrameOfEveryCommand := by
  unfold Obligations.FrameOfEveryCommand
  refine ⟨fun c s t => exec_sameBut, fun c s t a memory run => ⟨?_, ?_⟩⟩
  · exact State.byte_congr (exec_sameBut run .mem memory) a
  · exact exec_sameBut run .pending (pending_not_mem_footprint c)

/-! ### The invariant -/

theorem Inv.exec {c : Instr} {s t : State} (inv : Inv s) (run : exec c s = .next t) : Inv t :=
  ((exec_only c s).only t run).inv inv

/-- Settles O57: the front command keeps the invariant, and so does a nanosecond of idling. -/
theorem invariantKept : Obligations.InvariantKept := by
  unfold Obligations.InvariantKept
  intro s t inv run
  obtain ⟨memory, tallies⟩ := inv
  unfold step at run
  split at run
  · cases run
    exact ⟨memory, tallies⟩
  · next c rest waits => exact Inv.exec (s := { s with pending := rest }) ⟨memory, tallies⟩ run

/-! ### What a loop leaves alone -/

theorem Within.self (n : Nat) : Within n n := Nat.and_self n

theorem foldl_view {σ α β : Type} (view : σ → β) {f : σ → α → σ} {l : List α}
    (keeps : ∀ x ∈ l, ∀ s, view (f s x) = view s) (s : σ) : view (l.foldl f s) = view s := by
  induction l generalizing s with
  | nil => rfl
  | cons x l ih =>
    rw [List.foldl_cons, ih fun y hy => keeps y (List.mem_cons_of_mem _ hy), keeps x List.mem_cons_self]

/-! ### Bytes and lines (R5, R179) -/

theorem readNat_congr {m m' : SMap Byte} {n a : Nat}
    (same : ∀ b, a ≤ b → b < a + n → mget 0 m' b = mget 0 m b) : readNat m' n a = readNat m n a := by
  induction n generalizing a with
  | zero => rfl
  | succ n ih =>
    rw [readNat, readNat, same a (Nat.le_refl a) (by omega), ih fun b low high => same b (by omega) (by omega)]

theorem State.line_congr {s u : State} {a : Nat} (same : ∀ b, a ≤ b → b < a + 64 → u.byte b = s.byte b) :
    u.line a = s.line a :=
  congrArg (BitVec.ofNat 512) (readNat_congr same)

/-- The byte lies in none of the lines. -/
def Outside (t : Nat) (offs : List Nat) (a : Nat) : Prop := ∀ o ∈ offs, a < tileAddr t o ∨ tileAddr t o + 64 ≤ a

theorem Outside.zip {t a : Nat} {offs : List Nat} (h : Outside t offs a) (ls : List Line) :
    Outside t ((offs.zip ls).map (·.1)) a := by
  intro o mem
  obtain ⟨x, zipped, rfl⟩ := List.mem_map.1 mem
  exact h x.1 (List.of_mem_zip zipped).1

theorem mapped_of_inHamper {s : State} {t off : Nat} (h : inHamper off = true) : mapped s t off = true := by
  rw [mapped, h, Bool.or_true]

/-! ### What leaves the bytes alone (R179, R217) -/

section

variable (s : State) (t off : Nat)

theorem readLine_mem : (readLine s t off).2.mem = s.mem :=
  (readLine_only (.refl _ s) (.self _)).only.frame .mem (by decide)

theorem readLines_mem (offs : List Nat) (hint : Hint) : (readLines s t offs hint).2.mem = s.mem :=
  (readLines_only (.refl _ s) (.self _)).only.frame .mem (by decide)

theorem mirrorWrite_mem (who : MirrorOwner) : (mirrorWrite s t off who).mem = s.mem :=
  (mirrorWrite_only (.refl _ s) (.self _)).frame .mem (by decide)

theorem stashMark_mem : (stashMark s t off).mem = s.mem :=
  (stashMark_only (.refl _ s) (.self _)).frame .mem (by decide)

theorem dropGranule_mem (g : Nat) : (dropGranule s t g).mem = s.mem :=
  (dropGranule_only (.refl _ s) (.self _)).frame .mem (by decide)

theorem moveOut_mem (count : Nat) (offs : List Nat) : (moveOut s t count offs).mem = s.mem :=
  (moveOut_only (.refl _ s) (.self _)).frame .mem (by decide)

end

/-! ### Writing and accumulating lines (R179, R201 to R205) -/

section

variable {s : State} {t off a : Nat} {l : Line} {who : MirrorOwner}

theorem writeLine_mem : (writeLine s t off l who).mem =
    if mapped s t off then (s.setLine (tileAddr t off) l).mem else s.mem := by
  unfold writeLine
  cases mapped s t off with
  | false => rfl
  | true => exact (mirrorWrite_mem ..).trans (stashMark_mem ..)

theorem writeLine_byte_outside (out : a < tileAddr t off ∨ tileAddr t off + 64 ≤ a) :
    (writeLine s t off l who).byte a = s.byte a := by
  rw [State.byte, writeLine_mem]
  split
  · exact State.byte_setLine_other s l out
  · rfl

theorem writeLine_line (hamper : inHamper off = true) : (writeLine s t off l who).line (tileAddr t off) = l := by
  have mem := writeLine_mem (s := s) (t := t) (off := off) (l := l) (who := who)
  rw [if_pos (mapped_of_inHamper hamper)] at mem
  exact (State.line_congr fun b _ _ => State.byte_congr mem b).trans (State.line_setLine_self ..)

theorem writeLines_byte_outside {ls : List (Nat × Line)} (out : Outside t (ls.map (·.1)) a) :
    (writeLines s t ls who).byte a = s.byte a := by
  have folds := foldl_view (State.byte · a) (f := fun s p => writeLine s t p.1 p.2 who) (l := ls)
    (fun p mem u => writeLine_byte_outside (out p.1 (List.mem_map_of_mem mem)))
  exact (folds _).trans (State.byte_congr (moveOut_mem ..) a)

/-- Lines written one after the other, of which none reaches into an earlier one, all stand afterwards. -/
theorem foldl_writeLine_line {ls : List (Nat × Line)} (hamper : ∀ x ∈ ls, inHamper x.1 = true)
    (rising : ls.Pairwise (fun x y => x.1 + 64 ≤ y.1)) {x : Nat × Line} (mem : x ∈ ls) (s : State) :
    (ls.foldl (fun s p => writeLine s t p.1 p.2 who) s).line (tileAddr t x.1) = x.2 := by
  induction ls generalizing s with
  | nil => cases mem
  | cons y ls ih =>
    obtain ⟨later, rising⟩ := List.pairwise_cons.1 rising
    rw [List.foldl_cons]
    cases mem with
    | tail _ mem => exact ih (fun z hz => hamper z (List.mem_cons_of_mem _ hz)) rising mem _
    | head =>
      refine Eq.trans (State.line_congr fun b low high => ?_)
        (writeLine_line (s := s) (who := who) (hamper x List.mem_cons_self))
      refine foldl_view (State.byte · b) (fun z hz u => writeLine_byte_outside (Or.inl ?_)) _
      have above := later z hz
      unfold tileAddr at *
      omega

theorem writeLines_line {ls : List (Nat × Line)} (hamper : ∀ x ∈ ls, inHamper x.1 = true)
    (rising : ls.Pairwise (fun x y => x.1 + 64 ≤ y.1)) {x : Nat × Line} (mem : x ∈ ls) :
    (writeLines s t ls who).line (tileAddr t x.1) = x.2 := foldl_writeLine_line hamper rising mem _

theorem accLine_byte_outside {kf16 : Bool} (out : a < tileAddr t off ∨ tileAddr t off + 64 ≤ a) :
    (accLine s t off kf16 l who).2.byte a = s.byte a := by
  have read := readLine_mem s t off
  unfold accLine
  split
  · rfl
  · split
    · next u e =>
      rw [e] at read
      exact State.byte_congr read a
    · next old u e =>
      rw [e] at read
      generalize accSums _ _ _ _ = sums
      rw [State.byte_congr (mirrorWrite_mem ..), State.byte_congr (stashMark_mem ..),
        State.byte_congr (dropGranule_mem ..), State.byte_setLine_other _ _ out, State.byte_congr (State.setReg_mem ..)]
      exact State.byte_congr read a

theorem accLines_byte_outside {kf16 : Bool} {ls : List (Nat × Line)} (out : Outside t (ls.map (·.1)) a) :
    (accLines s t kf16 ls who).2.byte a = s.byte a := by
  unfold accLines
  refine (foldl_view (fun acc : Bool × State => acc.2.byte a) (fun p mem acc => ?_) _).trans
    (State.byte_congr (moveOut_mem ..) a)
  exact accLine_byte_outside (out p.1 (List.mem_map_of_mem mem))

end

/-! ### What stalls at a tile goes on stalling (R212)

Sending packets, answering them and aborting commands leave the list of stalled packets as it is. -/

section

variable (s : State)

/-- The packets that stall at tiles. -/
def State.stalled : List (Nat × Packet) := s.fabric.stalled

theorem State.stalled_congr {s u : State} (h : u.fabric = s.fabric) : u.stalled = s.stalled :=
  congrArg Fabric.stalled h

@[simp] theorem State.setReg_stalled (a : Nat) (w : Word) : (s.setReg a w).stalled = s.stalled :=
  State.stalled_congr rfl
@[simp] theorem State.setLine_stalled (a : Nat) (l : Line) : (s.setLine a l).stalled = s.stalled :=
  State.stalled_congr rfl
@[simp] theorem State.count32_stalled (a n : Nat) : (s.count32 a n).stalled = s.stalled :=
  State.stalled_congr rfl
@[simp] theorem State.count64_stalled (a n : Nat) : (s.count64 a n).stalled = s.stalled :=
  State.stalled_congr rfl
@[simp] theorem post_stalled (cls src payload party : Nat) : (post s cls src payload party).stalled = s.stalled :=
  State.stalled_congr ((post_only_self ..).frame .fabric (by decide))

@[simp] theorem inject_stalled (t port : Nat) (p : Packet) (bs : List Branch) :
    (inject s t port p bs).stalled = s.stalled := by
  unfold inject hold
  split <;> rfl

@[simp] theorem putAnswer_stalled (ep : Endpoint) (p : Packet) : (putAnswer s ep p).2.stalled = s.stalled := by
  unfold putAnswer
  cases joins s ep with
  | none => rfl
  | some place => cases ep <;> simp only [apply_ite State.stalled, inject_stalled, State.count64_stalled, ite_self]

@[simp] theorem dropPacket_stalled (t vc0 : Nat) (p : Packet) (reason : Nat) :
    (dropPacket s t vc0 p reason).stalled = s.stalled := by
  unfold dropPacket
  split
  · rfl
  · rw [putAnswer_stalled, State.count32_stalled]

@[simp] theorem dropGroup_stalled (t vc0 : Nat) (p : Packet) : (dropGroup s t vc0 p).stalled = s.stalled := by
  rw [dropGroup, post_stalled, dropPacket_stalled]

@[simp] theorem routeLosses_stalled (t vc0 : Nat) (p : Packet) (r : Route) :
    (routeLosses s t vc0 p r).stalled = s.stalled := by
  unfold routeLosses
  rw [foldl_view State.stalled fun _ _ _ => by rw [post_stalled, State.count32_stalled]]
  simp only [apply_ite State.stalled, dropGroup_stalled, dropPacket_stalled, ite_self]
  exact foldl_view State.stalled (fun _ _ _ => by rw [dropPacket_stalled, State.count32_stalled]) s

@[simp] theorem enterMesh_stalled (src : Endpoint) (p : Packet) : (enterMesh s src p).stalled = s.stalled := by
  unfold enterMesh
  cases joins s src with
  | none => rfl
  | some place =>
    cases src <;> simp only [apply_ite State.stalled, inject_stalled, routeLosses_stalled, State.count64_stalled,
      ite_self]

variable {s} in
theorem openConn_stalled {src : Endpoint} {key : Nat} {u : State} (h : openConn s src key = some u) :
    u.stalled = s.stalled := by
  unfold openConn at h
  dsimp only at h
  split at h
  · cases h; rfl
  · split at h
    · cases h; rfl
    · split at h <;> cases h
      rfl

theorem sendOn_stalled (c : Conn) (src : Endpoint) (purpose : Purpose) (need : Nat) (p : Packet) :
    (sendOn s c src purpose need p).stalled = s.stalled := by
  unfold sendOn
  rw [enterMesh_stalled]
  rfl

variable {s} in
theorem trySend_stalled {src : Endpoint} {purpose : Purpose} {need : Nat} {p : Packet} {u : State}
    (h : trySend s src purpose need p = some u) : u.stalled = s.stalled := by
  unfold trySend at h
  split at h
  · cases h
  · split at h
    · cases h
    · next v opened =>
      split at h <;> cases h
      rw [sendOn_stalled, openConn_stalled opened]

theorem sendPacket_stalled (src : Endpoint) (purpose : Purpose) (p : Packet) :
    (sendPacket s src purpose p).stalled = s.stalled := by
  unfold sendPacket
  dsimp only
  split
  · rfl
  · split
    · next sent => exact trySend_stalled sent
    · rfl

@[simp] theorem State.setMirror_stalled (i : Nat) (x : Mirror) : (s.setMirror i x).stalled = s.stalled :=
  State.stalled_congr rfl

@[simp] theorem mirrorWrite_stalled (t off : Nat) (who : MirrorOwner) :
    (mirrorWrite s t off who).stalled = s.stalled := by
  unfold mirrorWrite State.each
  split
  · rfl
  · refine foldl_view State.stalled (fun w _ u => ?_) s
    simp only [apply_ite State.stalled, sendPacket_stalled, State.count64_stalled, State.setMirror_stalled, ite_self]

end

section

variable (s : State) (t : Nat)

@[simp] theorem State.setQueue_stalled (g : Nat) (q : Queue) : (s.setQueue g q).stalled = s.stalled :=
  State.stalled_congr rfl
@[simp] theorem State.modQueue_stalled (g : Nat) (f : Queue → Queue) : (s.modQueue g f).stalled = s.stalled :=
  State.stalled_congr rfl
@[simp] theorem discardPrefetch_stalled (q : Nat) (ofTask : Word → Bool) :
    (discardPrefetch s t q ofTask).stalled = s.stalled :=
  State.stalled_congr rfl

@[simp] theorem stopEngine_stalled (st : Stops) (i : Nat) : (stopEngine s i st).stalled = s.stalled :=
  State.stalled_congr ((stopEngine_only (.refl _ s) (.self _)).frame .fabric (by decide))

@[simp] theorem stopColls_stalled (st : Stops) (tell : Bool) : (stopColls s t st tell).stalled = s.stalled :=
  State.stalled_congr ((stopColls_only (.refl _ s) (.self _)).frame .fabric (by decide))

@[simp] theorem stopUnits_stalled (st : Stops) (tell : Bool) : (stopUnits s t st tell).stalled = s.stalled := by
  unfold stopUnits
  extract_lets idle fabric quiet engines tile rucksack programs
  have movers : idle.stalled = s.stalled := foldl_view State.stalled (fun m _ u => by
    dsimp only
    split
    · split <;> rfl
    · rfl) s
  have stopped : engines.stalled = quiet.stalled := foldl_view State.stalled (fun e _ u => stopEngine_stalled ..) quiet
  clear_value engines
  rw [stopColls_stalled]
  exact stopped.trans movers

@[simp] theorem skipOn_stalled (g : Nat) : (skipOn s g).stalled = s.stalled :=
  State.stalled_congr ((skipOn_only (.refl _ s) (.self _)).frame .fabric (by decide))

@[simp] theorem skipOne_stalled (g : Nat) : (skipOne s g).stalled = s.stalled :=
  State.stalled_congr ((skipOne_only (.refl _ s) (.self _)).frame .fabric (by decide))

theorem abortTask_stalled (g : Nat) (task : Task) (idx : Word) (e : CmdError) (tell : Bool) :
    (abortTask s g task idx e tell).stalled = s.stalled := by
  unfold abortTask
  simp only [apply_ite State.stalled, skipOn_stalled, skipOne_stalled, stopUnits_stalled, State.modQueue_stalled,
    discardPrefetch_stalled, State.count32_stalled, State.setQueue_stalled, ite_self]

@[simp] theorem abortCommand_stalled (g : Nat) (idx : Word) (e : CmdError) (tell : Bool) :
    (abortCommand s g idx e tell).stalled = s.stalled := by
  unfold abortCommand
  split
  · split
    · rfl
    · exact abortTask_stalled ..
  · rfl

theorem moveOut_stalled (count : Nat) (offs : List Nat) : (moveOut s t count offs).stalled = s.stalled :=
  State.stalled_congr ((moveOut_only (.refl _ s) (.self _)).frame .fabric (by decide))

theorem readLine_stalled (off : Nat) : (readLine s t off).2.stalled = s.stalled :=
  State.stalled_congr ((readLine_only (.refl _ s) (.self _)).only.frame .fabric (by decide))

theorem readLines_stalled (offs : List Nat) (hint : Hint) : (readLines s t offs hint).2.stalled = s.stalled :=
  State.stalled_congr ((readLines_only (.refl _ s) (.self _)).only.frame .fabric (by decide))

theorem stashMark_stalled (off : Nat) : (stashMark s t off).stalled = s.stalled :=
  State.stalled_congr ((stashMark_only (.refl _ s) (.self _)).frame .fabric (by decide))

theorem dropGranule_stalled (g : Nat) : (dropGranule s t g).stalled = s.stalled :=
  State.stalled_congr ((dropGranule_only (.refl _ s) (.self _)).frame .fabric (by decide))

theorem writeLines_stalled (ls : List (Nat × Line)) (who : MirrorOwner) :
    (writeLines s t ls who).stalled = s.stalled := by
  refine (foldl_view State.stalled (fun x _ u => ?_) _).trans (moveOut_stalled ..)
  unfold writeLine
  split
  · rfl
  · rw [mirrorWrite_stalled, stashMark_stalled]; rfl

theorem accLine_stalled (off : Nat) (kf16 : Bool) (l : Line) (who : MirrorOwner) :
    (accLine s t off kf16 l who).2.stalled = s.stalled := by
  have read := readLine_stalled s t off
  unfold accLine
  split
  · rfl
  · split
    · next u e => rw [e] at read; exact read
    · next old u e =>
      rw [e] at read
      generalize accSums _ _ _ _ = sums
      rw [mirrorWrite_stalled, stashMark_stalled, dropGranule_stalled, State.setLine_stalled, State.setReg_stalled]
      exact read

theorem accLines_stalled (kf16 : Bool) (ls : List (Nat × Line)) (who : MirrorOwner) :
    (accLines s t kf16 ls who).2.stalled = s.stalled := by
  unfold accLines
  refine (foldl_view (fun acc : Bool × State => acc.2.stalled) (fun p _ acc => ?_) _).trans (moveOut_stalled ..)
  exact accLine_stalled ..

end

/-! ### A burst's data (R192, R214 to R217) -/

section

variable (s : State) (t : Nat)

/-- What waits at a channel. -/
def State.waiting (k : Nat) : List HamperReq := (s.channel k).waiting

theorem State.channel_congr {s u : State} (h : u.channels = s.channels) (k : Nat) : u.channel k = s.channel k := by
  unfold State.channel; rw [h]

theorem State.waiting_congr {s u : State} (h : u.channels = s.channels) (k : Nat) : u.waiting k = s.waiting k := by
  unfold State.waiting; rw [State.channel_congr h]

theorem turn_waiting (g : Nat) (write : Bool) (k : Nat) : (turn s t g write).waiting k = s.waiting k := by
  unfold turn
  extract_lets j c
  split
  · rfl
  · rw [State.waiting_congr (State.count64_channels ..), State.waiting, State.channel_setChannel]
    split
    · next same => rw [State.waiting, ← same]
    · rfl

theorem moveGranule_waiting (count g : Nat) (write : Bool) (k : Nat) :
    (moveGranule s t count g write).waiting k = s.waiting k :=
  (State.waiting_congr (State.count64_channels ..) k).trans (turn_waiting ..)

theorem touchGranule_waiting (g : Nat) (hint : Hint) (mark : Option (Nat × Word)) (k : Nat) :
    (touchGranule s t g hint mark).waiting k = s.waiting k := by
  unfold touchGranule
  split
  · exact moveGranule_waiting ..
  · dsimp only
    split
    · exact State.waiting_congr (State.count64_channels ..) k
    · exact (moveGranule_waiting ..).trans (State.waiting_congr (State.count64_channels ..) k)

theorem moveOut_waiting (count : Nat) (offs : List Nat) (k : Nat) : (moveOut s t count offs).waiting k = s.waiting k :=
  foldl_view (State.waiting · k) (fun _ _ _ => moveGranule_waiting ..) s

theorem readLines_waiting (offs : List Nat) (hint : Hint) (k : Nat) :
    (readLines s t offs hint).2.waiting k = s.waiting k := by
  have touched := foldl_view (State.waiting · k) (f := fun s g => touchGranule s t g hint)
    (l := granuleRuns none offs) (fun _ _ _ => touchGranule_waiting ..) s
  unfold readLines
  refine (foldl_view (fun acc : List (Option Line) × State => acc.2.waiting k) (fun off _ acc => ?_) _).trans touched
  exact State.waiting_congr ((readLine_only (.refl _ acc.2) (.self _)).only.frame .channels (by decide)) k

theorem writeLines_waiting (ls : List (Nat × Line)) (who : MirrorOwner) (k : Nat) :
    (writeLines s t ls who).waiting k = s.waiting k :=
  (foldl_view (State.waiting · k) (fun _ _ u =>
    State.waiting_congr ((writeLine_only (.refl _ u) (.self _)).frame .channels (by decide)) k) _).trans
      (moveOut_waiting ..)

theorem accLines_waiting (kf16 : Bool) (ls : List (Nat × Line)) (who : MirrorOwner) (k : Nat) :
    (accLines s t kf16 ls who).2.waiting k = s.waiting k := by
  unfold accLines
  refine (foldl_view (fun acc : Bool × State => acc.2.waiting k) (fun p _ acc => ?_) _).trans (moveOut_waiting ..)
  exact State.waiting_congr ((accLine_only (.refl _ acc.2) (.self _)).only.frame .channels (by decide)) k

end

/-- A burst whose transfers succeed: its data, and the failure of its command where a line was refused. -/
def burstDone (s : State) (t : Nat) (r : HamperReq) : State :=
  if (performBurst s t r).1 then (performBurst s t r).2 else refuseReq (performBurst s t r).2 t r

section

variable (s : State) (t : Nat) (r : HamperReq)

theorem performBurst_stalled : (performBurst s t r).2.stalled = s.stalled := by
  unfold performBurst
  cases r.kind with
  | read h => exact readLines_stalled ..
  | write d => exact writeLines_stalled ..
  | accumulate k d => exact accLines_stalled ..

theorem performBurst_waiting (k : Nat) : (performBurst s t r).2.waiting k = s.waiting k := by
  unfold performBurst
  cases r.kind with
  | read h => exact readLines_waiting ..
  | write d => exact writeLines_waiting ..
  | accumulate k d => exact accLines_waiting ..

theorem performBurst_byte_outside {a : Nat} (out : Outside t (runOffsets r.offset r.lines) a) :
    (performBurst s t r).2.byte a = s.byte a := by
  unfold performBurst
  cases r.kind with
  | read h => exact State.byte_congr (readLines_mem ..) a
  | write d => exact writeLines_byte_outside (out.zip d)
  | accumulate k d => exact accLines_byte_outside (out.zip d)

theorem refuseReq_only_self : Only 36370678888 s (refuseReq s t r) := refuseReq_only (.refl _ s) (.self _)

theorem refuseReq_stalled : (refuseReq s t r).stalled = s.stalled := by
  unfold refuseReq
  cases r.owner with
  | none => rfl
  | some o => exact abortCommand_stalled ..

theorem burstDone_mem : (burstDone s t r).mem = (performBurst s t r).2.mem := by
  unfold burstDone
  split
  · rfl
  · exact (refuseReq_only_self ..).frame .mem (by decide)

theorem burstDone_waiting (k : Nat) : (burstDone s t r).waiting k = s.waiting k := by
  rw [← performBurst_waiting s t r k]
  unfold burstDone
  split
  · rfl
  · exact State.waiting_congr ((refuseReq_only_self ..).frame .channels (by decide)) k

theorem burstDone_stalled : (burstDone s t r).stalled = s.stalled := by
  rw [← performBurst_stalled s t r]
  unfold burstDone
  split
  · rfl
  · exact refuseReq_stalled ..

end

section

variable {s : State} {t : Nat} {r : HamperReq}

theorem burstDone_read_mem {h : Hint} (reads : r.kind = .read h) : (burstDone s t r).mem = s.mem := by
  rw [burstDone_mem, performBurst, reads]
  exact readLines_mem ..

theorem outside_runOffsets {t off n a : Nat} (out : a < tileAddr t off ∨ tileAddr t (off + 64 * n) ≤ a) :
    Outside t (runOffsets off n) a := by
  intro o mem
  obtain ⟨i, below, rfl⟩ := List.mem_map.1 mem
  have := List.mem_range.1 below
  unfold tileAddr at *
  omega

theorem burstDone_byte_outside {a : Nat}
    (out : a < tileAddr t r.offset ∨ tileAddr t (r.offset + 64 * r.lines) ≤ a) :
    (burstDone s t r).byte a = s.byte a := by
  rw [State.byte_congr (burstDone_mem s t r), performBurst_byte_outside s t r (outside_runOffsets out)]

theorem runOffsets_rising (off n : Nat) (d : List Line) :
    ((runOffsets off n).zip d).Pairwise (fun x y => x.1 + 64 ≤ y.1) := by
  rw [List.pairwise_iff_getElem]
  intro i j hi hj less
  simp only [List.getElem_zip, runOffsets, List.getElem_map, List.getElem_range]
  omega

theorem mem_zip_runOffsets (off : Nat) {n k : Nat} {d : List Line} (inRun : k < n) (inData : k < d.length) :
    (off + 64 * k, d.getD k 0) ∈ (runOffsets off n).zip d := by
  have inside : k < ((runOffsets off n).zip d).length := by
    rw [List.length_zip, runOffsets, List.length_map, List.length_range]
    exact Nat.lt_min.2 ⟨inRun, inData⟩
  refine List.mem_iff_getElem.2 ⟨k, inside, ?_⟩
  simp only [List.getElem_zip, runOffsets, List.getElem_map, List.getElem_range, List.getD_eq_getElem?_getD,
    List.getElem?_eq_getElem inData, Option.getD_some]

theorem burstDone_write_line {d : List Line} (writes : r.kind = .write d)
    (hamper : (runOffsets r.offset r.lines).all inHamper = true) {k : Nat} (inRun : k < r.lines)
    (inData : k < d.length) : (burstDone s t r).line (tileAddr t (r.offset + 64 * k)) = d.getD k 0 := by
  have mem := burstDone_mem s t r
  rw [performBurst, writes] at mem
  have inside : ∀ x ∈ (runOffsets r.offset r.lines).zip d, inHamper x.1 = true := fun x hx =>
    List.all_eq_true.1 hamper x.1 (List.of_mem_zip hx).1
  have stands := writeLines_line (s := s) (t := t) (who := reqWriter r) inside (runOffsets_rising ..)
    (mem_zip_runOffsets r.offset inRun inData)
  rw [State.line_congr fun b _ _ => State.byte_congr mem b]
  exact stands

end

/-! ### HAMPER_BURST (R192, R196, R215) -/

section

variable {s u : State} {t : Fin 64} {c : Fin 32} {arrivals : List HamperReq} {errors : List (Nat × EccFinding)}
  {retries : List Nat} {r : HamperReq}

/-- The CRC errors in a row of each granule that a burst moves; a fifth fails the transfer. -/
def burstRepeats (r : HamperReq) (retries : List Nat) : List Nat :=
  (retries.take ((r.offset % 128 / 64 + r.lines + 1) / 2)).map (min 5)

theorem burstRepeats_fail_iff : (burstRepeats r retries).any (fun n => 4 < n) = true ↔
    ∃ n ∈ retries.take ((r.offset % 128 / 64 + r.lines + 1) / 2), 4 < n := by
  have capped (n : Nat) : 4 < min 5 n ↔ 4 < n := by omega
  simp only [burstRepeats, List.any_map, List.any_eq_true, Function.comp_apply, decide_eq_true_eq, capped]

/-- What a channel's burst starts from: the requests that have arrived wait, the errors stand in their lines, and the
repeated transfers are counted. -/
def burstStart (s : State) (t : Nat) (arrivals : List HamperReq) (errors : List (Nat × EccFinding))
    (repeats : List Nat) : State :=
  (arise (arrivals.foldl (arriveReq t) s) t errors).count32 (tilA t 0x3050) (repeats.map (min 4)).sum

theorem arrivals_only (s : State) (t : Nat) (arrivals : List HamperReq) :
    Only 2097152 s (arrivals.foldl (arriveReq t) s) :=
  Only.foldl (.refl _ s) fun _ _ h => arriveReq_only h (.self _)

theorem burstStart_only (s : State) (t : Nat) (arrivals : List HamperReq) (errors : List (Nat × EccFinding))
    (repeats : List Nat) : Only 2621504 s (burstStart s t arrivals errors repeats) :=
  State.count32_only (arise_only ((arrivals_only s t arrivals).weaken rfl) rfl) rfl

theorem burstStart_channel (repeats : List Nat) (k : Nat) :
    (burstStart s t arrivals errors repeats).channel k = (arrivals.foldl (arriveReq t.val) s).channel k :=
  State.channel_congr ((State.count32_channels ..).trans
    ((arise_only (.refl _ _) (.self _)).frame .channels (by decide))) k

theorem frontPassed_congr (h : u.tiles = s.tiles) (t off : Nat) : frontPassed u t off = frontPassed s t off := by
  unfold frontPassed; rw [State.tile_congr h]

/-- The state after a burst whose transfers succeed. -/
def burstEnd (s : State) (t : Fin 64) (c : Fin 32) (arrivals : List HamperReq) (errors : List (Nat × EccFinding))
    (retries : List Nat) (r : HamperReq) : State :=
  let w := burstStart s t.val arrivals errors (burstRepeats r retries)
  burstDone (w.setChannel (32 * t.val + c.val) (channelAfter (w.channel (32 * t.val + c.val)) r)) t.val r

/-- A burst: the fifth CRC error in a row takes the panel into the safe state; otherwise the request leaves the channel,
its data moves, and what waited for it proceeds. -/
theorem exec_hamperBurst (acts : active s = true)
    (next : nextRequest ((arrivals.foldl (arriveReq t.val) s).channel (32 * t.val + c.val)) = some r)
    (passed : (runOffsets r.offset r.lines).all (frontPassed s t.val) = true) :
    exec (.hamperBurst t c arrivals errors retries) s = .next (
      let w := burstStart s t.val arrivals errors (burstRepeats r retries)
      let done := burstEnd s t c arrivals errors retries r
      if (burstRepeats r retries).any (fun n => 4 < n) then enterSafe w 0x06 (srcSite (siteOf w t.val)) 0 c.val
      else performStalled t done.stalled done) := by
  have run : exec (.hamperBurst t c arrivals errors retries) s = execHamperBurst t c arrivals errors retries s := rfl
  have arisen : Only 2621440 s (arise (arrivals.foldl (arriveReq t.val) s) t.val errors) :=
    arise_only ((arrivals_only s t.val arrivals).weaken rfl) rfl
  have front : (runOffsets r.offset r.lines).all
      (frontPassed (arise (arrivals.foldl (arriveReq t.val) s) t.val errors) t.val) = true := by
    rw [funext fun off => frontPassed_congr (arisen.frame .tiles (by decide)) t.val off, passed]
  have same : (arise (arrivals.foldl (arriveReq t.val) s) t.val errors).channel (32 * t.val + c.val) =
      (arrivals.foldl (arriveReq t.val) s).channel (32 * t.val + c.val) :=
    State.channel_congr ((arise_only (.refl _ _) (.self _)).frame .channels (by decide)) _
  rw [run, execHamperBurst]
  simp only [acts, Bool.not_true, Bool.false_eq_true, if_false, same, next, front]
  exact (apply_ite Host.Outcome.next ..).symm

end

section

variable {s : State} {t : Fin 64} {c : Fin 32} {arrivals : List HamperReq} (errors : List (Nat × EccFinding))
  {retries : List Nat} {r : HamperReq}

theorem exec_hamperBurst_done (acts : active s = true)
    (next : nextRequest ((arrivals.foldl (arriveReq t.val) s).channel (32 * t.val + c.val)) = some r)
    (passed : (runOffsets r.offset r.lines).all (frontPassed s t.val) = true) (none : s.fabric.stalled = [])
    (fine : ∀ n ∈ retries.take ((r.offset % 128 / 64 + r.lines + 1) / 2), n ≤ 4) :
    exec (.hamperBurst t c arrivals errors retries) s = .next (burstEnd s t c arrivals errors retries r) := by
  have succeeds : ¬ (burstRepeats r retries).any (fun n => 4 < n) = true := fun fails =>
    let ⟨n, mem, big⟩ := burstRepeats_fail_iff.1 fails
    Nat.not_lt.2 (fine n mem) big
  have quiet : (burstEnd s t c arrivals errors retries r).stalled = [] := by
    have start := State.stalled_congr
      ((burstStart_only s t.val arrivals errors (burstRepeats r retries)).frame .fabric (by decide))
    unfold burstEnd
    rw [burstDone_stalled, State.stalled_congr (State.setChannel_fabric ..), start]
    exact none
  rw [exec_hamperBurst acts next passed]
  dsimp only
  rw [if_neg succeeds, quiet, performStalled]

theorem burstEnd_waiting : ((burstEnd s t c arrivals errors retries r).channel (32 * t.val + c.val)).waiting =
    ((arrivals.foldl (arriveReq t.val) s).channel (32 * t.val + c.val)).waiting.erase r := by
  refine (burstDone_waiting _ t.val r (32 * t.val + c.val)).trans ?_
  rw [State.waiting, State.channel_setChannel_self, burstStart_channel, channelAfter]

theorem burstEnd_start_mem (repeats : List Nat) (k : Nat) (x : Channel) :
    ((burstStart s t.val arrivals errors repeats).setChannel k x).mem = s.mem :=
  (State.setChannel_mem ..).trans ((burstStart_only s t.val arrivals errors repeats).frame .mem (by decide))

/-- The fifth CRC error in a row of a granule's transfer (R215). -/
theorem exec_hamperBurst_fails (acts : active s = true)
    (next : nextRequest ((arrivals.foldl (arriveReq t.val) s).channel (32 * t.val + c.val)) = some r)
    (passed : (runOffsets r.offset r.lines).all (frontPassed s t.val) = true)
    (fails : ∃ n ∈ retries.take ((r.offset % 128 / 64 + r.lines + 1) / 2), 4 < n) :
    let w := burstStart s t.val arrivals errors (burstRepeats r retries)
    exec (.hamperBurst t c arrivals errors retries) s =
      .next (enterSafe w 0x06 (srcSite (siteOf w t.val)) 0 c.val) := by
  rw [exec_hamperBurst acts next passed]
  dsimp only
  rw [if_pos (burstRepeats_fail_iff.2 fails)]

end

theorem enterSafe_mem (s : State) (cause block0 block1 extra : Nat) :
    (enterSafe s cause block0 block1 extra).mem = s.mem :=
  (enterSafe_only (.refl _ s) (.self _)).frame .mem (by decide)

theorem State.reg_withSafe (s : State) (x : Safe) (a : Nat) : ({ s with safe := x } : State).reg a = s.reg a := rfl

theorem enterSafe_cause {s : State} (cause block0 block1 extra : Nat) (out : s.safe.active = false) :
    (enterSafe s cause block0 block1 extra).field 0x10100 8 8 = cause % 256 := by
  unfold enterSafe
  rw [if_neg (by rw [out]; decide)]
  dsimp only
  rw [State.field, post_reg, State.reg_congr (State.emit_regs ..), State.reg_withSafe, State.setReg64,
    State.reg_setReg_other _ _ (by decide), State.reg_setReg_other _ _ (by decide),
    State.reg_setReg_other _ _ (by decide), State.reg_setReg_self, BitVec.toNat_ofNat, bits_mod_word _ (by decide)]
  unfold bits
  have run := Bool.toNat_le (running s)
  rw [Nat.shiftRight_eq_div_pow]
  omega

/-! ### AGED_REQUEST and SCRUB_UNIT (R197, R218) -/

section

variable {s : State} {t : Fin 64} {errors : List (Nat × EccFinding)}

theorem exec_agedRequest {c : Fin 32} {r : HamperReq}
    (oldest : (s.channel (32 * t.val + c.val)).waiting.find? (fun r => reqClass r ≠ 0 && !r.aged) = some r) :
    let k := 32 * t.val + c.val
    exec (.agedRequest t c) s = .next (s.setChannel k { s.channel k with
      waiting := (s.channel k).waiting.map (fun x => if x = r then { r with aged := true } else x) }) := by
  have run : exec (.agedRequest t c) s = execAgedRequest t c s := rfl
  rw [run, execAgedRequest]
  dsimp only
  rw [oldest]

theorem exec_scrubUnit_hamper {c : Fin 32} (acts : active s = true) (rests : hamperZeroes (s.tile t.val).zero = false) :
    ∃ u, exec (.scrubUnit t (.hamper c) errors) s = .next u ∧
      (u.channel (32 * t.val + c.val)).scrub = ((s.channel (32 * t.val + c.val)).scrub + 1) % 147456 := by
  have run : exec (.scrubUnit t (.hamper c) errors) s = execScrubUnit t (.hamper c) errors s := rfl
  rw [run, execScrubUnit]
  simp only [acts, rests, Bool.not_true, Bool.false_eq_true, if_false]
  refine ⟨_, rfl, ?_⟩
  split
  · rw [State.channel_congr (State.count32_channels ..), State.channel_setChannel_self]
  · rw [State.channel_setChannel_self]

theorem exec_scrubUnit_basket {b : Fin 128} (acts : active s = true)
    (rests : basketZeroes (s.tile t.val).zero = false) :
    ∃ u, exec (.scrubUnit t (.basket b) errors) s = .next u ∧
      mget 0 (u.tile t.val).basketScrub b.val = (mget 0 (s.tile t.val).basketScrub b.val + 1) % 12288 := by
  have run : exec (.scrubUnit t (.basket b) errors) s = execScrubUnit t (.basket b) errors s := rfl
  rw [run, execScrubUnit]
  simp only [acts, rests, Bool.not_true, Bool.false_eq_true, if_false]
  refine ⟨_, rfl, ?_⟩
  split
  · rw [State.tile_congr (State.count32_tiles ..), State.modTile, State.tile_setTile_self, mget_mset_self]
  · rw [State.modTile, State.tile_setTile_self, mget_mset_self]

end

/-! ### Zeroing (R211, R212) -/

theorem clearWhere_byte (s : State) (t : Nat) (f : Nat → Bool) (a : Nat) :
    (clearWhere s t f).byte a = if (byteTile a = t && f (byteOff a)) then 0 else s.byte a := mget_mdrop ..

theorem exec_zeroingStep {s : State} {t : Fin 64} (paces : Nat) (zeroes : (s.tile t.val).zero.active = true)
    (good : s.power.pwrgd = true) :
    let z := (s.tile t.val).zero
    ∃ u, exec (.zeroingStep t paces) s = .next u ∧ u.now = max s.now (z.began + 64 * (z.paces + paces)) ∧
      (u.tile t.val).zero.paces = z.paces + paces ∧ (u.tile t.val).zero.hamper = min 147456 (z.hamper + paces) ∧
      (∀ off, inHamper off = true → z.hamper ≤ channelGranule off →
        channelGranule off < min 147456 (z.hamper + paces) → u.byte (tileAddr t.val off) = 0) := by
  intro z
  have run : exec (.zeroingStep t paces) s = execZeroingStep t paces s := rfl
  rw [run, execZeroingStep]
  simp only [zeroes, good, Bool.not_true, Bool.or_self, Bool.false_eq_true, if_false]
  refine ⟨_, rfl, rfl, ?_, ?_, fun off hamper low high => ?_⟩
  · rw [showZero, State.tile_congr (State.setReg_tiles ..), State.modTile, State.tile_setTile_self]
  · rw [showZero, State.tile_congr (State.setReg_tiles ..), State.modTile, State.tile_setTile_self]
  · have below : off < 2 ^ 34 := by
      simp only [inHamper, Bool.and_eq_true, decide_eq_true_eq] at hamper
      omega
    have tile : byteTile (tileAddr t.val off) = t.val := by unfold byteTile tileAddr; omega
    have offset : byteOff (tileAddr t.val off) = off := by unfold byteOff tileAddr; omega
    rw [showZero, State.byte_congr (State.setReg_mem ..), State.byte_congr (State.modTile_mem ..), clearWhere_byte,
      clearWhere_byte, tile, offset, hamperBetween]
    simp only [z, hamper, low, high, decide_true, Bool.true_and, Bool.and_self, ↓reduceIte, BitVec.ofNat_eq_ofNat,
      ite_self]

theorem exec_zeroingFrontPass {s : State} {t : Fin 64} {x : Nat × Packet} (alive : linksAlive s = true)
    (stalls : s.fabric.stalled = [x]) (here : x.1 = t.val)
    (ready : x.2.ty = tySignal ∨ linesReady s t.val (packetLines x.2) = true) :
    exec (.zeroingFrontPass t) s =
      .next (resumePacket { s with fabric := { s.fabric with stalled := [] } } t x.2) := by
  have run : exec (.zeroingFrontPass t) s = execZeroingFrontPass t s := rfl
  have first : s.fabric.stalled.takeWhile (· ≠ x) = [] := by
    simp only [stalls, ne_eq, decide_not, decide_true, Bool.not_true, Bool.false_eq_true, not_false_eq_true,
      List.takeWhile_cons_of_neg]
  have proceeds : packetStalls s t.val [] x.2 = false := by
    rcases ready with signal | lines
    · simp only [packetStalls, List.any_nil, signal, ne_eq, not_true_eq_false, decide_false, Bool.false_and,
        Bool.or_self]
    · simp only [packetStalls, List.any_nil, lines, Bool.not_true, Bool.and_false, Bool.or_self]
  rw [run, execZeroingFrontPass, alive, stalls, performStalled, first, proceeds, here, stalls, List.erase_cons_head]
  simp only [Bool.not_true, Bool.false_eq_true, ↓reduceIte, ne_eq, not_true_eq_false, decide_false, Bool.or_self,
    performStalled]

theorem resumePacket_fits {s : State} {t : Fin 64} {p : Packet}
    (fits : p.ty = tySignal ∨ (packetLines p).all (packetFits s t.val p) = true) :
    resumePacket s t p = performAtTile s t p := if_pos (by rw [Bool.or_eq_true, decide_eq_true_eq]; exact fits)

theorem resumePacket_unfit {s : State} {t : Fin 64} {p : Packet} (request : p.ty ≠ tySignal)
    (unfit : (packetLines p).all (packetFits s t.val p) = false) :
    resumePacket s t p = rejectPacket s (.tile t) p nackAddress :=
  if_neg (by rw [unfit, Bool.or_false, decide_eq_true_eq]; exact request)

/-! ### Registers of the memory (R223, R224, R227) -/

section

variable {s : State} {p : Path} {t : Fin 64}

theorem exec_memFold (gate : ownerGate s p (tilA t.val 0x3004) = true) :
    exec (.memFold p t) s = .next (answer (foldMemory s t.val) .ok) := by
  have run : exec (.memFold p t) s = execMemFold p t s := rfl
  rw [run, execMemFold, ownerWrite_gate gate]

theorem exec_stashHwmClear (gate : ownerGate s p (tilA t.val 0x3010) = true) :
    exec (.stashHwmClear p t) s = .next (answer (s.setReg (tilA t.val 0x3010) 0) .ok) := by
  have run : exec (.stashHwmClear p t) s = execStashHwmClear p t s := rfl
  rw [run, execStashHwmClear, ownerWrite_gate gate]

theorem exec_memErrAddrClear (gate : ownerGate s p (tilA t.val 0x305C) = true) :
    exec (.memErrAddrClear p t) s = .next (answer (clearErrAddr s t.val) .ok) := by
  have run : exec (.memErrAddrClear p t) s = execMemErrAddrClear p t s := rfl
  rw [run, execMemErrAddrClear, ownerWrite_gate gate]

end

/-! ### The statement about the hampers -/

/-- Settles O16: a burst by whether its transfers succeed and by the kind of its request, and each other command by what
it does. -/
theorem hamperMemory : Obligations.HamperMemory := by
  unfold Obligations.HamperMemory
  refine ⟨?burst, ?aged, ?scrub, fun s t paces => exec_zeroingStep paces, ?front, ?fold, ?clear⟩
  case burst =>
    intro s t c arrivals errors retries r k v acts next none hamper passed _ tries
    refine ⟨fun fine => ⟨_, exec_hamperBurst_done errors acts next passed none fine, burstEnd_waiting errors,
      fun h reads => ?_, fun d writes j inRun inData => burstDone_write_line writes hamper inRun inData,
      fun a out => ?_⟩, fun fails out => ⟨_, exec_hamperBurst_fails errors acts next passed fails, ?_,
        enterSafe_active .., ?_⟩⟩
    · exact (burstDone_read_mem reads).trans (burstEnd_start_mem ..)
    · exact (burstDone_byte_outside out).trans (State.byte_congr (burstEnd_start_mem ..) a)
    · exact (enterSafe_mem ..).trans ((burstStart_only s t.val arrivals errors _).frame .mem (by decide))
    · have safe := (burstStart_only s t.val arrivals errors (burstRepeats r retries)).frame .safe (by decide)
      exact enterSafe_cause 0x06 _ _ _ ((congrArg Safe.active safe).trans out)
  case aged => exact fun s t c r => exec_agedRequest
  case scrub =>
    exact fun s t errors acts => ⟨fun c => exec_scrubUnit_hamper acts, fun b => exec_scrubUnit_basket acts⟩
  case front =>
    intro s t x alive stalls here ready
    rw [exec_zeroingFrontPass alive stalls here ready]
    exact ⟨fun fits => congrArg Host.Outcome.next (resumePacket_fits fits),
      fun request unfit => congrArg Host.Outcome.next (resumePacket_unfit request unfit)⟩
  case fold => exact fun s p t => exec_memFold
  case clear => exact fun s p t => ⟨exec_stashHwmClear, exec_memErrAddrClear⟩

/-! ### Requests at an endpoint (R324, R326) -/

section

variable {s u : State} {ep : Endpoint} {ty : Nat} {p : Packet}

/-- The commands that bring a request, with the type that each takes. -/
theorem exec_request {c : Instr} (mem : (c, ty) ∈ [(Instr.writePacket ep, tyWrite), (.writeAccPacket ep, tyWriteAcc),
    (.readReq ep, tyReadReq), (.signal ep, tySignal)]) : exec c s = .next (requestStep s ep ty) := by
  simp only [List.mem_cons, Prod.mk.injEq, List.not_mem_nil, or_false] at mem
  rcases mem with ⟨rfl, rfl⟩ | ⟨rfl, rfl⟩ | ⟨rfl, rfl⟩ | ⟨rfl, rfl⟩ <;> rfl

theorem taken_eq_some_iff : taken s ep ty = some (p, u) ↔
    linksAlive s = true ∧ ∃ k, takeNext s ep ty = some k ∧ takeIn s k = (p, u) := by
  unfold taken
  cases linksAlive s with
  | false => simp only [Bool.false_eq_true, ↓reduceIte, reduceCtorEq, false_and]
  | true => simp only [↓reduceIte, Option.map_eq_some_iff, true_and]

theorem endpointStep_taken {act : State → Packet → State} (notGuest : ∀ n, ep ≠ .guest n)
    (took : taken s ep ty = some (p, u)) : endpointStep s ep ty act = act u p := by
  obtain ⟨alive, k, next, takes⟩ := taken_eq_some_iff.1 took
  unfold endpointStep
  rw [alive, next]
  cases ep with
  | guest n => exact absurd rfl (notGuest n)
  | tile t => simp only [Bool.not_true, Bool.false_eq_true, ↓reduceIte, takes]
  | bridge h => simp only [Bool.not_true, Bool.false_eq_true, ↓reduceIte, takes]

theorem requestStep_tile {t : Fin 64} (took : taken s (.tile t) ty = some (p, u)) :
    requestStep s (.tile t) ty = tileRequest t u p := endpointStep_taken (fun _ => Endpoint.noConfusion) took

theorem requestStep_bridge {h : Fin 2} (took : taken s (.bridge h) ty = some (p, u)) :
    requestStep s (.bridge h) ty = bridgeRequest h u p := endpointStep_taken (fun _ => Endpoint.noConfusion) took

theorem requestStep_guest {n : Fin 4} {k : Copy} (alive : linksAlive s = true)
    (next : takeNext s (.guest n) ty = some k) :
    requestStep s (.guest n) ty = (leave s k).2.emit (.guestPacket n (leave s k).1) := by
  rw [requestStep, endpointStep, alive, next]
  rfl

theorem leave_ty (s : State) (k : Copy) : (leave s k).1.ty = k.held.pkt.ty := by
  unfold leave Copy.pkt
  dsimp only
  repeat' split
  all_goals rfl

theorem taken_ty (took : taken s ep ty = some (p, u)) : p.ty = ty := by
  obtain ⟨_, k, next, takes⟩ := taken_eq_some_iff.1 took
  have kind : k.held.pkt.ty = ty :=
    of_decide_eq_true (List.find?_some (p := fun c : Copy => decide (c.held.pkt.ty = ty)) next)
  rw [← kind, ← leave_ty s k]
  exact congrArg (fun x : Packet × State => x.1.ty) takes.symm

end

section

variable {s : State} {t : Fin 64} {h : Fin 2} {p : Packet}

theorem tileRequest_reject {r : Nat} (v : tileVerdict s t p = .reject r) :
    tileRequest t s p = rejectPacket s (.tile t) p r := by rw [tileRequest, v]

theorem tileRequest_stale (v : tileVerdict s t p = .stale) :
    tileRequest t s p = s.count32 (tilA t.val 0x6078) 1 := by rw [tileRequest, v]

theorem tileRequest_guest {n : Nat} (v : tileVerdict s t p = .guest n) :
    tileRequest t s p = s.emit (.guestPacket (Fin.ofNat 4 n) p) := by rw [tileRequest, v]

theorem tileRequest_accept (v : tileVerdict s t p = .accept) : tileRequest t s p =
    if packetStalls s t.val s.fabric.stalled p then
      { s with fabric := { s.fabric with stalled := s.fabric.stalled ++ [(t.val, p)] } }
    else performAtTile s t p := by rw [tileRequest, v]

theorem bridgeRequest_reject {r : Nat} (v : bridgeVerdict s h p = .reject r) :
    bridgeRequest h s p = rejectPacket s (.bridge h) p r := by rw [bridgeRequest, v]

theorem bridgeRequest_stale (v : bridgeVerdict s h p = .stale) :
    bridgeRequest h s p = s.count32 (tilA (countTile s (.bridge h)) 0x6078) 1 := by rw [bridgeRequest, v]

/-- A WRITE to the staging range (R448). -/
theorem bridgeRequest_write (v : bridgeVerdict s h p = .accept) (write : p.ty = tyWrite) : bridgeRequest h s p =
    sendAnswer { s with staging := (((packetLines p).zip p.payload).foldl
        (fun m x => writeNat m 64 (2 ^ 26 * h.val + x.1) x.2.toNat) s.staging) }
      (.bridge h) (answerTo s (.bridge h) p.vc p tyAck (ackAux p)) := by
  rw [bridgeRequest, v]
  exact if_pos write

/-- A READ_REQ of the staging range (R448). -/
theorem bridgeRequest_read (v : bridgeVerdict s h p = .accept) (read : p.ty = tyReadReq) : bridgeRequest h s p =
    sendResponses s (.bridge h) p
      ((packetLines p).map (fun o => some (BitVec.ofNat 512 (readNat s.staging 64 (2 ^ 26 * h.val + o))))) := by
  rw [bridgeRequest, v]
  exact if_neg (by rw [read]; decide)

end

/-! ### What a performed request changes (R179, R270, R324) -/

section

variable {s : State} {t : Fin 64} {p : Packet}

theorem carriedWrites_plain (plain : p.coll = false) (ls : List (Nat × Line)) : carriedWrites s t.val p ls = ls := by
  rw [carriedWrites, plain]

theorem packetLines_of_ne_readReq (other : p.ty ≠ tyReadReq) :
    packetLines p = runOffsets (p.addr % 2 ^ 34) p.payload.length := by
  rw [packetLines, if_neg other, runOffsets]

theorem sendAnswer_mem (s : State) (ep : Endpoint) (q : Packet) : (sendAnswer s ep q).mem = s.mem :=
  (sendAnswer_only (.refl _ s) (.self _)).frame .mem (by decide)

theorem sendAnswer_tallies (s : State) (ep : Endpoint) (q : Packet) : (sendAnswer s ep q).tallies = s.tallies :=
  (sendAnswer_only (.refl _ s) (.self _)).frame .tallies (by decide)

theorem sendResponses_mem (s : State) (ep : Endpoint) (q : Packet) (ls : List (Option Line)) :
    (sendResponses s ep q ls).mem = s.mem :=
  (sendResponses_only (.refl _ s) (.self _)).frame .mem (by decide)

theorem collArrived_mem (s : State) (t : Nat) (q : Packet) (ls : List (Nat × Line)) :
    (collArrived s t q ls).mem = s.mem :=
  (collArrived_only (.refl _ s) (.self _)).frame .mem (by decide)

theorem State.tally_congr {s u : State} (h : u.tallies = s.tallies) (k : Nat) : u.tally k = s.tally k := by
  unfold State.tally; rw [h]

/-- A WRITE changes bytes through the lines that it writes alone: neither its answer nor the collective that it tells
of it does. -/
theorem performAtTile_write_byte (write : p.ty = tyWrite) (plain : p.coll = false) {a : Nat}
    (out : a < tileAddr t.val (p.addr % 2 ^ 34) ∨ tileAddr t.val (p.addr % 2 ^ 34 + 64 * p.payload.length) ≤ a) :
    (performAtTile s t p).byte a = s.byte a := by
  have outside : Outside t.val (packetLines p) a := by
    rw [packetLines_of_ne_readReq (by rw [write]; decide)]
    exact outside_runOffsets out
  unfold performAtTile
  dsimp only
  rw [if_pos write, carriedWrites_plain plain, State.byte_congr (collArrived_mem ..), apply_ite (State.byte · a),
    State.byte_congr (sendAnswer_mem ..), ite_self, writeLines_byte_outside (outside.zip _),
    State.byte_congr (State.count64_mem ..), State.byte_congr (State.count64_mem ..)]

theorem performAtTile_read_mem (read : p.ty = tyReadReq) : (performAtTile s t p).mem = s.mem := by
  unfold performAtTile
  dsimp only
  rw [if_neg (by rw [read]; decide), if_neg (by rw [read]; decide), if_neg (by rw [read]; decide), sendResponses_mem,
    readLines_mem, State.count64_mem]

/-- A SIGNAL is a raised tally and an acknowledgement (R270). -/
theorem performAtTile_signal (signal : p.ty = tySignal) : performAtTile s t p =
    let u := s.count64 (tilA t.val 0x6048) 1
    let k := 2048 * t.val + p.addr % 2048
    sendAnswer (u.setTally k (u.tally k + p.aux)) (.tile t) (answerTo s (.tile t) p.vc p tyAck (ackAux p)) := by
  unfold performAtTile
  dsimp only
  rw [if_neg (by rw [signal]; decide), if_neg (by rw [signal]; decide), if_pos signal]

theorem performAtTile_signal_mem (signal : p.ty = tySignal) : (performAtTile s t p).mem = s.mem := by
  rw [performAtTile_signal signal]
  dsimp only
  rw [sendAnswer_mem, State.setTally_mem, State.count64_mem]

theorem performAtTile_signal_tally (signal : p.ty = tySignal) :
    (performAtTile s t p).tally (2048 * t.val + p.addr % 2048) =
      (s.tally (2048 * t.val + p.addr % 2048) + p.aux) % 2 ^ 31 := by
  rw [performAtTile_signal signal]
  dsimp only
  rw [State.tally_congr (sendAnswer_tallies ..), State.tally_setTally, if_pos rfl,
    State.tally_congr (State.count64_tallies ..)]

end

/-- Settles O18: the commands by the endpoint and by what its checks find, and what a performed request changes by its
type. -/
theorem requestPackets : Obligations.RequestPackets := by
  unfold Obligations.RequestPackets
  refine ⟨fun s u ep p c ty mem => ?commands, fun s t p =>
    ⟨fun write plain _ a => performAtTile_write_byte write plain, performAtTile_read_mem, fun signal =>
      ⟨performAtTile_signal_mem signal, performAtTile_signal_tally signal⟩⟩⟩
  case commands =>
    rw [exec_request mem]
    refine ⟨?performed, ?stalled, ?window, ?rejected, ?stale, ?bridge, ?guest⟩
    case performed =>
      rintro t rfl took v flows
      rw [requestStep_tile took, tileRequest_accept v, if_neg (by rw [flows]; decide)]
    case stalled =>
      rintro t rfl took v stalls
      rw [requestStep_tile took, tileRequest_accept v, if_pos stalls]
    case window =>
      rintro t n rfl took v
      rw [requestStep_tile took, tileRequest_guest v]
    case rejected =>
      rintro r took (⟨t, rfl, v⟩ | ⟨h, rfl, v⟩)
      · rw [requestStep_tile took, tileRequest_reject v]
      · rw [requestStep_bridge took, bridgeRequest_reject v]
    case stale =>
      rintro took (⟨t, rfl, v⟩ | ⟨h, rfl, v⟩)
      · rw [requestStep_tile took, tileRequest_stale v]; rfl
      · rw [requestStep_bridge took, bridgeRequest_stale v]
    case bridge =>
      rintro h rfl took v
      rw [requestStep_bridge took]
      refine ⟨fun write => ?_, fun read => ?_⟩
      · rw [bridgeRequest_write v ((taken_ty took).trans write)]
      · rw [bridgeRequest_read v ((taken_ty took).trans read)]
    case guest =>
      rintro n k rfl alive next
      rw [requestStep_guest alive next]

end Sys2Proof.Machine

/-! Proofs of the obligations of spec/06_data_movement.md: the chunks of the movers and the exchange network. -/

namespace Sys2Proof.Machine

open Sys2Proof

/-! ### MOVE_CHUNK (R242, R280) -/

section

variable {s u : State} {t : Fin 64} {m : Fin 4} {j : MoveJob} {got : List (Option Line)}
  (holds : s.mover (4 * t.val + m.val) = some j) (acts : active s = true) (chunksLeft : jobOpen j = true)
include holds acts chunksLeft

/-- A block that has still to pass the exchange network is only asked for (R245). -/
theorem exec_moveChunk_block (block : mvXchg j.line = true) (outside : j.inside = false) :
    exec (.moveChunk t m) s = .next (askChunk s t.val (4 * t.val + m.val) j (jobPlan j)) := by
  have run : exec (.moveChunk t m) s = execMoveChunk t m s := rfl
  simp [run, execMoveChunk, holds, acts, chunksLeft, block, outside]

variable (passed : mvXchg j.line = true → j.inside = true) (writable : chunkWritable s t.val j (jobPlan j) = true)
include passed writable

theorem exec_moveChunk_missing (missing : chunkLines s t.val j (jobPlan j) = none) :
    exec (.moveChunk t m) s = .next (askChunk s t.val (4 * t.val + m.val) j (jobPlan j)) := by
  have run : exec (.moveChunk t m) s = execMoveChunk t m s := rfl
  have through : (mvXchg j.line && !j.inside) = false := by simpa using passed
  simp [run, execMoveChunk, holds, acts, chunksLeft, through, writable, missing]

/-- With its lines in hand a chunk is written if every one of them could be read, and else its command is aborted. -/
theorem exec_moveChunk_inHand (inHand : chunkLines s t.val j (jobPlan j) = some (got, u)) :
    exec (.moveChunk t m) s = if got.all (·.isSome)
      then .next (writeChunk u t.val (4 * t.val + m.val) j (jobPlan j) got)
      else .next (abortCommand u j.queue j.idx (sourceFault u t.val j)) := by
  have run : exec (.moveChunk t m) s = execMoveChunk t m s := rfl
  have through : (mvXchg j.line && !j.inside) = false := by simpa using passed
  simp only [run, execMoveChunk, holds, acts, chunksLeft, through, writable, inHand, Bool.not_true, Bool.or_self,
    Bool.false_eq_true, if_false]

end

/-! ### EXCHANGE_BLOCK (R245, R248) -/

theorem State.mover_congr {s u : State} (h : u.movers = s.movers) (i : Nat) : u.mover i = s.mover i := by
  unfold State.mover; rw [h]

/-- The exchange network has served mover `m` of tile `t` last (R248). -/
def moverServed (s : State) (t m : Nat) : State := s.modTile t (fun x => { x with lastMover := m })

/-- The state once the exchange network has taken the block of job `j`, whose source lines are `got`, from mover `m` of
tile `t` (R245). -/
def blockTaken (s : State) (t m : Nat) (j : MoveJob) (got : List (Option Line)) : State :=
  let read := ((List.range got.length).zip got).foldl (fun r p => mset none r p.1 p.2) []
  ((moverServed s t m).setMover (4 * t + m) (some { j with inside := true, read })).count64 (tilA t 0x4078) 1

section

variable (s : State) (t m : Nat) (j : MoveJob) (got : List (Option Line))

theorem moverServed_lastMover : ((moverServed s t m).tile t).lastMover = m := by
  rw [moverServed, State.modTile, State.tile_setTile_self]

theorem blockTaken_lastMover : ((blockTaken s t m j got).tile t).lastMover = m := by
  rw [blockTaken, State.tile_congr (State.count64_tiles ..), State.tile_congr (State.setMover_tiles ..),
    moverServed_lastMover]

theorem blockTaken_mover : ∃ read, (blockTaken s t m j got).mover (4 * t + m) = some { j with inside := true, read } :=
  ⟨_, by rw [blockTaken, State.mover_congr (State.count64_movers ..), State.mover_setMover_self]⟩

theorem blockTaken_mem : (blockTaken s t m j got).mem = s.mem := by
  rw [blockTaken, State.count64_mem, State.setMover_mem, moverServed, State.modTile_mem]

end

/-- The block of the mover whose turn it is enters the network if every one of its lines could be read, and else its
command is aborted; either way that mover is the one served last. -/
theorem exec_exchangeBlock {s u : State} {t : Fin 64} {m : Nat} {j : MoveJob} {got : List (Option Line)}
    (acts : active s = true)
    (turn : ((List.range 4).map (fun i => ((s.tile t.val).lastMover + 1 + i) % 4)).find? (blockReady s t.val) = some m)
    (holds : s.mover (4 * t.val + m) = some j) (inHand : chunkLines s t.val j (jobPlan j) = some (got, u)) :
    exec (.exchangeBlock t) s = if got.all (·.isSome)
      then .next (blockTaken u t.val m j got)
      else .next (abortCommand (moverServed u t.val m) j.queue j.idx (sourceFault (moverServed u t.val m) t.val j)) := by
  have run : exec (.exchangeBlock t) s = execExchangeBlock t s := rfl
  simp only [run, execExchangeBlock, acts, turn, holds, inHand, Bool.not_true, Bool.false_eq_true, if_false]
  rfl

/-- Settles O17: a mover's next chunk by whether it is a block still to pass the network, whether its lines are in hand
and whether they could be read, and the network's block by whether its lines could be read. -/
theorem moves : Obligations.Moves := by
  unfold Obligations.Moves
  refine ⟨?chunk, ?block⟩
  case chunk =>
    intro s u t m j holds acts chunksLeft
    refine ⟨exec_moveChunk_block holds acts chunksLeft, fun passed writable =>
      ⟨exec_moveChunk_missing holds acts chunksLeft passed writable, fun got inHand => ?_⟩⟩
    rw [exec_moveChunk_inHand holds acts chunksLeft passed writable inHand]
    exact ⟨fun readable => if_pos readable, fun unreadable => if_neg (by rw [unreadable]; decide)⟩
  case block =>
    intro s u t m j got acts turn holds inHand
    rw [exec_exchangeBlock acts turn holds inHand]
    refine ⟨fun readable => ?_, fun unreadable => if_neg (by rw [unreadable]; decide)⟩
    obtain ⟨read, taken⟩ := blockTaken_mover u t.val m j got
    exact ⟨_, if_pos readable, blockTaken_lastMover .., by rw [taken]; rfl, by rw [taken]; rfl, blockTaken_mem ..⟩

end Sys2Proof.Machine

/-! Proofs of the obligations of spec/07_command_streams.md: the issue of a command, what the commands of the control
path and of the units do as they issue, and the calls of the guide cores. -/

namespace Sys2Proof.Machine

open Sys2Proof

/-! ### A queue that moves on (R266, R267) -/

theorem State.queue_congr {s u : State} (h : u.queues = s.queues) (g : Nat) : u.queue g = s.queue g := by
  unfold State.queue; rw [h]

/-- Of a queue only the record of its stall changes when the command at its issue point does (R300). -/
theorem restand_eq (s : State) (q : Queue) (fresh : Bool) :
    ∃ stallFrom stall, restand s q fresh = { q with stallFrom, stall } := by
  unfold restand
  split
  · split
    · exact ⟨_, _, rfl⟩
    · exact ⟨_, _, rfl⟩
  · exact ⟨_, _, rfl⟩

section

variable (u : State) (c : Cmd) (new : List Inflight)

theorem passIssue_queue : ∃ stallFrom stall, (passIssue u c new).queue c.g =
    { u.queue c.g with inflight := (u.queue c.g).inflight ++ new, cmd := c.idx + 1, stallFrom, stall,
                       fetched := mset none (u.queue c.g).fetched c.idx.toNat none } := by
  rw [passIssue, State.queue_congr (State.count64_queues ..), State.queue_setQueue_self]
  exact restand_eq ..

theorem passIssue_inflight : ((passIssue u c new).queue c.g).inflight = (u.queue c.g).inflight ++ new := by
  obtain ⟨stallFrom, stall, queue⟩ := passIssue_queue u c new
  rw [queue]

theorem passIssue_advances {s : State} (same : u.queue c.g = s.queue c.g) (front : c.idx = (s.queue c.g).cmd) :
    Advances s (passIssue u c new) c.g new := by
  obtain ⟨stallFrom, stall, queue⟩ := passIssue_queue u c new
  rw [Advances, queue, same, front]
  exact ⟨rfl, rfl, rfl, rfl⟩

theorem passIssue_vec (t : Nat) : ((passIssue u c new).tile t).vec = (u.tile t).vec := by
  rw [passIssue, State.tile_congr (State.count64_tiles ..), State.tile_congr (State.setQueue_tiles ..), State.modTile,
    State.tile_setTile]
  split
  · next same => rw [← same]
  · rfl

theorem passIssue_engine (i : Nat) : (passIssue u c new).engine i = u.engine i :=
  State.engine_congr ((passIssue_only (.refl _ u) (.self _)).frame .engines (by decide)) i

theorem passIssue_mover (i : Nat) : (passIssue u c new).mover i = u.mover i :=
  State.mover_congr ((passIssue_only (.refl _ u) (.self _)).frame .movers (by decide)) i

end

theorem signalFor_queue (s : State) (g k : Nat) (l : Line) : (signalFor s g l).queue k = s.queue k :=
  State.queue_congr ((signalFor_only (.refl _ s) (.self _)).frame .queues (by decide)) k

/-- Settles O5: the queue after the issue, which a signal leaves alone. -/
theorem issueAdvances : Obligations.IssueAdvances := by
  unfold Obligations.IssueAdvances
  intro s u g f new same
  have moved : Advances s (passIssue u (commandAt s g f) new) g new :=
    passIssue_advances u (commandAt s g f) new same rfl
  refine ⟨moved, ?_⟩
  rw [Advances, signalFor_queue]
  exact moved

/-! ### The command at the issue point (R266) -/

section

variable {s u : State} {g : Nat} {f : Fetched} {ok : Nat → Bool} {effect : Cmd → State → Issued}

/-- A queue that has a command for a unit has one all the more when the unit takes whatever comes. -/
theorem contends_any {unit k : Nat} (h : contends s ok effect unit k = true) :
    contends s (fun _ => true) (fun _ s => .ready s) unit k = true := by
  unfold contends at h ⊢
  rw [Bool.and_eq_true] at h ⊢
  obtain ⟨stands, command⟩ := h
  refine ⟨stands, ?_⟩
  split at command
  · rw [Bool.and_eq_true] at command
    rw [command.1]
    rfl
  · exact absurd command Bool.false_ne_true

theorem outranked_any {l : Line} (h : outranked s g ok effect l = true) :
    outranked s g (fun _ => true) (fun _ s => .ready s) l = true := by
  unfold outranked at h ⊢
  obtain ⟨p, mem, before⟩ := List.any_eq_true.1 h
  rw [Bool.and_eq_true] at before
  exact List.any_eq_true.2 ⟨p, mem, by rw [before.1, contends_any before.2]; rfl⟩

theorem Issues.mayIssue (h : Issues s g f) : mayIssue s g f.line = true := by
  obtain ⟨-, -, -, wait, alone, fence, -, gate, -⟩ := h
  unfold Machine.mayIssue
  simp only [Bool.and_eq_true, Bool.not_eq_true', Bool.and_eq_false_imp, Bool.not_eq_false', Bool.or_eq_true,
    decide_eq_true_eq]
  refine ⟨⟨⟨wait, fun h => ?_⟩, fence⟩, fun h => (gate h).1⟩
  rw [alone h]
  rfl

variable (h : Issues s g f) (takes : ok (hdrOpcode f.line) = true)
include h takes

/-- A command that passes steps 1 to 6 of R266 comes to what its unit makes of it. -/
theorem issue_eq_afterIssue :
    issue s g ok effect = afterIssue s (commandAt s g f) (effect (commandAt s g f) s) := by
  have first : outranked s g ok effect f.line = false := by
    rw [← Bool.not_eq_true]
    exact fun outranks => absurd (outranked_any outranks) (by rw [h.first]; decide)
  have ungated : (hdrGate f.line && (s.tile (g / 256)).gateFail) = false :=
    Bool.and_eq_false_imp.2 fun e => (h.gate e).2
  unfold issue
  simp only [h.acts, h.stands, h.line, takes, h.mayIssue, h.task, ungated, first, Bool.not_true, Bool.or_self,
    Bool.false_eq_true, if_false]
  rfl

theorem issue_done (does : effect (commandAt s g f) s = .done u) :
    issue s g ok effect = signalFor (passIssue u (commandAt s g f) []) g f.line := by
  rw [issue_eq_afterIssue h takes, does]; rfl

theorem issue_ready (does : effect (commandAt s g f) s = .ready u) : issue s g ok effect =
    passIssue u (commandAt s g f)
      [{ idx := (s.queue g).cmd, line := f.line, task := taskOf (s.queue g) f.line, ready := true }] := by
  rw [issue_eq_afterIssue h takes, does]; rfl

theorem issue_run (does : effect (commandAt s g f) s = .run u) : issue s g ok effect =
    passIssue u (commandAt s g f) [{ idx := (s.queue g).cmd, line := f.line, task := taskOf (s.queue g) f.line }] := by
  rw [issue_eq_afterIssue h takes, does]; rfl

theorem issue_fail {e : CmdError} (does : effect (commandAt s g f) s = .fail e u) :
    issue s g ok effect = failAtIssue u g e := by
  rw [issue_eq_afterIssue h takes, does]; rfl

end

/-! ### Commands of the control path (R269, R276, R278, R298, R304) -/

/-- Settles O6: what each command comes to at its issue, by the cases of its definition. -/
theorem controlCommands : Obligations.ControlCommands := by
  unfold Obligations.ControlCommands
  refine ⟨?nop, ?tallySet, ?seed, ?table, ?taskBegin, ?taskEnd, ?guideCall, ?reserved⟩
  case nop => exact fun s g f h op => congrArg Host.Outcome.next (issue_done h (decide_eq_true op) rfl)
  case tallySet => exact fun s g f h op => congrArg Host.Outcome.next (issue_done h (decide_eq_true op) rfl)
  case seed => exact fun s g f h op one => congrArg Host.Outcome.next (issue_done h (decide_eq_true op) (if_pos one))
  case table =>
    intro s u g f a b h op all
    dsimp only
    intro low high ready read
    refine congrArg Host.Outcome.next (issue_done h (decide_eq_true op) ?_)
    have both : ¬lineField f.line 0x10 4 1 = 0 := by rw [all]; decide
    simp only [commandAt, both, low, high, ready, read, Bool.and_self, Bool.not_true, Bool.false_eq_true, if_false]
  case taskBegin =>
    exact fun s g f h op =>
      ⟨fun named => congrArg Host.Outcome.next (issue_done h (decide_eq_true op) (if_neg named)),
       fun unnamed => congrArg Host.Outcome.next (issue_fail h (decide_eq_true op) (if_pos unnamed))⟩
  case taskEnd => exact fun s g f h op => congrArg Host.Outcome.next (issue_ready h (decide_eq_true op) rfl)
  case guideCall => exact fun s g f h op => congrArg Host.Outcome.next (issue_run h (decide_eq_true op) rfl)
  case reserved =>
    exact fun s g f h op => congrArg Host.Outcome.next (issue_fail h (by simpa using op) rfl)

/-! ### PHASE_FENCE (R287 to R289) -/

section

variable {c : Cmd} {s : State}

/-- The fields of a fence agree: its scope is defined, a MAP fence is of the widest scope, and only a scope beyond the
tile votes (R287). -/
def fenceAgrees (l : Line) : Prop :=
  pfScope l ≠ 3 ∧ (pfMap l = true → pfScope l = 2) ∧ (pfVote l = true → pfScope l ≠ 0)

theorem fenceAgrees_iff (l : Line) : fenceAgrees l ↔
    ¬(pfScope l = 3 || (pfMap l && pfScope l ≠ 2) || (pfVote l && pfScope l = 0)) = true := by
  simp [fenceAgrees, and_assoc]

theorem issueFence_encoding (clash : ¬fenceAgrees c.line) : issueFence c s = .fail { err := .encoding } s :=
  if_pos (Decidable.not_not.1 (mt (fenceAgrees_iff _).2 clash))

variable (agrees : fenceAgrees c.line)
include agrees

theorem issueFence_open (fence : (s.tile c.t).fence.isSome = true) :
    issueFence c s = .fail { err := .fence } s :=
  (if_neg ((fenceAgrees_iff _).1 agrees)).trans (if_pos fence)

variable (closed : (s.tile c.t).fence = none)
include closed

theorem issueFence_tile (scope : pfScope c.line = 0) :
    issueFence c s = .done (tileFence s c.t (pfNext c.line) (pfSeq c.line)) :=
  (if_neg ((fenceAgrees_iff _).1 agrees)).trans ((if_neg (by rw [closed]; decide)).trans (if_pos scope))

theorem issueFence_wide (scope : pfScope c.line ≠ 0) : issueFence c s = .ready (arriveFence c s) :=
  (if_neg ((fenceAgrees_iff _).1 agrees)).trans ((if_neg (by rw [closed]; decide)).trans (if_neg scope))

end

/-! ### VECTOR (R293 to R297) -/

theorem issueVector_run {c : Cmd} {s u : State} {p : VecPlan} (room : (s.tile c.t).vec.length < 2)
    (named : linesReady s c.t (((vecSlots s c.t c.line).map (64 * ·)).filter (inScratch s c.t)) = true)
    (checked : vecCheck c s = (.ok p, u)) (ready : vecReady s c.t p = true) :
    ∃ (v : State) (j : VecJob),
      issueVector c s = .run (v.modTile c.t (fun x => { x with vec := x.vec ++ [j] })) ∧ v.queues = s.queues ∧
      v.tiles = s.tiles ∧ j.queue = c.g ∧ j.line = c.line ∧ j.idx = c.idx ∧ j.next = 0 := by
  have only : Only 787528 s u := (vecCheck_only (.refl _ s) (.self _)).of_eq checked
  unfold issueVector
  simp only [Nat.not_le.2 room, named, checked, ready, Bool.not_true, Bool.false_eq_true, if_false]
  refine ⟨_, _, rfl, ?_, ?_, rfl, rfl, rfl, rfl⟩
  · rw [apply_ite State.queues, State.count32_queues, ite_self]
    exact only.frame .queues (by decide)
  · rw [apply_ite State.tiles, State.count32_tiles, ite_self]
    exact only.frame .tiles (by decide)

/-- Once the command has joined the vector unit, the unit does the chunks that are asked for. -/
theorem exec_vector_joined {s t : State} {v : VectorIssue} {j : VecJob}
    (issued : issue s v.queue.val (· = 0x10) issueVector = t)
    (joined : (t.tile (v.queue.val / 256)).vec = (s.tile (v.queue.val / 256)).vec ++ [j]) :
    exec (.vector v) s = .next (vecAdvance (v.queue.val / 256) v.chunks t) := by
  have run : exec (.vector v) s = execVector v s := rfl
  rw [run, execVector]
  rw [issued, if_neg (by rw [joined, List.length_append]; exact Nat.succ_ne_self _)]

/-! ### MATRIX_PASS (R118, R133) -/

theorem eq_ok_of_toBool {ε : Type} {x : Except ε Unit × State} (passes : x.1.toBool = true) :
    ∃ u, x = (.ok (), u) := by
  obtain ⟨r, u⟩ := x
  cases r with
  | error e => exact absurd passes Bool.false_ne_true
  | ok => exact ⟨u, rfl⟩

theorem issuePass_run {c : Cmd} {s : State} :
    let i := 4 * c.t + mpEngine c.line
    let ext := drainExtent (s.engine i) (s.bank (bankNo i (lineField c.line 0x10 4 1))) c.line
    let keepRows := passRetains s c.t c.line && ext.1.isSome
    engineAccepts (s.engine i) = true →
    linesReady s c.t (((passSlots c.line ext.1.isSome keepRows).map (64 * ·)).filter (inScratch s c.t)) = true →
    (passCheck c (s.engine i) ext keepRows s).1.toBool = true →
    ∃ v, issuePass c s = .run v ∧ v.queues = s.queues ∧ passKeys v i = passKeys s i ++ [(c.g, c.idx)] := by
  intro i ext keepRows accepts named passes
  obtain ⟨u, checked⟩ := eq_ok_of_toBool passes
  have only : Only 787528 s u := (passCheck_only (.refl _ s) (.self _)).of_eq checked
  have kept (n : Nat) (r : Option Nat) : (refsGood u c n r).2.queues = s.queues :=
    (refsGood_only only (.self _)).only.frame .queues (by decide)
  unfold issuePass
  simp only [i, ext, keepRows] at accepts named checked
  simp only [accepts, named, checked, Bool.not_true, Bool.false_eq_true, if_false]
  refine ⟨_, rfl, ?_, ?_⟩
  · rw [admitReady_queues, State.setEngine_queues, apply_ite State.queues, State.count32_queues, ite_self, kept]
  · rw [admitReady_passKeys, passKeys, State.engine_setEngine_self, List.map_append]
    rfl

/-! ### MOVE and TRANSPOSE (R241, R242, R247) -/

theorem issueMove_run {c : Cmd} {s u v : State} {src dst : Desc} (free : s.mover (4 * c.t + mvMover c.line) = none)
    (vc : mvVc c.line < 4) (unit : mvXchg c.line = true → mvUnit c.line < 6)
    (ready : linesReady s c.t [64 * mvSrcSlot c.line, 64 * mvDstSlot c.line] = true)
    (srcIn : inScratch s c.t (64 * mvSrcSlot c.line) = true) (dstIn : inScratch s c.t (64 * mvDstSlot c.line) = true)
    (readSrc : readDesc s c.t c.copies 0 (mvSrcSlot c.line) = (.ok src, u))
    (readDst : readDesc u c.t c.copies 1 (mvDstSlot c.line) = (.ok dst, v))
    (sound : moveError v c.t c.line src dst = none) :
    ∃ j : MoveJob, issueMove c s = .run (v.setMover (4 * c.t + mvMover c.line) (some j)) ∧
      (j.queue, j.idx, j.line, j.next) = (c.g, c.idx, c.line, 0) := by
  have fields : (decide (4 ≤ mvVc c.line) || (mvXchg c.line && decide (6 ≤ mvUnit c.line))) = false := by
    simpa [vc] using unit
  unfold issueMove
  simp only [free, fields, srcIn, dstIn, ready, readSrc, readDst, sound, Option.isSome_none, Bool.not_true,
    Bool.false_eq_true, if_false]
  exact ⟨_, rfl, rfl⟩

theorem passIssue_moved {c : Cmd} {v : State} {j : MoveJob} (m : Nat) (new : List Inflight)
    (of : (j.queue, j.idx, j.line, j.next) = (c.g, c.idx, c.line, 0)) :
    ((passIssue (v.setMover m (some j)) c new).mover m).map (fun j => (j.queue, j.idx, j.line, j.next)) =
        some (c.g, c.idx, c.line, 0) ∧
      ((passIssue (v.setMover m (some j)) c new).queue c.g).inflight = (v.queue c.g).inflight ++ new := by
  refine ⟨?_, ?_⟩
  · rw [passIssue_mover, State.mover_setMover_self]
    exact congrArg some of
  · rw [passIssue_inflight, State.queue_congr (State.setMover_queues ..)]

/-! ### COLLECTIVE (R357 to R359) -/

section

variable {c : Cmd} {s u : State} {ds : List (Nat × Desc)} (room : (s.coll c.t).next = none)
  (fields : collFieldError s c.t c.line = false)
  (named : linesReady s c.t (((collNeeds s c.t c.line).map (fun x => 64 * x.2.1)).filter (inScratch s c.t)) = true)
  (used : useAll s c.t c.copies (collNeeds s c.t c.line) = (.ok ds, u))
  (sound : collDescError u c.t c.line ds = none)
include room fields named used sound

theorem issueColl_plain (plain : issueOperand c.line ds = none) : issueColl c s = .run (enterColl c u ds 0) := by
  unfold issueColl
  simp only [room, fields, named, used, sound, plain, Option.isSome_none, Bool.not_true, Bool.false_eq_true, if_false]

theorem issueColl_operand {k : Nat} {d : Desc} {codes : List Nat} {v : State}
    (operand : issueOperand c.line ds = some (k, d)) (ready : descReady u c.t d = true)
    (loaded : loadHinted u c.t d 0 (descCount d) .stream = (.ok codes, v)) :
    issueColl c s = .run (enterColl c v ds (descNumber d codes)) := by
  unfold issueColl
  simp only [room, fields, named, used, sound, operand, ready, loaded, Option.isSome_none, Bool.not_true,
    Bool.false_eq_true, if_false]

end

/-! ### REG_COPY (R299) -/

theorem issueRegCopy_ready {c : Cmd} {s u : State} {d : Desc} (fields : copyError c.line = none)
    (named : inScratch s c.t (64 * rcDst c.line) = true → lineReady s c.t (64 * rcDst c.line) = true)
    (used : useDesc s c.t c.copies 0 (rcDst c.line)
      { write := true, kinds := [kindByte], tile := some c.t, count := some (64 * rcLines c.line) } = (.ok d, u))
    (ready : descReady u c.t d = true) :
    issueRegCopy c s = .ready (writeLines
      (if rcClear c.line
        then u.each ((List.range 256).filter (watchInside (rcSrc c.line) (rcLines c.line)))
          (fun w x => clearWatch x c.t w) else u)
      c.t (fillLines d 0 (descLines d) (copyByte u c.t (rcSrc c.line))) (.command c.g c.idx)) := by
  have hand : (inScratch s c.t (64 * rcDst c.line) && !lineReady s c.t (64 * rcDst c.line)) = false :=
    Bool.and_eq_false_imp.2 fun h => by rw [named h]; rfl
  unfold issueRegCopy
  simp only [fields, hand, used, ready, Bool.not_true, Bool.false_eq_true, if_false]

/-- Settles O7: each command by what its unit makes of it once its checks have passed. -/
theorem unitCommands : Obligations.UnitCommands := by
  unfold Obligations.UnitCommands
  refine ⟨?tileFence, ?refused, ?wideFence, ?vector, ?pass, ?move, ?transpose, ?collective, ?regCopy⟩
  case tileFence =>
    intro s g f h op scope map vote closed
    refine congrArg Host.Outcome.next (issue_done h (decide_eq_true op) (issueFence_tile ?_ closed scope))
    simp [fenceAgrees, commandAt, scope, map, vote]
  case refused =>
    intro s g f h op
    refine ⟨fun clash => ?_, fun defined map vote fence => ?_⟩
    · refine congrArg Host.Outcome.next (issue_fail h (decide_eq_true op) (issueFence_encoding ?_))
      rintro ⟨defined, map, vote⟩
      rcases clash with scope | ⟨maps, scope⟩ | ⟨votes, scope⟩
      · exact defined scope
      · exact scope (map maps)
      · exact vote votes scope
    · exact congrArg Host.Outcome.next
        (issue_fail h (decide_eq_true op) (issueFence_open ⟨defined, map, vote⟩ fence))
  case wideFence =>
    intro s g f h op scope closed
    refine congrArg Host.Outcome.next (issue_ready h (decide_eq_true op) (issueFence_wide ?_ closed ?_))
    · rcases scope with ⟨scope, map⟩ | scope
      · simp [fenceAgrees, commandAt, scope, map]
      · simp [fenceAgrees, commandAt, scope]
    · show pfScope f.line ≠ 0
      omega
  case vector =>
    intro s u g f chunks p h op room named checked ready
    obtain ⟨v, j, run, queues, tiles, of⟩ := issueVector_run (c := commandAt s g.val f) room named checked ready
    obtain ⟨queue, line, idx, next⟩ := of
    have joined : ((passIssue (v.modTile (g.val / 256) (fun x => { x with vec := x.vec ++ [j] })) (commandAt s g.val f)
        [{ idx := (s.queue g.val).cmd, line := f.line, task := taskOf (s.queue g.val) f.line }]).tile
          (g.val / 256)).vec = (s.tile (g.val / 256)).vec ++ [j] := by
      rw [passIssue_vec, State.modTile, State.tile_setTile_self, State.tile_congr tiles]
    refine ⟨j, _, exec_vector_joined (v := ⟨g, chunks⟩) (issue_run h (decide_eq_true op) run) joined, joined, queue,
      line, idx, next, ?_⟩
    exact (passIssue_inflight _ (commandAt s g.val f) _).trans
      (by rw [State.queue_congr (State.modTile_queues ..), State.queue_congr queues]; rfl)
  case pass =>
    intro s g f h op c i ext keepRows accepts named passes
    obtain ⟨v, run, queues, keys⟩ := issuePass_run (c := c) (s := s) accepts named passes
    refine ⟨_, congrArg Host.Outcome.next (issue_run h (decide_eq_true op) run), ?_, ?_⟩
    · rw [passIssue_engine]
      exact keys
    · exact (passIssue_inflight _ c _).trans (by rw [State.queue_congr queues]; rfl)
  case move =>
    intro s u v g f src dst h op c l free vc unit ready srcIn dstIn readSrc readDst sound
    obtain ⟨j, run, of⟩ := issueMove_run (c := c) free vc unit ready srcIn dstIn readSrc readDst sound
    exact ⟨_, congrArg Host.Outcome.next (issue_run h (decide_eq_true op) run), passIssue_moved _ _ of⟩
  case transpose =>
    intro s u v g f src dst h op c l free vc unit ready srcIn dstIn readSrc readDst sound
    obtain ⟨j, run, of⟩ := issueMove_run (c := c) free vc unit ready srcIn dstIn readSrc readDst sound
    exact ⟨_, congrArg Host.Outcome.next (issue_run h (decide_eq_true op) run), passIssue_moved _ _ of⟩
  case collective =>
    intro s u g f ds h op c needs room fields named used sound
    exact ⟨fun plain => congrArg Host.Outcome.next (issue_run h (decide_eq_true op)
        (issueColl_plain (c := c) room fields named used sound plain)),
      fun k d codes v operand ready loaded => congrArg Host.Outcome.next (issue_run h (decide_eq_true op)
        (issueColl_operand (c := c) room fields named used sound operand ready loaded))⟩
  case regCopy =>
    exact fun s u g f d h op fields named used ready => congrArg Host.Outcome.next
      (issue_ready h (decide_eq_true op) (issueRegCopy_ready (c := commandAt s g.val f) fields named used ready))

/-! ### Guide cores (R304 to R306) -/

section

variable (s : State) (t : Nat) (r : GuideReq) (status : Nat) (results : List Word)

theorem dropRequest_tile : (dropRequest s t r).tile t = { s.tile t with guide := (s.tile t).guide.erase r } :=
  State.tile_setTile_self ..

theorem giveAnswer_queue {g : Nat} {i : Word} (caller : r.queue = some (g, i)) : giveAnswer s t r status results =
    if status = 0 then finishCommand (dropRequest s t r) g i
    else abortCommand (dropRequest s t r) g i { err := .guide } := by
  rw [giveAnswer, caller]

section

variable (caller : r.queue = none)
include caller

/-- An answer to the mailbox is written to its registers alone. -/
theorem giveAnswer_mailbox_tiles : (giveAnswer s t r status results).tiles = (dropRequest s t r).tiles := by
  rw [giveAnswer, caller]
  dsimp only
  rw [State.setField_tiles, State.each, foldl_view State.tiles fun _ _ _ => State.setReg_tiles .., State.setReg_tiles]

theorem giveAnswer_mailbox_status :
    (giveAnswer s t r status results).reg (tilA t 0x5140) = BitVec.ofNat 32 status := by
  have control : tilA t 0x5130 ≠ tilA t 0x5140 := by unfold tilA; omega
  have result (k : Nat) : tilA t (0x5144 + 4 * k) ≠ tilA t 0x5140 := by unfold tilA; omega
  rw [giveAnswer, caller]
  dsimp only
  rw [State.reg_setField_other _ _ _ _ control, State.each,
    foldl_view (State.reg · (tilA t 0x5140)) (fun k _ _ => State.reg_setReg_other _ _ (result k)),
    State.reg_setReg_self]

end

/-- A service that the panel does not define answers STATUS 1 and the sender's words (R305). -/
theorem serve_undefined (undefined : r.service = 0 ∨ 4 < r.service) : serve s t r results = .answer 1 results s := by
  unfold serve
  split
  next echo => omega
  next log => omega
  next version => omega
  next record => omega
  next => rfl

end

section

variable {s : State} {t : Fin 64} {core : Fin 2} {r : GuideReq} (call : served? s t.val core.val = some r)
  (acts : active s = true)
include call acts

theorem exec_guideCallTimeout :
    exec (.guideCallTimeout t core) s = .next (giveAnswer (s.passTo (r.since + 1000000)) t.val r 3 []) := by
  have run : exec (.guideCallTimeout t core) s = execGuideCallTimeout t core s := rfl
  have runs : panelRuns s = true := (Bool.and_eq_true_iff.1 acts).1
  simp [run, execGuideCallTimeout, call, acts, runs]

variable (inTime : s.now ≤ r.since + 1000000) {status : Word} (results : List Word)
include inTime

theorem exec_guideAnswer_fault (known : 1 ≤ r.service) (defined : r.service ≤ 4) (fault : status ≠ 0) :
    exec (.guideAnswer t core status results) s =
      .next (giveAnswer s t.val r (if status = 2 then 2 else 3) results) := by
  have run : exec (.guideAnswer t core status results) s = execGuideAnswer t core status results s := rfl
  have late : (!active s || decide (r.since + 1000000 < s.now)) = false := by simp [acts, inTime]
  simp only [run, execGuideAnswer, call, late, Bool.false_eq_true, if_false]
  exact if_pos ⟨fault, known, defined⟩

theorem exec_guideAnswer_serve (sound : status = 0 ∨ r.service = 0 ∨ 4 < r.service) {st : Nat} {rs : List Word}
    {u : State} (serves : serve s t.val r results = .answer st rs u) :
    exec (.guideAnswer t core status results) s = .next (giveAnswer u t.val r st rs) := by
  have run : exec (.guideAnswer t core status results) s = execGuideAnswer t core status results s := rfl
  have late : (!active s || decide (r.since + 1000000 < s.now)) = false := by simp [acts, inTime]
  have noFault : ¬(status ≠ 0 ∧ 1 ≤ r.service ∧ r.service ≤ 4) := by
    rintro ⟨fault, known, defined⟩
    rcases sound with sound | low | high
    · exact fault sound
    · omega
    · omega
  simp only [run, execGuideAnswer, call, late, noFault, serves, Bool.false_eq_true, if_false]

end

/-! ### The mailbox (R306) -/

theorem fieldWrite_reg_other (s : State) {a b : Nat} (v : Word) (apart : a ≠ b) :
    (fieldWrite s a v).reg b = s.reg b := by
  cases row : regRow a with
  | none => rw [fieldWrite, row]
  | some x =>
    obtain ⟨r, k⟩ := x
    cases rwc : hasType .rwc r.fields with
    | false => rw [fieldWrite_active v row rwc, State.reg_setReg_other _ _ apart]
    | true => rw [fieldWrite_staging v row rwc, State.stage_reg, State.reg_setReg_other _ _ apart]

theorem fieldWrite_tiles (s : State) (a : Nat) (v : Word) : (fieldWrite s a v).tiles = s.tiles :=
  (fieldWrite_only (.refl _ s) (.self _)).frame .tiles (by decide)

theorem fieldWrite_now (s : State) (a : Nat) (v : Word) : (fieldWrite s a v).now = s.now :=
  (fieldWrite_only (.refl _ s) (.self _)).frame .now (by decide)

/-- The call that the REQ words of tile `t` make. -/
def mailboxCall (s : State) (t : Nat) : GuideReq :=
  { queue := none, core := bits (s.reg (tilA t 0x5100)).toNat 8 1,
    service := bits (s.reg (tilA t 0x5100)).toNat 0 8,
    args := (List.range 11).map (fun k => s.reg (tilA t (0x5100 + 4 * (k + 1)))), since := s.now }

/-- A write of the control word leaves the REQ words as they are. -/
theorem mailboxCall_fieldWrite (s : State) (t : Nat) (v : Word) :
    mailboxCall (fieldWrite s (tilA t 0x5130) v) t = mailboxCall s t := by
  have word (k : Nat) (small : k < 12) :
      (fieldWrite s (tilA t 0x5130) v).reg (tilA t (0x5100 + 4 * k)) = s.reg (tilA t (0x5100 + 4 * k)) :=
    fieldWrite_reg_other s v (by unfold tilA; omega)
  have args : (List.range 11).map (fun k => (fieldWrite s (tilA t 0x5130) v).reg (tilA t (0x5100 + 4 * (k + 1)))) =
      (List.range 11).map (fun k => s.reg (tilA t (0x5100 + 4 * (k + 1)))) :=
    List.map_congr_left fun k mem => word (k + 1) (by have := List.mem_range.1 mem; omega)
  rw [mailboxCall, mailboxCall, args, fieldWrite_now, word 0 (by decide)]

theorem mailboxWrite_go {s : State} {t : Nat} (acc : Access) (idle : mailboxBusy s t = false) :
    ((mailboxWrite s acc t 1).tile t).guide = (s.tile t).guide ++ [mailboxCall s t] := by
  have tiles := fieldWrite_tiles s (tilA t 0x5130) 1
  have still : mailboxBusy (fieldWrite s (tilA t 0x5130) 1) t = false := by
    rw [mailboxBusy, State.tile_congr tiles]
    exact idle
  rw [← mailboxCall_fieldWrite s t 1, ← State.tile_congr tiles]
  unfold mailboxWrite
  dsimp only
  rw [if_neg (by decide), still, if_neg Bool.false_ne_true]
  rw [State.modTile, State.tile_setTile_self]
  rfl

theorem exec_guideMailboxGo {s : State} {p : Path} {t : Fin 64} (gate : ownerGate s p (tilA t.val 0x5130) = true) :
    exec (.guideMailboxGo p t) s =
      .next (answer (mailboxWrite s { path := p, off := tilA t.val 0x5130 } t.val 1) .ok) :=
  congrArg Host.Outcome.next (ownerWrite_gate gate 1 _)

/-- Settles O11: an answer by the service and by whether a fault is met, what it does by the caller, and the mailbox's
call by the REQ words that it is made of. -/
theorem guideCores : Obligations.GuideCores := by
  unfold Obligations.GuideCores
  refine ⟨?answer, fun s t core r call acts => exec_guideCallTimeout call acts, fun s t r status results =>
    ⟨?mailbox, fun g i caller => giveAnswer_queue s t r status results caller⟩, ?go⟩
  case answer =>
    intro s t core status results r call acts inTime
    refine ⟨fun echo sound => ?_, fun version sound => ?_, fun st rs u _ sound serves => ?_, fun undefined => ?_,
      fun known defined fault => exec_guideAnswer_fault call acts inTime results known defined fault⟩
    · exact exec_guideAnswer_serve call acts inTime results (.inl sound) (by rw [serve, echo]; rfl)
    · exact exec_guideAnswer_serve call acts inTime results (.inl sound) (by rw [serve, version]; rfl)
    · exact exec_guideAnswer_serve call acts inTime results (.inl sound) serves
    · exact exec_guideAnswer_serve call acts inTime results (.inr undefined)
        (serve_undefined s t.val r results undefined)
  case mailbox =>
    refine fun caller => ⟨?_, giveAnswer_mailbox_status s t r status results caller⟩
    rw [State.tile_congr (giveAnswer_mailbox_tiles s t r status results caller), dropRequest_tile]
  case go =>
    intro s p t gate idle
    refine ⟨_, exec_guideMailboxGo gate, ?_, answer_reply ..⟩
    rw [State.tile_congr (answer_tiles ..), mailboxWrite_go _ idle, mailboxCall]

end Sys2Proof.Machine

/-! Proofs of the obligations of spec/08_packet_fabric.md: the answers that reach a source, what a source gives up, and
the routers. -/

namespace Sys2Proof.Machine

open Sys2Proof

/-! ### Answers at their source (R310, R325, R326, R334) -/

/-- The state once a source has counted an answer of type `ty`, and a NACK as one too (R351). -/
def answerCounted (s : State) (ep : Endpoint) (ty : Nat) : State :=
  if ty = tyNack then countAt (countAt s ep 0x6048 true) ep 0x6074 false else countAt s ep 0x6048 true

/-- The state once the congestion echo that an answer `p` carries has reached its connection (R338). -/
def echoTaken (s : State) (ep : Endpoint) (p : Packet) (o : Outstanding) : State :=
  if p.ece then echoed s ep o.conn else s

theorem endpointStep_guest {s : State} {n : Fin 4} {ty : Nat} {k : Copy} (act : State → Packet → State)
    (alive : linksAlive s = true) (next : takeNext s (.guest n) ty = some k) :
    endpointStep s (.guest n) ty act = (leave s k).2.emit (.guestPacket n (leave s k).1) := by
  rw [endpointStep, alive, next]
  rfl

section

variable {s u : State} {ep : Endpoint} {ty : Nat} {p : Packet} {o : Outstanding}
  {act : State → Outstanding → Packet → State}

/-- The commands that bring an answer, with the type that each takes. -/
theorem exec_answer {c : Instr}
    (mem : (c, ty) ∈ [(Instr.ack ep, tyAck), (.nack ep, tyNack), (.readResp ep, tyReadResp)]) (s : State) :
    ∃ act, exec c s = .next (answerStep s ep ty act) := by
  simp only [List.mem_cons, Prod.mk.injEq, List.not_mem_nil, or_false] at mem
  rcases mem with ⟨rfl, rfl⟩ | ⟨rfl, rfl⟩ | ⟨rfl, rfl⟩ <;> exact ⟨_, rfl⟩

section

variable (notGuest : ∀ n, ep ≠ .guest n) (took : taken s ep ty = some (p, u))
include notGuest took

theorem answerStep_taken : answerStep s ep ty act =
    let v := answerCounted u ep ty
    if badEncoding ep p then rejectPacket v ep p nackEncoding
    else if !currentAnswer v ep p then v.count32 (tilA (countTile v ep) 0x6078) 1
    else match sentBy? v ep p with
      | none => v
      | some o => act (echoTaken v ep p o) o p := by
  rw [answerStep, endpointStep_taken notGuest took]
  rfl

theorem answerStep_bad (bad : badEncoding ep p = true) :
    answerStep s ep ty act = rejectPacket (answerCounted u ep ty) ep p nackEncoding := by
  rw [answerStep_taken notGuest took]
  exact if_pos bad

variable (sound : badEncoding ep p = false)
include sound

theorem answerStep_stale (stale : currentAnswer (answerCounted u ep ty) ep p = false) : answerStep s ep ty act =
    (answerCounted u ep ty).count32 (tilA (countTile (answerCounted u ep ty) ep) 0x6078) 1 := by
  simp only [answerStep_taken notGuest took, sound, stale, Bool.false_eq_true, Bool.not_false, if_false, if_true]

variable (current : currentAnswer (answerCounted u ep ty) ep p = true)
include current

theorem answerStep_unnamed (unnamed : sentBy? (answerCounted u ep ty) ep p = none) :
    answerStep s ep ty act = answerCounted u ep ty := by
  simp only [answerStep_taken notGuest took, sound, current, unnamed, Bool.false_eq_true, Bool.not_true, if_false]

theorem answerStep_named (named : sentBy? (answerCounted u ep ty) ep p = some o) :
    answerStep s ep ty act = act (echoTaken (answerCounted u ep ty) ep p o) o p := by
  simp only [answerStep_taken notGuest took, sound, current, named, Bool.false_eq_true, Bool.not_true, if_false]

end

/-- A unicast ACK or NACK meets no ENCODING condition: its type has no address (R326). -/
theorem badEncoding_unicast (noAddress : hasAddress p.ty = false) (notRead : p.ty ≠ tyReadReq) (unicast : p.mcast = 0) :
    badEncoding ep p = false := by
  cases ep <;>
    simp only [badEncoding, noAddress, notRead, unicast, ne_eq, not_true_eq_false, decide_false, Bool.and_false,
      Bool.false_and, Bool.or_self]

/-- An ACK names the one unanswered packet of its source with its tag and sequence (R310). -/
theorem sentBy?_ack {v : State} (ack : p.ty = tyAck) (mem : o ∈ v.fabric.sent) (source : o.src = ep)
    (tag : o.tag = p.tag) (seq : o.seq % 65536 = p.aux) (posted : o.pkt.ty ≠ tyReadReq)
    (only : ∀ y ∈ v.fabric.sent, y.src = ep → y.tag = p.tag → y.seq % 65536 = p.aux → y = o) :
    sentBy? v ep p = some o := by
  have isNamed : (sentBy? v ep p).isSome = true :=
    List.find?_isSome.2 ⟨o, mem, by
      simp only [answers, ack, source, tag, seq, posted, ne_eq, not_false_eq_true, decide_true, Bool.and_self, if_true]⟩
  obtain ⟨y, found⟩ := Option.isSome_iff_exists.1 isNamed
  have names := List.find?_some (p := fun o : Outstanding => o.src = ep && answers p o) found
  simp only [answers, ack, if_true, Bool.and_eq_true, decide_eq_true_eq] at names
  obtain ⟨source', tag', seq', -⟩ := names
  rw [found, only y (List.mem_of_find?_eq_some found) source' tag' seq']

end

/-! ### Sources (R327, R338) -/

/-- The oldest unanswered packet of a source is lost at its time-out (R327). -/
theorem exec_ackTimeout {s : State} {ep : Endpoint} {o : Outstanding}
    (oldest : s.fabric.sent.find? (fun o => o.src = ep) = some o) (acts : active s = true) :
    exec (.ackTimeout ep) s =
      .next (rejected (settle ((s.passTo (o.sent + 1000000 * s.field (tilA (countTile s ep) 0x6004) 0 10)).count32
        (tilA (countTile s ep) 0x6084) 1) o o.remain).2 o 0xFF) := by
  have run : exec (.ackTimeout ep) s = execAckTimeout ep s := rfl
  rw [run, execAckTimeout, oldest]
  exact if_neg (by rw [acts]; decide)

theorem ccField_passTo (s : State) (time : Nat) (ep : Endpoint) (lo n : Nat) :
    ccField (s.passTo time) ep lo n = ccField s ep lo n := rfl

/-- The state at instant `time` once INC_US have passed without an echo for connection `c` (R338). -/
def rateRaised (s : State) (ep : Endpoint) (c : Conn) (time : Nat) : State :=
  let s := s.passTo time
  let raised : Conn := { c with rate := min 256 (c.rate + ccField s ep 8 6), lastEce := s.now }
  { s with fabric := { s.fabric with conns := s.fabric.conns.map (fun x => if x = c then raised else x) } }

theorem exec_ccRateIncrease {s : State} {ep : Endpoint} {key : Nat} {c : Conn} (holds : conn? s ep key = some c)
    (enabled : ccField s ep 30 1 = 1) : exec (.ccRateIncrease ep key) s =
      .next (rateRaised s ep c (c.lastEce + 1000 * ccField s ep 14 6)) := by
  have run : exec (.ccRateIncrease ep key) s = execCcRateIncrease ep key s := rfl
  rw [run, execCcRateIncrease, holds]
  exact if_neg (by rw [enabled]; decide)

/-- Settles O19: an answer by its type and by what its source finds in it, and what time brings a source. -/
theorem answerPackets : Obligations.AnswerPackets := by
  unfold Obligations.AnswerPackets
  refine ⟨?ack, ?nack, ?readResp, ?refused, ?guest, fun s ep o => exec_ackTimeout, ?rate⟩
  case ack =>
    intro s u ep p o notGuest took v w r x unicast current mem source tag seq posted only
    have ty := taken_ty took
    have sound : badEncoding ep p = false := badEncoding_unicast (by rw [ty]; rfl) (by rw [ty]; decide) unicast
    exact congrArg Host.Outcome.next (answerStep_named notGuest took sound current
      (sentBy?_ack ty mem source tag seq posted only))
  case nack =>
    intro s u ep p o notGuest took v w unicast current named
    have ty := taken_ty took
    have sound : badEncoding ep p = false := badEncoding_unicast (by rw [ty]; rfl) (by rw [ty]; decide) unicast
    exact congrArg Host.Outcome.next (answerStep_named notGuest took sound current named)
  case readResp =>
    exact fun s u ep p o notGuest took sound current named =>
      congrArg Host.Outcome.next (answerStep_named notGuest took sound current named)
  case refused =>
    intro s u ep p c ty notGuest mem took
    obtain ⟨act, run⟩ := exec_answer mem s
    rw [run]
    exact ⟨fun bad => congrArg Host.Outcome.next (answerStep_bad notGuest took bad),
      fun sound stale => congrArg Host.Outcome.next (answerStep_stale notGuest took sound stale),
      fun sound current unnamed => congrArg Host.Outcome.next (answerStep_unnamed notGuest took sound current unnamed)⟩
  case guest =>
    intro s n k c ty mem alive next
    obtain ⟨act, run⟩ := exec_answer mem s
    rw [run, answerStep, endpointStep_guest _ alive next]
  case rate =>
    intro s ep key c holds enabled
    exact ⟨_, exec_ccRateIncrease holds enabled, rfl, by rw [rateRaised, ccField_passTo]; rfl⟩

/-! ### ROUTER_PACKET_RECEIVE (R53, R312, R314, R320) -/

section

variable {s : State} {t port n : Nat}

/-- What a mesh output of the neighbour sends next crosses, as no frame on its way must come before it. -/
theorem pullMesh_crosses {l : Strand} {far : Bool} {c : Copy} (quiet : flight s t port = [])
    (joined : meshStrand t port = some (l, far)) (inService : strandUp s l = true)
    (sends : nextMesh s t port = some c) : pullMesh s t port = crossMesh s t port c := by
  simp only [pullMesh, quiet, joined, inService, sends, List.isEmpty_nil, Bool.not_true, Bool.false_eq_true, if_false]

section

variable {a : Attach} {c : Copy} (sends : nextAttached s t port a = some c)
include sends

theorem pushAttachment_guest (guest : a = .guest n) (own : c.branch.out = 8) : pushAttachment s t port a =
    (served (leave s c).2 t port (leave s c).1.vc).emit (.guestPacket (Fin.ofNat 4 n) (leave s c).1) := by
  subst guest
  rw [pushAttachment, sends]
  exact if_neg (by rw [own]; decide)

theorem pushAttachment_link {l : ModLink} {entry : Nat} (out : 16 ≤ c.branch.out)
    (link : linkFor s (c.branch.out - 16) c.held.pkt = some (l, entry)) (clear : strandClear s t l = true) :
    pushAttachment s t port a =
      giveLink (nextTurn (served (leave s c).2 t port (leave s c).1.vc) l (buddyShared s l)) l (outDir s c)
        ⟨(leave s c).1, c.held.vc0⟩ := by
  rw [pushAttachment, sends]
  simp only [out, link, clear, Option.map_some, if_true]

end

/-- A guest's packet enters with the guest's party and epoch in its header (R53). -/
theorem guestArrives_sound {p : Packet} (up : (s.guest n).mainband = true) (sound : malformed p = false) :
    guestArrives s t port n p = arrive s t port none none .fresh
      ⟨{ p with party := guestParty s n, epoch := epochOf s (guestParty s n) }, p.vc⟩ := by
  simp only [guestArrives, up, sound, Bool.not_true, Bool.false_eq_true, if_false]

theorem guestArrives_malformed {p : Packet} (up : (s.guest n).mainband = true)
    (bad : malformed p = true) :
    guestArrives s t port n p = dropPacket (s.count32 (tilA t 0x6080) 1) t 0 p nackEncoding := by
  simp only [guestArrives, up, bad, Bool.not_true, Bool.false_eq_true, if_false, if_true]

end

section

variable {s : State} {t : Fin 64} {port : Fin 8} (alive : linksAlive s = true)
include alive

theorem exec_routerPacketReceive_mesh (mesh : port.val < 4) :
    exec (.routerPacketReceive t port none) s = .next (flushOutbox (pullMesh s t.val port.val)) := by
  have run : exec (.routerPacketReceive t port none) s = execRouterPacketReceive t port none s := rfl
  simp only [run, execRouterPacketReceive, alive, mesh, Bool.not_true, Bool.false_eq_true, if_false, if_true]

variable (inner : 4 ≤ port.val)
include inner

theorem exec_routerPacketReceive_own (own : (attachments (siteOf s t.val))[port.val - 4]? = none) :
    exec (.routerPacketReceive t port none) s = .next (sendWaiting s (joinsAt s t.val port.val)) := by
  have run : exec (.routerPacketReceive t port none) s = execRouterPacketReceive t port none s := rfl
  simp only [run, execRouterPacketReceive, alive, Nat.not_lt.2 inner, own, Bool.not_true, Bool.false_eq_true, if_false]

theorem exec_routerPacketReceive_attached {a : Attach}
    (attached : (attachments (siteOf s t.val))[port.val - 4]? = some a) :
    exec (.routerPacketReceive t port none) s =
      .next (sendWaiting (pushAttachment s t.val port.val a) (joinsAt s t.val port.val)) := by
  have run : exec (.routerPacketReceive t port none) s = execRouterPacketReceive t port none s := rfl
  simp only [run, execRouterPacketReceive, alive, Nat.not_lt.2 inner, attached, Bool.not_true, Bool.false_eq_true, if_false]

theorem exec_routerPacketReceive_arriving {n : Nat} (p : Packet)
    (attached : (attachments (siteOf s t.val))[port.val - 4]? = some (.guest n)) :
    exec (.routerPacketReceive t port (some p)) s = .next (guestArrives s t.val port.val n p) := by
  have run : exec (.routerPacketReceive t port (some p)) s = execRouterPacketReceive t port (some p) s := rfl
  simp only [run, execRouterPacketReceive, alive, Nat.not_lt.2 inner, attached, Bool.not_true, Bool.false_eq_true, if_false]

end

/-! ### PACKET_ESCAPE (R321) -/

/-- A branch has no credits at its output and is not on the footpath yet. -/
def isStuck (s : State) (h : Held) (b : Branch) : Bool := !b.esc && !outputRoom s ⟨h, b⟩

/-- A packet whose stuck branches have moved to the footpath. -/
def escapedHeld (s : State) (h : Held) : Held :=
  { h with branches := h.branches.map (fun b => if isStuck s h b then { b with esc := true } else b) }

/-- Testing a branch of a packet against the list of its stuck ones asks whether it is stuck. -/
theorem escape_filter (s : State) (h : Held) :
    { h with branches := h.branches.map (fun b =>
        if (h.branches.filter (isStuck s h)).contains b then { b with esc := true } else b) } = escapedHeld s h := by
  have same : ∀ b ∈ h.branches, (h.branches.filter (isStuck s h)).contains b = isStuck s h b := fun b mem => by
    rw [Bool.eq_iff_iff, List.contains_iff_mem, List.mem_filter, and_iff_right mem]
  unfold escapedHeld
  congr 1
  exact List.map_congr_left fun b mem => by rw [same b mem]

/-- The state at instant `time` at which the stuck branches of `h` at tile `t` escape. -/
def packetEscaped (s : State) (t : Nat) (h : Held) (time : Nat) : State :=
  let u := s.passTo time
  let held := u.fabric.held.map (fun x => if x = h then escapedHeld s h else x)
  { u with fabric := { u.fabric with held := held } }.count64 (tilA t 0x6050) 1

theorem exec_packetEscape {s : State} {t : Fin 64} {port : Fin 8} {vc : Fin 4} {h : Held}
    (head : headOf s t.val port.val vc.val = some h) (stuck : ∃ b ∈ h.branches, isStuck s h b = true)
    (alive : linksAlive s = true) :
    exec (.packetEscape t port vc) s = .next (packetEscaped s t.val h (h.since + escapeNs s t.val)) := by
  have nonempty : (h.branches.filter (isStuck s h)).isEmpty = false := by
    obtain ⟨b, mem, is⟩ := stuck
    exact List.isEmpty_eq_false_iff_exists_mem.2 ⟨b, List.mem_filter.2 ⟨mem, is⟩⟩
  have run : exec (.packetEscape t port vc) s = execPacketEscape t port vc s := rfl
  rw [run, execPacketEscape, head, packetEscaped, ← escape_filter]
  exact if_neg (by rw [alive, Bool.not_true, Bool.or_false]; exact Bool.eq_false_iff.1 nonempty)

theorem packetEscaped_reg64 (s : State) (t : Nat) (h : Held) (time : Nat) :
    (packetEscaped s t h time).reg64 (tilA t 0x6050) = (s.reg64 (tilA t 0x6050) + 1) % 2 ^ 64 := by
  rw [packetEscaped, State.reg64_count64_self]
  rfl

/-! ### PACKET_AGE_CHECK (R328) -/

/-- The packets in a router that are older than its LIFETIME. -/
def agedAt (s : State) (t : Nat) : List Held :=
  s.fabric.held.filter (fun h => h.tile = t && lifetime s t < packetAge s h.pkt)

/-- An aged packet is counted, and one that is no ACK or NACK answered with a NACK. -/
def agedOut (t : Nat) (s : State) (h : Held) : State :=
  let v := s.count32 (tilA t 0x607C) 1
  if h.pkt.ty = tyAck ∨ h.pkt.ty = tyNack then v else dropPacket v t (h.vc0 % 4) h.pkt nackAged

theorem exec_packetAgeCheck {s : State} {t : Fin 64} (alive : linksAlive s = true) : exec (.packetAgeCheck t) s =
    .next (flushOutbox ((agedAt s t.val).foldl (agedOut t.val) ((agedAt s t.val).foldl unhold s))) := by
  have run : exec (.packetAgeCheck t) s = execPacketAgeCheck t s := rfl
  rw [run, execPacketAgeCheck, if_neg (by rw [alive]; decide)]
  simp only [Bool.or_eq_true, decide_eq_true_eq]
  rfl

theorem agedAt_eq_nil {s : State} {t : Nat}
    (young : ∀ h ∈ s.fabric.held, h.tile = t → packetAge s h.pkt ≤ lifetime s t) : agedAt s t = [] :=
  List.filter_eq_nil_iff.2 fun h mem => by
    rw [Bool.and_eq_true, decide_eq_true_eq, decide_eq_true_eq]
    exact fun ⟨here, old⟩ => Nat.not_lt.2 (young h mem here) old

/-! ### FAB_FOLD (R12, R350) -/

/-- Of several registers that fold one after another, each takes its own staged word. -/
theorem foldRegs_reg {as : List Nat} (nodup : as.Nodup) (s : State) {a : Nat} (mem : a ∈ as) :
    (s.each as (fun b u => u.foldReg b)).reg a = (s.stagedAt a).getD (s.reg a) := by
  have other (b : Nat) (u : State) (h : b ≠ a) :
      ((u.foldReg b).reg a, (u.foldReg b).stagedAt a) = (u.reg a, u.stagedAt a) :=
    Prod.ext (State.foldReg_other u b h).1 (State.foldReg_other u b h).2
  obtain ⟨u, same, turn⟩ := (State.each_turn (fun u => (u.reg a, u.stagedAt a)) other nodup s).2 mem
  obtain ⟨reg, staged⟩ := Prod.mk.inj same
  rw [(Prod.mk.inj turn).1, State.foldReg_reg_self, reg, staged]

/-- The rates of the connections stand outside the registers. -/
theorem foldFab_regs (s : State) (t : Nat) : (foldFab s t).regs =
    (s.each [tilA t 0x6000, tilA t 0x6004, tilA t 0x6008] (fun b u => u.foldReg b)).regs := by
  unfold foldFab
  dsimp only
  split <;> rfl

theorem foldFab_reg (s : State) (t : Nat) {o : Nat} (mem : o ∈ [0x6000, 0x6004, 0x6008]) :
    (foldFab s t).reg (tilA t o) = (s.stagedAt (tilA t o)).getD (s.reg (tilA t o)) := by
  have nodup : ([0x6000, 0x6004, 0x6008].map (tilA t)).Nodup :=
    List.pairwise_map.2 ((by decide : [0x6000, 0x6004, 0x6008].Nodup).imp fun apart same =>
      apart (Nat.add_left_cancel same))
  rw [State.reg_congr (foldFab_regs s t)]
  exact foldRegs_reg nodup s (List.mem_map_of_mem mem)

theorem exec_fabFold {s : State} {p : Path} {t : Fin 64} (gate : ownerGate s p (tilA t.val 0x600C) = true) :
    exec (.fabFold p t) s = .next (answer (foldFab s t.val) .ok) := by
  have run : exec (.fabFold p t) s = execFabFold p t s := rfl
  rw [run, execFabFold, ownerWrite_gate gate]

/-- Settles O20: a router's ports by what stands at them, a head by its branches without credits, a router's packets by
their age, and the fold register by register. -/
theorem routers : Obligations.Routers := by
  unfold Obligations.Routers
  refine ⟨?mesh, ?attached, fun s t port => exec_routerPacketReceive_own, ?arriving, ?escape, ?young,
    fun s t => exec_packetAgeCheck, ?fold⟩
  case mesh =>
    intro s t port l far c alive mesh quiet joined inService sends
    rw [exec_routerPacketReceive_mesh alive mesh, pullMesh_crosses quiet joined inService sends]
  case attached =>
    intro s t port a c k u alive inner attached sends
    rw [exec_routerPacketReceive_attached alive inner attached]
    exact ⟨fun n guest own => by rw [pushAttachment_guest sends guest own],
      fun l entry out link clear => by rw [pushAttachment_link sends out link clear]⟩
  case arriving =>
    intro s t port n p alive inner attached up
    rw [exec_routerPacketReceive_arriving alive inner p attached]
    exact ⟨fun sound => by rw [guestArrives_sound up sound], fun bad => by rw [guestArrives_malformed up bad]⟩
  case escape =>
    intro s t port vc h head stuck alive
    have anyStuck : ∃ b ∈ h.branches, isStuck s h b = true := by
      obtain ⟨b, mem, esc, room⟩ := stuck
      exact ⟨b, mem, by rw [isStuck, esc, room]; rfl⟩
    exact ⟨_, exec_packetEscape head anyStuck alive, rfl, rfl, packetEscaped_reg64 ..⟩
  case young =>
    intro s t alive young
    rw [exec_packetAgeCheck alive, agedAt_eq_nil young]
    rfl
  case fold =>
    intro s p t gate
    exact ⟨_, exec_fabFold gate, rfl, fun o mem => foldFab_reg s t.val mem⟩

end Sys2Proof.Machine

/-! Proofs of the obligations of spec/09_collectives.md: the open round and the chunks of a collective, the messages of
the roll-call network, the phase fences and the timetable. -/

namespace Sys2Proof.Machine

open Sys2Proof

/-! ### The running collective (R358, R364) -/

theorem runningIn_eq_some {s : State} {t : Nat} {ph : CollPhase} {c : Coll} :
    runningIn s t ph = some c ↔ (s.coll t).running = some c ∧ c.phase = ph := by
  rw [runningIn, Option.filter_eq_some_iff, decide_eq_true_eq]

theorem putRunning_running (s : State) (t : Nat) (c : Coll) : ((putRunning s t c).coll t).running = some c := by
  rw [putRunning, State.coll_setColl_self]

/-! ### OPEN_ROUND_RESULT (R359, R371, R373) -/

section

variable {s : State} {t : Fin 64} {c : Coll} {o : RcOp} (runs : runningIn s t.val .open = some c)
  (joined : s.rc.ops.find? (sameOp (collRcOp s t.val c)) = some o) (acts : active s = true) (untold : t.val ∉ o.told)
include runs joined acts untold

theorem exec_openRoundResult_failed (failed : o.failed = true) : exec (.openRoundResult t) s =
    .next (abortCommand (tellMember s o t.val) c.queue c.idx { err := .link }) := by
  have run : exec (.openRoundResult t) s = execOpenRoundResult t s := rfl
  simp [run, execOpenRoundResult, runs, joined, acts, untold, failed]

variable (held : o.failed = false)
include held

theorem exec_openRoundResult_round {dmin dmax largest : Nat} (result : o.result = some (.round dmin dmax largest)) :
    exec (.openRoundResult t) s = .next (openResult (tellMember s o t.val) t.val c dmin dmax largest) := by
  have run : exec (.openRoundResult t) s = execOpenRoundResult t s := rfl
  simp [run, execOpenRoundResult, runs, joined, acts, untold, held, result]

theorem exec_openRoundResult_words {ws : List Dword} (result : o.result = some (.words ws))
    (ready : descReady s t.val (collDst c) = true) :
    exec (.openRoundResult t) s = .next (wordsResult (tellMember s o t.val) t.val c ws) := by
  have run : exec (.openRoundResult t) s = execOpenRoundResult t s := rfl
  simp [run, execOpenRoundResult, runs, joined, acts, untold, held, result, ready]

end

section

variable (s : State) (t : Nat) (c : Coll) (largest : Nat)

/-- The phase that equal digests start (R359): the exchanges of an ALL_TO_ALL go directly (R365). -/
def openedPhase (c : Coll) : CollPhase := if collOp c.line = 4 ∨ collOp c.line = 5 then .direct else .data

/-- The state once equal digests have started the data phase (R359). -/
def roundOpened : State := putRunning s t { c with largest, progress := s.time, phase := openedPhase c }

theorem roundOpened_running : ((roundOpened s t c largest).coll t).running =
    some { c with largest, progress := (roundOpened s t c largest).time, phase := openedPhase c } :=
  putRunning_running ..

theorem openResult_differ {dmin dmax : Nat} (differ : dmin ≠ dmax) :
    openResult s t c dmin dmax largest = abortCommand s c.queue c.idx { err := .encoding } := if_pos differ

theorem openResult_equal (d : Nat) : openResult s t c d d largest =
    if collOp c.line = 6 then finishCommand (roundOpened s t c largest) c.queue c.idx
    else roundOpened s t c largest := by
  simp only [openResult, ne_eq, not_true_eq_false, if_false, Bool.or_eq_true, decide_eq_true_eq]
  rfl

end

/-! ### COLLECTIVE_CHUNK_STEP (R364, R365) -/

section

variable {s : State} {t : Fin 64} {c : Coll} {k : Nat} (acts : active s = true)
include acts

section

variable (runs : runningIn s t.val .data = some c)
include runs

section

variable {x : Chunk} (entered : (chunk? c k).filter (·.entered) = some x)
include entered

theorem exec_collectiveChunkStep_entered :
    exec (.collectiveChunkStep t k x.round) s = .next (stepChunk s t.val c x) := by
  have run : exec (.collectiveChunkStep t k x.round) s = execCollectiveChunkStep t k x.round s := rfl
  simp only [run, execCollectiveChunkStep, acts, runs, entered, Bool.not_true, Bool.false_eq_true, if_false, if_true]

theorem exec_collectiveChunkStep_notNext {r : Nat} (other : r ≠ x.round) :
    exec (.collectiveChunkStep t k r) s = .next s := by
  have run : exec (.collectiveChunkStep t k r) s = execCollectiveChunkStep t k r s := rfl
  simp only [run, execCollectiveChunkStep, acts, runs, entered, other.symm, Bool.not_true, Bool.false_eq_true, if_false]

end

theorem exec_collectiveChunkStep_outside (outside : (chunk? c k).filter (·.entered) = none) (r : Nat) :
    exec (.collectiveChunkStep t k r) s =
      if k = c.nextChunk ∧ k < chunkTotal c ∧ slotsUsed c < collSlots c.line ∧ chunkSlotFree c k = true
      then .next (enterChunk s t.val c k) else .next s := by
  have run : exec (.collectiveChunkStep t k r) s = execCollectiveChunkStep t k r s := rfl
  simp only [run, execCollectiveChunkStep, acts, runs, outside, Bool.not_true, Bool.false_eq_true, if_false,
    Bool.and_eq_true, decide_eq_true_eq, and_assoc]

end

theorem exec_collectiveChunkStep_direct (noData : runningIn s t.val .data = none)
    (runs : runningIn s t.val .direct = some c) (peersLeft : c.nextChunk < collN s t.val c) (r : Nat) :
    exec (.collectiveChunkStep t c.nextChunk r) s = .next (directStep s t.val c) := by
  have run : exec (.collectiveChunkStep t c.nextChunk r) s = execCollectiveChunkStep t c.nextChunk r s := rfl
  simp [run, execCollectiveChunkStep, acts, noData, runs, peersLeft]

end

section

variable {s : State} {t : Nat} {c : Coll} {x : Chunk}

theorem stepChunk_leaves (last : (exchangesOf (collOp c.line) (collShapeOf s t c))[x.round]? = none) :
    stepChunk s t c x = leaveChunk s t c x := by
  rw [stepChunk, last]

variable {e : Exchange} (next : (exchangesOf (collOp c.line) (collShapeOf s t c))[x.round]? = some e)
include next

theorem stepChunk_waits (zeroing : exchangeReady s t c x.index = false) : stepChunk s t c x = s := by
  rw [stepChunk, next]
  exact if_pos (by rw [zeroing]; rfl)

theorem stepChunk_exchanges (ready : exchangeReady s t c x.index = true) :
    stepChunk s t c x =
      let u := if x.sent then s else sendExchange s t c x e
      if exchangeHas u t c x e then endExchange u t c x e else putRunning u t (putChunk c { x with sent := true }) := by
  rw [stepChunk, next]
  exact if_neg (by rw [ready]; decide)

end

/-! ### COLLECTIVE_TIMEOUT and OPEN_ROUND_HOLDOFF_EXPIRY (R369, R370) -/

theorem exec_collectiveTimeout {s : State} {t : Fin 64} {c : Coll} (runs : (s.coll t.val).running = some c)
    (acts : active s = true) (released : c.phase ≠ .held) : exec (.collectiveTimeout t) s =
      .next (abortCommand ((passToTime s (c.progress + collLimit s)).count32 (tilA t.val 0x705C) 1) c.queue c.idx
        { err := .link }) := by
  have run : exec (.collectiveTimeout t) s = execCollectiveTimeout t s := rfl
  rw [run, execCollectiveTimeout, runs]
  exact if_neg (by rw [acts, decide_eq_false released]; decide)

theorem exec_openRoundHoldoffExpiry {s : State} {t team : Fin 64} {d : Nat}
    (heldOff : mget none (s.coll t.val).holdoff team.val = some d) (acts : active s = true) :
    exec (.openRoundHoldoffExpiry t team) s = .next (startColl ((s.passTo d).setColl t.val
      { s.coll t.val with holdoff := mset none (s.coll t.val).holdoff team.val none }) t.val) := by
  have run : exec (.openRoundHoldoffExpiry t team) s = execOpenRoundHoldoffExpiry t team s := rfl
  rw [run, execOpenRoundHoldoffExpiry, heldOff]
  exact if_neg (by rw [acts]; decide)

/-- Settles O22: an open round by its operation's result, a chunk by whether it stands in a slot and which exchange is
its next, and what time brings a collective. -/
theorem collectives : Obligations.Collectives := by
  unfold Obligations.Collectives
  refine ⟨?round, ?chunk, fun s t c acts noData runs peersLeft =>
    exec_collectiveChunkStep_direct acts noData runs peersLeft, fun s t c => exec_collectiveTimeout,
    fun s t team d => exec_openRoundHoldoffExpiry⟩
  case round =>
    intro s t c o runs joined acts untold
    refine ⟨exec_openRoundResult_failed runs joined acts untold, fun held dmin dmax largest result => ?_,
      fun held ws => exec_openRoundResult_words runs joined acts untold held⟩
    rw [exec_openRoundResult_round runs joined acts untold held result]
    refine ⟨fun differ => by rw [openResult_differ _ _ _ _ differ], fun equal barrier => ?_, fun equal other => ?_⟩
    · subst equal
      have data : openedPhase c = .data := if_neg (by omega)
      refine ⟨roundOpened (tellMember s o t.val) t.val c largest, ?_, by rw [openResult_equal, if_pos barrier]⟩
      exact runningIn_eq_some.2 ⟨by rw [roundOpened_running, data], rfl⟩
    · subst equal
      exact ⟨_, by rw [openResult_equal, if_neg other], roundOpened_running ..⟩
  case chunk =>
    intro s t c k x acts runs
    refine ⟨fun entered => ⟨fun e next ready => ?_, fun last => ?_, fun r =>
      exec_collectiveChunkStep_notNext acts runs entered⟩, fun e entered next zeroing => ?_,
      fun outside full r => ?_, fun outside next more room free r => ?_⟩
    · rw [exec_collectiveChunkStep_entered acts runs entered, stepChunk_exchanges next ready]
    · rw [exec_collectiveChunkStep_entered acts runs entered, stepChunk_leaves last]
    · rw [exec_collectiveChunkStep_entered acts runs entered, stepChunk_waits next zeroing]
    · rw [exec_collectiveChunkStep_outside acts runs outside]
      refine if_neg fun ⟨next, more, room, free⟩ => ?_
      rcases full with other | done | full | taken
      · exact other next
      · omega
      · omega
      · exact absurd free (by rw [taken]; decide)
    · rw [exec_collectiveChunkStep_outside acts runs outside, if_pos ⟨next, more, room, free⟩]

/-! ### Messages on their way (R372, R373, R384) -/

section

variable {s : State} {dest : Nat} {via : LinkPort} (way : wayTo s (nextModule s dest) = some via)
include way

theorem hopRoll_way (src : Nat) (m : RcMessage) :
    hopRoll s src dest m = (s.emit (.roll via src dest m)).count64 0x7040 1 := by
  rw [hopRoll, way]

theorem hopRoll_out (src : Nat) (m : RcMessage) : (hopRoll s src dest m).out = s.out ++ [.roll via src dest m] := by
  rw [hopRoll_way way]; rfl

end

section

variable (s : State) (src dest : Nat) (m : RcMessage)

theorem hopRoll_only_self : Only 96 s (hopRoll s src dest m) := hopRoll_only (.refl _ s) (.self _)

@[simp] theorem hopRoll_rc : (hopRoll s src dest m).rc = s.rc := (hopRoll_only_self s src dest m).frame .rc (by decide)
@[simp] theorem hopRoll_now : (hopRoll s src dest m).now = s.now :=
  (hopRoll_only_self s src dest m).frame .now (by decide)

/-- A message takes its hop, and unless it is an ACK waits to be repeated (R372). -/
theorem sendRoll_eq : ∃ rc, sendRoll s dest m = { hopRoll s (myModule s) dest (sealRoll m) with rc } ∧
    rc.unacked = s.rc.unacked ++ (if m.kind = 3 then [] else [{ msg := sealRoll m, dest, due := s.now + 2000 }]) := by
  by_cases ack : m.kind = 3
  · exact ⟨(hopRoll s (myModule s) dest (sealRoll m)).rc, if_pos ack, by rw [hopRoll_rc, if_pos ack, List.append_nil]⟩
  · exact ⟨_, if_neg ack, by rw [if_neg ack, hopRoll_rc, hopRoll_now]⟩

theorem sendRoll_out : (sendRoll s dest m).out = (hopRoll s (myModule s) dest (sealRoll m)).out := by
  obtain ⟨rc, sent, -⟩ := sendRoll_eq s dest m
  rw [sent]

theorem sendRoll_regs : (sendRoll s dest m).regs = (hopRoll s (myModule s) dest (sealRoll m)).regs := by
  obtain ⟨rc, sent, -⟩ := sendRoll_eq s dest m
  rw [sent]

theorem sendRoll_unacked : (sendRoll s dest m).rc.unacked = s.rc.unacked ++
    (if m.kind = 3 then [] else [{ msg := sealRoll m, dest, due := s.now + 2000 }]) := by
  obtain ⟨rc, sent, unacked⟩ := sendRoll_eq s dest m
  rw [sent]
  exact unacked

end

/-! ### ROLLCALL_MESSAGE and ROLLCALL_ABORT (R369, R372, R373) -/

section

variable {s : State} {via : LinkPort} {src : Nat} {m : RcMessage} (alive : linksAlive s = true)
include alive

section

variable (opened : wayOpen s via = true)
include opened

theorem exec_rollcallMessage_here : exec (.rollcallMessage ⟨via, src, myModule s⟩ m) s =
    .next (if badMessage s m then s.count32 0x7050 1 else actRoll (acceptRoll s src m) via src m) := by
  have run : exec (.rollcallMessage ⟨via, src, myModule s⟩ m) s = execRollcallMessage ⟨via, src, myModule s⟩ m s := rfl
  simp only [run, execRollcallMessage, alive, opened, receiveMessage, Bool.not_true, Bool.or_self, Bool.false_eq_true,
    if_false, ne_eq, not_true_eq_false]

theorem exec_rollcallMessage_onward {dest : Nat} (other : dest ≠ myModule s) :
    exec (.rollcallMessage ⟨via, src, dest⟩ m) s = .next (hopRoll s src dest m) := by
  have run : exec (.rollcallMessage ⟨via, src, dest⟩ m) s = execRollcallMessage ⟨via, src, dest⟩ m s := rfl
  simp only [run, execRollcallMessage, alive, opened, other, Bool.not_true, Bool.or_self, Bool.false_eq_true, if_false,
    ne_eq, not_false_eq_true, if_true]

theorem exec_rollcallAbort_arriving : exec (.rollcallAbort (some (via, src)) m) s =
    .next (if badMessage s m then s.count32 0x7050 1 else takeAbort (acceptRoll s src m) m) := by
  have run : exec (.rollcallAbort (some (via, src)) m) s = execRollcallAbort (some (via, src)) m s := rfl
  simp only [run, execRollcallAbort, alive, opened, Bool.not_true, Bool.false_eq_true, if_false]

end

theorem exec_rollcallAbort_own :
    exec (.rollcallAbort none m) s = .next (if badMessage s m then s else takeAbort s m) := by
  have run : exec (.rollcallAbort none m) s = execRollcallAbort none m s := rfl
  simp only [run, execRollcallAbort, alive, Bool.not_true, Bool.false_eq_true, if_false]

end

/-! ### ROLLCALL_REPEAT (R372, R373, R378) -/

/-- The unacknowledged message whose 2 µs end next. -/
def nextRepeat (u0 : RcUnacked) (us : List RcUnacked) : RcUnacked :=
  us.foldl (fun (m : RcUnacked) x => if x.due < m.due then x else m) u0

/-- An unacknowledged message as it stands after another transmission, as `m`. -/
def repeated (u : RcUnacked) (m : RcMessage) : RcUnacked :=
  { msg := m, dest := u.dest, due := u.due + 2000, repeats := u.repeats + 1 }

/-- The state from which the message `u` is transmitted again, while `rest` are unacknowledged beside it. -/
def repeatStamped (s : State) (u : RcUnacked) (rest : List RcUnacked) : State :=
  let y := restamp s u.msg
  { y.2 with rc := { y.2.rc with unacked := rest ++ [repeated u y.1] } }

/-- The state once the message `u` has been transmitted again. -/
def repeatSent (s : State) (u : RcUnacked) (rest : List RcUnacked) : State :=
  let v := repeatStamped s u rest
  (hopRoll v (myModule v) u.dest (restamp s u.msg).1).count32 0x7054 1

section

variable {s : State} {u0 : RcUnacked} {us : List RcUnacked} (waiting : s.rc.unacked = u0 :: us)
  (alive : linksAlive s = true)
include waiting alive

theorem exec_rollcallRepeat_again (more : (nextRepeat u0 us).repeats < 3) : exec .rollcallRepeat s =
    .next (repeatSent (s.passTo (nextRepeat u0 us).due) (nextRepeat u0 us) ((u0 :: us).erase (nextRepeat u0 us))) := by
  have run : exec .rollcallRepeat s = execRollcallRepeat s := rfl
  have dark : ¬(!linksAlive s) = true := by rw [alive]; decide
  rw [run, execRollcallRepeat, waiting]
  refine (if_neg dark).trans ((if_pos more).trans ?_)
  rw [← waiting]
  rfl

theorem exec_rollcallRepeat_last (last : 3 ≤ (nextRepeat u0 us).repeats) : exec .rollcallRepeat s =
    let s' := s.passTo (nextRepeat u0 us).due
    .next (unreachable { s' with rc := { s'.rc with unacked := (u0 :: us).erase (nextRepeat u0 us) } }
      (nextRepeat u0 us)) := by
  have run : exec .rollcallRepeat s = execRollcallRepeat s := rfl
  have dark : ¬(!linksAlive s) = true := by rw [alive]; decide
  rw [run, execRollcallRepeat, waiting]
  refine (if_neg dark).trans ((if_neg (Nat.not_lt.2 last)).trans ?_)
  rw [← waiting]
  rfl

end

section

variable (s : State) (u : RcUnacked) (rest : List RcUnacked)

/-- A new stamp changes the time service alone. -/
theorem restamp_snd (m : RcMessage) : ∃ servo, (restamp s m).2 = { s with rc := { s.rc with servo } } := by
  unfold restamp
  dsimp only
  split
  · exact ⟨_, rfl⟩
  · split <;> exact ⟨_, rfl⟩

theorem restamp_combining {m : RcMessage} (combining : m.kind < 4) : (restamp s m).1 = m := by
  unfold restamp
  dsimp only
  rw [if_neg (by omega), if_neg (by omega)]

/-- Beside the roll-call's own tables the state is as before the transmission. -/
theorem repeatStamped_eq : ∃ rc, repeatStamped s u rest = { s with rc } := by
  obtain ⟨servo, stamped⟩ := restamp_snd s u.msg
  exact ⟨_, by rw [repeatStamped, stamped]⟩

theorem repeatSent_now : (repeatSent s u rest).now = s.now := by
  obtain ⟨rc, stamped⟩ := repeatStamped_eq s u rest
  rw [repeatSent, State.count32_now, hopRoll_now, stamped]

theorem repeatSent_unacked :
    (repeatSent s u rest).rc.unacked = rest ++ [repeated u (restamp s u.msg).1] := by
  rw [repeatSent, State.count32_rc, hopRoll_rc]
  rfl

theorem repeatSent_out {via : LinkPort} (way : wayTo s (nextModule s u.dest) = some via) :
    (repeatSent s u rest).out = s.out ++ [.roll via (myModule s) u.dest (restamp s u.msg).1] := by
  obtain ⟨rc, stamped⟩ := repeatStamped_eq s u rest
  have same : wayTo { s with rc := rc } (nextModule { s with rc := rc } u.dest) = some via := way
  rw [repeatSent, State.count32_out, stamped, hopRoll_out same]
  rfl

end

/-- Settles O23: a message that leaves by its way, one that arrives by whether it is good and for this module, and the
repeats by whether the last of them is still to come. -/
theorem rollCall : Obligations.RollCall := by
  unfold Obligations.RollCall
  refine ⟨?send, ?message, ?abort, ?again⟩
  case send =>
    intro s dest m via way
    refine ⟨by rw [sendRoll_out, hopRoll_out way]; rfl, ?_, sendRoll_unacked s dest m⟩
    rw [State.reg64_congr (sendRoll_regs s dest m), hopRoll_way way, State.reg64_count64_self]
    rfl
  case message =>
    intro s via src dest m alive opened
    refine ⟨fun here good => ?_, fun here bad => ?_, exec_rollcallMessage_onward alive opened⟩
    · rw [here, exec_rollcallMessage_here alive opened, good]; rfl
    · rw [here, exec_rollcallMessage_here alive opened, bad]; rfl
  case abort =>
    intro s m alive
    refine ⟨fun good => ⟨?_, fun via src opened => ?_⟩, fun bad => ⟨?_, fun via src opened => ?_⟩⟩
    · rw [exec_rollcallAbort_own alive, good]; rfl
    · rw [exec_rollcallAbort_arriving alive opened, good]; rfl
    · rw [exec_rollcallAbort_own alive, bad]; rfl
    · rw [exec_rollcallAbort_arriving alive opened, bad]; rfl
  case again =>
    intro s u0 us waiting alive u rest s'
    exact ⟨fun more => ⟨repeatSent s' u rest, exec_rollcallRepeat_again waiting alive more, repeatSent_now s' u rest,
      fun via way => repeatSent_out s' u rest way, repeatSent_unacked s' u rest, restamp_combining s'⟩,
      fun last => exec_rollcallRepeat_last waiting alive last⟩

/-! ### FENCE_RESULT and FENCE_INSTANT (R288 to R290, R375, R376) -/

section

variable {s : State} {t : Fin 64} {f : OpenFence} (arrived : (s.tile t.val).fence = some f) (acts : active s = true)
include arrived acts

section

variable (waits : f.instant = none)
include waits

theorem exec_fenceResult_none (result : f.result = none) : exec (.fenceResult t) s = .next s := by
  have run : exec (.fenceResult t) s = execFenceResult t s := rfl
  simp [run, execFenceResult, arrived, acts, waits, result]

theorem exec_fenceResult_failed (result : f.result = some none) :
    exec (.fenceResult t) s = .next (failFence s t.val f) := by
  have run : exec (.fenceResult t) s = execFenceResult t s := rfl
  simp [run, execFenceResult, arrived, acts, waits, result]

theorem exec_fenceResult_combined {stamp : Nat} {vote : Bool} (result : f.result = some (some (stamp, vote))) :
    exec (.fenceResult t) s = if f.map && !phaseDefined s.itin.force f.next then .next (failFence s t.val f)
      else .next (takeFence s t.val f stamp vote) := by
  have run : exec (.fenceResult t) s = execFenceResult t s := rfl
  simp only [run, execFenceResult, arrived, acts, waits, result, Bool.not_true, Option.isSome_none, Bool.or_self,
    Bool.false_eq_true, if_false]

end

theorem exec_fenceInstant {tf : Nat} (instant : f.instant = some tf) :
    exec (.fenceInstant t) s = .next (completeFence (passToTime s tf) t.val f tf false) := by
  have run : exec (.fenceInstant t) s = execFenceInstant t s := rfl
  simp only [run, execFenceInstant, arrived, acts, instant, Bool.not_true, Bool.false_eq_true, if_false]

end

/-- A fence without MAP and VOTE only asks whether its instant has passed (R375, R376). -/
theorem takeFence_plain {f : OpenFence} (noMap : f.map = false) (noVote : f.vote = false) (s : State) (t stamp : Nat) :
    takeFence s t f stamp false =
      let tf := stamp + fenceLead s f.scope
      let g : OpenFence := { f with failed := false }
      if tf < s.time then completeFence (lateOnce s (tileParty s t) g) t g s.time true
      else s.modTile t (fun x => { x with fence := some { g with instant := some tf } }) := by
  simp [takeFence, noMap, noVote]

/-- The state once a tile has begun the phase of its fence and its gate has taken the combined vote (R288, R290). -/
def phaseEntered (s : State) (t : Nat) (f : OpenFence) (stamp : Nat) (late : Bool) : State :=
  (phaseLog s t stamp f.next 1 late f.failed f.seq).modTile t
    (fun x => { x with phase := f.next, gateFail := f.failed, fenceSeq := f.seq })

/-- The state once, further, a self-checkpoint has followed the vote and the fence's queue goes on (R288, R554). -/
def phaseBegun (s : State) (t : Nat) (f : OpenFence) (stamp : Nat) (late : Bool) : State :=
  let u := phaseEntered s t f stamp late
  closeFence (if f.vote then selfFence u (tileParty u t) else u) t f

section

variable (s : State) (t : Nat) (f : OpenFence) (stamp : Nat) (late : Bool)

theorem completeFence_eq : completeFence s t f stamp late =
    let u := phaseBegun s t f stamp late
    finishCommand (if f.map then joinCopper u else u) f.queue f.idx := rfl

theorem State.tile_modTile_self (g : Tile → Tile) : (s.modTile t g).tile t = g (s.tile t) :=
  State.tile_setTile_self ..

theorem closeFence_tile : (closeFence s t f).tile t = { s.tile t with fence := none } := by
  rw [closeFence, State.tile_congr (State.modQueue_tiles ..), State.tile_modTile_self]

theorem closeFence_queue : ((closeFence s t f).queue f.queue).fence = false := by
  rw [closeFence, State.modQueue, State.queue_setQueue_self]

theorem selfFence_tile (p : Nat) : (selfFence s p).tile t = s.tile t :=
  State.tile_congr ((selfFence_only (.refl _ s) (.self _)).frame .tiles (by decide)) t

theorem phaseBegun_tile :
    (phaseBegun s t f stamp late).tile t = { (phaseEntered s t f stamp late).tile t with fence := none } := by
  rw [phaseBegun, closeFence_tile]
  split
  · rw [selfFence_tile]
  · rfl

theorem phaseEntered_tile : ∃ x : Tile, (phaseEntered s t f stamp late).tile t =
    { x with phase := f.next, gateFail := f.failed, fenceSeq := f.seq } :=
  ⟨_, State.tile_modTile_self ..⟩

end

/-- Settles O24: the result of a fence by what the combining gave it, and its end by what begins with its phase. -/
theorem fences : Obligations.Fences := by
  unfold Obligations.Fences
  refine ⟨?result, ?plain, fun s t f tf arrived instant acts => exec_fenceInstant arrived acts instant, ?complete⟩
  case result =>
    intro s t f stamp vote arrived acts waits
    refine ⟨fun result defined => ?_, fun failed => ?_, exec_fenceResult_none arrived acts waits⟩
    · rw [exec_fenceResult_combined arrived acts waits result]
      exact if_neg (by simpa using defined)
    · rcases failed with failed | ⟨result, map, undefined⟩
      · exact exec_fenceResult_failed arrived acts waits failed
      · rw [exec_fenceResult_combined arrived acts waits result]
        exact if_pos (by rw [map, undefined]; rfl)
  case plain =>
    intro s t f stamp noMap noVote tf g
    rw [takeFence_plain noMap noVote]
    exact ⟨fun ahead => if_neg (Nat.not_lt.2 ahead), fun passed => if_pos passed⟩
  case complete =>
    intro s t f stamp late
    obtain ⟨x, entered⟩ := phaseEntered_tile s t f stamp late
    refine ⟨phaseBegun s t f stamp late, completeFence_eq .., ?_, ?_, ?_, ?_, closeFence_queue ..⟩ <;>
      rw [phaseBegun_tile, entered]

/-! ### TIME_REQ and TIME_RESP (R372, R378) -/

/-- The state once a request stamped `t1` to the upstream is under way. -/
def timeAsked (s : State) (t1 : Int) : State :=
  { s with rc := { s.rc with servo := { s.rc.servo with reqSent := some t1 } } }

section

variable {s : State} (runs : panelRuns s = true)
include runs

theorem exec_timeReq_arriving {via : LinkPort} (opened : wayOpen s via = true) (src : Nat) (t2 : Int) :
    exec (.timeReq (some (via, src, t2))) s =
      .next (answerTime (acceptRoll s src (timeMessage s 4 (.stamp 0))) src t2) := by
  have run : exec (.timeReq (some (via, src, t2))) s = execTimeReq (some (via, src, t2)) s := rfl
  simp only [run, execTimeReq, runs, opened, Bool.not_true, Bool.false_eq_true, if_false, if_true]

theorem exec_timeReq_own (follows : isTimeRoot s = false) (folded : s.itin.folded = true) : exec (.timeReq none) s =
    .next (sendRoll (timeAsked s (quarterTime s)) (upstream s) (timeMessage s 4 (.stamp (quarterTime s)))) := by
  have run : exec (.timeReq none) s = execTimeReq none s := rfl
  rw [run, execTimeReq]
  exact (if_neg (by rw [runs]; decide)).trans (if_neg (by rw [follows, folded]; decide))

theorem exec_timeReq_idle (idle : isTimeRoot s = true ∨ s.itin.folded = false) : exec (.timeReq none) s = .next s := by
  have run : exec (.timeReq none) s = execTimeReq none s := rfl
  rw [run, execTimeReq]
  exact (if_neg (by rw [runs]; decide)).trans (if_pos (by simpa using idle))

theorem exec_timeResp {via : LinkPort} (opened : wayOpen s via = true) (src : Nat) (t2 t3 t4 : Int) :
    exec (.timeResp via src t2 t3 t4) s =
      .next (takeTime (acceptRoll s src (timeMessage s 5 (.stamps t2 t3))) via src t2 t3 t4) := by
  have run : exec (.timeResp via src t2 t3 t4) s = execTimeResp via src t2 t3 t4 s := rfl
  simp only [run, execTimeResp, runs, opened, Bool.not_true, Bool.or_self, Bool.false_eq_true, if_false]

end

section

variable {s : State} (via : LinkPort) {src : Nat} (t2 t3 t4 : Int)

theorem takeTime_asked {t1 : Int} (asked : s.rc.servo.reqSent = some t1) (follows : isTimeRoot s = false)
    (answers : src = upstream s) :
    takeTime s via src t2 t3 t4 = validExchange s (exchangeOffset t1 t2 t3 t4 (asymmetry s via)) := by
  rw [takeTime, asked]
  exact if_neg (by simp [follows, answers])

theorem takeTime_unasked (unasked : s.rc.servo.reqSent = none ∨ isTimeRoot s = true ∨ src ≠ upstream s) :
    takeTime s via src t2 t3 t4 = s := by
  unfold takeTime
  split
  · rfl
  · next asked => exact if_pos (by simpa [asked, or_comm] using unasked)

end

/-! ### TIME_EXCHANGE_TIMEOUT (R379) -/

section

variable (s : State)

@[simp] theorem post_now (cls src payload party : Nat) : (post s cls src payload party).now = s.now :=
  (post_only_self s cls src payload party).frame .now (by decide)
@[simp] theorem post_rc (cls src payload party : Nat) : (post s cls src payload party).rc = s.rc :=
  (post_only_self s cls src payload party).frame .rc (by decide)

theorem holdoverLevel_rc : (holdoverLevel s).rc = s.rc :=
  (holdoverLevel_only (.refl _ s) (.self _)).frame .rc (by decide)

/-- Of the time service, naming a silent upstream changes only the list of those named. -/
theorem tellSilent_servo : ∃ told, (tellSilent s).rc.servo = { s.rc.servo with told } := by
  unfold tellSilent
  dsimp only
  split
  · exact ⟨_, rfl⟩
  · exact ⟨_, by rw [post_rc]⟩

theorem tellSilent_now : (tellSilent s).now = s.now := by
  unfold tellSilent
  dsimp only
  split
  · rfl
  · rw [post_now]

theorem tellSilent_known {s : State} (known : s.rc.servo.state ≠ .unlocked) : tellSilent s = s :=
  if_pos (by rw [decide_eq_true known]; rfl)

/-- The state after 3 ms without a valid exchange: a silent upstream may be named, and the next one is tried. -/
def nextTried : State :=
  let u := tellSilent (s.passTo (s.rc.servo.last + 3000000))
  let servo := { u.rc.servo with
    choice := nextChoice u, last := u.now, silent := u.rc.servo.silent + 1, offsets := [], reqSent := none }
  { u with rc := { u.rc with servo } }

/-- HOLDOVER begins (R379, R380). -/
def holdoverBegun : State :=
  holdoverLevel (driftRate { s with rc := { s.rc with servo := { s.rc.servo with state := .holdover } } })

theorem holdoverBegun_servo : ∃ rate, (holdoverBegun s).rc.servo = { s.rc.servo with state := .holdover, rate } :=
  ⟨_, by rw [holdoverBegun, holdoverLevel_rc, driftRate]⟩

end

section

variable {s : State} (runs : panelRuns s = true)
include runs

theorem exec_timeExchangeTimeout_idle (idle : isTimeRoot s = true ∨ s.itin.folded = false) :
    exec .timeExchangeTimeout s = .next s := by
  have run : exec .timeExchangeTimeout s = execTimeExchangeTimeout s := rfl
  rw [run, execTimeExchangeTimeout]
  exact if_pos (by simpa [runs] using idle)

theorem exec_timeExchangeTimeout (follows : isTimeRoot s = false) (folded : s.itin.folded = true) :
    exec .timeExchangeTimeout s =
      if (upstreams (nextTried s)).length ≤ (nextTried s).rc.servo.silent ∧ (nextTried s).rc.servo.state = .locked
      then .next (holdoverBegun (nextTried s)) else .next (nextTried s) := by
  have run : exec .timeExchangeTimeout s = execTimeExchangeTimeout s := rfl
  rw [run, execTimeExchangeTimeout]
  refine (if_neg (by rw [runs, follows, folded]; decide)).trans ?_
  simp only [Bool.and_eq_true, decide_eq_true_eq]
  rfl

end

section

variable (s : State)

theorem nextTried_servo : ∃ choice told part, (nextTried s).rc.servo =
    { s.rc.servo with choice, told, part, last := max s.now (s.rc.servo.last + 3000000),
                      silent := s.rc.servo.silent + 1, offsets := [], reqSent := none } := by
  obtain ⟨told, servo⟩ := tellSilent_servo (s.passTo (s.rc.servo.last + 3000000))
  exact ⟨_, told, _, by rw [nextTried, tellSilent_now, servo]; rfl⟩

theorem nextTried_now : (nextTried s).now = max s.now (s.rc.servo.last + 3000000) :=
  tellSilent_now _

variable {s : State} (known : s.rc.servo.state ≠ .unlocked)
include known

theorem nextTried_choice : (nextTried s).rc.servo.choice = nextChoice s := by
  have silent : tellSilent (s.passTo (s.rc.servo.last + 3000000)) = s.passTo (s.rc.servo.last + 3000000) :=
    tellSilent_known known
  rw [nextTried, silent]
  rfl

theorem nextTried_upstreams : upstreams (nextTried s) = upstreams s := by
  have silent : tellSilent (s.passTo (s.rc.servo.last + 3000000)) = s.passTo (s.rc.servo.last + 3000000) :=
    tellSilent_known known
  rw [nextTried, silent]
  rfl

end

/-! ### TIME_SET (R379, R384, R646) -/

/-- A write of the high word uses up the low word that the path wrote before. -/
theorem takeLow_wlatch (s : State) (p : Path) (a : Nat) {current : State → Word × State}
    (keeps : (current s).2.wlatch = s.wlatch) :
    mget none (takeLow s p a current).2.wlatch (latchKey p a) = none := by
  unfold takeLow
  split
  · rw [dropLow, mget_mset_self]
  · next unwritten => rw [keeps, unwritten]

/-- The low word is the one that the path wrote before, or a free value (R646). -/
theorem takeLow_timeLow (s : State) (p : Path) (a : Nat) : (takeLow s p a timeLow).1 =
    (mget none s.wlatch (latchKey p a)).getD (BitVec.ofNat 32 s.free) := by
  unfold takeLow
  split
  · next w written => rw [written]; rfl
  · next unwritten => rw [unwritten]; rfl

theorem takeLow_timeLow_rest (s : State) (p : Path) (a : Nat) : ∃ draws wlatch,
    (takeLow s p a timeLow).2 = { s with draws, wlatch } := by
  unfold takeLow
  split <;> exact ⟨_, _, rfl⟩

theorem loadTime_root {s : State} (root : isTimeRoot s = true) (unfolded : s.itin.folded = false) (v : Nat) :
    (loadTime s v).time = v := by
  simp [loadTime, root, unfolded]

theorem loadTime_discarded {s : State} (h : isTimeRoot s = false ∨ s.itin.folded = true) (v : Nat) :
    loadTime s v = s :=
  if_neg (by rcases h with h | h <;> simp [h])

theorem loadTime_wlatch (s : State) (v : Nat) : (loadTime s v).wlatch = s.wlatch := by
  unfold loadTime
  split <;> rfl

/-- The state once the counter has taken `hi` with the low word of path `p`. -/
def timeWritten (s : State) (p : Path) (hi : Word) : State :=
  let y := takeLow s p 0x7020 timeLow
  loadTime y.2 (y.1.toNat + 2 ^ 32 * hi.toNat)

section

variable {s : State} (p : Path) (hi : Word)

theorem exec_timeSet {p : Path} (gate : ownerGate s p 0x7024 = true) :
    exec (.timeSet p hi) s = .next (answer (timeWritten s p hi) .ok) := by
  have run : exec (.timeSet p hi) s = execTimeSet p hi s := rfl
  rw [run, execTimeSet, ownerWrite_gate gate]
  rfl

theorem timeWritten_wlatch : mget none (timeWritten s p hi).wlatch (latchKey p 0x7020) = none := by
  rw [timeWritten, loadTime_wlatch]
  exact takeLow_wlatch s p 0x7020 rfl

theorem timeWritten_root (root : isTimeRoot s = true) (unfolded : s.itin.folded = false) : (timeWritten s p hi).time =
    ((mget none s.wlatch (latchKey p 0x7020)).getD (BitVec.ofNat 32 s.free)).toNat + 2 ^ 32 * hi.toNat := by
  obtain ⟨draws, wlatch, rest⟩ := takeLow_timeLow_rest s p 0x7020
  rw [timeWritten, takeLow_timeLow, rest]
  exact loadTime_root (s := { s with draws, wlatch }) root unfolded _

theorem timeWritten_discarded (h : isTimeRoot s = false ∨ s.itin.folded = true) :
    (timeWritten s p hi).time = s.time := by
  obtain ⟨draws, wlatch, rest⟩ := takeLow_timeLow_rest s p 0x7020
  rw [timeWritten, rest, loadTime_discarded (s := { s with draws, wlatch }) h]

end

/-- Settles O25: a request and an answer by who asked whom, the time-out by the state of the servo, and the counter's
load by whether it is ROOT's before its first fold. -/
theorem timetable : Obligations.Timetable := by
  unfold Obligations.Timetable
  refine ⟨?request, fun s src t2 => rfl, ?answer, ?unasked, ?unlocked, ?known, ?idle, ?load, ?discard⟩
  case request =>
    intro s runs
    exact ⟨fun via src t2 opened => exec_timeReq_arriving runs opened src t2, fun follows folded =>
      ⟨timeAsked s (quarterTime s), rfl, rfl, rfl, exec_timeReq_own runs follows folded⟩⟩
  case answer =>
    intro s via t1 t2 t3 t4 runs opened u asked follows same
    rw [exec_timeResp runs opened, takeTime_asked via t2 t3 t4 asked follows same.symm]
    rfl
  case unasked =>
    intro s via src t2 t3 t4 runs opened u unasked
    rw [exec_timeResp runs opened, takeTime_unasked via t2 t3 t4 unasked]
  case unlocked =>
    intro s runs follows folded unlocked
    obtain ⟨choice, told, part, servo⟩ := nextTried_servo s
    refine ⟨nextTried s, ?_, nextTried_now s, ?_, by rw [servo], by rw [servo], by rw [servo], by rw [servo, unlocked]⟩
    · rw [exec_timeExchangeTimeout runs follows folded, servo, unlocked]
      exact if_neg (by rintro ⟨-, ⟨⟩⟩)
    · rw [servo, nextTried_now]
  case known =>
    intro s runs follows folded known
    obtain ⟨choice, told, part, servo⟩ := nextTried_servo s
    have chosen := nextTried_choice known
    have silent : (nextTried s).rc.servo.silent = s.rc.servo.silent + 1 := by rw [servo]
    have state : (nextTried s).rc.servo.state = s.rc.servo.state := by rw [servo]
    rw [exec_timeExchangeTimeout runs follows folded, nextTried_upstreams known, silent, state]
    by_cases all : (upstreams s).length ≤ s.rc.servo.silent + 1
    · by_cases locked : s.rc.servo.state = .locked
      · obtain ⟨rate, held⟩ := holdoverBegun_servo (nextTried s)
        exact ⟨_, if_pos ⟨all, locked⟩, by rw [held, silent], by rw [held, chosen], by rw [held, if_pos all]⟩
      · refine ⟨_, if_neg fun h => locked h.2, silent, chosen, ?_⟩
        rw [state, if_pos all]
        cases is : s.rc.servo.state
        case unlocked => exact absurd is known
        case locked => exact absurd is locked
        case holdover => rfl
    · exact ⟨_, if_neg fun h => all h.1, silent, chosen, by rw [state, if_neg all]⟩
  case idle =>
    exact fun s idle runs => ⟨exec_timeReq_idle runs idle, exec_timeExchangeTimeout_idle runs idle⟩
  case load =>
    intro s p hi gate root unfolded
    exact ⟨_, exec_timeSet hi gate, timeWritten_root p hi root unfolded, timeWritten_wlatch p hi, rfl⟩
  case discard =>
    intro s p hi gate h
    exact ⟨_, exec_timeSet hi gate, timeWritten_discarded p hi h, timeWritten_wlatch p hi, rfl⟩

end Sys2Proof.Machine

/-! Proofs of the obligations of spec/10_optical_io.md: moves, rotations and drains of the bundles, the tuning of the
rings, and the connections of the ports. -/

namespace Sys2Proof.Machine

open Sys2Proof

/-! ### Reads of lanterns, bundles and ports -/

section

variable {s u : State} (same : u.lanterns = s.lanterns) (n k : Nat)
include same

theorem State.lantern_congr : u.lantern n = s.lantern n := by
  unfold State.lantern; rw [same]

theorem State.bundle_congr : u.bundle n k = s.bundle n k := by
  unfold State.bundle; rw [State.lantern_congr same]

theorem State.port_congr : u.port n k = s.port n k := by
  unfold State.port; rw [State.lantern_congr same]

end

theorem State.link_congr {s u : State} (same : u.fabric = s.fabric) (l : ModLink) : u.link l = s.link l := by
  unfold State.link; rw [same]

/-! ### What leaves the lanterns alone -/

@[simp] theorem post_lanterns (s : State) (cls src payload party : Nat) :
    (post s cls src payload party).lanterns = s.lanterns :=
  (post_only_self s cls src payload party).frame .lanterns (by decide)

section

variable (s : State) (n m : Nat) (l : ModLink)

@[simp] theorem reroute_lanterns : (reroute s).lanterns = s.lanterns :=
  (reroute_only (.refl _ s) (.self _)).frame .lanterns (by decide)

@[simp] theorem transmit_lanterns : (transmit s l).lanterns = s.lanterns :=
  (transmit_only (.refl _ s) (.self _)).frame .lanterns (by decide)

@[simp] theorem checkDirs_lanterns (before : List Nat) : (checkDirs s before).lanterns = s.lanterns :=
  (checkDirs_only (.refl _ s) (.self _)).frame .lanterns (by decide)

@[simp] theorem clearLinks_lanterns : (clearLinks s n m).lanterns = s.lanterns :=
  (clearLinks_only (.refl _ s) (.self _)).frame .lanterns (by decide)

@[simp] theorem freshLinks_lanterns : (freshLinks s n m).lanterns = s.lanterns :=
  (freshLinks_only (.refl _ s) (.self _)).frame .lanterns (by decide)

end

/-! ### The timetable reaches an instant (R377, R379, R380) -/

theorem State.le_passTo_time (s : State) (t : Nat) : s.time ≤ (s.passTo t).time := Nat.le_add_right ..

/-- The time to wait is rounded up to a whole nanosecond, so the timetable has reached the instant after it. -/
theorem le_passToTime_time {s : State} (forward : 0 < 1000000 + s.rc.servo.rate) (t : Nat) :
    t ≤ (passToTime s t).time := by
  obtain ⟨pace, hpace⟩ : ∃ pace, pace = 1000000 + s.rc.servo.rate := ⟨_, rfl⟩
  obtain ⟨need, hneed⟩ : ∃ need : Int, need = 1000000 * ((t - s.time : Nat) : Int) - s.rc.servo.part := ⟨_, rfl⟩
  have wait : dueIn s t = ((need + pace - 1) / pace).toNat := by rw [hneed, hpace]; rfl
  have enough : need ≤ pace * (dueIn s t : Nat) := by
    have up := Int.mul_ediv_add_emod (need + pace - 1) pace
    have below := Int.emod_lt_of_pos (need + pace - 1) (hpace ▸ forward)
    calc need ≤ pace * ((need + pace - 1) / pace) := by omega
      _ ≤ pace * (dueIn s t : Nat) :=
        Int.mul_le_mul_of_nonneg_left (wait ▸ Int.self_le_toNat _) (Int.le_of_lt (hpace ▸ forward))
  have time : (passToTime s t).time = s.time + ((s.rc.servo.part + pace * (dueIn s t : Nat)) / 1000000).toNat := by
    rw [hpace, passToTime, State.passTo, Nat.add_sub_cancel_left]
  omega

/-! ### STILE_MOVE_START (R400, R405, R407, R409) -/

section

variable (s : State) (n m : Nat) (mv : StileMove)

theorem moveNow_time : (moveNow s n m mv).time = s.time :=
  (moveNow_only (.refl _ s) (.self _)).frame .time (by decide)

theorem moveNow_now : (moveNow s n m mv).now = s.now :=
  (moveNow_only (.refl _ s) (.self _)).frame .now (by decide)

/-- The bundle takes the move's entry, or parks where nothing of it may be lit. -/
theorem moveNow_bundle : ∃ entry away movedAt parked,
    (moveNow s n m mv).bundle n m =
      { s.bundle n m with
        entry, phase := mv.phase, slot := rotationSlot entry (s.lantern n).origin s.time,
        origin := (s.lantern n).origin, renew := none, away, movedAt, locked := false, move := none, parked } ∧
    (entry = mv.entry ∨ entry = 0) := by
  obtain ⟨u, hu⟩ : ∃ u, u = clearLinks (s.count64 (lanA n 0x40) 1) n m := ⟨_, rfl⟩
  have lanterns : u.lanterns = s.lanterns := hu ▸ clearLinks_lanterns ..
  have time : u.time = s.time := hu ▸ (clearLinks_only (.refl _ _) (.self _)).frame .time (by decide)
  unfold moveNow
  dsimp only
  rw [← hu, State.bundle_congr (checkDirs_lanterns ..), State.bundle_congr (freshLinks_lanterns ..),
    State.bundle_setBundle_self, State.bundle_congr lanterns, State.lantern_congr lanterns, time]
  exact ⟨_, _, _, _, rfl, by split <;> simp⟩

end

section

variable {s : State} {n : Fin 8} {m : Fin 32} {mv : StileMove}

theorem exec_stileMoveStart_waits (waits : bundleDrained s n.val m.val = false) :
    exec (.stileMoveStart n m) s = .next s := by
  have run : exec (.stileMoveStart n m) s = execStileMoveStart n m s := rfl
  rw [run, execStileMoveStart]
  dsimp only
  split
  · rfl
  · exact if_pos (by rw [waits]; simp)

/-- The move starts at its instant or once the heaters have settled; a late one is counted in a register. -/
theorem exec_stileMoveStart (planned : (s.bundle n.val m.val).move = some mv) (runs : panelRuns s = true)
    (drained : bundleDrained s n.val m.val = true) : ∃ regs, exec (.stileMoveStart n m) s =
      .next (moveNow { (passToTime s mv.instant).passTo (s.bundle n.val m.val).settle with regs } n.val m.val mv) := by
  have run : exec (.stileMoveStart n m) s = execStileMoveStart n m s := rfl
  rw [run, execStileMoveStart]
  simp only [planned, runs, drained]
  split
  · next idle => exact absurd idle (by decide)
  · split <;> exact ⟨_, rfl⟩

end

/-! ### LINK_LIT (R400, R426) -/

theorem launchFrame_dark (s : State) (l : ModLink) (f : Option SentFrame) (replay : Bool) :
    ((launchFrame s l f replay).link l).dark = (s.link l).dark := by
  rw [launchFrame, State.link_congr (State.emit_fabric ..), State.link_setLink_self]

theorem launchNext_dark (s : State) (l : ModLink) : ((launchNext s l).link l).dark = (s.link l).dark := by
  rw [launchNext, launchFrame_dark, State.link_setLink_self]

theorem transmit_dark (s : State) (l : ModLink) : ((transmit s l).link l).dark = (s.link l).dark := by
  unfold transmit
  extract_lets x k
  split
  · rfl
  · split
    · exact launchFrame_dark ..
    · refine foldl_view (fun u : State => (u.link l).dark) (fun _ _ u => ?_) s
      dsimp only
      split
      · exact launchNext_dark u l
      · rfl

/-- The link that the light of a bundle is on. -/
abbrev litLink (s : State) (n m : Nat) : ModLink := bundleLink n m (nowPos (s.bundle n m))

/-- The state in which the receiver of the bundle has locked on its light at the time `t`. -/
def bundleLit (s : State) (n m t : Nat) : State :=
  let u := (s.passTo t).setLink (litLink s n m) { s.link (litLink s n m) with dark := false, waited := 0 }
  u.setBundle n m { s.bundle n m with locked := true, movedAt := none, unmatched := false }

theorem exec_linkLit {s : State} {n : Fin 8} {m : Fin 32} {t : Nat} (moved : (s.bundle n.val m.val).movedAt = some t)
    (runs : panelRuns s = true) (up : (s.link (litLink s n.val m.val)).up = true) :
    exec (.linkLit n m) s = .next (transmit (bundleLit s n.val m.val (t + 48)) (litLink s n.val m.val)) := by
  have run : exec (.linkLit n m) s = execLinkLit n m s := rfl
  rw [run, execLinkLit]
  simp only [moved, runs, up]
  rfl

/-! ### LINK_DRAINED (R407, R453) -/

/-- Both sides of a draining link have acknowledged all. -/
structure DrainEnds (s : State) (l : ModLink) : Prop where
  draining : (s.link l).draining = true
  sent : (s.link l).retry = []
  mark : (s.link l).peerMark = true
  acked : (s.link l).markAcked = true
  runs : panelRuns s = true

/-- The state in which a copper link has left its drain. -/
def drainEnded (s : State) (k : Fin 13) : State :=
  s.setLink (.copper k) { s.link (.copper k) with draining := false, peerMark := false, markAcked := false }

section

variable {s : State}

theorem exec_linkDrained_bundle {n : Fin 8} {m : Fin 32} {i : Fin 4} (ends : DrainEnds s (.bundle n m i)) :
    exec (.linkDrained (.bundle n m i)) s =
      .next (s.setLink (.bundle n m i) { s.link (.bundle n m i) with drained := true }) :=
  if_neg (by simp [ends.draining, ends.sent, ends.mark, ends.acked, ends.runs])

/-- A copper link without a new entry goes on in the set that it is in. -/
theorem exec_linkDrained_stays {k : Fin 13} (ends : DrainEnds s (.copper k))
    (stays : (s.copperPort k.val).newEntry = none) : exec (.linkDrained (.copper k)) s = .next (drainEnded s k) := by
  refine (if_neg (by simp [ends.draining, ends.sent, ends.mark, ends.acked, ends.runs])).trans ?_
  simp only [stays]
  rfl

theorem exec_linkDrained_joins {k : Fin 13} {e t : Nat} (ends : DrainEnds s (.copper k))
    (joins : (s.copperPort k.val).newEntry = some (e, t)) : exec (.linkDrained (.copper k)) s = .next (reroute
      ((drainEnded (passToTime s t) k).setCopper k.val { s.copperPort k.val with entry := e, newEntry := none })) := by
  refine (if_neg (by simp [ends.draining, ends.sent, ends.mark, ends.acked, ends.runs])).trans ?_
  simp only [joins]
  rfl

end

/-! ### ROTATION_SLOT (R405, R409) -/

theorem exec_rotationSlot {s : State} (n : Fin 8) (runs : panelRuns s = true) :
    exec (.rotationSlot n) s = .next (s.each (List.range 32) (nextSlot n.val)) := by
  have run : exec (.rotationSlot n) s = execRotationSlot n s := rfl
  rw [run, execRotationSlot, runs]
  rfl

theorem slotNext_goesOn {b : Bundle} (before : ∀ r, b.renew = some r → b.origin + (b.slot + 1) * slotNs b.entry < r) :
    slotNext b = (b.slot + 1, b.origin, b.origin + (b.slot + 1) * slotNs b.entry) := by
  unfold slotNext
  dsimp only
  split
  · next r renews => exact if_neg (Nat.not_le.2 (before r renews))
  · rfl

theorem slotNext_renewed {b : Bundle} {r : Nat} (renews : b.renew = some r)
    (due : r ≤ b.origin + (b.slot + 1) * slotNs b.entry) : slotNext b = (0, r, r) := by
  rw [slotNext, renews]
  exact if_pos due

/-- A rotation goes to its next slot, unlocked, whether or not the slot's position may be lit. -/
theorem nextSlot_bundle {s : State} {n m : Nat} (rotates : entryMode (s.bundle n m).entry = 2) : ∃ renew away movedAt,
    (nextSlot n m s).bundle n m =
      { s.bundle n m with
        slot := (slotNext (s.bundle n m)).1, origin := (slotNext (s.bundle n m)).2.1, renew, away, movedAt,
        locked := false } := by
  unfold nextSlot
  obtain ⟨⟨k, origin, start⟩, next⟩ : ∃ next, next = slotNext (s.bundle n m) := ⟨_, rfl⟩
  rw [if_pos rotates, ← next]
  dsimp -zeta only
  extract_lets b u b' l x
  split
  · exact ⟨_, _, _, State.bundle_setBundle_self ..⟩
  · split
    · exact ⟨_, _, _, State.bundle_setBundle_self ..⟩
    · exact ⟨_, _, _, (State.bundle_congr (reroute_lanterns _) ..).trans (State.bundle_setBundle_self ..)⟩

/-! ### BUNDLE_LOCK_TIMEOUT (R426) -/

/-- The state once the receiver of the bundle has not locked within its time, which ends at `t`. -/
def bundleUnlit (s : State) (n m t : Nat) : State :=
  let u := linkDown (s.passTo t) (litLink s n m)
  u.setBundle n m { u.bundle n m with unmatched := true, movedAt := none }

theorem linkDown_now (s : State) (l : ModLink) : (linkDown s l).now = s.now :=
  (linkDown_only (.refl _ s) (.self _)).frame .now (by decide)

theorem bundleUnlit_now (s : State) (n m t : Nat) : (bundleUnlit s n m t).now = max s.now t := by
  rw [bundleUnlit, State.setBundle_now, linkDown_now, State.passTo_now]

theorem exec_bundleLockTimeout {s : State} {n : Fin 8} {m : Fin 32} {t : Nat}
    (moved : (s.bundle n.val m.val).movedAt = some t) (runs : panelRuns s = true)
    (up : (s.link (litLink s n.val m.val)).up = true)
    (inside : slotEndsFirst s (s.bundle n.val m.val) (s.link (litLink s n.val m.val)) t = false) :
    ∃ payload, exec (.bundleLockTimeout n m) s = .next (post
      (bundleUnlit s n.val m.val (t + (1000000 - (s.link (litLink s n.val m.val)).waited)))
      0x56 (srcLantern n.val (0x20 + m.val)) payload) := by
  have run : exec (.bundleLockTimeout n m) s = execBundleLockTimeout n m s := rfl
  rw [run, execBundleLockTimeout]
  simp only [moved, runs, up, inside]
  exact ⟨_, rfl⟩

/-- Settles O27: a move by whether its links have drained, a drained link by what it belongs to, and the slots of a
rotation by the fence that it may begin again at. -/
theorem bundles : Obligations.Bundles := by
  unfold Obligations.Bundles
  refine ⟨?move, ?lit, ?drained, ?slot, ?timeout⟩
  case move =>
    intro s n m mv planned runs
    refine ⟨exec_stileMoveStart_waits, fun drained => ?_⟩
    obtain ⟨regs, start⟩ := exec_stileMoveStart planned runs drained
    obtain ⟨entry, away, movedAt, parked, bundle, taken⟩ := moveNow_bundle
      { (passToTime s mv.instant).passTo (s.bundle n.val m.val).settle with regs } n.val m.val mv
    refine ⟨_, start, ?_⟩
    rw [bundle, moveNow_time, moveNow_now]
    exact ⟨rfl, rfl, rfl, rfl, taken,
      fun forward => Nat.le_trans (le_passToTime_time forward _) (State.le_passTo_time ..), Nat.le_max_right ..⟩
  case lit =>
    intro s n m t moved runs up
    refine ⟨_, exec_linkLit moved runs up, (transmit_only (.refl _ _) (.self _)).frame .now (by decide), ?_⟩
    rw [State.bundle_congr (transmit_lanterns ..), transmit_dark, bundleLit, State.bundle_setBundle_self]
    exact ⟨rfl, rfl, congrArg LinkState.dark (State.link_setLink_self ..)⟩
  case drained =>
    intro s l draining sent mark acked runs
    have ends : DrainEnds s l := ⟨draining, sent, mark, acked, runs⟩
    refine ⟨?bundle, ?stays, ?joins⟩
    case bundle =>
      rintro n m i rfl
      exact exec_linkDrained_bundle ends
    case stays =>
      rintro k rfl stays
      exact exec_linkDrained_stays ends stays
    case joins =>
      rintro k e t rfl joins
      exact ⟨_, exec_linkDrained_joins ends joins, State.copperPort_setCopper_self ..,
        congrArg LinkState.draining (State.link_setLink_self ..), fun forward => le_passToTime_time forward t⟩
  case slot =>
    intro s n runs
    refine ⟨exec_rotationSlot n runs, fun m rotates => ?_⟩
    obtain ⟨renew, away, movedAt, bundle⟩ := nextSlot_bundle rotates
    rw [bundle]
    exact ⟨rfl, fun before => by rw [slotNext_goesOn before]; exact ⟨rfl, rfl⟩,
      fun r renews due => by rw [slotNext_renewed renews due]; exact ⟨rfl, rfl⟩⟩
  case timeout =>
    intro s n m t x moved runs up inside
    obtain ⟨payload, given⟩ := exec_bundleLockTimeout moved runs up inside
    refine ⟨_, given, ?_⟩
    rw [State.bundle_congr (post_lanterns ..), post_now, bundleUnlit_now, bundleUnlit, State.bundle_setBundle_self]
    exact ⟨rfl, rfl, rfl⟩

/-! ### Reads after a lantern's update -/

section

variable (s : State) (n : Nat)

theorem State.lantern_setBundle_self (m : Nat) (x : Bundle) :
    (s.setBundle n m x).lantern n = { s.lantern n with bundles := mset {} (s.lantern n).bundles m x } :=
  State.lantern_setLantern_self ..

theorem State.bundle_setLantern_self (x : Lantern) (m : Nat) : (s.setLantern n x).bundle n m = mget {} x.bundles m := by
  rw [State.bundle, State.lantern_setLantern_self]

theorem State.bundle_setBundle_other {m j : Nat} (x : Bundle) (apart : m ≠ j) :
    (s.setBundle n m x).bundle n j = s.bundle n j := by
  rw [State.setBundle, State.bundle_setLantern_self, mget_mset_other _ _ _ apart, State.bundle]

end

/-! ### Heaters (R410 to R413) -/

/-- A lantern but for its heater codes. -/
def unheated (s : State) (n : Nat) : Lantern := { s.lantern n with heaters := [] }

theorem bundle_of_unheated {s u : State} {n : Nat} (same : unheated u n = unheated s n) (m : Nat) :
    u.bundle n m = s.bundle n m := by
  have bundles : (u.lantern n).bundles = (s.lantern n).bundles := by
    simpa only [unheated] using congrArg Lantern.bundles same
  rw [State.bundle, bundles, State.bundle]

theorem lantern_of_unheated {s u : State} {n : Nat} (same : unheated u n = unheated s n) :
    u.lantern n = { s.lantern n with heaters := (u.lantern n).heaters } :=
  congrArg (fun x : Lantern => { x with heaters := (u.lantern n).heaters }) same

theorem unheated_congr {s u : State} (same : u.lanterns = s.lanterns) (n : Nat) : unheated u n = unheated s n := by
  rw [unheated, State.lantern_congr same, unheated]

section

variable (s : State) (n r c : Nat)

theorem heater_setHeater_self : heater (setHeater s n r c) n r = c := by
  rw [heater, setHeater, State.lantern_setLantern_self, mget_mset_self]

theorem setHeater_unheated : unheated (setHeater s n r c) n = unheated s n := by
  rw [unheated, setHeater, State.lantern_setLantern_self, unheated]

end

theorem roundEighths_near (s : State) (x : Int) :
    -4 ≤ 8 * (roundEighths s x).1 - x ∧ 8 * (roundEighths s x).1 - x ≤ 4 := by
  unfold roundEighths
  split
  · split <;> dsimp only <;> omega
  · dsimp only; omega

theorem followTable_heater (s : State) (n m r : Nat) : heater (followTable n m r s) n r =
    (max 0 (min (roundEighths s ((tableEighths n r (sensorRead s n (m / 2)) : Int) + 8 * ringOffset s n r)).1
      65535)).toNat := by
  unfold followTable
  rw [heater_setHeater_self]
  split <;> omega

theorem followTable_regs (s : State) (n m r : Nat) : (followTable n m r s).regs = s.regs :=
  (followTable_only (.refl _ s) (.self _)).frame .regs (by decide)

/-! ### RING_HEATER_UPDATE (R411, R429) -/

theorem setRegs_reg {addr : Nat → Nat} (apart : Function.Injective addr) (w : Nat → Word) {ks : List Nat}
    (nodup : ks.Nodup) (s : State) {i : Nat} (mem : i ∈ ks) :
    (s.each ks (fun k u => u.setReg (addr k) (w k))).reg (addr i) = w i := by
  obtain ⟨u, -, turn⟩ := (State.each_turn (fun u => u.reg (addr i))
    (fun k u other => u.reg_setReg_other _ (apart.ne other)) nodup s).2 mem
  rw [turn, State.reg_setReg_self]

theorem sensorA_injective (n : Nat) : Function.Injective (sensorA n) := fun i j same => by
  unfold sensorA lanA at same; omega

/-- The word of a sensor: of a reading that arrives, or of the one before. -/
def sampleWord (s : State) (n : Nat) (readings : List Int) (i : Nat) : Word :=
  let ts := (List.range 16).map (fun j => readings.getD j (sensorRead s n j))
  BitVec.ofNat 32 (BitVec.ofInt 16 (ts.getD i 0)).toNat

/-- The state once the 16 sensors of the lantern are sampled. -/
def sampled (s : State) (n : Nat) (readings : List Int) : State :=
  s.each (List.range 16) (fun i u => u.setReg (sensorA n i) (sampleWord s n readings i))

theorem sampled_reg (s : State) (n : Nat) (readings : List Int) {i : Nat} (hi : i < 16) :
    (sampled s n readings).reg (sensorA n i) =
      BitVec.ofNat 32 (BitVec.ofInt 16 (readings.getD i (sensorRead s n i))).toNat := by
  rw [sampled, setRegs_reg (sensorA_injective n) _ List.nodup_range s (List.mem_range.2 hi)]
  simp [sampleWord, hi]

/-- The heaters that then follow the table are no registers. -/
theorem exec_ringHeaterUpdate {s : State} (n : Fin 8) (readings : List Int) (good : s.power.pwrgd = true) :
    ∃ u, exec (.ringHeaterUpdate n readings) s = .next u ∧ u.regs = (sampled s n.val readings).regs := by
  have run : exec (.ringHeaterUpdate n readings) s = execRingHeaterUpdate n readings s := rfl
  rw [run, execRingHeaterUpdate]
  refine ⟨_, (if_neg (by simp [good])).trans (apply_ite Host.Outcome.next _ _ _).symm, ?_⟩
  split
  · rfl
  · refine foldl_view State.regs (fun m _ u => ?_) _
    dsimp only
    split
    · rfl
    · exact foldl_view State.regs (fun r _ v => followTable_regs v n.val m r) u

/-! ### DRIFT_UPDATE and CAL_URGENT (R414, R415) -/

section

variable (s : State) (n m why : Nat)

theorem setUrgent_bundle : (setUrgent s n m why).bundle n m = { s.bundle n m with urgent := true } := by
  unfold setUrgent
  dsimp only
  split
  · next urgent => rw [← urgent]
  · rw [State.bundle_congr (post_lanterns ..), State.bundle_setBundle_self]

theorem setUrgent_time : (setUrgent s n m why).time = s.time :=
  (setUrgent_only (.refl _ s) (.self _)).frame .time (by decide)

end

/-- The state once the bundle's drift is known. -/
def driftNoted (s : State) (n m drift : Nat) : State :=
  s.setBundle n m { s.bundle n m with
    drift, pending := if driftPm s n < drift && (s.bundle n m).pending.isNone then some s.time
      else (s.bundle n m).pending }

theorem driftNoted_pending {s : State} {n m drift : Nat} (drifts : driftPm s n < drift) :
    ((driftNoted s n m drift).bundle n m).pending.isSome = true := by
  rw [driftNoted, State.bundle_setBundle_self]
  cases pending : (s.bundle n m).pending <;> simp [drifts]

section

variable {s : State} {n : Fin 8} {m : Fin 32} (runs : panelRuns s = true)
include runs

theorem exec_driftUpdate (distances : List Nat) (lit : (s.bundle n.val m.val).entry ≠ 0) :
    exec (.driftUpdate n m distances) s =
      let u := driftNoted s n.val m.val ((distances.take 16).foldl max 0)
      .next (if urgentPm u n.val < (distances.take 16).foldl max 0 then setUrgent u n.val m.val 1 else u) :=
  if_neg (by rw [runs]; simpa using lit)

theorem exec_calUrgent_drift (drifts : urgentPm s n.val < (s.bundle n.val m.val).drift) :
    exec (.calUrgent n m) s = .next (setUrgent s n.val m.val 1) := by
  have run : exec (.calUrgent n m) s = execCalUrgent n m s := rfl
  rw [run, execCalUrgent, runs]
  exact if_pos drifts

theorem exec_calUrgent_pending {t : Nat} (near : (s.bundle n.val m.val).drift ≤ urgentPm s n.val)
    (pending : pendingSince s n.val m.val = some t) :
    exec (.calUrgent n m) s = .next (setUrgent (passToTime s (t + 60000000000)) n.val m.val 0) := by
  have run : exec (.calUrgent n m) s = execCalUrgent n m s := rfl
  rw [run, execCalUrgent, runs, pending]
  exact if_neg (Nat.not_lt.2 near)

end

/-! ### CALIBRATION_START and CALIBRATION_STOP (R415) -/

theorem exec_calibrationStart {s : State} {n : Fin 8} {m : Fin 32} {t since : Nat}
    (pending : pendingSince s n.val m.val = some t) (parked : (s.bundle n.val m.val).parked = some since)
    (runs : panelRuns s = true) (inService : (s.lantern n.val).calDone = true)
    (idle : (s.bundle n.val m.val).calibrating = none) (stays : (s.bundle n.val m.val).move = none) :
    exec (.calibrationStart n m) s = .next (beginCal ((s.passTo (since + 50000)).setBundle n.val m.val
      { s.bundle n.val m.val with pending := some t }) n.val m.val) := by
  have run : exec (.calibrationStart n m) s = execCalibrationStart n m s := rfl
  rw [run, execCalibrationStart]
  simp only [pending, parked, runs, inService, idle, stays]
  rfl

theorem exec_calibrationStop (s : State) (n : Fin 8) (m : Fin 32) : exec (.calibrationStop n m) s =
    if panelRuns s then .next (stopCal s n.val m.val) else .next s := rfl

section

variable {s : State} {n m : Nat}

theorem calibration_idle_or_running :
    ((s.bundle n m).calibrating = none ∨ (s.lantern n).calDone = false) ∨
      ((s.bundle n m).calibrating.isSome = true ∧ (s.lantern n).calDone = true) := by
  cases (s.bundle n m).calibrating with
  | none => exact .inl (.inl rfl)
  | some t =>
    cases (s.lantern n).calDone with
    | false => exact .inl (.inr rfl)
    | true => exact .inr ⟨rfl, rfl⟩

theorem stopCal_idle (idle : (s.bundle n m).calibrating = none ∨ (s.lantern n).calDone = false) : stopCal s n m = s :=
  if_pos (by rcases idle with idle | idle <;> simp [idle])

/-- The heaters of a bundle return to their saved codes. -/
def heatersBack (s : State) (n m : Nat) : State :=
  ((bundleRings m).zip (s.bundle n m).saved).foldl (fun s p => setHeater s n p.1 p.2) s

theorem heatersBack_unheated : unheated (heatersBack s n m) n = unheated s n :=
  foldl_view (unheated · n) (fun _ _ u => setHeater_unheated u ..) s

theorem heatersBack_now : (heatersBack s n m).now = s.now :=
  foldl_view State.now (fun _ _ u => State.setLantern_now u n _) s

theorem stopCal_running (running : (s.bundle n m).calibrating.isSome = true)
    (inService : (s.lantern n).calDone = true) :
    stopCal s n m = ((heatersBack s n m).setBundle n m { s.bundle n m with
      calibrating := none, saved := [], settle := s.now + 4000 }).count32 (lanA n 0x50) 1 := by
  rw [← heatersBack_now (s := s) (n := n) (m := m), ← bundle_of_unheated (heatersBack_unheated (s := s) (m := m)) m]
  exact if_neg (by simp [inService, Option.isNone_iff_eq_none, ← Option.isSome_iff_ne_none, running])

/-- A calibration that stops changes nothing of the lantern but its heater codes and its bundles. -/
theorem stopCal_lantern : ∃ heaters bundles, (stopCal s n m).lantern n = { s.lantern n with heaters, bundles } := by
  rcases calibration_idle_or_running (s := s) (n := n) (m := m) with idle | ⟨running, inService⟩
  · exact ⟨(s.lantern n).heaters, (s.lantern n).bundles, congrArg (State.lantern · n) (stopCal_idle idle)⟩
  · exact ⟨_, _, by rw [stopCal_running running inService, State.lantern_congr (State.count32_lanterns ..),
      State.lantern_setBundle_self, lantern_of_unheated heatersBack_unheated]⟩

theorem stopCal_bundle_other {j : Nat} (apart : m ≠ j) : (stopCal s n m).bundle n j = s.bundle n j := by
  rcases calibration_idle_or_running (s := s) (n := n) (m := m) with idle | ⟨running, inService⟩
  · exact congrArg (State.bundle · n j) (stopCal_idle idle)
  · rw [stopCal_running running inService, State.bundle_congr (State.count32_lanterns ..),
      State.bundle_setBundle_other _ _ _ apart, bundle_of_unheated heatersBack_unheated]

end

/-! ### The end of the start-up calibration (R427) -/

/-- From `s` to `u` the lantern keeps its planes' trim and its state of calibration, and the bundle `m` all but its
move. -/
structure OnlyMoves (s u : State) (n m : Nat) : Prop where
  bundle : ∃ move, u.bundle n m = { s.bundle n m with move }
  calDone : (u.lantern n).calDone = (s.lantern n).calDone
  trim : (u.lantern n).trim = (s.lantern n).trim

theorem OnlyMoves.refl (s : State) (n m : Nat) : OnlyMoves s s n m := ⟨⟨_, rfl⟩, rfl, rfl⟩

theorem OnlyMoves.planMove {s u : State} {n m : Nat} (h : OnlyMoves s u n m) (k : Nat) (e : BitVec 64) (t : Nat) :
    OnlyMoves s (planMove u n k e t) n m := by
  obtain ⟨⟨move, bundle⟩, calDone, trim⟩ := h
  refine ⟨?_, by rw [Machine.planMove, State.lantern_setBundle_self, calDone],
    by rw [Machine.planMove, State.lantern_setBundle_self, trim]⟩
  by_cases own : k = m
  · subst own
    exact ⟨_, by rw [Machine.planMove, State.bundle_setBundle_self, bundle]⟩
  · exact ⟨move, by rw [Machine.planMove, State.bundle_setBundle_other _ _ _ own, bundle]⟩

theorem OnlyMoves.stopCal {s u : State} {n m : Nat} (h : OnlyMoves s u n m)
    (idle : (s.bundle n m).calibrating = none) (k : Nat) : OnlyMoves s (stopCal u n k) n m := by
  by_cases own : k = m
  · subst own
    obtain ⟨move, bundle⟩ := h.bundle
    rwa [stopCal_idle (.inl (by rw [bundle]; exact idle))]
  · obtain ⟨heaters, bundles, lantern⟩ := stopCal_lantern (s := u) (n := n) (m := k)
    exact ⟨by rw [stopCal_bundle_other own]; exact h.bundle, by rw [lantern]; exact h.calDone,
      by rw [lantern]; exact h.trim⟩

theorem relight_onlyMoves {s : State} {n m : Nat} (idle : (s.bundle n m).calibrating = none) :
    OnlyMoves s (relight s n) n m := by
  unfold relight State.each
  refine List.foldlRecOn (motive := fun u => OnlyMoves s u n m) _ _ (OnlyMoves.refl s n m) fun u h k _ => ?_
  dsimp only
  split
  · exact (h.stopCal idle k).planMove ..
  · exact h

/-- The state in which the lantern is calibrated and its planes without a fault are FAST. -/
def planesFast (s : State) (n : Nat) : State :=
  s.setLantern n { s.lantern n with calDone := true, calBegun := none, trim := (s.lantern n).faulty }

theorem planesFast_bundle (s : State) (n m : Nat) : (planesFast s n).bundle n m = s.bundle n m :=
  State.bundle_setLantern_self ..

section

variable {s : State} {n : Nat}

theorem startupCalDone_last (idle : ∀ m < 32, (s.bundle n m).calibrating = none) :
    startupCalDone s n = relight (planesFast s n) n :=
  if_neg fun busy => by
    obtain ⟨m, mem, running⟩ := List.any_eq_true.1 busy
    rw [idle m (List.mem_range.1 mem)] at running
    cases running

theorem startupCalDone_bundle {m : Nat} (idle : (s.bundle n m).calibrating = none) :
    ∃ move, (startupCalDone s n).bundle n m = { s.bundle n m with move } := by
  unfold startupCalDone
  split
  · exact ⟨_, rfl⟩
  · obtain ⟨move, bundle⟩ := (relight_onlyMoves (s := planesFast s n) (m := m) (by rwa [planesFast_bundle])).bundle
    exact ⟨move, bundle.trans (by rw [planesFast_bundle])⟩

theorem startupCalDone_lantern (idle : ∀ m < 32, (s.bundle n m).calibrating = none) :
    ((startupCalDone s n).lantern n).calDone = true ∧
      ((startupCalDone s n).lantern n).trim = (s.lantern n).faulty := by
  obtain ⟨-, calDone, trim⟩ := relight_onlyMoves (s := planesFast s n) (m := 0)
    (by rw [planesFast_bundle]; exact idle 0 (by decide))
  rw [startupCalDone_last idle, calDone, trim, planesFast, State.lantern_setLantern_self]
  exact ⟨rfl, rfl⟩

theorem startupCalDone_now : (startupCalDone s n).now = s.now :=
  (startupCalDone_only (.refl _ s) (.self _)).frame .now (by decide)

theorem startupCalDone_time : (startupCalDone s n).time = s.time :=
  (startupCalDone_only (.refl _ s) (.self _)).frame .time (by decide)

end

/-! ### CALIBRATION_DONE (R416, R427) -/

section

variable (s : State) (n m : Nat) (targets : List Nat)

theorem setOffset_unheated (p : Nat × Nat) : unheated (setOffset n m s p) n = unheated s n := by
  unfold setOffset
  dsimp only
  rw [setHeater_unheated, unheated_congr (State.setField_lanterns ..)]
  split <;> rfl

/-- The offsets of the bundle's rings take their targets. -/
def offsetsSet : State := ((bundleRings m).zip (targets.map (· % 65536))).foldl (setOffset n m) s

theorem offsetsSet_unheated : unheated (offsetsSet s n m targets) n = unheated s n :=
  foldl_view (unheated · n) (fun p _ u => setOffset_unheated u n m p) s

theorem offsetsSet_now : (offsetsSet s n m targets).now = s.now :=
  foldl_view State.now (fun _ _ u => (setOffset_only (.refl _ u) (.self _)).frame .now (by decide)) s

theorem offsetsSet_time : (offsetsSet s n m targets).time = s.time :=
  foldl_view State.time (fun _ _ u => (setOffset_only (.refl _ u) (.self _)).frame .time (by decide)) s

/-- The state once the bundle's calibration has ended. -/
def calibrated : State :=
  let u := offsetsSet s n m targets
  ((u.setReg64 (bundleA n m 0x8) u.time).count32 (lanA n 0x4C) 1).setBundle n m { u.bundle n m with
    calibrating := none, saved := [], pending := none, urgent := false, lastCal := u.time }

theorem calibrated_now : (calibrated s n m targets).now = s.now := offsetsSet_now ..

theorem calibrated_time : (calibrated s n m targets).time = s.time := offsetsSet_time ..

theorem calibrated_bundle : (calibrated s n m targets).bundle n m = { s.bundle n m with
    calibrating := none, saved := [], pending := none, urgent := false, lastCal := s.time } := by
  rw [calibrated, State.bundle_setBundle_self, bundle_of_unheated (offsetsSet_unheated ..), offsetsSet_time]

theorem calibrated_bundle_other {j : Nat} (apart : m ≠ j) : (calibrated s n m targets).bundle n j = s.bundle n j := by
  rw [calibrated, State.bundle_setBundle_other _ _ _ apart, State.bundle_congr (State.count32_lanterns ..),
    State.bundle_congr (State.setReg64_lanterns ..), bundle_of_unheated (offsetsSet_unheated ..)]

theorem calibrated_faulty : ((calibrated s n m targets).lantern n).faulty = (s.lantern n).faulty := by
  rw [calibrated, State.lantern_setBundle_self, State.lantern_congr (State.count32_lanterns ..),
    State.lantern_congr (State.setReg64_lanterns ..), lantern_of_unheated (offsetsSet_unheated s n m targets)]

end

section

variable {s : State} {n : Fin 8} {m : Fin 32} {t : Nat} (targets : List Nat)
  (running : (s.bundle n.val m.val).calibrating = some t) (runs : panelRuns s = true)
include running runs

theorem exec_calibrationDone_inService (inService : (s.lantern n.val).calDone = true) :
    exec (.calibrationDone n m targets) s = .next (calibrated (s.passTo (t + 190900)) n.val m.val targets) := by
  have run : exec (.calibrationDone n m targets) s = execCalibrationDone n m targets s := rfl
  rw [run, execCalibrationDone]
  simp only [running, runs, inService]
  rfl

theorem exec_calibrationDone_startup (startup : (s.lantern n.val).calDone = false) :
    exec (.calibrationDone n m targets) s =
      .next (startupCalDone (calibrated (s.passTo (t + 11300000)) n.val m.val targets) n.val) := by
  have run : exec (.calibrationDone n m targets) s = execCalibrationDone n m targets s := rfl
  rw [run, execCalibrationDone]
  simp only [running, runs, startup]
  rfl

end

/-- Settles O28: the heaters by the rounding of their codes, a calibration by its start, its stop and its two ends, and
urgency by its two causes. -/
theorem ringTuning : Obligations.RingTuning := by
  unfold Obligations.RingTuning
  refine ⟨?sampled, ?heater, ?drift, ?start, ?stop, ?idle, ?inService, ?startup, ?urgentDrift, ?urgentPending⟩
  case sampled =>
    intro s n readings good
    obtain ⟨u, update, regs⟩ := exec_ringHeaterUpdate n readings good
    exact ⟨u, update, fun i hi => by rw [State.reg_congr regs, sampled_reg s n.val readings hi]⟩
  case heater =>
    intro s n m r x
    exact ⟨_, (roundEighths_near s x).1, (roundEighths_near s x).2, followTable_heater s n m r⟩
  case drift =>
    intro s n m distances runs lit
    have drift : ((driftNoted s n.val m.val ((distances.take 16).foldl max 0)).bundle n.val m.val).drift =
        (distances.take 16).foldl max 0 := congrArg Bundle.drift (State.bundle_setBundle_self ..)
    refine ⟨_, exec_driftUpdate runs distances lit, ?_⟩
    split
    · rw [setUrgent_bundle]
      exact ⟨drift, driftNoted_pending⟩
    · exact ⟨drift, driftNoted_pending⟩
  case start =>
    intro s n m t since pending parked runs inService idle stays
    refine ⟨_, exec_calibrationStart pending parked runs inService idle stays, rfl, ?_⟩
    rw [beginCal, State.bundle_setBundle_self, State.bundle_setBundle_self]
    exact ⟨rfl, rfl⟩
  case stop =>
    intro s n m runs running inService
    refine ⟨_, (exec_calibrationStop s n m).trans (if_pos runs), ?_⟩
    rw [stopCal_running running inService, State.bundle_congr (State.count32_lanterns ..), State.bundle_setBundle_self]
    exact ⟨rfl, rfl⟩
  case idle =>
    intro s n m idle
    rw [exec_calibrationStop, stopCal_idle idle, ite_self]
  case inService =>
    intro s n m targets t running runs inService
    refine ⟨_, exec_calibrationDone_inService targets running runs inService, ?_⟩
    rw [calibrated_bundle, calibrated_time, calibrated_now]
    exact ⟨rfl, rfl, rfl, rfl, rfl⟩
  case startup =>
    intro s n m targets t running runs startup
    have bundle := calibrated_bundle (s.passTo (t + 11300000)) n.val m.val targets
    obtain ⟨move, last⟩ := startupCalDone_bundle (n := n.val) (congrArg Bundle.calibrating bundle)
    refine ⟨_, exec_calibrationDone_startup targets running runs startup, ?_⟩
    rw [last, bundle, startupCalDone_time, startupCalDone_now, calibrated_time, calibrated_now]
    refine ⟨rfl, rfl, rfl, fun others => ?_⟩
    have idle : ∀ k < 32, ((calibrated (s.passTo (t + 11300000)) n.val m.val targets).bundle n.val k).calibrating =
        none := fun k hk => by
      by_cases own : m.val = k
      · rw [← own, bundle]
      · rw [calibrated_bundle_other _ _ _ _ own]
        exact others k hk (Ne.symm own)
    obtain ⟨calDone, trim⟩ := startupCalDone_lantern idle
    exact ⟨calDone, trim.trans (calibrated_faulty ..)⟩
  case urgentDrift =>
    intro s n m runs drifts
    refine ⟨_, exec_calUrgent_drift runs drifts, ?_⟩
    rw [setUrgent_bundle]
    exact ⟨rfl, rfl⟩
  case urgentPending =>
    intro s n m t runs near pending
    refine ⟨_, exec_calUrgent_pending runs near pending, ?_⟩
    rw [setUrgent_bundle, setUrgent_time]
    exact ⟨rfl, fun forward => le_passToTime_time forward _⟩

/-! ### Ports of a lantern (R422, R424) -/

section

variable (s : State) (n : Nat)

theorem State.port_setLantern_self (x : Lantern) (p : Nat) : (s.setLantern n x).port n p = mget {} x.ports p := by
  rw [State.port, State.lantern_setLantern_self]

theorem State.port_setPort_other {p j : Nat} (x : Port) (apart : p ≠ j) : (s.setPort n p x).port n j = s.port n j := by
  rw [State.setPort, State.port_setLantern_self, mget_mset_other _ _ _ apart, State.port]

theorem lasersFollow_port (p : Nat) : (lasersFollow s n).port n p = s.port n p := State.port_setLantern_self ..

theorem startPort_port (p cause : Nat) : (startPort s n p cause).port n p = { s.port n p with
    phase := .probe, attempt := 1, cause, begun := s.now, peer := none, accepted := false, mismatch := false,
    keying := {} } := by
  rw [startPort, lasersFollow_port, State.port_setPort_self]

theorem startPort_port_other {p j : Nat} (cause : Nat) (apart : p ≠ j) :
    (startPort s n p cause).port n j = s.port n j := by
  rw [startPort, lasersFollow_port, State.port_setPort_other _ _ _ apart]

theorem startPort_regs (p cause : Nat) : (startPort s n p cause).regs = s.regs := rfl

theorem startPort_now (p cause : Nat) : (startPort s n p cause).now = s.now := rfl

theorem clearPort_now (p : Nat) : (clearPort s n p).now = s.now :=
  (clearPort_only (.refl _ s) (.self _)).frame .now (by decide)

end

/-! ### Light (R420, R422, R424, R433) -/

section

variable {s : State} {n : Fin 8} {port : Fin 16} (runs : panelRuns s = true)
include runs

theorem exec_probeBurst (probes : (s.port n.val port.val).phase = .probe) :
    exec (.probeBurst n port) s = .next (s.emit (.light n port true)) :=
  if_pos (by simp [runs, probes])

theorem exec_portLightReceived (power : Int) (started : (s.lantern n.val).started = true) :
    exec (.portLightReceived n port power) s =
      let u := s.setReg (portA n.val port.val 0x8) (BitVec.ofNat 32 (BitVec.ofInt 16 power).toNat)
      if (s.port n.val port.val).phase = .probe
        then .next ((u.setPort n.val port.val { s.port n.val port.val with phase := .identify }).emit
          (.light n port false))
        else .next u :=
  if_neg (by simp [runs, started])

end

/-- The state in which a port that lost its light starts again. -/
def lightLost (s : State) (n p : Nat) : State :=
  let u := ((s.count32 (lanA n 0x54) 1).count32 (portA n p 0x1C) 1).setPort n p { s.port n p with phase := .probe }
  startPort ((clearPort u n p).setReg (portA n p 0x8) 0x8000) n p 3

theorem lightLost_now (s : State) (n p : Nat) : (lightLost s n p).now = s.now := by
  rw [lightLost, startPort_now, State.setReg_now, clearPort_now, State.setPort_now,
    State.count32_now, State.count32_now]

theorem exec_portLossOfLight {s : State} {n : Fin 8} {port : Fin 16} (runs : panelRuns s = true)
    (lit : (s.port n.val port.val).phase = .identify ∨ (s.port n.val port.val).phase = .active) :
    exec (.portLossOfLight n port) s = .next (post (lightLost s n.val port.val) 0x52 (srcPort n.val port.val)
      ((lightLost s n.val port.val).reg (portA n.val port.val 0x1C)).toNat) :=
  if_neg (by rcases lit with lit | lit <;> simp [runs, lit])

/-! ### CRC-32 (R425) -/

theorem crc32Steps_lt (n : Nat) {c : Nat} (h : c < 2 ^ 32) : crc32Steps n c < 2 ^ 32 := by
  induction n generalizing c with
  | zero => exact h
  | succ n ih =>
    refine ih ?_
    have half : c / 2 < 2 ^ 32 := by omega
    split
    · exact Nat.xor_lt_two_pow half (by decide)
    · exact half

theorem crc32_lt (bs : List Nat) : crc32 bs < 2 ^ 32 := by
  refine Nat.xor_lt_two_pow ?_ (by decide)
  refine List.foldlRecOn (motive := fun c => c < 2 ^ 32) bs _ (by decide) fun c h b _ => ?_
  have byte : b % 256 < 2 ^ 32 := by omega
  exact crc32Steps_lt 8 (Nat.xor_lt_two_pow h byte)

/-! ### IDENTITY_SEND (R424, R425) -/

/-- The CRC lies beside the bytes that it covers. -/
theorem identityBytes_sealIdentity (c : LinkPort) (i : Identity) :
    identityBytes c (sealIdentity c i) = identityBytes c i := by
  cases c <;> rfl

theorem identityGood_sealIdentity (c : LinkPort) {i : Identity} (version : i.version = 1) :
    identityGood c (sealIdentity c i) = true := by
  have crc : (sealIdentity c i).crc.toNat = crc32 (identityBytes c i) := by
    rw [sealIdentity, BitVec.toNat_ofNat, Nat.mod_eq_of_lt (crc32_lt _)]
  have one : (sealIdentity c i).version = 1 := version
  rw [identityGood, identityBytes_sealIdentity, crc, one]
  simp

/-- The identity that a port sends. -/
def ownIdentity (s : State) (n : Fin 8) (port : Fin 16) : Identity := sealIdentity (.optical n port)
  { sender := ownPort s n.val port.val, ack := (s.port n.val port.val).accepted,
    peer := (portPeer s.itin.force n.val port.val).getD 0,
    digest := BitVec.ofNat 32 (mapDigest s n.val port.val), crc := 0 }

theorem exec_identitySend {s : State} {n : Fin 8} {port : Fin 16} (runs : panelRuns s = true)
    (lit : (s.port n.val port.val).phase = .identify ∨ (s.port n.val port.val).phase = .active) :
    exec (.identitySend n port) s = .next (s.emit (.identity (.optical n port) (ownIdentity s n port))) :=
  if_neg (by rcases lit with lit | lit <;> simp [runs, lit])

/-! ### Connections (R424, R425, R455, R591) -/

section

variable (s : State) (c : LinkPort)

theorem connPort_optical (n : Fin 8) (p : Fin 16) : connPort s (.optical n p) = s.port n.val p.val := rfl

theorem connPort_setConnPort_self (x : Port) : connPort (setConnPort s c x) c = x := by
  cases c with
  | optical n p => exact State.port_setPort_self ..
  | copper k => exact State.copperPort_setCopper_self ..

theorem connPort_post (cls src payload party : Nat) : connPort (post s cls src payload party) c = connPort s c := by
  cases c with
  | optical n p => exact State.port_congr (post_lanterns ..) ..
  | copper k =>
    have copper : (post s cls src payload party).copper = s.copper :=
      (post_only_self s cls src payload party).frame .copper (by decide)
    rw [connPort, State.copperPort, copper]
    rfl

theorem setConnPort_now (x : Port) : (setConnPort s c x).now = s.now := by cases c <;> rfl

theorem offerKey_connPort : ∃ keying, connPort (offerKey s c) c = { connPort s c with keying } := by
  refine ⟨{ nonce := Config.drbg s.draws }, ?_⟩
  cases c with
  | optical n p => exact State.port_setPort_self ..
  | copper k => exact State.copperPort_setCopper_self ..

end

section

variable (s : State) (c : LinkPort) (own : Nat) {expected : Option Nat} (i : Identity)

/-- A sender other than the expected one fails the connection. -/
theorem identified_other (other : expected ≠ some i.sender) : connPort (identified s c own expected i) c =
    { connPort s c with peer := some i.sender, phase := .failed, cause := 2, accepted := false } := by
  unfold identified
  dsimp only
  rw [if_pos other, connPort_post, connPort_setConnPort_self]

/-- The expected sender is accepted if it names this end and a key may be made, and then its ACK makes the connection
ACTIVE. -/
theorem identified_expected (same : expected = some i.sender) :
    let ok := decide (i.peer = own) && mayKey s
    ∃ keying, connPort (identified s c own expected i) c =
      { connPort s c with
        peer := some i.sender, accepted := ok, phase := if ok && i.ack then .active else .identify, keying } := by
  intro ok
  unfold identified
  dsimp only
  rw [if_neg fun other => other same]
  split
  · next both =>
    obtain ⟨keying, offered⟩ := offerKey_connPort (setConnPort s c { connPort s c with
      peer := some i.sender, accepted := ok, phase := .active }) c
    exact ⟨keying, by rw [offered, connPort_setConnPort_self]⟩
  · exact ⟨_, connPort_setConnPort_self ..⟩

theorem identified_itin : (identified s c own expected i).itin = s.itin :=
  (identified_only (.refl _ s) (.self _)).frame .itin (by decide)

end

/-! ### PORT_IDENTITY (R424, R425) -/

theorem mapDigest_congr {s u : State} (same : u.itin = s.itin) (n p : Nat) : mapDigest u n p = mapDigest s n p := by
  unfold mapDigest; rw [same]

/-- The check of a peer's MAP_DIGEST once its port is ACTIVE. -/
def digestChecked (s : State) (n p : Nat) (i : Identity) : State :=
  if (s.port n p).phase = .active && i.digest.toNat ≠ mapDigest s n p then
    post (s.setPort n p { s.port n p with mismatch := true }) 0x55 (srcPort n p)
      (mapDigest s n p + 2 ^ 32 * i.digest.toNat)
  else s

theorem digestChecked_port (s : State) (n p : Nat) (i : Identity) : (digestChecked s n p i).port n p =
    { s.port n p with mismatch :=
        (decide ((s.port n p).phase = .active) && i.digest.toNat ≠ mapDigest s n p) || (s.port n p).mismatch } := by
  unfold digestChecked
  split
  · next differs => rw [State.port_congr (post_lanterns ..), State.port_setPort_self, differs, Bool.true_or]
  · next agrees => rw [eq_false_of_ne_true agrees, Bool.false_or]

section

variable {s : State} {n : Fin 8} {port : Fin 16} {i : Identity}

theorem exec_portIdentity_dropped (bad : identityGood (.optical n port) i = false) :
    exec (.portIdentity n port i) s = .next s :=
  if_pos (by rw [bad]; simp)

theorem exec_portIdentity (runs : panelRuns s = true) (identifies : (s.port n.val port.val).phase = .identify)
    (good : identityGood (.optical n port) i = true) : exec (.portIdentity n port i) s =
      .next (digestChecked (identified s (.optical n port) (ownPort s n.val port.val)
        (portPeer s.itin.force n.val port.val) i) n.val port.val i) := by
  have run : exec (.portIdentity n port i) s = execPortIdentity n port i s := rfl
  rw [run, execPortIdentity, digestChecked, apply_ite Host.Outcome.next]
  exact if_neg (by rw [good, runs, identifies]; decide)

end

/-! ### PORT_ATTEMPT_TIMEOUT (R424, R455) -/

section

variable {s : State} {c : LinkPort} (runs : panelRuns s = true)
  (trains : (connPort s c).phase = .probe ∨ (connPort s c).phase = .identify) (absent : Nat)
include runs trains

theorem attemptEnds_again (more : (connPort s c).attempt < 4) : attemptEnds s c absent =
    setConnPort (s.passTo ((connPort s c).begun + 50000000)) c { connPort s c with
      phase := .probe, attempt := (connPort s c).attempt + 1, begun := max s.now ((connPort s c).begun + 50000000),
      cause := 1, accepted := false } :=
  (if_neg (by rcases trains with trains | trains <;> simp [runs, trains])).trans (if_pos more)

theorem attemptEnds_last (last : ¬(connPort s c).attempt < 4) : ∃ src, attemptEnds s c absent =
    post (setConnPort (s.passTo ((connPort s c).begun + 50000000)) c { connPort s c with
      phase := .absent, cause := 1, accepted := false }) absent src :=
  ⟨_, (if_neg (by rcases trains with trains | trains <;> simp [runs, trains])).trans (if_neg last)⟩

theorem attemptEnds_now : (attemptEnds s c absent).now = max s.now ((connPort s c).begun + 50000000) := by
  by_cases more : (connPort s c).attempt < 4
  · rw [attemptEnds_again runs trains absent more, setConnPort_now, State.passTo_now]
  · obtain ⟨src, ends⟩ := attemptEnds_last runs trains absent more
    rw [ends, post_now, setConnPort_now, State.passTo_now]

/-- The next attempt begins, and after the fourth none. -/
theorem attemptEnds_connPort : connPort (attemptEnds s c absent) c =
    if (connPort s c).attempt < 4 then
      { connPort s c with phase := .probe, attempt := (connPort s c).attempt + 1,
                          begun := max s.now ((connPort s c).begun + 50000000), cause := 1, accepted := false }
    else { connPort s c with phase := .absent, cause := 1, accepted := false } := by
  split
  · next more => rw [attemptEnds_again runs trains absent more, connPort_setConnPort_self]
  · next last =>
    obtain ⟨src, ends⟩ := attemptEnds_last runs trains absent last
    rw [ends, connPort_post, connPort_setConnPort_self]

end

/-! ### PORT_RETRAIN (R424, R431) -/

theorem exec_portRetrain {s : State} {p : Path} {n : Fin 8} (ports : BitVec 16)
    (gate : ownerGate s p (lanA n.val 0x2C) = true) : exec (.portRetrain p n ports) s =
      .next (answer (retrainPorts s n.val (fun k => ports.getLsbD k)) .ok) := by
  have run : exec (.portRetrain p n ports) s = execPortRetrain p n ports s := rfl
  rw [run, execPortRetrain, ownerWrite_gate gate]

theorem retrainPorts_port {s : State} {n k : Nat} {ports : Nat → Bool} (hk : k < 16) (named : ports k = true)
    (rests : (s.port n k).phase = .absent ∨ (s.port n k).phase = .failed) :
    ((retrainPorts s n ports).port n k).phase = .probe ∧ ((retrainPorts s n ports).port n k).cause = 4 := by
  have mem : k ∈ (List.range 16).filter ports := List.mem_filter.2 ⟨List.mem_range.2 hk, named⟩
  obtain ⟨u, same, turn⟩ := (State.each_turn (fun u => u.port n k) (f := fun j u =>
    if (u.port n j).phase = .absent || (u.port n j).phase = .failed then startPort u n j 4 else u)
    (fun j u apart => by
      split
      · exact startPort_port_other u n 4 apart
      · rfl) (List.nodup_range.filter _) s).2 mem
  have starts : (decide ((u.port n k).phase = .absent) || decide ((u.port n k).phase = .failed)) = true := by
    rw [same]; simpa using rests
  have port : (retrainPorts s n ports).port n k = (startPort u n k 4).port n k := turn.trans (by rw [if_pos starts])
  rw [port, startPort_port]
  exact ⟨rfl, rfl⟩

/-- Settles O29: light, identities and attempts by the phase of the port that they reach, and the port that each leaves
behind. -/
theorem portConnections : Obligations.PortConnections := by
  unfold Obligations.PortConnections
  refine ⟨?burst, ?probing, ?lit, ?send, ?expected, ?other, ?dropped, ?attempt, ?loss, ?retrain⟩
  case burst =>
    exact fun s n port runs probes => exec_probeBurst runs probes
  case probing =>
    intro s n port power runs started probes
    exact ⟨_, (exec_portLightReceived runs power started).trans (if_pos probes), State.port_setPort_self .., rfl,
      State.reg_setReg_self ..⟩
  case lit =>
    exact fun s n port power runs started lit => (exec_portLightReceived runs power started).trans (if_neg lit)
  case send =>
    intro s n port runs lit
    exact ⟨_, exec_identitySend runs lit, rfl, rfl, rfl, rfl, identityGood_sealIdentity _ rfl⟩
  case expected =>
    intro s n port i runs identifies good same ok
    obtain ⟨keying, identity⟩ := identified_expected s (.optical n port) (ownPort s n.val port.val) i same
    refine ⟨_, exec_portIdentity runs identifies good, ?_⟩
    rw [connPort_optical, connPort_optical] at identity
    rw [digestChecked_port, mapDigest_congr (identified_itin ..), identity]
    refine ⟨rfl, rfl, rfl, ?_⟩
    cases named : ok <;> cases i.ack <;> simp [ok, named]
  case other =>
    intro s n port i runs identifies good other
    have identity := identified_other s (.optical n port) (ownPort s n.val port.val) i other
    rw [connPort_optical, connPort_optical] at identity
    refine ⟨_, exec_portIdentity runs identifies good, ?_⟩
    rw [digestChecked_port, identity]
    exact ⟨rfl, rfl, rfl⟩
  case dropped =>
    exact fun s n port i bad => exec_portIdentity_dropped bad
  case attempt =>
    intro s n port runs trains
    have after := attemptEnds_connPort (c := .optical n port) runs trains 0x53
    rw [connPort_optical, connPort_optical] at after
    refine ⟨attemptEnds s (.optical n port) 0x53, rfl, ?_⟩
    rw [after, attemptEnds_now (c := .optical n port) runs trains, connPort_optical]
    by_cases more : (s.port n.val port.val).attempt < 4 <;> simp [more]
  case loss =>
    intro s n port runs lit
    refine ⟨_, exec_portLossOfLight runs lit, ?_⟩
    rw [State.port_congr (post_lanterns ..), post_reg, post_now, lightLost_now]
    rw [lightLost, startPort_port, State.reg_congr (startPort_regs ..), State.reg_setReg_self]
    exact ⟨rfl, rfl, rfl, rfl, rfl, rfl⟩
  case retrain =>
    exact fun s p n ports gate =>
      ⟨exec_portRetrain ports gate, fun k hk named rests => retrainPorts_port hk named rests⟩

end Sys2Proof.Machine

/-! What records posted and times passed leave alone: the rules that the proofs of spec/11, 13, 14, 15, 16 and 17 below
share. -/

namespace Sys2Proof.Machine

open Sys2Proof

/-! ### What posting a record leaves alone (R512) -/

section

variable (s : State) (cls src payload party : Nat)

@[simp] theorem post_out : (post s cls src payload party).out = s.out :=
  (post_only_self s cls src payload party).frame .out (by decide)
@[simp] theorem post_fns : (post s cls src payload party).fns = s.fns :=
  (post_only_self s cls src payload party).frame .fns (by decide)
@[simp] theorem post_itin : (post s cls src payload party).itin = s.itin :=
  (post_only_self s cls src payload party).frame .itin (by decide)
@[simp] theorem post_lead : (post s cls src payload party).lead = s.lead :=
  (post_only_self s cls src payload party).frame .lead (by decide)
@[simp] theorem post_copper : (post s cls src payload party).copper = s.copper :=
  (post_only_self s cls src payload party).frame .copper (by decide)
@[simp] theorem post_hosts : (post s cls src payload party).hosts = s.hosts :=
  (post_only_self s cls src payload party).frame .hosts (by decide)
@[simp] theorem post_sec : (post s cls src payload party).sec = s.sec :=
  (post_only_self s cls src payload party).frame .sec (by decide)

end

end Sys2Proof.Machine

/-! Proofs of the obligations of spec/95_what_each_step_holds.md: a step runs the front command, and every command
answers a next state. -/

namespace Sys2Proof.Machine

open Sys2Proof

/-! ### One step -/

theorem step_front {s : State} {c : Instr} {rest : List Instr} (waits : s.pending = c :: rest) :
    step s = exec c { s with pending := rest } := by
  unfold step
  rw [waits]

theorem step_idle {s : State} (none : s.pending = []) : step s = .next (s.passTo (s.now + 1)) := by
  unfold step
  rw [none]

/-- Settles O54: the two branches of a step. -/
theorem stepRunsFront : Obligations.StepRunsFront := by
  unfold Obligations.StepRunsFront
  exact ⟨fun s c rest waits => step_front waits, fun s none => step_idle none⟩

/-! ### Every command answers -/

/-- A command whose meaning tests the state first is a tree of tests with a next state at every leaf; the meaning of
any other is a next state as it stands. -/
theorem exec_answers (c : Instr) (s : State) : ∃ t, exec c s = .next t := by
  cases c
  all_goals
    dsimp only [exec, execRegisterWrite, execPowerGood, execStartupStep, execRowMapRead, execDomainSwitchOn,
      execDomainSwitchOff, execDomainPowerGoodTimeout, execStrandTrainStart, execStrandClockLockTimeout,
      execStrandDeskewDone, execStrandWireTestDone, execStrandFrameReceive, execStrandLinkDown, execHamperTraining,
      execGuestBringupStart, execGuestResetRelease, execGuestTrainingDone, execGuestProfileAnswer,
      execGuestConfirmAck, execGuestStepTimeout, execGuestEarlyPacket, execGuestLinkDown, execGuestPowerSample,
      execCommandComplete, execFetchAhead, execTaskAbort, execAbortQuiesced, execStallTimeout, execGuideAnswer,
      execGuideCallTimeout, execPassFirstBroadcast, execStationaryLoadStart, execMovingDataArrival,
      execPassSumArrival, execPassComplete, execBankFillDone, execDrainStart, execDrainLastRead, execDrainComplete,
      execBankZeroExpired, execTasterRecompute, execTasterSampleRecord, execHamperBurst, execAgedRequest,
      execScrubUnit, execZeroingStep, execZeroingFrontPass, execMoveChunk, execExchangeBlock,
      execRouterPacketReceive, execPacketEscape, execAckTimeout, execPacketAgeCheck, execCcRateIncrease,
      execLinkFrameReceive, execInterModuleLinkDown, execOpenRoundResult, execCollectiveChunkStep,
      execCollectiveTimeout, execRollcallMessage, execRollcallAbort, execRollcallRepeat, execFenceResult,
      execFenceInstant, execTimeReq, execTimeResp, execTimeExchangeTimeout, execLanternStart, execStileTrimDone,
      execStileMoveStart, execStileMoveCheck, execLinkLit, execLinkDrained, execRotationSlot, execBundleLockTimeout,
      execRingHeaterUpdate, execDriftUpdate, execCalibrationStart, execCalibrationStop, execCalibrationDone,
      execCalUrgent, execProbeBurst, execPortLightReceived, execIdentitySend, execPortIdentity, execPortLossOfLight,
      execKeyOffer, execKeyConfirm, execConfigRequest, execHostWriteTlp, execLineBufferTimeout, execHostReadTlp,
      execHostPortReset, execCopperTrainStart, execCopperLanesLocked, execCopperIdentity, execMctpMessage,
      execI3cCcc, execRead32, execWrite32, execReadBlock, execRegAccessReserved, execItinStoreWrite,
      execItinVerifyDone, execItinSaveDone, execFoldInstant, execBootFold, execLeaseExpiry, execHandoverTimeout,
      execPartyResetWaitExpiry, execPartyReset, execPartyResetDone, execPartyZeroingDone, execEventCommit,
      execRecordWrite, execModerationTimeout, execProducerRead, execUnmaskResample, execWeatherWindow,
      execSelfCheckpointStart, execSelfWaitTimeout, execSelfCheckpointDone, execSealAccept, execSealProgrammed,
      execRucksackProgramDone, execRucksackMount, execRkTransferDone, execMirrorFillLine, execMirrorFillDone,
      execMirrorFillIdleTimeout, execRetireBlowDone, execSafeStateEntry, execSafeStateStage, execSecuritySelftest,
      execEntropyHealthFail, execBootVerify, execSpdmRequest, execSecurityHandover, execIdeStateChange,
      execOperatingPointTileChange, execSlewSample, execThermistorConversion, execDieSensorSample, execThrottleStep,
      execSupplySample, execClockFault, execShutdownStage, execSamplePreload, execDomainPowerGood, execHostLinkUp,
      execOpenRoundHoldoffExpiry]
    repeat' split
    all_goals exact ⟨_, rfl⟩

/-- Settles O55: the front command answers, and what it may change (`exec_only`) keeps the clock, the fuses and the
queue; of an empty queue a nanosecond of idling keeps them. -/
theorem everyStep : Obligations.EveryStep := by
  unfold Obligations.EveryStep
  intro s
  cases waits : s.pending with
  | nil => exact ⟨_, step_idle waits, Nat.le_max_left .., .refl _, waits⟩
  | cons c rest =>
    obtain ⟨t, run⟩ := exec_answers c { s with pending := rest }
    have only := (exec_only c { s with pending := rest }).only t run
    exact ⟨t, (step_front waits).trans run, only.clock, only.fuses,
      exec_sameBut run .pending (pending_not_mem_footprint c)⟩

end Sys2Proof.Machine

/-! Proofs of the obligations of spec/19_module_physical.md: the scan chain. -/

namespace Sys2Proof.Machine

open Sys2Proof

/-! ### The instruction of a die (R599, R665) -/

theorem State.tap_setTap_self (s : State) (d : JtagDie) (x : Tap) : (s.setTap d x).tap d = x := mget_mset_self ..

theorem State.tap_setTap_other (s : State) {d e : JtagDie} (x : Tap) (apart : e.id ≠ d.id) :
    (s.setTap d x).tap e = s.tap e := mget_mset_other _ _ _ (Ne.symm apart)

theorem selectReg_tap_self (s : State) (d : JtagDie) (i : TapInstruction) (width value : Nat) :
    (selectReg s d i width value).tap d = { s.tap d with instruction := i, driven := decide (i = .extest) } :=
  State.tap_setTap_self ..

theorem selectReg_tap_other (s : State) {d e : JtagDie} (i : TapInstruction) (width value : Nat) (apart : e.id ≠ d.id) :
    (selectReg s d i width value).tap e = s.tap e := State.tap_setTap_other _ _ apart

/-- The state before the capture (SAMPLE/PRELOAD shifts its value into the boundary register), the instruction, and the
width and value of the register that the five scan commands select. -/
inductive Scans (s : State) (d : JtagDie) : Instr → State → TapInstruction → Nat → Nat → Prop
  | idcode : Scans s d (.idcode d) s .idcode 32 (idcodeOf d)
  | strapRead : Scans s d (.strapRead d) s .strapRead 8 (strapsHeld s d.id)
  | bypass : Scans s d (.bypass d) s .bypass 1 0
  | samplePreload (pins preload : Nat) : Scans s d (.samplePreload d pins preload)
      (s.setTap d { s.tap d with boundary := preload }) .samplePreload 0 pins
  | extest (pins : Nat) : Scans s d (.extest d pins) s .extest 0 pins

section

variable {s u : State} {d : JtagDie} {c : Instr} {i : TapInstruction} {width value : Nat}

theorem exec_scan (scans : Scans s d c u i width value) :
    exec c s = .next (if inChain s d then selectReg u d i width value else s) := by
  cases scans with
  | samplePreload pins preload => exact (apply_ite Host.Outcome.next _ _ _).symm
  | _ => rfl

theorem exec_scan_inChain (scans : Scans s d c u i width value) (here : inChain s d = true) :
    exec c s = .next (selectReg u d i width value) := by
  rw [exec_scan scans, if_pos here]

/-- The scan commands of a die, as the statement lists them. -/
theorem scans_of_command
    (scan : c ∈ [Instr.idcode d, .strapRead d, .bypass d] ∨ (∃ x y, c = .samplePreload d x y) ∨ (∃ x, c = .extest d x)) :
    ∃ u i width value, Scans s d c u i width value := by
  obtain listed | ⟨x, y, rfl⟩ | ⟨x, rfl⟩ := scan
  · simp only [List.mem_cons, List.not_mem_nil, or_false] at listed
    obtain rfl | rfl | rfl := listed
    · exact ⟨_, _, _, _, .idcode⟩
    · exact ⟨_, _, _, _, .strapRead⟩
    · exact ⟨_, _, _, _, .bypass⟩
  · exact ⟨_, _, _, _, .samplePreload x y⟩
  · exact ⟨_, _, _, _, .extest x⟩

theorem Scans.tap_other (scans : Scans s d c u i width value) {e : JtagDie} (apart : e.id ≠ d.id) :
    u.tap e = s.tap e := by
  cases scans with
  | samplePreload pins preload => exact State.tap_setTap_other _ _ apart
  | _ => rfl

end

/-- Settles O53: each scan command in the chain is one `selectReg`, and outside it changes nothing. -/
theorem scanChain : Obligations.ScanChain := by
  unfold Obligations.ScanChain
  refine ⟨?idcode, ?straps, ?bypass, ?preload, ?extest, ?absent, ?others⟩
  case idcode =>
    intro s die here
    refine ⟨_, exec_scan_inChain .idcode here, ?_⟩
    rw [selectReg_tap_self]
    cases die <;> exact ⟨rfl, rfl, rfl⟩
  case straps =>
    intro s die here
    refine ⟨_, exec_scan_inChain .strapRead here, ?_⟩
    rw [selectReg_tap_self]
    exact ⟨rfl, rfl, rfl⟩
  case bypass =>
    intro s die here
    refine ⟨_, exec_scan_inChain .bypass here, ?_⟩
    rw [selectReg_tap_self]
    exact ⟨rfl, rfl, rfl, rfl⟩
  case preload =>
    intro s die pins preload here
    refine ⟨_, exec_scan_inChain (.samplePreload pins preload) here, ?_⟩
    rw [selectReg_tap_self, State.tap_setTap_self]
    exact ⟨rfl, rfl, rfl, rfl⟩
  case extest =>
    intro s die pins here
    refine ⟨_, exec_scan_inChain (.extest pins) here, ?_⟩
    rw [selectReg_tap_self]
    exact ⟨rfl, rfl, rfl, rfl⟩
  case absent =>
    intro s c d gone scan
    obtain ⟨u, i, width, value, scans⟩ := scans_of_command (s := s) scan
    rw [exec_scan scans, gone, if_neg Bool.false_ne_true]
  case others =>
    intro s t c d scan run e apart
    obtain ⟨u, i, width, value, scans⟩ := scans_of_command (s := s) scan
    rw [exec_scan scans] at run
    cases run
    split
    · exact (selectReg_tap_other u i width value apart).trans (scans.tap_other apart)
    · rfl

end Sys2Proof.Machine

/-! Proofs of the obligations of spec/13_itinerary_and_control.md: leadership. -/

namespace Sys2Proof.Machine

open Sys2Proof

/-! ### Commands to the leadership register (R496, R497) -/

section

variable {s : State} {p : Path} {m : Fin 4} (gate : leaderGate s p m = true)
include gate

theorem leaderCommand_refused {effect : Fin 4 → Option State} (no : effect m = none) :
    leaderCommand s p effect = ownershipError s { path := p, off := 0x8004 } m.val := by
  simp only [leaderGate, Bool.and_eq_true, Bool.not_eq_true', decide_eq_true_eq] at gate
  obtain ⟨⟨answers, opened⟩, master⟩ := gate
  simp [leaderCommand, answers, opened, master, no]

theorem exec_claim (vacant : s.lead.leader = none) : exec (.claim p) s = .next (answer (install s m p) .ok) :=
  congrArg _ (leaderCommand_gate gate (by simp [claimBy, vacant]))

theorem exec_keep (leads : s.lead.leader = some m) (path : s.lead.keepPath = p) :
    exec (.keep p) s = .next (answer { s with lead := { s.lead with lease := freshLease s } } .ok) :=
  congrArg _ (leaderCommand_gate gate (by simp [keepBy, leads, path]))

theorem exec_keep_elsewhere (leads : s.lead.leader = some m) (path : s.lead.keepPath ≠ p) :
    exec (.keep p) s = .next (answer s .ok) :=
  congrArg _ (leaderCommand_gate gate (by simp [keepBy, leads, path]))

theorem exec_release (leads : s.lead.leader = some m) (settled : s.lead.pending = false) :
    exec (.release p) s =
      .next (answer (leaderEvent { s with lead := { s.lead with leader := none, last := m } }) .ok) :=
  congrArg _ (leaderCommand_gate gate (by simp [releaseBy, leads, settled]))

theorem exec_handover {target : Fin 4} (leads : s.lead.leader = some m) (settled : s.lead.pending = false)
    (other : target ≠ m) (present : masterPresent s target.val = true) :
    exec (.handover p target) s = .next (answer
      { s with lead := { s.lead with pending := true, target, deadline := s.now + 1000000000 } } .ok) :=
  congrArg _ (leaderCommand_gate gate (by simp [handoverBy, leads, settled, other, present]))

theorem exec_accept (pending : s.lead.pending = true) (target : s.lead.target = m) :
    exec (.accept p) s = .next (answer (install s m p) .ok) :=
  congrArg _ (leaderCommand_gate gate (by simp [acceptBy, pending, target]))

theorem exec_depose {x : Fin 4} (service : m = 3) (leads : s.lead.leader = some x) :
    exec (.depose p) s = .next (answer (leaderLost s 2) .ok) :=
  congrArg _ (leaderCommand_gate gate (by simp [deposeBy, service, leads]))

theorem exec_claim_refused (held : s.lead.leader ≠ none) :
    exec (.claim p) s = .next (ownershipError s { path := p, off := 0x8004 } m.val) :=
  congrArg _ (leaderCommand_refused gate (by simp [claimBy, held]))

theorem exec_keep_refused (other : s.lead.leader ≠ some m) :
    exec (.keep p) s = .next (ownershipError s { path := p, off := 0x8004 } m.val) :=
  congrArg _ (leaderCommand_refused gate (by simp [keepBy, other]))

theorem exec_release_refused (no : s.lead.leader ≠ some m ∨ s.lead.pending = true) :
    exec (.release p) s = .next (ownershipError s { path := p, off := 0x8004 } m.val) :=
  congrArg _ (leaderCommand_refused gate (by rcases no with no | no <;> simp [releaseBy, no]))

theorem exec_handover_refused {target : Fin 4} (no : s.lead.leader ≠ some m ∨ s.lead.pending = true ∨ target = m ∨
    masterPresent s target.val = false) :
    exec (.handover p target) s = .next (ownershipError s { path := p, off := 0x8004 } m.val) :=
  congrArg _ (leaderCommand_refused gate (by rcases no with no | no | no | no <;> simp [handoverBy, no]))

theorem exec_accept_refused (no : s.lead.pending = false ∨ s.lead.target ≠ m) :
    exec (.accept p) s = .next (ownershipError s { path := p, off := 0x8004 } m.val) :=
  congrArg _ (leaderCommand_refused gate (by rcases no with no | no <;> simp [acceptBy, no]))

theorem exec_depose_refused (no : m ≠ 3 ∨ s.lead.leader = none) :
    exec (.depose p) s = .next (ownershipError s { path := p, off := 0x8004 } m.val) :=
  congrArg _ (leaderCommand_refused gate (by rcases no with no | no <;> simp [deposeBy, no]))

end

/-! ### What each command leaves of the leadership (R497, R498) -/

theorem leaderEvent_lead (s : State) : (leaderEvent s).lead = s.lead := post_lead ..

theorem install_lead (s : State) (m : Fin 4) (p : Path) : (install s m p).lead =
    { s.lead with leader := some m, last := m, pending := false, term := s.lead.term + 1,
                  lease := s.now + 1000000000 * s.field 0x8008 0 6, keepPath := p } := leaderEvent_lead _

theorem ownershipError_lead (s : State) (acc : Access) (m : Nat) : (ownershipError s acc m).lead = s.lead :=
  (ownershipError_only (.refl 1112 s) (rfl : _ &&& _ = _)).frame .lead (by decide)

section

variable {s : State} (reason : Nat)

theorem leaderLost_of_leader {m : Fin 4} (leads : s.lead.leader = some m) : leaderLost s reason =
    post { s with lead := { s.lead with leader := none, last := m, pending := false } } 0x09 (srcDevice 3)
      (m.val + 4 * reason) := by
  unfold leaderLost; rw [leads]

theorem leaderLost_lead {m : Fin 4} (leads : s.lead.leader = some m) :
    (leaderLost s reason).lead = { s.lead with leader := none, last := m, pending := false } := by
  rw [leaderLost_of_leader reason leads, post_lead]

theorem leaderLost_now {m : Fin 4} (leads : s.lead.leader = some m) : (leaderLost s reason).now = s.now := by
  rw [leaderLost_of_leader reason leads, post_now]

theorem handoverFailed_of_pending (pending : s.lead.pending = true) : ∃ payload, handoverFailed s reason =
    post { s with lead := { s.lead with pending := false } } 0x08 (srcDevice 3) payload :=
  ⟨_, by unfold handoverFailed; rw [if_neg (by rw [pending]; decide)]⟩

end

/-- Settles O38: the commands that the table of R497 allows, the ones that it does not, and what each leaves. -/
theorem leadership : Obligations.Leadership := by
  unfold Obligations.Leadership
  refine ⟨?claim, ?keep, ?release, ?handover, ?accept, ?depose, ?refused, ?lease, ?timeout⟩
  case claim =>
    intro s p m gate vacant
    refine ⟨_, exec_claim gate vacant, rfl, ?_⟩
    rw [answer_lead, install_lead]
    exact ⟨rfl, rfl, rfl, rfl, rfl, rfl⟩
  case keep => exact fun s p m gate leads path => exec_keep gate leads path
  case release =>
    intro s p m gate leads settled
    refine ⟨_, exec_release gate leads settled, rfl, ?_⟩
    rw [answer_lead, leaderEvent_lead]
  case handover => exact fun s p m target gate leads settled other present => exec_handover gate leads settled other present
  case accept =>
    intro s p m gate pending target
    refine ⟨_, exec_accept gate pending target, rfl, ?_⟩
    rw [answer_lead, install_lead]
    exact ⟨rfl, rfl, rfl, rfl, rfl⟩
  case depose =>
    refine fun s p m gate => ⟨fun x service leads => ⟨_, exec_depose gate service leads, rfl, ?_⟩,
      fun other => ⟨_, exec_depose_refused gate (.inl other), ownershipError_lead ..⟩⟩
    rw [answer_lead, leaderLost_lead _ leads]
  case refused =>
    exact fun s p m gate => ⟨exec_claim_refused gate,
      fun other => ⟨exec_keep_refused gate other, exec_release_refused gate (.inl other),
        fun t => exec_handover_refused gate (.inl other)⟩,
      exec_keep_elsewhere gate,
      fun pending => ⟨exec_release_refused gate (.inr pending),
        fun t => exec_handover_refused gate (.inr (.inl pending))⟩,
      fun t no => exec_handover_refused gate (.inr (.inr no)), exec_accept_refused gate, exec_depose_refused gate⟩
  case lease =>
    intro s m leads
    have run : exec .leaseExpiry s = .next (leaderLost (s.passTo s.lead.lease) 0) := if_pos (by rw [leads]; rfl)
    exact ⟨_, run, leaderLost_lead 0 leads, leaderLost_now 0 leads⟩
  case timeout =>
    intro s pending
    have run : exec .handoverTimeout s = .next (handoverFailed (s.passTo s.lead.deadline) 0) := if_pos pending
    obtain ⟨payload, fails⟩ := handoverFailed_of_pending (s := s.passTo s.lead.deadline) 0 pending
    refine ⟨_, run, ?_⟩
    rw [fails, post_lead, post_now]
    exact ⟨rfl, rfl⟩

end Sys2Proof.Machine

/-! Proofs of the obligations of spec/11_copper_and_host.md and spec/16_security.md: connections over copper, and the keys
of every connection. -/

namespace Sys2Proof.Machine

open Sys2Proof

/-! ### Copper links (R439, R455, R456, R464) -/

section

variable {s : State} {k : Fin 13}

theorem connPort_copper (s : State) (k : Fin 13) : connPort s (.copper k) = s.copperPort k.val := rfl

theorem startCopper_copperPort (s : State) (k cause : Nat) : (startCopper s k cause).copperPort k =
    { s.copperPort k with
      phase := .probe, attempt := 1, cause, begun := s.now, peer := none, accepted := false, start := none,
      keying := {}, entry := copperEntry s.itin.applied (modulePhase s) k, newEntry := none } :=
  State.copperPort_setCopper_self ..

theorem startCopper_copperPort_other (s : State) {k j : Nat} (cause : Nat) (apart : k ≠ j) :
    (startCopper s k cause).copperPort j = s.copperPort j :=
  State.copperPort_setCopper_other _ _ apart

theorem sendCopperIdentity_copperPort (s : State) (k : Fin 13) (j : Nat) :
    (sendCopperIdentity s k).copperPort j = s.copperPort j := rfl

theorem exec_copperTrainStart {t : Nat} (start : (s.copperPort k.val).start = some t) (runs : panelRuns s = true)
    (off : (s.copperPort k.val).phase = .off) (named : (copperLink? s.itin.force k.val).isSome = true) :
    exec (.copperTrainStart k) s = .next (startCopper (s.passTo t) k.val (s.copperPort k.val).cause) := by
  have run : exec (.copperTrainStart k) s = execCopperTrainStart k s := rfl
  rw [run, execCopperTrainStart, start]
  exact if_pos (by rw [runs, off, named]; decide)

theorem exec_copperLanesLocked (runs : panelRuns s = true) (probes : (s.copperPort k.val).phase = .probe) :
    exec (.copperLanesLocked k) s =
      .next (sendCopperIdentity (s.setCopper k.val { s.copperPort k.val with phase := .identify }) k) :=
  if_pos (by rw [runs, probes]; decide)

/-- The identity as the module takes it: on the buddy link, one that names this module names this link (R456). -/
def namedHere (s : State) (k : Fin 13) (i : Identity) : Identity :=
  if k.val = 12 && bits i.peer 0 14 = myModule s then { i with peer := ownCopper s k.val } else i

theorem namedHere_sender (s : State) (k : Fin 13) (i : Identity) : (namedHere s k i).sender = i.sender := by
  unfold namedHere; split <;> rfl

theorem namedHere_ack (s : State) (k : Fin 13) (i : Identity) : (namedHere s k i).ack = i.ack := by
  unfold namedHere; split <;> rfl

/-- Naming this link, or on the buddy link this module. -/
theorem namedHere_peer (s : State) (k : Fin 13) (i : Identity) : decide ((namedHere s k i).peer = ownCopper s k.val) =
    (decide (i.peer = ownCopper s k.val) || (decide (k.val = 12) && decide (bits i.peer 0 14 = myModule s))) := by
  unfold namedHere
  split
  · next named => rw [named, Bool.or_true, decide_eq_true_iff]
  · next other => rw [eq_false_of_ne_true other, Bool.or_false]

theorem exec_copperIdentity {i : Identity} (runs : panelRuns s = true)
    (identifies : (s.copperPort k.val).phase = .identify) (good : identityGood (.copper k) i = true) :
    exec (.copperIdentity k i) s = .next (sendCopperIdentity
      (identified s (.copper k) (ownCopper s k.val) (copperPeer s k.val i.sender) (namedHere s k i)) k) :=
  if_neg (by rw [runs, identifies, good]; decide)

theorem exec_copperRetrain {p : Path} (links : BitVec 13) (gate : ownerGate s p (hbgA 0x120) = true) :
    exec (.copperRetrain p links) s = .next (answer (retrainCopper s (fun k => links.getLsbD k)) .ok) :=
  congrArg _ (ownerWrite_gate gate ..)

theorem retrainCopper_copperPort {j : Nat} {links : Nat → Bool} (hj : j < 13) (named : links j = true)
    (rests : (s.copperPort j).phase = .absent ∨ (s.copperPort j).phase = .failed) :
    ((retrainCopper s links).copperPort j).phase = .probe ∧ ((retrainCopper s links).copperPort j).cause = 4 := by
  have mem : j ∈ (List.range 13).filter links := List.mem_filter.2 ⟨List.mem_range.2 hj, named⟩
  obtain ⟨u, same, turn⟩ := (State.each_turn (fun u => u.copperPort j) (f := fun i u =>
    if (u.copperPort i).phase = .absent || (u.copperPort i).phase = .failed then startCopper u i 4 else u)
    (fun i u apart => by
      split
      · exact startCopper_copperPort_other u 4 apart
      · rfl) (List.nodup_range.filter _) s).2 mem
  have starts : (decide ((u.copperPort j).phase = .absent) || decide ((u.copperPort j).phase = .failed)) = true := by
    rw [same]; simpa using rests
  have port : (retrainCopper s links).copperPort j = (startCopper u j 4).copperPort j :=
    turn.trans (by rw [if_pos starts])
  rw [port, startCopper_copperPort]
  exact ⟨rfl, rfl⟩

end

/-- Settles O30: the turn of each phase of a copper link, with the identities and attempts that ports share. -/
theorem copperConnections : Obligations.CopperConnections := by
  unfold Obligations.CopperConnections
  refine ⟨?start, ?locked, ?expected, ?dropped, ?other, ?attempt, ?retrain⟩
  case start =>
    intro s k t start runs off named
    refine ⟨_, exec_copperTrainStart start runs off named, State.passTo_now .., ?_⟩
    rw [startCopper_copperPort]
    exact ⟨rfl, rfl, rfl, rfl, rfl⟩
  case locked =>
    intro s k runs probes
    refine ⟨_, _, exec_copperLanesLocked runs probes, ?_, rfl, rfl, ?_⟩
    · rw [sendCopperIdentity_copperPort, State.copperPort_setCopper_self]
    · simp [sealIdentity]
  case expected =>
    intro s k i runs identifies good same names ok
    refine ⟨_, exec_copperIdentity runs identifies good, ?_⟩
    obtain ⟨keying, port⟩ := identified_expected s (.copper k) (ownCopper s k.val) (namedHere s k i)
      (same.trans (congrArg some (namedHere_sender s k i).symm))
    rw [namedHere_peer, namedHere_ack, namedHere_sender] at port
    rw [sendCopperIdentity_copperPort, ← connPort_copper, port]
    exact ⟨rfl, rfl, rfl⟩
  case dropped =>
    exact fun s k i bad => if_pos (by rw [bad]; simp)
  case other =>
    intro s k i runs identifies good other
    refine ⟨_, exec_copperIdentity runs identifies good, ?_⟩
    have port := identified_other s (.copper k) (ownCopper s k.val) (namedHere s k i)
      (fun same => other (same.trans (congrArg some (namedHere_sender s k i))))
    rw [sendCopperIdentity_copperPort, ← connPort_copper, port]
    exact ⟨rfl, rfl⟩
  case attempt =>
    intro s k runs trains
    have port := attemptEnds_connPort (c := .copper k) runs trains 0x60
    refine ⟨attemptEnds s (.copper k) 0x60, rfl, ?_⟩
    rw [← connPort_copper, port, attemptEnds_now (c := .copper k) runs trains, connPort_copper]
    by_cases more : (s.copperPort k.val).attempt < 4 <;> simp [more]
  case retrain =>
    exact fun s p links gate =>
      ⟨exec_copperRetrain links gate, fun k hk named rests => retrainCopper_copperPort hk named rests⟩

/-! ### Keys (R591, R592) -/

section

variable (s : State)

theorem connPort_secFault (c : LinkPort) (code block detail : Nat) :
    connPort (secFault s code block detail) c = connPort s c := by
  have only := secFault_only (.refl _ s) (code := code) (block := block) (detail := detail) (.self _)
  cases c with
  | optical n p => exact State.port_congr (only.frame .lanterns (by decide)) ..
  | copper k => exact congrArg (fun m => mget {} m k.val) (only.frame .copper (by decide))

theorem keyFails_connPort (c : LinkPort) :
    ∃ x : Port, connPort (keyFails s c) c = { x with phase := .failed, cause := 2, keying := {} } := by
  cases c with
  | optical n p => exact ⟨_, (connPort_secFault ..).trans (connPort_setConnPort_self ..)⟩
  | copper k => exact ⟨_, (connPort_secFault ..).trans (connPort_setConnPort_self ..)⟩

theorem planMove_port (n m p : Nat) (e : BitVec 64) (t : Nat) : (planMove s n m e t).port n p = s.port n p := by
  rw [planMove, State.port, State.lantern_setBundle_self]
  rfl

theorem stopCal_port (n m p : Nat) : (stopCal s n m).port n p = s.port n p := by
  obtain ⟨heaters, bundles, lantern⟩ := stopCal_lantern (s := s) (n := n) (m := m)
  rw [State.port, lantern]
  rfl

theorem relight_port (n p : Nat) : (relight s n).port n p = s.port n p := by
  unfold relight State.each
  refine List.foldlRecOn (motive := fun u : State => u.port n p = s.port n p) _ _ rfl fun u same m _ => ?_
  dsimp only
  split
  · rw [planMove_port, stopCal_port, same]
  · exact same

theorem reroute_link (l : ModLink) : (reroute s).link l = s.link l := rfl

theorem connKeyed_connPort (c : LinkPort) : connPort (connKeyed s c) c = connPort s c := by
  cases c with
  | optical n p => exact relight_port s n.val p.val
  | copper k => rfl

end

/-- The state in which a connection has its keys and sends its confirm tag, after an offer of this job key. -/
def offerTaken (s : State) (c : LinkPort) (offer : KeyOffer) (jk : BitVec 256) : State :=
  let keys := linkKeys c jk (keyEndpoint s c) offer.endpoint (connPort s c).keying.nonce offer.nonce
  (setConnPort s c { connPort s c with
    keying := { (connPort s c).keying with offered := some offer, keys := keys } }).emit
      (.confirm c (confirmOf keys (keyEndpoint s c) offer.endpoint (connPort s c).keying.nonce offer.nonce))

section

variable {s : State} {c : LinkPort} {offer : KeyOffer} {jk : BitVec 256}

theorem setConnPort_out (x : Port) : (setConnPort s c x).out = s.out := by cases c <;> rfl

theorem connPort_emit (m : Out) : connPort (s.emit m) c = connPort s c := by cases c <;> rfl

section

variable (runs : panelRuns s = true) (active : (connPort s c).phase = .active)
  (unkeyed : (connPort s c).keying.keyed = false)
include runs active unkeyed

/-- An offer that is read is answered by the job key. -/
theorem exec_keyOffer (good : offerGood offer = true) : exec (.keyOffer c offer) s =
    match s.sec.jk with
    | none => .next (keyFails s c)
    | some jk => if offer.keyId ≠ keyIdOf jk then .next (keyFails s c) else .next (offerTaken s c offer jk) :=
  if_neg (by simp [runs, active, unkeyed, good])

theorem exec_keyOffer_taken (good : offerGood offer = true) (key : s.sec.jk = some jk)
    (names : offer.keyId = keyIdOf jk) : exec (.keyOffer c offer) s = .next (offerTaken s c offer jk) := by
  rw [exec_keyOffer runs active unkeyed good, key]
  exact if_neg fun other => other names

theorem exec_keyOffer_refused (good : offerGood offer = true)
    (no : s.sec.jk = none ∨ s.sec.jk = some jk ∧ offer.keyId ≠ keyIdOf jk) :
    exec (.keyOffer c offer) s = .next (keyFails s c) := by
  rw [exec_keyOffer runs active unkeyed good]
  rcases no with none | ⟨some, other⟩
  · rw [none]
  · rw [some]
    exact if_pos other

theorem exec_keyConfirm {tag : BitVec 128} {o : KeyOffer} (offered : (connPort s c).keying.offered = some o) :
    exec (.keyConfirm c tag) s =
      if tag ≠ confirmOf (connPort s c).keying.keys (keyEndpoint s c) o.endpoint (connPort s c).keying.nonce o.nonce then
        .next (keyFails s c)
      else .next (connKeyed (setConnPort s c { connPort s c with
        keying := { (connPort s c).keying with keyed := true } }) c) := by
  have run : exec (.keyConfirm c tag) s = execKeyConfirm c tag s := rfl
  rw [run, execKeyConfirm, offered]
  exact if_neg (by simp [runs, active, unkeyed])

end

end

/-- Settles O31: an offer is answered by the job key that it names, and a confirmation by its tag. -/
theorem linkKeys_obligation : Obligations.LinkKeys := by
  unfold Obligations.LinkKeys
  refine ⟨?offered, ?refused, ?dropped, ?confirmed⟩
  case offered =>
    intro s c offer jk runs active unkeyed good key names
    refine ⟨_, _, exec_keyOffer_taken runs active unkeyed good key names, rfl, ?_⟩
    rw [offerTaken, connPort_emit, connPort_setConnPort_self, State.emit_out, setConnPort_out]
    exact ⟨rfl, rfl, unkeyed, active, rfl⟩
  case refused =>
    intro s c offer jk runs active unkeyed good no
    obtain ⟨x, port⟩ := keyFails_connPort s c
    refine ⟨_, exec_keyOffer_refused runs active unkeyed good no, ?_⟩
    rw [port]
    exact ⟨rfl, rfl, rfl⟩
  case dropped =>
    exact fun s c offer bad => if_pos (by simp [bad])
  case confirmed =>
    rintro s c tag o keys runs active unkeyed offered rfl
    have run := exec_keyConfirm runs active unkeyed (tag := tag) offered
    refine ⟨fun right => ⟨_, run.trans (if_neg fun wrong => wrong right), ?_, ?_⟩,
      fun wrong => ⟨_, run.trans (if_pos wrong), ?_⟩⟩
    · rw [connKeyed_connPort, connPort_setConnPort_self]
    · rintro k rfl
      exact congrArg LinkState.up ((reroute_link ..).trans (State.link_setLink_self ..))
    · obtain ⟨x, port⟩ := keyFails_connPort s c
      rw [port]
      exact ⟨rfl, rfl⟩

end Sys2Proof.Machine

/-! Proofs of the obligations of spec/17_power_clocks_startup.md: power domains, and what goes off with the power. -/

namespace Sys2Proof.Machine

open Sys2Proof

/-! ### Rails (R607) -/

section

variable (s : State) (d : Nat)

theorem railOn_power : (railOn s d).power = { s.power with
    on := mset false s.power.on d true, good := mset false s.power.good d false,
    switched := mset none s.power.switched d (some s.now) } := rfl

theorem railOff_power : (railOff s d).power = { s.power with
    on := mset false s.power.on d false, good := mset false s.power.good d false,
    switched := mset none s.power.switched d none } := by
  unfold railOff
  dsimp only
  repeat' split
  all_goals rfl

theorem railOff_now : (railOff s d).now = s.now := (railOff_only (.refl _ s) (.self _)).frame .now (by decide)

theorem railGood_power : (railGood s d).power =
    { s.power with good := mset false s.power.good d true, switched := mset none s.power.switched d none } := by
  unfold railGood
  dsimp only
  cases domainStraps d <;> rfl

end

section

variable {s t : State} {d : Nat} {b : Bool}

theorem domainGood_of_mset_self (good : t.power.good = mset false s.power.good d b) : domainGood t d = b := by
  rw [domainGood, good, mget_mset_self]

theorem domainGood_of_mset_other (good : t.power.good = mset false s.power.good d b) {e : Nat} (apart : e ≠ d) :
    domainGood t e = domainGood s e := by
  rw [domainGood, good, mget_mset_other _ _ _ apart.symm, domainGood]

theorem domainOn_of_mset_self (on : t.power.on = mset false s.power.on d b) : domainOn t d = b := by
  rw [domainOn, on, mget_mset_self]

theorem domainOn_of_mset_other (on : t.power.on = mset false s.power.on d b) {e : Nat} (apart : e ≠ d) :
    domainOn t e = domainOn s e := by
  rw [domainOn, on, mget_mset_other _ _ _ apart.symm, domainOn]

end

/-! ### Domains that switch, report or time out (R48, R607) -/

section

variable {s : State}

/-- The first domain of the list is switched at the next toggle: the state before its rail follows. -/
def toggleAt (s : State) (wanted unwanted : List Nat) : State :=
  let u := s.passTo (nextToggle s)
  { u with power := { u.power with wanted, unwanted, toggled := some u.now } }

theorem exec_domainSwitchOn {d : Nat} {ds : List Nat} (runs : panelRuns s = true) (wanted : s.power.wanted = d :: ds) :
    exec .domainSwitchOn s = .next (railOn (toggleAt s ds s.power.unwanted) d) := by
  have run : exec .domainSwitchOn s = execDomainSwitchOn s := rfl
  rw [run, execDomainSwitchOn, wanted]
  exact if_neg (by rw [runs]; decide)

theorem exec_domainSwitchOff {d : Nat} {ds : List Nat} (powered : s.power.pwrgd = true)
    (unwanted : s.power.unwanted = d :: ds) :
    exec .domainSwitchOff s = .next (railOff (toggleAt s s.power.wanted ds) d) := by
  have run : exec .domainSwitchOff s = execDomainSwitchOff s := rfl
  rw [run, execDomainSwitchOff, unwanted]
  exact if_neg (by rw [powered]; decide)

/-- A domain reports; the reset of a guest's is held from now. -/
def domainReports (s : State) (d : Nat) : State :=
  if 154 ≤ d then (railGood s d).setGuest (d - 154) { (railGood s d).guest (d - 154) with since := (railGood s d).now }
  else railGood s d

theorem domainReports_power (s : State) (d : Nat) : (domainReports s d).power = (railGood s d).power := by
  unfold domainReports; split <;> rfl

theorem exec_domainPowerGood {d : Fin 158} (powered : s.power.pwrgd = true) (on : domainOn s d.val = true)
    (waits : domainGood s d.val = false) : exec (.domainPowerGood d) s = .next (domainReports s d.val) := by
  have run : exec (.domainPowerGood d) s = execDomainPowerGood d s := rfl
  rw [run, execDomainPowerGood, if_neg (by rw [powered, on, waits]; decide), domainReports,
    apply_ite Host.Outcome.next]

/-- The millisecond after a switch-on has passed, and the domain is waited for no more. -/
def domainLate (s : State) (d t : Nat) : State :=
  let u := s.passTo (t + 1000000)
  { u with power := { u.power with switched := mset none u.power.switched d none } }

theorem domainLate_power (s : State) (d t : Nat) :
    (domainLate s d t).power = { s.power with switched := mset none s.power.switched d none } := rfl

theorem exec_domainPowerGoodTimeout {d : Fin 158} {t : Nat} (powered : s.power.pwrgd = true)
    (switched : mget none s.power.switched d.val = some t) : exec (.domainPowerGoodTimeout d) s =
      if 154 ≤ d.val then .next (failAttempt (domainLate s d.val t) (d.val - 154) 1 true)
      else .next (enterSafe (domainLate s d.val t) 0x12 (srcPower 1 d.val)) := by
  have run : exec (.domainPowerGoodTimeout d) s = execDomainPowerGoodTimeout d s := rfl
  rw [run, execDomainPowerGoodTimeout, switched]
  exact if_neg (by rw [powered]; decide)

theorem enterSafe_power (cause block0 block1 extra : Nat) :
    (enterSafe s cause block0 block1 extra).power = s.power :=
  (enterSafe_only (.refl _ s) (.self _)).frame .power (by decide)

theorem enterSafe_now (cause block0 block1 extra : Nat) : (enterSafe s cause block0 block1 extra).now = s.now :=
  (enterSafe_only (.refl _ s) (.self _)).frame .now (by decide)

end

/-- Settles O2: a rail by the list that asks for it, and what a report or its absence does to the domain's die. -/
theorem powerDomains : Obligations.PowerDomains := by
  unfold Obligations.PowerDomains
  refine ⟨?on, ?off, ?reports, ?late, ?again, ?absent⟩
  case on =>
    intro s d ds runs wanted
    have power := railOn_power (toggleAt s ds s.power.unwanted) d
    refine ⟨_, exec_domainSwitchOn runs wanted, domainOn_of_mset_self (s := s) ?_, domainGood_of_mset_self (s := s) ?_,
      rfl, rfl, rfl, ?_, fun e apart =>
        ⟨domainOn_of_mset_other (s := s) (b := true) ?_ apart, domainGood_of_mset_other (s := s) (b := false) ?_ apart⟩⟩
    case refine_3 => rw [power, mget_mset_self]; rfl
    all_goals rw [power]; rfl
  case off =>
    intro s d ds powered unwanted
    have power := railOff_power (toggleAt s s.power.wanted ds) d
    refine ⟨_, exec_domainSwitchOff powered unwanted, domainOn_of_mset_self (s := s) ?_,
      domainGood_of_mset_self (s := s) ?_, ?_, railOff_now .., fun e apart =>
        ⟨domainOn_of_mset_other (s := s) (b := false) ?_ apart,
          domainGood_of_mset_other (s := s) (b := false) ?_ apart⟩⟩
    all_goals rw [power]; rfl
  case reports =>
    intro s d powered on waits
    have power := (domainReports_power s d.val).trans (railGood_power s d.val)
    refine ⟨_, exec_domainPowerGood powered on waits, domainGood_of_mset_self (s := s) ?_, ?_,
      fun e apart => domainGood_of_mset_other (s := s) (b := true) ?_ apart⟩
    · rw [power]
    · rw [domainOn, power]; exact on
    · rw [power]
  case late =>
    intro s d t powered switched die out
    refine ⟨_, (exec_domainPowerGoodTimeout powered switched).trans (if_neg (by omega)), enterSafe_active ..,
      enterSafe_cause _ _ _ _ out, ?_, enterSafe_now ..⟩
    rw [enterSafe_power, domainLate_power, mget_mset_self]
  case again =>
    intro s d t powered switched guest more
    obtain ⟨-, again, -⟩ := attemptFailed_failAttempt (domainLate s d.val t) (d.val - 154) 1 true
    refine ⟨_, (exec_domainPowerGoodTimeout powered switched).trans (if_pos guest), ?_⟩
    rw [again more, failAttempt_now]
    exact ⟨rfl, rfl, rfl, rfl⟩
  case absent =>
    intro s d t powered switched guest last
    obtain ⟨-, -, absent⟩ := attemptFailed_failAttempt (domainLate s d.val t) (d.val - 154) 1 true
    obtain ⟨status, unwanted⟩ := absent last
    have own : guestDomain (d.val - 154) = d.val := by rw [guestDomain]; omega
    rw [own] at unwanted
    exact ⟨_, (exec_domainPowerGoodTimeout powered switched).trans (if_pos guest), status, unwanted⟩

/-! ### Light and copper go out (R455, R568, R628) -/

theorem darkenLantern_lasers (cause n : Nat) (s : State) : ((darkenLantern cause n s).lantern n).lasers = false :=
  congrArg Lantern.lasers (State.lantern_setLantern_self ..)

theorem darkenLantern_now (cause n : Nat) (s : State) : (darkenLantern cause n s).now = s.now :=
  (darkenLantern_only (.refl _ s) (.self _)).frame .now (by decide)

section

variable (s : State)

/-- What a link that goes down held has been dropped. -/
def linkEmptied (l : ModLink) : State :=
  let x := s.link l
  let inn := cameBy s l
  let gone := x.retry.flatMap (·.items) ++ x.queue ++ inn.map (fun h => ⟨h.pkt, h.vc0⟩)
  let entry := ((linkPlace s l).map (·.2)).getD 0
  gone.foldl (dropTransit entry)
    (removeLink (inn.foldl unhold (s.count32 (linkDowns l) 1)) l { failed := true, launched := x.launched })

theorem linkEmptied_copper (l : ModLink) : (linkEmptied s l).copper = s.copper := by
  have counted : Only 268436552 s (s.count32 (linkDowns l) 1) := State.count32_only (.refl _ s) (rfl : _ &&& _ = _)
  have unheld : Only 268436552 s ((cameBy s l).foldl unhold (s.count32 (linkDowns l) 1)) :=
    counted.foldl fun u h only => unhold_only only (rfl : _ &&& _ = _)
  exact (Only.foldl (removeLink_only unheld (.self _)) fun u c only =>
    dropTransit_only only (rfl : _ &&& _ = _)).frame .copper (by decide)

theorem buddyLost_copper : (buddyLost s).copper = s.copper :=
  (buddyLost_only (.refl _ s) (.self _)).frame .copper (by decide)

/-- Of the copper links only the one that goes down changes. -/
theorem linkDown_copperPort_other {k : Fin 13} {j : Nat} (apart : k.val ≠ j) :
    (linkDown s (.copper k)).copperPort j = s.copperPort j := by
  have trains (x : Port) : mget {} ((linkEmptied s (.copper k)).setCopper k.val x).copper j = s.copperPort j := by
    refine (State.copperPort_setCopper_other _ x apart).trans ?_
    rw [State.copperPort, linkEmptied_copper, State.copperPort]
  have down : ∃ x cls src payload, linkDown s (.copper k) =
      post (if k.val = 12 then buddyLost ((linkEmptied s (.copper k)).setCopper k.val x)
        else (linkEmptied s (.copper k)).setCopper k.val x) cls src payload := ⟨_, _, _, _, rfl⟩
  obtain ⟨x, cls, src, payload, down⟩ := down
  rw [down, State.copperPort, post_copper]
  split
  · rw [buddyLost_copper, trains]
  · exact trains x

theorem stopCopper_copperPort (k cause : Nat) : (stopCopper s k cause).copperPort k = { phase := .off, cause } :=
  State.copperPort_setCopper_self ..

theorem stopCopper_copperPort_other {k j : Nat} (hk : k < 13) (cause : Nat) (apart : k ≠ j) :
    (stopCopper s k cause).copperPort j = s.copperPort j := by
  unfold stopCopper
  refine (State.copperPort_setCopper_other _ _ apart).trans ?_
  split
  · exact linkDown_copperPort_other s (by rw [Fin.val_ofNat, Nat.mod_eq_of_lt hk]; exact apart)
  · rfl

end

/-- What no other number of a list changes is, after the list, as the number's own turn leaves it. -/
theorem State.each_last_turn {β : Type} (view : State → β) {f : Nat → State → State} {n : Nat} {ks : List Nat}
    (other : ∀ k ∈ ks, k ≠ n → ∀ s, view (f k s) = view s) (nodup : ks.Nodup) (mem : n ∈ ks) (s : State) :
    ∃ u, view (s.each ks f) = view (f n u) := by
  obtain ⟨before, after, rfl⟩ := List.append_of_mem mem
  have once : n ∉ after := (List.nodup_cons.1 (List.nodup_append.1 nodup).2.1).1
  refine ⟨s.each before f, ?_⟩
  rw [State.each, List.foldl_append, List.foldl_cons]
  exact foldl_view view (fun k hk u => other k (by simp [hk]) (fun same => once (same ▸ hk)) u) _

/-- Every copper link is OFF. -/
theorem idleCopper_copperPort (cause : Nat) (s : State) {k : Nat} (hk : k < 13) :
    ((idleCopper cause s).copperPort k).phase = .off := by
  obtain ⟨u, turn⟩ := State.each_last_turn (fun u => u.copperPort k) (f := fun j u =>
    if (u.copperPort j).phase = .off then u else stopCopper u j cause)
    (fun j hj apart u => by
      split
      · rfl
      · exact stopCopper_copperPort_other u (List.mem_range.1 hj) cause apart) List.nodup_range (List.mem_range.2 hk) s
  refine (congrArg Port.phase turn).trans ?_
  split
  · assumption
  · rw [stopCopper_copperPort]

/-! ### Domains that a shutdown asks off (R628) -/

theorem mem_insertDown_of_mem {d e : Nat} {xs : List Nat} (mem : e ∈ xs) : e ∈ insertDown d xs := by
  induction xs with
  | nil => cases mem
  | cons x xs ih =>
    unfold insertDown
    split
    · exact List.mem_cons_of_mem _ mem
    · split
      · exact mem
      · rcases List.mem_cons.1 mem with rfl | tail
        · exact List.mem_cons_self
        · exact List.mem_cons_of_mem _ (ih tail)

theorem mem_unwanted_of_wantOff {s : State} {d e : Nat} (mem : e ∈ s.power.unwanted) :
    e ∈ (wantOff s d).power.unwanted := by
  unfold wantOff
  dsimp only
  split
  · exact mem_insertDown_of_mem mem
  · exact mem

/-- Of a list of domains, those but the host bridges' are asked off. -/
def askOff (s : State) (ds : List Nat) : State :=
  ds.foldl (fun s d => if d = 152 || d = 153 then s else wantOff s d) s

theorem askOff_cons (s : State) (d : Nat) (ds : List Nat) :
    askOff s (d :: ds) = askOff (if d = 152 || d = 153 then s else wantOff s d) ds := rfl

theorem mem_unwanted_of_askOff {ds : List Nat} {s : State} {e : Nat} (mem : e ∈ s.power.unwanted) :
    e ∈ (askOff s ds).power.unwanted := by
  induction ds generalizing s with
  | nil => exact mem
  | cons d ds ih =>
    rw [askOff_cons]
    split
    · exact ih mem
    · exact ih (mem_unwanted_of_wantOff mem)

theorem mem_unwanted_askOff {ds : List Nat} {s : State} {e : Nat} (mem : e ∈ ds) (on : domainOn s e = true)
    (die : e ≠ 152) (die' : e ≠ 153) : e ∈ (askOff s ds).power.unwanted := by
  induction ds generalizing s with
  | nil => cases mem
  | cons d ds ih =>
    rw [askOff_cons]
    rcases List.mem_cons.1 mem with rfl | tail
    · rw [if_neg (by simp [die, die'])]
      exact mem_unwanted_of_askOff (mem_unwanted_wantOff _ _ on)
    · split
      · exact ih tail on
      · exact ih tail on

/-! ### The stages of a shutdown (R628) -/

theorem shutdownDomains_eq (s : State) :
    shutdownDomains s = askOff { s with power := { s.power with wanted := [] } } (List.range 158) := rfl

theorem mem_unwanted_shutdownDomains {s : State} {d : Nat} (hd : d < 158) (on : domainOn s d = true)
    (die : d ≠ 152) (die' : d ≠ 153) : d ∈ (shutdownDomains s).power.unwanted := by
  rw [shutdownDomains_eq]
  exact mem_unwanted_askOff (List.mem_range.2 hd) on die die'

theorem shutdownDomains_copperPort (s : State) (k : Nat) : (shutdownDomains s).copperPort k = s.copperPort k := by
  have copper : (shutdownDomains s).copper = s.copper :=
    (shutdownDomains_only (.refl _ s) (.self _)).frame .copper (by decide)
  rw [State.copperPort, copper, State.copperPort]

theorem idleCopper_power (cause : Nat) (s : State) : (idleCopper cause s).power = s.power :=
  (idleCopper_only (.refl _ s) (.self _)).frame .power (by decide)

theorem darkenLantern_power (cause n : Nat) (s : State) : (darkenLantern cause n s).power = s.power :=
  (darkenLantern_only (.refl _ s) (.self _)).frame .power (by decide)

section

variable {s : State}

theorem exec_shutdownGo {p : Path} (gate : ownerGate s p 0x0100000C = true) :
    exec (.shutdownGo p) s = .next (answer (shutdownWrite s) .ok) :=
  congrArg _ (ownerWrite_gate gate ..)

theorem exec_shutdownStage_off (off : s.power.pwrgd = false) : exec .shutdownStage s = .next s :=
  if_pos (by rw [off]; rfl)

theorem State.lantern_withPower (s : State) (p : Power) (n : Nat) :
    State.lantern { s with power := p } n = s.lantern n := rfl

/-- The lantern whose turn it is goes dark, 2 ms after the one before. -/
def nextDark (s : State) : State :=
  let u := darkenLantern 0 (s.power.dark - 1) (s.passTo (s.power.shutdownAt + 2000000 * (8 - s.power.dark)))
  { u with power := { u.power with dark := s.power.dark - 1 } }

/-- The ramps are cold or have had their time, and the lanterns are to go dark. -/
def toDark (s : State) : State :=
  let u := shutdownTo (if panelCold s then s else s.passTo (s.power.shutdownAt + 50000000)) 3
  { u with power := { u.power with dark := 8 } }

theorem shutdownTo_power (s : State) (n : Nat) :
    (shutdownTo s n).power = { s.power with shutdown := n, shutdownAt := s.now } := rfl

theorem shutdownTo_unwanted (s : State) (n : Nat) : (shutdownTo s n).power.unwanted = s.power.unwanted := rfl

theorem shutdownTo_copperPort (s : State) (n k : Nat) : (shutdownTo s n).copperPort k = s.copperPort k := rfl

theorem nextDark_now (s : State) :
    (nextDark s).now = max s.now (s.power.shutdownAt + 2000000 * (8 - s.power.dark)) := by
  unfold nextDark
  dsimp only
  rw [darkenLantern_now, State.passTo_now]

theorem nextDark_lasers (s : State) : ((nextDark s).lantern (s.power.dark - 1)).lasers = false := by
  unfold nextDark
  dsimp only
  rw [State.lantern_withPower, darkenLantern_lasers]

theorem nextDark_power (s : State) : (nextDark s).power = { s.power with dark := s.power.dark - 1 } := by
  rw [nextDark, darkenLantern_power]
  rfl

theorem exec_shutdownStage (powered : s.power.pwrgd = true) : exec .shutdownStage s =
    match s.power.shutdown with
    | 1 => .next (shutdownTo (if panelIdle s || s.safe.active then s else s.passTo (s.power.shutdownAt + 10000000)) 2)
    | 2 => .next (toDark s)
    | 3 =>
      if s.power.dark ≠ 0 then .next (nextDark s)
      else .next (shutdownTo (shutdownDomains (idleCopper 0 s)) 4)
    | 4 => if s.power.unwanted.isEmpty then .next (shutdownTo s 5) else .next s
    | _ => .next s := if_neg (by rw [powered]; decide)

theorem exec_shutdownStage_rests (rests : s.power.shutdown = 0 ∨ 5 ≤ s.power.shutdown ∨
    (s.power.shutdown = 4 ∧ s.power.unwanted ≠ [])) : exec .shutdownStage s = .next s := by
  cases powered : s.power.pwrgd with
  | false => exact exec_shutdownStage_off powered
  | true =>
    rw [exec_shutdownStage powered]
    split
    · omega
    · omega
    · omega
    · next four =>
      have waits : s.power.unwanted ≠ [] := by
        rcases rests with none | late | ⟨-, waits⟩
        · omega
        · omega
        · exact waits
      exact if_neg (by rw [List.isEmpty_iff]; exact waits)
    · rfl

section

variable (powered : s.power.pwrgd = true)
include powered

/-- What was issued completes, or has 10 ms. -/
theorem shutdownStage_quiesces (one : s.power.shutdown = 1) :
    ∃ u, exec .shutdownStage s = .next u ∧ u.power.shutdown = 2 ∧ u.power.shutdownAt = u.now ∧
      u.now = (if panelIdle s = true ∨ s.safe.active = true then s.now
        else max s.now (s.power.shutdownAt + 10000000)) := by
  have run := exec_shutdownStage powered
  rw [one] at run
  refine ⟨_, run, rfl, rfl, ?_⟩
  rw [shutdownTo, apply_ite State.now, State.passTo_now]
  simp

/-- The ramps go cold, or have 50 ms. -/
theorem shutdownStage_cools (two : s.power.shutdown = 2) :
    ∃ u, exec .shutdownStage s = .next u ∧ u.power.shutdown = 3 ∧ u.power.dark = 8 ∧
      u.now = (if panelCold s = true then s.now else max s.now (s.power.shutdownAt + 50000000)) := by
  have run := exec_shutdownStage powered
  rw [two] at run
  refine ⟨_, run, rfl, rfl, ?_⟩
  rw [toDark, shutdownTo, apply_ite State.now, State.passTo_now]

/-- A lantern goes dark. -/
theorem shutdownStage_darkens (three : s.power.shutdown = 3) (dark : s.power.dark ≠ 0) :
    ∃ u, exec .shutdownStage s = .next u ∧ u.power.shutdown = 3 ∧ u.power.dark = s.power.dark - 1 ∧
      u.now = max s.now (s.power.shutdownAt + 2000000 * (8 - s.power.dark)) ∧
      (u.lantern (s.power.dark - 1)).lasers = false := by
  have run := exec_shutdownStage powered
  rw [three] at run
  refine ⟨_, run.trans (if_pos dark), ?_, ?_, nextDark_now s, nextDark_lasers s⟩
  · rw [nextDark_power]; exact three
  · rw [nextDark_power]

/-- The copper links and the domains go off once all light is out. -/
theorem shutdownStage_unpowers (three : s.power.shutdown = 3) (dark : s.power.dark = 0) :
    ∃ u, exec .shutdownStage s = .next u ∧ u.power.shutdown = 4 ∧
      (∀ d < 158, domainOn s d = true → d ≠ 152 → d ≠ 153 → d ∈ u.power.unwanted) ∧
      ∀ k < 13, (u.copperPort k).phase = .off := by
  have run := exec_shutdownStage powered
  rw [three] at run
  refine ⟨_, run.trans (if_neg (not_not.2 dark)), ?_, fun d hd on die die' => ?_, fun k hk => ?_⟩
  · rw [shutdownTo_power]
  · rw [shutdownTo_unwanted]
    refine mem_unwanted_shutdownDomains hd ?_ die die'
    rw [domainOn, idleCopper_power]
    exact on
  · rw [shutdownTo_copperPort, shutdownDomains_copperPort]
    exact idleCopper_copperPort 0 s hk

end

end

/-! ### Loss of power (R651, R659, R660) -/

/-- What stands after the loss of power, before PWRGD is lowered. -/
def unpowered (s : State) : State :=
  { State.reset with
    pending := s.pending, now := s.now, draws := s.draws, out := s.out,
    panel := { hb0 := s.panel.hb0, hb1 := s.panel.hb1, fitted := s.panel.fitted, pads := s.panel.pads },
    itin := { bootStore := s.itin.bootStore },
    rk := { gens := s.rk.gens.filter (·.sealed), log := s.rk.log, wrote := s.rk.wrote },
    sec := { anchor := s.sec.anchor, keySlots := s.sec.keySlots, revoked := s.sec.revoked, minSm := s.sec.minSm,
             ideRequired := s.sec.ideRequired, minHb := s.sec.minHb, minGc := s.sec.minGc,
             jkStored := s.sec.jkStored } }

/-- The signals that fall with the power are all that is sent. -/
theorem powerLost_eq (s : State) : ∃ out, powerLost s = { unpowered s with out } ∧
    (s.power.pwrgd = true → Out.pwrgd false ∈ out) := by
  unfold powerLost
  dsimp only
  split
  · split
    · exact ⟨_, rfl, fun _ => by simp⟩
    · exact ⟨_, rfl, fun _ => by simp⟩
  · next off => exact ⟨_, rfl, fun powered => absurd powered off⟩

/-- Settles O52: each state of a shutdown, and the state that a loss of power leaves. -/
theorem powerDown : Obligations.PowerDown := by
  unfold Obligations.PowerDown
  refine ⟨?go, ?again, ?rests, ?stages, ?lost⟩
  case go =>
    intro s p gate none
    rw [exec_shutdownGo gate, shutdownWrite, if_neg (by rw [none]; decide)]
  case again =>
    intro s p gate some
    rw [exec_shutdownGo gate, shutdownWrite, if_pos some]
  case rests =>
    rintro s (off | rests)
    · exact exec_shutdownStage_off off
    · exact exec_shutdownStage_rests rests
  case stages =>
    refine fun s powered => ⟨shutdownStage_quiesces powered, shutdownStage_cools powered,
      shutdownStage_darkens powered, shutdownStage_unpowers powered, fun four off => ?_⟩
    have run := exec_shutdownStage powered
    rw [four] at run
    exact run.trans (if_pos (by rw [off]; rfl))
  case lost =>
    intro s c mem
    have run : exec c s = .next (powerLost s) := by
      rcases List.mem_cons.1 mem with rfl | mem
      · rfl
      · rcases List.mem_singleton.1 mem with rfl
        rfl
    obtain ⟨out, lost, falls⟩ := powerLost_eq s
    rw [lost] at run
    exact ⟨_, run, rfl, FusesKept.same rfl rfl rfl rfl rfl rfl, rfl, rfl, rfl, rfl, rfl, rfl, rfl, rfl, rfl, rfl, rfl, rfl,
      falls⟩

end Sys2Proof.Machine

/-! Proofs of the obligations of spec/17_power_clocks_startup.md: start-up, and the power folds. -/

namespace Sys2Proof.Machine

open Sys2Proof

/-! ### Power good (R607, R625, R659) -/

/-- The host bridges are on and good. -/
def bridgesOn (s : State) : State := railGood (railGood (railOn (railOn s 152) 153) 152) 153

theorem bridgesOn_on (s : State) : (bridgesOn s).power.on = mset false (mset false s.power.on 152 true) 153 true := by
  rw [bridgesOn, railGood_power, railGood_power, railOn_power, railOn_power]

theorem bridgesOn_good (s : State) : ∃ good, (bridgesOn s).power.good = mset false (mset false good 152 true) 153 true :=
  ⟨_, by rw [bridgesOn, railGood_power, railGood_power]⟩

theorem mget_bridges (on : SMap Bool) : mget false (mset false (mset false on 152 true) 153 true) 152 = true :=
  (mget_mset_other _ _ _ (by decide)).trans (mget_mset_self ..)

theorem railGood_now (s : State) (d : Nat) : (railGood s d).now = s.now :=
  (railGood_only (.refl _ s) (.self _)).frame .now (by decide)

theorem railGood_out (s : State) (d : Nat) : (railGood s d).out = s.out :=
  (railGood_only (.refl _ s) (.self _)).frame .out (by decide)

theorem bridgesOn_now (s : State) : (bridgesOn s).now = s.now := by
  rw [bridgesOn, railGood_now, railGood_now]
  rfl

theorem bridgesOn_out (s : State) : (bridgesOn s).out = s.out := by
  rw [bridgesOn, railGood_out, railGood_out]
  rfl

/-- Power is good: time 0 of the sequence. -/
def powerUp (s : State) (aa : Nat) : State :=
  let u := bridgesOn s
  let u := { u with
    power := { u.power with pwrgd := true, bases := u.now, stage := 0 }, mgmt := { u.mgmt with aa },
    sec := { u.sec with nonce := Config.drbg u.draws } }
  u.used.emit (.pwrgd true)

section

variable (s : State) (aa : Nat)

theorem powerUp_power :
    (powerUp s aa).power = { (bridgesOn s).power with pwrgd := true, bases := (bridgesOn s).now, stage := 0 } := rfl
theorem powerUp_mgmt : (powerUp s aa).mgmt = { (bridgesOn s).mgmt with aa } := rfl
theorem powerUp_out : (powerUp s aa).out = (bridgesOn s).out ++ [.pwrgd true] := rfl

end

theorem exec_powerGood {s : State} {aa : Fin 4} (off : s.power.pwrgd = false) :
    exec (.powerGood aa) s = .next (powerUp s aa.val) := if_neg (by rw [off]; decide)

/-! ### Domains asked on and off (R25, R607) -/

theorem mem_insertUp_iff {d e : Nat} {xs : List Nat} : e ∈ insertUp d xs ↔ e = d ∨ e ∈ xs := by
  induction xs with
  | nil => simp [insertUp]
  | cons x xs ih =>
    unfold insertUp
    split
    · simp
    · split
      · next same => simp [same]
      · rw [List.mem_cons, ih, List.mem_cons, or_left_comm]

section

variable {s : State} {ds : List Nat} {d : Nat}

theorem wantOff_fold_panel : (ds.foldl wantOff s).panel = s.panel := foldl_view (f := wantOff) State.panel (fun _ _ _ => rfl) s

theorem wantOff_fold_on : (ds.foldl wantOff s).power.on = s.power.on :=
  foldl_view (f := wantOff) (fun u => u.power.on) (fun _ _ _ => rfl) s

theorem wantOff_fold_bases : (ds.foldl wantOff s).power.bases = s.power.bases :=
  foldl_view (f := wantOff) (fun u => u.power.bases) (fun _ _ _ => rfl) s

theorem wantOff_fold_now : (ds.foldl wantOff s).now = s.now := foldl_view (f := wantOff) State.now (fun _ _ _ => rfl) s

theorem wantOn_fold_bases : (ds.foldl wantOn s).power.bases = s.power.bases :=
  foldl_view (f := wantOn) (fun u => u.power.bases) (fun _ _ _ => rfl) s

theorem wantOn_fold_now : (ds.foldl wantOn s).now = s.now := foldl_view (f := wantOn) State.now (fun _ _ _ => rfl) s

/-- Once asked off, a domain stays so while others are asked off. -/
theorem wantOff_fold_keeps (off : d ∈ s.power.unwanted ∧ d ∉ s.power.wanted) :
    d ∈ (ds.foldl wantOff s).power.unwanted ∧ d ∉ (ds.foldl wantOff s).power.wanted := by
  induction ds generalizing s with
  | nil => exact off
  | cons e es ih =>
    exact ih ⟨mem_unwanted_of_wantOff off.1, fun mem => off.2 (List.mem_of_mem_filter mem)⟩

theorem wantOff_fold_mem (on : domainOn s d = true) (mem : d ∈ ds) :
    d ∈ (ds.foldl wantOff s).power.unwanted ∧ d ∉ (ds.foldl wantOff s).power.wanted := by
  induction ds generalizing s with
  | nil => cases mem
  | cons e es ih =>
    rcases List.mem_cons.1 mem with rfl | tail
    · exact wantOff_fold_keeps (s := wantOff s d) ⟨mem_unwanted_wantOff s d on, fun mem => by simp [wantOff] at mem⟩
    · exact ih on tail

/-- What is asked on leaves the other domains as they were asked. -/
theorem wantOn_fold_other (other : d ∉ ds) (off : d ∈ s.power.unwanted ∧ d ∉ s.power.wanted) :
    d ∈ (ds.foldl wantOn s).power.unwanted ∧ d ∉ (ds.foldl wantOn s).power.wanted := by
  induction ds generalizing s with
  | nil => exact off
  | cons e es ih =>
    have apart : d ≠ e := fun same => other (by simp [same])
    refine ih (fun mem => other (List.mem_cons_of_mem _ mem)) ⟨List.mem_filter.2 ⟨off.1, by simpa using apart⟩, ?_⟩
    unfold wantOn
    dsimp only
    split
    · exact off.2
    · rw [mem_insertUp_iff]
      exact fun mem => mem.elim apart off.2

theorem wantOn_fold_keeps (wanted : d ∈ s.power.wanted) : d ∈ (ds.foldl wantOn s).power.wanted := by
  induction ds generalizing s with
  | nil => exact wanted
  | cons e es ih =>
    refine ih ?_
    unfold wantOn
    dsimp only
    split
    · exact wanted
    · exact mem_insertUp_iff.2 (.inr wanted)

theorem wantOn_fold_mem (off : domainOn s d = false) (mem : d ∈ ds) : d ∈ (ds.foldl wantOn s).power.wanted := by
  induction ds generalizing s with
  | nil => cases mem
  | cons e es ih =>
    rcases List.mem_cons.1 mem with rfl | tail
    · refine wantOn_fold_keeps (s := wantOn s d) ?_
      simp [wantOn, off, mem_insertUp]
    · exact ih off tail

end

theorem tileAt?_congr {s u : State} (same : u.panel = s.panel) (site : Nat) : tileAt? u site = tileAt? s site := by
  unfold tileAt? skipCol
  rw [same]

theorem startDomains_congr {s u : State} (same : u.panel = s.panel) : startDomains u = startDomains s := by
  simp only [startDomains, mapSites, tileAt?_congr same]

theorem domainOn_of_skipped {s : State} {d : Nat} (skipped : d ∈ skippedDomains s) : domainOn s d = true := by
  simp only [skippedDomains, List.mem_append, List.mem_filter, List.mem_map, Bool.and_eq_true] at skipped
  rcases skipped with ⟨-, -, on⟩ | ⟨n, ⟨-, -, on⟩, rfl⟩ <;> exact on

/-- The map leaves off what start-up does not have on. -/
theorem not_start_of_skipped {s : State} {d : Nat} (skipped : d ∈ skippedDomains s) : d ∉ startDomains s := by
  simp only [skippedDomains, List.mem_append, List.mem_filter, List.mem_map, List.mem_range, Bool.and_eq_true,
    Option.isNone_iff_eq_none] at skipped
  simp only [startDomains, mapSites, List.mem_append, List.mem_filter, List.mem_map, List.mem_range,
    Option.isSome_iff_ne_none, not_or, not_exists, not_and]
  rcases skipped with ⟨hd, absent, -⟩ | ⟨n, ⟨hn, -, -⟩, rfl⟩
  · refine ⟨⟨fun low present => present ?_, fun k ⟨low, present⟩ same => present ?_⟩, fun k hk same => ?_⟩
    · rwa [Nat.mod_eq_of_lt low] at absent
    · rwa [← same, Nat.add_mod_right, Nat.mod_eq_of_lt low] at absent
    · omega
  · refine ⟨⟨fun low => ?_, fun k ⟨low, _⟩ same => ?_⟩, fun k hk same => ?_⟩ <;>
    · rw [guestDomain] at *
      omega

/-! ### The rows of the sequence (R625) -/

section

variable {s : State}

theorem reachStage_now (stage ms : Nat) : (reachStage s stage ms).now = max s.now (s.power.bases + 1000000 * ms) := rfl

/-- The map's sites and the lanterns are asked for, and what it skips is asked off. -/
def domainsAsked (s : State) : State :=
  let u := (skippedDomains s).foldl wantOff s
  (startDomains u).foldl wantOn u

theorem domainsAsked_bases : (domainsAsked s).power.bases = s.power.bases :=
  wantOn_fold_bases.trans wantOff_fold_bases

theorem domainsAsked_now : (domainsAsked s).now = s.now := wantOn_fold_now.trans wantOff_fold_now

theorem domainsAsked_wanted {d : Nat} (starts : d ∈ startDomains s) (off : domainOn s d = false) :
    d ∈ (domainsAsked s).power.wanted := by
  refine wantOn_fold_mem ?_ (by rwa [startDomains_congr wantOff_fold_panel])
  rw [domainOn, wantOff_fold_on]
  exact off

theorem domainsAsked_unwanted {d : Nat} (skipped : d ∈ skippedDomains s) :
    d ∈ (domainsAsked s).power.unwanted ∧ d ∉ (domainsAsked s).power.wanted := by
  refine wantOn_fold_other ?_ (wantOff_fold_mem (domainOn_of_skipped skipped) skipped)
  rw [startDomains_congr wantOff_fold_panel]
  exact not_start_of_skipped skipped

/-- Every tile starts to zero. -/
def zeroingStarted (s : State) : State := s.each (List.range 64) (fun t s => startZero s t)

theorem pwrgd_of_panelRuns (runs : panelRuns s = true) : s.power.pwrgd = true := by
  simp only [panelRuns, Bool.and_eq_true] at runs
  exact runs.1.1

theorem calm_of_panelRuns (runs : panelRuns s = true) : s.safe.active = false := by
  simp only [panelRuns, Bool.and_eq_true, Bool.not_eq_true'] at runs
  exact runs.1.2

theorem exec_startupStep (powered : s.power.pwrgd = true) : exec .startupStep s =
    match s.power.stage with
    | 0 => .next (reachStage s 1 1)
    | 1 =>
      if bootsKnown s then
        .next { reachStage s 2 40 with mgmt := { (reachStage s 2 40).mgmt with up := true } }
      else .next s
    | 2 =>
      if panelRuns s then
        .next (if coolantLost (reachStage s 3 42) then enterSafe (reachStage s 3 42) 0x11 else reachStage s 3 42)
      else .next s
    | 3 => if panelRuns s && s.panel.mapRead then .next (reachStage (domainsAsked s) 4 42) else .next s
    | 4 =>
      if panelRuns s && s.power.wanted.isEmpty && (startDomains s).all (domainGood s) then .next (reachStage s 5 47)
      else .next s
    | 5 => if panelRuns s && trainingDone s then .next (zeroingStarted (reachStage s 6 52)) else .next s
    | 6 =>
      if panelRuns s && (List.range 64).all (fun t => !(s.tile t).zero.active) && tablesLoaded s then
        .next (reachStage s 7 75)
      else .next s
    | 7 => if panelRuns s && s.rk.ready = 3 then .next (reachStage s 8 330) else .next s
    | _ => .next s := if_neg (by rw [powered]; decide)

end

section

variable {s : State} (runs : panelRuns s = true)
include runs

theorem startupStep_sensors (two : s.power.stage = 2) :
    ∃ t, exec .startupStep s = .next t ∧ t.power.stage = 3 ∧ t.now = max s.now (s.power.bases + 1000000 * 42) ∧
      t.safe.active = coolantLost s := by
  have calm := calm_of_panelRuns runs
  have run := exec_startupStep (pwrgd_of_panelRuns runs)
  rw [two] at run
  refine ⟨_, run.trans (if_pos runs), ?_⟩
  have same : coolantLost (reachStage s 3 42) = coolantLost s := rfl
  cases lost : coolantLost s with
  | true =>
    rw [if_pos (same.trans lost), enterSafe_power, enterSafe_now, enterSafe_active]
    exact ⟨rfl, rfl, rfl⟩
  | false =>
    rw [if_neg (by rw [same, lost]; decide)]
    exact ⟨rfl, rfl, calm⟩

theorem startupStep_asks (three : s.power.stage = 3) (read : s.panel.mapRead = true) :
    exec .startupStep s = .next (reachStage (domainsAsked s) 4 42) := by
  have run := exec_startupStep (pwrgd_of_panelRuns runs)
  rw [three] at run
  exact run.trans (if_pos (by rw [runs, read]; rfl))

theorem startupStep_zeroes (five : s.power.stage = 5) (trained : trainingDone s = true) :
    exec .startupStep s = .next (zeroingStarted (reachStage s 6 52)) := by
  have run := exec_startupStep (pwrgd_of_panelRuns runs)
  rw [five] at run
  exact run.trans (if_pos (by rw [runs, trained]; rfl))

end

section

variable (s : State)

theorem zeroingStarted_only : Only 4194368 s (zeroingStarted s) :=
  Only.foldl (.refl _ s) fun _ _ only => startZero_only only (.self _)

theorem zeroingStarted_power : (zeroingStarted s).power = s.power :=
  (zeroingStarted_only s).frame .power (by decide)

theorem zeroingStarted_now : (zeroingStarted s).now = s.now := (zeroingStarted_only s).frame .now (by decide)

theorem showZero_tile (t j : Nat) : (showZero s t).tile j = s.tile j := State.tile_congr (State.setReg_tiles ..) _

/-- A zeroing of a whole tile that starts at a time. -/
def wholeZero (began : Nat) : Zeroing :=
  { active := true, began, paces := 0, hamper := 0, basket := 0, basketFrom := 0, basketTo := 12288 }

theorem startZero_tile (t : Nat) : (startZero s t).tile t = { s.tile t with zero := wholeZero s.now } := by
  rw [startZero, showZero_tile, State.modTile, State.tile_setTile_self, wholeZero]

theorem startZero_tile_other {t j : Nat} (apart : t ≠ j) : (startZero s t).tile j = s.tile j := by
  rw [startZero, showZero_tile, State.modTile, State.tile_setTile_other _ _ apart]

theorem startZero_now (t : Nat) : (startZero s t).now = s.now :=
  (startZero_only (.refl _ s) (.self _)).frame .now (by decide)

theorem zeroingStarted_tile {k : Nat} (hk : k < 64) : ((zeroingStarted s).tile k).zero = wholeZero s.now := by
  obtain ⟨u, same, turn⟩ := (State.each_turn (fun u => (u.tile k, u.now)) (f := fun t u => startZero u t)
    (fun t u apart => Prod.ext (startZero_tile_other u apart) (startZero_now u t)) List.nodup_range s).2 (List.mem_range.2 hk)
  obtain ⟨tile, -⟩ := Prod.mk.inj turn
  obtain ⟨-, now⟩ := Prod.mk.inj same
  rw [zeroingStarted, tile, startZero_tile, now]

end

/-! ### The row skip map (R20, R22) -/

section

variable (s : State) (second repaired v0 v1 : Bool)

/-- The registers of the map's rows. -/
def rowsShown (c : MapCopy) : State := s.each (List.range 8) (fun r s => s.setReg (0x1000 + 4 * r) (rowmapWord c r))

theorem rowsShown_panel (c : MapCopy) : (rowsShown s c).panel = s.panel :=
  foldl_view (f := fun s r => s.setReg (0x1000 + 4 * r) (rowmapWord c r)) State.panel (fun _ _ _ => rfl) s

/-- The map's registers and columns, before the guests follow them. -/
def mapShown : State :=
  let c := if second then s.panel.hb1 else s.panel.hb0
  let s := (rowsShown s c).setReg 0x1020 (BitVec.ofNat 32 (v0.toNat + 2 * v1.toNat + 4 * repaired.toNat + 8 * second.toNat + 0xF0))
  { s with panel := { s.panel with mapRead := true, skip := (List.range 8).map (effectiveSkip c), pending := 0 } }

/-- A guest as the map has it. -/
def guestFollows (n : Nat) (s : State) : State :=
  let s := if (anchorTile s n).isNone then s.setReg (guestA n) 0 else s
  if guestFitted s n && (s.guest n).status = .unfitted then s.setGuest n { status := .idle } else s

theorem useMap_eq : useMap s second repaired v0 v1 =
    (mapShown s second repaired v0 v1).each (List.range 4) guestFollows := rfl

/-- What the guests do not touch of a map in use. -/
def mapView (s : State) : Bool × List Nat × MapCopy × MapCopy × Word :=
  (s.panel.mapRead, s.panel.skip, s.panel.hb0, s.panel.hb1, s.reg 0x1020)

theorem setGuest_panel (n : Nat) (g : Guest) :
    (s.setGuest n g).panel = { s.panel with guests := mset {} s.panel.guests n g } := rfl

theorem mapView_guestFollows (n : Nat) : mapView (guestFollows n s) = mapView s := by
  have apart : guestA n ≠ 0x1020 := by unfold guestA; omega
  unfold guestFollows mapView
  dsimp only
  repeat' split
  all_goals simp [State.reg_setReg_other _ _ apart, setGuest_panel]

theorem useMap_view : mapView (useMap s second repaired v0 v1) =
    (true, (List.range 8).map (effectiveSkip (if second then s.panel.hb1 else s.panel.hb0)), s.panel.hb0, s.panel.hb1,
      BitVec.ofNat 32 (v0.toNat + 2 * v1.toNat + 4 * repaired.toNat + 8 * second.toNat + 0xF0)) := by
  rw [useMap_eq]
  refine (foldl_view mapView (fun n _ u => mapView_guestFollows u n) _).trans ?_
  unfold mapView mapShown
  dsimp only
  rw [State.setReg_panel, rowsShown_panel]
  rw [show ∀ (u : State) (p : Panel), State.reg { u with panel := p } 0x1020 = u.reg 0x1020 from fun _ _ => rfl,
    State.reg_setReg_self]

theorem useMap_safe : (useMap s second repaired v0 v1).safe = s.safe :=
  (useMap_only (.refl _ s) (.self _)).frame .safe (by decide)

end

/-- The state in which the map has been tried. -/
def mapTried (s : State) : State := { s with panel := { s.panel with mapTried := true } }

/-- The map register before a copy is in use. -/
def validShown (s : State) : State :=
  (mapTried s).setReg 0x1020
    (BitVec.ofNat 32 ((copyValid s.panel.hb0).toNat + 2 * (copyValid s.panel.hb1).toNat + 0xF0))

/-- HB1's entry of a row is blown as HB0's stands. -/
def rowRepaired (s : State) (r : Nat) : State :=
  { mapTried s with panel := { (mapTried s).panel with
    hb1 := { s.panel.hb1 with field := s.panel.hb1.field.set r (s.panel.hb0.field.getD r 0) } } }

theorem mapDiffers_of_repairRow {s : State} {r : Nat} (repair : repairRow s = some r) : mapDiffers s = [r] := by
  unfold repairRow at repair
  split at repair
  · next one => 
    dsimp only at repair
    split at repair
    · rw [one, Option.some.inj repair]
    · cases repair
  · cases repair

section

variable {s : State} (runs : panelRuns s = true) (three : s.power.stage = 3) (unread : s.panel.mapRead = false)
include runs three unread

theorem exec_rowMapRead : exec .rowMapRead s =
    let v0 := copyValid s.panel.hb0
    let v1 := copyValid s.panel.hb1
    if v0 && v1 then
      match mapDiffers s with
      | [] => .next (useMap (mapTried s) false false true true)
      | r :: _ =>
        match repairRow s with
        | some r => .next (useMap (post (rowRepaired s r) 0x10 (srcDevice 0) r) false true true true)
        | none => .next (enterSafe (validShown s) 0x02 (extra := r))
    else if v0 || v1 then .next (useMap (post (mapTried s) 0x11 (srcDevice 0) v1.toNat) v1 false v0 v1)
    else .next (enterSafe (validShown s) 0x01) :=
  if_neg (by rw [runs, three, unread]; decide)

end

/-- The parts of a map in use, by what stands before it. -/
theorem useMap_parts (s : State) (second repaired v0 v1 : Bool) :
    (useMap s second repaired v0 v1).panel.mapRead = true ∧
    (useMap s second repaired v0 v1).panel.skip =
      (List.range 8).map (effectiveSkip (if second then s.panel.hb1 else s.panel.hb0)) ∧
    (useMap s second repaired v0 v1).panel.hb0 = s.panel.hb0 ∧
    (useMap s second repaired v0 v1).panel.hb1 = s.panel.hb1 ∧
    (useMap s second repaired v0 v1).reg 0x1020 =
      BitVec.ofNat 32 (v0.toNat + 2 * v1.toNat + 4 * repaired.toNat + 8 * second.toNat + 0xF0) ∧
    (useMap s second repaired v0 v1).safe = s.safe := by
  have view := useMap_view s second repaired v0 v1
  simp only [mapView, Prod.mk.injEq] at view
  obtain ⟨read, skip, hb0, hb1, shown⟩ := view
  exact ⟨read, skip, hb0, hb1, shown, useMap_safe ..⟩

theorem enterSafe_panel (s : State) (cause block0 block1 extra : Nat) :
    (enterSafe s cause block0 block1 extra).panel = s.panel :=
  (enterSafe_only (.refl _ s) (.self _)).frame .panel (by decide)

/-- Settles O1: one row of the sequence after another, and the map by the copies that are valid. -/
theorem startupSequence : Obligations.StartupSequence := by
  unfold Obligations.StartupSequence
  refine ⟨?power, ?one, ?forty, ?sensors, ?asks, ?good, ?zero, ?tables, ?mount, ?map⟩
  case power =>
    intro s aa off
    obtain ⟨good, goods⟩ := bridgesOn_good s
    refine ⟨_, exec_powerGood off, ?_⟩
    rw [domainOn, domainOn, domainGood, domainGood, powerUp_power, powerUp_mgmt, powerUp_out, bridgesOn_out]
    dsimp only
    rw [bridgesOn_on, goods, mget_bridges, mget_bridges, mget_mset_self, mget_mset_self]
    exact ⟨rfl, rfl, bridgesOn_now s, rfl, rfl, rfl, rfl, rfl, rfl⟩
  case one =>
    intro s powered zero
    have run := exec_startupStep powered
    rw [zero] at run
    exact ⟨_, run, rfl, rfl⟩
  case forty =>
    intro s powered one known
    have run := exec_startupStep powered
    rw [one] at run
    exact ⟨_, run.trans (if_pos known), rfl, rfl, rfl⟩
  case sensors =>
    exact fun s runs two => startupStep_sensors runs two
  case asks =>
    intro s runs three read
    refine ⟨_, startupStep_asks runs three read, rfl, ?_, fun d starts off => domainsAsked_wanted starts off,
      fun d skipped => domainsAsked_unwanted skipped⟩
    rw [reachStage_now, domainsAsked_now, domainsAsked_bases]
  case good =>
    intro s runs four asked good
    have run := exec_startupStep (pwrgd_of_panelRuns runs)
    rw [four] at run
    exact ⟨_, run.trans (if_pos (by rw [runs, asked, List.all_eq_true.2 good]; rfl)), rfl, rfl⟩
  case zero =>
    intro s runs five trained
    refine ⟨_, startupStep_zeroes runs five trained, ?_⟩
    rw [zeroingStarted_power, zeroingStarted_now]
    refine ⟨rfl, rfl, fun k hk => ?_⟩
    rw [zeroingStarted_tile _ hk]
    exact ⟨rfl, rfl, rfl⟩
  case tables =>
    intro s runs six done loaded
    have run := exec_startupStep (pwrgd_of_panelRuns runs)
    have zeroed : (List.range 64).all (fun t => !(s.tile t).zero.active) = true :=
      List.all_eq_true.2 fun k hk => by rw [done k (List.mem_range.1 hk)]; rfl
    rw [six] at run
    exact ⟨_, run.trans (if_pos (by rw [runs, zeroed, loaded]; rfl)), rfl, rfl⟩
  case mount =>
    intro s runs seven ready
    have run := exec_startupStep (pwrgd_of_panelRuns runs)
    rw [seven] at run
    exact ⟨_, run.trans (if_pos (by rw [runs, ready]; rfl)), rfl, rfl⟩
  case map =>
    intro s runs three unread a b
    have run := exec_rowMapRead runs three unread
    dsimp only at run
    refine ⟨fun va vb same => ?_, fun r va vb repair => ?_, fun va vb differ none => ?_, fun va vb => ?_, fun va vb => ?_,
      fun va vb => ?_⟩
    · rw [va, vb, same] at run
      exact ⟨_, run, useMap_parts ..⟩
    · rw [va, vb, mapDiffers_of_repairRow repair, repair] at run
      obtain ⟨read, skip, hb0, hb1, shown, safe⟩ :=
        useMap_parts (post (rowRepaired s r) 0x10 (srcDevice 0) r) false true true true
      rw [post_panel] at skip hb0 hb1
      rw [post_safe] at safe
      exact ⟨_, run, read, skip, hb0, hb1, shown, safe⟩
    · obtain ⟨r, rs, differs⟩ := List.exists_cons_of_ne_nil differ
      rw [va, vb, differs, none] at run
      refine ⟨_, run, ?_, enterSafe_active .., enterSafe_cause _ _ _ _ ?_, ?_, ?_⟩
      · rw [enterSafe_panel]; exact unread
      · exact calm_of_panelRuns runs
      · rw [enterSafe_panel]; rfl
      · rw [enterSafe_panel]; rfl
    · rw [va, vb] at run
      obtain ⟨read, skip, hb0, hb1, shown, safe⟩ := useMap_parts (post (mapTried s) 0x11 (srcDevice 0) 0) false false true false
      rw [post_panel] at skip hb0 hb1
      rw [post_safe] at safe
      exact ⟨_, run, read, skip, hb0, hb1, shown, safe⟩
    · rw [va, vb] at run
      obtain ⟨read, skip, hb0, hb1, shown, safe⟩ := useMap_parts (post (mapTried s) 0x11 (srcDevice 0) 1) true false false true
      rw [post_panel] at skip hb0 hb1
      rw [post_safe] at safe
      exact ⟨_, run, read, skip, hb0, hb1, shown, safe⟩
    · rw [va, vb] at run
      refine ⟨_, run, ?_, enterSafe_active .., enterSafe_cause _ _ _ _ ?_, ?_, ?_⟩
      · rw [enterSafe_panel]; exact unread
      · exact calm_of_panelRuns runs
      · rw [enterSafe_panel]; rfl
      · rw [enterSafe_panel]; rfl

end Sys2Proof.Machine

/-! Proofs of the obligations of spec/17_power_clocks_startup.md: the power folds and slew. -/

namespace Sys2Proof.Machine

open Sys2Proof

/-! ### PWR_FOLD (R610, R633) -/

theorem clampTo_le {lo hi v : Nat} (h : lo ≤ hi) : clampTo lo hi v ≤ hi := by
  unfold clampTo
  split
  · exact h
  · split <;> omega

theorem clampPcap_le (v : Nat) : clampPcap v ≤ 130 := by
  unfold clampPcap
  split
  · exact Nat.zero_le _
  · exact clampTo_le (by decide)

section

variable (s : State)

theorem reportClamp_regs (sect inst off bit written applied : Nat) :
    (reportClamp s sect inst off bit written applied).regs = s.regs :=
  (reportClamp_only (.refl _ s) (.self _)).frame .regs (by decide)

theorem changePoint_regs (old : Nat) : (changePoint s old).regs = s.regs :=
  (changePoint_only (.refl _ s) (.self _)).frame .regs (by decide)

/-- A field of an active register is held to what is applied, and a change of it is reported. -/
def heldTo (a lo n applied inst off bit : Nat) : State :=
  if applied = s.field a lo n then s
  else reportClamp (s.setField a lo n applied) 0 inst off bit (s.field a lo n) applied

section

variable {a lo n applied : Nat} (inst off bit : Nat)

theorem heldTo_field (word : lo + n ≤ 32) (fits : applied < 2 ^ n) :
    (heldTo s a lo n applied inst off bit).field a lo n = applied := by
  unfold heldTo
  split
  · next same => exact same.symm
  · rw [State.field_congr (reportClamp_regs ..), State.field_setField_self _ _ word fits]

theorem heldTo_field_apart {lo' n' : Nat} (word : lo' + n' ≤ 32) (apart : lo' + n' ≤ lo ∨ lo + n ≤ lo') :
    (heldTo s a lo n applied inst off bit).field a lo' n' = s.field a lo' n' := by
  unfold heldTo
  split
  · rfl
  · rw [State.field_congr (reportClamp_regs ..), State.field_setField_apart _ _ _ word apart]

theorem heldTo_reg_other {b : Nat} (apart : a ≠ b) : (heldTo s a lo n applied inst off bit).reg b = s.reg b := by
  unfold heldTo
  split
  · rfl
  · rw [State.reg_congr (reportClamp_regs ..), State.reg_setField_other _ _ _ _ apart]

end

theorem foldPower_eq : foldPower s = changePoint
    (heldTo (s.foldReg (pwrA 0)) (pwrA 0) 8 8 (clampPcap ((s.foldReg (pwrA 0)).field (pwrA 0) 8 8)) 0x200 0 8)
    (s.field (pwrA 0) 0 2) := rfl

/-- Every tile drains once the point is another. -/
theorem changePoint_draining {old t : Nat} (changed : s.field (pwrA 0) 0 2 ≠ old) (ht : t < 64) :
    (mget {} (changePoint s old).power.tiles t).point = .draining := by
  rw [changePoint, if_neg changed]
  obtain ⟨u, turn⟩ := State.each_last_turn (fun u => mget {} u.power.tiles t)
    (f := fun k u => { u with power := { u.power with
      tiles := mset {} u.power.tiles k { mget {} u.power.tiles k with point := .draining } } })
    (fun k _ apart u => mget_mset_other _ _ _ apart) List.nodup_range (List.mem_range.2 ht) s
  refine (congrArg TilePower.point turn).trans ?_
  dsimp only
  rw [mget_mset_self]

end

/-! ### TIL_PWR_FOLD (R614, R632, R633) -/

theorem State.foldReg_panel (s : State) (a : Nat) : (s.foldReg a).panel = s.panel := by
  unfold State.foldReg
  split <;> rfl

theorem tileLimit_congr {s u : State} (same : u.panel = s.panel) (t : Nat) : tileLimit u t = tileLimit s t := by
  unfold tileLimit siteOf physCol skipCol
  rw [same]

theorem tileLimit_bounds (s : State) (t : Nat) : 1 ≤ tileLimit s t ∧ tileLimit s t < 2 ^ 8 := by
  unfold tileLimit siteLimit
  split <;> decide

section

variable (s : State) (t : Nat)

/-- Both registers of the fold are active. -/
def slewFolded : State := (s.foldReg (tilA t 0x9000)).foldReg (tilA t 0x9004)

theorem slewFolded_panel : (slewFolded s t).panel = s.panel := by
  rw [slewFolded, State.foldReg_panel, State.foldReg_panel]

theorem tilA_ne {o o' : Nat} (apart : o ≠ o') : tilA t o ≠ tilA t o' := by
  unfold tilA; omega

theorem slewFolded_limit : (slewFolded s t).reg (tilA t 0x9000) =
    (s.stagedAt (tilA t 0x9000)).getD (s.reg (tilA t 0x9000)) := by
  rw [slewFolded, (State.foldReg_other _ _ (tilA_ne t (by decide))).1, State.foldReg_reg_self]

theorem slewFolded_vector : (slewFolded s t).reg (tilA t 0x9004) =
    (s.stagedAt (tilA t 0x9004)).getD (s.reg (tilA t 0x9004)) := by
  obtain ⟨reg, staged⟩ := State.foldReg_other s _ (tilA_ne t (show 0x9000 ≠ 0x9004 by decide))
  rw [slewFolded, State.foldReg_reg_self, reg, staged]

theorem foldSlew_eq : foldSlew s t = heldTo (slewFolded s t) (tilA t 0x9000) 0 8
    (clampTo 1 (tileLimit (slewFolded s t) t) ((slewFolded s t).field (tilA t 0x9000) 0 8)) t 0x9000 0 := rfl

theorem foldSlew_limit : (foldSlew s t).field (tilA t 0x9000) 0 8 =
    clampTo 1 (tileLimit s t) ((slewFolded s t).field (tilA t 0x9000) 0 8) := by
  obtain ⟨low, high⟩ := tileLimit_bounds s t
  rw [foldSlew_eq, heldTo_field, tileLimit_congr (slewFolded_panel s t)]
  · decide
  · rw [tileLimit_congr (slewFolded_panel s t)]
    exact Nat.lt_of_le_of_lt (clampTo_le low) high

theorem foldSlew_vector : (foldSlew s t).reg (tilA t 0x9004) =
    (s.stagedAt (tilA t 0x9004)).getD (s.reg (tilA t 0x9004)) := by
  rw [foldSlew_eq, heldTo_reg_other _ _ _ _ (tilA_ne t (by decide)), slewFolded_vector]

end

/-! ### SLEW_SAMPLE (R614, R615) -/

section

variable (s : State) (t compute hamper : Nat)

/-- A sample is kept and shown. -/
def slewShown : State :=
  let x : TilePower := mget {} s.power.tiles t
  let p := compute + hamper
  let x := { x with samples := (p :: x.samples).take 4, energy := x.energy + p }
  let s := { s with power := { s.power with tiles := mset {} s.power.tiles t x } }
  let s := s.setReg (tilA t 0x9010) (BitVec.ofNat 32 (compute % 65536 + 65536 * (hamper % 65536)))
  s.setReg64 (tilA t 0x9020) (x.energy / 64000)

/-- A change of the power since the fourth sample back is counted and answered. -/
def slewAnswered (s : State) (change : Int) : State :=
  let s := (s.count32 (tilA t 0x9018) 1).count32 (pwrA 0x6C) 1
  slewEvent (slewResponse s t (decide (0 < change))) t change (decide (0 < change))

theorem exec_slewSample {s : State} {t : Fin 64} {compute hamper : Nat} (powered : s.power.pwrgd = true)
    (trained : (s.tile t.val).trained = true) : exec (.slewSample t compute hamper) s =
      match (mget {} s.power.tiles t.val : TilePower).samples[3]? with
      | none => .next (slewShown s t.val compute hamper)
      | some q =>
        let change : Int := ((compute + hamper : Nat) : Int) - (q : Nat)
        if (slewShown s t.val compute hamper).safe.active || change.natAbs ≤
            4 * (slewShown s t.val compute hamper).field (tilA t.val 0x9000) 0 8 then
          .next (slewShown s t.val compute hamper)
        else .next (slewAnswered t.val (slewShown s t.val compute hamper) change) :=
  if_neg (by rw [powered, trained]; decide)

theorem slewShown_samples : (mget {} (slewShown s t compute hamper).power.tiles t).samples =
    ((compute + hamper) :: (mget {} s.power.tiles t).samples).take 4 := by
  unfold slewShown
  dsimp only [State.setReg64_power, State.setReg_power]
  rw [mget_mset_self]

theorem slewShown_reg {a : Nat} (a0 : a ≠ tilA t 0x9010) (a1 : a ≠ tilA t 0x9020) (a2 : a ≠ tilA t 0x9020 + 4) :
    (slewShown s t compute hamper).reg a = s.reg a := by
  unfold slewShown State.setReg64
  dsimp only
  rw [State.reg_setReg_other _ _ a2.symm, State.reg_setReg_other _ _ a1.symm, State.reg_setReg_other _ _ a0.symm]
  rfl

theorem slewShown_word : (slewShown s t compute hamper).reg (tilA t 0x9010) =
    BitVec.ofNat 32 (compute % 65536 + 65536 * (hamper % 65536)) := by
  unfold slewShown State.setReg64
  dsimp only
  rw [State.reg_setReg_other, State.reg_setReg_other _ _ (tilA_ne t (by decide)), State.reg_setReg_self]
  unfold tilA
  omega

theorem slewShown_engines : (slewShown s t compute hamper).engines = s.engines := by
  unfold slewShown
  dsimp only
  rw [State.setReg64_engines, State.setReg_engines]

theorem slewShown_tiles : (slewShown s t compute hamper).tiles = s.tiles := by
  unfold slewShown
  dsimp only
  rw [State.setReg64_tiles, State.setReg_tiles]

theorem slewShown_safe : (slewShown s t compute hamper).safe = s.safe := by
  unfold slewShown
  dsimp only
  rw [State.setReg64_safe, State.setReg_safe]

theorem slewShown_limit :
    (slewShown s t compute hamper).field (tilA t 0x9000) 0 8 = s.field (tilA t 0x9000) 0 8 := by
  rw [State.field, slewShown_reg, State.field]
  all_goals unfold tilA; omega

/-! ### The answer to a change (R615) -/

variable (change : Int) (rising : Bool)

theorem slewResponse_power : (slewResponse s t rising).power = s.power :=
  (slewResponse_only (.refl _ s) (.self _)).frame .power (by decide)

theorem slewResponse_regs : (slewResponse s t rising).regs = s.regs :=
  (slewResponse_only (.refl _ s) (.self _)).frame .regs (by decide)

theorem slewEvent_regs : (slewEvent s t change rising).regs = s.regs :=
  (slewEvent_only (.refl _ s) (.self _)).frame .regs (by decide)

theorem slewEvent_engines : (slewEvent s t change rising).engines = s.engines :=
  (slewEvent_only (.refl _ s) (.self _)).frame .engines (by decide)

theorem slewEvent_tiles : (slewEvent s t change rising).tiles = s.tiles :=
  (slewEvent_only (.refl _ s) (.self _)).frame .tiles (by decide)

theorem slewEvent_samples : (mget {} (slewEvent s t change rising).power.tiles t).samples =
    (mget {} s.power.tiles t).samples := by
  unfold slewEvent
  dsimp only
  repeat' split
  all_goals simp

/-- An engine's answer: every one rises; idle or cold ones fall. -/
def slewEngine (x : Engine) : Engine :=
  if rising || x.idleRun ≠ 0 || x.ramp = .cold then slewRamp rising x else x

theorem slewResponse_engine {e : Nat} (he : e < 4) :
    (slewResponse s t rising).engine (4 * t + e) = slewEngine rising (s.engine (4 * t + e)) := by
  obtain ⟨u, same, turn⟩ := (State.each_turn (n := e) (fun u => u.engine (4 * t + e)) (f := fun k u =>
    if rising || (u.engine (4 * t + k)).idleRun ≠ 0 || (u.engine (4 * t + k)).ramp = .cold then
      u.setEngine (4 * t + k) (slewRamp rising (u.engine (4 * t + k))) else u)
    (fun k u apart => by
      split
      · exact State.engine_setEngine_other _ _ (by omega)
      · rfl) List.nodup_range s).2 (List.mem_range.2 he)
  refine turn.trans ?_
  rw [← same, slewEngine]
  split
  · rw [State.engine_setEngine_self]
  · rfl

theorem slewResponse_tile :
    (slewResponse s t rising).tile t = { s.tile t with vecRamp := slewRamp rising (s.tile t).vecRamp } := by
  have tiles (f : Nat → State → State) (keeps : ∀ k u, (f k u).tiles = u.tiles) :
      (s.each (List.range 4) f).tiles = s.tiles := foldl_view (f := fun u k => f k u) State.tiles (fun k _ u => keeps k u) s
  unfold slewResponse
  dsimp only
  rw [State.modTile, State.tile_setTile_self, State.tile_congr (tiles _ fun k u => ?_)]
  split <;> rfl

end

section

variable (s : State) (t : Nat) (change : Int)

/-- A change is counted. -/
def slewCounted : State := (s.count32 (tilA t 0x9018) 1).count32 (pwrA 0x6C) 1

theorem slewAnswered_eq : slewAnswered t s change =
    slewEvent (slewResponse (slewCounted s t) t (decide (0 < change))) t change (decide (0 < change)) := rfl

theorem slewCounted_power : (slewCounted s t).power = s.power := by
  rw [slewCounted, State.count32_power, State.count32_power]

theorem slewCounted_engines : (slewCounted s t).engines = s.engines := by
  rw [slewCounted, State.count32_engines, State.count32_engines]

theorem slewCounted_tiles : (slewCounted s t).tiles = s.tiles := by
  rw [slewCounted, State.count32_tiles, State.count32_tiles]

theorem slewAnswered_samples : (mget {} (slewAnswered t s change).power.tiles t).samples =
    (mget {} s.power.tiles t).samples := by
  rw [slewAnswered_eq, slewEvent_samples, slewResponse_power, slewCounted_power]

theorem slewAnswered_regs : (slewAnswered t s change).regs = (slewCounted s t).regs := by
  rw [slewAnswered_eq, slewEvent_regs, slewResponse_regs]

theorem slewCounted_count : (slewCounted s t).reg (tilA t 0x9018) = satAdd (s.reg (tilA t 0x9018)) 1 := by
  rw [slewCounted, State.reg_count32_other, State.reg_count32_self]
  unfold pwrA tilA
  omega

theorem slewCounted_word : (slewCounted s t).reg (tilA t 0x9010) = s.reg (tilA t 0x9010) := by
  rw [slewCounted, State.reg_count32_other, State.reg_count32_other _ _ (tilA_ne t (by decide))]
  unfold pwrA tilA
  omega

theorem slewAnswered_engine {e : Nat} (he : e < 4) : (slewAnswered t s change).engine (4 * t + e) =
    slewEngine (decide (0 < change)) (s.engine (4 * t + e)) := by
  rw [slewAnswered_eq, State.engine_congr (slewEvent_engines ..), slewResponse_engine _ _ _ he,
    State.engine_congr (slewCounted_engines ..)]

theorem slewAnswered_tile : (slewAnswered t s change).tile t =
    { s.tile t with vecRamp := slewRamp (decide (0 < change)) (s.tile t).vecRamp } := by
  rw [slewAnswered_eq, State.tile_congr (slewEvent_tiles ..), slewResponse_tile,
    State.tile_congr (slewCounted_tiles ..)]

end

/-- A sample that is not answered leaves the count and the engines. -/
theorem slewShown_count (s : State) (t compute hamper : Nat) :
    (slewShown s t compute hamper).reg (tilA t 0x9018) = s.reg (tilA t 0x9018) := by
  refine slewShown_reg s t compute hamper ?_ ?_ ?_
  all_goals unfold tilA; omega

theorem rises_iff (p q : Nat) : decide (0 < (p : Int) - (q : Int)) = decide (q < p) :=
  decide_eq_decide.2 (by omega)

/-- What a sample leaves, whatever is answered. -/
theorem slewSample_outcome {s : State} {t : Fin 64} {compute hamper : Nat} (powered : s.power.pwrgd = true)
    (trained : (s.tile t.val).trained = true) : ∃ u, exec (.slewSample t compute hamper) s = .next u ∧
      ((∃ q, (mget {} s.power.tiles t.val : TilePower).samples[3]? = some q ∧ s.safe.active = false ∧
          4 * s.field (tilA t.val 0x9000) 0 8 < (((compute + hamper : Nat) : Int) - (q : Nat)).natAbs ∧
          u = slewAnswered t.val (slewShown s t.val compute hamper) (((compute + hamper : Nat) : Int) - (q : Nat))) ∨
        ((∀ q, (mget {} s.power.tiles t.val : TilePower).samples[3]? = some q → s.safe.active = true ∨
          (((compute + hamper : Nat) : Int) - (q : Nat)).natAbs ≤ 4 * s.field (tilA t.val 0x9000) 0 8) ∧
          u = slewShown s t.val compute hamper)) := by
  have run := exec_slewSample (compute := compute) (hamper := hamper) powered trained
  rw [slewShown_safe, slewShown_limit] at run
  cases was : (mget {} s.power.tiles t.val : TilePower).samples[3]? with
  | none =>
    rw [was] at run
    exact ⟨_, run, .inr ⟨(fun q some => nomatch some), rfl⟩⟩
  | some q =>
    rw [was] at run
    by_cases rests : s.safe.active = true ∨
        (((compute + hamper : Nat) : Int) - (q : Nat)).natAbs ≤ 4 * s.field (tilA t.val 0x9000) 0 8
    · refine ⟨_, run.trans (if_pos (by simpa using rests)), .inr ⟨fun q' same => ?_, rfl⟩⟩
      rwa [← Option.some.inj same]
    · refine ⟨_, run.trans (if_neg (by simpa using rests)), .inl ⟨q, rfl, ?_, ?_, rfl⟩⟩
      · simpa using fun active => rests (.inl active)
      · exact Nat.lt_of_not_le fun small => rests (.inr small)

/-- Settles O50: the folds by the fields that they hold to their ranges, and a sample by the change that it shows. -/
theorem powerFolds : Obligations.PowerFolds := by
  unfold Obligations.PowerFolds
  refine ⟨?fold, ?tile, ?rests, ?unpowered, ?changes, ?sample⟩
  case fold =>
    intro s p gate
    refine ⟨congrArg _ (ownerWrite_gate gate ..), ?_, ?_, fun changed t ht => ?_⟩
    · rw [foldPower_eq, State.field_congr (changePoint_regs ..), heldTo_field _ _ _ _ (by decide)]
      exact Nat.lt_of_le_of_lt (clampPcap_le _) (by decide)
    · rw [foldPower_eq, State.field_congr (changePoint_regs ..), heldTo_field_apart _ _ _ _ (by decide) (by decide)]
    · rw [foldPower_eq]
      refine changePoint_draining _ ?_ ht
      rwa [heldTo_field_apart _ _ _ _ (by decide) (by decide)]
  case tile =>
    intro s p t gate
    refine ⟨congrArg _ (ownerWrite_gate gate ..), fun w staged => ?_, fun w staged => ?_⟩
    · rw [pwrTileFold, if_pos (by rw [staged]; rfl), foldSlew_limit, State.field, slewFolded_limit, staged]
      rfl
    · rw [pwrTileFold, if_pos (by rw [staged]; simp), foldSlew_vector, staged]
      rfl
  case rests =>
    rintro s t (off | steady | warm)
    · exact if_pos (by rw [off]; rfl)
    · exact if_pos (by simp [steady])
    · exact if_pos (by simp [warm])
  case unpowered =>
    rintro s t compute hamper (off | untrained)
    · exact if_pos (by rw [off]; rfl)
    · exact if_pos (by rw [untrained]; simp)
  case changes =>
    intro s t runs drains cold
    refine ⟨_, if_neg ?_, ?_⟩
    · simp [runs, drains, cold]
    · exact mget_mset_self ..
  case sample =>
    intro s t compute hamper powered trained
    obtain ⟨u, run, ⟨q, was, calm, large, rfl⟩ | ⟨small, rfl⟩⟩ := slewSample_outcome (compute := compute) (hamper := hamper) powered trained
    · refine ⟨_, run, ?_, ?_, fun q' was' _ _ => ?_, fun q' was' small => ?_, fun none => ?_⟩
      · rw [slewAnswered_samples, slewShown_samples]
      · rw [State.reg_congr (slewAnswered_regs ..), slewCounted_word, slewShown_word]
      · obtain rfl : q = q' := Option.some.inj (was.symm.trans was')
        refine ⟨?_, ?_, ?_, fun e he => ⟨fun moves => ?_, fun falls busy warm => ?_⟩⟩
        · rw [State.reg_congr (slewAnswered_regs ..), slewCounted_count, slewShown_count]
        · rw [slewAnswered_tile, rises_iff]
          simp [slewRamp]
        · rw [slewAnswered_tile, State.tile_congr (slewShown_tiles ..)]
          rfl
        · have turns : (decide (q < compute + hamper) || decide ((s.engine (4 * t.val + e)).idleRun ≠ 0) ||
              decide ((s.engine (4 * t.val + e)).ramp = .cold)) = true := by
            simpa [or_assoc] using moves
          rw [slewAnswered_engine _ _ _ he, State.engine_congr (slewShown_engines ..), rises_iff, slewEngine,
            if_pos turns]
          simp [slewRamp]
        · have rests : ¬(decide (q < compute + hamper) || decide ((s.engine (4 * t.val + e)).idleRun ≠ 0) ||
              decide ((s.engine (4 * t.val + e)).ramp = .cold)) = true := by
            simpa [busy, warm] using falls
          rw [slewAnswered_engine _ _ _ he, State.engine_congr (slewShown_engines ..), rises_iff, slewEngine,
            if_neg rests]
      · obtain rfl : q = q' := Option.some.inj (was.symm.trans was')
        rw [calm] at small
        rcases small with active | small
        · cases active
        · omega
      · rw [none] at was
        cases was
    · refine ⟨_, run, slewShown_samples .., slewShown_word .., fun q was calm large => ?_,
        fun q was _ => ⟨slewShown_count .., slewShown_engines ..⟩, fun _ => ⟨slewShown_count .., slewShown_engines ..⟩⟩
      rcases small q was with active | small
      · rw [calm] at active
        cases active
      · omega

end Sys2Proof.Machine

/-! Proofs of the obligations of spec/11_copper_and_host.md: the management endpoint. -/

namespace Sys2Proof.Machine

open Sys2Proof

/-! ### Register-access messages (R459) -/

section

variable {s : State} {m : Fin 4} {offset : Nat}

theorem msgRead_misaligned (odd : offset % 4 ≠ 0) : msgRead s m offset = answer s (.code 3) := if_pos odd

theorem msgRead_aligned (aligned : offset % 4 = 0) : msgRead s m offset =
    answer (readWord s { path := .msg m, off := offset }).2 (.code 0)
      [(readWord s { path := .msg m, off := offset }).1] := if_neg (not_not.2 aligned)

theorem msgWrite_misaligned (data : Word) (odd : offset % 4 ≠ 0) : msgWrite s m offset data = answer s (.code 3) :=
  if_pos odd

theorem msgWrite_aligned (data : Word) (aligned : offset % 4 = 0) :
    msgWrite s m offset data = asCode (busWrite s { path := .msg m, off := offset } data) :=
  if_neg (not_not.2 aligned)

theorem readRun_length (m : Fin 4) (n off : Nat) (s : State) : (readRun m n off s).1.length = n := by
  induction n generalizing off s with
  | zero => rfl
  | succ n ih => exact congrArg (· + 1) (ih (off + 4) (readWord s { path := .msg m, off }).2)

theorem readRun_head? {n : Nat} (some : 1 ≤ n) :
    (readRun m n offset s).1.head? = .some (readWord s { path := .msg m, off := offset }).1 := by
  obtain ⟨k, rfl⟩ := Nat.exists_eq_add_of_le' some
  rfl

section

variable (up : endpointUp s m.val = true)
include up

theorem exec_read32 : exec (.read32 m offset) s = .next (msgRead s m offset) := if_pos up

theorem exec_write32 (data : Word) : exec (.write32 m offset data) s = .next (msgWrite s m offset data) := if_pos up

theorem exec_readBlock {count : Nat} : exec (.readBlock m offset count) s = .next (msgBlock s m offset count) :=
  if_pos up

theorem exec_regAccessReserved {command : Nat} (reserved : command = 0 ∨ 4 ≤ command) :
    exec (.regAccessReserved m command) s = .next (answer s (.code 1)) :=
  if_pos (by
    rw [up]
    rcases reserved with rfl | large
    · rfl
    · simp only [Bool.true_and, Bool.not_eq_true', Bool.and_eq_false_iff, decide_eq_false_iff_not]
      omega)

end

end

/-! ### MCTP (R457, R458) -/

section

variable (s : State) (msg : Mctp)

theorem mctpReply_out : (mctpReply s msg).out =
    s.out ++ .mctp msg.binding msg.source s.reply.status s.reply.words ::
      (if msg.binding = .i3c then [.ibi] else []) := by
  unfold mctpReply
  cases msg.binding with
  | pcie h => rfl
  | i3c => exact List.append_assoc s.out [_] [_]

/-- A reply only sends. -/
theorem mctpReply_eq : ∃ out, mctpReply s msg = { s with out } := by
  unfold mctpReply
  cases msg.binding with
  | pcie h => exact ⟨_, rfl⟩
  | i3c => exact ⟨_, rfl⟩

end

section

variable {s u : State} {msg : Mctp}

theorem exec_mctpMessage (up : endpointUp s (mctpMaster s msg).val = true) (pec : msg.pecOk = true)
    (serves : mctpServe s (mctpMaster s msg) msg.body = some u) :
    exec (.mctpMessage msg) s = .next (mctpReply u msg) := by
  have run : exec (.mctpMessage msg) s = execMctpMessage msg s := rfl
  rw [run, execMctpMessage]
  rw [if_neg (by rw [up, pec]; decide), serves]

theorem exec_mctpMessage_discarded (no : msg.pecOk = false ∨ mctpServe s (mctpMaster s msg) msg.body = none) :
    exec (.mctpMessage msg) s = .next s := by
  have run : exec (.mctpMessage msg) s = execMctpMessage msg s := rfl
  rw [run, execMctpMessage]
  split
  · rfl
  · next taken =>
    rcases no with bad | none
    · rw [bad] at taken
      exact absurd (by simp) taken
    · rw [none]

/-- What a served message leaves, but for what is sent. -/
theorem mctpMessage_served (up : endpointUp s (mctpMaster s msg).val = true) (pec : msg.pecOk = true)
    (serves : mctpServe s (mctpMaster s msg) msg.body = some u) :
    ∃ out, exec (.mctpMessage msg) s = .next { u with out } := by
  obtain ⟨out, replies⟩ := mctpReply_eq u msg
  exact ⟨out, by rw [exec_mctpMessage up pec serves, replies]⟩

end

/-! ### I3C (R458) -/

section

variable {s : State}

theorem exec_i3cCcc_down {ccc : Ccc} (down : s.mgmt.up = false) : exec (.i3cCcc ccc) s = .next (answer s .noAck) :=
  if_pos (by rw [down]; rfl)

section

variable (up : s.mgmt.up = true)
include up

theorem exec_setdasa {a d : Nat} : exec (.i3cCcc (.setdasa a d)) s =
    if a = 0x50 + s.mgmt.aa && s.mgmt.dynamic.isNone then
      .next (answer { s with mgmt := { s.mgmt with dynamic := some (d % 128) } } .ok)
    else .next (answer s .noAck) := if_neg (by rw [up]; decide)

theorem exec_entdaa {d : Nat} : exec (.i3cCcc (.entdaa d)) s =
    if s.mgmt.dynamic.isNone then
      .next (answer { s with mgmt := { s.mgmt with dynamic := some (d % 128) } } .ok)
    else .next (answer s .noAck) := if_neg (by rw [up]; decide)

theorem exec_rstdaa : exec (.i3cCcc .rstdaa) s =
    .next (answer { s with mgmt := { s.mgmt with dynamic := none } } .ok) := if_neg (by rw [up]; decide)

theorem exec_setmrl {n : Nat} : exec (.i3cCcc (.setmrl n)) s =
    if s.mgmt.dynamic.isSome then
      .next (answer { s with mgmt := { s.mgmt with maxRead := min n 69 } } .ok)
    else .next (answer s .noAck) := if_neg (by rw [up]; decide)

theorem exec_getmrl : exec (.i3cCcc .getmrl) s =
    if s.mgmt.dynamic.isSome then .next (answer s .ok [BitVec.ofNat 32 s.mgmt.maxRead])
    else .next (answer s .noAck) := if_neg (by rw [up]; decide)

theorem exec_otherCcc {c : Nat} : exec (.i3cCcc (.other c)) s = .next (answer s .noAck) :=
  if_neg (by rw [up]; decide)

end

end

/-- Settles O35: each message by what its register access, its type or its code asks. -/
theorem managementMessages : Obligations.ManagementMessages := by
  unfold Obligations.ManagementMessages
  refine ⟨?read, ?write, ?block, ?reserved, ?replies, ?discarded, ?served, ?codes, ?down⟩
  case read =>
    refine fun s m offset up => ⟨fun odd => ?_, fun aligned => ?_⟩
    · rw [exec_read32 up, msgRead_misaligned odd]
    · rw [exec_read32 up, msgRead_aligned aligned]
  case write =>
    refine fun s m offset data up => ⟨fun odd => ?_, fun aligned => ?_⟩
    · rw [exec_write32 up, msgWrite_misaligned data odd]
    · rw [exec_write32 up, msgWrite_aligned data aligned]
  case block =>
    refine fun s m offset count up => ⟨fun no => ?_, fun low high odd => ?_, fun low high aligned => ?_⟩
    · rw [exec_readBlock up]
      exact congrArg _ (if_pos no)
    · rw [exec_readBlock up]
      exact congrArg _ ((if_neg (by omega)).trans (if_pos odd))
    · refine ⟨_, _, rfl, readRun_length .., readRun_head? low, ?_⟩
      rw [exec_readBlock up]
      exact congrArg _ ((if_neg (by omega)).trans (if_neg (not_not.2 aligned)))
  case reserved =>
    exact fun s m command up reserved => exec_regAccessReserved up reserved
  case replies =>
    intro s u msg up pec serves
    obtain ⟨out, replies⟩ := mctpReply_eq u msg
    have sent := mctpReply_out u msg
    rw [replies] at sent
    rw [exec_mctpMessage up pec serves, replies]
    exact congrArg (fun out => Host.Outcome.next { u with out }) sent
  case discarded =>
    exact fun s msg no => exec_mctpMessage_discarded no
  case served =>
    intro s msg up pec
    refine ⟨fun id v body value => ?_, fun off body aligned => ?_, fun eid body => ?_, fun off d body odd => ?_⟩
    · obtain ⟨out, run⟩ := mctpMessage_served (u := answer s .ok [BitVec.ofNat 32 v]) up pec
        (by rw [body, mctpServe, value])
      exact ⟨_, run, rfl⟩
    · obtain ⟨out, run⟩ := mctpMessage_served (u := msgRead s (mctpMaster s msg) off) up pec (by rw [body]; rfl)
      rw [msgRead_aligned aligned] at run
      exact ⟨_, run, rfl, rfl⟩
    · obtain ⟨out, run⟩ := mctpMessage_served
        (u := answer { s with mgmt := { s.mgmt with eid } } .ok [BitVec.ofNat 32 eid]) up pec (by rw [body]; rfl)
      exact ⟨_, run, rfl, rfl⟩
    · obtain ⟨out, run⟩ := mctpMessage_served (u := msgWrite s (mctpMaster s msg) off d) up pec (by rw [body]; rfl)
      rw [msgWrite_misaligned d odd] at run
      exact ⟨_, run, rfl, rfl⟩
  case codes =>
    intro s up
    refine ⟨fun a d free => ?_, exec_rstdaa up, fun held => ?_, fun free => ?_, fun c => exec_otherCcc up⟩
    · rw [exec_setdasa up, exec_entdaa up, free, ← apply_ite Host.Outcome.next]
      simp
    · have some : s.mgmt.dynamic.isNone = false := by simpa using held
      refine ⟨(exec_getmrl up).trans (if_pos held), fun n => (exec_setmrl up).trans (if_pos held), fun a d => ⟨?_, ?_⟩⟩
      · rw [exec_setdasa up, some, Bool.and_false]
        rfl
      · rw [exec_entdaa up, some]
        rfl
    · rw [exec_getmrl up, free]
      refine ⟨rfl, fun n => ?_⟩
      rw [exec_setmrl up, free]
      rfl
  case down =>
    exact fun s ccc down => exec_i3cCcc_down down

end Sys2Proof.Machine

/-! Proofs of the obligations of spec/15_resilience.md: the safe state. -/

namespace Sys2Proof.Machine

open Sys2Proof

/-! ### Bundles that park (R401, R422) -/

/-- From `s` to `u` a lantern changes by bundles that park, and no other lantern changes. -/
structure OnlyParks (s u : State) (n : Nat) : Prop where
  lantern : ∃ bundles, u.lantern n = { s.lantern n with bundles }
  stays : ∀ m, (s.bundle n m).entry = 0 → (u.bundle n m).entry = 0
  other : ∀ j, n ≠ j → u.lantern j = s.lantern j

theorem OnlyParks.refl (s : State) (n : Nat) : OnlyParks s s n := ⟨⟨_, rfl⟩, fun _ zero => zero, fun _ _ => rfl⟩

theorem OnlyParks.port {s u : State} {n : Nat} (h : OnlyParks s u n) (p : Nat) : u.port n p = s.port n p := by
  obtain ⟨bundles, lantern⟩ := h.lantern
  rw [State.port, lantern, State.port]

theorem State.lantern_setBundle_other (s : State) {n j : Nat} (m : Nat) (x : Bundle) (apart : n ≠ j) :
    (s.setBundle n m x).lantern j = s.lantern j := State.lantern_setLantern_other _ _ apart

theorem State.lantern_setPort_other (s : State) {n j : Nat} (p : Nat) (x : Port) (apart : n ≠ j) :
    (s.setPort n p x).lantern j = s.lantern j := State.lantern_setLantern_other _ _ apart

section

variable (s : State) (n m : Nat)

/-- The links of a bundle's entry are down. -/
def entryDown : State :=
  s.each (List.range (entryCount (s.bundle n m).entry)) (fun i s =>
    if (s.link (bundleLink n m i)).up then linkDown s (bundleLink n m i) else s)

theorem linkDown_bundle_lanterns (i : Nat) : (linkDown s (bundleLink n m i)).lanterns = s.lanterns :=
  (linkDown_only (.refl _ s) (.self _)).frame .lanterns (by decide)

theorem entryDown_lanterns : (entryDown s n m).lanterns = s.lanterns := by
  refine foldl_view (f := fun s i => if (s.link (bundleLink n m i)).up then linkDown s (bundleLink n m i) else s)
    State.lanterns (fun i _ u => ?_) s
  split
  · exact linkDown_bundle_lanterns u n m i
  · rfl

theorem parkBundle_eq : ∃ b, parkBundle s n m = (entryDown s n m).setBundle n m b ∧ b.entry = 0 := ⟨_, rfl, rfl⟩

theorem parkBundle_bundle_self : ((parkBundle s n m).bundle n m).entry = 0 := by
  obtain ⟨b, parks, zero⟩ := parkBundle_eq s n m
  rw [parks, State.bundle_setBundle_self, zero]

theorem parkBundle_bundle_other {j : Nat} (apart : m ≠ j) : (parkBundle s n m).bundle n j = s.bundle n j := by
  obtain ⟨b, parks, -⟩ := parkBundle_eq s n m
  rw [parks, State.bundle_setBundle_other _ _ _ apart, State.bundle_congr (entryDown_lanterns ..)]

theorem parkBundle_onlyParks : OnlyParks s (parkBundle s n m) n := by
  obtain ⟨b, parks, -⟩ := parkBundle_eq s n m
  refine ⟨⟨mset {} (s.lantern n).bundles m b, ?_⟩, fun j zero => ?_, fun j apart => ?_⟩
  · rw [parks, State.lantern_setBundle_self, State.lantern_congr (entryDown_lanterns ..)]
  · by_cases own : m = j
    · subst own
      exact parkBundle_bundle_self s n m
    · rw [parkBundle_bundle_other s n m own, zero]
  · rw [parks, State.lantern_setBundle_other _ _ _ apart, State.lantern_congr (entryDown_lanterns ..)]

theorem OnlyParks.trans {s u v : State} {n : Nat} (h : OnlyParks s u n) (h' : OnlyParks u v n) : OnlyParks s v n := by
  obtain ⟨⟨bundles, lantern⟩, stays, other⟩ := h
  obtain ⟨⟨bundles', lantern'⟩, stays', other'⟩ := h'
  exact ⟨⟨bundles', by rw [lantern', lantern]⟩, fun m zero => stays' m (stays m zero),
    fun j apart => (other' j apart).trans (other j apart)⟩

theorem clearPort_onlyParks (p : Nat) : OnlyParks s (clearPort s n p) n := by
  refine List.foldlRecOn (motive := fun u => OnlyParks s u n) _ _ (OnlyParks.refl s n) fun u h m _ => ?_
  dsimp only
  split
  · exact h.trans (parkBundle_onlyParks u n m)
  · exact h

end

/-! ### Ports that go OFF (R424) -/

section

variable (s : State) (n p cause : Nat)

/-- The state in which a port that goes OFF has parked its bundles. -/
def portCleared : State := clearPort (s.setPort n p { s.port n p with phase := .off }) n p

theorem stopPort_eq : stopPort s n p cause =
    lasersFollow (((portCleared s n p).setPort n p { phase := .off, cause }).setReg (portA n p 0x8) 0x8000) n := rfl

theorem lasersFollow_bundle (m : Nat) : (lasersFollow s n).bundle n m = s.bundle n m := State.bundle_setLantern_self ..

theorem lasersFollow_lantern_other {j : Nat} (apart : n ≠ j) : (lasersFollow s n).lantern j = s.lantern j :=
  State.lantern_setLantern_other _ _ apart

theorem State.bundle_setPort (x : Port) (m : Nat) : (s.setPort n p x).bundle n m = s.bundle n m :=
  State.bundle_setLantern_self ..

theorem stopPort_port : (stopPort s n p cause).port n p = { phase := .off, cause } := by
  rw [stopPort_eq, lasersFollow_port, State.port_congr (State.setReg_lanterns ..), State.port_setPort_self]

theorem stopPort_port_other {j : Nat} (apart : p ≠ j) : (stopPort s n p cause).port n j = s.port n j := by
  rw [stopPort_eq, lasersFollow_port, State.port_congr (State.setReg_lanterns ..),
    State.port_setPort_other _ _ _ apart, portCleared, (clearPort_onlyParks ..).port,
    State.port_setPort_other _ _ _ apart]

theorem stopPort_stays {m : Nat} (zero : (s.bundle n m).entry = 0) : ((stopPort s n p cause).bundle n m).entry = 0 := by
  rw [stopPort_eq, lasersFollow_bundle, State.bundle_congr (State.setReg_lanterns ..), State.bundle_setPort]
  exact (clearPort_onlyParks ..).stays m (by rwa [State.bundle_setPort])

theorem stopPort_lantern_other {j : Nat} (apart : n ≠ j) : (stopPort s n p cause).lantern j = s.lantern j := by
  rw [stopPort_eq, lasersFollow_lantern_other _ _ apart, State.lantern_congr (State.setReg_lanterns ..),
    State.lantern_setPort_other _ _ _ apart, portCleared, (clearPort_onlyParks ..).other j apart,
    State.lantern_setPort_other _ _ _ apart]

end

/-! ### A lantern goes dark (R420, R424, R568) -/

section

variable (cause n : Nat) (s : State)

/-- Every bundle of a lantern is parked. -/
def allParked : State := s.each (List.range 32) (fun m s => parkBundle s n m)

/-- The ports of a lantern go OFF. -/
def portsOff : State :=
  s.each (List.range 16) (fun p s => if (s.port n p).phase = .off then s else stopPort s n p cause)

theorem darkenLantern_eq : darkenLantern cause n s = (portsOff cause n (allParked n s)).setLantern n
    { (portsOff cause n (allParked n s)).lantern n with lasers := false } := rfl

theorem allParked_bundle {m : Nat} (hm : m < 32) : ((allParked n s).bundle n m).entry = 0 := by
  obtain ⟨u, turn⟩ := State.each_last_turn (fun u => u.bundle n m) (f := fun k u => parkBundle u n k)
    (fun k _ apart u => parkBundle_bundle_other u n k apart) List.nodup_range (List.mem_range.2 hm) s
  exact (congrArg Bundle.entry turn).trans (parkBundle_bundle_self u n m)

theorem portsOff_port {p : Nat} (hp : p < 16) : ((portsOff cause n s).port n p).phase = .off := by
  obtain ⟨u, turn⟩ := State.each_last_turn (fun u => u.port n p)
    (f := fun k u => if (u.port n k).phase = .off then u else stopPort u n k cause)
    (fun k _ apart u => by
      split
      · rfl
      · exact stopPort_port_other u n k cause apart) List.nodup_range (List.mem_range.2 hp) s
  refine (congrArg Port.phase turn).trans ?_
  split
  · assumption
  · rw [stopPort_port]

theorem portsOff_stays {m : Nat} (zero : (s.bundle n m).entry = 0) :
    ((portsOff cause n s).bundle n m).entry = 0 := by
  refine List.foldlRecOn (motive := fun u : State => (u.bundle n m).entry = 0) _ _ zero fun u h k _ => ?_
  dsimp only
  split
  · exact h
  · exact stopPort_stays u n k cause h

theorem darkenLantern_port {p : Nat} (hp : p < 16) : ((darkenLantern cause n s).port n p).phase = .off := by
  rw [darkenLantern_eq, State.port_setLantern_self]
  dsimp only
  rw [← State.port]
  exact portsOff_port cause n (allParked n s) hp

theorem darkenLantern_bundle {m : Nat} (hm : m < 32) : ((darkenLantern cause n s).bundle n m).entry = 0 := by
  rw [darkenLantern_eq, State.bundle_setLantern_self]
  dsimp only
  rw [← State.bundle]
  exact portsOff_stays cause n _ (allParked_bundle n s hm)

theorem darkenLantern_lantern_other {j : Nat} (apart : n ≠ j) :
    (darkenLantern cause n s).lantern j = s.lantern j := by
  have parked : (allParked n s).lantern j = s.lantern j :=
    foldl_view (f := fun u m => parkBundle u n m) (fun u => u.lantern j)
      (fun m _ u => (parkBundle_onlyParks u n m).other j apart) s
  have off (u : State) : (portsOff cause n u).lantern j = u.lantern j := by
    refine foldl_view (f := fun u p => if (u.port n p).phase = .off then u else stopPort u n p cause)
      (fun u => u.lantern j) (fun p _ u => ?_) u
    split
    · rfl
    · exact stopPort_lantern_other u n p cause apart
  rw [darkenLantern_eq, State.lantern_setLantern_other _ _ apart, off, parked]

/-- Every lantern goes dark. -/
def lanternsDark : State := s.each (List.range 8) (fun n s => darkenLantern cause n s)

theorem lanternsDark_lantern {n : Nat} (hn : n < 8) :
    ∃ u, (lanternsDark cause s).lantern n = (darkenLantern cause n u).lantern n :=
  State.each_last_turn (fun u => u.lantern n) (fun k _ apart u => darkenLantern_lantern_other cause k u apart)
    List.nodup_range (List.mem_range.2 hn) s

theorem lanternsDark_only : Only 144149840968 s (lanternsDark cause s) :=
  Only.foldl (.refl _ s) fun _ _ only => darkenLantern_only only (.self _)

theorem lanternsDark_now : (lanternsDark cause s).now = s.now := (lanternsDark_only cause s).frame .now (by decide)

/-- All light of a lantern is out. -/
def LanternDark (u : State) (n : Nat) : Prop := (u.lantern n).lasers = false ∧
  (∀ k < 16, (u.port n k).phase = .off) ∧ ∀ m < 32, (u.bundle n m).entry = 0

theorem lanternsDark_dark {n : Nat} (hn : n < 8) : LanternDark (lanternsDark cause s) n := by
  obtain ⟨u, lantern⟩ := lanternsDark_lantern cause s hn
  refine ⟨?_, fun k hk => ?_, fun m hm => ?_⟩
  · rw [lantern, darkenLantern_lasers]
  · rw [State.port, lantern, ← State.port, darkenLantern_port cause n u hk]
  · rw [State.bundle, lantern, ← State.bundle, darkenLantern_bundle cause n u hm]

end

/-! ### Entry (R568, R570) -/

section

variable {s : State} (cause block0 block1 extra : Nat) (out : s.safe.active = false)
include out

theorem enterSafe_safe :
    (enterSafe s cause block0 block1 extra).safe = { active := true, entered := s.now, stage := 0 } := by
  unfold enterSafe
  rw [if_neg (by rw [out]; decide), post_safe]
  rfl

theorem enterSafe_signalled : Out.safeN true ∈ (enterSafe s cause block0 block1 extra).out := by
  unfold enterSafe
  rw [if_neg (by rw [out]; decide), post_out]
  exact List.mem_append_right _ (List.mem_singleton.2 rfl)

/-- The entry that the register shows. -/
theorem enterSafe_shown : (enterSafe s cause block0 block1 extra).field 0x10100 0 1 = 1 := by
  unfold enterSafe
  rw [if_neg (by rw [out]; decide)]
  dsimp only
  rw [State.field, post_reg, State.reg_congr (State.emit_regs ..), State.reg_withSafe, State.setReg64,
    State.reg_setReg_other _ _ (by decide), State.reg_setReg_other _ _ (by decide),
    State.reg_setReg_other _ _ (by decide), State.reg_setReg_self, BitVec.toNat_ofNat, bits_mod_word _ (by decide)]
  unfold bits
  rw [Nat.shiftRight_zero]
  omega

theorem enterSecurity_eq (code block : Nat) :
    enterSecurity s code block = enterSafe (zeroizeKeys s) 0x20 block 0 code := if_neg (by rw [out]; decide)

theorem exec_safeStateEntry {cause : Nat} {b0 b1 : BitVec 16} {x : BitVec 8} (powered : s.power.pwrgd = true)
    (known : cause ∈ safeCauses) : exec (.safeStateEntry cause b0 b1 x) s =
      if cause = 0x20 then .next (enterSecurity s x.toNat b0.toNat)
      else .next (enterSafe s cause b0.toNat b1.toNat x.toNat) :=
  if_neg (by rw [powered, out, List.contains_iff_mem.2 known]; decide)

end

section

variable (s : State)

theorem zeroizeKeys_safe : (zeroizeKeys s).safe = s.safe :=
  (zeroizeKeys_only (.refl _ s) (.self _)).frame .safe (by decide)

theorem zeroizeKeys_now : (zeroizeKeys s).now = s.now :=
  (zeroizeKeys_only (.refl _ s) (.self _)).frame .now (by decide)

theorem dropKeys_sec : (dropKeys s).sec = s.sec := (dropKeys_only (.refl _ s) (.self _)).frame .sec (by decide)

theorem zeroizeKeys_sec :
    (zeroizeKeys s).sec = { s.sec with jk := none, jkPending := none, jkStored := none } := dropKeys_sec _

theorem enterSafe_sec (cause block0 block1 extra : Nat) : (enterSafe s cause block0 block1 extra).sec = s.sec :=
  (enterSafe_only (.refl _ s) (.self _)).frame .sec (by decide)

end

theorem safeCauses_lt {cause : Nat} (known : cause ∈ safeCauses) : cause < 256 := by
  have all : ∀ c ∈ safeCauses, c < 256 := by decide
  exact all cause known

theorem safeStateEntry_enters {s : State} {cause : Nat} {b0 b1 : BitVec 16} {x : BitVec 8}
    (powered : s.power.pwrgd = true) (out : s.safe.active = false) (known : cause ∈ safeCauses) :
    ∃ u, exec (.safeStateEntry cause b0 b1 x) s = .next u ∧
      u.safe = { active := true, entered := s.now, stage := 0 } ∧ u.field 0x10100 8 8 = cause ∧
      u.field 0x10100 0 1 = 1 ∧ (cause = 0x20 → u.sec.jk = none) ∧ .safeN true ∈ u.out := by
  have run := exec_safeStateEntry out (b0 := b0) (b1 := b1) (x := x) powered known
  have small := safeCauses_lt known
  by_cases security : cause = 0x20
  · have out' : (zeroizeKeys s).safe.active = false := by rw [zeroizeKeys_safe]; exact out
    rw [if_pos security, enterSecurity_eq out] at run
    refine ⟨_, run, ?_, ?_, enterSafe_shown _ _ _ _ out', fun _ => ?_, enterSafe_signalled _ _ _ _ out'⟩
    · rw [enterSafe_safe _ _ _ _ out', zeroizeKeys_now]
    · rw [enterSafe_cause _ _ _ _ out', security]
    · rw [enterSafe_sec, zeroizeKeys_sec]
  · rw [if_neg security] at run
    refine ⟨_, run, enterSafe_safe _ _ _ _ out, ?_, enterSafe_shown _ _ _ _ out,
      fun same => absurd same security, enterSafe_signalled _ _ _ _ out⟩
    rw [enterSafe_cause _ _ _ _ out, Nat.mod_eq_of_lt small]

/-! ### Stages (R568) -/

section

variable {s : State}

theorem exec_safeStateStage (powered : s.power.pwrgd = true) (active : s.safe.active = true) :
    exec .safeStateStage s = match s.safe.stage with
      | 0 => .next { s.passTo (s.safe.entered + 10000) with safe := { s.safe with stage := 1 } }
      | 1 => .next { lanternsDark 5 (s.passTo (s.safe.entered + 500000)) with safe := { s.safe with stage := 2 } }
      | 2 => .next { idleGuests (idleCopper 5 (s.passTo (s.safe.entered + 1000000))) with
          safe := { s.safe with stage := 3 } }
      | _ => .next s := if_neg (by rw [powered, active]; decide)

theorem exec_safeStateStage_rests (rests : s.power.pwrgd = false ∨ s.safe.active = false ∨ 3 ≤ s.safe.stage) :
    exec .safeStateStage s = .next s := by
  by_cases acts : s.power.pwrgd = true ∧ s.safe.active = true
  · obtain ⟨powered, active⟩ := acts
    rw [exec_safeStateStage powered active]
    have late : 3 ≤ s.safe.stage := by simpa [powered, active] using rests
    split
    · omega
    · omega
    · omega
    · rfl
  · exact if_pos (by simpa [imp_iff_not_or] using acts)

section

variable (u : State) (x : Safe)

theorem State.now_withSafe : State.now { u with safe := x } = u.now := rfl

theorem lanternDark_withSafe {n : Nat} (dark : LanternDark u n) : LanternDark { u with safe := x } n := dark
theorem State.copperPort_withSafe (k : Nat) : State.copperPort { u with safe := x } k = u.copperPort k := rfl
theorem State.guest_withSafe (n : Nat) : State.guest { u with safe := x } n = u.guest n := rfl

end

theorem idleGuests_only_self (s : State) : Only 134217728 s (idleGuests s) := idleGuests_only (.refl _ s) (.self _)

theorem idleGuests_now (s : State) : (idleGuests s).now = s.now := (idleGuests_only_self s).frame .now (by decide)

theorem idleGuests_copperPort (s : State) (k : Nat) : (idleGuests s).copperPort k = s.copperPort k := by
  have copper : (idleGuests s).copper = s.copper := (idleGuests_only_self s).frame .copper (by decide)
  rw [State.copperPort, copper, State.copperPort]

theorem idleGuests_mainband (s : State) {n : Nat} (hn : n < 4) : ((idleGuests s).guest n).mainband = false := by
  obtain ⟨u, turn⟩ := State.each_last_turn (fun u => u.guest n)
    (f := fun k u => u.setGuest k { u.guest k with mainband := false })
    (fun k _ apart u => State.guest_setGuest_other _ _ apart) List.nodup_range (List.mem_range.2 hn) s
  exact (congrArg Guest.mainband turn).trans (congrArg Guest.mainband (State.guest_setGuest_self ..))

theorem idleCopper_now (cause : Nat) (s : State) : (idleCopper cause s).now = s.now :=
  (idleCopper_only (.refl _ s) (.self _)).frame .now (by decide)

/-- All light is out within 500 µs of entry. -/
theorem safeStateStage_darkens (powered : s.power.pwrgd = true) (active : s.safe.active = true)
    (one : s.safe.stage = 1) : ∃ u, exec .safeStateStage s = .next u ∧ u.safe = { s.safe with stage := 2 } ∧
      u.now = max s.now (s.safe.entered + 500000) ∧ ∀ n < 8, LanternDark u n := by
  have run := exec_safeStateStage powered active
  rw [one] at run
  refine ⟨_, run, rfl, ?_, fun n hn => ?_⟩
  · rw [State.now_withSafe, lanternsDark_now, State.passTo_now]
  · exact lanternDark_withSafe _ _ (lanternsDark_dark 5 _ hn)

/-- Copper and guests are idle within 1 ms of entry. -/
theorem safeStateStage_idles (powered : s.power.pwrgd = true) (active : s.safe.active = true)
    (two : s.safe.stage = 2) : ∃ u, exec .safeStateStage s = .next u ∧ u.safe = { s.safe with stage := 3 } ∧
      u.now = max s.now (s.safe.entered + 1000000) ∧ (∀ k < 13, (u.copperPort k).phase = .off) ∧
      ∀ n < 4, (u.guest n).mainband = false := by
  have run := exec_safeStateStage powered active
  rw [two] at run
  refine ⟨_, run, rfl, ?_, fun k hk => ?_, fun n hn => ?_⟩
  · rw [State.now_withSafe, idleGuests_now, idleCopper_now, State.passTo_now]
  · rw [State.copperPort_withSafe, idleGuests_copperPort, idleCopper_copperPort 5 _ hk]
  · rw [State.guest_withSafe, idleGuests_mainband _ hn]

end

/-! ### Restart (R571) -/

/-- The end of a restart: the dies sample their straps, SAFE_N is raised, and a panel without coolant sensors goes back. -/
def restarted (s : State) : State :=
  let s := (resampleAll (s.setField 0x10100 0 1 0)).emit (.safeN false)
  if coolantLost s then enterSafe s 0x11 else s

theorem restart_eq (s : State) : ∃ u : State, restart s = restarted u ∧ u.power.stage = 3 ∧ u.itin.folded = false ∧
    u.queues = [] ∧ u.tallies = [] ∧ u.mem = s.mem ∧ u.itin.store = s.itin.store ∧ u.lead = s.lead ∧
    u.safe.active = false ∧ coolantLost u = coolantLost s :=
  ⟨_, rfl, rfl, rfl, rfl, rfl, rfl, rfl, rfl, rfl, rfl⟩

section

variable (s : State)

/-- The dies have sampled their straps, and the register shows the normal state. -/
def resampled : State := (resampleAll (s.setField 0x10100 0 1 0)).emit (.safeN false)

theorem restarted_eq : restarted s = if coolantLost (resampled s) then enterSafe (resampled s) 0x11 else resampled s :=
  rfl

theorem resampled_only : Only 549890032744 s (resampled s) :=
  State.emit_only (resampleAll_only (State.setField_only (.refl _ s) (rfl : _ &&& _ = _)) (rfl : _ &&& _ = _))
    (rfl : _ &&& _ = _)

theorem restarted_only : Only 549890032744 s (restarted s) := by
  rw [restarted_eq]
  exact (enterSafe_only (resampled_only s) (rfl : _ &&& _ = _)).ite (resampled_only s)

theorem resampled_power : (resampled s).power = s.power := (resampled_only s).frame .power (by decide)
theorem restarted_power : (restarted s).power = s.power := (restarted_only s).frame .power (by decide)
theorem restarted_itin : (restarted s).itin = s.itin := (restarted_only s).frame .itin (by decide)
theorem restarted_queues : (restarted s).queues = s.queues := (restarted_only s).frame .queues (by decide)
theorem restarted_tallies : (restarted s).tallies = s.tallies := (restarted_only s).frame .tallies (by decide)
theorem restarted_mem : (restarted s).mem = s.mem := (restarted_only s).frame .mem (by decide)
theorem restarted_lead : (restarted s).lead = s.lead := (restarted_only s).frame .lead (by decide)

theorem resampleAll_safe : (resampleAll s).safe = s.safe :=
  (resampleAll_only (.refl _ s) (.self _)).frame .safe (by decide)

theorem restarted_active (calm : s.safe.active = false) (cooled : coolantLost s = false) :
    (restarted s).safe.active = false := by
  have safe : (resampled s).safe = s.safe := resampleAll_safe _
  have sensors : coolantLost (resampled s) = false := by
    rw [coolantLost, resampled_power]
    exact cooled
  rw [restarted_eq, sensors, if_neg Bool.false_ne_true, safe, calm]

end

/-! ### ENTER and RESTART (R571, R574) -/

section

variable {s : State} {p : Path} (gate : ownerGate s p 0x10110 = true)
include gate

theorem exec_enter : exec (.enter p) s = .next (answer (safeCtrl s 1) .ok) := congrArg _ (ownerWrite_gate gate ..)

theorem exec_restart : exec (.restart p) s = .next (answer (safeCtrl s 2) .ok) := congrArg _ (ownerWrite_gate gate ..)

end

theorem safeCtrl_enter (s : State) : safeCtrl s 1 = enterSafe s 9 := rfl

theorem safeCtrl_restart (s : State) :
    safeCtrl s 2 = if s.safe.active && decide (s.power.shutdown = 0) then restart s else s := by
  have zero : (2 : Word).getLsbD 0 = false := by decide
  have one : (2 : Word).getLsbD 1 = true := by decide
  unfold safeCtrl
  dsimp only
  rw [zero, one, Bool.true_and, if_neg Bool.false_ne_true]

theorem enterSafe_again {s : State} (active : s.safe.active = true) (cause block0 block1 extra : Nat) :
    enterSafe s cause block0 block1 extra = s := if_pos active

/-- Settles O46: the entry by its cause, each stage at its instant, and the restart. -/
theorem safeStateSequence : Obligations.SafeStateSequence := by
  unfold Obligations.SafeStateSequence
  refine ⟨?entry, ?no, ?enter, ?again, ?still, ?rests, ?stages, ?restart⟩
  case entry =>
    exact fun s cause b0 b1 x powered out known => safeStateEntry_enters powered out known
  case no =>
    rintro s cause b0 b1 x (off | active | other)
    · exact if_pos (by rw [off]; rfl)
    · exact if_pos (by rw [active]; simp)
    · have unknown : safeCauses.contains cause = false := by
        rw [Bool.eq_false_iff]
        exact fun known => other (List.contains_iff_mem.1 known)
      exact if_pos (by rw [unknown]; simp)
  case enter =>
    intro s p gate out
    rw [exec_enter gate, safeCtrl_enter]
  case again =>
    intro s p gate active
    rw [exec_enter gate, safeCtrl_enter, enterSafe_again active]
  case still =>
    intro s p gate no
    rw [exec_restart gate, safeCtrl_restart, if_neg]
    rcases no with out | shutdown
    · simp [out]
    · simp [shutdown]
  case rests =>
    exact fun s rests => exec_safeStateStage_rests rests
  case stages =>
    intro s powered active early
    rcases (show s.safe.stage = 0 ∨ s.safe.stage = 1 ∨ s.safe.stage = 2 by omega) with zero | one | two
    · have run := exec_safeStateStage powered active
      rw [zero] at run ⊢
      exact ⟨_, run, rfl, rfl, nofun, nofun, nofun⟩
    · obtain ⟨u, run, safe, now, dark⟩ := safeStateStage_darkens powered active one
      rw [one]
      exact ⟨u, run, safe, now, fun _ => dark, nofun, nofun⟩
    · obtain ⟨u, run, safe, now, copper, guests⟩ := safeStateStage_idles powered active two
      rw [two]
      exact ⟨u, run, safe, now, nofun, fun _ => copper, fun _ => guests⟩
  case restart =>
    intro s p gate active steady
    obtain ⟨u, restarts, stage, folded, queues, tallies, mem, store, lead, calm, coolant⟩ := restart_eq s
    have run := exec_restart gate
    rw [safeCtrl_restart, if_pos (by rw [active, steady]; rfl), restarts] at run
    refine ⟨_, run, rfl, ?_⟩
    rw [answer_power, answer_itin, answer_queues, answer_tallies, answer_mem, answer_lead, answer_safe, restarted_power,
      restarted_itin, restarted_queues, restarted_tallies, restarted_mem, restarted_lead]
    exact ⟨stage, folded, queues, tallies, mem, store, lead,
      fun cooled => restarted_active u calm (coolant.trans cooled)⟩

end Sys2Proof.Machine

/-! Proofs of the obligations of spec/16_security.md: the security modules, their images, handover and streams. -/

namespace Sys2Proof.Machine

open Sys2Proof

/-! ### A security fault (R602, R604) -/

section

variable (s : State) (code block detail : Nat)

theorem secFault_only_self : Only 1096 s (secFault s code block detail) := secFault_only (.refl _ s) (.self _)

@[simp] theorem secFault_sec : (secFault s code block detail).sec = s.sec :=
  (secFault_only_self ..).frame .sec (by decide)
@[simp] theorem secFault_safe : (secFault s code block detail).safe = s.safe :=
  (secFault_only_self ..).frame .safe (by decide)
@[simp] theorem secFault_now : (secFault s code block detail).now = s.now :=
  (secFault_only_self ..).frame .now (by decide)
@[simp] theorem secFault_fns : (secFault s code block detail).fns = s.fns :=
  (secFault_only_self ..).frame .fns (by decide)
@[simp] theorem secFault_lanterns : (secFault s code block detail).lanterns = s.lanterns :=
  (secFault_only_self ..).frame .lanterns (by decide)

theorem secFault_count : (secFault s code block detail).reg (secA 0x14) = satAdd (s.reg (secA 0x14)) 1 := by
  unfold secFault
  dsimp only
  rw [post_reg, State.reg_count32_self, State.reg_setReg_other _ _ (by decide)]

theorem secFault_code : (secFault s code block detail).field (secA 0x10) 0 8 = code % 256 := by
  unfold secFault
  dsimp only
  rw [State.field, post_reg, State.reg_count32_other _ _ (by decide), State.reg_setReg_self, BitVec.toNat_ofNat,
    bits_mod_word _ (by decide)]
  unfold bits
  rw [Nat.shiftRight_zero]
  omega

theorem secFault_reg_other {a : Nat} (a0 : secA 0x10 ≠ a) (a1 : secA 0x14 ≠ a) :
    (secFault s code block detail).reg a = s.reg a := by
  unfold secFault
  dsimp only
  rw [post_reg, State.reg_count32_other _ _ a1, State.reg_setReg_other _ _ a0]

end

/-! ### A module fails (R601) -/

theorem enterSafe_reg_other {s : State} {a : Nat} (apart : a < 0x10100 ∨ 0x10110 ≤ a) (cause block0 block1 extra : Nat) :
    (enterSafe s cause block0 block1 extra).reg a = s.reg a := by
  unfold enterSafe
  split
  · rfl
  · dsimp only
    rw [post_reg, State.reg_congr (State.emit_regs ..), State.reg_withSafe, State.setReg64,
      State.reg_setReg_other _ _ (by omega), State.reg_setReg_other _ _ (by omega),
      State.reg_setReg_other _ _ (by omega), State.reg_setReg_other _ _ (by omega)]

section

variable (s : State)

theorem dropKeys_regs : (dropKeys s).regs = s.regs := (dropKeys_only (.refl _ s) (.self _)).frame .regs (by decide)

theorem zeroizeKeys_regs : (zeroizeKeys s).regs = s.regs := dropKeys_regs _

variable (code block : Nat)

theorem enterSecurity_reg_other {a : Nat} (apart : a < 0x10100 ∨ 0x10110 ≤ a) :
    (enterSecurity s code block).reg a = s.reg a := by
  unfold enterSecurity
  split
  · rfl
  · rw [enterSafe_reg_other apart, State.reg_congr (zeroizeKeys_regs s)]

theorem enterSecurity_active : (enterSecurity s code block).safe.active = true := by
  unfold enterSecurity
  split
  · assumption
  · exact enterSafe_active ..

/-- Only the job keys go. -/
theorem enterSecurity_sec : ∃ jk jkPending jkStored,
    (enterSecurity s code block).sec = { s.sec with jk, jkPending, jkStored } := by
  unfold enterSecurity
  split
  · exact ⟨_, _, _, rfl⟩
  · exact ⟨_, _, _, (enterSafe_sec ..).trans (zeroizeKeys_sec s)⟩

theorem enterSecurity_jk (out : s.safe.active = false) : (enterSecurity s code block).sec.jk = none := by
  rw [enterSecurity_eq out, enterSafe_sec, zeroizeKeys_sec]

end

section

variable (s : State) (h code : Nat)

/-- The panel enters the safe state for a fault of a module. -/
def securityLost : State :=
  enterSecurity { s with sec := { s.sec with active := 2, handover := none } } code (srcSecurity h)

theorem securityLost_active : (securityLost s h code).safe.active = true := enterSecurity_active ..

theorem securityLost_sec : ∃ jk jkPending jkStored, (securityLost s h code).sec =
    { s.sec with active := 2, handover := none, jk, jkPending, jkStored } := enterSecurity_sec ..

theorem securityLost_jk (out : s.safe.active = false) : (securityLost s h code).sec.jk = none :=
  enterSecurity_jk _ _ _ out

theorem securityLost_reg {a : Nat} (apart : a < 0x10100 ∨ 0x10110 ≤ a) : (securityLost s h code).reg a = s.reg a :=
  (enterSecurity_reg_other _ _ _ apart).trans rfl

theorem moduleFails_eq : moduleFails s h code =
    if s.sec.active = h || (h = 1 && s.sec.handover.isSome) then
      if h = 0 && moduleHealthy s 1 then
        (if s.sec.handover.isSome then s else { s with sec := { s.sec with handover := some (code, s.now) } })
      else securityLost s h code
    else s := rfl

theorem moduleFails_reg {a : Nat} (apart : a < 0x10100 ∨ 0x10110 ≤ a) : (moduleFails s h code).reg a = s.reg a := by
  rw [moduleFails_eq]
  split
  · split
    · split <;> rfl
    · exact securityLost_reg s h code apart
  · rfl

theorem moduleFails_modules : (moduleFails s h code).sec.modules = s.sec.modules := by
  rw [moduleFails_eq]
  split
  · split
    · split <;> rfl
    · obtain ⟨jk, jkPending, jkStored, sec⟩ := securityLost_sec s h code
      rw [sec]
  · rfl

theorem secModule_moduleFails (k : Nat) : secModule (moduleFails s h code) k = secModule s k := by
  rw [secModule, moduleFails_modules, secModule]

theorem secModule_secFault (c block detail k : Nat) : secModule (secFault s c block detail) k = secModule s k := by
  rw [secModule, secFault_sec, secModule]

theorem secModule_setSecModule_self (x : SecModule) : secModule (setSecModule s h x) h = x := mget_mset_self ..

theorem secModule_setSecModule_other {k : Nat} (x : SecModule) (apart : h ≠ k) :
    secModule (setSecModule s h x) k = secModule s k := mget_mset_other _ _ _ apart

theorem moduleHealthy_congr {s u : State} (same : secModule u 1 = secModule s 1) :
    moduleHealthy u 1 = moduleHealthy s 1 := by
  unfold moduleHealthy
  rw [same]

/-- A failing module that neither is active nor takes over. -/
theorem moduleFails_idle (other : s.sec.active ≠ h) (settled : h = 1 → s.sec.handover = none) :
    moduleFails s h code = s := by
  rw [moduleFails_eq, if_neg]
  simp only [Bool.or_eq_true, decide_eq_true_eq, Bool.and_eq_true, not_or, not_and]
  exact ⟨other, fun one => by rw [settled one]; decide⟩

theorem moduleFails_lost (acts : s.sec.active = h ∨ h = 1 ∧ s.sec.handover.isSome = true)
    (alone : h = 0 → moduleHealthy s 1 = false) : moduleFails s h code = securityLost s h code := by
  rw [moduleFails_eq, if_pos (by simpa using acts), if_neg]
  simp only [Bool.and_eq_true, decide_eq_true_eq, not_and]
  exact fun zero => by rw [alone zero]; decide

theorem moduleFails_handover (active : s.sec.active = 0) (healthy : moduleHealthy s 1 = true)
    (settled : s.sec.handover = none) :
    moduleFails s 0 code = { s with sec := { s.sec with handover := some (code, s.now) } } := by
  rw [moduleFails_eq, if_pos (by simp [active]), if_pos (by simp [healthy]), if_neg (by simp [settled])]

end

/-! ### Tests of a module (R580, R601) -/

section

variable (s : State) (h code : Nat)

/-- A module's test has failed, and the fault is posted. -/
def testFault : State :=
  secFault (setSecModule s h { secModule s h with tested := some false }) code (srcSecurity h) 0

/-- What a failed test does. -/
def testFailed : State := moduleFails (testFault s h code) h code

theorem testFault_sec : (testFault s h code).sec =
    { s.sec with modules := mset {} s.sec.modules h { secModule s h with tested := some false } } := secFault_sec ..

theorem testFault_safe : (testFault s h code).safe = s.safe := secFault_safe ..

theorem testFault_now : (testFault s h code).now = s.now := secFault_now ..

theorem testFault_healthy (other : h ≠ 1) : moduleHealthy (testFault s h code) 1 = moduleHealthy s 1 :=
  moduleHealthy_congr ((secModule_secFault ..).trans (secModule_setSecModule_other s h _ other))

theorem testFailed_tested : (secModule (testFailed s h code) h).tested = some false := by
  rw [testFailed, secModule_moduleFails, testFault, secModule_secFault, secModule_setSecModule_self]

theorem testFailed_count : (testFailed s h code).reg (secA 0x14) = satAdd (s.reg (secA 0x14)) 1 := by
  rw [testFailed, moduleFails_reg _ _ _ (.inr (by decide)), testFault, secFault_count]
  rfl

theorem testFailed_idle (other : s.sec.active ≠ h) (settled : h = 1 → s.sec.handover = none) :
    testFailed s h code = testFault s h code :=
  moduleFails_idle _ _ _ (by rw [testFault_sec]; exact other) (by rw [testFault_sec]; exact settled)

theorem testFailed_lost (acts : s.sec.active = h ∨ h = 1 ∧ s.sec.handover.isSome = true)
    (alone : h = 0 → moduleHealthy s 1 = false) :
    testFailed s h code = securityLost (testFault s h code) h code := by
  refine moduleFails_lost _ _ _ (by rw [testFault_sec]; exact acts) fun zero => ?_
  rw [testFault_healthy _ _ _ (by omega), alone zero]

theorem testFailed_handover (active : s.sec.active = 0) (healthy : moduleHealthy s 1 = true)
    (settled : s.sec.handover = none) :
    (testFailed s 0 code).sec.handover = some (code, s.now) ∧ (testFailed s 0 code).safe = s.safe := by
  rw [testFailed, moduleFails_handover, testFault_now]
  · exact ⟨rfl, testFault_safe ..⟩
  · rw [testFault_sec]; exact active
  · rw [testFault_healthy _ _ _ (by decide), healthy]
  · rw [testFault_sec]; exact settled

/-- The safe state that a failed test enters. -/
theorem testFailed_lost_parts (lost : testFailed s h code = securityLost (testFault s h code) h code) :
    (testFailed s h code).safe.active = true ∧ (testFailed s h code).sec.active = 2 ∧
    (testFailed s h code).sec.handover = none ∧ (s.safe.active = false → (testFailed s h code).sec.jk = none) := by
  rw [lost]
  obtain ⟨jk, jkPending, jkStored, sec⟩ := securityLost_sec (testFault s h code) h code
  refine ⟨securityLost_active .., by rw [sec], by rw [sec], fun out => securityLost_jk _ _ _ ?_⟩
  rw [testFault_safe]
  exact out

end

section

variable {s : State} (powered : s.power.pwrgd = true)
include powered

theorem exec_securitySelftest_good (h : Fin 2) : exec (.securitySelftest h true) s =
    .next (setSecModule s h.val { secModule s h.val with tested := some true }) := if_neg (by rw [powered]; decide)

theorem exec_securitySelftest_bad (h : Fin 2) :
    exec (.securitySelftest h false) s = .next (testFailed s h.val 1) := if_neg (by rw [powered]; decide)

theorem exec_entropyHealthFail (h : Fin 2) : exec (.entropyHealthFail h) s = .next (testFailed s h.val 2) :=
  if_neg (by rw [powered]; decide)

/-- The two ways in which a module fails by itself. -/
theorem exec_testFailed {h : Fin 2} {c : Instr} (fails : c ∈ [Instr.securitySelftest h false, .entropyHealthFail h]) :
    ∃ code, exec c s = .next (testFailed s h.val code) := by
  rcases List.mem_cons.1 fails with rfl | fails
  · exact ⟨1, exec_securitySelftest_bad powered h⟩
  · obtain rfl := List.mem_singleton.1 fails
    exact ⟨2, exec_entropyHealthFail powered h⟩

end

/-! ### Images (R585, R586, R601) -/

section

variable (s : State) (h : Nat) (x : SecModule) (boot signed : Bool) (svn : Nat)

theorem bridgeVerified_bad : bridgeVerified s h x boot false signed svn =
    moduleFails (secFault (setSecModule s h x) (bootFault signed) (srcSecurity h) svn) h (bootFault signed) := rfl

theorem secModule_bridgeVerified (good : Bool) : secModule (bridgeVerified s h x boot good signed svn) h = x := by
  cases good with
  | true => cases boot <;> exact secModule_setSecModule_self ..
  | false => rw [bridgeVerified_bad, secModule_moduleFails, secModule_secFault, secModule_setSecModule_self]

theorem bridgeVerified_good_safe : (bridgeVerified s h x boot true signed svn).safe = s.safe := by
  cases boot <;> rfl

theorem bridgeVerified_ready : (bridgeVerified s h x true true signed svn).field (hostA h 0) 9 1 = 1 :=
  State.field_setField_self _ _ (by decide) (by decide)

theorem bridgeVerified_count :
    (bridgeVerified s h x boot false signed svn).reg (secA 0x14) = satAdd (s.reg (secA 0x14)) 1 := by
  rw [bridgeVerified_bad, moduleFails_reg _ _ _ (.inr (by decide)), secFault_count]
  rfl

theorem bridgeVerified_code :
    (bridgeVerified s h x boot false signed svn).field (secA 0x10) 0 8 = if signed then 4 else 3 := by
  rw [State.field, bridgeVerified_bad, moduleFails_reg _ _ _ (.inr (by decide)), ← State.field, secFault_code]
  cases signed <;> rfl

theorem bridgeVerified_port {k : Nat} (hk : k < 2) (lo n : Nat) :
    (bridgeVerified s h x boot false signed svn).field (hostA k 0) lo n = s.field (hostA k 0) lo n := by
  have apart (o : Nat) (ho : o < 0x1000) : secA o ≠ hostA k 0 := by
    unfold secA hostA hbgA
    omega
  rw [State.field, bridgeVerified_bad, moduleFails_reg, secFault_reg_other _ _ _ _ (apart _ (by decide)) (apart _ (by decide))]
  · rfl
  · unfold hostA hbgA
    omega

end

section

variable {s : State} (powered : s.power.pwrgd = true) {h : Fin 2} {signed : Bool} {svn : Nat}
include powered

theorem exec_bootVerify_securityModule (fresh : (secModule s h.val).smOk = none) :
    exec (.bootVerify (.securityModule h) signed svn) s =
      let good := signed && decide (s.sec.minSm ≤ svn)
      .next (bridgeVerified s h.val { secModule s h.val with smOk := some good, svnSm := svn } false good signed svn) :=
  (if_neg (by rw [powered]; decide)).trans (if_neg (by rw [fresh]; decide))

theorem exec_bootVerify_bootFirmware (fresh : (secModule s h.val).hbOk = none) :
    exec (.bootVerify (.bootFirmware h) signed svn) s =
      let good := signed && decide (s.sec.minHb ≤ svn)
      .next (bridgeVerified s h.val { secModule s h.val with hbOk := some good, svnHb := svn } true good signed svn) :=
  (if_neg (by rw [powered]; decide)).trans (if_neg (by rw [fresh]; decide))

theorem exec_bootVerify_securityModule_known (known : (secModule s h.val).smOk.isSome = true) :
    exec (.bootVerify (.securityModule h) signed svn) s = .next s :=
  (if_neg (by rw [powered]; decide)).trans (if_pos known)

theorem exec_bootVerify_bootFirmware_known (known : (secModule s h.val).hbOk.isSome = true) :
    exec (.bootVerify (.bootFirmware h) signed svn) s = .next s :=
  (if_neg (by rw [powered]; decide)).trans (if_pos known)

end

theorem imageBad {signed : Bool} {min svn : Nat} (bad : signed = false ∨ svn < min) :
    (signed && decide (min ≤ svn)) = false := by
  rcases bad with rfl | low
  · rfl
  · simp [Nat.not_le.2 low]

section

variable {s : State}

/-- A port loses its keys. -/
def dropPort (n p : Nat) (s : State) : State := s.setPort n p { s.port n p with keying := {} }

/-- The ports of a lantern lose their keys. -/
def dropPorts (n : Nat) (s : State) : State := s.each (List.range 16) (dropPort n)

theorem dropKeys_eq (s : State) : dropKeys s = (s.each (List.range 8) dropPorts).each (List.range 13)
    (fun k s => s.setCopper k { s.copperPort k with keying := {} }) := rfl

theorem dropPort_table (s : State) (n k p : Nat) : ((dropPort k p s).lantern n).table = (s.lantern n).table := by
  by_cases own : k = n
  · rw [own, dropPort, State.setPort, State.lantern_setLantern_self]
  · rw [dropPort, State.lantern_setPort_other _ _ _ own]

theorem dropPorts_table (s : State) (n k : Nat) : ((dropPorts k s).lantern n).table = (s.lantern n).table :=
  foldl_view (f := fun u p => dropPort k p u) (fun u => (u.lantern n).table) (fun p _ u => dropPort_table u n k p) s

/-- A table of a lantern outlasts the keys. -/
theorem dropKeys_table (s : State) (n : Nat) : ((dropKeys s).lantern n).table = (s.lantern n).table := by
  rw [dropKeys_eq]
  refine (foldl_view (f := fun u k => u.setCopper k { u.copperPort k with keying := {} })
    (fun u : State => (u.lantern n).table) (fun _ _ _ => rfl) _).trans ?_
  exact foldl_view (f := fun u k => dropPorts k u) (fun u => (u.lantern n).table)
    (fun k _ u => dropPorts_table u n k) s

theorem enterSecurity_table (code block n : Nat) :
    ((enterSecurity s code block).lantern n).table = (s.lantern n).table := by
  have lanterns (u : State) (cause block0 block1 extra : Nat) :
      (enterSafe u cause block0 block1 extra).lanterns = u.lanterns :=
    (enterSafe_only (.refl _ u) (.self _)).frame .lanterns (by decide)
  unfold enterSecurity
  split
  · rfl
  · rw [State.lantern_congr (lanterns ..), zeroizeKeys, dropKeys_table]
    rfl

/-- The safe state for bad guide-core firmware or a bad tuning table. -/
def tablesRefused (s : State) (block svn : Nat) : State := enterSecurity (secFault s 0x05 block svn) 0x05 block

theorem tablesRefused_parts (out : s.safe.active = false) (block svn : Nat) :
    (tablesRefused s block svn).safe.active = true ∧ (tablesRefused s block svn).sec.jk = none ∧
    (tablesRefused s block svn).sec.guideOk = s.sec.guideOk ∧
    ∀ n, ((tablesRefused s block svn).lantern n).table = (s.lantern n).table := by
  obtain ⟨jk, jkPending, jkStored, sec⟩ := enterSecurity_sec (secFault s 0x05 block svn) 0x05 block
  refine ⟨enterSecurity_active .., enterSecurity_jk _ _ _ (by rw [secFault_safe]; exact out), ?_, fun n => ?_⟩
  · rw [tablesRefused, sec, secFault_sec]
  · rw [tablesRefused, enterSecurity_table, State.lantern_congr (secFault_lanterns ..)]

theorem exec_bootVerify_guideCores_rests {signed : Bool} {svn : Nat}
    (rests : panelRuns s = false ∨ s.power.stage ≠ 6 ∨ s.sec.guideOk = true) :
    exec (.bootVerify .guideCores signed svn) s = .next s := by
  by_cases powered : s.power.pwrgd = true
  · refine (if_neg (by rw [powered]; decide)).trans (if_pos ?_)
    rcases rests with rests | rests | rests <;> simp [rests]
  · exact if_pos (by simpa using powered)

theorem exec_bootVerify_tuningTable_rests {n : Fin 8} {signed : Bool} {svn : Nat}
    (rests : panelRuns s = false ∨ s.power.stage ≠ 6 ∨ (s.lantern n.val).table = true) :
    exec (.bootVerify (.tuningTable n) signed svn) s = .next s := by
  by_cases powered : s.power.pwrgd = true
  · refine (if_neg (by rw [powered]; decide)).trans (if_pos ?_)
    rcases rests with rests | rests | rests <;> simp [rests]
  · exact if_pos (by simpa using powered)

variable (runs : panelRuns s = true) (six : s.power.stage = 6)
include runs six

theorem exec_bootVerify_guideCores {signed : Bool} {svn : Nat} (waits : s.sec.guideOk = false) :
    exec (.bootVerify .guideCores signed svn) s =
      if signed && decide (s.sec.minGc ≤ svn) then
        .next { s with sec := { s.sec with guideOk := true, svnGc := svn } }
      else .next (tablesRefused s (srcTile 0 0x0A) svn) :=
  (if_neg (by rw [pwrgd_of_panelRuns runs]; decide)).trans (if_neg (by rw [runs, six, waits]; decide))

theorem exec_bootVerify_tuningTable {n : Fin 8} {signed : Bool} {svn : Nat} (waits : (s.lantern n.val).table = false) :
    exec (.bootVerify (.tuningTable n) signed svn) s =
      if signed then .next (s.setLantern n.val { s.lantern n.val with table := true })
      else .next (tablesRefused s (srcLantern n.val 0x14) svn) :=
  (if_neg (by rw [pwrgd_of_panelRuns runs]; decide)).trans (if_neg (by rw [runs, six, waits]; decide))

end

/-! ### Streams and handover (R595, R602) -/

theorem Fn.id_inj {f g : Fn} (same : f.id = g.id) : f = g := by
  obtain ⟨⟨port, hp⟩, ⟨vf, hv⟩⟩ := f
  obtain ⟨⟨port', hp'⟩, ⟨vf', hv'⟩⟩ := g
  simp only [Fn.id] at same
  obtain rfl : port = port' := by omega
  obtain rfl : vf = vf' := by omega
  rfl

theorem State.fn_congr {s u : State} (same : u.fns = s.fns) (f : Fn) : u.fn f = s.fn f := by
  unfold State.fn
  rw [same]

theorem State.fn_setFn_other (s : State) {f g : Fn} (x : FnState) (apart : f ≠ g) : (s.setFn f x).fn g = s.fn g :=
  mget_mset_other _ _ _ fun same => apart (Fn.id_inj same)

theorem mem_portFns (f : Fn) : f ∈ portFns 0 ++ portFns 1 := by
  have all : ∀ p : Fin 2, ∀ v : Fin 17, ({ port := p, vf := v } : Fn) ∈ portFns 0 ++ portFns 1 := by decide
  exact all f.port f.vf

section

variable (s : State) (f : Fn)

theorem ideLost_open (off : (s.fn f).ide = false) : ideLost s f = s := if_neg (by rw [off]; decide)

theorem ideLost_secure (secure : (s.fn f).ide = true) : ∃ block, ideLost s f =
    secFault ({ s with sec := { s.sec with ports := mset false s.sec.ports f.id false } }.setFn f
      { s.fn f with ide := false }) 0x07 block 0 := ⟨_, if_pos secure⟩

theorem ideLost_ide : ((ideLost s f).fn f).ide = false := by
  cases secure : (s.fn f).ide with
  | false => rw [ideLost_open s f secure, secure]
  | true =>
    obtain ⟨block, lost⟩ := ideLost_secure s f secure
    rw [lost, State.fn_congr (secFault_fns ..), State.fn_setFn_self]

theorem ideLost_ide_other {g : Fn} (apart : f ≠ g) : (ideLost s f).fn g = s.fn g := by
  cases secure : (s.fn f).ide with
  | false => rw [ideLost_open s f secure]
  | true =>
    obtain ⟨block, lost⟩ := ideLost_secure s f secure
    rw [lost, State.fn_congr (secFault_fns ..), State.fn_setFn_other _ _ apart]
    rfl

theorem ideLost_sec : ∃ ports, (ideLost s f).sec = { s.sec with ports } ∧
    ((s.fn f).ide = true → mget false ports f.id = false) := by
  cases secure : (s.fn f).ide with
  | false => exact ⟨_, by rw [ideLost_open s f secure], nofun⟩
  | true =>
    obtain ⟨block, lost⟩ := ideLost_secure s f secure
    exact ⟨_, by rw [lost, secFault_sec]; rfl, fun _ => mget_mset_self ..⟩

/-- No stream of the functions is Secure, and nothing else of the module changes. -/
theorem ideLost_fold {fs : List Fn} : (∀ g ∈ fs, ((fs.foldl ideLost s).fn g).ide = false) ∧
    ∃ ports, (fs.foldl ideLost s).sec = { s.sec with ports } := by
  have stays (g : Fn) (gs : List Fn) (u : State) (off : (u.fn g).ide = false) :
      ((gs.foldl ideLost u).fn g).ide = false := by
    refine List.foldlRecOn (motive := fun v : State => (v.fn g).ide = false) gs ideLost off fun v open_ k _ => ?_
    by_cases own : k = g
    · rw [own, ideLost_ide]
    · rw [ideLost_ide_other _ _ own, open_]
  induction fs generalizing s with
  | nil => exact ⟨nofun, _, rfl⟩
  | cons f fs ih =>
    obtain ⟨off, ports, sec⟩ := ih (ideLost s f)
    obtain ⟨ports', sec', -⟩ := ideLost_sec s f
    refine ⟨fun g mem => ?_, ports, by rw [List.foldl_cons, sec, sec']⟩
    rcases List.mem_cons.1 mem with rfl | tail
    · exact stays g fs _ (ideLost_ide s g)
    · exact off g tail

end

/-! ### Interrupts that go on (R522, R595) -/

section

variable (s : State)

theorem sendInterrupt_ide (r : Nat) (f : Fn) : ((sendInterrupt s r).fn f).ide = (s.fn f).ide := by
  unfold sendInterrupt
  dsimp only
  split
  · split
    · by_cases own : ringFn s r = f
      · rw [own, State.fn_setFn_self]
      · rw [State.fn_setFn_other _ _ own]
        rfl
    · rfl
  · rfl

theorem releaseAll_ide (f : Fn) : ((releaseAll s).fn f).ide = (s.fn f).ide := by
  refine foldl_view (f := fun u r => releaseHeld u r) (fun u : State => (u.fn f).ide) (fun r _ u => ?_) s
  unfold releaseHeld
  dsimp only
  split
  · exact sendInterrupt_ide u r f
  · rfl

theorem releaseAll_sec : (releaseAll s).sec = s.sec := (releaseAll_only (.refl _ s) (.self _)).frame .sec (by decide)

end

section

variable {s : State} (powered : s.power.pwrgd = true)
include powered

/-- HB1's module takes over. -/
def handedOver (s : State) : State :=
  (portFns 0 ++ portFns 1).foldl ideLost { s with sec := { s.sec with active := 1, handover := none, sessions := [] } }

theorem exec_securityHandover {code t : Nat} (handover : s.sec.handover = some (code, t)) (up : s.mgmt.up = true) :
    exec .securityHandover s = .next (post (handedOver s) 0x81 (srcSecurity 1) (1 + 2 ^ 8 * code)) := by
  have run : exec .securityHandover s = execSecurityHandover s := rfl
  rw [run, execSecurityHandover, handover]
  exact if_neg (by rw [powered, up]; decide)

theorem exec_ideStateChange_secure {f : Fn} (keyed : mget false s.sec.ports f.id = true) :
    exec (.ideStateChange f true) s = .next (releaseAll (s.setFn f { s.fn f with ide := true })) :=
  (if_neg (by rw [powered]; decide)).trans ((if_neg (by decide)).trans (if_pos keyed))

theorem exec_ideStateChange_unkeyed {f : Fn} (unkeyed : mget false s.sec.ports f.id = false) :
    exec (.ideStateChange f true) s = .next s :=
  (if_neg (by rw [powered]; decide)).trans ((if_neg (by decide)).trans (if_neg (by rw [unkeyed]; decide)))

theorem exec_ideStateChange_open {f : Fn} : exec (.ideStateChange f false) s = .next (ideLost s f) :=
  (if_neg (by rw [powered]; decide)).trans (if_pos rfl)

end

theorem exec_securityHandover_rests {s : State} (rests : s.sec.handover = none ∨ s.mgmt.up = false) :
    exec .securityHandover s = .next s := by
  have run : exec .securityHandover s = execSecurityHandover s := rfl
  rw [run, execSecurityHandover]
  split
  · rfl
  · next some =>
    rcases rests with none | down
    · rw [none] at some
      cases some
    · exact if_pos (by rw [down]; simp)

/-- Without power nothing happens to a module or a stream. -/
theorem security_unpowered {s : State} {c : Instr} (off : s.power.pwrgd = false)
    (named : c ∈ [Instr.securityHandover, .securitySelftest 0 false, .securitySelftest 0 true,
      .securitySelftest 1 false, .securitySelftest 1 true, .entropyHealthFail 0, .entropyHealthFail 1] ∨
      (∃ i g n, c = .bootVerify i g n) ∨ ∃ f b, c = .ideStateChange f b) : exec c s = .next s := by
  have dead : (!s.power.pwrgd) = true := by rw [off]; rfl
  rcases named with mem | ⟨i, g, n, rfl⟩ | ⟨f, b, rfl⟩
  · simp only [List.mem_cons, List.not_mem_nil, or_false] at mem
    rcases mem with rfl | rfl | rfl | rfl | rfl | rfl | rfl
    · have run : exec .securityHandover s = execSecurityHandover s := rfl
      rw [run, execSecurityHandover]
      split
      · rfl
      · exact if_pos (by rw [off]; rfl)
    all_goals exact if_pos dead
  · exact if_pos dead
  · exact if_pos dead

/-- Settles O48: the tests, images and streams by what a module's failure brings. -/
theorem securityModules : Obligations.SecurityModules := by
  unfold Obligations.SecurityModules
  refine ⟨?tested, ?active, ?standby, ?second, ?off, ?images, ?badImages, ?tables, ?goodTables, ?handover, ?waits, ?ide⟩
  case tested =>
    exact fun s h powered => exec_securitySelftest_good powered h
  case active =>
    intro s c code pair powered active
    have run : exec c s = .next (testFailed s 0 code) := by
      rcases List.mem_cons.1 pair with same | pair
      · obtain ⟨rfl, rfl⟩ := Prod.mk.inj same
        exact exec_securitySelftest_bad powered 0
      · obtain ⟨rfl, rfl⟩ := Prod.mk.inj (List.mem_singleton.1 pair)
        exact exec_entropyHealthFail powered 0
    refine ⟨_, run, testFailed_tested .., testFailed_count .., fun healthy settled =>
      testFailed_handover s code active healthy settled, fun failed => ?_⟩
    obtain ⟨safe, lost, -, keys⟩ :=
      testFailed_lost_parts s 0 code (testFailed_lost s 0 code (.inl active) fun _ => failed)
    exact ⟨safe, lost, keys⟩
  case standby =>
    intro s c fails powered other
    obtain ⟨code, run⟩ := exec_testFailed powered fails
    have idle := testFailed_idle s 0 code other (fun same => absurd same (by decide))
    refine ⟨_, run, testFailed_tested .., ?_, ?_, testFailed_count ..⟩
    · exact (congrArg State.safe idle).trans (testFault_safe ..)
    · exact (congrArg (fun u : State => u.sec.active) idle).trans (by rw [testFault_sec])
  case second =>
    intro s c fails powered
    obtain ⟨code, run⟩ := exec_testFailed powered fails
    refine ⟨_, run, testFailed_tested .., testFailed_count .., fun acts => ?_, fun other settled => ?_⟩
    · have acts' : s.sec.active = 1 ∨ 1 = 1 ∧ s.sec.handover.isSome = true := by simpa using acts
      obtain ⟨safe, active, handover, -⟩ :=
        testFailed_lost_parts s 1 code (testFailed_lost s 1 code acts' fun same => absurd same (by decide))
      exact ⟨safe, active, handover⟩
    · have idle := testFailed_idle s 1 code other fun _ => settled
      exact ⟨(congrArg State.safe idle).trans (testFault_safe ..),
        (congrArg (fun u : State => u.sec.active) idle).trans (by rw [testFault_sec])⟩
  case off =>
    exact fun s c off named => security_unpowered off named
  case images =>
    refine fun s h svn powered => ⟨fun fresh enough => ?_, fun fresh enough => ?_, fun fresh => ?_⟩
    · have run := exec_bootVerify_securityModule powered (signed := true) (svn := svn) fresh
      rw [decide_eq_true enough] at run
      exact ⟨_, run, bridgeVerified_good_safe .., secModule_bridgeVerified ..⟩
    · have run := exec_bootVerify_bootFirmware powered (signed := true) (svn := svn) fresh
      rw [decide_eq_true enough] at run
      exact ⟨_, run, bridgeVerified_good_safe .., secModule_bridgeVerified .., bridgeVerified_ready ..⟩
    · refine ⟨_, exec_bootVerify_securityModule powered fresh, ?_, bridgeVerified_count ..⟩
      rw [secModule_bridgeVerified]
      rfl
  case badImages =>
    refine fun s h signed svn powered => ⟨fun fresh bad => ?_, fun fresh bad => ?_,
      exec_bootVerify_securityModule_known powered, exec_bootVerify_bootFirmware_known powered⟩
    · have run := exec_bootVerify_securityModule powered (signed := signed) (svn := svn) fresh
      rw [imageBad bad] at run
      refine ⟨_, run, ?_, bridgeVerified_code ..⟩
      rw [secModule_bridgeVerified]
    · have run := exec_bootVerify_bootFirmware powered (signed := signed) (svn := svn) fresh
      rw [imageBad bad] at run
      refine ⟨_, run, ?_, bridgeVerified_port _ _ _ _ _ _ h.isLt .., bridgeVerified_code ..⟩
      rw [secModule_bridgeVerified]
  case tables =>
    refine fun s n signed svn => ⟨exec_bootVerify_guideCores_rests, exec_bootVerify_tuningTable_rests,
      fun runs six waits bad => ?_⟩
    have run := exec_bootVerify_guideCores runs six (signed := signed) (svn := svn) waits
    rw [imageBad bad] at run
    obtain ⟨safe, jk, guide, -⟩ := tablesRefused_parts (calm_of_panelRuns runs) (srcTile 0 0x0A) svn
    exact ⟨_, run, guide.trans waits, safe, jk⟩
  case goodTables =>
    refine fun s n svn runs six => ⟨fun waits enough => ?_, fun waits => ⟨?_, ?_⟩⟩
    · exact (exec_bootVerify_guideCores runs six waits).trans (if_pos (by rw [decide_eq_true enough]; rfl))
    · refine ⟨_, exec_bootVerify_tuningTable runs six waits, ?_, rfl⟩
      rw [State.lantern_setLantern_self]
    · obtain ⟨safe, jk, -, table⟩ := tablesRefused_parts (calm_of_panelRuns runs) (srcLantern n.val 0x14) svn
      exact ⟨_, exec_bootVerify_tuningTable runs six waits, (table n.val).trans waits, safe, jk⟩
  case handover =>
    intro s code t handover powered up
    obtain ⟨off, ports, sec⟩ := ideLost_fold
      { s with sec := { s.sec with active := 1, handover := none, sessions := [] } } (fs := portFns 0 ++ portFns 1)
    refine ⟨_, exec_securityHandover powered handover up, ?_⟩
    rw [post_sec, handedOver, sec]
    refine ⟨rfl, rfl, rfl, rfl, fun f => ?_⟩
    rw [State.fn_congr (post_fns ..), off f (mem_portFns f)]
  case waits =>
    exact fun s rests => exec_securityHandover_rests rests
  case ide =>
    refine fun s f powered => ⟨fun keyed => ?_, exec_ideStateChange_unkeyed powered, ?_⟩
    · refine ⟨_, exec_ideStateChange_secure powered keyed, ?_, releaseAll_sec _⟩
      rw [releaseAll_ide, State.fn_setFn_self]
    · obtain ⟨ports, sec, closed⟩ := ideLost_sec s f
      refine ⟨_, exec_ideStateChange_open powered, ideLost_ide s f, fun secure => ?_⟩
      rw [sec]
      exact closed secure

end Sys2Proof.Machine

/-! Proofs of the obligations of spec/15_resilience.md: programming and seals. -/

namespace Sys2Proof.Machine

open Sys2Proof

/-! ### What issue leaves of the generations (R266, R280) -/

/-- The generations and the seals that are being programmed. -/
def sealView (s : State) : List Gen × List Sealing := (s.rk.gens, s.rk.sealing)

theorem sealView_congr {s u : State} (same : u.rk = s.rk) : sealView u = sealView s := by
  unfold sealView
  rw [same]

/-- To stop the units of a tile's dead commands touches what is being programmed alone. -/
theorem stopUnits_sealView (s : State) (t : Nat) (st : Stops) (tell : Bool) :
    sealView (stopUnits s t st tell) = sealView s := by
  unfold stopUnits
  extract_lets idle fabric quiet engines tile rucksack programs
  have movers : sealView idle = sealView s := foldl_view sealView (fun m _ u => by
    dsimp only
    split
    · split <;> rfl
    · rfl) s
  have stopped : sealView engines = sealView quiet := foldl_view sealView (fun e _ u =>
    sealView_congr ((stopEngine_only (.refl _ u) (.self _)).frame .rk (by decide))) quiet
  clear_value engines
  rw [sealView_congr ((stopColls_only (.refl _ _) (.self _)).frame .rk (by decide))]
  exact stopped.trans movers

theorem abortTask_sealView (s : State) (g : Nat) (task : Task) (idx : Word) (e : CmdError) (tell : Bool) :
    sealView (abortTask s g task idx e tell) = sealView s := by
  have skipOn_keeps (u : State) : sealView (skipOn u g) = sealView u :=
    sealView_congr ((skipOn_only (.refl _ u) (.self _)).frame .rk (by decide))
  have skipOne_keeps (u : State) : sealView (skipOne u g) = sealView u :=
    sealView_congr ((skipOne_only (.refl _ u) (.self _)).frame .rk (by decide))
  have discard_keeps (u : State) (t : Nat) (f : Word → Bool) : sealView (discardPrefetch u t g f) = sealView u :=
    sealView_congr ((discardPrefetch_only (.refl _ u) (.self _)).frame .rk (by decide))
  have count_keeps (u : State) (a n : Nat) : sealView (u.count32 a n) = sealView u := sealView_congr (State.count32_rk ..)
  have queue_keeps (u : State) (q : Queue) : sealView (u.setQueue g q) = sealView u := rfl
  have change_keeps (u : State) (f : Queue → Queue) : sealView (u.modQueue g f) = sealView u := rfl
  unfold abortTask
  simp only [apply_ite sealView, skipOn_keeps, skipOne_keeps, stopUnits_sealView, discard_keeps, count_keeps,
    queue_keeps, change_keeps, ite_self]

theorem failAtIssue_sealView (s : State) (g : Nat) (e : CmdError) : sealView (failAtIssue s g e) = sealView s :=
  abortTask_sealView ..

theorem commandLine_rk {s u : State} {g : Nat} {r : Except Err Fetched} (line : commandLine s g = some (r, u)) :
    u.rk = s.rk :=
  (OnlyOP.of_eq line (commandLine_only (.refl 787528 s) (.self _))).frame .rk (by decide)

theorem passIssue_rk (u : State) (c : Cmd) (new : List Inflight) : (passIssue u c new).rk = u.rk :=
  (passIssue_only (.refl _ u) (.self _)).frame .rk (by decide)

/-- A command that runs without more ado leaves the generations as they stand. -/
theorem issue_run_sealView (s : State) (g : Nat) (ok : Nat → Bool) :
    sealView (issue s g ok (fun _ s => .run s)) = sealView s := by
  have signal_rk (u : State) (l : Line) : (signalFor u g l).rk = u.rk :=
    (signalFor_only (.refl _ u) (.self _)).frame .rk (by decide)
  have skipOne_rk (u : State) : (skipOne u g).rk = u.rk := (skipOne_only (.refl _ u) (.self _)).frame .rk (by decide)
  unfold issue
  dsimp only
  split
  · rfl
  · split
    · rfl
    · next line => exact (failAtIssue_sealView ..).trans (sealView_congr (commandLine_rk line))
    · next line =>
      have same := sealView_congr (commandLine_rk line)
      split
      · rfl
      · split
        · exact (failAtIssue_sealView ..).trans same
        · split
          · exact (sealView_congr ((signal_rk ..).trans (skipOne_rk _))).trans same
          · split
            · rfl
            · exact (sealView_congr (passIssue_rk ..)).trans same

/-! ### RUCKSACK_MOUNT (R546, R549, R575) -/

section

variable {s : State} {h : Fin 2}

theorem exec_rucksackMount (powered : s.power.pwrgd = true) (mounts : 7 ≤ s.power.stage)
    (unmounted : bits s.rk.ready h.val 1 = 0) : exec (.rucksackMount h) s = .next
      { s with rk := { s.rk with
        ready := s.rk.ready + 2 ^ h.val, gens := s.rk.gens.filter (·.sealed), sealing := [] } } :=
  if_neg (by simp [powered, unmounted, Nat.not_lt.2 mounts])

theorem exec_rucksackMount_rests
    (rests : s.power.pwrgd = false ∨ s.power.stage < 7 ∨ bits s.rk.ready h.val 1 = 1) :
    exec (.rucksackMount h) s = .next s :=
  if_pos (by rcases rests with rests | rests | rests <;> simp [rests])

end

/-! ### RUCKSACK_PROGRAM_DONE (R545, R548, R560) -/

section

variable (s : State)

/-- A generation of a party takes its new value. -/
theorem mem_putGen {g x : Gen} (mem : g ∈ s.rk.gens) (party : g.party = x.party) (gen : g.gen = x.gen) :
    x ∈ (putGen s x).rk.gens :=
  List.mem_map.2 ⟨g, mem, if_pos (by simp [party, gen])⟩

theorem countWritten_rk (h n : Nat) : ∃ wrote, (countWritten s h n).rk = { s.rk with wrote } := ⟨_, rfl⟩

/-- The record takes the end of the ring, and nothing but the ring changes. -/
theorem storeRecord_rk (x : LogRecord) : ∃ log, (storeRecord s x).rk = { s.rk with log := log ++ [x] } := by
  have ring (l : List LogRecord) (f : State → LogRecord → Bool) (u : State) : ∃ log,
      (l.foldl (fun u y => if f u y then
        ({ u with rk := { u.rk with log := u.rk.log.erase y } } : State).count32 (hbgA 0x10018) 1 else u) u).rk =
          { u.rk with log } := by
    refine List.foldlRecOn (motive := fun v : State => ∃ log, v.rk = { u.rk with log }) l _ ⟨_, rfl⟩
      fun v ⟨log, same⟩ y _ => ?_
    dsimp only
    split
    · exact ⟨_, by rw [State.count32_rk, same]⟩
    · exact ⟨log, same⟩
  unfold storeRecord
  dsimp only
  obtain ⟨log, same⟩ := ring _ (fun u y => halfOf y.tile = halfOf x.tile && decide (logArea <
    (u.rk.log.filter (fun y => halfOf y.tile = halfOf x.tile)).foldl (fun n y => n + 64 * countStored y.lines) 0 +
      64 * countStored x.lines)) { s with rk := { s.rk with log := s.rk.log.filter (fun y => !sameKey x y) } }
  exact ⟨log, by rw [same]⟩

/-- What has been programmed changes the generations, the logbook and what the halves have written alone. -/
theorem recordWork_rk (w : RkWork) : ∃ gens log wrote, (recordWork s w).rk = { s.rk with gens, log, wrote } := by
  unfold recordWork
  dsimp only
  split
  · rw [State.count32_rk]
    split
    · exact ⟨_, _, _, rfl⟩
    · exact ⟨_, _, _, rfl⟩
  · next x =>
    rw [State.count32_rk]
    obtain ⟨log, same⟩ := storeRecord_rk s x
    obtain ⟨wrote, counted⟩ := countWritten_rk (storeRecord s x) (halfOf x.tile) (64 * countStored x.lines)
    exact ⟨_, _, _, by rw [counted, same]⟩

/-- A piece stands in its generation. -/
theorem recordWork_piece {p : Nat} {n : Word} {y : Piece} {z : Gen}
    (gen : s.rk.gens.find? (fun z => z.party = p && z.gen = n) = some z) :
    { z with pieces := z.pieces ++ [y] } ∈ (recordWork s (.piece p n y)).rk.gens := by
  unfold recordWork
  dsimp only
  rw [State.count32_rk, gen]
  obtain ⟨wrote, counted⟩ := countWritten_rk (putGen s { z with pieces := z.pieces ++ [y] }) (halfOf y.tile)
    (64 * countStored y.lines)
  rw [counted]
  exact mem_putGen s (List.mem_of_find?_eq_some gen) rfl rfl

/-- A record stands in the logbook. -/
theorem recordWork_record (y : LogRecord) : y ∈ (recordWork s (.record y)).rk.log := by
  unfold recordWork
  dsimp only
  rw [State.count32_rk]
  obtain ⟨log, same⟩ := storeRecord_rk s y
  obtain ⟨wrote, counted⟩ := countWritten_rk (storeRecord s y) (halfOf y.tile) (64 * countStored y.lines)
  rw [counted, same]
  exact List.mem_append_right _ (List.mem_singleton_self y)

theorem finishCommand_rk (g : Nat) (idx : Word) : (finishCommand s g idx).rk = s.rk :=
  (finishCommand_only (.refl _ s) (.self _)).frame .rk (by decide)

theorem exec_rucksackProgramDone_rests {g : Fin 16384} {idx : Word} {retired : Nat}
    (rests : ∀ x, s.rk.programming.find? (fun x => x.queue = g.val && x.idx = idx) = some x →
      s.power.pwrgd = false ∨ mayProgram s x.work = false ∨ quietCommand s g.val idx = false) :
    exec (.rucksackProgramDone g idx retired) s = .next s := by
  change execRucksackProgramDone g idx retired s = _
  unfold execRucksackProgramDone
  split
  · rfl
  · next x found =>
    exact if_pos (by rcases rests x found with rest | rest | rest <;> simp [rest])

/-- The programming leaves, with its failed blocks counted, and is recorded. -/
def workEnded (g : Nat) (retired : Nat) (x : Programming) : State :=
  recordWork (({ s with rk := { s.rk with
    programming := s.rk.programming.erase x,
    faults := mset 0 s.rk.faults (halfOf (g / 256)) (mget 0 s.rk.faults (halfOf (g / 256)) + retired) } } :
      State).count32 (hbgA 0x10020) retired) x.work

theorem exec_rucksackProgramDone {g : Fin 16384} {idx : Word} {retired : Nat} {x : Programming}
    (found : s.rk.programming.find? (fun x => x.queue = g.val && x.idx = idx) = some x)
    (powered : s.power.pwrgd = true) (may : mayProgram s x.work = true) (quiet : quietCommand s g.val idx = true) :
    ∃ u, exec (.rucksackProgramDone g idx retired) s = .next u ∧ u.rk = (workEnded s g.val retired x).rk := by
  refine ⟨if (workEnded s g.val retired x).safe.active then workEnded s g.val retired x
    else finishCommand (workEnded s g.val retired x) g.val idx, ?_, ?_⟩
  · change execRucksackProgramDone g idx retired s = _
    unfold execRucksackProgramDone
    rw [found]
    exact if_neg (by simp [powered, may, quiet])
  · split
    · rfl
    · exact finishCommand_rk ..

theorem workEnded_programming (g retired : Nat) (x : Programming) :
    (workEnded s g retired x).rk.programming = s.rk.programming.erase x ∧
      (workEnded s g retired x).rk.faults =
        mset 0 s.rk.faults (halfOf (g / 256)) (mget 0 s.rk.faults (halfOf (g / 256)) + retired) := by
  unfold workEnded
  obtain ⟨gens, log, wrote, same⟩ := recordWork_rk (({ s with rk := { s.rk with
    programming := s.rk.programming.erase x,
    faults := mset 0 s.rk.faults (halfOf (g / 256)) (mget 0 s.rk.faults (halfOf (g / 256)) + retired) } } :
      State).count32 (hbgA 0x10020) retired) x.work
  rw [same, State.count32_rk]
  exact ⟨rfl, rfl⟩

theorem workEnded_piece (g retired : Nat) {x : Programming} {p : Nat} {n : Word} {y : Piece}
    (work : x.work = .piece p n y) {z : Gen} (gen : s.rk.gens.find? (fun z => z.party = p && z.gen = n) = some z) :
    { z with pieces := z.pieces ++ [y] } ∈ (workEnded s g retired x).rk.gens := by
  unfold workEnded
  rw [work]
  exact recordWork_piece _ (by rw [State.count32_rk]; exact gen)

theorem workEnded_record (g retired : Nat) {x : Programming} {y : LogRecord} (work : x.work = .record y) :
    y ∈ (workEnded s g retired x).rk.log := by
  unfold workEnded
  rw [work]
  exact recordWork_record ..

end

/-! ### SEAL_ACCEPT (R549) -/

section

variable {s : State} {party : Fin 16}

theorem exec_sealAccept_rests (rests : ∀ x, openGen s party.val = some x → partyTiles s party.val = [] ∨
    (∃ t ∈ partyTiles s party.val, sealQueue s t x.gen = none) ∨ ∃ y ∈ s.rk.sealing, y.party = party.val) :
    exec (.sealAccept party) s = .next s := by
  change execSealAccept party s = _
  unfold execSealAccept
  dsimp only
  split
  · rfl
  · next x found =>
    refine if_pos ?_
    rcases rests x found with none | ⟨t, mem, missing⟩ | ⟨y, mem, same⟩
    · simp [none]
    · have short : ((partyTiles s party.val).filterMap (fun t => sealQueue s t x.gen)).length ≠
          (partyTiles s party.val).length := fun all => by
        have := List.filterMap_length_eq_length.1 all t mem
        simp [missing] at this
      simp [short]
    · simp only [Bool.or_eq_true, List.any_eq_true, decide_eq_true_eq]
      exact Or.inr ⟨y, mem, same⟩

/-- The SEALs of a generation that stand in tiles issue in their queues. -/
def sealsIssued (s : State) (ts : List Nat) (gen : Word) : State :=
  (ts.filterMap (fun t => sealQueue s t gen)).foldl (fun s q => issue s q (· = 0x50) (fun _ s => .run s)) s

theorem sealsIssued_sealView (ts : List Nat) (gen : Word) : sealView (sealsIssued s ts gen) = sealView s :=
  foldl_view sealView (fun q _ u => issue_run_sealView u q _) s

theorem exec_sealAccept {x : Gen} (gen : openGen s party.val = some x) (tiles : partyTiles s party.val ≠ [])
    (stands : ∀ t ∈ partyTiles s party.val, (sealQueue s t x.gen).isSome = true)
    (free : ∀ y ∈ s.rk.sealing, y.party ≠ party.val) :
    ∃ u, exec (.sealAccept party) s = .next u ∧
      u.rk.sealing = s.rk.sealing ++ [{ party := party.val, gen := x.gen }] ∧ u.rk.gens = s.rk.gens := by
  have all : ((partyTiles s party.val).filterMap (fun t => sealQueue s t x.gen)).length =
      (partyTiles s party.val).length := List.filterMap_length_eq_length.2 stands
  obtain ⟨gens, sealing⟩ := Prod.mk.inj (sealsIssued_sealView (s := s) (partyTiles s party.val) x.gen)
  let u := sealsIssued s (partyTiles s party.val) x.gen
  refine ⟨{ u with rk := { u.rk with sealing := u.rk.sealing ++ [{ party := party.val, gen := x.gen }] } }, ?_,
    congrArg (· ++ _) sealing, gens⟩
  change execSealAccept party s = _
  unfold execSealAccept
  dsimp only
  rw [gen]
  exact if_neg (by simpa [tiles, all] using free)

end

/-! ### SEAL_PROGRAMMED (R549) -/

section

variable {s : State} {party : Fin 16}

theorem exec_sealProgrammed_rests (rests : ∀ x, s.rk.sealing.find? (fun x => x.party = party.val) = some x →
    s.rk.gens.find? (fun y => y.party = party.val && y.gen = x.gen) = none ∨ s.rk.ready ≠ 3 ∨
    ∃ y ∈ s.rk.programming, ∃ pc, y.work = .piece party.val x.gen pc) :
    exec (.sealProgrammed party) s = .next s := by
  change execSealProgrammed party s = _
  unfold execSealProgrammed
  dsimp only
  split
  · rfl
  · next x found =>
    split
    · rfl
    · next g gen =>
      refine if_pos ?_
      rcases rests x found with none | unready | ⟨y, mem, pc, work⟩
      · rw [none] at gen
        nomatch gen
      · simp [unready]
      · simp only [Bool.or_eq_true, List.any_eq_true]
        exact Or.inl ⟨y, mem, by rw [work]; simp⟩

theorem finishSeals_rk (s : State) (p : Nat) (gen : Word) : (finishSeals s p gen).rk = s.rk :=
  (finishSeals_only (.refl _ s) (.self _)).frame .rk (by decide)

theorem sealEvent_rk (s : State) (x : Gen) : (sealEvent s x).rk = s.rk :=
  (sealEvent_only (.refl _ s) (.self _)).frame .rk (by decide)

/-- The generation is sealed, and its CHECKPOINT_DONE is posted. -/
def genSealed (s : State) (x : Sealing) (g : Gen) : State :=
  sealEvent (putGen { s with rk := { s.rk with sealing := s.rk.sealing.erase x } } { g with sealed := true })
    { g with sealed := true }

theorem exec_sealProgrammed {x : Sealing} {g : Gen}
    (found : s.rk.sealing.find? (fun x => x.party = party.val) = some x)
    (gen : s.rk.gens.find? (fun y => y.party = party.val && y.gen = x.gen) = some g)
    (idle : ∀ y ∈ s.rk.programming, ∀ pc, y.work ≠ .piece party.val x.gen pc) (ready : s.rk.ready = 3) :
    ∃ u, exec (.sealProgrammed party) s = .next u ∧ u.rk.sealing = s.rk.sealing.erase x ∧
      { g with sealed := true } ∈ u.rk.gens := by
  have rk : (if (genSealed s x g).safe.active then genSealed s x g
      else finishSeals (genSealed s x g) party.val x.gen).rk = (genSealed s x g).rk := by
    split
    · rfl
    · exact finishSeals_rk ..
  refine ⟨if (genSealed s x g).safe.active then genSealed s x g else finishSeals (genSealed s x g) party.val x.gen,
    ?_, ?_⟩
  · change execSealProgrammed party s = _
    unfold execSealProgrammed
    dsimp only
    rw [found]
    dsimp only
    rw [gen]
    refine if_neg fun busy => ?_
    simp only [ready, Bool.or_eq_true, List.any_eq_true] at busy
    obtain ⟨y, mem, piece⟩ := busy.resolve_right (by decide)
    cases work : y.work with
    | piece q n pc =>
      simp only [work, Bool.and_eq_true, decide_eq_true_eq] at piece
      exact idle y mem pc (by rw [work, piece.1, piece.2])
    | record _ => simp [work] at piece
  · rw [rk, genSealed, sealEvent_rk]
    exact ⟨rfl, mem_putGen _ (List.mem_of_find?_eq_some gen) rfl rfl⟩

end

/-- Settles O43: by the equation of each command, with the generations followed through the programming of a piece
and through the issue of the SEALs. -/
theorem seals : Obligations.Seals := by
  refine ⟨fun _ _ => exec_rucksackMount, fun s g idx retired x found powered may quiet => ?_,
    fun _ _ _ _ => exec_rucksackProgramDone_rests _, fun _ _ => exec_rucksackMount_rests,
    fun _ _ => exec_sealAccept_rests, fun _ _ => exec_sealProgrammed_rests, fun _ _ _ => exec_sealAccept,
    fun _ _ _ _ => exec_sealProgrammed⟩
  obtain ⟨u, ran, rk⟩ := exec_rucksackProgramDone s (retired := retired) found powered may quiet
  obtain ⟨programming, faults⟩ := workEnded_programming s g.val retired x
  refine ⟨u, ran, by rw [rk, programming], by rw [rk, faults, mget_mset_self], ?_, ?_⟩
  · intro p n y work z gen
    rw [rk]
    exact workEnded_piece s g.val retired work gen
  · intro y work
    rw [rk]
    exact workEnded_record s g.val retired work

end Sys2Proof.Machine

/-! Proofs of the obligations of spec/15_resilience.md: transfers. -/

namespace Sys2Proof.Machine

open Sys2Proof

/-! ### A transfer starts (R556, R557, R569, R576) -/

section

variable (s : State) (p : Path) (h op : Nat)

theorem xferWord_toNat (low : op < 4) : (xferWord s h op).toNat = op + 4 * s.field (xferA h 0) 2 4 + 256 := by
  have party : s.field (xferA h 0) 2 4 < 2 ^ 4 := bits_lt ..
  rw [xferWord, BitVec.toNat_ofNat]
  omega

theorem xferWord_op (low : op < 4) : bits (xferWord s h op).toNat 0 2 = op := by
  rw [xferWord_toNat s h op low, bits]
  omega

theorem xferWord_party (low : op < 4) : bits (xferWord s h op).toNat 2 4 = s.field (xferA h 0) 2 4 := by
  have party : s.field (xferA h 0) 2 4 < 2 ^ 4 := bits_lt ..
  rw [xferWord_toNat s h op low, bits]
  omega

theorem xferWord_named (low : op < 4) : bits (xferWord s h op).toNat 0 6 = op + 4 * s.field (xferA h 0) 2 4 := by
  have party : s.field (xferA h 0) 2 4 < 2 ^ 4 := bits_lt ..
  rw [xferWord_toNat s h op low, bits]
  omega

theorem xferWord_go (low : op < 4) : (xferWord s h op).getLsbD 8 = true := by
  have party : s.field (xferA h 0) 2 4 < 2 ^ 4 := bits_lt ..
  rw [BitVec.getLsbD, Nat.testBit_eq_decide_div_mod_eq, xferWord_toNat s h op low, decide_eq_true_eq]
  omega

/-- The transfer that the block names, and its operation and PARTY in CTRL. -/
def xferNamed : State := s.setField (xferA h 0) 0 6 (op + 4 * s.field (xferA h 0) 2 4)

/-- RESULT and MOVED are cleared for a transfer. -/
def xferCleared : State := ((xferNamed s h op).setField (xferA h 0) 10 2 0).setReg64 (xferA h 0x18) 0

theorem xferCleared_reg {a : Nat} (ctrl : xferA h 0 ≠ a) (low : xferA h 0x18 ≠ a) (high : xferA h 0x18 + 4 ≠ a) :
    (xferCleared s h op).reg a = s.reg a := by
  rw [xferCleared, State.setReg64, State.reg_setReg_other _ _ high, State.reg_setReg_other _ _ low,
    State.reg_setField_other _ _ _ _ ctrl, xferNamed, State.reg_setField_other _ _ _ _ ctrl]

theorem xferCleared_reg64 {o : Nat} (start : 4 ≤ o) (stop : o + 8 ≤ 0x18) :
    (xferCleared s h op).reg64 (xferA h o) = s.reg64 (xferA h o) := by
  rw [State.reg64, State.reg64]
  rw [xferCleared_reg, xferCleared_reg] <;> (unfold xferA hbgA; omega)

theorem xferCleared_result : (xferCleared s h op).field (xferA h 0) 10 2 = 0 := by
  have low : xferA h 0x18 ≠ xferA h 0 := by unfold xferA hbgA; omega
  have high : xferA h 0x18 + 4 ≠ xferA h 0 := by unfold xferA hbgA; omega
  rw [State.field, xferCleared, State.setReg64, State.reg_setReg_other _ _ high, State.reg_setReg_other _ _ low]
  exact State.field_setField_self _ _ (by decide) (by decide)

theorem xferCleared_moved : (xferCleared s h op).reg64 (xferA h 0x18) = 0 :=
  State.reg64_setReg64_self ..

theorem setXfer_xfer (x : Transfer) : xfer (setXfer s h x) h = x := mget_mset_self ..

theorem setXfer_regs (x : Transfer) : (setXfer s h x).regs = s.regs := rfl

/-- The transfer that GO starts. -/
def xferStarted : Transfer :=
  { busy := true, op, party := s.field (xferA h 0) 2 4, gen := s.reg (xferA h 4),
    addr := 4096 * (s.reg64 (xferA h 8) / 4096), len := s.reg64 (xferA h 0x10) }

/-- The block takes a transfer that it may start, and starts it where none is under way. -/
theorem xferWrite_named (named : op = 1 ∨ op = 2) (may : op = 2 → s.safe.active = false) :
    xferWrite s p h (xferWord s h op) = if (xfer s h).busy
      then accessError (xferNamed s h op) { path := p, off := xferA h 0 } 3
      else setXfer (xferCleared s h op) h (xferStarted s h op) := by
  have low : op < 4 := by omega
  have allowed : (s.safe.active && decide (op ≠ 1)) = false := by
    rcases named with rfl | rfl
    · simp
    · simp [may rfl]
  have starts : (!true || decide (op = 0) || decide (op = 3)) = false := by rcases named with rfl | rfl <;> rfl
  unfold xferWrite
  dsimp only
  rw [xferWord_op s h op low, xferWord_go s h op low, xferWord_named s h op low, xferWord_party s h op low,
    allowed, starts]
  have gen : (xferCleared s h op).reg (xferA h 4) = s.reg (xferA h 4) := by
    rw [xferCleared_reg] <;> (unfold xferA hbgA; omega)
  rw [xferStarted, ← gen, ← xferCleared_reg64 s h op (o := 8) (by decide) (by decide),
    ← xferCleared_reg64 s h op (o := 0x10) (by decide) (by decide)]
  rfl

theorem xferWrite_safe (safe : s.safe.active = true) :
    xferWrite s p h (xferWord s h 2) = accessError s { path := p, off := xferA h 0 } 2 := by
  unfold xferWrite
  dsimp only
  rw [xferWord_op s h 2 (by decide), safe]
  rfl

/-- EXPORT and IMPORT write CTRL of their block. -/
theorem exec_transfer {h : Fin 2} {c : Instr}
    (mem : (c, op) ∈ [(Instr.exportImage p h, 1), (.importImage p h, 2)])
    (gate : ownerGate s p (xferA h.val 0) = true) :
    (op = 1 ∨ op = 2) ∧ exec c s = .next (answer (xferWrite s p h.val (xferWord s h.val op)) .ok) := by
  simp only [List.mem_cons, List.not_mem_nil, or_false, Prod.mk.injEq] at mem
  rcases mem with ⟨rfl, rfl⟩ | ⟨rfl, rfl⟩
  · exact ⟨Or.inl rfl, congrArg _ (ownerWrite_gate gate ..)⟩
  · exact ⟨Or.inr rfl, congrArg _ (ownerWrite_gate gate ..)⟩

end

/-! ### A transfer ends (R556) -/

section

variable (s : State) (h : Nat)

theorem endTransfer_rk (result moved : Nat) : (endTransfer s h result moved).rk =
    { s.rk with xfers := mset {} s.rk.xfers h { xfer s h with busy := false } } := by
  rw [endTransfer, State.setReg64_rk, State.setField_rk, setXfer]

theorem endTransfer_out (result moved : Nat) : (endTransfer s h result moved).out = s.out := by
  rw [endTransfer, State.setReg64_out, State.setField_out, setXfer]

theorem endTransfer_xfer (result moved : Nat) :
    xfer (endTransfer s h result moved) h = { xfer s h with busy := false } := by
  rw [xfer, endTransfer_rk]
  exact mget_mset_self ..

theorem endTransfer_result {result : Nat} (moved : Nat) (fits : result < 4) :
    (endTransfer s h result moved).field (xferA h 0) 10 2 = result := by
  have low : xferA h 0x18 ≠ xferA h 0 := by unfold xferA hbgA; omega
  have high : xferA h 0x18 + 4 ≠ xferA h 0 := by unfold xferA hbgA; omega
  rw [State.field, endTransfer, State.setReg64, State.reg_setReg_other _ _ high, State.reg_setReg_other _ _ low]
  exact State.field_setField_self _ _ (by decide) fits

theorem endTransfer_moved (result moved : Nat) :
    (endTransfer s h result moved).reg64 (xferA h 0x18) = moved % 2 ^ 64 :=
  State.reg64_setReg64_self ..

theorem xfer_congr {u v : State} (same : u.rk.xfers = v.rk.xfers) : xfer u h = xfer v h := by
  unfold xfer
  rw [same]

end

/-! ### EXPORT's image (R556, R558, R598) -/

section

variable (s : State)

theorem hostBlocks_rk (f : Fn) (n a : Nat) (bs : List Nat) (s : State) : (hostBlocks f n a bs s).rk = s.rk := by
  induction n generalizing a bs s with
  | zero => rfl
  | succ n ih =>
    unfold hostBlocks
    split
    · rfl
    · rw [ih, State.emit_rk]

/-- What has been sent stays sent. -/
theorem hostBlocks_mem (f : Fn) (n a : Nat) (bs : List Nat) {s : State} {o : Out} (mem : o ∈ s.out) :
    o ∈ (hostBlocks f n a bs s).out := by
  induction n generalizing a bs s with
  | zero => exact mem
  | succ n ih =>
    unfold hostBlocks
    split
    · exact mem
    · exact ih _ _ (List.mem_append_left _ mem)

theorem hostBlocks_first (f : Fn) (n a : Nat) {bs : List Nat} (some : bs ≠ []) :
    .hostWrite f a (bs.take 4096) ∈ (hostBlocks f (n + 1) a bs s).out := by
  rw [hostBlocks, if_neg some]
  exact hostBlocks_mem _ _ _ _ (List.mem_append_right _ (List.mem_singleton_self _))

theorem buildImage_ne_nil (jk : BitVec 256) (g : Gen) (h : Nat) : buildImage s jk g h ≠ [] :=
  fun none => nomatch (List.append_eq_nil_iff.1 (List.append_eq_nil_iff.1 none).1).1

theorem rereadGen_out (h : Nat) (bad : List Nat) (g : Gen) : (rereadGen s h bad g).2.out = s.out := rfl

theorem rereadGen_xfers (h : Nat) (bad : List Nat) (g : Gen) : (rereadGen s h bad g).2.rk.xfers = s.rk.xfers := rfl

variable {s} {h : Fin 2} {bad : List Nat} {x : Transfer}

/-- The sealed generation that an EXPORT names, as its half holds it. -/
def exportGen (s : State) (h : Nat) (x : Transfer) : Option Gen :=
  (sealedGens s x.party).find? (fun g => g.gen = x.gen && bits g.halves h 1 = 1)

theorem finishExport_none (none : (exportGen s h.val x).isNone = true ∨ s.sec.jk.isNone = true) :
    finishExport s h bad x = endTransfer s h.val 2 0 := by
  unfold finishExport
  split
  · next keyed held =>
    rw [exportGen, held, keyed] at none
    simp at none
  · rfl

/-- An EXPORT of a generation that the half holds, under a job key: the image as the half reads it back. -/
theorem finishExport_some {jk : BitVec 256} {g : Gen} (keyed : s.sec.jk = some jk)
    (held : exportGen s h.val x = some g) :
    finishExport s h bad x =
      if x.len < (buildImage (rereadGen s h.val bad g).2 jk (rereadGen s h.val bad g).1 h.val).length
      then endTransfer (rereadGen s h.val bad g).2 h.val 2 0
      else endTransfer (hostBlocks { port := h, vf := 0 }
        ((buildImage (rereadGen s h.val bad g).2 jk (rereadGen s h.val bad g).1 h.val).length / 4096 + 1) x.addr
        (buildImage (rereadGen s h.val bad g).2 jk (rereadGen s h.val bad g).1 h.val) (rereadGen s h.val bad g).2)
        h.val 1 (buildImage (rereadGen s h.val bad g).2 jk (rereadGen s h.val bad g).1 h.val).length := by
  unfold exportGen at held
  unfold finishExport
  rw [keyed, held]

theorem finishExport_xfer : xfer (finishExport s h bad x) h.val = { xfer s h.val with busy := false } := by
  unfold finishExport
  split
  · dsimp only
    split
    · rw [endTransfer_xfer, xfer_congr _ (rereadGen_xfers ..)]
    · rw [endTransfer_xfer, xfer_congr _ (congrArg Rucksack.xfers (hostBlocks_rk ..)), xfer_congr _ (rereadGen_xfers ..)]
  · exact endTransfer_xfer ..

end

/-! ### IMPORT's generation (R551, R556) -/

section

variable {s : State} {h : Nat} {x : Gen}

/-- To make room for a party only erases generations. -/
theorem makeRoom_gens {u : State} {p need : Nat} (room : makeRoom s p h need = some u) :
    u.rk.xfers = s.rk.xfers ∧ ∀ g ∈ u.rk.gens, g ∈ s.rk.gens := by
  have erased : ∀ (l : List Gen) (s : State),
      (l.foldl (fun s g => if decide (usedIn s h + need ≤ checkpointArea) then s
        else { s with rk := { s.rk with gens := s.rk.gens.erase g } }) s).rk.xfers = s.rk.xfers ∧
      ∀ g ∈ (l.foldl (fun s g => if decide (usedIn s h + need ≤ checkpointArea) then s
        else { s with rk := { s.rk with gens := s.rk.gens.erase g } }) s).rk.gens, g ∈ s.rk.gens := by
    intro l
    induction l with
    | nil => exact fun s => ⟨rfl, fun _ mem => mem⟩
    | cons y l ih =>
      intro s
      rw [List.foldl_cons]
      split
      · exact ih s
      · exact ⟨(ih _).1, fun g mem => List.mem_of_mem_erase ((ih _).2 g mem)⟩
  unfold makeRoom at room
  dsimp only at room
  split at room
  · rw [← Option.some.inj room]
    exact erased ..
  · nomatch room

/-- A generation is newer than none of its number. -/
theorem newerGen_self (n : Word) : newerGen n n = false := by simp [newerGen]

/-- A half that takes an IMPORT holds the generation, with the pieces of the image. -/
theorem storeImport_holds {u : State} (stored : storeImport s h x = some u) (half : bits x.halves h 1 = 1) :
    u.rk.xfers = s.rk.xfers ∧ ∃ y ∈ u.rk.gens, y.party = x.party ∧ y.gen = x.gen ∧ bits y.halves h 1 = 1 ∧
      ∀ z ∈ x.pieces, z ∈ y.pieces := by
  unfold storeImport at stored
  dsimp only at stored
  split at stored
  · nomatch stored
  · next newer =>
    split at stored
    · nomatch stored
    · next v room =>
      obtain ⟨xfers, kept⟩ := makeRoom_gens room
      split at stored
      · next g found =>
        rw [← Option.some.inj stored]
        have gen : g.gen = x.gen := by simpa using List.find?_some found
        obtain ⟨mem, party⟩ := List.mem_filter.1 (List.mem_of_find?_eq_some found)
        have other : bits g.halves h 1 = 0 := by
          have held : bits g.halves h 1 ≠ 1 := fun held => newer (List.any_eq_true.2 ⟨g,
            List.mem_filter.2 ⟨List.mem_filter.2 ⟨kept g mem, party⟩, by simpa using held⟩,
            by rw [gen, newerGen_self]; rfl⟩)
          have := bits_lt g.halves h 1
          omega
        refine ⟨xfers, _, mem_putGen v mem rfl rfl, of_decide_eq_true party, gen, ?_,
          fun z mem => List.mem_append_right _ mem⟩
        rw [bits, Nat.shiftRight_eq_div_pow] at other ⊢
        rw [Nat.add_div_right _ (Nat.two_pow_pos h)]
        omega
      · rw [← Option.some.inj stored]
        exact ⟨xfers, x, List.mem_append_right _ (List.mem_singleton_self x), rfl, rfl, half, fun _ mem => mem⟩

/-- What is read of an image is held by its half. -/
theorem readImage_half {y : Transfer} {image : Option Image} (read : image.bind (readImage s h y) = some x) :
    bits x.halves h 1 = 1 := by
  obtain ⟨im, -, read⟩ := Option.bind_eq_some_iff.1 read
  unfold readImage at read
  dsimp only at read
  split at read
  · nomatch read
  · split at read
    · nomatch read
    · have halves : x.halves = 2 ^ h := by rw [← Option.some.inj read]
      rw [halves, bits, Nat.shiftRight_eq_div_pow, Nat.div_self (Nat.two_pow_pos h)]
      decide

end

/-- The IMPORT of a generation that its half takes. -/
def imported (u : State) (h : Nat) (x : Gen) : State :=
  sealEvent (countWritten { u with draws := u.draws + x.pieces.foldl (fun n y => n + y.lines.length) 0 } h
    (pieceBytes h x.pieces)) x

section

variable {s : State} {h : Fin 2} {x : Transfer} {image : Option Image}

theorem imported_rk (u : State) (h : Nat) (x : Gen) :
    ∃ wrote, (imported u h x).rk = { u.rk with wrote } := by
  rw [imported, sealEvent_rk]
  exact countWritten_rk ..

/-- An IMPORT whose image is bad, or that its half does not take. -/
theorem finishImport_fails
    (bad : ∀ g, image.bind (readImage s h.val x) = some g → (storeImport s h.val g).isNone = true) :
    finishImport s h x image = endTransfer s h.val 2 0 := by
  unfold finishImport
  split
  · rfl
  · next g read =>
    rw [Option.isNone_iff_eq_none.1 (bad g read)]

theorem finishImport_stores {g : Gen} {u : State} (read : image.bind (readImage s h.val x) = some g)
    (stored : storeImport s h.val g = some u) : finishImport s h x image =
      endTransfer (imported u h.val g) h.val 1 ((image.map (fun i => 0x100 + i.body.length)).getD 0) := by
  unfold finishImport
  rw [read]
  dsimp only
  rw [stored]
  rfl

end

/-! ### RK_TRANSFER_DONE (R556) -/

section

variable {s : State} {h : Fin 2} {image : Option Image} {bad : List Nat}

theorem exec_rkTransferDone_rests (rests : (xfer s h.val).busy = false ∨ s.power.pwrgd = false ∨
    bits s.rk.ready h.val 1 = 0 ∨ (s.fn { port := h, vf := 0 }).busMaster = false ∨
    ideClosed s { port := h, vf := 0 } = true) : exec (.rkTransferDone h ⟨image, bad⟩) s = .next s :=
  if_pos (by rcases rests with rest | rest | rest | rest | rest <;> simp [rest])

theorem exec_rkTransferDone (busy : (xfer s h.val).busy = true) (powered : s.power.pwrgd = true)
    (serves : bits s.rk.ready h.val 1 = 1) (master : (s.fn { port := h, vf := 0 }).busMaster = true)
    (opened : ideClosed s { port := h, vf := 0 } = false) : exec (.rkTransferDone h ⟨image, bad⟩) s = .next
      (if (xfer s h.val).op = 1 then finishExport s h bad (xfer s h.val)
        else finishImport s h (xfer s h.val) image) := by
  refine (if_neg (by rw [busy, powered, serves, master, opened]; decide)).trans ?_
  split <;> rfl

theorem finishExport_fails (none : (exportGen s h.val (xfer s h.val)).isNone = true ∨ s.sec.jk.isNone = true) :
    (finishExport s h bad (xfer s h.val)).field (xferA h.val 0) 10 2 = 2 ∧
      (finishExport s h bad (xfer s h.val)).out = s.out := by
  rw [finishExport_none none]
  exact ⟨endTransfer_result _ _ _ (by decide), endTransfer_out ..⟩

theorem finishExport_writes {jk : BitVec 256} {g : Gen} (keyed : s.sec.jk = some jk)
    (held : exportGen s h.val (xfer s h.val) = some g) :
    let r := rereadGen s h.val bad g
    let bs := buildImage r.2 jk r.1 h.val
    let u := finishExport s h bad (xfer s h.val)
    ((xfer s h.val).len < bs.length → u.field (xferA h.val 0) 10 2 = 2 ∧ u.out = s.out) ∧
      (bs.length ≤ (xfer s h.val).len → u.field (xferA h.val 0) 10 2 = 1 ∧
        u.reg64 (xferA h.val 0x18) = bs.length % 2 ^ 64 ∧
        .hostWrite { port := h, vf := 0 } (xfer s h.val).addr (bs.take 4096) ∈ u.out) := by
  dsimp only
  rw [finishExport_some keyed held]
  refine ⟨fun short => ?_, fun room => ?_⟩
  · rw [if_pos short]
    exact ⟨endTransfer_result _ _ _ (by decide), (endTransfer_out ..).trans (rereadGen_out ..)⟩
  · rw [if_neg (Nat.not_lt.2 room)]
    refine ⟨endTransfer_result _ _ _ (by decide), endTransfer_moved .., ?_⟩
    rw [endTransfer_out]
    exact hostBlocks_first _ _ _ _ (buildImage_ne_nil _ _ _ _)

theorem finishImport_stored {g : Gen} (read : image.bind (readImage s h.val (xfer s h.val)) = some g)
    (stored : (storeImport s h.val g).isSome = true) :
    xfer (finishImport s h (xfer s h.val) image) h.val = { xfer s h.val with busy := false } ∧
      (finishImport s h (xfer s h.val) image).field (xferA h.val 0) 10 2 = 1 ∧
      ∃ y ∈ (finishImport s h (xfer s h.val) image).rk.gens, y.party = g.party ∧ y.gen = g.gen ∧
        bits y.halves h.val 1 = 1 ∧ ∀ z ∈ g.pieces, z ∈ y.pieces := by
  obtain ⟨u, stored⟩ := Option.isSome_iff_exists.1 stored
  obtain ⟨wrote, rk⟩ := imported_rk u h.val g
  obtain ⟨xfers, holds⟩ := storeImport_holds stored (readImage_half read)
  have same : xfer (imported u h.val g) h.val = xfer s h.val := xfer_congr _ (by rw [rk, xfers])
  rw [finishImport_stores read stored]
  refine ⟨by rw [endTransfer_xfer, same], endTransfer_result _ _ _ (by decide), ?_⟩
  rw [endTransfer_rk, rk]
  exact holds

theorem finishImport_xfer : xfer (finishImport s h (xfer s h.val) image) h.val =
    { xfer s h.val with busy := false } := by
  by_cases fails : ∀ g, image.bind (readImage s h.val (xfer s h.val)) = some g →
      (storeImport s h.val g).isNone = true
  · rw [finishImport_fails fails]
    exact endTransfer_xfer ..
  · push Not at fails
    obtain ⟨g, read, stored⟩ := fails
    exact (finishImport_stored read (by simpa [Option.isSome_iff_ne_none] using stored)).1

end

/-- Settles O44: a transfer starts through the write of its CTRL, and ends as its EXPORT or its IMPORT does. -/
theorem transfers : Obligations.Transfers := by
  refine ⟨?_, ?_, ?_, fun _ _ _ _ => exec_rkTransferDone_rests, ?_⟩
  · intro s p h c op mem gate may idle
    obtain ⟨named, ran⟩ := exec_transfer s p op mem gate
    rw [xferWrite_named s p h.val op named may, idle, if_neg Bool.false_ne_true] at ran
    refine ⟨_, ran, rfl, ?_, ?_, ?_⟩
    · rw [xfer_congr _ (congrArg Rucksack.xfers (answer_rk ..)), setXfer_xfer, xferStarted]
    · rw [answer_field, State.field_congr (setXfer_regs ..), xferCleared_result]
    · rw [State.reg64_congr (answer_regs ..), State.reg64_congr (setXfer_regs ..), xferCleared_moved]
  · intro s p h c op mem gate may busy
    obtain ⟨named, ran⟩ := exec_transfer s p op mem gate
    rw [ran, xferWrite_named s p h.val op named may, busy, if_pos rfl, xferNamed]
  · intro s p h gate safe
    rw [(exec_transfer s p 2 (by simp) gate).2, xferWrite_safe s p h.val safe]
  · intro s h image bad busy powered serves master opened
    refine ⟨_, exec_rkTransferDone busy powered serves master opened, ?_, fun op none => ?_, fun op jk g keyed held => ?_,
      fun op fails => ?_, fun op g read stored => ?_⟩
    · split
      · exact finishExport_xfer
      · exact finishImport_xfer
    · rw [if_pos op]
      exact finishExport_fails none
    · rw [if_pos op]
      exact finishExport_writes keyed held
    · rw [if_neg op, finishImport_fails fails, endTransfer_rk]
      exact ⟨endTransfer_result _ _ _ (by decide), rfl⟩
    · rw [if_neg op]
      exact (finishImport_stored read stored).2

end Sys2Proof.Machine

/-! Proofs of the obligations of spec/14_noticeboard.md: records. -/

namespace Sys2Proof.Machine

open Sys2Proof

/-! ### Posting buffers (R516, R517) -/

/-- What ring `r` takes of a moment: what it holds, the conditions of the level sources, and the time. -/
def ringMoment (r : Nat) (s : State) : Ring × SMap (Option LevelCond) × Nat × Nat :=
  (s.ring r, s.nb.conds, s.now, s.time)

/-- The record that ring `r` takes now. -/
def recordNow (s : State) (r cls src party payload : Nat) : Record :=
  { seq := (s.ring r).taken, stamp := BitVec.ofNat 64 s.time, source := BitVec.ofNat 16 src,
    cls := BitVec.ofNat 8 cls, party := BitVec.ofNat 8 party, payload := BitVec.ofNat 96 payload }

theorem ringMoment_eq_iff {r : Nat} {u s : State} : ringMoment r u = ringMoment r s ↔
    u.ring r = s.ring r ∧ u.nb.conds = s.nb.conds ∧ u.now = s.now ∧ u.time = s.time := by
  simp only [ringMoment, Prod.mk.injEq]

section

variable (s : State) {r k : Nat}

theorem setRing_moment_other (apart : r ≠ k) (x : Ring) : ringMoment k (s.setRing r x) = ringMoment k s := by
  unfold ringMoment
  rw [State.ring_setRing_other _ _ apart]
  rfl

theorem used_moment : ringMoment k s.used = ringMoment k s := rfl

theorem enterRecord_ring_self (cls src party payload : Nat) : (enterRecord s r cls src party payload).ring r =
    { s.ring r with
      taken := (s.ring r).taken + 1, buffer := (s.ring r).buffer ++ [recordNow s r cls src party payload] } := by
  unfold enterRecord
  dsimp only
  split <;> exact State.ring_setRing_self ..

theorem enterRecord_moment_other (apart : r ≠ k) (cls src party payload : Nat) :
    ringMoment k (enterRecord s r cls src party payload) = ringMoment k s := by
  unfold enterRecord
  dsimp only
  split <;> exact setRing_moment_other _ apart _

theorem enterRecord_conds (cls src party payload : Nat) :
    (enterRecord s r cls src party payload).nb.conds = s.nb.conds := by
  unfold enterRecord
  dsimp only
  split <;> rfl

/-! ### Masks (R524) -/

/-- Away from a change of its mask a class is masked as the mask says. -/
theorem maskedNow_settled {c : Nat} (settled : ∀ t, mget none (s.ring r).maskTime c = some t → t + 40 ≤ s.now) :
    maskedNow s r c = ((s.ring r).masks.getLsbD (c % 256), s) := by
  unfold maskedNow
  dsimp only
  split
  · next t change => exact if_neg (Nat.not_lt.2 (settled t change))
  · rfl

theorem maskedNow_state (r c : Nat) : (maskedNow s r c).2 = s ∨ (maskedNow s r c).2 = s.used := by
  unfold maskedNow
  dsimp only
  split
  · split
    · exact Or.inr rfl
    · exact Or.inl rfl
  · exact Or.inl rfl

theorem maskedNow_moment (r c : Nat) : ringMoment k (maskedNow s r c).2 = ringMoment k s := by
  rcases maskedNow_state s r c with same | used
  · rw [same]
  · rw [used, used_moment]

/-! ### Edge records (R517, R524) -/

theorem postEdge_moment_other (apart : r ≠ k) (e : Event) : ringMoment k (postEdge s r e) = ringMoment k s := by
  unfold postEdge
  dsimp only
  have same := maskedNow_moment s (k := k) r e.cls
  split
  · exact (setRing_moment_other _ apart _).trans same
  · split
    · exact (enterRecord_moment_other _ apart ..).trans same
    · exact (setRing_moment_other _ apart _).trans same

variable {s} {e : Event} (settled : ∀ t, mget none (s.ring r).maskTime e.cls = some t → t + 40 ≤ s.now)
include settled

theorem postEdge_masked (masked : (s.ring r).masks.getLsbD (e.cls % 256) = true) :
    (postEdge s r e).ring r = { s.ring r with masked := satAdd (s.ring r).masked 1 } := by
  unfold postEdge
  rw [maskedNow_settled s settled, masked]
  exact State.ring_setRing_self ..

theorem postEdge_enters (unmasked : (s.ring r).masks.getLsbD (e.cls % 256) = false)
    (room : (s.ring r).buffer.length < bufferCap r ∧ (s.ring r).lostNow = 0) :
    (postEdge s r e).ring r = { s.ring r with
      taken := (s.ring r).taken + 1,
      buffer := (s.ring r).buffer ++ [recordNow s r e.cls e.source e.party e.payload] } := by
  have fits : (hasRoom s r && decide ((s.ring r).lostNow = 0)) = true := by simp [hasRoom, room]
  unfold postEdge
  rw [maskedNow_settled s settled, unmasked]
  dsimp only
  rw [if_neg Bool.false_ne_true, if_pos fits]
  exact enterRecord_ring_self ..

theorem postEdge_loses (unmasked : (s.ring r).masks.getLsbD (e.cls % 256) = false)
    (full : ¬ ((s.ring r).buffer.length < bufferCap r ∧ (s.ring r).lostNow = 0)) :
    ((postEdge s r e).ring r).buffer = (s.ring r).buffer ∧
      ((postEdge s r e).ring r).lost = satAdd (s.ring r).lost 1 := by
  have none : ¬ (hasRoom s r && decide ((s.ring r).lostNow = 0)) = true := by simpa [hasRoom] using full
  unfold postEdge
  rw [maskedNow_settled s settled, unmasked]
  dsimp only
  rw [if_neg Bool.false_ne_true, if_neg none, State.ring_setRing_self]
  exact ⟨rfl, rfl⟩

end

theorem ringsOf_nodup (c p : Nat) : (ringsOf c p).Nodup := by
  unfold ringsOf
  split
  · exact List.nodup_singleton 0
  · split
    · exact List.nodup_singleton _
    · split
      · simp
      · exact List.nodup_nil

/-! ### EVENT_COMMIT (R512, R529) -/

section

variable {s : State} {e : Event}

/-- A record as its rings take it (R512). -/
def postedEvent (e : Event) : Event :=
  { cls := e.cls, source := e.source, payload := payloadOf e.cls e.payload,
    party := if deviceClasses.contains e.cls then 0xFF else e.party }

/-- The PARTY of a class of the device ring chooses no ring. -/
theorem ringsOf_posted (e : Event) : ringsOf e.cls e.party = ringsOf e.cls (postedEvent e).party := by
  unfold ringsOf postedEvent
  dsimp only
  split <;> rfl

theorem exec_eventCommit_edge (powered : s.power.pwrgd = true) (other : e.cls ≠ 1) (known : knownClass e.cls = true)
    (edge : levelClasses.contains e.cls = false) : exec (.eventCommit e) s = .next
      (s.each (ringsOf e.cls e.party) (fun r s => postEdge s r (postedEvent e))) := by
  have posts : (knownClass e.cls && !levelClasses.contains e.cls) = true := by rw [known, edge]; rfl
  change execEventCommit e s = _
  unfold execEventCommit post
  rw [if_neg (by simp [powered, other, known]), if_neg (by rw [edge]; exact Bool.false_ne_true), if_pos posts]
  rfl

theorem exec_eventCommit_level (powered : s.power.pwrgd = true) (level : levelClasses.contains e.cls = true) :
    exec (.eventCommit e) s = .next (setLevel s e.cls e.source 
      (some { party := (postedEvent e).party, payload := (postedEvent e).payload })) := by
  have known : e.cls ≠ 1 ∧ knownClass e.cls = true := by
    simp only [levelClasses, List.contains_eq_mem, List.mem_cons, List.not_mem_nil, or_false, decide_eq_true_eq] at level
    rcases level with cls | cls | cls | cls | cls | cls <;> rw [cls] <;> decide
  change execEventCommit e s = _
  unfold execEventCommit
  rw [if_neg (by simp [powered, known]), if_pos level]
  rfl

end

/-- What an edge record does to a ring. -/
theorem postEdges_ring {s : State} {e : Event} (c p r : Nat) :
    (r ∉ ringsOf c p → (s.each (ringsOf c p) (fun r s => postEdge s r e)).ring r = s.ring r) ∧
    (r ∈ ringsOf c p → ∃ u, ringMoment r u = ringMoment r s ∧
      (s.each (ringsOf c p) (fun r s => postEdge s r e)).ring r = (postEdge u r e).ring r) := by
  have turns := State.each_turn (ringMoment r) (f := fun r s => postEdge s r e)
    (fun k u apart => postEdge_moment_other u apart e) (ringsOf_nodup c p) s
  refine ⟨fun absent => congrArg Prod.fst (turns.1 absent), fun present => ?_⟩
  obtain ⟨u, same, turn⟩ := turns.2 present
  exact ⟨u, same, congrArg Prod.fst turn⟩

/-- A committed edge record, in a ring of its class. -/
theorem eventCommit_edge {s : State} {e : Event} {r : Nat} (powered : s.power.pwrgd = true) (other : e.cls ≠ 1)
    (known : knownClass e.cls = true) (edge : levelClasses.contains e.cls = false)
    (settled : ∀ t, mget none (s.ring r).maskTime e.cls = some t → t + 40 ≤ s.now) :
    ∃ u, exec (.eventCommit e) s = .next u ∧
      (r ∉ ringsOf e.cls e.party → u.ring r = s.ring r) ∧
      (r ∈ ringsOf e.cls e.party → (s.ring r).masks.getLsbD (e.cls % 256) = true →
        u.ring r = { s.ring r with masked := satAdd (s.ring r).masked 1 }) ∧
      (r ∈ ringsOf e.cls e.party → (s.ring r).masks.getLsbD (e.cls % 256) = false →
        ((s.ring r).buffer.length < bufferCap r ∧ (s.ring r).lostNow = 0 →
          ∃ rec : Record, (u.ring r).buffer = (s.ring r).buffer ++ [rec] ∧ rec.seq = (s.ring r).taken ∧
            (u.ring r).taken = (s.ring r).taken + 1 ∧ rec.stamp = BitVec.ofNat 64 s.time ∧
            rec.party = BitVec.ofNat 8 (if deviceClasses.contains e.cls = true then 0xFF else e.party) ∧
            rec.cls = BitVec.ofNat 8 e.cls ∧ rec.source = BitVec.ofNat 16 e.source ∧
            rec.payload = BitVec.ofNat 96 (payloadOf e.cls e.payload)) ∧
        (¬ ((s.ring r).buffer.length < bufferCap r ∧ (s.ring r).lostNow = 0) →
          (u.ring r).buffer = (s.ring r).buffer ∧ (u.ring r).lost = satAdd (s.ring r).lost 1)) := by
  obtain ⟨absent, present⟩ := postEdges_ring (s := s) (e := postedEvent e) e.cls e.party r
  refine ⟨_, exec_eventCommit_edge powered other known edge, absent, fun mem masked => ?_, fun mem unmasked => ?_⟩
  all_goals
    obtain ⟨v, same, turn⟩ := present mem
    obtain ⟨ring, -, now, time⟩ := ringMoment_eq_iff.1 same
    rw [← ring, ← now] at settled
    rw [turn, ← ring]
  · rw [← ring] at masked
    exact postEdge_masked settled masked
  · rw [← ring] at unmasked
    refine ⟨fun room => ?_, postEdge_loses settled unmasked⟩
    rw [postEdge_enters (e := postedEvent e) settled unmasked room]
    exact ⟨_, rfl, rfl, rfl, congrArg (BitVec.ofNat 64) time, rfl, rfl, rfl, rfl⟩

/-! ### Level records (R521) -/

section

variable (s : State) {r k : Nat}

theorem buildLevel_moment_other (apart : r ≠ k) (key : Nat) : ringMoment k (buildLevel s r key) = ringMoment k s := by
  unfold buildLevel
  dsimp only
  split
  · exact setRing_moment_other _ apart _
  · split
    · exact (enterRecord_moment_other _ apart ..).trans (setRing_moment_other _ apart _)
    · exact setRing_moment_other _ apart _

theorem buildLevel_conds (r key : Nat) : (buildLevel s r key).nb.conds = s.nb.conds := by
  unfold buildLevel
  dsimp only
  split
  · rfl
  · split
    · exact enterRecord_conds ..
    · rfl

/-- A ring whose source of a level class is ARMED takes its condition, unless it masks the class. -/
def raiseLevel (cls key r : Nat) (s : State) : State :=
  if mget .armed (s.ring r).levels key = .armed then
    if (maskedNow s r cls).1 then (maskedNow s r cls).2 else buildLevel (maskedNow s r cls).2 r key
  else s

theorem raiseLevel_moment_other (cls key : Nat) (apart : r ≠ k) :
    ringMoment k (raiseLevel cls key r s) = ringMoment k s := by
  unfold raiseLevel
  split
  · split
    · exact maskedNow_moment ..
    · exact (buildLevel_moment_other _ apart key).trans (maskedNow_moment ..)
  · rfl

theorem raiseLevel_conds (cls key r : Nat) : (raiseLevel cls key r s).nb.conds = s.nb.conds := by
  have same : (maskedNow s r cls).2.nb.conds = s.nb.conds := by
    rcases maskedNow_state s r cls with same | used
    · rw [same]
    · rw [used]; rfl
  unfold raiseLevel
  split
  · split
    · exact same
    · exact (buildLevel_conds ..).trans same
  · rfl

/-- The condition of a level source, as it now is. -/
def withCond (key : Nat) (cond : Option LevelCond) : State :=
  { s with nb := { s.nb with conds := mset none s.nb.conds key cond } }

theorem withCond_conds (key : Nat) (cond : Option LevelCond) :
    (withCond s key cond).nb.conds = mset none s.nb.conds key cond := rfl

theorem setLevel_rises {cls src : Nat} (c : LevelCond) (was : mget none s.nb.conds (levelKey cls src) = none) :
    setLevel s cls src (some c) = (withCond s (levelKey cls src) (some c)).each (ringsOf cls c.party)
      (raiseLevel cls (levelKey cls src)) := by
  unfold setLevel
  dsimp only
  rw [was]
  rfl

theorem setLevel_stays {cls src : Nat} {b c : LevelCond} (was : mget none s.nb.conds (levelKey cls src) = some b) :
    setLevel s cls src (some c) = withCond s (levelKey cls src) (some c) := by
  unfold setLevel
  dsimp only
  rw [was]
  rfl

/-- The condition of a level source stands as it was last set. -/
theorem setLevel_cond (cls src : Nat) (c : LevelCond) :
    mget none (setLevel s cls src (some c)).nb.conds (levelKey cls src) = some c := by
  have stands : mget none (withCond s (levelKey cls src) (some c)).nb.conds (levelKey cls src) = some c := by
    rw [withCond_conds, mget_mset_self]
  cases was : mget none s.nb.conds (levelKey cls src) with
  | none =>
    rw [setLevel_rises s c was, State.each]
    rw [foldl_view (fun u => u.nb.conds) fun r _ u => raiseLevel_conds u cls _ r]
    exact stands
  | some b =>
    rw [setLevel_stays s was]
    exact stands

end

/-- An ARMED source whose condition becomes true enters a ring with room that does not mask its class. -/
theorem raiseLevel_enters {s : State} {cls key r : Nat} {c : LevelCond} (cond : mget none s.nb.conds key = some c)
    (armed : mget .armed (s.ring r).levels key = .armed) (settled : mget none (s.ring r).maskTime cls = none)
    (unmasked : (s.ring r).masks.getLsbD (cls % 256) = false)
    (room : (s.ring r).buffer.length < bufferCap r) (whole : (s.ring r).lostNow = 0) :
    mget .armed ((raiseLevel cls key r s).ring r).levels key = .posted ∧ ∃ rec : Record,
      ((raiseLevel cls key r s).ring r).buffer = (s.ring r).buffer ++ [rec] ∧ rec.seq = (s.ring r).taken ∧
        rec.stamp = BitVec.ofNat 64 s.time := by
  have fits : (hasRoom s r && decide ((s.ring r).lostNow = 0)) = true := by simp [hasRoom, room, whole]
  have enters : (raiseLevel cls key r s).ring r = (enterRecord
      (s.setRing r { s.ring r with levels := mset .armed (s.ring r).levels key .posted }) r (key / 65536)
      (key % 65536) c.party c.payload).ring r := by
    unfold raiseLevel
    rw [if_pos armed, maskedNow_settled s (fun t change => nomatch settled.symm.trans change), unmasked,
      if_neg Bool.false_ne_true]
    unfold buildLevel
    dsimp only
    rw [cond]
    dsimp only
    rw [if_pos fits]
  rw [enters, enterRecord_ring_self, State.ring_setRing_self]
  dsimp only
  rw [mget_mset_self]
  refine ⟨rfl, _, rfl, ?_, rfl⟩
  unfold recordNow
  rw [State.ring_setRing_self]

/-- A ring's turn when a condition becomes true. -/
theorem setLevel_ring {s : State} {cls src r : Nat} (c : LevelCond)
    (was : mget none s.nb.conds (levelKey cls src) = none) (mem : r ∈ ringsOf cls c.party) :
    ∃ v, v.ring r = s.ring r ∧ mget none v.nb.conds (levelKey cls src) = some c ∧ v.time = s.time ∧
      (setLevel s cls src (some c)).ring r = (raiseLevel cls (levelKey cls src) r v).ring r := by
  rw [setLevel_rises s c was]
  obtain ⟨v, same, turn⟩ := (State.each_turn (ringMoment r) (f := raiseLevel cls (levelKey cls src))
    (fun k u apart => raiseLevel_moment_other u _ _ apart) (ringsOf_nodup cls c.party)
    (withCond s (levelKey cls src) (some c))).2 mem
  obtain ⟨ring, conds, -, time⟩ := ringMoment_eq_iff.1 same
  exact ⟨v, ring, by rw [conds, withCond_conds, mget_mset_self], time, (ringMoment_eq_iff.1 turn).1⟩

/-- A committed level record. -/
theorem eventCommit_level {s : State} {e : Event} (powered : s.power.pwrgd = true)
    (level : levelClasses.contains e.cls = true) :
    ∃ u, exec (.eventCommit e) s = .next u ∧
      mget none u.nb.conds (levelKey e.cls e.source) =
        some { party := (postedEvent e).party, payload := (postedEvent e).payload } ∧
      (∀ r ∈ ringsOf e.cls (postedEvent e).party, mget none s.nb.conds (levelKey e.cls e.source) = none →
        mget .armed (s.ring r).levels (levelKey e.cls e.source) = .armed →
        mget none (s.ring r).maskTime e.cls = none → (s.ring r).masks.getLsbD (e.cls % 256) = false →
        (s.ring r).buffer.length < bufferCap r → (s.ring r).lostNow = 0 →
        mget .armed (u.ring r).levels (levelKey e.cls e.source) = .posted ∧ ∃ rec : Record,
          (u.ring r).buffer = (s.ring r).buffer ++ [rec] ∧ rec.seq = (s.ring r).taken ∧
            rec.stamp = BitVec.ofNat 64 s.time) := by
  refine ⟨_, exec_eventCommit_level powered level, setLevel_cond .., ?_⟩
  intro r mem was armed settled unmasked room whole
  obtain ⟨v, ring, cond, time, turn⟩ := setLevel_ring { party := (postedEvent e).party, payload := (postedEvent e).payload }
    was mem
  rw [turn]
  rw [← ring] at armed settled unmasked room whole
  obtain ⟨posted, rec, buffer, seq, stamp⟩ := raiseLevel_enters cond armed settled unmasked room whole
  exact ⟨posted, rec, by rw [buffer, ring], by rw [seq, ring], by rw [stamp, time]⟩

/-! ### Open rings and their interrupts (R518, R522, R526) -/

section

variable {s u : State} {r : Nat}

theorem ringFn_congr (port : (u.ring r).port = (s.ring r).port) : ringFn u r = ringFn s r := by
  unfold ringFn
  rw [port]

theorem ringOpen_congr (enable : (u.ring r).enable = (s.ring r).enable) (port : (u.ring r).port = (s.ring r).port)
    (hold : u.nb.hold = s.nb.hold) (fns : u.fns = s.fns) (sec : u.sec = s.sec) : ringOpen u r = ringOpen s r := by
  unfold ringOpen fnReady ideClosed
  rw [ringFn_congr port, State.fn_congr fns, enable, hold, sec]

/-- PRODUCER and CONSUMER of a ring. -/
def ringEnds (r : Nat) (s : State) : Word × Word := ((s.ring r).producer, (s.ring r).consumer)

variable (s)

theorem setRing_ends {x : Ring} (producer : x.producer = (s.ring r).producer) (consumer : x.consumer = (s.ring r).consumer) :
    ringEnds r (s.setRing r x) = ringEnds r s := by
  unfold ringEnds
  rw [State.ring_setRing_self, producer, consumer]

theorem enterRecord_ends (cls src party payload : Nat) :
    ringEnds r (enterRecord s r cls src party payload) = ringEnds r s := by
  unfold ringEnds
  rw [enterRecord_ring_self]

theorem buildLevel_ends (key : Nat) : ringEnds r (buildLevel s r key) = ringEnds r s := by
  unfold buildLevel
  dsimp only
  split
  · exact setRing_ends _ rfl rfl
  · split
    · exact (enterRecord_ends ..).trans (setRing_ends _ rfl rfl)
    · exact setRing_ends _ rfl rfl

theorem refill_ends : ringEnds r (refill s r) = ringEnds r s := by
  unfold refill
  dsimp only
  rw [foldl_view (ringEnds r) fun p _ u => buildLevel_ends u p.1]
  split
  · exact (enterRecord_ends ..).trans (setRing_ends _ rfl rfl)
  · rfl

theorem refill_out : (refill s r).out = s.out := (refill_only (.refl _ s) (.self _)).frame .out (by decide)

/-- The message of a ring's function, sent or left pending under a PCIe mask (R515). -/
def interruptSent (s : State) (r : Nat) (x : Ring) : State :=
  if (s.fn (ringFn s r)).fnMask || (s.fn (ringFn s r)).vecMask
  then (s.setRing r x).setFn (ringFn s r) { s.fn (ringFn s r) with vecPending := true }
  else (s.setRing r x).emit (.msix (ringFn s r) (s.fn (ringFn s r)).msgAddr (s.fn (ringFn s r)).msgData)

theorem sendInterrupt_open (opened : ringOpen s r = true) : sendInterrupt s r = interruptSent s r
    { s.ring r with bypass := false, held := false,
                    timer := if (s.ring r).modUs = 0 then none else some (s.now + 1000 * (s.ring r).modUs) } :=
  if_pos opened

theorem interruptSent_ring (x : Ring) : (interruptSent s r x).ring r = x := by
  unfold interruptSent
  split <;> exact State.ring_setRing_self ..

theorem interruptSent_pending (x : Ring)
    (masked : (s.fn (ringFn s r)).fnMask = true ∨ (s.fn (ringFn s r)).vecMask = true) :
    ((interruptSent s r x).fn (ringFn s r)).vecPending = true := by
  unfold interruptSent
  rw [if_pos (by simpa using masked), State.fn_setFn_self]

theorem interruptSent_out (x : Ring) (fnMask : (s.fn (ringFn s r)).fnMask = false)
    (vecMask : (s.fn (ringFn s r)).vecMask = false) : (interruptSent s r x).out = s.out ++
      [.msix (ringFn s r) (s.fn (ringFn s r)).msgAddr (s.fn (ringFn s r)).msgData] := by
  unfold interruptSent
  rw [if_neg (by rw [fnMask, vecMask]; decide)]
  rfl

theorem sendInterrupt_ends : ringEnds r (sendInterrupt s r) = ringEnds r s := by
  unfold sendInterrupt
  dsimp only
  split
  · split
    · exact setRing_ends s rfl rfl
    · exact setRing_ends s rfl rfl
  · exact setRing_ends s rfl rfl

theorem sendInterrupt_now : (sendInterrupt s r).now = s.now :=
  (sendInterrupt_only (.refl _ s) (.self _)).frame .now (by decide)

/-- An interrupt adds at most its message to what is sent. -/
theorem sendInterrupt_out : ∃ more, (sendInterrupt s r).out = s.out ++ more := by
  unfold sendInterrupt
  dsimp only
  split
  · split
    · exact ⟨[], (List.append_nil _).symm⟩
    · exact ⟨_, rfl⟩
  · exact ⟨[], (List.append_nil _).symm⟩

theorem interruptDue_ends : ringEnds r (interruptDue s r) = ringEnds r s := by
  unfold interruptDue
  dsimp only
  split
  · exact sendInterrupt_ends s
  · exact setRing_ends s rfl rfl

theorem interruptDue_out : ∃ more, (interruptDue s r).out = s.out ++ more := by
  unfold interruptDue
  dsimp only
  split
  · exact sendInterrupt_out s
  · exact ⟨[], (List.append_nil _).symm⟩

end

/-! ### RECORD_WRITE (R516, R517) -/

section

variable {s : State} {ring : Fin 17} {rec : Record} {rest : List Record}

theorem exec_recordWrite (buffer : (s.ring ring.val).buffer = rec :: rest) (opened : ringOpen s ring.val = true)
    (free : slotFree (s.ring ring.val) rec = true) :
    exec (.recordWrite ring) s = .next (writeRecord s ring.val (s.ring ring.val) rec rest) := by
  change execRecordWrite ring s = _
  unfold execRecordWrite
  dsimp only
  rw [buffer]
  exact if_pos (by rw [opened, free]; rfl)

theorem exec_recordWrite_rests (rests : (s.ring ring.val).buffer = [] ∨ ringOpen s ring.val = false ∨
    (∀ rec, (s.ring ring.val).buffer.head? = some rec → slotFree (s.ring ring.val) rec = false)) :
    exec (.recordWrite ring) s = .next s := by
  change execRecordWrite ring s = _
  unfold execRecordWrite
  dsimp only
  split
  · rfl
  · next x xs buffer =>
    refine if_neg ?_
    rcases rests with empty | closed | full
    · exact nomatch empty.symm.trans buffer
    · simp [closed]
    · simp [full x (by rw [buffer]; rfl)]

variable (s)

/-- The record is in its slot, and what waited for room has entered. -/
def slotWritten (s : State) (r : Nat) (rec : Record) (rest : List Record) : State :=
  refill ((s.emit (.hostWrite (ringFn s r) ((s.ring r).base + 32 * (rec.seq.toNat % 2 ^ (s.ring r).sizeLog2))
    (recordBytes rec))).setRing r { s.ring r with producer := rec.seq + 1, buffer := rest }) r

theorem slotWritten_ends (r : Nat) :
    ringEnds r (slotWritten s r rec rest) = (rec.seq + 1, (s.ring r).consumer) := by
  unfold slotWritten
  rw [refill_ends]
  unfold ringEnds
  rw [State.ring_setRing_self]

theorem slotWritten_out (r : Nat) : (slotWritten s r rec rest).out = s.out ++ [.hostWrite (ringFn s r)
    ((s.ring r).base + 32 * (rec.seq.toNat % 2 ^ (s.ring r).sizeLog2)) (recordBytes rec)] := by
  unfold slotWritten
  rw [refill_out]
  rfl

theorem writeRecord_eq (r : Nat) : writeRecord s r (s.ring r) rec rest =
    if (s.ring r).consumer = (s.ring r).producer then interruptDue (slotWritten s r rec rest) r
    else slotWritten s r rec rest := rfl

theorem writeRecord_ends (r : Nat) :
    ringEnds r (writeRecord s r (s.ring r) rec rest) = (rec.seq + 1, (s.ring r).consumer) := by
  rw [writeRecord_eq]
  split
  · exact (interruptDue_ends _).trans (slotWritten_ends s r)
  · exact slotWritten_ends s r

theorem writeRecord_out (r : Nat) : ∃ more, (writeRecord s r (s.ring r) rec rest).out = s.out ++
    .hostWrite (ringFn s r) ((s.ring r).base + 32 * (rec.seq.toNat % 2 ^ (s.ring r).sizeLog2)) (recordBytes rec) ::
      more := by
  rw [writeRecord_eq]
  split
  · obtain ⟨more, out⟩ := interruptDue_out (slotWritten s r rec rest) (r := r)
    exact ⟨more, by rw [out, slotWritten_out, List.append_assoc]; rfl⟩
  · exact ⟨[], slotWritten_out s r⟩

end

/-! ### MODERATION_TIMEOUT (R515, R522) -/

section

variable {s : State} {ring : Fin 17} {t : Nat}

/-- The moderation timer of a ring has ended. -/
def timerEnded (s : State) (r t : Nat) : State := (s.passTo t).setRing r { s.ring r with timer := none }

theorem timerEnded_ring (r : Nat) : (timerEnded s r t).ring r = { s.ring r with timer := none } :=
  State.ring_setRing_self ..

theorem timerEnded_now (r : Nat) : (timerEnded s r t).now = max s.now t := by
  rw [timerEnded, State.setRing_now, State.passTo_now]

theorem timerEnded_out (r : Nat) : (timerEnded s r t).out = s.out := by
  rw [timerEnded, State.setRing_out, State.passTo_out]

theorem timerEnded_fns (r : Nat) : (timerEnded s r t).fns = s.fns := by
  rw [timerEnded, State.setRing_fns, State.passTo_fns]

theorem timerEnded_fn (r : Nat) : ringFn (timerEnded s r t) r = ringFn s r :=
  ringFn_congr (by rw [timerEnded_ring])

theorem timerEnded_open (r : Nat) : ringOpen (timerEnded s r t) r = ringOpen s r :=
  ringOpen_congr (by rw [timerEnded_ring]) (by rw [timerEnded_ring]) rfl (timerEnded_fns r)
    (by rw [timerEnded, State.setRing_sec, State.passTo_sec])

theorem exec_moderationTimeout (timer : (s.ring ring.val).timer = some t) : exec (.moderationTimeout ring) s = .next
    (if (s.ring ring.val).held = false then timerEnded s ring.val t
      else if (s.ring ring.val).consumer = (s.ring ring.val).producer
        then (timerEnded s ring.val t).setRing ring.val { s.ring ring.val with timer := none, held := false }
      else sendInterrupt (timerEnded s ring.val t) ring.val) := by
  change execModerationTimeout ring s = _
  unfold execModerationTimeout
  dsimp only
  rw [timer]
  by_cases held : (s.ring ring.val).held = false
  · rw [if_pos held]
    exact if_pos (by rw [Bool.not_eq_true']; exact held)
  · rw [if_neg held]
    refine (if_neg (by rw [Bool.not_eq_true']; exact held)).trans ?_
    split
    · next same => exact congrArg _ (if_pos same).symm
    · next other => exact congrArg _ (if_neg other).symm

/-- A timer that ends sends what its ring held, and forgets what nothing is left to send for. -/
theorem moderationTimeout_ends (timer : (s.ring ring.val).timer = some t) :
    ∃ u, exec (.moderationTimeout ring) s = .next u ∧ u.now = max s.now t ∧
      ((s.ring ring.val).held = false ∨ (s.ring ring.val).consumer = (s.ring ring.val).producer →
        u.ring ring.val = { s.ring ring.val with timer := none, held := false } ∧ u.out = s.out) ∧
      ((s.ring ring.val).held = true → (s.ring ring.val).consumer ≠ (s.ring ring.val).producer →
        u = sendInterrupt (timerEnded s ring.val t) ring.val) := by
  refine ⟨_, exec_moderationTimeout timer, ?_, fun idle => ?_, fun held more => ?_⟩
  · split
    · exact timerEnded_now _
    · split
      · rw [State.setRing_now, timerEnded_now]
      · rw [sendInterrupt_now, timerEnded_now]
  · by_cases held : (s.ring ring.val).held = false
    · rw [if_pos held, timerEnded_ring, timerEnded_out]
      exact ⟨by rw [← held], rfl⟩
    · rw [if_neg held, if_pos (idle.resolve_left held), State.ring_setRing_self, State.setRing_out, timerEnded_out]
      exact ⟨rfl, rfl⟩
  · rw [if_neg (by rw [held]; decide), if_neg more]

end

/-- Settles O40: a ring's turn decides what it takes of a record, and the commands of one ring follow its equations. -/
theorem records : Obligations.Records := by
  refine ⟨fun s e r powered other known edge _ settled => eventCommit_edge powered other known edge settled,
    fun s e powered level => ?_, fun s ring rec rest buffer opened free => ?_, fun _ _ => exec_recordWrite_rests,
    fun s ring t timer => ?_⟩
  · obtain ⟨u, ran, cond, enters⟩ := eventCommit_level powered level
    exact ⟨u, ran, cond, fun r mem => enters r (ringsOf_posted e ▸ mem)⟩
  · obtain ⟨more, out⟩ := writeRecord_out s ring.val (rec := rec) (rest := rest)
    obtain ⟨producer, consumer⟩ := Prod.mk.inj (writeRecord_ends s ring.val (rec := rec) (rest := rest))
    exact ⟨_, more, exec_recordWrite buffer opened free, out, producer, consumer⟩
  · obtain ⟨u, ran, now, idle, sends⟩ := moderationTimeout_ends timer
    have fns (f : Fn) : (timerEnded s ring.val t).fn f = s.fn f := State.fn_congr (timerEnded_fns _) f
    refine ⟨u, ran, now, idle, fun held more opened masked => ?_, fun held more opened fnMask vecMask => ?_⟩
    all_goals
      rw [sends held more, sendInterrupt_open _ ((timerEnded_open _).trans opened), interruptSent_ring]
      refine ⟨rfl, ?_⟩
      rw [← timerEnded_fn (t := t) ring.val]
    · refine interruptSent_pending _ _ ?_
      rwa [timerEnded_fn, fns]
    · rw [interruptSent_out, timerEnded_out, fns]
      · rwa [timerEnded_fn, fns]
      · rwa [timerEnded_fn, fns]

end Sys2Proof.Machine

/-! Proofs of the obligations of spec/15_resilience.md: mirror windows. -/

namespace Sys2Proof.Machine

open Sys2Proof

/-! ### Words and maps -/

theorem getLsbD_eq_decide (v : Word) (k : Nat) : v.getLsbD k = decide (v.toNat / 2 ^ k % 2 = 1) := by
  rw [BitVec.getLsbD, Nat.testBit_eq_decide_div_mod_eq]

/-- A field that takes the bits it holds changes nothing. -/
theorem putBits_bits (w lo n : Nat) : putBits w lo n (bits w lo n) = w := by
  rw [putBits_eq, bits, Nat.shiftRight_eq_div_pow, Nat.mod_mod, Nat.div_add_mod, Nat.div_add_mod]

theorem bits_or (a b lo n : Nat) : bits (a ||| b) lo n = bits a lo n ||| bits b lo n := by
  rw [bits, Nat.shiftRight_or_distrib, Nat.or_mod_two_pow, bits, bits]

/-- A key that does not read as the default has its entry. -/
theorem mem_of_mget {α : Type} {d v : α} {m : SMap α} {k : Nat} (holds : mget d m k = v) (other : v ≠ d) :
    (k, v) ∈ m := by
  induction m with
  | nil => exact absurd holds.symm other
  | cons x m ih =>
    obtain ⟨j, y⟩ := x
    unfold mget at holds
    split at holds
    · next same => rw [same, holds]; exact List.mem_cons_self
    · exact List.mem_cons_of_mem _ (ih holds)

theorem State.mirror_congr {s u : State} (same : u.mirrors = s.mirrors) (k : Nat) : u.mirror k = s.mirror k := by
  unfold State.mirror
  rw [same]

/-! ### MIRROR_LOST (R566) -/

section

variable (s : State)

theorem mirrorLevel_mirror (k : Nat) : (mirrorLevel s).mirror k = s.mirror k :=
  State.mirror_congr ((mirrorLevel_only (.refl _ s) (.self _)).frame .mirrors (by decide)) k

theorem mirrorLevel_regs : (mirrorLevel s).regs = s.regs :=
  (mirrorLevel_only (.refl _ s) (.self _)).frame .regs (by decide)

theorem mirrorLevel_itin : (mirrorLevel s).itin = s.itin :=
  (mirrorLevel_only (.refl _ s) (.self _)).frame .itin (by decide)

theorem mirrorLevel_copper : (mirrorLevel s).copper = s.copper :=
  (mirrorLevel_only (.refl _ s) (.self _)).frame .copper (by decide)

theorem mirrorLevel_now : (mirrorLevel s).now = s.now :=
  (mirrorLevel_only (.refl _ s) (.self _)).frame .now (by decide)

/-- While a window is INVALID the condition stands. -/
theorem mirrorLevel_lost {k : Nat} (invalid : (s.mirror k).state = 3) :
    (mget none (mirrorLevel s).nb.conds (levelKey 0x73 (srcBridge 0 1))).isSome = true := by
  have entry : (k, s.mirror k) ∈ s.mirrors := mem_of_mget (d := {}) rfl fun off => by
    rw [off] at invalid
    exact absurd invalid (by decide)
  have listed : k ∈ invalidWindows s :=
    List.mem_map.2 ⟨(k, s.mirror k), List.mem_filter.2 ⟨entry, decide_eq_true invalid⟩, rfl⟩
  unfold mirrorLevel
  split
  · next none =>
    rw [none] at listed
    nomatch listed
  · dsimp only
    rw [setLevel_cond]
    rfl

variable {s} {t w cause : Nat}

/-- A window that waits for a fill, or whose fill runs, becomes INVALID. -/
theorem mirrorInvalid_open (filling : (s.mirror (mirKey t w)).state = 1 ∨ (s.mirror (mirKey t w)).state = 4) :
    mirrorInvalid s t w cause =
      mirrorLevel (s.setMirror (mirKey t w) { s.mirror (mirKey t w) with state := 3, cause }) :=
  if_pos (by rcases filling with filling | filling <;> simp [filling])

end

/-! ### The registers of a window (R577) -/

section

variable (s : State) (t w : Nat) (v : Word)

theorem mirA_zero_ne {k : Nat} (apart : w ≠ k) (o : Nat) (low : o < 0x20) : mirA t w 0 ≠ mirA t k o := by
  unfold mirA tilA
  omega

theorem mirA_zero_ne_other (k : Nat) {o : Nat} (inner : 0 < o) (low : o < 0x20) : mirA t w 0 ≠ mirA t k o := by
  unfold mirA tilA
  omega

theorem mirFields_reg_other {a : Nat} (apart : mirA t w 0 ≠ a) : (mirFields s t w v).reg a = s.reg a := by
  rw [mirFields, State.reg_setField_other _ _ _ _ apart, State.reg_setField_other _ _ _ _ apart]

theorem mirFields_now : (mirFields s t w v).now = s.now := by
  rw [mirFields, State.setField_now, State.setField_now]

theorem mirFields_enabled (k : Nat) : mirEnabled (mirFields s t w v) t k = mirEnabled s t k := by
  unfold mirEnabled
  by_cases same : w = k
  · rw [same, mirFields, State.field_setField_apart _ _ _ (by decide) (Or.inl (by decide)),
      State.field_setField_apart _ _ _ (by decide) (Or.inl (by decide))]
  · rw [State.field, mirFields_reg_other _ _ _ _ (mirA_zero_ne t w same 0 (by decide)), State.field]

theorem mirFields_receive : mirReceive (mirFields s t w v) t w = decide (v.toNat / 2 % 2 = 1) := by
  unfold mirReceive
  rw [mirFields, State.field_setField_apart _ _ _ (by decide) (Or.inl (by decide)),
    State.field_setField_self _ _ (by decide) (bits_lt ..), bits, Nat.shiftRight_eq_div_pow]
  rfl

theorem mirFields_receive_other {k : Nat} (apart : w ≠ k) :
    mirReceive (mirFields s t w v) t k = mirReceive s t k := by
  unfold mirReceive
  rw [State.field, mirFields_reg_other _ _ _ _ (mirA_zero_ne t w apart 0 (by decide)), State.field]

theorem mirFields_blocks (k : Nat) : mirBlocks (mirFields s t w v) t k = mirBlocks s t k := by
  unfold mirBlocks
  dsimp only [State.field]
  rw [mirFields_reg_other _ _ _ _ (mirA_zero_ne_other t w k (by decide) (by decide)),
    mirFields_reg_other _ _ _ _ (mirA_zero_ne_other t w k (by decide) (by decide))]

/-- Whether a window may be enabled does not depend on its own fields. -/
theorem mirFields_allowed (receive : Bool) :
    mirAllowed (mirFields s t w v) t w receive = mirAllowed s t w receive := by
  unfold mirAllowed
  simp only [mirFields_blocks, mirFields_enabled]
  congr 3
  funext k
  by_cases same : k = w
  · simp [same]
  · rw [mirFields_receive_other _ _ _ _ (Ne.symm same)]

/-- A field written as it stands. -/
theorem State.reg_setField_same (a lo n : Nat) : (s.setField a lo n (s.field a lo n)).reg a = s.reg a := by
  rw [State.setField, State.reg_setReg_self, State.field, putBits_bits, BitVec.ofNat_toNat, BitVec.setWidth_eq]

/-- A word that gives ROLE and FILL_IDLE_MS as they stand changes neither. -/
theorem mirFields_same (role : bits v.toNat 1 1 = s.field (mirA t w 0) 1 1)
    (idle : clampTo 10 10000 (bits v.toNat 16 16) = s.field (mirA t w 0) 16 16) :
    (mirFields s t w v).reg (mirA t w 0) = s.reg (mirA t w 0) := by
  have first := State.reg_setField_same s (mirA t w 0) 1 1
  have field : s.field (mirA t w 0) 16 16 = (s.setField (mirA t w 0) 1 1 (s.field (mirA t w 0) 1 1)).field
      (mirA t w 0) 16 16 := by
    unfold State.field at first ⊢
    rw [first]
  rw [mirFields, role, idle, field, State.reg_setField_same, first]

end

/-! ### A window starts, ends or commits (R564, R565) -/

section

variable (s : State) (t w : Nat)

theorem buddyDark_congr {u : State} (itin : u.itin = s.itin) (peer : mirPeer u t w = mirPeer s t w)
    (copper : u.copper = s.copper) : buddyDark u t w = buddyDark s t w := by
  unfold buddyDark State.copperPort
  rw [itin, peer, copper]

theorem mirPeer_congr {u : State} (regs : u.regs = s.regs) : mirPeer u t w = mirPeer s t w := State.field_congr regs ..

/-- The window a fill starts in. -/
def fillStarted : State := mirrorLevel (s.setMirror (mirKey t w) { state := 1 })

theorem fillStarted_mirror : (fillStarted s t w).mirror (mirKey t w) = { state := 1 } := by
  rw [fillStarted, mirrorLevel_mirror, State.mirror_setMirror_self]

theorem fillStarted_regs : (fillStarted s t w).regs = s.regs := by
  rw [fillStarted, mirrorLevel_regs, State.setMirror_regs]

theorem fillStarted_dark : buddyDark (fillStarted s t w) t w = buddyDark s t w :=
  buddyDark_congr _ _ _ (by rw [fillStarted, mirrorLevel_itin, State.setMirror_itin])
    (mirPeer_congr _ _ _ (fillStarted_regs ..)) (by rw [fillStarted, mirrorLevel_copper, State.setMirror_copper])

theorem startFill_eq : startFill s t w =
    if buddyDark s t w then mirrorInvalid (fillStarted s t w) t w 2 else fillStarted s t w :=
  if_congr (iff_of_eq (congrArg (· = true) (fillStarted_dark s t w))) rfl rfl

theorem mirrorInvalid_regs (cause : Nat) : (mirrorInvalid s t w cause).regs = s.regs :=
  (mirrorInvalid_only (.refl _ s) (.self _)).frame .regs (by decide)

theorem startFill_regs : (startFill s t w).regs = s.regs := by
  rw [startFill_eq]
  split
  · rw [mirrorInvalid_regs, fillStarted_regs]
  · exact fillStarted_regs ..

theorem startFill_mirror : (startFill s t w).mirror (mirKey t w) =
    if buddyDark s t w then { state := 3, cause := 2 } else { state := 1 } := by
  rw [startFill_eq]
  split
  · rw [mirrorInvalid_open (by rw [fillStarted_mirror]; exact Or.inl rfl), mirrorLevel_mirror,
      State.mirror_setMirror_self, fillStarted_mirror]
  · exact fillStarted_mirror ..

/-- The buddy link of a window as its own fields leave it. -/
theorem mirFields_dark (v : Word) (n : Nat) :
    buddyDark ((mirFields s t w v).setField (mirA t w 0) 0 1 n) t w = buddyDark s t w := by
  have apart := mirA_zero_ne_other t w w (o := 0xC) (by decide) (by decide)
  refine buddyDark_congr _ _ _ ?_ ?_ ?_
  · rw [State.setField_itin, mirFields, State.setField_itin, State.setField_itin]
  · rw [mirPeer, State.field, State.reg_setField_other _ _ _ _ apart, mirFields_reg_other _ _ _ _ apart, mirPeer,
      State.field]
  · rw [State.setField_copper, mirFields, State.setField_copper, State.setField_copper]

theorem mirReceive_setEnabled (v : Nat) : mirReceive (s.setField (mirA t w 0) 0 1 v) t w = mirReceive s t w := by
  unfold mirReceive
  rw [State.field_setField_apart _ _ _ (by decide) (Or.inr (by decide))]

theorem mirEnabled_congr {u : State} (regs : u.regs = s.regs) : mirEnabled u t w = mirEnabled s t w := by
  unfold mirEnabled
  rw [State.field_congr regs]

theorem mirReceive_congr {u : State} (regs : u.regs = s.regs) : mirReceive u t w = mirReceive s t w := by
  unfold mirReceive
  rw [State.field_congr regs]

theorem mirEnabled_setEnabled {v : Nat} (fits : v < 2) :
    mirEnabled (s.setField (mirA t w 0) 0 1 v) t w = decide (v = 1) := by
  unfold mirEnabled
  rw [State.field_setField_self _ _ (by decide) fits]

theorem mirOn_receives (receive : mirReceive s t w = true) : mirOn s t w =
    (s.setField (mirA t w 0) 0 1 1).setMirror (mirKey t w) { state := 4, idle := s.now } :=
  if_pos (by rw [mirReceive_setEnabled, receive])

theorem mirOn_sends (source : mirReceive s t w = false) :
    mirOn s t w = startFill (s.setField (mirA t w 0) 0 1 1) t w :=
  if_neg (by rw [mirReceive_setEnabled, source]; exact Bool.false_ne_true)

end

/-! ### Writes of a window's control word (R577) -/

section

variable {s : State} {p : Path} {t w : Nat} {v : Word}

/-- ENABLE, ROLE and FILL_IDLE_MS of a write, before RESYNC and COMMIT. -/
def mirSwitch (s : State) (p : Path) (t w : Nat) (v : Word) : State :=
  let acc : Access := { path := p, off := mirA t w 0 }
  let written := if !mirEnabled s t w then mirFields s t w v
    else if s.reg (mirA t w 0) ≠ (mirFields s t w v).reg (mirA t w 0) then accessError s acc 2 else s
  if mirEnabled s t w && !v.getLsbD 0 then mirOff written t w
  else if !mirEnabled s t w && v.getLsbD 0 then
    (if mirAllowed written t w (mirReceive written t w) then mirOn written t w else accessError written acc 2)
  else written

theorem mirCtrl_eq : mirCtrl s p t w v =
    if v.getLsbD 3 then mirCommit (if v.getLsbD 2 then mirResync (mirSwitch s p t w v) t w else mirSwitch s p t w v) t w
    else if v.getLsbD 2 then mirResync (mirSwitch s p t w v) t w else mirSwitch s p t w v := rfl

theorem mirCtrl_plain (plain : v.toNat / 4 % 4 = 0) : mirCtrl s p t w v = mirSwitch s p t w v := by
  rw [mirCtrl_eq, getLsbD_eq_decide, getLsbD_eq_decide, if_neg (by simp; omega), if_neg (by simp; omega)]

/-- An OFF window that is to be enabled. -/
theorem mirSwitch_on (off : mirEnabled s t w = false) (want : v.toNat % 2 = 1) : mirSwitch s p t w v =
    if mirAllowed s t w (decide (v.toNat / 2 % 2 = 1)) then mirOn (mirFields s t w v) t w
    else accessError (mirFields s t w v) { path := p, off := mirA t w 0 } 2 := by
  unfold mirSwitch
  rw [off, getLsbD_eq_decide]
  simp [want, mirFields_allowed, mirFields_receive]

/-- A change of an enabled window, which stays as it is. -/
theorem mirSwitch_stays (on : mirEnabled s t w = true) (want : v.toNat % 2 = 1) : mirSwitch s p t w v =
    if (mirFields s t w v).reg (mirA t w 0) ≠ s.reg (mirA t w 0)
    then accessError s { path := p, off := mirA t w 0 } 2 else s := by
  unfold mirSwitch
  rw [on, getLsbD_eq_decide]
  simp [want, eq_comm]

/-- An enabled window turns OFF. -/
theorem mirSwitch_off (on : mirEnabled s t w = true) (off : v.toNat % 2 = 0) : ∃ u, u.regs = s.regs ∧
    mirSwitch s p t w v = mirOff u t w := by
  unfold mirSwitch
  rw [on, getLsbD_eq_decide]
  simp only [off, Bool.not_true, Bool.false_eq_true, if_false, pow_zero, Nat.div_one, zero_ne_one, decide_false,
    Bool.not_false, Bool.and_self, if_true]
  refine ⟨_, ?_, rfl⟩
  split
  · exact post_regs ..
  · rfl

theorem exec_mirrorEnable {t : Fin 64} {w : Fin 4} (gate : ownerGate s p (mirA t.val w.val 0) = true) :
    exec (.mirrorEnable p t w v) s = .next (answer (mirCtrl s p t.val w.val v) .ok) :=
  congrArg _ (ownerWrite_gate gate ..)

/-- A word that is the window's own with bits outside ENABLE, ROLE and FILL_IDLE_MS leaves these as they stand. -/
theorem mirSwitch_same {c : Word} (on : mirEnabled s t w = true) (low : bits c.toNat 0 1 = 0)
    (role : bits c.toNat 1 1 = 0) (high : bits c.toNat 16 16 = 0) (least : 10 ≤ s.field (mirA t w 0) 16 16)
    (most : s.field (mirA t w 0) 16 16 ≤ 10000) : mirSwitch s p t w (s.reg (mirA t w 0) ||| c) = s := by
  have kept {lo n : Nat} (zero : bits c.toNat lo n = 0) :
      bits (s.reg (mirA t w 0) ||| c).toNat lo n = s.field (mirA t w 0) lo n := by
    rw [BitVec.toNat_or, bits_or, zero, Nat.or_zero, State.field]
  have want : (s.reg (mirA t w 0) ||| c).toNat % 2 = 1 := (kept low).trans (of_decide_eq_true on)
  rw [mirSwitch_stays on want, if_neg]
  exact not_not.2 (mirFields_same _ _ _ _ (kept role) (by rw [kept high, clampTo_of_mem least most]))

theorem exec_resync {t : Fin 64} {w : Fin 4} (gate : ownerGate s p (mirA t.val w.val 0) = true)
    (on : mirEnabled s t.val w.val = true) (source : mirReceive s t.val w.val = false)
    (invalid : (s.mirror (mirKey t.val w.val)).state = 3) (least : 10 ≤ s.field (mirA t.val w.val 0) 16 16)
    (most : s.field (mirA t.val w.val 0) 16 16 ≤ 10000) (plain : s.field (mirA t.val w.val 0) 3 1 = 0) :
    exec (.resync p t w) s = .next (answer (startFill s t.val w.val) .ok) := by
  have same := mirSwitch_same (p := p) (c := 4) on (by decide) (by decide) (by decide) least most
  have commit : (s.reg (mirA t.val w.val 0) ||| 4).getLsbD 3 = false := by
    rw [BitVec.getLsbD_or, getLsbD_eq_decide]
    simp only [State.field, bits, Nat.shiftRight_eq_div_pow] at plain
    exact Bool.or_eq_false_iff.2 ⟨decide_eq_false (by omega), rfl⟩
  have resync : (s.reg (mirA t.val w.val 0) ||| 4).getLsbD 2 = true := by
    rw [BitVec.getLsbD_or]
    exact Bool.or_true _
  refine (congrArg _ (ownerWrite_gate gate ..)).trans ?_
  rw [mirCtrl_eq, commit, resync, same, if_neg Bool.false_ne_true, if_pos rfl, mirResync, invalid, source]
  rfl

theorem exec_commit {t : Fin 64} {w : Fin 4} (gate : ownerGate s p (mirA t.val w.val 0) = true)
    (on : mirEnabled s t.val w.val = true) (filling : (s.mirror (mirKey t.val w.val)).state = 4)
    (least : 10 ≤ s.field (mirA t.val w.val 0) 16 16) (most : s.field (mirA t.val w.val 0) 16 16 ≤ 10000) :
    exec (.commit p t w) s = .next (answer (s.setMirror (mirKey t.val w.val)
      { s.mirror (mirKey t.val w.val) with state := 2 }) .ok) := by
  have same := mirSwitch_same (p := p) (c := 8) on (by decide) (by decide) (by decide) least most
  have commit : (s.reg (mirA t.val w.val 0) ||| 8).getLsbD 3 = true := by
    rw [BitVec.getLsbD_or]
    exact Bool.or_true _
  have noResync : mirResync s t.val w.val = s := if_neg (by rw [filling]; simp)
  refine (congrArg _ (ownerWrite_gate gate ..)).trans ?_
  rw [mirCtrl_eq, commit, same, noResync, ite_self, if_pos rfl, mirCommit, if_pos filling]

end

/-! ### Fills (R209, R564, R565) -/

section

variable {s : State} {t : Fin 64} {w : Fin 4}

theorem exec_mirrorFillLine_rests (rests : active s = false ∨ (s.mirror (mirKey t.val w.val)).state ≠ 1 ∨
    mirLines s t.val w.val ≤ (s.mirror (mirKey t.val w.val)).front ∨
    lineReady s t.val (mirBase s t.val w.val + 64 * (s.mirror (mirKey t.val w.val)).front) = false) :
    exec (.mirrorFillLine t w) s = .next s :=
  if_pos (by rcases rests with rest | rest | rest | rest <;> simp [rest])

theorem exec_mirrorFillDone_rests (rests : active s = false ∨ (s.mirror (mirKey t.val w.val)).state ≠ 1 ∨
    (s.mirror (mirKey t.val w.val)).front ≠ mirLines s t.val w.val ∨ fillOpen s t.val w.val = true) :
    exec (.mirrorFillDone t w) s = .next s :=
  if_neg (by rcases rests with rest | rest | rest | rest <;> simp [rest])

theorem exec_mirrorFillDone (acts : active s = true) (runs : (s.mirror (mirKey t.val w.val)).state = 1)
    (filled : (s.mirror (mirKey t.val w.val)).front = mirLines s t.val w.val)
    (quiet : fillOpen s t.val w.val = false) : exec (.mirrorFillDone t w) s =
      .next (s.setMirror (mirKey t.val w.val) { s.mirror (mirKey t.val w.val) with state := 2 }) :=
  if_pos (by simp [acts, runs, filled, quiet])

theorem exec_mirrorFillIdleTimeout_rests
    (rests : (s.mirror (mirKey t.val w.val)).state ≠ 4 ∨ s.power.pwrgd = false) :
    exec (.mirrorFillIdleTimeout t w) s = .next s :=
  if_neg (by rcases rests with rest | rest <;> simp [rest])

theorem exec_mirrorFillIdleTimeout (filling : (s.mirror (mirKey t.val w.val)).state = 4)
    (powered : s.power.pwrgd = true) : exec (.mirrorFillIdleTimeout t w) s = .next (mirrorInvalid (s.passTo
      ((s.mirror (mirKey t.val w.val)).idle + 1000000 * s.field (mirA t.val w.val 0) 16 16)) t.val w.val 4) :=
  if_pos (by simp [filling, powered])

/-- FRONT has advanced. -/
def frontAdvanced (s : State) (t w : Nat) : State :=
  s.setMirror (mirKey t w) { s.mirror (mirKey t w) with front := (s.mirror (mirKey t w)).front + 1 }

theorem frontAdvanced_mirror (s : State) (t w : Nat) : (frontAdvanced s t w).mirror (mirKey t w) =
    { s.mirror (mirKey t w) with front := (s.mirror (mirKey t w)).front + 1 } := State.mirror_setMirror_self ..

theorem readLines_mirrors (s : State) (t : Nat) (offs : List Nat) (hint : Hint) :
    (readLines s t offs hint).2.mirrors = s.mirrors :=
  (OnlyP.snd (readLines_only (.refl _ s) (.self _))).frame .mirrors (by decide)

theorem sendPacket_mirrors (s : State) (src : Endpoint) (purpose : Purpose) (p : Packet) :
    (sendPacket s src purpose p).mirrors = s.mirrors :=
  (sendPacket_only (.refl _ s) (.self _)).frame .mirrors (by decide)

theorem sendPacket_mem (s : State) (src : Endpoint) (purpose : Purpose) (p : Packet) :
    (sendPacket s src purpose p).mem = s.mem :=
  (sendPacket_only (.refl _ s) (.self _)).frame .mem (by decide)

/-- The line at FRONT is read and sent, unless it lies in the stash. -/
theorem exec_mirrorFillLine (acts : active s = true) (runs : (s.mirror (mirKey t.val w.val)).state = 1)
    (more : (s.mirror (mirKey t.val w.val)).front < mirLines s t.val w.val)
    (ready : lineReady s t.val (mirBase s t.val w.val + 64 * (s.mirror (mirKey t.val w.val)).front) = true) :
    ∃ u, exec (.mirrorFillLine t w) s = .next u ∧ u.mem = s.mem ∧
      u.mirrors = (frontAdvanced s t.val w.val).mirrors ∧
      (inStash s t.val (mirBase s t.val w.val + 64 * (s.mirror (mirKey t.val w.val)).front) = true →
        u.fabric = s.fabric) := by
  have mirrors (off : Nat) :
      (readLines (frontAdvanced s t.val w.val) t.val [off] .stream).2.mirrors = (frontAdvanced s t.val w.val).mirrors :=
    readLines_mirrors ..
  have mem (off : Nat) : (readLines (frontAdvanced s t.val w.val) t.val [off] .stream).2.mem = s.mem :=
    (readLines_mem ..).trans (State.setMirror_mem ..)
  change ∃ u, execMirrorFillLine t w s = _ ∧ _
  unfold execMirrorFillLine
  dsimp only
  rw [if_neg (by simp [acts, runs, ready, Nat.not_le.2 more]), ← frontAdvanced]
  split
  · exact ⟨_, rfl, State.setMirror_mem .., rfl, fun _ => State.setMirror_fabric ..⟩
  · next stash =>
    split
    · refine ⟨_, rfl, ?_, ?_, fun stashed => absurd stashed stash⟩
      · rw [sendPacket_mem, State.count64_mem]
        exact mem _
      · rw [sendPacket_mirrors, State.count64_mirrors]
        exact mirrors _
    · exact ⟨_, rfl, mem _, mirrors _, fun stashed => absurd stashed stash⟩

end

/-- Settles O45: each command by its equation, the control word's through what it does to a window. -/
theorem mirrors : Obligations.Mirrors := by
  refine ⟨?_, ?_, ?_, ?_, ?_, fun _ _ _ => exec_mirrorFillLine_rests, fun _ _ _ => exec_mirrorFillDone_rests,
    fun _ _ _ => exec_mirrorFillIdleTimeout_rests, fun _ _ _ _ => exec_resync, ?_, ?_,
    fun _ _ _ => exec_mirrorFillDone, ?_⟩
  · intro s p t w v gate off word fits
    have allowed : mirAllowed s t.val w.val (decide (v.toNat / 2 % 2 = 1)) = true := by
      rw [decide_eq_true (show v.toNat / 2 % 2 = 1 by omega)]
      exact Bool.and_eq_true_iff.2 ⟨decide_eq_true fits, rfl⟩
    have receive : mirReceive (mirFields s t.val w.val v) t.val w.val = true := by
      rw [mirFields_receive]
      exact decide_eq_true (by omega)
    refine ⟨_, exec_mirrorEnable gate, rfl, ?_⟩
    rw [mirCtrl_plain (by omega), mirSwitch_on off (by omega), if_pos allowed, mirOn_receives _ _ _ receive]
    refine ⟨?_, ?_, ?_⟩
    · rw [mirEnabled_congr _ _ _ (answer_regs ..), mirEnabled_congr _ _ _ (State.setMirror_regs ..),
        mirEnabled_setEnabled _ _ _ (by decide)]
      rfl
    · rw [mirReceive_congr _ _ _ (answer_regs ..), mirReceive_congr _ _ _ (State.setMirror_regs ..),
        mirReceive_setEnabled, receive]
    · rw [State.mirror_congr (answer_mirrors ..), State.mirror_setMirror_self, mirFields_now]
  · intro s p t w v gate off word allowed
    have allowed : mirAllowed s t.val w.val (decide (v.toNat / 2 % 2 = 1)) = true := by
      rw [decide_eq_false (show ¬ v.toNat / 2 % 2 = 1 by omega), allowed]
    have source : mirReceive (mirFields s t.val w.val v) t.val w.val = false := by
      rw [mirFields_receive]
      exact decide_eq_false (by omega)
    refine ⟨_, exec_mirrorEnable gate, rfl, ?_⟩
    rw [mirCtrl_plain (by omega), mirSwitch_on off (by omega), if_pos allowed, mirOn_sends _ _ _ source]
    refine ⟨?_, ?_, ?_⟩
    · rw [mirEnabled_congr _ _ _ (answer_regs ..), mirEnabled_congr _ _ _ (startFill_regs ..),
        mirEnabled_setEnabled _ _ _ (by decide)]
      rfl
    · rw [mirReceive_congr _ _ _ (answer_regs ..), mirReceive_congr _ _ _ (startFill_regs ..),
        mirReceive_setEnabled, source]
    · rw [State.mirror_congr (answer_mirrors ..), startFill_mirror, mirFields_dark]
  · intro s p t w v gate off want plain refused
    rw [exec_mirrorEnable gate, mirCtrl_plain plain, mirSwitch_on off want, refused, if_neg Bool.false_ne_true]
  · intro s p t w v gate on want plain changes
    rw [exec_mirrorEnable gate, mirCtrl_plain plain, mirSwitch_stays on want, if_pos changes]
  · intro s p t w v gate on want plain
    obtain ⟨u, regs, off⟩ := mirSwitch_off (p := p) on want
    have written : (mirOff u t.val w.val).regs = (u.setField (mirA t.val w.val 0) 0 1 0).regs := by
      rw [mirOff, mirrorLevel_regs, State.setMirror_regs]
    refine ⟨_, exec_mirrorEnable gate, rfl, ?_⟩
    rw [mirCtrl_plain plain, off]
    refine ⟨?_, ?_, ?_⟩
    · rw [mirEnabled_congr _ _ _ (answer_regs ..), mirEnabled_congr _ _ _ written,
        mirEnabled_setEnabled _ _ _ (by decide)]
      rfl
    · rw [mirReceive_congr _ _ _ (answer_regs ..), mirReceive_congr _ _ _ written, mirReceive_setEnabled,
        mirReceive_congr _ _ _ regs]
    · rw [State.mirror_congr (answer_mirrors ..), mirOff, mirrorLevel_mirror, State.mirror_setMirror_self]
  · intro s p t w gate on filling least most
    refine ⟨_, exec_commit gate on filling least most, rfl, ?_⟩
    rw [State.mirror_congr (answer_mirrors ..), State.mirror_setMirror_self]
  · intro s t w acts runs more ready
    obtain ⟨u, ran, mem, mirrors, stash⟩ := exec_mirrorFillLine acts runs more ready
    refine ⟨u, ran, mem, ?_, stash⟩
    rw [State.mirror_congr mirrors, frontAdvanced_mirror]
  · intro s t w filling powered
    refine ⟨_, exec_mirrorFillIdleTimeout filling powered, ?_⟩
    have same (at_ : Nat) : (s.passTo at_).mirror (mirKey t.val w.val) = s.mirror (mirKey t.val w.val) :=
      State.mirror_congr (State.passTo_mirrors ..) _
    rw [mirrorInvalid_open (Or.inr (by rw [same, filling]))]
    refine ⟨?_, ?_, ?_⟩
    · rw [mirrorLevel_mirror, State.mirror_setMirror_self, same]
    · rw [mirrorLevel_now, State.setMirror_now, State.passTo_now]
    · exact mirrorLevel_lost _ (k := mirKey t.val w.val) (by rw [State.mirror_setMirror_self])

end Sys2Proof.Machine

/-! Proofs of the obligations of spec/15_resilience.md: weather warnings and self-checkpoints. -/

namespace Sys2Proof.Machine

open Sys2Proof

/-! ### A self-checkpoint starts (R554) -/

section

variable (s : State) (p : Nat)

theorem selfCheck_setSelfCheck (x : SelfCheck) : selfCheck (setSelfCheck s p x) p = x := mget_mset_self ..

theorem selfCheck_setSelfCheck_other {k : Nat} (apart : k ≠ p) (x : SelfCheck) :
    selfCheck (setSelfCheck s k x) p = selfCheck s p := mget_mset_other _ _ _ apart

theorem selfCheck_congr {u : State} (same : u.rk = s.rk) : selfCheck u p = selfCheck s p := by
  unfold selfCheck
  rw [same]

variable {s p}

/-- A party with a sealed generation has a newest generation. -/
theorem partyGens_getLast {g : Gen} (newest : newestSealed s p = some g) :
    ∃ last, (partyGens s p).getLast? = some last := by
  have mem : g ∈ partyGens s p := List.mem_of_mem_filter (List.mem_of_getLast? newest)
  exact ⟨_, List.getLast?_eq_some_getLast (List.ne_nil_of_mem mem)⟩

/-- A self-checkpoint that begins runs, and is armed no longer. -/
theorem beginSelf_selfCheck (torn : Bool) (sealed : (newestSealed s p).isSome = true) :
    ∃ n failed, selfCheck (beginSelf s p torn) p =
      { selfCheck s p with armed := none, fenced := false, torn, running := some n, failed } := by
  obtain ⟨g, newest⟩ := Option.isSome_iff_exists.1 sealed
  obtain ⟨last, latest⟩ := partyGens_getLast newest
  unfold beginSelf
  rw [newest, latest]
  dsimp only
  split
  · exact ⟨_, _, selfCheck_setSelfCheck ..⟩
  · exact ⟨_, _, selfCheck_setSelfCheck ..⟩

theorem beginSelf_mem (torn : Bool) : (beginSelf s p torn).mem = s.mem :=
  (beginSelf_only (.refl _ s) (.self _)).frame .mem (by decide)

theorem beginSelf_now (torn : Bool) : (beginSelf s p torn).now = s.now :=
  (beginSelf_only (.refl _ s) (.self _)).frame .now (by decide)

theorem selfReady_sealed (ready : selfReady s p = true) : (newestSealed s p).isSome = true := by
  have pieces := (Bool.and_eq_true_iff.1 ready).2
  cases newest : newestSealed s p with
  | none => rw [newest] at pieces; nomatch pieces
  | some g => rfl

theorem lineReady_congr {u : State} (tiles : u.tiles = s.tiles) (channels : u.channels = s.channels) (t off : Nat) :
    lineReady u t off = lineReady s t off := by
  unfold lineReady State.channel
  rw [frontPassed_congr tiles, channels]

theorem descReady_congr {u : State} (tiles : u.tiles = s.tiles) (channels : u.channels = s.channels) (t : Nat)
    (d : Desc) : descReady u t d = descReady s t d := by
  unfold descReady linesReady
  exact List.all_congr rfl fun off => lineReady_congr tiles channels t off

/-- The wait for a voting fence of a self-checkpoint armed at `t` is over. -/
def selfWaited (s : State) (p t : Nat) : State :=
  setSelfCheck (s.passTo (t + 1000000 * s.field 0x10004 0 16)) p { selfCheck s p with fenced := true, torn := true }

theorem selfWaited_now (t : Nat) :
    (selfWaited s p t).now = max s.now (t + 1000000 * s.field 0x10004 0 16) := rfl

theorem selfWaited_selfCheck (t : Nat) :
    selfCheck (selfWaited s p t) p = { selfCheck s p with fenced := true, torn := true } :=
  selfCheck_setSelfCheck ..

theorem selfWaited_ready (t : Nat) : selfReady (selfWaited s p t) p = selfReady s p := by
  have open_ : openGen (selfWaited s p t) p = openGen s p := rfl
  have newest : newestSealed (selfWaited s p t) p = newestSealed s p := rfl
  have acts : active (selfWaited s p t) = active s := rfl
  have field : (selfWaited s p t).field 0x10000 14 1 = s.field 0x10000 14 1 := State.field_congr rfl ..
  have desc (k : Nat) (d : Desc) : descReady (selfWaited s p t) k d = descReady s k d := descReady_congr rfl rfl k d
  unfold selfReady
  rw [open_, newest, acts, field, selfWaited_selfCheck]
  simp only [desc]

end

/-! ### SELF_CHECKPOINT_START, SELF_WAIT_TIMEOUT (R554) -/

section

variable {s : State} {party : Fin 16}

theorem exec_selfCheckpointStart (armed : (selfCheck s party.val).armed.isSome = true)
    (fenced : (selfCheck s party.val).fenced = true) (ready : selfReady s party.val = true) :
    exec (.selfCheckpointStart party) s = .next (beginSelf s party.val (selfCheck s party.val).torn) :=
  if_pos (by rw [armed, fenced, ready]; rfl)

theorem exec_selfCheckpointStart_rests (rests : (selfCheck s party.val).armed.isNone = true ∨
    (selfCheck s party.val).fenced = false ∨ selfReady s party.val = false) :
    exec (.selfCheckpointStart party) s = .next s :=
  if_neg (by
    rcases rests with rest | rest | rest
    · simp [Option.isNone_iff_eq_none.1 rest]
    · simp [rest]
    · simp [rest])

theorem exec_selfWaitTimeout_rests (rests : (selfCheck s party.val).armed.isNone = true ∨
    (selfCheck s party.val).fenced = true ∨ active s = false) : exec (.selfWaitTimeout party) s = .next s := by
  change execSelfWaitTimeout party s = _
  unfold execSelfWaitTimeout
  dsimp only
  split
  · rfl
  · next t armed =>
    refine if_pos ?_
    rcases rests with rest | rest | rest
    · rw [armed] at rest
      nomatch rest
    · simp [rest]
    · simp [rest]

theorem exec_selfWaitTimeout {t : Nat} (armed : (selfCheck s party.val).armed = some t)
    (unfenced : (selfCheck s party.val).fenced = false) (acts : active s = true) :
    exec (.selfWaitTimeout party) s = .next (if selfReady s party.val
      then beginSelf (selfWaited s party.val t) party.val true else selfWaited s party.val t) := by
  rw [← selfWaited_ready t]
  change execSelfWaitTimeout party s = _
  unfold execSelfWaitTimeout
  dsimp only
  split
  · next unarmed => exact nomatch armed.symm.trans unarmed
  · next at_ arming =>
    obtain rfl := Option.some.inj (armed.symm.trans arming)
    refine (if_neg (by rw [unfenced, acts]; decide)).trans ?_
    rfl

end

/-! ### SELF_CHECKPOINT_DONE (R555) -/

section

variable {s : State} {party : Fin 16} {n : Word}

theorem selfEvent_rk (s : State) (p : Nat) (gen : Word) (result causes lost : Nat) :
    (selfEvent s p gen result causes lost).rk = s.rk :=
  (selfEvent_only (.refl _ s) (.self _)).frame .rk (by decide)

theorem countWritten_gens (s : State) (h k : Nat) : (countWritten s h k).rk.gens = s.rk.gens := by
  obtain ⟨wrote, same⟩ := countWritten_rk s h k
  rw [same]

theorem countWritten_selves (s : State) (h k : Nat) : (countWritten s h k).rk.selves = s.rk.selves := by
  obtain ⟨wrote, same⟩ := countWritten_rk s h k
  rw [same]

theorem putGen_selves (s : State) (x : Gen) : (putGen s x).rk.selves = s.rk.selves := rfl

/-- A self-checkpoint ends. -/
def selfEnded (s : State) (p : Nat) : State :=
  setSelfCheck s p { selfCheck s p with running := none, failed := false, torn := false, causes := 0 }

theorem selfEnded_selfCheck (s : State) (p : Nat) : selfCheck (selfEnded s p) p =
    { selfCheck s p with running := none, failed := false, torn := false, causes := 0 } := selfCheck_setSelfCheck ..

/-- Its generation is sealed, where it stands open. -/
theorem exec_selfCheckpointDone (running : (selfCheck s party.val).running = some n) :
    ∃ u, exec (.selfCheckpointDone party) s = .next u ∧
      selfCheck u party.val = selfCheck (selfEnded s party.val) party.val ∧
      ∀ g ∈ s.rk.gens, g.party = party.val → g.gen = n → g.sealed = false →
        ∃ y ∈ u.rk.gens, y.party = party.val ∧ y.gen = n ∧ y.sealed = true := by
  change ∃ u, execSelfCheckpointDone party s = _ ∧ _
  unfold execSelfCheckpointDone
  dsimp only
  rw [running]
  dsimp only
  rw [← selfEnded]
  split
  · next none =>
    refine ⟨_, rfl, selfCheck_congr _ _ (selfEvent_rk ..), fun g mem party gen opened => ?_⟩
    have := List.find?_eq_none.1 none g mem
    simp [party, gen, opened] at this
  · next g found =>
    have mem := List.mem_of_find?_eq_some found
    have named : (g.party = party.val ∧ g.gen = n) ∧ g.sealed = false := by simpa using List.find?_some found
    refine ⟨_, rfl, ?_, fun _ _ _ _ _ => ⟨{ g with sealed := true }, ?_, named.1.1, named.1.2, rfl⟩⟩
    · unfold selfCheck
      rw [selfEvent_rk, sealEvent_rk, putGen_selves, State.count32_rk, countWritten_selves, countWritten_selves]
    · rw [selfEvent_rk, sealEvent_rk]
      refine mem_putGen _ (g := g) ?_ rfl rfl
      rw [State.count32_rk, countWritten_gens, countWritten_gens]
      exact mem

end

/-! ### Categories (R541) -/

theorem testBit_catMask (cs : List Nat) (c : Nat) : (catMask cs).testBit c = decide (c ∈ cs) := by
  have fold (m : Nat) : (cs.foldl (fun m c => m ||| 2 ^ c) m).testBit c = (m.testBit c || decide (c ∈ cs)) := by
    induction cs generalizing m with
    | nil => simp
    | cons k ks ih =>
      rw [List.foldl_cons, ih, Nat.testBit_or, Nat.testBit_two_pow, Bool.or_assoc]
      simp [List.mem_cons, eq_comm]
  rw [catMask, fold, Nat.zero_testBit, Bool.false_or]

theorem catMask_ne_zero {cs : List Nat} {c : Nat} (mem : c ∈ cs) : catMask cs ≠ 0 := fun zero => by
  have bit := testBit_catMask cs c
  rw [zero, Nat.zero_testBit, decide_eq_true mem] at bit
  nomatch bit

/-! ### WEATHER_WINDOW (R540, R541, R553) -/

section

variable (s : State) (place : WxInstance)

/-- What the window found of the categories of its counters. -/
def wxFound : List WxResult := wxResults s place (wxCounters place) (mget {} s.weather place.id).counts

/-- The categories that reached their thresholds. -/
def wxHit : List WxResult := (wxFound s place).filter (·.reached)

/-- The counters' place as the window leaves it. -/
def wxWindow : Weather :=
  { counts := (wxCounters place).flatMap (fun c => wxValues s place c.2),
    standing := catMask ((wxHit s place).map (·.cat)), rise := (wxFound s place).map (·.rise) }

/-- The window is recorded and shown. -/
def wxShown : State := showWeather { s with weather := mset {} s.weather place.id (wxWindow s place) }

/-- The condition of the place's WEATHER. -/
def wxCond : Option LevelCond := (wxHit s place).head?.map (fun h =>
  { party := 0xFF, payload := (wxWindow s place).standing + 2 ^ 16 * min h.rise (2 ^ 32 - 1) +
      2 ^ 48 * wxThresh (wxShown s place) h.cat })

def wxLevelled : State := setLevel (wxShown s place) 0x70 (wxSource (wxShown s place) place) (wxCond s place)

/-- The categories that newly stand and may arm. -/
def wxCauses : List Nat := ((wxHit s place).map (·.cat)).filter (fun c =>
  (mget {} s.weather place.id).standing / 2 ^ c % 2 = 0 && wxArm (wxLevelled s place) c)

/-- The window's end. -/
def wxEnd : State :=
  if (wxWindow s place).standing = 0 then clearBlock (wxLevelled s place) place.id
  else armSelf (wxLevelled s place) (catMask (wxCauses s place))

theorem exec_weatherWindow {s : State} (powered : s.power.pwrgd = true) :
    exec (.weatherWindow place) s = .next (wxEnd s place) := by
  refine (if_neg (by rw [powered]; decide)).trans ?_
  unfold wxEnd
  by_cases none : (wxWindow s place).standing = 0
  · rw [if_pos none]
    exact if_pos none
  · rw [if_neg none]
    exact if_neg none

theorem showWeather_eq (s : State) : ∃ v, showWeather s = s.setReg 0x10008 v := ⟨_, rfl⟩

theorem wxShown_reg {a : Nat} (apart : 0x10008 ≠ a) : (wxShown s place).reg a = s.reg a := by
  obtain ⟨v, shown⟩ := showWeather_eq { s with weather := mset {} s.weather place.id (wxWindow s place) }
  rw [wxShown, shown, State.reg_setReg_other _ _ apart]
  rfl

theorem wxShown_now : (wxShown s place).now = s.now := by
  obtain ⟨v, shown⟩ := showWeather_eq { s with weather := mset {} s.weather place.id (wxWindow s place) }
  rw [wxShown, shown, State.setReg_now]

theorem wxShown_rk : (wxShown s place).rk = s.rk := by
  obtain ⟨v, shown⟩ := showWeather_eq { s with weather := mset {} s.weather place.id (wxWindow s place) }
  rw [wxShown, shown, State.setReg_rk]

theorem wxShown_itin : (wxShown s place).itin = s.itin := by
  obtain ⟨v, shown⟩ := showWeather_eq { s with weather := mset {} s.weather place.id (wxWindow s place) }
  rw [wxShown, shown, State.setReg_itin]

theorem wxShown_weather : (wxShown s place).weather = mset {} s.weather place.id (wxWindow s place) := by
  obtain ⟨v, shown⟩ := showWeather_eq { s with weather := mset {} s.weather place.id (wxWindow s place) }
  rw [wxShown, shown, State.setReg_weather]

theorem wxSource_congr {u : State} (same : u.itin = s.itin) : wxSource u place = wxSource s place := by
  cases place <;> simp only [wxSource, copperBridge, same]

theorem wxLevelled_eq :
    wxLevelled s place = setLevel (wxShown s place) 0x70 (wxSource s place) (wxCond s place) := by
  rw [wxLevelled, wxSource_congr _ _ (wxShown_itin s place)]

theorem setLevel_regs (cls src : Nat) (cond : Option LevelCond) : (setLevel s cls src cond).regs = s.regs :=
  (setLevel_only (.refl _ s) (.self _)).frame .regs (by decide)

theorem setLevel_now (cls src : Nat) (cond : Option LevelCond) : (setLevel s cls src cond).now = s.now :=
  (setLevel_only (.refl _ s) (.self _)).frame .now (by decide)

theorem setLevel_rk (cls src : Nat) (cond : Option LevelCond) : (setLevel s cls src cond).rk = s.rk :=
  (setLevel_only (.refl _ s) (.self _)).frame .rk (by decide)

theorem setLevel_weather (cls src : Nat) (cond : Option LevelCond) : (setLevel s cls src cond).weather = s.weather :=
  (setLevel_only (.refl _ s) (.self _)).frame .weather (by decide)

/-- A condition that is set false does not stand. -/
theorem setLevel_none (cls src : Nat) : mget none (setLevel s cls src none).nb.conds (levelKey cls src) = none := by
  unfold setLevel
  dsimp only
  split
  · next none_ => nomatch none_
  · exact mget_mset_self (none : Option LevelCond) s.nb.conds _ none

theorem wxLevelled_reg {a : Nat} (apart : 0x10008 ≠ a) : (wxLevelled s place).reg a = s.reg a := by
  rw [wxLevelled_eq, State.reg_congr (setLevel_regs ..), wxShown_reg _ _ apart]

theorem wxLevelled_rk : (wxLevelled s place).rk = s.rk := by
  rw [wxLevelled_eq, setLevel_rk, wxShown_rk]

theorem wxLevelled_now : (wxLevelled s place).now = s.now := by
  rw [wxLevelled_eq, setLevel_now, wxShown_now]

theorem wxLevelled_cond : (mget none (wxLevelled s place).nb.conds (levelKey 0x70 (wxSource s place))).isSome = true ↔
    ∃ r ∈ wxFound s place, r.reached = true := by
  rw [wxLevelled_eq]
  cases hits : wxHit s place with
  | nil =>
    have none : wxCond s place = none := by rw [wxCond, hits]; rfl
    rw [none, setLevel_none]
    refine iff_of_false Bool.false_ne_true fun ⟨r, mem, reached⟩ => ?_
    exact List.not_mem_nil (hits ▸ List.mem_filter.2 ⟨mem, reached⟩ : r ∈ [])
  | cons h hs =>
    have some : ∃ c, wxCond s place = some c := ⟨_, by rw [wxCond, hits]; rfl⟩
    obtain ⟨c, some⟩ := some
    rw [some, setLevel_cond]
    have mem : h ∈ wxHit s place := hits ▸ List.mem_cons_self
    exact iff_of_true rfl ⟨h, List.mem_filter.1 mem⟩

/-- To clear a warning, and to arm self-checkpoints, leaves the warnings as they stand. -/
theorem wxEnd_nb : (wxEnd s place).nb = (wxLevelled s place).nb := by
  unfold wxEnd
  split
  · exact (clearBlock_only (.refl _ _) (.self _)).frame .nb (by decide)
  · exact (armSelf_only (.refl _ _) (.self _)).frame .nb (by decide)

theorem wxEnd_weather : mget {} (wxEnd s place).weather place.id = wxWindow s place := by
  have kept : (wxEnd s place).weather = (wxLevelled s place).weather := by
    unfold wxEnd
    split
    · exact (clearBlock_only (.refl _ _) (.self _)).frame .weather (by decide)
    · exact (armSelf_only (.refl _ _) (.self _)).frame .weather (by decide)
  rw [kept, wxLevelled_eq, setLevel_weather, wxShown_weather, mget_mset_self]

/-! ### Arming (R553) -/

/-- What a party's turn to be armed reads. -/
def armView (p : Nat) (s : State) : SelfCheck × SMap (Option RegCell) × List Gen × Nat :=
  (selfCheck s p, s.regs, s.rk.gens, s.now)

/-- A party's self-checkpoint is armed, where the party qualifies. -/
def armParty (causes : Nat) (on : List Nat) (p : Nat) (s : State) : State :=
  let x := selfCheck s p
  if s.field 0x10000 (16 + p) 1 = 1 && (newestSealed s p).isSome && x.armed.isNone && x.running.isNone &&
      x.blocked.isEmpty then
    setSelfCheck s p { x with armed := some s.now, fenced := false, torn := false, causes, blocked := on }
  else s

theorem armParty_armView_other {causes k p : Nat} {on : List Nat} (apart : k ≠ p) :
    armView p (armParty causes on k s) = armView p s := by
  unfold armParty
  dsimp only
  split
  · unfold armView
    rw [selfCheck_setSelfCheck_other _ _ apart]
    rfl
  · rfl

theorem armSelf_eq {causes : Nat} (some : causes ≠ 0) (may : s.field 0x10000 14 1 = 1) : armSelf s causes =
    s.each (List.range 16) (armParty causes ((s.weather.filter (fun p => p.2.standing ≠ 0)).map (·.1))) :=
  if_neg (by simp [some, may])

variable {s}

/-- A party that qualifies is armed now. -/
theorem armSelf_arms {causes p : Nat} (some_ : causes ≠ 0) (may : s.field 0x10000 14 1 = 1) (low : p < 16)
    (checks : s.field 0x10000 (16 + p) 1 = 1) (sealed : (newestSealed s p).isSome = true)
    (unarmed : (selfCheck s p).armed = none) (rests : (selfCheck s p).running = none)
    (free : (selfCheck s p).blocked = []) :
    (selfCheck (armSelf s causes) p).armed = some s.now ∧ (selfCheck (armSelf s causes) p).fenced = false ∧
      (selfCheck (armSelf s causes) p).torn = false := by
  rw [armSelf_eq _ some_ may]
  obtain ⟨v, same, turn⟩ := (State.each_turn (armView p)
    (f := armParty causes ((s.weather.filter (fun p => p.2.standing ≠ 0)).map (·.1)))
    (fun k u apart => armParty_armView_other u apart) List.nodup_range s).2 (List.mem_range.2 low)
  simp only [armView, Prod.mk.injEq] at same
  obtain ⟨check, regs, gens, now⟩ := same
  have newest : newestSealed v p = newestSealed s p := by
    unfold newestSealed sealedGens partyGens
    rw [gens]
  rw [show selfCheck _ p = _ from congrArg Prod.fst turn]
  unfold armParty
  dsimp only [armView]
  rw [check, newest, now, State.field_congr regs, if_pos (by simp [checks, sealed, unarmed, rests, free]),
    selfCheck_setSelfCheck]
  exact ⟨rfl, rfl, rfl⟩

end

/-- A category that newly stands arms the parties that qualify. -/
theorem weatherWindow_arms {s : State} {place : WxInstance} {p : Fin 16} {r : WxResult}
    (mem : r ∈ wxFound s place) (reached : r.reached = true)
    (new : bits (mget {} s.weather place.id).standing r.cat 1 = 0) (arms : wxArm s r.cat = true)
    (may : s.field 0x10000 14 1 = 1) (checks : s.field 0x10000 (16 + p.val) 1 = 1)
    (sealed : (newestSealed s p.val).isSome = true) (unarmed : (selfCheck s p.val).armed = none)
    (rests : (selfCheck s p.val).running = none) (free : (selfCheck s p.val).blocked = []) :
    (selfCheck (wxEnd s place) p.val).armed = some s.now ∧ (selfCheck (wxEnd s place) p.val).fenced = false ∧
      (selfCheck (wxEnd s place) p.val).torn = false := by
  have hit : r.cat ∈ (wxHit s place).map (·.cat) :=
    List.mem_map.2 ⟨r, List.mem_filter.2 ⟨mem, reached⟩, rfl⟩
  have arm : wxArm (wxLevelled s place) r.cat = true := by
    have apart : (0x10008 : Nat) ≠ 0x10040 + 4 * r.cat := by omega
    unfold wxArm State.field at arms ⊢
    rwa [wxLevelled_reg _ _ apart]
  have cause : r.cat ∈ wxCauses s place := by
    rw [bits, Nat.shiftRight_eq_div_pow] at new
    exact List.mem_filter.2 ⟨hit, Bool.and_eq_true_iff.2 ⟨decide_eq_true new, arm⟩⟩
  have field (lo n : Nat) : (wxLevelled s place).field 0x10000 lo n = s.field 0x10000 lo n := by
    unfold State.field
    rw [wxLevelled_reg _ _ (by decide)]
  have newest : newestSealed (wxLevelled s place) p.val = newestSealed s p.val := by
    unfold newestSealed sealedGens partyGens
    rw [wxLevelled_rk]
  have check : selfCheck (wxLevelled s place) p.val = selfCheck s p.val := selfCheck_congr _ _ (wxLevelled_rk ..)
  have stands : (wxWindow s place).standing ≠ 0 := catMask_ne_zero hit
  rw [wxEnd, if_neg stands, ← wxLevelled_now s place]
  exact armSelf_arms (catMask_ne_zero cause) ((field ..).trans may) p.isLt ((field ..).trans checks)
    (by rw [newest, sealed]) (by rw [check, unarmed]) (by rw [check, rests]) (by rw [check, free])

/-- A port's window counts its one register, under category 8 (R573). -/
theorem wxFound_port {s : State} {n : Fin 8} {p : Fin 16} {o : Nat}
    (counts : (mget {} s.weather (WxInstance.port n p).id).counts = [o]) : wxFound s (.port n p) =
      [wxResult s 8 [o] [(s.reg (portA n.val p.val 0x18)).toNat]] := by
  rw [wxFound, counts]
  rfl

theorem wxHit_port {s : State} {n : Fin 8} {p : Fin 16} {o : Nat}
    (counts : (mget {} s.weather (WxInstance.port n p).id).counts = [o])
    (rises : o + s.field 0x10060 0 16 ≤ (s.reg (portA n.val p.val 0x18)).toNat) (counted : s.field 0x10060 0 16 ≠ 0) :
    wxHit s (.port n p) = [wxResult s 8 [o] [(s.reg (portA n.val p.val 0x18)).toNat]] := by
  have reached : (wxResult s 8 [o] [(s.reg (portA n.val p.val 0x18)).toNat]).reached = true := by
    have threshold : wxThresh s 8 = s.field 0x10060 0 16 := rfl
    unfold wxResult
    simp only [threshold, List.zip_cons_cons, List.zip_nil_right, List.foldl_cons, List.foldl_nil, Bool.and_eq_true,
      Bool.or_eq_true, decide_eq_true_eq]
    exact ⟨counted, Or.inl (by omega)⟩
  rw [wxHit, wxFound_port counts, List.filter_cons_of_pos reached, List.filter_nil]

/-- Settles O42: a window's end by what it finds, and a self-checkpoint by its equations from arming to its end. -/
theorem weatherAndSelfCheckpoints : Obligations.WeatherAndSelfCheckpoints := by
  refine ⟨fun s party armed fenced ready => ?_, fun _ _ => exec_selfCheckpointStart_rests,
    fun _ _ => exec_selfWaitTimeout_rests, ?_, fun s party t armed unfenced acts => ?_, fun s party n running => ?_,
    fun s place powered => ?_, fun s n p o powered counts rises counted => ?_⟩
  · obtain ⟨n, failed, check⟩ := beginSelf_selfCheck (selfCheck s party.val).torn (selfReady_sealed ready)
    refine ⟨_, exec_selfCheckpointStart armed fenced ready, ?_⟩
    rw [check, beginSelf_mem]
    exact ⟨rfl, rfl, rfl, rfl, rfl, rfl⟩
  · intro s place p r powered mem reached new arms may checks sealed unarmed rests free
    exact ⟨_, exec_weatherWindow place powered,
      weatherWindow_arms mem reached new arms may checks sealed unarmed rests free⟩
  · refine ⟨_, exec_selfWaitTimeout armed unfenced acts, ?_⟩
    cases ready : selfReady s party.val with
    | true =>
      obtain ⟨n, failed, check⟩ := beginSelf_selfCheck (s := selfWaited s party.val t) true
        (selfReady_sealed ((selfWaited_ready t).trans ready))
      rw [if_pos rfl, check, beginSelf_now]
      exact ⟨rfl, selfWaited_now t, fun _ => rfl, fun waits => nomatch waits⟩
    | false =>
      rw [if_neg Bool.false_ne_true, selfWaited_selfCheck]
      exact ⟨rfl, selfWaited_now t, fun starts => absurd starts Bool.false_ne_true,
        fun _ => ⟨armed, rfl⟩⟩
  · obtain ⟨u, ran, check, sealed⟩ := exec_selfCheckpointDone running
    rw [selfEnded_selfCheck] at check
    exact ⟨u, ran, by rw [check], by rw [check], by rw [check], sealed⟩
  · refine ⟨_, exec_weatherWindow place powered, ?_, ?_⟩
    · rw [wxEnd_weather, wxWindow]
    · rw [wxEnd_nb]
      exact wxLevelled_cond s place
  · have hit := wxHit_port counts rises counted
    refine ⟨_, exec_weatherWindow _ powered, ?_, ?_⟩
    · rw [wxEnd_weather, wxWindow, hit]
      change catMask [8] = 2 ^ 8
      decide
    · rw [wxEnd_nb]
      have mem := List.mem_filter.1 (hit ▸ List.mem_singleton_self _ : wxResult s 8 [o] _ ∈ wxHit s (.port n p))
      exact (wxLevelled_cond s (.port n p)).2 ⟨_, mem⟩

end Sys2Proof.Machine

/-! Proofs of the obligations of spec/13_itinerary_and_control.md: folds. -/

namespace Sys2Proof.Machine

open Sys2Proof

/-! ### The fold report (R494) -/

/-- The state with another fold report. -/
def reported (s : State) (r : List FoldEntry) (n : Nat) : State :=
  { s with itin := { s.itin with report := r, overflow := n } }

section

variable (s : State) (r : List FoldEntry) (n : Nat)

theorem reportEntry_reported (e : FoldEntry) : ∃ r n, reportEntry s e = reported s r n := by
  unfold reportEntry
  split
  · exact ⟨_, _, rfl⟩
  · exact ⟨_, _, rfl⟩

theorem reportEntries_reported {α : Type} (entry : α → FoldEntry) (xs : List α) :
    ∃ r n, xs.foldl (fun s x => reportEntry s (entry x)) s = reported s r n := by
  induction xs generalizing s with
  | nil => exact ⟨s.itin.report, s.itin.overflow, rfl⟩
  | cons x xs ih =>
    obtain ⟨r, n, first⟩ := reportEntry_reported s (entry x)
    obtain ⟨r', n', rest⟩ := ih (reportEntry s (entry x))
    exact ⟨r', n', by rw [List.foldl_cons, rest, first]; rfl⟩

/-! ### What a fold checks does not read its report (R485) -/

theorem parseSections_reported (k m o least : Nat) :
    parseSections (reported s r n) k m o least = parseSections s k m o least := by
  induction m generalizing o least with
  | zero => rfl
  | succ m ih =>
    have word (a : Nat) : imageWord (reported s r n) k a = imageWord s k a := rfl
    have length : imageLength (reported s r n) k = imageLength s k := rfl
    unfold parseSections
    simp only [word, length, ih]

theorem effective_reported (sel : Word) : effective (reported s r n) sel = effective s sel := by
  have sections (k : Nat) : slotSections (reported s r n) k = slotSections s k := parseSections_reported ..
  unfold effective
  simp only [sections]

theorem refusals_reported (sel : Word) : refusals (reported s r n) sel = refusals s sel := by
  unfold refusals
  rw [effective_reported]
  rfl

theorem clampSection_reported : clampSection (reported s r n) = clampSection s := rfl

end

/-! ### DEV_FOLD.GO (R484, R485, R487) -/

/-- The sections of a selection as they are clamped. -/
def foldSections (s : State) (sel : Word) : List Section :=
  (effective s sel).map (fun x => (clampSection s (newTorus (effective s sel)) x).1)

/-- What refuses the fold of a selection. -/
def foldRefusals (s : State) (sel : Word) : List FoldRefusal :=
  if refusals s sel = [] then quietRefusals s (foldSections s sel) else refusals s sel

/-- The code of a refusal: the lowest. -/
def foldCode (xs : List FoldRefusal) : Nat := xs.foldl (fun m x => if m = 0 then x.code else min m x.code) 0

/-- A fold refused with a code. -/
def foldRefused (s : State) (code : Nat) : State :=
  { s with itin := { s.itin with result := 2, reason := code, plan := none } }

/-- A fold planned. -/
def foldPlanned (s : State) (sel : Word) (boot : Bool) : State :=
  { s.used with itin := { s.itin with plan := some {
    sections := foldSections s sel, job := BitVec.ofNat 64 (imageWord s 0 0x10 + 2 ^ 32 * imageWord s 0 0x14), sel,
    instant := s.time + s.free % 12000001, boot } } }

section

variable (s : State) (sel : Word) (boot : Bool)

theorem refuseFold_eq (xs : List FoldRefusal) : ∃ r n, refuseFold s xs = foldRefused (reported s r n) (foldCode xs) := by
  obtain ⟨r, n, entries⟩ := reportEntries_reported s refusalEntry xs
  exact ⟨r, n, by rw [← entries]; rfl⟩

theorem foldSections_reported (r : List FoldEntry) (n : Nat) : foldSections (reported s r n) sel = foldSections s sel := by
  unfold foldSections
  rw [effective_reported, clampSection_reported]

/-- The clamped sections, as the clamping of each with its entries gives them. -/
theorem map_clampSection : ((effective s sel).map (clampSection s (newTorus (effective s sel)))).map (·.1) =
    foldSections s sel := List.map_map ..

theorem beginFold_eq : ∃ r n, beginFold s sel boot = if foldRefusals s sel = [] then foldPlanned (reported s r n) sel boot
    else foldRefused (reported s r n) (foldCode (foldRefusals s sel)) := by
  have checked : refusals { s with itin := { s.itin with report := [], overflow := 0 } } sel = refusals s sel :=
    refusals_reported ..
  have base : effective { s with itin := { s.itin with report := [], overflow := 0 } } sel = effective s sel :=
    effective_reported ..
  unfold beginFold
  dsimp only
  rw [checked, base]
  split
  · next passes =>
    have all : foldRefusals s sel = quietRefusals s (foldSections s sel) := if_pos passes
    rw [all]
    generalize entries : List.foldl reportEntry _ _ = v
    obtain ⟨r, n, same⟩ : ∃ r n, v = reported s r n := by
      obtain ⟨r, n, folded⟩ := reportEntries_reported { s with itin := { s.itin with report := [], overflow := 0 } } id _
      exact ⟨r, n, entries.symm.trans folded⟩
    subst same
    split
    · next quiet =>
      have quiet : quietRefusals s (foldSections s sel) = [] := by rw [← map_clampSection]; exact quiet
      refine ⟨r, n, ?_⟩
      rw [quiet, if_pos rfl, foldPlanned, foldSections_reported, ← map_clampSection]
      rfl
    · next loud =>
      have same : quietRefusals s (foldSections s sel) = quietRefusals s
          (((effective s sel).map (clampSection s (newTorus (effective s sel)))).map (·.1)) := by rw [map_clampSection]
      obtain ⟨r', n', refused⟩ := refuseFold_eq (reported s r n) (quietRefusals s (foldSections s sel))
      refine ⟨r', n', ?_⟩
      rw [if_neg (by rw [same]; exact loud)]
      rw [same] at refused ⊢
      exact refused
  · next refused =>
    obtain ⟨r, n, entries⟩ := refuseFold_eq { s with itin := { s.itin with report := [], overflow := 0 } } (refusals s sel)
    refine ⟨r, n, ?_⟩
    have all : foldRefusals s sel = refusals s sel := if_neg refused
    rw [all, if_neg refused, entries]
    rfl

end

/-! ### Blocks that fold leave the itinerary as it stands, but for its report (R493) -/

/-- The itinerary without its fold report. -/
def itinBut (s : State) : Itinerary := { s.itin with report := [], overflow := 0 }

section

variable (s : State)

theorem itinBut_congr {u : State} (same : u.itin = s.itin) : itinBut u = itinBut s := by
  unfold itinBut
  rw [same]

theorem reportClamp_itinBut (sect inst off bit written applied : Nat) :
    itinBut (reportClamp s sect inst off bit written applied) = itinBut s := by
  unfold reportClamp
  dsimp only
  generalize entry : reportEntry s _ = u
  obtain ⟨r, n, same⟩ : ∃ r n, u = reported s r n := by
    obtain ⟨r, n, same⟩ := reportEntry_reported s _
    exact ⟨r, n, entry.symm.trans same⟩
  have but : itinBut u = itinBut s := by rw [same]; rfl
  split
  · exact (itinBut_congr _ (post_itin ..)).trans but
  · exact but

theorem clampReg_itinBut (a inst off lo n min max : Nat) :
    itinBut (clampReg s a inst off lo n min max) = itinBut s := by
  unfold clampReg
  dsimp only
  split
  · rfl
  · exact (reportClamp_itinBut ..).trans (itinBut_congr _ (State.setField_itin ..))

theorem foldReg_itinBut (a : Nat) : itinBut (s.foldReg a) = itinBut s :=
  itinBut_congr _ ((State.foldReg_only (.refl _ s) (.self _)).frame .itin (by decide))

theorem foldXfer_itinBut (t : Nat) : itinBut (foldXfer s t) = itinBut s := by
  rw [foldXfer, itinBut_congr _ (State.setField_itin ..), clampReg_itinBut, clampReg_itinBut, foldReg_itinBut]

theorem foldRollCall_itinBut : itinBut (foldRollCall s) = itinBut s := by
  rw [foldRollCall, clampReg_itinBut, clampReg_itinBut, clampReg_itinBut, foldReg_itinBut, foldReg_itinBut]

theorem foldSlew_itinBut (t : Nat) : itinBut (foldSlew s t) = itinBut s := by
  have regs : itinBut ((s.foldReg (tilA t 0x9000)).foldReg (tilA t 0x9004)) = itinBut s := by
    rw [foldReg_itinBut, foldReg_itinBut]
  unfold foldSlew
  dsimp only
  split
  · exact regs
  · rw [reportClamp_itinBut, itinBut_congr _ (State.setField_itin ..), regs]

theorem foldLan_itinBut (n : Nat) : itinBut (foldLan s n) = itinBut s := by
  unfold foldLan
  dsimp only
  split
  · rw [reportClamp_itinBut, itinBut_congr _ (State.setField_itin ..), foldReg_itinBut]
  · exact foldReg_itinBut ..

theorem changePoint_itinBut (old : Nat) : itinBut (changePoint s old) = itinBut s :=
  itinBut_congr _ ((changePoint_only (.refl _ s) (.self _)).frame .itin (by decide))

theorem foldPower_itinBut : itinBut (foldPower s) = itinBut s := by
  unfold foldPower
  dsimp only
  rw [changePoint_itinBut]
  split
  · exact foldReg_itinBut ..
  · rw [reportClamp_itinBut, itinBut_congr _ (State.setField_itin ..), foldReg_itinBut]

/-- The memory registers of a tile, folded and held to their range. -/
def memRegs (t : Nat) : State :=
  let s := ((s.foldReg (tilA t 0x3000)).foldReg (tilA t 0x3008)).foldReg (tilA t 0x300C)
  let b := s.field (tilA t 0x3008) 0 18
  let n := s.field (tilA t 0x300C) 0 18
  if 147456 < b + n then
    reportClamp (s.setField (tilA t 0x300C) 0 18 (147456 - b)) 0 t 0x300C 0 n (147456 - b)
  else s

theorem memRegs_itinBut (t : Nat) : itinBut (memRegs s t) = itinBut s := by
  have regs : itinBut (((s.foldReg (tilA t 0x3000)).foldReg (tilA t 0x3008)).foldReg (tilA t 0x300C)) = itinBut s := by
    rw [foldReg_itinBut, foldReg_itinBut, foldReg_itinBut]
  unfold memRegs
  dsimp only
  split
  · rw [reportClamp_itinBut, itinBut_congr _ (State.setField_itin ..), regs]
  · exact regs

theorem foldMem_eq (t : Nat) : foldMem s t =
    if cacheUnits (memRegs s t) t = cacheUnits s t then memRegs s t
    else if cacheUnits (memRegs s t) t < cacheUnits s t
      then startZeroBasket (dropCache (memRegs s t) t) t ((96 - 8 * cacheUnits s t) * 128)
        ((96 - 8 * cacheUnits (memRegs s t) t) * 128)
      else clearWhere (dropCache (memRegs s t) t) t (basketBetween ((96 - 8 * cacheUnits (memRegs s t) t) * 128)
        ((96 - 8 * cacheUnits s t) * 128)) := rfl

theorem foldMem_itinBut (t : Nat) : itinBut (foldMem s t) = itinBut s := by
  have dropped : itinBut (dropCache (memRegs s t) t) = itinBut s :=
    (itinBut_congr _ ((dropCache_only (.refl _ _) (.self _)).frame .itin (by decide))).trans (memRegs_itinBut ..)
  rw [foldMem_eq]
  split
  · exact memRegs_itinBut ..
  · split
    · exact (itinBut_congr _ ((startZeroBasket_only (.refl _ _) (.self _)).frame .itin (by decide))).trans dropped
    · exact (itinBut_congr _ ((clearWhere_only (.refl _ _) (.self _)).frame .itin (by decide))).trans dropped

theorem strandRings_itinBut (t : Nat) : itinBut (strandRings s t) = itinBut s :=
  itinBut_congr _ ((strandRings_only (.refl _ s) (.self _)).frame .itin (by decide))

theorem foldMemory_itinBut (t : Nat) : itinBut (foldMemory s t) = itinBut s := by
  rw [foldMemory, strandRings_itinBut, foldMem_itinBut]

theorem foldMe_itinBut (t : Nat) : itinBut (foldMe s t) = itinBut s :=
  itinBut_congr _ ((foldMe_only (.refl _ s) (.self _)).frame .itin (by decide))

theorem foldFab_itinBut (t : Nat) : itinBut (foldFab s t) = itinBut s :=
  itinBut_congr _ ((foldFab_only (.refl _ s) (.self _)).frame .itin (by decide))

theorem stageTile_itinBut (ss : List Section) (t : Nat) : itinBut (stageTile ss t s) = itinBut s :=
  itinBut_congr _ ((stageTile_only (.refl _ s) (.self _)).frame .itin (by decide))

theorem stageWord_itinBut (ss : List Section) (ty inst o a : Nat) : itinBut (stageWord ss ty inst o a s) = itinBut s :=
  itinBut_congr _ ((stageWord_only (.refl _ s) (.self _)).frame .itin (by decide))

theorem foldTile_itinBut (ss : List Section) (t : Nat) : itinBut (foldTile ss t s) = itinBut s := by
  rw [foldTile, foldSlew_itinBut, foldFab_itinBut, foldXfer_itinBut, foldReg_itinBut, foldMe_itinBut,
    foldMemory_itinBut, stageTile_itinBut]

theorem foldDevice_itinBut (ss : List Section) : itinBut (foldDevice ss s) = itinBut s := by
  unfold foldDevice
  dsimp only
  unfold State.each
  rw [foldl_view itinBut fun n _ u => by rw [foldLan_itinBut, stageWord_itinBut], foldPower_itinBut, foldReg_itinBut,
    foldReg_itinBut, foldRollCall_itinBut, stageWord_itinBut, stageWord_itinBut, stageWord_itinBut, stageWord_itinBut,
    stageWord_itinBut]
  split
  · exact itinBut_congr _ ((State.setReg_itin ..).trans (State.setReg_itin ..))
  · rfl

end

/-! ### The fold instant (R487, R488) -/

section

variable (s : State) (f : FoldPlan)

/-- Every block, team and party at the instant. -/
def foldGathered : State :=
  let blocks := (foldTeams s.itin.force f.sections (foldDevice f.sections s)).each (List.range 64) (foldTile f.sections)
  let parties := foldParties s f.sections blocks
  foldKey (if !s.itin.folded then firstFold parties else stopOld s.itin.force f.sections parties)

/-- The fold has taken effect, but for the writes held. -/
def foldTaken : State :=
  remeasure (foldServo (!s.itin.folded) (foldLinks s.itin.force f.sections (!s.itin.folded)
    (recordFold (foldGathered s f) f))) f.sel

theorem applyFold_eq : applyFold s f = performHeld (foldTaken s f) := rfl

theorem foldGathered_itinBut : itinBut (foldGathered s f) = itinBut s := by
  have blocks : itinBut ((foldTeams s.itin.force f.sections (foldDevice f.sections s)).each (List.range 64)
      (foldTile f.sections)) = itinBut s := by
    unfold State.each
    rw [foldl_view itinBut fun t _ u => foldTile_itinBut u f.sections t,
      itinBut_congr _ ((foldTeams_only (.refl _ _) (.self _)).frame .itin (by decide)), foldDevice_itinBut]
  unfold foldGathered
  dsimp only
  generalize State.each _ _ _ = u at blocks ⊢
  have parties : itinBut (foldParties s f.sections u) = itinBut s :=
    (itinBut_congr _ ((foldParties_only (.refl _ u) (.self _)).frame .itin (by decide))).trans blocks
  have key (v : State) : itinBut (foldKey v) = itinBut v := rfl
  rw [key]
  split
  · exact parties
  · exact (itinBut_congr _ ((stopOld_only (.refl _ _) (.self _)).frame .itin (by decide))).trans parties

/-- The itinerary that the record of a fold leaves (R487). -/
def itinRecorded (x : Itinerary) (f : FoldPlan) : Itinerary :=
  { x with
    plan := none, force := f.sections, result := 1, reason := 0, count := x.count + 1, active := f.sel,
    foldTime := BitVec.ofNat 64 f.instant, job := f.job, folded := true,
    bootFolded := if x.folded then x.bootFolded else f.boot, applied := if x.folded then x.applied else f.sections }

theorem recordFold_itin : (recordFold s f).itin = itinRecorded s.itin f := by
  have boot (u : State) : (bootEvent u 1 0).itin = u.itin :=
    (bootEvent_only (.refl _ u) (.self _)).frame .itin (by decide)
  unfold recordFold
  dsimp only
  split
  · rw [boot, post_itin, itinRecorded]
  · rw [post_itin, itinRecorded]

theorem foldTaken_itin : (foldTaken s f).itin = itinRecorded (foldGathered s f).itin f := by
  have links (old ss : List Section) (first : Bool) (u : State) : (foldLinks old ss first u).itin = u.itin :=
    (foldLinks_only (.refl _ u) (.self _)).frame .itin (by decide)
  have servo (first : Bool) (u : State) : (foldServo first u).itin = u.itin :=
    (foldServo_only (.refl _ u) (.self _)).frame .itin (by decide)
  have measured (u : State) (sel : Word) : (remeasure u sel).itin = u.itin :=
    (remeasure_only (.refl _ u) (.self _)).frame .itin (by decide)
  rw [foldTaken, measured, servo, links, recordFold_itin]

/-- The fold's record, but for its report. -/
theorem foldTaken_itinBut : itinBut (foldTaken s f) = itinRecorded (itinBut s) f := by
  rw [← foldGathered_itinBut s f, itinBut, foldTaken_itin]
  rfl

variable {s f} in
/-- The fields of a fold's record. -/
theorem itinRecorded_fields {u x : State} (same : itinBut u = itinRecorded (itinBut x) f) :
    u.itin.plan = none ∧ u.itin.force = f.sections ∧ u.itin.result = 1 ∧ u.itin.count = x.itin.count + 1 ∧
      u.itin.active = f.sel ∧ u.itin.folded = true ∧ u.itin.job = f.job ∧
      u.itin.foldTime = BitVec.ofNat 64 f.instant ∧ u.itin.heldWrites = x.itin.heldWrites :=
  ⟨congrArg Itinerary.plan same, congrArg Itinerary.force same, congrArg Itinerary.result same,
    congrArg Itinerary.count same, congrArg Itinerary.active same, congrArg Itinerary.folded same,
    congrArg Itinerary.job same, congrArg Itinerary.foldTime same, (congrArg Itinerary.heldWrites same :)⟩

theorem applyFold_now : (applyFold s f).now = s.now := (applyFold_only (.refl _ s) (.self _)).frame .now (by decide)

end

/-- Without writes held nothing is performed. -/
theorem performHeld_none {s : State} (none : s.itin.heldWrites = []) : performHeld s = s := by
  unfold performHeld
  rw [none, List.foldl_nil, ← none]

theorem exec_foldInstant {s : State} {f : FoldPlan} (plan : s.itin.plan = some f) (runs : panelRuns s = true)
    (stage : 9 ≤ s.power.stage) : exec .foldInstant s = .next (applyFold (passToTime s f.instant) f) := by
  change execFoldInstant s = _
  unfold execFoldInstant
  rw [plan]
  exact if_neg (by simp [runs, Nat.not_lt.2 stage])

theorem passToTime_itin (s : State) (t : Nat) : (passToTime s t).itin = s.itin := State.passTo_itin ..

theorem passToTime_now (s : State) (t : Nat) : s.now ≤ (passToTime s t).now := by
  rw [passToTime, State.passTo_now]
  exact Nat.le_max_left ..

/-! ### DEV_FOLD.GO -/

section

variable {s : State} {p : Path}

/-- A fold through an open gate begins at once, as no fold is in progress. -/
theorem exec_foldGo_gate (gate : ownerGate s p 0x8020 = true) :
    exec (.foldGo p) s = .next (answer (beginFold s s.itin.sel false) .ok) :=
  congrArg _ (itinWrite_gate _ _ gate)

theorem foldGo_refused (gate : ownerGate s p 0x8020 = true) (refused : foldRefusals s s.itin.sel ≠ []) :
    ∃ u, exec (.foldGo p) s = .next u ∧ u.reply.status = .ok ∧ u.itin.plan = none ∧ u.itin.result = 2 ∧
      u.itin.reason = foldCode (foldRefusals s s.itin.sel) ∧ u.itin.force = s.itin.force ∧
      u.itin.count = s.itin.count := by
  obtain ⟨r, n, begun⟩ := beginFold_eq s s.itin.sel false
  rw [if_neg refused] at begun
  exact ⟨_, exec_foldGo_gate gate, by rw [begun]; exact ⟨rfl, rfl, rfl, rfl, rfl, rfl⟩⟩

theorem foldGo_planned (gate : ownerGate s p 0x8020 = true) (passes : foldRefusals s s.itin.sel = []) :
    ∃ u f, exec (.foldGo p) s = .next u ∧ u.reply.status = .ok ∧ u.itin.plan = some f ∧ f.sel = s.itin.sel ∧
      f.boot = false ∧ s.time ≤ f.instant ∧ f.instant ≤ s.time + 12000000 ∧ u.itin.force = s.itin.force := by
  obtain ⟨r, n, begun⟩ := beginFold_eq s s.itin.sel false
  rw [if_pos passes] at begun
  refine ⟨_, _, exec_foldGo_gate gate, rfl, by rw [begun]; rfl, rfl, rfl, ?_, ?_, by rw [begun]; rfl⟩
  · exact Nat.le_add_right ..
  · exact Nat.add_le_add_left (Nat.le_of_lt_succ (Nat.mod_lt _ (by decide))) _

/-- A slot that is not VALID refuses its selection with code 1 (R485). -/
theorem foldRefusals_invalid {sel : Word} (invalid : ∃ k ∈ 0 :: selected sel, (s.slot k).state ≠ .valid) :
    foldRefusals s sel ≠ [] ∧ foldCode (foldRefusals s sel) = 1 := by
  obtain ⟨k, mem, state⟩ := invalid
  have bad : k ∈ (0 :: selected sel).filter (fun k => (s.slot k).state ≠ .valid) :=
    List.mem_filter.2 ⟨mem, decide_eq_true state⟩
  obtain ⟨b, bs, cons⟩ := List.exists_cons_of_ne_nil (List.ne_nil_of_mem bad)
  have codes : refusals s sel = (b :: bs).map (fun _ => { code := 1 }) := by
    unfold refusals
    dsimp only
    rw [cons]
    rfl
  have all : foldRefusals s sel = refusals s sel := if_neg (by rw [codes]; exact List.cons_ne_nil _ _)
  have ones (l : List Nat) : (l.map (fun _ => ({ code := 1 } : FoldRefusal))).foldl
      (fun m x => if m = 0 then x.code else min m x.code) 1 = 1 := by
    induction l with
    | nil => rfl
    | cons _ _ ih => exact ih
  rw [all, codes]
  exact ⟨List.cons_ne_nil _ _, ones bs⟩

end

/-! ### BOOT_FOLD (R491) -/

section

variable {s : State}

theorem exec_bootFold_none (runs : panelRuns s = true) (stage : s.power.stage = 8) (first : s.itin.folded = false)
    (idle : s.itin.plan = none) (held : s.itin.bootStore = none) : exec .bootFold s = .next
      (post { s with power := { s.power with stage := 9 } } 0x06 (srcDevice 2) 0) := by
  change execBootFold s = _
  unfold execBootFold
  rw [if_neg (by simp [runs, stage, first, idle])]
  dsimp only
  rw [held]
  rfl

/-- The boot itinerary in the store, its slots verified and its job key unwrapped. -/
def bootLoaded (s : State) (store : SMap Word) (ks : List Nat) (sel : Word) : State :=
  let s := { s with power := { s.power with stage := 9 } }
  let s := { s with itin := { s.itin with store, slots := [], sel } }
  unwrapKey (s.each ks (fun k s => s.setSlot k (verdict s k)))

theorem bootLoaded_stage (store : SMap Word) (ks : List Nat) (sel : Word) :
    (bootLoaded s store ks sel).power.stage = 9 := by
  have slots (u : State) : (u.each ks (fun k s => s.setSlot k (verdict s k))).power = u.power :=
    foldl_view (f := fun s k => s.setSlot k (verdict s k)) State.power (fun _ _ _ => rfl) u
  have key (u : State) : (unwrapKey u).power = u.power :=
    (unwrapKey_only (.refl _ u) (.self _)).frame .power (by decide)
  rw [bootLoaded, key, slots]

/-- What stands of the boot itinerary. -/
theorem bootLoaded_itin (store : SMap Word) (ks : List Nat) (sel : Word) :
    (bootLoaded s store ks sel).itin.store = store ∧ (bootLoaded s store ks sel).itin.sel = sel := by
  have slots (u : State) : (fun v : State => (v.itin.store, v.itin.sel)) (u.each ks (fun k s => s.setSlot k (verdict s k))) =
      (u.itin.store, u.itin.sel) :=
    foldl_view (f := fun s k => s.setSlot k (verdict s k)) (fun v : State => (v.itin.store, v.itin.sel))
      (fun _ _ _ => rfl) u
  have key (u : State) : (unwrapKey u).itin = u.itin :=
    (unwrapKey_only (.refl _ u) (.self _)).frame .itin (by decide)
  rw [bootLoaded, key]
  exact Prod.mk.inj (slots _)

/-- The boot fold: what was held is folded, and a refusal is reported. -/
theorem exec_bootFold_some {store : SMap Word} {ks : List Nat} {sel : Word} (runs : panelRuns s = true)
    (stage : s.power.stage = 8) (first : s.itin.folded = false) (idle : s.itin.plan = none)
    (held : s.itin.bootStore = some (store, ks, sel)) : exec .bootFold s = .next
      (if (beginFold (bootLoaded s store ks sel) sel true).itin.plan.isSome
        then beginFold (bootLoaded s store ks sel) sel true
        else bootEvent (beginFold (bootLoaded s store ks sel) sel true) 2
          (beginFold (bootLoaded s store ks sel) sel true).itin.reason) := by
  change execBootFold s = _
  unfold execBootFold
  rw [if_neg (by simp [runs, stage, first, idle])]
  dsimp only
  split
  · next empty => exact nomatch held.symm.trans empty
  · next boot =>
    obtain ⟨rfl, rfl, rfl⟩ : store = _ ∧ ks = _ ∧ sel = _ := by
      simpa only [Option.some.injEq, Prod.mk.injEq] using held.symm.trans boot
    rw [apply_ite Host.Outcome.next]
    rfl

/-- A fold that begins keeps the store and the selection, and plans, if it does, what was asked of it. -/
theorem beginFold_itin (s : State) (sel : Word) (boot : Bool) :
    (beginFold s sel boot).itin.store = s.itin.store ∧ (beginFold s sel boot).itin.sel = s.itin.sel ∧
      ∀ f, (beginFold s sel boot).itin.plan = some f → f.boot = boot ∧ f.sel = sel := by
  obtain ⟨r, n, begun⟩ := beginFold_eq s sel boot
  rw [begun]
  split
  · refine ⟨rfl, rfl, fun f plan => ?_⟩
    rw [← Option.some.inj plan]
    exact ⟨rfl, rfl⟩
  · exact ⟨rfl, rfl, fun f plan => nomatch plan⟩

theorem bootFold_some {store : SMap Word} {ks : List Nat} {sel : Word} (runs : panelRuns s = true)
    (stage : s.power.stage = 8) (first : s.itin.folded = false) (idle : s.itin.plan = none)
    (held : s.itin.bootStore = some (store, ks, sel)) :
    ∃ u, exec .bootFold s = .next u ∧ u.power.stage = 9 ∧ u.itin.store = store ∧ u.itin.sel = sel ∧
      (∀ f, u.itin.plan = some f → f.boot = true ∧ f.sel = sel) := by
  let v := beginFold (bootLoaded s store ks sel) sel true
  have event : ∀ u : State, (u.itin = v.itin ∧ u.power = v.power) → u.power.stage = 9 ∧ u.itin.store = store ∧
      u.itin.sel = sel ∧ ∀ f, u.itin.plan = some f → f.boot = true ∧ f.sel = sel := by
    rintro u ⟨itin, power⟩
    have stage : v.power = (bootLoaded s store ks sel).power :=
      (beginFold_only (.refl _ _) (.self _)).frame .power (by decide)
    obtain ⟨keptStore, keptSel, plans⟩ := beginFold_itin (bootLoaded s store ks sel) sel true
    obtain ⟨loadedStore, loadedSel⟩ := bootLoaded_itin (s := s) store ks sel
    rw [itin, power, stage, bootLoaded_stage]
    exact ⟨rfl, keptStore.trans loadedStore, keptSel.trans loadedSel, plans⟩
  refine ⟨_, exec_bootFold_some runs stage first idle held, ?_⟩
  split
  · exact event _ ⟨rfl, rfl⟩
  · exact event _ ⟨(bootEvent_only (.refl _ v) (.self _)).frame .itin (by decide),
      (bootEvent_only (.refl _ v) (.self _)).frame .power (by decide)⟩

end

/-- Settles O37: a fold begins as its checks decide, and its instant leaves the record of the fold in the itinerary. -/
theorem folds : Obligations.Folds := by
  refine ⟨fun s p gate invalid => ?_, fun s p gate => ?_, fun s p gate passes quiet => ?_,
    ?_, ?_, fun s runs stage first idle held => ?_, fun _ _ _ _ => bootFold_some⟩
  · obtain ⟨refused, code⟩ := foldRefusals_invalid invalid
    obtain ⟨u, ran, ok, plan, result, reason, same⟩ := foldGo_refused gate refused
    exact ⟨u, ran, ok, plan, result, reason.trans code, same⟩
  · exact fun refused => foldGo_refused gate refused
  · exact foldGo_planned gate ((if_pos passes).trans quiet)
  · intro s f plan runs stage held
    obtain ⟨empty, force, result, count, active, folded, job, time, writes⟩ :=
      itinRecorded_fields (foldTaken_itinBut (passToTime s f.instant) f)
    rw [passToTime_itin] at count writes
    have none := performHeld_none (writes.trans held)
    have later : s.now ≤ (foldTaken (passToTime s f.instant) f).now := by
      rw [← none, ← applyFold_eq, applyFold_now]
      exact passToTime_now ..
    exact ⟨_, (exec_foldInstant plan runs stage).trans (congrArg _ ((applyFold_eq ..).trans none)), empty, force,
      result, count, active, folded, job, time, later⟩
  · intro s f plan runs stage
    obtain ⟨empty, force, -, count, -, -, -, -, writes⟩ :=
      itinRecorded_fields (foldTaken_itinBut (passToTime s f.instant) f)
    rw [passToTime_itin] at count writes
    exact ⟨_, (exec_foldInstant plan runs stage).trans (congrArg _ (applyFold_eq ..)), writes, empty, force, count⟩
  · exact ⟨_, exec_bootFold_none runs stage first idle held, by rw [post_power], by rw [post_itin], rfl⟩

end Sys2Proof.Machine

/-! Proofs of the obligations of spec/11_copper_and_host.md: the host ports' functions. -/

namespace Sys2Proof.Machine

open Sys2Proof

/-! ### Messages that wait leave a function's enables as they are (R515, R522) -/

/-- A function without its pending message. -/
def fnBut (x : FnState) : FnState := { x with vecPending := false }

theorem fnBut_fields {x y : FnState} (same : fnBut x = fnBut y) : x.memEnable = y.memEnable ∧
    x.busMaster = y.busMaster ∧ x.fnMask = y.fnMask ∧ x.msixEnable = y.msixEnable :=
  ⟨(congrArg FnState.memEnable same :), (congrArg FnState.busMaster same :), (congrArg FnState.fnMask same :),
    (congrArg FnState.msixEnable same :)⟩

section

variable (s : State) (f : Fn)

theorem setFn_fnBut_pending (g : Fn) (x : FnState) (same : fnBut x = fnBut (s.fn g)) :
    fnBut ((s.setFn g x).fn f) = fnBut (s.fn f) := by
  by_cases own : g = f
  · rw [← own, State.fn_setFn_self, same]
  · rw [State.fn_setFn_other _ _ own]

theorem sendInterrupt_fnBut (r : Nat) : fnBut ((sendInterrupt s r).fn f) = fnBut (s.fn f) := by
  unfold sendInterrupt
  dsimp only
  split
  · split
    · exact setFn_fnBut_pending _ _ _ _ rfl
    · rfl
  · rfl

theorem releaseAll_fnBut : fnBut ((releaseAll s).fn f) = fnBut (s.fn f) := by
  refine foldl_view (f := fun u r => releaseHeld u r) (fun u : State => fnBut (u.fn f)) (fun r _ u => ?_) s
  unfold releaseHeld
  dsimp only
  split
  · exact sendInterrupt_fnBut u f r
  · rfl

theorem flushPending_fnBut (g : Fn) : fnBut ((flushPending s g).fn f) = fnBut (s.fn f) := by
  unfold flushPending
  dsimp only
  split
  · exact setFn_fnBut_pending _ _ _ _ rfl
  · rfl

/-- What waited goes after an enable of a function. -/
theorem enabled_fnBut : fnBut ((flushPending (releaseAll s) f).fn f) = fnBut (s.fn f) :=
  (flushPending_fnBut ..).trans (releaseAll_fnBut ..)

end

/-! ### Configuration requests (R441, R442, R515) -/

section

variable {s : State} {f : Fn} {reg : ConfigReg} {w : Option Word} {v : Word}

theorem bits_eq_getLsbD (v : Word) (k : Nat) : decide (bits v.toNat k 1 = 1) = v.getLsbD k := by
  rw [getLsbD_eq_decide, bits, Nat.shiftRight_eq_div_pow]
  rfl

theorem exec_configRequest_retry (powered : s.power.pwrgd = true) (unready : s.field (hostA f.port.val 0) 9 1 = 0) :
    exec (.configRequest f reg w) s = .next (answer s .retry) := by
  change execConfigRequest f reg w s = _
  unfold execConfigRequest
  rw [if_neg (by rw [powered]; decide), if_pos unready]

section

variable (powered : s.power.pwrgd = true) (ready : s.field (hostA f.port.val 0) 9 1 ≠ 0)
include powered ready

theorem exec_configRequest_gone (gone : fnExists s f = false) :
    exec (.configRequest f reg w) s = .next (answer s .unsupported) := by
  change execConfigRequest f reg w s = _
  unfold execConfigRequest
  rw [if_neg (by rw [powered]; decide), if_neg ready, gone]
  rfl

variable (lives : fnExists s f = true)
include lives

theorem exec_configRequest_read :
    exec (.configRequest f reg none) s = .next (answer s .ok ((configRead s f reg).map (BitVec.ofNat 32))) := by
  change execConfigRequest f reg none s = _
  unfold execConfigRequest
  rw [if_neg (by rw [powered]; decide), if_neg ready, lives]
  rfl

theorem exec_configRequest_write :
    exec (.configRequest f reg (some v)) s = .next (answer (configWrite s f v reg) .ok) := by
  change execConfigRequest f reg (some v) s = _
  unfold execConfigRequest
  rw [if_neg (by rw [powered]; decide), if_neg ready, lives]
  rfl

end

/-- The functions of a port but its first are its VFs. -/
theorem portFns_drop_vf (h : Fin 2) : ∀ g ∈ (portFns h).drop 1, g.vf ≠ 0 := by
  revert h
  decide

/-- Words that a write does not reach. -/
theorem configWrite_kept (kept : reg ∈ [ConfigReg.ids, .classRev, .subsystem, .vfDevice] ∨
    reg = .sriovControl ∧ f.vf ≠ 0) : configWrite s f v reg = s := by
  rcases kept with named | ⟨rfl, virtual⟩
  · simp only [List.mem_cons, List.not_mem_nil, or_false] at named
    rcases named with rfl | rfl | rfl | rfl <;> rfl
  · exact if_pos virtual

/-- An enable that a write sets. -/
theorem configWrite_enables {x : FnState} :
    let y := (flushPending (releaseAll (s.setFn f x)) f).fn f
    y.memEnable = x.memEnable ∧ y.busMaster = x.busMaster ∧ y.fnMask = x.fnMask ∧ y.msixEnable = x.msixEnable := by
  have same := enabled_fnBut (s.setFn f x) f
  rw [State.fn_setFn_self] at same
  exact fnBut_fields same

theorem configWrite_command : ((configWrite s f v .command).fn f).memEnable = v.getLsbD 1 ∧
    ((configWrite s f v .command).fn f).busMaster = v.getLsbD 2 := by
  rw [← bits_eq_getLsbD, ← bits_eq_getLsbD]
  unfold configWrite
  obtain ⟨mem, master, -, -⟩ := configWrite_enables (s := s) (f := f)
    (x := { s.fn f with memEnable := bits v.toNat 1 1 = 1, busMaster := bits v.toNat 2 1 = 1 })
  exact ⟨mem, master⟩

theorem configWrite_msix : ((configWrite s f v .msixControl).fn f).fnMask = v.getLsbD 14 ∧
    ((configWrite s f v .msixControl).fn f).msixEnable = v.getLsbD 15 := by
  rw [← bits_eq_getLsbD, ← bits_eq_getLsbD]
  unfold configWrite
  obtain ⟨-, -, mask, msix⟩ := configWrite_enables (s := s) (f := f)
    (x := { s.fn f with fnMask := bits v.toNat 14 1 = 1, msixEnable := bits v.toNat 15 1 = 1 })
  exact ⟨mask, msix⟩

theorem configWrite_bar (i : Fin 6) : mget 0 ((configWrite s f v (.bar i)).fn f).bar i.val =
    BitVec.ofNat 32 (v.toNat &&& barMask f i.val) := by
  change mget 0 ((s.setFn f _).fn f).bar i.val = _
  rw [State.fn_setFn_self]
  exact mget_mset_self ..

theorem configWrite_sriov (physical : f.vf = 0) :
    ((configWrite s f v .sriovControl).fn f).vfEnable = v.getLsbD 0 := by
  have virtual (fs : List Fn) (others : ∀ g ∈ fs, g ≠ f) (u : State) :
      (fs.foldl (fun s g => s.setFn g {}) u).fn f = u.fn f :=
    foldl_view (f := fun s g => s.setFn g {}) (fun u : State => u.fn f)
      (fun g mem u => State.fn_setFn_other u _ (others g mem)) u
  rw [← bits_eq_getLsbD]
  unfold configWrite
  rw [if_neg (not_not.2 physical)]
  dsimp only
  split
  · rw [State.fn_setFn_self]
  · rw [virtual, State.fn_setFn_self]
    intro g mem same
    have vf := portFns_drop_vf f.port g mem
    rw [same] at vf
    exact vf physical

end

/-! ### HOST_LINK_UP (R440) -/

section

variable {s : State} {h : Fin 2} {speed width : Nat}

/-- The port's link is up, with its speed and width. -/
def linkShown (s : State) (h speed width : Nat) : State :=
  ((s.setField (hostA h 0) 0 1 1).setField (hostA h 0) 1 3 speed).setField (hostA h 0) 4 5 width

theorem exec_hostLinkUp (powered : s.power.pwrgd = true) (role : s.field (hbgA (0x100 + 4 * h.val)) 0 2 = 1)
    (least : 1 ≤ speed) (most : speed ≤ 6) (wide : width ∈ [1, 2, 4, 8, 16]) :
    exec (.hostLinkUp h speed width) s = .next (linkShown s h.val speed width) :=
  if_pos (by
    rw [powered, role, decide_eq_true least, decide_eq_true most, List.contains_iff_mem.2 wide]
    rfl)

theorem linkShown_fields (h : Nat) (fits : speed < 8) (wide : width < 32) :
    (linkShown s h speed width).field (hostA h 0) 0 1 = 1 ∧ (linkShown s h speed width).field (hostA h 0) 1 3 = speed ∧
      (linkShown s h speed width).field (hostA h 0) 4 5 = width ∧
      (linkShown s h speed width).field (hostA h 0) 9 1 = s.field (hostA h 0) 9 1 := by
  unfold linkShown
  refine ⟨?_, ?_, State.field_setField_self _ _ (by decide) wide, ?_⟩
  · rw [State.field_setField_apart _ _ _ (by decide) (Or.inl (by decide)),
      State.field_setField_apart _ _ _ (by decide) (Or.inl (by decide)),
      State.field_setField_self _ _ (by decide) (by decide)]
  · rw [State.field_setField_apart _ _ _ (by decide) (Or.inl (by decide)),
      State.field_setField_self _ _ (by decide) fits]
  · rw [State.field_setField_apart _ _ _ (by decide) (Or.inr (by decide)),
      State.field_setField_apart _ _ _ (by decide) (Or.inr (by decide)),
      State.field_setField_apart _ _ _ (by decide) (Or.inr (by decide))]

end

/-! ### Resets (R449) -/

/-- A list of steps ends with a property that one of them sets up and every one of them keeps. -/
theorem foldl_reaches {σ α : Type} {P : σ → Prop} {f : σ → α → σ} {a : α} (sets : ∀ s, P (f s a))
    (keeps : ∀ x s, P s → P (f s x)) {l : List α} (mem : a ∈ l) (s : σ) : P (l.foldl f s) := by
  induction l generalizing s with
  | nil => nomatch mem
  | cons x l ih =>
    rw [List.foldl_cons]
    rcases List.mem_cons.1 mem with rfl | mem
    · exact List.foldlRecOn (motive := P) l f (sets s) fun u stays x _ => keeps x u stays
    · exact ih mem _

section

variable (s : State) (f g : Fn)

theorem State.host_congr {u : State} (same : u.hosts = s.hosts) : u.host f = s.host f := by
  unfold State.host
  rw [same]

theorem State.host_setHost_other {x : HostFn} (apart : g ≠ f) : (s.setHost g x).host f = s.host f :=
  mget_mset_other _ _ _ fun same => apart (Fn.id_inj same)

theorem discardBuffer_host (b : LineBuf) (cause : Nat) : (discardBuffer s f b cause).host f =
    { s.host f with buffers := (s.host f).buffers.erase b } := by
  unfold discardBuffer
  dsimp only
  rw [State.host_congr _ _ (post_hosts ..), State.host_congr _ _ (State.count32_hosts ..), State.host_setHost_self]

theorem discardBuffer_host_other (b : LineBuf) (cause : Nat) (apart : g ≠ f) :
    (discardBuffer s g b cause).host f = s.host f := by
  unfold discardBuffer
  dsimp only
  rw [State.host_congr _ _ (post_hosts ..), State.host_congr _ _ (State.count32_hosts ..),
    State.host_setHost_other _ _ _ apart]

/-- Every partial buffer of the function is discarded. -/
theorem discardAll_host (cause : Nat) : (discardAll s f cause).host f = { s.host f with buffers := [] } := by
  have empties (l : List LineBuf) (u : State) (all : (u.host f).buffers = l) :
      (l.foldl (fun s b => discardBuffer s f b cause) u).host f = { u.host f with buffers := [] } := by
    induction l generalizing u with
    | nil => rw [List.foldl_nil, ← all]
    | cons b l ih =>
      have first := discardBuffer_host u f b cause
      rw [List.foldl_cons, ih, first]
      rw [first, all]
      exact List.erase_cons_head ..
  exact empties _ s rfl

theorem discardAll_host_other (cause : Nat) (apart : g ≠ f) : (discardAll s g cause).host f = s.host f :=
  foldl_view (f := fun s b => discardBuffer s g b cause) (fun u : State => u.host f)
    (fun b _ u => discardBuffer_host_other u f g b cause apart) s

/-- The rings that a function serves are disabled (R527). -/
def ringsStopped : State :=
  s.each ((List.range 17).filter (fun r => ringFn s r = f)) (fun r s =>
    s.setRing r { s.ring r with enable := false, timer := none, held := false, bypass := false })

theorem ringsStopped_hosts : (ringsStopped s f).hosts = s.hosts :=
  foldl_view (f := fun s r => s.setRing r { s.ring r with enable := false, timer := none, held := false, bypass := false })
    State.hosts (fun _ _ _ => rfl) s

theorem ringsStopped_fns : (ringsStopped s f).fns = s.fns :=
  foldl_view (f := fun s r => s.setRing r { s.ring r with enable := false, timer := none, held := false, bypass := false })
    State.fns (fun _ _ _ => rfl) s

theorem ringsStopped_regs : (ringsStopped s f).regs = s.regs :=
  foldl_view (f := fun s r => s.setRing r { s.ring r with enable := false, timer := none, held := false, bypass := false })
    State.regs (fun _ _ _ => rfl) s

/-- The buffers and reads of a function are gone. -/
def trafficDropped : State :=
  (discardAll s f 3).setHost f { (discardAll s f 3).host f with reads := [] }

theorem trafficDropped_host : (trafficDropped s f).host f = { s.host f with buffers := [], reads := [] } := by
  rw [trafficDropped, State.host_setHost_self, discardAll_host]

theorem trafficDropped_host_other (apart : g ≠ f) : (trafficDropped s g).host f = s.host f := by
  rw [trafficDropped, State.host_setHost_other _ _ _ apart, discardAll_host_other _ _ _ _ apart]

theorem trafficDropped_fns : (trafficDropped s f).fns = s.fns := by
  refine (foldl_view (f := fun s b => discardBuffer s f b 3) State.fns (fun b _ u => ?_) s : (discardAll s f 3).fns = _)
  unfold discardBuffer
  dsimp only
  rw [post_fns, State.count32_fns, State.setHost_fns]

theorem trafficDropped_reg {a : Nat} (apart : hostA f.port.val 0x18 ≠ a) : (trafficDropped s f).reg a = s.reg a := by
  refine (foldl_view (f := fun s b => discardBuffer s f b 3) (fun u : State => u.reg a) (fun b _ u => ?_) s :
    (discardAll s f 3).reg a = _)
  unfold discardBuffer
  dsimp only
  rw [post_reg, State.reg_count32_other _ _ apart, State.reg_congr (State.setHost_regs ..)]

theorem resetFn_eq : resetFn s f = (ringsStopped (trafficDropped s f) f).setFn f
    { ide := ((ringsStopped (trafficDropped s f) f).fn f).ide } := rfl

theorem resetFn_reg {a : Nat} (apart : hostA f.port.val 0x18 ≠ a) : (resetFn s f).reg a = s.reg a := by
  rw [resetFn_eq, State.reg_congr (State.setFn_regs ..), State.reg_congr (ringsStopped_regs ..),
    trafficDropped_reg _ _ apart]

/-- The traffic of a function is gone, and its enables are clear. -/
def FnCleared (f : Fn) (s : State) : Prop :=
  (s.host f).buffers = [] ∧ (s.host f).reads = [] ∧ (s.fn f).memEnable = false ∧ (s.fn f).busMaster = false ∧
    (s.fn f).msixEnable = false ∧ (s.fn f).vfEnable = false

theorem fnCleared_congr {u : State} (hosts : u.host f = s.host f) (fns : u.fn f = s.fn f) :
    FnCleared f u ↔ FnCleared f s := by
  unfold FnCleared
  rw [hosts, fns]

theorem resetFn_clears : FnCleared f (resetFn s f) := by
  unfold FnCleared
  rw [resetFn_eq, State.fn_setFn_self, State.host_congr _ _ (State.setFn_hosts ..),
    State.host_congr _ _ (ringsStopped_hosts ..), trafficDropped_host]
  exact ⟨rfl, rfl, rfl, rfl, rfl, rfl⟩

theorem resetFn_keeps (cleared : FnCleared f s) : FnCleared f (resetFn s g) := by
  by_cases own : g = f
  · rw [own]
    exact resetFn_clears s f
  · refine (fnCleared_congr s f ?_ ?_).2 cleared
    · rw [resetFn_eq, State.host_congr _ _ (State.setFn_hosts ..), State.host_congr _ _ (ringsStopped_hosts ..),
        trafficDropped_host_other _ _ _ own]
    · rw [resetFn_eq, State.fn_setFn_other _ _ own, State.fn_congr (ringsStopped_fns ..),
        State.fn_congr (trafficDropped_fns ..)]

theorem setFn_reset_keeps (cleared : FnCleared f s) : FnCleared f (s.setFn g {}) := by
  by_cases own : g = f
  · rw [own]
    unfold FnCleared at *
    rw [State.fn_setFn_self, State.host_congr _ _ (State.setFn_hosts ..)]
    exact ⟨cleared.1, cleared.2.1, rfl, rfl, rfl, rfl⟩
  · exact (fnCleared_congr s f (State.host_congr _ _ (State.setFn_hosts ..))
      (State.fn_setFn_other _ _ own)).2 cleared

end

/-! ### HOST_PORT_RESET (R449) -/

section

variable (s : State) (e : HostEvent)

/-- The link's IDE streams are lost, the functions of the event reset. -/
def fnsReset : State :=
  (eventFns e).foldl resetFn
    (if eventKind e < 3 then ((eventFns e).filter (fun g => (s.fn g).ide)).take 1 |>.foldl ideLost s else s)

/-- The port's state goes with its link. -/
def linkReset : State :=
  if eventKind e < 3 then
    (eventFns e).foldl (fun s g => s.setFn g {}) ((fnsReset s e).setReg (hostA (eventFn e).port.val 0)
      ((fnsReset s e).reg (hostA (eventFn e).port.val 0) &&& 0x200))
  else fnsReset s e

/-- The reset is counted and reported. -/
def resetCounted : State :=
  post ((linkReset s e).count32 (hostA (eventFn e).port.val 0x1C) 1) 0x63 (srcBridge (eventFn e).port.val 0)
    (eventKind e + 4 * (eventFn e).vf.val)

theorem hostReset_eq : hostReset s e =
    if (eventFn e).vf = 0 then pathLost (resetCounted s e) (eventFn e).port.val else resetCounted s e := rfl

/-- The functions of an event are its port's. -/
theorem eventFns_port {f : Fn} (mem : f ∈ eventFns e) : f.port = (eventFn e).port := by
  have own (h : Fin 2) (mem : f ∈ portFns h) : f.port = h := by
    obtain ⟨v, -, rfl⟩ := List.mem_map.1 mem
    rfl
  cases e with
  | perst h => exact own h mem
  | hotReset h => exact own h mem
  | linkDown h => exact own h mem
  | flr g =>
    simp only [eventFns] at mem
    split at mem
    · exact own g.port mem
    · rw [List.mem_singleton.1 mem]
      rfl

theorem ideLost_reg {f : Fn} {a : Nat} (a0 : secA 0x10 ≠ a) (a1 : secA 0x14 ≠ a) : (ideLost s f).reg a = s.reg a := by
  cases secure : (s.fn f).ide with
  | false => rw [ideLost_open s f secure]
  | true =>
    obtain ⟨block, lost⟩ := ideLost_secure s f secure
    rw [lost, secFault_reg_other _ _ _ _ a0 a1]
    rfl

/-- A reset leaves the other words of a host port's block. -/
theorem fnsReset_reg {h o : Nat} (h2 : h < 2) (low : o < 0x40) (apart : o ≠ 0x18) :
    (fnsReset s e).reg (hostA h o) = s.reg (hostA h o) := by
  have a0 : secA 0x10 ≠ hostA h o := by unfold secA hostA hbgA; omega
  have a1 : secA 0x14 ≠ hostA h o := by unfold secA hostA hbgA; omega
  have reset (fs : List Fn) (u : State) : (fs.foldl resetFn u).reg (hostA h o) = u.reg (hostA h o) :=
    foldl_view (f := resetFn) (fun u : State => u.reg (hostA h o)) (fun g _ u => resetFn_reg u g (by
      unfold hostA hbgA
      omega)) u
  have lost (fs : List Fn) (u : State) : (fs.foldl ideLost u).reg (hostA h o) = u.reg (hostA h o) :=
    foldl_view (f := ideLost) (fun u : State => u.reg (hostA h o)) (fun g _ u => ideLost_reg u a0 a1) u
  rw [fnsReset, reset]
  split
  · exact lost ..
  · rfl

theorem fnsReset_clears {f : Fn} (mem : f ∈ eventFns e) : FnCleared f (fnsReset s e) :=
  foldl_reaches (P := FnCleared f) (fun u => resetFn_clears u f) (fun g u => resetFn_keeps u f g) mem _

theorem linkReset_clears {f : Fn} (mem : f ∈ eventFns e) : FnCleared f (linkReset s e) := by
  have cleared := fnsReset_clears s e mem
  unfold linkReset
  split
  · exact List.foldlRecOn (motive := FnCleared f) _ _ cleared fun u stays g _ => setFn_reset_keeps u f g stays
  · exact cleared

/-- A link that goes takes its port's status but READY; nothing else of the block changes. -/
theorem linkReset_reg (o : Nat) (low : o < 0x40) (apart : o ≠ 0x18) :
    (linkReset s e).reg (hostA (eventFn e).port.val o) =
      if eventKind e < 3 ∧ o = 0 then s.reg (hostA (eventFn e).port.val o) &&& 0x200
      else s.reg (hostA (eventFn e).port.val o) := by
  have kept (o : Nat) (low : o < 0x40) (apart : o ≠ 0x18) := fnsReset_reg s e (eventFn e).port.isLt low apart
  have fns (fs : List Fn) (u : State) : (fs.foldl (fun s g => s.setFn g {}) u).regs = u.regs :=
    foldl_view (f := fun (s : State) g => s.setFn g {}) State.regs (fun _ _ _ => rfl) u
  unfold linkReset
  by_cases link : eventKind e < 3
  · rw [if_pos link, State.reg_congr (fns ..)]
    by_cases first : o = 0
    · rw [if_pos ⟨link, first⟩, first, State.reg_setReg_self, kept 0 (by decide) (by decide)]
    · rw [if_neg (fun both => first both.2), State.reg_setReg_other _ _ (by unfold hostA hbgA; omega), kept o low apart]
  · rw [if_neg link, if_neg (fun both => link both.1), kept o low apart]

theorem hostReset_frames : (hostReset s e).hosts = (linkReset s e).hosts ∧
    (hostReset s e).fns = (linkReset s e).fns ∧
    (hostReset s e).regs = ((linkReset s e).count32 (hostA (eventFn e).port.val 0x1C) 1).regs := by
  have lost (u : State) (m : Nat) : (pathLost u m).hosts = u.hosts ∧ (pathLost u m).fns = u.fns ∧
      (pathLost u m).regs = u.regs :=
    ⟨(pathLost_only (.refl _ u) (.self _)).frame .hosts (by decide),
      (pathLost_only (.refl _ u) (.self _)).frame .fns (by decide),
      (pathLost_only (.refl _ u) (.self _)).frame .regs (by decide)⟩
  have counted : (resetCounted s e).hosts = (linkReset s e).hosts ∧ (resetCounted s e).fns = (linkReset s e).fns ∧
      (resetCounted s e).regs = ((linkReset s e).count32 (hostA (eventFn e).port.val 0x1C) 1).regs := by
    unfold resetCounted
    rw [post_hosts, post_fns, post_regs, State.count32_hosts, State.count32_fns]
    exact ⟨rfl, rfl, rfl⟩
  rw [hostReset_eq]
  split
  · obtain ⟨hosts, fns, regs⟩ := lost (resetCounted s e) (eventFn e).port.val
    rw [hosts, fns, regs]
    exact counted
  · exact counted

/-- A reset clears its functions, is counted, and takes the port's status with the link. -/
theorem hostReset_clears {f : Fn} (mem : f ∈ eventFns e) : FnCleared f (hostReset s e) ∧
    (hostReset s e).reg (hostA f.port.val 0x1C) = satAdd (s.reg (hostA f.port.val 0x1C)) 1 ∧
    (eventKind e < 3 → (hostReset s e).reg (hostA f.port.val 0) = s.reg (hostA f.port.val 0) &&& 0x200) := by
  obtain ⟨hosts, fns, regs⟩ := hostReset_frames s e
  rw [eventFns_port e mem]
  refine ⟨(fnCleared_congr _ f (State.host_congr _ _ hosts) (State.fn_congr fns f)).2 (linkReset_clears s e mem), ?_, ?_⟩
  · rw [State.reg_congr regs, State.reg_count32_self, linkReset_reg s e 0x1C (by decide) (by decide)]
    rw [if_neg fun both => absurd both.2 (by decide)]
  · intro link
    rw [State.reg_congr regs, State.reg_count32_other _ _ (by unfold hostA hbgA; omega),
      linkReset_reg s e 0 (by decide) (by decide), if_pos ⟨link, rfl⟩]

end

/-- Settles O32: a request by what it reads or sets of its function, and a reset by what its functions' resets clear. -/
theorem hostFunctions : Obligations.HostFunctions := by
  refine ⟨fun s f reg w powered => ⟨exec_configRequest_retry powered, fun ready lives physical => ⟨?_, ?_⟩,
      exec_configRequest_gone powered, fun ready lives => ⟨exec_configRequest_read powered ready lives, fun v kept => ?_⟩,
      fun v ready lives => ⟨?_, ?_, fun i => ?_, fun physical => ?_⟩⟩,
    fun s h speed width powered role least most wide => ?_, fun s event f powered mem => ?_⟩
  · rw [exec_configRequest_read powered ready lives, configRead, if_pos physical]
    rfl
  · rw [exec_configRequest_read powered ready lives]
    rfl
  · rw [exec_configRequest_write powered ready lives, configWrite_kept kept]
  · refine ⟨_, exec_configRequest_write powered ready lives, rfl, ?_⟩
    rw [State.fn_congr (answer_fns ..)]
    exact configWrite_command
  · refine ⟨_, exec_configRequest_write powered ready lives, rfl, ?_⟩
    rw [State.fn_congr (answer_fns ..)]
    exact configWrite_msix
  · refine ⟨_, exec_configRequest_write powered ready lives, rfl, ?_⟩
    rw [State.fn_congr (answer_fns ..)]
    exact configWrite_bar i
  · refine ⟨_, exec_configRequest_write powered ready lives, rfl, ?_⟩
    rw [State.fn_congr (answer_fns ..)]
    exact configWrite_sriov physical
  · have narrow : width < 32 := by
      simp only [List.mem_cons, List.not_mem_nil, or_false] at wide
      omega
    exact ⟨_, exec_hostLinkUp powered role least most wide, linkShown_fields h.val (by omega) narrow⟩
  · obtain ⟨⟨buffers, reads, mem_, master, msix, vf⟩, count, status⟩ := hostReset_clears s event mem
    exact ⟨_, if_pos powered, buffers, reads, mem_, master, msix, vf, count, status⟩

end Sys2Proof.Machine

/-! Proofs of the obligations of spec/11_copper_and_host.md: the data window. -/

namespace Sys2Proof.Machine

open Sys2Proof

/-! ### The bytes of a write in a line (R443, R444) -/

/-- A write inside one line touches that line alone. -/
theorem windowLines_one {o n : Nat} (some : n ≠ 0) (fits : o % 64 + n ≤ 64) : windowLines o n = [o / 64] := by
  have one : (o + n + 63) / 64 - o / 64 = 1 := by omega
  rw [windowLines, one]
  rfl

/-- A byte of a write put over a buffer. -/
def fillByte (o : Nat) (b : LineBuf) (x : Nat × Byte) : LineBuf :=
  let a := o + x.1
  if a / 64 = b.line then
    { b with mask := b.mask ||| BitVec.ofNat 64 (2 ^ (a % 64)),
             data := BitVec.ofNat 512 (putBits b.data.toNat (8 * (a % 64)) 8 x.2.toNat) }
  else b

theorem fillBuffer_eq (b : LineBuf) (o : Nat) (bs : List Byte) :
    fillBuffer b o bs = ((List.range bs.length).zip bs).foldl (fillByte o) b := rfl

theorem fillByte_line (o : Nat) (b : LineBuf) (x : Nat × Byte) :
    (fillByte o b x).line = b.line ∧ (fillByte o b x).last = b.last := by
  unfold fillByte
  dsimp only
  split <;> exact ⟨rfl, rfl⟩

theorem fillByte_mask (o : Nat) (b : LineBuf) (x : Nat × Byte) {i : Nat} (low : i < 64) :
    (fillByte o b x).mask.getLsbD i =
      (b.mask.getLsbD i || decide ((o + x.1) / 64 = b.line ∧ (o + x.1) % 64 = i)) := by
  unfold fillByte
  dsimp only
  split
  · next own =>
    rw [BitVec.getLsbD_or, BitVec.getLsbD_ofNat, Nat.testBit_two_pow]
    simp [low, own]
  · next other => simp [other]

theorem fillBytes_line (o : Nat) (l : List (Nat × Byte)) (b : LineBuf) :
    (l.foldl (fillByte o) b).line = b.line ∧ (l.foldl (fillByte o) b).last = b.last := by
  induction l generalizing b with
  | nil => exact ⟨rfl, rfl⟩
  | cons x l ih =>
    obtain ⟨line, last⟩ := ih (fillByte o b x)
    obtain ⟨line', last'⟩ := fillByte_line o b x
    exact ⟨line.trans line', last.trans last'⟩

theorem fillBytes_mask (o : Nat) (l : List (Nat × Byte)) (b : LineBuf) {i : Nat} (low : i < 64) :
    (l.foldl (fillByte o) b).mask.getLsbD i =
      (b.mask.getLsbD i || decide (∃ k ∈ l.map Prod.fst, (o + k) / 64 = b.line ∧ (o + k) % 64 = i)) := by
  induction l generalizing b with
  | nil => simp
  | cons x l ih =>
    rw [List.foldl_cons, ih, fillByte_mask o b x low, (fillByte_line o b x).1, Bool.or_assoc, List.map_cons]
    rw [← Bool.decide_or]
    exact congrArg (b.mask.getLsbD i || ·) (decide_eq_decide.2 (by simp))

section

variable {b : LineBuf} {o : Nat} {bs : List Byte}

theorem fillBuffer_line : (fillBuffer b o bs).line = b.line ∧ (fillBuffer b o bs).last = b.last :=
  fillBytes_line ..

/-- A write inside the buffer's line marks the bytes that it brings. -/
theorem fillBuffer_mask (own : b.line = o / 64) (fits : o % 64 + bs.length ≤ 64) {i : Nat} (low : i < 64) :
    (fillBuffer b o bs).mask.getLsbD i =
      (b.mask.getLsbD i || (decide (o % 64 ≤ i) && decide (i < o % 64 + bs.length))) := by
  have keys : ((List.range bs.length).zip bs).map Prod.fst = List.range bs.length :=
    List.map_fst_zip (by rw [List.length_range])
  have brought : (∃ k ∈ List.range bs.length, (o + k) / 64 = b.line ∧ (o + k) % 64 = i) ↔
      o % 64 ≤ i ∧ i < o % 64 + bs.length := by
    rw [own]
    constructor
    · rintro ⟨k, mem, line, place⟩
      have := List.mem_range.1 mem
      omega
    · intro inside
      exact ⟨i - o % 64, List.mem_range.2 (by omega), by omega, by omega⟩
  rw [fillBuffer_eq, fillBytes_mask o _ b low, keys, decide_eq_decide.2 brought, Bool.decide_and]

/-- A whole line fills a new buffer. -/
theorem fillBuffer_full {line born last : Nat} (own : line = o / 64) (whole : o % 64 = 0) (length : bs.length = 64) :
    (fillBuffer { line, born, last } o bs).mask = BitVec.allOnes 64 := by
  refine BitVec.eq_of_getLsbD_eq fun i low => ?_
  rw [fillBuffer_mask own (by omega) low, BitVec.getLsbD_allOnes, decide_eq_true low, whole, length,
    decide_eq_true (Nat.zero_le i), decide_eq_true (by omega), Bool.and_self, Bool.or_true]

/-- Less than a line leaves a new buffer partly filled. -/
theorem fillBuffer_part {line born last : Nat} (own : line = o / 64) (short : o % 64 + bs.length < 64) :
    (fillBuffer { line, born, last } o bs).mask ≠ BitVec.allOnes 64 := by
  intro full
  have last := fillBuffer_mask (b := { line, born, last }) (bs := bs) own (by omega) (i := 63) (by decide)
  rw [full, BitVec.getLsbD_allOnes, decide_eq_false (show ¬ 63 < o % 64 + bs.length by omega), Bool.and_false] at last
  exact absurd last (by simp)

end

/-! ### A line sent (R443, R444) -/

section

variable (s : State) (f : Fn)

theorem sendPacket_hosts (src : Endpoint) (purpose : Purpose) (p : Packet) : (sendPacket s src purpose p).hosts = s.hosts :=
  (sendPacket_only (.refl _ s) (.self _)).frame .hosts (by decide)

theorem discardBuffer_count (b : LineBuf) (cause : Nat) : (discardBuffer s f b cause).reg (hostA f.port.val 0x18) =
    satAdd (s.reg (hostA f.port.val 0x18)) 1 := by
  unfold discardBuffer
  dsimp only
  rw [post_reg, State.reg_count32_self, State.reg_congr (State.setHost_regs ..)]

theorem discardBuffer_now (b : LineBuf) (cause : Nat) : (discardBuffer s f b cause).now = s.now :=
  (discardBuffer_only (.refl _ s) (.self _)).frame .now (by decide)

/-- A full line stands unacknowledged. -/
theorem sendFull_host {line : Nat} (l : Line) (inside : (windowOff (64 * line)).isSome = true) :
    (sendFull s f line l).host f =
      { s.host f with unacked := (s.host f).unacked ++ [(s.host f).serial], serial := (s.host f).serial + 1 } := by
  unfold sendFull
  split
  · next none => rw [none] at inside; nomatch inside
  · dsimp only
    rw [State.host_congr _ _ (sendPacket_hosts ..), State.host_congr _ _ (State.count64_hosts ..),
      State.host_setHost_self]

theorem windowOff_of_line {o : Nat} (inside : (windowLine s f o).isSome = true) : (windowOff o).isSome = true := by
  unfold windowLine at inside
  dsimp only at inside
  split at inside
  · nomatch inside
  · next off found => rw [found]; rfl

end

/-! ### A write's part of a line (R444, R445) -/

section

variable {s : State} {f : Fn} {o line : Nat} {bs : List Byte}

section

variable (closed : (s.host f).buffers.find? (fun b => b.line = line) = none)
include closed

theorem writeBuffer_sends (full : (fillBuffer { line, born := s.now, last := s.now } o bs).mask = BitVec.allOnes 64) :
    writeBuffer f o bs s line = sendFull s f line (fillBuffer { line, born := s.now, last := s.now } o bs).data := by
  unfold writeBuffer
  dsimp only
  rw [closed]
  exact if_pos full

/-- The buffer that a write opens. -/
theorem writeBuffer_opens (part : (fillBuffer { line, born := s.now, last := s.now } o bs).mask ≠ BitVec.allOnes 64)
    (room : (s.host f).buffers.length < 64) : writeBuffer f o bs s line = s.setHost f { s.host f with
      buffers := (s.host f).buffers ++ [fillBuffer { line, born := s.now, last := s.now } o bs] } := by
  unfold writeBuffer
  dsimp only
  rw [closed]
  dsimp only
  rw [if_neg part]
  split
  · rw [if_neg (Nat.not_le.2 room)]
  · rfl

/-- The 65th buffer takes the place of the oldest. -/
theorem writeBuffer_replaces (part : (fillBuffer { line, born := s.now, last := s.now } o bs).mask ≠ BitVec.allOnes 64)
    {old : LineBuf} {rest : List LineBuf} (buffers : (s.host f).buffers = old :: rest)
    (full : 64 ≤ (s.host f).buffers.length) :
    writeBuffer f o bs s line = (discardBuffer s f old 1).setHost f { (discardBuffer s f old 1).host f with
      buffers := ((discardBuffer s f old 1).host f).buffers ++
        [fillBuffer { line, born := s.now, last := s.now } o bs] } := by
  unfold writeBuffer
  dsimp only
  rw [closed]
  dsimp only
  rw [if_neg part]
  split
  · next first others same =>
    obtain ⟨rfl, rfl⟩ := List.cons.inj (buffers.symm.trans same)
    rw [if_pos full]
  · next none => exact nomatch buffers.symm.trans none

end

section

variable {b : LineBuf} (opened : (s.host f).buffers.find? (fun b => b.line = line) = some b)
include opened

theorem writeBuffer_fills (full : ({ fillBuffer b o bs with last := s.now } : LineBuf).mask = BitVec.allOnes 64) :
    writeBuffer f o bs s line = sendFull (s.setHost f { s.host f with buffers := (s.host f).buffers.erase b }) f line
      (fillBuffer b o bs).data := by
  unfold writeBuffer
  dsimp only
  rw [opened]
  exact if_pos full

theorem writeBuffer_adds (part : ({ fillBuffer b o bs with last := s.now } : LineBuf).mask ≠ BitVec.allOnes 64) :
    writeBuffer f o bs s line = s.setHost f { s.host f with
      buffers := (s.host f).buffers.map (fun x => if x.line = line then { fillBuffer b o bs with last := s.now } else x) } := by
  unfold writeBuffer
  dsimp only
  rw [opened]
  exact if_neg part

end

end

/-! ### HOST_WRITE_TLP, HOST_READ_TLP (R443, R447, R569, R595) -/

section

variable {s : State} {f : Fn} {o n : Nat} {bs : List Byte}
variable (alive : windowDead s f = false)
include alive

theorem exec_hostWriteTlp_closed (some : bs ≠ []) (closed : pathClosed s (fnPath f) = true) :
    exec (.hostWriteTlp f o bs) s = .next (answer s .unsupported) :=
  (if_neg (by simp [alive, some])).trans (if_pos closed)

theorem exec_hostReadTlp_closed (some : n ≠ 0) (closed : pathClosed s (fnPath f) = true) :
    exec (.hostReadTlp f o n) s = .next (s.emit (.completion f .unsupported [] false)) :=
  (if_neg (by simp [alive, some])).trans (if_pos closed)

variable (opened : pathClosed s (fnPath f) = false)
include opened

theorem exec_hostWriteTlp_safe (some : bs ≠ []) (safe : s.safe.active = true) :
    exec (.hostWriteTlp f o bs) s = .next (answer (windowError s f o 2) .ok) :=
  ((if_neg (by simp [alive, some])).trans (if_neg (by rw [opened]; exact Bool.false_ne_true))).trans (if_pos safe)

theorem exec_hostWriteTlp_outside (some : bs ≠ []) (calm : s.safe.active = false)
    (outside : (windowLines o bs.length).any (fun l => (windowLine s f (64 * l)).isNone) = true) :
    exec (.hostWriteTlp f o bs) s = .next (answer (windowError s f o 1) .ok) :=
  (((if_neg (by simp [alive, some])).trans (if_neg (by rw [opened]; exact Bool.false_ne_true))).trans
    (if_neg (by rw [calm]; exact Bool.false_ne_true))).trans (if_pos outside)

/-- A write inside one line of the window. -/
theorem exec_hostWriteTlp_line (some : bs ≠ []) (calm : s.safe.active = false) (fits : o % 64 + bs.length ≤ 64)
    (inside : (windowLine s f (64 * (o / 64))).isSome = true) :
    exec (.hostWriteTlp f o bs) s = .next (answer (writeBuffer f o bs s (o / 64)) .ok) := by
  have length : bs.length ≠ 0 := fun none => some (List.length_eq_zero_iff.1 none)
  have lines := windowLines_one length fits
  have mapped : ¬ [o / 64].any (fun l => (windowLine s f (64 * l)).isNone) = true := by
    rw [List.any_cons, List.any_nil, Bool.or_false, Option.isNone_iff_eq_none]
    exact Option.isSome_iff_ne_none.1 inside
  change execHostWriteTlp f o bs s = _
  unfold execHostWriteTlp
  dsimp only
  rw [lines, if_neg (by simp [alive, some]), if_neg (by rw [opened]; exact Bool.false_ne_true),
    if_neg (by rw [calm]; exact Bool.false_ne_true), if_neg mapped]
  rfl

variable (some : n ≠ 0)
include some

theorem exec_hostReadTlp_outside (outside : (windowLines o n).any (fun l => (windowLine s f (64 * l)).isNone) = true) :
    exec (.hostReadTlp f o n) s =
      .next ((windowError s f o 1).emit (.completion f .ok (List.replicate n 0) false)) :=
  ((if_neg (by simp [alive, some])).trans (if_neg (by rw [opened]; exact Bool.false_ne_true))).trans (if_pos outside)

variable (inside : (windowLines o n).all (fun l => (windowLine s f (64 * l)).isSome) = true)
include inside

theorem exec_hostReadTlp_inside : exec (.hostReadTlp f o n) s =
    if s.safe.active then .next (retainedRead s f o n (windowLines o n))
    else if readLimit ≤ (s.host f).reads.length then .next s
    else .next (askHost (s.setHost f { s.host f with
      serial := (s.host f).serial + 1,
      reads := (s.host f).reads ++
        [{ id := (s.host f).serial, offset := o, length := n, left := (windowLines o n).length }] }) f
      (s.host f).serial ((windowLines o n).filterMap (fun l =>
        windowLine (s.setHost f { s.host f with
          serial := (s.host f).serial + 1,
          reads := (s.host f).reads ++
            [{ id := (s.host f).serial, offset := o, length := n, left := (windowLines o n).length }] })
          f (64 * l)))) := by
  have mapped : ¬ (windowLines o n).any (fun l => (windowLine s f (64 * l)).isNone) = true := by
    simpa only [List.any_eq_true, List.all_eq_true, not_exists, not_and, Bool.not_eq_true, Option.isNone_eq_false_iff]
      using inside
  exact ((if_neg (by simp [alive, some])).trans (if_neg (by rw [opened]; exact Bool.false_ne_true))).trans
    (if_neg mapped)

end

theorem askHost_hosts (s : State) (f : Fn) (id : Nat) (offs : List (Nat × Nat)) : (askHost s f id offs).hosts = s.hosts :=
  (askHost_only (.refl _ s) (.self _)).frame .hosts (by decide)

theorem askHost_mem (s : State) (f : Fn) (id : Nat) (offs : List (Nat × Nat)) : (askHost s f id offs).mem = s.mem :=
  (askHost_only (.refl _ s) (.self _)).frame .mem (by decide)

theorem windowLines_length (o n : Nat) : (windowLines o n).length = (o + n + 63) / 64 - o / 64 := by
  rw [windowLines, List.length_map, List.length_range]

section

variable {s : State} {f : Fn} {o : Nat} {bs : List Byte}
variable (alive : windowDead s f = false) (opened : pathClosed s (fnPath f) = false) (calm : s.safe.active = false)
variable (inside : (windowLine s f (64 * (o / 64))).isSome = true)
include alive opened calm inside

section

variable (closed : (s.host f).buffers.find? (fun b => b.line = o / 64) = none)
include closed

/-- A whole line goes to its tile. -/
theorem hostWrite_sends (whole : o % 64 = 0) (length : bs.length = 64) :
    ∃ u, exec (.hostWriteTlp f o bs) s = .next u ∧ u.reply.status = .ok ∧
      (u.host f).unacked = (s.host f).unacked ++ [(s.host f).serial] ∧ (u.host f).buffers = (s.host f).buffers := by
  have some : bs ≠ [] := fun none => by rw [none] at length; nomatch length
  refine ⟨_, exec_hostWriteTlp_line alive opened some calm (by omega) inside, rfl, ?_⟩
  rw [writeBuffer_sends closed (fillBuffer_full rfl whole length), State.host_congr _ _ (answer_hosts ..),
    sendFull_host _ _ _ (windowOff_of_line s f inside)]
  exact ⟨rfl, rfl⟩

section

variable (some : bs ≠ []) (short : o % 64 + bs.length < 64)
include some short

/-- A part of a line opens a buffer with the bytes that it brings. -/
theorem hostWrite_opens (room : (s.host f).buffers.length < 64) :
    ∃ u b, exec (.hostWriteTlp f o bs) s = .next u ∧ u.reply.status = .ok ∧
      (u.host f).buffers = (s.host f).buffers ++ [b] ∧ b.line = o / 64 ∧ b.last = s.now ∧
      (∀ i < 64, b.mask.getLsbD i = (decide (o % 64 ≤ i) && decide (i < o % 64 + bs.length))) ∧
      (u.host f).unacked = (s.host f).unacked := by
  obtain ⟨line, last⟩ := fillBuffer_line (b := { line := o / 64, born := s.now, last := s.now }) (o := o) (bs := bs)
  refine ⟨_, _, exec_hostWriteTlp_line alive opened some calm (by omega) inside, rfl, ?_, line, last,
    fun i low => ?_, ?_⟩
  · rw [writeBuffer_opens closed (fillBuffer_part rfl short) room, State.host_congr _ _ (answer_hosts ..),
      State.host_setHost_self]
  · rw [fillBuffer_mask rfl (by omega) low]
    exact (congrArg (· || _) (BitVec.getLsbD_zero ..)).trans (Bool.false_or _)
  · rw [writeBuffer_opens closed (fillBuffer_part rfl short) room, State.host_congr _ _ (answer_hosts ..),
      State.host_setHost_self]

/-- The 65th buffer discards the oldest. -/
theorem hostWrite_replaces {old : LineBuf} {rest : List LineBuf} (buffers : (s.host f).buffers = old :: rest)
    (full : 64 ≤ (s.host f).buffers.length) :
    ∃ u b, exec (.hostWriteTlp f o bs) s = .next u ∧ u.reply.status = .ok ∧ (u.host f).buffers = rest ++ [b] ∧
      b.line = o / 64 ∧ u.reg (hostA f.port.val 0x18) = satAdd (s.reg (hostA f.port.val 0x18)) 1 := by
  obtain ⟨line, -⟩ := fillBuffer_line (b := { line := o / 64, born := s.now, last := s.now }) (o := o) (bs := bs)
  refine ⟨_, _, exec_hostWriteTlp_line alive opened some calm (by omega) inside, rfl, ?_, line, ?_⟩
  · rw [writeBuffer_replaces closed (fillBuffer_part rfl short) buffers full, State.host_congr _ _ (answer_hosts ..),
      State.host_setHost_self, discardBuffer_host, buffers, List.erase_cons_head]
  · rw [writeBuffer_replaces closed (fillBuffer_part rfl short) buffers full, State.reg_congr (answer_regs ..),
      State.reg_congr (State.setHost_regs ..), discardBuffer_count]

end

end

section

variable {b : LineBuf} (found : (s.host f).buffers.find? (fun b => b.line = o / 64) = some b)
variable (some : bs ≠ []) (fits : o % 64 + bs.length ≤ 64)
include found some fits

theorem hostWrite_fills (full : ({ fillBuffer b o bs with last := s.now } : LineBuf).mask = BitVec.allOnes 64) :
    ∃ u, exec (.hostWriteTlp f o bs) s = .next u ∧
      (u.host f).unacked = (s.host f).unacked ++ [(s.host f).serial] ∧
      (u.host f).buffers = (s.host f).buffers.erase b := by
  refine ⟨_, exec_hostWriteTlp_line alive opened some calm fits inside, ?_⟩
  rw [writeBuffer_fills found full, State.host_congr _ _ (answer_hosts ..),
    sendFull_host _ _ _ (windowOff_of_line s f inside), State.host_setHost_self]
  exact ⟨rfl, rfl⟩

theorem hostWrite_adds (part : ({ fillBuffer b o bs with last := s.now } : LineBuf).mask ≠ BitVec.allOnes 64) :
    ∃ u, exec (.hostWriteTlp f o bs) s = .next u ∧ (u.host f).unacked = (s.host f).unacked ∧
      (u.host f).buffers = (s.host f).buffers.map
        (fun x => if x.line = o / 64 then { fillBuffer b o bs with last := s.now } else x) := by
  refine ⟨_, exec_hostWriteTlp_line alive opened some calm fits inside, ?_⟩
  rw [writeBuffer_adds found part, State.host_congr _ _ (answer_hosts ..), State.host_setHost_self]
  exact ⟨rfl, rfl⟩

end

end

/-- A read of mapped lines stands under way. -/
theorem hostRead_asks {s : State} {f : Fn} {o n : Nat} (alive : windowDead s f = false) (some : n ≠ 0)
    (opened : pathClosed s (fnPath f) = false) (calm : s.safe.active = false) (few : (s.host f).reads.length < 256)
    (inside : (windowLines o n).all (fun l => (windowLine s f (64 * l)).isSome) = true) :
    ∃ u, exec (.hostReadTlp f o n) s = .next u ∧ u.host f = { s.host f with
      serial := (s.host f).serial + 1,
      reads := (s.host f).reads ++
        [{ id := (s.host f).serial, offset := o, length := n, left := (windowLines o n).length }] } ∧ u.mem = s.mem := by
  refine ⟨_, (exec_hostReadTlp_inside alive opened some inside).trans
    ((if_neg (by rw [calm]; exact Bool.false_ne_true)).trans (if_neg (Nat.not_le.2 few))), ?_, ?_⟩
  · rw [State.host_congr _ _ (askHost_hosts ..), State.host_setHost_self]
  · rw [askHost_mem, State.setHost_mem]

/-- A buffer that nothing writes is discarded (R445). -/
theorem exec_lineBufferTimeout {s : State} {f : Fn} {line : Nat} {b : LineBuf}
    (found : (s.host f).buffers.find? (fun b => b.line = line) = some b) :
    exec (.lineBufferTimeout f line) s = .next (discardBuffer (s.passTo (b.last + 1000)) f b 0) := by
  change execLineBufferTimeout f line s = _
  unfold execLineBufferTimeout
  rw [found]

/-- Settles O33: a write by what it makes of its line's buffer, and a read by the lines that it names. -/
theorem hostWindow : Obligations.HostWindow := by
  refine ⟨fun s f o bs alive opened calm inside closed => ⟨hostWrite_sends alive opened calm inside closed,
      hostWrite_opens alive opened calm inside closed,
      fun old rest some short => hostWrite_replaces alive opened calm inside closed some short⟩,
    fun s f o bs b alive opened calm inside found some fits => ⟨hostWrite_fills alive opened calm inside found some fits,
      hostWrite_adds alive opened calm inside found some fits⟩,
    fun s f o bs n alive some more => ⟨fun closed => ⟨exec_hostWriteTlp_closed alive some closed,
      exec_hostReadTlp_closed alive more closed⟩, fun opened => ⟨exec_hostWriteTlp_safe alive opened some,
      exec_hostWriteTlp_outside alive opened some, exec_hostReadTlp_outside alive opened more,
      fun inside => ⟨fun safe => ?_, fun calm many => ?_⟩⟩⟩,
    fun s f line b found => ?_, fun s f o n alive some opened calm few inside => ?_⟩
  · exact (exec_hostReadTlp_inside alive opened more inside).trans (if_pos safe)
  · exact (exec_hostReadTlp_inside alive opened more inside).trans
      ((if_neg (by rw [calm]; exact Bool.false_ne_true)).trans (if_pos many))
  · refine ⟨_, exec_lineBufferTimeout found, ?_, ?_, ?_⟩
    · rw [discardBuffer_host, State.host_congr _ _ (State.passTo_hosts ..)]
    · rw [discardBuffer_count, State.reg_congr (State.passTo_regs ..)]
    · rw [discardBuffer_now, State.passTo_now]
  · obtain ⟨u, ran, host, mem⟩ := hostRead_asks alive some opened calm few inside
    refine ⟨u, _, ran, by rw [host], rfl, rfl, windowLines_length o n, rfl, fun below x old => ?_, by rw [host], mem⟩
    exact Nat.ne_of_lt (below x old)

end Sys2Proof.Machine


/-! ### Commands of the rucksack (R546 to R550, R559, R560) -/

namespace Sys2Proof.Machine
open Sys2Proof

section

variable {s u v : State} {g : Nat} {f : Fetched} {ok : Nat → Bool} {effect : Cmd → State → Issued}

theorem issue_wait (h : Issues s g f) (takes : ok (hdrOpcode f.line) = true)
    (does : effect (commandAt s g f) s = .wait) : issue s g ok effect = s := by
  rw [issue_eq_afterIssue h takes, does]; rfl

theorem issue_broke {e : CmdError} (h : Issues s g f) (takes : ok (hdrOpcode f.line) = true)
    (does : effect (commandAt s g f) s = .broke e u) : issue s g ok effect =
    abortCommand (passIssue u (commandAt s g f)
      [{ idx := (s.queue g).cmd, line := f.line, task := taskOf (s.queue g) f.line }]) g (s.queue g).cmd e := by
  rw [issue_eq_afterIssue h takes, does]; rfl

/-- A descriptor in the scratch range that is read once its line is ready does not hold the command back. -/
theorem slot_handed {t off : Nat} (named : inScratch s t off = true → lineReady s t off = true) :
    (inScratch s t off && !lineReady s t off) = false :=
  Bool.and_eq_false_imp.2 fun h => by rw [named h]; rfl

/-- A command that reads the rucksack stores what is left, and aborts with MEMORY for what is lost (R550). -/
theorem issue_giveLines {d : Desc} {ls : List StoredLine} (h : Issues s g f) (takes : ok (hdrOpcode f.line) = true)
    (does : effect (commandAt s g f) s = giveLines (commandAt s g f) d ls u) :
    let c := commandAt s g f
    let w := returnLines u c.t g c.idx (returnedLines (uniqueLines d) ls)
    issue s g ok effect = if ls.any (fun y => y = .lost) = true
      then abortCommand (passIssue w c [{ idx := c.idx, line := f.line, task := c.task }]) g c.idx { err := .memory }
      else passIssue w c [{ idx := c.idx, line := f.line, task := c.task, ready := true }] := by
  intro c w
  by_cases lost : ls.any (fun y => y = .lost) = true
  · rw [if_pos lost]
    exact issue_broke h takes (does.trans (if_pos lost))
  · rw [if_neg lost]
    exact issue_ready h takes (does.trans (if_neg lost))

/-! #### CHECKPOINT (R547 to R549) -/

theorem openGen_congr {s u : State} (same : u.rk = s.rk) (p : Nat) : openGen u p = openGen s p := by
  unfold openGen
  rw [same]

/-- The party's generation for a WRITE: the open one, or a new one (R547). -/
def withOpenGen (v : State) (p : Nat) (gen : Word) : State :=
  if (openGen v p).isSome then v
  else { v with rk := { v.rk with gens := v.rk.gens ++ [{ party := p, gen }] } }

theorem withOpenGen_isSome (v : State) (p : Nat) (gen : Word) : (openGen (withOpenGen v p gen) p).isSome = true := by
  unfold withOpenGen
  split
  · assumption
  · unfold openGen
    simp

theorem withOpenGen_programming (v : State) (p : Nat) (gen : Word) :
    (withOpenGen v p gen).rk.programming = v.rk.programming := by
  unfold withOpenGen
  split <;> rfl

theorem withOpenGen_queues (v : State) (p : Nat) (gen : Word) : (withOpenGen v p gen).queues = v.queues := by
  unfold withOpenGen
  split <;> rfl

/-- What a CHECKPOINT write leaves behind: its piece in the hands of the rucksack, its lines on their way. -/
def handPiece (c : Cmd) (p : Nat) (x : Piece) (v : State) : State :=
  stageLines (programWork (withOpenGen v p (ckGen c.line)) c (.piece p (ckGen c.line) x)) c.t (.command c.g c.idx)
    x.lines

theorem handPiece_rk (c : Cmd) (p : Nat) (x : Piece) (v : State) : (handPiece c p x v).rk =
    (programWork (withOpenGen v p (ckGen c.line)) c (.piece p (ckGen c.line) x)).rk :=
  (stageLines_only (.refl _ _) (.self _)).frame .rk (by decide)

theorem handPiece_queues (c : Cmd) (p : Nat) (x : Piece) (v : State) : (handPiece c p x v).queues = v.queues :=
  have staged (w : State) : (stageLines w c.t (.command c.g c.idx) x.lines).queues = w.queues :=
    (stageLines_only (.refl _ w) (.self _)).frame .queues (by decide)
  (staged _).trans (withOpenGen_queues v p (ckGen c.line))

theorem issueCheckpoint_write {c : Cmd} {d : Desc} (write : ckOp c.line = 0) (gen : ckGen c.line ≠ 0xFFFFFFFF)
    (allowed : writeAllowed s (tileParty s c.t) c.t (ckGen c.line) (ckKey c.line) = true)
    (named : inScratch s c.t (64 * ckSlot c.line) = true → lineReady s c.t (64 * ckSlot c.line) = true)
    (used : useDesc s c.t c.copies 0 (ckSlot c.line) { tile := some c.t } = (.ok d, u))
    (ready : descReady u c.t d = true)
    (room : makeRoom (captureLines u c.t d true).2 (tileParty s c.t) (halfOf c.t)
      (64 * countStored (captureLines u c.t d true).1) = some v) :
    issueCheckpoint c s = .run (handPiece c (tileParty s c.t)
      { tile := c.t, key := ckKey c.line, desc := slotLine u c.t c.copies (ckSlot c.line),
        lines := (captureLines u c.t d true).1 } v) := by
  unfold issueCheckpoint
  simp only [write, gen, allowed, slot_handed named, used, ready, writePiece, room, Bool.not_true, Bool.false_eq_true,
    if_true, if_false, decide_false, Bool.or_self, Nat.reduceLeDiff, Nat.zero_ne_one]
  rfl

/-- A SEAL of the open generation waits at the issue point (R549). -/
theorem issueCheckpoint_seal {c : Cmd} {x : Gen} (sealing : ckOp c.line = 1)
    (isOpen : openGen s (tileParty s c.t) = some x) (named : x.gen = ckGen c.line)
    (gen : ckGen c.line ≠ 0xFFFFFFFF) : issueCheckpoint c s = .wait := by
  unfold issueCheckpoint
  simp only [sealing, isOpen, named, gen, Option.any_some, decide_false, decide_true, Nat.reduceLeDiff, Bool.or_self,
    Bool.false_eq_true, if_true, if_false]

/-! #### RESTORE (R550) -/

theorem issueRestore_gives {c : Cmd} {bad : List Nat} {d : Desc} {x : Piece}
    (piece : pieceFor s c.t (ckGen c.line) (ckKey c.line) = some x)
    (named : inScratch s c.t (64 * ckSlot c.line) = true → lineReady s c.t (64 * ckSlot c.line) = true)
    (used : useDesc s c.t c.copies 0 (ckSlot c.line) { write := true } = (.ok d, u)) (own : descTile d = c.t)
    (fits : (uniqueLines d).length = x.lines.length) (plain : d.acc = false) (ready : descReady u c.t d = true) :
    issueRestore bad c s =
      giveLines c d (loseLines bad 0 x.lines) (rereadPiece u (ckGen c.line) bad x).2 := by
  unfold issueRestore
  simp only [piece, slot_handed named, used, own, fits, plain, ready, Bool.not_true, Bool.false_eq_true, if_false,
    ne_eq, not_true, decide_false, Bool.or_self]
  rfl

/-! #### LOGBOOK (R559, R560) -/

theorem issueLogbook_write {c : Cmd} {bad : List Nat} {d : Desc} (write : lbRead c.line = false)
    (named : inScratch s c.t (64 * lbSlot c.line) = true → lineReady s c.t (64 * lbSlot c.line) = true)
    (used : useDesc s c.t c.copies 0 (lbSlot c.line) { write := false, tile := some c.t } = (.ok d, u))
    (fits : 64 * (uniqueLines d).length ≤ 2 ^ 30) (ready : descReady u c.t d = true) :
    let r := captureLines u c.t d false
    issueLogbook bad c s = .run (stageLines (programWork r.2 c (.record (lbRecord r.2 c.t c.line r.1))) c.t
      (.command c.g c.idx) r.1) := by
  unfold issueLogbook
  simp only [write, slot_handed named, used, Nat.not_lt.2 fits, ready, Bool.not_true, Bool.not_false,
    Bool.false_eq_true, if_true, if_false]

theorem issueLogbook_gives {c : Cmd} {bad : List Nat} {d : Desc} {x : LogRecord} (read : lbRead c.line = true)
    (named : inScratch s c.t (64 * lbSlot c.line) = true → lineReady s c.t (64 * lbSlot c.line) = true)
    (used : useDesc s c.t c.copies 0 (lbSlot c.line) { write := true, tile := some c.t } = (.ok d, u))
    (held : u.rk.log.find? (fun x => sameKey x (lbRecord u c.t c.line [])) = some x)
    (fits : x.lines.length = (uniqueLines d).length) (ready : descReady u c.t d = true) :
    issueLogbook bad c s = giveLines c d (loseLines bad 0 x.lines) (rereadRecord u bad x).2 := by
  unfold issueLogbook
  simp only [read, slot_handed named, used, held, fits, ready, Bool.not_true, Bool.false_eq_true, if_false, ne_eq,
    not_true]
  rfl

end

/-- Settles O8: each command by what the rucksack makes of it once its checks have passed. -/
theorem rucksackCommands : Obligations.RucksackCommands := by
  unfold Obligations.RucksackCommands
  refine ⟨?write, ?sealStands, ?restore, ?logWrite, ?logRead⟩
  case write =>
    intro s u v g f d h op c l p write gen allowed named used ready lines room
    have run := issue_run h (ok := (· = 0x50)) (decide_eq_true op)
      (issueCheckpoint_write (c := c) write gen allowed named used ready room)
    refine ⟨_, congrArg Host.Outcome.next run, ?_, ?_, ?_⟩
    · rw [passIssue_rk, handPiece_rk, programWork, withOpenGen_programming]
      rfl
    · rw [openGen_congr (passIssue_rk ..), openGen_congr (handPiece_rk ..)]
      exact withOpenGen_isSome v p _
    · refine (passIssue_inflight _ c _).trans ?_
      rw [State.queue_congr (handPiece_queues ..)]
      rfl
  case sealStands =>
    intro s g f x h op sealing isOpen named gen
    exact ⟨congrArg Host.Outcome.next (issue_wait h (decide_eq_true op) (issueCheckpoint_seal sealing isOpen named gen)),
      h.stands⟩
  case restore =>
    intro s u g bad f d x h op c l piece named used own fits plain ready v
    exact congrArg Host.Outcome.next (issue_giveLines h (decide_eq_true op)
      (issueRestore_gives (c := c) piece named used own fits plain ready))
  case logWrite =>
    intro s u g bad f d h op c l write named used fits ready r
    exact congrArg Host.Outcome.next (issue_run h (decide_eq_true op)
      (issueLogbook_write (c := c) write named used fits ready))
  case logRead =>
    intro s u g bad f d x h op c l read named used held fits ready v
    exact congrArg Host.Outcome.next (issue_giveLines h (decide_eq_true op)
      (issueLogbook_gives (c := c) read named used held fits ready))

end Sys2Proof.Machine
